-- ==== Sys2Proof/Word.lean ====
section
/-!
DEFINITION. Sys2Proof/Word.lean: the word types of the machine.
-/

namespace Sys2Proof

/-- One lane of a register, and every 64-bit register (01 R45). -/
abbrev Word := BitVec 64

/-- One byte of memory (01 R8). -/
abbrev Byte := BitVec 8

/-- A set of lanes: bit l is lane l (05 R138). -/
abbrev Mask := BitVec 64

end Sys2Proof
end

