-- ==== Sys2Proof/Syntax.lean ====
section
/-!
DEFINITION. Sys2Proof/Syntax.lean: the instructions of spec/opcode_table.json, one constructor per row
(212 words of Teino 3 and 71 events that have no encoding), and the operands they carry.
-/

namespace Sys2Proof

/-- Element types of majors 0x04 to 0x0D, in major order (01 R36). -/
inductive IntTy where
  | i8x8 | n8x8 | i16x4 | n16x4 | i32 | n32 | i32x2 | n32x2 | i64 | n64
deriving DecidableEq, Repr, Inhabited

/-- Widths of majors 0x0E and 0x0F (02 R62). -/
inductive BTy where
  | b32 | b64
deriving DecidableEq, Repr, Inhabited

/-- Types of majors 0x10 to 0x13, 0x20 to 0x23 and 0x30 to 0x33 (01 R36). -/
inductive WTy where
  | i32 | n32 | i64 | n64
deriving DecidableEq, Repr, Inhabited

/-- Float types of majors 0x18 to 0x1F (07 R180). -/
inductive FTy where
  | f32 | f32x2 | f16x4 | bf16x4
deriving DecidableEq, Repr, Inhabited

/-- The two types fdot4 has (07 R185). -/
inductive HTy where
  | f16x4 | bf16x4
deriving DecidableEq, Repr, Inhabited

/-- The two types lea has (02 R61). -/
inductive LTy where
  | i64 | n64
deriving DecidableEq, Repr, Inhabited

/-- Types of the float atomics, majors 0x34 and 0x35 (15 R341). -/
inductive ATy where
  | f32 | f16x2
deriving DecidableEq, Repr, Inhabited

/-- Access sizes of majors 0x2A to 0x2D (02 R96). -/
inductive MSz where
  | b8 | b16 | b32 | b64
deriving DecidableEq, Repr, Inhabited

/-- The X prefix that may stand before a word (01 R28, R29): its kind and its fields, the guard included. -/
inductive Pre where
  /-- no prefix: guard p7, every field 0 -/
  | none
  /-- kind 0, operand -/
  | k0 (neg : Bool) (gp : BitVec 3) (c : BitVec 7) (rnd : BitVec 3) (sat sube : Bool) (subi : BitVec 3) (flg : Bool)
  /-- kind 1, scalar extension -/
  | k1 (neg : Bool) (gp : BitVec 3) (c : BitVec 7) (dx ax bx cx : BitVec 2) (flg : Bool)
  /-- kind 2, sympathetic -/
  | k2 (neg : Bool) (gp : BitVec 3) (which : BitVec 2) (k : BitVec 4) (c : BitVec 7) (rnd : BitVec 3) (sat flg : Bool)
  /-- kind 3, indexed -/
  | k3 (neg : Bool) (gp : BitVec 3) (which x : BitVec 2) (off c : BitVec 7)
  /-- kind 4, memory -/
  | k4 (neg : Bool) (gp : BitVec 3) (ord scope : BitVec 3) (offh : BitVec 12)
deriving DecidableEq, Repr, Inhabited

/-- Where an SRAM error was found (05 R149, 10 R234). -/
inductive UeSite where
  /-- storage of a team: register row, mortar, scratchpad, slot, tile or resonance buffer -/
  | team (tm : Nat)
  /-- a clean level-1 line -/
  | cleanLine (die core line : Nat)
  /-- a dirty level-1 line -/
  | dirtyLine (die core line : Nat)
  /-- a line of an instruction cache, by parity (10 R234) -/
  | fetchLine (die core : Nat)
  /-- an entry of a TLB or walker cache: context and virtual address (10 R234) -/
  | transEntry (die core ctx va : Nat)
  /-- a correctable error in storage of a core: 1 register rows, 2 mortar, 3 scratchpad, 4 operand slots, 5 accumulator tiles,
  6 resonance buffer (10 R234) -/
  | corrected (kind die core : Nat)
  /-- an error that a device of a GDDR channel corrected (10 R234) -/
  | channel (die chan : Nat)
deriving DecidableEq, Repr, Inhabited

/-- What scrubbing one level-2 line found (10 R234). -/
inductive ScrubResult where
  | clean | corrected | uncorrectableClean | uncorrectableDirty
deriving DecidableEq, Repr, Inhabited

/-- One posted write of the host (21 R436), or one of its AtomicOps (18 R395, 21 R438): a physical address and its bytes. -/
structure HostWrite where
  pa : Nat
  bytes : List (BitVec 8)
  /-- 0 a posted write, 1 FetchAdd, 2 Swap, 3 CAS -/
  atom : Nat
  /-- what a CAS compares with -/
  cmp : List (BitVec 8)
  /-- the Relaxed Ordering or ID-Based Ordering attribute of a posted write -/
  relaxed : Bool
deriving DecidableEq, Repr, Inhabited

/-- What a member of a collective that runs on another device has sent of a chunk: its bytes, and whether its count, type, OP and
table are the same (15 R357, R358). -/
structure CollPart where
  member : Nat
  agrees : Bool
  bytes : List (BitVec 8)
deriving DecidableEq, Repr, Inhabited

/-- An image offered to the system controller (21 R445). -/
structure Image where
  /-- 0 controller firmware, 1 engine firmware, 2 resident control program -/
  kind : Nat
  secver : Nat
  body : List (BitVec 8)
  trailer : List (BitVec 8)
deriving DecidableEq, Repr, Inhabited

/-- An access of a peer device over a Relmer port (14 R314, 21 R440). -/
structure PeerAccess where
  write : Bool
  pa : Nat
  bytes : List (BitVec 8)
deriving DecidableEq, Repr, Inhabited

/-- The instructions: one constructor per row of spec/opcode_table.json, in its order. -/
inductive Instr where
  /-- `HEAD`, R21: A voice enters a course: the structure and page checks run, the voice waits until every counter named in the wait mask is zero, then passes the head and its mortar reads zero. -/
  | head (h : Bool) (l : BitVec 3) (a : BitVec 4) (b : BitVec 4) (w : BitVec 12)
  /-- `ADD`, R57: Per-sub-element integer addition, wrapping or saturating. -/
  | add (x : Pre) (ch : Bool) (t : IntTy) (d : BitVec 7) (a : BitVec 7) (b : BitVec 7)
  /-- `SUB`, R57: Per-sub-element integer subtraction. -/
  | sub (x : Pre) (ch : Bool) (t : IntTy) (d : BitVec 7) (a : BitVec 7) (b : BitVec 7)
  /-- `MUL`, R57: Per-sub-element integer multiplication. -/
  | mul (x : Pre) (ch : Bool) (t : IntTy) (d : BitVec 7) (a : BitVec 7) (b : BitVec 7)
  /-- `MULH`, R57: Upper half of the exact double-width product. -/
  | mulh (x : Pre) (ch : Bool) (t : IntTy) (d : BitVec 7) (a : BitVec 7) (b : BitVec 7)
  /-- `MAD`, R57: Integer multiply-add x*y+z with one reduction or clamp. -/
  | mad (x : Pre) (ch : Bool) (t : IntTy) (d : BitVec 7) (a : BitVec 7) (b : BitVec 7)
  /-- `NEG`, R57: Integer negation under a signed major. -/
  | ineg (x : Pre) (ch : Bool) (t : IntTy) (d : BitVec 7) (a : BitVec 7)
  /-- `ABS`, R57: Integer absolute value under a signed major. -/
  | iabs (x : Pre) (ch : Bool) (t : IntTy) (d : BitVec 7) (a : BitVec 7)
  /-- `MIN`, R57: Smaller of two integers by type order. -/
  | imin (x : Pre) (ch : Bool) (t : IntTy) (d : BitVec 7) (a : BitVec 7) (b : BitVec 7)
  /-- `MAX`, R57: Larger of two integers by type order. -/
  | imax (x : Pre) (ch : Bool) (t : IntTy) (d : BitVec 7) (a : BitVec 7) (b : BitVec 7)
  /-- `SAD`, R57: Sum of absolute differences plus an accumulator. -/
  | sad (x : Pre) (ch : Bool) (t : IntTy) (d : BitVec 7) (a : BitVec 7) (b : BitVec 7)
  /-- `ADD3`, R57: Three-operand integer addition. -/
  | add3 (x : Pre) (ch : Bool) (t : IntTy) (d : BitVec 7) (a : BitVec 7) (b : BitVec 7)
  /-- `CMP`, R58: Integer comparison writing a predicate per active lane. -/
  | cmp (x : Pre) (ch : Bool) (t : IntTy) (n : BitVec 4) (p : BitVec 3) (a : BitVec 7) (b : BitVec 7)
  /-- `SEL`, R59: Per-lane select between two operands by a predicate. -/
  | sel (x : Pre) (ch : Bool) (t : IntTy) (d : BitVec 7) (a : BitVec 7) (b : BitVec 7)
  /-- `MOV`, R57: Integer move. -/
  | mov (x : Pre) (ch : Bool) (t : IntTy) (d : BitVec 7) (a : BitVec 7)
  /-- `CVT`, R60: Conversion between integer types, widening or narrowing one part. -/
  | cvt (x : Pre) (ch : Bool) (t : IntTy) (d : BitVec 7) (a : BitVec 7) (h : BitVec 3) (s : BitVec 4)
  /-- `LEA`, R61: Address computation a + (ext(b) << c). -/
  | lea (x : Pre) (ch : Bool) (t : LTy) (d : BitVec 7) (a : BitVec 7) (b : BitVec 7)
  /-- `SHL`, R62: Logical shift left. -/
  | shl (x : Pre) (ch : Bool) (w : BTy) (d : BitVec 7) (a : BitVec 7) (b : BitVec 7)
  /-- `SHR`, R62: Logical shift right. -/
  | shr (x : Pre) (ch : Bool) (w : BTy) (d : BitVec 7) (a : BitVec 7) (b : BitVec 7)
  /-- `SAR`, R62: Arithmetic shift right. -/
  | sar (x : Pre) (ch : Bool) (w : BTy) (d : BitVec 7) (a : BitVec 7) (b : BitVec 7)
  /-- `AND`, R62: Bitwise and. -/
  | band (x : Pre) (ch : Bool) (w : BTy) (d : BitVec 7) (a : BitVec 7) (b : BitVec 7)
  /-- `OR`, R62: Bitwise or. -/
  | bor (x : Pre) (ch : Bool) (w : BTy) (d : BitVec 7) (a : BitVec 7) (b : BitVec 7)
  /-- `XOR`, R62: Bitwise exclusive or. -/
  | bxor (x : Pre) (ch : Bool) (w : BTy) (d : BitVec 7) (a : BitVec 7) (b : BitVec 7)
  /-- `ANDN`, R62: a AND NOT b. -/
  | andn (x : Pre) (ch : Bool) (w : BTy) (d : BitVec 7) (a : BitVec 7) (b : BitVec 7)
  /-- `ORN`, R62: a OR NOT b. -/
  | orn (x : Pre) (ch : Bool) (w : BTy) (d : BitVec 7) (a : BitVec 7) (b : BitVec 7)
  /-- `NOT`, R62: Bitwise complement. -/
  | bnot (x : Pre) (ch : Bool) (w : BTy) (d : BitVec 7) (a : BitVec 7)
  /-- `POPC`, R62: Population count. -/
  | popc (x : Pre) (ch : Bool) (w : BTy) (d : BitVec 7) (a : BitVec 7)
  /-- `CLZ`, R62: Count leading zeros. -/
  | clz (x : Pre) (ch : Bool) (w : BTy) (d : BitVec 7) (a : BitVec 7)
  /-- `CTZ`, R62: Count trailing zeros. -/
  | ctz (x : Pre) (ch : Bool) (w : BTy) (d : BitVec 7) (a : BitVec 7)
  /-- `BREV`, R62: Bit reversal. -/
  | brev (x : Pre) (ch : Bool) (w : BTy) (d : BitVec 7) (a : BitVec 7)
  /-- `PERM`, R63: Byte permutation of b:a selected by c. -/
  | perm (x : Pre) (ch : Bool) (w : BTy) (d : BitVec 7) (a : BitVec 7) (b : BitVec 7)
  /-- `IDOT4_I8`, R64: Signed four-byte dot product plus accumulator. -/
  | idot4I8 (x : Pre) (ch : Bool) (d : BitVec 7) (a : BitVec 7) (b : BitVec 7)
  /-- `IDOT4_N8`, R64: Unsigned four-byte dot product plus accumulator. -/
  | idot4N8 (x : Pre) (ch : Bool) (d : BitVec 7) (a : BitVec 7) (b : BitVec 7)
  /-- `BFX`, R67: Bit-field extract. -/
  | bfx (x : Pre) (ch : Bool) (t : WTy) (d : BitVec 7) (a : BitVec 7) (b : BitVec 7)
  /-- `BFI`, R67: Bit-field insert. -/
  | bfi (x : Pre) (ch : Bool) (t : WTy) (d : BitVec 7) (a : BitVec 7) (b : BitVec 7)
  /-- `FSHL`, R67: Funnel shift left. -/
  | fshl (x : Pre) (ch : Bool) (t : WTy) (d : BitVec 7) (a : BitVec 7) (b : BitVec 7)
  /-- `FSHR`, R67: Funnel shift right. -/
  | fshr (x : Pre) (ch : Bool) (t : WTy) (d : BitVec 7) (a : BitVec 7) (b : BitVec 7)
  /-- `BMSK`, R67: Bit mask generation. -/
  | bmsk (x : Pre) (ch : Bool) (t : WTy) (d : BitVec 7) (b : BitVec 7)
  /-- `MOVI`, R65: Move a sign-extended 11-bit immediate. -/
  | movi (x : Pre) (ch : Bool) (d : BitVec 7) (i : BitVec 11)
  /-- `MOVH`, R65: Shift a left 11 and OR an immediate. -/
  | movh (x : Pre) (ch : Bool) (d : BitVec 7) (a : BitVec 7) (i : BitVec 11)
  /-- `XSET`, R87: Set an index register's index and bounds per lane. -/
  | xset (x : Pre) (ch : Bool) (n : BitVec 2) (a : BitVec 7) (i : BitVec 11)
  /-- `FADD`, R185: Floating-point addition. -/
  | fadd (x : Pre) (ch : Bool) (t : FTy) (d : BitVec 7) (a : BitVec 7) (b : BitVec 7)
  /-- `FSUB`, R185: Floating-point subtraction. -/
  | fsub (x : Pre) (ch : Bool) (t : FTy) (d : BitVec 7) (a : BitVec 7) (b : BitVec 7)
  /-- `FMUL`, R185: Floating-point multiplication. -/
  | fmul (x : Pre) (ch : Bool) (t : FTy) (d : BitVec 7) (a : BitVec 7) (b : BitVec 7)
  /-- `FFMA`, R185: Fused multiply-add rounded once. -/
  | ffma (x : Pre) (ch : Bool) (t : FTy) (d : BitVec 7) (a : BitVec 7) (b : BitVec 7)
  /-- `FMIN`, R186: IEEE minimumNumber. -/
  | fmin (x : Pre) (ch : Bool) (t : FTy) (d : BitVec 7) (a : BitVec 7) (b : BitVec 7)
  /-- `FMAX`, R186: IEEE maximumNumber. -/
  | fmax (x : Pre) (ch : Bool) (t : FTy) (d : BitVec 7) (a : BitVec 7) (b : BitVec 7)
  /-- `FCMP`, R187: FP32 comparison writing a predicate. -/
  | fcmp (x : Pre) (ch : Bool) (n : BitVec 4) (p : BitVec 3) (a : BitVec 7) (b : BitVec 7)
  /-- `FCLASS`, R188: Classify a float into one of ten classes. -/
  | fclass (x : Pre) (ch : Bool) (t : FTy) (d : BitVec 7) (a : BitVec 7)
  /-- `FRND`, R189: Round to an integral value in the same format. -/
  | frnd (x : Pre) (ch : Bool) (t : FTy) (d : BitVec 7) (a : BitVec 7)
  /-- `FCVT`, R190: Conversion between float types. -/
  | fcvt (x : Pre) (ch : Bool) (t : FTy) (d : BitVec 7) (a : BitVec 7) (h : BitVec 3) (s : BitVec 2)
  /-- `FTOI`, R191: Float to integer conversion with clamping. -/
  | ftoi (x : Pre) (ch : Bool) (t : FTy) (d : BitVec 7) (a : BitVec 7) (h : BitVec 3) (s : BitVec 4)
  /-- `ITOF`, R192: Integer to float conversion. -/
  | itof (x : Pre) (ch : Bool) (t : FTy) (d : BitVec 7) (a : BitVec 7) (h : BitVec 3) (s : BitVec 4)
  /-- `FSCALE`, R193: Multiply by a power of two with one rounding. -/
  | fscale (x : Pre) (ch : Bool) (t : FTy) (d : BitVec 7) (a : BitVec 7) (b : BitVec 7)
  /-- `FDOT2`, R194: Two-term fused dot product into FP32. -/
  | fdot2 (x : Pre) (ch : Bool) (t : FTy) (d : BitVec 7) (a : BitVec 7) (b : BitVec 7)
  /-- `FDOT4`, R194: Four-term fused dot product into FP32. -/
  | fdot4 (x : Pre) (ch : Bool) (t : HTy) (d : BitVec 7) (a : BitVec 7) (b : BitVec 7)
  /-- `FDIV`, R198: Correctly rounded division, long-latency. -/
  | fdiv (x : Pre) (ch : Bool) (t : FTy) (d : BitVec 7) (a : BitVec 7) (b : BitVec 7)
  /-- `FRCP`, R199: Reciprocal approximation, long-latency. -/
  | frcp (x : Pre) (ch : Bool) (t : FTy) (d : BitVec 7) (a : BitVec 7)
  /-- `FRSQ`, R199: Reciprocal square root, long-latency. -/
  | frsq (x : Pre) (ch : Bool) (t : FTy) (d : BitVec 7) (a : BitVec 7)
  /-- `FSQRT`, R198: Correctly rounded square root, long-latency. -/
  | fsqrt (x : Pre) (ch : Bool) (t : FTy) (d : BitVec 7) (a : BitVec 7)
  /-- `FEXP2`, R199: Base-2 exponential, long-latency. -/
  | fexp2 (x : Pre) (ch : Bool) (t : FTy) (d : BitVec 7) (a : BitVec 7)
  /-- `FLOG2`, R199: Base-2 logarithm, long-latency. -/
  | flog2 (x : Pre) (ch : Bool) (t : FTy) (d : BitVec 7) (a : BitVec 7)
  /-- `FSIN`, R199: Sine, long-latency. -/
  | fsin (x : Pre) (ch : Bool) (t : FTy) (d : BitVec 7) (a : BitVec 7)
  /-- `FCOS`, R199: Cosine, long-latency. -/
  | fcos (x : Pre) (ch : Bool) (t : FTy) (d : BitVec 7) (a : BitVec 7)
  /-- `FTANH`, R199: Hyperbolic tangent, long-latency. -/
  | ftanh (x : Pre) (ch : Bool) (t : FTy) (d : BitVec 7) (a : BitVec 7)
  /-- `FPACK_TF8`, R196: Round floats into TF8 code places. -/
  | fpackTf8 (x : Pre) (ch : Bool) (t : FTy) (d : BitVec 7) (a : BitVec 7) (h : BitVec 3)
  /-- `FPACK_TF6`, R196: Round floats into TF6 code places. -/
  | fpackTf6 (x : Pre) (ch : Bool) (t : FTy) (d : BitVec 7) (a : BitVec 7) (h : BitVec 3)
  /-- `FUNPACK_TF8`, R197: Decode TF8 code places into floats. -/
  | funpackTf8 (x : Pre) (ch : Bool) (t : FTy) (d : BitVec 7) (a : BitVec 7) (h : BitVec 3)
  /-- `FUNPACK_TF6`, R197: Decode TF6 code places into floats. -/
  | funpackTf6 (x : Pre) (ch : Bool) (t : FTy) (d : BitVec 7) (a : BitVec 7) (h : BitVec 3)
  /-- `SHFL_IDX`, R71: Read a sub-element from an indexed lane. -/
  | shflIdx (x : Pre) (ch : Bool) (t : WTy) (d : BitVec 7) (a : BitVec 7) (b : BitVec 7)
  /-- `SHFL_UP`, R71: Read from lane l minus b. -/
  | shflUp (x : Pre) (ch : Bool) (t : WTy) (d : BitVec 7) (a : BitVec 7) (b : BitVec 7)
  /-- `SHFL_DOWN`, R71: Read from lane l plus b. -/
  | shflDown (x : Pre) (ch : Bool) (t : WTy) (d : BitVec 7) (a : BitVec 7) (b : BitVec 7)
  /-- `SHFL_XOR`, R71: Read from lane l XOR b. -/
  | shflXor (x : Pre) (ch : Bool) (t : WTy) (d : BitVec 7) (a : BitVec 7) (b : BitVec 7)
  /-- `VOTE_ALL`, R72: AND of a predicate over active lanes. -/
  | voteAll (x : Pre) (ch : Bool) (p : BitVec 3) (q : BitVec 3)
  /-- `VOTE_ANY`, R72: OR of a predicate over active lanes. -/
  | voteAny (x : Pre) (ch : Bool) (p : BitVec 3) (q : BitVec 3)
  /-- `VOTE_BALLOT`, R72: Mask of a predicate over active lanes. -/
  | voteBallot (x : Pre) (ch : Bool) (d : BitVec 7) (q : BitVec 3)
  /-- `MATCH`, R73: Mask of active lanes with an equal key. -/
  | matchKey (x : Pre) (ch : Bool) (t : WTy) (d : BitVec 7) (a : BitVec 7) (k : BitVec 7)
  /-- `LRED_ADD`, R74: Sum over active lanes. -/
  | lredAdd (x : Pre) (ch : Bool) (t : WTy) (d : BitVec 7) (a : BitVec 7)
  /-- `LRED_MIN`, R74: Minimum over active lanes. -/
  | lredMin (x : Pre) (ch : Bool) (t : WTy) (d : BitVec 7) (a : BitVec 7)
  /-- `LRED_MAX`, R74: Maximum over active lanes. -/
  | lredMax (x : Pre) (ch : Bool) (t : WTy) (d : BitVec 7) (a : BitVec 7)
  /-- `LRED_AND`, R74: AND over active lanes. -/
  | lredAnd (x : Pre) (ch : Bool) (t : WTy) (d : BitVec 7) (a : BitVec 7)
  /-- `LRED_OR`, R74: OR over active lanes. -/
  | lredOr (x : Pre) (ch : Bool) (t : WTy) (d : BitVec 7) (a : BitVec 7)
  /-- `LRED_XOR`, R74: XOR over active lanes. -/
  | lredXor (x : Pre) (ch : Bool) (t : WTy) (d : BitVec 7) (a : BitVec 7)
  /-- `LSCAN_ADD`, R74: Inclusive prefix sum over active lanes. -/
  | lscanAdd (x : Pre) (ch : Bool) (t : WTy) (d : BitVec 7) (a : BitVec 7)
  /-- `LSCAN_MAX`, R74: Inclusive prefix maximum over active lanes. -/
  | lscanMax (x : Pre) (ch : Bool) (t : WTy) (d : BitVec 7) (a : BitVec 7)
  /-- `PLOP`, R68: Predicate logic by a two-input truth table. -/
  | plop (x : Pre) (ch : Bool) (t : BitVec 4) (p : BitVec 3) (a : BitVec 3) (b : BitVec 3)
  /-- `PMOV_TO_PRED`, R69: Set a predicate from a register. -/
  | pmovToPred (x : Pre) (ch : Bool) (p : BitVec 3) (a : BitVec 7)
  /-- `PMOV_FROM_PRED`, R69: Write a predicate into a register or mask. -/
  | pmovFromPred (x : Pre) (ch : Bool) (d : BitVec 7) (p : BitVec 3)
  /-- `JMPT`, R79: Per-lane jump through a table, splitting the voice by destination. -/
  | jmpt (x : Pre) (n : BitVec 7) (a : BitVec 7) (b : BitVec 7)
  /-- `RET`, R78: Per-lane return to the popped packet index. -/
  | ret (x : Pre)
  /-- `EXIT`, R80: Active lanes exit; the rest fall through. -/
  | exit (x : Pre)
  /-- `YIELD`, R81: Defer the voice's next head until every other eligible voice has issued. -/
  | yield (x : Pre) (ch : Bool)
  /-- `NOP`, R81: No operation. -/
  | nop (x : Pre) (ch : Bool) (d : BitVec 7) (a : BitVec 7) (b : BitVec 7)
  /-- `BRK`, R82: Complete, then raise BREAK with a 14-bit code. -/
  | brk (x : Pre) (ch : Bool) (k : BitVec 14)
  /-- `SYPUB`, R88: Append each active lane's value to its item's sympathetic stream. -/
  | sypub (x : Pre) (ch : Bool) (a : BitVec 7)
  /-- `SYDONE`, R91: Close an item's sympathetic stream with a close value. -/
  | sydone (x : Pre) (ch : Bool) (a : BitVec 7)
  /-- `SETMODE`, R86: Read and masked-update MODE. -/
  | setmode (x : Pre) (ch : Bool) (d : BitVec 7) (a : BitVec 7) (b : BitVec 7)
  /-- `BRA`, R77: Conditional relative branch, splitting the voice. -/
  | bra (n : Bool) (p : BitVec 3) (o : BitVec 21)
  /-- `CALL`, R78: Conditional call pushing the fall-through onto each lane's return stack. -/
  | call (n : Bool) (p : BitVec 3) (o : BitVec 21)
  /-- `SRD`, R84: Read a special register. -/
  | srd (x : Pre) (ch : Bool) (d : BitVec 7) (i : BitVec 14)
  /-- `SWR`, R84: Write a special register. -/
  | swr (x : Pre) (ch : Bool) (a : BitVec 7) (i : BitVec 14)
  /-- `TRAP`, R144: In handler state, kill the grid with the current cause and a code. -/
  | trap (x : Pre) (ch : Bool) (k : BitVec 14)
  /-- `RETT`, R142: Return from the trap handler, restoring voices, park table and mortar. -/
  | rett (x : Pre)
  /-- `SYS`, R145: Complete, then raise SYSCALL with a 14-bit code. -/
  | sys (x : Pre) (ch : Bool) (k : BitVec 14)
  /-- `CTXSV`, R156: Stop a grid and save it into a full save area. -/
  | ctxsv (x : Pre) (ch : Bool) (a : BitVec 7) (b : BitVec 7)
  /-- `CTXRS`, R157: Restore a grid from a full save area. -/
  | ctxrs (x : Pre) (ch : Bool) (a : BitVec 7)
  /-- `TLBINV`, R158: Drop translation entries of the partition for an address or all. -/
  | tlbinv (x : Pre) (ch : Bool) (a : BitVec 7) (k : BitVec 2)
  /-- `LD`, R96: Load with zero extension. -/
  | ld (x : Pre) (ch : Bool) (z : MSz) (f : Bool) (t : BitVec 7) (b : BitVec 7) (o : BitVec 7)
  /-- `LD_SEXT`, R96: Load with sign extension. -/
  | ldSext (x : Pre) (ch : Bool) (z : MSz) (f : Bool) (t : BitVec 7) (b : BitVec 7) (o : BitVec 7)
  /-- `ST`, R96: Store the low bits of a register. -/
  | st (x : Pre) (ch : Bool) (z : MSz) (f : Bool) (t : BitVec 7) (b : BitVec 7) (o : BitVec 7)
  /-- `LDS`, R97: Scratchpad load with zero extension. -/
  | lds (x : Pre) (ch : Bool) (z : MSz) (f : Bool) (t : BitVec 7) (b : BitVec 7) (o : BitVec 7)
  /-- `LDS_SEXT`, R97: Scratchpad load with sign extension. -/
  | ldsSext (x : Pre) (ch : Bool) (z : MSz) (f : Bool) (t : BitVec 7) (b : BitVec 7) (o : BitVec 7)
  /-- `STS`, R97: Scratchpad store. -/
  | sts (x : Pre) (ch : Bool) (z : MSz) (f : Bool) (t : BitVec 7) (b : BitVec 7) (o : BitVec 7)
  /-- `LDC`, R98: Load through the constant path. -/
  | ldc (x : Pre) (ch : Bool) (z : MSz) (f : Bool) (t : BitVec 7) (b : BitVec 7) (o : BitVec 7)
  /-- `LDM`, R102: Load consecutive registers element by element, restartable. -/
  | ldm (x : Pre) (ch : Bool) (f : Bool) (t : BitVec 7) (b : BitVec 7) (n : BitVec 7)
  /-- `STM`, R102: Store consecutive registers element by element, restartable. -/
  | stm (x : Pre) (ch : Bool) (f : Bool) (t : BitVec 7) (b : BitVec 7) (n : BitVec 7)
  /-- `PRFM`, R256: Prefetch a line per lane. -/
  | prfm (x : Pre) (ch : Bool) (l : BitVec 2) (b : BitVec 7) (o : BitVec 7)
  /-- `CWB`, R257: Write back dirty lines of a range in the scoped caches. -/
  | cwb (x : Pre) (ch : Bool) (f : Bool) (t : BitVec 7) (b : BitVec 7) (o : BitVec 7)
  /-- `CINV`, R257: Write back and drop lines of a range in the scoped caches. -/
  | cinv (x : Pre) (ch : Bool) (f : Bool) (t : BitVec 7) (b : BitVec 7) (o : BitVec 7)
  /-- `ICINV`, R258: Drop instruction-cache lines of a range on every die. -/
  | icinv (x : Pre) (ch : Bool) (f : Bool) (t : BitVec 7) (b : BitVec 7) (o : BitVec 7)
  /-- `FENCE`, R259: Acquire, release or acquire-release fence at a scope. -/
  | fence (x : Pre) (ch : Bool) (f : Bool)
  /-- `ATOM_ADD`, R346: Atomic add returning the old value. -/
  | atomAdd (x : Pre) (ch : Bool) (t : WTy) (d : BitVec 7) (a : BitVec 7) (b : BitVec 7)
  /-- `ATOM_MIN`, R346: Atomic minimum. -/
  | atomMin (x : Pre) (ch : Bool) (t : WTy) (d : BitVec 7) (a : BitVec 7) (b : BitVec 7)
  /-- `ATOM_MAX`, R346: Atomic maximum. -/
  | atomMax (x : Pre) (ch : Bool) (t : WTy) (d : BitVec 7) (a : BitVec 7) (b : BitVec 7)
  /-- `ATOM_AND`, R346: Atomic AND. -/
  | atomAnd (x : Pre) (ch : Bool) (t : WTy) (d : BitVec 7) (a : BitVec 7) (b : BitVec 7)
  /-- `ATOM_OR`, R346: Atomic OR. -/
  | atomOr (x : Pre) (ch : Bool) (t : WTy) (d : BitVec 7) (a : BitVec 7) (b : BitVec 7)
  /-- `ATOM_XOR`, R346: Atomic XOR. -/
  | atomXor (x : Pre) (ch : Bool) (t : WTy) (d : BitVec 7) (a : BitVec 7) (b : BitVec 7)
  /-- `ATOM_EXCH`, R346: Atomic exchange. -/
  | atomExch (x : Pre) (ch : Bool) (t : WTy) (d : BitVec 7) (a : BitVec 7) (b : BitVec 7)
  /-- `ATOMC`, R348: Atomic compare-and-swap. -/
  | atomc (x : Pre) (ch : Bool) (t : WTy) (d : BitVec 7) (a : BitVec 7) (b : BitVec 7)
  /-- `RED_ADD`, R350: Atomic add without result. -/
  | redAdd (x : Pre) (ch : Bool) (t : WTy) (a : BitVec 7) (b : BitVec 7)
  /-- `RED_MIN`, R350: Atomic minimum without result. -/
  | redMin (x : Pre) (ch : Bool) (t : WTy) (a : BitVec 7) (b : BitVec 7)
  /-- `RED_MAX`, R350: Atomic maximum without result. -/
  | redMax (x : Pre) (ch : Bool) (t : WTy) (a : BitVec 7) (b : BitVec 7)
  /-- `RED_AND`, R350: Atomic AND without result. -/
  | redAnd (x : Pre) (ch : Bool) (t : WTy) (a : BitVec 7) (b : BitVec 7)
  /-- `RED_OR`, R350: Atomic OR without result. -/
  | redOr (x : Pre) (ch : Bool) (t : WTy) (a : BitVec 7) (b : BitVec 7)
  /-- `RED_XOR`, R350: Atomic XOR without result. -/
  | redXor (x : Pre) (ch : Bool) (t : WTy) (a : BitVec 7) (b : BitVec 7)
  /-- `WAITC`, R352: Arm monitors and complete when every lane's condition holds. -/
  | waitc (x : Pre) (ch : Bool) (t : WTy) (n : BitVec 4) (a : BitVec 7) (b : BitVec 7)
  /-- `ATOM_FADD`, R347: Atomic floating-point add returning the old value. -/
  | atomFadd (x : Pre) (ch : Bool) (t : ATy) (d : BitVec 7) (a : BitVec 7) (b : BitVec 7)
  /-- `RED_FADD`, R347: Atomic floating-point add without result. -/
  | redFadd (x : Pre) (ch : Bool) (t : ATy) (a : BitVec 7) (b : BitVec 7)
  /-- `LDTILE`, R268: Push a checked tile-load record to a command queue. -/
  | ldtile (x : Pre) (ch : Bool) (q : BitVec 3) (a : BitVec 7)
  /-- `QBIND_NONE`, R261: Unbind a queue register. -/
  | qbindNone (x : Pre) (ch : Bool) (q : BitVec 3)
  /-- `QBIND_CMD`, R261: Bind a queue to the core's CE command input. -/
  | qbindCmd (x : Pre) (ch : Bool) (q : BitVec 3)
  /-- `QBIND_TOK`, R261: Bind a queue to the group's CE tokens. -/
  | qbindTok (x : Pre) (ch : Bool) (q : BitVec 3)
  /-- `QBIND_ENG`, R261: Bind a queue to an engine's result tokens or the SXB port. -/
  | qbindEng (x : Pre) (ch : Bool) (q : BitVec 3) (a : BitVec 7)
  /-- `QBIND_LSEND`, R261: Bind a queue to the sending end of a team link. -/
  | qbindLsend (x : Pre) (ch : Bool) (q : BitVec 3) (a : BitVec 7)
  /-- `QBIND_LRECV`, R261: Bind a queue to the receiving end of a team link. -/
  | qbindLrecv (x : Pre) (ch : Bool) (q : BitVec 3) (a : BitVec 7)
  /-- `QPUSH`, R267: Push four scalars into a queue at once. -/
  | qpush (x : Pre) (ch : Bool) (q : BitVec 3) (a : BitVec 7)
  /-- `QCNT`, R262: Read a queue's state and element count. -/
  | qcnt (x : Pre) (ch : Bool) (q : BitVec 3) (a : BitVec 7)
  /-- `CBINIT`, R272: Configure a circular buffer. -/
  | cbinit (x : Pre) (ch : Bool) (a : BitVec 7) (b : BitVec 7) (n : BitVec 3)
  /-- `CBACQ`, R273: Acquire the next filled slot of a circular buffer. -/
  | cbacq (x : Pre) (ch : Bool) (f : Bool) (a : BitVec 7) (n : BitVec 3)
  /-- `CBREL`, R274: Free the oldest acquired slot of a circular buffer. -/
  | cbrel (x : Pre) (ch : Bool) (n : BitVec 3)
  /-- `CBSTAT`, R274: Read a circular buffer's counters. -/
  | cbstat (x : Pre) (ch : Bool) (a : BitVec 7) (n : BitVec 3)
  /-- `RTAG`, R275: Compare-and-set a ring tag byte. -/
  | rtag (x : Pre) (ch : Bool) (f : Bool) (a : BitVec 7) (b : BitVec 7)
  /-- `BOBINIT`, R270: Initialise a barrier object's pending count. -/
  | bobinit (x : Pre) (ch : Bool) (a : BitVec 7) (b : BitVec 7)
  /-- `BOBADD`, R270: Add to a barrier object's pending count. -/
  | bobadd (x : Pre) (ch : Bool) (a : BitVec 7) (b : BitVec 7)
  /-- `BOBWAIT`, R271: Wait until a barrier object is zero or faulted, returning word 0. -/
  | bobwait (x : Pre) (ch : Bool) (f : Bool) (a : BitVec 7) (b : BitVec 7)
  /-- `BAR_ARR`, R281: Arrive at a team or cluster barrier. -/
  | barArr (x : Pre) (ch : Bool) (b : BitVec 7) (n : BitVec 3)
  /-- `BAR_WAIT`, R282: Wait for the barrier phase of the group's last arrival. -/
  | barWait (x : Pre) (ch : Bool) (f : Bool) (k : Bool) (n : BitVec 3)
  /-- `HALO_DECL`, R335: Declare a halo tile and fill neighbours' generation-0 replicas. -/
  | haloDecl (x : Pre) (ch : Bool) (f : Bool) (a : BitVec 7)
  /-- `HALO_REL`, R336: Release a new generation of a halo tile. -/
  | haloRel (x : Pre) (ch : Bool) (f : Bool) (a : BitVec 7)
  /-- `HALO_WAIT`, R337: Wait for neighbours to deliver a generation. -/
  | haloWait (x : Pre) (ch : Bool) (f : Bool) (a : BitVec 7) (b : BitVec 7)
  /-- `HALO_DROP`, R339: Drop a halo handle and unpin its replicas. -/
  | haloDrop (x : Pre) (ch : Bool) (f : Bool) (a : BitVec 7)
  /-- `COLL`, R355: Start a tree collective described by a record. -/
  | coll (x : Pre) (ch : Bool) (f : Bool) (a : BitVec 7) (o : BitVec 3)
  /-- `SHOPEN`, R277: Open a shadow over a buffer. -/
  | shopen (x : Pre) (ch : Bool) (f : Bool) (a : BitVec 7) (b : BitVec 7) (i : Bool)
  /-- `PUBLISH`, R278: Publish an open shadow, swapping the buffer for every party. -/
  | publish (x : Pre) (ch : Bool) (f : Bool) (a : BitVec 7)
  /-- `SHDROP`, R279: Discard a shadow entry. -/
  | shdrop (x : Pre) (ch : Bool) (f : Bool) (a : BitVec 7)
  /-- `COMMIT`, R280: Publish every open shadow of a completed speculative grid at once. -/
  | commit (x : Pre) (ch : Bool) (f : Bool) (a : BitVec 7) (b : BitVec 7)
  /-- `DISCARD`, R280: Drop every shadow of a speculative grid. -/
  | discard (x : Pre) (ch : Bool) (f : Bool) (a : BitVec 7) (b : BitVec 7)
  /-- `LAUNCH`, R126: Check and accept or refuse a launch record and enqueue the grid. -/
  | launch (x : Pre) (ch : Bool) (f : Bool) (a : BitVec 7)
  /-- `TASK`, R127: Start a range task from a launch record. -/
  | task (x : Pre) (ch : Bool) (f : Bool) (a : BitVec 7)
  /-- `TAKE`, R128: Take the next chunk of the team's range-task interval. -/
  | take (x : Pre) (ch : Bool) (a : BitVec 7) (b : BitVec 7)
  /-- `CLAIM`, R223: Request more vector registers for the group. -/
  | claim (x : Pre) (ch : Bool) (f : Bool) (b : BitVec 7)
  /-- `GIVE`, R224: Return vector registers above a count to the core. -/
  | give (x : Pre) (ch : Bool) (b : BitVec 7)
  /-- `SLCLAIM`, R291: Request a run of operand slots. -/
  | slclaim (x : Pre) (ch : Bool) (f : Bool) (a : BitVec 7)
  /-- `SLREL_FREE`, R291: Free a run of operand slots. -/
  | slrelFree (x : Pre) (ch : Bool) (a : BitVec 7)
  /-- `SLREL_RESET`, R291: Return a run of operand slots to CLAIMED with F zero. -/
  | slrelReset (x : Pre) (ch : Bool) (a : BitVec 7)
  /-- `ACCLAIM`, R292: Request a run of accumulator tiles. -/
  | acclaim (x : Pre) (ch : Bool) (f : Bool) (a : BitVec 7)
  /-- `ACREL`, R292: Free a run of accumulator tiles. -/
  | acrel (x : Pre) (ch : Bool) (a : BitVec 7)
  /-- `MXLAY`, R293: Copy six scalars into a layout register. -/
  | mxlay (x : Pre) (ch : Bool) (a : BitVec 7) (n : BitVec 2)
  /-- `MXLOOP`, R296: Check and issue a K-step matrix loop into engine order. -/
  | mxloop (x : Pre) (ch : Bool) (f : Bool) (q : BitVec 3) (a : BitVec 7) (b : BitVec 7) (e : BitVec 3)
  /-- `MXSC`, R302: Apply row and column scales from a partial tile into an accumulator. -/
  | mxsc (x : Pre) (ch : Bool) (f : Bool) (a : BitVec 7) (b : BitVec 7)
  /-- `MXZ`, R303: Zero a run of accumulator tiles. -/
  | mxz (x : Pre) (ch : Bool) (f : Bool) (a : BitVec 7)
  /-- `MXRD`, R304: Read tile element pairs into a vector register. -/
  | mxrd (x : Pre) (ch : Bool) (f : Bool) (a : BitVec 7) (b : BitVec 7)
  /-- `MXWR`, R304: Write tile element pairs from a vector register. -/
  | mxwr (x : Pre) (ch : Bool) (a : BitVec 7) (b : BitVec 7)
  /-- `MXST`, R305: Convert and store tile rows to memory or operand slots. -/
  | mxst (x : Pre) (ch : Bool) (f : Bool) (a : BitVec 7) (b : BitVec 7)
  /-- `MXSP`, R299: Attach sparsity metadata for the next sparse loop. -/
  | mxsp (x : Pre) (ch : Bool) (a : BitVec 7) (b : BitVec 7)
  /-- `MXCNT`, R307: Read the group's bank-conflict count. -/
  | mxcnt (x : Pre) (ch : Bool) (a : BitVec 7)
  /-- `MXCNT_CLR`, R307: Read and clear the group's bank-conflict count. -/
  | mxcntClr (x : Pre) (ch : Bool) (a : BitVec 7)
  /-- `TSINIT`, R369: Initialise a search tree from its descriptor. -/
  | tsinit (x : Pre) (ch : Bool) (f : Bool) (q : BitVec 3) (a : BitVec 7) (k : Bool)
  /-- `TSEXP`, R375: Expand a leaf with children from an expansion record. -/
  | tsexp (x : Pre) (ch : Bool) (f : Bool) (q : BitVec 3) (a : BitVec 7) (k : Bool)
  /-- `TSDESC`, R372: Per-lane descent with virtual loss to a leaf. -/
  | tsdesc (x : Pre) (ch : Bool) (f : Bool) (a : BitVec 7) (b : BitVec 7)
  /-- `TSBACK`, R376: Per-lane backup of a value from a leaf to the root. -/
  | tsback (x : Pre) (ch : Bool) (f : Bool) (a : BitVec 7) (b : BitVec 7)
  /-- `TSROOT`, R378: Make a child of the root the new root. -/
  | tsroot (x : Pre) (ch : Bool) (f : Bool) (q : BitVec 3) (a : BitVec 7) (b : BitVec 7) (k : Bool)
  /-- `TSFREE`, R379: Free the subtree below a node. -/
  | tsfree (x : Pre) (ch : Bool) (f : Bool) (q : BitVec 3) (a : BitVec 7) (b : BitVec 7) (k : Bool)
  /-- `TSRD`, R380: Per-lane consistent read of a node word. -/
  | tsrd (x : Pre) (ch : Bool) (f : Bool) (a : BitVec 7) (b : BitVec 7) (w : BitVec 3)
  /-- `TSSTAT`, R381: Read a TSE event counter. -/
  | tsstat (x : Pre) (ch : Bool) (f : Bool) (a : BitVec 7) (b : BitVec 7) (k : BitVec 3)
  /-- `MVEMIT`, R403: Emit one meshlet visibility packet per active lane to the SXB. -/
  | mvemit (x : Pre) (ch : Bool) (f : Bool) (a : BitVec 7)
  /-- `COVER`, R412: Triangle coverage and barycentrics per lane. -/
  | cover (x : Pre) (ch : Bool) (a : BitVec 7) (b : BitVec 7) (n : BitVec 3)
  /-- `SEQTK_HW`, R407: Raise the geometry die's high-water mark. -/
  | seqtkHw (x : Pre) (ch : Bool) (f : Bool) (a : BitVec 7)
  /-- `SEQTK_COMMIT`, R410: Commit delivered packets of a region up to a token. -/
  | seqtkCommit (x : Pre) (ch : Bool) (a : BitVec 7)
  /-- `REGION_BIND`, R406: Bind a region map and open a new pass. -/
  | regionBind (x : Pre) (ch : Bool) (f : Bool) (a : BitVec 7) (b : BitVec 7)
  /-- `REGION_XFER`, R411: Move a region to a new owning core or die. -/
  | regionXfer (x : Pre) (ch : Bool) (f : Bool) (a : BitVec 7) (b : BitVec 7)
  /-- `SMPL`, R414: Sample a texture level per lane. -/
  | smpl (x : Pre) (ch : Bool) (f : Bool) (a : BitVec 7) (b : BitVec 7) (l : BitVec 3)
  /-- `TRACE`, R419: Start a ray traversal in each active lane. -/
  | trace (x : Pre) (ch : Bool) (f : Bool) (q : BitVec 3) (a : BitVec 7) (b : BitVec 7)
  /-- `TRES_GO`, R419: Resume stopped traversals unchanged. -/
  | tresGo (x : Pre) (ch : Bool) (f : Bool) (q : BitVec 3) (a : BitVec 7) (b : BitVec 7)
  /-- `TRES_HIT`, R419: Resume stopped traversals after accepting a hit. -/
  | tresHit (x : Pre) (ch : Bool) (f : Bool) (q : BitVec 3) (a : BitVec 7) (b : BitVec 7)
  /-- `TRES_TMAX`, R419: Resume stopped traversals with a narrowed tmax. -/
  | tresTmax (x : Pre) (ch : Bool) (f : Bool) (q : BitVec 3) (a : BitVec 7) (b : BitVec 7)
  /-- `TVLD`, R421: Load each lane's traversal state from memory. -/
  | tvld (x : Pre) (ch : Bool) (f : Bool) (a : BitVec 7)
  /-- `TVST`, R421: Store each lane's traversal state to memory. -/
  | tvst (x : Pre) (ch : Bool) (f : Bool) (a : BitVec 7)
  /-- `RPACK`, R423: Arrive at the team's lane repack with a key. -/
  | rpack (x : Pre) (ch : Bool) (f : Bool) (a : BitVec 7) (b : BitVec 7)
  /-- `HINT_PFS`, R83: Prefetch a stream of lines. -/
  | hintPfs (x : Pre) (ch : Bool) (e : BitVec 4) (n : BitVec 7) (a : BitVec 7) (b : BitVec 7)
  /-- `HINT_BLK`, R83: Mark the course's transfer word as likely taken. -/
  | hintBlk (x : Pre) (ch : Bool) (e : BitVec 25)
  /-- `HINT_UNDEFINED`, R38: Undefined hint executes as a no-operation. -/
  | hintUndefined (x : Pre) (ch : Bool) (h : Bool) (e : BitVec 25)
  /-- `COURSE_END`, R17: At course end the voice waits for mortar-destination words, applies writes, promotions and the transfer. -/
  | courseEnd (g : Nat) (v : Nat)
  /-- `WORD_COMPLETE`, R22: A long-latency word completes, writes its result and lowers its completion counter. -/
  | wordComplete (g : Nat) (k : Nat)
  /-- `AGE_OVERRIDE`, R113: A voice eligible without issuing for 2048 cycles gains priority. -/
  | ageOverride (g : Nat) (v : Nat)
  /-- `TRAP_ENTRY`, R139: A raised cause sets the trap registers, writes the frame and enters the handler or kills the grid. -/
  | trapEntry (g : Nat)
  /-- `GROUP_FREED`, R132: A drained group's outstanding work is acknowledged and its resources are freed. -/
  | groupFreed (g : Nat)
  /-- `TEAM_ADMISSION`, R123: When resources free, the die's dispatcher admits waiting teams from the queues. -/
  | teamAdmission (die : Nat)
  /-- `QUEUE_FRONT_TIMEOUT`, R123: A queue's front team waiting 200 µs blocks teams behind it. -/
  | queueFrontTimeout (die : Nat) (q : Nat)
  /-- `RT_WAIT_TIMEOUT`, R124: An RT team waiting 20 µs triggers pre-emption of victims on one core. -/
  | rtWaitTimeout (die : Nat)
  /-- `PREEMPTION_SAVE`, R150: A quiesced team's state is saved and its resources freed. -/
  | preemptionSave (tm : Nat)
  /-- `PREEMPTION_ABANDON`, R150: A pre-emption not quiesced within 10 µs is abandoned. -/
  | preemptionAbandon (tm : Nat)
  /-- `TASK_SPLIT`, R129: An idle core splits the largest remaining range-task interval into a new team. -/
  | taskSplit (die : Nat) (core : Nat)
  /-- `HANDLE_UE`, R149: An uncorrectable SRAM error relaunches or kills the owning team's grid. -/
  | handleUe (site : UeSite)
  /-- `CLAIM_SERVED`, R223: An outstanding register claim receives its quarters and completes. -/
  | claimServed (die : Nat) (core : Nat)
  /-- `CLAIM_VICTIM`, R225: When every resident group is blocked in claim, the core saves a victim group. -/
  | claimVictim (die : Nat) (core : Nat)
  /-- `CLAIM_VICTIM_RESTORE`, R225: A saved claim victim is restored once its count fits. -/
  | claimVictimRestore (die : Nat) (core : Nat)
  /-- `SLOT_REQUEST_SERVED`, R287: A slot or tile claim is served when every member can be given. -/
  | slotRequestServed (die : Nat) (core : Nat)
  /-- `PAGE_WALK`, R239: A TLB miss is walked through the page tables, succeeding, failing or holding. -/
  | pageWalk (part : Nat) (ctx : Nat) (va : Nat)
  /-- `LINK_CRC_RETRY`, R233: A GDDR transfer failing CRC is retried. -/
  | linkCrcRetry (die : Nat) (chan : Nat)
  /-- `CHANNEL_RETRAIN`, R233: After four failed retries a channel retrains. -/
  | channelRetrain (die : Nat) (chan : Nat)
  /-- `L2_SCRUB`, R234: Scrubbing visits level-2 lines, correcting or poisoning. -/
  | l2Scrub (line : Nat) (r : ScrubResult)
  /-- `DATA_POISON`, R235: An uncorrectable memory or dirty-line error poisons the line. -/
  | dataPoison (line : Nat)
  /-- `CE_COMMAND_START`, R265: The CE starts the next queued command, checking its record and taking a buffer slot. -/
  | ceCommandStart (g : Nat) (q : Nat)
  /-- `CE_LINE_TRANSFER`, R248: The CE performs or fails one line transfer of a command. -/
  | ceLineTransfer (die : Nat) (core : Nat) (k : Nat) (line : Nat)
  /-- `CE_COMMAND_END`, R266: A CE command ends, pushing a token, setting a fault or killing the grid. -/
  | ceCommandEnd (die : Nat) (core : Nat) (k : Nat)
  /-- `MX_KSTEP`, R297: The MXE applies one K-step of a loop to its destination tile. -/
  | mxKstep (die : Nat) (core : Nat)
  /-- `TSE_SERVE`, R370: The TSE serves the next request of a tree in service order. -/
  | tseServe (die : Nat)
  /-- `TSE_BACKUP_NODE`, R377: One node update of a backup is performed. -/
  | tseBackupNode (die : Nat)
  /-- `SYE_ACCESS`, R395: An SYE bank performs the next request from its round-robin ports. -/
  | syeAccess (die : Nat) (bank : Nat)
  /-- `HOME_SLICE_WRITE`, R352: A write performed at the home slice tests the affected monitors. -/
  | homeSliceWrite (key : Nat) (bs : List (BitVec 8))
  /-- `MONITOR_ARM`, R393: A queued arm takes a freed monitor entry and tests its condition. -/
  | monitorArm (die : Nat)
  /-- `SWAP_OUT`, R396: A team waiting only in waitc for SYSWAP µs is swapped out. -/
  | swapOut (tm : Nat)
  /-- `SWAP_IN`, R396: A swapped-out team returns to its queue when a waitc completes. -/
  | swapIn (tm : Nat)
  /-- `SYE_UNPIN`, R391: A 0-to-1 write of SYUNPIN.req writes back and frees every frame. -/
  | syeUnpin (die : Nat)
  /-- `COLL_CHUNK`, R358: A collective chunk is staged, combined up the tree and written to every member. -/
  | collChunk (k : Nat) (remote : List CollPart)
  /-- `COLL_MEMBER_TIMEOUT`, R398: A member silent for SYCOLLTO µs is declared failed. -/
  | collMemberTimeout (k : Nat) (mem : Nat)
  /-- `HALO_SNAPSHOT`, R336: After a release's prior accesses are performed, the strips are snapshotted. -/
  | haloSnapshot (tm : Nat) (h : Nat)
  /-- `HALO_DELIVERY`, R336: A snapshot is written into a waiting neighbour's replica. -/
  | haloDelivery (tm : Nat) (h : Nat) (dir : Nat)
  /-- `SXB_ACCEPT`, R403: The SXB accepts an emitted packet after the emitter's earlier accesses are performed. -/
  | sxbAccept (part : Nat) (k : Nat)
  /-- `SXB_DELIVER`, R408: The SXB delivers a region's smallest-key packet once every mark exceeds its token. -/
  | sxbDeliver (part : Nat) (region : Nat)
  /-- `TVU_NODE_STEP`, R416: The TVU pops and processes one node reference of a lane's traversal. -/
  | tvuNodeStep (g : Nat) (lane : Nat)
  /-- `RDU_TOKEN_PUSH`, R424: The RDU pushes a repack token when a queue place is free. -/
  | rduTokenPush (g : Nat)
  /-- `HOST_POSTED_WRITE`, R436: A host posted write is performed in PCI Express order. -/
  | hostPostedWrite (part : Nat) (w : HostWrite)
  /-- `CTX_ENABLE`, R433: CTXCTL op 1 enables a context and accepts its resident control program. -/
  | ctxEnable (part : Nat) (ctx : Nat)
  /-- `CTX_DISABLE`, R433: CTXCTL op 2 stops every grid of a context and disables it. -/
  | ctxDisable (part : Nat) (ctx : Nat)
  /-- `PMODE_WRITE`, R439: A write requests a new partition mode or is refused setting err. -/
  | pmodeWrite (part : Nat) (val : BitVec 64)
  /-- `PACKAGE_RESET`, R439: Conventional package reset applies the pending mode and clears state. -/
  | packageReset
  /-- `QUOTA_WRITE`, R431: Set level-2 way quotas, ignored if they sum above 16. -/
  | quotaWrite (part : Nat) (val : BitVec 64)
  /-- `WEIGHT_WRITE`, R431: Set GFX and TNS weights, storing 0 as 1. -/
  | weightWrite (part : Nat) (val : BitVec 64)
  /-- `FLOGTAIL_WRITE`, R437: Software consumes fault-log reports by advancing tail. -/
  | flogtailWrite (part : Nat) (val : BitVec 64)
  /-- `FLOGLOST_CLEAR`, R431: Writing 1 to ovf clears the lost-report count. -/
  | floglostClear (part : Nat) (val : BitVec 64)
  /-- `REGISTER_WRITE`, R4: A write to a control register without behaviour of its own. -/
  | registerWrite (part : Nat) (off : Nat) (val : BitVec 64)
  /-- `FLIT_RETRY`, R443: An unacknowledged Relmer flit is resent. -/
  | flitRetry (port : Nat)
  /-- `RELMER_LANE_FAIL`, R443: A failing lane is spared and the port runs on seven lanes. -/
  | relmerLaneFail (port : Nat)
  /-- `RELMER_PORT_DOWN`, R443: A second lane failure or third failed retrain marks the port down. -/
  | relmerPortDown (port : Nat)
  /-- `ROUTE_REWRITE`, R444: Management software rewrites a routing table entry. -/
  | routeRewrite (bed : Nat) (dst : Nat) (prim : Nat) (alt : Nat)
  /-- `NO_ROUTE_TIMEOUT`, R444: An access without a route for 10 ms kills its grid with PROT. -/
  | noRouteTimeout (g : Nat) (addr : BitVec 64)
  /-- `IMAGE_LOAD`, R445: The system controller verifies both signatures of an image and accepts or rejects it. -/
  | imageLoad (im : Image)
  /-- `SPDM_MEASUREMENT`, R446: The controller reports signed measurements over SPDM. -/
  | spdmMeasurement
  /-- `POWER_CAP_SET`, R447: Management software sets the module power cap. -/
  | powerCapSet (watts : Nat)
  /-- `ISLAND_CLOCK_CHANGE`, R447: The controller changes an island's clock in 25 MHz steps. -/
  | islandClockChange (isl : Nat) (mhz : Nat)
  /-- `THERMAL_THROTTLE`, R447: An island reaching 105 °C is throttled. -/
  | thermalThrottle (isl : Nat)
  /-- `THERMAL_TRIP`, R447: At 115 °C the module powers off and loses all state. -/
  | thermalTrip
  /-- `LIFETIME_FLUSH`, R448: Lifetime records are stored to flash every 60 minutes. -/
  | lifetimeFlush
  /-- `ORDERLY_POWER_DOWN`, R448: An orderly power-down stores the lifetime records. -/
  | orderlyPowerDown
  /-- `LIFETIME_READ`, R448: Management software reads the lifetime records over MCTP. -/
  | lifetimeRead
  /-- `ABRUPT_POWER_LOSS`, R448: Power is lost abruptly and the lifetime increments since the last flush are forgotten. -/
  | abruptPowerLoss
  /-- `VOLTAGE_DROOP`, R448: A voltage-droop event on an island raises that island's lifetime droop counter. -/
  | voltageDroop (isl : Nat)
  /-- `PEER_DEVICE_ACCESS`, R314: An access from a peer device arrives over a Relmer port and is performed on this partition's memory, where its writes can test monitors. -/
  | peerDeviceAccess (part : Nat) (acc : PeerAccess)
  /-- `FAILURE_NOTICE`, R398: A failure notice reaches the root's SYE, which fixes the replay chunk and sends the failed set to the survivors. -/
  | failureNotice (k : Nat) (mem : Nat)
  /-- `HARDWARE_PREFETCH`, R246: The core's hardware stream detector prefetches lines on its own, and its fills can evict dirty level-1 lines. -/
  | hardwarePrefetch (die : Nat) (core : Nat) (line : Nat)
  /-- `RELMER_RETRAIN`, R443: A Relmer port retrains; the retrain is counted, and the port is marked down after three failed retrains. -/
  | relmerRetrain (port : Nat) (ok : Bool)
deriving DecidableEq, Repr, Inhabited

/-- Which prefixes a word accepts, by its format (01 R28). -/
inductive PreClass where
  /-- events, head, bra and call: no prefix -/
  | bare
  /-- A and I words: kinds 0 to 3 -/
  | alu
  /-- M words: kind 4 -/
  | mem
  /-- atomic words: kinds 0 and 4 -/
  | atomic
  /-- S words: kind 0 -/
  | sys
  /-- Q words: kinds 0 and 1 -/
  | queue
  /-- nop and the hints: kinds 0 and 1 (R38) -/
  | hint
  /-- sypub and sydone: kind 0 (02 R88) -/
  | sym
deriving DecidableEq, Repr, Inhabited

/-- The prefix an instruction carries. -/
def Instr.pre : Instr → Pre
  | .head _ _ _ _ _ => .none
  | .add x _ _ _ _ _ => x
  | .sub x _ _ _ _ _ => x
  | .mul x _ _ _ _ _ => x
  | .mulh x _ _ _ _ _ => x
  | .mad x _ _ _ _ _ => x
  | .ineg x _ _ _ _ => x
  | .iabs x _ _ _ _ => x
  | .imin x _ _ _ _ _ => x
  | .imax x _ _ _ _ _ => x
  | .sad x _ _ _ _ _ => x
  | .add3 x _ _ _ _ _ => x
  | .cmp x _ _ _ _ _ _ => x
  | .sel x _ _ _ _ _ => x
  | .mov x _ _ _ _ => x
  | .cvt x _ _ _ _ _ _ => x
  | .lea x _ _ _ _ _ => x
  | .shl x _ _ _ _ _ => x
  | .shr x _ _ _ _ _ => x
  | .sar x _ _ _ _ _ => x
  | .band x _ _ _ _ _ => x
  | .bor x _ _ _ _ _ => x
  | .bxor x _ _ _ _ _ => x
  | .andn x _ _ _ _ _ => x
  | .orn x _ _ _ _ _ => x
  | .bnot x _ _ _ _ => x
  | .popc x _ _ _ _ => x
  | .clz x _ _ _ _ => x
  | .ctz x _ _ _ _ => x
  | .brev x _ _ _ _ => x
  | .perm x _ _ _ _ _ => x
  | .idot4I8 x _ _ _ _ => x
  | .idot4N8 x _ _ _ _ => x
  | .bfx x _ _ _ _ _ => x
  | .bfi x _ _ _ _ _ => x
  | .fshl x _ _ _ _ _ => x
  | .fshr x _ _ _ _ _ => x
  | .bmsk x _ _ _ _ => x
  | .movi x _ _ _ => x
  | .movh x _ _ _ _ => x
  | .xset x _ _ _ _ => x
  | .fadd x _ _ _ _ _ => x
  | .fsub x _ _ _ _ _ => x
  | .fmul x _ _ _ _ _ => x
  | .ffma x _ _ _ _ _ => x
  | .fmin x _ _ _ _ _ => x
  | .fmax x _ _ _ _ _ => x
  | .fcmp x _ _ _ _ _ => x
  | .fclass x _ _ _ _ => x
  | .frnd x _ _ _ _ => x
  | .fcvt x _ _ _ _ _ _ => x
  | .ftoi x _ _ _ _ _ _ => x
  | .itof x _ _ _ _ _ _ => x
  | .fscale x _ _ _ _ _ => x
  | .fdot2 x _ _ _ _ _ => x
  | .fdot4 x _ _ _ _ _ => x
  | .fdiv x _ _ _ _ _ => x
  | .frcp x _ _ _ _ => x
  | .frsq x _ _ _ _ => x
  | .fsqrt x _ _ _ _ => x
  | .fexp2 x _ _ _ _ => x
  | .flog2 x _ _ _ _ => x
  | .fsin x _ _ _ _ => x
  | .fcos x _ _ _ _ => x
  | .ftanh x _ _ _ _ => x
  | .fpackTf8 x _ _ _ _ _ => x
  | .fpackTf6 x _ _ _ _ _ => x
  | .funpackTf8 x _ _ _ _ _ => x
  | .funpackTf6 x _ _ _ _ _ => x
  | .shflIdx x _ _ _ _ _ => x
  | .shflUp x _ _ _ _ _ => x
  | .shflDown x _ _ _ _ _ => x
  | .shflXor x _ _ _ _ _ => x
  | .voteAll x _ _ _ => x
  | .voteAny x _ _ _ => x
  | .voteBallot x _ _ _ => x
  | .matchKey x _ _ _ _ _ => x
  | .lredAdd x _ _ _ _ => x
  | .lredMin x _ _ _ _ => x
  | .lredMax x _ _ _ _ => x
  | .lredAnd x _ _ _ _ => x
  | .lredOr x _ _ _ _ => x
  | .lredXor x _ _ _ _ => x
  | .lscanAdd x _ _ _ _ => x
  | .lscanMax x _ _ _ _ => x
  | .plop x _ _ _ _ _ => x
  | .pmovToPred x _ _ _ => x
  | .pmovFromPred x _ _ _ => x
  | .jmpt x _ _ _ => x
  | .ret x => x
  | .exit x => x
  | .yield x _ => x
  | .nop x _ _ _ _ => x
  | .brk x _ _ => x
  | .sypub x _ _ => x
  | .sydone x _ _ => x
  | .setmode x _ _ _ _ => x
  | .bra _ _ _ => .none
  | .call _ _ _ => .none
  | .srd x _ _ _ => x
  | .swr x _ _ _ => x
  | .trap x _ _ => x
  | .rett x => x
  | .sys x _ _ => x
  | .ctxsv x _ _ _ => x
  | .ctxrs x _ _ => x
  | .tlbinv x _ _ _ => x
  | .ld x _ _ _ _ _ _ => x
  | .ldSext x _ _ _ _ _ _ => x
  | .st x _ _ _ _ _ _ => x
  | .lds x _ _ _ _ _ _ => x
  | .ldsSext x _ _ _ _ _ _ => x
  | .sts x _ _ _ _ _ _ => x
  | .ldc x _ _ _ _ _ _ => x
  | .ldm x _ _ _ _ _ => x
  | .stm x _ _ _ _ _ => x
  | .prfm x _ _ _ _ => x
  | .cwb x _ _ _ _ _ => x
  | .cinv x _ _ _ _ _ => x
  | .icinv x _ _ _ _ _ => x
  | .fence x _ _ => x
  | .atomAdd x _ _ _ _ _ => x
  | .atomMin x _ _ _ _ _ => x
  | .atomMax x _ _ _ _ _ => x
  | .atomAnd x _ _ _ _ _ => x
  | .atomOr x _ _ _ _ _ => x
  | .atomXor x _ _ _ _ _ => x
  | .atomExch x _ _ _ _ _ => x
  | .atomc x _ _ _ _ _ => x
  | .redAdd x _ _ _ _ => x
  | .redMin x _ _ _ _ => x
  | .redMax x _ _ _ _ => x
  | .redAnd x _ _ _ _ => x
  | .redOr x _ _ _ _ => x
  | .redXor x _ _ _ _ => x
  | .waitc x _ _ _ _ _ => x
  | .atomFadd x _ _ _ _ _ => x
  | .redFadd x _ _ _ _ => x
  | .ldtile x _ _ _ => x
  | .qbindNone x _ _ => x
  | .qbindCmd x _ _ => x
  | .qbindTok x _ _ => x
  | .qbindEng x _ _ _ => x
  | .qbindLsend x _ _ _ => x
  | .qbindLrecv x _ _ _ => x
  | .qpush x _ _ _ => x
  | .qcnt x _ _ _ => x
  | .cbinit x _ _ _ _ => x
  | .cbacq x _ _ _ _ => x
  | .cbrel x _ _ => x
  | .cbstat x _ _ _ => x
  | .rtag x _ _ _ _ => x
  | .bobinit x _ _ _ => x
  | .bobadd x _ _ _ => x
  | .bobwait x _ _ _ _ => x
  | .barArr x _ _ _ => x
  | .barWait x _ _ _ _ => x
  | .haloDecl x _ _ _ => x
  | .haloRel x _ _ _ => x
  | .haloWait x _ _ _ _ => x
  | .haloDrop x _ _ _ => x
  | .coll x _ _ _ _ => x
  | .shopen x _ _ _ _ _ => x
  | .publish x _ _ _ => x
  | .shdrop x _ _ _ => x
  | .commit x _ _ _ _ => x
  | .discard x _ _ _ _ => x
  | .launch x _ _ _ => x
  | .task x _ _ _ => x
  | .take x _ _ _ => x
  | .claim x _ _ _ => x
  | .give x _ _ => x
  | .slclaim x _ _ _ => x
  | .slrelFree x _ _ => x
  | .slrelReset x _ _ => x
  | .acclaim x _ _ _ => x
  | .acrel x _ _ => x
  | .mxlay x _ _ _ => x
  | .mxloop x _ _ _ _ _ _ => x
  | .mxsc x _ _ _ _ => x
  | .mxz x _ _ _ => x
  | .mxrd x _ _ _ _ => x
  | .mxwr x _ _ _ => x
  | .mxst x _ _ _ _ => x
  | .mxsp x _ _ _ => x
  | .mxcnt x _ _ => x
  | .mxcntClr x _ _ => x
  | .tsinit x _ _ _ _ _ => x
  | .tsexp x _ _ _ _ _ => x
  | .tsdesc x _ _ _ _ => x
  | .tsback x _ _ _ _ => x
  | .tsroot x _ _ _ _ _ _ => x
  | .tsfree x _ _ _ _ _ _ => x
  | .tsrd x _ _ _ _ _ => x
  | .tsstat x _ _ _ _ _ => x
  | .mvemit x _ _ _ => x
  | .cover x _ _ _ _ => x
  | .seqtkHw x _ _ _ => x
  | .seqtkCommit x _ _ => x
  | .regionBind x _ _ _ _ => x
  | .regionXfer x _ _ _ _ => x
  | .smpl x _ _ _ _ _ => x
  | .trace x _ _ _ _ _ => x
  | .tresGo x _ _ _ _ _ => x
  | .tresHit x _ _ _ _ _ => x
  | .tresTmax x _ _ _ _ _ => x
  | .tvld x _ _ _ => x
  | .tvst x _ _ _ => x
  | .rpack x _ _ _ _ => x
  | .hintPfs x _ _ _ _ _ => x
  | .hintBlk x _ _ => x
  | .hintUndefined x _ _ _ => x
  | .courseEnd _ _ => .none
  | .wordComplete _ _ => .none
  | .ageOverride _ _ => .none
  | .trapEntry _ => .none
  | .groupFreed _ => .none
  | .teamAdmission _ => .none
  | .queueFrontTimeout _ _ => .none
  | .rtWaitTimeout _ => .none
  | .preemptionSave _ => .none
  | .preemptionAbandon _ => .none
  | .taskSplit _ _ => .none
  | .handleUe _ => .none
  | .claimServed _ _ => .none
  | .claimVictim _ _ => .none
  | .claimVictimRestore _ _ => .none
  | .slotRequestServed _ _ => .none
  | .pageWalk _ _ _ => .none
  | .linkCrcRetry _ _ => .none
  | .channelRetrain _ _ => .none
  | .l2Scrub _ _ => .none
  | .dataPoison _ => .none
  | .ceCommandStart _ _ => .none
  | .ceLineTransfer _ _ _ _ => .none
  | .ceCommandEnd _ _ _ => .none
  | .mxKstep _ _ => .none
  | .tseServe _ => .none
  | .tseBackupNode _ => .none
  | .syeAccess _ _ => .none
  | .homeSliceWrite _ _ => .none
  | .monitorArm _ => .none
  | .swapOut _ => .none
  | .swapIn _ => .none
  | .syeUnpin _ => .none
  | .collChunk _ _ => .none
  | .collMemberTimeout _ _ => .none
  | .haloSnapshot _ _ => .none
  | .haloDelivery _ _ _ => .none
  | .sxbAccept _ _ => .none
  | .sxbDeliver _ _ => .none
  | .tvuNodeStep _ _ => .none
  | .rduTokenPush _ => .none
  | .hostPostedWrite _ _ => .none
  | .ctxEnable _ _ => .none
  | .ctxDisable _ _ => .none
  | .pmodeWrite _ _ => .none
  | .packageReset => .none
  | .quotaWrite _ _ => .none
  | .weightWrite _ _ => .none
  | .flogtailWrite _ _ => .none
  | .floglostClear _ _ => .none
  | .registerWrite _ _ _ => .none
  | .flitRetry _ => .none
  | .relmerLaneFail _ => .none
  | .relmerPortDown _ => .none
  | .routeRewrite _ _ _ _ => .none
  | .noRouteTimeout _ _ => .none
  | .imageLoad _ => .none
  | .spdmMeasurement => .none
  | .powerCapSet _ => .none
  | .islandClockChange _ _ => .none
  | .thermalThrottle _ => .none
  | .thermalTrip => .none
  | .lifetimeFlush => .none
  | .orderlyPowerDown => .none
  | .lifetimeRead => .none
  | .abruptPowerLoss => .none
  | .voltageDroop _ => .none
  | .peerDeviceAccess _ _ => .none
  | .failureNotice _ _ => .none
  | .hardwarePrefetch _ _ _ => .none
  | .relmerRetrain _ _ => .none

/-- The prefix class of an instruction. -/
def Instr.preClass : Instr → PreClass
  | .head _ _ _ _ _ => .bare
  | .add _ _ _ _ _ _ => .alu
  | .sub _ _ _ _ _ _ => .alu
  | .mul _ _ _ _ _ _ => .alu
  | .mulh _ _ _ _ _ _ => .alu
  | .mad _ _ _ _ _ _ => .alu
  | .ineg _ _ _ _ _ => .alu
  | .iabs _ _ _ _ _ => .alu
  | .imin _ _ _ _ _ _ => .alu
  | .imax _ _ _ _ _ _ => .alu
  | .sad _ _ _ _ _ _ => .alu
  | .add3 _ _ _ _ _ _ => .alu
  | .cmp _ _ _ _ _ _ _ => .alu
  | .sel _ _ _ _ _ _ => .alu
  | .mov _ _ _ _ _ => .alu
  | .cvt _ _ _ _ _ _ _ => .alu
  | .lea _ _ _ _ _ _ => .alu
  | .shl _ _ _ _ _ _ => .alu
  | .shr _ _ _ _ _ _ => .alu
  | .sar _ _ _ _ _ _ => .alu
  | .band _ _ _ _ _ _ => .alu
  | .bor _ _ _ _ _ _ => .alu
  | .bxor _ _ _ _ _ _ => .alu
  | .andn _ _ _ _ _ _ => .alu
  | .orn _ _ _ _ _ _ => .alu
  | .bnot _ _ _ _ _ => .alu
  | .popc _ _ _ _ _ => .alu
  | .clz _ _ _ _ _ => .alu
  | .ctz _ _ _ _ _ => .alu
  | .brev _ _ _ _ _ => .alu
  | .perm _ _ _ _ _ _ => .alu
  | .idot4I8 _ _ _ _ _ => .alu
  | .idot4N8 _ _ _ _ _ => .alu
  | .bfx _ _ _ _ _ _ => .alu
  | .bfi _ _ _ _ _ _ => .alu
  | .fshl _ _ _ _ _ _ => .alu
  | .fshr _ _ _ _ _ _ => .alu
  | .bmsk _ _ _ _ _ => .alu
  | .movi _ _ _ _ => .alu
  | .movh _ _ _ _ _ => .alu
  | .xset _ _ _ _ _ => .alu
  | .fadd _ _ _ _ _ _ => .alu
  | .fsub _ _ _ _ _ _ => .alu
  | .fmul _ _ _ _ _ _ => .alu
  | .ffma _ _ _ _ _ _ => .alu
  | .fmin _ _ _ _ _ _ => .alu
  | .fmax _ _ _ _ _ _ => .alu
  | .fcmp _ _ _ _ _ _ => .alu
  | .fclass _ _ _ _ _ => .alu
  | .frnd _ _ _ _ _ => .alu
  | .fcvt _ _ _ _ _ _ _ => .alu
  | .ftoi _ _ _ _ _ _ _ => .alu
  | .itof _ _ _ _ _ _ _ => .alu
  | .fscale _ _ _ _ _ _ => .alu
  | .fdot2 _ _ _ _ _ _ => .alu
  | .fdot4 _ _ _ _ _ _ => .alu
  | .fdiv _ _ _ _ _ _ => .alu
  | .frcp _ _ _ _ _ => .alu
  | .frsq _ _ _ _ _ => .alu
  | .fsqrt _ _ _ _ _ => .alu
  | .fexp2 _ _ _ _ _ => .alu
  | .flog2 _ _ _ _ _ => .alu
  | .fsin _ _ _ _ _ => .alu
  | .fcos _ _ _ _ _ => .alu
  | .ftanh _ _ _ _ _ => .alu
  | .fpackTf8 _ _ _ _ _ _ => .alu
  | .fpackTf6 _ _ _ _ _ _ => .alu
  | .funpackTf8 _ _ _ _ _ _ => .alu
  | .funpackTf6 _ _ _ _ _ _ => .alu
  | .shflIdx _ _ _ _ _ _ => .alu
  | .shflUp _ _ _ _ _ _ => .alu
  | .shflDown _ _ _ _ _ _ => .alu
  | .shflXor _ _ _ _ _ _ => .alu
  | .voteAll _ _ _ _ => .alu
  | .voteAny _ _ _ _ => .alu
  | .voteBallot _ _ _ _ => .alu
  | .matchKey _ _ _ _ _ _ => .alu
  | .lredAdd _ _ _ _ _ => .alu
  | .lredMin _ _ _ _ _ => .alu
  | .lredMax _ _ _ _ _ => .alu
  | .lredAnd _ _ _ _ _ => .alu
  | .lredOr _ _ _ _ _ => .alu
  | .lredXor _ _ _ _ _ => .alu
  | .lscanAdd _ _ _ _ _ => .alu
  | .lscanMax _ _ _ _ _ => .alu
  | .plop _ _ _ _ _ _ => .alu
  | .pmovToPred _ _ _ _ => .alu
  | .pmovFromPred _ _ _ _ => .alu
  | .jmpt _ _ _ _ => .alu
  | .ret _ => .alu
  | .exit _ => .alu
  | .yield _ _ => .alu
  | .nop _ _ _ _ _ => .hint
  | .brk _ _ _ => .alu
  | .sypub _ _ _ => .sym
  | .sydone _ _ _ => .sym
  | .setmode _ _ _ _ _ => .alu
  | .bra _ _ _ => .bare
  | .call _ _ _ => .bare
  | .srd _ _ _ _ => .sys
  | .swr _ _ _ _ => .sys
  | .trap _ _ _ => .sys
  | .rett _ => .sys
  | .sys _ _ _ => .sys
  | .ctxsv _ _ _ _ => .sys
  | .ctxrs _ _ _ => .sys
  | .tlbinv _ _ _ _ => .sys
  | .ld _ _ _ _ _ _ _ => .mem
  | .ldSext _ _ _ _ _ _ _ => .mem
  | .st _ _ _ _ _ _ _ => .mem
  | .lds _ _ _ _ _ _ _ => .mem
  | .ldsSext _ _ _ _ _ _ _ => .mem
  | .sts _ _ _ _ _ _ _ => .mem
  | .ldc _ _ _ _ _ _ _ => .mem
  | .ldm _ _ _ _ _ _ => .mem
  | .stm _ _ _ _ _ _ => .mem
  | .prfm _ _ _ _ _ => .mem
  | .cwb _ _ _ _ _ _ => .mem
  | .cinv _ _ _ _ _ _ => .mem
  | .icinv _ _ _ _ _ _ => .mem
  | .fence _ _ _ => .mem
  | .atomAdd _ _ _ _ _ _ => .atomic
  | .atomMin _ _ _ _ _ _ => .atomic
  | .atomMax _ _ _ _ _ _ => .atomic
  | .atomAnd _ _ _ _ _ _ => .atomic
  | .atomOr _ _ _ _ _ _ => .atomic
  | .atomXor _ _ _ _ _ _ => .atomic
  | .atomExch _ _ _ _ _ _ => .atomic
  | .atomc _ _ _ _ _ _ => .atomic
  | .redAdd _ _ _ _ _ => .atomic
  | .redMin _ _ _ _ _ => .atomic
  | .redMax _ _ _ _ _ => .atomic
  | .redAnd _ _ _ _ _ => .atomic
  | .redOr _ _ _ _ _ => .atomic
  | .redXor _ _ _ _ _ => .atomic
  | .waitc _ _ _ _ _ _ => .atomic
  | .atomFadd _ _ _ _ _ _ => .atomic
  | .redFadd _ _ _ _ _ => .atomic
  | .ldtile _ _ _ _ => .queue
  | .qbindNone _ _ _ => .queue
  | .qbindCmd _ _ _ => .queue
  | .qbindTok _ _ _ => .queue
  | .qbindEng _ _ _ _ => .queue
  | .qbindLsend _ _ _ _ => .queue
  | .qbindLrecv _ _ _ _ => .queue
  | .qpush _ _ _ _ => .queue
  | .qcnt _ _ _ _ => .queue
  | .cbinit _ _ _ _ _ => .queue
  | .cbacq _ _ _ _ _ => .queue
  | .cbrel _ _ _ => .queue
  | .cbstat _ _ _ _ => .queue
  | .rtag _ _ _ _ _ => .queue
  | .bobinit _ _ _ _ => .queue
  | .bobadd _ _ _ _ => .queue
  | .bobwait _ _ _ _ _ => .queue
  | .barArr _ _ _ _ => .queue
  | .barWait _ _ _ _ _ => .queue
  | .haloDecl _ _ _ _ => .queue
  | .haloRel _ _ _ _ => .queue
  | .haloWait _ _ _ _ _ => .queue
  | .haloDrop _ _ _ _ => .queue
  | .coll _ _ _ _ _ => .queue
  | .shopen _ _ _ _ _ _ => .queue
  | .publish _ _ _ _ => .queue
  | .shdrop _ _ _ _ => .queue
  | .commit _ _ _ _ _ => .queue
  | .discard _ _ _ _ _ => .queue
  | .launch _ _ _ _ => .queue
  | .task _ _ _ _ => .queue
  | .take _ _ _ _ => .queue
  | .claim _ _ _ _ => .queue
  | .give _ _ _ => .queue
  | .slclaim _ _ _ _ => .queue
  | .slrelFree _ _ _ => .queue
  | .slrelReset _ _ _ => .queue
  | .acclaim _ _ _ _ => .queue
  | .acrel _ _ _ => .queue
  | .mxlay _ _ _ _ => .queue
  | .mxloop _ _ _ _ _ _ _ => .queue
  | .mxsc _ _ _ _ _ => .queue
  | .mxz _ _ _ _ => .queue
  | .mxrd _ _ _ _ _ => .queue
  | .mxwr _ _ _ _ => .queue
  | .mxst _ _ _ _ _ => .queue
  | .mxsp _ _ _ _ => .queue
  | .mxcnt _ _ _ => .queue
  | .mxcntClr _ _ _ => .queue
  | .tsinit _ _ _ _ _ _ => .queue
  | .tsexp _ _ _ _ _ _ => .queue
  | .tsdesc _ _ _ _ _ => .queue
  | .tsback _ _ _ _ _ => .queue
  | .tsroot _ _ _ _ _ _ _ => .queue
  | .tsfree _ _ _ _ _ _ _ => .queue
  | .tsrd _ _ _ _ _ _ => .queue
  | .tsstat _ _ _ _ _ _ => .queue
  | .mvemit _ _ _ _ => .queue
  | .cover _ _ _ _ _ => .queue
  | .seqtkHw _ _ _ _ => .queue
  | .seqtkCommit _ _ _ => .queue
  | .regionBind _ _ _ _ _ => .queue
  | .regionXfer _ _ _ _ _ => .queue
  | .smpl _ _ _ _ _ _ => .queue
  | .trace _ _ _ _ _ _ => .queue
  | .tresGo _ _ _ _ _ _ => .queue
  | .tresHit _ _ _ _ _ _ => .queue
  | .tresTmax _ _ _ _ _ _ => .queue
  | .tvld _ _ _ _ => .queue
  | .tvst _ _ _ _ => .queue
  | .rpack _ _ _ _ _ => .queue
  | .hintPfs _ _ _ _ _ _ => .hint
  | .hintBlk _ _ _ => .hint
  | .hintUndefined _ _ _ _ => .hint
  | .courseEnd _ _ => .bare
  | .wordComplete _ _ => .bare
  | .ageOverride _ _ => .bare
  | .trapEntry _ => .bare
  | .groupFreed _ => .bare
  | .teamAdmission _ => .bare
  | .queueFrontTimeout _ _ => .bare
  | .rtWaitTimeout _ => .bare
  | .preemptionSave _ => .bare
  | .preemptionAbandon _ => .bare
  | .taskSplit _ _ => .bare
  | .handleUe _ => .bare
  | .claimServed _ _ => .bare
  | .claimVictim _ _ => .bare
  | .claimVictimRestore _ _ => .bare
  | .slotRequestServed _ _ => .bare
  | .pageWalk _ _ _ => .bare
  | .linkCrcRetry _ _ => .bare
  | .channelRetrain _ _ => .bare
  | .l2Scrub _ _ => .bare
  | .dataPoison _ => .bare
  | .ceCommandStart _ _ => .bare
  | .ceLineTransfer _ _ _ _ => .bare
  | .ceCommandEnd _ _ _ => .bare
  | .mxKstep _ _ => .bare
  | .tseServe _ => .bare
  | .tseBackupNode _ => .bare
  | .syeAccess _ _ => .bare
  | .homeSliceWrite _ _ => .bare
  | .monitorArm _ => .bare
  | .swapOut _ => .bare
  | .swapIn _ => .bare
  | .syeUnpin _ => .bare
  | .collChunk _ _ => .bare
  | .collMemberTimeout _ _ => .bare
  | .haloSnapshot _ _ => .bare
  | .haloDelivery _ _ _ => .bare
  | .sxbAccept _ _ => .bare
  | .sxbDeliver _ _ => .bare
  | .tvuNodeStep _ _ => .bare
  | .rduTokenPush _ => .bare
  | .hostPostedWrite _ _ => .bare
  | .ctxEnable _ _ => .bare
  | .ctxDisable _ _ => .bare
  | .pmodeWrite _ _ => .bare
  | .packageReset => .bare
  | .quotaWrite _ _ => .bare
  | .weightWrite _ _ => .bare
  | .flogtailWrite _ _ => .bare
  | .floglostClear _ _ => .bare
  | .registerWrite _ _ _ => .bare
  | .flitRetry _ => .bare
  | .relmerLaneFail _ => .bare
  | .relmerPortDown _ => .bare
  | .routeRewrite _ _ _ _ => .bare
  | .noRouteTimeout _ _ => .bare
  | .imageLoad _ => .bare
  | .spdmMeasurement => .bare
  | .powerCapSet _ => .bare
  | .islandClockChange _ _ => .bare
  | .thermalThrottle _ => .bare
  | .thermalTrip => .bare
  | .lifetimeFlush => .bare
  | .orderlyPowerDown => .bare
  | .lifetimeRead => .bare
  | .abruptPowerLoss => .bare
  | .voltageDroop _ => .bare
  | .peerDeviceAccess _ _ => .bare
  | .failureNotice _ _ => .bare
  | .hardwarePrefetch _ _ _ => .bare
  | .relmerRetrain _ _ => .bare

end Sys2Proof
end

