-- ==== Sys2Proof/WellFormed.lean ====
section
/-!
DEFINITION. Sys2Proof/WellFormed.lean: what an instruction must satisfy beyond its constructor's types for its words to
be assigned code points (01 R28, R36, R37). What depends on the state (register counts, operand classes, the rounding
or saturation a word accepts) is checked where the word executes.
-/

namespace Sys2Proof

/-- Majors 0x05, 0x07, 0x09, 0x0B, 0x0D: the unsigned types. -/
def IntTy.isN : IntTy → Bool
  | .n8x8 | .n16x4 | .n32 | .n32x2 | .n64 => true
  | _ => false

/-- The types with more than one sub-element (R46). -/
def IntTy.packed : IntTy → Bool
  | .i8x8 | .n8x8 | .i16x4 | .n16x4 | .i32x2 | .n32x2 => true
  | _ => false

/-- Which kinds of X word a class accepts (R28, R38, 02 R88, 15 R342). -/
def PreClass.accepts : PreClass → Pre → Bool
  | _, .none => true
  | .bare, _ => false
  | .alu, .k4 .. => false
  | .alu, _ => true
  | .mem, .k4 .. => true
  | .mem, _ => false
  | .atomic, .k4 .. => true
  | .atomic, .k0 .. => true
  | .atomic, _ => false
  | .sys, .k0 .. => true
  | .sys, _ => false
  | .sym, .k0 .. => true
  | .sym, _ => false
  | .queue, .k0 .. => true
  | .queue, .k1 .. => true
  | .queue, _ => false
  | .hint, .k0 .. => true
  | .hint, .k1 .. => true
  | .hint, _ => false

/-- The field values and types that an assigned word excludes (R37 and the rule of each word). -/
def Instr.fieldsOk : Instr → Bool
  | .ineg _ _ t _ _ => !t.isN
  | .iabs _ _ t _ _ => !t.isN
  | .cmp _ _ t n _ _ _ => !t.packed && n.toNat ≤ 5
  | .cvt _ _ _ _ _ _ k => k.toNat ≤ 9
  | .fcmp _ _ n _ _ _ => n.toNat ≤ 7
  | .ftoi _ _ _ _ _ _ k => k.toNat ≤ 9
  | .itof _ _ _ _ _ _ k => k.toNat ≤ 9
  | .fdot2 _ _ t _ _ _ => t != .f32
  | .matchKey _ _ t _ _ k => k.toNat == 0 || (k.toNat ≤ 3 && t == .n32)
  | .waitc _ _ _ n _ _ => n.toNat ≤ 5
  | .ldSext _ _ z _ _ _ _ => z != .b64
  | .ldsSext _ _ z _ _ _ _ => z != .b64
  | .prfm _ _ l _ _ => l.toNat ≤ 2
  | .mxloop _ _ _ _ _ _ k => k.toNat ≤ 4
  | .tsrd _ _ _ _ _ k => k.toNat ≤ 4
  | .coll _ _ _ _ k => k.toNat ≤ 5
  | .tlbinv _ _ _ k => k.toNat ≤ 1
  | _ => true

/-- An instruction whose words are an assigned code point with a prefix of a kind it accepts. -/
def Instr.wf (i : Instr) : Bool := i.preClass.accepts i.pre && i.fieldsOk

end Sys2Proof
end

