-- ==== Sys2Proof/Decode.lean ====
section
/-!
DEFINITION. Sys2Proof/Decode.lean: from words to instructions, total, rejecting by name, and the encoder.
A word is a natural number below 2^32; fields are cut out by division, once, here (01 R15, R26, R28, R36).
-/

namespace Sys2Proof

/-- Why a word is not an instruction. -/
inductive Reject where
  /-- fewer words than the instruction needs -/
  | short
  /-- an unassigned major code (R36) -/
  | major
  /-- a minor or aux code that its major leaves unassigned (R36, R37) -/
  | minor
  /-- a nonzero field that the instruction does not use (R27) -/
  | reserved
  /-- a coping word, which only ends a course (R16) -/
  | coping
  /-- an X word of kinds 5 to 7, or one with nonzero reserved bits (R28, R29) -/
  | badX
  /-- an assigned word that its own rule excludes for the type, or a kind of X word it does not accept -/
  | illFormed
deriving DecidableEq, Repr, Inhabited

/-- Bits [lo+len-1:lo] of a word. -/
def fld (w lo len : Nat) : Nat := w / 2 ^ lo % 2 ^ len

/-- A field placed at bit lo. -/
def put (v lo : Nat) : Nat := v * 2 ^ lo

/-- One bit of a word. -/
def bit (w lo : Nat) : Bool := fld w lo 1 == 1

/-- A field as a bit vector. -/
def bvf (w lo len : Nat) : BitVec len := BitVec.ofNat len (fld w lo len)

/-- The 10 codes of IntTy. -/
def IntTy.code : IntTy → Nat
  | .i8x8 => 0
  | .n8x8 => 1
  | .i16x4 => 2
  | .n16x4 => 3
  | .i32 => 4
  | .n32 => 5
  | .i32x2 => 6
  | .n32x2 => 7
  | .i64 => 8
  | .n64 => 9

/-- The type a code stands for; the last one for codes beyond the list, which no caller gives. -/
def IntTy.ofCode : Nat → IntTy
  | 0 => .i8x8
  | 1 => .n8x8
  | 2 => .i16x4
  | 3 => .n16x4
  | 4 => .i32
  | 5 => .n32
  | 6 => .i32x2
  | 7 => .n32x2
  | 8 => .i64
  | _ => .n64

/-- The 2 codes of BTy. -/
def BTy.code : BTy → Nat
  | .b32 => 0
  | .b64 => 1

/-- The type a code stands for; the last one for codes beyond the list, which no caller gives. -/
def BTy.ofCode : Nat → BTy
  | 0 => .b32
  | _ => .b64

/-- The 4 codes of WTy. -/
def WTy.code : WTy → Nat
  | .i32 => 0
  | .n32 => 1
  | .i64 => 2
  | .n64 => 3

/-- The type a code stands for; the last one for codes beyond the list, which no caller gives. -/
def WTy.ofCode : Nat → WTy
  | 0 => .i32
  | 1 => .n32
  | 2 => .i64
  | _ => .n64

/-- The 4 codes of FTy. -/
def FTy.code : FTy → Nat
  | .f32 => 0
  | .f32x2 => 1
  | .f16x4 => 2
  | .bf16x4 => 3

/-- The type a code stands for; the last one for codes beyond the list, which no caller gives. -/
def FTy.ofCode : Nat → FTy
  | 0 => .f32
  | 1 => .f32x2
  | 2 => .f16x4
  | _ => .bf16x4

/-- The 2 codes of HTy. -/
def HTy.code : HTy → Nat
  | .f16x4 => 0
  | .bf16x4 => 1

/-- The type a code stands for; the last one for codes beyond the list, which no caller gives. -/
def HTy.ofCode : Nat → HTy
  | 0 => .f16x4
  | _ => .bf16x4

/-- The 2 codes of LTy. -/
def LTy.code : LTy → Nat
  | .i64 => 0
  | .n64 => 1

/-- The type a code stands for; the last one for codes beyond the list, which no caller gives. -/
def LTy.ofCode : Nat → LTy
  | 0 => .i64
  | _ => .n64

/-- The 2 codes of ATy. -/
def ATy.code : ATy → Nat
  | .f32 => 0
  | .f16x2 => 1

/-- The type a code stands for; the last one for codes beyond the list, which no caller gives. -/
def ATy.ofCode : Nat → ATy
  | 0 => .f32
  | _ => .f16x2

/-- The 4 codes of MSz. -/
def MSz.code : MSz → Nat
  | .b8 => 0
  | .b16 => 1
  | .b32 => 2
  | .b64 => 3

/-- The type a code stands for; the last one for codes beyond the list, which no caller gives. -/
def MSz.ofCode : Nat → MSz
  | 0 => .b8
  | 1 => .b16
  | 2 => .b32
  | _ => .b64

/-- The payload and guard of an X word (R28, R29). -/
def decodeX (w : Nat) : Except Reject Pre :=
  let neg := bit w 21
  let gp := bvf w 18 3
  match fld w 22 3 with
  | 0 => if fld w 0 2 = 0 then
      .ok (.k0 neg gp (bvf w 11 7) (bvf w 8 3) (bit w 7) (bit w 6) (bvf w 3 3) (bit w 2)) else .error .badX
  | 1 => if fld w 0 2 = 0 then
      .ok (.k1 neg gp (bvf w 11 7) (bvf w 9 2) (bvf w 7 2) (bvf w 5 2) (bvf w 3 2) (bit w 2)) else .error .badX
  | 2 => .ok (.k2 neg gp (bvf w 16 2) (bvf w 12 4) (bvf w 5 7) (bvf w 2 3) (bit w 1) (bit w 0))
  | 3 => .ok (.k3 neg gp (bvf w 16 2) (bvf w 14 2) (bvf w 7 7) (bvf w 0 7))
  | 4 => .ok (.k4 neg gp (bvf w 15 3) (bvf w 12 3) (bvf w 0 12))
  | _ => .error .badX

/-- A field that starts at bit 0 of a word, the rest of the word above it. -/
def cellV {n : Nat} (x : BitVec n) (r : Nat) : Nat := x.toNat + 2 ^ n * r
/-- A one-bit field below the rest of a word. -/
def cellB (x : Bool) (r : Nat) : Nat := x.toNat + 2 ^ 1 * r
/-- A code of n bits below the rest of a word. -/
def cellN (v n r : Nat) : Nat := v + 2 ^ n * r

/-- The X word of a prefix, its fields from bit 0 up; none for a word without one. -/
def encodeX : Pre → List Nat
  | .none => []
  | .k0 neg gp c rnd sat sube subi flg =>
    [cellN 0 2 <| cellB flg <| cellV subi <| cellB sube <| cellB sat <| cellV rnd <| cellV c <| cellV gp <| cellB neg <| cellN 0 3 <| cellN 2 6 0]
  | .k1 neg gp c dx ax bx cx flg =>
    [cellN 0 2 <| cellB flg <| cellV cx <| cellV bx <| cellV ax <| cellV dx <| cellV c <| cellV gp <| cellB neg <| cellN 1 3 <| cellN 2 6 0]
  | .k2 neg gp which k c rnd sat flg =>
    [cellB flg <| cellB sat <| cellV rnd <| cellV c <| cellV k <| cellV which <| cellV gp <| cellB neg <| cellN 2 3 <| cellN 2 6 0]
  | .k3 neg gp which x off c =>
    [cellV c <| cellV off <| cellV x <| cellV which <| cellV gp <| cellB neg <| cellN 3 3 <| cellN 2 6 0]
  | .k4 neg gp ord scope offh =>
    [cellV offh <| cellV scope <| cellV ord <| cellV gp <| cellB neg <| cellN 4 3 <| cellN 2 6 0]

/-- Words of major 0x00 (R36). -/
def decodeHead (x : Pre) (w : Nat) : Except Reject Instr :=
  if x = .none ∧ fld w 12 1 = 0 ∧ fld w 31 1 = 0 then
      .ok (.head (bit w 24) (bvf w 21 3) (bvf w 17 4) (bvf w 13 4) (bvf w 0 12))
  else .error .reserved

/-- Words of majors 0x04 to 0x0D (R36). -/
def decodeInt (x : Pre) (w : Nat) : Except Reject Instr :=
  match fld w 21 4 with
  | 0 => .ok (.add x (bit w 31) (.ofCode (fld w 25 6 - 4)) (bvf w 14 7) (bvf w 7 7) (bvf w 0 7))
  | 1 => .ok (.sub x (bit w 31) (.ofCode (fld w 25 6 - 4)) (bvf w 14 7) (bvf w 7 7) (bvf w 0 7))
  | 2 => .ok (.mul x (bit w 31) (.ofCode (fld w 25 6 - 4)) (bvf w 14 7) (bvf w 7 7) (bvf w 0 7))
  | 3 => .ok (.mulh x (bit w 31) (.ofCode (fld w 25 6 - 4)) (bvf w 14 7) (bvf w 7 7) (bvf w 0 7))
  | 4 => .ok (.mad x (bit w 31) (.ofCode (fld w 25 6 - 4)) (bvf w 14 7) (bvf w 7 7) (bvf w 0 7))
  | 5 => if fld w 0 7 = 0 then
      .ok (.ineg x (bit w 31) (.ofCode (fld w 25 6 - 4)) (bvf w 14 7) (bvf w 7 7))
    else .error .reserved
  | 6 => if fld w 0 7 = 0 then
      .ok (.iabs x (bit w 31) (.ofCode (fld w 25 6 - 4)) (bvf w 14 7) (bvf w 7 7))
    else .error .reserved
  | 7 => .ok (.imin x (bit w 31) (.ofCode (fld w 25 6 - 4)) (bvf w 14 7) (bvf w 7 7) (bvf w 0 7))
  | 8 => .ok (.imax x (bit w 31) (.ofCode (fld w 25 6 - 4)) (bvf w 14 7) (bvf w 7 7) (bvf w 0 7))
  | 9 => .ok (.sad x (bit w 31) (.ofCode (fld w 25 6 - 4)) (bvf w 14 7) (bvf w 7 7) (bvf w 0 7))
  | 10 => .ok (.add3 x (bit w 31) (.ofCode (fld w 25 6 - 4)) (bvf w 14 7) (bvf w 7 7) (bvf w 0 7))
  | 11 => .ok (.cmp x (bit w 31) (.ofCode (fld w 25 6 - 4)) (bvf w 17 4) (bvf w 14 3) (bvf w 7 7) (bvf w 0 7))
  | 12 => .ok (.sel x (bit w 31) (.ofCode (fld w 25 6 - 4)) (bvf w 14 7) (bvf w 7 7) (bvf w 0 7))
  | 13 => if fld w 0 7 = 0 then
      .ok (.mov x (bit w 31) (.ofCode (fld w 25 6 - 4)) (bvf w 14 7) (bvf w 7 7))
    else .error .reserved
  | 14 => .ok (.cvt x (bit w 31) (.ofCode (fld w 25 6 - 4)) (bvf w 14 7) (bvf w 7 7) (bvf w 4 3) (bvf w 0 4))
  | 15 => if 12 ≤ fld w 25 6 then
      .ok (.lea x (bit w 31) (.ofCode (fld w 25 6 - 12)) (bvf w 14 7) (bvf w 7 7) (bvf w 0 7))
    else .error .reserved
  | _ => .error .minor

/-- Words of majors 0x0E to 0x0F (R36). -/
def decodeBitwise (x : Pre) (w : Nat) : Except Reject Instr :=
  match fld w 21 4 with
  | 0 => .ok (.shl x (bit w 31) (.ofCode (fld w 25 6 - 14)) (bvf w 14 7) (bvf w 7 7) (bvf w 0 7))
  | 1 => .ok (.shr x (bit w 31) (.ofCode (fld w 25 6 - 14)) (bvf w 14 7) (bvf w 7 7) (bvf w 0 7))
  | 2 => .ok (.sar x (bit w 31) (.ofCode (fld w 25 6 - 14)) (bvf w 14 7) (bvf w 7 7) (bvf w 0 7))
  | 3 => .ok (.band x (bit w 31) (.ofCode (fld w 25 6 - 14)) (bvf w 14 7) (bvf w 7 7) (bvf w 0 7))
  | 4 => .ok (.bor x (bit w 31) (.ofCode (fld w 25 6 - 14)) (bvf w 14 7) (bvf w 7 7) (bvf w 0 7))
  | 5 => .ok (.bxor x (bit w 31) (.ofCode (fld w 25 6 - 14)) (bvf w 14 7) (bvf w 7 7) (bvf w 0 7))
  | 6 => .ok (.andn x (bit w 31) (.ofCode (fld w 25 6 - 14)) (bvf w 14 7) (bvf w 7 7) (bvf w 0 7))
  | 7 => .ok (.orn x (bit w 31) (.ofCode (fld w 25 6 - 14)) (bvf w 14 7) (bvf w 7 7) (bvf w 0 7))
  | 8 => if fld w 0 7 = 0 then
      .ok (.bnot x (bit w 31) (.ofCode (fld w 25 6 - 14)) (bvf w 14 7) (bvf w 7 7))
    else .error .reserved
  | 9 => if fld w 0 7 = 0 then
      .ok (.popc x (bit w 31) (.ofCode (fld w 25 6 - 14)) (bvf w 14 7) (bvf w 7 7))
    else .error .reserved
  | 10 => if fld w 0 7 = 0 then
      .ok (.clz x (bit w 31) (.ofCode (fld w 25 6 - 14)) (bvf w 14 7) (bvf w 7 7))
    else .error .reserved
  | 11 => if fld w 0 7 = 0 then
      .ok (.ctz x (bit w 31) (.ofCode (fld w 25 6 - 14)) (bvf w 14 7) (bvf w 7 7))
    else .error .reserved
  | 12 => if fld w 0 7 = 0 then
      .ok (.brev x (bit w 31) (.ofCode (fld w 25 6 - 14)) (bvf w 14 7) (bvf w 7 7))
    else .error .reserved
  | 13 => .ok (.perm x (bit w 31) (.ofCode (fld w 25 6 - 14)) (bvf w 14 7) (bvf w 7 7) (bvf w 0 7))
  | 14 => if fld w 25 6 = 14 then
      .ok (.idot4I8 x (bit w 31) (bvf w 14 7) (bvf w 7 7) (bvf w 0 7))
    else .error .reserved
  | 15 => if fld w 25 6 = 14 then
      .ok (.idot4N8 x (bit w 31) (bvf w 14 7) (bvf w 7 7) (bvf w 0 7))
    else .error .reserved
  | _ => .error .minor

/-- Words of majors 0x10 to 0x13 (R36). -/
def decodeField (x : Pre) (w : Nat) : Except Reject Instr :=
  match fld w 21 4 with
  | 0 => .ok (.bfx x (bit w 31) (.ofCode (fld w 25 6 - 16)) (bvf w 14 7) (bvf w 7 7) (bvf w 0 7))
  | 1 => .ok (.bfi x (bit w 31) (.ofCode (fld w 25 6 - 16)) (bvf w 14 7) (bvf w 7 7) (bvf w 0 7))
  | 2 => .ok (.fshl x (bit w 31) (.ofCode (fld w 25 6 - 16)) (bvf w 14 7) (bvf w 7 7) (bvf w 0 7))
  | 3 => .ok (.fshr x (bit w 31) (.ofCode (fld w 25 6 - 16)) (bvf w 14 7) (bvf w 7 7) (bvf w 0 7))
  | 4 => if fld w 7 7 = 0 then
      .ok (.bmsk x (bit w 31) (.ofCode (fld w 25 6 - 16)) (bvf w 14 7) (bvf w 0 7))
    else .error .reserved
  | _ => .error .minor

/-- Words of major 0x14 (R36). -/
def decodeMovi (x : Pre) (w : Nat) : Except Reject Instr :=
  if fld w 11 7 = 0 then
      .ok (.movi x (bit w 31) (bvf w 18 7) (bvf w 0 11))
  else .error .reserved

/-- Words of major 0x15 (R36). -/
def decodeMovh (x : Pre) (w : Nat) : Except Reject Instr :=
  .ok (.movh x (bit w 31) (bvf w 18 7) (bvf w 11 7) (bvf w 0 11))

/-- Words of major 0x16 (R36). -/
def decodeXset (x : Pre) (w : Nat) : Except Reject Instr :=
  if fld w 20 5 = 0 then
      .ok (.xset x (bit w 31) (bvf w 18 2) (bvf w 11 7) (bvf w 0 11))
  else .error .reserved

/-- Words of majors 0x18 to 0x1B (R36). -/
def decodeFloatA (x : Pre) (w : Nat) : Except Reject Instr :=
  match fld w 21 4 with
  | 0 => .ok (.fadd x (bit w 31) (.ofCode (fld w 25 6 - 24)) (bvf w 14 7) (bvf w 7 7) (bvf w 0 7))
  | 1 => .ok (.fsub x (bit w 31) (.ofCode (fld w 25 6 - 24)) (bvf w 14 7) (bvf w 7 7) (bvf w 0 7))
  | 2 => .ok (.fmul x (bit w 31) (.ofCode (fld w 25 6 - 24)) (bvf w 14 7) (bvf w 7 7) (bvf w 0 7))
  | 3 => .ok (.ffma x (bit w 31) (.ofCode (fld w 25 6 - 24)) (bvf w 14 7) (bvf w 7 7) (bvf w 0 7))
  | 4 => .ok (.fmin x (bit w 31) (.ofCode (fld w 25 6 - 24)) (bvf w 14 7) (bvf w 7 7) (bvf w 0 7))
  | 5 => .ok (.fmax x (bit w 31) (.ofCode (fld w 25 6 - 24)) (bvf w 14 7) (bvf w 7 7) (bvf w 0 7))
  | 6 => if fld w 25 6 = 24 then
      .ok (.fcmp x (bit w 31) (bvf w 17 4) (bvf w 14 3) (bvf w 7 7) (bvf w 0 7))
    else .error .reserved
  | 7 => if fld w 0 7 = 0 then
      .ok (.fclass x (bit w 31) (.ofCode (fld w 25 6 - 24)) (bvf w 14 7) (bvf w 7 7))
    else .error .reserved
  | 8 => if fld w 0 7 = 0 then
      .ok (.frnd x (bit w 31) (.ofCode (fld w 25 6 - 24)) (bvf w 14 7) (bvf w 7 7))
    else .error .reserved
  | 9 => if fld w 2 2 = 0 then
      .ok (.fcvt x (bit w 31) (.ofCode (fld w 25 6 - 24)) (bvf w 14 7) (bvf w 7 7) (bvf w 4 3) (bvf w 0 2))
    else .error .reserved
  | 10 => .ok (.ftoi x (bit w 31) (.ofCode (fld w 25 6 - 24)) (bvf w 14 7) (bvf w 7 7) (bvf w 4 3) (bvf w 0 4))
  | 11 => .ok (.itof x (bit w 31) (.ofCode (fld w 25 6 - 24)) (bvf w 14 7) (bvf w 7 7) (bvf w 4 3) (bvf w 0 4))
  | 12 => .ok (.fscale x (bit w 31) (.ofCode (fld w 25 6 - 24)) (bvf w 14 7) (bvf w 7 7) (bvf w 0 7))
  | 13 => .ok (.fdot2 x (bit w 31) (.ofCode (fld w 25 6 - 24)) (bvf w 14 7) (bvf w 7 7) (bvf w 0 7))
  | 14 => if 26 ≤ fld w 25 6 then
      .ok (.fdot4 x (bit w 31) (.ofCode (fld w 25 6 - 26)) (bvf w 14 7) (bvf w 7 7) (bvf w 0 7))
    else .error .reserved
  | _ => .error .minor

/-- Words of majors 0x1C to 0x1F (R36). -/
def decodeFloatX (x : Pre) (w : Nat) : Except Reject Instr :=
  match fld w 21 4 with
  | 0 => .ok (.fdiv x (bit w 31) (.ofCode (fld w 25 6 - 28)) (bvf w 14 7) (bvf w 7 7) (bvf w 0 7))
  | 1 => if fld w 0 7 = 0 then
      .ok (.frcp x (bit w 31) (.ofCode (fld w 25 6 - 28)) (bvf w 14 7) (bvf w 7 7))
    else .error .reserved
  | 2 => if fld w 0 7 = 0 then
      .ok (.frsq x (bit w 31) (.ofCode (fld w 25 6 - 28)) (bvf w 14 7) (bvf w 7 7))
    else .error .reserved
  | 3 => if fld w 0 7 = 0 then
      .ok (.fsqrt x (bit w 31) (.ofCode (fld w 25 6 - 28)) (bvf w 14 7) (bvf w 7 7))
    else .error .reserved
  | 4 => if fld w 0 7 = 0 then
      .ok (.fexp2 x (bit w 31) (.ofCode (fld w 25 6 - 28)) (bvf w 14 7) (bvf w 7 7))
    else .error .reserved
  | 5 => if fld w 0 7 = 0 then
      .ok (.flog2 x (bit w 31) (.ofCode (fld w 25 6 - 28)) (bvf w 14 7) (bvf w 7 7))
    else .error .reserved
  | 6 => if fld w 0 7 = 0 then
      .ok (.fsin x (bit w 31) (.ofCode (fld w 25 6 - 28)) (bvf w 14 7) (bvf w 7 7))
    else .error .reserved
  | 7 => if fld w 0 7 = 0 then
      .ok (.fcos x (bit w 31) (.ofCode (fld w 25 6 - 28)) (bvf w 14 7) (bvf w 7 7))
    else .error .reserved
  | 8 => if fld w 0 7 = 0 then
      .ok (.ftanh x (bit w 31) (.ofCode (fld w 25 6 - 28)) (bvf w 14 7) (bvf w 7 7))
    else .error .reserved
  | 9 => if fld w 3 4 = 0 then
      .ok (.fpackTf8 x (bit w 31) (.ofCode (fld w 25 6 - 28)) (bvf w 14 7) (bvf w 7 7) (bvf w 0 3))
    else .error .reserved
  | 10 => if fld w 3 4 = 0 then
      .ok (.fpackTf6 x (bit w 31) (.ofCode (fld w 25 6 - 28)) (bvf w 14 7) (bvf w 7 7) (bvf w 0 3))
    else .error .reserved
  | 11 => if fld w 3 4 = 0 then
      .ok (.funpackTf8 x (bit w 31) (.ofCode (fld w 25 6 - 28)) (bvf w 14 7) (bvf w 7 7) (bvf w 0 3))
    else .error .reserved
  | 12 => if fld w 3 4 = 0 then
      .ok (.funpackTf6 x (bit w 31) (.ofCode (fld w 25 6 - 28)) (bvf w 14 7) (bvf w 7 7) (bvf w 0 3))
    else .error .reserved
  | _ => .error .minor

/-- Words of majors 0x20 to 0x23 (R36). -/
def decodeLane (x : Pre) (w : Nat) : Except Reject Instr :=
  match fld w 21 4 with
  | 0 => .ok (.shflIdx x (bit w 31) (.ofCode (fld w 25 6 - 32)) (bvf w 14 7) (bvf w 7 7) (bvf w 0 7))
  | 1 => .ok (.shflUp x (bit w 31) (.ofCode (fld w 25 6 - 32)) (bvf w 14 7) (bvf w 7 7) (bvf w 0 7))
  | 2 => .ok (.shflDown x (bit w 31) (.ofCode (fld w 25 6 - 32)) (bvf w 14 7) (bvf w 7 7) (bvf w 0 7))
  | 3 => .ok (.shflXor x (bit w 31) (.ofCode (fld w 25 6 - 32)) (bvf w 14 7) (bvf w 7 7) (bvf w 0 7))
  | 4 => if fld w 25 6 = 35 ∧ fld w 0 7 = 0 ∧ fld w 10 4 = 0 ∧ fld w 17 4 = 0 then
      .ok (.voteAll x (bit w 31) (bvf w 14 3) (bvf w 7 3))
    else .error .reserved
  | 5 => if fld w 25 6 = 35 ∧ fld w 0 7 = 0 ∧ fld w 10 4 = 0 ∧ fld w 17 4 = 0 then
      .ok (.voteAny x (bit w 31) (bvf w 14 3) (bvf w 7 3))
    else .error .reserved
  | 6 => if fld w 25 6 = 35 ∧ fld w 0 7 = 0 ∧ fld w 10 4 = 0 then
      .ok (.voteBallot x (bit w 31) (bvf w 14 7) (bvf w 7 3))
    else .error .reserved
  | 7 => .ok (.matchKey x (bit w 31) (.ofCode (fld w 25 6 - 32)) (bvf w 14 7) (bvf w 7 7) (bvf w 0 7))
  | 8 => if fld w 0 7 = 0 then
      .ok (.lredAdd x (bit w 31) (.ofCode (fld w 25 6 - 32)) (bvf w 14 7) (bvf w 7 7))
    else .error .reserved
  | 9 => if fld w 0 7 = 0 then
      .ok (.lredMin x (bit w 31) (.ofCode (fld w 25 6 - 32)) (bvf w 14 7) (bvf w 7 7))
    else .error .reserved
  | 10 => if fld w 0 7 = 0 then
      .ok (.lredMax x (bit w 31) (.ofCode (fld w 25 6 - 32)) (bvf w 14 7) (bvf w 7 7))
    else .error .reserved
  | 11 => if fld w 0 7 = 0 then
      .ok (.lredAnd x (bit w 31) (.ofCode (fld w 25 6 - 32)) (bvf w 14 7) (bvf w 7 7))
    else .error .reserved
  | 12 => if fld w 0 7 = 0 then
      .ok (.lredOr x (bit w 31) (.ofCode (fld w 25 6 - 32)) (bvf w 14 7) (bvf w 7 7))
    else .error .reserved
  | 13 => if fld w 0 7 = 0 then
      .ok (.lredXor x (bit w 31) (.ofCode (fld w 25 6 - 32)) (bvf w 14 7) (bvf w 7 7))
    else .error .reserved
  | 14 => if fld w 0 7 = 0 then
      .ok (.lscanAdd x (bit w 31) (.ofCode (fld w 25 6 - 32)) (bvf w 14 7) (bvf w 7 7))
    else .error .reserved
  | 15 => if fld w 0 7 = 0 then
      .ok (.lscanMax x (bit w 31) (.ofCode (fld w 25 6 - 32)) (bvf w 14 7) (bvf w 7 7))
    else .error .reserved
  | _ => .error .minor

/-- Words of major 0x24 (R36). -/
def decodeCtl (x : Pre) (w : Nat) : Except Reject Instr :=
  match fld w 21 4 with
  | 0 => if fld w 3 4 = 0 ∧ fld w 10 4 = 0 then
      .ok (.plop x (bit w 31) (bvf w 17 4) (bvf w 14 3) (bvf w 7 3) (bvf w 0 3))
    else .error .reserved
  | 1 => if fld w 0 7 = 0 ∧ fld w 17 4 = 0 then
      .ok (.pmovToPred x (bit w 31) (bvf w 14 3) (bvf w 7 7))
    else if fld w 0 7 = 1 ∧ fld w 10 4 = 0 then
      .ok (.pmovFromPred x (bit w 31) (bvf w 14 7) (bvf w 7 3))
    else .error .minor
  | 2 => if fld w 31 1 = 0 then
      .ok (.jmpt x (bvf w 14 7) (bvf w 7 7) (bvf w 0 7))
    else .error .reserved
  | 3 => if fld w 0 21 = 0 ∧ fld w 31 1 = 0 then
      .ok (.ret x)
    else .error .reserved
  | 4 => if fld w 0 21 = 0 ∧ fld w 31 1 = 0 then
      .ok (.exit x)
    else .error .reserved
  | 5 => if fld w 0 21 = 0 then
      .ok (.yield x (bit w 31))
    else .error .reserved
  | 6 => .ok (.nop x (bit w 31) (bvf w 14 7) (bvf w 7 7) (bvf w 0 7))
  | 7 => if fld w 14 7 = 0 then
      .ok (.brk x (bit w 31) (bvf w 0 14))
    else .error .reserved
  | 8 => if fld w 0 7 = 0 ∧ fld w 14 7 = 0 then
      .ok (.sypub x (bit w 31) (bvf w 7 7))
    else .error .reserved
  | 9 => if fld w 0 7 = 0 ∧ fld w 14 7 = 0 then
      .ok (.sydone x (bit w 31) (bvf w 7 7))
    else .error .reserved
  | 10 => .ok (.setmode x (bit w 31) (bvf w 14 7) (bvf w 7 7) (bvf w 0 7))
  | _ => .error .minor

/-- Words of major 0x25 (R36). -/
def decodeBra (x : Pre) (w : Nat) : Except Reject Instr :=
  if x = .none ∧ fld w 31 1 = 0 then
      .ok (.bra (bit w 24) (bvf w 21 3) (bvf w 0 21))
  else .error .reserved

/-- Words of major 0x26 (R36). -/
def decodeCall (x : Pre) (w : Nat) : Except Reject Instr :=
  if x = .none ∧ fld w 31 1 = 0 then
      .ok (.call (bit w 24) (bvf w 21 3) (bvf w 0 21))
  else .error .reserved

/-- Words of major 0x27 (R36). -/
def decodeSrd (x : Pre) (w : Nat) : Except Reject Instr :=
  match fld w 21 4 with
  | 0 => .ok (.srd x (bit w 31) (bvf w 14 7) (bvf w 0 14))
  | _ => .error .minor

/-- Words of major 0x28 (R36). -/
def decodeSwr (x : Pre) (w : Nat) : Except Reject Instr :=
  match fld w 21 4 with
  | 0 => .ok (.swr x (bit w 31) (bvf w 14 7) (bvf w 0 14))
  | _ => .error .minor

/-- Words of major 0x29 (R36). -/
def decodeSys (x : Pre) (w : Nat) : Except Reject Instr :=
  match fld w 21 4 with
  | 0 => if fld w 14 7 = 0 then
      .ok (.trap x (bit w 31) (bvf w 0 14))
    else .error .reserved
  | 1 => if fld w 0 21 = 0 ∧ fld w 31 1 = 0 then
      .ok (.rett x)
    else .error .reserved
  | 2 => if fld w 14 7 = 0 then
      .ok (.sys x (bit w 31) (bvf w 0 14))
    else .error .reserved
  | 3 => if fld w 7 7 = 0 then
      .ok (.ctxsv x (bit w 31) (bvf w 14 7) (bvf w 0 7))
    else .error .reserved
  | 4 => if fld w 0 14 = 0 then
      .ok (.ctxrs x (bit w 31) (bvf w 14 7))
    else .error .reserved
  | 5 => if fld w 2 12 = 0 then
      .ok (.tlbinv x (bit w 31) (bvf w 14 7) (bvf w 0 2))
    else .error .reserved
  | _ => .error .minor

/-- Words of majors 0x2A to 0x2D (R36). -/
def decodeMem (x : Pre) (w : Nat) : Except Reject Instr :=
  match fld w 22 3 with
  | 0 => .ok (.ld x (bit w 31) (.ofCode (fld w 25 6 - 42)) (bit w 21) (bvf w 14 7) (bvf w 7 7) (bvf w 0 7))
  | 1 => .ok (.ldSext x (bit w 31) (.ofCode (fld w 25 6 - 42)) (bit w 21) (bvf w 14 7) (bvf w 7 7) (bvf w 0 7))
  | 2 => .ok (.st x (bit w 31) (.ofCode (fld w 25 6 - 42)) (bit w 21) (bvf w 14 7) (bvf w 7 7) (bvf w 0 7))
  | 3 => .ok (.lds x (bit w 31) (.ofCode (fld w 25 6 - 42)) (bit w 21) (bvf w 14 7) (bvf w 7 7) (bvf w 0 7))
  | 4 => .ok (.ldsSext x (bit w 31) (.ofCode (fld w 25 6 - 42)) (bit w 21) (bvf w 14 7) (bvf w 7 7) (bvf w 0 7))
  | 5 => .ok (.sts x (bit w 31) (.ofCode (fld w 25 6 - 42)) (bit w 21) (bvf w 14 7) (bvf w 7 7) (bvf w 0 7))
  | 6 => .ok (.ldc x (bit w 31) (.ofCode (fld w 25 6 - 42)) (bit w 21) (bvf w 14 7) (bvf w 7 7) (bvf w 0 7))
  | _ => .error .minor

/-- Words of major 0x2E (R36). -/
def decodeMemM (x : Pre) (w : Nat) : Except Reject Instr :=
  match fld w 22 3 with
  | 0 => .ok (.ldm x (bit w 31) (bit w 21) (bvf w 14 7) (bvf w 7 7) (bvf w 0 7))
  | 1 => .ok (.stm x (bit w 31) (bit w 21) (bvf w 14 7) (bvf w 7 7) (bvf w 0 7))
  | _ => .error .minor

/-- Words of major 0x2F (R36). -/
def decodeMaint (x : Pre) (w : Nat) : Except Reject Instr :=
  match fld w 22 3 with
  | 0 => if fld w 16 6 = 0 then
      .ok (.prfm x (bit w 31) (bvf w 14 2) (bvf w 7 7) (bvf w 0 7))
    else .error .reserved
  | 1 => .ok (.cwb x (bit w 31) (bit w 21) (bvf w 14 7) (bvf w 7 7) (bvf w 0 7))
  | 2 => .ok (.cinv x (bit w 31) (bit w 21) (bvf w 14 7) (bvf w 7 7) (bvf w 0 7))
  | 3 => .ok (.icinv x (bit w 31) (bit w 21) (bvf w 14 7) (bvf w 7 7) (bvf w 0 7))
  | 4 => if fld w 0 21 = 0 then
      .ok (.fence x (bit w 31) (bit w 21))
    else .error .reserved
  | _ => .error .minor

/-- Words of majors 0x30 to 0x33 (R36). -/
def decodeAtomic (x : Pre) (w : Nat) : Except Reject Instr :=
  match fld w 21 4 with
  | 0 => .ok (.atomAdd x (bit w 31) (.ofCode (fld w 25 6 - 48)) (bvf w 14 7) (bvf w 7 7) (bvf w 0 7))
  | 1 => .ok (.atomMin x (bit w 31) (.ofCode (fld w 25 6 - 48)) (bvf w 14 7) (bvf w 7 7) (bvf w 0 7))
  | 2 => .ok (.atomMax x (bit w 31) (.ofCode (fld w 25 6 - 48)) (bvf w 14 7) (bvf w 7 7) (bvf w 0 7))
  | 3 => .ok (.atomAnd x (bit w 31) (.ofCode (fld w 25 6 - 48)) (bvf w 14 7) (bvf w 7 7) (bvf w 0 7))
  | 4 => .ok (.atomOr x (bit w 31) (.ofCode (fld w 25 6 - 48)) (bvf w 14 7) (bvf w 7 7) (bvf w 0 7))
  | 5 => .ok (.atomXor x (bit w 31) (.ofCode (fld w 25 6 - 48)) (bvf w 14 7) (bvf w 7 7) (bvf w 0 7))
  | 6 => .ok (.atomExch x (bit w 31) (.ofCode (fld w 25 6 - 48)) (bvf w 14 7) (bvf w 7 7) (bvf w 0 7))
  | 7 => .ok (.atomc x (bit w 31) (.ofCode (fld w 25 6 - 48)) (bvf w 14 7) (bvf w 7 7) (bvf w 0 7))
  | 8 => if fld w 14 7 = 0 then
      .ok (.redAdd x (bit w 31) (.ofCode (fld w 25 6 - 48)) (bvf w 7 7) (bvf w 0 7))
    else .error .reserved
  | 9 => if fld w 14 7 = 0 then
      .ok (.redMin x (bit w 31) (.ofCode (fld w 25 6 - 48)) (bvf w 7 7) (bvf w 0 7))
    else .error .reserved
  | 10 => if fld w 14 7 = 0 then
      .ok (.redMax x (bit w 31) (.ofCode (fld w 25 6 - 48)) (bvf w 7 7) (bvf w 0 7))
    else .error .reserved
  | 11 => if fld w 14 7 = 0 then
      .ok (.redAnd x (bit w 31) (.ofCode (fld w 25 6 - 48)) (bvf w 7 7) (bvf w 0 7))
    else .error .reserved
  | 12 => if fld w 14 7 = 0 then
      .ok (.redOr x (bit w 31) (.ofCode (fld w 25 6 - 48)) (bvf w 7 7) (bvf w 0 7))
    else .error .reserved
  | 13 => if fld w 14 7 = 0 then
      .ok (.redXor x (bit w 31) (.ofCode (fld w 25 6 - 48)) (bvf w 7 7) (bvf w 0 7))
    else .error .reserved
  | 14 => if fld w 14 3 = 0 then
      .ok (.waitc x (bit w 31) (.ofCode (fld w 25 6 - 48)) (bvf w 17 4) (bvf w 7 7) (bvf w 0 7))
    else .error .reserved
  | _ => .error .minor

/-- Words of majors 0x34 to 0x35 (R36). -/
def decodeAtomicF (x : Pre) (w : Nat) : Except Reject Instr :=
  match fld w 21 4 with
  | 0 => .ok (.atomFadd x (bit w 31) (.ofCode (fld w 25 6 - 52)) (bvf w 14 7) (bvf w 7 7) (bvf w 0 7))
  | 8 => if fld w 14 7 = 0 then
      .ok (.redFadd x (bit w 31) (.ofCode (fld w 25 6 - 52)) (bvf w 7 7) (bvf w 0 7))
    else .error .reserved
  | _ => .error .minor

/-- Words of major 0x36 (R36). -/
def decodeQueue (x : Pre) (w : Nat) : Except Reject Instr :=
  match fld w 21 4 with
  | 0 => if fld w 0 10 = 0 ∧ fld w 20 1 = 0 then
      .ok (.ldtile x (bit w 31) (bvf w 17 3) (bvf w 10 7))
    else .error .reserved
  | 1 => if fld w 0 17 = 0 ∧ fld w 20 1 = 0 then
      .ok (.qbindNone x (bit w 31) (bvf w 17 3))
    else if fld w 0 17 = 1 ∧ fld w 20 1 = 0 then
      .ok (.qbindCmd x (bit w 31) (bvf w 17 3))
    else if fld w 0 17 = 2 ∧ fld w 20 1 = 0 then
      .ok (.qbindTok x (bit w 31) (bvf w 17 3))
    else if fld w 0 10 = 3 ∧ fld w 20 1 = 0 then
      .ok (.qbindEng x (bit w 31) (bvf w 17 3) (bvf w 10 7))
    else if fld w 0 10 = 4 ∧ fld w 20 1 = 0 then
      .ok (.qbindLsend x (bit w 31) (bvf w 17 3) (bvf w 10 7))
    else if fld w 0 10 = 5 ∧ fld w 20 1 = 0 then
      .ok (.qbindLrecv x (bit w 31) (bvf w 17 3) (bvf w 10 7))
    else .error .minor
  | 2 => if fld w 0 10 = 0 ∧ fld w 20 1 = 0 then
      .ok (.qpush x (bit w 31) (bvf w 17 3) (bvf w 10 7))
    else .error .reserved
  | 3 => if fld w 0 10 = 0 ∧ fld w 20 1 = 0 then
      .ok (.qcnt x (bit w 31) (bvf w 17 3) (bvf w 10 7))
    else .error .reserved
  | 4 => if fld w 17 4 = 0 then
      .ok (.cbinit x (bit w 31) (bvf w 10 7) (bvf w 3 7) (bvf w 0 3))
    else .error .reserved
  | 5 => if fld w 3 7 = 0 ∧ fld w 17 3 = 0 then
      .ok (.cbacq x (bit w 31) (bit w 20) (bvf w 10 7) (bvf w 0 3))
    else .error .reserved
  | 6 => if fld w 3 18 = 0 then
      .ok (.cbrel x (bit w 31) (bvf w 0 3))
    else .error .reserved
  | 7 => if fld w 3 7 = 0 ∧ fld w 17 4 = 0 then
      .ok (.cbstat x (bit w 31) (bvf w 10 7) (bvf w 0 3))
    else .error .reserved
  | 8 => if fld w 0 3 = 0 ∧ fld w 17 3 = 0 then
      .ok (.rtag x (bit w 31) (bit w 20) (bvf w 10 7) (bvf w 3 7))
    else .error .reserved
  | 9 => if fld w 0 3 = 0 ∧ fld w 17 4 = 0 then
      .ok (.bobinit x (bit w 31) (bvf w 10 7) (bvf w 3 7))
    else .error .reserved
  | 10 => if fld w 0 3 = 0 ∧ fld w 17 4 = 0 then
      .ok (.bobadd x (bit w 31) (bvf w 10 7) (bvf w 3 7))
    else .error .reserved
  | 11 => if fld w 0 3 = 0 ∧ fld w 17 3 = 0 then
      .ok (.bobwait x (bit w 31) (bit w 20) (bvf w 10 7) (bvf w 3 7))
    else .error .reserved
  | 12 => if fld w 10 11 = 0 then
      .ok (.barArr x (bit w 31) (bvf w 3 7) (bvf w 0 3))
    else .error .reserved
  | 13 => if fld w 3 6 = 0 ∧ fld w 10 10 = 0 then
      .ok (.barWait x (bit w 31) (bit w 20) (bit w 9) (bvf w 0 3))
    else .error .reserved
  | 14 => if fld w 0 10 = 0 ∧ fld w 17 3 = 0 then
      .ok (.haloDecl x (bit w 31) (bit w 20) (bvf w 10 7))
    else if fld w 0 10 = 1 ∧ fld w 17 3 = 0 then
      .ok (.haloRel x (bit w 31) (bit w 20) (bvf w 10 7))
    else if fld w 0 3 = 2 ∧ fld w 17 3 = 0 then
      .ok (.haloWait x (bit w 31) (bit w 20) (bvf w 10 7) (bvf w 3 7))
    else if fld w 0 10 = 3 ∧ fld w 17 3 = 0 then
      .ok (.haloDrop x (bit w 31) (bit w 20) (bvf w 10 7))
    else .error .minor
  | 15 => if fld w 3 7 = 0 ∧ fld w 17 3 = 0 then
      .ok (.coll x (bit w 31) (bit w 20) (bvf w 10 7) (bvf w 0 3))
    else .error .reserved
  | _ => .error .minor

/-- Words of major 0x37 (R36). -/
def decodeShadow (x : Pre) (w : Nat) : Except Reject Instr :=
  match fld w 21 4 with
  | 0 => if fld w 1 2 = 0 ∧ fld w 17 3 = 0 then
      .ok (.shopen x (bit w 31) (bit w 20) (bvf w 10 7) (bvf w 3 7) (bit w 0))
    else .error .reserved
  | 1 => if fld w 0 10 = 0 ∧ fld w 17 3 = 0 then
      .ok (.publish x (bit w 31) (bit w 20) (bvf w 10 7))
    else .error .reserved
  | 2 => if fld w 0 10 = 0 ∧ fld w 17 3 = 0 then
      .ok (.shdrop x (bit w 31) (bit w 20) (bvf w 10 7))
    else .error .reserved
  | 3 => if fld w 0 3 = 0 ∧ fld w 17 3 = 0 then
      .ok (.commit x (bit w 31) (bit w 20) (bvf w 10 7) (bvf w 3 7))
    else .error .reserved
  | 4 => if fld w 0 3 = 0 ∧ fld w 17 3 = 0 then
      .ok (.discard x (bit w 31) (bit w 20) (bvf w 10 7) (bvf w 3 7))
    else .error .reserved
  | 5 => if fld w 0 10 = 0 ∧ fld w 17 3 = 0 then
      .ok (.launch x (bit w 31) (bit w 20) (bvf w 10 7))
    else .error .reserved
  | 6 => if fld w 0 10 = 0 ∧ fld w 17 3 = 0 then
      .ok (.task x (bit w 31) (bit w 20) (bvf w 10 7))
    else .error .reserved
  | 7 => if fld w 0 3 = 0 ∧ fld w 17 4 = 0 then
      .ok (.take x (bit w 31) (bvf w 10 7) (bvf w 3 7))
    else .error .reserved
  | 8 => if fld w 0 3 = 0 ∧ fld w 10 10 = 0 then
      .ok (.claim x (bit w 31) (bit w 20) (bvf w 3 7))
    else .error .reserved
  | 9 => if fld w 0 3 = 0 ∧ fld w 10 11 = 0 then
      .ok (.give x (bit w 31) (bvf w 3 7))
    else .error .reserved
  | _ => .error .minor

/-- Words of major 0x38 (R36). -/
def decodeMatrix (x : Pre) (w : Nat) : Except Reject Instr :=
  match fld w 21 4 with
  | 0 => if fld w 0 10 = 0 ∧ fld w 17 3 = 0 then
      .ok (.slclaim x (bit w 31) (bit w 20) (bvf w 10 7))
    else .error .reserved
  | 1 => if fld w 0 10 = 0 ∧ fld w 17 4 = 0 then
      .ok (.slrelFree x (bit w 31) (bvf w 10 7))
    else if fld w 0 10 = 1 ∧ fld w 17 4 = 0 then
      .ok (.slrelReset x (bit w 31) (bvf w 10 7))
    else .error .minor
  | 2 => if fld w 0 10 = 0 ∧ fld w 17 3 = 0 then
      .ok (.acclaim x (bit w 31) (bit w 20) (bvf w 10 7))
    else .error .reserved
  | 3 => if fld w 0 10 = 0 ∧ fld w 17 4 = 0 then
      .ok (.acrel x (bit w 31) (bvf w 10 7))
    else .error .reserved
  | 4 => if fld w 2 8 = 0 ∧ fld w 17 4 = 0 then
      .ok (.mxlay x (bit w 31) (bvf w 10 7) (bvf w 0 2))
    else .error .reserved
  | 5 => .ok (.mxloop x (bit w 31) (bit w 20) (bvf w 17 3) (bvf w 10 7) (bvf w 3 7) (bvf w 0 3))
  | 6 => if fld w 0 3 = 0 ∧ fld w 17 3 = 0 then
      .ok (.mxsc x (bit w 31) (bit w 20) (bvf w 10 7) (bvf w 3 7))
    else .error .reserved
  | 7 => if fld w 0 10 = 0 ∧ fld w 17 3 = 0 then
      .ok (.mxz x (bit w 31) (bit w 20) (bvf w 10 7))
    else .error .reserved
  | 8 => if fld w 0 3 = 0 ∧ fld w 17 3 = 0 then
      .ok (.mxrd x (bit w 31) (bit w 20) (bvf w 10 7) (bvf w 3 7))
    else .error .reserved
  | 9 => if fld w 0 3 = 0 ∧ fld w 17 4 = 0 then
      .ok (.mxwr x (bit w 31) (bvf w 10 7) (bvf w 3 7))
    else .error .reserved
  | 10 => if fld w 0 3 = 0 ∧ fld w 17 3 = 0 then
      .ok (.mxst x (bit w 31) (bit w 20) (bvf w 10 7) (bvf w 3 7))
    else .error .reserved
  | 11 => if fld w 0 3 = 0 ∧ fld w 17 4 = 0 then
      .ok (.mxsp x (bit w 31) (bvf w 10 7) (bvf w 3 7))
    else .error .reserved
  | 12 => if fld w 0 10 = 0 ∧ fld w 17 4 = 0 then
      .ok (.mxcnt x (bit w 31) (bvf w 10 7))
    else if fld w 0 10 = 1 ∧ fld w 17 4 = 0 then
      .ok (.mxcntClr x (bit w 31) (bvf w 10 7))
    else .error .minor
  | _ => .error .minor

/-- Words of major 0x39 (R36). -/
def decodeTree (x : Pre) (w : Nat) : Except Reject Instr :=
  match fld w 21 4 with
  | 0 => if fld w 1 9 = 0 then
      .ok (.tsinit x (bit w 31) (bit w 20) (bvf w 17 3) (bvf w 10 7) (bit w 0))
    else .error .reserved
  | 1 => if fld w 1 9 = 0 then
      .ok (.tsexp x (bit w 31) (bit w 20) (bvf w 17 3) (bvf w 10 7) (bit w 0))
    else .error .reserved
  | 2 => if fld w 0 3 = 0 ∧ fld w 17 3 = 0 then
      .ok (.tsdesc x (bit w 31) (bit w 20) (bvf w 10 7) (bvf w 3 7))
    else .error .reserved
  | 3 => if fld w 0 3 = 0 ∧ fld w 17 3 = 0 then
      .ok (.tsback x (bit w 31) (bit w 20) (bvf w 10 7) (bvf w 3 7))
    else .error .reserved
  | 4 => if fld w 1 2 = 0 then
      .ok (.tsroot x (bit w 31) (bit w 20) (bvf w 17 3) (bvf w 10 7) (bvf w 3 7) (bit w 0))
    else .error .reserved
  | 5 => if fld w 1 2 = 0 then
      .ok (.tsfree x (bit w 31) (bit w 20) (bvf w 17 3) (bvf w 10 7) (bvf w 3 7) (bit w 0))
    else .error .reserved
  | 6 => if fld w 17 3 = 0 then
      .ok (.tsrd x (bit w 31) (bit w 20) (bvf w 10 7) (bvf w 3 7) (bvf w 0 3))
    else .error .reserved
  | 7 => if fld w 17 3 = 0 then
      .ok (.tsstat x (bit w 31) (bit w 20) (bvf w 10 7) (bvf w 3 7) (bvf w 0 3))
    else .error .reserved
  | _ => .error .minor

/-- Words of major 0x3A (R36). -/
def decodeGraph (x : Pre) (w : Nat) : Except Reject Instr :=
  match fld w 21 4 with
  | 0 => if fld w 0 10 = 0 ∧ fld w 17 3 = 0 then
      .ok (.mvemit x (bit w 31) (bit w 20) (bvf w 10 7))
    else .error .reserved
  | 1 => if fld w 17 4 = 0 then
      .ok (.cover x (bit w 31) (bvf w 10 7) (bvf w 3 7) (bvf w 0 3))
    else .error .reserved
  | 2 => if fld w 0 10 = 0 ∧ fld w 17 3 = 0 then
      .ok (.seqtkHw x (bit w 31) (bit w 20) (bvf w 10 7))
    else if fld w 0 10 = 1 ∧ fld w 17 4 = 0 then
      .ok (.seqtkCommit x (bit w 31) (bvf w 10 7))
    else .error .minor
  | 3 => if fld w 0 3 = 0 ∧ fld w 17 3 = 0 then
      .ok (.regionBind x (bit w 31) (bit w 20) (bvf w 10 7) (bvf w 3 7))
    else if fld w 0 3 = 1 ∧ fld w 17 3 = 0 then
      .ok (.regionXfer x (bit w 31) (bit w 20) (bvf w 10 7) (bvf w 3 7))
    else .error .minor
  | 4 => if fld w 17 3 = 0 then
      .ok (.smpl x (bit w 31) (bit w 20) (bvf w 10 7) (bvf w 3 7) (bvf w 0 3))
    else .error .reserved
  | 5 => if fld w 0 3 = 0 then
      .ok (.trace x (bit w 31) (bit w 20) (bvf w 17 3) (bvf w 10 7) (bvf w 3 7))
    else .error .reserved
  | 6 => if fld w 0 3 = 0 then
      .ok (.tresGo x (bit w 31) (bit w 20) (bvf w 17 3) (bvf w 10 7) (bvf w 3 7))
    else if fld w 0 3 = 1 then
      .ok (.tresHit x (bit w 31) (bit w 20) (bvf w 17 3) (bvf w 10 7) (bvf w 3 7))
    else if fld w 0 3 = 2 then
      .ok (.tresTmax x (bit w 31) (bit w 20) (bvf w 17 3) (bvf w 10 7) (bvf w 3 7))
    else .error .minor
  | 7 => if fld w 0 10 = 0 ∧ fld w 17 3 = 0 then
      .ok (.tvld x (bit w 31) (bit w 20) (bvf w 10 7))
    else .error .reserved
  | 8 => if fld w 0 10 = 0 ∧ fld w 17 3 = 0 then
      .ok (.tvst x (bit w 31) (bit w 20) (bvf w 10 7))
    else .error .reserved
  | 9 => if fld w 0 3 = 0 ∧ fld w 17 3 = 0 then
      .ok (.rpack x (bit w 31) (bit w 20) (bvf w 10 7) (bvf w 3 7))
    else .error .reserved
  | _ => .error .minor

/-- Words of major 0x3C (R36). -/
def decodeHintPfs (x : Pre) (w : Nat) : Except Reject Instr :=
  .ok (.hintPfs x (bit w 31) (bvf w 21 4) (bvf w 14 7) (bvf w 7 7) (bvf w 0 7))

/-- Words of major 0x3D (R36). -/
def decodeHintBlk (x : Pre) (w : Nat) : Except Reject Instr :=
  .ok (.hintBlk x (bit w 31) (bvf w 0 25))

/-- Words of majors 0x3E to 0x3F (R36). -/
def decodeHintU (x : Pre) (w : Nat) : Except Reject Instr :=
  .ok (.hintUndefined x (bit w 31) (bit w 25) (bvf w 0 25))

/-- One base word with the prefix that stands before it (R36). -/
def decodeBase (x : Pre) (w : Nat) : Except Reject Instr :=
  match fld w 25 6 with
  | 0 => decodeHead x w
  | 1 => .error .coping
  | 4 => decodeInt x w
  | 5 => decodeInt x w
  | 6 => decodeInt x w
  | 7 => decodeInt x w
  | 8 => decodeInt x w
  | 9 => decodeInt x w
  | 10 => decodeInt x w
  | 11 => decodeInt x w
  | 12 => decodeInt x w
  | 13 => decodeInt x w
  | 14 => decodeBitwise x w
  | 15 => decodeBitwise x w
  | 16 => decodeField x w
  | 17 => decodeField x w
  | 18 => decodeField x w
  | 19 => decodeField x w
  | 20 => decodeMovi x w
  | 21 => decodeMovh x w
  | 22 => decodeXset x w
  | 24 => decodeFloatA x w
  | 25 => decodeFloatA x w
  | 26 => decodeFloatA x w
  | 27 => decodeFloatA x w
  | 28 => decodeFloatX x w
  | 29 => decodeFloatX x w
  | 30 => decodeFloatX x w
  | 31 => decodeFloatX x w
  | 32 => decodeLane x w
  | 33 => decodeLane x w
  | 34 => decodeLane x w
  | 35 => decodeLane x w
  | 36 => decodeCtl x w
  | 37 => decodeBra x w
  | 38 => decodeCall x w
  | 39 => decodeSrd x w
  | 40 => decodeSwr x w
  | 41 => decodeSys x w
  | 42 => decodeMem x w
  | 43 => decodeMem x w
  | 44 => decodeMem x w
  | 45 => decodeMem x w
  | 46 => decodeMemM x w
  | 47 => decodeMaint x w
  | 48 => decodeAtomic x w
  | 49 => decodeAtomic x w
  | 50 => decodeAtomic x w
  | 51 => decodeAtomic x w
  | 52 => decodeAtomicF x w
  | 53 => decodeAtomicF x w
  | 54 => decodeQueue x w
  | 55 => decodeShadow x w
  | 56 => decodeMatrix x w
  | 57 => decodeTree x w
  | 58 => decodeGraph x w
  | 60 => decodeHintPfs x w
  | 61 => decodeHintBlk x w
  | 62 => decodeHintU x w
  | 63 => decodeHintU x w
  | _ => .error .major

/-- A decoded instruction, kept only when it is well formed. -/
def keepWf (i : Instr) : Except Reject Instr := if i.wf then .ok i else .error .illFormed

/-- One member from a list of words: an X word and the base word it attaches to, or a base word alone (R28).
Answers the instruction and the words that follow it. -/
def decodeWords : List Nat → Except Reject (Instr × List Nat)
  | [] => .error .short
  | w :: ws =>
    if fld w 25 6 = 2 then
      if bit w 31 then .error .badX else
      match decodeX w, ws with
      | .error e, _ => .error e
      | .ok _, [] => .error .short
      | .ok x, b :: rest => (decodeBase x b).bind fun i => (keepWf i).map fun j => (j, rest)
    else (decodeBase .none w).bind fun i => (keepWf i).map fun j => (j, ws)

/-- The little-endian words of a list of bytes (R8); a last run of fewer than four bytes gives no word. -/
def wordsOfBytes : List (BitVec 8) → List Nat
  | a :: b :: c :: d :: rest =>
    (a.toNat + put b.toNat 8 + put c.toNat 16 + put d.toNat 24) :: wordsOfBytes rest
  | _ => []

/-- The four bytes of a word, lowest address first (R8). -/
def bytesOfWord (w : Nat) : List (BitVec 8) :=
  [bvf w 0 8, bvf w 8 8, bvf w 16 8, bvf w 24 8]

/-- Decoding any bytes: the instruction that stands first in them. -/
def decodeBytes (bs : List (BitVec 8)) : Except Reject (Instr × List Nat) := decodeWords (wordsOfBytes bs)

/-- The host's question: the instruction whose bits are w, its first word in the lowest 32 bits. -/
def decodeTableWord (_nbits w : Nat) : Option Instr :=
  match decodeBytes (bytesOfWord w ++ bytesOfWord (w / 2 ^ 32)) with
  | .ok (i, _) => some i
  | .error _ => none

/-- The base word of an instruction, its fields from bit 0 up; 0 for events, which have none. -/
def encodeBase : Instr → Nat
  | .head h l a b w => cellV w <| cellN 0 1 <| cellV b <| cellV a <| cellV l <| cellB h 0
  | .add _ ch t d a b => cellV b <| cellV a <| cellV d <| cellN 0 4 <| cellN (4 + t.code) 6 <| cellB ch 0
  | .sub _ ch t d a b => cellV b <| cellV a <| cellV d <| cellN 1 4 <| cellN (4 + t.code) 6 <| cellB ch 0
  | .mul _ ch t d a b => cellV b <| cellV a <| cellV d <| cellN 2 4 <| cellN (4 + t.code) 6 <| cellB ch 0
  | .mulh _ ch t d a b => cellV b <| cellV a <| cellV d <| cellN 3 4 <| cellN (4 + t.code) 6 <| cellB ch 0
  | .mad _ ch t d a b => cellV b <| cellV a <| cellV d <| cellN 4 4 <| cellN (4 + t.code) 6 <| cellB ch 0
  | .ineg _ ch t d a => cellN 0 7 <| cellV a <| cellV d <| cellN 5 4 <| cellN (4 + t.code) 6 <| cellB ch 0
  | .iabs _ ch t d a => cellN 0 7 <| cellV a <| cellV d <| cellN 6 4 <| cellN (4 + t.code) 6 <| cellB ch 0
  | .imin _ ch t d a b => cellV b <| cellV a <| cellV d <| cellN 7 4 <| cellN (4 + t.code) 6 <| cellB ch 0
  | .imax _ ch t d a b => cellV b <| cellV a <| cellV d <| cellN 8 4 <| cellN (4 + t.code) 6 <| cellB ch 0
  | .sad _ ch t d a b => cellV b <| cellV a <| cellV d <| cellN 9 4 <| cellN (4 + t.code) 6 <| cellB ch 0
  | .add3 _ ch t d a b => cellV b <| cellV a <| cellV d <| cellN 10 4 <| cellN (4 + t.code) 6 <| cellB ch 0
  | .cmp _ ch t n p a b => cellV b <| cellV a <| cellV p <| cellV n <| cellN 11 4 <| cellN (4 + t.code) 6 <| cellB ch 0
  | .sel _ ch t d a b => cellV b <| cellV a <| cellV d <| cellN 12 4 <| cellN (4 + t.code) 6 <| cellB ch 0
  | .mov _ ch t d a => cellN 0 7 <| cellV a <| cellV d <| cellN 13 4 <| cellN (4 + t.code) 6 <| cellB ch 0
  | .cvt _ ch t d a h s => cellV s <| cellV h <| cellV a <| cellV d <| cellN 14 4 <| cellN (4 + t.code) 6 <| cellB ch 0
  | .lea _ ch t d a b => cellV b <| cellV a <| cellV d <| cellN 15 4 <| cellN (12 + t.code) 6 <| cellB ch 0
  | .shl _ ch w d a b => cellV b <| cellV a <| cellV d <| cellN 0 4 <| cellN (14 + w.code) 6 <| cellB ch 0
  | .shr _ ch w d a b => cellV b <| cellV a <| cellV d <| cellN 1 4 <| cellN (14 + w.code) 6 <| cellB ch 0
  | .sar _ ch w d a b => cellV b <| cellV a <| cellV d <| cellN 2 4 <| cellN (14 + w.code) 6 <| cellB ch 0
  | .band _ ch w d a b => cellV b <| cellV a <| cellV d <| cellN 3 4 <| cellN (14 + w.code) 6 <| cellB ch 0
  | .bor _ ch w d a b => cellV b <| cellV a <| cellV d <| cellN 4 4 <| cellN (14 + w.code) 6 <| cellB ch 0
  | .bxor _ ch w d a b => cellV b <| cellV a <| cellV d <| cellN 5 4 <| cellN (14 + w.code) 6 <| cellB ch 0
  | .andn _ ch w d a b => cellV b <| cellV a <| cellV d <| cellN 6 4 <| cellN (14 + w.code) 6 <| cellB ch 0
  | .orn _ ch w d a b => cellV b <| cellV a <| cellV d <| cellN 7 4 <| cellN (14 + w.code) 6 <| cellB ch 0
  | .bnot _ ch w d a => cellN 0 7 <| cellV a <| cellV d <| cellN 8 4 <| cellN (14 + w.code) 6 <| cellB ch 0
  | .popc _ ch w d a => cellN 0 7 <| cellV a <| cellV d <| cellN 9 4 <| cellN (14 + w.code) 6 <| cellB ch 0
  | .clz _ ch w d a => cellN 0 7 <| cellV a <| cellV d <| cellN 10 4 <| cellN (14 + w.code) 6 <| cellB ch 0
  | .ctz _ ch w d a => cellN 0 7 <| cellV a <| cellV d <| cellN 11 4 <| cellN (14 + w.code) 6 <| cellB ch 0
  | .brev _ ch w d a => cellN 0 7 <| cellV a <| cellV d <| cellN 12 4 <| cellN (14 + w.code) 6 <| cellB ch 0
  | .perm _ ch w d a b => cellV b <| cellV a <| cellV d <| cellN 13 4 <| cellN (14 + w.code) 6 <| cellB ch 0
  | .idot4I8 _ ch d a b => cellV b <| cellV a <| cellV d <| cellN 14 4 <| cellN 14 6 <| cellB ch 0
  | .idot4N8 _ ch d a b => cellV b <| cellV a <| cellV d <| cellN 15 4 <| cellN 14 6 <| cellB ch 0
  | .bfx _ ch t d a b => cellV b <| cellV a <| cellV d <| cellN 0 4 <| cellN (16 + t.code) 6 <| cellB ch 0
  | .bfi _ ch t d a b => cellV b <| cellV a <| cellV d <| cellN 1 4 <| cellN (16 + t.code) 6 <| cellB ch 0
  | .fshl _ ch t d a b => cellV b <| cellV a <| cellV d <| cellN 2 4 <| cellN (16 + t.code) 6 <| cellB ch 0
  | .fshr _ ch t d a b => cellV b <| cellV a <| cellV d <| cellN 3 4 <| cellN (16 + t.code) 6 <| cellB ch 0
  | .bmsk _ ch t d b => cellV b <| cellN 0 7 <| cellV d <| cellN 4 4 <| cellN (16 + t.code) 6 <| cellB ch 0
  | .movi _ ch d i => cellV i <| cellN 0 7 <| cellV d <| cellN 20 6 <| cellB ch 0
  | .movh _ ch d a i => cellV i <| cellV a <| cellV d <| cellN 21 6 <| cellB ch 0
  | .xset _ ch n a i => cellV i <| cellV a <| cellV n <| cellN 0 5 <| cellN 22 6 <| cellB ch 0
  | .fadd _ ch t d a b => cellV b <| cellV a <| cellV d <| cellN 0 4 <| cellN (24 + t.code) 6 <| cellB ch 0
  | .fsub _ ch t d a b => cellV b <| cellV a <| cellV d <| cellN 1 4 <| cellN (24 + t.code) 6 <| cellB ch 0
  | .fmul _ ch t d a b => cellV b <| cellV a <| cellV d <| cellN 2 4 <| cellN (24 + t.code) 6 <| cellB ch 0
  | .ffma _ ch t d a b => cellV b <| cellV a <| cellV d <| cellN 3 4 <| cellN (24 + t.code) 6 <| cellB ch 0
  | .fmin _ ch t d a b => cellV b <| cellV a <| cellV d <| cellN 4 4 <| cellN (24 + t.code) 6 <| cellB ch 0
  | .fmax _ ch t d a b => cellV b <| cellV a <| cellV d <| cellN 5 4 <| cellN (24 + t.code) 6 <| cellB ch 0
  | .fcmp _ ch n p a b => cellV b <| cellV a <| cellV p <| cellV n <| cellN 6 4 <| cellN 24 6 <| cellB ch 0
  | .fclass _ ch t d a => cellN 0 7 <| cellV a <| cellV d <| cellN 7 4 <| cellN (24 + t.code) 6 <| cellB ch 0
  | .frnd _ ch t d a => cellN 0 7 <| cellV a <| cellV d <| cellN 8 4 <| cellN (24 + t.code) 6 <| cellB ch 0
  | .fcvt _ ch t d a h s => cellV s <| cellN 0 2 <| cellV h <| cellV a <| cellV d <| cellN 9 4 <| cellN (24 + t.code) 6 <| cellB ch 0
  | .ftoi _ ch t d a h s => cellV s <| cellV h <| cellV a <| cellV d <| cellN 10 4 <| cellN (24 + t.code) 6 <| cellB ch 0
  | .itof _ ch t d a h s => cellV s <| cellV h <| cellV a <| cellV d <| cellN 11 4 <| cellN (24 + t.code) 6 <| cellB ch 0
  | .fscale _ ch t d a b => cellV b <| cellV a <| cellV d <| cellN 12 4 <| cellN (24 + t.code) 6 <| cellB ch 0
  | .fdot2 _ ch t d a b => cellV b <| cellV a <| cellV d <| cellN 13 4 <| cellN (24 + t.code) 6 <| cellB ch 0
  | .fdot4 _ ch t d a b => cellV b <| cellV a <| cellV d <| cellN 14 4 <| cellN (26 + t.code) 6 <| cellB ch 0
  | .fdiv _ ch t d a b => cellV b <| cellV a <| cellV d <| cellN 0 4 <| cellN (28 + t.code) 6 <| cellB ch 0
  | .frcp _ ch t d a => cellN 0 7 <| cellV a <| cellV d <| cellN 1 4 <| cellN (28 + t.code) 6 <| cellB ch 0
  | .frsq _ ch t d a => cellN 0 7 <| cellV a <| cellV d <| cellN 2 4 <| cellN (28 + t.code) 6 <| cellB ch 0
  | .fsqrt _ ch t d a => cellN 0 7 <| cellV a <| cellV d <| cellN 3 4 <| cellN (28 + t.code) 6 <| cellB ch 0
  | .fexp2 _ ch t d a => cellN 0 7 <| cellV a <| cellV d <| cellN 4 4 <| cellN (28 + t.code) 6 <| cellB ch 0
  | .flog2 _ ch t d a => cellN 0 7 <| cellV a <| cellV d <| cellN 5 4 <| cellN (28 + t.code) 6 <| cellB ch 0
  | .fsin _ ch t d a => cellN 0 7 <| cellV a <| cellV d <| cellN 6 4 <| cellN (28 + t.code) 6 <| cellB ch 0
  | .fcos _ ch t d a => cellN 0 7 <| cellV a <| cellV d <| cellN 7 4 <| cellN (28 + t.code) 6 <| cellB ch 0
  | .ftanh _ ch t d a => cellN 0 7 <| cellV a <| cellV d <| cellN 8 4 <| cellN (28 + t.code) 6 <| cellB ch 0
  | .fpackTf8 _ ch t d a h => cellV h <| cellN 0 4 <| cellV a <| cellV d <| cellN 9 4 <| cellN (28 + t.code) 6 <| cellB ch 0
  | .fpackTf6 _ ch t d a h => cellV h <| cellN 0 4 <| cellV a <| cellV d <| cellN 10 4 <| cellN (28 + t.code) 6 <| cellB ch 0
  | .funpackTf8 _ ch t d a h => cellV h <| cellN 0 4 <| cellV a <| cellV d <| cellN 11 4 <| cellN (28 + t.code) 6 <| cellB ch 0
  | .funpackTf6 _ ch t d a h => cellV h <| cellN 0 4 <| cellV a <| cellV d <| cellN 12 4 <| cellN (28 + t.code) 6 <| cellB ch 0
  | .shflIdx _ ch t d a b => cellV b <| cellV a <| cellV d <| cellN 0 4 <| cellN (32 + t.code) 6 <| cellB ch 0
  | .shflUp _ ch t d a b => cellV b <| cellV a <| cellV d <| cellN 1 4 <| cellN (32 + t.code) 6 <| cellB ch 0
  | .shflDown _ ch t d a b => cellV b <| cellV a <| cellV d <| cellN 2 4 <| cellN (32 + t.code) 6 <| cellB ch 0
  | .shflXor _ ch t d a b => cellV b <| cellV a <| cellV d <| cellN 3 4 <| cellN (32 + t.code) 6 <| cellB ch 0
  | .voteAll _ ch p q => cellN 0 7 <| cellV q <| cellN 0 4 <| cellV p <| cellN 0 4 <| cellN 4 4 <| cellN 35 6 <| cellB ch 0
  | .voteAny _ ch p q => cellN 0 7 <| cellV q <| cellN 0 4 <| cellV p <| cellN 0 4 <| cellN 5 4 <| cellN 35 6 <| cellB ch 0
  | .voteBallot _ ch d q => cellN 0 7 <| cellV q <| cellN 0 4 <| cellV d <| cellN 6 4 <| cellN 35 6 <| cellB ch 0
  | .matchKey _ ch t d a k => cellV k <| cellV a <| cellV d <| cellN 7 4 <| cellN (32 + t.code) 6 <| cellB ch 0
  | .lredAdd _ ch t d a => cellN 0 7 <| cellV a <| cellV d <| cellN 8 4 <| cellN (32 + t.code) 6 <| cellB ch 0
  | .lredMin _ ch t d a => cellN 0 7 <| cellV a <| cellV d <| cellN 9 4 <| cellN (32 + t.code) 6 <| cellB ch 0
  | .lredMax _ ch t d a => cellN 0 7 <| cellV a <| cellV d <| cellN 10 4 <| cellN (32 + t.code) 6 <| cellB ch 0
  | .lredAnd _ ch t d a => cellN 0 7 <| cellV a <| cellV d <| cellN 11 4 <| cellN (32 + t.code) 6 <| cellB ch 0
  | .lredOr _ ch t d a => cellN 0 7 <| cellV a <| cellV d <| cellN 12 4 <| cellN (32 + t.code) 6 <| cellB ch 0
  | .lredXor _ ch t d a => cellN 0 7 <| cellV a <| cellV d <| cellN 13 4 <| cellN (32 + t.code) 6 <| cellB ch 0
  | .lscanAdd _ ch t d a => cellN 0 7 <| cellV a <| cellV d <| cellN 14 4 <| cellN (32 + t.code) 6 <| cellB ch 0
  | .lscanMax _ ch t d a => cellN 0 7 <| cellV a <| cellV d <| cellN 15 4 <| cellN (32 + t.code) 6 <| cellB ch 0
  | .plop _ ch t p a b => cellV b <| cellN 0 4 <| cellV a <| cellN 0 4 <| cellV p <| cellV t <| cellN 0 4 <| cellN 36 6 <| cellB ch 0
  | .pmovToPred _ ch p a => cellN 0 7 <| cellV a <| cellV p <| cellN 0 4 <| cellN 1 4 <| cellN 36 6 <| cellB ch 0
  | .pmovFromPred _ ch d p => cellN 1 7 <| cellV p <| cellN 0 4 <| cellV d <| cellN 1 4 <| cellN 36 6 <| cellB ch 0
  | .jmpt _ n a b => cellV b <| cellV a <| cellV n <| cellN 2 4 <| cellN 36 6 0
  | .ret _ => cellN 0 21 <| cellN 3 4 <| cellN 36 6 0
  | .exit _ => cellN 0 21 <| cellN 4 4 <| cellN 36 6 0
  | .yield _ ch => cellN 0 21 <| cellN 5 4 <| cellN 36 6 <| cellB ch 0
  | .nop _ ch d a b => cellV b <| cellV a <| cellV d <| cellN 6 4 <| cellN 36 6 <| cellB ch 0
  | .brk _ ch k => cellV k <| cellN 0 7 <| cellN 7 4 <| cellN 36 6 <| cellB ch 0
  | .sypub _ ch a => cellN 0 7 <| cellV a <| cellN 0 7 <| cellN 8 4 <| cellN 36 6 <| cellB ch 0
  | .sydone _ ch a => cellN 0 7 <| cellV a <| cellN 0 7 <| cellN 9 4 <| cellN 36 6 <| cellB ch 0
  | .setmode _ ch d a b => cellV b <| cellV a <| cellV d <| cellN 10 4 <| cellN 36 6 <| cellB ch 0
  | .bra n p o => cellV o <| cellV p <| cellB n <| cellN 37 6 0
  | .call n p o => cellV o <| cellV p <| cellB n <| cellN 38 6 0
  | .srd _ ch d i => cellV i <| cellV d <| cellN 0 4 <| cellN 39 6 <| cellB ch 0
  | .swr _ ch a i => cellV i <| cellV a <| cellN 0 4 <| cellN 40 6 <| cellB ch 0
  | .trap _ ch k => cellV k <| cellN 0 7 <| cellN 0 4 <| cellN 41 6 <| cellB ch 0
  | .rett _ => cellN 0 21 <| cellN 1 4 <| cellN 41 6 0
  | .sys _ ch k => cellV k <| cellN 0 7 <| cellN 2 4 <| cellN 41 6 <| cellB ch 0
  | .ctxsv _ ch a b => cellV b <| cellN 0 7 <| cellV a <| cellN 3 4 <| cellN 41 6 <| cellB ch 0
  | .ctxrs _ ch a => cellN 0 14 <| cellV a <| cellN 4 4 <| cellN 41 6 <| cellB ch 0
  | .tlbinv _ ch a k => cellV k <| cellN 0 12 <| cellV a <| cellN 5 4 <| cellN 41 6 <| cellB ch 0
  | .ld _ ch z f t b o => cellV o <| cellV b <| cellV t <| cellB f <| cellN 0 3 <| cellN (42 + z.code) 6 <| cellB ch 0
  | .ldSext _ ch z f t b o => cellV o <| cellV b <| cellV t <| cellB f <| cellN 1 3 <| cellN (42 + z.code) 6 <| cellB ch 0
  | .st _ ch z f t b o => cellV o <| cellV b <| cellV t <| cellB f <| cellN 2 3 <| cellN (42 + z.code) 6 <| cellB ch 0
  | .lds _ ch z f t b o => cellV o <| cellV b <| cellV t <| cellB f <| cellN 3 3 <| cellN (42 + z.code) 6 <| cellB ch 0
  | .ldsSext _ ch z f t b o => cellV o <| cellV b <| cellV t <| cellB f <| cellN 4 3 <| cellN (42 + z.code) 6 <| cellB ch 0
  | .sts _ ch z f t b o => cellV o <| cellV b <| cellV t <| cellB f <| cellN 5 3 <| cellN (42 + z.code) 6 <| cellB ch 0
  | .ldc _ ch z f t b o => cellV o <| cellV b <| cellV t <| cellB f <| cellN 6 3 <| cellN (42 + z.code) 6 <| cellB ch 0
  | .ldm _ ch f t b n => cellV n <| cellV b <| cellV t <| cellB f <| cellN 0 3 <| cellN 46 6 <| cellB ch 0
  | .stm _ ch f t b n => cellV n <| cellV b <| cellV t <| cellB f <| cellN 1 3 <| cellN 46 6 <| cellB ch 0
  | .prfm _ ch l b o => cellV o <| cellV b <| cellV l <| cellN 0 6 <| cellN 0 3 <| cellN 47 6 <| cellB ch 0
  | .cwb _ ch f t b o => cellV o <| cellV b <| cellV t <| cellB f <| cellN 1 3 <| cellN 47 6 <| cellB ch 0
  | .cinv _ ch f t b o => cellV o <| cellV b <| cellV t <| cellB f <| cellN 2 3 <| cellN 47 6 <| cellB ch 0
  | .icinv _ ch f t b o => cellV o <| cellV b <| cellV t <| cellB f <| cellN 3 3 <| cellN 47 6 <| cellB ch 0
  | .fence _ ch f => cellN 0 21 <| cellB f <| cellN 4 3 <| cellN 47 6 <| cellB ch 0
  | .atomAdd _ ch t d a b => cellV b <| cellV a <| cellV d <| cellN 0 4 <| cellN (48 + t.code) 6 <| cellB ch 0
  | .atomMin _ ch t d a b => cellV b <| cellV a <| cellV d <| cellN 1 4 <| cellN (48 + t.code) 6 <| cellB ch 0
  | .atomMax _ ch t d a b => cellV b <| cellV a <| cellV d <| cellN 2 4 <| cellN (48 + t.code) 6 <| cellB ch 0
  | .atomAnd _ ch t d a b => cellV b <| cellV a <| cellV d <| cellN 3 4 <| cellN (48 + t.code) 6 <| cellB ch 0
  | .atomOr _ ch t d a b => cellV b <| cellV a <| cellV d <| cellN 4 4 <| cellN (48 + t.code) 6 <| cellB ch 0
  | .atomXor _ ch t d a b => cellV b <| cellV a <| cellV d <| cellN 5 4 <| cellN (48 + t.code) 6 <| cellB ch 0
  | .atomExch _ ch t d a b => cellV b <| cellV a <| cellV d <| cellN 6 4 <| cellN (48 + t.code) 6 <| cellB ch 0
  | .atomc _ ch t d a b => cellV b <| cellV a <| cellV d <| cellN 7 4 <| cellN (48 + t.code) 6 <| cellB ch 0
  | .redAdd _ ch t a b => cellV b <| cellV a <| cellN 0 7 <| cellN 8 4 <| cellN (48 + t.code) 6 <| cellB ch 0
  | .redMin _ ch t a b => cellV b <| cellV a <| cellN 0 7 <| cellN 9 4 <| cellN (48 + t.code) 6 <| cellB ch 0
  | .redMax _ ch t a b => cellV b <| cellV a <| cellN 0 7 <| cellN 10 4 <| cellN (48 + t.code) 6 <| cellB ch 0
  | .redAnd _ ch t a b => cellV b <| cellV a <| cellN 0 7 <| cellN 11 4 <| cellN (48 + t.code) 6 <| cellB ch 0
  | .redOr _ ch t a b => cellV b <| cellV a <| cellN 0 7 <| cellN 12 4 <| cellN (48 + t.code) 6 <| cellB ch 0
  | .redXor _ ch t a b => cellV b <| cellV a <| cellN 0 7 <| cellN 13 4 <| cellN (48 + t.code) 6 <| cellB ch 0
  | .waitc _ ch t n a b => cellV b <| cellV a <| cellN 0 3 <| cellV n <| cellN 14 4 <| cellN (48 + t.code) 6 <| cellB ch 0
  | .atomFadd _ ch t d a b => cellV b <| cellV a <| cellV d <| cellN 0 4 <| cellN (52 + t.code) 6 <| cellB ch 0
  | .redFadd _ ch t a b => cellV b <| cellV a <| cellN 0 7 <| cellN 8 4 <| cellN (52 + t.code) 6 <| cellB ch 0
  | .ldtile _ ch q a => cellN 0 10 <| cellV a <| cellV q <| cellN 0 1 <| cellN 0 4 <| cellN 54 6 <| cellB ch 0
  | .qbindNone _ ch q => cellN 0 17 <| cellV q <| cellN 0 1 <| cellN 1 4 <| cellN 54 6 <| cellB ch 0
  | .qbindCmd _ ch q => cellN 1 17 <| cellV q <| cellN 0 1 <| cellN 1 4 <| cellN 54 6 <| cellB ch 0
  | .qbindTok _ ch q => cellN 2 17 <| cellV q <| cellN 0 1 <| cellN 1 4 <| cellN 54 6 <| cellB ch 0
  | .qbindEng _ ch q a => cellN 3 10 <| cellV a <| cellV q <| cellN 0 1 <| cellN 1 4 <| cellN 54 6 <| cellB ch 0
  | .qbindLsend _ ch q a => cellN 4 10 <| cellV a <| cellV q <| cellN 0 1 <| cellN 1 4 <| cellN 54 6 <| cellB ch 0
  | .qbindLrecv _ ch q a => cellN 5 10 <| cellV a <| cellV q <| cellN 0 1 <| cellN 1 4 <| cellN 54 6 <| cellB ch 0
  | .qpush _ ch q a => cellN 0 10 <| cellV a <| cellV q <| cellN 0 1 <| cellN 2 4 <| cellN 54 6 <| cellB ch 0
  | .qcnt _ ch q a => cellN 0 10 <| cellV a <| cellV q <| cellN 0 1 <| cellN 3 4 <| cellN 54 6 <| cellB ch 0
  | .cbinit _ ch a b n => cellV n <| cellV b <| cellV a <| cellN 0 4 <| cellN 4 4 <| cellN 54 6 <| cellB ch 0
  | .cbacq _ ch f a n => cellV n <| cellN 0 7 <| cellV a <| cellN 0 3 <| cellB f <| cellN 5 4 <| cellN 54 6 <| cellB ch 0
  | .cbrel _ ch n => cellV n <| cellN 0 18 <| cellN 6 4 <| cellN 54 6 <| cellB ch 0
  | .cbstat _ ch a n => cellV n <| cellN 0 7 <| cellV a <| cellN 0 4 <| cellN 7 4 <| cellN 54 6 <| cellB ch 0
  | .rtag _ ch f a b => cellN 0 3 <| cellV b <| cellV a <| cellN 0 3 <| cellB f <| cellN 8 4 <| cellN 54 6 <| cellB ch 0
  | .bobinit _ ch a b => cellN 0 3 <| cellV b <| cellV a <| cellN 0 4 <| cellN 9 4 <| cellN 54 6 <| cellB ch 0
  | .bobadd _ ch a b => cellN 0 3 <| cellV b <| cellV a <| cellN 0 4 <| cellN 10 4 <| cellN 54 6 <| cellB ch 0
  | .bobwait _ ch f a b => cellN 0 3 <| cellV b <| cellV a <| cellN 0 3 <| cellB f <| cellN 11 4 <| cellN 54 6 <| cellB ch 0
  | .barArr _ ch b n => cellV n <| cellV b <| cellN 0 11 <| cellN 12 4 <| cellN 54 6 <| cellB ch 0
  | .barWait _ ch f k n => cellV n <| cellN 0 6 <| cellB k <| cellN 0 10 <| cellB f <| cellN 13 4 <| cellN 54 6 <| cellB ch 0
  | .haloDecl _ ch f a => cellN 0 10 <| cellV a <| cellN 0 3 <| cellB f <| cellN 14 4 <| cellN 54 6 <| cellB ch 0
  | .haloRel _ ch f a => cellN 1 10 <| cellV a <| cellN 0 3 <| cellB f <| cellN 14 4 <| cellN 54 6 <| cellB ch 0
  | .haloWait _ ch f a b => cellN 2 3 <| cellV b <| cellV a <| cellN 0 3 <| cellB f <| cellN 14 4 <| cellN 54 6 <| cellB ch 0
  | .haloDrop _ ch f a => cellN 3 10 <| cellV a <| cellN 0 3 <| cellB f <| cellN 14 4 <| cellN 54 6 <| cellB ch 0
  | .coll _ ch f a o => cellV o <| cellN 0 7 <| cellV a <| cellN 0 3 <| cellB f <| cellN 15 4 <| cellN 54 6 <| cellB ch 0
  | .shopen _ ch f a b i => cellB i <| cellN 0 2 <| cellV b <| cellV a <| cellN 0 3 <| cellB f <| cellN 0 4 <| cellN 55 6 <| cellB ch 0
  | .publish _ ch f a => cellN 0 10 <| cellV a <| cellN 0 3 <| cellB f <| cellN 1 4 <| cellN 55 6 <| cellB ch 0
  | .shdrop _ ch f a => cellN 0 10 <| cellV a <| cellN 0 3 <| cellB f <| cellN 2 4 <| cellN 55 6 <| cellB ch 0
  | .commit _ ch f a b => cellN 0 3 <| cellV b <| cellV a <| cellN 0 3 <| cellB f <| cellN 3 4 <| cellN 55 6 <| cellB ch 0
  | .discard _ ch f a b => cellN 0 3 <| cellV b <| cellV a <| cellN 0 3 <| cellB f <| cellN 4 4 <| cellN 55 6 <| cellB ch 0
  | .launch _ ch f a => cellN 0 10 <| cellV a <| cellN 0 3 <| cellB f <| cellN 5 4 <| cellN 55 6 <| cellB ch 0
  | .task _ ch f a => cellN 0 10 <| cellV a <| cellN 0 3 <| cellB f <| cellN 6 4 <| cellN 55 6 <| cellB ch 0
  | .take _ ch a b => cellN 0 3 <| cellV b <| cellV a <| cellN 0 4 <| cellN 7 4 <| cellN 55 6 <| cellB ch 0
  | .claim _ ch f b => cellN 0 3 <| cellV b <| cellN 0 10 <| cellB f <| cellN 8 4 <| cellN 55 6 <| cellB ch 0
  | .give _ ch b => cellN 0 3 <| cellV b <| cellN 0 11 <| cellN 9 4 <| cellN 55 6 <| cellB ch 0
  | .slclaim _ ch f a => cellN 0 10 <| cellV a <| cellN 0 3 <| cellB f <| cellN 0 4 <| cellN 56 6 <| cellB ch 0
  | .slrelFree _ ch a => cellN 0 10 <| cellV a <| cellN 0 4 <| cellN 1 4 <| cellN 56 6 <| cellB ch 0
  | .slrelReset _ ch a => cellN 1 10 <| cellV a <| cellN 0 4 <| cellN 1 4 <| cellN 56 6 <| cellB ch 0
  | .acclaim _ ch f a => cellN 0 10 <| cellV a <| cellN 0 3 <| cellB f <| cellN 2 4 <| cellN 56 6 <| cellB ch 0
  | .acrel _ ch a => cellN 0 10 <| cellV a <| cellN 0 4 <| cellN 3 4 <| cellN 56 6 <| cellB ch 0
  | .mxlay _ ch a n => cellV n <| cellN 0 8 <| cellV a <| cellN 0 4 <| cellN 4 4 <| cellN 56 6 <| cellB ch 0
  | .mxloop _ ch f q a b e => cellV e <| cellV b <| cellV a <| cellV q <| cellB f <| cellN 5 4 <| cellN 56 6 <| cellB ch 0
  | .mxsc _ ch f a b => cellN 0 3 <| cellV b <| cellV a <| cellN 0 3 <| cellB f <| cellN 6 4 <| cellN 56 6 <| cellB ch 0
  | .mxz _ ch f a => cellN 0 10 <| cellV a <| cellN 0 3 <| cellB f <| cellN 7 4 <| cellN 56 6 <| cellB ch 0
  | .mxrd _ ch f a b => cellN 0 3 <| cellV b <| cellV a <| cellN 0 3 <| cellB f <| cellN 8 4 <| cellN 56 6 <| cellB ch 0
  | .mxwr _ ch a b => cellN 0 3 <| cellV b <| cellV a <| cellN 0 4 <| cellN 9 4 <| cellN 56 6 <| cellB ch 0
  | .mxst _ ch f a b => cellN 0 3 <| cellV b <| cellV a <| cellN 0 3 <| cellB f <| cellN 10 4 <| cellN 56 6 <| cellB ch 0
  | .mxsp _ ch a b => cellN 0 3 <| cellV b <| cellV a <| cellN 0 4 <| cellN 11 4 <| cellN 56 6 <| cellB ch 0
  | .mxcnt _ ch a => cellN 0 10 <| cellV a <| cellN 0 4 <| cellN 12 4 <| cellN 56 6 <| cellB ch 0
  | .mxcntClr _ ch a => cellN 1 10 <| cellV a <| cellN 0 4 <| cellN 12 4 <| cellN 56 6 <| cellB ch 0
  | .tsinit _ ch f q a k => cellB k <| cellN 0 9 <| cellV a <| cellV q <| cellB f <| cellN 0 4 <| cellN 57 6 <| cellB ch 0
  | .tsexp _ ch f q a k => cellB k <| cellN 0 9 <| cellV a <| cellV q <| cellB f <| cellN 1 4 <| cellN 57 6 <| cellB ch 0
  | .tsdesc _ ch f a b => cellN 0 3 <| cellV b <| cellV a <| cellN 0 3 <| cellB f <| cellN 2 4 <| cellN 57 6 <| cellB ch 0
  | .tsback _ ch f a b => cellN 0 3 <| cellV b <| cellV a <| cellN 0 3 <| cellB f <| cellN 3 4 <| cellN 57 6 <| cellB ch 0
  | .tsroot _ ch f q a b k => cellB k <| cellN 0 2 <| cellV b <| cellV a <| cellV q <| cellB f <| cellN 4 4 <| cellN 57 6 <| cellB ch 0
  | .tsfree _ ch f q a b k => cellB k <| cellN 0 2 <| cellV b <| cellV a <| cellV q <| cellB f <| cellN 5 4 <| cellN 57 6 <| cellB ch 0
  | .tsrd _ ch f a b w => cellV w <| cellV b <| cellV a <| cellN 0 3 <| cellB f <| cellN 6 4 <| cellN 57 6 <| cellB ch 0
  | .tsstat _ ch f a b k => cellV k <| cellV b <| cellV a <| cellN 0 3 <| cellB f <| cellN 7 4 <| cellN 57 6 <| cellB ch 0
  | .mvemit _ ch f a => cellN 0 10 <| cellV a <| cellN 0 3 <| cellB f <| cellN 0 4 <| cellN 58 6 <| cellB ch 0
  | .cover _ ch a b n => cellV n <| cellV b <| cellV a <| cellN 0 4 <| cellN 1 4 <| cellN 58 6 <| cellB ch 0
  | .seqtkHw _ ch f a => cellN 0 10 <| cellV a <| cellN 0 3 <| cellB f <| cellN 2 4 <| cellN 58 6 <| cellB ch 0
  | .seqtkCommit _ ch a => cellN 1 10 <| cellV a <| cellN 0 4 <| cellN 2 4 <| cellN 58 6 <| cellB ch 0
  | .regionBind _ ch f a b => cellN 0 3 <| cellV b <| cellV a <| cellN 0 3 <| cellB f <| cellN 3 4 <| cellN 58 6 <| cellB ch 0
  | .regionXfer _ ch f a b => cellN 1 3 <| cellV b <| cellV a <| cellN 0 3 <| cellB f <| cellN 3 4 <| cellN 58 6 <| cellB ch 0
  | .smpl _ ch f a b l => cellV l <| cellV b <| cellV a <| cellN 0 3 <| cellB f <| cellN 4 4 <| cellN 58 6 <| cellB ch 0
  | .trace _ ch f q a b => cellN 0 3 <| cellV b <| cellV a <| cellV q <| cellB f <| cellN 5 4 <| cellN 58 6 <| cellB ch 0
  | .tresGo _ ch f q a b => cellN 0 3 <| cellV b <| cellV a <| cellV q <| cellB f <| cellN 6 4 <| cellN 58 6 <| cellB ch 0
  | .tresHit _ ch f q a b => cellN 1 3 <| cellV b <| cellV a <| cellV q <| cellB f <| cellN 6 4 <| cellN 58 6 <| cellB ch 0
  | .tresTmax _ ch f q a b => cellN 2 3 <| cellV b <| cellV a <| cellV q <| cellB f <| cellN 6 4 <| cellN 58 6 <| cellB ch 0
  | .tvld _ ch f a => cellN 0 10 <| cellV a <| cellN 0 3 <| cellB f <| cellN 7 4 <| cellN 58 6 <| cellB ch 0
  | .tvst _ ch f a => cellN 0 10 <| cellV a <| cellN 0 3 <| cellB f <| cellN 8 4 <| cellN 58 6 <| cellB ch 0
  | .rpack _ ch f a b => cellN 0 3 <| cellV b <| cellV a <| cellN 0 3 <| cellB f <| cellN 9 4 <| cellN 58 6 <| cellB ch 0
  | .hintPfs _ ch e n a b => cellV b <| cellV a <| cellV n <| cellV e <| cellN 60 6 <| cellB ch 0
  | .hintBlk _ ch e => cellV e <| cellN 61 6 <| cellB ch 0
  | .hintUndefined _ ch h e => cellV e <| cellB h <| cellN 31 5 <| cellB ch 0
  | .courseEnd _ _ => 0
  | .wordComplete _ _ => 0
  | .ageOverride _ _ => 0
  | .trapEntry _ => 0
  | .groupFreed _ => 0
  | .teamAdmission _ => 0
  | .queueFrontTimeout _ _ => 0
  | .rtWaitTimeout _ => 0
  | .preemptionSave _ => 0
  | .preemptionAbandon _ => 0
  | .taskSplit _ _ => 0
  | .handleUe _ => 0
  | .claimServed _ _ => 0
  | .claimVictim _ _ => 0
  | .claimVictimRestore _ _ => 0
  | .slotRequestServed _ _ => 0
  | .pageWalk _ _ _ => 0
  | .linkCrcRetry _ _ => 0
  | .channelRetrain _ _ => 0
  | .l2Scrub _ _ => 0
  | .dataPoison _ => 0
  | .ceCommandStart _ _ => 0
  | .ceLineTransfer _ _ _ _ => 0
  | .ceCommandEnd _ _ _ => 0
  | .mxKstep _ _ => 0
  | .tseServe _ => 0
  | .tseBackupNode _ => 0
  | .syeAccess _ _ => 0
  | .homeSliceWrite _ _ => 0
  | .monitorArm _ => 0
  | .swapOut _ => 0
  | .swapIn _ => 0
  | .syeUnpin _ => 0
  | .collChunk _ _ => 0
  | .collMemberTimeout _ _ => 0
  | .haloSnapshot _ _ => 0
  | .haloDelivery _ _ _ => 0
  | .sxbAccept _ _ => 0
  | .sxbDeliver _ _ => 0
  | .tvuNodeStep _ _ => 0
  | .rduTokenPush _ => 0
  | .hostPostedWrite _ _ => 0
  | .ctxEnable _ _ => 0
  | .ctxDisable _ _ => 0
  | .pmodeWrite _ _ => 0
  | .packageReset => 0
  | .quotaWrite _ _ => 0
  | .weightWrite _ _ => 0
  | .flogtailWrite _ _ => 0
  | .floglostClear _ _ => 0
  | .registerWrite _ _ _ => 0
  | .flitRetry _ => 0
  | .relmerLaneFail _ => 0
  | .relmerPortDown _ => 0
  | .routeRewrite _ _ _ _ => 0
  | .noRouteTimeout _ _ => 0
  | .imageLoad _ => 0
  | .spdmMeasurement => 0
  | .powerCapSet _ => 0
  | .islandClockChange _ _ => 0
  | .thermalThrottle _ => 0
  | .thermalTrip => 0
  | .lifetimeFlush => 0
  | .orderlyPowerDown => 0
  | .lifetimeRead => 0
  | .abruptPowerLoss => 0
  | .voltageDroop _ => 0
  | .peerDeviceAccess _ _ => 0
  | .failureNotice _ _ => 0
  | .hardwarePrefetch _ _ _ => 0
  | .relmerRetrain _ _ => 0

/-- Whether a row of the table is an event, which has no encoding. -/
def Instr.isEvent : Instr → Bool
  | .courseEnd _ _ => true
  | .wordComplete _ _ => true
  | .ageOverride _ _ => true
  | .trapEntry _ => true
  | .groupFreed _ => true
  | .teamAdmission _ => true
  | .queueFrontTimeout _ _ => true
  | .rtWaitTimeout _ => true
  | .preemptionSave _ => true
  | .preemptionAbandon _ => true
  | .taskSplit _ _ => true
  | .handleUe _ => true
  | .claimServed _ _ => true
  | .claimVictim _ _ => true
  | .claimVictimRestore _ _ => true
  | .slotRequestServed _ _ => true
  | .pageWalk _ _ _ => true
  | .linkCrcRetry _ _ => true
  | .channelRetrain _ _ => true
  | .l2Scrub _ _ => true
  | .dataPoison _ => true
  | .ceCommandStart _ _ => true
  | .ceLineTransfer _ _ _ _ => true
  | .ceCommandEnd _ _ _ => true
  | .mxKstep _ _ => true
  | .tseServe _ => true
  | .tseBackupNode _ => true
  | .syeAccess _ _ => true
  | .homeSliceWrite _ _ => true
  | .monitorArm _ => true
  | .swapOut _ => true
  | .swapIn _ => true
  | .syeUnpin _ => true
  | .collChunk _ _ => true
  | .collMemberTimeout _ _ => true
  | .haloSnapshot _ _ => true
  | .haloDelivery _ _ _ => true
  | .sxbAccept _ _ => true
  | .sxbDeliver _ _ => true
  | .tvuNodeStep _ _ => true
  | .rduTokenPush _ => true
  | .hostPostedWrite _ _ => true
  | .ctxEnable _ _ => true
  | .ctxDisable _ _ => true
  | .pmodeWrite _ _ => true
  | .packageReset => true
  | .quotaWrite _ _ => true
  | .weightWrite _ _ => true
  | .flogtailWrite _ _ => true
  | .floglostClear _ _ => true
  | .registerWrite _ _ _ => true
  | .flitRetry _ => true
  | .relmerLaneFail _ => true
  | .relmerPortDown _ => true
  | .routeRewrite _ _ _ _ => true
  | .noRouteTimeout _ _ => true
  | .imageLoad _ => true
  | .spdmMeasurement => true
  | .powerCapSet _ => true
  | .islandClockChange _ _ => true
  | .thermalThrottle _ => true
  | .thermalTrip => true
  | .lifetimeFlush => true
  | .orderlyPowerDown => true
  | .lifetimeRead => true
  | .abruptPowerLoss => true
  | .voltageDroop _ => true
  | .peerDeviceAccess _ _ => true
  | .failureNotice _ _ => true
  | .hardwarePrefetch _ _ _ => true
  | .relmerRetrain _ _ => true
  | _ => false

/-- The words of an instruction, its X word first; none for an event. -/
def encode (i : Instr) : List Nat := if i.isEvent then [] else encodeX i.pre ++ [encodeBase i]

end Sys2Proof
end

