-- ==== Sys2Proof/Config.lean ====
section
/-!
DEFINITION. Sys2Proof/Config.lean: what an implementation fixes. Every opaque constant is a FREE VALUE: nothing in
Lean can evaluate it, so a claim about it holds whatever it is (notes/assumptions/4.md and the entries it names).
-/

namespace Sys2Proof.Config

/-- How many requests beyond one the queue of a port at a bank of an SYE holds (18 R395). -/
opaque portDepth : Nat

/-- A choice the spec leaves open, by the model's counter and a number that tells the uses of one step apart. -/
opaque freeBit : Nat → Nat → Bool

/-- A 64-bit value the spec leaves open (19 R423, 16 R381). -/
opaque freeWord : Nat → Nat → Word

/-- From which input on a special function reaches a result, by function, precision, monotonic piece and the result's place among the
results of the format (07 R199, R200); used only for results that meet the bound of R200. -/
opaque special : Nat → Nat → Nat → Nat → Nat

/-- Nanoseconds that one step takes (02 R85 TIME). -/
opaque tick : Nat → Nat

/-- Bytes of a section of a save area whose layout is the device's own, by its type and the number of items it holds
(05 R153). -/
opaque sectionLen : Nat → Nat → Nat

/-- The Relmer node number of this device, which no register of the spec shows (15 R356). -/
opaque node : Nat

/-- Whether the ECDSA P-384 signature of an image verifies, the fused key digest included (21 R445). -/
opaque ecdsaOk : Image → Bool

/-- Whether the LMS signature of an image verifies, the fused key digest included (21 R445). -/
opaque lmsOk : Image → Bool

/-- The bytes of the fuse state that the controller measures, by dies present, revision and minimum security version
(21 R446). -/
opaque fuseBytes : Nat → Nat → Nat → List Byte

/-- The temperature step of an island in a minute: 5 degree bins, 0 below 0 C and 26 from 125 C on, by the model's counter
and the island (21 R448). -/
opaque tempBin : Nat → Nat → Nat

/-- SHA-384 (21 R446). -/
opaque sha384 : List Byte → List Byte

/-- A signature with the device identity key (21 R446). -/
opaque sign : List Byte → List Byte

/-- The stepping family of every Cloeno (01 R39). -/
def family : Nat := 0x31

/-- Pi with 512 fraction bits, cut. -/
def piFix : Nat := 0x3243f6a8885a308d313198a2e03707344a4093822299f31d0082efa98ec4e6c89452821e638d01377be5466cf34e90c6cc0ac29b7c97c50dd3f84d5b5b5470917

/-- The natural logarithm of 2 with 256 fraction bits, cut. -/
def ln2Fix : Nat := 0xb17217f7d1cf79abc9e3b39803f2f6af40f343267298b62d8a0d175b8baafa2b

end Sys2Proof.Config
end

