-- ==== Sys2Proof/Machine/State.lean ====
section
/-!
DEFINITION. Sys2Proof/Machine/State.lean: everything the spec gives the machine to hold, as plain data.
Tables are lists of (key, value) with rising keys and no entry equal to the table's default, so that equal
contents are equal data. Each field's comment gives its width, the file and rule of spec/ that names it, and its value
at reset or at creation.
-/

namespace Sys2Proof.Machine

/-- A sparse table: rising keys, no default entries. -/
abbrev Tbl (α : Type) := List (Nat × α)

/-- The value of a table at a key, d where it lists none. -/
def Tbl.get {α : Type} (d : α) : Tbl α → Nat → α
  | [], _ => d
  | (k, v) :: t, n => if n = k then v else Tbl.get d t n

/-- A key removed. -/
def Tbl.del {α : Type} : Tbl α → Nat → Tbl α
  | [], _ => []
  | (k, v) :: t, n => if n = k then Tbl.del t n else (k, v) :: Tbl.del t n

/-- A key given a value, in order. -/
def Tbl.put {α : Type} : Tbl α → Nat → α → Tbl α
  | [], n, x => [(n, x)]
  | (k, v) :: t, n, x =>
    if n < k then (n, x) :: (k, v) :: t else if n = k then (k, x) :: t else (k, v) :: Tbl.put t n x

/-- A key given a value; a default value removes the entry. -/
def Tbl.set {α : Type} [DecidableEq α] (d : α) (t : Tbl α) (n : Nat) (x : α) : Tbl α :=
  if x = d then Tbl.del t n else Tbl.put t n x

/-- Rising keys from a bound on, and no default entry. -/
def Tbl.wfFrom {α : Type} [DecidableEq α] (d : α) : Nat → Tbl α → Bool
  | _, [] => true
  | lo, (k, v) :: t => lo ≤ k && v != d && Tbl.wfFrom d (k + 1) t

/-- What an unlisted byte of memory reads as (DESIGN CHOICE outside local memory: notes/assumptions/2.md). -/
def Memory.fill : Byte := 0

/-- Memory in its canonical form: addresses rising, no entry equal to what an unlisted address reads as. -/
def Memory.wf (m : List Host.Cell) : Bool := Tbl.wfFrom Memory.fill 0 m

/-- The pipe classes (01 R10). -/
inductive Pipe where
  | alu | xfu | mem | ctl
deriving DecidableEq, Repr, Inhabited

/-- The trap causes (05 R137). -/
inductive Cause where
  | illegalOp | illegalCombo | chainConflict | badTarget | jumpRange | indexRange | misalign | xlate | prot
  | slotState | metaErr | queueState | treeAlloc | regionOwner | symFault | ctxFeature | sramUe | brk | syscall
  | regwin | claimLimit
deriving DecidableEq, Repr, Inhabited

/-- One raised cause: what a trap records (05 R137, R143). -/
structure Trap where
  cause : Cause
  addr : Word
  mask : Mask
  elem : Nat
  done : Bool
deriving DecidableEq, Repr, Inhabited

/-- A ripple (08 R204, 09 R217). -/
structure Ripple where
  /-- first word of the span -/
  first : Nat
  /-- the lane that runs now, and the lanes still to run -/
  lane : Nat
  rest : List Nat
  /-- long-latency words of the span that have raised their counter: word, share number, counter -/
  held : List (Nat × Nat × Option Nat)
deriving DecidableEq, Repr, Inhabited

/-- A voice of a group (04 R108). -/
structure Voice where
  /-- 64 bits; 04 R108; at group start every lane for voice 0. The voice's lanes. -/
  mask : Mask
  /-- 48 bits; 05 R140; at group start the packet after the header (01 R43). Packet index of its head. -/
  head : Nat
  /-- 1 bit; 05 R140; false. The voice has passed its head. -/
  inside : Bool
  /-- 5 bits; 05 R140; 0. Next word to issue, 0 at the head. -/
  word : Nat
  /-- up to 24 words of 32 bits; 10 R247; empty. The words fetched when the course was entered. -/
  code : List Nat
  /-- 8 registers of 64 bits per lane, key 64 m + lane; 01 R18; 0. The mortar set. -/
  mortar : Tbl Word
  /-- 1 bit; 01 R19; false. Stalled in place. -/
  stalled : Bool
  /-- destination per lane, none for an exit; 01 R17; none. A transfer that waits for mortar results. -/
  pend : Option (List (Nat × Option Nat))
  /-- member, element, base per lane; 05 R143, 02 R102; none. Where an ldm or stm restarts. -/
  restart : Option (Nat × Nat × List (Nat × Word))
  /-- 08 R204; none. The ripple. -/
  ripple : Option Ripple
  /-- count; 04 R111; 0. The model's counter when it passed its head: of two voices inside courses the earlier has the
  group's turn. -/
  entered : Nat
  /-- count; 04 R113; 0. Cycles of its core spent eligible without issuing. -/
  waited : Nat
  /-- 1 bit; 04 R113; false. The age override. -/
  aged : Bool
  /-- pairs (group, voice); 02 R81; empty. Voices that must issue before this one's next head. -/
  yieldTo : List (Nat × Nat)
  /-- register, distance, lanes; 05 R147; none. The sympathetic read it waits on. -/
  sym : Option (Nat × Nat × Mask)
deriving DecidableEq, Repr, Inhabited

/-- Where an element of a queue came from: its pop may trap (05 R136). -/
inductive Origin where
  /-- pushed data -/
  | data
  /-- the first element of a tile-load that ldtile pushed: its slot counts it as outstanding (11 R268) -/
  | tile
  /-- a token of the CE (11 R266) -/
  | ce
  /-- a token of the MXE (12 R298) -/
  | mx
  /-- a token of the TSE (16 R368) -/
  | ts
  /-- a token of the TVU, with the lanes whose status is FAULT (19 R420) -/
  | tv (faulted : Mask)
  /-- a token of the RDU (19 R424) -/
  | rd
  /-- a word of a packet from the SXB (19 R410); the number of its delivery -/
  | sxb
deriving DecidableEq, Repr, Inhabited

/-- What a queue register is bound to (09 R212, 11 R261). -/
inductive Bind where
  | unbound | cmd | tok
  | eng (code : Nat)
  | lsend (link : Nat)
  | lrecv (link : Nat)
deriving DecidableEq, Repr, Inhabited

/-- A queue register (09 R212). -/
structure Queue where
  /-- 11 R261; unbound. The endpoint. -/
  bind : Bind
  /-- up to eight 64-bit elements, oldest first; 09 R212; empty. -/
  elems : List (Word × Origin)
deriving DecidableEq, Repr, Inhabited

/-- One register write of a long-latency word, held until the word completes (01 R24, R33). -/
inductive RegWr where
  | vec (reg lane : Nat) (val : Word)
  | mort (voice reg lane : Nat) (val : Word)
  | scal (reg : Nat) (val : Word)
  /-- an element pushed at completion (07 R182) -/
  | push (q : Nat) (val : Word)
deriving DecidableEq, Repr, Inhabited

/-- What a word does once every access that its group issued before it is performed (11 R254, R257 to R259, R281, 05 R158). -/
inductive HeldAct where
  /-- fence: the scope of its release part; 0 where nothing is made visible -/
  | fence (scope : Nat)
  /-- cwb and cinv: whether they drop, every core of the partition or the issuing one, and ranges of keys -/
  | maint (inv all : Bool) (rs : List (Nat × Nat))
  /-- icinv: a range of virtual addresses -/
  | icinv (lo hi : Nat)
  /-- tlbinv: an address, or all -/
  | tlbinv (va : Option Nat)
  /-- bar.arr: barrier, cluster form, count -/
  | barArr (n : Nat) (clu : Bool) (c : Nat)
  /-- cbrel: buffer -/
  | cbrel (n : Nat)
  /-- halo.decl: handle -/
  | haloDecl (h : Nat)
deriving DecidableEq, Repr, Inhabited

/-- What an outstanding word waits for before it can complete. -/
inductive Wait where
  /-- nothing: its effect is performed -/
  | ready
  /-- bobwait: scratchpad offset, scalar destination (11 R271) -/
  | bob (off dst : Nat)
  /-- cbacq: buffer, scalar destination (11 R273) -/
  | cbacq (n dst : Nat)
  /-- bar.wait: barrier, cluster form, phase (11 R282) -/
  | bar (n : Nat) (clu : Bool) (phase : Nat)
  /-- waitc: lanes not yet satisfied (15 R352) -/
  | monitors (left : Nat)
  /-- claim: the new count (09 R223) -/
  | claim (n : Nat)
  /-- a slot or tile claim (12 R287) -/
  | slots
  /-- a word in the engine order (12 R288) -/
  | mx
  /-- a word at the TSE (16 R370) -/
  | ts
  /-- lanes of a traversal not yet stopped (19 R420) -/
  | tv
  /-- halo.rel: handle, generation (14 R336) -/
  | haloRel (h gen : Nat)
  /-- halo.wait: handle, generation (14 R337) -/
  | haloWait (h gen : Nat)
  /-- coll: index of the collective (15 R360) -/
  | coll (k : Nat)
  /-- mvemit: packets not yet accepted (19 R403) -/
  | sxb
  /-- region.bind: map address, scalar destination, the header and entries it read (19 R406) -/
  | bind (addr : Word) (dst : Nat) (hdr : List Word) (entries : List (BitVec 32))
  /-- seqtk.hw: the mark that comes into force (19 R407) -/
  | mark (v : Nat)
  /-- region.xfer: region, entry, scalar destination (19 R411) -/
  | xfer (region : Nat) (entry : Word) (dst : Nat)
  /-- rpack: the team's phase (19 R423) -/
  | rpack (phase : Nat)
  /-- ctxsv: the grid, the save area's address, when it began (05 R156) -/
  | ctxsv (grid : Nat) (area : Word) (since : Nat)
  /-- the group's accesses issued before it: then its effect (11 R254) -/
  | held (act : HeldAct)
deriving DecidableEq, Repr, Inhabited

/-- A long-latency word that has issued and not completed (01 R22 to R25). -/
structure Outst where
  /-- its number in the group -/
  id : Nat
  /-- its completion counter; none when tracked by none (R22) -/
  flag : Option Nat
  /-- the voice it issued from -/
  voice : Nat
  /-- the register writes it makes when it completes -/
  wr : List RegWr
  /-- what it waits for -/
  wait : Wait
  /-- the float exceptions it ORs into FPFLAGS at completion (06 R175) -/
  exc : Nat
  /-- the registers it writes: v r as r, m k as 96 + k, s n as 128 + n (01 R44, R17) -/
  dsts : List Nat
  /-- it is a float word (01 R44: srd, swr and setmode of an interlocked group wait for it) -/
  float : Bool
  /-- the group's next number when its chain began: the words of one chain share it (01 R11) -/
  chain : Nat
  /-- lanes of its registers that another word has written since it issued (01 R24): 64 r + lane for a vector register,
  2^14 + 64 (8 voice + m) + lane for mortar, 2^15 + n for a scalar; 2^20 more where the writer is a later member of its own chain,
  whose value stays (01 R11) -/
  ovr : List Nat
  /-- bytes that window stores have put over its registers since it issued (09 R221): 8 (64 r + lane) + byte -/
  win : List (Nat × Byte)
  /-- vector registers from this one on were given away since it issued: its writes to them are discarded (09 R224) -/
  cap : Nat
  /-- the number that the lanes of a ripple share: they count once (08 R204) -/
  span : Option Nat
deriving DecidableEq, Repr, Inhabited

/-- The TVU state of one lane (19 R418). -/
structure Tvu where
  /-- ten words of 32 bits, 0x00 to 0x24; 19 R418; 0, chit +infinity at a trace. Origin, direction, tmin, tmax, chit, prim. -/
  w : List (BitVec 32)
  /-- 8 bits; 19 R418; 0. FAULT cause. -/
  cause : Nat
  /-- 1 bit; 19 R418; false. -/
  hitfound : Bool
  /-- 0 to 64; 19 R418; 0. -/
  depth : Nat
  /-- 3 bits; 19 R418; 4 IDLE. 0 MISS, 1 HIT, 2 PROC, 3 FAULT, 4 IDLE, 5 BUSY. -/
  status : Nat
  /-- five references of 32 bits, top first; 19 R418; 0. -/
  entries : List (BitVec 32)
  /-- 48 bits; 19 R415; 0. Base of the nodes. -/
  base : Nat
  /-- 48 bits; 19 R415; 0. Base of the spill area. -/
  spill : Nat
  /-- number of the word that runs the lane; 19 R419; 0. -/
  job : Nat
  /-- 64 bits; 19 R420; 0. Address of the fault. -/
  faddr : Word
deriving DecidableEq, Repr, Inhabited

/-- What waits for a BUSY lane to stop, in issue order (19 R419, R421, R422). -/
inductive TvPend where
  | start (lane : Nat) (st : Tvu)
  | resume (lane kind : Nat) (t : Word) (base spill job : Nat)
  | load (lane : Nat) (addr : Word) (job : Nat)
  | store (lane : Nat) (addr : Word) (job : Nat)
deriving DecidableEq, Repr, Inhabited

/-- A TVU word in progress (19 R420). -/
structure TvJob where
  /-- number of the outstanding word -/
  id : Nat
  /-- token queue; none for tvld and tvst -/
  q : Option Nat
  /-- first of the two result registers -/
  dst : Nat
  /-- lanes that have not yet stopped -/
  left : Mask
  /-- lanes stopped with FAULT: lane, cause, address -/
  faults : List (Nat × Nat × Word)
deriving DecidableEq, Repr, Inhabited

/-- What a trap entry keeps in the core until rett (05 R139, R142). -/
structure Handler where
  voices : Tbl Voice
  park : Tbl Nat
  /-- the trapping voice -/
  tv : Nat
  /-- first word of the faulting chain, and the word after the chain -/
  first : Nat
  after : Nat
  /-- base operands of an ldm or stm at first issue, by lane (R143) -/
  bases : List (Nat × Word)
deriving DecidableEq, Repr, Inhabited

/-- A trap raised by a voice (05 R135, R139). -/
structure PendTrap where
  voice : Nat
  /-- first word of the faulting chain, and the word after the chain -/
  first : Nat
  after : Nat
  trap : Trap
  /-- position of the faulting member -/
  member : Nat
  /-- base operands of an ldm or stm at first issue, by lane -/
  bases : List (Nat × Word)
deriving DecidableEq, Repr, Inhabited

/-- A group (04 R106 to R112, R130). -/
structure Group where
  /-- index of its grid, team; 04 R115; given at admission. -/
  grid : Nat
  team : Nat
  /-- 0 to 31; 04 R115; given at admission. GROUPID. -/
  gid : Nat
  /-- 8, 16, 32 or 64; 01 R39; from the header. Lanes. -/
  width : Nat
  /-- 12 bits; 02 R85; given at admission. DIEID, COREID. -/
  die : Nat
  core : Nat
  /-- slot 0 to 3, first quarter 0 to 3; 04 R106; given at admission. The position. -/
  slot : Nat
  quarter : Nat
  /-- 0 to 63; 04 R107; given at admission. Resident index. -/
  resid : Nat
  /-- voices 0 to 3; 04 R108; voice 0 with every lane. -/
  voices : Tbl Voice
  /-- 48 bits per lane; 04 R110; empty. The park table: destinations of parked lanes. -/
  park : Tbl Nat
  /-- 64 bits; 05 R140; every lane. Lanes that have not exited. -/
  live : Mask
  /-- 96 registers of 64 bits per lane, key 64 r + lane; 01 R31; 0. -/
  v : Tbl Word
  /-- 8 to 96; 09 R207; the header's count. Current vector count. -/
  nv : Nat
  /-- 64 registers of 64 bits; 01 R31; s0 the record's param, else 0. -/
  s : Tbl Word
  /-- 1 to 64; 01 R40; the header's count. -/
  ns : Nat
  /-- p0 to p6, 64 bits each; 04 R130; 0. Bit l is lane l. -/
  p : Tbl Mask
  /-- x0 to x3 per lane, key 64 n + lane; 02 R87; 0. index[6:0], lower[14:8], upper[22:16]. -/
  x : Tbl Word
  /-- ly0 to ly3, six 64-bit words each, key 6 n + k; 12 R293; 0. -/
  ly : Tbl Word
  /-- q0 to q7; 09 R212; unbound and empty. -/
  q : Tbl Queue
  /-- queue and elements; 01 R11; empty between chains. The pushes of the chain in progress, performed after its pops; no elements
  where a word will push one when it completes (07 R182). -/
  outq : List (Nat × List (Word × Origin))
  /-- f0 to f11, 0 to 63; 01 R22; 0. Completion counters. -/
  f : Tbl Nat
  /-- 64 bits; 06 R170; 0. MODE. -/
  mode : Word
  /-- 64 bits; 06 R173; 0. FPFLAGS. -/
  fpflags : Word
  /-- 32 bits; 04 R112; 0. PROG. -/
  prog : Nat
  /-- 64 bits; 05 R138; 0. TVEC. -/
  tvec : Word
  /-- 64 bits; 05 R138; 0. TCAUSE. -/
  tcause : Word
  /-- 64 bits; 05 R138; 0. TADDR. -/
  taddr : Word
  /-- 64 bits; 05 R138; 0. TPC. -/
  tpc : Word
  /-- 64 bits; 05 R138; 0. TMASK. -/
  tmask : Word
  /-- 64 bits; 05 R143; 0. The partial-progress word of the latest trap. -/
  pp : Word
  /-- up to eight packet indices per lane, newest first; 02 R78; empty. Return stacks. -/
  ret : Tbl (List Nat)
  /-- 1 bit; 05 R139; false. Handler state. -/
  inhandler : Bool
  /-- 05 R142; none. What rett restores. -/
  handler : Option Handler
  /-- 05 R139; none. A trap raised whose entry waits. -/
  trap : Option PendTrap
  /-- 01 R22; empty. The outstanding long-latency words, in issue order. -/
  outst : List Outst
  /-- count; the model's number for the next outstanding word; 0. -/
  nextId : Nat
  /-- 48 bits; 12 R295; 0. Conflict count. -/
  conflicts : Nat
  /-- address, increment; 12 R299; none. Attached metadata. -/
  mxsp : Option (Word × Word)
  /-- 16 bits; 12 R298; 0. mxloop words issued. -/
  mxseq : Nat
  /-- phase of the last arrival, key 2 n + cluster; 11 R282; none. -/
  arrived : Tbl Nat
  /-- per lane; 19 R418; IDLE. TVU states of lanes that are not IDLE. -/
  tvu : Tbl Tvu
  /-- 19 R420; empty. TVU words in progress. -/
  tvJobs : List TvJob
  /-- 19 R422; empty. TVU work that waits for BUSY lanes. -/
  tvPend : List TvPend
  /-- 19 R424; empty. Repack tokens still to be pushed, oldest first. -/
  rdTok : List Word
  /-- lanes and keys; 19 R423; none. Its arrival at the team's repack. -/
  repack : Option (List (Nat × Nat))
  /-- 1 bit; 04 R132; false. It has been freed. -/
  freed : Bool
  /-- 1 bit; 05 R147; false. Stopped by a kill. -/
  stopped : Bool
  /-- 1 bit; 09 R225; false. Saved alone as a claim victim. -/
  victim : Bool
  /-- first pool unit and units; 09 R225; none. The area of a claim victim. -/
  vrun : Option (Nat × Nat)
  /-- 1 bit; 09 R216; false. It still holds its resonance reservation after being freed. -/
  holdsRes : Bool
  /-- up to seven words; 09 R212, 19 R410; empty. What the SXB port still holds of a delivered packet, until the group's queue has room. -/
  inWords : List Word
deriving DecidableEq, Repr, Inhabited

/-- A barrier of a team or cluster (11 R281). -/
structure Barrier where
  /-- the c field that fixed the phase; none before its first arrival -/
  c : Option Nat
  count : Nat
  /-- phases completed -/
  phase : Nat
deriving DecidableEq, Repr, Inhabited

/-- A circular buffer (11 R272 to R274). -/
structure Cbuf where
  base : Nat
  nslots : Nat
  /-- operand-slot kind -/
  kind : Bool
  ssz : Nat
  free : Nat
  filled : Nat
  acq : Nat
  fill : Nat
  acqi : Nat
  /-- slots taken by commands, in ring order: slot, completed -/
  busy : List (Nat × Bool)
  /-- outstanding cbacq words of the team, in issue order: group and outstanding number -/
  waiting : List (Nat × Nat)
deriving DecidableEq, Repr, Inhabited

/-- A halo tile declared by a team (14 R334, R336). Directions: 0 north, 1 south, 2 west, 3 east. -/
structure Halo where
  /-- descriptor words 0 to 3 -/
  desc : List Word
  /-- pages of the tile: 64 KiB pages of virtual addresses, and of physical keys -/
  pages : List (Nat × Nat)
  /-- its halo.decl: group and outstanding number; the tile is in force when that word has completed -/
  decl : Nat × Nat
  /-- the neighbours hold generation 0 -/
  filled : Bool
  /-- generation count of the owner -/
  gen : Nat
  /-- the outstanding release: group and outstanding number, snapshot taken -/
  out : Option (Nat × Nat × Bool)
  /-- snapshots by direction, not yet delivered: bytes by physical key -/
  snap : List (Nat × List Host.Cell)
  /-- lines of each strip that has a replica at its neighbour -/
  keys : List (Nat × List Nat)
  /-- the replicas the neighbours hold, by direction: bytes by physical key -/
  repl : List (Nat × List Host.Cell)
  /-- generation delivered to this team from each direction -/
  got : Tbl Nat
  /-- the greatest generation a halo.wait of this team named -/
  waited : Nat
deriving DecidableEq, Repr, Inhabited

/-- A team link (09 R213). -/
structure Link where
  /-- group and queue of each end -/
  send : Option (Nat × Nat)
  recv : Option (Nat × Nat)
  /-- the sending end has closed -/
  closed : Bool
  /-- the receiving end has closed -/
  rclosed : Bool
  /-- elements sent and not yet popped, oldest first -/
  elems : List Word
deriving DecidableEq, Repr, Inhabited

/-- A link before any binding. -/
def Link.none : Link := { send := Option.none, recv := Option.none, closed := false, rclosed := false, elems := [] }

/-- Where a team stands (04 R115, 05 R150, 18 R396). -/
inductive Place where
  /-- waits in its launch queue; no group of it exists -/
  | queued
  | resident
  /-- pre-empted: waits in its launch queue with its groups saved -/
  | saved
  /-- swapped out: waits for one of its waitc words -/
  | swapped
  /-- saved by ctxsv: runs only after a ctxrs -/
  | context
  | complete
deriving DecidableEq, Repr, Inhabited

/-- An operand slot's state (12 R283). -/
structure Slot where
  /-- 1 CLAIMED, 2 FILLING, 3 READY; FREE slots are not listed -/
  state : Nat
  team : Nat
  /-- expected and filled byte counts -/
  e : Nat
  f : Nat
deriving DecidableEq, Repr, Inhabited

/-- A word in the engine order of a core (12 R288). `slots` is the mask of the slots that a
loop reads or a store writes. -/
inductive MxWork where
  | loop (desc inc : Word) (fmt : Nat) (q : Nat) (seq next : Nat) (la lb : List Word) (sp : Option (Word × Word)) (slots : Nat)
  | sc (a b : Word)
  | z (a : Word)
  | rd (a : Word) (b : Nat) (lanes : List Nat)
  | wr (a : Word) (vals : List (Nat × Word))
  | st (a b : Word) (rm : Nat) (sat : Bool) (slots : Nat)
  | acrel (a : Word)
deriving DecidableEq, Repr, Inhabited

/-- One entry of the engine order. -/
structure MxOp where
  grp : Nat
  /-- number of the outstanding word; none for a word that completed at issue -/
  id : Option Nat
  /-- the group's next number when it issued: the words issued later have this number or a higher one -/
  seq : Nat
  work : MxWork
deriving DecidableEq, Repr, Inhabited

/-- A slclaim or acclaim not yet served (12 R287). -/
structure SlotReq where
  grp : Nat
  id : Nat
  acc : Bool
  first : Nat
  n : Nat
  e : Nat
deriving DecidableEq, Repr, Inhabited

/-- What a save area of the context pool holds for one team beyond its groups (05 R151 to R153, 12 R308). -/
structure TeamSave where
  /-- first 64 KiB unit of its run of the pool, and units; none once the run is returned -/
  run : Option (Nat × Nat)
  /-- slot records with their numbers, and the bytes of those slots by operand-store address -/
  slots : Tbl Slot
  store : Tbl Byte
  /-- tile numbers, and their elements by accumulator key -/
  tiles : List Nat
  acc : Tbl (BitVec 32)
  /-- unfinished loops in engine order -/
  loops : List MxOp
  /-- slot and tile claims withdrawn, with their words -/
  reqs : List (SlotReq × Outst)
deriving DecidableEq, Repr, Inhabited

/-- A team (04 R115). -/
structure Team where
  /-- index of its grid; 04 R118; given at creation. -/
  grid : Nat
  /-- 32 bits; 04 R118; given at creation. TEAMID. -/
  tid : Nat
  /-- die and core; 04 R115; given at admission. -/
  die : Nat
  core : Nat
  /-- 04 R115; queued. Where it stands. -/
  place : Place
  /-- a pre-emption begun; 05 R150; none. 0 for RT room, 1 swap-out, 2 ctxsv. -/
  stopping : Option Nat
  /-- ns; 05 R150; 0. When that pre-emption began. -/
  stopAt : Nat
  /-- 05 R151; none. Its save area. -/
  kept : Option TeamSave
  /-- indices of its groups; 04 R115; empty until admission. -/
  groups : List Nat
  /-- teams of its cluster by rank; 04 R117; given at creation. -/
  cluster : List Nat
  /-- 0 to 11; 04 R117; given at creation. -/
  rank : Nat
  /-- bytes; 10 R227; 0. The scratchpad grant. -/
  spad : Tbl Byte
  /-- team barriers 0 to 7; 11 R281; no arrival. -/
  bars : Tbl Barrier
  /-- cluster barriers, held by rank 0; 11 R281; no arrival. -/
  clbars : Tbl Barrier
  /-- circular buffers 0 to 3; 11 R272; not initialised. -/
  cbs : Tbl Cbuf
  /-- f at admission, f, h; 04 R127, R128; from the record. The interval of a range task. -/
  f0 : Nat
  f : Nat
  h : Nat
  /-- handles 0 to 7; 14 R333; none. -/
  halos : Tbl Halo
  /-- links 0 to 31; 09 R213; none. -/
  links : Tbl Link
  /-- the mask of the phase's first arrival; 19 R423; none. -/
  rpMask : Option Word
  /-- repack phases completed; 19 R424; 0. -/
  rpPhase : Nat
  /-- 05 R149; 0. Relaunches. -/
  relaunches : Nat
  /-- ns; 18 R396; none. Since when it has waited only in waitc. -/
  idle : Option Nat
  /-- order of admission; 04 R124; 0. -/
  order : Nat
deriving DecidableEq, Repr, Inhabited

/-- A launch record's fields (04 R120). -/
structure Rec where
  kaddr : Nat
  gx : Nat
  gy : Nat
  gz : Nat
  split : Nat
  width : Nat
  chw : Nat
  chh : Nat
  grps : Nat
  grant : Nat
  param : Word
  prelude : Word
  geo : Bool
  spec : Bool
  priv : Bool
  idem : Bool
  ordered : Bool
  prio : Nat
  cls : Nat
  lo : Nat
  hi : Nat
  grain : Nat
deriving DecidableEq, Repr, Inhabited

/-- A kernel header's fields (01 R39 to R41). -/
structure Hdr where
  isa : Nat
  family : Nat
  width : Nat
  compat : Bool
  ordered : Bool
  idem : Bool
  roles : Nat
  vregs : Nat
  sregs : Nat
  spad : Nat
  /-- sympathetic source registers, with their header field -/
  syms : List (Nat × Nat)
deriving DecidableEq, Repr, Inhabited

/-- A sympathetic stream (02 R88 to R93). -/
structure Stream where
  /-- unreleased elements, oldest first -/
  elems : List Word
  /-- elements released -/
  released : Nat
  /-- the close value -/
  closed : Option Word
deriving DecidableEq, Repr, Inhabited

/-- A grid (04 R118, R120, R132). -/
structure Grid where
  /-- 04 R118; given at launch. Partition and context. -/
  part : Nat
  ctx : Nat
  /-- 64 bits; 04 R126; given at launch. Address of its launch record. -/
  recAddr : Word
  /-- 04 R120; given at launch. -/
  lr : Rec
  /-- 01 R39; given at launch. -/
  hdr : Hdr
  /-- key 16 s + j, 64 bits; 04 R120; copied at launch. The prelude table. -/
  prelude : Tbl Word
  /-- 1 bit; 04 R127; given at launch. A range task. -/
  task : Bool
  /-- 32 bits; 04 R118; gx gy gz. The TEAMID of the next team a split creates. -/
  nextTid : Nat
  /-- 32 bits; 04 R119; 0. Clusters created, in CLUSTERID order. -/
  made : Nat
  /-- 1 bit; 05 R147; false. Killed. -/
  killed : Bool
  /-- 1 bit; 04 R132; false. Its status 3 or 4 has been written. -/
  ended : Bool
  /-- 8 bits; 05 R147; 0. The killing cause. -/
  cause : Nat
  /-- 1 bit; 11 R280; false. Committed or discarded. -/
  settled : Bool
  /-- key 128 item + v; 02 R88; empty. Streams. -/
  streams : Tbl Stream
  /-- key 16 (128 item + v) + k; 02 R89; 0. Cursors. -/
  cursors : Tbl Nat
  /-- distances by register; 02 R93; empty. D(v). -/
  dist : Tbl (List Nat)
  /-- items that have exited; 02 R91; empty. -/
  exited : Tbl Nat
  /-- first pool unit and units; 09 R216; none. Its stream tail. -/
  tail : Option (Nat × Nat)
  /-- 10 R244; none. A status word whose write is held at a migrating page. -/
  stat : Option Word
deriving DecidableEq, Repr, Inhabited

/-- A CE command that has started (11 R265). -/
structure CeCmd where
  grp : Nat
  /-- record words 0 to 3 -/
  w : List Word
  /-- destination base after a circular buffer's slot is taken -/
  dst : Word
  /-- circular buffer and slot taken -/
  cb : Option (Nat × Nat)
  /-- operand slot that counts it as outstanding -/
  slot : Option Nat
  /-- lines performed, by index -/
  done : List Nat
  /-- what failed: cause, address -/
  fail : List (Nat × Word)
  /-- its token, once it has ended and waits for room -/
  token : Option Word
deriving DecidableEq, Repr, Inhabited

/-- A byte of a dirty coh-1 line in a level-1 cache (14 R329, R332). -/
structure Dirty1 where
  /-- 64 die + core of the cache that holds it -/
  core : Nat
  /-- 4096 partition + context of the party that wrote it: the line's context tag -/
  tag : Nat
  /-- cores, 64 die + core, that have made this value or one before it in coherence order their own, or may have seen it: a
  release of one of them makes it visible (14 R318, R322) -/
  seen : List Nat
  val : Byte
deriving DecidableEq, Repr, Inhabited

/-- A byte of a coh-2 line in a core's level-1 cache (14 R330, R332). -/
structure Copy2 where
  dirty : Bool
  tag : Nat
  val : Byte
deriving DecidableEq, Repr, Inhabited

/-- A byte that an atomic of group, team or cluster scope left dirty in a level-1 cache (14 R340). -/
structure DirtyA where
  /-- the rank-0 team of the cluster, for an atomic of cluster scope -/
  clu : Option Nat
  tag : Nat
  val : Byte
deriving DecidableEq, Repr, Inhabited

/-- A core (10, 12). -/
structure Core where
  /-- group indices in issue order; 09 R223; empty. Outstanding claims. -/
  claims : List Nat
  /-- 11 R265; empty. Commands in progress. -/
  ce : List CeCmd
  /-- 64 slots; 12 R283; FREE. -/
  slots : Tbl Slot
  /-- 1 MiB; 12 R283; 0 (DESIGN CHOICE, notes/assumptions/3.md). Operand-store bytes. -/
  store : Tbl Byte
  /-- 64 tiles; 12 R286; FREE. Owning team plus one. -/
  tiles : Tbl Nat
  /-- 64 tiles of 128 x 128 x 32 bits, key 16384 t + 128 row + col; 12 R286; 0. -/
  acc : Tbl (BitVec 32)
  /-- 12 R288; empty. The engine order. -/
  mx : List MxOp
  /-- 12 R287; empty. Claims of slots and tiles, in issue order. -/
  reqs : List SlotReq
  /-- group and queue; 19 R410; none. The SXB port binding. -/
  sxb : Option (Nat × Nat)
  /-- bytes of coh-2 lines, clean or dirty; 14 R330; empty. -/
  c2 : Tbl (Option Copy2)
  /-- bytes left dirty by atomics of narrow scope; 14 R340; empty. -/
  atoms : Tbl (Option DirtyA)
  /-- c_G and c_T per slot, key 2 slot + class; 04 R114; 0. -/
  issue : Tbl Nat
deriving DecidableEq, Repr, Inhabited

/-- A monitor of a waitc (15 R352, 18 R392). -/
structure Monitor where
  grp : Nat
  id : Nat
  /-- the lanes that share it -/
  lanes : Mask
  /-- physical key of the location -/
  key : Nat
  size : Nat
  cond : Nat
  sgn : Bool
  val : Word
  /-- the satisfying read is an acquire (15 R353) -/
  acq : Bool
deriving DecidableEq, Repr, Inhabited

/-- A request at a bank of the SYE from outside the cores, within one 8-byte word (18 R395). -/
structure SyeReq where
  port : Nat
  key : Nat
  /-- 0 write, 1 FetchAdd, 2 Swap, 3 CAS -/
  op : Nat
  val : List Byte
  cmp : List Byte
deriving DecidableEq, Repr, Inhabited

/-- A request at the TSE (16 R370). -/
inductive TsWork where
  | init | exp (addr : Word)
  | desc (lane dst : Nat)
  | back (lane : Nat) (handle : Word) (val : BitVec 32)
  | root (b : Word) | free (b : Word)
  | rd (w lane dst node : Nat)
  | stat (k dst : Nat)
  /-- its effect is performed; its token waits for room (16 R368) -/
  | push (token : Word)
deriving DecidableEq, Repr, Inhabited

/-- One request of a tree, in service order. -/
structure TsReq where
  grp : Nat
  id : Nat
  /-- descriptor address -/
  desc : Word
  /-- token queue; none with tok 0 -/
  q : Option Nat
  work : TsWork
  /-- a backup in progress: node, value, nodes done -/
  walk : Option (Nat × BitVec 32 × Nat)
  /-- a lane of its tsdesc has been served: nothing else of the tree comes before the other lanes (16 R370) -/
  begun : Bool
  /-- accesses that its group issued before it were still to be performed when it issued: it waits for them (16 R377) -/
  late : Bool
deriving DecidableEq, Repr, Inhabited

/-- The SYE and TSE of a memory-cache die (16, 18). -/
structure MemDie where
  /-- 64 bits; 18 R390; 0. SYOVBASE. -/
  ovbase : Word
  /-- 64 bits; 18 R390; 0. SYOVSIZE. -/
  ovsize : Word
  /-- 32 bits; 18 R390; 1000. SYSWAP. -/
  swap : Word
  /-- 32 bits; 18 R390; 10000. SYCOLLTO. -/
  collto : Word
  /-- req and done; 18 R390; 0. SYUNPIN. -/
  unpin : Word
  /-- 1 bit; 18 R391; false. An unpin has started and not finished. -/
  unpinning : Bool
  /-- granules in SRAM frames; 18 R387; empty. -/
  frames : List Nat
  /-- granules in overflow frames; 18 R389; empty. -/
  ovframes : List Nat
  /-- 65,536 entries; 18 R392; empty. Armed monitors, in arming order. -/
  mons : List Monitor
  /-- 4096 arms; 18 R393; empty. The arm queue. -/
  arms : List Monitor
  /-- 18 R395; empty. Requests at the bank ports. -/
  ports : List SyeReq
  /-- port served last, per bank; 18 R395; 0. -/
  turn : Tbl Nat
  /-- staging bytes taken; 18 R397; 0. -/
  staged : Nat
  /-- 16 R370; empty. TSE requests, in service order. -/
  ts : List TsReq
  /-- eight counters of 64 bits; 16 R381; 0. -/
  tstat : Tbl Nat
  /-- nodes by physical key; 16 R381; empty. Nodes read since the counters were last cleared. -/
  seen : List Nat
  /-- count; the model's number of node reads, which tells free choices apart; 0. -/
  reads : Nat
deriving DecidableEq, Repr, Inhabited

/-- A collective that runs here (15 R355 to R359). -/
structure Coll where
  grp : Nat
  id : Nat
  op : Nat
  recAddr : Word
  /-- physical key of the record -/
  recKey : Nat
  /-- the SYE that serves it -/
  die : Nat
  member : Nat
  count : Nat
  ty : Nat
  chunk : Nat
  seq : Word
  gid : Word
  src : Word
  dst : Word
  /-- the group table's entries -/
  entries : List Word
  /-- next chunk -/
  next : Nat
  /-- failed members -/
  failed : List Nat
  /-- first chunk performed without some failed member -/
  first : Option Nat
  /-- staging held -/
  staged : Bool
  /-- the source elements of the chunk in progress, copied into staging; 18 R397 -/
  copy : Option (List Nat)
  /-- ns; 18 R398. When the chunk in progress began. -/
  since : Nat
  /-- the other members have declared it failed -/
  out : Bool
  error : Nat
  ended : Bool
deriving DecidableEq, Repr, Inhabited

/-- A shadow entry (11 R276). -/
structure Shadow where
  ctx : Nat
  /-- buffer address and pages of 64 KiB -/
  va : Nat
  /-- physical pages of the key, in order -/
  pages : List Nat
  /-- redirect pages of RP; empty for the page table -/
  rp : List Nat
  /-- pages of WP; empty when PUBLISHED -/
  wp : List Nat
  isOpen : Bool
  /-- the opening grid, and the team that opened it -/
  grid : Nat
  team : Nat
deriving DecidableEq, Repr, Inhabited

/-- A context (21 R432, R433). -/
structure Context where
  enabled : Bool
  /-- 46 bits: root table address -/
  root : Nat
deriving DecidableEq, Repr, Inhabited

/-- A cached translation (10 R241, R242). -/
structure TlbEnt where
  ctx : Nat
  /-- page base, log2 of the size, and the leaf -/
  va : Nat
  lg : Nat
  leaf : Word
deriving DecidableEq, Repr, Inhabited

/-- An access held at a migrating page (10 R244), or one that finds no route (21 R444). -/
structure Hold where
  /-- the group; 2^40 plus the context for the device itself (21 R433) -/
  grp : Nat
  /-- the voice that waits; 4 for a trap's entry, 5 for the engines, 6 for the device -/
  who : Nat
  ctx : Nat
  /-- the virtual address a tlbinv must cover -/
  va : Nat
  /-- it waits for a route, not for a tlbinv -/
  noRoute : Bool
  /-- the bed die from which it looks for a route -/
  bed : Nat
  /-- ns; when it began to wait -/
  since : Nat
deriving DecidableEq, Repr, Inhabited

/-- A packet at the SXB (19 R402, R408). -/
structure Packet where
  die : Nat
  words : List Word
  /-- its mvemit: group and outstanding number -/
  src : Nat × Nat
  /-- it has been accepted -/
  accepted : Bool
deriving DecidableEq, Repr, Inhabited

/-- The pass of a partition's SXB (19 R404 to R411). -/
structure Pass where
  /-- the map's address in the binding context, its header words and entries -/
  map : Word
  ctx : Nat
  hdr : List Word
  entries : List (BitVec 32)
  /-- token delivered last plus one, per region -/
  last : Tbl Nat
  /-- tokens delivered and not committed, per region -/
  uncommitted : Tbl (List Nat)
  late : Nat
  dropped : Nat
deriving DecidableEq, Repr, Inhabited

/-- An entry of a launch queue (04 R122 to R124, 05 R149, R150). -/
inductive QEnt where
  /-- a launch whose clusters are not all created -/
  | grid (g : Nat)
  /-- a team that was relaunched or saved -/
  | team (t : Nat)
deriving DecidableEq, Repr, Inhabited

/-- A partition (21 R431, R432). -/
structure Part where
  /-- PMODE err; 1 bit; 21 R431; 0. -/
  err : Bool
  /-- 64 bits; 21 R431; 0. CTXBASE. -/
  ctxbase : Word
  /-- 64 bits; 21 R431; 0. CTXCTL. -/
  ctxctl : Word
  /-- 21 R433; empty. Operations that CTXCTL writes began and that have not ended: op and context. Op 1 enables; 2 disables; 3 has
  enabled the context and accepts its control program; 4 and 5 disable it and wait for its groups to drain, for result 2 or 0. -/
  ctxops : List (Nat × Nat)
  /-- 16 bits; 21 R431; 0x2644. QUOTA. -/
  quota : Word
  /-- 8 bits; 21 R431; 0x11. WEIGHT. -/
  weight : Word
  /-- 64 bits; 21 R431; 0. POOLBASE. -/
  poolbase : Word
  /-- 32 bits; 21 R431; 0. POOLSIZE. -/
  poolsize : Word
  /-- 64 bits; 21 R431; 0. FLOGBASE. -/
  flogbase : Word
  /-- 4 bits; 21 R431; 4. FLOGSIZE. -/
  flogsize : Word
  /-- 32 bits; 21 R431; 0. FLOGHEAD. -/
  floghead : Nat
  /-- 32 bits; 21 R431; 0. FLOGTAIL. -/
  flogtail : Nat
  /-- ovf; 1 bit; 21 R431; 0. -/
  flogovf : Bool
  /-- 32 bits; 21 R431; 0. FLOGLOST. -/
  floglost : Nat
  /-- MSI-X vector 0 signals sent; 21 R437; 0. -/
  msix : Nat
  /-- 256 windows of 64 bits; 21 R440; 0 (DESIGN CHOICE, notes/assumptions/3.md). RWIN. -/
  rwin : Tbl Word
  /-- by context number; 21 R433; disabled. -/
  ctxs : Tbl Context
  /-- 10 R242; empty. Cached translations. -/
  tlb : List TlbEnt
  /-- 10 R244; empty. Accesses held at migrating pages. -/
  holds : List Hold
  /-- context, first and last virtual byte address, the model's counter; 10 R247, 11 R258; empty. What icinv words have dropped
  from the instruction caches. -/
  drops : List (Nat × Nat × Nat × Nat)
  /-- launch queues 0 to 31, oldest first; 04 R122; empty. -/
  queues : Tbl (List QEnt)
  /-- by queue: its front entry, the cluster it would create, and since when (ns); 04 R123; empty. -/
  fronts : Tbl (QEnt × Nat × Nat)
  /-- up to 256 entries; 10 R252; empty. -/
  shadows : List Shadow
  /-- first unit, units; 05 R153; empty. Runs of 64 KiB units taken from the context pool. -/
  runs : List (Nat × Nat)
  /-- 19 R406; none. The bound pass. -/
  pass : Option Pass
  /-- H_d by die; 19 R407; 0. -/
  marks : Tbl Nat
  /-- 19 R408; empty. Packets at the SXB, in acceptance order. -/
  packets : List Packet
  /-- 21 R436; empty. Host writes received and not yet performed, oldest first. -/
  posted : List HostWrite
  /-- region, group, outstanding number; 19 R411; empty. Region transfers in issue order. -/
  moving : List (Nat × Nat × Nat)
  /-- key 64 die + core: the RT entry that pre-empted teams make room for; 04 R124; none. -/
  rooms : Tbl QEnt
  /-- queues whose front team has waited 200 us, key 32 die + queue; 04 R123; empty. -/
  blocked : List Nat
deriving DecidableEq, Repr, Inhabited

/-- What a full save area holds (05 R151), for the sections that only the device reads (05 R153). -/
structure Area where
  /-- index of the saved grid, and the grid with its streams -/
  gr : Nat
  grid : Grid
  teams : List (Nat × Team)
  groups : List (Nat × Group)
  /-- monitors of its waitc words that were armed -/
  mons : List Monitor
  /-- shadows that were its own -/
  shadows : List Shadow
deriving DecidableEq, Repr, Inhabited

/-- The lifetime records (21 R448). -/
structure Life where
  /-- hours powered -/
  hours : Nat
  /-- hours above 95 C by island -/
  hot : Tbl Nat
  /-- minutes, 0 to 59, towards the next hour powered, and towards each island's next hour above 95 C -/
  minutes : Nat
  hotMins : Tbl Nat
  /-- temperature histograms, key 64 island + bin -/
  hist : Tbl Nat
  droops : Tbl Nat
  /-- corrected errors by SRAM macro, slice, channel -/
  sram : Tbl Nat
  slice : Tbl Nat
  chan : Tbl Nat
  retrains : Tbl Nat
  relRetrains : Tbl Nat
  lanesSpared : Tbl Nat
  preempts : Tbl Nat
  swaps : Tbl Nat
  relaunches : Tbl Nat
  trips : Nat
  rejections : Nat
deriving DecidableEq, Repr, Inhabited

/-- The package: fuses, links, routes, images, power (21). -/
structure Package where
  /-- 12 bits; 21 R442; Cloeno X, 0xFFF (DESIGN CHOICE, notes/assumptions/1.md). Dies present. -/
  present : Nat
  /-- 1 bit; 21 R442; true (DESIGN CHOICE, notes/assumptions/1.md). The package has two bed dies. -/
  twoBeds : Bool
  /-- 8 bits; 21 R442; 2 (DESIGN CHOICE, notes/assumptions/1.md). -/
  rev : Nat
  /-- 2 bits; 21 R431; 0. PMODE cur. -/
  cur : Nat
  /-- 2 bits; 21 R431; 0. PMODE mode. -/
  mode : Nat
  /-- 1 bit; 21 R431; 0. PMODE pend. -/
  pend : Bool
  /-- bits 15 to 0: 21 R431; 0. LINKS down. Bits 16 to 28: the links inside the package, 16 + d of die d to its bed die and 28 between
  the bed dies (21 R443; DESIGN CHOICE, notes/assumptions/94.md). -/
  links : Nat
  /-- failed lanes per port or link; 21 R443; 0. -/
  lanes : Tbl Nat
  /-- failed retrains in a row per port; 21 R443; 0. -/
  fails : Tbl Nat
  /-- key 65536 bed + Relmer node, or 131072 + 16 bed + die: primary, alternate, each a port or link; 21 R444; none (DESIGN CHOICE,
  notes/assumptions/3.md). -/
  routes : Tbl (Nat × Nat)
  /-- entries, by the key of routes, that are switched to their alternate; 21 R444; empty. -/
  alt : List Nat
  /-- flits resent per port; 21 R443; 0. -/
  flits : Tbl Nat
  /-- image by kind; 21 R445; none. -/
  images : Tbl (Option Image)
  /-- fused minimum security version; 21 R445; 0 (DESIGN CHOICE, notes/assumptions/3.md). -/
  minver : Nat
  /-- the recovery image runs; 21 R445; false. -/
  recovery : Bool
  /-- measurements reported; 21 R446; none. -/
  spdm : List (List Byte)
  /-- watts; 21 R447; 1800. -/
  cap : Nat
  /-- MHz by island; 21 R447; 0 stands for nominal. -/
  clocks : Tbl Nat
  /-- throttled islands; 21 R447; empty. -/
  throttled : List Nat
  /-- 1 bit; 21 R447; true. Powered. -/
  on : Bool
  /-- 21 R448; 0 (DESIGN CHOICE: a new part). -/
  life : Life
  /-- the copy in SPI flash; 21 R448; 0. -/
  flash : Life
  /-- the last answer to a lifetime read; 21 R448; none. -/
  report : Option Life
deriving DecidableEq, Repr, Inhabited

/-- The whole device. -/
structure Mach where
  /-- 64 bits at 1 GHz; 02 R85; 0 (DESIGN CHOICE, notes/assumptions/3.md). TIME. -/
  time : Nat
  /-- the model's own counter behind free values; 0 (DESIGN CHOICE, notes/assumptions/4.md). -/
  fresh : Nat
  /-- bytes by physical key; 10 R229; nothing listed. -/
  mem : List Host.Cell
  /-- lines by physical key; 10 R235; empty. Poison marks. -/
  poison : List Nat
  /-- dirty bytes of coh-1 lines; 14 R329; empty. -/
  c1 : Tbl (Option Dirty1)
  /-- by 4-byte word of memory: the model's counter and the word that a write replaced, newest first; 10 R247; empty. What an
  instruction cache may still hold. -/
  past : Tbl (List (Nat × Nat))
  /-- partitions 0 to 3; 21 R431. -/
  parts : Tbl Part
  /-- 04 R106; empty. -/
  groups : List Group
  /-- 04 R115; empty. -/
  teams : List Team
  /-- 04 R118; empty. -/
  grids : List Grid
  /-- key 64 die + core; 10; empty cores. -/
  cores : Tbl Core
  /-- by die; 18 R390, 16 R381. -/
  mcs : Tbl MemDie
  /-- a_G and a_T per die, key 2 die + class; 04 R114; 0. -/
  adm : Tbl Nat
  /-- 15 R355; empty. -/
  colls : List Coll
  /-- 05 R156; empty. Contents of the full save areas that ctxsv wrote. -/
  areas : List (Option Area)
  /-- 21. -/
  pk : Package
deriving DecidableEq, Repr, Inhabited

/-- A chain in progress (01 R10 to R12). -/
structure Chain where
  /-- the device before the chain: what its members read, and what a trap returns to -/
  base : Mach
  used : List Pipe
  /-- first word of the chain -/
  first : Nat
  /-- members done -/
  member : Nat
  /-- the BREAK or SYSCALL a member raised -/
  late : Option (Nat × Trap)
deriving DecidableEq, Repr, Inhabited

/-- A cycle of a core in progress (04 R113). -/
structure Cycle where
  /-- 64 die + core -/
  core : Nat
  /-- slots still to be arbitrated, in order -/
  slots : List Nat
  /-- voices that issue together with the one that won the slot arbitrated last -/
  co : List (Nat × Nat)
deriving DecidableEq, Repr, Inhabited

/-- The state of the model: the device, the chain in progress, the cycle it belongs to, the voice that issues, and the inputs
to come. -/
structure State where
  m : Mach
  chain : Option Chain
  cyc : Option Cycle
  /-- the pipe classes of the chain that issued last -/
  pipes : List Pipe
  /-- group and voice that issue now -/
  cur : Option (Nat × Nat)
  /-- events the outside world, or an agent whose time the spec leaves open, performs next -/
  inbox : List Instr
deriving DecidableEq, Repr, Inhabited

/-- Why the machine stops. -/
inductive Fault where
  /-- Raised by every word's meaning in a state in which no voice issues (exec of a word outside a step, which the
  machine never does). Safe: it forbids nothing that a run can reach. -/
  | noVoice
  /-- Raised by step when the module is powered off (21 R447, R448): nothing runs. Safe. -/
  | poweredOff
deriving DecidableEq, Repr, Inhabited

/-- Why an instruction has no meaning. -/
inductive Refusal where
  /-- An instruction this model has not reached; raised by its arm of exec alone. Safe. -/
  | notModelled (mnemonic : String)
deriving DecidableEq, Repr, Inhabited

/-- An empty core. -/
def Core.empty : Core :=
  { claims := [], ce := [], slots := [], store := [], tiles := [], acc := [], mx := [], reqs := [], sxb := none,
    c2 := [], atoms := [], issue := [] }

/-- The registers of an SYE and the counters of a TSE at reset (R390, R381). -/
def MemDie.reset : MemDie :=
  { ovbase := 0, ovsize := 0, swap := 1000, collto := 10000, unpin := 0, unpinning := false, frames := [], ovframes := [], mons := [],
    arms := [], ports := [], turn := [], staged := 0, ts := [], tstat := [], seen := [], reads := 0 }

/-- A partition at reset (R431). -/
def Part.reset : Part :=
  { err := false, ctxbase := 0, ctxctl := 0, ctxops := [], quota := 0x2644, weight := 0x11, poolbase := 0, poolsize := 0,
    flogbase := 0, flogsize := 4, floghead := 0, flogtail := 0, flogovf := false, floglost := 0, msix := 0, rwin := [],
    ctxs := [], tlb := [], holds := [], drops := [], queues := [], fronts := [], shadows := [], runs := [], pass := none, marks := [], packets := [], posted := [],
    moving := [], rooms := [], blocked := [] }

/-- The lifetime records of a new part. -/
def Life.zero : Life :=
  { hours := 0, hot := [], minutes := 0, hotMins := [], hist := [], droops := [], sram := [], slice := [], chan := [], retrains := [],
    relRetrains := [], lanesSpared := [], preempts := [], swaps := [], relaunches := [], trips := 0, rejections := 0 }

/-- The package at its first reset. -/
def Package.reset : Package :=
  { present := 0xFFF, twoBeds := true, rev := 2, cur := 0, mode := 0, pend := false, links := 0, lanes := [], fails := [], routes := [],
    alt := [], flits := [], images := [], minver := 0, recovery := false, spdm := [], cap := 1800, clocks := [],
    throttled := [], on := true, life := Life.zero, flash := Life.zero, report := none }

/-- The device right after reset (21 R439, R441). -/
def Mach.reset : Mach :=
  { time := 0, fresh := 0, mem := [], poison := [], c1 := [], past := [], parts := [], groups := [], teams := [], grids := [],
    cores := [], mcs := [], adm := [], colls := [], areas := [], pk := Package.reset }

/-- The machine right after reset: no group runs, no context is enabled, local memory reads 0 (21 R439). -/
def State.reset : State := { m := Mach.reset, chain := none, cyc := none, pipes := [], cur := none, inbox := [] }

end Sys2Proof.Machine
end

