-- ==== Sys2Proof/Machine/Bits.lean ====
section
/-!
DEFINITION. Sys2Proof/Machine/Bits.lean: bit fields, sub-elements, sign extension, byte order and lane lists (01 R8, R45,
R46; 00 R6).
-/

namespace Sys2Proof.Machine

/-- Bits [lo+len-1:lo] of a number. -/
def bitsOf (x lo len : Nat) : Nat := x / 2 ^ lo % 2 ^ len

/-- Bits [lo+len-1:lo] of a 64-bit word, as a number. -/
def wb (x : Word) (lo len : Nat) : Nat := bitsOf x.toNat lo len

/-- One bit of a number. -/
def bitAt (x i : Nat) : Bool := x / 2 ^ i % 2 == 1

/-- A number below 2^w read as two's complement. -/
def toSigned (w x : Nat) : Int := if x < 2 ^ (w - 1) then (x : Int) else (x : Int) - 2 ^ w

/-- An integer reduced modulo 2^w. -/
def wrapInt (w : Nat) (z : Int) : Nat := (z % (2 ^ w : Nat)).toNat

/-- An integer read from w bits, signed or not. -/
def readInt (sgn : Bool) (w x : Nat) : Int := if sgn then toSigned w x else (x : Int)

/-- The least and greatest integer of a type (02 R56). -/
def minOf (sgn : Bool) (w : Nat) : Int := if sgn then -(2 ^ (w - 1) : Nat) else 0
def maxOf (sgn : Bool) (w : Nat) : Int := if sgn then (2 ^ (w - 1) : Nat) - 1 else (2 ^ w : Nat) - 1

/-- An integer clamped to a type (02 R56). -/
def clampInt (sgn : Bool) (w : Nat) (z : Int) : Int := max (minOf sgn w) (min (maxOf sgn w) z)

/-- An exact integer result put into a type, wrapped or, with sat, clamped (02 R56). -/
def narrow (sgn sat : Bool) (w : Nat) (z : Int) : Nat := wrapInt w (if sat then clampInt sgn w z else z)

/-- Sub-element n of width w of a lane (01 R45). -/
def elemOf (x : Word) (w n : Nat) : Nat := wb x (w * n) w

/-- A lane with sub-element n of width w replaced. -/
def setElem (x : Word) (w n v : Nat) : Word :=
  BitVec.ofNat 64 (x.toNat - elemOf x w n * 2 ^ (w * n) + v % 2 ^ w * 2 ^ (w * n))

/-- A lane made of c sub-elements of width w. -/
def packElems (w c : Nat) (g : Nat → Nat) : Word :=
  BitVec.ofNat 64 ((List.range c).foldl (fun a n => a + g n % 2 ^ w * 2 ^ (w * n)) 0)

/-- A 32-bit result in a lane: sign-extended under a signed type, zero-extended under every other (01 R45). -/
def lane32 (sgn : Bool) (x : Nat) : Word :=
  if sgn then (BitVec.ofNat 32 x).signExtend 64 else (BitVec.ofNat 32 x).zeroExtend 64

/-- Width of a sub-element, sub-elements per lane and sign of the integer types (01 R46). -/
def tyWidth : IntTy → Nat
  | .i8x8 | .n8x8 => 8
  | .i16x4 | .n16x4 => 16
  | .i32 | .n32 | .i32x2 | .n32x2 => 32
  | .i64 | .n64 => 64
def tyCount : IntTy → Nat
  | .i8x8 | .n8x8 => 8
  | .i16x4 | .n16x4 => 4
  | .i32x2 | .n32x2 => 2
  | .i32 | .n32 | .i64 | .n64 => 1
def tySigned : IntTy → Bool
  | .i8x8 | .i16x4 | .i32 | .i32x2 | .i64 => true
  | _ => false

/-- Width and sign of the types of majors 0x10 to 0x13, 0x20 to 0x23 and 0x30 to 0x33. -/
def wtWidth : WTy → Nat
  | .i32 | .n32 => 32
  | .i64 | .n64 => 64
def wtSigned : WTy → Bool
  | .i32 | .i64 => true
  | _ => false

/-- The types in the order of their majors, for the source code of cvt, ftoi and itof (02 R60). -/
def tyOfCode : Nat → IntTy
  | 0 => .i8x8 | 1 => .n8x8 | 2 => .i16x4 | 3 => .n16x4 | 4 => .i32 | 5 => .n32 | 6 => .i32x2 | 7 => .n32x2
  | 8 => .i64 | _ => .n64

/-- Bytes of an access size (02 R96). -/
def szBytes : MSz → Nat
  | .b8 => 1 | .b16 => 2 | .b32 => 4 | .b64 => 8

/-- The little-endian bytes of a number (01 R8). -/
def toBytes : Nat → Nat → List Byte
  | 0, _ => []
  | n + 1, x => BitVec.ofNat 8 x :: toBytes n (x / 256)

/-- The number of a list of little-endian bytes (01 R8). -/
def ofBytes : List Byte → Nat
  | [] => 0
  | b :: bs => b.toNat + 256 * ofBytes bs

/-- The lanes of a mask, ascending. -/
def lanesOf (m : Mask) : List Nat := (List.range 64).filter fun l => m.getLsbD l

/-- The mask of some lanes. -/
def maskOf (ls : List Nat) : Mask := ls.foldl (fun m l => m ||| (1#64 <<< l)) 0

/-- Every lane of a group of width W. -/
def fullMask (w : Nat) : Mask := BitVec.ofNat 64 (2 ^ w - 1)

/-- A list put in order by insertion, equal elements in their first order. -/
def insertBy {α : Type} (lt : α → α → Bool) (x : α) : List α → List α
  | [] => [x]
  | y :: ys => if lt x y then x :: y :: ys else y :: insertBy lt x ys
def sortBy {α : Type} (lt : α → α → Bool) : List α → List α
  | [] => []
  | x :: xs => insertBy lt x (sortBy (fun a b => lt a b) xs)

/-- The element that comes first by a strict order, the earliest of equals. -/
def firstBy {α : Type} (lt : α → α → Bool) : List α → Option α
  | [] => none
  | x :: xs =>
    match firstBy lt xs with
    | none => some x
    | some y => if lt y x then some y else some x

/-- The value at an index replaced. -/
def setAt {α : Type} : List α → Nat → α → List α
  | [], _, _ => []
  | _ :: xs, 0, y => y :: xs
  | x :: xs, n + 1, y => x :: setAt xs n y

/-- The cause codes (05 R137). -/
def Cause.code : Cause → Nat
  | .illegalOp => 0x01 | .illegalCombo => 0x02 | .chainConflict => 0x03 | .badTarget => 0x04 | .jumpRange => 0x05
  | .indexRange => 0x06 | .misalign => 0x07 | .xlate => 0x08 | .prot => 0x09 | .slotState => 0x0A | .metaErr => 0x0B
  | .queueState => 0x0C | .treeAlloc => 0x0D | .regionOwner => 0x0E | .symFault => 0x0F | .ctxFeature => 0x10
  | .sramUe => 0x11 | .brk => 0x12 | .syscall => 0x13 | .regwin => 0x14 | .claimLimit => 0x15

/-- The cause of a status code in a token or result (11 R266, 12 R298, 16 R368). -/
def causeOf : Nat → Cause
  | 0x01 => .illegalOp | 0x07 => .misalign | 0x08 => .xlate | 0x09 => .prot | 0x0A => .slotState | 0x0B => .metaErr
  | 0x0D => .treeAlloc | 0x0E => .regionOwner | 0x11 => .sramUe | 0x14 => .regwin | _ => .illegalOp

/-- A trap with a cause, address and mask. -/
def trapOf (c : Cause) (addr : Word) (mask : Mask) : Trap := { cause := c, addr := addr, mask := mask, elem := 0, done := false }

/-- Ceiling of a base-2 logarithm; 0 for 0 and 1. -/
def clog2 (n : Nat) : Nat := if n ≤ 1 then 0 else Nat.log2 (n - 1) + 1

end Sys2Proof.Machine
end

