-- ==== Sys2Proof/Machine/Float.lean ====
section
/-!
DEFINITION. Sys2Proof/Machine/Float.lean: the float and tapered formats, rounding, exceptions, fused sums and special
functions (06 R160 to R179, 07 R185 to R201). Values are exact: a sign, a whole number and a power of two.
-/

namespace Sys2Proof.Machine

/-- The three IEEE formats (R160). -/
inductive Fmt where
  | f32 | f16 | bf16
deriving DecidableEq, Repr, Inhabited

/-- Precision, least and greatest exponent, bits of the format. -/
def Fmt.p : Fmt → Nat
  | .f32 => 24 | .f16 => 11 | .bf16 => 8
def Fmt.emin : Fmt → Int
  | .f32 => -126 | .f16 => -14 | .bf16 => -126
def Fmt.emax : Fmt → Int
  | .f32 => 127 | .f16 => 15 | .bf16 => 127
def Fmt.bits : Fmt → Nat
  | .f32 => 32 | .f16 => 16 | .bf16 => 16
/-- The exponent field's width. -/
def Fmt.ew (f : Fmt) : Nat := f.bits - f.p

/-- A number, an infinity or a NaN; `m · 2^e` with its sign. -/
inductive FVal where
  | nan (signalling : Bool)
  | inf (neg : Bool)
  | fin (neg : Bool) (m : Nat) (e : Int)
deriving DecidableEq, Repr, Inhabited

/-- The exceptions of FPFLAGS (R173): iv 1, dz 2, of 4, uf 8, nx 16, ORed. -/
abbrev Exc := Nat

def excIv : Exc := 1
def excDz : Exc := 2
def excOf : Exc := 4
def excUf : Exc := 8
def excNx : Exc := 16

/-- How a word rounds (R168 to R172): rm 0 RNE, 1 RTZ, 2 RUP, 3 RDN, 4 RNA. -/
structure FEnv where
  rm : Nat
  sat : Bool
  fzi : Bool
  fzo : Bool
deriving DecidableEq, Repr, Inhabited

/-- RNE, no flush, no saturation: the matrix engine and the atomics (R177, 15 R347). -/
def FEnv.rne : FEnv := { rm := 0, sat := false, fzi := false, fzo := false }

/-- Canonical NaN (R161), infinity, largest finite and zero of a format, as bits. -/
def Fmt.nan : Fmt → Nat
  | .f32 => 0x7FC00000 | .f16 => 0x7E00 | .bf16 => 0x7FC0
def signBit (f : Fmt) (neg : Bool) : Nat := if neg then 2 ^ (f.bits - 1) else 0
def Fmt.infBits (f : Fmt) (neg : Bool) : Nat := signBit f neg + (2 ^ f.ew - 1) * 2 ^ (f.p - 1)
def Fmt.maxBits (f : Fmt) (neg : Bool) : Nat := f.infBits neg - 1

/-- The value of some bits, a subnormal read as zero under fzi (R160, R171). -/
def readF (f : Fmt) (fzi : Bool) (x : Nat) : FVal :=
  let neg := bitAt x (f.bits - 1)
  let ex := bitsOf x (f.p - 1) f.ew
  let fr := bitsOf x 0 (f.p - 1)
  if ex = 2 ^ f.ew - 1 then (if fr = 0 then .inf neg else .nan (!bitAt fr (f.p - 2)))
  else if ex = 0 then .fin neg (if fzi then 0 else fr) (f.emin - (f.p - 1 : Nat))
  else .fin neg (fr + 2 ^ (f.p - 1)) (f.emin + (ex - 1 : Nat) - (f.p - 1 : Nat))

/-- Whether a magnitude M + rem rounds up: `half` compares the part cut off with one half (0 none, 1 below, 2 equal,
3 above). -/
def roundUp (rm : Nat) (neg : Bool) (odd : Bool) (half : Nat) : Bool :=
  match rm with
  | 1 => false
  | 2 => !neg && half != 0
  | 3 => neg && half != 0
  | 4 => half ≥ 2
  | _ => half = 3 || (half = 2 && odd)

/-- `m · 2^e` (a little more when sticky) rounded to a multiple of 2^q: the multiple and whether it is inexact. -/
def roundAt (rm : Nat) (neg : Bool) (m : Nat) (e : Int) (sticky : Bool) (q : Int) : Nat × Bool :=
  if q ≤ e then
    let mm := m * 2 ^ (e - q).toNat
    let half := if sticky then 1 else 0
    ((if roundUp rm neg (mm % 2 = 1) half then mm + 1 else mm), sticky)
  else
    let k := (q - e).toNat
    let mm := m / 2 ^ k
    let r := m % 2 ^ k
    let h := 2 ^ (k - 1)
    let half := if r = 0 then (if sticky then 1 else 0)
      else if r < h then 1 else if r = h then (if sticky then 3 else 2) else 3
    ((if roundUp rm neg (mm % 2 = 1) half then mm + 1 else mm), half != 0)

/-- The bits of `m · 2^q`, a value of the format. -/
def packF (f : Fmt) (neg : Bool) (m : Nat) (q : Int) : Nat :=
  if m = 0 then signBit f neg
  else
    let l := Nat.log2 m
    if q + l < f.emin then signBit f neg + m * 2 ^ (q - (f.emin - (f.p - 1 : Nat))).toNat
    else
      let fr := if l ≥ f.p - 1 then m / 2 ^ (l - (f.p - 1)) else m * 2 ^ (f.p - 1 - l)
      signBit f neg + (q + l - f.emin + 1).toNat * 2 ^ (f.p - 1) + (fr - 2 ^ (f.p - 1))

/-- Round of R168 to R172 and R174 for a nonzero magnitude. -/
def roundMag (f : Fmt) (v : FEnv) (neg : Bool) (m : Nat) (e : Int) (sticky : Bool) : Nat × Exc :=
  let l : Int := e + Nat.log2 m
  let q := max (l - (f.p - 1 : Nat)) (f.emin - (f.p - 1 : Nat))
  let r := roundAt v.rm neg m e sticky q
  let u := roundAt v.rm neg m e sticky (l - (f.p - 1 : Nat))
  if r.1 ≠ 0 ∧ q + Nat.log2 r.1 > f.emax then
    let toInf := match v.rm with
      | 1 => false
      | 2 => !neg
      | 3 => neg
      | _ => true
    ((if toInf && !v.sat then f.infBits neg else f.maxBits neg), excOf ||| excNx)
  else
    let tiny : Bool := u.1 = 0 || l - (f.p - 1 : Nat) + Nat.log2 u.1 < f.emin
    let sub : Bool := r.1 ≠ 0 && q + Nat.log2 r.1 < f.emin
    if sub && v.fzo then (signBit f neg, excUf ||| excNx)
    else (packF f neg r.1 q, if r.2 then (if tiny then excUf ||| excNx else excNx) else 0)

/-- Round of an exact value; zero keeps the given sign. -/
def roundF (f : Fmt) (v : FEnv) (neg : Bool) (m : Nat) (e : Int) (sticky : Bool := false) : Nat × Exc :=
  if m = 0 then (signBit f neg, 0) else roundMag f v neg m e sticky

/-- A value written in a format: NaN canonical, infinities kept, numbers rounded. -/
def writeF (f : Fmt) (v : FEnv) : FVal → Nat × Exc
  | .nan s => (f.nan, if s then excIv else 0)
  | .inf n => (f.infBits n, 0)
  | .fin n m e => roundF f v n m e

/-- The sign of a value. -/
def FVal.neg : FVal → Bool
  | .nan _ => false
  | .inf n => n
  | .fin n _ _ => n
def FVal.isNan : FVal → Bool
  | .nan _ => true
  | _ => false
def FVal.isSnan : FVal → Bool
  | .nan s => s
  | _ => false
def FVal.isZero : FVal → Bool
  | .fin _ m _ => m = 0
  | _ => false
def FVal.negate : FVal → FVal
  | .nan s => .nan s
  | .inf n => .inf (!n)
  | .fin n m e => .fin (!n) m e

/-- An exact product; 0 times infinity is an invalid term, given as a signalling NaN. -/
def mulF : FVal → FVal → FVal
  | .nan s, y => .nan (s || y.isSnan)
  | x, .nan s => .nan (x.isSnan || s)
  | .inf a, y => if y.isZero then .nan true else .inf (a != y.neg)
  | x, .inf b => if x.isZero then .nan true else .inf (x.neg != b)
  | .fin a m e, .fin b n k => .fin (a != b) (m * n) (e + k)

/-- The least exponent among finite terms. -/
def minExp : List FVal → Int
  | [] => 0
  | [.fin _ _ e] => e
  | .fin _ _ e :: ts => min e (minExp ts)
  | _ :: ts => minExp ts

/-- The exact sum of finite terms at exponent e0. -/
def sumAt (e0 : Int) : List FVal → Int
  | [] => 0
  | .fin n m e :: ts =>
    let z : Int := (m * 2 ^ (e - e0).toNat : Nat)
    (if n then -z else z) + sumAt e0 ts
  | _ :: ts => sumAt e0 ts

/-- FusedSum over its terms, products included (R176); `iv` says that some input raised invalid. -/
def fusedTerms (f : Fmt) (v : FEnv) (ts : List FVal) : Nat × Exc :=
  let infs := ts.filter fun t => match t with | .inf _ => true | _ => false
  if ts.any FVal.isNan then
    (f.nan, if ts.any FVal.isSnan || (infs.any FVal.neg && infs.any fun t => !t.neg) then excIv else 0)
  else
    match infs with
    | t :: rest => if rest.any (fun u => u.neg != t.neg) then (f.nan, excIv) else (f.infBits t.neg, 0)
    | [] =>
      let e0 := minExp ts
      let s := sumAt e0 ts
      if s = 0 then (signBit f (ts.all FVal.neg || v.rm == 3), 0)
      else roundF f v (s < 0) s.natAbs e0

/-- FusedSum(c, a, b): one rounding of c plus the products (R176). -/
def fusedSum (f : Fmt) (v : FEnv) (c : FVal) (as bs : List FVal) : Nat × Exc :=
  fusedTerms f v (c :: List.zipWith mulF as bs)

/-- IEEE 754 addition: two zeros of one sign keep it, where FusedSum's rule under RDN would not (07 R185). -/
def addF (f : Fmt) (v : FEnv) (x y : FVal) : Nat × Exc :=
  if x.isZero && y.isZero && x.neg == y.neg then (signBit f x.neg, 0) else fusedTerms f v [x, y]

/-- IEEE 754 subtraction (07 R185). -/
def subF (f : Fmt) (v : FEnv) (x y : FVal) : Nat × Exc := addF f v x y.negate
def mulRF (f : Fmt) (v : FEnv) (x y : FVal) : Nat × Exc := writeF f v (mulF x y)

/-- Division (07 R198). -/
def divF (f : Fmt) (v : FEnv) (x y : FVal) : Nat × Exc :=
  let neg := x.neg != y.neg
  match x, y with
  | .nan s, y => (f.nan, if s || y.isSnan then excIv else 0)
  | _, .nan s => (f.nan, if s then excIv else 0)
  | .inf _, .inf _ => (f.nan, excIv)
  | .inf _, _ => (f.infBits neg, 0)
  | _, .inf _ => (signBit f neg, 0)
  | .fin _ m e, .fin _ n k =>
    if n = 0 then (if m = 0 then (f.nan, excIv) else (f.infBits neg, excDz))
    else if m = 0 then (signBit f neg, 0)
    else
      let sh := Nat.log2 n + f.p + 4
      let a := m * 2 ^ sh
      roundF f v neg (a / n) (e - k - sh) (a % n != 0)

/-- Square root (07 R198). -/
def sqrtF (f : Fmt) (v : FEnv) : FVal → Nat × Exc
  | .nan s => (f.nan, if s then excIv else 0)
  | .inf n => if n then (f.nan, excIv) else (f.infBits false, 0)
  | .fin n m e =>
    if m = 0 then (signBit f n, 0)
    else if n then (f.nan, excIv)
    else
      let sh := 2 * f.p + 8
      let odd := ((e - sh) % 2).toNat
      let a := m * 2 ^ (sh + odd)
      let r := Nat.sqrt a
      roundF f v false r ((e - sh - odd) / 2) (r * r != a)

/-- Comparison of numbers: negative, zero or positive as x is below, equal to or above y; NaN is the caller's. -/
def cmpF : FVal → FVal → Int
  | .inf a, .inf b => if a = b then 0 else if a then -1 else 1
  | .inf a, _ => if a then -1 else 1
  | _, .inf b => if b then 1 else -1
  | x, y => sumAt (minExp [x, y.negate]) [x, y.negate]

/-- minimumNumber and maximumNumber (07 R186): the chosen operand's bits as read. -/
def minMaxF (f : Fmt) (isMax : Bool) (x y : FVal) : Nat × Exc :=
  let iv := if x.isSnan || y.isSnan then excIv else 0
  let e := FEnv.rne
  if x.isNan then (if y.isNan then (f.nan, iv) else ((writeF f e y).1, iv))
  else if y.isNan then ((writeF f e x).1, iv)
  else
    let c := cmpF x y
    let xLess : Bool := c < 0 || (c = 0 && x.neg && !y.neg)
    ((writeF f e (if xLess != isMax then x else y)).1, iv)

/-- A value rounded to an integral value in the effective mode (07 R189). -/
def integralF (rm : Nat) : FVal → FVal
  | .fin n m e => if e ≥ 0 then .fin n m e else .fin n (roundAt rm n m e false 0).1 0
  | x => x

/-- frnd (07 R189): no NX, no UF, no flush. -/
def frndF (f : Fmt) (rm : Nat) (x : FVal) : Nat × Exc :=
  match x with
  | .nan s => (f.nan, if s then excIv else 0)
  | y => ((writeF f FEnv.rne (integralF rm y)).1, 0)

/-- A float converted to an integer type (07 R191). -/
def ftoiF (sgn : Bool) (w : Nat) (rm : Nat) (x : FVal) : Nat × Exc :=
  match x with
  | .nan _ => (0, excIv)
  | .inf n => (wrapInt w (if n then minOf sgn w else maxOf sgn w), excIv)
  | .fin n m e =>
    match integralF rm (.fin n m e) with
    | .fin n' m' e' =>
      let mag : Int := (m' * 2 ^ e'.toNat : Nat)
      let y := if n' then -mag else mag
      if y < minOf sgn w then (wrapInt w (minOf sgn w), excIv)
      else if y > maxOf sgn w then (wrapInt w (maxOf sgn w), excIv)
      else (wrapInt w y, if cmpF (.fin n m e) (.fin n' m' e') = 0 then 0 else excNx)
    | _ => (0, 0)

/-- An integer converted to a float (07 R192). -/
def itofF (f : Fmt) (v : FEnv) (z : Int) : Nat × Exc := roundF f v (z < 0) z.natAbs 0

/-- x times 2^j (07 R193). -/
def scaleF (f : Fmt) (v : FEnv) (x : FVal) (j : Int) : Nat × Exc :=
  match x with
  | .fin n m e => roundF f v n m (e + j)
  | y => writeF f v y

/-- The class bits of fclass (07 R188), from the raw bits. -/
def classF (f : Fmt) (x : Nat) : Nat :=
  match readF f false x with
  | .nan s => if s then 2 ^ 8 else 2 ^ 9
  | .inf n => if n then 1 else 2 ^ 7
  | .fin n m e =>
    if m = 0 then (if n then 2 ^ 3 else 2 ^ 4)
    else if m < 2 ^ (f.p - 1) ∧ e = f.emin - (f.p - 1 : Nat) then (if n then 2 ^ 2 else 2 ^ 5)
    else (if n then 2 else 2 ^ 6)

/-- fcmp's ten-way truth (07 R187): 0 eq, 1 ne, 2 lt, 3 le, 4 gt, 5 ge, 6 un, 7 or. -/
def condF (cond : Nat) (x y : FVal) : Bool :=
  let un := x.isNan || y.isNan
  let c := cmpF x y
  match cond with
  | 0 => !un && c = 0
  | 1 => un || c ≠ 0
  | 2 => !un && c < 0
  | 3 => !un && c ≤ 0
  | 4 => !un && c > 0
  | 5 => !un && c ≥ 0
  | 6 => un
  | _ => !un

/-! Tapered formats. -/

/-- TF8 or TF6 (R163, R164): bits of a magnitude code, first-field width, least and greatest magnitude exponents. -/
structure TFmt where
  mbits : Nat
  ebits : Nat
  maxExp : Nat
deriving DecidableEq, Repr, Inhabited

def tf8 : TFmt := { mbits := 7, ebits := 2, maxExp := 24 }
def tf6 : TFmt := { mbits := 5, ebits := 1, maxExp := 8 }

/-- Length of the run of bits equal to r from bit i down. -/
def runLen (m : Nat) (r : Bool) : Nat → Nat
  | 0 => 0
  | i + 1 => if bitAt m i = r then runLen m r i + 1 else 0

/-- The magnitude of code M (R163, R164) as `f · 2^e`; M = 0 is 0. -/
def tfMag (t : TFmt) (m : Nat) : Nat × Int :=
  if m = 0 then (0, 0)
  else
    let r := bitAt m (t.mbits - 1)
    let len := runLen m r t.mbits
    let k : Int := if r then (len : Int) - 1 else -(len : Int)
    let rest := t.mbits - len - 1
    let ebn := min t.ebits rest
    let e := bitsOf m (rest - ebn) ebn * 2 ^ (t.ebits - ebn)
    let nf := rest - ebn
    (2 ^ nf + bitsOf m 0 nf, 2 ^ t.ebits * k + e - nf)

/-- The value of a tapered code (R163 to R166): NV is a quiet NaN. -/
def readTF (t : TFmt) (code : Nat) : FVal :=
  let neg := bitAt code t.mbits
  let m := bitsOf code 0 t.mbits
  if m = 0 then (if neg then .nan false else .fin false 0 0)
  else .fin neg (tfMag t m).1 (tfMag t m).2

/-- Compare `m · 2^e` with the magnitude of a code. -/
def cmpMag (m : Nat) (e : Int) (t : TFmt) (code : Nat) : Int :=
  cmpF (.fin false m e) (.fin false (tfMag t code).1 (tfMag t code).2)

/-- The largest code whose magnitude is at most `m · 2^e`, searching down from a bound. -/
def tfLo (m : Nat) (e : Int) (t : TFmt) : Nat → Nat
  | 0 => 0
  | c + 1 => if cmpMag m e t (c + 1) ≥ 0 then c + 1 else tfLo m e t c

/-- RoundToTF (R167). -/
def roundTF (t : TFmt) (rm : Nat) (x : FVal) : Nat × Exc :=
  let mmax := 2 ^ t.mbits - 1
  let s := fun (neg : Bool) (c : Nat) => if c = 0 then 0 else (if neg then 2 ^ t.mbits else 0) + c
  match x with
  | .nan _ => (2 ^ t.mbits, excIv)
  | .inf n => (s n mmax, excOf ||| excNx)
  | .fin n m e =>
    if m = 0 then (0, 0)
    else if cmpF (.fin false m e) (.fin false 1 t.maxExp) ≥ 0 then
      (s n mmax, if cmpF (.fin false m e) (.fin false 1 t.maxExp) > 0 then excOf ||| excNx else 0)
    else
      let lo := tfLo m e t mmax
      if lo ≠ 0 ∧ cmpMag m e t lo = 0 then (s n lo, 0)
      else
        let hi := lo + 1
        let exc := excNx ||| (if lo = 0 then excUf else 0)
        let a : FVal := .fin false m e
        let l : FVal := .fin false (tfMag t lo).1 (tfMag t lo).2
        let h : FVal := .fin false (tfMag t hi).1 (tfMag t hi).2
        -- sign of 2a - (l + h): the distance to each neighbour, in value
        let ts := [a, a, l.negate, h.negate]
        let d := sumAt (minExp ts) ts
        let c := match rm with
          | 1 => lo
          | 2 => if n then lo else hi
          | 3 => if n then hi else lo
          | 4 => if d ≥ 0 then hi else lo
          | _ => if d > 0 then hi else if d < 0 then lo else if lo % 2 = 0 then lo else hi
        (s n c, exc)

/-! Special functions (07 R199 to R201). Each is computed to about 2^-100 in whole numbers, and the free value of Config
is taken where it meets the bound of R200. -/

/-- Sum of z^k / k! with fx fraction bits, from term k on. -/
def expSeries (fx z : Nat) : Nat → Nat → Nat → Nat
  | 0, _, _ => 0
  | n + 1, k, t => t + expSeries fx z n (k + 1) (t * z / 2 ^ fx / (k + 1))

/-- 2^f for a fraction f with 200 fraction bits, with 200 fraction bits. -/
def exp2Frac (f : Nat) : Nat := expSeries 200 (f * (Config.ln2Fix / 2 ^ 56) / 2 ^ 200) 60 0 (2 ^ 200)

/-- n bits of log2 of y, 1 ≤ y < 2 with 256 fraction bits. -/
def log2Bits : Nat → Nat → Nat → Nat
  | 0, _, acc => acc
  | n + 1, y, acc =>
    let s := y * y / 2 ^ 256
    if s ≥ 2 ^ 257 then log2Bits n (s / 2) (2 * acc + 1) else log2Bits n s (2 * acc)

/-- Alternating series of sin (k = 1) or cos (k = 0) at z with 200 fraction bits: next term t, sign alternating. -/
def trigSeries (z : Nat) : Nat → Nat → Nat → Int
  | 0, _, _ => 0
  | n + 1, k, t => (t : Int) - trigSeries z n (k + 2) (t * z / 2 ^ 200 * z / 2 ^ 200 / ((k + 1) * (k + 2)))

/-- sin and cos of `m · 2^e`, reduced exactly, as integers with 200 fraction bits (R199). -/
def sinCosFix (m : Nat) (e : Int) : Int × Int :=
  let twoPi := 2 * Config.piFix
  -- the angle with 512 fraction bits; e ≥ -149, so it is exact, and the quotient is below 2^126
  let a := if e + 512 ≥ 0 then m * 2 ^ (e + 512).toNat else m / 2 ^ (-(e + 512)).toNat
  let r := a % twoPi
  let half := twoPi / 4
  let quad := r / half
  let z := (r % half) / 2 ^ 312
  let sn := trigSeries z 60 1 z
  let cs := trigSeries z 60 0 (2 ^ 200)
  match quad with
  | 0 => (sn, cs)
  | 1 => (cs, -sn)
  | 2 => (-sn, -cs)
  | _ => (-cs, sn)

/-- The exact function to about 2^-100: numerator with 200 fraction bits (an integer and a power of two).
op: 4 exp2, 5 log2, 6 sin, 7 cos, 8 tanh. -/
def approxFn (op : Nat) (neg : Bool) (m : Nat) (e : Int) : Int × Int :=
  match op with
  | 4 =>
    -- x with 200 fraction bits, then whole and fraction parts
    let x : Int := (if neg then -1 else 1) * ((if e + 200 ≥ 0 then m * 2 ^ (e + 200).toNat else m / 2 ^ (-(e + 200)).toNat : Nat) : Int)
    let j := x / 2 ^ 200
    let f := (x % 2 ^ 200).toNat
    (exp2Frac f, j - 200)
  | 5 =>
    let l := Nat.log2 m
    let y := m * 2 ^ 256 / 2 ^ l
    let fr := log2Bits 130 y 0
    ((e + l) * 2 ^ 130 + fr, -130)
  | 6 => let s := (sinCosFix m e).1; (if neg then -s else s, -200)
  | 7 => ((sinCosFix m e).2, -200)
  | _ =>
    -- tanh a = (E - 1) / (E + 1), E = 2^(2a / ln 2)
    let a := if e + 200 ≥ 0 then m * 2 ^ (e + 200).toNat else m / 2 ^ (-(e + 200)).toNat
    let x := 2 * a * 2 ^ 256 / Config.ln2Fix
    let j := x / 2 ^ 200
    let big := exp2Frac (x % 2 ^ 200) * 2 ^ j
    let t : Int := ((big - 2 ^ 200) * 2 ^ 200 / (big + 2 ^ 200) : Nat)
    (if neg then -t else t, -200)

/-- The bound of R200 in ulps, by function and whether the format is FP32. -/
def boundUlp (op : Nat) (f : Fmt) : Nat :=
  if f = .f32 then (if op ≤ 2 then 1 else 2) else 1

/-- The absolute bound of R200, as a power of two. -/
def boundAbs (op : Nat) (f : Fmt) : Option Int :=
  if op = 5 ∨ op = 6 ∨ op = 7 then some (if f = .f32 then -22 else -10) else none

/-- The bound of R200 on the error of a result whose exact magnitude lies in the binade of 2^l: the larger of the two bounds. -/
def boundAt (op : Nat) (f : Fmt) (l : Int) : FVal :=
  let rel : FVal := .fin false (boundUlp op f) (max l f.emin - (f.p - 1 : Nat))
  match boundAbs op f with
  | some a => if cmpF rel (.fin false 1 a) < 0 then .fin false 1 a else rel
  | none => rel

/-- A result's place among the results of a format, in the order of their values: its magnitude's bits with its sign. -/
def ordOf (f : Fmt) (b : Nat) : Int :=
  if bitAt b (f.bits - 1) then -((b % 2 ^ (f.bits - 1) : Nat) : Int) else (b : Int)

/-- The place of an exact sum of finite values, rounded as rm says. -/
def sumOrd (f : Fmt) (rm : Nat) (xs : List FVal) : Int :=
  let z := sumAt (minExp xs) xs
  ordOf f (roundF f { FEnv.rne with rm := rm } (z < 0) z.natAbs (minExp xs)).1

/-- The places of the least and the greatest result near the exact magnitude `z · 2^k` (R200). No result at a binade's lower end lies
further below it than the binade below allows (notes/assumptions/78.md). -/
def leastOrd (op : Nat) (f : Fmt) (z : Nat) (k : Int) : Int :=
  let l := k + Nat.log2 z
  max (sumOrd f 2 [.fin false z k, (boundAt op f l).negate]) (sumOrd f 2 [.fin false 1 l, (boundAt op f (l - 1)).negate])
def greatestOrd (op : Nat) (f : Fmt) (z : Nat) (k : Int) : Int := sumOrd f 3 [.fin false z k, boundAt op f (k + Nat.log2 z)]

/-- Where a special function is evaluated on a piece of its domain on which it is monotonic (R199): the piece, the input's place on it in
the order in which the function rises, and the places of the least and greatest results that the exact values of R201 around it
leave. -/
structure Piece where
  id : Nat
  key : Nat
  lo : Int
  hi : Int

/-- A result's place found bit by bit from bit n down: a place c is reached where the bounds force it, or from the input on that Config
gives for c. Whatever Config gives, the answers rise with the key, and each monotonic function is the answer to some Config. -/
def reachOrd (op : Nat) (f : Fmt) (x : Piece) (lo hi : Nat) : Nat → Nat → Nat
  | 0, r => r
  | n + 1, r =>
    let c := r + 2 ^ n
    reachOrd op f x lo hi n
      (if c ≤ lo || decide (c ≤ hi) && decide (Config.special op f.p x.id c ≤ x.key) then c else r)

/-- The place of the result that a special function answers near an exact value of sign `neg` and magnitude `z · 2^k`: some function
that is monotonic on the piece and meets R200 (notes/assumptions/78.md). -/
def monotoneOrd (op : Nat) (f : Fmt) (x : Piece) (neg : Bool) (z : Nat) (k : Int) : Int :=
  let lo := max x.lo (if neg then -greatestOrd op f z k else leastOrd op f z k)
  let hi := min x.hi (if neg then -leastOrd op f z k else greatestOrd op f z k)
  let base : Int := 2 ^ f.bits
  (reachOrd op f x (lo + base).toNat (hi + base).toNat (f.bits + 1) 0 : Nat) - base

/-- The result of a special function at a value the table of R201 does not list; `flip` turns its sign. The sign of a result of zero is
free. -/
def boundedF (op : Nat) (f : Fmt) (v : FEnv) (x : Piece) (flip neg : Bool) (z : Nat) (k : Int) : Nat × Exc :=
  let near := roundF f { v with rm := 0 } (neg != flip) z k true
  if bitAt near.2 2 then near
  else
    let o := monotoneOrd op f x neg z k
    let c := o.natAbs
    let n : Bool := (if o = 0 then bitAt (Config.special op f.p x.id (2 ^ 40 + x.key)) 0 && decide (x.lo < 0) else decide (o < 0)) != flip
    let sub : Bool := c < 2 ^ (f.p - 1)
    if sub && c ≠ 0 && v.fzo then (signBit f n, excUf ||| excNx)
    else (signBit f n + c, excNx ||| (if sub then excUf else 0))

/-- A place on a piece on which the function falls. -/
def falling (magBits : Nat) : Nat := 2 ^ 32 - magBits

/-- The magnitude's bits of a power of two; below the least subnormal, 0. -/
def powBits (f : Fmt) (j : Int) : Nat := if j < f.emin - (f.p - 1 : Nat) then 0 else min (f.maxBits false) (writeF f FEnv.rne (.fin false 1 j)).1
/-- The magnitude's bits of a whole number. -/
def wholeBits (f : Fmt) (n : Nat) : Nat := (writeF f FEnv.rne (.fin false n 0)).1

/-- A piece whose results lie between the powers of two around `z · 2^k`: the exact values of frcp, frsq and fexp2. -/
def binade (f : Fmt) (id key : Nat) (z : Nat) (k : Int) : Piece :=
  { id := id, key := key, lo := powBits f (k + Nat.log2 z), hi := (max 1 (powBits f (k + Nat.log2 z + 1)) : Nat) }

/-- The number of quarter turns in `m · 2^e`. -/
def quarterTurns (m : Nat) (e : Int) : Nat :=
  (if e + 512 ≥ 0 then m * 2 ^ (e + 512).toNat else m / 2 ^ (-(e + 512)).toNat) / (2 * Config.piFix / 4)

/-- frcp (R199 to R201). -/
def frcpF (f : Fmt) (v : FEnv) (xb : Nat) : Nat × Exc :=
  match readF f v.fzi xb with
  | .nan s => (f.nan, if s then excIv else 0)
  | .inf n => (signBit f n, 0)
  | .fin n m e =>
    if m = 0 then (f.infBits n, excDz)
    else
      let q := divF f { v with rm := 0 } (.fin false 1 0) (.fin n m e)
      if f = .f32 ∧ bitAt q.2 4 ∧ !bitAt q.2 2 then
        let sh := Nat.log2 m + 160
        let z := 2 ^ sh / m
        boundedF 1 f v (binade f (if n then 1 else 0) (falling (xb % 2 ^ (f.bits - 1))) z (-e - sh)) n false z (-e - sh)
      else (q.1, if bitAt (classF f q.1) 2 || bitAt (classF f q.1) 5 then q.2 ||| excNx else q.2)

/-- frsq (R199 to R201). -/
def frsqF (f : Fmt) (v : FEnv) (xb : Nat) : Nat × Exc :=
  match readF f v.fzi xb with
  | .nan s => (f.nan, if s then excIv else 0)
  | .inf n => if n then (f.nan, excIv) else (0, 0)
  | .fin n m e =>
    if m = 0 then (f.infBits n, excDz)
    else if n then (f.nan, excIv)
    else
      -- 1 / sqrt(m 2^e) with e made even
      let odd := (e % 2).toNat
      let mm := m * 2 ^ odd
      let sh := 2 * (Nat.log2 mm + 100)
      let a := 2 ^ (2 * sh) / mm
      let r := Nat.sqrt a
      let k : Int := -((e - odd) / 2) - sh
      let exact : Bool := r * r * mm = 2 ^ (2 * sh)
      let q := roundF f { v with rm := 0 } false r k (!exact)
      if f = .f32 ∧ !exact ∧ bitAt q.2 4 then boundedF 2 f v (binade f 0 (falling xb) r k) false false r k else q

/-- The other special functions (R199 to R201). -/
def specialF (op : Nat) (f : Fmt) (v : FEnv) (xb : Nat) : Nat × Exc :=
  match readF f v.fzi xb with
  | .nan s => (f.nan, if s then excIv else 0)
  | .inf n =>
    match op with
    | 4 => if n then (0, 0) else (f.infBits false, 0)
    | 5 => if n then (f.nan, excIv) else (f.infBits false, 0)
    | 8 => (writeF f v (.fin n 1 0)).1 |> fun b => (b, 0)
    | _ => (f.nan, excIv)
  | .fin n m e =>
    let x : FVal := .fin n m e
    let mag : FVal := .fin false m e
    let magBits := xb % 2 ^ (f.bits - 1)
    let tinyLim : FVal := .fin false 1 (if f = .f32 then -12 else -5)
    -- what a tiny input leaves above it, and one
    let belowTiny := (writeF f FEnv.rne tinyLim).1 - 1
    let one := (writeF f FEnv.rne (.fin false 1 0)).1
    if m = 0 then
      match op with
      | 4 => (one, 0)
      | 5 => (f.infBits true, excDz)
      | 7 => (one, 0)
      | _ => (signBit f n, 0)
    else
      match op with
      | 4 =>
        let i := integralF 1 x
        let key := if n then 2 ^ 32 - magBits else 2 ^ 32 + magBits
        let low := fun (j : Int) =>
          let r := boundedF 4 f v (binade f 0 key 1 j) false false 1 j
          (r.1, r.2 ||| excUf ||| excNx)
        if cmpF mag (.fin false 1 9) ≥ 0 then
          -- far outside every format: overflow, or far below the least subnormal
          if n then low (-600) else roundF f { v with rm := 0 } false 1 600
        else if cmpF x i = 0 then
          match i with
          | .fin n' m' e' =>
            let j : Int := (if n' then -1 else 1) * ((m' * 2 ^ e'.toNat : Nat) : Int)
            if j < f.emin then low j else roundF f { v with rm := 0 } false 1 j
          | _ => (one, 0)
        else
          let a := approxFn 4 n m e
          let r := boundedF 4 f v (binade f 0 key a.1.natAbs a.2) false false a.1.natAbs a.2
          (r.1, if cmpF x (.fin (f.emin < 0) f.emin.natAbs 0) < 0 then r.2 ||| excUf ||| excNx else r.2)
      | 5 =>
        if n then (f.nan, excIv)
        else if m = 2 ^ Nat.log2 m then itofF f { v with rm := 0 } (e + Nat.log2 m)
        else
          let a := approxFn 5 n m e
          let whole := a.1.natAbs / 2 ^ (-a.2).toNat
          let lo : Int := wholeBits f whole
          let hi : Int := wholeBits f (whole + 1)
          boundedF 5 f v { id := 0, key := magBits, lo := if a.1 < 0 then -hi else lo, hi := if a.1 < 0 then -lo else hi } false
            (a.1 < 0) a.1.natAbs a.2
      | 8 =>
        if cmpF mag tinyLim < 0 then ((writeF f { v with rm := 0 } x).1,
          if bitAt (classF f xb) 2 || bitAt (classF f xb) 5 then excUf ||| excNx else 0)
        else if cmpF mag (match f with | .f32 => .fin false 10 0 | .f16 => .fin false 9 (-1) | .bf16 => .fin false 4 0) ≥ 0 then
          ((writeF f FEnv.rne (.fin n 1 0)).1, excNx)
        else
          let a := approxFn 8 false m e
          boundedF 8 f v { id := 0, key := magBits, lo := belowTiny, hi := one } n false a.1.natAbs a.2
      | _ =>
        if op = 6 ∧ cmpF mag tinyLim < 0 then ((writeF f { v with rm := 0 } x).1,
          if bitAt (classF f xb) 2 || bitAt (classF f xb) 5 then excUf ||| excNx else 0)
        else
          let a := approxFn op false m e
          let q := quarterTurns m e
          -- the half turn: sine turns at its odd quarters, cosine at its even ones
          let id := if op = 6 then (q + 1) / 2 else q / 2
          let rises : Bool := (id % 2 = 0) = (op = 6)
          let one' : Int := one
          boundedF op f v { id := id, key := if rises then magBits else falling magBits, lo := if op = 6 ∧ id = 0 then belowTiny else -one', hi := one }
            (op = 6 && n) (a.1 < 0) a.1.natAbs a.2

/-- Wrap32(acc + s) (R177). -/
def wrap32 (z : Int) : Nat := wrapInt 32 z

end Sys2Proof.Machine
end

