-- ==== Sys2Proof/Machine/Flags.lean ====
section
/-!
DEFINITION. Sys2Proof/Machine/Flags.lean: the truth of every comparison that writes a predicate or wakes a waiter, and
the exception flags (02 R58, R68, 07 R187, 15 R351, 06 R173).
-/

namespace Sys2Proof.Machine

/-- The conditions of cmp (02 R58): 0 eq, 1 ne, 2 lt, 3 le, 4 gt, 5 ge. -/
def intCond (cond : Nat) (x y : Int) : Bool :=
  match cond with
  | 0 => x = y
  | 1 => x ≠ y
  | 2 => x < y
  | 3 => x ≤ y
  | 4 => x > y
  | _ => x ≥ y

/-- The conditions of waitc (15 R351): 0 eq, 1 ne, 2 lt, 3 ge, 4 mset, 5 mclr. -/
def waitCond (cond : Nat) (sgn : Bool) (w x v : Nat) : Bool :=
  match cond with
  | 0 => x = v
  | 1 => x ≠ v
  | 2 => readInt sgn w x < readInt sgn w v
  | 3 => readInt sgn w x ≥ readInt sgn w v
  | 4 => x &&& v = v
  | _ => x &&& v = 0

/-- The truth table of plop (02 R68). -/
def plopBit (tt : Nat) (a b : Bool) : Bool := bitAt tt (2 * a.toNat + b.toNat)

/-- The exceptions that MODE's enables let into FPFLAGS (06 R170, R173). -/
def enabledExc (mode : Word) (e : Exc) : Exc := e &&& wb mode 8 5

/-- FPFLAGS after a word's exceptions are ORed in (06 R173, R175). -/
def orFlags (flags mode : Word) (e : Exc) : Word := flags ||| BitVec.ofNat 64 (enabledExc mode e)

/-- What an swr or setmode leaves in MODE and FPFLAGS: reserved bits read 0 (00 R5, 06 R170, R173). -/
def modeMask : Word := 0x1F3F
def fpflagsMask : Word := 0x1F

/-- The rounding mode of a field value, MODE's codes (06 R169, R170). -/
def rmOf (mode : Word) (rnd : Nat) : Nat :=
  if rnd = 0 then (if wb mode 0 3 ≤ 4 then wb mode 0 3 else 0) else rnd - 1

/-- How a float word rounds: MODE as it stands at issue, with the word's rnd and sat (06 R169 to R172). -/
def envOf (mode : Word) (rnd : Nat) (sat : Bool) : FEnv :=
  { rm := rmOf mode rnd, sat := sat || wb mode 5 1 = 1, fzi := wb mode 3 1 = 1, fzo := wb mode 4 1 = 1 }

end Sys2Proof.Machine
end

