-- ==== Sys2Proof/Machine/Phys.lean ====
section
/-!
DEFINITION. Sys2Proof/Machine/Phys.lean: accessors of the device, physical memory, the device-control region, page walks,
permission checks, shadow routing and the reading and writing of bytes (10 R229 to R241, 09 R219 to R221, 11 R276,
14 R328 to R330, R338, 21 R430 to R442).
-/

namespace Sys2Proof.Machine

/-! Accessors. -/

def Mach.part (m : Mach) (p : Nat) : Part := Tbl.get Part.reset m.parts p
def Mach.setPart (m : Mach) (p : Nat) (x : Part) : Mach := { m with parts := Tbl.set Part.reset m.parts p x }
def Mach.core (m : Mach) (die core : Nat) : Core := Tbl.get Core.empty m.cores (64 * die + core)
def Mach.setCore (m : Mach) (die core : Nat) (x : Core) : Mach :=
  { m with cores := Tbl.set Core.empty m.cores (64 * die + core) x }
def Mach.mc (m : Mach) (die : Nat) : MemDie := Tbl.get MemDie.reset m.mcs die
def Mach.setMc (m : Mach) (die : Nat) (x : MemDie) : Mach := { m with mcs := Tbl.set MemDie.reset m.mcs die x }
def Mach.grp (m : Mach) (g : Nat) : Group := m.groups.getD g default
def Mach.setGrp (m : Mach) (g : Nat) (x : Group) : Mach := { m with groups := setAt m.groups g x }
def Mach.team (m : Mach) (t : Nat) : Team := m.teams.getD t default
def Mach.setTeam (m : Mach) (t : Nat) (x : Team) : Mach := { m with teams := setAt m.teams t x }
def Mach.grid (m : Mach) (g : Nat) : Grid := m.grids.getD g default
def Mach.setGrid (m : Mach) (g : Nat) (x : Grid) : Mach := { m with grids := setAt m.grids g x }
def Mach.ctx (m : Mach) (p c : Nat) : Context := Tbl.get { enabled := false, root := 0 } (m.part p).ctxs c

/-! The dies and their partitions (21 R438, R441). -/

def siteOf (die : Nat) : Nat := die % 6
def isGeo (die : Nat) : Bool := siteOf die = 0
def isShading (die : Nat) : Bool := siteOf die = 1 || siteOf die = 2
def isMemDie (die : Nat) : Bool := siteOf die ≥ 3
def Package.beds (k : Package) : Nat := if k.twoBeds then 2 else 1
def Package.has (k : Package) (die : Nat) : Bool := die < 6 * k.beds && bitAt k.present die

/-- Which half of its bed die a die, or a geometry core, belongs to (R438). -/
def halfOf (die core : Nat) : Nat :=
  match siteOf die with
  | 0 => if core / 6 ≤ 1 then 0 else 1
  | 1 => 0
  | 2 => 1
  | 4 => 1
  | _ => 0

/-- The partition of a die, or of a geometry core, in a mode (R438). -/
def partIn (k : Package) (mode die core : Nat) : Nat :=
  match mode with
  | 0 => 0
  | 1 => if k.beds = 2 then die / 6 else halfOf die core
  | _ => 2 * (die / 6) + halfOf die core
def partOf (k : Package) (die core : Nat) : Nat := partIn k k.cur die core
def partCount (mode : Nat) : Nat := match mode with | 0 => 1 | 1 => 2 | _ => 4

/-- The partition's memory-cache dies in ascending DIEID (10 R230). -/
def memDiesIn (k : Package) (mode p : Nat) : List Nat :=
  (List.range 12).filter fun d => k.has d && isMemDie d && partIn k mode d 0 = p
def memDies (m : Mach) (p : Nat) : List Nat := memDiesIn m.pk m.pk.cur p
def nM (m : Mach) (p : Nat) : Nat := (memDies m p).length

/-- The home die of an offset in a partition's local memory (10 R230). -/
def homeDie (m : Mach) (p off : Nat) : Nat := (memDies m p).getD (off / 4096 % nM m p) 3

/-- The cores of a die: columns and rows of its mesh (02 R85). -/
def meshCols (die : Nat) : Nat := if isGeo die then 6 else 8
def meshRows (die : Nat) : Nat := if isGeo die then 4 else 5
def coreCount (die : Nat) : Nat := if isGeo die then 24 else if isShading die then 40 else 0

/-! Physical keys: one number for each byte that exists. -/

def keyLocal (p off : Nat) : Nat := 2 ^ 44 + p * 2 ^ 42 + off
def keyHost (a : Nat) : Nat := 2 * 2 ^ 44 + a
def keyDev (p off : Nat) : Nat := 3 * 2 ^ 44 + p * 2 ^ 42 + off
def keyRemote (node part off : Nat) : Nat := 2 ^ 46 * (1 + 4 * node + part) + off
def keyRegion (key : Nat) : Nat := if key ≥ 2 ^ 46 then 4 else key / 2 ^ 44
def keyPart (key : Nat) : Nat := key / 2 ^ 42 % 4
def keyOff (key : Nat) : Nat := key % 2 ^ 42

/-- Where a bed die's routing table holds a destination: a Relmer node, or 65536 plus a die of the package (R444). -/
def routeAt (bed dst : Nat) : Nat := if dst < 65536 then 65536 * bed + dst else 131072 + 16 * bed + (dst - 65536)

/-- Whether an entry of a bed die's routing table leads somewhere: the route in force, primary or alternate, is up (R444).
An entry that management software has not written is up (notes/assumptions/3.md). -/
def routeUp (m : Mach) (bed dst : Nat) : Bool :=
  match m.pk.routes.find? fun r => r.1 = routeAt bed dst with
  | none => true
  | some r => !bitAt m.pk.links (if m.pk.alt.contains r.1 then r.2.2 else r.2.1)

/-- The half of its bed die, and the partition, that a Relmer port belongs to (R438). -/
def portHalf (port : Nat) : Nat := port % 8 / 4
def portPart (k : Package) (port : Nat) : Nat :=
  match k.cur with
  | 0 => 0
  | 1 => if k.beds = 2 then port / 8 else portHalf port
  | _ => 2 * (port / 8) + portHalf port

/-- A Relmer node is reachable for a partition when a bed die on which it has ports has a route to it (R438, R444). -/
def reachable (m : Mach) (p node : Nat) : Bool :=
  (List.range m.pk.beds).any fun b => ((List.range 8).any fun i => portPart m.pk (8 * b + i) = p) && routeUp m b node

/-- The key of a physical address of a partition; none where nothing exists (10 R229, 21 R440). Offsets of region 3 from 2^42
on are none of those listed: they share the keys of other unlisted ones. -/
def paKey (m : Mach) (p pa : Nat) : Option Nat :=
  match bitsOf pa 44 2 with
  | 0 => if pa < nM m p * 2 ^ 36 then some (keyLocal p pa) else none
  | 1 =>
    let t := bitsOf pa 42 2
    let off := bitsOf pa 0 42
    if t ≠ p ∧ t < partCount m.pk.cur ∧ off < nM m t * 2 ^ 36 then some (keyLocal t off) else none
  | 2 =>
    if bitAt pa 43 then
      let r := Tbl.get 0 (m.part p).rwin (bitsOf pa 35 8)
      if wb r 0 1 = 1 ∧ reachable m p (wb r 48 16) then
        some (keyRemote (wb r 48 16) (wb r 46 2) (wb r 35 9 * 2 ^ 35 + bitsOf pa 0 35))
      else none
    else some (keyHost (bitsOf pa 0 43))
  | _ => some (keyDev p (if pa % 2 ^ 44 < 2 ^ 42 then pa % 2 ^ 42 else 2 ^ 41 + pa % 2 ^ 41))

/-! The device-control region (21 R430, R431, R442, 18 R390). -/

def boolNat (b : Bool) : Nat := if b then 1 else 0

/-- A word of the enumeration table (R442). -/
def enumWord (m : Mach) (off : Nat) : Nat :=
  let cnt := fun (f : Nat → Bool) => ((List.range 12).filter fun d => m.pk.has d && f d).length
  if off = 0 then 0xC10E * 2 ^ 48 + 2 ^ 40 + cnt isGeo * 2 ^ 36 + cnt isShading * 2 ^ 32 + cnt isMemDie * 2 ^ 28 + m.pk.beds * 2 ^ 26
  else if off = 8 then m.pk.present
  else if off < 0x70 then
    let k := off / 8 - 2
    if m.pk.has k then
      2 ^ 63 + (if isGeo k then 1 else if isShading k then 2 else 3) * 2 ^ 60 + Config.family * 2 ^ 52 + m.pk.rev * 2 ^ 44
        + partOf m.pk k 0 * 2 ^ 40 + coreCount k * 2 ^ 32 + (if isMemDie k then 64 else 0) * 2 ^ 16 + k
    else 0
  else 0

/-- A control register of a partition, by its 8-byte offset (R431). -/
def ctlRead (m : Mach) (p off : Nat) : Nat :=
  let x := m.part p
  match off with
  | 0x00 => boolNat (m.part 0).err * 128 + boolNat m.pk.pend * 64 + m.pk.cur * 16 + m.pk.mode
  | 0x08 => partCount m.pk.cur * 16 + p
  | 0x10 => x.ctxbase.toNat
  | 0x18 => x.ctxctl.toNat
  | 0x20 => x.quota.toNat
  | 0x28 => x.weight.toNat
  | 0x30 => x.poolbase.toNat
  | 0x38 => x.poolsize.toNat
  | 0x40 => x.flogbase.toNat
  | 0x48 => x.flogsize.toNat
  | 0x50 => x.floghead
  | 0x58 => x.flogtail
  | 0x60 => boolNat x.flogovf * 2 ^ 32 + x.floglost
  | 0x68 => m.pk.links % 2 ^ 16
  | _ => 0

/-- A register of an SYE, by its 8-byte offset (18 R390). -/
def syeRead (m : Mach) (die off : Nat) : Nat :=
  let x := m.mc die
  match off with
  | 0x00 => x.ovbase.toNat
  | 0x08 => x.ovsize.toNat
  | 0x10 => x.swap.toNat
  | 0x18 => x.collto.toNat
  | 0x20 => x.unpin.toNat
  | 0x28 => x.ovframes.length * 2 ^ 32 + x.frames.length
  | 0x30 => min x.arms.length 4096 * 2 ^ 32 + x.mons.length
  | _ => 0

/-- The 8-byte word at an offset of region 3 (R430); offsets not listed read 0. -/
def devRead (m : Mach) (p off : Nat) : Nat :=
  if off < 0x100 then ctlRead m p off
  else if off < 0x900 then (Tbl.get 0 (m.part p).rwin ((off - 0x100) / 8)).toNat
  else if 0x10000 ≤ off ∧ off < 0x1C000 then
    let die := (off - 0x10000) / 0x1000
    if (memDies m p).contains die then syeRead m die ((off - 0x10000) % 0x1000) else 0
  else if 0x20000 ≤ off ∧ off < 0x20100 then enumWord m (off - 0x20000)
  else 0

/-- Whether any context of a partition is enabled. -/
def anyCtx (m : Mach) (p : Nat) : Bool := (m.part p).ctxs.any fun c => c.2.enabled

/-- A write to PMODE, which goes through partition 0 only (R439). -/
def pmodeWrite (m : Mach) (p v : Nat) : Mach :=
  if p ≠ 0 then m
  else
    let new := v % 4
    let x := m.part 0
    let x1 := if bitAt v 7 then { x with err := false } else x
    let twoOk := (List.range (partCount new)).all fun q =>
      (List.range 12).any (fun d => m.pk.has d && isShading d && partIn m.pk new d 0 = q) && !(memDiesIn m.pk new q).isEmpty
    let refused : Bool := new = 3 || (new = 2 && m.pk.beds = 1) || !twoOk || (List.range 4).any (anyCtx m)
    if refused then m.setPart 0 { x1 with err := true }
    else { m.setPart 0 x1 with pk := { m.pk with mode := new, pend := true } }

/-- A write to a control register of a partition (R431, R437, R439). `cov` says which bytes of the register the write covers:
a write that does not cover PMODE's mode, CTXCTL's op or FLOGLOST's ovf does not act on it (00 R4). A tail counts as above head
by their distance modulo 2^32 (DEDUCED, notes/assumptions/73.md). -/
def ctlWrite (m : Mach) (p off : Nat) (v : Word) (cov : Nat → Bool) : Mach :=
  let x := m.part p
  let n := v.toNat
  match off with
  | 0x00 => if cov 0 then pmodeWrite m p n else m
  | 0x10 => if anyCtx m p then m else m.setPart p { x with ctxbase := BitVec.ofNat 64 (n % 2 ^ 46) }
  | 0x18 =>
    let op := wb v 16 2
    if cov 2 ∧ (op = 1 ∨ op = 2) then
      m.setPart p { x with ctxctl := BitVec.ofNat 64 (2 ^ 30 + op * 2 ^ 16 + n % 4096), ctxops := x.ctxops ++ [(op, n % 4096)] }
    else m.setPart p { x with ctxctl := BitVec.ofNat 64 (wb x.ctxctl 30 2 * 2 ^ 30 + op * 2 ^ 16 + n % 4096) }
  | 0x20 =>
    if wb v 0 4 + wb v 4 4 + wb v 8 4 + wb v 12 4 > 16 then m
    else m.setPart p { x with quota := BitVec.ofNat 64 (n % 2 ^ 16) }
  | 0x28 =>
    m.setPart p { x with weight := BitVec.ofNat 64 (max 1 (wb v 4 4) * 16 + max 1 (wb v 0 4)) }
  | 0x30 => if anyCtx m p then m else m.setPart p { x with poolbase := BitVec.ofNat 64 (n % 2 ^ 46 / 2 ^ 16 * 2 ^ 16) }
  | 0x38 => if anyCtx m p then m else m.setPart p { x with poolsize := BitVec.ofNat 64 (n % 2 ^ 32) }
  | 0x40 => if anyCtx m p then m else m.setPart p { x with flogbase := BitVec.ofNat 64 (n % 2 ^ 46 / 2 ^ 12 * 2 ^ 12) }
  | 0x48 =>
    if anyCtx m p then m
    else m.setPart p { x with flogsize := BitVec.ofNat 64 (if 4 ≤ n % 16 then n % 16 else 4) }
  | 0x58 =>
    let up := (n + 2 ^ 32 - x.floghead) % 2 ^ 32
    if 0 < up ∧ up < 2 ^ 31 then m else m.setPart p { x with flogtail := n % 2 ^ 32 }
  | 0x60 => if cov 4 ∧ wb v 32 1 = 1 then m.setPart p { x with flogovf := false, floglost := 0 } else m
  | _ => m

/-- A write to a register of an SYE (18 R390). A change of req from 0 to 1 starts an unpin, which SYE_UNPIN performs. -/
def syeWrite (m : Mach) (p die off : Nat) (v : Word) : Mach :=
  let x := m.mc die
  let n := v.toNat
  let free : Bool := x.ovframes.isEmpty && x.staged = 0
  let fits := fun (base size : Nat) =>
    bitsOf base 44 2 = 0 &&
      (size = 0 || base % 2 ^ 46 + bitsOf size 16 16 * 2 ^ 20 + bitsOf size 0 16 * 4096 ≤ nM m p * 2 ^ 36)
  match off with
  | 0x00 =>
    let b := n % 2 ^ 46 / 2 ^ 16 * 2 ^ 16
    if free ∧ fits b x.ovsize.toNat then m.setMc die { x with ovbase := BitVec.ofNat 64 b } else m
  | 0x08 =>
    let z := n % 2 ^ 32
    if free ∧ bitsOf z 16 16 ≤ 64 ∧ fits x.ovbase.toNat z then m.setMc die { x with ovsize := BitVec.ofNat 64 z } else m
  | 0x10 => m.setMc die { x with swap := BitVec.ofNat 64 (n % 2 ^ 32) }
  | 0x18 => m.setMc die { x with collto := BitVec.ofNat 64 (max 1 (n % 2 ^ 32)) }
  | 0x20 =>
    if n % 2 = 1 ∧ wb x.unpin 0 1 = 0 then m.setMc die { x with unpin := 1, unpinning := true }
    else m.setMc die { x with unpin := BitVec.ofNat 64 (wb x.unpin 1 1 * 2 + n % 2) }
  | _ => m

/-- A write of some bytes of the 8-byte register at an offset of region 3 (R430); the other bytes of v are as they read. -/
def devWrite (m : Mach) (p off : Nat) (v : Word) (cov : Nat → Bool) : Mach :=
  if off < 0x100 then ctlWrite m p off v cov
  else if off < 0x900 then
    let x := m.part p
    let keep := v &&& ~~~(BitVec.ofNat 64 (0x7FFFFFFFE + 3 * 2 ^ 44))
    m.setPart p { x with rwin := Tbl.set 0 x.rwin ((off - 0x100) / 8) keep }
  else if 0x10000 ≤ off ∧ off < 0x1C000 then
    let die := (off - 0x10000) / 0x1000
    if (memDies m p).contains die then syeWrite m p die ((off - 0x10000) % 0x1000) v else m
  else m

/-! Bytes by physical key. -/

/-- One byte. -/
def rdByte (m : Mach) (key : Nat) : Byte :=
  if keyRegion key = 3 then
    BitVec.ofNat 8 (devRead m (keyPart key) (keyOff key / 8 * 8) / 2 ^ (8 * (keyOff key % 8)))
  else Tbl.get Memory.fill m.mem key

/-- n bytes from a key on. -/
def rdBytes (m : Mach) (key n : Nat) : List Byte := (List.range n).map fun i => rdByte m (key + i)

/-- n bytes as a number. -/
def rdNum (m : Mach) (key n : Nat) : Nat := ofBytes (rdBytes m key n)

/-- Bytes of plain memory written. -/
def putMem (mem : List Host.Cell) (key : Nat) : List Byte → List Host.Cell
  | [] => mem
  | b :: bs => putMem (Tbl.set Memory.fill mem key b) (key + 1) bs

/-- A poison mark stays until one write covers the whole line (10 R235). -/
def clearPoison (poison : List Nat) (key n : Nat) : List Nat :=
  poison.filter fun l => !(key ≤ 128 * l && 128 * l + 128 ≤ key + n)

/-- Whether any of n bytes lies in a poisoned line. -/
def poisoned (m : Mach) (key n : Nat) : Bool :=
  m.poison.any fun l => 128 * l < key + n && key < 128 * l + 128

/-! Completion counters, and a long-latency word that leaves those outstanding (01 R22, 08 R204). -/

def counter (g : Group) (n : Nat) : Nat := Tbl.get 0 g.f n

/-- A counter moved by one. -/
def raiseFlag (g : Group) : Option Nat → Group
  | none => g
  | some n => { g with f := Tbl.set 0 g.f n (counter g n + 1) }
def lowerFlag (g : Group) : Option Nat → Group
  | none => g
  | some n => { g with f := Tbl.set 0 g.f n (counter g n - 1) }

/-- Whether lanes of a ripple's word are still to issue or to complete: they count once (R204). -/
def spanOpen (g : Group) : Option Nat → Bool
  | none => false
  | some t =>
    g.outst.any (fun o => o.span = some t) ||
      (g.voices ++ (g.handler.map Handler.voices).getD []).any fun v => match v.2.ripple with | some r => r.held.any fun h => h.2.1 = t | none => false

/-- A word removed from those outstanding, and its counter lowered: for a lane of a ripple, with the last of its lanes. -/
def dropOutst (g : Group) (o : Outst) : Group :=
  let g1 := { g with outst := g.outst.filter fun p => p.id ≠ o.id }
  if spanOpen g1 o.span then g1 else lowerFlag g1 o.flag

/-! Monitors: every write at the home slice tests them (15 R352, R353, 18 R394). -/

/-- A waitc word some of whose lanes are satisfied: with its last lane it completes, in the order in which the monitors were
armed (R353); in a team that is not on its core the satisfaction is latched (R354). -/
def satisfyWord (g : Group) (id : Nat) (lanes : Mask) (here : Bool) : Group :=
  match g.outst.find? fun o => o.id = id with
  | none => g
  | some o =>
    match o.wait with
    | .monitors left =>
      let n := left - (lanesOf lanes).length
      if n = 0 ∧ here then dropOutst g o
      else { g with outst := g.outst.map fun p => if p.id = id then { p with wait := .monitors n } else p }
    | _ => g

/-- The lanes of one monitor satisfied. -/
def satisfy (m : Mach) (k : Monitor) : Mach :=
  let g := m.grp k.grp
  m.setGrp k.grp (satisfyWord g k.id k.lanes ((m.team g.team).place = .resident && !g.victim))

/-- Whether the location of a monitor now meets its condition. -/
def monitorHolds (m : Mach) (x : Monitor) : Bool :=
  waitCond x.cond x.sgn (8 * x.size) (rdNum m x.key x.size) (x.val.toNat % 2 ^ (8 * x.size))

/-- Test the monitors of one SYE that watch bytes from a key on, in the order in which they were armed. -/
def testMonitors (m : Mach) (die key n : Nat) : Mach :=
  let x := m.mc die
  let hit := x.mons.filter fun k => k.key < key + n && key < k.key + k.size && monitorHolds m k
  if hit.isEmpty then m
  else hit.foldl satisfy (m.setMc die { x with mons := x.mons.filter fun k => !(hit.contains k) })

/-- The monitors of every home die that a write of local memory reaches (18 R394). -/
def testFrom (m : Mach) (key n : Nat) : Mach :=
  if keyRegion key ≠ 1 then m
  else
    ((List.range ((key % 4096 + n + 4095) / 4096)).map fun i => homeDie m (keyPart key) (keyOff key + 4096 * i)).dedup.foldl
      (fun m d => testMonitors m d key n) m

/-- The words of code that a change of memory leaves behind, for instruction caches that may still hold them (10 R247). -/
def notePast (m : Mach) (mem : List Host.Cell) (key n : Nat) : Tbl (List (Nat × Nat)) :=
  (List.range ((key % 4 + n + 3) / 4)).foldl (fun t i =>
    let w := key / 4 + i
    let old := rdNum m (4 * w) 4
    if old = rdNum { m with mem := mem } (4 * w) 4 then t else Tbl.set [] t w ((m.fresh, old) :: Tbl.get [] t w)) m.past

/-- Bytes of the device-control region written, register by register (21 R430, 00 R4). -/
def devBytes (m : Mach) (p off : Nat) (bs : List Byte) : Mach :=
  (List.range ((off % 8 + bs.length + 7) / 8)).foldl (fun m i =>
    let reg := off / 8 * 8 + 8 * i
    let at? := fun k => if reg + k < off then none else bs[reg + k - off]?
    let new := (List.range 8).map fun k => (at? k).getD (BitVec.ofNat 8 (devRead m p reg / 2 ^ (8 * k)))
    devWrite m p reg (BitVec.ofNat 64 (ofBytes new)) fun k => (at? k).isSome) m

/-- Bytes written by key: registers in region 3, memory elsewhere, and the monitors of the home tested. -/
def wrBytes (m : Mach) (key : Nat) (bs : List Byte) : Mach :=
  if keyRegion key = 3 then devBytes m (keyPart key) (keyOff key) bs
  else
    testFrom { m with mem := putMem m.mem key bs, poison := clearPoison m.poison key bs.length,
                      past := notePast m (putMem m.mem key bs) key bs.length } key bs.length

/-- Bytes of one line written at once under their byte mask: one write at the home slice (14 R319, 15 R352). -/
def wrLine (m : Mach) (line : Nat) (cells : List (Nat × Byte)) : Mach :=
  if keyRegion (128 * line) = 3 then cells.foldl (fun m kb => wrBytes m kb.1 [kb.2]) m
  else
    let mem := cells.foldl (fun t kb => Tbl.set Memory.fill t kb.1 kb.2) m.mem
    testFrom { m with mem := mem, poison := if cells.length = 128 then m.poison.filter (· ≠ line) else m.poison,
                      past := notePast m mem (128 * line) 128 } (128 * line) 128

/-- Dirty bytes written back, line by line. -/
def wrLines (m : Mach) (cells : List (Nat × Byte)) : Mach :=
  (cells.map fun c => c.1 / 128).dedup.foldl (fun m l => wrLine m l (cells.filter fun c => c.1 / 128 = l)) m

/-! Page walks (10 R236 to R239). -/

/-- Who accesses: the translating context, the rights of its grid, and the core the access comes from. -/
structure Who where
  part : Nat
  ctx : Nat
  grid : Nat
  team : Nat
  priv : Bool
  spec : Bool
  /-- its scope is team or cluster: a speculative grid's access is not redirected (04 R131) -/
  narrow : Bool
  /-- the die and core whose caches it goes through; 12 for the device itself, 16 + d for the engines of memory-cache die d -/
  die : Nat
  core : Nat
deriving DecidableEq, Repr, Inhabited

/-- The bed die from which a party's accesses set out: the device's own from bed die 0 (DESIGN CHOICE, notes/assumptions/94.md). -/
def Who.bed (w : Who) : Nat := if w.die < 12 then w.die / 6 else if w.die < 16 then 0 else (w.die - 16) / 6

/-- The context tag that a line which a party fills carries (14 R332). -/
def Who.tag (w : Who) : Nat := 4096 * w.part + w.ctx

/-- How a walk ends. -/
inductive Walk where
  | fail
  /-- a page-table read met poison (10 R235) -/
  | ue
  /-- the leaf and the log2 of its page size -/
  | leaf (pte : Word) (lg : Nat)
deriving DecidableEq, Repr, Inhabited

def pteV (e : Word) : Bool := wb e 0 1 = 1
def pteLeaf (e : Word) : Bool := wb e 1 1 = 1
def pteR (e : Word) : Bool := wb e 4 1 = 1
def pteW (e : Word) : Bool := wb e 5 1 = 1
def pteX (e : Word) : Bool := wb e 6 1 = 1
def ptePriv (e : Word) : Bool := wb e 7 1 = 1
def pteMig (e : Word) : Bool := wb e 61 1 = 1
def pteSync (e : Word) : Bool := wb e 60 1 = 1
def pteCoh (e : Word) : Nat := wb e 58 2
def ptePa (e : Word) : Nat := wb e 16 30 * 2 ^ 16
def pteSize (e : Word) : Nat := match wb e 2 2 with | 0 => 16 | 1 => 21 | _ => 30

/-- Whether a leaf is one R239 accepts at its level. -/
def leafOk (m : Mach) (p level : Nat) (e : Word) : Bool :=
  wb e 62 2 = 0 && wb e 46 10 = 0 && pteCoh e ≠ 3 && wb e 56 2 ≠ 3 &&
    (if level = 2 then wb e 2 2 = 2 else level = 3 && wb e 2 2 ≤ 1) &&
    ptePa e % 2 ^ pteSize e = 0 && (paKey m p (ptePa e)).isSome && (paKey m p (ptePa e + 2 ^ pteSize e - 1)).isSome &&
    !(bitsOf (ptePa e) 44 2 = 3 && !ptePriv e)

/-- Whether an entry is a table pointer R239 accepts: every field it does not read is 0. -/
def pointerOk (e : Word) : Bool := wb e 46 18 = 0 && wb e 2 6 = 0

/-- The entry that a TLB fill uses where copies of a large leaf stand in a group of entries: any of them, where they differ
(R239; notes/assumptions/90.md); none where the copy it reads is poisoned (R235). -/
def groupEntry (m : Mach) (p level table idx : Nat) (e : Word) : Option Word :=
  let n := if level = 2 then 2 else 32
  if pteV e && pteLeaf e && (level = 2 || wb e 2 2 = 1) then
    let es := (List.range n).map fun i => match paKey m p (table + 8 * (idx / n * n + i)) with
      | some key => if poisoned m key 8 then none else some (BitVec.ofNat 64 (rdNum m key 8))
      | none => some 0
    if es.all (· = some e) then some e else es.getD ((Config.freeWord m.fresh (table + 8 * idx)).toNat % n) (some e)
  else some e

/-- One level of a walk, the rest after it. Region 3 holds no table: it is reached through leaves alone (R229). -/
def walkFrom (m : Mach) (p va : Nat) : Nat → Nat → Nat → Walk
  | 0, _, _ => .fail
  | n + 1, level, table =>
    let idx := match level with | 1 => bitsOf va 42 6 | 2 => bitsOf va 29 13 | _ => bitsOf va 16 13
    match if bitsOf table 44 2 = 3 then none else paKey m p (table + 8 * idx) with
    | none => .fail
    | some key =>
      if poisoned m key 8 then .ue
      else
        match groupEntry m p level table idx (BitVec.ofNat 64 (rdNum m key 8)) with
        | none => .ue
        | some e =>
          if !pteV e then .fail
          else if pteLeaf e then (if leafOk m p level e then .leaf e (pteSize e) else .fail)
          else if level ≥ 3 then .fail
          else if pointerOk e then walkFrom m p va n (level + 1) (ptePa e)
          else .fail

/-- The walk of a virtual address in a context. -/
def walk (m : Mach) (p c va : Nat) : Walk := walkFrom m p va 3 1 (m.ctx p c).root

/-- The translation an access uses: the page tables, or a cached entry that differs from them, as a free choice, until a
tlbinv drops it (R241). -/
def translation (m : Mach) (p c va : Nat) : Walk :=
  match (m.part p).tlb.find? fun t => t.ctx = c && va / 2 ^ t.lg = t.va / 2 ^ t.lg with
  | none => walk m p c va
  | some t =>
    let w := walk m p c va
    if w = .leaf t.leaf t.lg then w
    else if Config.freeBit m.fresh va then w else .leaf t.leaf t.lg

/-! Locations. -/

/-- Where an access goes: a byte of memory with the leaf that maps it, a lane of a register (09 R219), or a byte of a
team's scratchpad (02 R97). -/
inductive Loc where
  | mem (key : Nat) (leaf : Word)
  | win (g reg lane byte : Nat)
  | spad (team off : Nat)
deriving DecidableEq, Repr, Inhabited

/-- Kinds of access, by the permissions they need (10 R240). -/
inductive Acc where
  | load | store | atomic | fetch
deriving DecidableEq, Repr, Inhabited

/-- What one lane's checks find. -/
inductive Chk where
  | ok (l : Loc)
  | held
  | ue
  /-- a cause, and its place in the order of checks -/
  | bad (c : Cause) (rank : Nat)
deriving DecidableEq, Repr, Inhabited

def permits (e : Word) (priv : Bool) : Acc → Bool
  | .load => pteR e && (priv || !ptePriv e)
  | .store => pteW e && (priv || !ptePriv e)
  | .atomic => pteR e && pteW e && (priv || !ptePriv e)
  | .fetch => pteX e && (priv || !ptePriv e)

/-- The shadow entry that keys a physical page of 64 KiB, and the page's place in it (11 R276). -/
def shadowOf (m : Mach) (p key : Nat) : Option (Shadow × Nat) :=
  (m.part p).shadows.findSome? fun s =>
    (s.pages.findIdx? fun pg => pg = key / 2 ^ 16).map fun i => (s, i)

/-- Whether an access goes to the writer target: the opening grid's while OPEN; any speculative grid's of the context
(R276); not a speculative grid's access of team or cluster scope (04 R131). -/
def toWriter (w : Who) (s : Shadow) : Bool :=
  s.isOpen && !(w.spec && w.narrow) && (s.grid = w.grid || (w.spec && s.ctx = w.ctx))

/-- A key after shadow routing. -/
def routeKey (m : Mach) (w : Who) (key : Nat) : Nat :=
  match shadowOf m w.part key with
  | none => key
  | some (s, i) =>
    if toWriter w s then s.wp.getD i 0 * 2 ^ 16 + key % 2 ^ 16
    else if s.rp.isEmpty then key else s.rp.getD i 0 * 2 ^ 16 + key % 2 ^ 16

/-- Whether a speculative grid may write a key: some OPEN shadow of its context holds it (04 R131). -/
def specWritable (m : Mach) (w : Who) (key : Nat) : Bool :=
  match shadowOf m w.part key with
  | none => false
  | some (s, _) => toWriter w s

/-- Whether a virtual address lies in the tile of a descriptor (14 R334). -/
def tileHas (desc : List Word) (va : Nat) : Bool :=
  let base := wb (desc.getD 0 0) 0 48
  let lines := wb (desc.getD 1 0) 48 8
  let rows := wb (desc.getD 1 0) 32 16
  let pitch := wb (desc.getD 1 0) 0 32
  base ≤ va && (va - base) / pitch < rows && (va - base) % pitch < 128 * lines

/-- Whether a team other than the owner would write a byte of a halo tile of its grid whose halo.decl has completed, through whatever
mapping (14 R335). -/
def haloForbids (m : Mach) (w : Who) (key : Nat) : Bool :=
  (List.range m.teams.length).any fun t =>
    let x := m.team t
    x.grid = w.grid && t ≠ w.team && x.place ≠ .complete &&
      x.halos.any fun h =>
        !((m.grp h.2.decl.1).outst.any fun o => o.id = h.2.decl.2) &&
          h.2.pages.any fun pg => pg.2 = key / 2 ^ 16 && tileHas h.2.desc (pg.1 * 2 ^ 16 + key % 2 ^ 16)

/-- The region, 256 times its row plus its column, that a virtual address on a coh-1 page lies in (19 R405). -/
def regionAt (m : Mach) (p va : Nat) : Option Nat :=
  match (m.part p).pass with
  | none => none
  | some ps =>
    let nsurf := wb (ps.hdr.getD 0 0) 16 3
    let rw := wb (ps.hdr.getD 0 0) 0 8
    let rh := wb (ps.hdr.getD 0 0) 8 8
    let sbase := fun s => wb (ps.hdr.getD (2 + 2 * s) 0) 0 48
    match (List.range nsurf).find? fun s => sbase s ≤ va with
    | none => none
    | some s =>
      let pitch := wb (ps.hdr.getD (3 + 2 * s) 0) 0 32
      let lbpp := wb (ps.hdr.getD (3 + 2 * s) 0) 32 3
      let off := va - sbase s
      if pitch = 0 then none
      else
        let y := off / pitch
        let x := off % pitch / 2 ^ lbpp
        if x < 64 * (rw + 1) ∧ y < 64 * (rh + 1) then some (256 * (y / 64) + x / 64) else none

/-- The entry of a region in a pass; none outside the map or where it is invalid (19 R405, R409). -/
def entryOf (ps : Pass) (region : Nat) : Option (BitVec 32) :=
  let rw := wb (ps.hdr.getD 0 0) 0 8
  let rh := wb (ps.hdr.getD 0 0) 8 8
  let rx := region % 256
  let ry := region / 256
  if rx ≤ rw ∧ ry ≤ rh then
    match ps.entries[ry * (rw + 1) + rx]? with
    | some e => if e.getLsbD 31 then some e else none
    | none => none
  else none
def entryDie (e : BitVec 32) : Nat := bitsOf e.toNat 24 4
def entryCore (e : BitVec 32) : Nat := bitsOf e.toNat 16 6

/-- The entry of the region map that owns a virtual address on a coh-1 page (19 R405). -/
def regionEntry (m : Mach) (p va : Nat) : Option (BitVec 32) :=
  match (m.part p).pass, regionAt m p va with
  | some ps, some r => entryOf ps r
  | _, _ => none

/-- The die that owns a virtual address on a coh-1 page; none when it has no owner. -/
def regionOwner (m : Mach) (p va : Nat) : Option Nat :=
  (regionEntry m p va).map entryDie

/-- A region transfer whose word is still outstanding. -/
def movingNow (m : Mach) (p : Nat) : List (Nat × Nat × Nat) :=
  (m.part p).moving.filter fun k => (m.grp k.2.1).outst.any fun o => o.id = k.2.2

/-- Tokens of a region delivered and not committed. -/
def uncommitted (ps : Pass) (region : Nat) : List Nat := Tbl.get [] ps.uncommitted region

/-- Whether a transfer moves the region of a virtual address to a die: that die's accesses of the region are held until the map is
updated (14 R331, 19 R411). -/
def xferHolds (m : Mach) (p die va : Nat) : Bool :=
  match (m.part p).pass, regionAt m p va with
  | some ps, some r =>
    (match (movingNow m p).find? fun k => k.1 = r with
     | some k => (uncommitted ps r).isEmpty && (entryOf ps r).map entryDie ≠ some die && (m.grp k.2.1).outst.any fun o => o.id = k.2.2 &&
         (match o.wait with | .xfer _ e _ => entryDie (e.truncate 32) = die | _ => false)
     | none => false)
  | _, _ => false

/-- Whether an address is in the register window (09 R219). -/
def isWindow (va : Nat) : Bool := bitsOf va 40 8 = 0xFE && va < 2 ^ 48

/-- The checks of a register-window access after alignment (09 R220). -/
def checkWindow (m : Mach) (w : Who) (va : Nat) : Chk :=
  let die := bitsOf va 28 4
  let core := bitsOf va 22 6
  if bitsOf va 32 8 ≠ 0 ∨ !m.pk.has die ∨ core ≥ coreCount die ∨ partOf m.pk die core ≠ w.part then .bad .prot 2
  else
    match (List.range m.groups.length).find? fun i =>
        let g := m.grp i
        g.die = die && g.core = core && g.resid = bitsOf va 16 6 && !g.freed && !g.victim && (m.team g.team).place = .resident with
    | none => .bad .regwin 3
    | some i =>
      let g := m.grp i
      if g.grid ≠ w.grid ∨ bitsOf va 9 7 ≥ g.nv ∨ bitsOf va 3 6 ≥ g.width then .bad .prot 4
      else .ok (.win i (bitsOf va 9 7) (bitsOf va 3 6) (bitsOf va 0 3))

/-- Whether the route from a bed die to the home die of a local key is up: an access that finds none waits (21 R444). -/
def routed (m : Mach) (bed key : Nat) : Bool :=
  keyRegion key ≠ 1 || routeUp m bed (65536 + homeDie m (keyPart key) (keyOff key))

/-- The checks of one lane's access, in the order of 02 R99, 10 R240, 09 R220 and 14 R329. `align` is what the address
must be a multiple of; `window` says whether the word may reach the register window. -/
def checkVa (m : Mach) (w : Who) (acc : Acc) (align : Nat) (window : Bool) (va : Nat) : Chk :=
  if va % align ≠ 0 then .bad .misalign 0
  else if va ≥ 2 ^ 48 then .bad .xlate 1
  else if isWindow va then (if window then checkWindow m w va else .bad .prot 2)
  else
    match translation m w.part w.ctx va with
    | .fail => .bad .xlate 1
    | .ue => .ue
    | .leaf e lg =>
      if pteMig e then .held
      else if !permits e w.priv acc then .bad .prot 2
      else
        match paKey m w.part (ptePa e + va % 2 ^ lg) with
        | none => .bad .xlate 1
        | some key =>
          let writes := acc = .store || acc = .atomic
          if writes && w.spec && !w.narrow && !specWritable m w key then .bad .prot 2
          else if writes && haloForbids m w key then .bad .prot 2
          else if pteCoh e = 1 && w.die < 12 && xferHolds m w.part w.die va then .held
          else if writes && pteCoh e = 1 && w.die < 12 && regionOwner m w.part va ≠ some w.die then .bad .regionOwner 5
          else if !routed m w.bed (routeKey m w key) then .held
          else .ok (.mem (routeKey m w key) e)

/-- The scratchpad grant of a team, in bytes (04 R120). -/
def spadSize (m : Mach) (team : Nat) : Nat := 256 * (m.grid (m.team team).grid).lr.grant

/-- The checks of a scratchpad address (02 R97, R99): own team, or a team of the cluster by rank that still runs. -/
def checkSpad (m : Mach) (w : Who) (n va : Nat) : Chk :=
  let rank := bitsOf va 28 4
  let target := if rank = 15 then some w.team else if rank ≤ 11 then (m.team w.team).cluster[rank]? else none
  if va % n ≠ 0 then .bad .misalign 0
  else if va ≥ 2 ^ 32 ∨ bitsOf va 20 8 ≠ 0 then .bad .prot 2
  else
    match target with
    | none => .bad .prot 2
    | some t =>
      if (m.team t).place = .complete ∨ bitsOf va 0 20 + n > spadSize m t then .bad .prot 2
      else .ok (.spad t (bitsOf va 0 20))

/-! Reading and writing through a location. -/

/-- Where the poison marks of a scratchpad's lines stand (10 R235). -/
def spadKey (team off : Nat) : Nat := 2 ^ 72 + team * 2 ^ 20 + off

/-- A team's scratchpad holds no poison. -/
def cleanSpad (m : Mach) (team : Nat) : Mach := { m with poison := m.poison.filter fun l => l / 2 ^ 13 ≠ 2 ^ 52 + team }

/-- Bytes of a scratchpad read and written. -/
def spadBytes (m : Mach) (team off n : Nat) : List Byte := (List.range n).map fun i => Tbl.get 0 (m.team team).spad (off + i)
def spadPut (m : Mach) (team off : Nat) (bs : List Byte) : Mach :=
  m.setTeam team { m.team team with spad := ((List.range bs.length).zip bs).foldl (fun t ib => Tbl.set 0 t (off + ib.1) ib.2) (m.team team).spad }

/-- Whether the granule of a key is pinned at its SYE: every access to it is performed there, whatever coh says (18 R388). -/
def pinned (m : Mach) (key : Nat) : Bool :=
  keyRegion key = 1 &&
    (let x := m.mc (homeDie m (keyPart key) (keyOff key))
     x.frames.contains (key / 4096) || x.ovframes.contains (key / 4096))

/-- How a line is kept coherent for an access (14 R328). An access through a sync-class leaf, and every access to a pinned
granule, is performed at the SYE or the level-2 slice, whatever coh says (18 R388, R389). The device-control region is never
cached (DESIGN CHOICE, notes/assumptions/38.md). -/
def cohOf (m : Mach) (leaf : Word) (key : Nat) : Nat :=
  if pinned m key || (pteSync leaf && keyRegion key = 1) || keyRegion key = 3 then 0 else pteCoh leaf

/-- The cluster rank a halo descriptor names in a direction; 15 for none (14 R334). -/
def haloRank (desc : List Word) (dir : Nat) : Nat := wb (desc.getD 2 0) (16 + 4 * dir) 4

/-- The replica byte that a party's core holds for a key: a strip of a neighbour's tile (14 R338). -/
def replicaByte (m : Mach) (w : Who) (key : Nat) : Option Byte :=
  let me := m.team w.team
  if w.die ≥ 12 then none else
  me.cluster.findSome? fun u =>
    (m.team u).halos.findSome? fun h =>
      (List.range 4).findSome? fun d =>
        let ls := ((h.2.keys.find? fun k => k.1 = d).map Prod.snd).getD []
        if haloRank h.2.desc d = me.rank && ls.contains (key / 128) then
          (h.2.repl.find? fun r => r.1 = d).map fun r => Tbl.get 0 r.2 key
        else none

/-- The byte that a narrow atomic left dirty, as a party sees it: in its own core's level-1, or in that of the rank-0 core of its
cluster (14 R340). -/
def atomByte (m : Mach) (w : Who) (key : Nat) : Option Byte :=
  if w.die ≥ 12 then none
  else
    match Tbl.get none (m.core w.die w.core).atoms key, (m.team w.team).cluster.head? with
    | some x, _ => some x.val
    | none, some r =>
      match Tbl.get none (m.core (m.team r).die (m.team r).core).atoms key with
      | some x => if x.clu = some r then some x.val else none
      | none => none
    | none, none => none

/-- Whether a dirty coh-1 byte is what a party reads: its core has made it or one before it its own, or may have seen it; or the
party reads through a leaf of that kind on the owning die (R318, R329). -/
def Dirty1.meets (y : Dirty1) (w : Who) (coh : Nat) : Bool :=
  y.seen.contains (64 * w.die + w.core) || (coh = 1 && y.core / 64 = w.die)

/-- The byte of a line that a party's core holds in its level-1 cache, if it differs from what the level-2 cache may hold: its
own dirty bytes, through whatever mapping they were written (R332); a dirty byte of its die, and its own clean copy, through a
leaf of that kind (R329, R330). -/
def level1Byte (m : Mach) (w : Who) (coh key : Nat) : Option Byte :=
  match Tbl.get none (m.core w.die w.core).c2 key, Tbl.get none m.c1 key with
  | some x, some y => if x.dirty || coh = 2 then some x.val else if y.meets w coh then some y.val else none
  | some x, none => if x.dirty || coh = 2 then some x.val else none
  | none, some y => if y.meets w coh then some y.val else none
  | none, none => none

/-- One byte as a party reads it: a halo replica, a byte of a level-1 cache, or memory (14 R329, R330, R338, R340). -/
def seeByte (m : Mach) (w : Who) (leaf : Word) (key : Nat) : Byte :=
  match replicaByte m w key with
  | some b => b
  | none =>
    match atomByte m w key with
    | some b => b
    | none => (level1Byte m w (cohOf m leaf key) key).getD (rdByte m key)

/-- n bytes as a number. -/
def seeNum (m : Mach) (w : Who) (n : Nat) : Loc → Nat
  | .mem key leaf => ofBytes ((List.range n).map fun i => seeByte m w leaf (key + i))
  | .win g reg lane byte => wb (Tbl.get 0 (m.grp g).v (64 * reg + lane)) (8 * byte) (8 * n)
  | .spad t off => ofBytes (spadBytes m t off n)

/-- Whether reading n bytes meets poison. -/
def seePoison (m : Mach) (n : Nat) : Loc → Bool
  | .mem key _ => poisoned m key n
  | .spad t off => poisoned m (spadKey t off) n
  | .win .. => false

/-- Some bytes in level-1 caches: those of a range of keys that a test picks. -/
def c1In (m : Mach) (who : Dirty1 → Bool) (lo n : Nat) : List (Nat × Dirty1) :=
  m.c1.filterMap fun e => match e.2 with
    | some x => if who x && lo ≤ e.1 && e.1 < lo + n then some (e.1, x) else none
    | none => none

/-- The dirty coh-1 bytes that a test picks in a range of keys written back (14 R329, 11 R257). -/
def flushC1In (m : Mach) (who : Dirty1 → Bool) (lo n : Nat) : Mach :=
  let mine := c1In m who lo n
  wrLines { m with c1 := m.c1.filter fun e => !(mine.any fun x => x.1 = e.1) } (mine.map fun x => (x.1, x.2.val))

/-- The dirty coh-2 bytes of a core in a range of keys written to the next level; the copies become clean, or are dropped
(11 R257). -/
def flushC2 (m : Mach) (die core lo n : Nat) (drop : Bool := false) : Mach :=
  let c := m.core die core
  let here := fun (e : Nat × Option Copy2) => decide (lo ≤ e.1) && decide (e.1 < lo + n)
  let mine := c.c2.filterMap fun e => match e.2 with
    | some x => if here e && x.dirty then some (e.1, x.val) else none
    | none => none
  let clean := fun (e : Nat × Option Copy2) => if here e then (e.1, e.2.map fun x => { x with dirty := false }) else e
  wrLines (m.setCore die core { c with c2 := if drop then c.c2.filter (fun e => !here e) else c.c2.map clean }) mine

/-- The dirty coh-2 bytes of some cores in a range of keys written back. -/
def flushC2In (m : Mach) (who : Nat → Bool) (lo n : Nat) (drop : Bool := false) : Mach :=
  (m.cores.filter fun c => who c.1).foldl (fun m c => flushC2 m (c.1 / 64) (c.1 % 64) lo n drop) m

/-- The bytes that narrow atomics left dirty in a core, of those a test picks, written back: placed over the level-2 value
(14 R340). -/
def flushAtoms (m : Mach) (die core : Nat) (pick : Nat → DirtyA → Bool) : Mach :=
  let c := m.core die core
  let mine := c.atoms.filterMap fun e => match e.2 with
    | some x => if pick e.1 x then some (e.1, x.val) else none
    | none => none
  wrLines (m.setCore die core { c with atoms := c.atoms.filter fun e => !(mine.any fun x => x.1 = e.1) }) mine
def flushAtomsIn (m : Mach) (who : Nat → Bool) (lo n : Nat) : Mach :=
  (m.cores.filter fun c => who c.1).foldl (fun m c => flushAtoms m (c.1 / 64) (c.1 % 64) fun k _ => lo ≤ k && k < lo + n) m

/-- Whether a dirty byte of a narrow atomic is one that a party on a core has made or could see. -/
def atomMine (m : Mach) (die core holder : Nat) (x : DirtyA) : Bool :=
  holder = 64 * die + core || (match x.clu with
    | some r => (m.team r).cluster.any fun t => (m.team t).die = die && (m.team t).core = core
    | none => false)

/-- What a release at device or system scope by a group of a core makes visible: the core's dirty coh-1 bytes and those of its die
that it may have seen, and the bytes that narrow atomics left dirty (14 R322, R329, R340). -/
def flushC1 (m : Mach) (die core : Nat) : Mach :=
  (m.cores.map Prod.fst).foldl (fun m c => flushAtoms m (c / 64) (c % 64) fun _ x => atomMine m die core c x)
    (flushC1In m (fun x => x.seen.contains (64 * die + core)) 0 (2 ^ 80))

/-- What a release at cluster scope makes visible to the cluster: the bytes that atomics of narrower scope left dirty in its core are
written back, and the coh-1 bytes its core may have seen count as seen by the cluster's cores (14 R321, R322, R329, R340). -/
def shareCluster (m : Mach) (w : Who) : Mach :=
  let cl := (m.team w.team).cluster
  let cores := (cl.filter fun t => (m.team t).place = .resident).map fun t => 64 * (m.team t).die + (m.team t).core
  let more := fun (x : Dirty1) => if x.seen.contains (64 * w.die + w.core) then { x with seen := (x.seen ++ cores).dedup } else x
  flushAtoms { m with c1 := m.c1.map fun e => (e.1, e.2.map more) } w.die w.core fun _ x => x.clu ≠ cl.head?

/-- The release part of an access, fence or barrier of a group at a scope (14 R321). -/
def releaseAt (m : Mach) (w : Who) (scope : Nat) : Mach :=
  if scope ≥ 3 then flushC1 m w.die w.core else if scope = 2 then shareCluster m w else m

/-- The bytes that narrow atomics left dirty in other cores' caches, at locations that an access of narrow scope performed in a core
meets: the directory recalls them. An access at device or system scope recalls none (14 R318, R340). -/
def recallAtoms (m : Mach) (die core scope key n : Nat) : Mach :=
  if scope ≥ 3 then m
  else (m.cores.map Prod.fst).foldl (fun m c =>
    if c = 64 * die + core then m else flushAtoms m (c / 64) (c % 64) fun k _ => decide (key ≤ k) && decide (k < key + n)) m

/-- The lines of dirty coh-1 bytes that a write by the host, a peer or the device meets: written back and dropped first
(14 R329). -/
def recallC1 (m : Mach) (key n : Nat) : Mach :=
  if n = 0 then m else flushC1In m (fun _ => true) (key / 128 * 128) ((key + n - 1) / 128 * 128 + 128 - key / 128 * 128)

/-- A party's own bytes in level-1 caches that a later write of its own replaces. -/
def supersede (m : Mach) (w : Who) (key n : Nat) : Mach :=
  if w.die ≥ 12 then m
  else
    let out := fun (k : Nat) => decide (k < key) || decide (key + n ≤ k)
    let m1 := { m with c1 := m.c1.filter fun e => out e.1 || (match e.2 with | some x => !x.seen.contains (64 * w.die + w.core) | none => true) }
    let c := m1.core w.die w.core
    let m2 := m1.setCore w.die w.core { c with c2 := c.c2.filter fun e => out e.1, atoms := c.atoms.filter fun e => out e.1 }
    match (m.team w.team).cluster.head? with
    | none => m2
    | some r =>
      let d := m2.core (m.team r).die (m.team r).core
      m2.setCore (m.team r).die (m.team r).core
        { d with atoms := d.atoms.filter fun e => out e.1 || (match e.2 with | some x => x.clu ≠ some r | none => true) }

/-! The banks of an SYE (18 R395). -/

/-- What an AtomicOp writes, from the old value: none when a compare fails. -/
def hostAtom (r : SyeReq) (old : Nat) : Option Nat :=
  match r.op with
  | 0 | 2 => some (ofBytes r.val)
  | 1 => some ((old + ofBytes r.val) % 2 ^ (8 * r.val.length))
  | _ => if old = ofBytes r.cmp then some (ofBytes r.val) else none

/-- A request performed at its bank. -/
def performReq (m : Mach) (r : SyeReq) : Mach :=
  let n := r.val.length
  let m1 := recallC1 m r.key n
  match hostAtom r (rdNum m1 r.key n) with
  | some v => wrBytes m1 r.key (toBytes n v)
  | none => m1

/-- The bank of a key (R395). -/
def bankOf (key : Nat) : Nat := key / 8 % 32

/-- How many ports a bank passes over before a port's turn comes. -/
def turnsTo (last port : Nat) : Nat := (port + 17 - last) % 9

/-- The request a bank serves next: the first of the port whose turn it is (R395). -/
def nextReq (x : MemDie) (bank : Nat) : Option SyeReq :=
  let mine := x.ports.filter fun r => bankOf r.key = bank
  let last := Tbl.get 0 x.turn bank
  ((List.range 9).map fun i => (last + 1 + i) % 9).findSome? fun p => mine.find? fun r => r.port = p

/-- The overflow area of an SYE, and what stands in it: memory that it overlaps is overwritten, in an order that is not fixed. An
overflow frame is written out when a bank has served it and when it is freed (R390; DESIGN CHOICE, notes/assumptions/96.md). -/
def areaKey (m : Mach) (die : Nat) : Nat := keyLocal (partOf m.pk die 0) ((m.mc die).ovbase.toNat % 2 ^ 42)
def spillFrame (m : Mach) (die gran : Nat) : Mach :=
  match (m.mc die).ovframes.findIdx? (· = gran) with
  | none => m
  | some i => wrBytes m (areaKey m die + 2 ^ 20 * wb (m.mc die).ovsize 16 16 + 4096 * i) (rdBytes m (4096 * gran) 4096)

/-- A bank serves one request. -/
def serveBank (m : Mach) (die bank : Nat) : Option Mach :=
  (nextReq (m.mc die) bank).map fun r =>
    let x := m.mc die
    spillFrame (performReq (m.setMc die { x with ports := x.ports.erase r, turn := Tbl.set 0 x.turn bank r.port }) r) die (r.key / 4096)

/-- A bank serves the requests whose turn comes before a port's. -/
def serveBefore (die bank port : Nat) : Nat → Mach → Mach
  | 0, m => m
  | n + 1, m =>
    match nextReq (m.mc die) bank with
    | none => m
    | some r =>
      let last := Tbl.get 0 (m.mc die).turn bank
      if turnsTo last r.port < turnsTo last port then serveBefore die bank port n ((serveBank m die bank).getD m) else m

/-- A bank serves requests in turn until none of those picked is left. -/
def serveUntil (die bank : Nat) (pick : SyeReq → Bool) : Nat → Mach → Mach
  | 0, m => m
  | n + 1, m =>
    if (m.mc die).ports.any fun r => bankOf r.key = bank && pick r then serveUntil die bank pick n ((serveBank m die bank).getD m) else m

/-- The picked requests of an engine performed, each bank in its own turn. -/
def servePorts (m : Mach) (die : Nat) (pick : SyeReq → Bool) : Mach :=
  (((m.mc die).ports.filter pick).map fun r => bankOf r.key).dedup.foldl (fun m b => serveUntil die b pick (m.mc die).ports.length m) m

/-- The port of a compute die at the engines of its partition (R395). -/
def diePort (m : Mach) (p die : Nat) : Nat :=
  ((List.range 12).filter fun d => m.pk.has d && !isMemDie d && (List.range (coreCount d)).any fun c => partOf m.pk d c = p).findIdx (· = die)

/-- Whether an access to a location is performed at a bank: its granule is pinned (18 R388). -/
def atBank (m : Mach) : Loc → Option Nat
  | .mem key _ => if pinned m key then some key else none
  | _ => none

/-- The port through which a party's accesses come: that of its die, 8 for the engines of memory-cache dies; none for the device itself
(R395). -/
def portOf (m : Mach) (w : Who) : Option Nat :=
  if w.die < 12 then some (diePort m w.part w.die % 6) else if w.die ≥ 16 then some 8 else none

/-- An access at a bank has its turn: the requests of other ports whose turn comes first are served (R395). -/
def takeTurn (m : Mach) (w : Who) (key : Nat) : Mach :=
  match portOf m w with
  | none => m
  | some port =>
    if keyRegion key ≠ 1 then m
    else
      let d := homeDie m (keyPart key) (keyOff key)
      let m1 := serveBefore d (bankOf key) port 9 m
      m1.setMc d { m1.mc d with turn := Tbl.set 0 (m1.mc d).turn (bankOf key) port }

/-- The turns of plain accesses to some locations. -/
def takeTurns (m : Mach) (w : Who) (ls : List (Nat × Loc)) : Mach :=
  ls.foldl (fun m l => match atBank m l.2 with | some key => takeTurn m w key | none => m) m

/-- The requests that a port's queue at a bank holds: what the spec leaves to the device, one at least (R395). -/
def portRoom : Nat := 1 + Config.portDepth

/-- A bank serves its ports in turn until a port's queue has room for one more request. -/
def serveRoom (die bank port : Nat) : Nat → Mach → Mach
  | 0, m => m
  | n + 1, m =>
    if ((m.mc die).ports.filter fun r => bankOf r.key = bank && r.port = port).length ≥ portRoom then
      serveRoom die bank port n ((serveBank m die bank).getD m)
    else m

/-- The bytes that a window store puts over a lane, noted at the group's outstanding words: a result that arrives later may
stand before the store or after it (09 R221, 01 R24). -/
def noteWin (g : Group) (reg lane byte : Nat) (bs : List Byte) : Group :=
  let k := 8 * (64 * reg + lane) + byte
  { g with outst := g.outst.map fun o =>
      if o.dsts.contains reg then { o with win := ((List.range bs.length).zip bs).foldl (fun t ib => Tbl.put t (k + ib.1) ib.2) o.win }
      else o }

/-- n low bytes of a number written: at the level-2 slice, or kept dirty in the level-1 cache as coh says (14 R328 to R330). -/
def doStore (m : Mach) (w : Who) (n : Nat) (v : Nat) : Loc → Mach
  | .mem key leaf =>
    let m0 := supersede m w key n
    if w.die ≥ 12 ∨ (keyRegion key = 1 ∧ keyPart key ≠ w.part) then wrBytes (recallC1 m0 key n) key (toBytes n v)
    else
      match cohOf m leaf key with
      | 1 =>
        let seen := fun (k : Nat) => ((64 * w.die + w.core) :: ((Tbl.get none m.c1 k).map Dirty1.seen).getD []).dedup
        let f := fun t (ib : Nat × Byte) =>
          Tbl.set none t (key + ib.1) (some { core := 64 * w.die + w.core, tag := w.tag, seen := seen (key + ib.1), val := ib.2 })
        { m0 with c1 := ((List.range n).zip (toBytes n v)).foldl f m0.c1 }
      | 2 =>
        let c := m0.core w.die w.core
        let f := fun t (ib : Nat × Byte) => Tbl.set none t (key + ib.1) (some { dirty := true, tag := w.tag, val := ib.2 })
        m0.setCore w.die w.core { c with c2 := ((List.range n).zip (toBytes n v)).foldl f c.c2 }
      | _ => wrBytes m0 key (toBytes n v)
  | .win g reg lane byte =>
    let x := noteWin (m.grp g) reg lane byte (toBytes n v)
    let old := Tbl.get 0 x.v (64 * reg + lane)
    let new := BitVec.ofNat 64 (old.toNat - wb old (8 * byte) (8 * n) * 2 ^ (8 * byte) + v % 2 ^ (8 * n) * 2 ^ (8 * byte))
    m.setGrp g { x with v := Tbl.set 0 x.v (64 * reg + lane) new }
  | .spad t off => spadPut m t off (toBytes n v)

/-- The lines that a core's loads of coh-2 pages meet: a line it does not hold is filled from the level-2 cache; one it holds
stays, or is filled again, as a free choice (14 R330); a strong load that reaches beyond the core fills it again (11 R254). -/
def fillC2 (m : Mach) (w : Who) (strong : Bool) (n : Nat) (ls : List (Nat × Loc)) : Mach :=
  if w.die ≥ 12 then m
  else
    let lines := (ls.flatMap fun l => match l.2 with
      | .mem key leaf => if cohOf m leaf key = 2 then [key / 128, (key + n - 1) / 128] else []
      | _ => []).dedup
    lines.foldl (fun m line =>
      let c := m.core w.die w.core
      if !strong && (c.c2.any fun e => e.1 / 128 = line) && Config.freeBit m.fresh line then m
      else
        let put := fun (t : Tbl (Option Copy2)) (i : Nat) => match Tbl.get none t (128 * line + i) with
          | some x => if x.dirty then t else Tbl.set none t (128 * line + i) (some { x with val := rdByte m (128 * line + i) })
          | none => Tbl.set none t (128 * line + i) (some { dirty := false, tag := w.tag, val := rdByte m (128 * line + i) })
        m.setCore w.die w.core { c with c2 := (List.range 128).foldl put c.c2 }) m

/-- The dirty coh-1 bytes of its die that a core's loads meet count as seen by it (14 R322). -/
def markSeen (m : Mach) (w : Who) (n : Nat) (ls : List (Nat × Loc)) : Mach :=
  let me := 64 * w.die + w.core
  let meets := fun (k : Nat) => ls.any fun l => match l.2 with
    | .mem key leaf => cohOf m leaf key = 1 && decide (key ≤ k) && decide (k < key + n)
    | _ => false
  let add := fun (x : Dirty1) => if x.core / 64 = w.die && !x.seen.contains me then { x with seen := x.seen ++ [me] } else x
  { m with c1 := m.c1.map fun e => if meets e.1 then (e.1, e.2.map add) else e }

/-- What the loads of a party leave in level-1 caches, and their turns at the banks of pinned granules (14 R322, R330, 18 R395). -/
def touchLines (m : Mach) (w : Who) (strong : Bool) (n : Nat) (ls : List (Nat × Loc)) : Mach :=
  fillC2 (markSeen (takeTurns m w ls) w n ls) w strong n ls

/-- Poison marks cleared by a word whose bytes, coalesced into line requests, cover a whole line (10 R235, R242). -/
def clearCovered (m : Mach) (spans : List (Nat × Nat)) : Mach :=
  { m with poison := m.poison.filter fun l =>
      !((List.range 128).all fun i => spans.any fun s => s.1 ≤ 128 * l + i && 128 * l + i < s.1 + s.2) }

/-- The level-1 copies of a granule recalled, for an access through a sync-class leaf (18 R388, R389). -/
def recallGranule (m : Mach) (gran : Nat) : Mach :=
  flushC2In (flushC1In (flushAtomsIn m (fun _ => true) (gran * 4096) 4096) (fun _ => true) (gran * 4096) 4096) (fun _ => true)
    (gran * 4096) 4096 true

/-- A granule pinned by an access through a sync-class leaf: every level-1 copy recalled, then an SRAM frame, else an overflow
frame, else none: the access is then performed at the level-2 slice (18 R388, R389). -/
def pinAt (m : Mach) (leaf : Word) (key : Nat) : Mach :=
  if !pteSync leaf || keyRegion key ≠ 1 || pinned m key then m
  else
    let die := homeDie m (keyPart key) (keyOff key)
    let x := m.mc die
    let m1 := recallGranule m (key / 4096)
    if x.frames.length < 1536 then
      m1.setMc die { m1.mc die with frames := (m1.mc die).frames ++ [key / 4096] }
    else if x.ovframes.length < wb x.ovsize 0 16 then
      m1.setMc die { m1.mc die with ovframes := (m1.mc die).ovframes ++ [key / 4096] }
    else m1

/-- The granules of a word's accesses pinned. -/
def pinLocs (m : Mach) (ls : List (Nat × Loc)) : Mach :=
  ls.foldl (fun m l => match l.2 with | .mem key leaf => pinAt m leaf key | _ => m) m

/-- The granule of a virtual address pinned by an engine's access to it (18 R388). -/
def pinVa (m : Mach) (w : Who) (va : Nat) : Mach :=
  match checkVa m w .load 1 false va with
  | .ok (.mem key leaf) => pinAt m leaf key
  | _ => m

/-- The granules of n bytes from a virtual address on pinned, and the turns of a party's accesses to those bytes at their banks
(18 R388, R395). -/
def pinRange (m : Mach) (w : Who) (va n : Nat) : Mach :=
  let m1 := (List.range ((va % 4096 + n + 4095) / 4096)).foldl (fun m i => pinVa m w (if i = 0 then va else va / 4096 * 4096 + 4096 * i)) m
  (List.range ((va % 8 + n + 7) / 8)).foldl (fun m i =>
    match checkVa m w .load 1 false (if i = 0 then va else va / 8 * 8 + 8 * i) with
    | .ok l => takeTurns m w [(0, l)]
    | _ => m) m1

/-- A plain store of an engine at a location: its granule pinned, its turn taken at the bank (18 R388, R395). -/
def putAt (m : Mach) (w : Who) (n v : Nat) (l : Loc) : Mach := doStore (takeTurns (pinLocs m [(0, l)]) w [(0, l)]) w n v l

/-- Some bytes of one line written by an engine at a virtual address: none when the access fails. -/
def storeVa (m : Mach) (w : Who) (va n v : Nat) : Option Mach :=
  match checkVa m w .store 1 false va with
  | .ok l => some (putAt m w n v l)
  | _ => none

/-- A number read at a virtual address: none when the read fails. -/
def loadVa (m : Mach) (w : Who) (va n : Nat) : Option Nat :=
  match checkVa m w .load 1 false va with
  | .ok l => if seePoison m n l then none else some (seeNum m w n l)
  | _ => none

end Sys2Proof.Machine
end

