-- ==== Sys2Proof/Machine/Operands.lean ====
section
/-!
DEFINITION. Sys2Proof/Machine/Operands.lean: what a word sees when it issues, operand codes and every operand form: vector,
mortar, queue and scalar registers, scalar extension, sub-element broadcast, indexed and sympathetic operands, and the
writes of destinations (01 R28 to R35, R24, R44, 02 R54, R55, R88 to R93, 09 R211 to R213).
-/

namespace Sys2Proof

/-! Prefix fields (01 R29). -/

def Pre.neg : Pre → Bool
  | .none => false
  | .k0 n .. | .k1 n .. | .k2 n .. | .k3 n .. | .k4 n .. => n
def Pre.gp : Pre → Nat
  | .none => 7
  | .k0 _ g .. | .k1 _ g .. | .k2 _ g .. | .k3 _ g .. | .k4 _ g .. => g.toNat
/-- The third operand code; none when no prefix carries one. -/
def Pre.c? : Pre → Option Nat
  | .k0 _ _ c .. | .k1 _ _ c .. => some c.toNat
  | .k2 _ _ _ _ c .. => some c.toNat
  | .k3 _ _ _ _ _ c => some c.toNat
  | _ => Option.none
def Pre.rnd : Pre → Nat
  | .k0 _ _ _ r .. => r.toNat
  | .k2 _ _ _ _ _ r .. => r.toNat
  | _ => 0
def Pre.sat : Pre → Bool
  | .k0 _ _ _ _ s .. => s
  | .k2 _ _ _ _ _ _ s _ => s
  | _ => false
def Pre.sube : Pre → Option Nat
  | .k0 _ _ _ _ _ true i _ => some i.toNat
  | _ => Option.none
/-- subi set without sube (01 R27, R29). -/
def Pre.strayI : Pre → Bool
  | .k0 _ _ _ _ _ false i _ => i != 0
  | _ => false
def Pre.flg : Pre → Bool
  | .k0 _ _ _ _ _ _ _ f => f
  | .k1 _ _ _ _ _ _ _ f => f
  | .k2 _ _ _ _ _ _ _ f => f
  | _ => false
/-- The extension of a scalar field: position 0 d, 1 a, 2 b, 3 c. -/
def Pre.ext : Pre → Nat → Nat
  | .k1 _ _ _ dx ax bx cx _, p =>
    match p with | 0 => dx.toNat | 1 => ax.toNat | 2 => bx.toNat | _ => cx.toNat
  | _, _ => 0
/-- Memory order, scope and upper offset of kind 4; plain, device and 0 without. -/
def Pre.ord : Pre → Nat
  | .k4 _ _ o .. => o.toNat
  | _ => 0
def Pre.scope? : Pre → Option Nat
  | .k4 _ _ _ s _ => some s.toNat
  | _ => Option.none
def Pre.offh : Pre → Nat
  | .k4 _ _ _ _ o => o.toNat
  | _ => 0

/-- Whether operand position p (0 d, 1 a, 2 b, 3 c) is indexed; its xN and offset. -/
def Pre.indexed (x : Pre) (p : Nat) : Option (Nat × Int) :=
  match x with
  | .k3 _ _ w xn off _ => if w.toNat = p then some (xn.toNat, off.toInt) else Option.none
  | _ => Option.none
/-- Whether operand position p (1 a, 2 b, 3 c) is sympathetic; its distance. -/
def Pre.symp (x : Pre) (p : Nat) : Option Nat :=
  match x with
  | .k2 _ _ w k .. => if w.toNat + 1 = p then some k.toNat else Option.none
  | _ => Option.none

end Sys2Proof

namespace Sys2Proof.Machine

/-- A register named by an operand code (01 R31). -/
inductive Opd where
  | v (r : Nat) | mo (r : Nat) | q (r : Nat) | s (r : Nat)
deriving DecidableEq, Repr, Inhabited

/-- What a member sees: its group and voice, its prefix, the device before its chain, its lanes, and its place. -/
structure Cx where
  gi : Nat
  vi : Nat
  pre : Pre
  /-- the device before the chain (01 R11) -/
  base : Mach
  /-- Active (02 R54), narrowed to the running lane of a ripple -/
  act : Mask
  /-- the guarded lanes of the whole voice, for transfers -/
  full : Mask
  /-- the voice's mask -/
  vmask : Mask
  /-- first word of the chain, of the member, and the base word -/
  first : Nat
  word : Nat
  bword : Nat
  member : Nat
deriving Repr, Inhabited

def Cx.g (c : Cx) : Group := c.base.grp c.gi
def Cx.voice (c : Cx) : Voice := Tbl.get default c.g.voices c.vi
def Cx.grid (c : Cx) : Grid := c.base.grid c.g.grid
def Cx.lanes (c : Cx) : List Nat := lanesOf c.act
/-- Byte address of a word of the course (05 R137). -/
def Cx.addrOf (c : Cx) (w : Nat) : Word := BitVec.ofNat 64 (12 * c.voice.head + 4 * w)
def Cx.waddr (c : Cx) : Word := c.addrOf c.word

/-- Why a member stalls in place (01 R19). -/
structure Stall where
  /-- the sympathetic read it waits on: register, distance, and the lanes that wait (02 R89) -/
  sym : Option (Nat × Nat × Mask) := none
  /-- some lane needs an element of another lane of its voice: the voice ripples (08 R204) -/
  own : Bool := false
  /-- addresses held at migrating pages (10 R244) -/
  held : List Nat := []
deriving DecidableEq, Repr, Inhabited

/-- What a member's meaning answers. -/
inductive Eff where
  /-- done: the device after it -/
  | ok (m : Mach)
  /-- a cause: the device as the trap leaves it, and the bases of an ldm or stm -/
  | trap (t : Trap) (m : Mach) (bases : List (Nat × Word))
  /-- stalled in place (01 R19) -/
  | stall (why : Stall)
  /-- done, and then a cause: brk and sys (01 R12) -/
  | late (t : Trap) (m : Mach)
  /-- a transfer: where each lane of the voice goes, none for an exit -/
  | xfer (dests : List (Nat × Option Nat)) (m : Mach)
  /-- done, and what becomes of the voice is in the device already: rett, a kill -/
  | gone (m : Mach)

/-- A cause raised before anything is written: the device is as before the chain. -/
def Cx.raise (c : Cx) (k : Cause) (addr : Word) (mask : Mask) : Eff := .trap (trapOf k addr mask) c.base []
/-- ILLEGAL_OP at this word. -/
def Cx.illegal (c : Cx) : Eff := c.raise .illegalOp c.waddr c.act
/-- A check: go on, or ILLEGAL_OP. -/
def Cx.need (c : Cx) (ok : Bool) (k : Unit → Eff) : Eff := if ok then k () else c.illegal

/-- The lanes where a guard holds (01 R29). -/
def guardMask (g : Group) (x : Pre) : Mask :=
  let p : Mask := if x.gp = 7 then fullMask 64 else Tbl.get 0 g.p x.gp
  if x.neg then ~~~p else p

/-- The register of an operand code at a position (01 R31, R29). -/
def opdOf (x : Pre) (pos code : Nat) : Opd :=
  if code < 0x60 then .v code else if code < 0x68 then .mo (code - 0x60) else if code < 0x70 then .q (code - 0x68)
  else .s (code - 0x70 + 16 * x.ext pos)

/-- Kernels that run interlocked (01 R44). -/
def interlocked (m : Mach) (g : Group) : Bool :=
  (m.grid g.grid).hdr.compat || (m.grid g.grid).hdr.family ≠ Config.family
def compatG (m : Mach) (g : Group) : Bool := (m.grid g.grid).hdr.compat

/-- Whether a register exists (01 R31). -/
def Opd.exists? (g : Group) : Opd → Bool
  | .v r => r < g.nv
  | .s r => r < g.ns
  | _ => true

/-- Operand classes. -/
def Opd.isV : Opd → Bool
  | .v _ => true
  | _ => false
def Opd.isS : Opd → Bool
  | .s _ => true
  | _ => false
def Opd.isQ : Opd → Bool
  | .q _ => true
  | _ => false
def Opd.isM : Opd → Bool
  | .mo _ => true
  | _ => false
/-- Scalar or queue: one value for the word. -/
def Opd.uniform (o : Opd) : Bool := o.isS || o.isQ
/-- The number under which Outst.dsts names a register. -/
def Opd.key : Opd → Nat
  | .v r => r | .mo r => 96 + r | .q r => 256 + r | .s r => 128 + r

/-- Whether an interlocked group must wait before it touches a register (01 R44). -/
def busyReg (m : Mach) (gi vi key : Nat) : Bool :=
  let g := m.grp gi
  interlocked m g && g.outst.any fun o => o.dsts.contains key && (key < 96 || key ≥ 128 || o.voice = vi)

/-! Register reads (01 R24). -/

/-- The value an outstanding word will write to a lane of a vector or mortar register, if it is known. -/
def pendingV (os : List Outst) (reg lane : Nat) : Option Word :=
  os.foldl (fun a o => o.wr.foldl (fun a w => match w with
    | .vec r l v => if r = reg ∧ l = lane ∧ r < o.cap then some v else a
    | _ => a) a) none
def pendingM (os : List Outst) (vi reg lane : Nat) : Option Word :=
  os.foldl (fun a o => o.wr.foldl (fun a w => match w with
    | .mort k r l v => if k = vi ∧ r = reg ∧ l = lane then some v else a
    | _ => a) a) none
def pendingS (os : List Outst) (reg : Nat) : Option Word :=
  os.foldl (fun a o => o.wr.foldl (fun a w => match w with
    | .scal r v => if r = reg then some v else a
    | _ => a) a) none

/-- Old or new, as a free choice (01 R24): fr is the model's counter, salt tells the registers and lanes of one step apart. All
reads of a word find a lane whole and alike (07 R203). -/
def oldOrNew (fr salt : Nat) (old : Word) : Option Word → Word
  | none => old
  | some new => if Config.freeBit fr salt then new else old

/-- The number of a lane of a register: of a vector register, of a mortar register of a voice, and of a scalar. -/
def vecKey (reg lane : Nat) : Nat := 64 * reg + lane
def mortKey (vi reg lane : Nat) : Nat := 2 ^ 14 + 64 * (8 * vi + reg) + lane
def scalKey (reg : Nat) : Nat := 2 ^ 15 + reg

/-- The value that a read of a step sees in a register. -/
def vecVal (fr : Nat) (m : Mach) (gi reg lane : Nat) : Word :=
  let g := m.grp gi
  oldOrNew fr (vecKey reg lane) (Tbl.get 0 g.v (64 * reg + lane)) (pendingV g.outst reg lane)
def mortVal (fr : Nat) (m : Mach) (gi vi reg lane : Nat) : Word :=
  let g := m.grp gi
  oldOrNew fr (mortKey vi reg lane) (Tbl.get 0 (Tbl.get default g.voices vi).mortar (64 * reg + lane)) (pendingM g.outst vi reg lane)
def scalVal (fr : Nat) (m : Mach) (gi reg : Nat) : Word :=
  let g := m.grp gi
  oldOrNew fr (scalKey reg) (Tbl.get 0 g.s reg) (pendingS g.outst reg)

/-! Queues (09 R212, R213). -/

def qGet (g : Group) (n : Nat) : Queue := Tbl.get { bind := .unbound, elems := [] } g.q n
def qSet (g : Group) (n : Nat) (x : Queue) : Group := { g with q := Tbl.set { bind := .unbound, elems := [] } g.q n x }
def linkOf (t : Team) (n : Nat) : Link := Tbl.get Link.none t.links n
def setLink (t : Team) (n : Nat) (x : Link) : Team :=
  { t with links := Tbl.set Link.none t.links n x }

/-- The elements a queue holds, as qcnt counts them (11 R262). -/
def qCount (m : Mach) (gi n : Nat) : Nat :=
  let g := m.grp gi
  match (qGet g n).bind with
  | .lsend k => (linkOf (m.team g.team) k).elems.length
  | .lrecv k => (linkOf (m.team g.team) k).elems.length
  | _ => (qGet g n).elems.length

/-- A pop: an element, a stall, or QUEUE_STATE (09 R212). -/
inductive Pop where
  | got (v : Word) (o : Origin) (m : Mach)
  | empty
  | bad
deriving Inhabited

/-- The SXB port pushes what it holds of a packet while the queue bound to it has room (09 R212, 19 R410). -/
def portPush (g : Group) (n : Nat) : Group :=
  let x := qGet g n
  if x.bind ≠ .eng 5 || g.inWords.isEmpty then g
  else
    let k := 8 - x.elems.length
    qSet { g with inWords := g.inWords.drop k } n { x with elems := x.elems ++ (g.inWords.take k).map fun w => (w, .sxb) }

def popQ (m : Mach) (gi n : Nat) : Pop :=
  let g := m.grp gi
  let x := qGet g n
  match x.bind with
  | .unbound | .cmd | .lsend _ => .bad
  | .lrecv k =>
    let t := m.team g.team
    let l := linkOf t k
    match l.elems with
    | e :: rest => .got e .data (m.setTeam g.team (setLink t k { l with elems := rest }))
    | [] => if l.closed then .bad else .empty
  | _ =>
    match x.elems with
    | e :: rest => .got e.1 e.2 (m.setGrp gi (portPush (qSet g n { x with elems := rest }) n))
    | [] => .empty

/-- Whether a group has exited (02 R80). -/
def hasExited (m : Mach) (gi : Nat) : Bool := (m.grp gi).live = 0

/-- A push of some elements at once: done, a stall, or QUEUE_STATE (09 R212, R213). -/
def pushQ (m : Mach) (gi n : Nat) (es : List (Word × Origin)) : Option (Option Mach) :=
  let g := m.grp gi
  let x := qGet g n
  match x.bind with
  | .cmd =>
    if x.elems.length + es.length > 8 then some none
    else some (some (m.setGrp gi (qSet g n { x with elems := x.elems ++ es })))
  | .lsend k =>
    let t := m.team g.team
    let l := linkOf t k
    if l.rclosed then none
    else if l.elems.length + es.length > 8 then some none
    else some (some (m.setTeam g.team (setLink t k { l with elems := l.elems ++ es.map Prod.fst })))
  | _ => none

/-- The trap of a popped token whose status is not 0; the token is consumed (11 R266, 12 R298, 16 R368, 19 R420). -/
def tokenTrap (act : Mask) (v : Word) : Origin → Option Trap
  | .data | .tile | .rd | .sxb => none
  | .tv f => if wb v 56 8 = 0 then none else some (trapOf (causeOf (wb v 56 8)) ((v.truncate 48).signExtend 64) f)
  | .mx => if wb v 56 8 = 0 then none else some (trapOf .metaErr (BitVec.ofNat 64 (wb v 32 16)) act)
  | _ => if wb v 56 8 = 0 then none else some (trapOf (causeOf (wb v 56 8)) ((v.truncate 48).signExtend 64) act)

/-- The device before the chain with the k-th element of a queue removed: what a trapping pop leaves. -/
def consumeAt (m : Mach) (gi n k : Nat) : Mach :=
  let g := m.grp gi
  let x := qGet g n
  m.setGrp gi (qSet g n { x with elems := x.elems.take k ++ x.elems.drop (k + 1) })

/-! Sympathetic streams (02 R88 to R93). -/

/-- ITEM of a lane (04 R118). -/
def itemOf (m : Mach) (g : Group) (lane : Nat) : Nat :=
  ((m.team g.team).tid * (m.grid g.grid).lr.grps + g.gid) * g.width + lane

def streamOf (x : Grid) (item v : Nat) : Stream := Tbl.get { elems := [], released := 0, closed := none } x.streams (128 * item + v)
def setStream (x : Grid) (item v : Nat) (s : Stream) : Grid :=
  { x with streams := Tbl.set { elems := [], released := 0, closed := none } x.streams (128 * item + v) s }
def cursorOf (x : Grid) (item v k : Nat) : Nat := Tbl.get 0 x.cursors (16 * (128 * item + v) + k)

/-- One lane's sympathetic read (R89). -/
inductive SymRead where
  | val (v : Word) (x : Grid)
  | wait
  | lost
deriving Inhabited

def symRead (x : Grid) (item v k : Nat) : SymRead :=
  if item < k then
    let field := ((x.hdr.syms.find? fun s => s.1 = v).map Prod.snd).getD 0
    .val (Tbl.get 0 x.prelude (16 * field + (k - item))) x
  else
    let st := streamOf x (item - k) v
    let c := cursorOf x item v k
    if c < st.released + st.elems.length then
      if c < st.released then .lost
      else .val (st.elems.getD (c - st.released) 0) { x with cursors := Tbl.set 0 x.cursors (16 * (128 * item + v) + k) (c + 1) }
    else
      match st.closed with
      | some v => .val v x
      | none => .wait

/-- Whether a lane's read needs an element that a lane of the same voice has yet to publish (08 R204). -/
def needsOwn (m : Mach) (g : Group) (x : Grid) (vm : Mask) (lane v k : Nat) : Bool :=
  let item := itemOf m g lane
  item ≥ k && (match symRead x item v k with | .wait => true | _ => false) &&
    (lanesOf vm).any fun l => l ≠ lane && itemOf m g l + k = item

/-! Reading an operand for the lanes of Active. -/

/-- A read operand: its value in each lane and the device after pops and cursor moves, or what stops the word. -/
abbrev Rd := Except Eff (Mach × (Nat → Word))

/-- The value of a register in a lane, from the device before the chain. -/
def Cx.regVal (c : Cx) (m : Mach) (o : Opd) (lane : Nat) : Word :=
  match o with
  | .v r => vecVal m.fresh c.base c.gi r lane
  | .mo r => mortVal m.fresh c.base c.gi c.vi r lane
  | .s r => scalVal m.fresh c.base c.gi r
  | .q _ => 0

/-- A queue operand popped once (01 R30, R33). -/
def Cx.readQ (c : Cx) (m : Mach) (n : Nat) : Rd :=
  if c.act = 0 then .ok (m, fun _ => 0)
  else
    match popQ m c.gi n with
    | .bad => .error (c.raise .queueState (BitVec.ofNat 64 n) c.act)
    | .empty => .error (.stall {})
    | .got v o m1 =>
      match tokenTrap c.act v o with
      | some t => .error (.trap t (consumeAt c.base c.gi n (qCount c.base c.gi n - qCount m c.gi n)) [])
      | none => .ok (m1, fun _ => v)

/-- The register an indexed operand names in a lane (01 R34): none out of range. -/
def Cx.indexReg (c : Cx) (xn : Nat) (off : Int) (lane : Nat) : Option Nat :=
  let w := Tbl.get 0 c.g.x (64 * xn + lane)
  let r : Int := (wb w 0 7 : Int) + off
  if r < wb w 8 7 ∨ r ≥ wb w 16 7 ∨ r ≥ c.g.nv ∨ r < 0 then none else some r.toNat

/-- The lanes of Active where an indexed operand is out of range (01 R34). -/
def Cx.indexBad (c : Cx) (xn : Nat) (off : Int) : Mask :=
  maskOf (c.lanes.filter fun l => (c.indexReg xn off l).isNone)

/-- The vector registers a bounded index may name (09 R211). -/
def Cx.indexSpan (c : Cx) (xn : Nat) : List Nat :=
  c.lanes.flatMap fun l =>
    let w := Tbl.get 0 c.g.x (64 * xn + l)
    (List.range (wb w 16 7)).filter fun r => wb w 8 7 ≤ r

/-- A sympathetic operand read by every lane of Active (02 R89, R92, R93, 08 R204). No lane reads where Active is empty. A voice
one of whose lanes needs an element of another ripples first: its lanes then read, and trap, one by one (R204, R217). Where none does,
a lane whose element is lost traps before any lane waits, and a read that waits has not yet read: D(v) takes its distance when it is
performed (DEDUCED, notes/assumptions/74.md). -/
def Cx.readSym (c : Cx) (m : Mach) (v k : Nat) : Rd :=
  let gd := m.grid c.g.grid
  let ds := Tbl.get [] gd.dist v
  let addr := BitVec.ofNat 64 (256 * k + v)
  let lost := c.lanes.filter fun l => match symRead gd (itemOf m c.g l) v k with | .lost => true | _ => false
  let waits := c.lanes.filter fun l => match symRead gd (itemOf m c.g l) v k with | .wait => true | _ => false
  let own := waits.any fun l => needsOwn m c.g gd c.vmask l v k
  if c.act = 0 then .ok (m, fun _ => 0)
  else if !ds.contains k && ds.length ≥ 2 then .error (c.raise .illegalOp c.waddr c.act)
  else if own && c.voice.ripple.isNone && !gd.killed then .error (.stall { sym := some (v, k, maskOf waits), own := true })
  else if lost ≠ [] then .error (c.raise .symFault addr (maskOf lost))
  else if waits ≠ [] then
    .error (if gd.killed then c.raise .symFault addr (maskOf waits)
      else .stall { sym := some (v, k, maskOf waits), own := own })
  else
    let gd1 := if ds.contains k then gd else { gd with dist := Tbl.set [] gd.dist v (ds ++ [k]) }
    let r := c.lanes.foldl (fun (r : Grid × List (Nat × Word)) l => match symRead r.1 (itemOf m c.g l) v k with
      | .val w x => (x, (l, w) :: r.2)
      | _ => r) (gd1, [])
    .ok (m.setGrid c.g.grid r.1, fun l => Tbl.get 0 r.2 l)

/-- One source operand at a position (1 a, 2 b, 3 c), its code already checked. -/
def Cx.read (c : Cx) (m : Mach) (pos code : Nat) : Rd :=
  match c.pre.symp pos with
  | some k => c.readSym m code k
  | none =>
    match c.pre.indexed pos with
    | some (xn, off) =>
      let bad := c.indexBad xn off
      if bad ≠ 0 then .error (c.raise .indexRange c.waddr bad)
      else if (c.indexSpan xn).any fun r => busyReg c.base c.gi c.vi r then .error (.stall {})
      else .ok (m, fun l => match c.indexReg xn off l with
        | some r => vecVal m.fresh c.base c.gi r l
        | none => 0)
    | none =>
      match opdOf c.pre pos code with
      | .q n => c.readQ m n
      | o => if busyReg c.base c.gi c.vi o.key then .error (.stall {}) else .ok (m, c.regVal m o)

/-! Static checks of operand fields. -/

/-- A source field that takes every class (02 R54): the register exists; an indexed field is 0x00 and a sympathetic one
names a sympathetic register of an ordered kernel (01 R34, R35). -/
def Cx.srcOk (c : Cx) (pos code : Nat) : Bool :=
  match c.pre.symp pos with
  | some k => k ≠ 0 && c.grid.hdr.ordered && c.grid.hdr.syms.any fun s => s.1 = code
  | none =>
    match c.pre.indexed pos with
    | some _ => code = 0
    | none => (opdOf c.pre pos code).exists? c.g && (c.pre.ext pos = 0 || (opdOf c.pre pos code).isS)

/-- A destination field of classes v, m, s or q. -/
def Cx.dstOk (c : Cx) (code : Nat) : Bool :=
  match c.pre.indexed 0 with
  | some _ => code = 0
  | none => (opdOf c.pre 0 code).exists? c.g && (c.pre.ext 0 = 0 || (opdOf c.pre 0 code).isS)

/-- A prefix names only positions that are operands (01 R29, R181): the extension, index and sympathetic fields. -/
def preFits (x : Pre) (d a b c : Bool) : Bool :=
  let has := fun p => match p with | 0 => d | 1 => a | 2 => b | _ => c
  match x with
  | .k1 _ _ _ dx ax bx cx _ =>
    (d || dx = 0) && (a || ax = 0) && (b || bx = 0) && (c || cx = 0)
  | .k2 _ _ w .. => w.toNat ≤ 2 && has (w.toNat + 1)
  | .k3 _ _ w .. => has w.toNat
  | _ => true

/-- The value each position of a uniform operand class has: an operand code whose register is scalar or queue. -/
def Cx.uniformAt (c : Cx) (pos code : Nat) : Bool :=
  (c.pre.symp pos).isNone && (c.pre.indexed pos).isNone && (opdOf c.pre pos code).uniform

/-! Destination writes. -/

/-- What an outstanding word notes of lanes that a write covers. A result of the same chain that arrives (by its chain and number)
stays over an earlier member's, and notes nothing at a later one's (01 R11). -/
def Outst.over (o : Outst) (ks : List Nat) : Option (Nat × Nat) → Outst
  | none => { o with ovr := (o.ovr ++ ks).dedup }
  | some (chain, id) =>
    if o.chain ≠ chain then { o with ovr := (o.ovr ++ ks).dedup }
    else if o.id < id then { o with ovr := (o.ovr ++ ks.map (2 ^ 20 + ·)).dedup } else o

/-- Outstanding words whose destination is a register that another word writes note the lanes written: they may end with
either value (01 R24). `src` is the chain and number of an outstanding word whose late result this is. -/
def noteOver (os : List Outst) (key : Nat) (vi : Option Nat) (ks : List Nat) (src : Option (Nat × Nat)) : List Outst :=
  os.map fun o => if o.dsts.contains key && vi.all (· = o.voice) then o.over ks src else o

/-- The lanes that later members of a chain have written over the words it left outstanding stay as they wrote them (01 R11). -/
def fixOver (g : Group) (chain : Nat) : Group :=
  { g with outst := g.outst.map fun o =>
      if o.chain = chain then { o with ovr := (o.ovr.map fun k => if k < 2 ^ 20 then 2 ^ 20 + k else k).dedup } else o }

/-- Lanes of a vector register written. -/
def writeVec (g : Group) (reg : Nat) (vals : List (Nat × Word)) (src : Option (Nat × Nat) := none) : Group :=
  { g with v := vals.foldl (fun t lw => Tbl.set 0 t (64 * reg + lw.1) lw.2) g.v,
           outst := noteOver g.outst reg none (vals.map fun lw => vecKey reg lw.1) src }
/-- Lanes of a mortar register of a voice written. -/
def writeMort (g : Group) (vi reg : Nat) (vals : List (Nat × Word)) (src : Option (Nat × Nat) := none) : Group :=
  let x := Tbl.get default g.voices vi
  { g with voices := Tbl.put g.voices vi { x with mortar := vals.foldl (fun t lw => Tbl.set 0 t (64 * reg + lw.1) lw.2) x.mortar },
           outst := noteOver g.outst (96 + reg) (some vi) (vals.map fun lw => mortKey vi reg lw.1) src }
/-- A scalar register written. -/
def writeScal (g : Group) (reg : Nat) (w : Word) (src : Option (Nat × Nat) := none) : Group :=
  { g with s := Tbl.set 0 g.s reg w, outst := noteOver g.outst (128 + reg) none [scalKey reg] src }

/-- What stops a write of a destination before any lane writes: an index out of range, or an interlock (01 R34, R44). -/
def Cx.destStop (c : Cx) (code : Nat) : Option Eff :=
  match c.pre.indexed 0 with
  | some (xn, off) =>
    let bad := c.indexBad xn off
    if bad ≠ 0 then some (c.raise .indexRange c.waddr bad)
    else if (c.indexSpan xn).any fun r => busyReg c.base c.gi c.vi r then some (.stall {}) else none
  | none => if busyReg c.base c.gi c.vi (opdOf c.pre 0 code).key then some (.stall {}) else none

/-- Whether a group may push to a queue: OUT, and the receiving end of a link still open (09 R212, R213). -/
def mayPush (m : Mach) (gi n : Nat) : Bool :=
  let g := m.grp gi
  match (qGet g n).bind with
  | .cmd => true
  | .lsend k => !(linkOf (m.team g.team) k).rclosed
  | _ => false

/-- Elements that a member pushes to a queue: performed when the whole chain has popped (01 R11), QUEUE_STATE at once. -/
def Cx.pushAll (c : Cx) (m : Mach) (n : Nat) (es : List (Word × Origin)) : Eff :=
  if !mayPush c.base c.gi n then c.raise .queueState (BitVec.ofNat 64 n) c.act
  else .ok (m.setGrp c.gi { m.grp c.gi with outq := (m.grp c.gi).outq ++ [(n, es)] })

/-- The pushes of a chain performed, in word order; none where one finds too little room and the chain stalls (R11, R33). A queue
that the chain has bound anew takes nothing (DESIGN CHOICE, notes/assumptions/75.md). A word that pushes when it completes stalls its
chain while the queue holds eight. -/
def pushOut (m : Mach) (gi : Nat) : Option Mach :=
  let es := (m.grp gi).outq
  let one := fun (m : Mach) (e : Nat × List (Word × Origin)) =>
    if e.2.isEmpty then (if qCount m gi e.1 ≥ 8 then none else some m) else (pushQ m gi e.1 e.2).getD (some m)
  if es.isEmpty then some m
  else es.foldl (fun o e => o.bind fun m => one m e) (some (m.setGrp gi { m.grp gi with outq := [] }))

/-- One element pushed by a word with a queue destination (01 R33). -/
def Cx.pushOne (c : Cx) (m : Mach) (n : Nat) (vals : List (Nat × Word)) : Eff :=
  match vals with
  | [] => .ok m
  | (_, w) :: _ => c.pushAll m n [(w, .data)]

/-- A destination written at once: lanes of a vector or mortar register, one scalar, or one queue element. -/
def Cx.write (c : Cx) (m : Mach) (code : Nat) (vals : List (Nat × Word)) : Eff :=
  match c.destStop code with
  | some e => e
  | none =>
    match c.pre.indexed 0 with
    | some (xn, off) =>
      .ok (m.setGrp c.gi (vals.foldl (fun g lw => writeVec g ((c.indexReg xn off lw.1).getD 0) [lw]) (m.grp c.gi)))
    | none =>
      match opdOf c.pre 0 code with
      | .v r => .ok (m.setGrp c.gi (writeVec (m.grp c.gi) r vals))
      | .mo r => .ok (m.setGrp c.gi (writeMort (m.grp c.gi) c.vi r vals))
      | .s r =>
        match vals with
        | [] => .ok m
        | (_, w) :: _ => .ok (m.setGrp c.gi (writeScal (m.grp c.gi) r w))
      | .q n => c.pushOne m n vals

/-- The register writes a long-latency word makes when it completes, and the registers they name. -/
def Cx.wrOf (c : Cx) (code : Nat) (vals : List (Nat × Word)) : List RegWr × List Nat :=
  let first := (vals.head?.map Prod.snd).getD 0
  match c.pre.indexed 0 with
  | some (xn, off) =>
    let rs := vals.map fun lw => (lw, (c.indexReg xn off lw.1).getD 0)
    (rs.map fun r => .vec r.2 r.1.1 r.1.2, rs.map Prod.snd)
  | none =>
    match opdOf c.pre 0 code with
    | .v r => (vals.map fun lw => .vec r lw.1 lw.2, [r])
    | .mo r => (vals.map fun lw => .mort c.vi r lw.1 lw.2, [96 + r])
    | .s r => (if vals.isEmpty then [] else [.scal r first], [128 + r])
    | .q n => (if vals.isEmpty then [] else [.push n first], [256 + n])

end Sys2Proof.Machine
end

