-- ==== Sys2Proof/Machine/Ops.lean ====
section
/-!
DEFINITION. Sys2Proof/Machine/Ops.lean: the named operations every family shares: completion counters and outstanding
words, voices and their movement, the end of a course, the exit of lanes, reports and status words, killing a grid, and
taking a trap and returning from one (01 R17 to R25, 02 R75, R91, 04 R108 to R112, R121, R132, 05 R135 to R149).
-/

namespace Sys2Proof.Machine

/-! Completion counters (01 R22). -/

/-- The counter a word selects: flag A or B of its course's head; none for 15. -/
def flagOf (v : Voice) (fb : Bool) : Option Nat :=
  let h := v.code.getD 0 0
  let n := if fb then bitsOf h 13 4 else bitsOf h 17 4
  if n ≤ 11 then some n else none

/-- Whether a counter is saturated at 63 (R22). -/
def saturated (g : Group) : Option Nat → Bool
  | none => false
  | some n => counter g n ≥ 63

/-- A long-latency word added to those outstanding, its counter raised; it stalls in place on a saturated counter. In a ripple
the first lane that executes it raises the counter for every lane (08 R204). -/
def Cx.long (c : Cx) (m : Mach) (flag : Option Nat) (wr : List RegWr) (dsts : List Nat) (wait : Wait) (exc : Nat := 0)
    (float : Bool := false) : Eff :=
  let g := m.grp c.gi
  let o : Outst :=
    { id := g.nextId, flag := flag, voice := c.vi, wr := wr, wait := wait, exc := exc, dsts := dsts, float := float,
      chain := c.g.nextId, ovr := [], win := [], cap := 97, span := none }
  let v := Tbl.get default g.voices c.vi
  match v.ripple with
  | none =>
    if saturated g flag then .stall {}
    else .ok (m.setGrp c.gi { raiseFlag g flag with outst := g.outst ++ [o], nextId := g.nextId + 1 })
  | some r =>
    match r.held.find? fun h => h.1 = c.word with
    | some (_, t, _) => .ok (m.setGrp c.gi { g with outst := g.outst ++ [{ o with span := some t }], nextId := g.nextId + 1 })
    | none =>
      if saturated g flag then .stall {}
      else
        let v1 := { v with ripple := some { r with held := r.held ++ [(c.word, g.nextId, flag)] } }
        .ok (m.setGrp c.gi { raiseFlag g flag with outst := g.outst ++ [{ o with span := some g.nextId }], nextId := g.nextId + 1,
                                                   voices := Tbl.put g.voices c.vi v1 })

/-- Words of a ripple that no lane has still to issue: those whose lanes have all completed lower their counters (08 R204). -/
def closeSpans (g : Group) (held : List (Nat × Nat × Option Nat)) : Group :=
  held.foldl (fun g h => if spanOpen g (some h.2.1) then g else lowerFlag g h.2.2) g

/-- A voice whose last lane has come past words of its span: they are issued in every lane. -/
def settleSpans (g : Group) (vi : Nat) : Group :=
  let v := Tbl.get default g.voices vi
  match v.ripple with
  | none => g
  | some r =>
    if !r.rest.isEmpty then g
    else
      let past := r.held.filter fun h => decide (h.1 < v.word)
      closeSpans { g with voices := Tbl.put g.voices vi { v with ripple := some { r with held := r.held.filter fun h => !decide (h.1 < v.word) } } } past

/-- A ripple that has ended: no lane has a word of its span still to issue (08 R204). -/
def endRipple (g : Group) (vi : Nat) : Group :=
  let v := Tbl.get default g.voices vi
  match v.ripple with
  | none => g
  | some r => closeSpans { g with voices := Tbl.put g.voices vi { v with ripple := none } } r.held

/-- The counter of a word whose whole effect is a register result: none in interlocked mode (01 R44). -/
def Cx.regFlag (c : Cx) (fb : Bool) : Option Nat := if interlocked c.base c.g then none else flagOf c.voice fb
/-- The counter of every other word. -/
def Cx.flag (c : Cx) (fb : Bool) : Option Nat := flagOf c.voice fb

/-- What a lane holds after a late result: what a later member of its chain wrote (R11); else the result, or what another word wrote
there since (R24); and with a window store since, the result with the stored bytes over it, or the whole result (09 R221). Each is a
free choice. -/
def lateVal (m : Mach) (gi : Nat) (o : Outst) (key : Nat) (now val : Word) : Word :=
  if o.ovr.contains (2 ^ 20 + key) || o.ovr.contains key && Config.freeBit m.fresh (gi + 2 ^ 20 * key) then now
  else
    let bs := o.win.filter fun e => e.1 / 8 = key
    if bs.isEmpty || Config.freeBit m.fresh (gi + 2 ^ 20 * (2 ^ 17 + key)) then val
    else BitVec.ofNat 64 (bs.foldl (fun x e => x - bitsOf x (8 * (e.1 % 8)) 8 * 2 ^ (8 * (e.1 % 8)) + e.2.toNat * 2 ^ (8 * (e.1 % 8))) val.toNat)

/-- One register write of a completing word. A write to a register that give has taken away is lost (09 R224). -/
def applyWr (m : Mach) (gi : Nat) (o : Outst) (g : Group) : RegWr → Group
  | .vec r l v =>
    if r ≥ g.nv ∨ r ≥ o.cap then g else writeVec g r [(l, lateVal m gi o (vecKey r l) (Tbl.get 0 g.v (64 * r + l)) v)] (some (o.chain, o.id))
  | .mort k r l v =>
    writeMort g k r [(l, lateVal m gi o (mortKey k r l) (Tbl.get 0 (Tbl.get default g.voices k).mortar (64 * r + l)) v)]
      (some (o.chain, o.id))
  | .scal r v => writeScal g r (lateVal m gi o (scalKey r) (Tbl.get 0 g.s r) v) (some (o.chain, o.id))
  | .push .. => g

/-- The elements a completing word pushes (07 R182). -/
def pushesOf (o : Outst) : List (Nat × List (Word × Origin)) :=
  o.wr.filterMap fun w => match w with | .push q v => some (q, [(v, .data)]) | _ => none

/-- Whether a word's results can be pushed: its queues have room, and no earlier word outstanding pushes to them. -/
def canPush (m : Mach) (gi : Nat) (o : Outst) : Bool :=
  (pushesOf o).all fun e =>
    !((m.grp gi).outst.any fun p => p.id < o.id && p.dsts.contains (256 + e.1)) && (pushQ m gi e.1 e.2 != some none)

/-- A long-latency word completes: its writes, its pushes, its exceptions, its counter (R22, 06 R175). An element goes to the binding its
queue has now, and is dropped where there is none (DESIGN CHOICE, notes/assumptions/109.md). -/
def completeWord (m : Mach) (gi : Nat) (o : Outst) : Mach :=
  let g := dropOutst (m.grp gi) o
  let g1 := o.wr.foldl (fun g w => applyWr m gi o g w) g
  let m1 := m.setGrp gi { g1 with fpflags := orFlags g1.fpflags 0x1F00 (o.exc) }
  (pushesOf o).foldl (fun m e => match pushQ m gi e.1 e.2 with | some (some m') => m' | _ => m) m1

/-- An outstanding word's record replaced. -/
def setOutst (g : Group) (o : Outst) : Group := { g with outst := g.outst.map fun p => if p.id = o.id then o else p }
def findOutst (g : Group) (id : Nat) : Option Outst := g.outst.find? fun o => o.id = id

/-- An outstanding word's effect is performed: it waits for nothing more, and these are its register writes. -/
def performed (m : Mach) (gi id : Nat) (wr : List RegWr) : Mach :=
  let g := m.grp gi
  match findOutst g id with
  | none => m
  | some o => m.setGrp gi (setOutst g { o with wait := .ready, wr := o.wr ++ wr })

/-- Some register writes of an outstanding word become known while the rest of it goes on. -/
def addWr (m : Mach) (gi id : Nat) (wr : List RegWr) : Mach :=
  let g := m.grp gi
  match findOutst g id with
  | none => m
  | some o => m.setGrp gi (setOutst g { o with wr := o.wr ++ wr })

/-! Voices (04 R108 to R111). -/

/-- A voice that stands at a head. -/
def standingVoice (mask : Mask) (head : Nat) : Voice :=
  { mask := mask, head := head, inside := false, word := 0, code := [], mortar := [], stalled := false, pend := none,
    restart := none, ripple := none, entered := 0, waited := 0, aged := false, yieldTo := [], sym := none }

/-- Whether accesses that a group issued before an outstanding number have still to be performed: rows of an mxst, and tvst words that
wait for a BUSY lane; with `loads`, tvld words too, and waitc words whose satisfying read is to come. What orders the group's earlier
accesses waits for them (12 R306, 19 R421, 11 R254, R259, R281, 15 R349, R353). -/
def accessesHeld (m : Mach) (gi before : Nat) (loads : Bool) : Bool :=
  let g := m.grp gi
  ((m.core g.die g.core).mx.any fun o => o.grp = gi && o.seq ≤ before && (match o.work with | .st a .. => wb a 10 1 = 0 | _ => false)) ||
    (g.tvPend.any fun w => match w with
      | .store _ _ job => job < before
      | .load _ _ job => loads && job < before
      | _ => false) ||
    loads && g.outst.any fun o => o.id < before && (match o.wait with | .monitors (_ + 1) => true | _ => false)

/-- Whether stores that a group has issued have still to be performed. -/
def storesHeld (m : Mach) (gi : Nat) : Bool := accessesHeld m gi (m.grp gi).nextId false

/-- Whether an access that a group has issued has still to be performed: a release waits for it (11 R254, 15 R349, R360). -/
def earlierHeld (m : Mach) (gi : Nat) : Bool := accessesHeld m gi (m.grp gi).nextId true

/-- Whether an acquire waitc that a group issued before a number has its satisfying read still to come (15 R353). -/
def acquireHeld (m : Mach) (gi before : Nat) : Bool :=
  (List.range 12).any fun d => ((m.mc d).mons ++ (m.mc d).arms).any fun k => k.grp = gi && k.acq && decide (k.id < before)

/-- Whether a fence that a group issued before a number waits for earlier accesses, an acquire waitc for its read, or a halo.rel for its
snapshot: the group's later accesses wait for it (11 R259, 15 R353, 14 R336). -/
def fenceBefore (m : Mach) (gi before : Nat) : Bool :=
  (m.grp gi).outst.any (fun o => o.id < before && (match o.wait with | .held (.fence _) => true | _ => false)) ||
    acquireHeld m gi before ||
    (m.team (m.grp gi).team).halos.any fun h => match h.2.out with | some (g, id, false) => g = gi && id < before | _ => false
def fenceHeld (m : Mach) (gi : Nat) : Bool := fenceBefore m gi (m.grp gi).nextId

/-- The lowest free voice number; none when four exist. -/
def freeVoice (vs : Tbl Voice) : Option Nat := (List.range 4).find? fun n => !(vs.any fun v => v.1 = n)

/-- Parked lanes and their destinations as pairs of masks: the lowest destination and its lanes. -/
def lowestPark (park : Tbl Nat) : Option (Nat × List Nat) :=
  match firstBy (fun a b => a.2 < b.2) park with
  | none => none
  | some (_, d) => some (d, (park.filter fun e => e.2 = d).map Prod.fst)

/-- A voice put among merged ones: it joins one that stands at the same head (R109). -/
def mergeInto (n : Nat) (v : Voice) : Tbl Voice → Tbl Voice
  | [] => [(n, v)]
  | (k, w) :: rest =>
    if !v.inside && !w.inside && w.head = v.head then (k, { w with mask := w.mask ||| v.mask }) :: rest
    else (k, w) :: mergeInto n v rest

/-- Voices that stand at one head merge, the lower number keeping the union (R109). -/
def mergeVoices (vs : Tbl Voice) : Tbl Voice := vs.foldl (fun acc nv => mergeInto nv.1 nv.2 acc) []

/-- Parked lanes whose destination is a head at which a voice stands join it (R109). -/
def joinParked (vs : Tbl Voice) (park : Tbl Nat) : Tbl Voice × Tbl Nat :=
  let at? := fun d => vs.any fun v => !v.2.inside && v.2.head = d
  (vs.map fun v => if v.2.inside then v
      else (v.1, { v.2 with mask := v.2.mask ||| maskOf ((park.filter fun e => e.2 = v.2.head).map Prod.fst) }),
   park.filter fun e => !at? e.2)

/-- Merging, joining and the resumption of parked lanes by freed voices, until nothing changes (R109, R110). -/
def settleFrom : Nat → Tbl Voice → Tbl Nat → Tbl Voice × Tbl Nat
  | 0, vs, park => (vs, park)
  | n + 1, vs, park =>
    let vs1 := mergeVoices vs
    let (vs2, park2) := joinParked vs1 park
    match lowestPark park2, freeVoice vs2 with
    | some (d, ls), some k =>
      settleFrom n (Tbl.put vs2 k (standingVoice (maskOf ls) d)) (park2.filter fun e => e.2 ≠ d)
    | _, _ => (vs2, park2)

def settle (g : Group) : Group :=
  let r := settleFrom 70 g.voices g.park
  { g with voices := r.1, park := r.2 }

/-- The sets of lanes by destination, lowest destination first (02 R75); exits form no set. -/
def destSets (dests : List (Nat × Option Nat)) : List (Nat × List Nat) :=
  let moving := dests.filterMap fun d => d.2.map fun p => (d.1, p)
  let ps := (sortBy (fun a b : Nat => a < b) (moving.map Prod.snd)).dedup
  ps.map fun p => (p, (moving.filter fun d => d.2 = p).map Prod.fst)

/-- The lanes of a voice moved to their destinations: the voice keeps the first set, later sets take new voices while
there are fewer than four, and the rest are parked (02 R75). -/
def moveLanes (g : Group) (vi : Nat) (sets : List (Nat × List Nat)) : Group :=
  let wait := (Tbl.get default g.voices vi).yieldTo
  let g0 := { g with voices := Tbl.del g.voices vi }
  let place := fun (acc : Group × Bool) (s : Nat × List Nat) =>
    let (g, first) := acc
    let k := if first then some vi else freeVoice g.voices
    match k with
    | some n =>
      let nv := { standingVoice (maskOf s.2) s.1 with yieldTo := if first then wait else [] }
      ({ g with voices := Tbl.put g.voices n nv }, false)
    | none => ({ g with park := s.2.foldl (fun t l => Tbl.put t l s.1) g.park }, false)
  settle (sets.foldl place (g0, true)).1

/-! The exit of lanes (02 R80, R91, 09 R213). -/

/-- The streams of an item that exits close, with the register's value at the exit (R91). -/
def closeItem (m : Mach) (g : Group) (lane : Nat) : Mach :=
  let gd := m.grid g.grid
  if !gd.hdr.ordered then m
  else
    let item := itemOf m g lane
    let gd1 := gd.hdr.syms.foldl (fun x s =>
      let st := streamOf x item s.1
      match st.closed with
      | some _ => x
      | none => setStream x item s.1 { st with closed := some (Tbl.get 0 g.v (64 * s.1 + lane)) }) gd
    m.setGrid g.grid { gd1 with exited := Tbl.set 0 gd1.exited item 1 }

/-- The ends of a group's links close (09 R213). -/
def closeLinks (m : Mach) (gi : Nat) : Mach :=
  let t := m.team (m.grp gi).team
  let mine := fun (e : Option (Nat × Nat)) => match e with | some s => s.1 = gi | none => false
  m.setTeam (m.grp gi).team
    { t with links := t.links.map fun l =>
        (l.1, { l.2 with closed := l.2.closed || mine l.2.send, rclosed := l.2.rclosed || mine l.2.recv }) }

/-- The monitors of a group are disarmed and their words count as complete (15 R354, 18 R392). -/
def disarm (m : Mach) (gi : Nat) : Mach :=
  let m1 := (List.range 12).foldl (fun m d =>
    let x := m.mc d
    m.setMc d { x with mons := x.mons.filter fun k => k.grp ≠ gi, arms := x.arms.filter fun k => k.grp ≠ gi }) m
  let g := m1.grp gi
  let isMon := fun (o : Outst) => match o.wait with | .monitors _ => true | _ => false
  m1.setGrp gi ((g.outst.filter isMon).foldl dropOutst g)

/-- The monitor entries of lanes that exit are freed; the words do not count those lanes as satisfied (18 R392, 15 R352; DEDUCED,
notes/assumptions/88.md). -/
def freeMonitors (m : Mach) (gi : Nat) (ls : List Nat) : Mach :=
  let less := fun (ks : List Monitor) =>
    (ks.map fun k => if k.grp = gi then { k with lanes := k.lanes &&& ~~~(maskOf ls) } else k).filter fun k => k.lanes ≠ 0
  (List.range 12).foldl (fun m d =>
    let x := m.mc d
    if (x.mons ++ x.arms).any fun k => k.grp = gi then m.setMc d { x with mons := less x.mons, arms := less x.arms } else m) m

/-- A group's hold on the SXB port of its core given up (11 R261, 19 R410). -/
def dropPort (m : Mach) (gi : Nat) : Mach :=
  let g := m.grp gi
  let c := m.core g.die g.core
  match c.sxb with
  | some o => if o.1 = gi then (m.setCore g.die g.core { c with sxb := none }) else m
  | none => m

/-- Lanes exit for good. A group whose last lane exits drains: its links, its monitors and its SXB port are given up
(04 R132, 19 R410). -/
def exitLanes (m : Mach) (gi : Nat) (ls : List Nat) : Mach :=
  if ls.isEmpty then m
  else
    let g := m.grp gi
    let m1 := ls.foldl (fun m l => closeItem m g l) m
    let g1 := m1.grp gi
    let live := g1.live &&& ~~~(maskOf ls)
    let m2 := freeMonitors (m1.setGrp gi { g1 with live := live }) gi ls
    if live = 0 then dropPort (disarm (closeLinks m2 gi) gi) gi else m2

/-! The end of a course (01 R17). -/

/-- Whether a word is a coping (R16). -/
def isCoping (w : Nat) : Bool := bitsOf w 25 6 = 1

/-- The coping promotions of a course: mortar register and vector register. -/
def promotions (code : List Nat) : List (Nat × Nat) :=
  match code.getLast? with
  | none => []
  | some w =>
    if isCoping w then
      (if bitAt w 24 then [(bitsOf w 21 3, bitsOf w 14 7)] else []) ++ (if bitAt w 13 then [(bitsOf w 10 3, bitsOf w 3 7)] else [])
    else []

/-- The packet after a course. -/
def fallThrough (v : Voice) : Nat := v.head + v.code.length / 3

/-- A word outstanding whose destination is a mortar register of this voice (R17). -/
def mortarBusy (g : Group) (vi : Nat) : Bool :=
  g.outst.any fun o => o.voice = vi && o.dsts.any fun d => 96 ≤ d && d < 104

/-- What the end of a course waits for: its mortar results, and in interlocked mode the words whose destination is a vector
register that its coping promotes to (R17, R44). -/
def courseBusy (m : Mach) (gi vi : Nat) : Bool :=
  mortarBusy (m.grp gi) vi || (promotions (Tbl.get default (m.grp gi).voices vi).code).any fun p => busyReg m gi vi p.2

/-- Promotions, retirement and the transfer, in the order of R17. -/
def retireCourse (m : Mach) (gi vi : Nat) (dests : List (Nat × Option Nat)) : Mach :=
  let g := m.grp gi
  let v := Tbl.get default g.voices vi
  let g1 := (promotions v.code).foldl (fun g p =>
    writeVec g p.2 ((lanesOf v.mask).map fun l => (l, Tbl.get 0 v.mortar (64 * p.1 + l)))) g
  let g2 := { g1 with prog := min (g1.prog + 1) 0xFFFFFFFF }
  let m1 := exitLanes (m.setGrp gi g2) gi ((dests.filter fun d => d.2.isNone).map Prod.fst)
  m1.setGrp gi (moveLanes (m1.grp gi) vi (destSets dests))

/-- A course ends: at once, or when what its end waits for has completed (R17, R44). -/
def finishCourse (m : Mach) (gi vi : Nat) (dests : List (Nat × Option Nat)) : Mach :=
  let g := m.grp gi
  if courseBusy m gi vi then
    let v := Tbl.get default g.voices vi
    m.setGrp gi { g with voices := Tbl.put g.voices vi { v with pend := some dests, stalled := true } }
  else retireCourse m gi vi dests

/-! Reports and status words (04 R121, 05 R148, 21 R437). -/

/-- The 128-byte status word's bits (04 R121). -/
def statusWord (state reason cause : Nat) : Word := BitVec.ofNat 64 (cause * 2 ^ 24 + reason * 2 ^ 16 + state)

/-- The key of a physical address that the device itself uses: region 3 is reached through leaves alone (10 R229). -/
def plainKey (m : Mach) (p pa : Nat) : Option Nat := if bitsOf pa 44 2 = 3 then none else paKey m p pa

/-- A fault-log report put into the ring, or lost (21 R437). -/
def appendReport (m : Mach) (p : Nat) (ws : List Word) : Mach :=
  let x := m.part p
  let cap := 2 ^ x.flogsize.toNat
  let used := (x.floghead + 2 ^ 32 - x.flogtail) % 2 ^ 32
  if used ≥ cap then
    m.setPart p { x with flogovf := true, floglost := min (x.floglost + 1) (2 ^ 32 - 1) }
  else
    let pa := x.flogbase.toNat + 64 * (x.floghead % cap)
    let m1 := match plainKey m p pa with
      | some key => wrBytes m key (ws.flatMap (fun (w : Word) => toBytes 8 w.toNat))
      | none => m
    let y := m1.part p
    m1.setPart p { y with floghead := (x.floghead + 1) % 2 ^ 32, msix := if used = 0 then y.msix + 1 else y.msix }

/-- The rights of a grid's own accesses. -/
def whoGrid (m : Mach) (gr : Nat) : Who :=
  let x := m.grid gr
  { part := x.part, ctx := x.ctx, grid := gr, team := m.teams.length, priv := x.lr.priv, spec := false, narrow := false,
    die := 12, core := 0 }

/-- The rights of a group's accesses. -/
def whoGroup (m : Mach) (gi : Nat) : Who :=
  let g := m.grp gi
  let x := m.grid g.grid
  { part := x.part, ctx := x.ctx, grid := g.grid, team := g.team, priv := x.lr.priv, spec := x.lr.spec, narrow := false,
    die := g.die, core := g.core }

/-! Accesses held at migrating pages (10 R244), and accesses that find no route (21 R444). -/

/-- What an access held at an address waits for: a tlbinv, where the page it lies on migrates; a route; else, none of these, the end
of a region transfer (14 R331). -/
inductive HeldFor where
  | page | route | xfer
deriving DecidableEq, Repr, Inhabited

def heldFor (m : Mach) (w : Who) (va : Nat) : HeldFor :=
  match translation m w.part w.ctx va with
  | .leaf e lg =>
    if pteMig e then .page
    else match paKey m w.part (ptePa e + va % 2 ^ lg) with
      | some key => if routed m w.bed (routeKey m w key) then .xfer else .route
      | none => .xfer
  | _ => .xfer

/-- A hold of a party that begins now. -/
def newHold (m : Mach) (w : Who) (grp who va : Nat) : Hold :=
  { grp := grp, who := who, ctx := w.ctx, va := va, noRoute := heldFor m w va = .route, bed := w.bed, since := m.time }

/-- Whether an access of a party is held. -/
def isHeld (m : Mach) (gi who : Nat) : Bool :=
  (m.part (m.grid (m.grp gi).grid).part).holds.any fun h => h.grp = gi && h.who = who

/-- Addresses at which an access that a group makes, or asks an engine for, is held from now on. -/
def holdFor (m : Mach) (w : Who) (gi who : Nat) (vas : List Nat) : Mach :=
  let vs := vas.filter fun va => heldFor m w va ≠ .xfer
  if vs.isEmpty then m
  else m.setPart w.part { m.part w.part with holds := (m.part w.part).holds ++ vs.map fun va => newHold m w gi who va }
def holdAt (m : Mach) (gi who : Nat) (vas : List Nat) : Mach := holdFor m (whoGroup m gi) gi who vas

/-- Whether an engine's access that a group asked for is held at the page of an address, and the pages at which such accesses are held
from now on: 5 stands for the engines. -/
def pageHeld (m : Mach) (gi va : Nat) : Bool :=
  (m.part (m.grid (m.grp gi).grid).part).holds.any fun h => h.grp = gi && h.who = 5 && h.va / 2 ^ 16 = va / 2 ^ 16
def holdPages (m : Mach) (w : Who) (gi : Nat) (vas : List Nat) : Mach :=
  let firsts := vas.foldl (fun l va => if l.any fun x => x / 2 ^ 16 = va / 2 ^ 16 then l else l ++ [va]) []
  holdFor m w gi 5 (firsts.filter fun va => !pageHeld m gi va)

/-- The holds of a group given up. -/
def dropHolds (m : Mach) (gi : Nat) : Mach :=
  let p := (m.grid (m.grp gi).grid).part
  if (m.part p).holds.any fun h => h.grp = gi then
    m.setPart p { m.part p with holds := (m.part p).holds.filter fun h => h.grp ≠ gi }
  else m

/-- What the cores that a grid's teams stand on have not yet made visible at device scope is made visible (04 R121). -/
def releaseGrid (m : Mach) (gr : Nat) : Mach :=
  (((m.teams.filter fun t => t.grid = gr && !t.groups.isEmpty).map fun t => (t.die, t.core)).dedup).foldl (fun m c => flushC1 m c.1 c.2) m

/-- A word of a grid's launch record written by the device, as a release at system scope: held at a migrating page, lost with a report
of kind 5 when the record can no longer be written (04 R121). -/
def writeStatus (m0 : Mach) (gr : Nat) (w : Word) : Mach :=
  let m := releaseGrid m0 gr
  let x := m.grid gr
  match checkVa m { whoGrid m gr with priv := true } .store 8 false (x.recAddr + 0x78).toNat with
  | .ok l =>
    let m1 := doStore (pinLocs m [(0, l)]) (whoGrid m gr) 8 w.toNat l
    m1.setGrid gr { m1.grid gr with stat := none }
  | .held => m.setGrid gr { x with stat := some w }
  | _ => appendReport (m.setGrid gr { x with stat := none }) x.part [0x500, x.recAddr, 0, 0, 0, 0, 0, 0]

/-- Status words held at a page of a context are tried again when a tlbinv covers it (10 R244). -/
def retryStatus (m : Mach) (p ctx : Nat) (covers : Nat → Bool) : Mach :=
  (List.range m.grids.length).foldl (fun m i =>
    let x := m.grid i
    match x.stat with
    | some w => if x.part = p && x.ctx = ctx && covers (x.recAddr + 0x78).toNat then writeStatus m i w else m
    | none => m) m

/-- A report of kind 1 that describes a group (05 R148). -/
def killReport (m : Mach) (gi code cause : Nat) (addr tpc mask pp : Word) : List Word :=
  let g := m.grp gi
  let t := m.team g.team
  [BitVec.ofNat 64 (code * 2 ^ 32 + 0x100 + cause), (m.grid g.grid).recAddr, BitVec.ofNat 64 (g.gid * 2 ^ 32 + t.tid),
    addr, tpc, mask, pp, BitVec.ofNat 64 (g.resid * 2 ^ 16 + g.core * 2 ^ 8 + g.die)]

/-- A member of a collective is failed: every other member that runs here performs the chunk in progress, and those after it,
without it (18 R398, R399). -/
def failMember (m : Mach) (gid seq : Word) (mem : Nat) : Mach :=
  { m with colls := m.colls.map fun c =>
      if c.gid = gid && c.seq = seq && !c.ended && c.member ≠ mem && !c.failed.contains mem then
        { c with failed := c.failed ++ [mem], first := some (c.first.getD c.next) }
      else c }

/-- A member's collective ends here: its staging is free. -/
def endColl (m : Mach) (k : Nat) : Mach :=
  match m.colls[k]? with
  | none => m
  | some c =>
    let m1 := if c.staged then m.setMc c.die { m.mc c.die with staged := (m.mc c.die).staged - 2 * c.chunk } else m
    { m1 with colls := setAt m1.colls k { c with ended := true, staged := false } }

/-- The collectives of a group that is killed: each is a failed member (18 R398). -/
def dropColls (m : Mach) (gi : Nat) : Mach :=
  (List.range m.colls.length).foldl (fun m k => match m.colls[k]? with
    | some c => if c.grp = gi && !c.ended then endColl (failMember m c.gid c.seq c.member) k else m
    | none => m) m

/-- The teams of a grid that a ctxsv stopped run on (05 R156). -/
def unstop (m : Mach) (gr : Nat) : Mach :=
  { m with teams := m.teams.map fun t => if t.grid = gr && t.stopping = some 2 then { t with stopping := none } else t }

/-- The grids that a group's ctxsv words outstanding are saving. -/
def savesOf (g : Group) : List Nat := g.outst.filterMap fun o => match o.wait with | .ctxsv gr _ _ => some gr | _ => none

/-- Every engine forgets what a group asked of it: work not yet performed is not performed (05 R147). -/
def forgetGroup (m : Mach) (gi : Nat) : Mach :=
  let g := m.grp gi
  let c := m.core g.die g.core
  let keep := c.mx.filter fun o => o.grp ≠ gi
  let m1 := m.setCore g.die g.core
    { c with claims := c.claims.filter (· ≠ gi), ce := c.ce.filter fun k => k.grp ≠ gi, mx := keep,
             reqs := c.reqs.filter fun r => r.grp ≠ gi }
  let m2 := (List.range 12).foldl (fun m d =>
    let x := m.mc d
    m.setMc d { x with ts := x.ts.filter fun r => r.grp ≠ gi }) m1
  (savesOf g).foldl unstop (disarm (dropColls m2 gi) gi)

/-- A group stops where it stands and drains (05 R147 steps 2 to 7). A voice that waits on a sympathetic read of a killed
grid records SYM_FAULT; of several in one group, whose trap registers are one set, the first of the voice table (DESIGN CHOICE,
notes/assumptions/99.md). -/
def stopGroup (m : Mach) (gi : Nat) (killed : Bool) : Mach :=
  let m1 := forgetGroup m gi
  let g := m1.grp gi
  let waiting := g.voices.findSome? fun v => v.2.sym.map fun s => (v.2, s)
  let g1 := match waiting with
    | some (v, r, k, ms) =>
      if killed then { g with tcause := 0x0F, taddr := BitVec.ofNat 64 (256 * k + r), tmask := ms,
                              tpc := BitVec.ofNat 64 (v.word * 2 ^ 48 + v.head % 2 ^ 48) } else g
    | none => g
  dropPort (dropHolds (closeLinks (m1.setGrp gi
    { g1 with voices := [], park := [], live := 0, outst := [], stopped := true, trap := none, tvu := [], tvJobs := [],
              tvPend := [], repack := none, f := [], outq := [] }) gi) gi) gi

/-- Whether an OPEN shadow is a grid's own: it opened the shadow, or a grid that is not speculative opened it in the
context of this speculative one (11 R277, R280, 04 R131; DEDUCED, notes/assumptions/10.md). -/
def ownShadow (m : Mach) (gr : Nat) (s : Shadow) : Bool :=
  let x := m.grid gr
  s.isOpen && (s.grid = gr || (x.lr.spec && s.ctx = x.ctx && !(m.grid s.grid).lr.spec))

/-- An OPEN shadow published, or its writer target dropped (11 R278, R279). -/
def publishOne (s : Shadow) : Shadow := { s with rp := s.wp, wp := [], isOpen := false }
def dropOne (s : Shadow) : Option Shadow :=
  if s.isOpen && !s.rp.isEmpty then some { s with isOpen := false, wp := [] } else none

/-- The cached translations of a shadowed buffer's pages dropped, in every context and at every address that reaches them
(10 R252). -/
def dropPages (m : Mach) (p : Nat) (s : Shadow) : Mach :=
  let x := m.part p
  let touches := fun (t : TlbEnt) => s.pages.any fun pg => match paKey m p (ptePa t.leaf) with
    | some key => key / 2 ^ 16 ≤ pg && pg < key / 2 ^ 16 + 2 ^ (t.lg - 16)
    | none => false
  m.setPart p { x with tlb := x.tlb.filter fun t => !(t.ctx = s.ctx && s.va < t.va + 2 ^ t.lg && t.va < s.va + 2 ^ 16 * s.pages.length) && !touches t }

/-- The shadows that are a grid's own are dropped, as shdrop drops them, or published at one instant (11 R279, R280). -/
def dropShadows (m : Mach) (gr : Nat) : Mach :=
  let p := (m.grid gr).part
  let x := m.part p
  (x.shadows.filter fun s => ownShadow m gr s).foldl (fun m s => dropPages m p s)
    (m.setPart p { x with shadows := x.shadows.filterMap fun s => if ownShadow m gr s then dropOne s else some s })
def publishShadows (m : Mach) (gr : Nat) : Mach :=
  let p := (m.grid gr).part
  let x := m.part p
  (x.shadows.filter fun s => ownShadow m gr s).foldl (fun m s => dropPages m p s)
    (m.setPart p { x with shadows := x.shadows.map fun s => if ownShadow m gr s then publishOne s else s })

/-- The groups of a grid that are resident. -/
def groupsOf (m : Mach) (gr : Nat) : List Nat :=
  (List.range m.groups.length).filter fun i => (m.grp i).grid = gr && !(m.grp i).freed

/-! The context pool: runs of whole 64 KiB units (05 R153). -/

/-- Whether n units from a unit on are free. -/
def poolClear (x : Part) (first n : Nat) : Bool :=
  first + n ≤ x.poolsize.toNat && x.runs.all fun r => decide (first + n ≤ r.1) || decide (r.1 + r.2 ≤ first)

/-- The lowest-addressed free run of n units. -/
def poolFind (x : Part) (n : Nat) : Option Nat :=
  (sortBy (fun a b : Nat => a < b) (0 :: x.runs.map fun r => r.1 + r.2)).find? fun f => poolClear x f n

/-- A run taken; none when no free run is long enough. -/
def poolTake (m : Mach) (p n : Nat) : Option (Mach × (Nat × Nat)) :=
  (poolFind (m.part p) n).map fun f => (m.setPart p { m.part p with runs := (m.part p).runs ++ [(f, n)] }, (f, n))

/-- A run returned. -/
def poolGive (m : Mach) (p : Nat) : Option (Nat × Nat) → Mach
  | none => m
  | some r => m.setPart p { m.part p with runs := (m.part p).runs.filter (· ≠ r) }

/-- 64 KiB units that hold some bytes. -/
def unitsOf (bytes : Nat) : Nat := max 1 ((bytes + 65535) / 65536)

/-- Whether a queue entry belongs to a grid. -/
def ofGrid (m : Mach) (gr : Nat) : QEnt → Bool
  | .grid g => g = gr
  | .team t => (m.team t).grid = gr

/-- A group's place on its core given up; a claim victim's area returns to the pool (04 R132, 09 R216, R225). -/
def dropGroup (m : Mach) (gi : Nat) (keep : Bool) : Mach :=
  let g := m.grp gi
  (dropPort (poolGive m (m.grid g.grid).part g.vrun) gi).setGrp gi { g with freed := true, victim := false, vrun := none, holdsRes := keep }

/-! Halo handles (14 R336, R339). -/

/-- The neighbour's team in a direction. -/
def haloMate (m : Mach) (ti : Nat) (d : List Word) (dir : Nat) : Option Nat := (m.team ti).cluster[haloRank d dir]?

/-- The halo of a handle; none when the team has not declared it. -/
def haloOf (m : Mach) (ti h : Nat) : Option Halo := ((m.team ti).halos.find? fun e => e.1 = h).map Prod.snd
def setHalo (m : Mach) (ti h : Nat) (x : Halo) : Mach := m.setTeam ti { m.team ti with halos := Tbl.put (m.team ti).halos h x }

/-- A team's handle dropped: its undelivered snapshots and its replicas go, and the replicas of its neighbours' strips of that
handle on its own core; an outstanding release of it waits for nothing more (R339). A neighbour's release goes on waiting for this team
(R336). -/
def dropHalo (m : Mach) (ti h : Nat) : Mach :=
  match haloOf m ti h with
  | none => m
  | some x =>
    let t := m.team ti
    let m1 := m.setTeam ti { t with halos := Tbl.del t.halos h }
    let m2 := match x.out with
      | some (g, id, _) => performed m1 g id []
      | none => m1
    t.cluster.foldl (fun m u => match haloOf m u h with
      | none => m
      | some y =>
        setHalo m u h { y with repl := y.repl.filter fun k => haloMate m u y.desc k.1 ≠ some ti }) m2

/-- Every handle that a team holds dropped, as a release at device scope (R339). -/
def dropHalos (m : Mach) (ti : Nat) : Mach :=
  let t := m.team ti
  if t.halos.isEmpty then m else (t.halos.map Prod.fst).foldl (fun m h => dropHalo m ti h) (flushC1 m t.die t.core)

/-- A team that is complete: its slots and tiles are FREE, its reservations and save area are returned, its halo tiles end
(04 R132, 09 R216, 12 R283, R286, 05 R153). -/
def endTeam (m : Mach) (ti : Nat) : Mach :=
  let t := m.team ti
  let m1 := t.groups.foldl (fun m i => dropGroup m i false) (cleanSpad (dropHalos m ti) ti)
  let c := m1.core t.die t.core
  let m2 := m1.setCore t.die t.core
    { c with slots := c.slots.filter fun s => s.2.team ≠ ti, tiles := c.tiles.filter fun s => s.2 ≠ ti + 1 }
  (poolGive m2 (m.grid t.grid).part (t.kept.bind fun s => s.run)).setTeam ti
    { t with place := .complete, stopping := none, kept := none, halos := [], spad := [], idle := none }

/-- The teams of a grid that are not complete. -/
def teamsOf (m : Mach) (gr : Nat) : List Nat :=
  (List.range m.teams.length).filter fun i => (m.team i).grid = gr && (m.team i).place ≠ .complete

/-- What a grid that stops leaves behind: no queue entry, its saved teams dropped, its stream tail returned (05 R147, R153). -/
def clearGrid (m : Mach) (gr : Nat) : Mach :=
  let x := m.grid gr
  let p := m.part x.part
  let m1 := m.setPart x.part { p with queues := (p.queues.map fun q => (q.1, q.2.filter fun e => !ofGrid m gr e)).filter (fun q => !q.2.isEmpty) }
  let m2 := ((teamsOf m1 gr).filter fun t => (m1.team t).place ≠ .resident).foldl endTeam m1
  (poolGive m2 x.part x.tail).setGrid gr { m2.grid gr with tail := none }

/-- A team put at the front of its launch queue (04 R124, 05 R149, R150). -/
def queueFront (m : Mach) (ti : Nat) : Mach :=
  let x := m.grid (m.team ti).grid
  let p := m.part x.part
  let q := 8 * x.lr.cls + x.lr.prio
  m.setPart x.part { p with queues := Tbl.set [] p.queues q (.team ti :: (Tbl.get [] p.queues q).filter (· ≠ .team ti)) }

/-- KillGrid: every group stops, open shadows drop, the report is appended and state 4 written (05 R147). Only the first
kill of a grid is recorded. -/
def killGrid (m : Mach) (gr cause : Nat) (report : Option (List Word)) : Mach :=
  let x := m.grid gr
  if x.killed || x.ended then m
  else
    let m1 := m.setGrid gr { x with killed := true, cause := cause }
    let m2 := (groupsOf m1 gr).foldl (fun m i => stopGroup m i true) m1
    let m3 := clearGrid m2 gr
    let m4 := if x.lr.spec then dropShadows m3 gr else m3
    let m5 := match report with
      | some ws => appendReport m4 x.part ws
      | none => m4
    let m6 := m5.setGrid gr { m5.grid gr with ended := true }
    writeStatus m6 gr (statusWord 4 0 cause)

/-- A kill that describes a group: the group that issued the failing word, with what a token would carry (R148). -/
def killFor (m : Mach) (gi cause : Nat) (addr : Word) : Mach :=
  killGrid m (m.grp gi).grid cause (some (killReport m gi 0 cause addr 0 0 0))

/-! HandleUE (05 R149). -/

/-- A lifetime counter stops at 2^64 - 1 (21 R448). -/
def countUp (t : Tbl Nat) (k : Nat) : Tbl Nat := Tbl.set 0 t k (min (Tbl.get 0 t k + 1) (2 ^ 64 - 1))

/-- The shadows that a team of a speculative grid opened are dropped (05 R147 step 6, for one team by R149). -/
def dropTeamShadows (m : Mach) (ti : Nat) : Mach :=
  let x := m.grid (m.team ti).grid
  let p := m.part x.part
  let mine := fun (s : Shadow) => s.isOpen && s.grid = (m.team ti).grid && s.team = ti
  if !x.lr.spec then m
  else (p.shadows.filter mine).foldl (fun m s => dropPages m x.part s)
    (m.setPart x.part { p with shadows := p.shadows.filterMap fun s => if mine s then dropOne s else some s })

/-- A team begins again from R130: its groups are gone and it stands at the front of its queue. -/
def relaunchTeam (m : Mach) (ti : Nat) : Mach :=
  let t := m.team ti
  let m1 := t.groups.foldl (fun m i => dropGroup (stopGroup m i false) i false) (cleanSpad (dropHalos (dropTeamShadows m ti) ti) ti)
  let c := m1.core t.die t.core
  let m2 := m1.setCore t.die t.core
    { c with slots := c.slots.filter fun s => s.2.team ≠ ti, tiles := c.tiles.filter fun s => s.2 ≠ ti + 1 }
  let m3 := poolGive m2 (m.grid t.grid).part (t.kept.bind fun s => s.run)
  m3.setTeam ti
    { t with groups := [], place := .queued, spad := [], bars := [], clbars := [], cbs := [], f := t.f0, halos := [], links := [],
             rpMask := none, rpPhase := 0, relaunches := t.relaunches + 1, stopping := none, kept := none, idle := none }

/-- What an uncorrectable error does to the team that holds the storage. -/
def handleUE (m : Mach) (ti : Nat) : Mach :=
  let t := m.team ti
  let x := m.grid t.grid
  if x.hdr.idem && x.lr.idem && !x.lr.ordered && t.relaunches < 3 then
    let m1 := appendReport (relaunchTeam m ti) x.part
      [0x200 + 0x11, x.recAddr, BitVec.ofNat 64 t.tid, 0, 0, 0, 0, BitVec.ofNat 64 (t.core * 2 ^ 8 + t.die)]
    let m2 := queueFront m1 ti
    { m2 with pk := { m2.pk with life := { m2.pk.life with relaunches := countUp m2.pk.life.relaunches t.die } } }
  else
    killGrid m t.grid 0x11 (some [0x100 + 0x11, x.recAddr, BitVec.ofNat 64 t.tid, 0, 0, 0, 0, BitVec.ofNat 64 (t.core * 2 ^ 8 + t.die)])

/-! Taking a trap and returning from one (05 R139 to R143). -/

/-- The packet and word of a chain, as TPC holds them (R138). -/
def tpcOf (head word : Nat) : Word := BitVec.ofNat 64 (word * 2 ^ 48 + head % 2 ^ 48)

/-- The partial-progress word (R143). -/
def ppOf (t : Trap) (member : Nat) : Word := BitVec.ofNat 64 (boolNat t.done * 2 ^ 63 + t.elem * 2 ^ 8 + member)

/-- The 8-byte words of a trap frame after hpc, with their offsets (R140). -/
def frameWords (m : Mach) (gi : Nat) (tv : Nat) : List (Nat × Word) :=
  let g := m.grp gi
  let w := g.width
  let vo := fun n => (g.voices.find? fun v => v.1 = n).map Prod.snd
  [(0x008, g.tcause), (0x010, g.taddr), (0x018, g.tpc), (0x020, g.tmask), (0x028, g.pp), (0x030, BitVec.ofNat 64 tv), (0x038, g.live)]
  ++ (List.range 4).flatMap (fun n => match vo n with
      | some v => [(0x040 + 16 * n, BitVec.ofNat 64 (2 ^ 63 + boolNat v.inside * 2 ^ 62 + v.word * 2 ^ 48 + v.head % 2 ^ 48)), (0x048 + 16 * n, v.mask)]
      | none => [(0x040 + 16 * n, 0), (0x048 + 16 * n, 0)])
  ++ (List.range 4).flatMap (fun s => (List.range 8).flatMap fun r => (List.range w).map fun l =>
      (0x100 + 8 * (w * (8 * s + r) + l), match vo s with
        | some v => Tbl.get 0 v.mortar (64 * r + l)
        | none => 0))
  ++ (List.range w).map (fun l => (0x100 + 256 * w + 8 * l, match g.park.find? fun e => e.1 = l with
      | some e => BitVec.ofNat 64 (2 ^ 63 + e.2 % 2 ^ 48)
      | none => 0))

/-- How writing or reading a frame ends. -/
inductive FrameR where
  | done (m : Mach) | held (va : Nat) | failed (c : Cause)
deriving Inhabited

/-- Frame words written one by one, with plain device-scope stores (R139). -/
def writeFrame (w : Who) (f : Nat) : List (Nat × Word) → Mach → FrameR
  | [], m => .done m
  | (off, v) :: rest, m =>
    match checkVa m w .store 8 true (f + off) with
    | .ok l => writeFrame w f rest (putAt m w 8 v.toNat l)
    | .held => .held (f + off)
    | .bad c _ => .failed c
    | .ue => .failed .sramUe

/-- The granules that a frame's words stand in pinned, where their leaves are sync-class (18 R388). -/
def pinFrame (m : Mach) (w : Who) (f words : Nat) : Mach := if isWindow f then m else pinRange m w f (8 * words)

/-- A frame word read; the address where it is held. -/
def readFrame (m : Mach) (w : Who) (va : Nat) : Except (Nat ⊕ Cause) Nat :=
  match checkVa m w .load 8 true va with
  | .ok l => if seePoison m 8 l then .error (.inr .sramUe) else .ok (seeNum m w 8 l)
  | .held => .error (.inl va)
  | .bad c _ => .error (.inr c)
  | .ue => .error (.inr .sramUe)

/-- A mortar register of the group is among the destinations of a word outstanding (R139). -/
def anyMortarBusy (g : Group) : Bool := g.outst.any fun o => o.dsts.any fun d => 96 ≤ d && d < 104

/-- The trap's entry: the handler started, the grid killed, or the entry held (R139). -/
def enterTrap (m : Mach) (gi : Nat) : Mach :=
  let g := m.grp gi
  match g.trap with
  | none => m
  | some p =>
    let cause := p.trap.cause.code
    let f := wb g.tvec 8 40 * 256
    let kill := fun (m : Mach) =>
      killGrid m g.grid cause (some (killReport m gi 0 cause g.taddr g.tpc g.tmask g.pp))
    if p.trap.cause = .sramUe then handleUE (m.setGrp gi { g with trap := none }) g.team
    else if p.trap.cause = .symFault && (m.grid g.grid).killed then stopGroup (m.setGrp gi { g with trap := none }) gi true
    else if g.inhandler || f = 0 then kill (m.setGrp gi { g with trap := none })
    else if anyMortarBusy g || isHeld m gi 4 then m
    else
      let w := whoGroup m gi
      let m0 := pinFrame m w f 1
      match readFrame m0 w f with
      | .error (.inl va) => holdAt m gi 4 [va]
      | .error (.inr _) => kill (m0.setGrp gi { g with trap := none })
      | .ok hpc =>
        match writeFrame w f (frameWords m gi p.voice) m0 with
        | .held va => holdAt m gi 4 [va]
        | .failed _ => kill (m0.setGrp gi { g with trap := none })
        | .done m1 =>
          let g1 := m1.grp gi
          let h : Handler := { voices := g1.voices, park := g1.park, tv := p.voice, first := p.first, after := p.after, bases := p.bases }
          (dropHolds m1 gi).setGrp gi
            { g1 with trap := none, inhandler := true, handler := some h, park := [],
                      voices := [(0, standingVoice g1.live (hpc % 2 ^ 48))] }

/-- A voice raises a cause: the trap registers are set and the entry begun (R137 to R139). TPC names the chain's first word (01 R12),
for a brk that is not its first member too (DESIGN CHOICE, notes/assumptions/100.md). -/
def raiseTrap (m : Mach) (gi : Nat) (p : PendTrap) : Mach :=
  let g := m.grp gi
  let v := Tbl.get default g.voices p.voice
  enterTrap (m.setGrp gi
    { g with tcause := BitVec.ofNat 64 p.trap.cause.code, taddr := p.trap.addr, tpc := tpcOf v.head p.first, tmask := p.trap.mask,
             pp := ppOf p.trap p.member, trap := some p }) gi

/-- The ripple of a voice less the lanes that have exited: the running lane if it lives, else the next one from the first word
of the span on; none left when every lane still to run has exited. -/
def liveRipple (live : Mask) (v : Voice) : Voice :=
  match v.ripple with
  | none => v
  | some r =>
    let rest := r.rest.filter fun l => live.getLsbD l
    if live.getLsbD r.lane then { v with ripple := some { r with rest := rest } }
    else match rest with
      | l :: ls => { v with word := r.first, ripple := some { r with lane := l, rest := ls } }
      | [] => { v with word := v.code.length, ripple := some { r with rest := [] } }

/-- What rett puts back: the voice and park tables of the trap less exited lanes, in a transfer still waiting for mortar results
too, the mortar sets of the frame, and the trapping voice placed by the partial-progress word (R142, R143). A word of a ripple whose
last lanes have exited has issued in every lane that lives (08 R204). A trap taken at a head has no chain: with done set by software the voice stands at that head again (DESIGN CHOICE, notes/assumptions/76.md). -/
def returnTrap (m : Mach) (gi : Nat) (h : Handler) (p : Word) (mort : Nat → Nat → Nat → Word) : Mach :=
  let g := m.grp gi
  let done := wb p 63 1 = 1
  let elem := wb p 8 24
  let put := fun (nv : Nat × Voice) =>
    let v := nv.2
    let mask := v.mask &&& g.live
    let ks := (List.range 8).flatMap fun r => (List.range g.width).map fun l => (64 * r + l, mort nv.1 r l)
    let mt := ks.foldl (fun t k => Tbl.set 0 t k.1 k.2) []
    let v1 := liveRipple g.live
      { v with mask := mask, mortar := if v.inside then mt else [], stalled := false, sym := none,
               pend := v.pend.map fun ds => ds.filter fun d => g.live.getLsbD d.1 }
    if nv.1 = h.tv then
      if done then (nv.1, { v1 with word := h.after, restart := none })
      else if (v.ripple.map Ripple.lane) ≠ (v1.ripple.map Ripple.lane) then (nv.1, v1)
      else (nv.1, { v1 with word := h.first, restart := if elem = 0 && h.bases.isEmpty then none else some (wb p 0 2, elem, h.bases) })
    else (nv.1, v1)
  let vs := (h.voices.map put).filter fun v => v.2.mask ≠ 0
  let lost := (h.voices.filter fun v => !(vs.any fun u => u.1 = v.1)).flatMap fun v => (v.2.ripple.map Ripple.held).getD []
  let park := h.park.filter fun e => g.live.getLsbD e.1
  let g1 := { g with inhandler := false, handler := none, voices := vs, park := park }
  m.setGrp gi (settle (closeSpans ((vs.map Prod.fst).foldl settleSpans g1) lost))

end Sys2Proof.Machine
end

