-- ==== Sys2Proof/Machine/Issue.lean ====
section
/-!
DEFINITION. Sys2Proof/Machine/Issue.lean: issuing one member of a chain: the chain rules, the guard, the ripple, and how
a member's effect becomes the next state (01 R10 to R13, R17, R19, R30, 08 R204, 09 R217).
-/

namespace Sys2Proof.Machine

/-- A voice of a group; none when the number is free. -/
def voiceAt (m : Mach) (gi vi : Nat) : Option Voice := ((m.grp gi).voices.find? fun v => v.1 = vi).map Prod.snd
def setVoice (m : Mach) (gi vi : Nat) (v : Voice) : Mach :=
  m.setGrp gi { m.grp gi with voices := Tbl.put (m.grp gi).voices vi v }

/-- The last instruction word of a course: the last word, or the one before the coping (01 R14). -/
def lastWord (code : List Nat) : Nat :=
  code.length - 1 - (match code.getLast? with | some w => if isCoping w then 1 else 0 | none => 0)

/-- The word after the chain that holds a word (01 R10), within some number of members. -/
def chainEnd (code : List Nat) : Nat → Nat → Nat
  | 0, w => w
  | n + 1, w =>
    let b := if bitsOf (code.getD w 0) 25 6 = 2 then w + 1 else w
    if bitAt (code.getD b 0) 31 then chainEnd code n (b + 1) else b + 1

/-- The end of a voice's words: the next lane of a ripple, or the end of the course, falling through (R17, R204). -/
def endOfWords (m : Mach) (gi vi : Nat) : Mach :=
  match voiceAt m gi vi with
  | none => m
  | some v =>
    let out := (lanesOf v.mask).map fun l => (l, some (fallThrough v))
    match v.ripple with
    | none => finishCourse m gi vi out
    | some r =>
      match r.rest with
      | l :: ls => setVoice m gi vi { v with word := r.first, ripple := some { r with lane := l, rest := ls } }
      | [] => finishCourse (m.setGrp gi (endRipple (m.grp gi) vi)) gi vi out

/-- A chain that has issued: its word, the trap a brk or sys leaves behind it, and the end of the course. -/
def commit (m : Mach) (gi vi first next : Nat) (late : Option (Nat × Trap)) (dests : Option (List (Nat × Option Nat))) : Mach :=
  match voiceAt m gi vi with
  | none => m
  | some v =>
    let v1 := { v with word := next, stalled := false, sym := none, restart := none, waited := 0, aged := false }
    let m0 := setVoice m gi vi v1
    let m1 := if v.ripple.isSome then m0.setGrp gi (settleSpans (m0.grp gi) vi) else m0
    match late, dests with
    | some (k, t), _ => raiseTrap m1 gi { voice := vi, first := first, after := next, trap := t, member := k, bases := [] }
    | none, some ds => finishCourse (m1.setGrp gi (endRipple (m1.grp gi) vi)) gi vi ds
    | none, none => if next > lastWord v.code then endOfWords m1 gi vi else m1

/-- What a stalled chain leaves: the device before the chain, the voice marked and its accesses held; or the ripple of R204
begun, when a read needs an element of another lane of the voice. -/
def stallAt (base : Mach) (gi vi first : Nat) (why : Stall) : Mach :=
  match voiceAt base gi vi with
  | none => base
  | some v =>
    match why.own && v.ripple.isNone, lanesOf v.mask with
    | true, l :: ls =>
      setVoice base gi vi { v with stalled := false, sym := none, ripple := some { first := first, lane := l, rest := ls, held := [] } }
    | _, _ => holdAt (setVoice base gi vi { v with stalled := true, sym := why.sym }) gi vi why.held

/-- The device before the chain in progress. -/
def State.base (s : State) : Mach := match s.chain with | some c => c.base | none => s.m
def State.used (s : State) : List Pipe := match s.chain with | some c => c.used | none => []
def State.member (s : State) : Nat := match s.chain with | some c => c.member | none => 0
def State.late (s : State) : Option (Nat × Trap) := match s.chain with | some c => c.late | none => none
def State.firstWord (s : State) (v : Voice) : Nat := match s.chain with | some c => c.first | none => v.word

/-- The lanes a word runs in: the running lane of a ripple, else all (R204). -/
def Voice.turn (v : Voice) : Mask := match v.ripple with | some r => 1#64 <<< r.lane | none => fullMask 64

/-- What a member sees when it issues (02 R54). A transfer word runs once for the whole voice (R204). -/
def cxOf (s : State) (gi vi : Nat) (v : Voice) (xf : Bool) (x : Pre) : Cx :=
  let full := v.mask &&& guardMask (s.base.grp gi) x
  { gi := gi, vi := vi, pre := x, base := s.base, act := if xf then full else full &&& v.turn, full := full, vmask := v.mask,
    first := s.firstWord v, word := v.word, bword := if x = .none then v.word else v.word + 1, member := s.member }

/-- A cause raised by a member: nothing of the chain is written but what the trap itself leaves (R12). -/
def trapState (c : Cx) (v : Voice) (t : Trap) (m : Mach) (bases : List (Nat × Word)) : State → State := fun s =>
  { s with m := raiseTrap m c.gi { voice := c.vi, first := c.first, after := chainEnd v.code 5 c.first, trap := t,
                                   member := c.member, bases := bases },
           chain := none, cur := none }

/-- The device after the last member of a chain: what its members wrote over each other's late results stays (R11). -/
def Cx.settled (c : Cx) (m : Mach) : Mach := if c.member = 0 then m else m.setGrp c.gi (fixOver (m.grp c.gi) c.g.nextId)

/-- A member that took effect: the chain goes on, or its pushes are performed and it is committed; where a push finds no room
the whole chain stalls (R11). -/
def memberDone (c : Cx) (_v : Voice) (cls : Option Pipe) (ch : Bool) (late : Option (Nat × Trap))
    (dests : Option (List (Nat × Option Nat))) (m : Mach) (s : State) : State :=
  let next := c.bword + 1
  if ch then
    { s with m := (match voiceAt m c.gi c.vi with | some w => setVoice m c.gi c.vi { w with word := next } | none => m),
             chain := some { base := c.base, used := s.used ++ cls.toList, first := c.first, member := c.member + 1, late := late } }
  else
    { s with m := (match pushOut (c.settled m) c.gi with
               | some m1 => commit m1 c.gi c.vi c.first next late dests
               | none => stallAt c.base c.gi c.vi c.first {}),
             chain := none, pipes := s.used ++ cls.toList, cur := none }

/-- Whether a member's class is one its chain has used (R10). -/
def conflicts (s : State) : Option Pipe → Bool
  | some p => s.used.contains p
  | none => false

/-- One member issued by a voice inside a course. The first faulting member ends the chain: a later ldm or stm that would fault too
performs none of its elements (DESIGN CHOICE, notes/assumptions/101.md). -/
def issueAt (gi vi : Nat) (v : Voice) (cls : Option Pipe) (xf : Bool) (x : Pre) (ch : Bool) (body : Cx → Mach → Eff)
    (s : State) : State :=
  let c := cxOf s gi vi v xf x
  if conflicts s cls then trapState c v (trapOf .chainConflict c.waddr c.act) c.base [] s
  else if xf && (match v.ripple with | some r => !r.rest.isEmpty | none => false) then memberDone c v cls ch s.late none s.m s
  else
    match body c s.m with
    | .ok m => memberDone c v cls ch s.late none m s
    | .late t m => memberDone c v cls ch (some (c.member, t)) none m s
    | .xfer ds m => memberDone c v cls ch s.late (some ds) m s
    | .gone m => { s with m := (pushOut (c.settled m) gi).getD (stallAt c.base gi vi c.first {}), chain := none, cur := none }
    | .trap t m bases => trapState c v t m bases s
    | .stall why => { s with m := stallAt c.base gi vi c.first why, chain := none, cur := none }

/-- A word's meaning: its body run for the voice that issues now. -/
def issue (cls : Option Pipe) (xf : Bool) (x : Pre) (ch : Bool) (body : Cx → Mach → Eff) (s : State) :
    Host.Outcome State Fault Refusal :=
  match s.cur with
  | none => .fault .noVoice
  | some (gi, vi) =>
    match voiceAt s.m gi vi with
    | none => .fault .noVoice
    | some v => if v.inside then .next (issueAt gi vi v cls xf x ch body s) else .fault .noVoice

/-- The class of a word that writes a destination: CTL when it names a scalar or queue register (01 R10, R32). -/
def destClass (x : Pre) (p : Pipe) (d : Nat) : Pipe :=
  if (x.indexed 0).isNone && (opdOf x 0 d).uniform then .ctl else p

end Sys2Proof.Machine
end

