-- ==== Sys2Proof/Machine/Alu.lean ====
section
/-!
DEFINITION. Sys2Proof/Machine/Alu.lean: what every format-A word with register operands shares: the checks of its prefix and
operand fields, the reading of its sources in order, and the writing of its result at once or when it completes
(01 R27 to R35, R45, 02 R54 to R56, 07 R181 to R183).
-/

namespace Sys2Proof.Machine

/-- What a word does with its operand positions and its prefix fields. -/
structure Use where
  d : Bool
  a : Bool
  b : Bool
  c : Bool
  rnd : Bool
  sat : Bool
  /-- sub-elements of b a sube prefix may name; 1 where it may not -/
  sub : Nat
  /-- width of those sub-elements -/
  subw : Nat
  long : Bool
  /-- d is read as well as written -/
  rmw : Bool
deriving DecidableEq, Repr, Inhabited

def Use.dab : Use :=
  { d := true, a := true, b := true, c := false, rnd := false, sat := false, sub := 1, subw := 64, long := false, rmw := false }
def Use.da : Use := { Use.dab with b := false }
def Use.dabc : Use := { Use.dab with c := true }

/-- The prefix fields a word may carry (R27, R29). -/
def Cx.preOk (c : Cx) (u : Use) : Bool :=
  PreClass.alu.accepts c.pre && !c.pre.strayI &&
    (if u.rnd then c.pre.rnd ≤ 5 else c.pre.rnd = 0) && (u.sat || !c.pre.sat) &&
    (match c.pre.sube with | none => true | some i => u.b && u.sub > 1 && i < u.sub) &&
    (u.c || (c.pre.c?.getD 0) = 0) && (u.long || !c.pre.flg) && preFits c.pre u.d u.a u.b u.c

/-- The operand fields of a word whose d, a, b and c are operand codes where it uses them (R31, R32). -/
def Cx.fieldsOk (c : Cx) (u : Use) (d a b : Nat) : Bool :=
  let cc := c.pre.c?.getD 0
  (!u.d || c.dstOk d) && (!u.a || c.srcOk 1 a) && (!u.b || c.srcOk 2 b) && (!u.c || c.pre.c?.isNone || c.srcOk 3 cc) &&
    (!(u.d && (c.pre.indexed 0).isNone && (opdOf c.pre 0 d).uniform) ||
      ((!u.a || c.uniformAt 1 a) && (!u.b || c.uniformAt 2 b) && (!u.c || c.pre.c?.isNone || c.uniformAt 3 cc)))

/-- A source read where the word uses it, else zero. -/
def Cx.readIf (c : Cx) (use : Bool) (m : Mach) (pos code : Nat) : Rd := if use then c.read m pos code else .ok (m, fun _ => 0)

/-- b with the sub-element a sube prefix names in every position (R29). -/
def Cx.spread (c : Cx) (u : Use) (x : Word) : Word :=
  match c.pre.sube with
  | some i => packElems u.subw u.sub fun _ => elemOf x u.subw i
  | none => x

/-- The sources of a word, popped in the order a, b, c (02 R55). -/
def Cx.sources (c : Cx) (m : Mach) (u : Use) (a b : Nat) : Except Eff (Mach × (Nat → Word) × (Nat → Word) × (Nat → Word)) :=
  match c.readIf u.a m 1 a with
  | .error e => .error e
  | .ok (m1, va) =>
    match c.readIf u.b m1 2 b with
    | .error e => .error e
    | .ok (m2, vb) =>
      match c.readIf (u.c && c.pre.c?.isSome) m2 3 (c.pre.c?.getD 0) with
      | .error e => .error e
      | .ok (m3, vc) => .ok (m3, va, fun l => c.spread u (vb l), vc)

/-- The value a destination holds in a lane before the word. -/
def Cx.oldVal (c : Cx) (m : Mach) (d lane : Nat) : Word :=
  match c.pre.indexed 0 with
  | some (xn, off) =>
    match c.indexReg xn off lane with
    | some r => vecVal m.fresh c.base c.gi r lane
    | none => 0
  | none => c.regVal m (opdOf c.pre 0 d) lane

/-- FPFLAGS after a word's exceptions, under the enables of MODE as it stood at issue (06 R173, R175). -/
def Cx.orExc (c : Cx) (m : Mach) (e : Exc) : Mach :=
  let g := m.grp c.gi
  m.setGrp c.gi { g with fpflags := orFlags g.fpflags c.g.mode e }

/-- A long-latency register result: written, or pushed, with its exceptions, when the word completes (07 R182). A word with a
queue destination stalls in place while the queue holds eight, after the pops of its chain (01 R11, R33). -/
def Cx.longResult (c : Cx) (m : Mach) (d : Nat) (vals : List (Nat × Word)) (fb : Bool) (e : Exc) (float : Bool) : Eff :=
  if vals.isEmpty then .ok m
  else
    match c.destStop d with
    | some e => e
    | none =>
      let go := c.long m (c.regFlag fb) (c.wrOf d vals).1 (c.wrOf d vals).2 .ready (enabledExc c.g.mode e) float
      match (c.pre.indexed 0).isNone, opdOf c.pre 0 d with
      | true, .q n =>
        match go with
        | .ok m1 => c.pushAll m1 n []
        | e => if mayPush c.base c.gi n then e else c.raise .queueState (BitVec.ofNat 64 n) c.act
      | _, _ => go

/-- A word that computes each lane of d from the same lane of a, b, c and of d itself. -/
def aluBody (u : Use) (d a b : Nat) (f : Cx → Nat → Word → Word → Word → Word → Word × Exc) (c : Cx) (m : Mach) : Eff :=
  if !(c.preOk u && c.fieldsOk u d a b) then c.illegal
  else
    match c.sources m u a b with
    | .error e => e
    | .ok (m1, va, vb, vc) =>
      let rs := c.lanes.map fun l => (l, f c l (va l) (vb l) (vc l) (if u.rmw then c.oldVal m1 d l else 0))
      let exc := rs.foldl (fun e r => e ||| r.2.2) 0
      let vals := rs.map fun r => (r.1, r.2.1)
      if u.long then c.longResult m1 d vals c.pre.flg exc true
      else if exc = 0 then c.write m1 d vals
      else
        match c.write m1 d vals with
        | .ok m2 => .ok (c.orExc m2 exc)
        | e => e

/-- A predicate written in the lanes of Active; p7 discards it (02 R58). -/
def Cx.writePred (c : Cx) (m : Mach) (p : Nat) (v : Nat → Bool) : Mach :=
  if p ≥ 7 then m
  else
    let g := m.grp c.gi
    let new : Mask := (Tbl.get 0 g.p p &&& ~~~c.act) ||| maskOf (c.lanes.filter v)
    m.setGrp c.gi { g with p := Tbl.set 0 g.p p new }

/-- A predicate's value in the device before the chain; p7 is true. -/
def Cx.predVal (c : Cx) (p : Nat) : Mask := if p = 7 then fullMask 64 else Tbl.get 0 c.g.p p

/-- A word that compares a and b in each lane and writes a predicate. -/
def predBody (u : Use) (p a b : Nat) (f : Cx → Word → Word → Bool × Exc) (c : Cx) (m : Mach) : Eff :=
  if !(c.preOk u && c.fieldsOk u 0 a b) then c.illegal
  else
    match c.sources m u a b with
    | .error e => e
    | .ok (m1, va, vb, _) =>
      let rs := c.lanes.map fun l => (l, f c (va l) (vb l))
      let m2 := c.writePred m1 p fun l => ((rs.find? fun r => r.1 = l).map fun r => r.2.1).getD false
      let exc := rs.foldl (fun e r => e ||| r.2.2) 0
      .ok (if exc = 0 then m2 else c.orExc m2 exc)

/-- One lane from its sub-elements: 32-bit results fill the lane by R45. -/
def laneFrom (sgn : Bool) (w n : Nat) (g : Nat → Nat) : Word := if w = 32 ∧ n = 1 then lane32 sgn (g 0) else packElems w n g

/-- A word of the ALU family issued with its class. -/
def aluWord (p : Pipe) (x : Pre) (ch : Bool) (u : Use) (d a b : Nat) (f : Cx → Nat → Word → Word → Word → Word → Word × Exc)
    (s : State) : Host.Outcome State Fault Refusal :=
  issue (some (destClass x p d)) false x ch (aluBody u d a b f) s

end Sys2Proof.Machine
end

