-- ==== Sys2Proof/Machine/IntAlu.lean ====
section
/-!
DEFINITION. Sys2Proof/Machine/IntAlu.lean: the meanings of majors 0x04 to 0x0D: integer arithmetic, comparison, selection,
conversion and address arithmetic (02 R56 to R61).
-/

namespace Sys2Proof.Machine

/-- Sub-elements a sube prefix may name: those of a packed type (01 R29). -/
def subOf (t : IntTy) : Nat := tyCount t

/-- A lane computed sub-element by sub-element: exact, then wrapped or clamped into the type (R56). -/
def intLane (t : IntTy) (sat : Bool) (f : Int → Int → Int → Int) (x y z : Word) : Word :=
  let w := tyWidth t
  laneFrom (tySigned t) w (tyCount t) fun n =>
    narrow (tySigned t) sat w (f (readInt (tySigned t) w (elemOf x w n)) (readInt (tySigned t) w (elemOf y w n))
      (readInt (tySigned t) w (elemOf z w n)))

/-- An integer word of two or three sources (R57). -/
def intWord (x : Pre) (ch : Bool) (t : IntTy) (u : Use) (d a b : Nat) (f : Int → Int → Int → Int) (s : State) :
    Host.Outcome State Fault Refusal :=
  aluWord .alu x ch { u with sub := subOf t, subw := tyWidth t } d a b
    (fun c _ va vb vc _ => (intLane t c.pre.sat f va vb vc, 0)) s

/-- ADD (R57). -/
def execAdd (x : Pre) (ch : Bool) (t : IntTy) (d a b : BitVec 7) (s : State) : Host.Outcome State Fault Refusal :=
  intWord x ch t { Use.dab with sat := true } d.toNat a.toNat b.toNat (fun p q _ => p + q) s

/-- SUB (R57). -/
def execSub (x : Pre) (ch : Bool) (t : IntTy) (d a b : BitVec 7) (s : State) : Host.Outcome State Fault Refusal :=
  intWord x ch t { Use.dab with sat := true } d.toNat a.toNat b.toNat (fun p q _ => p - q) s

/-- MUL (R57). -/
def execMul (x : Pre) (ch : Bool) (t : IntTy) (d a b : BitVec 7) (s : State) : Host.Outcome State Fault Refusal :=
  intWord x ch t { Use.dab with sat := true } d.toNat a.toNat b.toNat (fun p q _ => p * q) s

/-- MULH: the upper half of the exact product (R57). -/
def execMulh (x : Pre) (ch : Bool) (t : IntTy) (d a b : BitVec 7) (s : State) : Host.Outcome State Fault Refusal :=
  intWord x ch t Use.dab d.toNat a.toNat b.toNat (fun p q _ => p * q / 2 ^ tyWidth t) s

/-- MAD (R57). -/
def execMad (x : Pre) (ch : Bool) (t : IntTy) (d a b : BitVec 7) (s : State) : Host.Outcome State Fault Refusal :=
  intWord x ch t { Use.dabc with sat := true } d.toNat a.toNat b.toNat (fun p q r => p * q + r) s

/-- NEG, signed majors only (R57). -/
def execIneg (x : Pre) (ch : Bool) (t : IntTy) (d a : BitVec 7) (s : State) : Host.Outcome State Fault Refusal :=
  if tySigned t then intWord x ch t { Use.da with sat := true } d.toNat a.toNat 0 (fun p _ _ => -p) s
  else issue (some (destClass x .alu d.toNat)) false x ch (fun c _ => c.illegal) s

/-- ABS, signed majors only (R57). -/
def execIabs (x : Pre) (ch : Bool) (t : IntTy) (d a : BitVec 7) (s : State) : Host.Outcome State Fault Refusal :=
  if tySigned t then intWord x ch t { Use.da with sat := true } d.toNat a.toNat 0 (fun p _ _ => if p < 0 then -p else p) s
  else issue (some (destClass x .alu d.toNat)) false x ch (fun c _ => c.illegal) s

/-- MIN (R57). -/
def execImin (x : Pre) (ch : Bool) (t : IntTy) (d a b : BitVec 7) (s : State) : Host.Outcome State Fault Refusal :=
  intWord x ch t Use.dab d.toNat a.toNat b.toNat (fun p q _ => min p q) s

/-- MAX (R57). -/
def execImax (x : Pre) (ch : Bool) (t : IntTy) (d a b : BitVec 7) (s : State) : Host.Outcome State Fault Refusal :=
  intWord x ch t Use.dab d.toNat a.toNat b.toNat (fun p q _ => max p q) s

/-- The packed sum of absolute differences: a 32-bit sum, the upper half zero (R57). -/
def sadLane (t : IntTy) (sat : Bool) (x y z : Word) : Word :=
  let w := tyWidth t
  let sum := (List.range (tyCount t)).foldl (fun a n =>
    a + (readInt (tySigned t) w (elemOf x w n) - readInt (tySigned t) w (elemOf y w n)).natAbs) (wb z 0 32)
  BitVec.ofNat 64 (if sat then min sum 0xFFFFFFFF else sum % 2 ^ 32)

/-- SAD (R57). -/
def execSad (x : Pre) (ch : Bool) (t : IntTy) (d a b : BitVec 7) (s : State) : Host.Outcome State Fault Refusal :=
  if tyCount t = 1 then
    intWord x ch t { Use.dabc with sat := true } d.toNat a.toNat b.toNat (fun p q r => (p - q).natAbs + r) s
  else
    aluWord .alu x ch { Use.dabc with sat := true, sub := subOf t, subw := tyWidth t } d.toNat a.toNat b.toNat
      (fun c _ va vb vc _ => (sadLane t c.pre.sat va vb vc, 0)) s

/-- ADD3 (R57). -/
def execAdd3 (x : Pre) (ch : Bool) (t : IntTy) (d a b : BitVec 7) (s : State) : Host.Outcome State Fault Refusal :=
  intWord x ch t { Use.dabc with sat := true } d.toNat a.toNat b.toNat (fun p q r => p + q + r) s

/-- CMP: a predicate per lane of Active (R58). -/
def execCmp (x : Pre) (ch : Bool) (t : IntTy) (n : BitVec 4) (p : BitVec 3) (a b : BitVec 7) (s : State) :
    Host.Outcome State Fault Refusal :=
  issue (some .alu) false x ch (fun c m =>
    if tyCount t ≠ 1 ∨ n.toNat > 5 then c.illegal
    else predBody { Use.dab with d := false } p.toNat a.toNat b.toNat (fun _ va vb =>
      let w := tyWidth t
      (intCond n.toNat (readInt (tySigned t) w (wb va 0 w)) (readInt (tySigned t) w (wb vb 0 w)), 0)) c m) s

/-- The predicate sel names: c[2:0] of a kind-0 prefix, else p7; and the prefix without it (R59). -/
def selPred : Pre → Nat × Pre
  | .k0 n g c r st su i f => (c.toNat, .k0 n g 0 r st su i f)
  | x => (7, x)

/-- SEL (R59): lane by lane. A scalar or queue d takes the choice of the lowest lane of Active (DESIGN CHOICE,
notes/assumptions/79.md). -/
def execSel (x : Pre) (ch : Bool) (t : IntTy) (d a b : BitVec 7) (s : State) : Host.Outcome State Fault Refusal :=
  let pn := (selPred x).1
  issue (some (destClass x .alu d.toNat)) false x ch (fun c m =>
    if pn > 7 then c.illegal
    else aluBody { Use.dab with sub := subOf t, subw := tyWidth t } d.toNat a.toNat b.toNat
      (fun c l va vb _ _ => (intLane t false (fun p q _ => if (c.predVal pn).getLsbD l then p else q) va vb 0, 0))
      { c with pre := (selPred x).2 } m) s

/-- MOV (R57). -/
def execMov (x : Pre) (ch : Bool) (t : IntTy) (d a : BitVec 7) (s : State) : Host.Outcome State Fault Refusal :=
  intWord x ch t Use.da d.toNat a.toNat 0 (fun p _ _ => p) s

/-- The sub-elements of a conversion: d written at its places from a's, the part h choosing which (R60, 07 R190). -/
def partLane (dw cd : Nat) (dsgn : Bool) (sw cs h : Nat) (f : Nat → Nat × Exc) (a old : Word) : Word × Exc :=
  let k := min cd cs
  let one := fun (acc : Word × Exc) n =>
    let si := if cs > cd then h * k + n else n
    let di := if cs > cd then n else h * k + n
    let r := f (elemOf a sw si)
    (if dw = 32 ∧ cd = 1 then lane32 dsgn r.1 else setElem acc.1 dw di r.1, acc.2 ||| r.2)
  (List.range k).foldl one (old, 0)

/-- A part number a conversion accepts (R60). -/
def partOk (cd cs h : Nat) : Bool := h * min cd cs + min cd cs ≤ max cd cs && (cd ≠ cs || h = 0)

/-- A word that converts between types, its d read as well as written and never a queue (R60, 07 R190). -/
def partBody (ok : Bool) (u : Use) (d a : Nat) (f : Cx → Word → Word → Word × Exc) (c : Cx) (m : Mach) : Eff :=
  if !ok || ((c.pre.indexed 0).isNone && (opdOf c.pre 0 d).isQ) then c.illegal
  else aluBody { u with rmw := true } d a 0 (fun c _ va _ _ old => f c va old) c m

/-- CVT (R60). -/
def execCvt (x : Pre) (ch : Bool) (t : IntTy) (d a : BitVec 7) (h : BitVec 3) (k : BitVec 4) (s : State) :
    Host.Outcome State Fault Refusal :=
  let st := tyOfCode k.toNat
  issue (some (destClass x .alu d.toNat)) false x ch
    (partBody (k.toNat ≤ 9 && partOk (tyCount t) (tyCount st) h.toNat) { Use.da with sat := true } d.toNat a.toNat
      (fun c va old => partLane (tyWidth t) (tyCount t) (tySigned t) (tyWidth st) (tyCount st) h.toNat
        (fun e => (narrow (tySigned t) c.pre.sat (tyWidth t) (readInt (tySigned st) (tyWidth st) e), 0)) va old)) s

/-- LEA (R61). -/
def execLea (x : Pre) (ch : Bool) (t : LTy) (d a b : BitVec 7) (s : State) : Host.Outcome State Fault Refusal :=
  aluWord .alu x ch Use.dabc d.toNat a.toNat b.toNat (fun _ _ va vb vc _ =>
    let e : Word := if t = .i64 then (vb.truncate 32).signExtend 64 else (vb.truncate 32).zeroExtend 64
    (va + (e <<< wb vc 0 3), 0)) s

end Sys2Proof.Machine
end

