-- ==== Sys2Proof/Machine/FloatAlu.lean ====
section
/-!
DEFINITION. Sys2Proof/Machine/FloatAlu.lean: the meanings of majors 0x18 to 0x1F: float arithmetic, comparison, conversion,
dot products, tapered packing, division, square root and the special functions (07 R180 to R203).
-/

namespace Sys2Proof.Machine

/-- Format, width and sub-elements of a float type (07 R180). -/
def ftFmt : FTy → Fmt
  | .f32 | .f32x2 => .f32
  | .f16x4 => .f16
  | .bf16x4 => .bf16
def ftWidth : FTy → Nat
  | .f32 | .f32x2 => 32
  | .f16x4 | .bf16x4 => 16
def ftCount : FTy → Nat
  | .f32 => 1 | .f32x2 => 2 | .f16x4 | .bf16x4 => 4

/-- The float types in the order of their majors. -/
def ftOfCode : Nat → FTy
  | 0 => .f32 | 1 => .f32x2 | 2 => .f16x4 | _ => .bf16x4

/-- How the word rounds (R183). -/
def Cx.env (c : Cx) : FEnv := envOf c.g.mode c.pre.rnd c.pre.sat

/-- A lane computed position by position, with the exceptions of every position (06 R174). -/
def floatLane (t : FTy) (f : Nat → Nat × Exc) : Word × Exc :=
  let rs := (List.range (ftCount t)).map f
  (laneFrom false (ftWidth t) (ftCount t) fun n => (rs.getD n (0, 0)).1, rs.foldl (fun e r => e ||| r.2) 0)

/-- An element read under fzi. -/
def felem (t : FTy) (v : FEnv) (x : Word) (n : Nat) : FVal := readF (ftFmt t) v.fzi (elemOf x (ftWidth t) n)

/-- A float word that works position by position (R181). -/
def floatWord (p : Pipe) (x : Pre) (ch : Bool) (t : FTy) (u : Use) (d a b : Nat)
    (f : FEnv → (Nat → FVal) → (Nat → FVal) → (Nat → FVal) → Nat → Nat × Exc) (s : State) : Host.Outcome State Fault Refusal :=
  aluWord p x ch { u with sub := ftCount t, subw := ftWidth t } d a b (fun c _ va vb vc _ =>
    floatLane t (f c.env (felem t c.env va) (felem t c.env vb) (felem t c.env vc))) s

def Use.round (u : Use) : Use := { u with rnd := true, sat := true }

/-- FADD (R185). -/
def execFadd (x : Pre) (ch : Bool) (t : FTy) (d a b : BitVec 7) (s : State) : Host.Outcome State Fault Refusal :=
  floatWord .alu x ch t Use.dab.round d.toNat a.toNat b.toNat (fun v p q _ n => addF (ftFmt t) v (p n) (q n)) s

/-- FSUB (R185). -/
def execFsub (x : Pre) (ch : Bool) (t : FTy) (d a b : BitVec 7) (s : State) : Host.Outcome State Fault Refusal :=
  floatWord .alu x ch t Use.dab.round d.toNat a.toNat b.toNat (fun v p q _ n => subF (ftFmt t) v (p n) (q n)) s

/-- FMUL (R185). -/
def execFmul (x : Pre) (ch : Bool) (t : FTy) (d a b : BitVec 7) (s : State) : Host.Outcome State Fault Refusal :=
  floatWord .alu x ch t Use.dab.round d.toNat a.toNat b.toNat (fun v p q _ n => mulRF (ftFmt t) v (p n) (q n)) s

/-- FFMA: one rounding (R185, 06 R176). -/
def execFfma (x : Pre) (ch : Bool) (t : FTy) (d a b : BitVec 7) (s : State) : Host.Outcome State Fault Refusal :=
  floatWord .alu x ch t Use.dabc.round d.toNat a.toNat b.toNat
    (fun v p q r n => fusedSum (ftFmt t) v (r n) [p n] [q n]) s

/-- FMIN (R186). -/
def execFmin (x : Pre) (ch : Bool) (t : FTy) (d a b : BitVec 7) (s : State) : Host.Outcome State Fault Refusal :=
  floatWord .alu x ch t Use.dab d.toNat a.toNat b.toNat (fun _ p q _ n => minMaxF (ftFmt t) false (p n) (q n)) s

/-- FMAX (R186). -/
def execFmax (x : Pre) (ch : Bool) (t : FTy) (d a b : BitVec 7) (s : State) : Host.Outcome State Fault Refusal :=
  floatWord .alu x ch t Use.dab d.toNat a.toNat b.toNat (fun _ p q _ n => minMaxF (ftFmt t) true (p n) (q n)) s

/-- FCMP: FP32 only, a quiet comparison (R187). -/
def execFcmp (x : Pre) (ch : Bool) (n : BitVec 4) (p : BitVec 3) (a b : BitVec 7) (s : State) :
    Host.Outcome State Fault Refusal :=
  issue (some .alu) false x ch (fun c m =>
    if n.toNat > 7 then c.illegal
    else predBody { Use.dab with d := false } p.toNat a.toNat b.toNat (fun c va vb =>
      let y := felem .f32 c.env va 0
      let z := felem .f32 c.env vb 0
      (condF n.toNat y z, if y.isSnan || z.isSnan then excIv else 0)) c m) s

/-- FCLASS: from the raw bits (R188). -/
def execFclass (x : Pre) (ch : Bool) (t : FTy) (d a : BitVec 7) (s : State) : Host.Outcome State Fault Refusal :=
  aluWord .alu x ch Use.da d.toNat a.toNat 0 (fun _ _ va _ _ _ =>
    floatLane t fun n => (classF (ftFmt t) (elemOf va (ftWidth t) n), 0)) s

/-- FRND (R189). -/
def execFrnd (x : Pre) (ch : Bool) (t : FTy) (d a : BitVec 7) (s : State) : Host.Outcome State Fault Refusal :=
  floatWord .alu x ch t { Use.da with rnd := true } d.toNat a.toNat 0 (fun v p _ _ n => frndF (ftFmt t) v.rm (p n)) s

/-- FCVT (R190). -/
def execFcvt (x : Pre) (ch : Bool) (t : FTy) (d a : BitVec 7) (h : BitVec 3) (k : BitVec 2) (s : State) :
    Host.Outcome State Fault Refusal :=
  let st := ftOfCode k.toNat
  issue (some (destClass x .alu d.toNat)) false x ch
    (partBody (partOk (ftCount t) (ftCount st) h.toNat) Use.da.round d.toNat a.toNat (fun c va old =>
      partLane (ftWidth t) (ftCount t) false (ftWidth st) (ftCount st) h.toNat
        (fun e => match readF (ftFmt st) c.env.fzi e with
          | .nan sg => ((ftFmt t).nan, if sg then excIv else 0)
          | y => writeF (ftFmt t) c.env y) va old)) s

/-- FTOI (R191). -/
def execFtoi (x : Pre) (ch : Bool) (t : FTy) (d a : BitVec 7) (h : BitVec 3) (k : BitVec 4) (s : State) :
    Host.Outcome State Fault Refusal :=
  let it := tyOfCode k.toNat
  issue (some (destClass x .alu d.toNat)) false x ch
    (partBody (k.toNat ≤ 9 && partOk (tyCount it) (ftCount t) h.toNat) { Use.da with rnd := true } d.toNat a.toNat
      (fun c va old =>
        partLane (tyWidth it) (tyCount it) (tySigned it) (ftWidth t) (ftCount t) h.toNat
          (fun e => ftoiF (tySigned it) (tyWidth it) c.env.rm (readF (ftFmt t) c.env.fzi e)) va old)) s

/-- ITOF (R192). -/
def execItof (x : Pre) (ch : Bool) (t : FTy) (d a : BitVec 7) (h : BitVec 3) (k : BitVec 4) (s : State) :
    Host.Outcome State Fault Refusal :=
  let it := tyOfCode k.toNat
  issue (some (destClass x .alu d.toNat)) false x ch
    (partBody (k.toNat ≤ 9 && partOk (ftCount t) (tyCount it) h.toNat) Use.da.round d.toNat a.toNat (fun c va old =>
      partLane (ftWidth t) (ftCount t) false (tyWidth it) (tyCount it) h.toNat
        (fun e => itofF (ftFmt t) c.env (readInt (tySigned it) (tyWidth it) e)) va old)) s

/-- FSCALE: beyond 600 a power of two only overflows or vanishes (R193). -/
def execFscale (x : Pre) (ch : Bool) (t : FTy) (d a b : BitVec 7) (s : State) : Host.Outcome State Fault Refusal :=
  aluWord .alu x ch { Use.dab.round with sub := ftCount t, subw := ftWidth t } d.toNat a.toNat b.toNat (fun c _ va vb _ _ =>
    floatLane t fun n => scaleF (ftFmt t) c.env (felem t c.env va n)
      (max (-600) (min 600 (toSigned (ftWidth t) (elemOf vb (ftWidth t) n))))) s

/-- A FusedSum of some positions of a and b with an FP32 position of c (R194). -/
def dotOf (t : FTy) (v : FEnv) (va vb vc : Word) (cpos : Nat) (ns : List Nat) : Nat × Exc :=
  fusedSum .f32 v (readF .f32 v.fzi (elemOf vc 32 cpos)) (ns.map (felem t v va)) (ns.map (felem t v vb))

/-- FDOT2 (R194). -/
def execFdot2 (x : Pre) (ch : Bool) (t : FTy) (d a b : BitVec 7) (s : State) : Host.Outcome State Fault Refusal :=
  if t = .f32 then issue (some (destClass x .alu d.toNat)) false x ch (fun c _ => c.illegal) s
  else
    aluWord .alu x ch { Use.dabc.round with sub := ftCount t, subw := ftWidth t } d.toNat a.toNat b.toNat
      (fun c _ va vb vc _ =>
        if t = .f32x2 then
          let r := dotOf t c.env va vb vc 0 [0, 1]
          (lane32 false r.1, r.2)
        else
          let r := dotOf t c.env va vb vc 0 [0, 1]
          let q := dotOf t c.env va vb vc 1 [2, 3]
          (packElems 32 2 fun n => if n = 0 then r.1 else q.1, r.2 ||| q.2)) s

/-- FDOT4 (R194). -/
def execFdot4 (x : Pre) (ch : Bool) (t : HTy) (d a b : BitVec 7) (s : State) : Host.Outcome State Fault Refusal :=
  let ft : FTy := match t with | .f16x4 => .f16x4 | .bf16x4 => .bf16x4
  aluWord .alu x ch { Use.dabc.round with sub := 4, subw := 16 } d.toNat a.toNat b.toNat (fun c _ va vb vc _ =>
    let r := dotOf ft c.env va vb vc 0 [0, 1, 2, 3]
    (lane32 false r.1, r.2)) s

/-! Division, square root and the special functions: long-latency (R198 to R202). -/

/-- FDIV (R198). -/
def execFdiv (x : Pre) (ch : Bool) (t : FTy) (d a b : BitVec 7) (s : State) : Host.Outcome State Fault Refusal :=
  floatWord .xfu x ch t { Use.dab.round with long := true } d.toNat a.toNat b.toNat
    (fun v p q _ n => divF (ftFmt t) v (p n) (q n)) s

/-- FSQRT (R198). -/
def execFsqrt (x : Pre) (ch : Bool) (t : FTy) (d a : BitVec 7) (s : State) : Host.Outcome State Fault Refusal :=
  floatWord .xfu x ch t { Use.da with rnd := true, long := true } d.toNat a.toNat 0 (fun v p _ _ n => sqrtF (ftFmt t) v (p n)) s

/-- A special function of the bits of each position (R199). -/
def specialWord (x : Pre) (ch : Bool) (t : FTy) (sat : Bool) (d a : Nat) (f : Fmt → FEnv → Nat → Nat × Exc) (s : State) :
    Host.Outcome State Fault Refusal :=
  aluWord .xfu x ch { Use.da with sat := sat, long := true } d a 0 (fun c _ va _ _ _ =>
    floatLane t fun n => f (ftFmt t) c.env (elemOf va (ftWidth t) n)) s

/-- FRCP (R199 to R201). -/
def execFrcp (x : Pre) (ch : Bool) (t : FTy) (d a : BitVec 7) (s : State) : Host.Outcome State Fault Refusal :=
  specialWord x ch t true d.toNat a.toNat frcpF s

/-- FRSQ (R199 to R201). -/
def execFrsq (x : Pre) (ch : Bool) (t : FTy) (d a : BitVec 7) (s : State) : Host.Outcome State Fault Refusal :=
  specialWord x ch t false d.toNat a.toNat frsqF s

/-- FEXP2 (R199 to R201). -/
def execFexp2 (x : Pre) (ch : Bool) (t : FTy) (d a : BitVec 7) (s : State) : Host.Outcome State Fault Refusal :=
  specialWord x ch t true d.toNat a.toNat (specialF 4) s

/-- FLOG2 (R199 to R201). -/
def execFlog2 (x : Pre) (ch : Bool) (t : FTy) (d a : BitVec 7) (s : State) : Host.Outcome State Fault Refusal :=
  specialWord x ch t false d.toNat a.toNat (specialF 5) s

/-- FSIN (R199 to R201). -/
def execFsin (x : Pre) (ch : Bool) (t : FTy) (d a : BitVec 7) (s : State) : Host.Outcome State Fault Refusal :=
  specialWord x ch t false d.toNat a.toNat (specialF 6) s

/-- FCOS (R199 to R201). -/
def execFcos (x : Pre) (ch : Bool) (t : FTy) (d a : BitVec 7) (s : State) : Host.Outcome State Fault Refusal :=
  specialWord x ch t false d.toNat a.toNat (specialF 7) s

/-- FTANH (R199 to R201). -/
def execFtanh (x : Pre) (ch : Bool) (t : FTy) (d a : BitVec 7) (s : State) : Host.Outcome State Fault Refusal :=
  specialWord x ch t false d.toNat a.toNat (specialF 8) s

/-! Tapered packing (R195 to R197). -/

/-- The code places of a lane replaced from h on; TF6 keeps the upper 16 bits zero (R195, R196). -/
def packLane (tf : TFmt) (w : Nat) (t : FTy) (h : Nat) (v : FEnv) (va old : Word) : Word × Exc :=
  let n := ftCount t
  let keep : Word := if w = 6 then BitVec.ofNat 64 (wb old 0 48) else old
  (List.range n).foldl (fun (acc : Word × Exc) i =>
    let r := roundTF tf v.rm (felem t v va i)
    (setElem acc.1 w (h * n + i) r.1, acc.2 ||| r.2)) (keep, 0)

/-- The code places of a lane decoded into d (R197): MODE.fzo does not apply. -/
def unpackLane (tf : TFmt) (w : Nat) (t : FTy) (h : Nat) (v : FEnv) (va : Word) : Word × Exc :=
  floatLane t fun i =>
    match readTF tf (elemOf va w (h * ftCount t + i)) with
    | .nan _ => ((ftFmt t).nan, 0)
    | y => writeF (ftFmt t) { v with fzo := false } y

/-- A packing word: d is never a queue, and the part ends within the eight places (R196). -/
def tfBody (t : FTy) (u : Use) (d a h : Nat) (f : Cx → Word → Word → Word × Exc) (c : Cx) (m : Mach) : Eff :=
  partBody (h * ftCount t + ftCount t ≤ 8) u d a f c m

/-- FPACK_TF8 (R196), rounded by MODE.rm: no rnd column or text of the section grants it the prefix's rounding field (R183; DEDUCED,
notes/assumptions/77.md). -/
def execFpackTf8 (x : Pre) (ch : Bool) (t : FTy) (d a : BitVec 7) (h : BitVec 3) (s : State) :
    Host.Outcome State Fault Refusal :=
  issue (some (destClass x .xfu d.toNat)) false x ch (tfBody t Use.da d.toNat a.toNat h.toNat
    (fun c va old => packLane tf8 8 t h.toNat c.env va old)) s

/-- FPACK_TF6 (R196), its rounding as FPACK_TF8's. -/
def execFpackTf6 (x : Pre) (ch : Bool) (t : FTy) (d a : BitVec 7) (h : BitVec 3) (s : State) :
    Host.Outcome State Fault Refusal :=
  issue (some (destClass x .xfu d.toNat)) false x ch (tfBody t Use.da d.toNat a.toNat h.toNat
    (fun c va old => packLane tf6 6 t h.toNat c.env va old)) s

/-- FUNPACK_TF8 (R197). -/
def execFunpackTf8 (x : Pre) (ch : Bool) (t : FTy) (d a : BitVec 7) (h : BitVec 3) (s : State) :
    Host.Outcome State Fault Refusal :=
  issue (some (destClass x .xfu d.toNat)) false x ch (tfBody t Use.da.round d.toNat a.toNat h.toNat
    (fun c va _ => unpackLane tf8 8 t h.toNat c.env va)) s

/-- FUNPACK_TF6 (R197). -/
def execFunpackTf6 (x : Pre) (ch : Bool) (t : FTy) (d a : BitVec 7) (h : BitVec 3) (s : State) :
    Host.Outcome State Fault Refusal :=
  issue (some (destClass x .xfu d.toNat)) false x ch (tfBody t Use.da.round d.toNat a.toNat h.toNat
    (fun c va _ => unpackLane tf6 6 t h.toNat c.env va)) s

end Sys2Proof.Machine
end

