-- ==== Sys2Proof/Machine/Cross.lean ====
section
/-!
DEFINITION. Sys2Proof/Machine/Cross.lean: the meanings of majors 0x20 to 0x23, shuffles, votes, matches, reductions and
scans, and of plop and pmov (02 R68 to R74).
-/

namespace Sys2Proof.Machine

/-- Whether a destination is a scalar or a queue: one value for the word. -/
def Cx.oneDest (c : Cx) (d : Nat) : Bool := (c.pre.indexed 0).isNone && (opdOf c.pre 0 d).uniform

/-- The value of an operand in any lane of the group (R70): outside Active an indexed or sympathetic operand names no
register, and its value is free. -/
def Cx.anyLane (c : Cx) (m : Mach) (pos : Nat) (v : Nat → Word) (l : Nat) : Word :=
  if c.act.getLsbD l || ((c.pre.symp pos).isNone && (c.pre.indexed pos).isNone) then v l else Config.freeWord m.fresh l

/-- A shuffle: each lane's source lane from its own number and b[5:0] (R71). -/
def shflWord (x : Pre) (ch : Bool) (t : WTy) (d a b : Nat) (src : Nat → Nat → Nat → Nat) (s : State) :
    Host.Outcome State Fault Refusal :=
  issue (some (destClass x .xfu d)) false x ch (fun c m =>
    if !(c.preOk Use.dab && c.fieldsOk Use.dab d a b) then c.illegal
    else
      match c.sources m Use.dab a b with
      | .error e => e
      | .ok (m1, va, vb, _) =>
        let e := wtWidth t
        c.write m1 d (c.lanes.map fun l =>
          let sl := src c.g.width l (wb (vb l) 0 6) % c.g.width
          let sub := wb (vb l) 6 3 % (64 / e)
          (l, laneFrom (wtSigned t) e 1 fun _ => elemOf (c.anyLane m1 1 va sl) e sub))) s

/-- SHFL_IDX (R71). -/
def execShflIdx (x : Pre) (ch : Bool) (t : WTy) (d a b : BitVec 7) (s : State) : Host.Outcome State Fault Refusal :=
  shflWord x ch t d.toNat a.toNat b.toNat (fun _ _ n => n) s

/-- SHFL_UP (R71). -/
def execShflUp (x : Pre) (ch : Bool) (t : WTy) (d a b : BitVec 7) (s : State) : Host.Outcome State Fault Refusal :=
  shflWord x ch t d.toNat a.toNat b.toNat (fun w l n => l + w * 8 - n) s

/-- SHFL_DOWN (R71). -/
def execShflDown (x : Pre) (ch : Bool) (t : WTy) (d a b : BitVec 7) (s : State) : Host.Outcome State Fault Refusal :=
  shflWord x ch t d.toNat a.toNat b.toNat (fun _ l n => l + n) s

/-- SHFL_XOR (R71). -/
def execShflXor (x : Pre) (ch : Bool) (t : WTy) (d a b : BitVec 7) (s : State) : Host.Outcome State Fault Refusal :=
  shflWord x ch t d.toNat a.toNat b.toNat (fun _ l n => l ^^^ n) s

/-- The prefix of a word with no operand codes. -/
def Use.nil : Use := { Use.dab with d := false, a := false, b := false }

/-- A vote into a predicate (R72). -/
def voteWord (x : Pre) (ch : Bool) (p q : Nat) (f : Mask → Mask → Bool) (s : State) : Host.Outcome State Fault Refusal :=
  issue (some .xfu) false x ch (fun c m =>
    if !c.preOk Use.nil then c.illegal else .ok (c.writePred m p fun _ => f c.act (c.predVal q))) s

/-- VOTE_ALL (R72). -/
def execVoteAll (x : Pre) (ch : Bool) (p q : BitVec 3) (s : State) : Host.Outcome State Fault Refusal :=
  voteWord x ch p.toNat q.toNat (fun act v => act &&& ~~~v = 0) s

/-- VOTE_ANY (R72). -/
def execVoteAny (x : Pre) (ch : Bool) (p q : BitVec 3) (s : State) : Host.Outcome State Fault Refusal :=
  voteWord x ch p.toNat q.toNat (fun act v => act &&& v ≠ 0) s

/-- The same value for every lane of Active, or one for a scalar. -/
def Cx.all (c : Cx) (w : Word) : List (Nat × Word) := c.lanes.map fun l => (l, w)

/-- VOTE_BALLOT (R72). -/
def execVoteBallot (x : Pre) (ch : Bool) (d : BitVec 7) (q : BitVec 3) (s : State) : Host.Outcome State Fault Refusal :=
  issue (some (destClass x .xfu d.toNat)) false x ch (fun c m =>
    let u := { Use.nil with d := true }
    if !(c.preOk u && c.fieldsOk u d.toNat 0 0) then c.illegal
    else c.write m d.toNat (c.all (c.predVal q.toNat &&& c.act))) s

/-- Whether two keys match, by the key kind of R73: 0 raw bits, 1 FP32, 2 FP16, 3 BF16. -/
def keysMatch (kind e : Nat) (p q : Word) : Bool :=
  match kind with
  | 0 => wb p 0 e = wb q 0 e
  | 1 => condF 0 (readF .f32 false (wb p 0 32)) (readF .f32 false (wb q 0 32))
  | 2 => condF 0 (readF .f16 false (wb p 0 16)) (readF .f16 false (wb q 0 16))
  | _ => condF 0 (readF .bf16 false (wb p 0 16)) (readF .bf16 false (wb q 0 16))

/-- MATCH (R73). -/
def execMatchKey (x : Pre) (ch : Bool) (t : WTy) (d a k : BitVec 7) (s : State) : Host.Outcome State Fault Refusal :=
  issue (some (destClass x .xfu d.toNat)) false x ch (fun c m =>
    if !(c.preOk Use.da && c.fieldsOk Use.da d.toNat a.toNat 0 && (k.toNat = 0 || (k.toNat ≤ 3 && t = .n32))) then c.illegal
    else
      match c.read m 1 a.toNat with
      | .error e => e
      | .ok (m1, va) =>
        c.write m1 d.toNat (c.lanes.map fun l =>
          (l, maskOf (c.lanes.filter fun j => keysMatch k.toNat (wtWidth t) (va l) (va j))))) s

/-- Two elements combined under a type: 0 add, 1 min, 2 max, 3 and, 4 or, 5 xor (R74). -/
def combine (op : Nat) (t : WTy) (p q : Nat) : Nat :=
  let w := wtWidth t
  let i := readInt (wtSigned t) w p
  let j := readInt (wtSigned t) w q
  match op with
  | 0 => (p + q) % 2 ^ w
  | 1 => if i ≤ j then p else q
  | 2 => if i ≥ j then p else q
  | 3 => p &&& q
  | 4 => p ||| q
  | _ => p ^^^ q

/-- The combination of some lanes, none for no lane. -/
def combineAll (op : Nat) (t : WTy) (v : Nat → Word) (ls : List Nat) : Option Nat :=
  ls.foldl (fun a l => match a with
    | none => some (wb (v l) 0 (wtWidth t))
    | some x => some (combine op t x (wb (v l) 0 (wtWidth t)))) none

/-- A reduction: a scalar d takes the result once (R74). -/
def lredWord (x : Pre) (ch : Bool) (t : WTy) (d a op : Nat) (s : State) : Host.Outcome State Fault Refusal :=
  issue (some (destClass x .xfu d)) false x ch (fun c m =>
    if !(c.preOk Use.da && c.dstOk d && c.srcOk 1 a) then c.illegal
    else
      match c.read m 1 a with
      | .error e => e
      | .ok (m1, va) =>
        match combineAll op t va c.lanes with
        | none => c.write m1 d []
        | some r => c.write m1 d (c.all (laneFrom (wtSigned t) (wtWidth t) 1 fun _ => r))) s

/-- LRED_ADD (R74). -/
def execLredAdd (x : Pre) (ch : Bool) (t : WTy) (d a : BitVec 7) (s : State) : Host.Outcome State Fault Refusal :=
  lredWord x ch t d.toNat a.toNat 0 s
/-- LRED_MIN (R74). -/
def execLredMin (x : Pre) (ch : Bool) (t : WTy) (d a : BitVec 7) (s : State) : Host.Outcome State Fault Refusal :=
  lredWord x ch t d.toNat a.toNat 1 s
/-- LRED_MAX (R74). -/
def execLredMax (x : Pre) (ch : Bool) (t : WTy) (d a : BitVec 7) (s : State) : Host.Outcome State Fault Refusal :=
  lredWord x ch t d.toNat a.toNat 2 s
/-- LRED_AND (R74). -/
def execLredAnd (x : Pre) (ch : Bool) (t : WTy) (d a : BitVec 7) (s : State) : Host.Outcome State Fault Refusal :=
  lredWord x ch t d.toNat a.toNat 3 s
/-- LRED_OR (R74). -/
def execLredOr (x : Pre) (ch : Bool) (t : WTy) (d a : BitVec 7) (s : State) : Host.Outcome State Fault Refusal :=
  lredWord x ch t d.toNat a.toNat 4 s
/-- LRED_XOR (R74). -/
def execLredXor (x : Pre) (ch : Bool) (t : WTy) (d a : BitVec 7) (s : State) : Host.Outcome State Fault Refusal :=
  lredWord x ch t d.toNat a.toNat 5 s

/-- A scan: each lane combines the lanes of Active up to its own; no scalar or queue d (R74). -/
def lscanWord (x : Pre) (ch : Bool) (t : WTy) (d a op : Nat) (s : State) : Host.Outcome State Fault Refusal :=
  issue (some (destClass x .xfu d)) false x ch (fun c m =>
    if !(c.preOk Use.da && c.dstOk d && c.srcOk 1 a && !c.oneDest d) then c.illegal
    else
      match c.read m 1 a with
      | .error e => e
      | .ok (m1, va) =>
        c.write m1 d (c.lanes.map fun l =>
          (l, laneFrom (wtSigned t) (wtWidth t) 1 fun _ => (combineAll op t va (c.lanes.filter fun j => j ≤ l)).getD 0))) s

/-- LSCAN_ADD (R74). -/
def execLscanAdd (x : Pre) (ch : Bool) (t : WTy) (d a : BitVec 7) (s : State) : Host.Outcome State Fault Refusal :=
  lscanWord x ch t d.toNat a.toNat 0 s
/-- LSCAN_MAX (R74). -/
def execLscanMax (x : Pre) (ch : Bool) (t : WTy) (d a : BitVec 7) (s : State) : Host.Outcome State Fault Refusal :=
  lscanWord x ch t d.toNat a.toNat 2 s

/-- PLOP (R68). -/
def execPlop (x : Pre) (ch : Bool) (t : BitVec 4) (p a b : BitVec 3) (s : State) : Host.Outcome State Fault Refusal :=
  issue (some .ctl) false x ch (fun c m =>
    if !c.preOk Use.nil then c.illegal
    else .ok (c.writePred m p.toNat fun l =>
      plopBit t.toNat ((c.predVal a.toNat).getLsbD l) ((c.predVal b.toNat).getLsbD l))) s

/-- PMOV_TO_PRED: nonzero lanes of a vector, or the bits of a scalar (R69). -/
def execPmovToPred (x : Pre) (ch : Bool) (p : BitVec 3) (a : BitVec 7) (s : State) : Host.Outcome State Fault Refusal :=
  issue (some .ctl) false x ch (fun c m =>
    let u := { Use.da with d := false }
    if !(c.preOk u && c.fieldsOk u 0 a.toNat 0) then c.illegal
    else
      match c.read m 1 a.toNat with
      | .error e => e
      | .ok (m1, va) =>
        .ok (c.writePred m1 p.toNat fun l => if c.uniformAt 1 a.toNat then (va l).getLsbD l else va l ≠ 0)) s

/-- PMOV_FROM_PRED: 0 or 1 per lane, or the mask of Active lanes (R69). -/
def execPmovFromPred (x : Pre) (ch : Bool) (d : BitVec 7) (p : BitVec 3) (s : State) : Host.Outcome State Fault Refusal :=
  issue (some .ctl) false x ch (fun c m =>
    let u := { Use.nil with d := true }
    if !(c.preOk u && c.fieldsOk u d.toNat 0 0) then c.illegal
    else if c.oneDest d.toNat then c.write m d.toNat (c.all (c.predVal p.toNat &&& c.act))
    else c.write m d.toNat (c.lanes.map fun l => (l, if (c.predVal p.toNat).getLsbD l then 1 else 0))) s

end Sys2Proof.Machine
end

