-- ==== Sys2Proof/Machine/Access.lean ====
section
/-!
DEFINITION. Sys2Proof/Machine/Access.lean: the checks of a word's addresses over its lanes, and instruction fetch
(02 R99, 05 R136, 10 R235, R240, R244, R245, 01 R20, R21).
-/

namespace Sys2Proof.Machine

/-- What stops an access: it waits, held at the migrating pages of some addresses, or a cause. -/
inductive Stop where
  | hold (vas : List Nat)
  | cause (t : Trap)
deriving DecidableEq, Repr, Inhabited

/-- The outcome of every lane's checks (R99): a lane that is held holds the word; else the first cause in the order of the
checks that some lane meets, with the lanes that meet it and the lowest lane's address; else every lane's location. A lane whose walk
meets poison counts after every failed check (DESIGN CHOICE, notes/assumptions/105.md). -/
def judge (rs : List (Nat × Word × Chk)) : Except Stop (List (Nat × Loc)) :=
  if rs.any fun r => r.2.2 = .held then .error (.hold ((rs.filter fun r => r.2.2 = .held).map fun r => r.2.1.toNat))
  else
    let bads := rs.filterMap fun r => match r.2.2 with | .bad c k => some (r.1, r.2.1, c, k) | _ => none
    match firstBy (fun x y => x.2.2.2 < y.2.2.2) bads with
    | some b =>
      let same := bads.filter fun x => x.2.2.1 = b.2.2.1
      .error (.cause (trapOf b.2.2.1 ((same.head?.map fun x => x.2.1).getD 0) (maskOf (same.map Prod.fst))))
    | none =>
      if rs.any fun r => r.2.2 = .ue then .error (.cause (trapOf .sramUe 0 0))
      else .ok (rs.filterMap fun r => match r.2.2 with | .ok l => some (r.1, l) | _ => none)

/-- The checks of lanes' addresses in global memory. -/
def checkLanes (m : Mach) (w : Who) (acc : Acc) (align : Nat) (window : Bool) (as : List (Nat × Word)) :
    Except Stop (List (Nat × Loc)) :=
  judge (as.map fun la => (la.1, la.2, checkVa m w acc align window la.2.toNat))

/-- The checks of lanes' addresses in scratchpads. -/
def checkSpads (m : Mach) (w : Who) (n : Nat) (as : List (Nat × Word)) : Except Stop (List (Nat × Loc)) :=
  judge (as.map fun la => (la.1, la.2, checkSpad m w n la.2.toNat))

/-- A stop as a member's effect. -/
def Cx.stopEff (c : Cx) : Stop → Eff
  | .hold vas => .stall { held := vas }
  | .cause t => .trap t c.base []

/-- Whether a word in a data access meets poison in some lane (10 R235). -/
def anyPoison (m : Mach) (n : Nat) (ls : List (Nat × Loc)) : Bool := ls.any fun l => seePoison m n l.2

/-! Accesses that a group issued and an engine has still to perform: what the group's own later accesses of the same bytes
wait for (02 R100, 12 R306, 19 R421). -/

/-- M and N of a shape code. -/
def mxShape (code : Nat) : Nat × Nat := match code with | 0 => (128, 128) | 1 => (128, 64) | _ => (64, 128)

/-- Bits of an element as stored. -/
def stBits (fmt : Nat) : Nat := match fmt with | 0 => 32 | 1 | 2 => 16 | 3 => 8 | _ => 6

/-- Rows, bytes per row, stride, format and destination of an mxst operand. -/
structure TileSt where
  rows : Nat
  cols : Nat
  bytes : Nat
  stride : Nat
  fmt : Nat
  toStore : Bool
  tile : Nat
deriving DecidableEq, Repr, Inhabited

def tileSt (va : Word) : TileSt :=
  let sh := mxShape (wb va 8 2)
  let fmt := wb va 12 4
  { rows := sh.1, cols := sh.2, bytes := stBits fmt * sh.2 / 8, stride := wb va 24 24, fmt := fmt, toStore := wb va 10 1 = 1,
    tile := wb va 0 6 }

/-- The 16-byte units of a store's rows in memory: virtual address, row, first byte. -/
def stUnits (t : TileSt) (vb : Word) : List (Nat × Nat × Nat) :=
  (List.range t.rows).flatMap fun i => (List.range (t.bytes / 16)).map fun k => (vb.toNat + i * t.stride + 16 * k, i, 16 * k)

/-- The bytes that a group's held words access: keys and lengths. -/
def heldKeys (m : Mach) (gi : Nat) : List (Nat × Nat) :=
  let g := m.grp gi
  let w := whoGroup m gi
  let at? := fun (va n : Nat) => match translation m w.part w.ctx va with
    | .leaf e lg => ((paKey m w.part (ptePa e + va % 2 ^ lg)).map fun key => (routeKey m w key, n)).toList
    | _ => []
  (m.core g.die g.core).mx.flatMap (fun o => match o.work with
    | .st a b .. => if o.grp = gi && !(tileSt a).toStore then (stUnits (tileSt a) b).flatMap fun u => at? u.1 16 else []
    | _ => []) ++
  g.tvPend.flatMap fun w => match w with
    | .load _ a _ => at? a.toNat 64
    | .store _ a _ => at? a.toNat 64
    | _ => []

/-- Whether an access of n bytes by a group meets bytes of a held access of its own. -/
def meetsHeld (m : Mach) (gi n : Nat) (ls : List (Nat × Loc)) : Bool :=
  let ks := heldKeys m gi
  ls.any fun l => match l.2 with
    | .mem key _ => ks.any fun k => k.1 < key + n && key < k.1 + k.2
    | _ => false

/-- Locations a group may access now: none that meets its own held accesses, and none while an earlier fence of its own waits
(11 R259). -/
def unlessHeld (m : Mach) (gi n : Nat) : Except Stop (List (Nat × Loc)) → Except Stop (List (Nat × Loc))
  | .ok ls => if fenceHeld m gi || meetsHeld m gi n ls then .error (.hold []) else .ok ls
  | e => e

/-! Instruction fetch (10 R245, R247). -/

/-- A word at a virtual byte address. -/
def fetchWord (m : Mach) (w : Who) (va : Nat) : Except Stop Nat :=
  match checkVa m w .fetch 1 false va with
  | .ok (.mem key _) => if poisoned m key 4 then .error (.cause (trapOf .sramUe 0 0)) else .ok (rdNum m key 4)
  | .ok _ => .error (.cause (trapOf .prot 0 0))
  | .held => .error (.hold [va])
  | .ue => .error (.cause (trapOf .sramUe 0 0))
  | .bad c _ => .error (.cause (trapOf c 0 0))

/-- Some words from an address on, in order. -/
def fetchWords (m : Mach) (w : Who) : Nat → Nat → Except Stop (List Nat)
  | 0, _ => .ok []
  | n + 1, va =>
    match fetchWord m w va with
    | .error e => .error e
    | .ok x =>
      match fetchWords m w n (va + 4) with
      | .error e => .error e
      | .ok xs => .ok (x :: xs)

/-- The model's counter at the last icinv of a context that covers an address (11 R258). -/
def dropStamp (m : Mach) (w : Who) (va : Nat) : Option Nat :=
  (((m.part w.part).drops.filter fun d => d.1 = w.ctx && d.2.1 < va + 4 && va ≤ d.2.2.1).map fun d => d.2.2.2).max?

/-- What a fetch returns where memory holds a new word: that, or a word that a write replaced since the last icinv that covers
the address, by a free choice for each word (R247; notes/assumptions/18.md). -/
def keptWord (m : Mach) (w : Who) (va new : Nat) : Nat :=
  match checkVa m w .fetch 1 false va with
  | .ok (.mem k _) =>
    let olds := (Tbl.get [] m.past (k / 4)).filter fun e => match dropStamp m w va with | some d => d < e.1 | none => true
    (olds.zip (List.range olds.length)).foldl (fun x e => if Config.freeBit m.fresh (va + 2 ^ 48 * e.2) then e.1.2 else x) new
  | _ => new

/-- A word of code, and some in a row, as a fetch returns them. -/
def codeWord (m : Mach) (w : Who) (va : Nat) : Except Stop Nat :=
  match fetchWord m w va with
  | .ok x => .ok (keptWord m w va x)
  | .error e => .error e
def codeWords (m : Mach) (w : Who) : Nat → Nat → Except Stop (List Nat)
  | 0, _ => .ok []
  | n + 1, va =>
    match codeWord m w va with
    | .error e => .error e
    | .ok x =>
      match codeWords m w n (va + 4) with
      | .error e => .error e
      | .ok xs => .ok (x :: xs)

/-- The words of a context's code in a range of virtual addresses dropped (11 R258). -/
def dropCode (m : Mach) (w : Who) (lo hi : Nat) : Mach :=
  if hi ≤ lo then m
  else m.setPart w.part { m.part w.part with drops := (m.part w.part).drops ++ [(w.ctx, lo, hi - 1, m.fresh)] }

/-- A fetch stop as the trap a voice takes at its head (R245): TADDR the head's byte address, TMASK the voice's mask. -/
def entryStop (v : Voice) : Stop → Stop
  | .cause t => .cause (if t.cause = .sramUe then t else trapOf t.cause (BitVec.ofNat 64 (12 * v.head)) v.mask)
  | .hold vas => .hold vas

/-- The words of the course a standing voice would enter (R245, R20): its pages checked, word 0 a head. -/
def fetchCourse (m : Mach) (gi : Nat) (v : Voice) : Except Stop (List Nat) :=
  let w := whoGroup m gi
  match codeWord m w (12 * v.head) with
  | .error e => .error (entryStop v e)
  | .ok h =>
    if bitsOf h 25 6 ≠ 0 then .error (.cause (trapOf .badTarget (BitVec.ofNat 64 (12 * v.head)) v.mask))
    else
      match codeWords m w (3 * (bitsOf h 21 3 + 1) - 1) (12 * v.head + 4) with
      | .error e => .error (entryStop v e)
      | .ok ws => .ok (h :: ws)

/-! Course structure (01 R13, R21). -/

def majorOf (w : Nat) : Nat := bitsOf w 25 6
def minorOf (w : Nat) : Nat := bitsOf w 21 4

/-- The transfer words: bra, call, jmpt, ret, exit and rett. -/
def isTransfer (w : Nat) : Bool :=
  majorOf w = 0x25 || majorOf w = 0x26 || (majorOf w = 0x24 && 2 ≤ minorOf w && minorOf w ≤ 4) ||
    (majorOf w = 0x29 && minorOf w = 1)

def badFlag (n : Nat) : Bool := 12 ≤ n && n ≤ 14

/-- Whether the head breaks a rule of its own. -/
def headBad (w : Nat) : Bool := bitAt w 31 || bitAt w 12 || badFlag (bitsOf w 17 4) || badFlag (bitsOf w 13 4)

/-- Whether a coping breaks a rule of its own, for a group with nv vector registers. -/
def copingBad (nv w : Nat) : Bool :=
  let p1 := bitAt w 24
  let p2 := bitAt w 13
  bitAt w 31 || bitsOf w 0 3 ≠ 0 || (p1 && bitsOf w 14 7 ≥ min nv 96) || (p2 && bitsOf w 3 7 ≥ min nv 96) ||
    (p1 && p2 && bitsOf w 14 7 = bitsOf w 3 7)

/-- Whether the word at an index after the head is an offending word. Where hascope and the kind of the last word disagree, the other
checks go by hascope (DESIGN CHOICE, notes/assumptions/106.md). -/
def wordBad (code : List Nat) (nv i : Nat) : Bool :=
  let w := code.getD i 0
  let last := code.length - 1
  let hascope := bitAt (code.getD 0 0) 24
  let li := if hascope then last - 1 else last
  let mj := majorOf w
  if mj = 0 then true
  else if mj = 1 then i ≠ last || !hascope || copingBad nv w
  else if mj = 2 then
    bitAt w 31 || bitsOf w 22 3 ≥ 5 || i ≥ li ||
      (let n := majorOf (code.getD (i + 1) 0)
       n ≤ 2 || n = 0x25 || n = 0x26)
  else (isTransfer w && (i ≠ li || bitAt w 31)) || (i = li && bitAt w 31) || (i = last && hascope)

/-- The lowest offending word of a course; none when its structure is right (R21). -/
def structErr (code : List Nat) (nv : Nat) : Option Nat :=
  if headBad (code.getD 0 0) then some 0 else (List.range code.length).find? fun i => i ≠ 0 && wordBad code nv i

/-- The counters a head's wait mask names are zero (R23). -/
def waitMet (g : Group) (w : Nat) : Bool := (List.range 12).all fun n => !bitAt w n || counter g n = 0

end Sys2Proof.Machine
end

