-- ==== Sys2Proof/Machine/Control.lean ====
section
/-!
DEFINITION. Sys2Proof/Machine/Control.lean: the meanings of head, of majors 0x24 to 0x28, of trap, rett and sys, and of the
hints: entering a course, control transfer, special registers, sympathetic streams and the trap words
(01 R20 to R23, 02 R75 to R94, 05 R142 to R145).
-/

namespace Sys2Proof.Machine

/-! Which voices may issue (04 R111, R113). -/

/-- A group whose voices may issue: resident, not frozen by a trap, not stopped. -/
def running (m : Mach) (gi : Nat) : Bool :=
  let g := m.grp gi
  !g.freed && !g.stopped && !g.victim && g.trap.isNone && (m.team g.team).place = .resident

/-- Another voice keeps the group's turn: one inside a course and not stalled, that passed its head before this one (R111). -/
def turnTaken (g : Group) (vi : Nat) : Bool :=
  let v := Tbl.get default g.voices vi
  g.voices.any fun w => w.1 ≠ vi && w.2.inside && !w.2.stalled && w.2.pend.isNone &&
    (!v.inside || w.2.entered < v.entered || (w.2.entered = v.entered && w.1 < vi))

/-- Whether the group and the team of a voice let it issue: the group runs, and at a head nothing holds it there (05 R150,
19 R423). -/
def mayRun (m : Mach) (gi : Nat) (v : Voice) : Bool :=
  running m gi && v.pend.isNone && (v.inside || ((m.team (m.grp gi).team).stopping.isNone && (m.grp gi).repack.isNone))

/-- Whether a voice is eligible (R113): it may run and nothing stalls it. A step begins by bringing the marks of stalled voices up
to date. -/
def eligible (m : Mach) (gi vi : Nat) : Bool :=
  match voiceAt m gi vi with
  | none => false
  | some v => mayRun m gi v && !v.stalled

/-- The eligible voices of a core other than one (02 R81). -/
def eligibleOn (m : Mach) (die core gi vi : Nat) : List (Nat × Nat) :=
  (List.range m.groups.length).flatMap fun j =>
    if (m.grp j).die = die ∧ (m.grp j).core = core then
      ((m.grp j).voices.map Prod.fst).filterMap fun k => if (j, k) ≠ (gi, vi) ∧ eligible m j k then some (j, k) else none
    else []

/-! Entering a course (01 R18, R20 to R23, 10 R245). -/

/-- A cause raised at a head: no word of the course has executed. -/
def headTrap (m : Mach) (gi vi : Nat) (t : Trap) : Mach :=
  match voiceAt m gi vi with
  | none => m
  | some v =>
    raiseTrap (setVoice m gi vi { v with word := 0, stalled := false }) gi
      { voice := vi, first := 0, after := 0, trap := t, member := 0, bases := [] }

/-- A voice that waits at its head, its fetch held at the migrating pages of some addresses (10 R244). -/
def stallHead (m : Mach) (gi vi : Nat) (vas : List Nat) : Mach :=
  match voiceAt m gi vi with
  | none => m
  | some v => holdAt (setVoice m gi vi { v with stalled := true }) gi vi vas

/-- A standing voice enters the course whose words are these, or traps, or waits. -/
def enterCourse (m : Mach) (gi vi : Nat) (v : Voice) (code : List Nat) : Mach :=
  match structErr code (m.grp gi).nv with
  | some i => headTrap m gi vi (trapOf .illegalOp (BitVec.ofNat 64 (12 * v.head + 4 * i)) v.mask)
  | none =>
    if waitMet (m.grp gi) (code.getD 0 0) then
      setVoice m gi vi
        { v with inside := true, word := 1, code := code, mortar := [], stalled := false, sym := none,
                 restart := none, ripple := none, entered := m.fresh, yieldTo := [] }
    else stallHead m gi vi []

/-- HEAD: the checks of the course's pages and structure, the wait, the entry (R20 to R23). -/
def execHead (h : Bool) (l : BitVec 3) (a b : BitVec 4) (w : BitVec 12) (s : State) : Host.Outcome State Fault Refusal :=
  match s.cur with
  | none => .fault .noVoice
  | some (gi, vi) =>
    match voiceAt s.m gi vi with
    | none => .fault .noVoice
    | some v =>
      if v.inside then .fault .noVoice
      else
        .next { s with chain := none, cur := none, m :=
          match fetchCourse s.m gi v with
          | .error (.hold vas) => stallHead s.m gi vi vas
          | .error (.cause t) => headTrap s.m gi vi t
          | .ok ws => enterCourse s.m gi vi v (encodeBase (.head h l a b w) :: ws.drop 1) }

/-! Transfers (02 R75 to R80). -/

/-- Whether a transfer may examine a packet, and if so whether it is a head (R20): its word 0 as a fetch returns it (10 R247). -/
def examine (m : Mach) (w : Who) (p : Nat) : Option Bool :=
  match checkVa m w .fetch 1 false (12 * p) with
  | .ok (.mem key _) => if poisoned m key 4 then none else some (majorOf (keptWord m w (12 * p) (rdNum m key 4)) = 0)
  | _ => none

/-- A transfer to the taken destinations, the other lanes falling through; BAD_TARGET at the lowest taken packet that is no
head, with every lane bound for it, also those that fall through to it (R75, R76). -/
def Cx.transfer (c : Cx) (m : Mach) (taken : List (Nat × Nat)) : Eff :=
  let ps := (sortBy (fun a b : Nat => a < b) (taken.map Prod.snd)).dedup
  let dest := fun l => ((taken.find? fun t => t.1 = l).map Prod.snd).getD (fallThrough c.voice)
  match ps.find? fun p => examine c.base (whoGroup c.base c.gi) p = some false with
  | some p => c.raise .badTarget (BitVec.ofNat 64 (12 * p)) (maskOf ((lanesOf c.vmask).filter fun l => dest l = p))
  | none => .xfer ((lanesOf c.vmask).map fun l => (l, some (dest l))) m

/-- The packet of a branch word plus its offset, modulo 2^48 (DESIGN CHOICE, notes/assumptions/103.md). -/
def Cx.branchTo (c : Cx) (o : BitVec 21) : Nat :=
  (((c.voice.head + c.word / 3 : Nat) : Int) + o.toInt) % (2 ^ 48 : Nat) |>.toNat

/-- The lanes of the voice in which a branch's condition holds (R77). -/
def Cx.branchLanes (c : Cx) (n : Bool) (p : Nat) : List Nat :=
  lanesOf (c.vmask &&& (if n then ~~~c.predVal p else c.predVal p))

/-- BRA (R77). -/
def execBra (n : Bool) (p : BitVec 3) (o : BitVec 21) (s : State) : Host.Outcome State Fault Refusal :=
  issue (some .ctl) true .none false (fun c m =>
    c.transfer m ((c.branchLanes n p.toNat).map fun l => (l, c.branchTo o))) s

/-- CALL: a taken lane pushes the packet after the course; a ninth entry is ILLEGAL_OP (R78). -/
def execCall (n : Bool) (p : BitVec 3) (o : BitVec 21) (s : State) : Host.Outcome State Fault Refusal :=
  issue (some .ctl) true .none false (fun c m =>
    let ls := c.branchLanes n p.toNat
    let stack := fun l => Tbl.get [] c.g.ret l
    let full := ls.filter fun l => (stack l).length ≥ 8
    if full ≠ [] then c.raise .illegalOp 0 (maskOf full)
    else
      let g := m.grp c.gi
      let m1 := m.setGrp c.gi { g with ret := ls.foldl (fun t l => Tbl.set [] t l (fallThrough c.voice :: stack l)) g.ret }
      c.transfer m1 (ls.map fun l => (l, c.branchTo o))) s

/-- RET: each lane of Active goes to the packet it pops (R78). -/
def execRet (x : Pre) (s : State) : Host.Outcome State Fault Refusal :=
  issue (some .ctl) true x false (fun c m =>
    if !c.preOk Use.nil then c.illegal
    else
      let stack := fun l => Tbl.get [] c.g.ret l
      let none' := c.lanes.filter fun l => (stack l).isEmpty
      if none' ≠ [] then c.raise .badTarget 0 (maskOf none')
      else
        let g := m.grp c.gi
        let m1 := m.setGrp c.gi { g with ret := c.lanes.foldl (fun t l => Tbl.set [] t l ((stack l).drop 1)) g.ret }
        c.transfer m1 (c.lanes.map fun l => (l, (stack l).headD 0))) s

/-- The packet of the header of the kernel that the grid runs (R79). -/
def Cx.headerPacket (c : Cx) : Nat := c.grid.lr.kaddr / 12

/-- JMPT: a table of n + 1 entries at the scalar b, indexed by a (R79, R76). -/
def execJmpt (x : Pre) (n a b : BitVec 7) (s : State) : Host.Outcome State Fault Refusal :=
  issue (some .ctl) true x false (fun c m =>
    let u := { Use.dab with d := false }
    if !(c.preOk u && c.fieldsOk u 0 a.toNat b.toNat && (opdOf c.pre 2 b.toNat).isS && (c.pre.symp 2).isNone && (c.pre.indexed 2).isNone) then
      c.illegal
    else
      match c.sources m u a.toNat b.toNat with
      | .error e => e
      | .ok (m1, va, vb, _) =>
        let base := vb 0
        let bad := c.lanes.filter fun l => wb (va l) 0 32 > n.toNat
        if bad ≠ [] then c.raise .jumpRange base (maskOf bad)
        else
          let w := whoGroup c.base c.gi
          match checkLanes m1 w .load 4 false (c.lanes.map fun l => (l, base + BitVec.ofNat 64 (4 * wb (va l) 0 32))) with
          | .error e => c.stopEff e
          | .ok ls =>
            if anyPoison m1 4 ls then c.raise .sramUe 0 0
            else
              let m2 := touchLines (pinLocs m1 ls) w false 4 ls
              c.transfer m2 (ls.map fun l => (l.1, (c.headerPacket + seeNum m2 w 4 l.2) % 2 ^ 48))) s

/-- EXIT (R80). -/
def execExit (x : Pre) (s : State) : Host.Outcome State Fault Refusal :=
  issue (some .ctl) true x false (fun c m =>
    if !c.preOk Use.nil then c.illegal
    else .xfer ((lanesOf c.vmask).map fun l => (l, if c.act.getLsbD l then none else some (fallThrough c.voice))) m) s

/-- YIELD: the voices, eligible in the cycle in which it issues, that must issue, or cease to be eligible, before this one's next head (R81). -/
def execYield (x : Pre) (ch : Bool) (s : State) : Host.Outcome State Fault Refusal :=
  issue (some .ctl) false x ch (fun c m =>
    if !c.preOk Use.nil then c.illegal
    else if c.act = 0 then .ok m
    else
      match voiceAt m c.gi c.vi with
      | none => .ok m
      | some v => .ok (setVoice m c.gi c.vi { v with yieldTo := eligibleOn c.base c.g.die c.g.core c.gi c.vi })) s

/-- A prefix of kind 0 whose payload is zero, apart from flg where it may be set. -/
def Cx.kind0 (c : Cx) (flg : Bool) : Bool :=
  match c.pre with
  | .none => true
  | .k0 _ _ cc r st su i f => cc = 0 && r = 0 && !st && !su && i = 0 && (flg || !f)
  | _ => false

/-- A prefix of kind 1 whose payload is zero apart from the extensions of some operands that name scalars. -/
def Cx.kind1 (c : Cx) (d a b : Option Nat) (flg : Bool) : Bool :=
  let fits := fun p (code : Option Nat) => match code with
    | none => c.pre.ext p = 0
    | some k => c.pre.ext p = 0 || (opdOf c.pre p k).isS
  match c.pre with
  | .k1 _ _ cc _ _ _ cx f => cc = 0 && cx = 0 && (flg || !f) && fits 0 d && fits 1 a && fits 2 b
  | _ => false

/-- NOP: its own fields are ignored, its prefix's payload must be zero (01 R38). -/
def execNop (x : Pre) (ch : Bool) (_d _a _b : BitVec 7) (s : State) : Host.Outcome State Fault Refusal :=
  issue (some .ctl) false x ch (fun c m => if c.kind0 false || c.kind1 none none none false then .ok m else c.illegal) s

/-- HINT_PFS: a prefetch changes no architectural result (R83, 01 R38). -/
def execHintPfs (x : Pre) (ch : Bool) (_e : BitVec 4) (_n a b : BitVec 7) (s : State) : Host.Outcome State Fault Refusal :=
  issue (some .ctl) false x ch (fun c m =>
    if c.kind0 false || c.kind1 none (some a.toNat) (some b.toNat) false then .ok m else c.illegal) s

/-- HINT_BLK (R83). -/
def execHintBlk (x : Pre) (ch : Bool) (_e : BitVec 25) (s : State) : Host.Outcome State Fault Refusal :=
  issue (some .ctl) false x ch (fun c m => if c.kind0 false || c.kind1 none none none false then .ok m else c.illegal) s

/-- HINT_UNDEFINED: a no-operation (01 R38). -/
def execHintUndefined (x : Pre) (ch : Bool) (_h : Bool) (_e : BitVec 25) (s : State) : Host.Outcome State Fault Refusal :=
  issue (some .ctl) false x ch (fun c m => if c.kind0 false || c.kind1 none none none false then .ok m else c.illegal) s

/-- BRK: completes, then BREAK with done set (R82). -/
def execBrk (x : Pre) (ch : Bool) (k : BitVec 14) (s : State) : Host.Outcome State Fault Refusal :=
  issue (some .ctl) false x ch (fun c m =>
    if !c.preOk Use.nil then c.illegal
    else if c.act = 0 then .ok m
    else .late { trapOf .brk (k.zeroExtend 64) c.act with done := true } m) s

/-! Sympathetic streams (02 R88 to R93). -/

/-- The items of a grid: those beyond it read nothing (R93, 04 R118). -/
def itemCount (x : Grid) : Nat := x.lr.gx * x.lr.gy * x.lr.gz * x.lr.grps * 2 ^ (3 + x.lr.width)

/-- Whether the oldest unreleased element of a stream can be released (R93). -/
def canRelease (x : Grid) (item v : Nat) : Bool :=
  let st := streamOf x item v
  let ds := Tbl.get [] x.dist v
  !ds.isEmpty && ds.all fun k =>
    cursorOf x (item + k) v k > st.released || Tbl.get 0 x.exited (item + k) = 1 || item + k ≥ itemCount x

/-- One element appended to a stream: none when the publisher must wait (R88, R91, R93). -/
def publish (x : Grid) (item v : Nat) (w : Word) : Option Grid :=
  let st := streamOf x item v
  if st.closed.isSome then some x
  else if st.elems.length < 16 then some (setStream x item v { st with elems := st.elems ++ [w] })
  else if canRelease x item v then
    some (setStream x item v { st with elems := st.elems.drop 1 ++ [w], released := st.released + 1 })
  else none

/-- A word on a sympathetic register: vector a, ordered kernel, kind 0 with no payload, not in compatibility mode
(R88, 04 R134). -/
def symWord (x : Pre) (ch : Bool) (a : Nat) (f : Cx → Grid → Nat → Word → Option Grid) (s : State) :
    Host.Outcome State Fault Refusal :=
  issue (some .mem) false x ch (fun c m =>
    if !c.kind0 false || a ≥ c.g.nv || !c.grid.hdr.ordered || compatG c.base c.g || !(c.grid.hdr.syms.any fun y => y.1 = a) then
      c.illegal
    else
      match c.read m 1 a with
      | .error e => e
      | .ok (m1, va) =>
        let gd := m1.grid c.g.grid
        match c.lanes.foldl (fun o l => o.bind fun x => f c x l (va l)) (some gd) with
        | none => .stall {}
        | some gd1 => .ok (m1.setGrid c.g.grid gd1)) s

/-- SYPUB (R88, R93). -/
def execSypub (x : Pre) (ch : Bool) (a : BitVec 7) (s : State) : Host.Outcome State Fault Refusal :=
  symWord x ch a.toNat (fun c gd l w => publish gd (itemOf c.base c.g l) a.toNat w) s

/-- SYDONE: the stream closes with the lane's value (R91). -/
def execSydone (x : Pre) (ch : Bool) (a : BitVec 7) (s : State) : Host.Outcome State Fault Refusal :=
  symWord x ch a.toNat (fun c gd l w =>
    let st := streamOf gd (itemOf c.base c.g l) a.toNat
    some (if st.closed.isSome then gd else setStream gd (itemOf c.base c.g l) a.toNat { st with closed := some w })) s

/-! MODE and the special registers (02 R84 to R86). -/

/-- An interlocked group waits for its float words before it touches MODE or FPFLAGS (01 R44). -/
def Cx.floatBusy (c : Cx) : Bool := interlocked c.base c.g && c.g.outst.any fun o => o.float

/-- SETMODE (R86). -/
def execSetmode (x : Pre) (ch : Bool) (d a b : BitVec 7) (s : State) : Host.Outcome State Fault Refusal :=
  issue (some .ctl) false x ch (fun c m =>
    if !(c.preOk Use.dab && c.fieldsOk Use.dab d.toNat a.toNat b.toNat && (c.pre.indexed 0).isNone && (opdOf c.pre 0 d.toNat).isS) then
      c.illegal
    else if c.floatBusy then .stall {}
    else
      match c.sources m Use.dab a.toNat b.toNat with
      | .error e => e
      | .ok (m1, va, vb, _) =>
        match c.lanes with
        | [] => .ok m1
        | l :: _ =>
          match c.write m1 d.toNat (c.all c.g.mode) with
          | .ok m2 =>
            let new := (c.g.mode &&& ~~~(vb l)) ||| (va l &&& vb l)
            .ok (m2.setGrp c.gi { m2.grp c.gi with mode := new &&& modeMask })
          | e => e) s

/-- CLUSTERID of a team (04 R118). -/
def clusterOf (x : Grid) (tid : Nat) : Nat :=
  let r := x.lr
  tid % r.gx / r.chw + r.gx / r.chw * (tid / r.gx % r.gy / r.chh + r.gy / r.chh * (tid / (r.gx * r.gy)))

/-- A special register in a lane; none outside the table (R85). -/
def specVal (m : Mach) (g : Group) (n lane : Nat) : Option Word :=
  let gd := m.grid g.grid
  let t := m.team g.team
  match n with
  | 0x00 => some (BitVec.ofNat 64 lane)
  | 0x01 => some (BitVec.ofNat 64 g.gid)
  | 0x02 => some (BitVec.ofNat 64 t.tid)
  | 0x03 => some (BitVec.ofNat 64 (clusterOf gd t.tid))
  | 0x04 => some (BitVec.ofNat 64 g.core)
  | 0x05 => some (BitVec.ofNat 64 g.die)
  | 0x06 => some (BitVec.ofNat 64 (itemOf m g lane))
  | 0x07 => some (BitVec.ofNat 64 (g.gid % gd.hdr.roles))
  | 0x08 => some g.mode
  | 0x09 => some g.fpflags
  | 0x0A => some (BitVec.ofNat 64 g.prog)
  | 0x0B => some (BitVec.ofNat 64 m.time)
  | 0x10 => some g.tvec
  | 0x11 => some g.tcause
  | 0x12 => some g.taddr
  | 0x13 => some g.tpc
  | 0x14 => some g.tmask
  | _ => none

/-- LANEID and ITEM differ per lane (R85). -/
def perLane (n : Nat) : Bool := n = 0 || n = 6

/-- SRD (R84, R85). A per-lane register has no one value for a queue either: that d is refused as a scalar is (DEDUCED,
notes/assumptions/80.md). -/
def execSrd (x : Pre) (ch : Bool) (d : BitVec 7) (i : BitVec 14) (s : State) : Host.Outcome State Fault Refusal :=
  issue (some .ctl) false x ch (fun c m =>
    let n := i.toNat
    if !c.kind0 false || !c.dstOk d.toNat || (specVal c.base c.g n 0).isNone || (perLane n && c.oneDest d.toNat) then c.illegal
    else if (n = 8 || n = 9) && c.floatBusy then .stall {}
    else
      let now := { c.base with time := m.time }
      c.write m d.toNat (c.lanes.map fun l => (l, (specVal now c.g n l).getD 0))) s

/-- SWR: MODE, FPFLAGS and, for a privileged grid, TVEC (R84). A float word of the same chain and the swr take effect on FPFLAGS in
word order (DESIGN CHOICE, notes/assumptions/104.md). -/
def execSwr (x : Pre) (ch : Bool) (a : BitVec 7) (i : BitVec 14) (s : State) : Host.Outcome State Fault Refusal :=
  issue (some .ctl) false x ch (fun c m =>
    let n := i.toNat
    if !c.kind0 false || !(n = 0x08 || n = 0x09 || n = 0x10) || !(opdOf c.pre 1 a.toNat).uniform || !c.srcOk 1 a.toNat then
      c.illegal
    else if n = 0x10 && !c.grid.lr.priv && c.act ≠ 0 then c.raise .prot 0 c.act
    else if (n = 8 || n = 9) && c.floatBusy then .stall {}
    else
      match c.read m 1 a.toNat with
      | .error e => e
      | .ok (m1, va) =>
        match c.lanes with
        | [] => .ok m1
        | l :: _ =>
          let g := m1.grp c.gi
          .ok (m1.setGrp c.gi (match n with
            | 0x08 => { g with mode := va l &&& modeMask }
            | 0x09 => { g with fpflags := va l &&& fpflagsMask }
            | _ => { g with tvec := va l }))) s

/-! The trap words (05 R142 to R145). -/

/-- TRAP: in handler state the grid is killed with TCAUSE's cause, the code in its report (R144). -/
def execTrap (x : Pre) (ch : Bool) (k : BitVec 14) (s : State) : Host.Outcome State Fault Refusal :=
  issue (some .ctl) false x ch (fun c m =>
    if !c.kind0 false then c.illegal
    else if c.act = 0 then .ok m
    else if !c.g.inhandler then c.illegal
    else
      let g := m.grp c.gi
      .gone (killGrid m g.grid (wb g.tcause 0 8)
        (some (killReport m c.gi k.toNat (wb g.tcause 0 8) g.taddr g.tpc g.tmask g.pp)))) s

/-- SYS: completes, then SYSCALL with done set (R145). -/
def execSys (x : Pre) (ch : Bool) (k : BitVec 14) (s : State) : Host.Outcome State Fault Refusal :=
  issue (some .ctl) false x ch (fun c m =>
    if !c.kind0 false then c.illegal
    else if c.act = 0 then .ok m
    else .late { trapOf .syscall (k.zeroExtend 64) c.act with done := true } m) s

/-- Some 8-byte words of a frame, from an address on, in order. -/
def readFrames (m : Mach) (w : Who) : Nat → Nat → Except (Nat ⊕ Cause) (List Nat)
  | 0, _ => .ok []
  | n + 1, va =>
    match readFrame m w va with
    | .error e => .error e
    | .ok x =>
      match readFrames m w n (va + 8) with
      | .error e => .error e
      | .ok xs => .ok (x :: xs)

/-- RETT: the course of the handler ends, and the trap's voices, park table, mortar and place come back (R142, R143): the mortar sets
are read first, then P. It waits for what the end of its own voice's course waits for; mortar results that other handler voices have outstanding arrive
later, in the mortar sets that it has restored. The report of a kill over a frame that cannot be read tells of the trap that the
handler serves (DESIGN CHOICE, notes/assumptions/76.md). -/
def execRett (x : Pre) (s : State) : Host.Outcome State Fault Refusal :=
  issue (some .ctl) true x false (fun c m =>
    if !c.kind0 false then c.illegal
    else if c.act = 0 then c.transfer m []
    else
      match c.g.handler with
      | none => c.illegal
      | some h =>
        if courseBusy c.base c.gi c.vi then .stall {}
        else
          let w := whoGroup c.base c.gi
          let f := wb c.g.tvec 8 40 * 256
          let m := pinFrame m w f (32 + 32 * c.g.width)
          let frames : Except (Nat ⊕ Cause) (Nat × List Nat) := match readFrames m w (32 * c.g.width) (f + 0x100) with
            | .error e => .error e
            | .ok ms =>
              match readFrame m w (f + 0x28) with
              | .error e => .error e
              | .ok p => .ok (p, ms)
          match frames with
          | .error (.inl va) => .stall { held := [va] }
          | .error (.inr k) =>
            .gone (killGrid m c.g.grid k.code
              (some (killReport m c.gi 0 k.code c.g.taddr c.g.tpc c.g.tmask c.g.pp)))
          | .ok (p, ms) =>
            let g := ((m.grp c.gi).voices.map Prod.fst).foldl endRipple (m.grp c.gi)
            let m1 := retireCourse (m.setGrp c.gi g) c.gi c.vi ((lanesOf c.vmask).map fun l => (l, some 0))
            .gone (returnTrap m1 c.gi h (BitVec.ofNat 64 p) fun vo r l => BitVec.ofNat 64 (ms.getD (c.g.width * (8 * vo + r) + l) 0))) s

end Sys2Proof.Machine
end

