-- ==== Sys2Proof/Machine/LoadStore.lean ====
section
/-!
DEFINITION. Sys2Proof/Machine/LoadStore.lean: the meanings of majors 0x2A to 0x2E: loads and stores of global memory, of the
scratchpad and through the constant path, and the transfers of several registers (02 R95 to R102, 11 R253, R254).
An access is performed when its word issues; a load's register is written when the word completes
(DESIGN CHOICE, notes/assumptions/7.md).
-/

namespace Sys2Proof.Machine

/-- The offset of an M word, in units of its access size (R95, 01 R29). -/
def offsetOf (x : Pre) (o : BitVec 7) : Int :=
  match x with
  | .k4 _ _ _ _ h => (h ++ o).toInt
  | _ => o.toInt

/-- The prefix of an M word: kind 4 or none, an order the word accepts, and a scope (R253, R97, 01 R29). -/
def Cx.memPre (c : Cx) (ords : List Nat) (maxScope : Nat) : Bool :=
  PreClass.mem.accepts c.pre && ords.contains c.pre.ord && c.pre.scope?.getD 0 ≤ maxScope

/-- The address of each lane of Active (R95). -/
def Cx.addrs (c : Cx) (base : Nat → Word) (off : Int) : List (Nat × Word) :=
  c.lanes.map fun l => (l, base l + BitVec.ofInt 64 off)

/-- The rights of a word's accesses, and whether its scope is team or cluster: such accesses of a speculative grid are not
redirected (04 R131). -/
def Cx.who (c : Cx) : Who :=
  { whoGroup c.base c.gi with narrow := c.pre.scope? = some 1 || c.pre.scope? = some 2 }

/-- The spaces a load or store may address. -/
inductive Space where
  | global | spad | const
deriving DecidableEq, Repr, Inhabited

/-- The checks of a word's addresses (R97 to R99, 09 R219). -/
def Cx.locate (c : Cx) (m : Mach) (sp : Space) (acc : Acc) (n : Nat) (as : List (Nat × Word)) : Except Stop (List (Nat × Loc)) :=
  let w := c.who
  match sp with
  | .spad => if fenceHeld m c.gi then .error (.hold []) else checkSpads m w n as
  | .global => unlessHeld m c.gi n (checkLanes m w acc n true as)
  | .const => unlessHeld m c.gi n (checkLanes m w acc n false as)

/-- The scopes a space allows: group to cluster for the scratchpad, all for memory (R97). -/
def Space.maxScope : Space → Nat
  | .spad => 2
  | _ => 4

/-- Orders of a load and of a store (R253). -/
def Space.loadOrds : Space → List Nat
  | .const => [0]
  | _ => [0, 1, 2]

/-- A loaded number as 64 bits (R96). -/
def extendTo (sgn : Bool) (n v : Nat) : Word := if sgn then BitVec.ofInt 64 (toSigned (8 * n) v) else BitVec.ofNat 64 v

/-- The fields of a load: t vector, mortar or scalar, a scalar t with a scalar base (R96). -/
def Cx.loadOk (c : Cx) (sp : Space) (t b : Nat) : Bool :=
  c.memPre sp.loadOrds sp.maxScope && c.dstOk t && !(opdOf c.pre 0 t).isQ && c.srcOk 1 b &&
    (!(opdOf c.pre 0 t).isS || (opdOf c.pre 1 b).isS)

/-- Whether a load is never satisfied from a copy in its core's level-1: a strong one whose scope reaches beyond the core (11 R254). -/
def Cx.strong (c : Cx) : Bool := c.pre.ord = 1 && c.pre.scope?.getD 3 ≥ 2

/-- Narrow-scope accesses recall what narrow atomics left dirty in other cores' caches at their locations, where the core does not see
it there (14 R318, R340). -/
def Cx.recall (c : Cx) (m : Mach) (n : Nat) (ls : List (Nat × Loc)) : Mach :=
  match c.pre.scope? with
  | some sc => ls.foldl (fun m l => match l.2 with
      | .mem key _ => if (atomByte m c.who key).isSome then m else recallAtoms m c.g.die c.g.core sc key n
      | _ => m) m
  | none => m

/-- A load: one value for each lane of Active (R95 to R99). -/
def loadBody (sp : Space) (sgn : Bool) (n : Nat) (fb : Bool) (t b : Nat) (off : Int) (c : Cx) (m : Mach) : Eff :=
  if !c.loadOk sp t b then c.illegal
  else if c.act = 0 then .ok m
  else
    match c.read m 1 b with
    | .error e => e
    | .ok (m1, vb) =>
      match c.destStop t with
      | some e => e
      | none =>
        match c.locate m1 sp .load n (c.addrs vb (off * n)) with
        | .error e => c.stopEff e
        | .ok ls =>
          if anyPoison m1 n ls then c.raise .sramUe 0 0
          else
            let m2 := touchLines (c.recall (pinLocs m1 ls) n ls) c.who c.strong n ls
            let wr := c.wrOf t (ls.map fun l => (l.1, extendTo sgn n (seeNum m2 c.who n l.2)))
            c.long m2 (c.regFlag fb) wr.1 wr.2 .ready

/-- The bytes that stores of some lanes reach at the level-2 slice or in a scratchpad: first key and length. -/
def spansOf (m : Mach) (n : Nat) (vs : List (Nat × Loc)) : List (Nat × Nat) :=
  vs.filterMap fun l => match l.2 with
    | .mem key leaf => if cohOf m leaf key = 0 then some (key, n) else none
    | .spad t off => some (spadKey t off, n)
    | .win .. => none

/-- The stores of some lanes, in ascending order of lanes, so that the highest lane's bytes stay (R100); a line that they cover
together loses its poison mark (10 R235, R242). -/
def storeAll (w : Who) (n : Nat) (m : Mach) (vs : List (Nat × Loc)) (val : Nat → Word) : Mach :=
  clearCovered (vs.foldl (fun m l => doStore m w n (val l.1).toNat l.2) (takeTurns m w vs)) (spansOf m n vs)

/-- What the release part of a word makes visible at its scope (14 R321, R329, R340). -/
def Cx.release (c : Cx) (m : Mach) : Mach := if c.pre.ord ≥ 3 then releaseAt m c.who (c.pre.scope?.getD 3) else m

/-- A store: the low bits of t in each lane of Active (R95 to R100). -/
def storeBody (sp : Space) (n : Nat) (fb : Bool) (t b : Nat) (off : Int) (c : Cx) (m : Mach) : Eff :=
  if !(c.memPre [0, 1, 3] sp.maxScope && c.srcOk 2 t && c.srcOk 1 b) then c.illegal
  else if c.act = 0 then .ok m
  else if c.pre.ord ≥ 3 && earlierHeld m c.gi then .stall {}
  else
    match c.read m 1 b with
    | .error e => e
    | .ok (m1, vb) =>
      match c.read m1 2 t with
      | .error e => e
      | .ok (m2, vt) =>
        match c.locate m2 sp .store n (c.addrs vb (off * n)) with
        | .error e => c.stopEff e
        | .ok ls => c.long (storeAll c.who n (c.recall (pinLocs (c.release m2) ls) n ls) ls vt) (c.flag fb) [] [] .ready

/-- A load's word: CTL when t is scalar (01 R32), else MEM. -/
def loadWord (sp : Space) (sgn : Bool) (x : Pre) (ch : Bool) (z : MSz) (f : Bool) (t b o : BitVec 7) (s : State) :
    Host.Outcome State Fault Refusal :=
  issue (some (destClass x .mem t.toNat)) false x ch (loadBody sp sgn (szBytes z) f t.toNat b.toNat (offsetOf x o)) s

/-- LD: zero-extended (R96). -/
def execLd (x : Pre) (ch : Bool) (z : MSz) (f : Bool) (t b o : BitVec 7) (s : State) : Host.Outcome State Fault Refusal :=
  loadWord .global false x ch z f t b o s

/-- LD_SEXT: sign-extended (R96). At size 64 no such word exists (01 R36). -/
def execLdSext (x : Pre) (ch : Bool) (z : MSz) (f : Bool) (t b o : BitVec 7) (s : State) : Host.Outcome State Fault Refusal :=
  if z = .b64 then issue none false x ch (fun c _ => c.illegal) s else loadWord .global true x ch z f t b o s

/-- ST (R96). -/
def execSt (x : Pre) (ch : Bool) (z : MSz) (f : Bool) (t b o : BitVec 7) (s : State) : Host.Outcome State Fault Refusal :=
  issue (some .mem) false x ch (storeBody .global (szBytes z) f t.toNat b.toNat (offsetOf x o)) s

/-- LDS (R97). -/
def execLds (x : Pre) (ch : Bool) (z : MSz) (f : Bool) (t b o : BitVec 7) (s : State) : Host.Outcome State Fault Refusal :=
  loadWord .spad false x ch z f t b o s

/-- LDS_SEXT (R97). -/
def execLdsSext (x : Pre) (ch : Bool) (z : MSz) (f : Bool) (t b o : BitVec 7) (s : State) : Host.Outcome State Fault Refusal :=
  if z = .b64 then issue none false x ch (fun c _ => c.illegal) s else loadWord .spad true x ch z f t b o s

/-- STS (R97). -/
def execSts (x : Pre) (ch : Bool) (z : MSz) (f : Bool) (t b o : BitVec 7) (s : State) : Host.Outcome State Fault Refusal :=
  issue (some .mem) false x ch (storeBody .spad (szBytes z) f t.toNat b.toNat (offsetOf x o)) s

/-- LDC: a plain load through the constant path (R98). Of data that is written while the grid runs it sees the new value
(DESIGN CHOICE, notes/assumptions/81.md). -/
def execLdc (x : Pre) (ch : Bool) (z : MSz) (f : Bool) (t b o : BitVec 7) (s : State) : Host.Outcome State Fault Refusal :=
  loadWord .const false x ch z f t b o s

/-! ldm and stm (R101, R102). -/

/-- Where an ldm or stm starts: at element 0 with the base it reads, or where rett restarts it (R102, 05 R143). -/
def Cx.resume (c : Cx) (base : Nat → Word) : Nat × (Nat → Word) :=
  match c.voice.restart with
  | some (k, e, bs) => if k = c.member then (e, fun l => Tbl.get (base l) bs l) else (0, base)
  | none => (0, base)

/-- The elements done in order: each element's checks over every lane, then its access. A failing element stops the word
with the elements before it done (R102). -/
def elems (chk : Nat → Mach → Except Stop (List (Nat × Loc))) (act : Nat → Mach → List (Nat × Loc) → Except Stop Mach) :
    Nat → Nat → Mach → Except (Nat × Stop × Mach) Mach
  | 0, _, m => .ok m
  | n + 1, e, m =>
    match chk e m with
    | .error k => .error (e, k, m)
    | .ok ls =>
      match act e m ls with
      | .error k => .error (e, k, m)
      | .ok m1 => elems chk act n (e + 1) m1

/-- The effect of an ldm or stm that stopped at an element: held, or trapped with its progress and bases (05 R143). -/
def Cx.elemStop (c : Cx) (base : Nat → Word) : Nat × Stop × Mach → Eff
  | (_, .hold vas, _) => .stall { held := vas }
  | (e, .cause t, m) => .trap { t with elem := e } m (c.lanes.map fun l => (l, base l))

/-- Whether every register of a run can be touched now (01 R44). -/
def Cx.runBusy (c : Cx) (t n : Nat) : Bool := (List.range n).any fun e => busyReg c.base c.gi c.vi (t + e)

/-- The byte offset of an ldm or stm: 8 times the prefix's offh, read as signed (R101; DESIGN CHOICE, notes/assumptions/82.md). -/
def runOffset (x : Pre) : Int := 8 * (BitVec.ofNat 12 x.offh).toInt

/-- LDM: an element's loads write its register; the device's registers hold them when the word traps (R102), else the word
writes them when it completes. -/
def execLdm (x : Pre) (ch : Bool) (f : Bool) (t b n : BitVec 7) (s : State) : Host.Outcome State Fault Refusal :=
  issue (some .mem) false x ch (fun c m =>
    let cnt := n.toNat + 1
    let r := t.toNat
    if !(c.memPre [0, 1] 4 && c.srcOk 1 b.toNat && r < 0x60 && r + cnt ≤ c.g.nv && !(r ≤ b.toNat && b.toNat < r + cnt)) then c.illegal
    else if c.act = 0 then .ok m
    else
      match c.read m 1 b.toNat with
      | .error e => e
      | .ok (m1, vb) =>
        if c.runBusy r cnt then .stall {}
        else
          let w := c.who
          let (e0, base) := c.resume vb
          let off := runOffset c.pre
          let at' := fun (e : Nat) => c.addrs base (off + 8 * e)
          let ls := fun (e : Nat) => c.locate m1 .global .load 8 (at' e)
          let touch := fun (m : Mach) (ls : List (Nat × Loc)) => touchLines (c.recall (pinLocs m ls) 8 ls) w c.strong 8 ls
          let load := fun (e : Nat) (m : Mach) (ls : List (Nat × Loc)) =>
            if anyPoison m1 8 ls then Except.error (Stop.cause (trapOf .sramUe 0 0))
            else
              let mf := touch m ls
              .ok (mf.setGrp c.gi (writeVec (mf.grp c.gi) (r + e) (ls.map fun l => (l.1, BitVec.ofNat 64 (seeNum mf w 8 l.2)))))
          match elems (fun e _ => ls e) load (cnt - e0) e0 c.base with
          | .error k => c.elemStop base k
          | .ok done =>
            let wr := (List.range (cnt - e0)).flatMap fun i =>
              c.lanes.map fun l => RegWr.vec (r + e0 + i) l (Tbl.get 0 (done.grp c.gi).v (64 * (r + e0 + i) + l))
            let m2 := (List.range (cnt - e0)).foldl (fun m i => match ls (e0 + i) with | .ok l => touch m l | _ => m) m1
            c.long m2 (c.regFlag f) wr ((List.range cnt).map fun e => r + e) .ready) s

/-- STM (R101, R102). -/
def execStm (x : Pre) (ch : Bool) (f : Bool) (t b n : BitVec 7) (s : State) : Host.Outcome State Fault Refusal :=
  issue (some .mem) false x ch (fun c m =>
    let cnt := n.toNat + 1
    let r := t.toNat
    if !(c.memPre [0, 1] 4 && c.srcOk 1 b.toNat && r < 0x60 && r + cnt ≤ c.g.nv) then c.illegal
    else if c.act = 0 then .ok m
    else
      match c.read m 1 b.toNat with
      | .error e => e
      | .ok (m1, vb) =>
        if c.runBusy r cnt then .stall {}
        else
          let w := c.who
          let (e0, base) := c.resume vb
          let off := runOffset c.pre
          let run := elems (fun e m => c.locate m .global .store 8 (c.addrs base (off + 8 * e)))
            (fun e m ls => .ok (storeAll w 8 (c.recall (pinLocs m ls) 8 ls) ls fun l => vecVal c.base.fresh c.base c.gi (r + e) l)) (cnt - e0) e0
          let spans := (List.range (cnt - e0)).flatMap fun i => match c.locate m1 .global .store 8 (c.addrs base (off + 8 * (e0 + i : Nat))) with
            | .ok ls => spansOf m1 8 ls
            | _ => []
          match run m1 with
          | .ok m2 => c.long (clearCovered m2 spans) (c.flag f) [] [] .ready
          | .error _ =>
            match run c.base with
            | .error k => c.elemStop base k
            | .ok _ => .stall {}) s

end Sys2Proof.Machine
end

