-- ==== Sys2Proof/Machine/Atomic.lean ====
section
/-!
DEFINITION. Sys2Proof/Machine/Atomic.lean: the meanings of majors 0x30 to 0x35: atomics, reductions and condition waits
(15 R341 to R354, 18 R388 to R394). An atomic is performed when its word issues (notes/assumptions/7.md).
-/

namespace Sys2Proof.Machine

/-- The operations of R346. -/
inductive AtomOp where
  | add | min | max | and | or | xor | exch | cas | fadd
deriving DecidableEq, Repr, Inhabited

/-- The old value x, the operand y and, for atomc, the new value z: what is written; none when a compare fails
(R346, R348). -/
def AtomOp.apply (op : AtomOp) (sgn : Bool) (w x y z : Nat) : Option Nat :=
  match op with
  | .add => some ((x + y) % 2 ^ w)
  | .min => some (if readInt sgn w x ≤ readInt sgn w y then x else y)
  | .max => some (if readInt sgn w x ≥ readInt sgn w y then x else y)
  | .and => some (x &&& y)
  | .or => some (x ||| y)
  | .xor => some (x ^^^ y)
  | .exch => some y
  | .cas => if x = y then some z else none
  | .fadd => none

/-- One FP32 sum, or two FP16 sums in one word (R347): nearest even, subnormals kept, no flag. -/
def faddBits (half : Bool) (x y : Nat) : Nat :=
  let one := fun (f : Fmt) (p q : Nat) => (addF f FEnv.rne (readF f false p) (readF f false q)).1
  if half then one .f16 (bitsOf x 0 16) (bitsOf y 0 16) + 2 ^ 16 * one .f16 (bitsOf x 16 16) (bitsOf y 16 16)
  else one .f32 x y

/-- What an atomic word is. -/
structure AtomUse where
  op : AtomOp
  sgn : Bool
  /-- access size in bytes -/
  n : Nat
  /-- fadd on two halves -/
  half : Bool
  /-- it returns the old value -/
  returns : Bool
  /-- the orders it accepts (R342) -/
  ords : List Nat
deriving DecidableEq, Repr, Inhabited

/-- The prefix of an atomic word (R342): none, kind 0 with at most flg, or kind 4 with offh 0. -/
def Cx.atomPre (c : Cx) (ords : List Nat) : Bool :=
  match c.pre with
  | .k4 _ _ o sc offh => ords.contains o.toNat && sc.toNat ≤ 4 && offh = 0
  | _ => c.kind0 true

/-- The counter of an atomic word: flag B when a kind-0 prefix sets flg (R342). -/
def Cx.atomFlag (c : Cx) : Option Nat := c.flag c.pre.flg

/-- The scope of an atomic word. -/
def Cx.scope (c : Cx) : Nat := c.pre.scope?.getD 3

/-- The operand fields: a vector or scalar; b vector, scalar or mortar; a scalar d needs scalar a and b (R342). -/
def Cx.atomOperands (c : Cx) (d : Option Nat) (a b : Nat) : Bool :=
  let oa := opdOf c.pre 1 a
  let ob := opdOf c.pre 2 b
  c.srcOk 1 a && c.srcOk 2 b && (oa.isV || oa.isS) && !ob.isQ &&
    (match d with
     | none => true
     | some k => c.dstOk k && !(opdOf c.pre 0 k).isQ && (!(opdOf c.pre 0 k).isS || (oa.isS && ob.isS)))

/-- Whether an atomic is refused by its address region and scope (R343), or by a Relmer window (21 R440). -/
def regionBars (u : AtomUse) (scope pa : Nat) (leaf : Word) : Bool :=
  match bitsOf pa 44 2 with
  | 0 => pteSync leaf && scope < 3
  | 1 => scope < 3 || (pteSync leaf && scope < 3)
  | 2 => bitAt pa 43 || scope ≠ 4 || !(u.returns && (u.op = .add || u.op = .exch || u.op = .cas))
  | _ => pteSync leaf && scope < 3

/-- The leaf and physical address of a virtual address. -/
def leafAt (m : Mach) (w : Who) (va : Nat) : Option (Word × Nat) :=
  match translation m w.part w.ctx va with
  | .leaf e lg => some (e, ptePa e + va % 2 ^ lg)
  | _ => none

/-- The checks of one lane of an atomic word, in the order of R344. -/
def checkAtomic (m : Mach) (w : Who) (u : AtomUse) (scope va : Nat) : Chk :=
  let bars := match leafAt m w va with
    | some (e, pa) => regionBars u scope pa e
    | none => false
  match checkVa m w .atomic u.n false va with
  | .ok l => if bars then .bad .prot 2 else .ok l
  | .bad .regionOwner k => if bars then .bad .prot 2 else .bad .regionOwner k
  | r => r

/-- Who performs an atomic: at device or system scope the home's SYE, so that no dirty copy is read or written; at cluster scope
the rank-0 core; else the issuing core (R343). -/
def atomWho (m : Mach) (w : Who) (scope : Nat) : Who :=
  if scope ≥ 3 then { w with team := m.teams.length }
  else if scope = 2 then
    let t := m.team ((m.team w.team).cluster.getD 0 w.team)
    { w with die := t.die, core := t.core }
  else w

/-- The location as the party that performs the atomic sees it: at device and system scope the issuing die's dirty coh-1 bytes,
and the issuing core's own dirty bytes, are written back first (14 R318, R328, R340), and the home's bank serves the die in its
turn (18 R395). At a narrower scope the performing core recalls what narrow atomics left dirty in others, and an access to a pinned
granule has its turn too (18 R388). -/
def atomLoc (m0 : Mach) (w : Who) (scope n : Nat) (l : Loc) : Mach × Loc :=
  match l with
  | .mem key _ =>
    if scope ≥ 3 then
      let m := takeTurn m0 w key
      let m1 := (m.cores.map Prod.fst).foldl (fun m c =>
        flushAtoms m (c / 64) (c % 64) fun k x => key ≤ k && k < key + n && atomMine m w.die w.core c x) m
      (flushC2In (flushC1In m1 (fun x => x.core / 64 = w.die) key n) (fun c => c = 64 * w.die + w.core) key n, .mem key 0)
    else
      let p := atomWho m0 w scope
      (recallAtoms (takeTurns m0 w [(0, l)]) p.die p.core scope key n, l)
  | _ => (m0, l)

/-- What an atomic writes: at device or system scope the level-2 value; at a narrower one, bytes that stay dirty in the level-1
cache that performs it (R343, 14 R340; who sees them before they are written back: notes/assumptions/89.md). A pinned granule is
written at its SYE (18 R388), a device-control register in its region (notes/assumptions/38.md). -/
def doAtomic (m : Mach) (w : Who) (scope n v : Nat) (l : Loc) : Mach :=
  let p := atomWho m w scope
  match l with
  | .mem key leaf =>
    if scope < 3 && keyRegion key ≠ 3 && !pinned m key && pteCoh leaf = 0 then
      let m0 := supersede (supersede m w key n) p key n
      let c := m0.core p.die p.core
      let clu := if scope = 2 then (m.team w.team).cluster.head? else none
      let f := fun t (ib : Nat × Byte) => Tbl.set none t (key + ib.1) (some { clu := clu, tag := w.tag, val := ib.2 })
      m0.setCore p.die p.core { c with atoms := ((List.range n).zip (toBytes n v)).foldl f c.atoms }
    else doStore m p n v l
  | _ => doStore m p n v l

/-- The read-modify-writes of some lanes, lowest lane first (R345): the device after them and each lane's old value. -/
def atomAll (u : AtomUse) (w : Who) (scope : Nat) (y z : Nat → Nat) : List (Nat × Loc) → Mach → Mach × List (Nat × Nat)
  | [], m => (m, [])
  | (l, loc) :: rest, m =>
    let (m1, at') := atomLoc m w scope u.n loc
    let p := atomWho m1 w scope
    let x := seeNum m1 p u.n at'
    let new := match u.op with
      | .fadd => some (faddBits u.half x (y l))
      | op => op.apply u.sgn (8 * u.n) x (y l) (z l)
    let m2 := match new with
      | some v => doAtomic m1 w scope u.n v at'
      | none => m1
    let r := atomAll u w scope y z rest m2
    (r.1, (l, x) :: r.2)

/-- The register b + 1 of atomc (R348). -/
def Cx.pairOk (c : Cx) (b : Nat) : Bool :=
  (b ≤ 94 || (0x60 ≤ b && b ≤ 0x66) || (0x70 ≤ b && b ≤ 0x7E)) && (opdOf c.pre 3 (b + 1)).exists? c.g

/-- An atomic word with operands a and b, and a destination unless it is a red. With a scalar destination the access is one
(R32, R342; DEDUCED, notes/assumptions/9.md). -/
def atomBody (u : AtomUse) (d a b : Nat) (c : Cx) (m : Mach) : Eff :=
  if !(c.atomPre u.ords && c.atomOperands (if u.returns then some d else none) a b && (u.returns || d = 0) &&
      (u.op ≠ .cas || c.pairOk b)) then c.illegal
  else if c.act = 0 then .ok m
  else if c.pre.ord ≥ 3 && earlierHeld m c.gi then .stall {}
  else
    match c.read m 1 a with
    | .error e => e
    | .ok (m1, va) =>
      match c.read m1 2 b with
      | .error e => e
      | .ok (m2, vb) =>
        match (if u.op = .cas then c.read m2 3 (b + 1) else .ok (m2, fun _ => 0)) with
        | .error e => e
        | .ok (m3, vz) =>
          match (if u.returns then c.destStop d else none) with
          | some e => e
          | none =>
            let scal := u.returns && (opdOf c.pre 0 d).isS
            match unlessHeld m3 c.gi u.n (judge (c.lanes.map fun l => (l, va l, checkAtomic m3 c.who u c.scope (va l).toNat))) with
            | .error e => c.stopEff e
            | .ok all =>
              let ls := if scal then all.take 1 else all
              if anyPoison m3 u.n ls then c.raise .sramUe 0 0
              else
                let low := fun (v : Word) => v.toNat % 2 ^ (8 * u.n)
                let r := atomAll u c.who c.scope (fun l => low (vb l)) (fun l => low (vz l)) ls (pinLocs (c.release m3) ls)
                let old := r.2.map fun p => (p.1, if u.n = 4 then lane32 u.sgn p.2 else BitVec.ofNat 64 p.2)
                let wr := if u.returns then c.wrOf d old else ([], [])
                c.long r.1 c.atomFlag wr.1 wr.2 .ready

/-- Uses by operation and type. -/
def atomUse (op : AtomOp) (t : WTy) : AtomUse :=
  { op := op, sgn := wtSigned t, n := wtWidth t / 8, half := false, returns := true, ords := [0, 1, 2, 3, 4] }
def redUse (op : AtomOp) (t : WTy) : AtomUse := { atomUse op t with returns := false, ords := [0, 1, 3] }
def faddUse (t : ATy) (returns : Bool) : AtomUse :=
  { op := .fadd, sgn := false, n := 4, half := t = .f16x2, returns := returns, ords := if returns then [0, 1, 2, 3, 4] else [0, 1, 3] }

/-- An atomic word: CTL with a scalar destination, else MEM (R342). -/
def atomWord (u : AtomUse) (x : Pre) (ch : Bool) (d a b : Nat) (s : State) : Host.Outcome State Fault Refusal :=
  issue (some (if u.returns then destClass x .mem d else .mem)) false x ch (atomBody u d a b) s

/-- ATOM_ADD (R346). -/
def execAtomAdd (x : Pre) (ch : Bool) (t : WTy) (d a b : BitVec 7) (s : State) : Host.Outcome State Fault Refusal :=
  atomWord (atomUse .add t) x ch d.toNat a.toNat b.toNat s
/-- ATOM_MIN (R346). -/
def execAtomMin (x : Pre) (ch : Bool) (t : WTy) (d a b : BitVec 7) (s : State) : Host.Outcome State Fault Refusal :=
  atomWord (atomUse .min t) x ch d.toNat a.toNat b.toNat s
/-- ATOM_MAX (R346). -/
def execAtomMax (x : Pre) (ch : Bool) (t : WTy) (d a b : BitVec 7) (s : State) : Host.Outcome State Fault Refusal :=
  atomWord (atomUse .max t) x ch d.toNat a.toNat b.toNat s
/-- ATOM_AND (R346). -/
def execAtomAnd (x : Pre) (ch : Bool) (t : WTy) (d a b : BitVec 7) (s : State) : Host.Outcome State Fault Refusal :=
  atomWord (atomUse .and t) x ch d.toNat a.toNat b.toNat s
/-- ATOM_OR (R346). -/
def execAtomOr (x : Pre) (ch : Bool) (t : WTy) (d a b : BitVec 7) (s : State) : Host.Outcome State Fault Refusal :=
  atomWord (atomUse .or t) x ch d.toNat a.toNat b.toNat s
/-- ATOM_XOR (R346). -/
def execAtomXor (x : Pre) (ch : Bool) (t : WTy) (d a b : BitVec 7) (s : State) : Host.Outcome State Fault Refusal :=
  atomWord (atomUse .xor t) x ch d.toNat a.toNat b.toNat s
/-- ATOM_EXCH (R346). -/
def execAtomExch (x : Pre) (ch : Bool) (t : WTy) (d a b : BitVec 7) (s : State) : Host.Outcome State Fault Refusal :=
  atomWord (atomUse .exch t) x ch d.toNat a.toNat b.toNat s
/-- ATOMC: the compare value in b, the new value in b + 1 (R348). -/
def execAtomc (x : Pre) (ch : Bool) (t : WTy) (d a b : BitVec 7) (s : State) : Host.Outcome State Fault Refusal :=
  atomWord (atomUse .cas t) x ch d.toNat a.toNat b.toNat s
/-- RED_ADD (R350). -/
def execRedAdd (x : Pre) (ch : Bool) (t : WTy) (a b : BitVec 7) (s : State) : Host.Outcome State Fault Refusal :=
  atomWord (redUse .add t) x ch 0 a.toNat b.toNat s
/-- RED_MIN (R350). -/
def execRedMin (x : Pre) (ch : Bool) (t : WTy) (a b : BitVec 7) (s : State) : Host.Outcome State Fault Refusal :=
  atomWord (redUse .min t) x ch 0 a.toNat b.toNat s
/-- RED_MAX (R350). -/
def execRedMax (x : Pre) (ch : Bool) (t : WTy) (a b : BitVec 7) (s : State) : Host.Outcome State Fault Refusal :=
  atomWord (redUse .max t) x ch 0 a.toNat b.toNat s
/-- RED_AND (R350). -/
def execRedAnd (x : Pre) (ch : Bool) (t : WTy) (a b : BitVec 7) (s : State) : Host.Outcome State Fault Refusal :=
  atomWord (redUse .and t) x ch 0 a.toNat b.toNat s
/-- RED_OR (R350). -/
def execRedOr (x : Pre) (ch : Bool) (t : WTy) (a b : BitVec 7) (s : State) : Host.Outcome State Fault Refusal :=
  atomWord (redUse .or t) x ch 0 a.toNat b.toNat s
/-- RED_XOR (R350). -/
def execRedXor (x : Pre) (ch : Bool) (t : WTy) (a b : BitVec 7) (s : State) : Host.Outcome State Fault Refusal :=
  atomWord (redUse .xor t) x ch 0 a.toNat b.toNat s
/-- ATOM_FADD (R347). -/
def execAtomFadd (x : Pre) (ch : Bool) (t : ATy) (d a b : BitVec 7) (s : State) : Host.Outcome State Fault Refusal :=
  atomWord (faddUse t true) x ch d.toNat a.toNat b.toNat s
/-- RED_FADD (R347). -/
def execRedFadd (x : Pre) (ch : Bool) (t : ATy) (a b : BitVec 7) (s : State) : Host.Outcome State Fault Refusal :=
  atomWord (faddUse t false) x ch 0 a.toNat b.toNat s

/-! Condition waits (R351 to R353, 18 R392, R393). -/

/-- A monitor takes an entry: it reads and tests the location, and stays armed when the condition does not hold. -/
def armMonitor (m : Mach) (die : Nat) (k : Monitor) : Mach :=
  if monitorHolds m k then satisfy m k
  else m.setMc die { m.mc die with mons := (m.mc die).mons ++ [k] }

/-- A monitor arrives at its SYE: it takes an entry, or waits in the arm queue, whatever its length (DESIGN CHOICE,
notes/assumptions/88.md). -/
def arriveMonitor (m : Mach) (k : Monitor) : Mach :=
  let die := homeDie m (keyPart k.key) (keyOff k.key)
  let x := m.mc die
  if x.mons.length < 65536 && x.arms.isEmpty then armMonitor m die k else m.setMc die { x with arms := x.arms ++ [k] }

/-- Lanes of one word with equal address and value share a monitor (R352): address, value, lanes. -/
def shareMonitors : List (Nat × Nat × Word) → List (Nat × Word × Mask)
  | [] => []
  | (l, key, v) :: rest =>
    let more := shareMonitors rest
    match more.find? fun e => e.1 = key && e.2.1 = v with
    | some e => (key, v, e.2.2 ||| maskOf [l]) :: more.filter fun e => !(e.1 = key && e.2.1 = v)
    | none => (key, v, maskOf [l]) :: more

/-- The lowest address of some lanes. -/
def lowestAddr (as : List Word) : Word := (firstBy (fun (a b : Word) => a.toNat < b.toNat) as).getD 0

/-- WAITC: a monitor for each lane of Active (R351, R352). -/
def execWaitc (x : Pre) (ch : Bool) (t : WTy) (n : BitVec 4) (a b : BitVec 7) (s : State) : Host.Outcome State Fault Refusal :=
  issue (some .mem) false x ch (fun c m =>
    let size := wtWidth t / 8
    if !(c.atomPre [0, 1, 2] && c.atomOperands none a.toNat b.toNat && c.scope ≥ 3 && n.toNat ≤ 5) then c.illegal
    else if c.act = 0 then .ok m
    else
      match c.read m 1 a.toNat with
      | .error e => e
      | .ok (m1, va) =>
        match c.read m1 2 b.toNat with
        | .error e => e
        | .ok (m2, vb) =>
          match unlessHeld m2 c.gi size (checkLanes m2 c.who .load size false (c.lanes.map fun l => (l, va l))) with
          | .error e => c.stopEff e
          | .ok ls =>
            let outside := c.lanes.filter fun l => match leafAt m2 c.who (va l).toNat with
              | some (_, pa) => bitsOf pa 44 2 ≠ 0
              | none => true
            if outside ≠ [] then c.raise .prot (lowestAddr (outside.map va)) (maskOf outside)
            else if anyPoison m2 size ls then c.raise .sramUe 0 0
            else
              let keys := ls.filterMap fun l => match l.2 with
                | .mem key _ => some (l.1, key, BitVec.ofNat 64 ((vb l.1).toNat % 2 ^ (8 * size)))
                | _ => none
              let id := (m2.grp c.gi).nextId
              let seen := ls.foldl (fun m l => (atomLoc m c.who 3 size l.2).1) (pinLocs m2 ls)
              match c.long seen c.atomFlag [] [] (.monitors keys.length) with
              | .ok m3 =>
                let mons := (shareMonitors keys).map fun e =>
                  ({ grp := c.gi, id := id, lanes := e.2.2, key := e.1, size := size, cond := n.toNat, sgn := wtSigned t, val := e.2.1,
                     acq := c.pre.ord = 2 } : Monitor)
                .ok (mons.foldl arriveMonitor m3)
              | e => e) s

end Sys2Proof.Machine
end

