-- ==== Sys2Proof/Machine/Queue.lean ====
section
/-!
DEFINITION. Sys2Proof/Machine/Queue.lean: the meanings of major 0x36 up to minor 13: queues, copy commands, barrier objects,
circular buffers, ring tags and barriers (11 R260 to R275, R281, R282, 09 R212, R213).
-/

namespace Sys2Proof.Machine

/-! Format Q words (R260). -/

/-- A scalar field at a position: a scalar register that exists. -/
def Cx.sOk (c : Cx) (pos code : Nat) : Bool := (opdOf c.pre pos code).isS && (opdOf c.pre pos code).exists? c.g

/-- The number of the scalar register a field names. -/
def Cx.sNum (c : Cx) (pos code : Nat) : Nat := match opdOf c.pre pos code with | .s r => r | _ => 0

/-- The prefix and scalar fields of a Q word: kind 0 with a zero payload or kind 1; a and b where they are scalars. -/
def Cx.qOk (c : Cx) (a b : Option Nat) : Bool :=
  (c.kind0 false || c.kind1 none a b false) && (a.map (c.sOk 1)).getD true && (b.map (c.sOk 2)).getD true

/-- A scalar field's value; a field that names none reads 0. -/
def Cx.readS (c : Cx) (m : Mach) (pos : Nat) (code : Option Nat) : Except Eff Word :=
  match code with
  | none => .ok 0
  | some k =>
    match c.read m pos k with
    | .error e => .error e
    | .ok (_, v) => .ok (v 0)

/-- What a Q word does: its own static check, then, with a lane active, its body once with the values of its scalar fields. -/
def qBody (a b : Option Nat) (ok : Cx → Bool) (body : Cx → Mach → Word → Word → Eff) (c : Cx) (m : Mach) : Eff :=
  if !(c.qOk a b && ok c) then c.illegal
  else if c.act = 0 then .ok m
  else
    match c.readS m 1 a, c.readS m 2 b with
    | .ok va, .ok vb => body c m va vb
    | .error e, _ => e
    | _, .error e => e

/-- A Q word issued with its class. -/
def qWord (cls : Pipe) (x : Pre) (ch : Bool) (a b : Option Nat) (ok : Cx → Bool) (body : Cx → Mach → Word → Word → Eff) (s : State) :
    Host.Outcome State Fault Refusal :=
  issue (some cls) false x ch (qBody a b ok body) s

/-- No further static check. -/
def always (_ : Cx) : Bool := true

/-- A scalar destination written at issue. -/
def Cx.putS (c : Cx) (m : Mach) (pos code : Nat) (v : Word) : Eff := .ok (m.setGrp c.gi (writeScal (m.grp c.gi) (c.sNum pos code) v))

/-- A long-latency word with a scalar result known at issue. -/
def Cx.longS (c : Cx) (m : Mach) (fb : Bool) (pos code : Nat) (v : Word) : Eff :=
  c.long m (c.flag fb) [.scal (c.sNum pos code) v] [128 + c.sNum pos code] .ready

/-- A long-latency word that waits, and may write a scalar when it completes. -/
def Cx.longWait (c : Cx) (m : Mach) (fb : Bool) (w : Wait) (dst : Option Nat) : Eff :=
  c.long m (c.flag fb) [] (dst.toList.map fun d => 128 + d) w

/-! Queues and the commands they carry (R261, R262, R267, R268). -/

/-- Four scalars from s n on exist (R260). -/
def Cx.fourOk (c : Cx) (a : Nat) : Bool := c.sOk 1 a && c.sNum 1 a + 3 < c.g.ns

/-- The values of some scalars in a row. -/
def Cx.scalars (c : Cx) (m : Mach) (a n : Nat) : List Word :=
  (List.range n).map fun i => scalVal m.fresh c.base c.gi (c.sNum 1 a + i)

/-- Whether an interlocked group must wait for one of some scalars in a row (01 R44). -/
def Cx.scalarsBusy (c : Cx) (a n : Nat) : Bool := (List.range n).any fun i => busyReg c.base c.gi c.vi (128 + c.sNum 1 a + i)

/-- QPUSH: four elements at once (R267, 09 R212). -/
def execQpush (x : Pre) (ch : Bool) (q : BitVec 3) (a : BitVec 7) (s : State) : Host.Outcome State Fault Refusal :=
  qWord .mem x ch (some a.toNat) none (fun c => c.fourOk a.toNat) (fun c m _ _ =>
    if c.scalarsBusy a.toNat 4 then .stall {} else c.pushAll m q.toNat ((c.scalars m a.toNat 4).map fun w => (w, .data))) s

/-- A slot's record. -/
def Slot.none : Slot := { state := 0, team := 0, e := 0, f := 0 }
def slotOf (m : Mach) (g : Group) (n : Nat) : Slot := Tbl.get Slot.none (m.core g.die g.core).slots n
def setSlot (m : Mach) (g : Group) (n : Nat) (x : Slot) : Mach :=
  let c := m.core g.die g.core
  m.setCore g.die g.core { c with slots := Tbl.set Slot.none c.slots n x }

/-- A slot that may be filled: CLAIMED or FILLING by the team (12 R283). -/
def fillable (x : Slot) (team : Nat) : Bool := x.team = team && (x.state = 1 || x.state = 2)

/-- LDTILE: qpush of a checked tile-load (R268); the slot that it names is FILLING from its issue on, and counts it as outstanding.
No geometry core has it (04 R107). -/
def execLdtile (x : Pre) (ch : Bool) (q : BitVec 3) (a : BitVec 7) (s : State) : Host.Outcome State Fault Refusal :=
  qWord .mem x ch (some a.toNat) none (fun c => c.fourOk a.toNat && !isGeo c.g.die) (fun c m _ _ =>
    if c.scalarsBusy a.toNat 4 then .stall {}
    else
      let ws := c.scalars m a.toNat 4
      let w0 := ws.getD 0 0
      let n := wb (ws.getD 2 0) 0 6
      if wb w0 56 8 ≠ 4 then c.illegal
      else if (qGet (m.grp c.gi) q.toNat).bind ≠ .cmd then c.raise .queueState (BitVec.ofNat 64 q.toNat) c.act
      else if wb w0 53 1 = 1 then c.pushAll m q.toNat (ws.map fun w => (w, .data))
      else
        let sl := slotOf m c.g n
        if !fillable sl c.g.team then c.raise .slotState (BitVec.ofNat 64 n) c.act
        else c.pushAll (setSlot m c.g n { sl with state := 2 }) q.toNat ((w0, .tile) :: (ws.drop 1).map fun w => (w, .data))) s

/-- A queue released from its endpoint: a link end closes, the SXB port is given up (R261, 09 R213). -/
def unbindQ (m : Mach) (gi q : Nat) : Mach :=
  let g := m.grp gi
  match (qGet g q).bind with
  | .lsend k =>
    let t := m.team g.team
    m.setTeam g.team (setLink t k { linkOf t k with send := none, closed := true })
  | .lrecv k =>
    let t := m.team g.team
    m.setTeam g.team (setLink t k { linkOf t k with recv := none, rclosed := true })
  | .eng 5 => m.setCore g.die g.core { m.core g.die g.core with sxb := none }
  | _ => m

/-- Whether an endpoint may be bound to a queue (R261). -/
def bindFree (m : Mach) (gi q : Nat) (b : Bind) : Bool :=
  let g := m.grp gi
  match b with
  | .tok => !((List.range 8).any fun i => i ≠ q && (qGet g i).bind = .tok)
  | .eng 5 => (match (m.core g.die g.core).sxb with | some o => o = (gi, q) | none => true)
  | .lsend k => (match (linkOf (m.team g.team) k).send with | some o => o = (gi, q) | none => true)
  | .lrecv k => (match (linkOf (m.team g.team) k).recv with | some o => o = (gi, q) | none => true)
  | _ => true

/-- What the new endpoint holds of the binding. -/
def bindEnd (m : Mach) (gi q : Nat) (b : Bind) : Mach :=
  let g := m.grp gi
  match b with
  | .lsend k =>
    let t := m.team g.team
    m.setTeam g.team (setLink t k { linkOf t k with send := some (gi, q), closed := false })
  | .lrecv k =>
    let t := m.team g.team
    m.setTeam g.team (setLink t k { linkOf t k with recv := some (gi, q), rclosed := false })
  | .eng 5 => m.setCore g.die g.core { m.core g.die g.core with sxb := some (gi, q) }
  | _ => m

/-- A binding, or QUEUE_STATE when the queue holds an element or the endpoint is taken (R261, 09 R212). -/
def Cx.qbind (c : Cx) (m : Mach) (q : Nat) (b : Bind) : Eff :=
  if qCount m c.gi q ≠ 0 || !bindFree m c.gi q b then c.raise .queueState (BitVec.ofNat 64 q) c.act
  else
    let m1 := bindEnd (unbindQ m c.gi q) c.gi q b
    .ok (m1.setGrp c.gi (qSet (m1.grp c.gi) q { qGet (m1.grp c.gi) q with bind := b }))

/-- QBIND_NONE (R261). -/
def execQbindNone (x : Pre) (ch : Bool) (q : BitVec 3) (s : State) : Host.Outcome State Fault Refusal :=
  qWord .mem x ch none none always (fun c m _ _ => c.qbind m q.toNat .unbound) s
/-- QBIND_CMD (R261). -/
def execQbindCmd (x : Pre) (ch : Bool) (q : BitVec 3) (s : State) : Host.Outcome State Fault Refusal :=
  qWord .mem x ch none none always (fun c m _ _ => c.qbind m q.toNat .cmd) s
/-- QBIND_TOK (R261). -/
def execQbindTok (x : Pre) (ch : Bool) (q : BitVec 3) (s : State) : Host.Outcome State Fault Refusal :=
  qWord .mem x ch none none always (fun c m _ _ => c.qbind m q.toNat .tok) s
/-- QBIND_ENG: engines 1 to 5; 2 alone on a geometry core (R261). -/
def execQbindEng (x : Pre) (ch : Bool) (q : BitVec 3) (a : BitVec 7) (s : State) : Host.Outcome State Fault Refusal :=
  qWord .mem x ch (some a.toNat) none always (fun c m va _ =>
    let e := va.toNat
    if e = 0 || e > 5 || (isGeo c.g.die && e ≠ 2) then c.illegal else c.qbind m q.toNat (.eng e)) s
/-- QBIND_LSEND (R261). -/
def execQbindLsend (x : Pre) (ch : Bool) (q : BitVec 3) (a : BitVec 7) (s : State) : Host.Outcome State Fault Refusal :=
  qWord .mem x ch (some a.toNat) none always (fun c m va _ => if va.toNat > 31 then c.illegal else c.qbind m q.toNat (.lsend va.toNat)) s
/-- QBIND_LRECV (R261). -/
def execQbindLrecv (x : Pre) (ch : Bool) (q : BitVec 3) (a : BitVec 7) (s : State) : Host.Outcome State Fault Refusal :=
  qWord .mem x ch (some a.toNat) none always (fun c m va _ => if va.toNat > 31 then c.illegal else c.qbind m q.toNat (.lrecv va.toNat)) s

/-- What qcnt reads: closed, state and count (R262). -/
def qcntVal (m : Mach) (gi q : Nat) : Word :=
  let g := m.grp gi
  let st := match (qGet g q).bind with
    | .unbound => 0
    | .cmd | .lsend _ => 2
    | _ => 1
  let closed := match (qGet g q).bind with | .lrecv k => (linkOf (m.team g.team) k).closed | _ => false
  BitVec.ofNat 64 (boolNat closed * 64 + st * 16 + qCount m gi q)

/-- QCNT (R262). -/
def execQcnt (x : Pre) (ch : Bool) (q : BitVec 3) (a : BitVec 7) (s : State) : Host.Outcome State Fault Refusal :=
  qWord .ctl x ch (some a.toNat) none always (fun c m _ _ => c.putS m 1 a.toNat (qcntVal m c.gi q.toNat)) s

/-! Barrier objects (R269 to R271). -/

/-- The offset of a barrier object: MISALIGN, then PROT outside the own team's grant (R269). -/
def bobAt (m : Mach) (w : Who) (va : Nat) : Except Cause Nat :=
  if va % 16 ≠ 0 then .error .misalign
  else if bitsOf va 28 4 ≠ 15 then .error .prot
  else
    match checkSpad m w 16 va with
    | .ok (.spad _ off) => .ok off
    | _ => .error .prot

/-- Word 0 and word 1 of the object at an offset. -/
def bobWord (m : Mach) (team off : Nat) : Word := BitVec.ofNat 64 (ofBytes (spadBytes m team off 8))
def setBob (m : Mach) (team off : Nat) (w : Word) : Mach := spadPut m team off (toBytes 8 w.toNat)

/-- pending with a sum that stays below 2^40, else the maximum with ovf (R270). -/
def bobSum (w : Word) (n : Nat) : Word :=
  let p := wb w 0 40 + n
  if p < 2 ^ 40 then BitVec.ofNat 64 (wb w 63 1 * 2 ^ 63 + wb w 62 1 * 2 ^ 62 + p)
  else BitVec.ofNat 64 (wb w 63 1 * 2 ^ 63 + 2 ^ 62 + (2 ^ 40 - 1))

/-- Whether a bobwait of a word completes (R271). -/
def bobDone (w : Word) : Bool := wb w 0 40 = 0 || wb w 63 1 = 1

/-- The bobwait words that an object's new word 0 completes: each keeps the word that it writes (R271). -/
def noteBob (m : Mach) (team off : Nat) : Mach :=
  let w := bobWord m team off
  let one := fun (o : Outst) => match o.wait with
    | .bob k dst => if k = off then { o with wait := .ready, wr := o.wr ++ [.scal dst w] } else o
    | _ => o
  if !bobDone w then m
  else (m.team team).groups.foldl (fun m gi => m.setGrp gi { m.grp gi with outst := (m.grp gi).outst.map one }) m

/-- An object's word 0 as a word or an engine leaves it. -/
def putBob (m : Mach) (team off : Nat) (w : Word) : Mach := noteBob (setBob m team off w) team off

/-- A word on a barrier object: b's upper bits must be 0 where it is a count (R270). A write to the object waits for an earlier fence of
its group (R259). -/
def bobBody (count : Bool) (f : Cx → Mach → Nat → Word → Eff) (c : Cx) (m : Mach) (va vb : Word) : Eff :=
  if count && wb vb 40 24 ≠ 0 then c.illegal
  else
    match bobAt m c.who va.toNat with
    | .error k => c.raise k va c.act
    | .ok off => if count && fenceHeld m c.gi then .stall {} else f c m off vb

/-- BOBINIT (R270). -/
def execBobinit (x : Pre) (ch : Bool) (a b : BitVec 7) (s : State) : Host.Outcome State Fault Refusal :=
  qWord .mem x ch (some a.toNat) (some b.toNat) always
    (bobBody true fun c m off vb => .ok (putBob (setBob m c.g.team (off + 8) 0) c.g.team off vb)) s

/-- BOBADD (R270). -/
def execBobadd (x : Pre) (ch : Bool) (a b : BitVec 7) (s : State) : Host.Outcome State Fault Refusal :=
  qWord .mem x ch (some a.toNat) (some b.toNat) always
    (bobBody true fun c m off vb => .ok (putBob m c.g.team off (bobSum (bobWord m c.g.team off) vb.toNat))) s

/-- BOBWAIT: completes when pending is 0 or fault is 1, with word 0; at once if either holds at issue (R271). An object in a
poisoned line is an error of its team (10 R235; DEDUCED, notes/assumptions/91.md). -/
def execBobwait (x : Pre) (ch : Bool) (f : Bool) (a b : BitVec 7) (s : State) : Host.Outcome State Fault Refusal :=
  qWord .ctl x ch (some a.toNat) (some b.toNat) always
    (bobBody false fun c m off _ =>
      if poisoned m (spadKey c.g.team off) 8 then c.raise .sramUe 0 0
      else if bobDone (bobWord m c.g.team off) then c.longS m f 2 b.toNat (bobWord m c.g.team off)
      else c.longWait m f (.bob off (c.sNum 2 b.toNat)) (some (c.sNum 2 b.toNat))) s

/-! Circular buffers (R272 to R274). -/

/-- The buffer of a number; none when it has not been initialised. -/
def cbOf (t : Team) (n : Nat) : Option Cbuf := (t.cbs.find? fun e => e.1 = n).map Prod.snd
def setCb (m : Mach) (team n : Nat) (x : Cbuf) : Mach := m.setTeam team { m.team team with cbs := Tbl.put (m.team team).cbs n x }

/-- CBINIT: the checks of R272 in their order. -/
def execCbinit (x : Pre) (ch : Bool) (a b : BitVec 7) (n : BitVec 3) (s : State) : Host.Outcome State Fault Refusal :=
  qWord .mem x ch (some a.toNat) (some b.toNat) (fun _ => n.toNat < 4) (fun c m va vb =>
    let nslots := wb vb 0 8
    let kind := wb vb 8 1 = 1
    let ssz := wb vb 16 16
    let busy := match cbOf (m.team c.g.team) n.toNat with
      | some k => !k.busy.isEmpty || k.acq ≠ 0
      | none => false
    let fields := 1 ≤ nslots && nslots ≤ 64 && wb vb 9 7 = 0 && wb vb 32 32 = 0 &&
      (if kind then ssz = 0 && wb va 6 58 = 0 && va.toNat + nslots ≤ 64 else 1 ≤ ssz && va.toNat % 256 = 0)
    if !fields || busy then c.illegal
    else
      let new : Cbuf := { base := va.toNat, nslots := nslots, kind := kind, ssz := ssz, free := nslots, filled := 0, acq := 0, fill := 0, acqi := 0, busy := [],
                          waiting := ((cbOf (m.team c.g.team) n.toNat).map fun k => k.waiting).getD [] }
      if kind then
        match (List.range nslots).find? fun i => !((slotOf m c.g (va.toNat + i)).team = c.g.team && (slotOf m c.g (va.toNat + i)).state = 1) with
        | some i => c.raise .slotState (BitVec.ofNat 64 (va.toNat + i)) c.act
        | none => .ok (setCb m c.g.team n.toNat new)
      else
        match checkSpad m c.who 1 va.toNat with
        | .ok (.spad t off) =>
          if t = c.g.team && off + 256 * ssz * nslots ≤ spadSize m t then .ok (setCb m c.g.team n.toNat { new with base := off })
          else c.raise .prot va c.act
        | _ => c.raise .prot va c.act) s

/-- CBACQ: completes when a slot is filled (R273). -/
def execCbacq (x : Pre) (ch : Bool) (f : Bool) (a : BitVec 7) (n : BitVec 3) (s : State) : Host.Outcome State Fault Refusal :=
  qWord .ctl x ch (some a.toNat) none (fun _ => n.toNat < 4) (fun c m _ _ =>
    match cbOf (m.team c.g.team) n.toNat with
    | none => c.illegal
    | some k =>
      let id := (m.grp c.gi).nextId
      match c.longWait m f (.cbacq n.toNat (c.sNum 1 a.toNat)) (some (c.sNum 1 a.toNat)) with
      | .ok m1 => .ok (setCb m1 c.g.team n.toNat { k with waiting := k.waiting ++ [(c.gi, id)] })
      | e => e) s

/-- A word that completes at issue and whose effect on others follows the accesses that its group issued before it: while some are
held, a record of it stays with the group's outstanding words, tracked by no counter. -/
def Cx.later (c : Cx) (m : Mach) (act : HeldAct) : Eff :=
  if accessesHeld m c.gi (m.grp c.gi).nextId true then c.long m none [] [] (.held act) else .ok m

/-- CBREL: the oldest acquired slot becomes free (R274, 12 R283). While accesses that the group issued before it are held, the copy
engine starts no command on the buffer. -/
def execCbrel (x : Pre) (ch : Bool) (n : BitVec 3) (s : State) : Host.Outcome State Fault Refusal :=
  qWord .mem x ch none none (fun _ => n.toNat < 4) (fun c m _ _ =>
    match cbOf (m.team c.g.team) n.toNat with
    | none => c.illegal
    | some k =>
      if k.acq = 0 then c.illegal
      else
        let i := k.base + (k.acqi + k.nslots - k.acq % k.nslots) % k.nslots
        let m1 := if k.kind && (slotOf m c.g i).team = c.g.team && (slotOf m c.g i).state ≠ 0 then
            setSlot m c.g i { slotOf m c.g i with state := 1, f := 0 } else m
        c.later (setCb m1 c.g.team n.toNat { k with acq := k.acq - 1, free := k.free + 1 }) (.cbrel n.toNat)) s

/-- What cbstat reads (R274). -/
def cbstatVal : Option Cbuf → Word
  | none => 0
  | some k => BitVec.ofNat 64 (k.acqi * 2 ^ 40 + k.fill * 2 ^ 32 + k.nslots * 2 ^ 24 + k.acq * 2 ^ 16 + k.filled * 2 ^ 8 + k.free)

/-- CBSTAT (R274). -/
def execCbstat (x : Pre) (ch : Bool) (a : BitVec 7) (n : BitVec 3) (s : State) : Host.Outcome State Fault Refusal :=
  qWord .ctl x ch (some a.toNat) none (fun _ => n.toNat < 4) (fun c m _ _ =>
    c.putS m 1 a.toNat (cbstatVal (cbOf (m.team c.g.team) n.toNat))) s

/-! Ring tags (R275). -/

/-- RTAG: a compare-and-set of a tag byte, acquire-release at device scope. -/
def execRtag (x : Pre) (ch : Bool) (f : Bool) (a b : BitVec 7) (s : State) : Host.Outcome State Fault Refusal :=
  qWord .ctl x ch (some a.toNat) (some b.toNat) always (fun c m va vb =>
    if wb vb 16 48 ≠ 0 || wb vb 0 8 > 3 || wb vb 8 8 > 3 then c.illegal
    else if earlierHeld m c.gi then .stall {}
    else
      match unlessHeld m c.gi 1 (checkLanes m c.who .atomic 1 false (c.lanes.map fun l => (l, va))) with
      | .error e => c.stopEff e
      | .ok ls =>
        match ls with
        | [] => .ok m
        | l :: _ =>
          if seePoison m 1 l.2 then c.raise .sramUe 0 0
          else
            let (m1, loc) := atomLoc (flushC1 (pinLocs m ls) c.g.die c.g.core) c.who 3 1 l.2
            let w := atomWho m1 c.who 3
            let old := seeNum m1 w 1 loc
            let hit := old = wb vb 0 8
            let m2 := if hit then doAtomic m1 c.who 3 1 (wb vb 8 8) loc else m1
            c.longS m2 f 2 b.toNat (BitVec.ofNat 64 (boolNat hit * 256 + old))) s

/-! Barriers (R281, R282). -/

def Barrier.none : Barrier := { c := Option.none, count := 0, phase := 0 }

/-- The team that holds a barrier: rank 0 of the cluster for a cluster barrier. -/
def barTeam (m : Mach) (ti : Nat) (clu : Bool) : Nat := if clu then (m.team ti).cluster.getD 0 ti else ti
def barOf (m : Mach) (ti : Nat) (clu : Bool) (n : Nat) : Barrier :=
  let t := m.team (barTeam m ti clu)
  Tbl.get Barrier.none (if clu then t.clbars else t.bars) n
def setBar (m : Mach) (ti : Nat) (clu : Bool) (n : Nat) (b : Barrier) : Mach :=
  let k := barTeam m ti clu
  let t := m.team k
  m.setTeam k (if clu then { t with clbars := Tbl.set Barrier.none t.clbars n b } else { t with bars := Tbl.set Barrier.none t.bars n b })

/-- PROG of every group of some teams set to 0 (04 R112). -/
def clearProg (m : Mach) (ts : List Nat) : Mach :=
  { m with groups := m.groups.map fun g => if ts.contains g.team then { g with prog := 0 } else g }

/-- The arrivals that complete a phase, by the c field (R281). -/
def barTarget (m : Mach) (gi c : Nat) (clu : Bool) : Nat :=
  let g := m.grp gi
  if c % 64 = 0 then (m.grid g.grid).lr.grps * (if clu then (m.team g.team).cluster.length else 1) else c % 64

/-- An arrival of a group recorded; the last of a phase completes it, by the count that its first arrival fixed. What the group has
done is visible to the team, or to the cluster. Its bar.wait words issued since `since` wait for this phase (R281, R282). -/
def arriveBar (m0 : Mach) (gi n : Nat) (clu : Bool) (c since : Nat) : Mach :=
  let m := if clu then releaseAt m0 (whoGroup m0 gi) 2 else m0
  let g := m.grp gi
  let bar := barOf m g.team clu n
  let wait := fun (o : Outst) => match o.wait with
    | .bar k cl _ => if k = n && cl = clu && since < o.id then { o with wait := .bar k cl bar.phase } else o
    | _ => o
  let m1 := m.setGrp gi { g with arrived := Tbl.put g.arrived (2 * n + boolNat clu) bar.phase, outst := g.outst.map wait }
  if bar.count + 1 ≥ barTarget m gi (bar.c.getD c) clu then
    clearProg (setBar m1 g.team clu n { c := none, count := 0, phase := bar.phase + 1 })
      (if clu then (m.team g.team).cluster else [g.team])
  else setBar m1 g.team clu n { bar with c := some (bar.c.getD c), count := bar.count + 1 }

/-- BAR_ARR: it completes at issue; its arrival is recorded when every access that the group issued before it is performed. It fixes the
count of the phase when it issues; one that is recorded in a later phase counts by the count of that phase (R281; DEDUCED,
notes/assumptions/102.md). -/
def execBarArr (x : Pre) (ch : Bool) (b : BitVec 7) (n : BitVec 3) (s : State) : Host.Outcome State Fault Refusal :=
  qWord .mem x ch none none always (fun c m _ _ =>
    let clu := b.getLsbD 6
    let bar := barOf m c.g.team clu n.toNat
    if (!clu && bitsOf b.toNat 0 6 > 32) || (bar.c.isSome && bar.c ≠ some b.toNat) then c.illegal
    else if accessesHeld m c.gi (m.grp c.gi).nextId true then
      c.long (setBar m c.g.team clu n.toNat { bar with c := some b.toNat }) none [] [] (.held (.barArr n.toNat clu b.toNat))
    else .ok (arriveBar m c.gi n.toNat clu b.toNat (m.grp c.gi).nextId)) s

/-- Whether an arrival of a group at a barrier is still to be recorded, of those it issued before a number. -/
def arrivalHeld (g : Group) (n : Nat) (clu : Bool) (before : Nat) : Bool :=
  g.outst.any fun o => o.id < before && (match o.wait with | .held (.barArr k cl _) => k = n && cl = clu | _ => false)

/-- BAR_WAIT: completes when the phase of the group's last arrival has (R282). -/
def execBarWait (x : Pre) (ch : Bool) (f k : Bool) (n : BitVec 3) (s : State) : Host.Outcome State Fault Refusal :=
  qWord .mem x ch none none always (fun c m _ _ =>
    let g := m.grp c.gi
    match g.arrived.find? fun e => e.1 = 2 * n.toNat + boolNat k with
    | some e => c.longWait m f (.bar n.toNat k e.2) none
    | none => if arrivalHeld g n.toNat k g.nextId then c.longWait m f (.bar n.toNat k 0) none else c.illegal) s

end Sys2Proof.Machine
end

