-- ==== Sys2Proof/Machine/Coll.lean ====
section
/-!
DEFINITION. Sys2Proof/Machine/Coll.lean: tree collectives: the word, its chunks and the failure of members (15 R355 to R360,
18 R397 to R399).
-/

namespace Sys2Proof.Machine

/-- An engine's read of some words in a row at a virtual address; none when one fails. -/
def readWords (m : Mach) (w : Who) (va size : Nat) : Nat → Option (List Nat)
  | 0 => some []
  | n + 1 =>
    match loadVa m w va size, readWords m w (va + size) size n with
    | some x, some xs => some (x :: xs)
    | _, _ => none

/-- An engine's writes of some words in a row; none when one fails. -/
def writeWords (w : Who) (va size : Nat) : List Nat → Mach → Option Mach
  | [], m => some m
  | x :: xs, m =>
    match storeVa m w va size x with
    | some m1 => writeWords w (va + size) size xs m1
    | none => none

/-- The addresses of some words in a row that a migrating page holds an engine's access to (10 R244). -/
def heldWords (m : Mach) (w : Who) (acc : Acc) (va size n : Nat) : List Nat :=
  ((List.range n).map fun i => va + size * i).filter fun a => checkVa m w acc 1 false a = .held

/-- The rights of a group's accesses that an engine of a die makes: through no core's cache. -/
def whoEngine (m : Mach) (gi die : Nat) : Who := { whoGroup m gi with die := 16 + die, core := 0 }

/-! The group table (R356). -/

def entParent (e : Word) : Nat := wb e 48 16
def entNode (e : Word) : Nat := wb e 32 16
def entDie (e : Word) : Nat := wb e 24 8

/-- Whether parent links lead from a member to the root within some steps. -/
def reachesRoot (es : List Word) : Nat → Nat → Bool
  | 0, _ => false
  | n + 1, i =>
    let p := entParent (es.getD i 0)
    p = 0xFFFF || (p < es.length && reachesRoot es n p)

/-- The header and entries of a table are valid (R356). -/
def tableOk (h : List Nat) (es : List Word) : Bool :=
  let h0 := h.getD 0 0
  let h2 := h.getD 2 0
  h0 % 65536 = 1 && h0 / 2 ^ 32 = 0 && 4096 ≤ h2 && h2 ≤ 1048576 && h2 % 4096 = 0 && (h.drop 3).all (· = 0) &&
    (es.filter fun e => entParent e = 0xFFFF).length = 1 && es.all (fun e => wb e 0 24 = 0) &&
    (List.range es.length).all (reachesRoot es (es.length + 1))

/-- Bytes of an element: 4, or 8 for the 64-bit integers (R357). -/
def collSize (ty : Nat) : Nat := if ty = 2 ∨ ty = 3 then 8 else 4

/-- The SYE that serves a record: that of its home die; for a record outside local memory the partition's first
(DESIGN CHOICE, notes/assumptions/11.md). -/
def collDie (m : Mach) (w : Who) (key : Nat) : Nat :=
  if keyRegion key = 1 then homeDie m (keyPart key) (keyOff key) else (memDies m w.part).headD 3

/-- The addresses at which a migrating page holds the reading of a record's table. -/
def tableHeld (m : Mach) (w : Who) (addr : Word) : List Nat :=
  match loadVa m w addr.toNat 8 with
  | none => []
  | some t => heldWords m w .load t 8 8 ++ heldWords m w .load (t + 64) 8 (bitsOf ((loadVa m w t 8).getD 0) 16 16)

/-- The granules of a record and its table pinned, where their leaves are sync-class (18 R388). -/
def pinTable (m : Mach) (w : Who) (addr : Word) : Mach :=
  let m1 := pinRange m w addr.toNat 64
  match loadVa m1 w addr.toNat 8 with
  | none => m1
  | some t =>
    let m2 := pinRange m1 w t 64
    pinRange m2 w (t + 64) (8 * bitsOf ((loadVa m2 w t 8).getD 0) 16 16)

/-- The record and table read: the collective, or the error the record reports (R356, R357). -/
def parseColl (m : Mach) (w : Who) (gi id op : Nat) (addr : Word) (key : Nat) : Coll × Nat :=
  let r := ((readWords m w addr.toNat 8 8).getD []).map (BitVec.ofNat 64)
  let g := fun i => r.getD i 0
  let die := collDie m w key
  let c : Coll :=
    { grp := gi, id := id, op := op, recAddr := addr, recKey := key, die := die, member := wb (g 3) 48 16, count := wb (g 3) 0 32,
      ty := wb (g 3) 32 4, chunk := 0, seq := g 4, gid := 0, src := g 1, dst := g 2, entries := [], next := 0, failed := [],
      first := none, staged := false, copy := none, since := m.time, out := false, error := 0, ended := false }
  let h := if (g 0).toNat % 64 = 0 then readWords m w (g 0).toNat 8 8 else none
  match h with
  | none => (c, 1)
  | some h =>
    let n := bitsOf (h.getD 0 0) 16 16
    match (if 2 ≤ n ∧ n ≤ 4096 then readWords m w ((g 0).toNat + 64) 8 n else none) with
    | none => (c, 1)
    | some es =>
      let es := es.map (BitVec.ofNat 64)
      let c1 := { c with chunk := h.getD 2 0, gid := BitVec.ofNat 64 (h.getD 1 0), entries := es }
      let e := es.getD c.member 0
      if !tableOk h es || c.member ≥ n || entNode e ≠ Config.node || entDie e ≠ die then (c1, 1)
      else if c.ty > 4 || (c.ty = 4 && op ≥ 3) || wb (g 3) 36 12 ≠ 0 || g 6 ≠ 0 || g 7 ≠ 0 then (c1, 2)
      else if c.src.toNat % collSize c.ty ≠ 0 || c.dst.toNat % collSize c.ty ≠ 0 then (c1, 3)
      else if m.colls.any fun o => !o.ended && o.gid = c1.gid && o.seq = c1.seq && o.die = die then (c1, 4)
      else (c1, 0)

/-- The word at 0x28 of a record: first, failed, error and state (R357). -/
def collStatus (c : Coll) (error state : Nat) : Nat :=
  (c.first.getD 0xFFFFFFFF) * 2 ^ 32 + c.failed.length * 2 ^ 16 + error * 16 + state

/-- A record's state written by the device. -/
def writeColl (m : Mach) (c : Coll) (error state : Nat) : Mach :=
  wrBytes (recallC1 m (c.recKey + 0x28) 8) (c.recKey + 0x28) (toBytes 8 (collStatus c error state))

/-- A member's collective done: its record written and its word completed (R360). -/
def closeColl (m : Mach) (k : Nat) (error : Nat) : Mach :=
  match m.colls[k]? with
  | none => m
  | some c =>
    let m1 := endColl (writeColl m c error (if error = 0 then 2 else 3)) k
    performed { m1 with colls := setAt m1.colls k { (m1.colls.getD k default) with error := error } } c.grp c.id []

/-! Staging, in arrival order (18 R397). -/

/-- Whether an earlier arrival at the same SYE still waits for its staging. -/
def waitsBefore (m : Mach) (k : Nat) (c : Coll) : Bool :=
  (m.colls.take k).any fun d => !d.ended && !d.staged && d.die = c.die

/-- Staging of twice the chunk taken at a member's SYE, if it is its turn and it fits. -/
def takeStaging (m : Mach) (k : Nat) : Mach :=
  match m.colls[k]? with
  | none => m
  | some c =>
    let x := m.mc c.die
    if !c.ended && !c.staged && !waitsBefore m k c && decide (x.staged + 2 * c.chunk ≤ wb x.ovsize 16 16 * 2 ^ 20) then
      { m.setMc c.die { x with staged := x.staged + 2 * c.chunk } with colls := setAt m.colls k { c with staged := true } }
    else m

/-- Every member that waits for staging, in arrival order. -/
def serveStaging (m : Mach) : Mach := (List.range m.colls.length).foldl takeStaging m

/-- What a member that arrives finds of its collective: the members that have failed already, itself among them (18 R398). -/
def joinColl (m : Mach) (c : Coll) : Coll :=
  match m.colls.find? fun d => !d.ended && d.gid = c.gid && d.seq = c.seq with
  | some d => { c with failed := d.failed.filter (· ≠ c.member), first := d.first, out := d.failed.contains c.member }
  | none => c

/-- COLL: the address checks are precise, every later error is in the record (R355). The engine makes its accesses, so a page of
another die's region traps nothing. -/
def execColl (x : Pre) (ch : Bool) (f : Bool) (a : BitVec 7) (o : BitVec 3) (s : State) : Host.Outcome State Fault Refusal :=
  qWord .mem x ch (some a.toNat) none (fun _ => o.toNat ≤ 5) (fun c m va _ =>
    let w := whoEngine c.base c.gi c.g.die
    match unlessHeld m c.gi 64 (checkLanes m w .atomic 64 false (c.lanes.map fun l => (l, va))) with
    | .error e => c.stopEff e
    | .ok ls =>
      let held := tableHeld m w va
      if earlierHeld m c.gi || held ≠ [] then .stall { held := held }
      else
      match ls with
      | (_, .mem key _) :: _ =>
        let id := (m.grp c.gi).nextId
        let k := m.colls.length
        let we := whoEngine c.base c.gi (collDie m w key)
        match c.longWait (pinTable (flushC1 (pinLocs m (ls.take 1)) c.g.die c.g.core) we va) f (.coll k) none with
        | .ok m1 =>
          let r := parseColl m1 we c.gi id o.toNat va key
          let m2 := { m1 with colls := m1.colls ++ [joinColl m1 r.1] }
          .ok (if r.2 = 0 then takeStaging (writeColl m2 r.1 0 1) k else closeColl m2 k r.2)
        | e => e
      | _ => c.raise .prot va c.act) s

/-! The tree (R358, R399). -/

/-- The nearest surviving ancestor of a member; none when it has none. -/
def liveParent (c : Coll) : Nat → Nat → Option Nat
  | 0, _ => none
  | n + 1, i =>
    let p := entParent (c.entries.getD i 0)
    if p = 0xFFFF then none else if c.failed.contains p then liveParent c n p else some p

def survivors (c : Coll) : List Nat := (List.range c.entries.length).filter fun i => !c.failed.contains i

/-- The root of the rebuilt tree: the lowest survivor without a surviving ancestor (R399). -/
def treeRoot (c : Coll) : Nat := ((survivors c).find? fun i => (liveParent c c.entries.length i).isNone).getD 0

/-- A survivor's parent in the rebuilt tree. -/
def treeParent (c : Coll) (i : Nat) : Option Nat :=
  if i = treeRoot c then none else some ((liveParent c c.entries.length i).getD (treeRoot c))

/-- Combine on one element (R358). -/
def combineElem (op ty x y : Nat) : Nat :=
  let w := 8 * collSize ty
  let sgn := ty = 0 || ty = 2
  let fx := readF .f32 false x
  let fy := readF .f32 false y
  if ty = 4 then
    match op with
    | 0 => (addF .f32 FEnv.rne fx fy).1
    | 1 => (minMaxF .f32 false fx fy).1
    | _ => (minMaxF .f32 true fx fy).1
  else
    match op with
    | 0 => (x + y) % 2 ^ w
    | 1 => if readInt sgn w x ≤ readInt sgn w y then x else y
    | 2 => if readInt sgn w x ≥ readInt sgn w y then x else y
    | 3 => x &&& y
    | 4 => x ||| y
    | _ => x ^^^ y

/-- Value(i) over the rebuilt tree, children in ascending index (R358). -/
def treeValue (c : Coll) (src : Nat → List Nat) : Nat → Nat → List Nat
  | 0, i => src i
  | n + 1, i =>
    ((survivors c).filter fun j => treeParent c j = some i).foldl
      (fun v j => List.zipWith (combineElem c.op c.ty) v (treeValue c src n j)) (src i)

/-- Elements of a chunk: the first, and how many. -/
def chunkElems (c : Coll) (k : Nat) : Nat × Nat :=
  let per := c.chunk / collSize c.ty
  (k * per, min per (c.count - k * per))
def chunkCount (c : Coll) : Nat := (c.count * collSize c.ty + c.chunk - 1) / max 1 c.chunk

/-! Members and chunks (R357 to R360, 18 R397 to R399). -/

def collAt (m : Mach) (k : Nat) : Coll := m.colls.getD k default
def setColl (m : Mach) (k : Nat) (c : Coll) : Mach := { m with colls := setAt m.colls k c }

/-- The members of one collective that run here and that it has not lost, by index in the list of collectives. -/
def collPeers (m : Mach) (c : Coll) : List Nat :=
  (List.range m.colls.length).filter fun j =>
    let d := collAt m j
    !d.ended && !d.out && d.gid = c.gid && d.seq = c.seq && !c.failed.contains d.member

/-- Two members agree on count, type, operation and table (R357, error 4). -/
def collAgree (c d : Coll) : Bool := c.count = d.count && c.ty = d.ty && c.op = d.op && c.chunk = d.chunk && c.entries = d.entries

/-- A member is failed (18 R398): the others perform the chunk in progress, and those after it, without it; if it runs here, it takes
part no more and keeps state 1. -/
def loseMember (m : Mach) (gid seq : Word) (mem : Nat) : Mach :=
  let m1 := failMember m gid seq mem
  { m1 with colls := m1.colls.map fun c => if c.gid = gid && c.seq = seq && !c.ended && c.member = mem then { c with out := true } else c }

/-- Whether some route leads from a member's SYE to that of another entry of the table: a die of this package, or another device
(21 R444). -/
def entReachable (m : Mach) (c : Coll) (e : Word) : Bool :=
  if entNode e = Config.node then routeUp m (c.die / 6) (65536 + entDie e)
  else reachable m (m.grid (m.grp c.grp).grid).part (entNode e)

/-- The members that no route reaches any more are failed (18 R398). -/
def loseUnreachable (m : Mach) (c : Coll) : Mach :=
  ((survivors c).filter fun i => !entReachable m c (c.entries.getD i 0)).foldl (fun m i => loseMember m c.gid c.seq i) m

/-- A member that meets a fault on src or dst withdraws: error 3, and the others go on without it (R359, 18 R398). -/
def withdraw (m : Mach) (k : Nat) : Mach :=
  let c := collAt m k
  closeColl (failMember m c.gid c.seq c.member) k 3

/-- Address of a member's chunk in progress from a base on, its elements and their size. -/
def chunkAt (c : Coll) (base : Word) : Nat × Nat × Nat :=
  (base.toNat + (chunkElems c c.next).1 * collSize c.ty, (chunkElems c c.next).2, collSize c.ty)

/-- The words of a member's chunk that a migrating page holds, and whether some page of the chunk is held until a tlbinv. -/
def chunkHeld (m : Mach) (c : Coll) (acc : Acc) (base : Word) : List Nat :=
  heldWords m (whoEngine m c.grp c.die) acc (chunkAt c base).1 (chunkAt c base).2.2 (chunkAt c base).2.1
def chunkWaits (m : Mach) (c : Coll) (base : Word) : Bool :=
  (List.range (chunkAt c base).2.1).any fun i => pageHeld m c.grp ((chunkAt c base).1 + (chunkAt c base).2.2 * i)

/-- A chunk in staging: it stands at the start of the overflow area of its SYE, after what older collectives have staged there, and
overwrites memory that the area overlaps (18 R390, R397; DESIGN CHOICE, notes/assumptions/96.md). -/
def stageOut (m : Mach) (k : Nat) (xs : List Nat) : Mach :=
  let c := collAt m k
  let before := (((List.range k).map (collAt m)).filter fun d => d.staged && d.die = c.die).map fun d => 2 * d.chunk
  wrBytes m (areaKey m c.die + before.sum) (xs.flatMap fun x => toBytes (collSize c.ty) x)

/-- A member's SYE copies the source of the chunk in progress into staging (18 R397); a source that cannot be read is a fault of the
member. Pages of its destination that migrate hold it too. -/
def copyChunk (m : Mach) (k : Nat) : Mach :=
  let c := collAt m k
  let m0 := if chunkWaits m c c.dst then m else holdPages m (whoEngine m c.grp c.die) c.grp (chunkHeld m c .store c.dst)
  if c.ended || c.out || !c.staged then m
  else if c.copy.isSome then m0
  else
    let w := whoEngine m c.grp c.die
    let (va, n, size) := chunkAt c c.src
    if chunkWaits m c c.src then m
    else if chunkHeld m c .load c.src ≠ [] then holdPages m w c.grp (chunkHeld m c .load c.src)
    else
      match readWords m w va size n with
      | none => withdraw m k
      | some xs => setColl (stageOut (pinRange m w va (n * size)) k xs) k { c with copy := some xs, since := m.time }

/-- The source elements of a member: staged here, or come from elsewhere. -/
def partOfColl (m : Mach) (c : Coll) (remote : List CollPart) (i : Nat) : Option (List Nat) :=
  match (collPeers m c).find? fun k => (collAt m k).member = i with
  | some k => if (collAt m k).next = c.next then (collAt m k).copy else none
  | none =>
    let (_, n, size) := chunkAt c c.src
    match remote.find? fun r => r.member = i && r.bytes.length = n * size with
    | some r => some ((List.range n).map fun e => ofBytes ((r.bytes.drop (e * size)).take size))
    | none => none

/-- The chunk in progress performed for every member that runs here; those whose destination cannot be written withdraw, and the
chunk is performed again, from staging, over the rest (18 R397 to R399). -/
def runChunk : Nat → Nat → List CollPart → Mach → Mach
  | 0, _, _, m => m
  | n + 1, k, remote, m =>
    let c := collAt m k
    let peers := collPeers m c
    let v := treeValue c (fun i => (partOfColl m c remote i).getD []) c.entries.length (treeRoot c)
    let put := fun (acc : Mach × List Nat) (j : Nat) =>
      let d := collAt acc.1 j
      match writeWords (whoEngine acc.1 d.grp d.die) (chunkAt d d.dst).1 (chunkAt d d.dst).2.2 v acc.1 with
      | some m1 => (m1, acc.2)
      | none => (acc.1, acc.2 ++ [j])
    let r := peers.foldl put (m, [])
    if r.2 = [] then
      peers.foldl (fun m j => setColl m j { collAt m j with next := (collAt m j).next + 1, copy := none, since := m.time }) r.1
    else
      let m1 := r.2.foldl withdraw r.1
      match peers.find? fun j => !r.2.contains j with
      | some j => runChunk n j remote m1
      | none => m1

/-- Whether every survivor's part of the chunk in progress is there, and no page holds its writes. -/
def chunkReady (m : Mach) (k : Nat) (remote : List CollPart) : Bool :=
  let c := collAt m k
  decide (k < m.colls.length) && !c.ended && !c.out && (survivors c).all (fun i => (partOfColl m c remote i).isSome) &&
    (collPeers m c).all fun j => !chunkWaits m (collAt m j) (collAt m j).dst && chunkHeld m (collAt m j) .store (collAt m j).dst = []

/-- A collective before its next chunk: members that no route reaches are lost, staging is taken and sources are copied. -/
def collPrepare (m : Mach) (k : Nat) : Mach :=
  let m1 := serveStaging (loseUnreachable m (collAt m k))
  (collPeers m1 (collAt m1 k)).foldl copyChunk m1

/-- The members of a collective that runs here end, those whose last chunk is done (R360). -/
def collEnds (m : Mach) (peers : List Nat) : Mach :=
  peers.foldl (fun m j => if !(collAt m j).ended && decide ((collAt m j).next ≥ max 1 (chunkCount (collAt m j))) then closeColl m j 0 else m) m

/-- COLL_CHUNK: what a chunk waits for, the chunk, and the end after the last (R358, R360, 18 R397). Members that do not agree end
with error 4 (R357). -/
def collStep (m : Mach) (k : Nat) (remote : List CollPart) : Mach :=
  if !decide (k < m.colls.length) || (collAt m k).ended || (collAt m k).out then m
  else
    let m1 := collPrepare m k
    let c := collAt m1 k
    let peers := collPeers m1 c
    if !(peers.all fun j => collAgree c (collAt m1 j)) || remote.any (fun r => !r.agrees && (survivors c).contains r.member) then
      peers.foldl (fun m j => closeColl m j 4) m1
    else if chunkReady m1 k remote then collEnds (runChunk (c.entries.length + 1) k remote m1) peers
    else m1

def execCollChunk (k : Nat) (remote : List CollPart) (s : State) : Host.Outcome State Fault Refusal :=
  .next { s with m := collStep s.m k remote }

/-- Whether a member is known to have issued the collective: it runs here, or has taken part in an earlier chunk. One that never issues
it is not failed: the others keep state 1 (R360). -/
def joined (m : Mach) (c : Coll) (mem : Nat) : Bool :=
  c.next ≥ 1 || m.colls.any fun d => !d.ended && d.gid = c.gid && d.seq = c.seq && d.member = mem

/-- Whether a parent or child of a member that runs here has been silent for SYCOLLTO while a chunk is in progress (18 R398;
notes/assumptions/44.md). -/
def silent (m : Mach) (c : Coll) (mem : Nat) : Bool :=
  joined m c mem && c.copy.isSome && !c.ended && !c.out && (survivors c).contains mem && (treeParent c mem = some c.member || treeParent c c.member = some mem) &&
    decide (m.time - c.since ≥ 1000 * (m.mc c.die).collto.toNat) && (partOfColl m c [] mem).isNone

/-- COLL_MEMBER_TIMEOUT: a member that is silent for SYCOLLTO is failed (R398). -/
def execCollMemberTimeout (k mem : Nat) (s : State) : Host.Outcome State Fault Refusal :=
  .next { s with m := if silent s.m (collAt s.m k) mem then loseMember s.m (collAt s.m k).gid (collAt s.m k).seq mem else s.m }

/-- A notice that a member has failed, taken by a member that runs here. -/
def noteFailed (m : Mach) (k mem : Nat) : Mach :=
  let c := collAt m k
  if k < m.colls.length ∧ !c.ended ∧ mem < c.entries.length ∧ mem ≠ c.member then loseMember m c.gid c.seq mem else m

/-- FAILURE_NOTICE: the root's SYE fixes the replay chunk as the one in progress, and the survivors go on without the member
(R398). -/
def execFailureNotice (k mem : Nat) (s : State) : Host.Outcome State Fault Refusal :=
  .next { s with m := noteFailed s.m k mem }

end Sys2Proof.Machine
end

