-- ==== Sys2Proof/Machine/Grids.lean ====
section
/-!
DEFINITION. Sys2Proof/Machine/Grids.lean: launch records, kernel headers, the reasons of a refusal and the acceptance of
a launch (01 R39 to R43, 04 R116 to R122, R126, R127, 09 R214, R216, 05 R153).
-/

namespace Sys2Proof.Machine

/-! The record and the header. -/

/-- The 16 words of a launch record as its fields (04 R120). -/
def parseRec (w : List Word) : Rec :=
  let f := fun i lo len => wb (w.getD i 0) lo len
  { kaddr := f 0 0 48, gx := f 1 0 24, gy := f 1 24 16, gz := f 1 40 16, split := f 2 24 4, width := f 2 22 2,
    chw := f 2 12 4, chh := f 2 16 4, grps := f 2 0 6, grant := f 3 0 16, param := w.getD 4 0, prelude := w.getD 5 0,
    geo := f 6 15 1 = 1, spec := f 6 14 1 = 1, priv := f 6 13 1 = 1, idem := f 6 12 1 = 1, ordered := f 6 11 1 = 1,
    prio := f 6 4 3, cls := f 6 0 2, lo := f 7 0 64, hi := f 8 0 64, grain := f 9 0 32 }

/-- A reserved field of the record is nonzero, or a field is out of range (reason 0x02). A prelude address in a record that
is not ordered counts as out of range (DEDUCED, notes/assumptions/12.md). -/
def recBad (w : List Word) : Bool :=
  let f := fun i lo len => wb (w.getD i 0) lo len
  let r := parseRec w
  f 0 48 16 ≠ 0 || f 1 56 8 ≠ 0 || f 2 28 36 ≠ 0 || f 2 20 2 ≠ 0 || f 2 6 6 ≠ 0 || f 3 16 48 ≠ 0 || f 6 16 48 ≠ 0 ||
    f 6 7 4 ≠ 0 || f 6 2 2 ≠ 0 || f 9 32 32 ≠ 0 || (List.range 5).any (fun i => w.getD (10 + i) 0 != 0) ||
    r.kaddr % 192 ≠ 0 || r.gx = 0 || r.gy = 0 || r.gz = 0 || r.chw = 0 || r.chw > 6 || r.chh = 0 || r.chh > 6 ||
    r.grps = 0 || r.grps > 32 || (!r.ordered && r.prelude ≠ 0)

/-- The valid sympathetic fields of header word 2: register and field number (01 R41). -/
def headerSyms (w2 : Nat) : List (Nat × Nat) :=
  (List.range 4).filterMap fun s =>
    let b := bitsOf w2 (8 * (3 - s)) 8
    if b ≥ 128 then some (b % 128, s) else none

/-- The three words of a header as its fields (01 R39 to R41). -/
def parseHdr (w0 w1 w2 : Nat) : Hdr :=
  { isa := bitsOf w0 12 4, family := bitsOf w0 4 8, width := bitsOf w0 2 2, compat := bitAt w0 1, ordered := bitAt w1 31,
    idem := bitAt w1 30, roles := bitsOf w1 27 3 + 1, vregs := 8 * bitsOf w1 22 5, sregs := bitsOf w1 16 6 + 1,
    spad := bitsOf w1 4 12, syms := headerSyms w2 }

/-- A header that fails R42 (reason 0x01). -/
def hdrBad (r : Rec) (w0 w1 w2 : Nat) : Bool :=
  let h := parseHdr w0 w1 w2
  bitsOf w0 16 16 ≠ 0x7E1C || (h.isa ≠ 2 && h.isa ≠ 3) || (h.compat && (h.isa = 3 || h.width ≠ 1)) || (h.isa = 2 && !h.compat) ||
    h.vregs = 0 || h.vregs > 96 || h.spad > r.grant || bitsOf w0 0 1 ≠ 0 || bitsOf w1 0 4 ≠ 0 ||
    (!h.ordered && !h.syms.isEmpty) || h.syms.any (fun s => s.1 ≥ h.vregs) || !decide ((h.syms.map Prod.fst).Nodup) ||
    h.ordered ≠ r.ordered

/-- Lanes of a width code (01 R39). -/
def widthOf (code : Nat) : Nat := 8 * 2 ^ code

/-- Quarters of a core's register file (09 R207), and 64 KiB steps of its SRAM array (10 R226). -/
def quarterCap (geo : Bool) : Nat := if geo then 4096 else 8192
def arrayUnits (geo : Bool) : Nat := if geo then 8 else 16

/-- Bytes of the resonance buffer that a group of a launch reserves (09 R214). -/
def resOf (r : Rec) (h : Hdr) : Nat := if r.ordered then widthOf r.width * h.syms.length * 128 else 0

/-- The legal cluster shapes (04 R117). -/
def clusterOk (w h : Nat) : Bool := (w ≤ 3 && h ≤ 4) || (w ≤ 4 && h ≤ 3) || (w = 2 && h = 6) || (w = 6 && h = 2)

/-- The cores of a partition that take a launch: die and core (04 R107, 21 R438). -/
def coresFor (m : Mach) (p : Nat) (geo : Bool) (die : Nat) : List Nat :=
  if m.pk.has die && (if geo then isGeo die else isShading die) then
    (List.range (coreCount die)).filter fun c => partOf m.pk die c = p
  else []

/-! Reading what a launch names (04 R126). -/

/-- An 8-byte word of a record. -/
def recWord (m : Mach) (w : Who) (va : Nat) : Except Stop Word :=
  match checkVa m w .load 8 false va with
  | .ok l => if seePoison m 8 l then .error (.cause (trapOf .sramUe 0 0)) else .ok (BitVec.ofNat 64 (seeNum m w 8 l))
  | .held => .error (.hold [va])
  | .ue => .error (.cause (trapOf .sramUe 0 0))
  | .bad c _ => .error (.cause (trapOf c 0 0))

/-- Words of a record in order. -/
def recWords (m : Mach) (w : Who) : Nat → Nat → Except Stop (List Word)
  | 0, _ => .ok []
  | n + 1, va =>
    match recWord m w va with
    | .error e => .error e
    | .ok x =>
      match recWords m w n (va + 8) with
      | .error e => .error e
      | .ok xs => .ok (x :: xs)

/-- Bytes of a prelude table in order. -/
def tableBytes (m : Mach) (w : Who) : Nat → Nat → Except Stop (List Byte)
  | 0, _ => .ok []
  | n + 1, va =>
    match checkVa m w .load 1 false va with
    | .ok l =>
      if seePoison m 1 l then .error (.cause (trapOf .sramUe 0 0))
      else
        match tableBytes m w n (va + 1) with
        | .error e => .error e
        | .ok bs => .ok (BitVec.ofNat 8 (seeNum m w 1 l) :: bs)
    | .held => .error (.hold [va])
    | .ue => .error (.cause (trapOf .sramUe 0 0))
    | .bad c _ => .error (.cause (trapOf c 0 0))

/-- Something read, what is not there, or the addresses of the migrating pages at which the read is held. -/
def readable {α : Type} : Except Stop α → Except (List Nat) (Option α)
  | .ok x => .ok (some x)
  | .error (.hold vas) => .error vas
  | .error (.cause _) => .ok none

/-- The prelude table: key 16 s + j holds Prelude of field s at -j (04 R120). -/
def preludeTbl (bs : List Byte) : Tbl Word :=
  (List.range 4).foldl (fun t s => (List.range 15).foldl (fun t j =>
    Tbl.set 0 t (16 * s + j + 1) (BitVec.ofNat 64 (ofBytes ((bs.drop (128 * s + 8 * j)).take 8)))) t) []

/-- Who asks for a launch: its accesses, whether it is privileged, and the word. -/
structure Asker where
  who : Who
  task : Bool
  rcp : Bool
deriving DecidableEq, Repr, Inhabited

/-- The refusal reasons that apply beside those of the header's and the table's reading (R121). -/
def reasonsOf (m : Mach) (a : Asker) (ws : List Word) (hd : Option (Nat × Nat × Nat)) (tableOk : Bool) : List Nat :=
  let r := parseRec ws
  let h := hd.map fun x => parseHdr x.1 x.2.1 x.2.2
  let on := fun (b : Bool) (n : Nat) => if b then [n] else []
  let hb := fun (f : Hdr → Bool) => (h.map f).getD false
  on (match hd with | none => true | some x => hdrBad r x.1 x.2.1 x.2.2) 0x01 ++
  on (recBad ws || hb fun h => h.width ≠ r.width || h.idem ≠ r.idem) 0x02 ++
  on (!clusterOk r.chw r.chh || r.gx % max 1 r.chw ≠ 0 || r.gy % max 1 r.chh ≠ 0) 0x03 ++
  on (hb fun h => decide (r.grps * (2 ^ r.width * h.vregs) > quarterCap r.geo) || decide (r.grps * resOf r h > 65536)) 0x04 ++
  on (r.priv && !a.who.priv) 0x05 ++
  on ((List.range 12).all fun d => (coresFor m a.who.part r.geo d).isEmpty) 0x06 ++
  on (r.ordered && (hb fun h => !h.syms.isEmpty) && (r.prelude = 0 || !tableOk)) 0x07 ++
  on (a.task && (decide (r.hi < r.lo) || r.grain = 0 || r.ordered || r.chw ≠ 1 || r.chh ≠ 1)) 0x08 ++
  on (r.spec && r.ordered) 0x09 ++
  on (decide (r.split + 1 > arrayUnits r.geo) || decide (r.grant > 256 * r.split)) 0x0A ++
  on (hb fun h => r.grps < h.roles) 0x0B ++
  on (decide (r.gx * r.gy * r.gz > 2 ^ 31)) 0x0C ++
  on (a.rcp && (!r.priv || r.cls ≠ 0)) 0x0D

/-- The lowest of some reasons. -/
def lowest (rs : List Nat) : Option Nat := firstBy (fun a b : Nat => a < b) rs

/-- A launch judged: held while a page it names migrates; else the reason of a refusal, or the new grid. -/
def judgeLaunch (m : Mach) (a : Asker) (recAddr : Nat) : Except (List Nat) (Except Nat Grid) :=
  match readable (recWords m a.who 16 recAddr) with
  | .error vas => .error vas
  | .ok none => .ok (.error 0x0E)
  | .ok (some ws) =>
    let r := parseRec ws
    match readable (fetchWords m { a.who with priv := r.priv } 3 r.kaddr) with
    | .error vas => .error vas
    | .ok hd =>
      let h3 := hd.map fun x => (x.getD 0 0, x.getD 1 0, x.getD 2 0)
      let h : Hdr := match h3 with | some x => parseHdr x.1 x.2.1 x.2.2 | none => default
      let wants := r.ordered && !h.syms.isEmpty && r.prelude ≠ 0
      match (if wants then readable (tableBytes m a.who 512 r.prelude.toNat) else .ok (some [])) with
      | .error vas => .error vas
      | .ok bs =>
        match lowest (reasonsOf m a ws h3 bs.isSome) with
        | some k => .ok (.error k)
        | none =>
          .ok (.ok
            { part := a.who.part, ctx := a.who.ctx, recAddr := BitVec.ofNat 64 recAddr, lr := r, hdr := h,
              prelude := if wants then preludeTbl (bs.getD []) else [], task := a.task, nextTid := r.gx * r.gy * r.gz,
              made := 0, killed := false, ended := false, cause := 0, settled := false, streams := [], cursors := [],
              dist := [], exited := [], tail := none, stat := none })

/-- Status of a record written with the rights of the device in the asking context; a write that fails is lost with a report of kind 5
(R121). -/
def putStatus (m : Mach) (w : Who) (recAddr : Nat) (v : Word) : Mach :=
  let dev := { w with priv := true, spec := false, die := 12, core := 0 }
  match checkVa m dev .store 8 false (recAddr + 0x78) with
  | .ok l => putAt m dev 8 v.toNat l
  | _ => appendReport m w.part [0x500, BitVec.ofNat 64 recAddr, 0, 0, 0, 0, 0, 0]

/-- 64 KiB units of the stream tail of a launch; none when it has no streams (09 R216). -/
def tailUnits (x : Grid) : Option Nat :=
  if !x.lr.ordered || x.hdr.syms.isEmpty then none else some (unitsOf (15 * x.hdr.syms.length * 144))

/-- The stream tail of an accepted launch taken from the context pool, if it is not taken yet and can be (09 R216). -/
def takeTail (m : Mach) (gr : Nat) : Mach :=
  let x := m.grid gr
  match x.tail, tailUnits x with
  | none, some n =>
    match poolTake m x.part n with
    | some (m1, r) => m1.setGrid gr { m1.grid gr with tail := some r }
    | none => m
  | _, _ => m

/-- A launch refused or accepted: its status, and for an accepted one the grid, its stream tail and its place in a queue (R122,
R126, 09 R216). Held while a page migrates; else the reason, 0 for an accepted launch. -/
def acceptLaunch (m : Mach) (a : Asker) (recAddr : Nat) : Except (List Nat) (Mach × Nat) :=
  match judgeLaunch m a recAddr with
  | .error vas => .error vas
  | .ok (.error k) => .ok (putStatus m a.who recAddr (statusWord 2 k 0), k)
  | .ok (.ok gd) =>
    let gi := m.grids.length
    let m1 := putStatus (takeTail { m with grids := m.grids ++ [gd] } gi) a.who recAddr (statusWord 1 0 0)
    let p := m1.part gd.part
    let q := 8 * gd.lr.cls + gd.lr.prio
    .ok (m1.setPart gd.part { p with queues := Tbl.set [] p.queues q (Tbl.get [] p.queues q ++ [.grid gi]) }, 0)

/-- The device side of a launch's address checks: a store, whose page must also grant r (R126). -/
def checkRecord (m : Mach) (w : Who) (recAddr : Nat) : Chk := checkVa m w .atomic 128 false recAddr

/-! Range tasks (04 R127, R128). -/

/-- The interval of an initial team. -/
def taskInterval (r : Rec) (t : Nat) : Nat × Nat :=
  let n := (r.hi - r.lo + r.grain - 1) / r.grain
  let total := r.gx * r.gy * r.gz
  (r.lo + r.grain * (t * n / total), min r.hi (r.lo + r.grain * ((t + 1) * n / total)))

end Sys2Proof.Machine
end

