-- ==== Sys2Proof/Machine/Area.lean ====
section
/-!
DEFINITION. Sys2Proof/Machine/Area.lean: layout records and loops of the matrix engine as words name them, the state of a TVU lane,
and how a save area holds both (12 R293, R294, R296, R300, R309, 19 R418, 05 R151, R153).
-/

namespace Sys2Proof.Machine

/-! Layout records (R293, R294). -/

def layFmt (l : List Word) : Nat := wb (l.getD 0 0) 28 4
/-- Bits of an element of a layout's format. -/
def layBits (l : List Word) : Nat := match layFmt l with | 0 | 1 => 16 | 2 | 3 | 5 => 8 | _ => 6
/-- Extents e0 to e3 and strides st0 to st3. -/
def layExt (l : List Word) (k : Nat) : Nat := wb (l.getD 4 0) (16 * k) 16
def laySt (l : List Word) (k : Nat) : Int := toSigned 32 (wb (l.getD (2 + k / 2) 0) (32 * (k % 2)) 32)

/-- Whether a record has an invalid format, a nonzero reserved field, or a window that does not hold its base, or has an extent
product other than the elements of its operand (R296). -/
def layBad (l : List Word) (count : Nat) : Bool :=
  let w0 := l.getD 0 0
  let base := wb w0 0 20
  let span := wb w0 32 20
  let lo := wb (l.getD 1 0) 0 20
  layFmt l > 5 || wb w0 52 12 ≠ 0 || wb w0 20 8 ≠ 0 || wb (l.getD 1 0) 20 44 ≠ 0 || l.getD 5 0 ≠ 0 ||
    layExt l 0 * layExt l 1 * layExt l 2 * layExt l 3 ≠ count || count = 0 ||
    (span ≠ 0 && (lo + span > 2 ^ 20 || base < lo || base ≥ lo + span))

/-- The offset of a logical index from the cursor, in elements (R294). -/
def layOff (l : List Word) (n : Nat) : Int :=
  let n1 := n / layExt l 0
  let n2 := n1 / layExt l 1
  (n % layExt l 0 : Nat) * laySt l 0 + (n1 % layExt l 1 : Nat) * laySt l 1 + (n2 % layExt l 2 : Nat) * laySt l 2 +
    (n2 / layExt l 2 : Nat) * laySt l 3

/-- The cursor of a layout record at a step, before its offsets (12 R294). -/
def layCursor (l : List Word) (s : Nat) (inc : Int) : Int :=
  let base : Int := wb (l.getD 0 0) 0 20
  let span := wb (l.getD 0 0) 32 20
  let lo : Int := wb (l.getD 1 0) 0 20
  if span = 0 then base + s * inc else lo + (base - lo + s * inc) % span

/-- The bit address of an element (R294). -/
def elemBit (l : List Word) (n s : Nat) (inc : Int) : Int := 8 * layCursor l s inc + layBits l * layOff l n

/-- Bits of the operand store, read at a bit address. -/
def storeBits (st : Tbl Byte) (bit bits : Nat) : Nat :=
  bitsOf (ofBytes [Tbl.get 0 st (bit / 8), Tbl.get 0 st (bit / 8 + 1)]) (bit % 8) bits

/-! Loop descriptors (R296). -/

/-- The block length of a format (06 R177). -/
def mxBlock (fmt : Nat) : Nat := match fmt with | 0 | 1 => 16 | 2 | 3 => 32 | _ => 64

/-- A loop's fields: shape, block lengths of A and B, K-steps, tile, increments. -/
structure Loop where
  m : Nat
  n : Nat
  ka : Nat
  kb : Nat
  steps : Nat
  tile : Nat
  incA : Int
  incB : Int
  sparse : Bool
deriving DecidableEq, Repr, Inhabited

def loopOf (desc inc : Word) (fmt : Nat) : Loop :=
  let sh := mxShape (wb desc 27 2)
  let sp : Bool := wb desc 29 1 = 1
  { m := sh.1, n := sh.2, ka := mxBlock fmt, kb := (if sp then 2 else 1) * mxBlock fmt, steps := wb desc 16 11, tile := wb desc 0 6,
    incA := toSigned 32 (wb inc 0 32), incB := toSigned 32 (wb inc 32 32), sparse := sp }

/-- Bytes of metadata per row, and the metadata address of a step (R300). -/
def metaRow (d : Loop) : Nat := d.kb / 8
def metaAt (sp : Word × Word) (s : Nat) : Int := (wb sp.1 0 20 : Int) + s * toSigned 32 (wb sp.2 0 32)

/-- A mask with one more slot. -/
def addSlot (mask slot : Nat) : Nat := mask ||| 2 ^ slot

/-- The slots that an operand's elements lie in, over every step. -/
def operandSlots (l : List Word) (count steps : Nat) (inc : Int) : Nat :=
  (List.range steps).foldl (fun k s => (List.range count).foldl (fun k n =>
    let b := (elemBit l n s inc).toNat
    addSlot (addSlot k (b / 2 ^ 17)) ((b + layBits l - 1) / 2 ^ 17)) k) 0

/-- The slots that a loop's metadata lies in. -/
def metaSlots (d : Loop) : Option (Word × Word) → Nat
  | none => 0
  | some sp => (List.range d.steps).foldl (fun k s => (List.range (d.m * metaRow d)).foldl (fun k (i : Nat) =>
      addSlot k ((metaAt sp s + i).toNat / 2 ^ 14)) k) 0

/-- Every slot that a loop reads. -/
def loopSlots (d : Loop) (la lb : List Word) (sp : Option (Word × Word)) : Nat :=
  operandSlots la (d.m * d.ka) d.steps d.incA ||| operandSlots lb (d.n * d.kb) d.steps d.incB ||| metaSlots d sp

/-! Loops in the engine order and their saved descriptors (R309). -/

/-- A loop of the matrix engine. -/
def isLoop (o : MxOp) : Bool := match o.work with | .loop .. => true | _ => false

/-- Slots that a loop of the engine order reads. -/
def loopMask (o : MxOp) : Nat := match o.work with | .loop _ _ _ _ _ _ _ _ _ k => k | _ => 0

/-- A saved loop descriptor: 18 words (12 R309). -/
def loopWords (m : Mach) (o : MxOp) : List Word :=
  let g := m.grp o.grp
  let flag := match o.id.bind (findOutst g) with
    | some w => w.flag.getD 15
    | none => 15
  match o.work with
  | .loop desc inc fmt q seq next la lb sp _ =>
    let n := fun (x : Nat) => BitVec.ofNat 64 x
    let ia := toSigned 32 (wb inc 0 32)
    let ib := toSigned 32 (wb inc 32 32)
    let meta' := match sp with
      | none => 0
      | some (a, b) => wb b 0 32 * 2 ^ 32 + wrapInt 20 (wb a 0 20 + next * toSigned 32 (wb b 0 32))
    [desc, inc, n (seq * 2 ^ 48 + next * 2 ^ 32 + fmt * 2 ^ 24 + q * 2 ^ 21 + flag * 2 ^ 17 + g.gid),
      n (wrapInt 20 (layCursor la next ia) * 2 ^ 32 + wrapInt 20 (layCursor lb next ib)), n meta', 0] ++
      (List.range 6).map (fun i => la.getD i 0) ++ (List.range 6).map (fun i => lb.getD i 0)
  | _ => []

def wordBytes (ws : List Word) : List Byte := ws.flatMap fun w => toBytes 8 w.toNat

/-- The word of a slot record. -/
def slotWord (n : Nat) (s : Slot) : Word := BitVec.ofNat 64 (s.f / 16 % 2 ^ 11 * 2 ^ 32 + s.e / 16 * 2 ^ 16 + s.state * 2 ^ 8 + n)

/-- A slot record and a tile record; in a full area the bytes follow (12 R309). -/
def slotRecord (full : Bool) (store : Tbl Byte) (n : Nat) (s : Slot) : List Byte :=
  wordBytes [slotWord n s] ++
    (if full then (List.range 16384).map fun i => Tbl.get 0 store (16384 * n + i) else [])
def tileRecord (full : Bool) (acc : Tbl (BitVec 32)) (n : Nat) : List Byte :=
  wordBytes [BitVec.ofNat 64 n] ++ (if full then (List.range 16384).flatMap fun i => toBytes 4 (Tbl.get 0 acc (16384 * n + i)).toNat else [])

/-! The state of a TVU lane (19 R418). -/

/-- A lane with no traversal: chit is +infinity, as always when there is no accepted t. -/
def Tvu.idle : Tvu :=
  { w := List.replicate 8 0 ++ [0x7F800000, 0], cause := 0, hitfound := false, depth := 0, status := 4, entries := List.replicate 5 0, base := 0, spill := 0,
    job := 0, faddr := 0 }
def tvGet (g : Group) (lane : Nat) : Tvu := Tbl.get Tvu.idle g.tvu lane
def tvSet (m : Mach) (gi lane : Nat) (t : Tvu) : Mach := m.setGrp gi { m.grp gi with tvu := Tbl.set Tvu.idle (m.grp gi).tvu lane t }

/-- A word of the state: 0 to 2 origin, 3 to 5 direction, 6 tmin, 7 tmax, 8 chit, 9 prim. -/
def Tvu.at' (t : Tvu) (i : Nat) : Nat := (t.w.getD i 0).toNat
def Tvu.put (t : Tvu) (i v : Nat) : Tvu := { t with w := setAt t.w i (BitVec.ofNat 32 v) }

/-- The 64 bytes that tvst stores: entries at or beyond depth and reserved bits are 0 (R418, R425). -/
def Tvu.words (t : Tvu) : List Nat :=
  (List.range 10).map t.at' ++ [t.cause * 2 ^ 24 + boolNat t.hitfound * 2 ^ 16 + t.depth * 2 ^ 8 + t.status] ++
    (List.range 5).map fun k => if k < t.depth then (t.entries.getD k 0).toNat else 0

/-! What the matrix section of a save area says (12 R309). -/

/-- A loop taken from its saved descriptor: all but its cursors, which follow from next and the layout records. A loop that has
completed reads no slot. -/
def loopFrom (rd : Nat → Word) (off : Nat) (o : MxOp) : MxOp :=
  match o.work with
  | .loop _ _ _ _ _ _ _ _ sp slots =>
    let lay := fun (b : Nat) => (List.range 6).map fun i => rd (off + b + 8 * i)
    let h := rd (off + 0x10)
    let sp1 := sp.map fun p => (p.1, BitVec.ofNat 64 (wb (rd (off + 0x20)) 32 32))
    let d := loopOf (rd off) (rd (off + 8)) (wb h 24 3)
    let left := if slots = 0 || wb h 32 16 ≥ d.steps then 0 else loopSlots d (lay 0x30) (lay 0x60) sp1
    { o with work := .loop (rd off) (rd (off + 8)) (wb h 24 3) (wb h 21 3) (wb h 48 16) (wb h 32 16) (lay 0x30) (lay 0x60) sp1 left }
  | _ => o

/-- A slot taken from its record: what the record changed since it was written says. -/
def slotFrom (w : Word) (n : Nat) (s : Slot) : Slot :=
  if w = slotWord n s then s else { s with state := wb w 8 2, e := 16 * wb w 16 11, f := 16 * wb w 32 11 }

/-- The bytes after a slot record, and the elements after a tile record, in a full area. -/
def slotBytesFrom (rd : Nat → Word) (off n : Nat) (t : Tbl Byte) : Tbl Byte :=
  (List.range 16384).foldl (fun t i => Tbl.set 0 t (16384 * n + i) (BitVec.ofNat 8 (wb (rd (off + 8 + i / 8 * 8)) (8 * (i % 8)) 8))) t
def tileFrom (rd : Nat → Word) (off n : Nat) (t : Tbl (BitVec 32)) : Tbl (BitVec 32) :=
  (List.range 16384).foldl (fun t i => Tbl.set 0 t (16384 * n + i) (BitVec.ofNat 32 (wb (rd (off + 8 + i / 2 * 8)) (32 * (i % 2)) 32))) t

/-- Some items of a team read one after the other, each from its offset on. -/
def readItems {α β : Type} (len : Nat) (f : Nat → α → β → β) : Nat → List α → β → β
  | _, [], b => b
  | off, x :: xs, b => readItems len f (off + len) xs (f off x b)

/-- The teams of a full area, with the matrix state that its section holds: loop descriptors, then slot records, then tile records, in
the order in which they were written. The rest of the image the device finds by its own number (DESIGN CHOICE,
notes/assumptions/14.md). -/
def loopsFrom (rd : Nat → Word) : Nat → List (Nat × Team) → List (Nat × Team)
  | _, [] => []
  | off, (i, t) :: ts =>
    let k := t.kept.getD default
    (i, { t with kept := t.kept.map fun k => { k with loops := readItems 144 (fun off o l => l ++ [loopFrom rd off o]) off k.loops [] } }) ::
      loopsFrom rd (off + 144 * k.loops.length) ts
def slotsFrom (rd : Nat → Word) : Nat → List (Nat × Team) → List (Nat × Team)
  | _, [] => []
  | off, (i, t) :: ts =>
    let k := t.kept.getD default
    (i, { t with kept := t.kept.map fun k =>
        { k with slots := readItems 16392 (fun off s l => l ++ [(s.1, slotFrom (rd off) s.1 s.2)]) off k.slots [],
                 store := readItems 16392 (fun off s b => slotBytesFrom rd off s.1 b) off k.slots k.store } }) ::
      slotsFrom rd (off + 16392 * k.slots.length) ts
def tilesFrom (rd : Nat → Word) : Nat → List (Nat × Team) → List (Nat × Team)
  | _, [] => []
  | off, (i, t) :: ts =>
    let k := t.kept.getD default
    (i, { t with kept := t.kept.map fun k => { k with acc := readItems 65544 (fun off n b => tileFrom rd off n b) off k.tiles k.acc } }) ::
      tilesFrom rd (off + 65544 * k.tiles.length) ts
def matrixFrom (rd : Nat → Word) (off : Nat) (ts : List (Nat × Team)) : List (Nat × Team) :=
  let count := fun (f : TeamSave → Nat) => (ts.map fun t => f (t.2.kept.getD default)).sum
  let o1 := off + 144 * count fun k => k.loops.length
  let o2 := o1 + 16392 * count fun k => k.slots.length
  tilesFrom rd o2 (slotsFrom rd o1 (loopsFrom rd off ts))

/-- The offset of the first section of a type that an image's directory names. -/
def sectionAt (rd : Nat → Word) (type : Nat) : Option Nat :=
  ((List.range (min 12 (rd 0x30).toNat)).find? fun i => wb (rd (0x40 + 16 * i)) 56 8 = type).map fun i => wb (rd (0x40 + 16 * i)) 0 56

/-- The matrix state of a team taken from the lazy area that the device wrote when it was saved: its loops, and the state of the slots
that are no longer in place; `slots` is how many slot records the area holds (R152, R309). -/
def lazyFrom (rd : Nat → Word) (slots : Nat) (k : TeamSave) : TeamSave :=
  match sectionAt rd 4 with
  | none => k
  | some off =>
    let recs := (List.range slots).map fun i => rd (off + 144 * k.loops.length + 8 * i)
    let one := fun (s : Nat × Slot) => (s.1, match recs.find? fun w => wb w 0 6 = s.1 with | some w => slotFrom w s.1 s.2 | none => s.2)
    { k with loops := readItems 144 (fun off o l => l ++ [loopFrom rd off o]) off k.loops [], slots := k.slots.map one }

end Sys2Proof.Machine
end

