-- ==== Sys2Proof/Machine/Admission.lean ====
section
/-!
DEFINITION. Sys2Proof/Machine/Admission.lean: what a core has free, where teams are placed, in which order they are admitted,
how a group starts, how a saved team comes back, and the split of a range task (04 R106, R115 to R119, R122, R123, R129,
R130, 09 R207, R208, R214 to R216, R223, 10 R226, 12 R308).
-/

namespace Sys2Proof.Machine

/-! What a core holds (R115). -/

/-- The teams that stand on a core, and the groups on it that hold a position. -/
def residentTeams (m : Mach) (die core : Nat) : List Nat :=
  (List.range m.teams.length).filter fun t => let x := m.team t; x.place = .resident && x.die = die && x.core = core
def onCore (m : Mach) (die core gi : Nat) : Bool :=
  let g := m.grp gi
  g.die = die && g.core = core && !g.freed && (m.team g.team).place = .resident
def residentGroups (m : Mach) (die core : Nat) : List Nat := (List.range m.groups.length).filter fun i => onCore m die core i

/-- Quarters a group holds (09 R207); a saved claim victim holds none (09 R225). -/
def quartersOf (g : Group) : Nat := if g.victim then 0 else g.nv * (g.width / 8)

/-- Whether some item may still read the streams of a freed group's items (09 R216). -/
def resNeeded (m : Mach) (g : Group) : Bool :=
  let x := m.grid g.grid
  (List.range g.width).any fun l =>
    let item := itemOf m g l
    x.hdr.syms.any fun s =>
      let st := streamOf x item s.1
      let ds := Tbl.get [] x.dist s.1
      ((List.range 15).map (· + 1)).any fun k =>
        (ds.length < 2 || ds.contains k) && item + k < itemCount x && Tbl.get 0 x.exited (item + k) = 0 &&
          cursorOf x (item + k) s.1 k < st.released + st.elems.length

/-- Bytes of a core's resonance buffer that are taken (09 R214, R216). -/
def resTaken (m : Mach) (die core : Nat) : Nat :=
  (((List.range m.groups.length).filter fun i =>
    let g := m.grp i
    onCore m die core i || (g.die = die && g.core = core && g.freed && g.holdsRes && resNeeded m g)).map fun i =>
      let x := m.grid (m.grp i).grid
      resOf x.lr x.hdr).sum

/-- Whether n groups of a grid that hold some quarters fit on a core from which some teams are absent (R115, R107, 09 R214,
R223, R225, 10 R226). -/
def roomFor (m : Mach) (gr n quarters die core : Nat) (absent : Nat → Bool) : Bool :=
  let x := m.grid gr
  let r := x.lr
  let ts := (residentTeams m die core).filter fun t => !absent t
  let gs := (residentGroups m die core).filter fun i => !absent (m.grp i).team
  let gone := (residentGroups m die core).filter fun i => absent (m.grp i).team
  let split := ts.foldl (fun a t => max a (m.grid (m.team t).grid).lr.split) r.split
  let grants := (ts.map fun t => (m.grid (m.team t).grid).lr.grant).sum + r.grant
  let resGone := (gone.map fun i => resOf (m.grid (m.grp i).grid).lr (m.grid (m.grp i).grid).hdr).sum
  (coresFor m x.part r.geo die).contains core && decide (gs.length + n ≤ 64) &&
    decide ((gs.map fun i => quartersOf (m.grp i)).sum + quarters ≤ quarterCap r.geo) &&
    decide (grants ≤ 256 * split) && decide (split + 1 ≤ arrayUnits r.geo) &&
    decide (resTaken m die core - resGone + n * resOf r x.hdr ≤ 65536) &&
    gs.all (fun i => !(m.grp i).victim) && !((m.core die core).claims.any fun i => !absent (m.grp i).team)

/-- Whether a team of a grid, at its header's counts, fits (R115). -/
def fitsWithout (m : Mach) (gr die core : Nat) (absent : Nat → Bool) : Bool :=
  let x := m.grid gr
  roomFor m gr x.lr.grps (x.lr.grps * (2 ^ x.lr.width * x.hdr.vregs)) die core absent

/-! Tagged slots and tiles: those of a saved team stay on its core until another team needs them (05 R151, R152, 12 R287, R308). -/

/-- Whether a team is on its core, or is being created: its slots and tiles are not to be taken. -/
def teamStays (m : Mach) (ti : Nat) : Bool := let p := (m.team ti).place; p = .resident || p = .queued

/-- The slots that a team has given up and that loops saved with it still read, on its old core (12 R285). -/
def loopSlotsLeft (m : Mach) (ti : Nat) : List Nat :=
  let t := m.team ti
  match t.kept with
  | none => []
  | some k =>
    (List.range 64).filter fun n => (k.loops.any fun o => bitAt (loopMask o) n) && !(k.slots.any fun s => s.1 = n) &&
      !((m.core t.die t.core).slots.any fun s => s.1 = n)

/-- A slot of a saved team written out to its save area, or the bytes of one that only its loops read. -/
def evictSlot (m : Mach) (ti n : Nat) : Mach :=
  let t := m.team ti
  let c := m.core t.die t.core
  let k := t.kept.getD default
  let rec' : Slot := (c.slots.find? fun s => s.1 = n && s.2.team = ti).map Prod.snd |>.getD { state := 0, team := ti, e := 0, f := 0 }
  let bytes := c.store.filter fun e => e.1 / 16384 = n
  (m.setCore t.die t.core { c with slots := c.slots.filter fun s => s.1 ≠ n || s.2.team ≠ ti }).setTeam ti
    { t with kept := some { k with slots := Tbl.put k.slots n rec', store := bytes.foldl (fun s e => Tbl.set 0 s e.1 e.2) k.store } }

/-- A tile of a saved team written out to its save area. -/
def evictTile (m : Mach) (ti n : Nat) : Mach :=
  let t := m.team ti
  let c := m.core t.die t.core
  let k := t.kept.getD default
  let elems := c.acc.filter fun e => e.1 / 16384 = n
  (m.setCore t.die t.core { c with tiles := c.tiles.filter fun s => s.1 ≠ n }).setTeam ti
    { t with kept := some { k with tiles := k.tiles ++ [n], acc := elems.foldl (fun s e => Tbl.set 0 s e.1 e.2) k.acc } }

/-- Saved teams whose tagged state stands on a core. -/
def savedOn (m : Mach) (die core : Nat) : List Nat :=
  (List.range m.teams.length).filter fun t => let x := m.team t; x.kept.isSome && x.place ≠ .resident && x.die = die && x.core = core

/-- Some slots and tiles of a core written out from the saved teams that hold them, but for one team. -/
def writeOut (m : Mach) (die core : Nat) (but : Option Nat) (slots tiles : List Nat) : Mach :=
  (((savedOn m die core).filter fun t => some t ≠ but)).foldl (fun m t =>
    let mine := (((m.core die core).slots.filter fun s => s.2.team = t).map Prod.fst) ++ loopSlotsLeft m t
    let ts := ((m.core die core).tiles.filter fun s => s.2 = t + 1).map Prod.fst
    (ts.filter fun n => tiles.contains n).foldl (fun m n => evictTile m t n)
      ((mine.filter fun n => slots.contains n).foldl (fun m n => evictSlot m t n) m)) m

/-- All of a saved team's tagged state written out (05 R152). -/
def writeOutTeam (m : Mach) (ti : Nat) : Mach :=
  let t := m.team ti
  let c := m.core t.die t.core
  let m1 := (((c.slots.filter fun s => s.2.team = ti).map Prod.fst) ++ loopSlotsLeft m ti).foldl (fun m n => evictSlot m ti n) m
  ((c.tiles.filter fun s => s.2 = ti + 1).map Prod.fst).foldl (fun m n => evictTile m ti n) m1

/-- The slot and tile numbers that a saved team needs on a core: those that do not stand there already. -/
def numbersNeeded (m : Mach) (ti die core : Nat) : List Nat × List Nat :=
  let t := m.team ti
  let k := t.kept.getD default
  let c := m.core t.die t.core
  if t.die = die && t.core = core then (k.slots.map Prod.fst, k.tiles)
  else (k.slots.map Prod.fst ++ (c.slots.filter fun s => s.2.team = ti).map Prod.fst ++ loopSlotsLeft m ti,
        k.tiles ++ (c.tiles.filter fun s => s.2 = ti + 1).map Prod.fst)

/-- The engine order of a core without the words of some teams. -/
def mxWithout (m : Mach) (die core : Nat) (absent : Nat → Bool) : Core :=
  let c := m.core die core
  { c with mx := c.mx.filter fun o => !absent (m.grp o.grp).team }

/-- Whether an issued word of the engine order still reads, or is still to write, some slot (12 R285). -/
def slotInUse (c : Core) (n : Nat) : Bool :=
  c.mx.any fun o => match o.work with
    | .loop _ _ _ _ _ _ _ _ _ k => bitAt k n
    | .st _ _ _ _ k => bitAt k n
    | _ => false

/-- Whether a loop that reads a slot is in the engine order and has not completed (12 R285, R298). -/
def loopReads (c : Core) (n : Nat) : Bool :=
  c.mx.any fun o => match o.work with
    | .loop _ _ _ _ _ _ _ _ _ k => bitAt k n
    | _ => false

/-- Whether an acrel of a tile is still to take its place in the engine order (12 R292). -/
def tileReleasing (c : Core) (n : Nat) : Bool :=
  c.mx.any fun o => match o.work with
    | .acrel a => wb a 0 6 ≤ n && n < wb a 0 6 + wb a 8 6 + 1
    | _ => false

/-- Whether a saved team fits: its groups at their counts, and its slots, tiles and port in their places, which no word
of the engine order still uses (12 R285, R292, R308); a team of
a cluster comes back to its cluster's die, on a core of its own (DESIGN CHOICE, notes/assumptions/13.md). -/
def fitsSaved (m : Mach) (ti die core : Nat) (absent : Nat → Bool) : Bool :=
  let t := m.team ti
  let c := m.core die core
  let need := numbersNeeded m ti die core
  let mine := t.groups.filter fun i => !(m.grp i).freed
  let mateOk := fun (u : Nat) =>
    let x := m.team u
    u = ti || x.place ≠ .resident || (x.die = die && x.core ≠ core)
  roomFor m t.grid mine.length (mine.map fun i => quartersOf (m.grp i)).sum die core absent &&
    need.1.all (fun n => !slotInUse (mxWithout m die core absent) n) && need.2.all (fun n => !tileReleasing (mxWithout m die core absent) n) &&
    need.1.all (fun n => !c.slots.any fun o => o.1 = n && teamStays m o.2.team && !absent o.2.team) &&
    need.2.all (fun n => !c.tiles.any fun o => o.1 = n && teamStays m (o.2 - 1) && !absent (o.2 - 1)) &&
    (mine.all fun i => (m.grp i).q.all fun q => q.2.bind ≠ .eng 5 || c.sxb.isNone) && t.cluster.all mateOk

/-! Positions and starting a group (R106, R107, R130). -/

/-- The positions of a width: slot and first quarter. -/
def positions (width : Nat) : List (Nat × Nat) :=
  match width with
  | 8 => (List.range 16).map fun i => (i / 4, i % 4)
  | 16 => (List.range 8).map fun i => (i / 2, 2 * (i % 2))
  | 32 => (List.range 4).map fun i => (i, 0)
  | _ => [(0, 0), (2, 0)]

/-- The quarters, numbered over the four slots, that a group at a position covers. -/
def covered (width slot quarter : Nat) : List Nat := (List.range (width / 8)).map fun i => 4 * slot + quarter + i

/-- The position whose quarters are shared by the fewest resident groups, the lowest of equals (DESIGN CHOICE,
notes/assumptions/13.md). -/
def choosePosition (m : Mach) (die core width : Nat) : Nat × Nat :=
  let gs := (residentGroups m die core).map fun i => covered (m.grp i).width (m.grp i).slot (m.grp i).quarter
  let load := fun (p : Nat × Nat) => ((covered width p.1 p.2).map fun q => (gs.filter fun g => g.contains q).length).sum
  (firstBy (fun a b => load a < load b) (positions width)).getD (0, 0)

/-- The lowest free resident index. -/
def freeResid (m : Mach) (die core : Nat) : Nat :=
  ((List.range 64).find? fun n => !((residentGroups m die core).any fun i => (m.grp i).resid = n)).getD 0

/-- A group at its start. -/
def newGroup (gr ti gid width die core : Nat) (pos : Nat × Nat) (resid : Nat) (r : Rec) (h : Hdr) : Group :=
  { grid := gr, team := ti, gid := gid, width := width, die := die, core := core, slot := pos.1, quarter := pos.2,
    resid := resid, voices := [(0, standingVoice (fullMask width) (r.kaddr / 12 + 1))], park := [], live := fullMask width,
    v := [], nv := h.vregs, s := Tbl.set 0 [] 0 r.param, ns := h.sregs, p := [], x := [], ly := [], q := [], f := [],
    mode := 0, fpflags := 0, prog := 0, tvec := 0, tcause := 0, taddr := 0, tpc := 0, tmask := 0, pp := 0, ret := [], outq := [],
    inhandler := false, handler := none, trap := none, outst := [], nextId := 0, conflicts := 0, mxsp := none, mxseq := 0,
    arrived := [], tvu := [], tvJobs := [], tvPend := [], rdTok := [], repack := none, freed := false, stopped := false,
    victim := false, vrun := none, holdsRes := false, inWords := [] }

/-- One group of a team started on its core. -/
def startGroup (ti gid : Nat) (m : Mach) : Mach :=
  let t := m.team ti
  let x := m.grid t.grid
  let w := widthOf x.lr.width
  let g := newGroup t.grid ti gid w t.die t.core (choosePosition m t.die t.core w) (freeResid m t.die t.core) x.lr x.hdr
  { m with groups := m.groups ++ [g] }.setTeam ti { t with groups := t.groups ++ [m.groups.length] }

/-- The order of the next admission (R124). -/
def nextOrder (m : Mach) : Nat := m.teams.foldl (fun a t => max a t.order) 0 + 1

/-- Level-1 lines in the part of a core's array that an admission gives to scratchpads, where it raises P: written back and dropped
(10 R226). Which lines lie in that part is a free choice; what a coh-1 line has not yet made visible at device scope stays so. -/
def givePart (m : Mach) (gr die core : Nat) : Mach :=
  let now := (residentTeams m die core).foldl (fun a t => max a (m.grid (m.team t).grid).lr.split) 0
  if (m.grid gr).lr.split ≤ now then m
  else
    let c := m.core die core
    let lines := (((c.c2.map Prod.fst ++ c.atoms.map Prod.fst).map (· / 128)).dedup).filter fun l => Config.freeBit m.fresh l
    lines.foldl (fun m l => flushAtoms (flushC2 m die core (128 * l) 128 true) die core fun k _ => k / 128 = l) m

/-- A team that holds no group put on a core: its groups start. -/
def startTeam (m0 : Mach) (ti die core : Nat) : Mach :=
  let m := givePart m0 (m0.team ti).grid die core
  let t := m.team ti
  let m1 := m.setTeam ti { t with place := .resident, die := die, core := core, order := nextOrder m, groups := [], idle := none }
  (List.range (m.grid t.grid).lr.grps).foldl (fun m gid => startGroup ti gid m) m1

/-- A team before its admission. -/
def newTeam (gr tid die core : Nat) (cluster : List Nat) (rank f h : Nat) : Team :=
  { grid := gr, tid := tid, die := die, core := core, place := .queued, stopping := none, stopAt := 0, kept := none, groups := [],
    cluster := cluster, rank := rank, spad := [], bars := [], clbars := [], cbs := [], f0 := f, f := f, h := h, halos := [],
    links := [], rpMask := none, rpPhase := 0, relaunches := 0, idle := none, order := 0 }

/-! Coming back from a save area (05 R150 to R152, 12 R287, R308, 09 R208). -/

/-- One group of a saved team put on the core of its team. -/
def placeGroup (m : Mach) (die core gi : Nat) : Mach :=
  let g := m.grp gi
  if g.freed then m
  else
    let p := choosePosition m die core g.width
    m.setGrp gi { g with die := die, core := core, slot := p.1, quarter := p.2, resid := freeResid m die core }

/-- A withdrawn claim of slots or tiles issued again, its counter raised (12 R287). -/
def reissue (m : Mach) (die core : Nat) (q : SlotReq × Outst) : Mach :=
  let g := m.grp q.1.grp
  let m1 := m.setGrp q.1.grp { raiseFlag g q.2.flag with outst := g.outst ++ [q.2] }
  m1.setCore die core { m1.core die core with reqs := (m1.core die core).reqs ++ [q.1] }

/-- The waitc words of a group whose lanes were satisfied while it was saved complete, in issue order (15 R354). -/
def completeLatched (m : Mach) (gi : Nat) : Mach :=
  let g := m.grp gi
  m.setGrp gi ((g.outst.filter fun o => o.wait = .monitors 0).foldl dropOutst g)

/-- The slots and tiles that a team's save area holds loaded into a core (05 R152). -/
def loadKept (m : Mach) (ti die core : Nat) (k : TeamSave) : Mach :=
  let c := m.core die core
  m.setCore die core
    { c with slots := k.slots.foldl (fun s e => if e.2.state = 0 then s else Tbl.put s e.1 { e.2 with team := ti }) c.slots,
             store := k.store.foldl (fun s e => Tbl.set 0 s e.1 e.2) (c.store.filter fun e => !k.slots.any fun n => n.1 = e.1 / 16384),
             tiles := k.tiles.foldl (fun s n => Tbl.put s n (ti + 1)) c.tiles,
             acc := k.acc.foldl (fun s e => Tbl.set 0 s e.1 e.2) (c.acc.filter fun e => !k.tiles.contains (e.1 / 16384)) }

/-- What a lazy area holds of a saved team, read as the device reads it (05 R152, 12 R309). -/
def readKept (m : Mach) (ti : Nat) (k : TeamSave) (slots : Nat) : TeamSave :=
  match k.run with
  | none => k
  | some r =>
    let p := (m.grid (m.team ti).grid).part
    let base := (m.part p).poolbase.toNat + 65536 * r.1
    lazyFrom (fun off => BitVec.ofNat 64 (rdNum m (keyLocal p (base + off)) 8)) slots k

/-- The clean copies of a core dropped: a team that comes from another core must not read a line older than its own stores
(02 R100, 14 R330). -/
def dropClean (m : Mach) (die core : Nat) : Mach :=
  let c := m.core die core
  m.setCore die core { c with c2 := c.c2.filter fun e => match e.2 with | some x => x.dirty | none => false }

/-- A saved team put on a core: on its own core what still stands there is reclaimed; from another core its tagged state is written out
first and the dirty lines of that core are written back. Its groups are placed, its slots, tiles, loops, claims and port taken back
(05 R152, 12 R308). -/
def resumeTeam (m0 : Mach) (ti die core : Nat) : Mach :=
  let old := m0.team ti
  let slots := ((old.kept.getD default).slots.filter fun s => s.2.state ≠ 0).length +
    ((m0.core old.die old.core).slots.filter fun s => s.2.team = ti).length
  let mv := if old.die = die && old.core = core then m0
    else dropClean (writeOutTeam (flushC2 (flushC1 m0 old.die old.core) old.die old.core 0 (2 ^ 80)) ti) die core
  let need := numbersNeeded mv ti die core
  let m := givePart (writeOut mv die core (some ti) need.1 need.2) old.grid die core
  let t := m.team ti
  let k := readKept m ti (t.kept.getD default) slots
  let m1 := t.groups.foldl (fun m i => placeGroup m die core i) m
  let m2 := (poolGive m1 (m.grid t.grid).part k.run).setTeam ti
    { t with place := .resident, die := die, core := core, order := nextOrder m, stopping := none, kept := none, idle := none }
  let m3 := loadKept m2 ti die core k
  let c := m3.core die core
  let m4 := m3.setCore die core
    { c with mx := c.mx ++ k.loops,
             sxb := (t.groups.findSome? fun i => ((m.grp i).q.find? fun q => q.2.bind = .eng 5).map fun q => (i, q.1)).orElse fun _ => c.sxb }
  t.groups.foldl completeLatched (k.reqs.foldl (fun m q => reissue m die core q) m4)

/-! What stands at the front of a queue, and where it may go (R117, R119, R122, R123). -/

/-- Entry, cluster to create, and its cores in rank order. -/
structure Plan where
  ent : QEnt
  cores : List Nat
deriving DecidableEq, Repr, Inhabited

def entGrid (m : Mach) : QEnt → Nat
  | .grid g => g
  | .team t => (m.team t).grid

/-- Clusters of a grid. -/
def clusterCount (x : Grid) : Nat := (x.lr.gx / x.lr.chw) * (x.lr.gy / x.lr.chh) * x.lr.gz

/-- The TEAMID of a rank of a cluster (R117, R118). -/
def clusterTid (x : Grid) (k rank : Nat) : Nat :=
  let r := x.lr
  let nx := r.gx / r.chw
  let ny := r.gy / r.chh
  (k % nx * r.chw + rank % r.chw) + r.gx * ((k / nx % ny * r.chh + rank / r.chw) + r.gy * (k / (nx * ny)))

/-- The core of a rank on a rectangle whose origin is a core, transposed or not; none outside the mesh. -/
def rankCore (die origin cx cy : Nat) (tr : Bool) : Option Nat :=
  let dx := if tr then cy else cx
  let dy := if tr then cx else cy
  let x := origin % meshCols die + dx
  let y := origin / meshCols die + dy
  if x < meshCols die ∧ y < meshRows die then some (x + meshCols die * y) else none

/-- Whether a team of a class may use a core: BG only on a core that holds no voice of another class and that no team of another
class wants; a group that drains has no voice (R123, R132). -/
def bgAllows (m : Mach) (cls : Nat) (wanted : Nat → Nat → Bool) (die core : Nat) : Bool :=
  cls ≠ 3 || ((residentGroups m die core).all (fun i => (m.grp i).live = 0 || (m.grid (m.grp i).grid).lr.cls = 3) && !wanted die core)

/-- Whether the room of a core is kept for another entry, an RT team that others were stopped for (R124). -/
def roomKept (m : Mach) (p die core : Nat) (ent : QEnt) : Bool :=
  (m.part p).rooms.any fun r => r.1 = 64 * die + core && r.2 ≠ ent

/-- The placements of an entry on a die: for each origin the cores in rank order on which every team fits. -/
def placements (m : Mach) (ent : QEnt) (wanted : Nat → Nat → Bool) (die : Nat) : List (List Nat) :=
  let gr := entGrid m ent
  let r := (m.grid gr).lr
  let p := (m.grid gr).part
  let none' := fun (_ : Nat) => false
  match ent with
  | .team t =>
    ((List.range (coreCount die)).filter fun c => bgAllows m r.cls wanted die c && !roomKept m p die c ent &&
      (if (m.team t).place = .saved then fitsSaved m t die c none' else fitsWithout m gr die c none')).map fun c => [c]
  | .grid _ =>
    let tr := r.chw > meshCols die || r.chh > meshRows die
    (List.range (coreCount die)).filterMap fun o =>
      let cs := (List.range (r.chw * r.chh)).map fun k => rankCore die o (k % r.chw) (k / r.chw) tr
      if cs.all fun c => match c with
          | some n => bgAllows m r.cls wanted die n && !roomKept m p die n ent && fitsWithout m gr die n none'
          | none => false
      then some (cs.map fun c => c.getD 0) else none

/-- The placement with the fewest resident groups, then the lowest origin. -/
def bestPlace (m : Mach) (die : Nat) (ps : List (List Nat)) : Option (List Nat) :=
  firstBy (fun a b => (a.map fun c => (residentGroups m die c).length).sum < (b.map fun c => (residentGroups m die c).length).sum) ps

/-- Whether an accepted launch holds the stream tail it needs: none of its teams is admitted before (09 R216). -/
def tailReady (m : Mach) (gr : Nat) : Bool := (m.grid gr).tail.isSome || (tailUnits (m.grid gr)).isNone

/-- Accepted launches whose stream tail could not be taken take it, oldest first, when the pool has room (09 R216). -/
def serveTails (m : Mach) : Mach :=
  ((List.range m.grids.length).filter fun g => !tailReady m g && !(m.grid g).ended && !(m.grid g).killed).foldl takeTail m

/-- Whether a ctxsv is saving a grid (05 R156). -/
def beingSaved (m : Mach) (gr : Nat) : Bool := m.groups.any fun g => (savesOf g).contains gr

/-- The front entry of a queue, if its launch wants cores of a die's kind and no ctxsv is saving its grid (05 R156). -/
def frontOn (m : Mach) (p q die : Nat) : Option QEnt :=
  match Tbl.get [] (m.part p).queues q with
  | [] => none
  | e :: _ =>
    if beingSaved m (entGrid m e) || (coresFor m p (m.grid (entGrid m e)).lr.geo die).isEmpty then none else some e

/-- The queues of GFX before those of TNS, or after (R114). -/
def gfxFirst (m : Mach) (p die : Nat) : Bool :=
  let x := m.part p
  Tbl.get 0 m.adm (2 * die) * wb x.weight 4 4 ≤ Tbl.get 0 m.adm (2 * die + 1) * wb x.weight 0 4

/-- The queues in the order in which the dispatcher of a die takes them (R123). -/
def queueOrder (m : Mach) (p die : Nat) : List Nat :=
  let down := fun (cls : Nat) => (List.range 8).map fun i => 8 * cls + 7 - i
  down 0 ++ (if gfxFirst m p die then down 1 ++ down 2 else down 2 ++ down 1) ++ down 3

/-- Whether a team of another class wants a core: it stands at the front of its queue, fits on no core of the die, and would
fit on this one without its BG teams (R123). -/
def wantedBy (m : Mach) (p : Nat) (die core : Nat) : Bool :=
  (List.range 24).any fun q => match frontOn m p q die with
    | none => false
    | some e =>
      let bg := fun (t : Nat) => decide ((m.grid (m.team t).grid).lr.cls = 3)
      let fits := fun (f : Nat → Bool) (c : Nat) => match e with
        | .team t => if (m.team t).place = .saved then fitsSaved m t die c f else fitsWithout m (entGrid m e) die c f
        | .grid g => fitsWithout m g die c f
      fits bg core && (placements m e (fun _ _ => false) die).isEmpty

/-- The plan of a queue's front entry on a die. -/
def planOf (m : Mach) (p q die : Nat) : Option Plan :=
  match frontOn m p q die with
  | none => none
  | some e =>
    if !tailReady m (entGrid m e) then none
    else (bestPlace m die (placements m e (wantedBy m p) die)).map fun cs => { ent := e, cores := cs }

/-- How long the front of a queue has waited, in nanoseconds: since it came to the front (DESIGN CHOICE, notes/assumptions/84.md). -/
def frontWait (m : Mach) (p q : Nat) : Nat := match (m.part p).fronts.find? fun f => f.1 = q with
  | some f => m.time - f.2.2.2
  | none => 0

/-- Whether the front team of a queue keeps every team after it off a die: it has waited 200 us (R123). -/
def frontBlocks (m : Mach) (p die q : Nat) : Bool :=
  (frontOn m p q die).isSome && (decide (frontWait m p q ≥ 200000) || (m.part p).blocked.contains (32 * die + q))

/-- The first queue of some that can be served, unless one that blocks the rest comes first (R123). -/
def firstPlan (m : Mach) (p die : Nat) : List Nat → Option (Nat × Plan)
  | [] => none
  | q :: qs =>
    match planOf m p q die with
    | some x => some (q, x)
    | none => if frontBlocks m p die q then none else firstPlan m p die qs

/-- The partitions that have cores on a die. -/
def partsOn (m : Mach) (die : Nat) : List Nat := ((List.range (coreCount die)).map fun c => partOf m.pk die c).dedup

/-- What a die admits next: partition, queue and plan. -/
def nextAdmission (m : Mach) (die : Nat) : Option (Nat × Nat × Plan) :=
  if !m.pk.has die then none
  else (partsOn m die).findSome? fun p => (firstPlan m p die (queueOrder m p die)).map fun x => (p, x.1, x.2)

/-! Admitting (R115, R117, R119, R123). -/

/-- The admission counter of the winner of a choice between GFX and TNS (R114). -/
def chargeAdmission (m : Mach) (p q die grps : Nat) : Mach :=
  let cls := q / 8
  let rival := if cls = 1 then 2 else 1
  if (cls = 1 ∨ cls = 2) ∧ ((List.range 8).any fun i => (planOf m p (8 * rival + i) die).isSome) then
    let mine := Tbl.get 0 m.adm (2 * die + (cls - 1)) + grps
    let other := Tbl.get 0 m.adm (2 * die + (rival - 1))
    let both : Bool := mine > 65535 && other > 65535
    let t := Tbl.set 0 m.adm (2 * die + (cls - 1)) (if both then mine / 2 else mine)
    { m with adm := Tbl.set 0 t (2 * die + (rival - 1)) (if both then other / 2 else other) }
  else m

/-- The entry at the front of a queue taken away, unless its launch has clusters left. -/
def popFront (m : Mach) (p q : Nat) (ent : QEnt) : Mach :=
  let gone := match ent with
    | .team _ => true
    | .grid g => decide ((m.grid g).made ≥ clusterCount (m.grid g))
  let x := m.part p
  if gone then m.setPart p { x with queues := Tbl.set [] x.queues q ((Tbl.get [] x.queues q).drop 1) } else m

/-- The next cluster of a grid created and put on its cores: clusters in CLUSTERID order, each whole. In clusters of more than one row
that puts teams before others of lower TEAMID, which R119 orders and R117 admits together (DESIGN CHOICE,
notes/assumptions/83.md). -/
def startCluster (m : Mach) (gr die : Nat) (cores : List Nat) : Mach :=
  let x := m.grid gr
  let n := m.teams.length
  let ids := (List.range cores.length).map (n + ·)
  let mk := fun (k core : Nat) =>
    let tid := clusterTid x x.made k
    let iv := if x.task then taskInterval x.lr tid else (0, 0)
    newTeam gr tid die core ids k iv.1 iv.2
  let m1 := { m with teams := m.teams ++ ((List.range cores.length).zip cores).map (fun (kc : Nat × Nat) => mk kc.1 kc.2) }
  let m2 := m1.setGrid gr { x with made := x.made + 1 }
  ((List.range cores.length).zip cores).foldl (fun m (kc : Nat × Nat) => startTeam m (n + kc.1) die kc.2) m2

/-- The groups that a plan admits. -/
def planGroups (m : Mach) (pl : Plan) : Nat := pl.cores.length * (m.grid (entGrid m pl.ent)).lr.grps

/-- TEAM_ADMISSION: the die admits what R123 puts first. -/
def admitNext (m : Mach) (die : Nat) : Mach :=
  match nextAdmission m die with
  | none => m
  | some (p, q, pl) =>
    let m0 := chargeAdmission m p q die (planGroups m pl)
    let m1 := m0.setPart p { m0.part p with rooms := (m0.part p).rooms.filter fun r => r.2 ≠ pl.ent }
    let m2 := match pl.ent with
      | .grid g => startCluster m1 g die pl.cores
      | .team t => if (m1.team t).place = .saved then resumeTeam m1 t die (pl.cores.getD 0 0) else startTeam m1 t die (pl.cores.getD 0 0)
    popFront m2 p q pl.ent

def execTeamAdmission (die : Nat) (s : State) : Host.Outcome State Fault Refusal := .next { s with m := admitNext s.m die }

/-! How long a front has waited (R123). -/

/-- The entry at the front of each queue, with the time it came there; a new front blocks nothing yet. The wait of a team counts from
then (DESIGN CHOICE, notes/assumptions/84.md). Room kept for an entry that no queue holds any more is free again. -/
def noteFronts (m0 : Mach) : Mach :=
  let m := serveTails m0
  (m.parts.map Prod.fst).foldl (fun m p =>
    let x := m.part p
    if x.queues.isEmpty && x.fronts.isEmpty && x.blocked.isEmpty && x.rooms.isEmpty then m
    else
      let one := fun (acc : Tbl (QEnt × Nat × Nat) × List Nat) (q : Nat) =>
        match Tbl.get [] x.queues q with
        | [] => (acc.1, acc.2.filter fun k => k % 32 ≠ q)
        | e :: _ =>
          let unit := match e with | .grid g => (m.grid g).made | .team _ => 0
          match x.fronts.find? fun f => f.1 = q && f.2.1 = e && f.2.2.1 = unit with
          | some f => (acc.1 ++ [f], acc.2)
          | none => (acc.1 ++ [(q, e, unit, m.time)], acc.2.filter fun k => k % 32 ≠ q)
      let r := (List.range 32).foldl one ([], x.blocked)
      let rooms := x.rooms.filter fun k => x.queues.any fun q => q.2.contains k.2
      m.setPart p { x with fronts := r.1, blocked := r.2, rooms := rooms }) m

/-- The partition whose queue blocks a die next: its front wants the die and has waited 200 us. -/
def blocksNow (m : Mach) (die q : Nat) : Option Nat :=
  (partsOn m die).find? fun p => m.pk.has die && q < 32 && (frontOn m p q die).isSome && decide (frontWait m p q ≥ 200000) &&
    !(m.part p).blocked.contains (32 * die + q)

/-- QUEUE_FRONT_TIMEOUT: no team that comes after this front is admitted on the die before it (R123). -/
def execQueueFrontTimeout (die q : Nat) (s : State) : Host.Outcome State Fault Refusal :=
  .next { s with m := match blocksNow s.m die q with
    | some p => s.m.setPart p { s.m.part p with blocked := (s.m.part p).blocked ++ [32 * die + q] }
    | none => s.m }

/-! Splitting a range task (R129). -/

/-- A core holds no resident group, and no front entry can use it. -/
def coreIdle (m : Mach) (die core : Nat) : Bool :=
  let p := partOf m.pk die core
  m.pk.has die && core < coreCount die && !((m.part p).rooms.any fun r => r.1 = 64 * die + core) && (residentGroups m die core).isEmpty && (residentTeams m die core).isEmpty &&
    (List.range 32).all fun q => match frontOn m p q die with
      | none => true
      | some e => !((placements m e (fun _ _ => false) die).any fun cs => cs.contains core)

/-- The team whose interval an idle core would split. -/
def splitFrom (m : Mach) (die core : Nat) : Option Nat :=
  let ok := fun (t : Nat) =>
    let x := m.team t
    let gd := m.grid x.grid
    x.place = .resident && x.die = die && gd.task && !gd.killed && !beingSaved m x.grid && gd.part = partOf m.pk die core &&
      fitsWithout m x.grid die core fun _ => false
  firstBy (fun a b =>
    let x := m.team a
    let y := m.team b
    decide (x.h - x.f > y.h - y.f) || (x.h - x.f = y.h - y.f && decide (x.tid < y.tid)))
    ((List.range m.teams.length).filter ok)

/-- Whether a core may split now: idle, at least two chunks remain, and the TEAMID does not wrap (R118). -/
def canSplit (m : Mach) (die core : Nat) : Option Nat :=
  if !coreIdle m die core then none
  else
    match splitFrom m die core with
    | none => none
    | some t =>
      let x := m.team t
      let gd := m.grid x.grid
      if (x.h - x.f + gd.lr.grain - 1) / gd.lr.grain ≥ 2 ∧ gd.nextTid < 2 ^ 32 - 1 then some t else none

/-- TASK_SPLIT: the upper half of the chunks becomes a new team on the idle core (R129). -/
def splitTask (m : Mach) (die core : Nat) : Mach :=
  match canSplit m die core with
  | none => m
  | some ti =>
    let t := m.team ti
    let gd := m.grid t.grid
    let g := gd.lr.grain
    let n := (t.h - t.f + g - 1) / g
    let cut := t.f + g * ((n + 1) / 2)
    let new := m.teams.length
    let m1 := (m.setTeam ti { t with h := cut }).setGrid t.grid { gd with nextTid := gd.nextTid + 1 }
    startTeam { m1 with teams := m1.teams ++ [newTeam t.grid gd.nextTid die core [new] 0 cut t.h] } new die core

def execTaskSplit (die core : Nat) (s : State) : Host.Outcome State Fault Refusal := .next { s with m := splitTask s.m die core }

end Sys2Proof.Machine
end

