-- ==== Sys2Proof/Machine/BitAlu.lean ====
section
/-!
DEFINITION. Sys2Proof/Machine/BitAlu.lean: the meanings of majors 0x0E to 0x16: bitwise words, dot products of bytes, bit
fields and funnel shifts, immediates and index registers (02 R62 to R67, R87).
-/

namespace Sys2Proof.Machine

/-- Width of a bitwise word (R62). -/
def bWidth : BTy → Nat
  | .b32 => 32 | .b64 => 64

/-- A W-bit result put into a lane (R45). -/
def bLane (w : Nat) (r : Nat) : Word := if w = 32 then lane32 false r else BitVec.ofNat 64 r

/-- A bitwise word: W-bit sources, the shift amount the whole of b (R62). -/
def bitWord (x : Pre) (ch : Bool) (t : BTy) (u : Use) (d a b : Nat) (f : Nat → Nat → Nat → Nat) (s : State) :
    Host.Outcome State Fault Refusal :=
  aluWord .alu x ch u d a b (fun _ _ va vb vc _ => (bLane (bWidth t) (f (wb va 0 (bWidth t)) vb.toNat vc.toNat), 0)) s

/-- Bits of a W-bit value from the top, counted while zero; from the bottom; and reversed. -/
def clzOf (w x : Nat) : Nat := if x = 0 then w else w - 1 - Nat.log2 x
def ctzOf (w x : Nat) : Nat := ((List.range w).find? fun i => bitAt x i).getD w
def popOf (w x : Nat) : Nat := ((List.range w).filter fun i => bitAt x i).length
def revOf (w x : Nat) : Nat := (List.range w).foldl (fun a i => a + if bitAt x i then 2 ^ (w - 1 - i) else 0) 0

/-- The complement of a W-bit value. -/
def notOf (w x : Nat) : Nat := 2 ^ w - 1 - x % 2 ^ w

/-- SHL (R62). -/
def execShl (x : Pre) (ch : Bool) (w : BTy) (d a b : BitVec 7) (s : State) : Host.Outcome State Fault Refusal :=
  bitWord x ch w Use.dab d.toNat a.toNat b.toNat (fun p n _ => if n ≥ bWidth w then 0 else p * 2 ^ n) s

/-- SHR (R62). -/
def execShr (x : Pre) (ch : Bool) (w : BTy) (d a b : BitVec 7) (s : State) : Host.Outcome State Fault Refusal :=
  bitWord x ch w Use.dab d.toNat a.toNat b.toNat (fun p n _ => if n ≥ bWidth w then 0 else p / 2 ^ n) s

/-- SAR (R62). -/
def execSar (x : Pre) (ch : Bool) (w : BTy) (d a b : BitVec 7) (s : State) : Host.Outcome State Fault Refusal :=
  bitWord x ch w Use.dab d.toNat a.toNat b.toNat
    (fun p n _ => wrapInt (bWidth w) (toSigned (bWidth w) p / 2 ^ min n (bWidth w))) s

/-- AND (R62). -/
def execBand (x : Pre) (ch : Bool) (w : BTy) (d a b : BitVec 7) (s : State) : Host.Outcome State Fault Refusal :=
  bitWord x ch w Use.dab d.toNat a.toNat b.toNat (fun p q _ => p &&& q) s

/-- OR (R62). -/
def execBor (x : Pre) (ch : Bool) (w : BTy) (d a b : BitVec 7) (s : State) : Host.Outcome State Fault Refusal :=
  bitWord x ch w Use.dab d.toNat a.toNat b.toNat (fun p q _ => p ||| q % 2 ^ bWidth w) s

/-- XOR (R62). -/
def execBxor (x : Pre) (ch : Bool) (w : BTy) (d a b : BitVec 7) (s : State) : Host.Outcome State Fault Refusal :=
  bitWord x ch w Use.dab d.toNat a.toNat b.toNat (fun p q _ => p ^^^ q % 2 ^ bWidth w) s

/-- ANDN (R62). -/
def execAndn (x : Pre) (ch : Bool) (w : BTy) (d a b : BitVec 7) (s : State) : Host.Outcome State Fault Refusal :=
  bitWord x ch w Use.dab d.toNat a.toNat b.toNat (fun p q _ => p &&& notOf (bWidth w) q) s

/-- ORN (R62). -/
def execOrn (x : Pre) (ch : Bool) (w : BTy) (d a b : BitVec 7) (s : State) : Host.Outcome State Fault Refusal :=
  bitWord x ch w Use.dab d.toNat a.toNat b.toNat (fun p q _ => p ||| notOf (bWidth w) q) s

/-- NOT (R62). -/
def execBnot (x : Pre) (ch : Bool) (w : BTy) (d a : BitVec 7) (s : State) : Host.Outcome State Fault Refusal :=
  bitWord x ch w Use.da d.toNat a.toNat 0 (fun p _ _ => notOf (bWidth w) p) s

/-- POPC (R62). -/
def execPopc (x : Pre) (ch : Bool) (w : BTy) (d a : BitVec 7) (s : State) : Host.Outcome State Fault Refusal :=
  bitWord x ch w Use.da d.toNat a.toNat 0 (fun p _ _ => popOf (bWidth w) p) s

/-- CLZ (R62). -/
def execClz (x : Pre) (ch : Bool) (w : BTy) (d a : BitVec 7) (s : State) : Host.Outcome State Fault Refusal :=
  bitWord x ch w Use.da d.toNat a.toNat 0 (fun p _ _ => clzOf (bWidth w) p) s

/-- CTZ (R62). -/
def execCtz (x : Pre) (ch : Bool) (w : BTy) (d a : BitVec 7) (s : State) : Host.Outcome State Fault Refusal :=
  bitWord x ch w Use.da d.toNat a.toNat 0 (fun p _ _ => ctzOf (bWidth w) p) s

/-- BREV (R62). -/
def execBrev (x : Pre) (ch : Bool) (w : BTy) (d a : BitVec 7) (s : State) : Host.Outcome State Fault Refusal :=
  bitWord x ch w Use.da d.toNat a.toNat 0 (fun p _ _ => revOf (bWidth w) p) s

/-- The bytes of b:a chosen by the bytes of c (R63). -/
def permOf (w p q r : Nat) : Nat :=
  let str := p % 2 ^ w + q % 2 ^ w * 2 ^ w
  (List.range (w / 8)).foldl (fun acc i =>
    let t := bitsOf r (8 * i) 8
    acc + (if t ≥ 128 then 0 else bitsOf str (8 * (t % (2 * (w / 8)))) 8) * 2 ^ (8 * i)) 0

/-- PERM (R63). -/
def execPerm (x : Pre) (ch : Bool) (w : BTy) (d a b : BitVec 7) (s : State) : Host.Outcome State Fault Refusal :=
  bitWord x ch w Use.dabc d.toNat a.toNat b.toNat (fun p q r => permOf (bWidth w) p q r) s

/-- The four-byte dot product (R64). -/
def idotLane (sgn sat : Bool) (va vb vc : Word) : Word :=
  let z := (List.range 4).foldl (fun (acc : Int) n => acc + readInt sgn 8 (elemOf va 8 n) * readInt sgn 8 (elemOf vb 8 n))
    (readInt sgn 32 (wb vc 0 32))
  lane32 sgn (narrow sgn sat 32 z)

/-- IDOT4_I8 (R64). -/
def execIdot4I8 (x : Pre) (ch : Bool) (d a b : BitVec 7) (s : State) : Host.Outcome State Fault Refusal :=
  aluWord .alu x ch { Use.dabc with sat := true } d.toNat a.toNat b.toNat
    (fun c _ va vb vc _ => (idotLane true c.pre.sat va vb vc, 0)) s

/-- IDOT4_N8 (R64). -/
def execIdot4N8 (x : Pre) (ch : Bool) (d a b : BitVec 7) (s : State) : Host.Outcome State Fault Refusal :=
  aluWord .alu x ch { Use.dabc with sat := true } d.toNat a.toNat b.toNat
    (fun c _ va vb vc _ => (idotLane false c.pre.sat va vb vc, 0)) s

/-! Bit fields (R66). -/

/-- The field that b describes: its low bit and its length; length 0 when empty. -/
def fieldOf (w : Nat) (b : Word) : Nat × Nat :=
  let off := wb b 0 8
  let wid := wb b 8 8
  if off ≥ w ∨ wid = 0 then (0, 0) else (off, min (off + wid) w - off)

/-- A field word: sources read at the type's width (R67). -/
def fieldWord (x : Pre) (ch : Bool) (t : WTy) (u : Use) (d a b : Nat) (f : Nat → Word → Word → Nat) (s : State) :
    Host.Outcome State Fault Refusal :=
  aluWord .alu x ch u d a b (fun _ _ va vb vc _ =>
    (laneFrom (wtSigned t) (wtWidth t) 1 fun _ => f (wb va 0 (wtWidth t)) vb vc, 0)) s

/-- BFX (R67). -/
def execBfx (x : Pre) (ch : Bool) (t : WTy) (d a b : BitVec 7) (s : State) : Host.Outcome State Fault Refusal :=
  fieldWord x ch t Use.dab d.toNat a.toNat b.toNat (fun p q _ =>
    let o := fieldOf (wtWidth t) q
    if o.2 = 0 then 0 else wrapInt (wtWidth t) (readInt (wtSigned t) o.2 (bitsOf p o.1 o.2))) s

/-- BFI (R67). -/
def execBfi (x : Pre) (ch : Bool) (t : WTy) (d a b : BitVec 7) (s : State) : Host.Outcome State Fault Refusal :=
  fieldWord x ch t Use.dabc d.toNat a.toNat b.toNat (fun p q r =>
    let o := fieldOf (wtWidth t) q
    let z := wb r 0 (wtWidth t)
    z - bitsOf z o.1 o.2 * 2 ^ o.1 + bitsOf p 0 o.2 * 2 ^ o.1) s

/-- FSHL: the upper half of a:b shifted left (R67). -/
def execFshl (x : Pre) (ch : Bool) (t : WTy) (d a b : BitVec 7) (s : State) : Host.Outcome State Fault Refusal :=
  fieldWord x ch t Use.dabc d.toNat a.toNat b.toNat (fun p q r =>
    let w := wtWidth t
    bitsOf ((p * 2 ^ w + wb q 0 w) * 2 ^ min r.toNat (2 * w)) w w) s

/-- FSHR: the lower half of a:b shifted right, filling by the type (R67). -/
def execFshr (x : Pre) (ch : Bool) (t : WTy) (d a b : BitVec 7) (s : State) : Host.Outcome State Fault Refusal :=
  fieldWord x ch t Use.dabc d.toNat a.toNat b.toNat (fun p q r =>
    let w := wtWidth t
    wrapInt w (readInt (wtSigned t) (2 * w) (p * 2 ^ w + wb q 0 w) / 2 ^ min r.toNat (2 * w))) s

/-- BMSK (R67). -/
def execBmsk (x : Pre) (ch : Bool) (t : WTy) (d b : BitVec 7) (s : State) : Host.Outcome State Fault Refusal :=
  fieldWord x ch t { Use.dab with a := false } d.toNat 0 b.toNat (fun _ q _ =>
    let o := fieldOf (wtWidth t) q
    (2 ^ o.2 - 1) * 2 ^ o.1) s

/-! Immediates (R65) and index registers (R87). -/

/-- MOVI: the sign-extended immediate (R65). -/
def execMovi (x : Pre) (ch : Bool) (d : BitVec 7) (i : BitVec 11) (s : State) : Host.Outcome State Fault Refusal :=
  aluWord .alu x ch { Use.da with a := false } d.toNat 0 0 (fun _ _ _ _ _ _ => (i.signExtend 64, 0)) s

/-- MOVH: a shifted left by 11, with the immediate below (R65). -/
def execMovh (x : Pre) (ch : Bool) (d a : BitVec 7) (i : BitVec 11) (s : State) : Host.Outcome State Fault Refusal :=
  aluWord .alu x ch Use.da d.toNat a.toNat 0 (fun _ _ va _ _ _ => ((va <<< 11) ||| i.zeroExtend 64, 0)) s

/-- The index register word of a lane (R87). -/
def xsetLane (i : BitVec 11) (a : Word) : Word :=
  BitVec.ofNat 64 ((wb a 0 7 + (i.signExtend 64).toNat) % 128 + wb a 8 7 * 2 ^ 8 + wb a 16 7 * 2 ^ 16)

/-- XSET (R87). -/
def execXset (x : Pre) (ch : Bool) (n : BitVec 2) (a : BitVec 7) (i : BitVec 11) (s : State) :
    Host.Outcome State Fault Refusal :=
  issue (some .alu) false x ch (fun c m =>
    let u := { Use.da with d := false }
    if !(c.preOk u && c.fieldsOk u 0 a.toNat 0) then c.illegal
    else
      match c.read m 1 a.toNat with
      | .error e => e
      | .ok (m1, va) =>
        let g := m1.grp c.gi
        .ok (m1.setGrp c.gi { g with x := c.lanes.foldl (fun t l => Tbl.set 0 t (64 * n.toNat + l) (xsetLane i (va l))) g.x })) s

end Sys2Proof.Machine
end

