-- ==== Sys2Proof/Machine/Cache.lean ====
section
/-!
DEFINITION. Sys2Proof/Machine/Cache.lean: the meanings of major 0x2F: prefetch, cache maintenance and fences
(11 R255 to R259).
-/

namespace Sys2Proof.Machine

/-- PRFM: no value changes and nothing traps (R256, 10 R246). -/
def execPrfm (x : Pre) (ch : Bool) (l : BitVec 2) (b _o : BitVec 7) (s : State) : Host.Outcome State Fault Refusal :=
  issue (some .mem) false x ch (fun c m =>
    let k := opdOf c.pre 1 b.toNat
    if !(c.memPre [0] 0 && l.toNat ≤ 2 && c.srcOk 1 b.toNat && (k.isV || k.isS)) then c.illegal
    else
      match c.read m 1 b.toNat with
      | .error e => e
      | .ok (m1, _) => .ok m1) s

/-- Whether a core's level-1 is one that a maintenance word acts on: the issuing core's, or every one of the partition (R257). -/
def maintCore (m : Mach) (w : Who) (all : Bool) (k : Nat) : Bool :=
  if all then partOf m.pk (k / 64) (k % 64) = w.part else k = 64 * w.die + w.core

/-- Ranges of keys written back from level-1 caches, and their copies dropped (R257). -/
def maintain (m : Mach) (w : Who) (inv all : Bool) (rs : List (Nat × Nat)) : Mach :=
  rs.foldl (fun m r =>
    let at? := maintCore m w all
    flushC2In (flushC1In (flushAtomsIn m at? r.1 r.2) (fun x => at? x.core) r.1 r.2) at? r.1 r.2 inv) m

/-- The keys of the pages a maintenance word acts on, the last outstanding: pages that fail a check are skipped, a migrating page
holds the word (R257). -/
def maintPages (m : Mach) (w : Who) (lo hi : Nat) : Nat → Nat → Except Stop (List (Nat × Nat))
  | 0, _ => .ok []
  | n + 1, page =>
    let a := max lo (page * 2 ^ 16)
    let z := min hi ((page + 1) * 2 ^ 16)
    match checkVa m w .load 1 false a, maintPages m w lo hi n (page + 1) with
    | .held, .error (.hold vas) => .error (.hold (a :: vas))
    | .held, _ => .error (.hold [a])
    | _, .error e => .error e
    | .ue, _ => .error (.cause (trapOf .sramUe 0 0))
    | .ok (.mem key _), .ok rs => .ok ((key, z - a) :: rs)
    | _, .ok rs => .ok rs

/-- A word whose effect follows every access that its group issued before it: performed at issue when none is held, else when the
last of them is performed (R257 to R259). -/
def Cx.after (c : Cx) (m : Mach) (flag : Option Nat) (act : HeldAct) (now : Mach → Mach) : Eff :=
  if accessesHeld m c.gi (m.grp c.gi).nextId true then c.long m flag [] [] (.held act) else c.long (now m) flag [] [] .ready

/-- CWB and CINV: the range widened to lines, page by page (R257). -/
def maintBody (inv f : Bool) (t b : BitVec 7) (off : Int) (c : Cx) (m : Mach) : Eff :=
  if !(c.memPre [0] 4 && c.srcOk 1 b.toNat && c.srcOk 2 t.toNat && (opdOf c.pre 1 b.toNat).isS && (opdOf c.pre 2 t.toNat).isS) then
    c.illegal
  else if c.act = 0 then .ok m
  else
    match c.read m 1 b.toNat with
    | .error e => e
    | .ok (m1, vb) =>
      match c.read m1 2 t.toNat with
      | .error e => e
      | .ok (m2, vt) =>
        let len := (vt 0).toNat
        let ea := (vb 0 + BitVec.ofInt 64 (128 * off)).toNat
        if len > 2 ^ 30 then c.illegal
        else if len = 0 then c.long m2 (c.flag f) [] [] .ready
        else
          let lo := ea / 128 * 128
          let hi := (ea + len + 127) / 128 * 128
          match maintPages m2 c.who lo hi ((hi - 1) / 2 ^ 16 - lo / 2 ^ 16 + 1) (lo / 2 ^ 16) with
          | .error e => c.stopEff e
          | .ok rs =>
            let all : Bool := c.pre.scope?.getD 3 ≥ 3
            c.after m2 (c.flag f) (.maint inv all rs) fun m => maintain m c.who inv all rs

/-- CWB (R257). -/
def execCwb (x : Pre) (ch : Bool) (f : Bool) (t b o : BitVec 7) (s : State) : Host.Outcome State Fault Refusal :=
  issue (some .mem) false x ch (maintBody false f t b (offsetOf x o)) s

/-- CINV (R257). -/
def execCinv (x : Pre) (ch : Bool) (f : Bool) (t b o : BitVec 7) (s : State) : Host.Outcome State Fault Refusal :=
  issue (some .mem) false x ch (maintBody true f t b (offsetOf x o)) s

/-- What icinv does: the stores of its core become visible at device scope, then words of code are dropped (R258). -/
def icinvAt (m : Mach) (w : Who) (lo hi : Nat) : Mach := dropCode (flushC1 m w.die w.core) w lo hi

/-- ICINV: at device scope alone; earlier stores become visible at device scope, then the words of the range that the
instruction caches hold for the context are dropped (R258). -/
def execIcinv (x : Pre) (ch : Bool) (f : Bool) (t b o : BitVec 7) (s : State) : Host.Outcome State Fault Refusal :=
  issue (some .mem) false x ch (fun c m =>
    if !(c.memPre [0] 4 && c.pre.scope?.getD 3 = 3 && c.srcOk 1 b.toNat && c.srcOk 2 t.toNat &&
        (opdOf c.pre 1 b.toNat).isS && (opdOf c.pre 2 t.toNat).isS) then c.illegal
    else if c.act = 0 then .ok m
    else
      match c.read m 1 b.toNat with
      | .error e => e
      | .ok (m1, vb) =>
        match c.read m1 2 t.toNat with
        | .error e => e
        | .ok (m2, vt) =>
          let len := (vt 0).toNat
          let ea := (vb 0 + BitVec.ofInt 64 (128 * offsetOf x o)).toNat
          if len > 2 ^ 30 then c.illegal
          else
            let lo := ea / 128 * 128
            let hi := if len = 0 then lo else (ea + len + 127) / 128 * 128
            c.after m2 (c.flag f) (.icinv lo hi) fun m => icinvAt m c.who lo hi) s

/-- FENCE: it issues, and completes when its earlier accesses are performed; the group's later accesses wait for it
(R259). -/
def execFence (x : Pre) (ch : Bool) (f : Bool) (s : State) : Host.Outcome State Fault Refusal :=
  issue (some .mem) false x ch (fun c m =>
    let ord := if c.pre.scope?.isNone then 4 else c.pre.ord
    if !(PreClass.mem.accepts c.pre && 2 ≤ ord && ord ≤ 4 && c.pre.scope?.getD 3 ≤ 4 && c.pre.offh = 0) then c.illegal
    else if c.act = 0 then .ok m
    else
      let scope := if ord ≥ 3 then c.pre.scope?.getD 3 else 0
      c.after m (c.flag f) (.fence scope) fun m => releaseAt m c.who scope) s

end Sys2Proof.Machine
end

