-- ==== Sys2Proof/Machine/Names.lean ====
section
/-!
DEFINITION. Sys2Proof/Machine/Names.lean: the registers that a word names by its fields, as operand codes with the lengths of
their runs: for the checks that compare them with a vector count (09 R222, R223).
-/

namespace Sys2Proof.Machine

/-- Operand codes of the fields of a word and how many registers each names from there on. -/
def fieldCodes : Instr → List (Nat × Nat)
  | .add _ _ _ d a b => [(d.toNat, 1), (a.toNat, 1), (b.toNat, 1)]
  | .sub _ _ _ d a b => [(d.toNat, 1), (a.toNat, 1), (b.toNat, 1)]
  | .mul _ _ _ d a b => [(d.toNat, 1), (a.toNat, 1), (b.toNat, 1)]
  | .mulh _ _ _ d a b => [(d.toNat, 1), (a.toNat, 1), (b.toNat, 1)]
  | .mad _ _ _ d a b => [(d.toNat, 1), (a.toNat, 1), (b.toNat, 1)]
  | .ineg _ _ _ d a => [(d.toNat, 1), (a.toNat, 1)]
  | .iabs _ _ _ d a => [(d.toNat, 1), (a.toNat, 1)]
  | .imin _ _ _ d a b => [(d.toNat, 1), (a.toNat, 1), (b.toNat, 1)]
  | .imax _ _ _ d a b => [(d.toNat, 1), (a.toNat, 1), (b.toNat, 1)]
  | .sad _ _ _ d a b => [(d.toNat, 1), (a.toNat, 1), (b.toNat, 1)]
  | .add3 _ _ _ d a b => [(d.toNat, 1), (a.toNat, 1), (b.toNat, 1)]
  | .cmp _ _ _ _ _ a b => [(a.toNat, 1), (b.toNat, 1)]
  | .sel _ _ _ d a b => [(d.toNat, 1), (a.toNat, 1), (b.toNat, 1)]
  | .mov _ _ _ d a => [(d.toNat, 1), (a.toNat, 1)]
  | .cvt _ _ _ d a _ _ => [(d.toNat, 1), (a.toNat, 1)]
  | .lea _ _ _ d a b => [(d.toNat, 1), (a.toNat, 1), (b.toNat, 1)]
  | .shl _ _ _ d a b => [(d.toNat, 1), (a.toNat, 1), (b.toNat, 1)]
  | .shr _ _ _ d a b => [(d.toNat, 1), (a.toNat, 1), (b.toNat, 1)]
  | .sar _ _ _ d a b => [(d.toNat, 1), (a.toNat, 1), (b.toNat, 1)]
  | .band _ _ _ d a b => [(d.toNat, 1), (a.toNat, 1), (b.toNat, 1)]
  | .bor _ _ _ d a b => [(d.toNat, 1), (a.toNat, 1), (b.toNat, 1)]
  | .bxor _ _ _ d a b => [(d.toNat, 1), (a.toNat, 1), (b.toNat, 1)]
  | .andn _ _ _ d a b => [(d.toNat, 1), (a.toNat, 1), (b.toNat, 1)]
  | .orn _ _ _ d a b => [(d.toNat, 1), (a.toNat, 1), (b.toNat, 1)]
  | .bnot _ _ _ d a => [(d.toNat, 1), (a.toNat, 1)]
  | .popc _ _ _ d a => [(d.toNat, 1), (a.toNat, 1)]
  | .clz _ _ _ d a => [(d.toNat, 1), (a.toNat, 1)]
  | .ctz _ _ _ d a => [(d.toNat, 1), (a.toNat, 1)]
  | .brev _ _ _ d a => [(d.toNat, 1), (a.toNat, 1)]
  | .perm _ _ _ d a b => [(d.toNat, 1), (a.toNat, 1), (b.toNat, 1)]
  | .idot4I8 _ _ d a b => [(d.toNat, 1), (a.toNat, 1), (b.toNat, 1)]
  | .idot4N8 _ _ d a b => [(d.toNat, 1), (a.toNat, 1), (b.toNat, 1)]
  | .bfx _ _ _ d a b => [(d.toNat, 1), (a.toNat, 1), (b.toNat, 1)]
  | .bfi _ _ _ d a b => [(d.toNat, 1), (a.toNat, 1), (b.toNat, 1)]
  | .fshl _ _ _ d a b => [(d.toNat, 1), (a.toNat, 1), (b.toNat, 1)]
  | .fshr _ _ _ d a b => [(d.toNat, 1), (a.toNat, 1), (b.toNat, 1)]
  | .bmsk _ _ _ d b => [(d.toNat, 1), (b.toNat, 1)]
  | .movi _ _ d _ => [(d.toNat, 1)]
  | .movh _ _ d a _ => [(d.toNat, 1), (a.toNat, 1)]
  | .xset _ _ _ a _ => [(a.toNat, 1)]
  | .fadd _ _ _ d a b => [(d.toNat, 1), (a.toNat, 1), (b.toNat, 1)]
  | .fsub _ _ _ d a b => [(d.toNat, 1), (a.toNat, 1), (b.toNat, 1)]
  | .fmul _ _ _ d a b => [(d.toNat, 1), (a.toNat, 1), (b.toNat, 1)]
  | .ffma _ _ _ d a b => [(d.toNat, 1), (a.toNat, 1), (b.toNat, 1)]
  | .fmin _ _ _ d a b => [(d.toNat, 1), (a.toNat, 1), (b.toNat, 1)]
  | .fmax _ _ _ d a b => [(d.toNat, 1), (a.toNat, 1), (b.toNat, 1)]
  | .fcmp _ _ _ _ a b => [(a.toNat, 1), (b.toNat, 1)]
  | .fclass _ _ _ d a => [(d.toNat, 1), (a.toNat, 1)]
  | .frnd _ _ _ d a => [(d.toNat, 1), (a.toNat, 1)]
  | .fcvt _ _ _ d a _ _ => [(d.toNat, 1), (a.toNat, 1)]
  | .ftoi _ _ _ d a _ _ => [(d.toNat, 1), (a.toNat, 1)]
  | .itof _ _ _ d a _ _ => [(d.toNat, 1), (a.toNat, 1)]
  | .fscale _ _ _ d a b => [(d.toNat, 1), (a.toNat, 1), (b.toNat, 1)]
  | .fdot2 _ _ _ d a b => [(d.toNat, 1), (a.toNat, 1), (b.toNat, 1)]
  | .fdot4 _ _ _ d a b => [(d.toNat, 1), (a.toNat, 1), (b.toNat, 1)]
  | .fdiv _ _ _ d a b => [(d.toNat, 1), (a.toNat, 1), (b.toNat, 1)]
  | .frcp _ _ _ d a => [(d.toNat, 1), (a.toNat, 1)]
  | .frsq _ _ _ d a => [(d.toNat, 1), (a.toNat, 1)]
  | .fsqrt _ _ _ d a => [(d.toNat, 1), (a.toNat, 1)]
  | .fexp2 _ _ _ d a => [(d.toNat, 1), (a.toNat, 1)]
  | .flog2 _ _ _ d a => [(d.toNat, 1), (a.toNat, 1)]
  | .fsin _ _ _ d a => [(d.toNat, 1), (a.toNat, 1)]
  | .fcos _ _ _ d a => [(d.toNat, 1), (a.toNat, 1)]
  | .ftanh _ _ _ d a => [(d.toNat, 1), (a.toNat, 1)]
  | .fpackTf8 _ _ _ d a _ => [(d.toNat, 1), (a.toNat, 1)]
  | .fpackTf6 _ _ _ d a _ => [(d.toNat, 1), (a.toNat, 1)]
  | .funpackTf8 _ _ _ d a _ => [(d.toNat, 1), (a.toNat, 1)]
  | .funpackTf6 _ _ _ d a _ => [(d.toNat, 1), (a.toNat, 1)]
  | .shflIdx _ _ _ d a b => [(d.toNat, 1), (a.toNat, 1), (b.toNat, 1)]
  | .shflUp _ _ _ d a b => [(d.toNat, 1), (a.toNat, 1), (b.toNat, 1)]
  | .shflDown _ _ _ d a b => [(d.toNat, 1), (a.toNat, 1), (b.toNat, 1)]
  | .shflXor _ _ _ d a b => [(d.toNat, 1), (a.toNat, 1), (b.toNat, 1)]
  | .voteBallot _ _ d _ => [(d.toNat, 1)]
  | .matchKey _ _ _ d a _ => [(d.toNat, 1), (a.toNat, 1)]
  | .lredAdd _ _ _ d a => [(d.toNat, 1), (a.toNat, 1)]
  | .lredMin _ _ _ d a => [(d.toNat, 1), (a.toNat, 1)]
  | .lredMax _ _ _ d a => [(d.toNat, 1), (a.toNat, 1)]
  | .lredAnd _ _ _ d a => [(d.toNat, 1), (a.toNat, 1)]
  | .lredOr _ _ _ d a => [(d.toNat, 1), (a.toNat, 1)]
  | .lredXor _ _ _ d a => [(d.toNat, 1), (a.toNat, 1)]
  | .lscanAdd _ _ _ d a => [(d.toNat, 1), (a.toNat, 1)]
  | .lscanMax _ _ _ d a => [(d.toNat, 1), (a.toNat, 1)]
  | .pmovToPred _ _ _ a => [(a.toNat, 1)]
  | .pmovFromPred _ _ d _ => [(d.toNat, 1)]
  | .jmpt _ _ a b => [(a.toNat, 1), (b.toNat, 1)]
  | .sypub _ _ a => [(a.toNat, 1)]
  | .sydone _ _ a => [(a.toNat, 1)]
  | .setmode _ _ d a b => [(d.toNat, 1), (a.toNat, 1), (b.toNat, 1)]
  | .srd _ _ d _ => [(d.toNat, 1)]
  | .swr _ _ a _ => [(a.toNat, 1)]
  | .ctxsv _ _ a b => [(a.toNat, 1), (b.toNat, 1)]
  | .ctxrs _ _ a => [(a.toNat, 1)]
  | .tlbinv _ _ a _ => [(a.toNat, 1)]
  | .ld _ _ _ _ t b _ => [(t.toNat, 1), (b.toNat, 1)]
  | .ldSext _ _ _ _ t b _ => [(t.toNat, 1), (b.toNat, 1)]
  | .st _ _ _ _ t b _ => [(t.toNat, 1), (b.toNat, 1)]
  | .lds _ _ _ _ t b _ => [(t.toNat, 1), (b.toNat, 1)]
  | .ldsSext _ _ _ _ t b _ => [(t.toNat, 1), (b.toNat, 1)]
  | .sts _ _ _ _ t b _ => [(t.toNat, 1), (b.toNat, 1)]
  | .ldc _ _ _ _ t b _ => [(t.toNat, 1), (b.toNat, 1)]
  | .ldm _ _ _ t b n => [(t.toNat, n.toNat + 1), (b.toNat, 1)]
  | .stm _ _ _ t b n => [(t.toNat, n.toNat + 1), (b.toNat, 1)]
  | .prfm _ _ _ b _ => [(b.toNat, 1)]
  | .cwb _ _ _ t b _ => [(t.toNat, 1), (b.toNat, 1)]
  | .cinv _ _ _ t b _ => [(t.toNat, 1), (b.toNat, 1)]
  | .icinv _ _ _ t b _ => [(t.toNat, 1), (b.toNat, 1)]
  | .atomAdd _ _ _ d a b => [(d.toNat, 1), (a.toNat, 1), (b.toNat, 1)]
  | .atomMin _ _ _ d a b => [(d.toNat, 1), (a.toNat, 1), (b.toNat, 1)]
  | .atomMax _ _ _ d a b => [(d.toNat, 1), (a.toNat, 1), (b.toNat, 1)]
  | .atomAnd _ _ _ d a b => [(d.toNat, 1), (a.toNat, 1), (b.toNat, 1)]
  | .atomOr _ _ _ d a b => [(d.toNat, 1), (a.toNat, 1), (b.toNat, 1)]
  | .atomXor _ _ _ d a b => [(d.toNat, 1), (a.toNat, 1), (b.toNat, 1)]
  | .atomExch _ _ _ d a b => [(d.toNat, 1), (a.toNat, 1), (b.toNat, 1)]
  | .atomc _ _ _ d a b => [(d.toNat, 1), (a.toNat, 1), (b.toNat, 2)]
  | .redAdd _ _ _ a b => [(a.toNat, 1), (b.toNat, 1)]
  | .redMin _ _ _ a b => [(a.toNat, 1), (b.toNat, 1)]
  | .redMax _ _ _ a b => [(a.toNat, 1), (b.toNat, 1)]
  | .redAnd _ _ _ a b => [(a.toNat, 1), (b.toNat, 1)]
  | .redOr _ _ _ a b => [(a.toNat, 1), (b.toNat, 1)]
  | .redXor _ _ _ a b => [(a.toNat, 1), (b.toNat, 1)]
  | .waitc _ _ _ _ a b => [(a.toNat, 1), (b.toNat, 1)]
  | .atomFadd _ _ _ d a b => [(d.toNat, 1), (a.toNat, 1), (b.toNat, 1)]
  | .redFadd _ _ _ a b => [(a.toNat, 1), (b.toNat, 1)]
  | .ldtile _ _ _ a => [(a.toNat, 1)]
  | .qbindEng _ _ _ a => [(a.toNat, 1)]
  | .qbindLsend _ _ _ a => [(a.toNat, 1)]
  | .qbindLrecv _ _ _ a => [(a.toNat, 1)]
  | .qpush _ _ _ a => [(a.toNat, 1)]
  | .qcnt _ _ _ a => [(a.toNat, 1)]
  | .cbinit _ _ a b _ => [(a.toNat, 1), (b.toNat, 1)]
  | .cbacq _ _ _ a _ => [(a.toNat, 1)]
  | .cbstat _ _ a _ => [(a.toNat, 1)]
  | .rtag _ _ _ a b => [(a.toNat, 1), (b.toNat, 1)]
  | .bobinit _ _ a b => [(a.toNat, 1), (b.toNat, 1)]
  | .bobadd _ _ a b => [(a.toNat, 1), (b.toNat, 1)]
  | .bobwait _ _ _ a b => [(a.toNat, 1), (b.toNat, 1)]
  | .haloDecl _ _ _ a => [(a.toNat, 1)]
  | .haloRel _ _ _ a => [(a.toNat, 1)]
  | .haloWait _ _ _ a b => [(a.toNat, 1), (b.toNat, 1)]
  | .haloDrop _ _ _ a => [(a.toNat, 1)]
  | .coll _ _ _ a _ => [(a.toNat, 1)]
  | .shopen _ _ _ a b _ => [(a.toNat, 1), (b.toNat, 1)]
  | .publish _ _ _ a => [(a.toNat, 1)]
  | .shdrop _ _ _ a => [(a.toNat, 1)]
  | .commit _ _ _ a b => [(a.toNat, 1), (b.toNat, 1)]
  | .discard _ _ _ a b => [(a.toNat, 1), (b.toNat, 1)]
  | .launch _ _ _ a => [(a.toNat, 1)]
  | .task _ _ _ a => [(a.toNat, 1)]
  | .take _ _ a b => [(a.toNat, 1), (b.toNat, 1)]
  | .slclaim _ _ _ a => [(a.toNat, 1)]
  | .slrelFree _ _ a => [(a.toNat, 1)]
  | .slrelReset _ _ a => [(a.toNat, 1)]
  | .acclaim _ _ _ a => [(a.toNat, 1)]
  | .acrel _ _ a => [(a.toNat, 1)]
  | .mxlay _ _ a _ => [(a.toNat, 1)]
  | .mxloop _ _ _ _ a b _ => [(a.toNat, 1), (b.toNat, 1)]
  | .mxsc _ _ _ a b => [(a.toNat, 1), (b.toNat, 1)]
  | .mxz _ _ _ a => [(a.toNat, 1)]
  | .mxrd _ _ _ a b => [(a.toNat, 1), (b.toNat, 1)]
  | .mxwr _ _ a b => [(a.toNat, 1), (b.toNat, 1)]
  | .mxst _ _ _ a b => [(a.toNat, 1), (b.toNat, 1)]
  | .mxsp _ _ a b => [(a.toNat, 1), (b.toNat, 1)]
  | .mxcnt _ _ a => [(a.toNat, 1)]
  | .mxcntClr _ _ a => [(a.toNat, 1)]
  | .tsinit _ _ _ _ a _ => [(a.toNat, 1)]
  | .tsexp _ _ _ _ a _ => [(a.toNat, 1)]
  | .tsdesc _ _ _ a b => [(a.toNat, 1), (b.toNat, 1)]
  | .tsback _ _ _ a b => [(a.toNat, 1), (b.toNat, 1)]
  | .tsroot _ _ _ _ a b _ => [(a.toNat, 1), (b.toNat, 1)]
  | .tsfree _ _ _ _ a b _ => [(a.toNat, 1), (b.toNat, 1)]
  | .tsrd _ _ _ a b _ => [(a.toNat, 1), (b.toNat, 1)]
  | .tsstat _ _ _ a b _ => [(a.toNat, 1), (b.toNat, 1)]
  | .mvemit _ _ _ a => [(a.toNat, 8)]
  | .cover _ _ a b _ => [(a.toNat, 1), (b.toNat, 1)]
  | .seqtkHw _ _ _ a => [(a.toNat, 1)]
  | .seqtkCommit _ _ a => [(a.toNat, 1)]
  | .regionBind _ _ _ a b => [(a.toNat, 1), (b.toNat, 1)]
  | .regionXfer _ _ _ a b => [(a.toNat, 1), (b.toNat, 1)]
  | .smpl _ _ _ a b _ => [(a.toNat, 1), (b.toNat, 1)]
  | .trace _ _ _ _ a b => [(a.toNat, 4), (b.toNat, 1)]
  | .tresGo _ _ _ _ a b => [(a.toNat, 1), (b.toNat, 1)]
  | .tresHit _ _ _ _ a b => [(a.toNat, 1), (b.toNat, 1)]
  | .tresTmax _ _ _ _ a b => [(a.toNat, 1), (b.toNat, 1)]
  | .tvld _ _ _ a => [(a.toNat, 1)]
  | .tvst _ _ _ a => [(a.toNat, 1)]
  | .rpack _ _ _ a b => [(a.toNat, 1), (b.toNat, 1)]
  | .head .. | .voteAll .. | .voteAny .. | .plop .. | .ret .. | .exit .. | .yield .. | .nop .. | .brk .. | .bra ..
  | .call .. | .trap .. | .rett .. | .sys .. | .fence .. | .qbindNone .. | .qbindCmd .. | .qbindTok .. | .cbrel ..
  | .barArr .. | .barWait .. | .claim .. | .give .. | .hintPfs .. | .hintBlk .. | .hintUndefined .. | .courseEnd ..
  | .wordComplete .. | .ageOverride .. | .trapEntry .. | .groupFreed .. | .teamAdmission .. | .queueFrontTimeout ..
  | .rtWaitTimeout .. | .preemptionSave .. | .preemptionAbandon .. | .taskSplit .. | .handleUe .. | .claimServed ..
  | .claimVictim .. | .claimVictimRestore .. | .slotRequestServed .. | .pageWalk .. | .linkCrcRetry ..
  | .channelRetrain .. | .l2Scrub .. | .dataPoison .. | .ceCommandStart .. | .ceLineTransfer .. | .ceCommandEnd ..
  | .mxKstep .. | .tseServe .. | .tseBackupNode .. | .syeAccess .. | .monitorArm .. | .swapOut .. | .swapIn ..
  | .syeUnpin .. | .collMemberTimeout .. | .haloSnapshot .. | .haloDelivery .. | .sxbAccept .. | .sxbDeliver ..
  | .tvuNodeStep .. | .rduTokenPush .. | .hostPostedWrite .. | .ctxEnable .. | .ctxDisable .. | .pmodeWrite ..
  | .packageReset | .quotaWrite .. | .weightWrite .. | .flogtailWrite .. | .floglostClear .. | .registerWrite ..
  | .flitRetry .. | .relmerLaneFail .. | .relmerPortDown .. | .routeRewrite .. | .noRouteTimeout .. | .imageLoad ..
  | .spdmMeasurement | .powerCapSet .. | .islandClockChange .. | .thermalThrottle .. | .thermalTrip | .lifetimeFlush
  | .orderlyPowerDown | .lifetimeRead | .abruptPowerLoss | .voltageDroop .. | .peerDeviceAccess .. | .failureNotice ..
  | .hardwarePrefetch .. | .relmerRetrain .. | .homeSliceWrite .. | .collChunk .. => []

/-- Registers that the third operand names. -/
def thirdRun : Instr → Nat
  | .smpl .. | .trace .. | .tresGo .. | .tresHit .. | .tresTmax .. => 2
  | _ => 1

end Sys2Proof.Machine
end

