-- ==== Sys2Proof/Machine/Preempt.lean ====
section
/-!
DEFINITION. Sys2Proof/Machine/Preempt.lean: draining, pre-emption, save areas, swap-out and claim victims
(04 R124, R132, 05 R150 to R154, 09 R216, R223, R225, 12 R287, R308, R309, 15 R354, 18 R396).
-/

namespace Sys2Proof.Machine

/-! Draining and completion (R132). -/

/-- Whether a queue of a group still holds a whole command for the CE. -/
def cmdLeft (g : Group) : Bool := g.q.any fun q => q.2.bind = .cmd && q.2.elems.length ≥ 4

/-- Whether a group that has exited or been stopped has nothing outstanding left. -/
def drained (m : Mach) (gi : Nat) : Bool :=
  let g := m.grp gi
  let c := m.core g.die g.core
  gi < m.groups.length && g.live = 0 && !g.freed && g.trap.isNone && g.outst.isEmpty && g.tvJobs.isEmpty &&
    !c.ce.any (fun k => k.grp = gi) && !c.mx.any (fun o => o.grp = gi) && (g.stopped || !cmdLeft g) &&
    !((List.range 12).any fun d => (m.mc d).ts.any fun r => r.grp = gi) &&
    ((m.team g.team).place = .resident || g.stopped)

/-- A grid whose teams are all created and complete ends: state 3 (R121, R132). -/
def finishGrid (m : Mach) (gr : Nat) : Mach :=
  let x := m.grid gr
  if x.ended || x.killed || x.made < clusterCount x || !(teamsOf m gr).isEmpty then m
  else
    let m1 := (poolGive m x.part x.tail).setGrid gr { x with ended := true, tail := none }
    writeStatus m1 gr (statusWord 3 0 0)

/-- GROUP_FREED: a drained group is freed, its reservation kept while it may be read; the last one completes its team, and
the last team its grid (R132, 09 R216). -/
def freeGroup (m : Mach) (gi : Nat) : Mach :=
  if !drained m gi then m
  else
    let g := m.grp gi
    let x := m.grid g.grid
    let m1 := dropGroup m gi (x.lr.ordered && !x.hdr.syms.isEmpty)
    let t := m1.team g.team
    if t.groups.all fun i => (m1.grp i).freed then finishGrid (endTeam m1 g.team) g.grid else m1

def execGroupFreed (g : Nat) (s : State) : Host.Outcome State Fault Refusal := .next { s with m := freeGroup s.m g }

/-! When a team can be saved (05 R150). -/

/-- Whether an outstanding word does not hold a pre-emption back: a matrix loop, a traversal (a trace or tres, not a tvld or tvst), an
armed waitc, or a claim of slots or tiles not yet served (05 R150, 15 R354, 12 R287). -/
def mayStand (c : Core) (g : Group) (gi : Nat) (o : Outst) : Bool :=
  match o.wait with
  | .monitors _ => true
  | .tv => g.tvJobs.any fun j => j.id = o.id && j.q.isSome
  | .slots => c.reqs.any fun r => r.grp = gi && r.id = o.id
  | .mx => c.mx.any fun x => x.grp = gi && x.id = some o.id && isLoop x
  | _ => false

/-- Whether a group stands at its heads with nothing in flight that must complete first. -/
def groupQuiet (m : Mach) (gi : Nat) : Bool :=
  let g := m.grp gi
  let c := m.core g.die g.core
  g.freed || (g.trap.isNone && (g.voices.all fun v => !v.2.inside && v.2.pend.isNone) && (g.outst.all fun o => mayStand c g gi o) &&
    !(c.ce.any fun k => k.grp = gi) && (c.mx.all fun o => o.grp ≠ gi || isLoop o) &&
    !((List.range 12).any fun d => (m.mc d).ts.any fun r => r.grp = gi))
def teamQuiet (m : Mach) (ti : Nat) : Bool := (m.team ti).groups.all (groupQuiet m)

/-! The save area (R151 to R154, 12 R309). -/

/-- The matrix state of a team: what its save area holds, and what stands on its core with the team's tag; of a full area also the
bytes of slots that it has given up and that its loops still read, as FREE slots. -/
def takeOff (m : Mach) (full : Bool) (ti : Nat) : TeamSave :=
  let t := m.team ti
  let c := m.core t.die t.core
  let k := t.kept.getD default
  let loops := if t.kept.isSome then k.loops else c.mx.filter fun o => isLoop o && t.groups.contains o.grp
  let here := c.slots.filter fun s => s.2.team = ti
  let left := (List.range 64).filter fun n => full && (loops.any fun o => bitAt (loopMask o) n) && !(c.slots.any fun s => s.1 = n) &&
    !(k.slots.any fun s => s.1 = n)
  let slots := left.foldl (fun s n => Tbl.put s n { state := 0, team := ti, e := 0, f := 0 }) (here.foldl (fun s e => Tbl.put s e.1 e.2) k.slots)
  let store := (c.store.filter fun e => (here.any fun s => s.1 = e.1 / 16384) || left.contains (e.1 / 16384)).foldl (fun s e => Tbl.set 0 s e.1 e.2) k.store
  let tiles := (c.tiles.filter fun s => s.2 = ti + 1).map Prod.fst
  let acc := (c.acc.filter fun e => tiles.contains (e.1 / 16384)).foldl (fun s e => Tbl.set 0 s e.1 e.2) k.acc
  { k with slots := slots, store := store, tiles := sortBy (fun a b : Nat => a < b) (k.tiles ++ tiles), acc := acc, loops := loops }

/-- The matrix section of some teams. -/
def matrixBytes (m : Mach) (full : Bool) (ts : List Nat) : List Byte :=
  let ks := ts.map (takeOff m full)
  ks.flatMap (fun k => k.loops.flatMap fun o => wordBytes (loopWords m o)) ++
    ks.flatMap (fun k => k.slots.flatMap fun s => slotRecord full k.store s.1 s.2) ++
    ks.flatMap (fun k => k.tiles.flatMap fun n => tileRecord full k.acc n)

/-- Groups of some teams that are not freed. -/
def liveGroups (m : Mach) (ts : List Nat) : List Nat := (ts.flatMap fun t => (m.team t).groups).filter fun i => !(m.grp i).freed

/-- The traversal section of some groups: the state of every lane whose traversal is unfinished, as tvst stores it (R151). -/
def traceBytes (m : Mach) (gs : List Nat) : List Byte :=
  gs.flatMap fun i =>
    let g := m.grp i
    ((List.range g.width).filter fun l => (tvGet g l).status = 5).flatMap fun l => (tvGet g l).words.flatMap fun x => toBytes 4 x

/-- The features whose state an image of some groups of a grid holds, and of some teams (R154). -/
def featuresOf (m : Mach) (gr : Nat) (gs : List Nat) (ts : List Nat) : Nat :=
  let x := m.grid gr
  let ks := ts.map (takeOff m false)
  let has := fun (b : Bool) (n : Nat) => if b then 2 ^ n else 0
  has (ks.any fun k => !k.loops.isEmpty || !k.slots.isEmpty || !k.tiles.isEmpty) 0 + has (!x.hdr.syms.isEmpty) 1 +
    has (!(traceBytes m gs).isEmpty) 2 + has (x.lr.width = 3) 3 + has x.hdr.compat 4 +
    has (!ts.isEmpty && x.lr.spec && (m.part x.part).shadows.any fun s => ownShadow m gr s) 5 + has (ts.any fun t => !(m.team t).halos.isEmpty) 6 +
    has (ts.any fun t => !(m.team t).cbs.isEmpty) 7 + has (gs.any fun i => (m.grp i).inhandler) 8 + has (!ts.isEmpty && x.lr.chw * x.lr.chh > 1) 9

/-- The sections of an image of some teams: type, the bytes the model writes, length. Section 1 begins with a number by which
the device finds what the image holds (R153; DESIGN CHOICE, notes/assumptions/14.md). -/
def sectionsOf (m : Mach) (gr tag : Nat) (ts : List Nat) (full : Bool) : List (Nat × List Byte × Nat) :=
  let x := m.grid gr
  let gs := liveGroups m ts
  let mat := matrixBytes m full ts
  let tv := traceBytes m gs
  let opt := fun (b : Bool) (sec : Nat × List Byte × Nat) => if b then [sec] else []
  [(1, toBytes 8 tag, 8 + Config.sectionLen 1 gs.length), (2, [], Config.sectionLen 2 ts.length)] ++
    opt (!x.hdr.syms.isEmpty) (3, [], Config.sectionLen 3 ts.length) ++ opt (!mat.isEmpty) (4, mat, mat.length) ++
    opt (!tv.isEmpty) (5, tv, tv.length) ++ opt (!full) (6, [], Config.sectionLen 6 ts.length) ++ opt full (7, [], Config.sectionLen 7 ts.length)

/-- The bytes of an area: its header, then its sections in order. -/
def areaLen (secs : List (Nat × List Byte × Nat)) : Nat := 256 + (secs.map fun s => s.2.2).sum

/-- Sections with their offsets. -/
def placeSecs : Nat → List (Nat × List Byte × Nat) → List (Nat × Nat × List Byte × Nat)
  | _, [] => []
  | off, s :: ss => (off, s) :: placeSecs (off + s.2.2) ss

/-- The header's words from 0x00 on, without the size (R153). -/
def areaHeader (m : Mach) (gr features : Nat) (lazy : Bool) (secs : List (Nat × List Byte × Nat)) : List (Nat × Word) :=
  let x := m.grid gr
  let n := fun (v : Nat) => BitVec.ofNat 64 v
  [(0x00, n (2 ^ 32 + 0x5E170C70)), (0x08, n (boolNat lazy * 2 ^ 24 + x.hdr.isa * 2 ^ 16 + m.pk.rev * 2 ^ 8 + Config.family)),
    (0x10, n features), (0x20, x.recAddr), (0x28, 0), (0x30, n secs.length), (0x38, 0)] ++
    ((List.range secs.length).zip (placeSecs 256 secs)).flatMap fun e =>
      [(0x40 + 16 * e.1, n (e.2.2.1 * 2 ^ 56 + e.2.1)), (0x48 + 16 * e.1, n e.2.2.2.2)]

/-- A lazy area in the context pool: its run taken, its header with its size and its sections written; none when no run is long
enough (R153). -/
def poolWrite (m : Mach) (gr features : Nat) (secs : List (Nat × List Byte × Nat)) : Option (Mach × (Nat × Nat)) :=
  let p := (m.grid gr).part
  match poolTake m p (unitsOf (areaLen secs)) with
  | none => none
  | some (m1, run) =>
    let base := keyLocal p ((m.part p).poolbase.toNat + 65536 * run.1)
    let put := fun (m : Mach) (off : Nat) (bs : List Byte) => wrBytes (recallC1 m (base + off) bs.length) (base + off) bs
    let m2 := (areaHeader m gr features true secs).foldl (fun m w => put m w.1 (toBytes 8 w.2.toNat)) m1
    let m3 := put m2 0x18 (toBytes 8 (areaLen secs))
    some ((placeSecs 256 secs).foldl (fun m s => put m s.1 s.2.2.1) m3, run)

/-- The area of one team of the context pool. -/
def poolArea (m : Mach) (ti : Nat) : Option (Mach × (Nat × Nat)) :=
  let gr := (m.team ti).grid
  poolWrite m gr (featuresOf m gr (liveGroups m [ti]) [ti]) (sectionsOf m gr 0 [ti] false)

/-- A team leaves its core: its loops are kept with it, its claims of slots or tiles are withdrawn, and its slots and tiles stay in
place with its tag (R150, R151, 12 R287). -/
def leaveCore (m : Mach) (ti : Nat) (run : Option (Nat × Nat)) (place : Place) : Mach :=
  let t := m.team ti
  let c := m.core t.die t.core
  let mine := fun (gi : Nat) => t.groups.contains gi
  let reqs := (c.reqs.filter fun r => mine r.grp).filterMap fun r => (findOutst (m.grp r.grp) r.id).map fun o => (r, o)
  let k : TeamSave := { run := run, slots := [], store := [], tiles := [], acc := [], loops := c.mx.filter fun o => mine o.grp, reqs := reqs }
  let m1 := m.setCore t.die t.core { c with mx := c.mx.filter (fun o => !mine o.grp), reqs := c.reqs.filter fun r => !mine r.grp }
  let m2 := reqs.foldl (fun m q =>
    m.setGrp q.1.grp { lowerFlag (m.grp q.1.grp) q.2.flag with outst := (m.grp q.1.grp).outst.filter fun o => o.id ≠ q.2.id }) m1
  (t.groups.foldl dropPort m2).setTeam ti { t with place := place, stopping := none, kept := some k, idle := none }

/-- Whether a voice stands at a head whose wait names a counter that an outstanding waitc of its group holds. -/
def waitsOnMonitor (m : Mach) (gi : Nat) (v : Voice) : Bool :=
  let g := m.grp gi
  !v.inside && v.pend.isNone && (match fetchCourse m gi v with
    | .ok (h :: _) => g.outst.any fun o => match o.wait, o.flag with
        | .monitors _, some n => bitAt h n
        | _, _ => false
    | _ => false)

/-- Whether every voice of every group of a team that has not exited waits on a waitc, and no group drains or is in handler state
(18 R396). -/
def waitsOnly (m : Mach) (ti : Nat) : Bool :=
  let t := m.team ti
  (t.groups.any fun i => !(m.grp i).freed) &&
    t.groups.all fun i =>
      let g := m.grp i
      g.freed || (g.live ≠ 0 && !g.inhandler && g.trap.isNone && !g.voices.isEmpty && g.voices.all fun v => waitsOnMonitor m i v.2)

/-- PREEMPTION_SAVE: a quiet team that is being stopped is saved; one stopped for an RT team goes to the front of its queue; one
swapped out waits for a waitc, unless one has completed while it stopped (04 R124, R150, 18 R396). -/
def saveTeam (m : Mach) (ti : Nat) : Mach :=
  let t := m.team ti
  let pre := match t.stopping with | some 0 | some 1 => true | _ => false
  if !(pre && t.place = .resident && teamQuiet m ti) then m
  else
    match poolArea m ti with
    | none => m.setTeam ti { t with stopping := none }
    | some (m1, run) =>
      let life := m1.pk.life
      let m2 := if t.stopping = some 1 && waitsOnly m ti then leaveCore m1 ti (some run) .swapped
        else queueFront (leaveCore m1 ti (some run) .saved) ti
      let life1 := if t.stopping = some 1 then { life with swaps := countUp life.swaps t.die } else { life with preempts := countUp life.preempts t.die }
      { m2 with pk := { m2.pk with life := life1 } }

def execPreemptionSave (tm : Nat) (s : State) : Host.Outcome State Fault Refusal := .next { s with m := saveTeam s.m tm }

/-! Victims for an RT team (04 R124). -/

/-- Whether TNS teams are chosen before GFX teams on a core. -/
def tnsFirst (m : Mach) (p die core : Nat) : Bool :=
  let c := m.core die core
  let sum := fun (k : Nat) => ((List.range 4).map fun s => Tbl.get 0 c.issue (2 * s + k)).sum
  let w := (m.part p).weight
  decide (sum 0 * wb w 4 4 ≤ sum 1 * wb w 0 4)

/-- The order among victims: smaller first. -/
def victimKeys (m : Mach) (ti : Nat) : List Nat :=
  let t := m.team ti
  let x := m.grid t.grid
  let tf := tnsFirst m x.part t.die t.core
  let cls := match x.lr.cls with
    | 3 => 0
    | 2 => if tf then 1 else 2
    | _ => if tf then 2 else 1
  [cls, x.lr.prio, 2 ^ 32 - (t.groups.map fun i => (m.grp i).prog).foldl max 0, 2 ^ 64 - t.order]

/-- Two lists of keys in lexical order. -/
def keysLess : List Nat → List Nat → Bool
  | a :: as, b :: bs => a < b || (a = b && keysLess as bs)
  | _, _ => false

/-- The teams of a core that may be stopped for an RT team, in order. -/
def victims (m : Mach) (die core : Nat) : List Nat :=
  sortBy (fun a b => keysLess (victimKeys m a) (victimKeys m b))
    ((residentTeams m die core).filter fun t => (m.grid (m.team t).grid).lr.cls ≠ 0 && (m.team t).stopping.isNone)

/-- Whether an entry fits on a core without some teams. -/
def entFits (m : Mach) (e : QEnt) (die core : Nat) (absent : Nat → Bool) : Bool :=
  match e with
  | .team t => if (m.team t).place = .saved then fitsSaved m t die core absent else fitsWithout m (entGrid m e) die core absent
  | .grid g => fitsWithout m g die core absent

/-- Whether a team is being stopped for an RT team already. -/
def leaving (m : Mach) (t : Nat) : Bool := (m.team t).stopping = some 0

/-- As many victims, in order, as make room. -/
def enough (m : Mach) (e : QEnt) (die core : Nat) : List Nat → List Nat → Option (List Nat)
  | chosen, rest =>
    if entFits m e die core (fun t => leaving m t || chosen.contains t) then some chosen
    else
      match rest with
      | [] => none
      | v :: vs => enough m e die core (chosen ++ [v]) vs

/-- The RT entries of a die that have waited 20 us and fit nowhere, each with its partition, by partition and then from priority 7
down (their waits count as frontWait says, notes/assumptions/84.md). -/
def rtWaiting (m : Mach) (die : Nat) : List (Nat × QEnt) :=
  if !m.pk.has die then []
  else
    (partsOn m die).flatMap fun p => ((List.range 8).map fun i => 7 - i).filterMap fun q =>
      match frontOn m p q die with
      | some e => if frontWait m p q ≥ 20000 ∧ (planOf m p q die).isNone then some (p, e) else none
      | none => none

/-- The core on which stopping teams that are not RT makes room for a waiting RT entry, the lowest, and the victims to stop now. -/
def rtCore (m : Mach) (die p : Nat) (e : QEnt) : Option (Nat × List Nat) :=
  (List.range (coreCount die)).findSome? fun c =>
    if entFits m e die c (fun _ => false) || roomKept m p die c e then none
    else (enough m e die c [] (victims m die c)).map fun vs => (c, vs)

/-- Whether the pool has a free area for a team: no pre-emption begins without one (R150). -/
def canStop (m : Mach) (ti : Nat) : Bool :=
  (poolFind (m.part (m.grid (m.team ti).grid).part) (unitsOf (areaLen (sectionsOf m (m.team ti).grid 0 [ti] false)))).isSome

/-- The first waiting RT entry of a die for which a pre-emption can begin now, its core and the victims to stop; an entry that can be
helped nowhere, or whose victims are leaving already, holds up no other. -/
def rtChoice (m : Mach) (die : Nat) : Option (Nat × QEnt × Nat × List Nat) :=
  (rtWaiting m die).findSome? fun k => match rtCore m die k.1 k.2 with
    | some (c, vs) => if vs.any (canStop m) then some (k.1, k.2, c, vs) else none
    | none => none

/-- A pre-emption of a team begun; none begins when the pool has no free area for it (R150). -/
def stopTeam (kind : Nat) (m : Mach) (ti : Nat) : Mach :=
  if canStop m ti then m.setTeam ti { m.team ti with stopping := some kind, stopAt := m.time } else m

/-- The victims of a waiting RT entry stopped, and the room they leave kept for it (R124). -/
def stopForRt (m : Mach) (die : Nat) : Mach :=
  match rtChoice m die with
  | none => m
  | some (p, e, c, vs) =>
    let m1 := vs.foldl (stopTeam 0) m
    if vs.any fun v => leaving m1 v then
      m1.setPart p { m1.part p with rooms := Tbl.put (m1.part p).rooms (64 * die + c) e }
    else m1

/-- RT_WAIT_TIMEOUT (R124). -/
def execRtWaitTimeout (die : Nat) (s : State) : Host.Outcome State Fault Refusal :=
  .next { s with m := stopForRt s.m die }

/-- Whether a pre-emption has not become quiet within 10 us (R150). -/
def overdue (m : Mach) (ti : Nat) : Bool :=
  let t := m.team ti
  (t.stopping = some 0 || t.stopping = some 1) && t.place = .resident && !teamQuiet m ti && decide (m.time - t.stopAt ≥ 10000)

/-- PREEMPTION_ABANDON: the team runs on, and for an RT team the die takes the next victim; where there is none, the room of the
core is kept for the RT team no more (R150). -/
def abandon (m : Mach) (ti : Nat) : Mach :=
  if !overdue m ti then m
  else
    let t := m.team ti
    let p := (m.grid t.grid).part
    let next := if t.stopping = some 0 then (victims m t.die t.core).find? fun v => v ≠ ti else none
    let m1 := m.setTeam ti { t with stopping := none }
    match next with
    | some v => stopTeam 0 m1 v
    | none =>
      if (residentTeams m1 t.die t.core).any (leaving m1) then m1
      else m1.setPart p { m1.part p with rooms := (m1.part p).rooms.filter fun r => r.1 ≠ 64 * t.die + t.core }

def execPreemptionAbandon (tm : Nat) (s : State) : Host.Outcome State Fault Refusal := .next { s with m := abandon s.m tm }

/-! Swapping out (18 R396). -/

/-- The conditions of R396 that must have held without a break. -/
def swapReady (m : Mach) (ti : Nat) : Bool :=
  (m.team ti).place = .resident && (m.team ti).stopping.isNone && waitsOnly m ti

/-- The time T of a team in microseconds: the smallest nonzero SYSWAP of the SYEs that hold its monitors. -/
def swapTime (m : Mach) (ti : Nat) : Option Nat :=
  let t := m.team ti
  firstBy (fun a b : Nat => a < b) (((List.range 12).filter fun d =>
    (m.mc d).swap ≠ 0 && (m.mc d).mons.any fun k => t.groups.contains k.grp).map fun d => (m.mc d).swap.toNat)

/-- Since when each resident team has waited only in waitc. -/
def noteIdle (m : Mach) : Mach :=
  (List.range m.teams.length).foldl (fun m ti =>
    let t := m.team ti
    let on := (t.groups.any fun i => (m.grp i).outst.any fun o => match o.wait with | .monitors _ => true | _ => false) && swapReady m ti
    let idle := if on then some (t.idle.getD m.time) else none
    if idle = t.idle then m else m.setTeam ti { t with idle := idle }) m

/-- Whether a team has waited for its time T. -/
def swapDue (m : Mach) (ti : Nat) : Bool :=
  match (m.team ti).idle, swapTime m ti with
  | some t0, some us => swapReady m ti && decide (m.time - t0 ≥ 1000 * us)
  | _, _ => false

/-- SWAP_OUT: the pre-emption of a waiting team (R396). -/
def execSwapOut (tm : Nat) (s : State) : Host.Outcome State Fault Refusal :=
  .next { s with m := if swapDue s.m tm then saveTeam (stopTeam 1 s.m tm) tm else s.m }

/-- A waitc of a swapped-out team has completed. -/
def wakes (m : Mach) (ti : Nat) : Bool :=
  (m.team ti).place = .swapped && (m.team ti).groups.any fun i => (m.grp i).outst.any fun o => o.wait = .monitors 0

/-- SWAP_IN: the team goes to the front of its queue (R396). -/
def execSwapIn (tm : Nat) (s : State) : Host.Outcome State Fault Refusal :=
  .next { s with m := if wakes s.m tm then queueFront (s.m.setTeam tm { s.m.team tm with place := .saved }) tm else s.m }

/-! Register claims (09 R223, R225). -/

/-- Quarters of a core that are free. -/
def quartersFree (m : Mach) (die core : Nat) : Nat :=
  quarterCap (isGeo die) - ((residentGroups m die core).map fun i => quartersOf (m.grp i)).sum

/-- The count an outstanding claim of a group asks for. -/
def claimOf (g : Group) : Option (Outst × Nat) :=
  g.outst.findSome? fun o => match o.wait with | .claim n => some (o, n) | _ => none

/-- The claim that is served next, if its quarters are free. -/
def claimReady (m : Mach) (die core : Nat) : Option (Nat × Nat) :=
  match (m.core die core).claims.find? fun i => !(m.grp i).victim with
  | none => none
  | some i =>
    match claimOf (m.grp i) with
    | none => none
    | some (_, n) => if (n - (m.grp i).nv) * ((m.grp i).width / 8) ≤ quartersFree m die core then some (i, n) else none

/-- CLAIM_SERVED: the count rises, the new registers read zero, the word completes (R208, R223). -/
def serveClaim (m : Mach) (die core : Nat) : Mach :=
  match claimReady m die core with
  | none => m
  | some (i, n) =>
    let g := m.grp i
    let c := m.core die core
    let m1 := m.setCore die core { c with claims := c.claims.filter (· ≠ i) }
    let m2 := m1.setGrp i { g with nv := n, v := g.v.filter fun e => e.1 < 64 * g.nv }
    match claimOf g with
    | some (o, _) => performed m2 i o.id []
    | none => m2

def execClaimServed (die core : Nat) (s : State) : Host.Outcome State Fault Refusal := .next { s with m := serveClaim s.m die core }

/-- A group is blocked in claim: it has an outstanding claim, and each voice stands at a head that waits on it (R225). -/
def blockedInClaim (m : Mach) (gi : Nat) : Bool :=
  let g := m.grp gi
  match claimOf g with
  | none => false
  | some (o, _) =>
    g.live ≠ 0 && !g.inhandler && g.trap.isNone && g.voices.all fun v => !v.2.inside && v.2.pend.isNone && (match fetchCourse m gi v.2 with
      | .ok (h :: _) => (match o.flag with | some n => bitAt h n | none => false)
      | _ => false)

/-- The victim of a core on which every resident group is blocked in claim. -/
def claimVictim (m : Mach) (die core : Nat) : Option Nat :=
  let gs := (residentGroups m die core).filter fun i => !(m.grp i).victim
  if gs.isEmpty || !gs.all (blockedInClaim m) || (claimReady m die core).isSome then none
  else firstBy (fun a b => keysLess [2 ^ 32 - (m.grp a).prog, 64 - (m.grp a).resid] [2 ^ 32 - (m.grp b).prog, 64 - (m.grp b).resid]) gs

/-- The sections of a claim victim's area: its group section, and its stream section where the grid has streams (R225). -/
def victimSecs (m : Mach) (gi : Nat) : List (Nat × List Byte × Nat) :=
  (1, toBytes 8 0, 8 + Config.sectionLen 1 1) ::
    (if (m.grid (m.grp gi).grid).hdr.syms.isEmpty then [] else [(3, [], Config.sectionLen 3 1)])

/-- CLAIM_VICTIM: the victim saved alone into the pool, or its grid killed with CLAIM_LIMIT (R225). -/
def takeVictim (m : Mach) (die core : Nat) : Mach :=
  match claimVictim m die core with
  | none => m
  | some i =>
    let g := m.grp i
    match poolWrite m g.grid (featuresOf m g.grid [i] []) (victimSecs m i) with
    | some (m1, run) => m1.setGrp i { m1.grp i with victim := true, vrun := some run }
    | none => killFor m i 0x15 (BitVec.ofNat 64 ((claimOf g).map Prod.snd |>.getD 0))

def execClaimVictim (die core : Nat) (s : State) : Host.Outcome State Fault Refusal := .next { s with m := takeVictim s.m die core }

/-- A saved victim whose count fits, once no claim can be served: claims are served first (R225). Of several that fit, the one with the
lowest group index (DESIGN CHOICE, notes/assumptions/110.md). -/
def victimFits (m : Mach) (die core : Nat) : Option Nat :=
  if (claimReady m die core).isSome then none
  else (residentGroups m die core).find? fun i => (m.grp i).victim && decide ((m.grp i).nv * ((m.grp i).width / 8) ≤ quartersFree m die core)

/-- CLAIM_VICTIM_RESTORE (R225). -/
def restoreVictim (m : Mach) (die core : Nat) : Mach :=
  match victimFits m die core with
  | none => m
  | some i =>
    let g := m.grp i
    completeLatched ((poolGive m (m.grid g.grid).part g.vrun).setGrp i { g with victim := false, vrun := none }) i

def execClaimVictimRestore (die core : Nat) (s : State) : Host.Outcome State Fault Refusal :=
  .next { s with m := restoreVictim s.m die core }

end Sys2Proof.Machine
end

