-- ==== Sys2Proof/Machine/Launch.lean ====
section
/-!
DEFINITION. Sys2Proof/Machine/Launch.lean: the meanings of launch, task, take, claim and give (04 R125 to R128, 09 R222 to
R224).
-/

namespace Sys2Proof.Machine

/-- A launching word: the checks of the record, the release, the acceptance, and the word's completion after its status
(R126). The device makes the accesses, so a page of another die's region traps nothing. -/
def launchBody (range f : Bool) (c : Cx) (m : Mach) (va : Word) : Eff :=
  let w := whoEngine c.base c.gi c.g.die
  match judge [((lanesOf c.act).headD 0, va, checkRecord m w va.toNat)] with
  | .error (.cause t) => .trap { t with mask := c.act } c.base []
  | .error (.hold vas) => .stall { held := vas }
  | .ok _ =>
    if earlierHeld m c.gi then .stall {}
    else
    match c.longWait (flushC1 m c.g.die c.g.core) f .ready none with
    | .ok m1 =>
      match acceptLaunch m1 { who := w, task := range, rcp := false } va.toNat with
      | .ok r => .ok r.1
      | .error vas => .stall { held := vas }
    | e => e

/-- LAUNCH (R125, R126). -/
def execLaunch (x : Pre) (ch : Bool) (f : Bool) (a : BitVec 7) (s : State) : Host.Outcome State Fault Refusal :=
  qWord .mem x ch (some a.toNat) none always (fun c m va _ => launchBody false f c m va) s
/-- TASK (R125 to R127). -/
def execTask (x : Pre) (ch : Bool) (f : Bool) (a : BitVec 7) (s : State) : Host.Outcome State Fault Refusal :=
  qWord .mem x ch (some a.toNat) none always (fun c m va _ => launchBody true f c m va) s

/-- The next chunk of an interval: where it starts, its length, and the interval left (R128). -/
def nextChunk (grain f h : Nat) : Nat × Nat × Nat :=
  if f ≥ h then (h, 0, f) else (f, min grain (h - f), f + min grain (h - f))

/-- TAKE (R128). In a grid that is not a range task it is an error of the word itself, whatever Active is (DESIGN CHOICE,
notes/assumptions/85.md). -/
def execTake (x : Pre) (ch : Bool) (a b : BitVec 7) (s : State) : Host.Outcome State Fault Refusal :=
  qWord .ctl x ch (some a.toNat) (some b.toNat) (fun c => c.sNum 1 a.toNat ≠ c.sNum 2 b.toNat && c.grid.task) (fun c m _ _ =>
    let t := m.team c.g.team
    let k := nextChunk c.grid.lr.grain t.f t.h
    let m1 := m.setTeam c.g.team { t with f := k.2.2 }
    let g1 := writeScal (m1.grp c.gi) (c.sNum 1 a.toNat) (BitVec.ofNat 64 k.1)
    .ok (m1.setGrp c.gi (writeScal g1 (c.sNum 2 b.toNat) (BitVec.ofNat 64 k.2.1)))) s

/-! Registers claimed and given (09 R222 to R224). -/

/-- The members of a chain from its first word on, as decoded; an undecodable member ends the list. -/
def chainMembers : Nat → List Nat → List Instr
  | 0, _ => []
  | n + 1, ws =>
    match decodeWords ws with
    | .ok (i, rest) => if bitAt (ws.getD (ws.length - rest.length - 1) 0) 31 then i :: chainMembers n rest else [i]
    | .error _ => []

/-- The vector registers a word names: its fields, and the third operand of its prefix. -/
def vecsOf (i : Instr) : List (Nat × Nat) :=
  let c := match i.pre.c? with | some k => [(k, thirdRun i)] | none => []
  (fieldCodes i ++ c).filter fun e => e.1 < 0x60

/-- The vector registers that a word's indexed operands name in the lanes of a voice where its guard holds (R211, R222; DEDUCED,
notes/assumptions/92.md). -/
def indexNames (g : Group) (vm : Mask) (i : Instr) : List Nat :=
  (List.range 4).flatMap fun pos => match i.pre.indexed pos with
    | some (xn, off) => (lanesOf (vm &&& guardMask g i.pre)).map fun l => ((wb (Tbl.get 0 g.x (64 * xn + l)) 0 7 : Int) + off).toNat
    | none => []

/-- Whether a member of the issuing chain names a vector register at or beyond a count (R222). -/
def Cx.chainNames (c : Cx) (n : Nat) : Bool :=
  (chainMembers 5 (c.voice.code.drop c.first)).any fun i =>
    (vecsOf i).any (fun e => e.1 + e.2 > n) || (indexNames c.g c.vmask i).any fun r => decide (r ≥ n)

/-- The coping of the issuing course promotes into a register at or beyond a count. -/
def Cx.copingNames (c : Cx) (n : Nat) : Bool := (promotions c.voice.code).any fun p => p.2 ≥ n

/-- A count that claim and give accept (R222). -/
def countOk (n : Nat) : Bool := n % 8 = 0 && n ≥ 8

/-- CLAIM: CLAIM_LIMIT above 96 before the other rules; a count at or below the current one completes at once (R222, R223). -/
def execClaim (x : Pre) (ch : Bool) (f : Bool) (b : BitVec 7) (s : State) : Host.Outcome State Fault Refusal :=
  issue (some .mem) false x ch (fun c m =>
    let n := b.toNat
    if !c.kind0 false then c.illegal
    else if n > 96 then (if c.act = 0 then .ok m else c.raise .claimLimit (BitVec.ofNat 64 n) c.act)
    else if !countOk n then c.illegal
    else if c.act = 0 then .ok m
    else
      let g := m.grp c.gi
      if (claimOf g).isSome || c.chainNames (max n g.nv) then c.illegal
      else if n ≤ g.nv then c.longWait m f .ready none
      else
        match c.longWait m f (.claim n) none with
        | .ok m1 =>
          let k := m1.core g.die g.core
          .ok (m1.setCore g.die g.core { k with claims := k.claims ++ [c.gi] })
        | e => e) s

/-- GIVE: results that arrive later for a register given away are discarded (R222, R224). -/
def execGive (x : Pre) (ch : Bool) (b : BitVec 7) (s : State) : Host.Outcome State Fault Refusal :=
  issue (some .mem) false x ch (fun c m =>
    let n := b.toNat
    if !c.kind0 false || !countOk n then c.illegal
    else if c.act = 0 then .ok m
    else
      let g := m.grp c.gi
      let drops : Bool :=
        n < g.nv && (c.grid.hdr.syms.any (fun y => y.1 ≥ n) || c.copingNames n) || c.chainNames (min n g.nv)
      if (claimOf g).isSome || drops then c.illegal
      else if n ≥ g.nv then .ok m
      else
        .ok (m.setGrp c.gi
          { g with nv := n, v := g.v.filter fun e => e.1 < 64 * n,
                   outst := g.outst.map fun o => { o with cap := min o.cap n } })) s

/-- Whether a chain names a register that the outstanding claim of an interlocked group will bring: the chain waits for the
claim (R223). -/
def waitsForClaim (m : Mach) (gi : Nat) (v : Voice) : Bool :=
  let g := m.grp gi
  match claimOf g with
  | some (_, n) =>
    interlocked m g && (chainMembers 5 (v.code.drop v.word)).any fun i =>
      (vecsOf i).any (fun e => g.nv < e.1 + e.2 && decide (e.1 + e.2 ≤ n)) || (indexNames g v.mask i).any fun r => g.nv ≤ r && decide (r < n)
  | none => false

end Sys2Proof.Machine
end

