-- ==== Sys2Proof/Machine/Matrix.lean ====
section
/-!
DEFINITION. Sys2Proof/Machine/Matrix.lean: the matrix words of major 0x38, the engine order of a core and the events that serve
it: operand slots, accumulator tiles, layout records, K-step loops, sparsity, scales and tile stores (12 R283 to R307, 06 R177,
R178).
-/

namespace Sys2Proof.Machine

/-- Whether the formats of the two records fit a loop's format. -/
def fmtFits (fmt fa fb : Nat) : Bool :=
  match fmt with
  | 0 | 1 | 2 => fa = fmt && fb = fmt
  | 3 => (fa = 3 || fa = 5) && (fb = 3 || fb = 5)
  | _ => fa = 4 && fb = 4

/-- Whether an operand's cursor is aligned and every element is in the operand store, at every step. -/
def placed (l : List Word) (count steps : Nat) (inc : Int) : Bool :=
  let unit := match layBits l with | 16 => 2 | 8 => 1 | _ => 3
  (List.range steps).all fun s =>
    layCursor l s inc % unit = 0 &&
      (List.range count).all fun n => decide (0 ≤ elemBit l n s inc) && decide (elemBit l n s inc + layBits l ≤ 2 ^ 23)

/-- Whether a loop meets an ILLEGAL_COMBO check (R296). -/
def loopCombo (desc : Word) (fmt : Nat) (d : Loop) (la lb : List Word) (sp : Option (Word × Word)) : Bool :=
  wb desc 27 2 = 3 || !fmtFits fmt (layFmt la) (layFmt lb) || layBad la (d.m * d.ka) || layBad lb (d.n * d.kb) ||
    !placed la (d.m * d.ka) d.steps d.incA || !placed lb (d.n * d.kb) d.steps d.incB ||
    (d.sparse && ((fmt ≠ 0 && fmt ≠ 2) || (match sp with
      | none => true
      | some k => !((List.range d.steps).all fun s =>
          decide (0 ≤ metaAt k s) && decide (metaAt k s + d.m * metaRow d ≤ 2 ^ 20)))))

/-! Slots and tiles (R283 to R286). -/

/-- The slots of a mask, ascending. -/
def slotList (mask : Nat) : List Nat := (List.range 64).filter fun i => bitAt mask i

/-- The lowest slot that is not READY in a team. -/
def unreadySlot (m : Mach) (g : Group) (mask : Nat) : Option Nat :=
  (slotList mask).find? fun i => !((slotOf m g i).team = g.team && (slotOf m g i).state = 3)

/-- Whether a team holds a tile of its core. -/
def holdsTile (m : Mach) (g : Group) (n : Nat) : Bool := Tbl.get 0 (m.core g.die g.core).tiles n = g.team + 1

/-- TADDR of a tile that a team does not hold (R286). -/
def tileAddr (n : Nat) : Word := BitVec.ofNat 64 (0x100 + n)

/-- Bytes of a fill of a slot by its team performed in it (R284). F has no end (DEDUCED, notes/assumptions/15.md). -/
def filled (x : Slot) (team bytes : Nat) : Slot :=
  if x.team = team && (x.state = 1 || x.state = 2) then { x with f := x.f + bytes } else x

/-- Whether a group has pushed a tile-load aimed at a slot that the copy engine has not started (11 R268). -/
def queuedFill (g : Group) (n : Nat) : Bool :=
  g.q.any fun q => (List.range q.2.elems.length).any fun i =>
    (q.2.elems[i]?.map Prod.snd) = some .tile && wb (q.2.elems.getD (i + 2) (0, .data)).1 0 6 = n

/-- Whether a tile-load or mxst of a team aimed at a slot is outstanding: issued, or in a queue of the copy engine (R284). -/
def fillsOut (m : Mach) (die core team n : Nat) : Bool :=
  let c := m.core die core
  let mine := fun (gi : Nat) => (m.grp gi).team = team
  (c.ce.any fun k => k.slot = some n && mine k.grp) ||
    (c.mx.any fun o => mine o.grp && (match o.work with | .st _ _ _ _ k => bitAt k n | _ => false)) ||
    (m.team team).groups.any fun i => queuedFill (m.grp i) n

/-- A FILLING slot whose F has reached E with nothing of its team aimed at it outstanding becomes READY (R284). -/
def settleSlot (m : Mach) (die core n : Nat) : Mach :=
  let c := m.core die core
  let x := Tbl.get Slot.none c.slots n
  if x.state = 2 && decide (x.e ≤ x.f) && !fillsOut m die core x.team n then
    m.setCore die core { c with slots := Tbl.put c.slots n { x with state := 3 } }
  else m

/-! Issuing (R288 to R290). -/

/-- Matrix words run on shading cores, outside compatibility mode (R290, 04 R107, R134). -/
def Cx.mxCore (c : Cx) : Bool := !isGeo c.g.die && !compatG c.base c.g

/-- Whether the engine holds as many words as it takes (R288). -/
def Cx.mxFull (c : Cx) (m : Mach) : Bool := decide ((m.core c.g.die c.g.core).mx.length ≥ 32)

/-- A word put at the end of the engine order. -/
def pushMx (m : Mach) (g : Group) (o : MxOp) : Mach :=
  let c := m.core g.die g.core
  m.setCore g.die g.core { c with mx := c.mx ++ [o] }

/-- What a matrix word does: it waits while the engine is full, before any check (R288). -/
def mxBody (a b : Option Nat) (ok : Cx → Bool) (body : Cx → Mach → Word → Word → Eff) (c : Cx) (m : Mach) : Eff :=
  if c.act ≠ 0 && c.mxFull m then .stall {} else qBody a b (fun c => c.mxCore && ok c) body c m

/-- A matrix word issued on MEM. -/
def mxWord (x : Pre) (ch : Bool) (a b : Option Nat) (ok : Cx → Bool) (body : Cx → Mach → Word → Word → Eff) (s : State) :
    Host.Outcome State Fault Refusal :=
  issue (some .mem) false x ch (mxBody a b ok body) s

/-- A long-latency word joins the engine order. -/
def Cx.mxLong (c : Cx) (m : Mach) (flag : Option Nat) (dsts : List Nat) (work : MxWork) : Eff :=
  let id := (m.grp c.gi).nextId
  match c.long m flag [] dsts .mx with
  | .ok m1 => .ok (pushMx m1 c.g { grp := c.gi, id := some id, seq := id, work := work })
  | e => e

/-- A word that completes at issue joins the engine order. -/
def Cx.mxNow (c : Cx) (m : Mach) (work : MxWork) : Eff :=
  .ok (pushMx m c.g { grp := c.gi, id := none, seq := (m.grp c.gi).nextId, work := work })

/-- The lowest tile of a run that the team does not hold. -/
def missingTile (m : Mach) (g : Group) (first n : Nat) : Option Nat :=
  ((List.range n).map fun i => first + i).find? fun t => !holdsTile m g t

/-- A run of tiles that must be held, then what the word does. -/
def Cx.withTiles (c : Cx) (m : Mach) (first n : Nat) (k : Unit → Eff) : Eff :=
  match missingTile m c.g first n with
  | some t => c.raise .slotState (tileAddr t) c.act
  | none => k ()

/-- The first member and the length of a run operand; its other bits up to `top` are 0 (R291, R292, R303). -/
def runFirst (va : Word) : Nat := wb va 0 6
def runLength (va : Word) : Nat := wb va 8 6 + 1
def runBad (va : Word) : Bool := wb va 6 2 ≠ 0 || wb va 14 50 ≠ 0 || runFirst va + runLength va > 64

/-! Claims and releases (R291, R292). -/

/-- SLCLAIM: requested as one unit, served in issue order (R287). -/
def execSlclaim (x : Pre) (ch : Bool) (f : Bool) (a : BitVec 7) (s : State) : Host.Outcome State Fault Refusal :=
  mxWord x ch (some a.toNat) none always (fun c m va _ =>
    let e := wb va 16 11
    if wb va 6 2 ≠ 0 || wb va 14 2 ≠ 0 || wb va 27 37 ≠ 0 || runFirst va + runLength va > 64 || e = 0 || e > 1024 then c.illegal
    else
      match ((List.range (runLength va)).map fun i => runFirst va + i).find? fun i =>
          (slotOf m c.g i).team = c.g.team && (slotOf m c.g i).state ≠ 0 with
      | some i => c.raise .slotState (BitVec.ofNat 64 i) c.act
      | none =>
        let id := (m.grp c.gi).nextId
        match c.longWait m f .slots none with
        | .ok m1 =>
          let k := m1.core c.g.die c.g.core
          let r : SlotReq := { grp := c.gi, id := id, acc := false, first := runFirst va, n := runLength va, e := 16 * e }
          .ok (m1.setCore c.g.die c.g.core { k with reqs := k.reqs ++ [r] })
        | e => e) s

/-- A run of slots that the team must hold, each then changed at issue (R291). -/
def slotRun (f : Slot → Slot) (c : Cx) (m : Mach) (va _vb : Word) : Eff :=
  if runBad va then c.illegal
  else
    let run := (List.range (runLength va)).map fun i => runFirst va + i
    match run.find? fun i => !((slotOf m c.g i).team = c.g.team && (slotOf m c.g i).state ≠ 0) with
    | some i => c.raise .slotState (BitVec.ofNat 64 i) c.act
    | none => .ok (run.foldl (fun m i => setSlot m c.g i (f (slotOf m c.g i))) m)

/-- SLREL_FREE (R291). -/
def execSlrelFree (x : Pre) (ch : Bool) (a : BitVec 7) (s : State) : Host.Outcome State Fault Refusal :=
  mxWord x ch (some a.toNat) none always (slotRun fun _ => Slot.none) s
/-- SLREL_RESET (R291). -/
def execSlrelReset (x : Pre) (ch : Bool) (a : BitVec 7) (s : State) : Host.Outcome State Fault Refusal :=
  mxWord x ch (some a.toNat) none always (slotRun fun y => { y with state := 1, f := 0 }) s

/-- ACCLAIM (R292). -/
def execAcclaim (x : Pre) (ch : Bool) (f : Bool) (a : BitVec 7) (s : State) : Host.Outcome State Fault Refusal :=
  mxWord x ch (some a.toNat) none always (fun c m va _ =>
    if runBad va then c.illegal
    else
      match ((List.range (runLength va)).map fun i => runFirst va + i).find? fun t => holdsTile m c.g t with
      | some t => c.raise .slotState (tileAddr t) c.act
      | none =>
        let id := (m.grp c.gi).nextId
        match c.longWait m f .slots none with
        | .ok m1 =>
          let k := m1.core c.g.die c.g.core
          let r : SlotReq := { grp := c.gi, id := id, acc := true, first := runFirst va, n := runLength va, e := 0 }
          .ok (m1.setCore c.g.die c.g.core { k with reqs := k.reqs ++ [r] })
        | e => e) s

/-- ACREL: the team's hold ends at issue; the tiles are given on after the words before it in the engine order (R292). -/
def execAcrel (x : Pre) (ch : Bool) (a : BitVec 7) (s : State) : Host.Outcome State Fault Refusal :=
  mxWord x ch (some a.toNat) none always (fun c m va _ =>
    if runBad va then c.illegal
    else c.withTiles m (runFirst va) (runLength va) fun _ =>
      let k := m.core c.g.die c.g.core
      c.mxNow (m.setCore c.g.die c.g.core
        { k with tiles := k.tiles.filter fun e => e.1 < runFirst va || runFirst va + runLength va ≤ e.1 }) (.acrel va)) s

/-- Whether every member of a request can be given now: it is FREE or has the tag of a team that is not on the core, and no loop that
was to read it, a saved team's included, is unfinished (R285, R287). -/
def canServe (m : Mach) (die core : Nat) (r : SlotReq) : Bool :=
  let c := m.core die core
  (List.range r.n).all fun i =>
    let n := r.first + i
    if r.acc then
      !tileReleasing c n && (match c.tiles.find? fun e => e.1 = n with | some e => !teamStays m (e.2 - 1) | none => true)
    else
      !slotInUse c n && (match c.slots.find? fun e => e.1 = n with
        | some e => !teamStays m e.2.team
        | none => !((savedOn m die core).any fun t => (loopSlotsLeft m t).contains n))

/-- SLOT_REQUEST_SERVED: the oldest request of a core is served; what saved teams hold of its members is written out first (R286,
R287, R291, R292). -/
def serveSlots (m0 : Mach) (die core : Nat) : Mach :=
  match (m0.core die core).reqs with
  | [] => m0
  | r :: rest =>
    if !canServe m0 die core r then m0
    else
      let team := (m0.grp r.grp).team
      let run := (List.range r.n).map fun i => r.first + i
      let m := if r.acc then writeOut m0 die core none [] run else writeOut m0 die core none run []
      let c := m.core die core
      let c1 : Core :=
        if r.acc then
          { c with reqs := rest, tiles := run.foldl (fun t n => Tbl.put t n (team + 1)) c.tiles,
                   acc := c.acc.filter fun e => !run.contains (e.1 / 16384) }
        else
          { c with reqs := rest, slots := run.foldl (fun t n => Tbl.put t n { state := 1, team := team, e := r.e, f := 0 }) c.slots }
      performed (m.setCore die core c1) r.grp r.id []

def execSlotRequestServed (die core : Nat) (s : State) : Host.Outcome State Fault Refusal :=
  .next { s with m := serveSlots s.m die core }

/-! Layout, loops, scales and moves (R293 to R305). -/

/-- MXLAY: six scalars copied (R293). -/
def execMxlay (x : Pre) (ch : Bool) (a : BitVec 7) (n : BitVec 2) (s : State) : Host.Outcome State Fault Refusal :=
  mxWord x ch (some a.toNat) none (fun c => c.sNum 1 a.toNat + 5 < c.g.ns) (fun c m _ _ =>
    if c.scalarsBusy a.toNat 6 then .stall {}
    else
      let g := m.grp c.gi
      let ws := c.scalars m a.toNat 6
      .ok (m.setGrp c.gi { g with ly := (List.range 6).foldl (fun t i => Tbl.set 0 t (6 * n.toNat + i) (ws.getD i 0)) g.ly })) s

/-- A layout register's record. -/
def layOf (g : Group) (n : Nat) : List Word := (List.range 6).map fun i => Tbl.get 0 g.ly (6 * n + i)

/-- MXLOOP: the checks of R296 in their order, and its place in the engine order (R296, R299). -/
def execMxloop (x : Pre) (ch : Bool) (f : Bool) (q : BitVec 3) (a b : BitVec 7) (e : BitVec 3) (s : State) : Host.Outcome State Fault Refusal :=
  mxWord x ch (some a.toNat) (some b.toNat) (fun _ => e.toNat ≤ 4) (fun c m va vb =>
    let g := m.grp c.gi
    let d := loopOf va vb e.toNat
    let tok : Bool := wb va 30 1 = 1
    let la := layOf g (wb va 8 2)
    let lb := layOf g (wb va 10 2)
    let sp := if d.sparse then g.mxsp else none
    if wb va 31 33 ≠ 0 || wb va 12 4 ≠ 0 || wb va 6 2 ≠ 0 || d.steps = 0 || d.steps > 1024 || (!tok && q ≠ 0) then c.illegal
    else if loopCombo va e.toNat d la lb sp then c.raise .illegalCombo c.waddr c.act
    else if tok && (qGet g q.toNat).bind ≠ .eng 1 then c.raise .queueState (BitVec.ofNat 64 q.toNat) c.act
    else
      let slots := loopSlots d la lb sp
      match unreadySlot m g slots with
      | some i => c.raise .slotState (BitVec.ofNat 64 i) c.act
      | none =>
        if !holdsTile m g d.tile then c.raise .slotState (tileAddr d.tile) c.act
        else
          match c.mxLong m (c.flag f) [] (.loop va vb e.toNat q.toNat g.mxseq 0 la lb sp slots) with
          | .ok m1 =>
            let g1 := m1.grp c.gi
            .ok (m1.setGrp c.gi { g1 with mxseq := (g1.mxseq + 1) % 2 ^ 16, mxsp := if d.sparse then none else g1.mxsp })
          | r => r) s

/-- The checks of a scale record's address: MISALIGN, then PROT (R302). -/
def scaleAt (m : Mach) (team : Nat) (va : Word) : Except Cause Nat :=
  if va.toNat % 4 ≠ 0 then .error .misalign
  else if wb va 28 4 ≠ 15 || wb va 32 32 ≠ 0 || wb va 20 8 ≠ 0 || wb va 0 20 + 1024 > spadSize m team then .error .prot
  else .ok (wb va 0 20)

/-- MXSC (R302). -/
def execMxsc (x : Pre) (ch : Bool) (f : Bool) (a b : BitVec 7) (s : State) : Host.Outcome State Fault Refusal :=
  mxWord x ch (some a.toNat) (some b.toNat) always (fun c m va vb =>
    if wb va 6 2 ≠ 0 || wb va 14 2 ≠ 0 || wb va 18 46 ≠ 0 then c.illegal
    else if wb va 16 2 = 3 || wb va 0 6 = wb va 8 6 then c.raise .illegalCombo c.waddr c.act
    else
      match scaleAt m c.g.team vb with
      | .error k => c.raise k vb c.act
      | .ok _ =>
        match [wb va 0 6, wb va 8 6].find? fun t => !holdsTile m c.g t with
        | some t => c.raise .slotState (tileAddr t) c.act
        | none => c.mxLong m (c.flag f) [] (.sc va vb)) s

/-- MXZ (R303). -/
def execMxz (x : Pre) (ch : Bool) (f : Bool) (a : BitVec 7) (s : State) : Host.Outcome State Fault Refusal :=
  mxWord x ch (some a.toNat) none always (fun c m va _ =>
    if runBad va then c.illegal
    else c.withTiles m (runFirst va) (runLength va) fun _ => c.mxLong m (c.flag f) [] (.z va)) s

/-- A tile address operand: tile, row and an even column (R304). -/
def tileBad (va : Word) : Bool := wb va 6 2 ≠ 0 || wb va 15 1 ≠ 0 || wb va 23 41 ≠ 0 || wb va 16 1 = 1

/-- Field b names a vector register, through no extension. -/
def Cx.vecB (c : Cx) (b : Nat) : Bool := c.pre.ext 2 = 0 && (opdOf c.pre 2 b).isV && (opdOf c.pre 2 b).exists? c.g

/-- MXRD: the register is written when the word is performed (R304). -/
def execMxrd (x : Pre) (ch : Bool) (f : Bool) (a b : BitVec 7) (s : State) : Host.Outcome State Fault Refusal :=
  mxWord x ch (some a.toNat) none (fun c => c.vecB b.toNat) (fun c m va _ =>
    if tileBad va then c.illegal
    else c.withTiles m (wb va 0 6) 1 fun _ =>
      if busyReg c.base c.gi c.vi b.toNat then .stall {}
      else c.mxLong m (c.regFlag f) [b.toNat] (.rd va b.toNat c.lanes)) s

/-- MXWR: the register is read at issue, the tile written in engine order (R304). -/
def execMxwr (x : Pre) (ch : Bool) (a b : BitVec 7) (s : State) : Host.Outcome State Fault Refusal :=
  mxWord x ch (some a.toNat) none (fun c => c.vecB b.toNat) (fun c m va _ =>
    if tileBad va then c.illegal
    else c.withTiles m (wb va 0 6) 1 fun _ =>
      if busyReg c.base c.gi c.vi b.toNat then .stall {}
      else c.mxNow m (.wr va (c.lanes.map fun l => (l, vecVal m.fresh c.base c.gi b.toNat l)))) s

/-! Tile stores (R305, R306). -/

/-- The mask of the operand slots that a store's rows lie in. -/
def stSlots (t : TileSt) (vb : Word) : Nat :=
  (List.range t.rows).foldl (fun k i =>
    let p := wb vb 0 20 + i * t.stride
    addSlot (addSlot k (p / 2 ^ 14)) ((p + t.bytes - 1) / 2 ^ 14)) 0

/-- The prefix of mxst: kind 0 with rnd or sat, or kind 1 (R290). -/
def Cx.stPre (c : Cx) (a b : Nat) : Bool :=
  match c.pre with
  | .k0 _ _ cc _ _ su i f => cc = 0 && !su && i = 0 && !f
  | .none => true
  | _ => c.kind1 none (some a) (some b) false

/-- MXST (R305, R306). -/
def execMxst (x : Pre) (ch : Bool) (f : Bool) (a b : BitVec 7) (s : State) : Host.Outcome State Fault Refusal :=
  issue (some .mem) false x ch (fun c m =>
    if c.act ≠ 0 && c.mxFull m then .stall {}
    else if !(c.stPre a.toNat b.toNat && c.sOk 1 a.toNat && c.sOk 2 b.toNat && c.mxCore && c.pre.rnd ≤ 5) then c.illegal
    else if c.act = 0 then .ok m
    else
      match c.readS m 1 (some a.toNat), c.readS m 2 (some b.toNat) with
      | .ok va, .ok vb =>
        let t := tileSt va
        let k := m.core c.g.die c.g.core
        let slots := if t.toStore then stSlots t vb else 0
        if wb va 48 16 ≠ 0 || wb va 16 8 ≠ 0 || wb va 11 1 ≠ 0 || wb va 6 2 ≠ 0 || t.fmt > 4 || t.stride % 16 ≠ 0 then c.illegal
        else if wb va 8 2 = 3 || (t.toStore && ((List.range t.rows).any (fun i => wb vb 0 20 + i * t.stride + t.bytes > 2 ^ 20) ||
            (slotList slots).any (fun n => k.mx.any fun o => (m.grp o.grp).team = c.g.team && (match o.work with
              | .loop _ _ _ _ _ _ _ _ _ r => bitAt r n
              | _ => false)))) then c.raise .illegalCombo c.waddr c.act
        else if !t.toStore && vb.toNat % 16 ≠ 0 then c.raise .misalign vb c.act
        else
          match (if t.toStore then .ok [] else judge ((stUnits t vb).map fun u =>
              (0, BitVec.ofNat 64 u.1, checkVa m c.who .store 1 false u.1))) with
          | .error (.cause e) => .trap { e with mask := if e.cause = .sramUe then 0 else c.act } c.base []
          | .error (.hold vas) => .stall { held := vas }
          | .ok _ =>
            match (slotList slots).find? fun n => !fillable (slotOf m c.g n) c.g.team with
            | some n => c.raise .slotState (BitVec.ofNat 64 n) c.act
            | none =>
              c.withTiles m t.tile 1 fun _ =>
                let m1 := (slotList slots).foldl (fun m n => setSlot m c.g n { slotOf m c.g n with state := 2 }) m
                c.mxLong m1 (c.flag f) [] (.st va vb (rmOf c.g.mode c.pre.rnd) (c.pre.sat || wb c.g.mode 5 1 = 1) slots)
      | .error e, _ => e
      | _, .error e => e) s

/-- MXSP (R299). -/
def execMxsp (x : Pre) (ch : Bool) (a b : BitVec 7) (s : State) : Host.Outcome State Fault Refusal :=
  mxWord x ch (some a.toNat) (some b.toNat) always (fun c m va vb =>
    if wb va 20 44 ≠ 0 || wb vb 32 32 ≠ 0 then c.illegal
    else .ok (m.setGrp c.gi { m.grp c.gi with mxsp := some (va, vb) })) s

/-- The conflict count read, and cleared with .clr (R307). -/
def cntBody (clr : Bool) (a : Nat) (c : Cx) (m : Mach) (_va _vb : Word) : Eff :=
  let g := m.grp c.gi
  c.putS (if clr then m.setGrp c.gi { g with conflicts := 0 } else m) 1 a (BitVec.ofNat 64 g.conflicts)

/-- MXCNT (R307). -/
def execMxcnt (x : Pre) (ch : Bool) (a : BitVec 7) (s : State) : Host.Outcome State Fault Refusal :=
  issue (some .ctl) false x ch (mxBody (some a.toNat) none always (cntBody false a.toNat)) s
/-- MXCNT_CLR (R307). -/
def execMxcntClr (x : Pre) (ch : Bool) (a : BitVec 7) (s : State) : Host.Outcome State Fault Refusal :=
  issue (some .ctl) false x ch (mxBody (some a.toNat) none always (cntBody true a.toNat)) s

/-! The data effects, in engine order (R297, R302 to R305, 06 R177, R178). -/

/-- A tile element's key, its bits, and its value as FP32. -/
def accKey (t i j : Nat) : Nat := 16384 * t + 128 * i + j
def accGet (c : Core) (t i j : Nat) : Nat := (Tbl.get 0 c.acc (accKey t i j)).toNat
def accVal (c : Core) (t i j : Nat) : FVal := readF .f32 false (accGet c t i j)
def accPut (t : Tbl (BitVec 32)) (tile i j v : Nat) : Tbl (BitVec 32) := Tbl.set 0 t (accKey tile i j) (BitVec.ofNat 32 v)

/-- An element of an operand slot as a number: BF16, FP16, TF8 or TF6 (R297). -/
def slotVal (fmt bits : Nat) : FVal :=
  match fmt with
  | 0 => readF .bf16 false bits
  | 1 => readF .f16 false bits
  | 2 => readTF tf8 bits
  | _ => readTF tf6 bits

/-- The row of B's block that stored element k of a row of A multiplies (R300): its group's position field. -/
def sparseRow (st : Tbl Byte) (d : Loop) (sp : Word × Word) (s i k : Nat) : Nat :=
  4 * (k / 2) + storeBits st (8 * (metaAt sp s + i * metaRow d).toNat + 2 * k) 2
def bRow (st : Tbl Byte) (d : Loop) (sp : Option (Word × Word)) (s i k : Nat) : Nat :=
  match sp with
  | none => k
  | some p => sparseRow st d p s i k

/-- Whether the metadata of a step has a group whose positions do not rise (R301). -/
def metaErrAt (st : Tbl Byte) (d : Loop) (sp : Option (Word × Word)) (s : Nat) : Bool :=
  match sp with
  | none => false
  | some p => (List.range d.m).any fun i => (List.range (d.ka / 2)).any fun g =>
      sparseRow st d p s i (2 * g + 1) ≤ sparseRow st d p s i (2 * g)

/-- One output of a K-step (R297, 06 R177, R178). -/
def stepElem (c : Core) (d : Loop) (fmt : Nat) (la lb : List Word) (sp : Option (Word × Word)) (s i j : Nat) : Nat :=
  let ba := fun k => storeBits c.store (elemBit la (i * d.ka + k) s d.incA).toNat (layBits la)
  let bb := fun k => storeBits c.store (elemBit lb (j * d.kb + bRow c.store d sp s i k) s d.incB).toNat (layBits lb)
  let old := accGet c d.tile i j
  if fmt = 3 then
    let prod := fun k => readInt (layFmt la = 3) 8 (ba k) * readInt (layFmt lb = 3) 8 (bb k)
    wrap32 (((List.range d.ka).map prod).sum + old)
  else
    let prods := (List.range d.ka).map fun k => mulF (slotVal fmt (ba k)) (slotVal fmt (bb k))
    (fusedTerms .f32 .rne (if fmt ≤ 1 || s ≠ 0 then readF .f32 false old :: prods else prods)).1

/-- A K-step applied to its tile: the operands and the old tile are read before any element is written. -/
def stepAcc (c : Core) (d : Loop) (fmt : Nat) (la lb : List Word) (sp : Option (Word × Word)) (s : Nat) : Tbl (BitVec 32) :=
  (List.range d.m).foldl (fun t i => (List.range d.n).foldl (fun t j => accPut t d.tile i j (stepElem c d fmt la lb sp s i j)) t) c.acc

/-- Words of the operand store in order of first use: the mask of those seen, and the list, newest first. -/
def useWord (seen : Nat × List Nat) (w : Nat) : Nat × List Nat :=
  if bitAt seen.1 w then seen else (seen.1 ||| 2 ^ w, w :: seen.2)

/-- The distinct words that hold an operand's elements in a step, in order of logical index (R295). -/
def stepWords (l : List Word) (count s : Nat) (inc : Int) : List Nat :=
  (((List.range count).foldl (fun k n =>
    let b := (elemBit l n s inc).toNat
    useWord (useWord k (b / 32)) ((b + layBits l - 1) / 32)) (0, [])).2).reverse

/-- The conflicts of one beat: the words beyond the first in the bank most used. -/
def beatConflicts (ws : List Nat) : Nat :=
  ((List.range 32).map fun b => (ws.filter fun w => w % 32 = b).length).foldl max 1 - 1

/-- The conflicts of beats of 32 words, at most some beats. -/
def conflictsOf : Nat → List Nat → Nat
  | 0, _ => 0
  | n + 1, ws => if ws.isEmpty then 0 else beatConflicts (ws.take 32) + conflictsOf n (ws.drop 32)

/-- The conflicts of a K-step (R295). -/
def stepConflicts (d : Loop) (la lb : List Word) (s : Nat) : Nat :=
  conflictsOf 16384 (stepWords la (d.m * d.ka) s d.incA) + conflictsOf 16384 (stepWords lb (d.n * d.kb) s d.incB)

/-- A row of a tile as stored bytes (R305). -/
def rowBytes (c : Core) (t : TileSt) (rm : Nat) (sat : Bool) (i : Nat) : List Byte :=
  let one := fun j =>
    let bits := accGet c t.tile i j
    let x := readF .f32 false bits
    let env : FEnv := { rm := rm, sat := sat, fzi := false, fzo := false }
    match t.fmt with
    | 0 => bits
    | 1 => (writeF .bf16 env x).1
    | 2 => (writeF .f16 env x).1
    | 3 => (roundTF tf8 rm x).1
    | _ => (roundTF tf6 rm x).1
  if t.fmt = 4 then
    (List.range (t.cols / 4)).flatMap fun k => toBytes 3 (one (4 * k) + one (4 * k + 1) * 2 ^ 6 + one (4 * k + 2) * 2 ^ 12 + one (4 * k + 3) * 2 ^ 18)
  else (List.range t.cols).flatMap fun j => toBytes (stBits t.fmt / 8) (one j)

/-- Rows written into operand slots, each slot's fill counted (R284, R305). -/
def storeRows (m : Mach) (g : Group) (t : TileSt) (vb : Word) (rm : Nat) (sat : Bool) (slots : Nat) : Mach :=
  let c := m.core g.die g.core
  let rows := (List.range t.rows).map fun i => (wb vb 0 20 + i * t.stride, rowBytes c t rm sat i)
  let st := rows.foldl (fun st r => ((List.range t.bytes).zip r.2).foldl (fun st e => Tbl.set 0 st (r.1 + e.1) e.2) st) c.store
  let m1 := m.setCore g.die g.core { c with store := st }
  (slotList slots).foldl (fun m n =>
    let bytes := ((List.range t.rows).map fun i =>
      let p := wb vb 0 20 + i * t.stride
      min (p + t.bytes) (16384 * (n + 1)) - max p (16384 * n)).sum
    setSlot m g n (filled (slotOf m g n) g.team bytes)) m1

/-- How storing rows to memory ends. -/
inductive RowEnd where
  | done (m : Mach)
  /-- a translation failed after issue (R306) -/
  | failed (m : Mach) (cause : Cause) (addr : Word)
deriving DecidableEq, Repr

/-- Rows written to memory, in ascending order, a 16-byte unit at a time (R306). -/
def storeUnits (w : Who) (rows : Nat → List Byte) : List (Nat × Nat × Nat) → Mach → RowEnd
  | [], m => .done m
  | (va, i, k) :: rest, m =>
    match checkVa m w .store 1 false va with
    | .ok l => storeUnits w rows rest (putAt m w 16 (ofBytes (((rows i).drop k).take 16)) l)
    | .held => .done m
    | .ue => .failed m .sramUe 0
    | .bad e _ => .failed m e (BitVec.ofNat 64 va)

/-- The keys of a store's units: a line that they cover together loses its poison mark (10 R235). -/
def unitSpans (m : Mach) (w : Who) (us : List (Nat × Nat × Nat)) : List (Nat × Nat) :=
  us.filterMap fun u => match checkVa m w .store 1 false u.1 with
    | .ok (.mem key leaf) => if cohOf m leaf key = 0 then some (key, 16) else none
    | _ => none

/-- The oldest word of the engine order leaves it, its effect performed. -/
def mxDone (m : Mach) (die core : Nat) (o : MxOp) (wr : List RegWr) : Mach :=
  let c := m.core die core
  let m1 := m.setCore die core { c with mx := c.mx.drop 1 }
  match o.id with
  | some id => performed m1 o.grp id wr
  | none => m1

/-- The data of a core's tiles replaced. -/
def setAcc (m : Mach) (die core : Nat) (t : Tbl (BitVec 32)) : Mach := m.setCore die core { m.core die core with acc := t }

/-- A token pushed to a queue bound to an engine; none while the queue holds eight or is bound elsewhere (09 R212). -/
def pushToken (m : Mach) (gi q : Nat) (b : Bind) (w : Word) (o : Origin) : Option Mach :=
  let g := m.grp gi
  let x := qGet g q
  if x.bind = b && x.elems.length < 8 then some (m.setGrp gi (qSet g q { x with elems := x.elems ++ [(w, o)] })) else none

/-- The result token of a loop (R298). -/
def loopToken (status steps seq : Nat) : Word := BitVec.ofNat 64 (status * 2 ^ 56 + 2 ^ 48 + steps * 2 ^ 32 + seq)

/-- A loop ends: its token, if it asked for one, then its completion; without one a META failure kills the grid (R298). -/
def endLoop (m : Mach) (die core : Nat) (o : MxOp) (desc : Word) (q seq status steps : Nat) : Option Mach :=
  if wb desc 30 1 = 1 then
    (pushToken m o.grp q (.eng 1) (loopToken status steps seq) .mx).map fun m1 => mxDone m1 die core o []
  else if status = 0 then some (mxDone m die core o [])
  else some (killFor (mxDone m die core o []) o.grp 0x0B (BitVec.ofNat 64 steps))

/-- A loop advanced by one K-step, or ended. A loop that has completed reads no slot any more; it leaves the engine when its token is
pushed (R298, R301). -/
def runLoop (m : Mach) (die core : Nat) (o : MxOp) (desc inc : Word) (fmt q seq next : Nat) (la lb : List Word)
    (sp : Option (Word × Word)) (slots : Nat) : Option Mach :=
  let c := m.core die core
  let d := loopOf desc inc fmt
  let at' := fun (n k : Nat) => { o with work := .loop desc inc fmt q seq n la lb sp k }
  let finish := fun (m : Mach) (n status : Nat) => (endLoop m die core (at' n 0) desc q seq status n).getD m
  if slots = 0 || next ≥ d.steps then endLoop m die core o desc q seq (if next ≥ d.steps then 0 else 0x0B) next
  else if metaErrAt c.store d sp next then some (finish (m.setCore die core { c with mx := at' next 0 :: c.mx.drop 1 }) next 0x0B)
  else
    let last : Bool := next + 1 = d.steps
    let m1 := m.setCore die core
      { c with acc := stepAcc c d fmt la lb sp next, mx := at' (next + 1) (if last then 0 else slots) :: c.mx.drop 1 }
    let g := m1.grp o.grp
    let m2 := m1.setGrp o.grp { g with conflicts := min (2 ^ 48 - 1) (g.conflicts + stepConflicts d la lb next) }
    some (if last then finish m2 (next + 1) 0 else m2)

/-- The oldest word of the engine order performed, or a step of it. Scales in a poisoned line are an error of the team (10 R235; DEDUCED,
notes/assumptions/91.md). -/
def runMx (m : Mach) (die core : Nat) (o : MxOp) : Option Mach :=
  let c := m.core die core
  let g := m.grp o.grp
  match o.work with
  | .loop desc inc fmt q seq next la lb sp slots => runLoop m die core o desc inc fmt q seq next la lb sp slots
  | .sc a b =>
    if poisoned m (spadKey g.team (wb b 0 20)) 1024 then some (handleUE (mxDone m die core o []) g.team) else
    let sh := mxShape (wb a 16 2)
    let ta := wb a 0 6
    let tp := wb a 8 6
    let scale := fun n => readF .f32 false (ofBytes (spadBytes m g.team (wb b 0 20 + 4 * n) 4))
    let one := fun i j =>
      let t := readF .f32 false (mulRF .f32 .rne (scale i) (scale (128 + j))).1
      (fusedSum .f32 .rne (accVal c ta i j) [t] [accVal c tp i j]).1
    let acc := (List.range sh.1).foldl (fun t i => (List.range sh.2).foldl (fun t j => accPut t ta i j (one i j)) t) c.acc
    some (mxDone (setAcc m die core acc) die core o [])
  | .z a =>
    some (mxDone (setAcc m die core (c.acc.filter fun e => e.1 / 16384 < runFirst a || runFirst a + runLength a ≤ e.1 / 16384)) die core o [])
  | .rd a b lanes =>
    let val := fun l =>
      let j := (wb a 16 7 + 2 * l) % 128
      BitVec.ofNat 64 (accGet c (wb a 0 6) (wb a 8 7) (j + 1) * 2 ^ 32 + accGet c (wb a 0 6) (wb a 8 7) j)
    some (mxDone m die core o (lanes.map fun l => .vec b l (val l)))
  | .wr a vals =>
    let acc := vals.foldl (fun t e =>
      let j := (wb a 16 7 + 2 * e.1) % 128
      accPut (accPut t (wb a 0 6) (wb a 8 7) j (wb e.2 0 32)) (wb a 0 6) (wb a 8 7) (j + 1) (wb e.2 32 32)) c.acc
    some (mxDone (setAcc m die core acc) die core o [])
  | .st a b rm sat slots =>
    let t := tileSt a
    if t.toStore then some ((slotList slots).foldl (fun m n => settleSlot m die core n) (mxDone (storeRows m g t b rm sat slots) die core o []))
    else
      let w := whoGroup m o.grp
      let us := stUnits t b
      let held := (us.map Prod.fst).filter fun va => checkVa m w .store 1 false va = .held
      if us.any fun u => pageHeld m o.grp u.1 then none
      else if held ≠ [] then some (holdPages m w o.grp held)
      else
        match storeUnits w (rowBytes c t rm sat) us m with
        | .done m1 => some (mxDone (clearCovered m1 (unitSpans m w us)) die core o [])
        | .failed m1 e va => some (killFor (mxDone m1 die core o []) o.grp e.code va)
  | .acrel _ => some (mxDone m die core o [])

/-- Whether a loop at the head of the engine order stays where it is for the pre-emption of its team: no voice of the team is inside
a course, and no word of the team that is not a loop comes behind it (05 R150, R308). -/
def loopHeld (m : Mach) (o : MxOp) (rest : List MxOp) : Bool :=
  let ti := (m.grp o.grp).team
  isLoop o && (m.team ti).stopping.isSome && !(rest.any fun x => !isLoop x && (m.grp x.grp).team = ti) &&
    (m.team ti).groups.all fun i => (m.grp i).freed || ((m.grp i).trap.isNone && (m.grp i).voices.all fun v => !v.2.inside)

/-- What the engine of a core does next; none when it is idle, waits, holds a loop for a pre-emption, or a store
behind a fence (11 R259). -/
def mxNext (m : Mach) (die core : Nat) : Option Mach :=
  match (m.core die core).mx with
  | [] => none
  | o :: rest =>
    if loopHeld m o rest || ((match o.work with | .st .. => true | _ => false) && fenceBefore m o.grp o.seq) then none
    else runMx m die core o

/-- MX_KSTEP: the engine performs one K-step of a loop, or one other word, or pushes a loop's token. -/
def execMxKstep (die core : Nat) (s : State) : Host.Outcome State Fault Refusal :=
  .next { s with m := (mxNext s.m die core).getD s.m }

end Sys2Proof.Machine
end

