-- ==== Sys2Proof/Machine/Engine.lean ====
section
/-!
DEFINITION. Sys2Proof/Machine/Engine.lean: the copy engine of a core: the start of a command, the transfer of one of its
lines, and its end (10 R235, R248 to R251, 11 R263 to R266, R269, R273, 12 R284, R285).
-/

namespace Sys2Proof.Machine

/-! The fields of a record (R263, R264). -/

def ceOp (ws : List Word) : Nat := wb (ws.getD 0 0) 56 8
def ceTok (ws : List Word) : Bool := wb (ws.getD 0 0) 55 1 = 1
def ceRing (ws : List Word) : Bool := wb (ws.getD 0 0) 54 1 = 1
def ceCb (ws : List Word) : Bool := wb (ws.getD 0 0) 53 1 = 1
def ceSrcSp (ws : List Word) : Bool := wb (ws.getD 0 0) 52 1 = 1
def ceDstSp (ws : List Word) : Bool := wb (ws.getD 0 0) 51 1 = 1
def ceBob (ws : List Word) : Nat := wb (ws.getD 0 0) 32 16
def ceLen (ws : List Word) : Nat := wb (ws.getD 0 0) 0 32
def ceEsz (ws : List Word) : Nat := wb (ws.getD 3 0) 60 4
def ceRows (ws : List Word) : Nat := wb (ws.getD 3 0) 24 8 + 1
def ceRowB (ws : List Word) : Nat := 16 * (wb (ws.getD 3 0) 16 8 + 1)
def ceCol (ws : List Word) : Nat := wb (ws.getD 3 0) 8 8
def ceRow0 (ws : List Word) : Nat := wb (ws.getD 2 0) 8 7

/-- The buffer a command names. -/
def ceBuf (m : Mach) (team : Nat) (ws : List Word) : Option Cbuf := if ceCb ws then cbOf (m.team team) (wb (ws.getD 2 0) 0 2) else none

/-- An invalid record (R265). Word 3 of a copy or fill without ring is a reserved field. -/
def ceBad (m : Mach) (gi : Nat) (ws : List Word) : Bool :=
  let g := m.grp gi
  let w2 := ws.getD 2 0
  let w3 := ws.getD 3 0
  let op := ceOp ws
  let tile := op = 4
  op = 0 || op > 4 || (tile && isGeo g.die) || wb (ws.getD 0 0) 48 3 ≠ 0 || (ceRing ws && (ceCb ws || op = 2 || tile)) ||
    ((op = 1 || op = 3) && (ceLen ws % 8 ≠ 0 || (!ceRing ws && w3 ≠ 0))) ||
    (op = 2 && (ceEsz ws < 3 || ceEsz ws > 7 || ceLen ws % 2 ^ ceEsz ws ≠ 0 || wb w3 48 11 ≠ 0)) ||
    (tile && (ceDstSp ws || ceLen ws ≠ ceRows ws * ceRowB ws || ceRow0 ws + ceRows ws > 128 || 16 * ceCol ws + ceRowB ws > 128 ||
      wb w3 32 4 ≠ 0 || wb w3 0 8 ≠ 0 || (!ceCb ws && (wb w2 6 2 ≠ 0 || wb w2 15 49 ≠ 0)))) ||
    (ceCb ws && (wb w2 2 62 ≠ 0 || (match ceBuf m g.team ws with
      | none => true
      | some k => decide (k.kind ≠ tile) || decide (ceLen ws > (if k.kind then 16384 else 256 * k.ssz)))))

/-- The misaligned addresses of a record (R265). -/
def ceMisaligned (ws : List Word) : List Word :=
  let op := ceOp ws
  let a := fun (w : Word) (n : Nat) => if w.toNat % n ≠ 0 then [w] else []
  let w1 := ws.getD 1 0
  (if op = 1 || op = 2 then a w1 8 else if op = 4 then a w1 16 else []) ++
    (if op ≠ 4 && !ceCb ws then a (ws.getD 2 0) 8 else []) ++
    (if op = 2 then a (BitVec.ofNat 64 (wb (ws.getD 3 0) 0 48)) 4 else [])

/-- The scratchpad address of an offset of the own team (R97). -/
def ownSpad (off : Nat) : Word := BitVec.ofNat 64 (0xF * 2 ^ 28 + off)

/-- A barrier object is named, and it lies within the grant (R265). -/
def bobNamed (ws : List Word) : Bool := ceBob ws ≠ 0xFFFF
def bobInside (m : Mach) (team : Nat) (ws : List Word) : Bool := bobNamed ws && decide (16 * ceBob ws + 16 ≤ spadSize m team)

/-- What is wrong with a command at its start: status and address, the first check that fails (R265, R266). -/
def ceFaults (m : Mach) (gi : Nat) (ws : List Word) (slot : Option Nat) (counted : Bool) : List (Nat × Word) :=
  let g := m.grp gi
  if ceBad m gi ws then [(0x01, 0)]
  else if !(ceMisaligned ws).isEmpty then (ceMisaligned ws).map fun a => (0x07, a)
  else if bobNamed ws && !bobInside m g.team ws then [(0x09, ownSpad (16 * ceBob ws))]
  else
    match slot with
    | none => []
    | some n =>
      let x := slotOf m g n
      if x.team = g.team && (x.state = 1 || (x.state = 2 && (counted || !ceCb ws))) then [] else [(0x0A, BitVec.ofNat 64 n)]

/-- Whether a buffer's slot has been released by a group of a team whose earlier accesses are still held (R274). -/
def relHeld (m : Mach) (team n : Nat) : Bool :=
  (m.team team).groups.any fun i => (m.grp i).outst.any fun o => o.wait = .held (.cbrel n)

/-- Whether the copy engine may start commands of a group's queue: the group runs on its core, and the stores it issued are
performed (R265). -/
def ceReady (m : Mach) (gi q : Nat) : Bool :=
  let g := m.grp gi
  let t := m.team g.team
  gi < m.groups.length && !g.freed && !g.stopped && !g.victim && t.place = .resident && t.stopping.isNone &&
    (qGet g q).bind = .cmd && decide ((qGet g q).elems.length ≥ 4) && !storesHeld m gi

/-- The next command of a queue started; none while it waits in its place (R248, R250, R265, R273, 12 R285). -/
def ceStart (m : Mach) (gi q : Nat) : Option Mach :=
  let g := m.grp gi
  let x := qGet g q
  let ws := (x.elems.take 4).map Prod.fst
  let counted := match x.elems with | (_, .tile) :: _ => true | _ => false
  let buf := ceBuf m g.team ws
  let at' := (buf.map fun k => k.base + (if k.kind then k.fill else 256 * k.ssz * k.fill)).getD 0
  let bad := ceBad m gi ws
  let slot := if bad || ceOp ws ≠ 4 then none else some (if ceCb ws then at' else wb (ws.getD 2 0) 0 6)
  let c := m.core g.die g.core
  if !ceReady m gi q || (buf.any fun k => k.free = 0 || relHeld m g.team (wb (ws.getD 2 0) 0 2)) || (slot.any fun n => loopReads c n) then none
  else
    let faults := ceFaults m gi ws slot counted
    let dst := match slot with
      | some n => BitVec.ofNat 64 n
      | none => if buf.isSome then ownSpad at' else ws.getD 2 0
    let m1 := flushC1 (m.setGrp gi (qSet g q { x with elems := x.elems.drop 4 })) g.die g.core
    let m2 := match buf with
      | some k => setCb m1 g.team (wb (ws.getD 2 0) 0 2)
          { k with free := k.free - 1, fill := (k.fill + 1) % k.nslots, busy := k.busy ++ [(k.fill, false)] }
      | none => m1
    let takes := slot.isSome && faults.isEmpty && !counted
    let m3 := match slot with
      | some n => if takes then setSlot m2 g n { slotOf m2 g n with state := 2 } else m2
      | none => m2
    let cmd : CeCmd :=
      { grp := gi, w := ws, dst := dst, cb := buf.map fun k => (wb (ws.getD 2 0) 0 2, k.fill),
        slot := if takes then slot else if counted then some (wb (ws.getD 2 0) 0 6) else none, done := [], fail := faults,
        token := none }
    let c3 := m3.core g.die g.core
    some (m3.setCore g.die g.core { c3 with ce := c3.ce ++ [cmd] })

/-- CE_COMMAND_START. -/
def execCeCommandStart (g q : Nat) (s : State) : Host.Outcome State Fault Refusal := .next { s with m := (ceStart s.m g q).getD s.m }

/-! Lines (R248, R265). -/

/-- The lines of a command: the 128-byte lines its destination touches, or the rows of a tile-load. -/
def ceLines (c : CeCmd) : Nat :=
  if ceLen c.w = 0 then 0 else if ceOp c.w = 4 then ceRows c.w else (c.dst.toNat % 128 + ceLen c.w + 127) / 128

/-- The destination offsets of a line, from the command's first byte: where it begins and how many bytes it has. -/
def ceSpan (c : CeCmd) (k : Nat) : Nat × Nat :=
  if ceOp c.w = 4 then (k * ceRowB c.w, ceRowB c.w)
  else
    let r := c.dst.toNat % 128
    let lo := 128 * k - r
    (lo, min (ceLen c.w) (128 * (k + 1) - r) - lo)

/-- How a part of a line ends. -/
inductive CeStop where
  | held (va : Nat)
  | failed (status : Nat) (addr : Word)
  /-- poison met by a walk, or by a tile-load's read (R235) -/
  | ue
deriving DecidableEq, Repr, Inhabited

/-- The rights of a command's accesses: those of its group. -/
def ceWho (m : Mach) (c : CeCmd) : Who := whoGroup m c.grp

/-- The location of an access of the engine, checked as an access of the group (R265); a tile-load's source and a ring tag may not lie
in the register window (09 R219). -/
def ceLoc (m : Mach) (c : CeCmd) (sp window : Bool) (acc : Acc) (n : Nat) (va : Word) : Except CeStop Loc :=
  if !sp && pageHeld m c.grp va.toNat then .error (.held va.toNat)
  else
    match (if sp then checkSpad m (ceWho m c) n va.toNat else checkVa m (ceWho m c) acc n window va.toNat) with
    | .ok l => .ok l
    | .held => .error (.held va.toNat)
    | .ue => .error .ue
    | .bad .regionOwner _ => .error (.failed 0x09 va)
    | .bad k _ => .error (.failed k.code va)

/-- Eight source bytes for a destination offset: their value, whether they hold poison, and the locations read. -/
def ceSource (m : Mach) (c : CeCmd) (off : Nat) : Except CeStop (Nat × Bool × List Loc) :=
  let w := ceWho m c
  let w1 := c.w.getD 1 0
  let readAt := fun (va : Word) (poison : Bool) (ls : List Loc) =>
    match ceLoc m c (ceSrcSp c.w) true .load 8 va with
    | .error e => Except.error e
    | .ok l => .ok (seeNum m w 8 l, poison || seePoison m 8 l, l :: ls)
  match ceOp c.w with
  | 3 => .ok (w1.toNat, false, [])
  | 2 =>
    let es := 2 ^ ceEsz c.w
    let ia := BitVec.ofNat 64 (wb (c.w.getD 3 0) 0 48 + 4 * (off / es))
    match ceLoc m c (wb (c.w.getD 3 0) 59 1 = 1) true .load 4 ia with
    | .error e => .error e
    | .ok l =>
      if seePoison m 4 l then .ok (0, true, [l])
      else readAt (w1 + BitVec.ofNat 64 (seeNum m w 4 l * es + off % es)) false [l]
  | _ => readAt (w1 + BitVec.ofNat 64 off) false []

/-- Eight destination bytes at an offset. -/
def ceDest (m : Mach) (c : CeCmd) (off : Nat) : Except CeStop Loc :=
  ceLoc m c (ceDstSp c.w || c.cb.isSome) true .store 8 (c.dst + BitVec.ofNat 64 off)

/-- Sixteen source bytes of a tile-load, by row and place in the row. -/
def ceRow (m : Mach) (c : CeCmd) (row u : Nat) : Except CeStop Loc :=
  ceLoc m c (ceSrcSp c.w) false .load 16 (c.w.getD 1 0 + BitVec.ofNat 64 (row * wb (c.w.getD 3 0) 32 32 + 16 * u))

/-- One unit of eight bytes: where it goes, its value and its poison, and what was read. -/
structure CeUnit where
  dst : Loc
  val : Nat
  bad : Bool
  src : List Loc
deriving DecidableEq, Repr, Inhabited

/-- The units of a line; the first stop in order, a held page before all others. -/
def ceUnits (m : Mach) (c : CeCmd) : List Nat → Except CeStop (List CeUnit)
  | [] => .ok []
  | off :: rest =>
    match ceSource m c off, ceDest m c off, ceUnits m c rest with
    | .error (.held va), _, _ => .error (.held va)
    | _, .error (.held va), _ => .error (.held va)
    | _, _, .error (.held va) => .error (.held va)
    | .error e, _, _ => .error e
    | _, .error e, _ => .error e
    | _, _, .error e => .error e
    | .ok s, .ok l, .ok us => .ok ({ dst := l, val := s.1, bad := s.2.1, src := s.2.2 } :: us)

/-- The line a location's poison mark names; none for a register. -/
def markOf : Loc → Option Nat
  | .mem key _ => some (key / 128)
  | .spad t off => some (spadKey t off / 128)
  | .win .. => none

/-- What a command has written made visible at device scope (10 R249). -/
def ceShow (m : Mach) (w : Who) (us : List CeUnit) : Mach :=
  us.foldl (fun m u => match u.dst with
    | .mem key _ => flushC2 (flushC1In m (fun x => x.core = 64 * w.die + w.core) key 8) w.die w.core key 8
    | _ => m) m

/-- A line written as one: a whole line clears its mark, poisoned bytes set the marks of the lines they reach; registers that poison
reaches are one error of each team that holds some (R235, R248, 05 R149). -/
def cePut (m : Mach) (w : Who) (us : List CeUnit) : Mach :=
  let read := fun (m : Mach) (ls : List Loc) => let ps := ls.map fun l => (0, l); takeTurns (pinLocs m ps) w ps
  let m1 := us.foldl (fun m u => putAt (read m u.src) w 8 u.val u.dst) m
  let whole := if us.length = 16 then (us.head?.bind fun u => markOf u.dst).toList else []
  let marks := us.filterMap fun u => if u.bad then markOf u.dst else none
  let m2 := ceShow { m1 with poison := ((m1.poison.filter fun l => !whole.contains l) ++ marks).dedup } w us
  ((us.filterMap fun u => match u.bad, u.dst with
    | true, .win g _ _ _ => some (m.grp g).team
    | _, _ => none).dedup).foldl handleUE m2

/-- A barrier object lowered by some bytes (R249, R269). -/
def lowerBob (m : Mach) (team off n : Nat) : Mach :=
  let w := bobWord m team off
  let p := wb w 0 40
  let ovf := if n > p then 1 else wb w 62 1
  putBob m team off (BitVec.ofNat 64 (wb w 63 1 * 2 ^ 63 + ovf * 2 ^ 62 + (p - n)))

/-- The command at a place of a core, replaced. -/
def setCmd (m : Mach) (die core k : Nat) (c : CeCmd) : Mach :=
  let x := m.core die core
  m.setCore die core { x with ce := setAt x.ce k c }

/-- A line performed: its bytes counted at the barrier object. A tile-load whose last row it is ceases to be outstanding first, so
that its slot is READY when the object shows those bytes (R249, 13 R310). -/
def ceCount (m : Mach) (die core k line n : Nat) (c : CeCmd) : Mach :=
  let team := (m.grp c.grp).team
  let done := c.done ++ [line]
  let last := ceOp c.w = 4 && (List.range (ceRows c.w)).all fun l => done.contains l
  let m1 := setCmd m die core k { c with done := done, slot := if last then none else c.slot }
  let m2 := if last then settleSlot m1 die core c.dst.toNat else m1
  if bobNamed c.w then lowerBob m2 team (16 * ceBob c.w) n else m2

/-- The 16-byte units of a tile-load's row. -/
def rowUnits (m : Mach) (c : CeCmd) (row : Nat) : List Nat → Except CeStop (List (Nat × List Byte × List Loc))
  | [] => .ok []
  | u :: rest =>
    match ceRow m c row u, rowUnits m c row rest with
    | .error (.held va), _ => .error (.held va)
    | _, .error (.held va) => .error (.held va)
    | .error e, _ => .error e
    | .ok l, r =>
      if seePoison m 16 l then .error .ue
      else
        match r with
        | .error e => .error e
        | .ok us => .ok ((u, toBytes 16 (seeNum m (ceWho m c) 16 l), [l]) :: us)

/-- Some units of a row written to the slot. -/
def putRow (m : Mach) (die core : Nat) (c : CeCmd) (row : Nat) (us : List (Nat × List Byte × List Loc)) : Mach :=
  let m1 := us.foldl (fun m u => let ps := u.2.2.map fun l => (0, l); takeTurns (pinLocs m ps) (ceWho m c) ps) m
  let x := m1.core die core
  let base := 16384 * c.dst.toNat + 128 * (ceRow0 c.w + row) + 16 * ceCol c.w
  let put := fun (t : Tbl Byte) (u : Nat × List Byte × List Loc) =>
    ((List.range 16).zip u.2.1).foldl (fun t e => Tbl.set 0 t (base + 16 * u.1 + e.1) e.2) t
  m1.setCore die core { x with store := us.foldl put x.store }

/-- The row of a tile-load in a circular buffer's slot begins at row 0. -/
def ceRowNums (c : CeCmd) : List Nat := List.range (ceRowB c.w / 16)

/-- What fails in a line: status and address of each part. -/
def ceLineFails (m : Mach) (c : CeCmd) (line : Nat) : List (Nat × Word) :=
  let one := fun {α : Type} (e : Except CeStop α) => match e with | .error (.failed st a) => [(st, a)] | _ => []
  if ceOp c.w = 4 then (ceRowNums c).flatMap fun u => one (ceRow m c line u)
  else
    (List.range ((ceSpan c line).2 / 8)).flatMap fun i =>
      one (ceSource m c ((ceSpan c line).1 + 8 * i)) ++ one (ceDest m c ((ceSpan c line).1 + 8 * i))

/-- A line that is held or failed: with a failure the command stops, having found what fails in its other lines too, so that it can
report the lowest address (R265, R266). -/
def ceFail (m : Mach) (die core k : Nat) (c : CeCmd) : CeStop → Option Mach
  | .held va => if pageHeld m c.grp va then none else some (holdPages m (ceWho m c) c.grp [va])
  | .ue => some (killFor m c.grp 0x11 0)
  | .failed st a =>
    let more := if st = 0x0A then [] else ((List.range (ceLines c)).filter fun l => !c.done.contains l).flatMap (ceLineFails m c)
    some (setCmd m die core k { c with fail := c.fail ++ (st, a) :: more })

/-- One line of a command performed or failed; none while it is held or when there is no such line left (R248, R265). -/
def ceLine (m : Mach) (die core k line : Nat) : Option Mach :=
  match (m.core die core).ce[k]? with
  | none => none
  | some c =>
    let w := ceWho m c
    let (lo, n) := ceSpan c line
    if line ≥ ceLines c || c.done.contains line || c.token.isSome || c.fail.any (fun f => f.1 = 0x01 || f.1 = 0x07 || f.1 = 0x0A) then none
    else if bobNamed c.w && !bobInside m w.team c.w then none
    else if ceOp c.w = 4 then
      let g := m.grp c.grp
      let slot := c.dst.toNat
      if !fillable (slotOf m g slot) g.team then ceFail m die core k c (.failed 0x0A c.dst)
      else
        match rowUnits m c line (ceRowNums c) with
        | .error e => ceFail m die core k c e
        | .ok us =>
          let m1 := putRow m die core c line us
          let x := slotOf m1 g slot
          some (ceCount (setSlot m1 g slot (filled x g.team n)) die core k line n c)
    else
      match ceUnits m c ((List.range (n / 8)).map fun i => lo + 8 * i) with
      | .error e => ceFail m die core k c e
      | .ok us => some (ceCount (cePut m w us) die core k line n c)

/-- CE_LINE_TRANSFER. -/
def execCeLineTransfer (die core k line : Nat) (s : State) : Host.Outcome State Fault Refusal :=
  .next { s with m := (ceLine s.m die core k line).getD s.m }

/-- A line that may be transferred next, by a free choice among those left (R248). -/
def ceNextLine (m : Mach) (c : CeCmd) : Option Nat :=
  let n := ceLines c
  let first := (Config.freeWord m.fresh 0).toNat % max 1 n
  if !c.fail.isEmpty || c.token.isSome then none
  else ((List.range n).map fun i => (first + i) % n).find? fun l => !c.done.contains l

/-! The end (R249 to R251, R266, R269, R273, 12 R284). -/

/-- The tag of a ring's slot moved from FILLING to FULL, a release at device scope: held, failed, or done (R251). -/
def ceTag (m : Mach) (w : Who) (c : CeCmd) : Except CeStop Mach :=
  match ceLoc m c false false .atomic 1 (c.w.getD 3 0) with
  | .error e => .error e
  | .ok l =>
    let (m1, loc) := atomLoc (flushC1 (pinLocs m [(0, l)]) w.die w.core) w 3 1 l
    let aw := atomWho m1 w 3
    if !seePoison m1 1 loc && seeNum m1 aw 1 loc = 1 then .ok (doAtomic m1 w 3 1 2 loc) else .ok m1

/-- The status of a command: that of the lowest failing address the engine found (R266). -/
def ceStatus (c : CeCmd) : Nat × Word := (firstBy (fun a b => a.2.toNat % 2 ^ 48 < b.2.toNat % 2 ^ 48) c.fail).getD (0, 0)

/-- Its token (R266). -/
def ceToken (c : CeCmd) : Word :=
  let st := ceStatus c
  BitVec.ofNat 64 (st.1 * 2 ^ 56 + ceOp c.w * 2 ^ 48 + st.2.toNat % 2 ^ 48)

/-- The slot of a circular buffer completed; the filled counter advances over the completed slots that come first (R250). -/
def advanceBuf : List (Nat × Bool) → List (Nat × Bool) × Nat
  | (_, true) :: rest => let r := advanceBuf rest; (r.1, r.2 + 1)
  | rest => (rest, 0)
def cbComplete (m : Mach) (team n slot : Nat) : Mach :=
  match cbOf (m.team team) n with
  | none => m
  | some k =>
    let r := advanceBuf (k.busy.map fun b => if b.1 = slot then (b.1, true) else b)
    setCb m team n { k with busy := r.1, filled := k.filled + r.2 }

/-- The fault of a failed command set in its barrier object (R266, R269). -/
def faultBob (m : Mach) (team off : Nat) (c : CeCmd) : Mach :=
  let w := bobWord m team off
  if wb w 63 1 = 1 then m
  else
    let st := ceStatus c
    putBob (setBob m team (off + 8) (BitVec.ofNat 64 (st.1 * 2 ^ 56 + st.2.toNat % 2 ^ 48))) team off
      (BitVec.ofNat 64 (2 ^ 63 + wb w 62 1 * 2 ^ 62 + wb w 0 40))

/-- What a failed fill leaves in the rows it did not perform: old or new bytes, unit by unit (12 R284). -/
def strayRows (m : Mach) (die core : Nat) (c : CeCmd) : Mach :=
  let g := m.grp c.grp
  if !fillable (slotOf m g c.dst.toNat) g.team then m
  else
    ((List.range (ceLines c)).filter fun r => !c.done.contains r).foldl (fun m r =>
      (ceRowNums c).foldl (fun m u =>
        if Config.freeBit m.fresh (2 ^ 20 * r + u) then
          match rowUnits m c r [u] with
          | .ok us => putRow m die core c r us
          | .error _ => m
        else m) m) m

/-- The command once its slot is none: a tile-load that has ceased to be outstanding (12 R284). -/
def CeCmd.over (c : CeCmd) : CeCmd := { c with slot := none }

/-- Everything a command's end does before its token. A tile-load ceases to be outstanding before its buffer's slot completes
(13 R310). A fill that failed leaves its slot FILLING; one that never took its slot lets the slot's other fills be seen (12 R284; DEDUCED,
notes/assumptions/112.md). -/
def ceClose (m : Mach) (die core k : Nat) (c : CeCmd) : Mach :=
  let g := m.grp c.grp
  let tileFails := c.fail.all fun f => f.1 ≠ 0x01 && f.1 ≠ 0x07
  let m1 := if ceOp c.w = 4 && !c.fail.isEmpty && tileFails && c.slot.isSome then strayRows m die core c else m
  let m2 := setCmd (if !c.fail.isEmpty && bobInside m g.team c.w then faultBob m1 g.team (16 * ceBob c.w) c else m1) die core k c.over
  let m3 := match c.slot with
    | some n => if c.fail.all fun f => [0x01, 0x07, 0x0A].contains f.1 then settleSlot m2 die core n else m2
    | none => m2
  match c.cb with
  | some (n, slot) => cbComplete m3 g.team n slot
  | none => m3

/-- The token queue of a group. -/
def ceTokQueue (g : Group) : Option Nat := (List.range 8).find? fun q => (qGet g q).bind = .tok

/-- A command that has ended leaves the engine: with its token where one is due, else with the death of its grid when it failed
and names no barrier object; while its token has no room it stays (R266). -/
def ceLeave (m : Mach) (die core k : Nat) (c : CeCmd) : Mach :=
  let x := m.core die core
  let m1 := m.setCore die core { x with ce := x.ce.eraseIdx k }
  match (if ceTok c.w then ceTokQueue (m.grp c.grp) else none) with
  | some q => (pushToken m1 c.grp q .tok (ceToken c) .ce).getD (setCmd m die core k { c with token := some (ceToken c) })
  | none =>
    let st := ceStatus c
    if st.1 ≠ 0 && !bobInside m (m.grp c.grp).team c.w then killFor m1 c.grp st.1 (BitVec.ofNat 64 (st.2.toNat % 2 ^ 48)) else m1

/-- Whether every byte of a command was performed. -/
def ceWhole (c : CeCmd) : Bool := c.fail.isEmpty && (List.range (ceLines c)).all fun l => c.done.contains l

/-- A command ended; none while lines are left, while its tag is held, or while its token has no room. -/
def ceEnd (m : Mach) (die core k : Nat) : Option Mach :=
  match (m.core die core).ce[k]? with
  | none => none
  | some c =>
    let g := m.grp c.grp
    if c.token.isSome then
      match ceTokQueue g with
      | some q => if (qGet g q).elems.length < 8 then some (ceLeave m die core k c) else none
      | none => some (ceLeave m die core k c)
    else if ceWhole c && ceRing c.w then
      match ceTag m (ceWho m c) c with
      | .error (.held va) => if pageHeld m c.grp va then none else some (holdPages m (ceWho m c) c.grp [va])
      | .error .ue => some (killFor m c.grp 0x11 0)
      | .error (.failed st a) =>
        let c1 := { c with fail := [(st, a)] }
        some (ceLeave (ceClose (setCmd m die core k c1) die core k c1) die core k c1.over)
      | .ok m1 => some (ceLeave (ceClose m1 die core k c) die core k c.over)
    else if ceWhole c || !c.fail.isEmpty then some (ceLeave (ceClose m die core k c) die core k c.over)
    else none

/-- CE_COMMAND_END. -/
def execCeCommandEnd (die core k : Nat) (s : State) : Host.Outcome State Fault Refusal := .next { s with m := (ceEnd s.m die core k).getD s.m }

end Sys2Proof.Machine
end

