-- ==== Sys2Proof/Machine/Halo.lean ====
section
/-!
DEFINITION. Sys2Proof/Machine/Halo.lean: the meanings of halo and of its two events: declared tiles, releases, waits and
drops (14 R333 to R339).
-/

namespace Sys2Proof.Machine

/-! The descriptor (R334). -/

def hBase (d : List Word) : Nat := wb (d.getD 0 0) 0 48
def hLines (d : List Word) : Nat := wb (d.getD 1 0) 48 8
def hRows (d : List Word) : Nat := wb (d.getD 1 0) 32 16
def hPitch (d : List Word) : Nat := wb (d.getD 1 0) 0 32
def hHandle (d : List Word) : Nat := wb (d.getD 3 0) 0 3

/-- Reserved fields are 0 and every value is in range; no neighbour is the team itself. -/
def haloFields (d : List Word) (rank : Nat) : Bool :=
  wb (d.getD 0 0) 48 16 = 0 && wb (d.getD 1 0) 56 8 = 0 && wb (d.getD 2 0) 32 32 = 0 && wb (d.getD 3 0) 3 61 = 0 &&
    1 ≤ hLines d && hLines d ≤ 64 && 1 ≤ hRows d && hRows d ≤ 4096 && hPitch d % 128 = 0 && 128 * hLines d ≤ hPitch d &&
    wb (d.getD 2 0) 8 8 ≤ hLines d && wb (d.getD 2 0) 0 8 ≤ hRows d &&
    (List.range 4).all fun k => (haloRank d k ≤ 11 || haloRank d k = 15) && haloRank d k ≠ rank

/-- The virtual addresses of the lines of a strip: 0 north, 1 south, 2 west, 3 east. -/
def stripLines (d : List Word) (dir : Nat) : List Nat :=
  let hl := wb (d.getD 2 0) 8 8
  let hr := wb (d.getD 2 0) 0 8
  let inStrip := fun (r c : Nat) => match dir with
    | 0 => decide (r < hr)
    | 1 => decide (hRows d ≤ r + hr)
    | 2 => decide (c < hl)
    | _ => decide (hLines d ≤ c + hl)
  (List.range (hRows d)).flatMap fun r => (List.range (hLines d)).filterMap fun c =>
    if inStrip r c then some (hBase d + r * hPitch d + 128 * c) else none

/-- The directions a descriptor names a neighbour in, with a strip to push. -/
def haloDirs (d : List Word) : List Nat := (List.range 4).filter fun k => haloRank d k ≠ 15 && !(stripLines d k).isEmpty

/-- The opposite direction. -/
def oppDir (k : Nat) : Nat := match k with | 0 => 1 | 1 => 0 | 2 => 3 | _ => 2

/-- The first byte of each page that a tile touches. -/
def tilePages (d : List Word) : List Nat :=
  ((List.range (hRows d)).flatMap fun r =>
    let a := hBase d + r * hPitch d
    [a / 2 ^ 16, (a + 128 * hLines d - 1) / 2 ^ 16]).dedup.map (· * 2 ^ 16)

/-- Whether two tiles overlap. -/
def tilesMeet (a b : List Word) : Bool :=
  (List.range (hRows a)).any fun i => (List.range (hRows b)).any fun j =>
    let x := hBase a + i * hPitch a
    let y := hBase b + j * hPitch b
    x < y + 128 * hLines b && y < x + 128 * hLines a

/-- The directions in which the neighbours of a tile hold, or are about to pin, a replica of its strip. -/
def pinnedDirs (h : Halo) : List Nat := if h.filled then h.repl.map Prod.fst else haloDirs h.desc

/-- The lines of replicas that a core holds: the strips of tiles whose neighbour runs on it. -/
def replicaLines (m : Mach) (die core : Nat) : Nat :=
  ((List.range m.teams.length).map fun u =>
    ((m.team u).halos.map fun h =>
      ((pinnedDirs h.2).map fun k => match haloMate m u h.2.desc k with
        | some t => if (m.team t).die = die ∧ (m.team t).core = core then (stripLines h.2.desc k).length else 0
        | none => 0).sum).sum).sum

/-- The scratchpad part of a core, in 64 KiB steps (10 R226), and the bytes of its array. -/
def splitOn (m : Mach) (die core : Nat) : Nat :=
  ((List.range m.teams.length).filterMap fun t =>
    let x := m.team t
    if x.place = .resident ∧ x.die = die ∧ x.core = core then some (m.grid x.grid).lr.split else none).foldl max 0
def arrayBytes (die : Nat) : Nat := if isGeo die then 2 ^ 19 else 2 ^ 20

/-- Whether a neighbour's core has room for more replica lines (R335). -/
def replicaFits (m : Mach) (t more : Nat) : Bool :=
  let x := m.team t
  let bytes := 128 * (replicaLines m x.die x.core + more)
  bytes ≤ 2 ^ 18 && bytes + 2 ^ 16 ≤ arrayBytes x.die - 2 ^ 16 * splitOn m x.die x.core

/-- The physical lines of a strip, and its bytes at the level-2 cache. -/
def stripKeys (m : Mach) (w : Who) (d : List Word) (dir : Nat) : List Nat :=
  (stripLines d dir).filterMap fun va => match checkVa m { w with spec := false } .load 1 false va with
    | .ok (.mem key _) => some (key / 128)
    | _ => none
def lineBytes (m : Mach) (lines : List Nat) : List Host.Cell :=
  lines.foldl (fun t l => (List.range 128).foldl (fun t i => Tbl.set 0 t (128 * l + i) (rdByte m (128 * l + i))) t) []

/-- A page of the tile: r and w, and directory-coherent (R335). -/
def tilePage (m : Mach) (w : Who) (va : Nat) : Chk :=
  if va ≥ 2 ^ 48 then .bad .xlate 1
  else if isWindow va then .bad .prot 2
  else
    match translation m w.part w.ctx va with
    | .fail => .bad .xlate 1
    | .ue => .ue
    | .leaf e lg =>
      if pteMig e then .held
      else if !permits e w.priv .atomic || pteCoh e ≠ 0 then .bad .prot 2
      else
        match paKey m w.part (ptePa e + va % 2 ^ lg) with
        | none => .bad .xlate 1
        | some key => .ok (.mem key e)

/-- The lines of the strips that a descriptor sends to the core of a team, in every direction (R335). -/
def linesTo (m : Mach) (ti : Nat) (d : List Word) (u : Nat) : Nat :=
  ((haloDirs d).map fun k => match haloMate m ti d k with
    | some v => if (m.team v).die = (m.team u).die ∧ (m.team v).core = (m.team u).core then (stripLines d k).length else 0
    | none => 0).sum

/-- Whether a line to be copied to replicas is poisoned: the copy makes the tile's team subject to HandleUE, so that no replica
holds poisoned data (10 R235; DESIGN CHOICE, notes/assumptions/107.md). -/
def linesPoisoned (m : Mach) (keys : List (Nat × List Nat)) : Bool :=
  (keys.flatMap Prod.snd).any fun l => m.poison.contains l

/-- The strips of a declared tile pinned and filled at the neighbours after a release at cluster scope: generation 0 (R335). -/
def fillHalo (m : Mach) (gi h : Nat) : Mach :=
  let ti := (m.grp gi).team
  match haloOf m ti h with
  | none => m
  | some x =>
    let keys := (haloDirs x.desc).map fun k => (k, stripKeys m (whoGroup m gi) x.desc k)
    let m1 := releaseAt m (whoGroup m gi) 2
    if linesPoisoned m1 keys then handleUE m1 ti
    else setHalo m1 ti h { x with filled := true, keys := keys, repl := keys.map fun k => (k.1, lineBytes m1 k.2) }

/-- HALO_DECL: the checks of R335 in their order, then the replicas of generation 0. -/
def execHaloDecl (x : Pre) (ch : Bool) (f : Bool) (a : BitVec 7) (s : State) : Host.Outcome State Fault Refusal :=
  qWord .mem x ch (some a.toNat) none (fun c => c.fourOk a.toNat) (fun c m _ _ =>
    if c.scalarsBusy a.toNat 4 then .stall {}
    else
      let d := c.scalars m a.toNat 4
      let ti := c.g.team
      let t := m.team ti
      let base := BitVec.ofNat 64 (hBase d)
      if !haloFields d t.rank || (haloOf m ti (hHandle d)).isSome then c.illegal
      else if hBase d % 128 ≠ 0 then c.raise .misalign base c.act
      else
        let rs := (tilePages d).map fun p => tilePage m c.who (max p (hBase d))
        let bad := fun k => rs.any fun r => match r with | .bad e _ => e = k | _ => false
        let dirs := haloDirs d
        let ranks := (List.range 4).filter fun k => haloRank d k ≠ 15
        let others := (List.range m.teams.length).flatMap fun u =>
          if (m.team u).grid = t.grid then (m.team u).halos.map fun h => h.2.desc else []
        let held := ((tilePages d).map fun p => max p (hBase d)).filter fun va => tilePage m c.who va = .held
        if held ≠ [] then .stall { held := held }
        else if bad .xlate then c.raise .xlate base c.act
        else if bad .prot then c.raise .prot base c.act
        else if rs.any fun r => r = .ue then c.raise .sramUe 0 0
        else if (ranks.any fun k => (haloMate m ti d k).isNone) || others.any (tilesMeet d) ||
            (dirs.any fun k => match haloMate m ti d k with
              | some u => !replicaFits m u (linesTo m ti d u)
              | none => true) then c.raise .prot base c.act
        else
          let pages := ((tilePages d).zip rs).filterMap fun e => match e.2 with | .ok (.mem key _) => some (e.1 / 2 ^ 16, key / 2 ^ 16) | _ => none
          let new : Halo := { desc := d, pages := pages, decl := (c.gi, (m.grp c.gi).nextId), filled := false, gen := 0, out := none, snap := [], keys := [], repl := [], got := [], waited := 0 }
          c.after (setHalo m ti (hHandle d) new) (c.flag f) (.haloDecl (hHandle d)) fun m => fillHalo m c.gi (hHandle d)) s

/-- A handle operand that the team has declared, for the words that take one (R333). -/
def Cx.handle (c : Cx) (m : Mach) (va : Word) : Option Halo :=
  if wb va 3 61 ≠ 0 then none else haloOf m c.g.team (wb va 0 3)

/-- HALO_REL: a new generation; a second release waits before issue (R336). -/
def execHaloRel (x : Pre) (ch : Bool) (f : Bool) (a : BitVec 7) (s : State) : Host.Outcome State Fault Refusal :=
  qWord .mem x ch (some a.toNat) none always (fun c m va _ =>
    match c.handle m va with
    | none => c.illegal
    | some h =>
      if h.out.isSome then .stall {}
      else
        let id := (m.grp c.gi).nextId
        match c.longWait m f (.haloRel (wb va 0 3) (h.gen + 1)) none with
        | .ok m1 => .ok (setHalo m1 c.g.team (wb va 0 3) { h with gen := h.gen + 1, out := some (c.gi, id, false) })
        | e => e) s

/-- HALO_WAIT (R337). -/
def execHaloWait (x : Pre) (ch : Bool) (f : Bool) (a b : BitVec 7) (s : State) : Host.Outcome State Fault Refusal :=
  qWord .mem x ch (some a.toNat) (some b.toNat) always (fun c m va vb =>
    match c.handle m va with
    | none => c.illegal
    | some h =>
      if wb vb 32 32 ≠ 0 then c.illegal
      else
        let m1 := setHalo m c.g.team (wb va 0 3) { h with waited := max h.waited vb.toNat }
        c.longWait m1 f (.haloWait (wb va 0 3) vb.toNat) none) s

/-- HALO_DROP: a release at device scope, and the handle goes (R339). -/
def execHaloDrop (x : Pre) (ch : Bool) (f : Bool) (a : BitVec 7) (s : State) : Host.Outcome State Fault Refusal :=
  qWord .mem x ch (some a.toNat) none always (fun c m va _ =>
    match c.handle m va with
    | none => c.illegal
    | some _ =>
      c.after (dropHalo m c.g.team (wb va 0 3)) (c.flag f) (.fence 3) fun m => releaseAt m c.who 3) s

/-- Whether a halo.wait of a generation is complete: every neighbour of the descriptor has delivered it (R337). -/
def haloMet (x : Halo) (gen : Nat) : Bool :=
  gen = 0 || (List.range 4).all fun k => haloRank x.desc k = 15 || Tbl.get 0 x.got k ≥ gen

/-- Whether the snapshot of an outstanding release can be taken: every access that its group issued before it is performed (R336). -/
def snapReady (m : Mach) (x : Halo) : Bool :=
  match x.out with
  | some (g, id, false) => !accessesHeld m g id true
  | _ => false

/-- HALO_SNAPSHOT: the strips of an outstanding release are copied as its group sees them: what narrow atomics of the cluster left
dirty there is written back first (R336, R340), and the release acts at cluster scope (R321). A release with no strip to push has been received by every neighbour. -/
def takeSnapshot (m0 : Mach) (ti h : Nat) : Mach :=
  match haloOf m0 ti h with
  | none => m0
  | some x =>
    match x.out with
    | some (g, id, false) =>
      if !snapReady m0 x then m0 else
      let lines := x.keys.flatMap Prod.snd
      let m := (m0.cores.map Prod.fst).foldl (fun m c =>
        flushAtoms m (c / 64) (c % 64) fun k y => lines.contains (k / 128) && atomMine m (m.team ti).die (m.team ti).core c y) (releaseAt m0 (whoGroup m0 g) 2)
      if linesPoisoned m x.keys then handleUE m ti else
      let m1 := setHalo m ti h { x with out := some (g, id, true), snap := x.keys.map fun k => (k.1, lineBytes m k.2) }
      if x.keys.isEmpty then performed (setHalo m1 ti h { x with out := none, snap := [] }) g id [] else m1
    | _ => m0

def execHaloSnapshot (tm h : Nat) (s : State) : Host.Outcome State Fault Refusal :=
  .next { s with m := takeSnapshot s.m tm h }

/-- Whether every access that a team's groups issued before their waits on a handle is performed (R336). -/
def waitersQuiet (m : Mach) (u h : Nat) : Bool :=
  (m.team u).groups.all fun gi => (m.grp gi).outst.all fun o => match o.wait with
    | .haloWait k _ => k ≠ h || !accessesHeld m gi o.id true
    | _ => true

/-- Whether the neighbour in a direction has asked for the generation of a snapshot, its earlier loads are performed, and it runs
(R336, R339). -/
def deliverable (m : Mach) (ti h dir : Nat) : Bool :=
  match haloOf m ti h with
  | none => false
  | some x =>
    x.snap.any (fun k => k.1 = dir) &&
      match haloMate m ti x.desc dir with
      | none => false
      | some u => (m.team u).place = .resident && waitersQuiet m u h && (match haloOf m u h with | some y => y.waited ≥ x.gen | none => false)

/-- HALO_DELIVERY: a snapshot becomes the neighbour's replica; the release completes with the last (R336). -/
def deliver (m : Mach) (ti h dir : Nat) : Mach :=
  if !deliverable m ti h dir then m
  else
    match haloOf m ti h with
    | none => m
    | some x =>
      let bytes := ((x.snap.find? fun k => k.1 = dir).map Prod.snd).getD []
      let rest := x.snap.filter fun k => k.1 ≠ dir
      let y := { x with snap := rest, repl := x.repl.map (fun k => if k.1 = dir then (dir, bytes) else k),
                        out := if rest.isEmpty then none else x.out }
      let m1 := setHalo m ti h y
      let m2 := match haloMate m ti x.desc dir with
        | none => m1
        | some u =>
          match haloOf m1 u h with
          | none => m1
          | some z =>
            match (List.range 4).find? fun k => haloMate m u z.desc k = some ti && k = oppDir dir with
            | some k => setHalo m1 u h { z with got := Tbl.set 0 z.got k x.gen }
            | none => m1
      match x.out, rest with
      | some (g, id, _), [] => performed m2 g id []
      | _, _ => m2

def execHaloDelivery (tm h dir : Nat) (s : State) : Host.Outcome State Fault Refusal :=
  .next { s with m := deliver s.m tm h dir }

end Sys2Proof.Machine
end

