-- ==== Sys2Proof/Machine/Tree.lean ====
section
/-!
DEFINITION. Sys2Proof/Machine/Tree.lean: the tree search engine: its words of major 0x39, trees in memory, descent, expansion,
backup, re-rooting, freeing and reading, and the events that serve its requests (16 R361 to R382).
-/

namespace Sys2Proof.Machine

/-! The engine's accesses. -/

/-- What stops a request: a migrating page, poison, or a status code with an address (R368, 10 R235). -/
inductive TsErr where
  | hold (va : Nat)
  | ue
  | fault (code addr : Nat)
deriving DecidableEq, Repr, Inhabited

/-- The engine's work on the device: what it changed before a failure is put back by its caller. -/
abbrev Ts := ExceptT TsErr (StateM Mach)

/-- The group that the engine works for, and the rights of its accesses: the group's, from the engine's die and no core. -/
structure Eng where
  gi : Nat
  w : Who
deriving DecidableEq, Repr, Inhabited
def whoTs (m : Mach) (gi die : Nat) : Eng := { gi := gi, w := { whoEngine m gi die with spec := false } }

/-- A location the engine reads, or reads and writes: coh 0, and local memory where `own` says so (R361, R362, R368). -/
def tsLoc (w : Eng) (acc : Acc) (own : Bool) (va : Nat) : Ts Loc := do
  let m ← get
  if pageHeld m w.gi va then throw (.hold va)
  match checkVa m w.w acc 1 false va with
  | .held => throw (.hold va)
  | .ue => throw .ue
  | .bad .xlate _ => throw (.fault 0x08 va)
  | .bad _ _ => throw (.fault 0x09 va)
  | .ok (.mem key leaf) =>
    if acc = .atomic && (pteCoh leaf ≠ 0 || (own && !(keyRegion key = 1 && keyPart key = w.w.part))) then throw (.fault 0x09 va)
    set (takeTurns (pinAt m leaf key) w.w [(0, .mem key leaf)])
    pure (.mem key leaf)
  | .ok _ => throw (.fault 0x09 va)

/-- n bytes read and written by the engine. -/
def tsRead (w : Eng) (acc : Acc) (own : Bool) (va n : Nat) : Ts Nat := do
  let l ← tsLoc w acc own va
  let m ← get
  if seePoison m n l then throw .ue
  pure (seeNum m w.w n l)
def tsWrite (w : Eng) (own : Bool) (va n v : Nat) : Ts Unit := do
  let l ← tsLoc w .atomic own va
  modify fun m => doStore m w.w n v l

/-- A descriptor (R361). -/
structure Tree where
  die : Nat
  w : Eng
  addr : Nat
  base : Nat
  cap : Nat
  gen : Nat
  root : Nat
  cpuct : Nat
  fpu : Nat
  vloss : Nat
  negamax : Bool
  noring : Bool
  rlog : Nat
  ring : Nat
  rnext : Nat
  tags : Nat
deriving DecidableEq, Repr, Inhabited

def parseTree (die : Nat) (w : Eng) (addr : Nat) (x : Nat → Nat) : Tree :=
  { die := die, w := w, addr := addr, base := bitsOf (x 0) 0 48, cap := bitsOf (x 1) 0 32, gen := bitsOf (x 2) 32 16,
    root := bitsOf (x 2) 0 32, cpuct := bitsOf (x 3) 0 32, fpu := bitsOf (x 3) 32 32, vloss := bitsOf (x 4) 0 32,
    negamax := bitAt (x 4) 32, noring := bitAt (x 4) 33, rlog := bitsOf (x 5) 48 4, ring := bitsOf (x 5) 0 48,
    rnext := bitsOf (x 6) 48 16, tags := bitsOf (x 6) 0 48 }

/-- Whether a descriptor is valid (R361). tsinit, which writes root, does not test it (DEDUCED, notes/assumptions/16.md). -/
def treeValid (init : Bool) (x : Nat → Nat) (t : Tree) : Bool :=
  bitsOf (x 0) 48 16 = 0 && bitsOf (x 1) 32 32 = 0 && bitsOf (x 2) 48 16 = 0 && bitsOf (x 4) 34 30 = 0 && bitsOf (x 5) 52 12 = 0 &&
    x 7 = 0 && t.base % 128 = 0 && 2 ≤ t.cap && t.cap ≤ 2 ^ 28 && (init || (1 ≤ t.root && t.root < t.cap)) &&
    (t.noring || (t.rlog ≤ 12 && t.ring % 32 = 0))

/-- The descriptor read and tested. -/
def tsTree (die : Nat) (w : Eng) (addr : Nat) (init : Bool) : Ts Tree := do
  let ws ← (List.range 8).mapM fun i => tsRead w .atomic true (addr + 8 * i) 8
  let t := parseTree die w addr fun i => ws.getD i 0
  if treeValid init (fun i => ws.getD i 0) t then pure t else throw (.fault 0x01 addr)

/-! Nodes (R362, R363, R368). -/

/-- A counter of the engine raised (R381). -/
def tally (m : Mach) (die k : Nat) : Mach :=
  let x := m.mc die
  m.setMc die { x with tstat := Tbl.set 0 x.tstat k ((Tbl.get 0 x.tstat k + 1) % 2 ^ 64) }

/-- A node's read counted: a miss the first time, else a free choice (R381; notes/assumptions/17.md). -/
def countRead (m : Mach) (die key : Nat) : Mach :=
  let x := m.mc die
  let m1 := m.setMc die { x with reads := x.reads + 1, seen := if x.seen.contains (key / 32) then x.seen else key / 32 :: x.seen }
  if !x.seen.contains (key / 32) || Config.freeBit m.fresh (2 ^ 60 + x.reads) then tally m1 die 7 else m1

/-- The address of a word of a node; an index beyond the pool is a fault (R368). -/
def nodeVa (t : Tree) (n k : Nat) : Ts Nat :=
  if n ≥ t.cap then throw (.fault 0x09 (t.base + 32 * n)) else pure (t.base + 32 * n + 8 * k)

/-- Some words of a node, in one read of it. -/
def nodeGets (t : Tree) (n : Nat) (ks : List Nat) : Ts (List Nat) := do
  let va ← nodeVa t n 0
  let l ← tsLoc t.w .atomic true va
  let key := match l with | .mem key _ => key | _ => 0
  modify fun m => countRead m t.die key
  ks.mapM fun k => tsRead t.w .atomic true (va + 8 * k) 8
def nodeGet (t : Tree) (n k : Nat) : Ts Nat := do
  let ws ← nodeGets t n [k]
  pure (ws.headD 0)
def nodePut (t : Tree) (n k v : Nat) : Ts Unit := do
  let va ← nodeVa t n k
  tsWrite t.w true va 8 v

/-- A number with a field replaced. -/
def setField (x lo len v : Nat) : Nat := x - bitsOf x lo len * 2 ^ lo + v % 2 ^ len * 2 ^ lo

/-- nchild, first and parent of a node. -/
def nchildOf (w0 : Nat) : Nat := bitsOf w0 56 8
def firstOf (w2 : Nat) : Nat := bitsOf w2 0 32
def parentOf (w2 : Nat) : Nat := bitsOf w2 32 32

/-- The header's word and field of a free-list head (R362). -/
def headGet (t : Tree) (c : Nat) : Ts Nat := do
  let x ← nodeGet t 0 (c / 2)
  pure (bitsOf x (32 * (c % 2)) 32)
def headPut (t : Tree) (c v : Nat) : Ts Unit := do
  let x ← nodeGet t 0 (c / 2)
  nodePut t 0 (c / 2) (setField x (32 * (c % 2)) 32 v)

/-- Alloc: the front of the class's list, else the bump pointer, which stands where an eighth head would (R365). -/
def allocBlock (t : Tree) (c : Nat) : Ts Nat := do
  let h ← headGet t c
  if h ≠ 0 then
    let x ← nodeGet t h 2
    headPut t c (firstOf x)
    pure h
  else
    let b ← headGet t 7
    if b + 2 ^ c ≤ t.cap then
      headPut t 7 (b + 2 ^ c)
      pure b
    else throw (.fault 0x0D t.addr)

/-- A block put onto the front of its class's list (R365). -/
def freeBlock (t : Tree) (first n : Nat) : Ts Unit := do
  let h ← headGet t (clog2 n)
  let x ← nodeGet t first 2
  nodePut t first 2 (setField x 0 32 h)
  headPut t (clog2 n) first
  modify fun m => tally m t.die 5

/-- Whether a handle is current (R364). -/
def isCurrent (t : Tree) (h : Word) : Ts Bool := do
  let n := wb h 0 32
  if 1 ≤ n ∧ n < t.cap then
    let x ← nodeGet t n 3
    pure (bitsOf x 32 16 = wb h 32 16)
  else pure false

/-- gen raised by 1 (R364). -/
def bumpGen (t : Tree) : Ts Unit := tsWrite t.w true (t.addr + 0x10) 8 ((t.gen + 1) % 2 ^ 16 * 2 ^ 32 + t.root)

/-! FP32 arithmetic of the engine (R371, R376). -/

def f32 (x : Nat) : FVal := readF .f32 false x
def tAdd (x y : Nat) : Nat := (addF .f32 .rne (f32 x) (f32 y)).1
def tSub (x y : Nat) : Nat := (subF .f32 .rne (f32 x) (f32 y)).1
def tMul (x y : Nat) : Nat := (mulRF .f32 .rne (f32 x) (f32 y)).1
def tDiv (x y : Nat) : Nat := (divF .f32 .rne (f32 x) (f32 y)).1
def tSqrt (x : Nat) : Nat := (sqrtF .f32 .rne (f32 x)).1
def tInt (n : Nat) : Nat := (itofF .f32 .rne n).1

/-- A child's score: visits, virtual loss, value and prior, with the parent's root term (R371). -/
def scoreOf (t : Tree) (sq n vl w p : Nat) : Nat :=
  let u := tDiv (tMul (tMul t.cpuct p) sq) (tInt (1 + n + vl))
  let q := if n + vl = 0 then t.fpu else tDiv (tSub w (tMul (tInt vl) t.vloss)) (tInt (n + vl))
  tAdd q u

/-- Whether a score replaces the best so far: NaN is below every number, ties keep the earlier (R371). -/
def beats (s best : Nat) : Bool := !(f32 s).isNan && ((f32 best).isNan || cmpF (f32 s) (f32 best) > 0)

/-- The child chosen among scores in index order. -/
def bestOf : List Nat → Nat → Nat → Nat → Nat
  | [], _, _, besti => besti
  | s :: ss, i, best, besti => if beats s best then bestOf ss (i + 1) s i else bestOf ss (i + 1) best besti
def chooseOf : List Nat → Nat
  | [] => 0
  | s :: ss => bestOf ss 1 s 0

/-! Descent (R372 to R374). -/

/-- Children scored and one chosen, below a node with its words 0 and 2. -/
def choose (t : Tree) (w0 w2 : Nat) : Ts Nat := do
  let sq := tSqrt (tInt (bitsOf w0 0 32 + bitsOf w0 32 16 + 1))
  let ss ← (List.range (nchildOf w0)).mapM fun i => do
    let ws ← nodeGets t (firstOf w2 + i) [0, 1]
    let c0 := ws.getD 0 0
    let c1 := ws.getD 1 0
    pure (scoreOf t sq (bitsOf c0 0 32) (bitsOf c0 32 16) (bitsOf c1 0 32) (bitsOf c1 32 32))
  pure (firstOf w2 + chooseOf ss)

/-- The path of a descent, the last node first, from a node at a depth on. -/
def descend (t : Tree) : Nat → Nat → List Nat → Ts (List Nat)
  | 0, x, path => pure (x :: path)
  | n + 1, x, path => do
    let ws ← nodeGets t x [0, 2]
    let w0 := ws.getD 0 0
    if bitAt w0 48 || nchildOf w0 = 0 then pure (x :: path)
    else
      let y ← choose t w0 (ws.getD 1 0)
      descend t n y (x :: path)

/-- AppendLeaf: ringfull, or the tag FILLING, the record written and the tag FULL (R374). A fault leaves what the steps before it
did; a tag that is no longer FILLING after the record is left as it is (R251). -/
def appendLeaf (t : Tree) (g : Group) (tid lane : Nat) (res : Nat) (payload : Nat) : Ts Bool := do
  let s := t.rnext
  let tag ← tsRead t.w .atomic false (t.tags + s) 1
  if tag ≠ 0 then pure true
  else
    tsWrite t.w false (t.tags + s) 1 1
    tsWrite t.w false (t.ring + 32 * s) 8 res
    tsWrite t.w false (t.ring + 32 * s + 8) 8 (t.addr % 2 ^ 48)
    tsWrite t.w false (t.ring + 32 * s + 16) 8 (tid * 2 ^ 32 + payload)
    tsWrite t.w false (t.ring + 32 * s + 24) 8 (g.gid * 2 ^ 8 + lane)
    let now ← tsRead t.w .atomic false (t.tags + s) 1
    if now = 1 then tsWrite t.w false (t.tags + s) 1 2
    tsWrite t.w true (t.addr + 0x30) 8 ((s + 1) % 2 ^ t.rlog * 2 ^ 48 + t.tags)
    pure false

/-- What the tree part of a descent finds: vlfull, or the result and the leaf's payload with the virtual loss added. -/
def descent (t : Tree) : Ts (Option (Nat × Nat)) := do
  let path ← descend t 64 t.root []
  let x := path.headD 0
  let d := path.length - 1
  let ws ← path.mapM fun y => nodeGet t y 0
  if ws.any fun w => bitsOf w 32 16 = 65535 then pure none
  else
    path.forM fun y => do
      let w ← nodeGet t y 0
      nodePut t y 0 (setField w 32 16 (bitsOf w 32 16 + 1))
    let w0 := ws.headD 0
    let w3 ← nodeGet t x 3
    let flags := boolNat (bitAt w0 48) + 2 * boolNat (d = 64 && nchildOf w0 > 0)
    pure (some (flags * 2 ^ 56 + d * 2 ^ 48 + bitsOf w3 32 16 * 2 ^ 32 + x, bitsOf w3 0 32))

/-! Expansion (R375). -/

/-- The record's three words after desc, its fields tested: n, priors and payloads. -/
def expFields (d0 : Word) (r : Nat → Nat) : Option (Nat × Nat × Nat) :=
  let n := bitsOf (r 2) 56 8
  let pr := bitsOf (r 2) 0 48
  let py := bitsOf (r 3) 0 48
  if wb d0 48 16 ≠ 0 || bitsOf (r 2) 48 8 ≠ 0 || bitsOf (r 3) 48 16 ≠ 0 || n > 64 || pr % 4 ≠ 0 || py % 4 ≠ 0 then none
  else some (n, pr, py)

/-- An expansion: its token's flags and value. -/
def expand (die : Nat) (w : Eng) (d0 : Word) (rec' : Nat) : Ts (Nat × Nat) := do
  let addr := wb d0 0 48
  let ws ← (List.range 4).mapM fun i => if i = 0 then pure 0 else tsRead w .load false (rec' + 8 * i) 8
  match expFields d0 fun i => ws.getD i 0 with
  | none => throw (.fault 0x01 addr)
  | some (n, pr, py) =>
    let t ← tsTree die w addr false
    let h := BitVec.ofNat 64 (ws.getD 1 0)
    let x := wb h 0 32
    if !(← isCurrent t h) then pure (1, 0)
    else
      let xs ← nodeGets t x [0, 2]
      let w0 := xs.getD 0 0
      let w2 := xs.getD 1 0
      if nchildOf w0 > 0 then pure (2, firstOf w2)
      else if n = 0 then
        nodePut t x 0 (setField w0 48 1 1)
        pure (0, 0)
      else if bitAt w0 48 then throw (.fault 0x09 addr)
      else
        let b ← allocBlock t (clog2 n)
        (List.range n).forM fun i => do
          let p ← tsRead w .atomic false (pr + 4 * i) 4
          let pay ← if py = 0 then pure 0 else tsRead w .atomic false (py + 4 * i) 4
          nodePut t (b + i) 0 0
          nodePut t (b + i) 1 (p * 2 ^ 32)
          nodePut t (b + i) 2 (x * 2 ^ 32)
          nodePut t (b + i) 3 (t.gen * 2 ^ 32 + pay)
        nodePut t x 2 (setField w2 0 32 b)
        nodePut t x 0 (setField w0 56 8 n)
        pure (0, b)

/-! Freeing and re-rooting (R378, R379). -/

/-- The child blocks of some nodes, in ascending index. -/
def blocksOf (t : Tree) (nodes : List Nat) : Ts (List (Nat × Nat)) := do
  let bs ← nodes.mapM fun y => do
    let ws ← nodeGets t y [0, 2]
    pure (if nchildOf (ws.getD 0 0) = 0 then none else some (firstOf (ws.getD 1 0), nchildOf (ws.getD 0 0)))
  pure (sortBy (fun a b : Nat × Nat => a.1 < b.1) (bs.filterMap id))

/-- The blocks below some nodes at a depth, level by level; passing depth 64 fails. -/
def levelsOf (t : Tree) : Nat → List Nat → List (List (Nat × Nat)) → Ts (List (List (Nat × Nat)))
  | 0, nodes, acc => do
    let bs ← blocksOf t nodes
    if bs.isEmpty then pure acc else throw (.fault 0x09 t.addr)
  | n + 1, nodes, acc => do
    let bs ← blocksOf t nodes
    if bs.isEmpty then pure acc
    else levelsOf t n (bs.flatMap fun b => (List.range b.2).map fun i => b.1 + i) (bs :: acc)

/-- Every block below a node at a depth freed, deepest level first: how many. -/
def freeBelow (t : Tree) (node depth : Nat) : Ts Nat := do
  let ls ← levelsOf t (64 - depth) [node] []
  ls.flatten.forM fun b => freeBlock t b.1 b.2
  pure ls.flatten.length

/-- The depth of a node: the parent links above it, at most 64. -/
def depthOf (t : Tree) : Nat → Nat → Ts Nat
  | 0, _ => throw (.fault 0x09 t.addr)
  | n + 1, x => do
    let w2 ← nodeGet t x 2
    if parentOf w2 = 0 then pure 0
    else
      let d ← depthOf t n (parentOf w2)
      pure (d + 1)

/-- tsfree: the number of blocks freed. -/
def freeTree (t : Tree) (b : Nat) : Ts Nat := do
  if b = 0 ∨ b ≥ t.cap then throw (.fault 0x09 t.addr)
  let d ← depthOf t 65 b
  let k ← freeBelow t b d
  let ws ← nodeGets t b [0, 2]
  nodePut t b 0 (setField (ws.getD 0 0) 56 8 0)
  nodePut t b 2 (setField (ws.getD 1 0) 0 32 0)
  if k ≠ 0 then bumpGen t
  pure k

/-- tsroot: the root's child becomes the root. -/
def reRoot (t : Tree) (b : Nat) : Ts Nat := do
  let r := t.root
  let rs ← nodeGets t r [0, 2]
  let w2 := rs.getD 1 0
  let n := nchildOf (rs.getD 0 0)
  if b ≥ n then throw (.fault 0x09 t.addr)
  let f := firstOf w2
  ((List.range n).filter (· ≠ b)).forM fun i => do
    let _ ← freeBelow t (f + i) 1
    pure ()
  let ws ← nodeGets t (f + b) [0, 1, 2, 3]
  (List.range 4).forM fun i => nodePut t r i (if i = 2 then setField (ws.getD 2 0) 32 32 0 else ws.getD i 0)
  (List.range (nchildOf (ws.getD 0 0))).forM fun j => do
    let c := firstOf (ws.getD 2 0) + j
    let x ← nodeGet t c 2
    nodePut t c 2 (setField x 32 32 r)
  freeBlock t f n
  bumpGen t
  pure r

/-- tsinit: the header, node 1 and the engine's fields of the descriptor (R369). -/
def initTree (t : Tree) : Ts Nat := do
  (List.range 4).forM fun i => nodePut t 0 i (if i = 3 then 2 * 2 ^ 32 else 0)
  (List.range 4).forM fun i => nodePut t 1 i 0
  tsWrite t.w true (t.addr + 0x10) 8 1
  tsWrite t.w true (t.addr + 0x30) 8 t.tags
  pure 1

/-! Serving requests (R368, R370, R372, R376, R380). -/

/-- A unit of the engine's work: on a failure the device is as before it, but for the reads it counted. -/
def tsRun {α : Type} (die : Nat) (act : Ts α) (m : Mach) : Except TsErr α × Mach :=
  match (act.run).run m with
  | (.ok v, m1) => (.ok v, m1)
  | (.error e, m1) =>
    let x := m.mc die
    let y := m1.mc die
    let miss := Tbl.get 0 y.tstat 7
    (.error e, m.setMc die { x with reads := y.reads, seen := y.seen, tstat := Tbl.set 0 x.tstat 7 miss })

/-- The same, but a fault keeps what was done before it; only a migrating page or poison undoes the unit. -/
def tsKeep {α : Type} (die : Nat) (act : Ts α) (m : Mach) : Except TsErr α × Mach :=
  match (act.run).run m with
  | (.error (.fault code addr), m1) => (.error (.fault code addr), m1)
  | _ => tsRun die act m

/-- A request that meets a migrating page is held there until a tlbinv covers it (10 R244). -/
def tsHold (m : Mach) (die : Nat) (r : TsReq) (va : Nat) : Option Mach :=
  if pageHeld m r.grp va then none else some (holdPages m (whoTs m r.grp die).w r.grp [va])

/-- A request leaves the engine; a word whose last request this was is performed. -/
def tsDone (m : Mach) (die : Nat) (r : TsReq) (wr : List RegWr) : Mach :=
  let x := m.mc die
  let rest := x.ts.erase r
  let m1 := m.setMc die { x with ts := rest }
  let more := (List.range 12).any fun d => (m1.mc d).ts.any fun q => q.grp = r.grp && q.id = r.id
  if more then addWr m1 r.grp r.id wr
  else performed m1 r.grp r.id wr

/-- A request's work replaced. -/
def tsReplace (m : Mach) (die : Nat) (r q : TsReq) : Mach :=
  let x := m.mc die
  m.setMc die { x with ts := x.ts.map fun y => if y = r then q else y }

/-- A token of the engine (R368). -/
def tsToken (status minor flags value : Nat) : Word :=
  BitVec.ofNat 64 (status * 2 ^ 56 + 2 * 2 ^ 48 + minor * 2 ^ 44 + flags * 2 ^ 42 + value % 2 ^ 32)
def tsFailed (status : Nat) (desc : Word) : Word := BitVec.ofNat 64 (status * 2 ^ 56 + 2 * 2 ^ 48 + wb desc 0 48)

/-- A word that may push a token has been performed, with its flags and value or a status: the token, the completion, or the
kill (R368). -/
def tsReport (m : Mach) (die : Nat) (r : TsReq) (minor : Nat) : Except Nat (Nat × Nat) → Mach
  | .ok (flags, value) =>
    match r.q with
    | some _ => tsReplace m die r { r with work := .push (tsToken 0 minor flags value) }
    | none => tsDone m die r []
  | .error status =>
    let m1 := if status = 0x0D then tally m die 4 else m
    match r.q with
    | some _ => tsReplace m1 die r { r with work := .push (tsFailed status r.desc) }
    | none => killFor m1 r.grp status ((r.desc.truncate 48).zeroExtend 64)

/-- A whole-word request performed; `count` counts it once it is served, not while a migrating page holds it. -/
def tsWhole (m : Mach) (die : Nat) (r : TsReq) (minor : Nat) (act : Ts (Nat × Nat)) (count : Mach → Mach := id) : Option Mach :=
  match tsRun die act m with
  | (.ok v, m1) => some (tsReport (count m1) die r minor (.ok v))
  | (.error (.hold va), _) => tsHold m die r va
  | (.error .ue, m1) => some (killFor (count m1) r.grp 0x11 0)
  | (.error (.fault code _), m1) => some (tsReport (count m1) die r minor (.error code))

/-- A lane's descent performed: its result (R372 to R374). -/
def tsDescend (m : Mach) (die : Nat) (r : TsReq) (lane dst : Nat) : Option Mach :=
  let g := m.grp r.grp
  let w := whoTs m r.grp die
  let next := fun (m : Mach) => m.setMc die { m.mc die with ts := (m.mc die).ts.map fun y =>
    if y.grp = r.grp && y.id = r.id && y.desc = r.desc && y ≠ r then { y with begun := true } else y }
  let out := fun (m : Mach) (res : Nat) => some (tsDone (next (tally m die 0)) die r [.vec dst lane (BitVec.ofNat 64 res)])
  let body : Ts (Option (Tree × Nat × Nat)) := do
    let t ← tsTree die w r.desc.toNat false
    let v ← descent t
    pure (v.map fun p => (t, p.1, p.2))
  match tsRun die body m with
  | (.error (.hold va), _) => tsHold m die r va
  | (.error .ue, m1) => some (killFor (tally m1 die 0) r.grp 0x11 0)
  | (.error (.fault code _), m1) => out m1 ((0x80 + code) * 2 ^ 56)
  | (.ok none, m1) => out m1 (8 * 2 ^ 56)
  | (.ok (some (t, res, pay)), m1) =>
    if t.noring then out m1 res
    else
      match tsKeep die (appendLeaf t g (m.team g.team).tid lane res pay) m1 with
      | (.ok false, m2) => out m2 res
      | (.ok true, m2) => out (tally m2 die 6) (res + 4 * 2 ^ 56)
      | (.error (.hold va), _) => tsHold m die r va
      | (.error .ue, m2) => some (killFor (tally m2 die 0) r.grp 0x11 0)
      | (.error (.fault code _), m2) => out m2 ((0x80 + code) * 2 ^ 56)

/-- A lane's node read (R380). -/
def tsReadNode (m : Mach) (die : Nat) (r : TsReq) (k lane dst node : Nat) : Option Mach :=
  let w := whoTs m r.grp die
  let body : Ts Nat := do
    let t ← tsTree die w r.desc.toNat false
    if node ≥ t.cap then pure 0
    else
      let ws ← nodeGets t node [0, 1, 2, 3]
      pure (if k < 4 then ws.getD k 0 else bitsOf (ws.getD 1 0) 0 32 * 2 ^ 32 + bitsOf (ws.getD 0 0) 0 32)
  match tsRun die body m with
  | (.ok v, m1) => some (tsDone m1 die r [.vec dst lane (BitVec.ofNat 64 v)])
  | (.error (.hold va), _) => tsHold m die r va
  | (.error .ue, m1) => some (killFor m1 r.grp 0x11 0)
  | (.error (.fault code addr), m1) => some (killFor m1 r.grp code (BitVec.ofNat 64 addr))

/-- A backup begins, or is stale (R376). -/
def tsBackup (m : Mach) (die : Nat) (r : TsReq) (handle : Word) (val : BitVec 32) : Option Mach :=
  let w := whoTs m r.grp die
  let body : Ts Bool := do
    let t ← tsTree die w r.desc.toNat false
    isCurrent t handle
  match tsRun die body m with
  | (.ok true, m1) => some (tsReplace (tally m1 die 1) die r { r with walk := some (wb handle 0 32, val, 0) })
  | (.ok false, m1) => some (tsDone (tally (tally m1 die 1) die 2) die r [])
  | (.error (.hold va), _) => tsHold m die r va
  | (.error .ue, m1) => some (killFor (tally m1 die 1) r.grp 0x11 0)
  | (.error (.fault code addr), m1) => some (killFor (tally m1 die 1) r.grp code (BitVec.ofNat 64 addr))

/-- A request served whole, or a backup begun; none while it must wait: first what its group issued before it is performed and made
visible (R377). -/
def tsServe (m0 : Mach) (die : Nat) (r : TsReq) : Option Mach :=
  let w := whoTs m0 r.grp die
  let m := if r.late then flushC1 m0 (m0.grp r.grp).die (m0.grp r.grp).core else m0
  if r.late && accessesHeld m r.grp r.id true then none
  else match r.work with
  | .init => tsWhole m die r 0 (do let t ← tsTree die w r.desc.toNat true; pure (0, ← initTree t))
  | .exp a => tsWhole m die r 1 (expand die w r.desc a.toNat) fun m => tally m die 3
  | .desc lane dst => tsDescend m die r lane dst
  | .back _ h v => tsBackup m die r h v
  | .root b => tsWhole m die r 4 (do let t ← tsTree die w r.desc.toNat false; pure (0, ← reRoot t b.toNat))
  | .free b => tsWhole m die r 5 (do let t ← tsTree die w r.desc.toNat false; pure (0, ← freeTree t b.toNat))
  | .rd k lane dst node => tsReadNode m die r k lane dst node
  | .stat k dst => some (tsDone m die r [.scal dst (BitVec.ofNat 64 (Tbl.get 0 (m.mc die).tstat k))])
  | .push tok =>
    match r.q with
    | none => some (tsDone m die r [])
    | some q => (pushToken m r.grp q (.eng 2) tok .ts).map fun m1 => tsDone m1 die r []

/-- Requests that may fall between two node updates of a backup (R370). -/
def mayFallBetween (r : TsReq) : Bool := match r.work with | .desc .. | .rd .. => true | _ => false

/-- The request the engine serves next: the oldest, or behind a backup that has made its first update a descent or a read. -/
def tsNext (m : Mach) (die : Nat) : Option TsReq :=
  match (m.mc die).ts with
  | [] => none
  | r :: rest =>
    match r.walk, rest with
    | none, _ => some r
    | some (_, _, _ + 1), q :: _ => if mayFallBetween q then some q else none
    | _, _ => none
def tsStep (m : Mach) (die : Nat) : Option Mach := (tsNext m die).bind (tsServe m die)

/-- TSE_SERVE (R370). -/
def execTseServe (die : Nat) (s : State) : Host.Outcome State Fault Refusal := .next { s with m := (tsStep s.m die).getD s.m }

/-- One node update of a backup: the next node and value (R376, R377). -/
def backNode (t : Tree) (y v : Nat) : Ts Nat := do
  let ws ← nodeGets t y [0, 1, 2]
  let w0 := ws.getD 0 0
  let w1 := ws.getD 1 0
  let w2 := ws.getD 2 0
  let n := min (bitsOf w0 0 32 + 1) 0xFFFFFFFF
  let vl := bitsOf w0 32 16 - 1
  nodePut t y 0 (setField (setField w0 0 32 n) 32 16 vl)
  nodePut t y 1 (setField w1 0 32 (tAdd (bitsOf w1 0 32) v))
  pure (parentOf w2)

/-- Whether lanes of a tsdesc that has begun come before the next node update of the backup ahead of it: lanes on other trees may stand
between them (R370). -/
def lanesFirst (rest : List TsReq) : Bool := rest.any fun q => q.begun

/-- The backup in progress of a die moves by one node; none when there is none or it must wait. -/
def backStep (m : Mach) (die : Nat) : Option Mach :=
  match (m.mc die).ts with
  | r :: rest =>
    match r.walk with
    | none => none
    | some (y, v, k) =>
      if lanesFirst rest then none else
      let w := whoTs m r.grp die
      let body : Ts (Nat × Bool) := do
        let t ← tsTree die w r.desc.toNat false
        let p ← backNode t y v.toNat
        pure (p, t.negamax)
      match tsRun die body m with
      | (.ok (p, neg), m1) =>
        if p = 0 || k + 1 ≥ 65 then some (tsDone m1 die r [])
        else some (tsReplace m1 die r { r with walk := some (p, if neg then v ^^^ 0x80000000#32 else v, k + 1) })
      | (.error (.hold va), _) => tsHold m die r va
      | (.error .ue, m1) => some (killFor m1 r.grp 0x11 0)
      | (.error (.fault code addr), m1) => some (killFor m1 r.grp code (BitVec.ofNat 64 addr))
  | [] => none

/-- TSE_BACKUP_NODE (R377). -/
def execTseBackupNode (die : Nat) (s : State) : Host.Outcome State Fault Refusal := .next { s with m := (backStep s.m die).getD s.m }

/-! Issuing (R366, R367). -/

/-- The prefix of a TSE word: kind 0 with a zero payload, its c only where it is an operand, or kind 1. -/
def Cx.tsPre (c : Cx) (useC : Bool) (a b : Option Nat) : Bool :=
  match c.pre with
  | .none => true
  | .k0 _ _ cc r st su i f => (useC || cc = 0) && r = 0 && !st && !su && i = 0 && !f
  | _ => c.kind1 none a b false

/-- A register of classes v and s, or v, s and m, that exists. -/
def Cx.vsOk (c : Cx) (pos code : Nat) (mortar : Bool) : Bool :=
  let o := opdOf c.pre pos code
  o.exists? c.g && (o.isV || o.isS || (mortar && o.isM))

/-- TSE words run outside compatibility mode (04 R134). -/
def Cx.tsCore (c : Cx) : Bool := !compatG c.base c.g

/-- The checks of a descriptor address (R367): tsstat needs no permission. -/
def checkDesc (m : Mach) (w : Who) (perm : Bool) (va : Nat) : Chk :=
  if va % 64 ≠ 0 then .bad .misalign 0
  else if va ≥ 2 ^ 48 then .bad .xlate 1
  else if isWindow va then .bad .prot 2
  else
    match translation m w.part w.ctx va with
    | .fail => .bad .xlate 1
    | .ue => .ue
    | .leaf e lg =>
      if pteMig e then .held
      else if perm && !(permits e w.priv .atomic && pteCoh e = 0) then .bad .prot 2
      else
        match paKey m w.part (ptePa e + va % 2 ^ lg) with
        | none => .bad .xlate 1
        | some key => if keyRegion key = 1 && keyPart key = w.part then .ok (.mem (routeKey m w key) e) else .bad .prot 2

/-- The die that homes a checked descriptor. -/
def locDie (m : Mach) : Loc → Nat
  | .mem key _ => homeDie m (keyPart key) (keyOff key)
  | _ => 3

/-- Requests put at the end of the engines' orders, each at its die. -/
def submitTs (m : Mach) (rs : List (Nat × TsReq)) : Mach :=
  rs.foldl (fun m r => m.setMc r.1 { m.mc r.1 with ts := (m.mc r.1).ts ++ [r.2] }) m

/-- After the address checks: QUEUE_STATE, a speculative grid's PROT, then the word issues with its requests (R367, R377). -/
def Cx.tsIssue (c : Cx) (m : Mach) (flag : Option Nat) (q : Option Nat) (dsts : List Nat) (reqs : Nat → List (Nat × TsReq)) (isStat : Bool := false) : Eff :=
  let unbound : Bool := match q with | some n => decide ((qGet (m.grp c.gi) n).bind ≠ .eng 2) | none => false
  if unbound then c.raise .queueState (BitVec.ofNat 64 (q.getD 0)) c.act
  else if !isStat && c.grid.lr.spec then c.raise .prot 0 c.act
  else
    let id := (m.grp c.gi).nextId
    let late := accessesHeld m c.gi id true
    match c.long (if late then m else flushC1 m c.g.die c.g.core) flag [] dsts .ts with
    | .ok m1 => .ok (submitTs m1 ((reqs id).map fun r => (r.1, { r.2 with late := late })))
    | e => e

/-- The rights of the core's own checks and reads for the engine (R367, R375). -/
def Cx.whoDesc (c : Cx) : Who := { c.who with spec := false }

/-- The checks of one descriptor by a word that executes once. -/
def Cx.oneDesc (c : Cx) (m : Mach) (perm : Bool) (va : Word) (k : Loc → Eff) : Eff :=
  match judge [((lanesOf c.act).headD 0, va, checkDesc m c.whoDesc perm va.toNat)] with
  | .error (.cause t) => .trap (if t.cause = .sramUe then t else { t with mask := c.act }) c.base []
  | .error (.hold vas) => .stall { held := vas }
  | .ok ls =>
    match ls with
    | l :: _ => k l.2
    | [] => .ok m

/-- The fields of a word that may push a token: its queue (R366). -/
def tokQueue (q : BitVec 3) (tok : Bool) : Option Nat := if tok then some q.toNat else none

/-- A whole word with a descriptor in a: tsinit, tsroot, tsfree. -/
def tsWord (x : Pre) (ch f : Bool) (q : BitVec 3) (a : BitVec 7) (b : Option Nat) (tok : Bool) (limit : Nat) (work : Word → TsWork) (s : State) :
    Host.Outcome State Fault Refusal :=
  qWord .mem x ch (some a.toNat) b (fun c => c.tsCore && (tok || q = 0)) (fun c m va vb =>
    if vb.toNat ≥ limit then c.illegal
    else c.oneDesc m true va fun l =>
      c.tsIssue m (c.flag f) (tokQueue q tok) [] fun id =>
        [(locDie m l, { grp := c.gi, id := id, desc := va, q := tokQueue q tok, work := work vb, walk := none, begun := false, late := false })]) s

/-- TSINIT (R369). -/
def execTsinit (x : Pre) (ch : Bool) (f : Bool) (q : BitVec 3) (a : BitVec 7) (k : Bool) (s : State) : Host.Outcome State Fault Refusal :=
  tsWord x ch f q a none k (2 ^ 64) (fun _ => .init) s
/-- TSROOT: a child number below 64 (R367, R378). -/
def execTsroot (x : Pre) (ch : Bool) (f : Bool) (q : BitVec 3) (a b : BitVec 7) (k : Bool) (s : State) : Host.Outcome State Fault Refusal :=
  tsWord x ch f q a (some b.toNat) k (2 ^ 6) .root s
/-- TSFREE: a node index of 32 bits (R367, R379). -/
def execTsfree (x : Pre) (ch : Bool) (f : Bool) (q : BitVec 3) (a b : BitVec 7) (k : Bool) (s : State) : Host.Outcome State Fault Refusal :=
  tsWord x ch f q a (some b.toNat) k (2 ^ 32) .free s

/-- TSEXP: the record checked, then the descriptor it names, to whose engine the word goes (R367, R375). -/
def execTsexp (x : Pre) (ch : Bool) (f : Bool) (q : BitVec 3) (a : BitVec 7) (k : Bool) (s : State) : Host.Outcome State Fault Refusal :=
  qWord .mem x ch (some a.toNat) none (fun c => c.tsCore && (k || q = 0)) (fun c m va _ =>
    match checkLanes m c.whoDesc .load 32 false [((lanesOf c.act).headD 0, va)] with
    | .error (.cause t) => .trap (if t.cause = .sramUe then t else { t with mask := c.act }) c.base []
    | .error (.hold vas) => .stall { held := vas }
    | .ok ls =>
      if anyPoison m 8 ls then c.raise .sramUe 0 0
      else
        let d0 := BitVec.ofNat 64 (match ls with | l :: _ => seeNum m c.whoDesc 8 l.2 | [] => 0)
        let m := touchLines (pinLocs m ls) c.whoDesc false 8 ls
        c.oneDesc m true ((d0.truncate 48).zeroExtend 64) fun l =>
          c.tsIssue m (c.flag f) (tokQueue q k) [] fun id =>
            [(locDie m l, { grp := c.gi, id := id, desc := d0, q := tokQueue q k, work := .exp va, walk := none, begun := false, late := false })]) s

/-- TSSTAT (R381). -/
def execTsstat (x : Pre) (ch : Bool) (f : Bool) (a b : BitVec 7) (k : BitVec 3) (s : State) : Host.Outcome State Fault Refusal :=
  qWord .ctl x ch (some a.toNat) (some b.toNat) (fun c => c.tsCore) (fun c m va _ =>
    let dst := c.sNum 2 b.toNat
    c.oneDesc m false va fun l =>
      c.tsIssue m (c.regFlag f) none [128 + dst] (fun id =>
        [(locDie m l, { grp := c.gi, id := id, desc := va, q := none, work := .stat k.toNat dst, walk := none, begun := false, late := false })]) true) s

/-- A per-lane word: the descriptors of its lanes checked, then a request for each lane in ascending order (R367, R370). -/
def Cx.tsLanes (c : Cx) (m : Mach) (flag : Option Nat) (dsts : List Nat) (va : Nat → Word) (work : Nat → TsWork) : Eff :=
  match judge (c.lanes.map fun l => (l, va l, checkDesc m c.whoDesc true (va l).toNat)) with
  | .error e => c.stopEff e
  | .ok ls =>
    c.tsIssue m flag none dsts fun id =>
      ls.map fun l => (locDie m l.2, { grp := c.gi, id := id, desc := va l.1, q := none, work := work l.1, walk := none, begun := false, late := false })

/-- The vector register that takes the results of tsdesc and tsrd. -/
def Cx.tsDst (c : Cx) (b : Nat) : Bool := c.vecB b

/-- TSDESC (R372). -/
def execTsdesc (x : Pre) (ch : Bool) (f : Bool) (a b : BitVec 7) (s : State) : Host.Outcome State Fault Refusal :=
  issue (some .mem) false x ch (fun c m =>
    if !(c.tsCore && c.tsPre false (some a.toNat) none && c.vsOk 1 a.toNat false && c.tsDst b.toNat) then c.illegal
    else if c.act = 0 then .ok m
    else
      match c.read m 1 a.toNat with
      | .error e => e
      | .ok (m1, va) =>
        if busyReg c.base c.gi c.vi b.toNat then .stall {}
        else c.tsLanes m1 (c.flag f) [b.toNat] va fun l => .desc l b.toNat) s

/-- The third operand's values; 0 when no prefix carries one (R366, 02 R54). -/
def Cx.readC (c : Cx) (m : Mach) : Rd :=
  match c.pre with
  | .k0 _ _ cc .. => c.read m 3 cc.toNat
  | _ => .ok (m, fun _ => 0)
/-- The third operand's class. -/
def Cx.cOk (c : Cx) : Bool :=
  match c.pre with
  | .k0 _ _ cc .. => c.vsOk 3 cc.toNat true
  | _ => true

/-- TSBACK (R376). -/
def execTsback (x : Pre) (ch : Bool) (f : Bool) (a b : BitVec 7) (s : State) : Host.Outcome State Fault Refusal :=
  issue (some .mem) false x ch (fun c m =>
    if !(c.tsCore && c.tsPre true (some a.toNat) (some b.toNat) && c.vsOk 1 a.toNat false && c.vsOk 2 b.toNat true && c.cOk) then c.illegal
    else if c.act = 0 then .ok m
    else
      match c.read m 1 a.toNat with
      | .error e => e
      | .ok (m1, va) =>
        match c.read m1 2 b.toNat with
        | .error e => e
        | .ok (m2, vb) =>
          match c.readC m2 with
          | .error e => e
          | .ok (m3, vc) => c.tsLanes m3 (c.flag f) [] va fun l => .back l (vb l) ((vc l).truncate 32)) s

/-- TSRD (R380). -/
def execTsrd (x : Pre) (ch : Bool) (f : Bool) (a b : BitVec 7) (w : BitVec 3) (s : State) : Host.Outcome State Fault Refusal :=
  issue (some .mem) false x ch (fun c m =>
    if !(c.tsCore && c.tsPre true (some a.toNat) none && c.vsOk 1 a.toNat false && c.tsDst b.toNat && c.cOk && w.toNat ≤ 4) then c.illegal
    else if c.act = 0 then .ok m
    else
      match c.read m 1 a.toNat with
      | .error e => e
      | .ok (m1, va) =>
        match c.readC m1 with
        | .error e => e
        | .ok (m2, vc) =>
          if busyReg c.base c.gi c.vi b.toNat then .stall {}
          else c.tsLanes m2 (c.regFlag f) [b.toNat] va fun l => .rd w.toNat l b.toNat (wb (vc l) 0 32)) s

end Sys2Proof.Machine
end

