-- ==== Sys2Proof/Machine/Graphics.lean ====
section
/-!
DEFINITION. Sys2Proof/Machine/Graphics.lean: the words of major 0x3A and their events: meshlet visibility packets, passes and
region maps, coverage, sampling, ray traversal and lane repacking (19 R400 to R424, 20 R425, 14 R331).
-/

namespace Sys2Proof.Machine

/-! Fields and prefixes (R400, R401). -/

/-- Words of a shading core, and of a geometry core, outside compatibility mode. -/
def Cx.gfxCore (c : Cx) : Bool := !isGeo c.g.die && !compatG c.base c.g
def Cx.geoCore (c : Cx) : Bool := isGeo c.g.die && !compatG c.base c.g

/-- A run of n vector registers that exist, named with no extension. -/
def Cx.runOk (c : Cx) (pos code n : Nat) : Bool := (opdOf c.pre pos code).isV && c.pre.ext pos = 0 && code + n ≤ c.g.nv

/-- The kind-0 prefix that carries a third operand, a run of n vector registers. -/
def Cx.thirdRunOk (c : Cx) (n : Nat) : Bool :=
  match c.pre with
  | .k0 _ _ cc r st su i f => r = 0 && !st && !su && i = 0 && !f && (opdOf c.pre 3 cc.toNat).isV && cc.toNat + n ≤ c.g.nv
  | _ => false
def Cx.third (c : Cx) : Nat := c.pre.c?.getD 0

/-- A prefix of a word that takes no third operand. -/
def Cx.plainPre (c : Cx) (a b : Option Nat) : Bool := c.kind0 false || c.kind1 none a b false

/-- Whether an interlocked group must wait for one of some vector registers (01 R44). -/
def Cx.vecsBusy (c : Cx) (first n : Nat) : Bool := (List.range n).any fun i => busyReg c.base c.gi c.vi (first + i)

/-- The values of some vector registers of a lane. -/
def Cx.vecRun (c : Cx) (m : Mach) (first n l : Nat) : List Word := (List.range n).map fun k => vecVal m.fresh c.base c.gi (first + k) l

/-! Packets (R402, R403). -/

def pkToken (ws : List Word) : Nat := wb (ws.getD 0 0) 0 40
def pkRegion (ws : List Word) : Nat := wb (ws.getD 0 0) 40 16

/-- Whether a packet breaks a rule of mvemit (R403). -/
def packetBad (ws : List Word) : Bool :=
  let w1 := ws.getD 1 0
  let w3 := ws.getD 3 0
  wb w1 54 10 ≠ 0 || wb w3 30 34 ≠ 0 || wb w3 22 2 ≠ 0 || wb w3 14 2 ≠ 0 || wb w3 6 2 ≠ 0 ||
    (ws.getD 2 0).toNat ≥ 2 ^ (wb w1 48 6 + 1) || wb w3 0 6 > wb w3 16 6 || wb w3 8 6 > wb w3 24 6

/-- MVEMIT: one packet a lane, in ascending order, each accepted later (R403). Of the words of major 0x3A only seqtk.hw is refused on
a shading core (R401): a packet emitted there carries the DIEID of its die. -/
def execMvemit (x : Pre) (ch : Bool) (f : Bool) (a : BitVec 7) (s : State) : Host.Outcome State Fault Refusal :=
  issue (some .mem) false x ch (fun c m =>
    if !(c.plainPre none none && c.runOk 1 a.toNat 8 && !compatG c.base c.g) then c.illegal
    else if c.act = 0 then .ok m
    else if c.vecsBusy a.toNat 8 then .stall {}
    else
      let ps := c.lanes.map fun l => (l, c.vecRun m a.toNat 8 l)
      let bad := maskOf ((ps.filter fun p => packetBad p.2).map Prod.fst)
      if bad ≠ 0 then c.raise .illegalOp c.waddr bad
      else
        let id := (m.grp c.gi).nextId
        match c.long m (c.flag f) [] [] .sxb with
        | .ok m1 =>
          let p := c.grid.part
          let y := m1.part p
          let new := ps.map fun e => ({ die := c.g.die, words := e.2, src := (c.gi, id), accepted := false } : Packet)
          .ok (m1.setPart p { y with packets := y.packets ++ new })
        | e => e) s

/-! The SXB (R406 to R411). -/

/-- Whether a region.bind of a partition is closing the pass (R406). -/
def closing (m : Mach) (p : Nat) : Bool :=
  m.groups.any fun g => !g.freed && (m.grid g.grid).part = p && g.outst.any fun o => match o.wait with | .bind .. => true | _ => false

/-- Whether the SXB may accept the packet at an index: the oldest of its group not yet accepted, every access that its group issued
before it performed, and no pass closing (R403, R406). -/
def sxbAcceptable (m : Mach) (p k : Nat) : Bool :=
  let ps := (m.part p).packets
  !closing m p && (match ps[k]? with
    | some x => !x.accepted && !accessesHeld m x.src.1 x.src.2 true && !((ps.take k).any fun y => !y.accepted && y.src.1 = x.src.1)
    | none => false)

/-- SXB_ACCEPT: the packet takes its place in acceptance order, what its group has stored is visible at device scope; its word
completes with the last (R403). -/
def acceptPacket (m : Mach) (p k : Nat) : Mach :=
  if !sxbAcceptable m p k then m
  else
    let x := m.part p
    match x.packets[k]? with
    | none => m
    | some y =>
      let ps := x.packets.eraseIdx k ++ [{ y with accepted := true }]
      let m1 := flushC1 (m.setPart p { x with packets := ps }) (m.grp y.src.1).die (m.grp y.src.1).core
      if ps.any fun z => !z.accepted && z.src = y.src then m1 else performed m1 y.src.1 y.src.2 []

def execSxbAccept (p k : Nat) (s : State) : Host.Outcome State Fault Refusal := .next { s with m := acceptPacket s.m p k }

/-- The geometry dies of a partition. -/
def geoDies (m : Mach) (p : Nat) : List Nat :=
  (List.range 12).filter fun d => m.pk.has d && isGeo d && (List.range 24).any fun c => partOf m.pk d c = p

/-- The smallest key pending for a region: token, then DIEID, then acceptance order (R408). -/
def smallestPacket (ps : List Packet) (region : Nat) : Option Packet :=
  firstBy (fun a b => pkToken a.words < pkToken b.words || (pkToken a.words = pkToken b.words && a.die < b.die))
    (ps.filter fun k => k.accepted && pkRegion k.words = region)

/-- What delivering the next packet of a region does; none while it must wait: its eight words are pushed in order, and the port holds
those for which the queue has no room yet (R408 to R410, 09 R212). -/
def deliverPacket (m : Mach) (p region : Nat) : Option Mach :=
  let x := m.part p
  match x.pass, smallestPacket x.packets region with
  | some ps, some k =>
    let t := pkToken k.words
    let passed := closing m p || (geoDies m p).all fun d => decide (Tbl.get 0 x.marks d > t)
    let held := (movingNow m p).any fun e => e.1 = region
    if !passed || held then none
    else
      let rest := x.packets.erase k
      match entryOf ps region with
      | none => some (m.setPart p { x with packets := rest, pass := some { ps with dropped := ps.dropped + 1 } })
      | some e =>
        let last := Tbl.get 0 ps.last region
        let ps1 := { ps with late := if t + 1 < last then ps.late + 1 else ps.late,
                             last := Tbl.set 0 ps.last region (max last (t + 1)),
                             uncommitted := Tbl.set [] ps.uncommitted region (uncommitted ps region ++ [t]) }
        match (m.core (entryDie e) (entryCore e)).sxb with
        | some (g, q) =>
          if (uncommitted ps region).length ≥ 64 || !(m.grp g).inWords.isEmpty || (qGet (m.grp g) q).elems.length ≥ 8 ||
              (m.team (m.grp g).team).place ≠ .resident then none
          else
            let m1 := m.setPart p { x with packets := rest, pass := some ps1 }
            some (m1.setGrp g (portPush { m1.grp g with inWords := k.words } q))
        | none => none
  | _, _ => none

/-- SXB_DELIVER (R408). -/
def execSxbDeliver (p region : Nat) (s : State) : Host.Outcome State Fault Refusal := .next { s with m := (deliverPacket s.m p region).getD s.m }

/-- SEQTK_HW: the mark comes into force after the packets of its die that were emitted before (R407). -/
def execSeqtkHw (x : Pre) (ch : Bool) (f : Bool) (a : BitVec 7) (s : State) : Host.Outcome State Fault Refusal :=
  qWord .mem x ch (some a.toNat) none (fun c => c.geoCore) (fun c m va _ =>
    if wb va 40 24 ≠ 0 then c.illegal else c.longWait m f (.mark va.toNat) none) s

/-- The mark of a seqtk.hw in force; none while an emitted packet of its die is not accepted (R407). -/
def markDone (m : Mach) (gi : Nat) (o : Outst) (v : Nat) : Option Mach :=
  let g := m.grp gi
  let p := (m.grid g.grid).part
  let x := m.part p
  if x.packets.any fun k => k.die = g.die && !k.accepted then none
  else some (completeWord (m.setPart p { x with marks := Tbl.set 0 x.marks g.die (max (Tbl.get 0 x.marks g.die) v) }) gi o)

/-- SEQTK_COMMIT (R410). -/
def execSeqtkCommit (x : Pre) (ch : Bool) (a : BitVec 7) (s : State) : Host.Outcome State Fault Refusal :=
  qWord .mem x ch (some a.toNat) none (fun c => c.gfxCore) (fun c m va _ =>
    let p := c.grid.part
    let r := wb va 40 16
    let y := m.part p
    match y.pass with
    | none => c.raise .regionOwner (BitVec.ofNat 64 r) c.act
    | some ps =>
      if (entryOf ps r).map entryDie ≠ some c.g.die then c.raise .regionOwner (BitVec.ofNat 64 r) c.act
      else
        let left := (uncommitted ps r).filter fun t => t > wb va 0 40
        .ok (m.setPart p { y with pass := some { ps with uncommitted := Tbl.set [] ps.uncommitted r left } })) s

/-! Binding a map and moving a region (R404 to R406, R411). -/

/-- Some words of n bytes read from an address on: the addresses that migrating pages hold, nothing when a read fails. -/
def mapWords (m : Mach) (w : Who) (va n k : Nat) : Except (List Nat) (Option (List Nat)) :=
  match heldWords m w .load va n k with
  | [] => .ok (readWords m w va n k)
  | vas => .error vas

/-- Whether a header breaks a rule (R404, R406). -/
def mapBad (h : List Nat) : Bool :=
  let f := fun i => h.getD i 0
  bitsOf (f 0) 19 45 ≠ 0 || bitsOf (f 0) 16 3 > 4 ||
    ((List.range 4).any fun s => bitsOf (f (2 + 2 * s)) 48 16 ≠ 0 || bitsOf (f (3 + 2 * s)) 35 29 ≠ 0) ||
    ((List.range (bitsOf (f 0) 16 3)).any fun s =>
      f (2 + 2 * s) % 128 ≠ 0 || bitsOf (f (3 + 2 * s)) 0 32 % 128 ≠ 0 || bitsOf (f (3 + 2 * s)) 32 3 > 4) ||
    ((List.range 6).any fun i => f (10 + i) ≠ 0)
/-- Whether an entry has a nonzero reserved field. -/
def entryBad (e : Nat) : Bool := bitsOf e 28 3 ≠ 0 || bitsOf e 22 2 ≠ 0 || bitsOf e 0 16 ≠ 0

/-- REGION_BIND: the map is read at once; the word ends with 1 or 2, or closes the pass (R406). A fault of the map's address,
alignment included, is the read fault of its step 1 (DEDUCED, notes/assumptions/19.md). -/
def execRegionBind (x : Pre) (ch : Bool) (f : Bool) (a b : BitVec 7) (s : State) : Host.Outcome State Fault Refusal :=
  qWord .ctl x ch (some a.toNat) (some b.toNat) (fun c => c.gfxCore) (fun c m va _ =>
    if !c.grid.lr.priv then c.raise .prot 0 c.act
    else
      let dst := c.sNum 2 b.toNat
      let answer := fun (v : Nat) => c.longS m f 2 b.toNat (BitVec.ofNat 64 v)
      if va.toNat % 128 ≠ 0 then answer 2
      else
        match mapWords m c.who va.toNat 8 16 with
        | .error vas => .stall { held := vas }
        | .ok none => answer 2
        | .ok (some h) =>
          if mapBad h then answer 1
          else
            match mapWords m c.who (va.toNat + 0x80) 4 ((bitsOf (h.getD 0 0) 0 8 + 1) * (bitsOf (h.getD 0 0) 8 8 + 1)) with
            | .error vas => .stall { held := vas }
            | .ok none => answer 2
            | .ok (some es) =>
              if es.any entryBad then answer 1
              else c.longWait m f (.bind va dst (h.map (BitVec.ofNat 64)) (es.map (BitVec.ofNat 32))) (some dst)) s

/-- The rights under which the SXB writes to a bound map. -/
def whoSxb (m : Mach) (p ctx : Nat) : Who :=
  { part := p, ctx := ctx, grid := m.grids.length, team := m.teams.length, priv := true, spec := false, narrow := false, die := 12, core := 0 }

/-- Bytes written by the SXB into a map as a device-scope release, at the level-2 slice, for a word of a group, and what follows; held
at a migrating page until a tlbinv covers it (10 R244); a failing translation drops them. -/
def mapWrite (m : Mach) (gi p ctx va n v : Nat) (next : Mach → Mach) : Option Mach :=
  let w := whoSxb m p ctx
  if pageHeld m gi va then none
  else
    match checkVa m w .store n false va with
    | .held => some (holdPages m w gi [va])
    | .ok l => some (next (putAt m w n v l))
    | _ => some (next m)

/-- Every dirty coh-1 byte of some dies written back (14 R331). -/
def flushDies (m : Mach) (dies : Nat → Bool) : Mach :=
  flushC1In (flushAtomsIn m (fun c => dies (c / 64)) 0 (2 ^ 80)) (fun x => dies (x.core / 64)) 0 (2 ^ 80)

/-- The lines of a region, by physical key: in each surface the lines that its rows touch (14 R331, 19 R405). -/
def regionLines (m : Mach) (p : Nat) (ps : Pass) (region : Nat) : List Nat :=
  ((List.range (wb (ps.hdr.getD 0 0) 16 3)).flatMap fun s =>
    let pitch := wb (ps.hdr.getD (3 + 2 * s) 0) 0 32
    let bytes := 64 * 2 ^ wb (ps.hdr.getD (3 + 2 * s) 0) 32 3
    (List.range 64).flatMap fun i =>
      let a := wb (ps.hdr.getD (2 + 2 * s) 0) 0 48 + (64 * (region / 256) + i) * pitch + region % 256 * bytes
      (List.range ((a % 128 + bytes + 127) / 128)).filterMap fun k =>
        let va := if k = 0 then a else a / 128 * 128 + 128 * k
        if regionAt m p va ≠ some region then none
        else match checkVa m (whoSxb m p ps.ctx) .load 1 false va with
          | .ok (.mem key _) => some (key / 128)
          | _ => none).dedup

/-- A die's lines of a region written back and dropped (14 R331). -/
def flushRegion (m : Mach) (p : Nat) (ps : Pass) (region die : Nat) : Mach :=
  let mine := fun (x : Dirty1) => decide (x.core / 64 = die)
  let any := m.c1.any (fun e => e.2.any mine) || m.cores.any fun c => c.1 / 64 = die && !c.2.atoms.isEmpty
  if !any then m
  else (regionLines m p ps region).foldl (fun m l =>
    flushC1In (flushAtomsIn m (fun c => decide (c / 64 = die)) (128 * l) 128) mine (128 * l) 128) m

/-- region.bind ends: the pass closed, the new one opened; none while a packet is undelivered or uncommitted (R406). -/
def bindDone (m : Mach) (gi : Nat) (o : Outst) (addr : Word) (dst : Nat) (hdr : List Word) (entries : List (BitVec 32)) : Option Mach :=
  let g := m.grp gi
  let p := (m.grid g.grid).part
  let x := m.part p
  let opened := fun (m : Mach) =>
    let new : Pass := { map := addr, ctx := (m.grid g.grid).ctx, hdr := hdr, entries := entries, last := [], uncommitted := [], late := 0, dropped := 0 }
    let m1 := flushDies m fun _ => true
    completeWord (m1.setPart p { m1.part p with pass := some new, marks := [] }) gi { o with wr := [.scal dst 0] }
  match x.pass with
  | none => some (opened m)
  | some ps =>
    if x.packets.any (fun k => k.accepted) || !ps.uncommitted.isEmpty then none
    else mapWrite m gi p ps.ctx (ps.map.toNat + 8) 8 (ps.dropped % 2 ^ 32 * 2 ^ 32 + ps.late % 2 ^ 32) opened

/-- REGION_XFER (R411). -/
def execRegionXfer (x : Pre) (ch : Bool) (f : Bool) (a b : BitVec 7) (s : State) : Host.Outcome State Fault Refusal :=
  qWord .ctl x ch (some a.toNat) (some b.toNat) (fun c => c.gfxCore) (fun c m va vb =>
    if !c.grid.lr.priv then c.raise .prot 0 c.act
    else
      let p := c.grid.part
      let dst := c.sNum 2 b.toNat
      let r := wb va 0 16
      let e := wb vb 0 32
      let answer := fun (v : Nat) => c.longS m f 2 b.toNat (BitVec.ofNat 64 v)
      let die := bitsOf e 24 4
      match (m.part p).pass with
      | none => answer 1
      | some ps =>
        if r % 256 > wb (ps.hdr.getD 0 0) 0 8 || r / 256 > wb (ps.hdr.getD 0 0) 8 8 then answer 2
        else if !bitAt e 31 || !(m.pk.has die && isShading die && partOf m.pk die 0 = p) then answer 3
        else
          let id := (m.grp c.gi).nextId
          match c.longWait m f (.xfer r (BitVec.ofNat 64 e) dst) (some dst) with
          | .ok m1 => .ok (m1.setPart p { m1.part p with moving := (m1.part p).moving ++ [(r, c.gi, id)] })
          | k => k) s

/-- Whether a command of the copy engine may still touch a region; a gather's sources count as everywhere. -/
def cmdTouches (m : Mach) (p region : Nat) (c : CeCmd) : Bool :=
  let w := fun (i : Nat) => c.w.getD i 0
  let op := wb (w 0) 56 8
  let hits := fun (a : Nat) => regionAt m p (a % 2 ^ 48) = some region
  (m.grid (m.grp c.grp).grid).part = p && c.token.isNone &&
    (op = 2 || (if op = 4 then
        (List.range (wb (w 3) 24 8 + 1)).any fun r => (List.range (wb (w 3) 16 8 + 1)).any fun u => hits ((w 1).toNat + r * wb (w 3) 32 32 + 16 * u)
      else (List.range (wb (w 0) 0 32 / 8)).any fun i => hits (c.dst.toNat + 8 * i) || (op = 1 && hits ((w 1).toNat + 8 * i))))

/-- Whether every access of a region that the groups and copy engines of a die have issued is performed; a waitc still armed reads
again later (14 R331). -/
def dieQuiet (m : Mach) (p region die : Nat) : Bool :=
  ((List.range m.groups.length).all fun gi => (m.grp gi).die ≠ die || (m.grp gi).freed ||
    (!storesHeld m gi && !((m.grp gi).tvPend.any fun w => match w with | .load .. => true | _ => false))) &&
    m.cores.all fun c => c.1 / 64 ≠ die || !(c.2.ce.any (cmdTouches m p region))

/-- region.xfer ends: the entry changed in the SXB's copy and in the map; none while a delivered packet of the region is
uncommitted, an access of the old die is still to be performed, or an earlier transfer of the region runs (R411, 14 R331). -/
def xferDone (m : Mach) (gi : Nat) (o : Outst) (region : Nat) (entry : Word) (dst : Nat) : Option Mach :=
  let p := (m.grid (m.grp gi).grid).part
  let mine := (movingNow m p).find? fun k => k.1 = region
  if mine ≠ some (region, gi, o.id) then none
  else
    let finish := fun (m : Mach) =>
      completeWord (m.setPart p { m.part p with moving := (m.part p).moving.erase (region, gi, o.id) }) gi { o with wr := [.scal dst 0] }
    match (m.part p).pass with
    | none => some (finish m)
    | some ps =>
      if !(uncommitted ps region).isEmpty then none
      else
        let k := region / 256 * (wb (ps.hdr.getD 0 0) 0 8 + 1) + region % 256
        let moves := fun (d : Nat) => (entryOf ps region).map entryDie = some d && entryDie (entry.truncate 32) ≠ d
        if (List.range 12).any fun d => moves d && !dieQuiet m p region d then none
        else
          let m1 := ((List.range 12).filter moves).foldl (fun m d => flushRegion m p ps region d) m
          let moved := fun (m : Mach) => m.setPart p { m.part p with pass := some { ps with entries := setAt ps.entries k (entry.truncate 32) } }
          mapWrite m1 gi p ps.ctx (ps.map.toNat + 0x80 + 4 * k) 4 (wb entry 0 32) fun m => finish (moved m)

/-! Coverage (R412). -/

/-- A vertex: x and y in 16.8 fixed point. -/
def vertexOf (w : Word) : Int × Int := (toSigned 24 (wb w 0 24), toSigned 24 (wb w 32 24))

/-- Twice the signed area of three points. -/
def area2 (a b c : Int × Int) : Int := (b.1 - a.1) * (c.2 - a.2) - (b.2 - a.2) * (c.1 - a.1)

/-- An edge's value at a point, and whether the point is inside it: left or top on a tie. -/
def edgeAt (sg : Int) (j k p : Int × Int) : Int × Bool :=
  let e := sg * area2 j k p
  let dx := sg * (k.1 - j.1)
  let dy := sg * (k.2 - j.2)
  (e, decide (e > 0) || (decide (e = 0) && (decide (dy < 0) || (decide (dy = 0) && decide (dx > 0)))))

/-- An integer over a positive integer as FP32. -/
def ratio32 (n : Int) (d : Nat) : Nat := (divF .f32 .rne (.fin (n < 0) n.natAbs 0) (.fin false d 0)).1

/-- One pixel: covered, and the weights of vertices 1 and 2. -/
def coverAt (v0 v1 v2 : Int × Int) (px py : Nat) : Bool × Word :=
  let d := area2 v0 v1 v2
  let sg : Int := if d < 0 then -1 else 1
  let p : Int × Int := (256 * px + 128, 256 * py + 128)
  let e0 := edgeAt sg v1 v2 p
  let e1 := edgeAt sg v2 v0 p
  let e2 := edgeAt sg v0 v1 p
  (d ≠ 0 && e0.2 && e1.2 && e2.2, if d = 0 then 0 else BitVec.ofNat 64 (ratio32 e2.1 d.natAbs * 2 ^ 32 + ratio32 e1.1 d.natAbs))

/-- COVER (R412). -/
def execCover (x : Pre) (ch : Bool) (a b : BitVec 7) (n : BitVec 3) (s : State) : Host.Outcome State Fault Refusal :=
  issue (some .alu) false x ch (fun c m =>
    let bo := opdOf c.pre 2 b.toNat
    if !(c.thirdRunOk 1 && c.sOk 1 a.toNat && c.sNum 1 a.toNat + 2 < c.g.ns && (bo.isV || bo.isM) && bo.exists? c.g && c.gfxCore) then c.illegal
    else if c.act = 0 then .ok m
    else if c.scalarsBusy a.toNat 3 || busyReg c.base c.gi c.vi c.third then .stall {}
    else
      match c.read m 2 b.toNat with
      | .error e => e
      | .ok (m1, vb) =>
        let vs := (c.scalars m a.toNat 3).map vertexOf
        let one := fun l => coverAt (vs.getD 0 default) (vs.getD 1 default) (vs.getD 2 default) (wb (vb l) 0 16) (wb (vb l) 16 16)
        let g := writeVec (m1.grp c.gi) c.third (c.lanes.map fun l => (l, (one l).2))
        let hit := maskOf (c.lanes.filter fun l => (one l).1)
        .ok (m1.setGrp c.gi (if n = 7 then g else { g with p := Tbl.set 0 g.p n.toNat ((Tbl.get 0 g.p n.toNat &&& ~~~c.act) ||| hit) }))) s

/-! Sampling (R413, R414). -/

/-- A texture descriptor. -/
structure Tex where
  nlev : Nat
  clampu : Bool
  clampv : Bool
  bilin : Bool
  fmt : Nat
  base : Nat
  w : Nat
  h : Nat
deriving DecidableEq, Repr, Inhabited

def texOf (d : Nat → Nat) : Tex :=
  { nlev := bitsOf (d 0) 56 3, clampv := bitAt (d 0) 54, clampu := bitAt (d 0) 53, bilin := bitAt (d 0) 52, fmt := bitsOf (d 0) 48 4,
    base := bitsOf (d 0) 0 48, w := bitsOf (d 1) 0 16 + 1, h := bitsOf (d 1) 16 16 + 1 }
def texBad (d : Nat → Nat) (level : Nat) : Bool :=
  bitsOf (d 0) 59 5 ≠ 0 || bitAt (d 0) 55 || bitsOf (d 1) 32 32 ≠ 0 || d 2 ≠ 0 || d 3 ≠ 0 || (texOf d).fmt > 2 ||
    (texOf d).base % 128 ≠ 0 || level > (texOf d).nlev

def texelBytes (fmt : Nat) : Nat := if fmt = 1 then 8 else 4
def levelW (t : Tex) (l : Nat) : Nat := max 1 (t.w / 2 ^ l)
def levelH (t : Tex) (l : Nat) : Nat := max 1 (t.h / 2 ^ l)
def levelPitch (t : Tex) (l : Nat) : Nat := 128 * ((levelW t l * texelBytes t.fmt + 127) / 128)
/-- The address of a level. -/
def levelBase (t : Tex) : Nat → Nat
  | 0 => t.base
  | l + 1 => levelBase t l + levelPitch t l * levelH t l

/-- Floor(u · w · 256), clamped to 32 bits; NaN gives 0. -/
def fixedCoord (u : Nat) (w : Nat) : Int :=
  match readF .f32 false u with
  | .nan _ => 0
  | .inf n => if n then -(2 ^ 31) else 2 ^ 31 - 1
  | .fin n m e =>
    let x : Int := (if n then -1 else 1) * (m * w * 256 : Nat)
    let v : Int := if e ≥ 0 then x * 2 ^ e.toNat else x / 2 ^ (-e).toNat
    max (-(2 ^ 31)) (min (2 ^ 31 - 1) v)

/-- The two indices of a coordinate and the weight of the second. -/
def texIndex (bilin clamp : Bool) (u w : Nat) : Nat × Nat × Nat :=
  let z := fixedCoord u w - (if bilin then 128 else 0)
  let i0 := z / 256
  let fit := fun (i : Int) => if clamp then (max 0 (min i (w - 1 : Nat))).toNat else (i % w).toNat
  (fit i0, fit (i0 + 1), if bilin then (z % 256).toNat else 0)

/-- The texels of a sample that have a weight: weight and address. -/
def texels (t : Tex) (l u v : Nat) : List (Nat × Nat) :=
  let iu := texIndex t.bilin t.clampu u (levelW t l)
  let iv := texIndex t.bilin t.clampv v (levelH t l)
  let va := fun (i j : Nat) => levelBase t l + j * levelPitch t l + i * texelBytes t.fmt
  [((256 - iu.2.2) * (256 - iv.2.2), va iu.1 iv.1), (iu.2.2 * (256 - iv.2.2), va iu.2.1 iv.1),
    ((256 - iu.2.2) * iv.2.2, va iu.1 iv.2.1), (iu.2.2 * iv.2.2, va iu.2.1 iv.2.1)].filter fun e => e.1 ≠ 0

/-- A channel of a texel as FP32: 0 R, 1 G, 2 B, 3 A. -/
def texChannel (fmt bits ch : Nat) : FVal :=
  match fmt with
  | 0 => readF .f32 false (divF .f32 .rne (.fin false (bitsOf bits (8 * ch) 8) 0) (.fin false 255 0)).1
  | 1 => readF .f16 false (bitsOf bits (16 * ch) 16)
  | _ => match ch with | 0 => readF .f32 false (bitsOf bits 0 32) | 3 => .fin false 1 0 | _ => .fin false 0 0

/-- The weighted sum of a channel, rounded once; an exact zero is +0. -/
def blend (ts : List (Nat × FVal)) : Nat :=
  let terms := ts.map fun e => mulF (.fin false e.1 (-16)) e.2
  let r := (fusedTerms .f32 .rne terms).1
  if (terms.all fun t => match t with | .fin .. => true | _ => false) && sumAt (minExp terms) terms = 0 then 0 else r

/-- SMPL (R414): a texel or a descriptor in the register window is PROT (DESIGN CHOICE, notes/assumptions/111.md). -/
def execSmpl (x : Pre) (ch : Bool) (f : Bool) (a b : BitVec 7) (l : BitVec 3) (s : State) : Host.Outcome State Fault Refusal :=
  issue (some .mem) false x ch (fun c m =>
    let bo := opdOf c.pre 2 b.toNat
    if !(c.thirdRunOk 2 && c.sOk 1 a.toNat && (bo.isV || bo.isM) && bo.exists? c.g && c.gfxCore) then c.illegal
    else if c.act = 0 then .ok m
    else if c.vecsBusy c.third 2 then .stall {}
    else
      match c.readS m 1 (some a.toNat), c.read m 2 b.toNat with
      | .ok va, .ok (m1, vb) =>
        match checkLanes m1 c.who .load 32 false (c.lanes.take 1 |>.map fun k => (k, va)) with
        | .error (.cause t) => .trap (if t.cause = .sramUe then t else { t with mask := c.act }) c.base []
        | .error (.hold vas) => .stall { held := vas }
        | .ok ds =>
          if anyPoison m1 32 ds then c.raise .sramUe 0 0
          else
            let big := match ds with | d :: _ => seeNum m1 c.who 32 d.2 | [] => 0
            let d := fun i => bitsOf big (64 * i) 64
            if texBad d l.toNat then c.illegal
            else
              let t := texOf d
              let ts := c.lanes.flatMap fun k => (texels t l.toNat (wb (vb k) 0 32) (wb (vb k) 32 32)).map fun e => (k, e)
              match checkLanes m1 c.who .load 1 false (ts.map fun e => (e.1, BitVec.ofNat 64 e.2.2)) with
              | .error e => c.stopEff e
              | .ok ls =>
                if anyPoison m1 (texelBytes t.fmt) ls then c.raise .sramUe 0 0
                else
                  let m2 := touchLines (touchLines (pinLocs (pinLocs m1 ds) ls) c.who false 32 ds) c.who false (texelBytes t.fmt) ls
                  let vals := (ts.zip ls).map fun e => (e.1.1, e.1.2.1, seeNum m2 c.who (texelBytes t.fmt) e.2.2)
                  let chan := fun k ch => blend ((vals.filter fun e => e.1 = k).map fun e => (e.2.1, texChannel t.fmt e.2.2 ch))
                  let wr := c.lanes.flatMap fun k =>
                    [RegWr.vec c.third k (BitVec.ofNat 64 (chan k 1 * 2 ^ 32 + chan k 0)),
                      RegWr.vec (c.third + 1) k (BitVec.ofNat 64 (chan k 3 * 2 ^ 32 + chan k 2))]
                  c.long m2 (c.flag f) wr [c.third, c.third + 1] .ready
      | .error e, _ => e
      | _, .error e => e) s

end Sys2Proof.Machine
end

