-- ==== Sys2Proof/Machine/Rays.lean ====
section
/-!
DEFINITION. Sys2Proof/Machine/Rays.lean: ray traversal by the TVU and the repacking of lanes by the RDU: trace, tres, tvld, tvst,
rpack and their events (19 R415 to R424, 20 R425).
-/

namespace Sys2Proof.Machine

/-! The state of a lane (R418). -/

/-- The state that tvld takes from sixteen words (R421). -/
def Tvu.ofWords (ws : List Nat) : Tvu :=
  let s := ws.getD 10 0
  let st := bitsOf s 0 8
  { Tvu.idle with
    w := (List.range 10).map fun i => BitVec.ofNat 32 (ws.getD i 0)
    cause := bitsOf s 24 8, hitfound := bitAt s 16, depth := min 64 (bitsOf s 8 8), status := if st ≥ 5 then 4 else st
    entries := (List.range 5).map fun k => BitVec.ofNat 32 (ws.getD (11 + k) 0) }

/-! The arithmetic of a traversal (R416, R417). -/

def f32Inf : Nat := 0x7F800000
def f32One : Nat := 0x3F800000
def vMin (x y : Nat) : Nat := (minMaxF .f32 false (f32 x) (f32 y)).1
def vMax (x y : Nat) : Nat := (minMaxF .f32 true (f32 x) (f32 y)).1
/-- x ≤ y and x < y as numbers; false for a NaN. -/
def vLe (x y : Nat) : Bool := !(f32 x).isNan && !(f32 y).isNan && cmpF (f32 x) (f32 y) ≤ 0
def vLt (x y : Nat) : Bool := !(f32 x).isNan && !(f32 y).isNan && cmpF (f32 x) (f32 y) < 0

/-- The slab test of a box of six words between two bounds: hit, and where it enters. -/
def slab (t : Tvu) (box : Nat → Nat) (lo hi : Nat) : Bool × Nat :=
  let axis := fun i =>
    let iv := tDiv f32One (t.at' (3 + i))
    let t1 := tMul (tSub (box i) (t.at' i)) iv
    let t2 := tMul (tSub (box (3 + i)) (t.at' i)) iv
    (vMin t1 t2, vMax t1 t2)
  let tn := vMax (vMax (vMax (axis 0).1 (axis 1).1) (axis 2).1) lo
  let tf := vMin (vMin (vMin (axis 0).2 (axis 1).2) (axis 2).2) hi
  (vLe tn tf, tn)

/-- Three components. -/
structure Vec3 where
  x : Nat
  y : Nat
  z : Nat
deriving DecidableEq, Repr, Inhabited

def vec3 (f : Nat → Nat) (i : Nat) : Vec3 := { x := f i, y := f (i + 1), z := f (i + 2) }
def sub3 (p q : Vec3) : Vec3 := { x := tSub p.x q.x, y := tSub p.y q.y, z := tSub p.z q.z }
def cross3 (p q : Vec3) : Vec3 :=
  { x := tSub (tMul p.y q.z) (tMul p.z q.y), y := tSub (tMul p.z q.x) (tMul p.x q.z), z := tSub (tMul p.x q.y) (tMul p.y q.x) }
def dot3 (p q : Vec3) : Nat := tAdd (tAdd (tMul p.x q.x) (tMul p.y q.y)) (tMul p.z q.z)

/-- Where the ray meets a triangle of nine words; none for no hit (R417). -/
def triHit (t : Tvu) (tri : Nat → Nat) : Option Nat :=
  let v0 := vec3 tri 0
  let e1 := sub3 (vec3 tri 3) v0
  let e2 := sub3 (vec3 tri 6) v0
  let d := vec3 t.at' 3
  let pv := cross3 d e2
  let det := dot3 e1 pv
  if (f32 det).isZero || (f32 det).isNan then none
  else
    let tv := sub3 (vec3 t.at' 0) v0
    let u := tDiv (dot3 tv pv) det
    let qv := cross3 tv e1
    let w := tDiv (dot3 d qv) det
    if vLe 0 u && vLe 0 w && vLe (tAdd u w) f32One then some (tDiv (dot3 e2 qv) det) else none

/-- Accept(t). -/
def acceptT (t : Tvu) (x : Nat) : Bool := vLe (t.at' 6) x && vLe x (t.at' 7) && vLt x (t.at' 8)
/-- A hit accepted: chit, prim and hitfound. -/
def takeHit (t : Tvu) (x prim : Nat) : Tvu := if acceptT t x then { (t.put 8 x).put 9 prim with hitfound := true } else t

/-! Memory of a traversal (R418, R420). -/

/-- What stops a step: a migrating page, poison in a node, poison in a walk, or a cause with its address. -/
inductive TvErr where
  | hold (va : Nat)
  | ue | dead
  | fault (cause : Nat) (addr : Nat)
deriving DecidableEq, Repr, Inhabited

/-- Words of 32 bits from an address on, read n bytes at a time: plain loads, the register window included (R420). -/
def tvFetch (m : Mach) (gi : Nat) (w : Who) (start n : Nat) : Nat → Nat → Except TvErr (List Nat)
  | 0, _ => .ok []
  | k + 1, va =>
    if pageHeld m gi va then .error (.hold va)
    else match checkVa m w .load n true va with
    | .held => .error (.hold va)
    | .ue => .error .dead
    | .bad c _ => .error (.fault c.code start)
    | .ok l =>
      if seePoison m n l then .error .ue
      else
        match tvFetch m gi w start n k (va + n) with
        | .error e => .error e
        | .ok xs =>
          let x := seeNum m w n l
          .ok ((List.range (n / 4)).map (fun i => bitsOf x (32 * i) 32) ++ xs)

/-- The address of a stack position of a lane. -/
def spillVa (m : Mach) (g : Group) (lane : Nat) (t : Tvu) (pos : Nat) : Nat := t.spill + 256 * itemOf m g lane + 4 * pos

/-- Words of a node or of the spill area read, the granules of a sync-class leaf pinned (18 R388). -/
def tvWords (m : Mach) (gi : Nat) (w : Who) (n k va : Nat) : Except TvErr (Mach × List Nat) :=
  let m1 := pinRange m w va (n * k)
  match tvFetch m1 gi w va n k va with
  | .error e => .error e
  | .ok xs => .ok (m1, xs)

/-- A reference popped: an entry below the five comes from the spill area. -/
def popRef (m : Mach) (gi : Nat) (w : Who) (lane : Nat) (t : Tvu) : Except TvErr (Mach × Nat × Tvu) :=
  let g := m.grp gi
  let d := t.depth - 1
  let r := (t.entries.getD 0 0).toNat
  let t1 := { t with depth := d, entries := t.entries.drop 1 ++ [0] }
  if d < 5 then .ok (m, r, t1)
  else
    match tvWords m gi w 4 1 (spillVa m g lane t (d - 5)) with
    | .error e => .error e
    | .ok (m1, xs) => .ok (m1, r, { t1 with entries := setAt t1.entries 4 (BitVec.ofNat 32 (xs.getD 0 0)) })

/-- A reference pushed: the fifth entry goes to the spill area. -/
def pushRef (gi : Nat) (w : Who) (lane : Nat) (r : Nat) (m : Mach) (t : Tvu) : Except TvErr (Mach × Tvu) :=
  let t1 := { t with depth := t.depth + 1, entries := BitVec.ofNat 32 r :: t.entries.take 4 }
  if t.depth ≥ 64 then .error (.fault 0x01 0)
  else if t.depth < 5 then .ok (m, t1)
  else
    let va := spillVa m (m.grp gi) lane t (t.depth - 5)
    if pageHeld m gi va then .error (.hold va)
    else match checkVa m w .store 4 true va with
    | .held => .error (.hold va)
    | .ue => .error .dead
    | .bad c _ => .error (.fault c.code va)
    | .ok l => .ok (putAt m w 4 ((t.entries.getD 4 0).toNat) l, t1)
def pushRefs (gi : Nat) (w : Who) (lane : Nat) : List Nat → Mach → Tvu → Except TvErr (Mach × Tvu)
  | [], m, t => .ok (m, t)
  | r :: rs, m, t =>
    match pushRef gi w lane r m t with
    | .error e => .error e
    | .ok (m1, t1) => pushRefs gi w lane rs m1 t1

/-- What a pop and its node do: the lane goes on, or stops with its two results. -/
inductive TvStep where
  | on (m : Mach) (t : Tvu)
  | stop (m : Mach) (t : Tvu) (c c1 : Nat)
deriving Inhabited

/-- The children of a box that are hit, in the order they are pushed: descending entry, then descending index. -/
def boxHits (t : Tvu) (ws : List Nat) : List Nat :=
  let hi := vMin (t.at' 7) (t.at' 8)
  let hits := (List.range 4).filterMap fun i =>
    let ref := ws.getD (24 + i) 0
    let s := slab t (fun k => ws.getD (6 * i + k) 0) (t.at' 6) hi
    if bitsOf ref 30 2 = 3 || !s.1 then none else some (s.2, i, ref)
  (sortBy (fun a b : Nat × Nat × Nat => vLt b.1 a.1 || (!vLt a.1 b.1 && a.2.1 > b.2.1)) hits).map fun h => h.2.2

/-- One pop and its node (R416). -/
def tvNode (m0 : Mach) (gi : Nat) (w : Who) (lane : Nat) (t : Tvu) : Except TvErr TvStep :=
  match popRef m0 gi w lane t with
  | .error e => .error e
  | .ok (m, r, t1) =>
    let idx := bitsOf r 0 30
    let va := t.base + 32 * idx
    match bitsOf r 30 2 with
    | 0 =>
      if idx % 4 ≠ 0 then .error (.fault 0x07 va)
      else
        match tvWords m gi w 8 16 va with
        | .error e => .error e
        | .ok (m1, ws) =>
          match pushRefs gi w lane (boxHits t1 ws) m1 t1 with
          | .error e => .error e
          | .ok (m2, t2) => .ok (.on m2 t2)
    | 1 =>
      match tvWords m gi w 8 6 va with
      | .error e => .error e
      | .ok (m1, ws) =>
        match triHit t1 fun i => ws.getD i 0 with
        | some x => .ok (.on m1 (takeHit t1 x (ws.getD 9 0)))
        | none => .ok (.on m1 t1)
    | 2 =>
      match tvWords m gi w 8 4 va with
      | .error e => .error e
      | .ok (m1, ws) =>
        let s := slab t1 (fun i => ws.getD i 0) (t1.at' 6) (vMin (t1.at' 7) (t1.at' 8))
        if s.1 then
          .ok (.stop m1 { t1 with status := 2 } (2 * 2 ^ 56 + bitsOf (ws.getD 7 0) 0 24 * 2 ^ 32 + ws.getD 6 0) (s.2 * 2 ^ 32 + t1.at' 8))
        else .ok (.on m1 t1)
    | _ => .ok (.on m t1)

/-- A step of a running lane: a node, or the end of its stack. -/
def tvAdvance (m : Mach) (gi : Nat) (w : Who) (lane : Nat) (t : Tvu) : Except TvErr TvStep :=
  if t.depth = 0 then
    .ok (if t.hitfound then .stop m { t with status := 1 } (2 ^ 56 + t.at' 9) (t.at' 8) else .stop m { t with status := 0 } 0 (t.at' 8))
  else tvNode m gi w lane t

/-! Words in progress (R419 to R422). -/

/-- A job's lanes changed. -/
def onJob (m : Mach) (gi id : Nat) (f : TvJob → TvJob) : Mach :=
  m.setGrp gi { m.grp gi with tvJobs := (m.grp gi).tvJobs.map fun j => if j.id = id then f j else j }
/-- A lane of a job needs nothing more. -/
def laneDone (m : Mach) (gi id lane : Nat) : Mach := onJob m gi id fun j => { j with left := j.left &&& ~~~(1#64 <<< lane) }

/-- A running lane stops: its state, its two results, and its job (R420). -/
def tvStop (m : Mach) (gi lane : Nat) (t : Tvu) (c c1 : Nat) (fault : Option (Nat × Word)) : Mach :=
  let m1 := tvSet m gi lane t
  match (m1.grp gi).tvJobs.find? fun j => j.id = t.job with
  | none => m1
  | some j =>
    let m2 := addWr m1 gi j.id [.vec j.dst lane (BitVec.ofNat 64 c), .vec (j.dst + 1) lane (BitVec.ofNat 64 c1)]
    let m3 := match fault with
      | some (k, a) => onJob m2 gi j.id fun j => { j with faults := j.faults ++ [(lane, k, a)] }
      | none => m2
    laneDone m3 gi j.id lane

/-- The lane a waiting piece of work belongs to. -/
def TvPend.lane : TvPend → Nat
  | .start l _ => l
  | .resume l .. => l
  | .load l .. => l
  | .store l .. => l

/-- What a piece of work that meets a migrating page does: it is held there until a tlbinv covers it (10 R244). -/
def tvHold (m : Mach) (gi : Nat) (va : Nat) : Option (Mach × Bool) :=
  if pageHeld m gi va then none else some (holdPages m (whoGroup m gi) gi [va], false)

/-- tvst of a lane that is not running, and whether it is done; a translation that fails after issue kills the grid (10 R241,
05 R147). -/
def tvStore (m : Mach) (gi lane : Nat) (addr : Word) (job : Nat) : Option (Mach × Bool) :=
  let w := whoGroup m gi
  if pageHeld m gi addr.toNat then none
  else match checkVa m w .store 64 false addr.toNat with
  | .held => tvHold m gi addr.toNat
  | .ok l =>
    let bs := ofBytes (((tvGet (m.grp gi) lane).words).flatMap fun x => toBytes 4 x)
    some (laneDone (putAt m w 64 bs l) gi job lane, true)
  | .ue => some (killFor m gi 0x11 0, true)
  | .bad c _ => some (killFor m gi c.code addr, true)

/-- tvld of a lane that is not running, and whether it is done. -/
def tvLoad (m : Mach) (gi lane : Nat) (addr : Word) (job : Nat) : Option (Mach × Bool) :=
  let w := whoGroup m gi
  if pageHeld m gi addr.toNat then none
  else match checkVa m w .load 64 false addr.toNat with
  | .held => tvHold m gi addr.toNat
  | .ok l =>
    if seePoison m 64 l then some (handleUE m (m.grp gi).team, true)
    else
      let m1 := touchLines (pinLocs m [(lane, l)]) w false 64 [(lane, l)]
      let x := seeNum m1 w 64 l
      some (laneDone (tvSet m1 gi lane (Tvu.ofWords ((List.range 16).map fun i => bitsOf x (32 * i) 32))) gi job lane, true)
  | .ue => some (killFor m gi 0x11 0, true)
  | .bad c _ => some (killFor m gi c.code addr, true)

/-- tres of a lane that is not running: PROC and FAULT lanes go on, others are unchanged and count as stopped (R419, R420). -/
def tvResume (m : Mach) (gi lane kind : Nat) (v : Word) (base spill job : Nat) : Mach :=
  let t := tvGet (m.grp gi) lane
  if t.status ≠ 2 && t.status ≠ 3 then laneDone m gi job lane
  else
    let x := wb v 0 32
    let t1 := match kind with
      | 1 => takeHit t x (wb v 32 32)
      | 2 => t.put 7 (vMin (t.at' 7) x)
      | _ => t
    tvSet m gi lane { t1 with status := 5, cause := 0, faddr := 0, base := base, spill := spill, job := job }

/-- One piece of work of a lane that is not running, and whether it is done; none while it must wait. -/
def tvPiece (m : Mach) (gi : Nat) : TvPend → Option (Mach × Bool)
  | .start l t => some (tvSet m gi l t, true)
  | .resume l k v b sp j => some (tvResume m gi l k v b sp j, true)
  | .load l a j => tvLoad m gi l a j
  | .store l a j => tvStore m gi l a j

/-- A piece of work that is done taken away. -/
def tvEnd (gi : Nat) (w : TvPend) (r : Mach × Bool) : Mach :=
  if r.2 then r.1.setGrp gi { r.1.grp gi with tvPend := (r.1.grp gi).tvPend.erase w } else r.1

/-- The oldest piece of work of a lane. -/
def pendOf (g : Group) (lane : Nat) : Option TvPend := g.tvPend.find? fun w => w.lane = lane

/-- What the TVU does next for a lane; none when it has nothing to do there or must wait (R416, R420, R422). -/
def tvNext (m : Mach) (gi lane : Nat) : Option Mach :=
  let g := m.grp gi
  let t := tvGet g lane
  if g.freed || g.stopped || (m.team g.team).place ≠ .resident then none
  else if t.status = 5 then
    if (m.team g.team).stopping.isSome && teamQuiet m g.team then none
    else
    match tvAdvance m gi (whoGroup m gi) lane t with
    | .ok (.on m1 t1) => some (tvSet m1 gi lane t1)
    | .ok (.stop m1 t1 c c1) => some (tvStop m1 gi lane t1 c c1 none)
    | .error (.hold va) => (tvHold m gi va).map Prod.fst
    | .error .ue => some (handleUE m g.team)
    | .error .dead => some (killFor m gi 0x11 0)
    | .error (.fault k a) =>
      let addr := a % 2 ^ 48
      some (tvStop m gi lane { t with status := 3, cause := k, faddr := BitVec.ofNat 64 addr } (3 * 2 ^ 56 + k * 2 ^ 48 + addr) (t.at' 8)
        (some (k, BitVec.ofNat 64 addr)))
  else
    match pendOf g lane with
    | none => none
    | some w => (tvPiece m gi w).map (tvEnd gi w)

/-- TVU_NODE_STEP (R416). -/
def execTvuNodeStep (g lane : Nat) (s : State) : Host.Outcome State Fault Refusal := .next { s with m := (tvNext s.m g lane).getD s.m }

/-- The token of a traversal word (R420). -/
def tvToken (j : TvJob) : Word :=
  match firstBy (fun a b : Nat × Nat × Word => a.1 < b.1) j.faults with
  | none => BitVec.ofNat 64 (3 * 2 ^ 48)
  | some f => BitVec.ofNat 64 (f.2.1 * 2 ^ 56 + 3 * 2 ^ 48 + wb f.2.2 0 48)

/-- A word at the TVU completes when its lanes have stopped and its token, if it has one, has been pushed (R420). -/
def tvDone (m : Mach) (gi : Nat) (o : Outst) : Option Mach :=
  match (m.grp gi).tvJobs.find? fun j => j.id = o.id with
  | none => some (completeWord m gi o)
  | some j =>
    if j.left ≠ 0 then none
    else
      let finish := fun (m : Mach) => completeWord (m.setGrp gi { m.grp gi with tvJobs := (m.grp gi).tvJobs.filter fun k => k.id ≠ j.id }) gi o
      match j.q with
      | none => some (finish m)
      | some q => (pushToken m gi q (.eng 3) (tvToken j) (.tv (maskOf (j.faults.map Prod.fst)))).map finish

/-! Issuing (R415, R419, R421). -/

/-- A scene record: base, root and spill; none when it breaks a rule (R415). -/
def sceneOf (x : Nat) : Option (Nat × Nat × Nat) :=
  let w := fun i => bitsOf x (64 * i) 64
  if bitsOf (w 0) 48 16 ≠ 0 || bitsOf (w 1) 32 32 ≠ 0 || bitsOf (w 2) 48 16 ≠ 0 || w 3 ≠ 0 || w 0 % 128 ≠ 0 || w 2 % 256 ≠ 0 then none
  else some (w 0, w 1, w 2)

/-- The scene record and the queue of trace and tres, checked before issue. -/
def Cx.withScene (c : Cx) (m : Mach) (q : Nat) (va : Word) (k : Mach → Nat × Nat × Nat → Eff) : Eff :=
  match checkLanes m c.who .load 32 false ((c.lanes.take 1).map fun l => (l, va)) with
  | .error (.cause t) => .trap (if t.cause = .sramUe then t else { t with mask := c.act }) c.base []
  | .error (.hold vas) => .stall { held := vas }
  | .ok ls =>
    if anyPoison m 32 ls then c.raise .sramUe 0 0
    else
      let m := touchLines (pinLocs m ls) c.who false 32 ls
      match sceneOf (match ls with | l :: _ => seeNum m c.who 32 l.2 | [] => 0) with
      | none => c.illegal
      | some sc =>
        if (qGet (m.grp c.gi) q).bind ≠ .eng 3 then c.raise .queueState (BitVec.ofNat 64 q) c.act else k m sc

/-- The work of a word that need not wait, done as the word issues: that of lanes that are not running and have no earlier
work. -/
def tvNow (m : Mach) (gi : Nat) (ws : List TvPend) : Mach :=
  ws.foldl (fun m w =>
    let g := m.grp gi
    if (tvGet g w.lane).status ≠ 5 && pendOf g w.lane = some w then
      match tvPiece m gi w with
      | some r => tvEnd gi w r
      | none => m
    else m) m

/-- A word at the TVU issues: its job, and a piece of work for each lane. -/
def Cx.tvIssue (c : Cx) (m : Mach) (flag : Option Nat) (q : Option Nat) (dsts : List Nat) (work : Nat → Nat → TvPend) : Eff :=
  let id := (m.grp c.gi).nextId
  let dst := dsts.headD 0
  match c.long m flag [] dsts .tv with
  | .ok m1 =>
    let g := m1.grp c.gi
    let j : TvJob := { id := id, q := q, dst := dst, left := c.act, faults := [] }
    .ok (tvNow (m1.setGrp c.gi { g with tvJobs := g.tvJobs ++ [j], tvPend := g.tvPend ++ c.lanes.map (work id) }) c.gi (c.lanes.map (work id)))
  | e => e

/-- The state that a trace starts a lane with: the ray, an empty hit, and the root on the stack (R419). -/
def traceState (ray : List Word) (sc : Nat × Nat × Nat) (job : Nat) : Tvu :=
  let half := fun i => BitVec.ofNat 32 (wb (ray.getD (i / 2) 0) (32 * (i % 2)) 32)
  { Tvu.idle with
    w := (List.range 8).map half ++ [BitVec.ofNat 32 f32Inf, 0]
    depth := 1, status := 5, entries := [BitVec.ofNat 32 sc.2.1, 0, 0, 0, 0], base := sc.1, spill := sc.2.2, job := job }

/-- TRACE (R419). -/
def execTrace (x : Pre) (ch : Bool) (f : Bool) (q : BitVec 3) (a b : BitVec 7) (s : State) : Host.Outcome State Fault Refusal :=
  issue (some .mem) false x ch (fun c m =>
    if !(c.thirdRunOk 2 && c.runOk 1 a.toNat 4 && c.sOk 2 b.toNat && c.gfxCore) then c.illegal
    else if c.act = 0 then .ok m
    else if c.vecsBusy a.toNat 4 || c.vecsBusy c.third 2 then .stall {}
    else
      match c.readS m 2 (some b.toNat) with
      | .error e => e
      | .ok vb =>
        c.withScene m q.toNat vb fun m sc =>
          c.tvIssue m (c.flag f) (some q.toNat) [c.third, c.third + 1] fun id l => .start l (traceState (c.vecRun m a.toNat 4 l) sc id)) s

/-- TRES: kinds 0 .go, 1 .hit, 2 .tmax (R419). -/
def tresWord (kind : Nat) (x : Pre) (ch : Bool) (f : Bool) (q : BitVec 3) (a b : BitVec 7) (s : State) : Host.Outcome State Fault Refusal :=
  issue (some .mem) false x ch (fun c m =>
    if !(c.thirdRunOk 2 && c.vsOk 1 a.toNat true && c.sOk 2 b.toNat && c.gfxCore) then c.illegal
    else if c.act = 0 then .ok m
    else if c.vecsBusy c.third 2 then .stall {}
    else
      match c.readS m 2 (some b.toNat), c.read m 1 a.toNat with
      | .ok vb, .ok (m1, va) =>
        c.withScene m1 q.toNat vb fun m1 sc =>
          c.tvIssue m1 (c.flag f) (some q.toNat) [c.third, c.third + 1] fun id l => .resume l kind (va l) sc.1 sc.2.2 id
      | .error e, _ => e
      | _, .error e => e) s
/-- TRES_GO (R419). -/
def execTresGo (x : Pre) (ch : Bool) (f : Bool) (q : BitVec 3) (a b : BitVec 7) (s : State) : Host.Outcome State Fault Refusal := tresWord 0 x ch f q a b s
/-- TRES_HIT (R419). -/
def execTresHit (x : Pre) (ch : Bool) (f : Bool) (q : BitVec 3) (a b : BitVec 7) (s : State) : Host.Outcome State Fault Refusal := tresWord 1 x ch f q a b s
/-- TRES_TMAX (R419). -/
def execTresTmax (x : Pre) (ch : Bool) (f : Bool) (q : BitVec 3) (a b : BitVec 7) (s : State) : Host.Outcome State Fault Refusal := tresWord 2 x ch f q a b s

/-- tvld and tvst: their addresses checked precisely, then one piece of work a lane (R421). An address in the register window is PROT
(DESIGN CHOICE, notes/assumptions/111.md). -/
def tvMove (acc : Acc) (work : Nat → Word → Nat → TvPend) (x : Pre) (ch : Bool) (f : Bool) (a : BitVec 7) (s : State) : Host.Outcome State Fault Refusal :=
  issue (some .mem) false x ch (fun c m =>
    if !(c.plainPre (some a.toNat) none && c.vsOk 1 a.toNat false && c.gfxCore) then c.illegal
    else if c.act = 0 then .ok m
    else
      match c.read m 1 a.toNat with
      | .error e => e
      | .ok (m1, va) =>
        match unlessHeld m1 c.gi 64 (checkLanes m1 c.who acc 64 false (c.lanes.map fun l => (l, va l))) with
        | .error e => c.stopEff e
        | .ok ls => if acc = .load && anyPoison m1 64 ls then c.raise .sramUe 0 0 else c.tvIssue m1 (c.flag f) none [] fun id l => work l (va l) id) s
/-- TVLD (R421). -/
def execTvld (x : Pre) (ch : Bool) (f : Bool) (a : BitVec 7) (s : State) : Host.Outcome State Fault Refusal := tvMove .load .load x ch f a s
/-- TVST (R421). -/
def execTvst (x : Pre) (ch : Bool) (f : Bool) (a : BitVec 7) (s : State) : Host.Outcome State Fault Refusal := tvMove .store .store x ch f a s

/-! Repacking (R423, R424). -/

/-- Whether rpack may stand where it does: the last word of a course with no coping, the group's only voice, nothing parked. -/
def Cx.rpackPlace (c : Cx) : Bool :=
  let v := c.voice
  c.bword + 1 = v.code.length && !(v.code.getLast?.any isCoping) && c.g.voices.length = 1 && c.g.park.isEmpty && !c.grid.lr.ordered

/-- RPACK: an arrival; lanes outside Active exit, and the others stand at the next course until the phase completes (R423). -/
def execRpack (x : Pre) (ch : Bool) (f : Bool) (a b : BitVec 7) (s : State) : Host.Outcome State Fault Refusal :=
  issue (some .mem) false x ch (fun c m =>
    let ao := opdOf c.pre 1 a.toNat
    if !(c.plainPre none (some b.toNat) && (ao.isV || ao.isM) && ao.exists? c.g && c.pre.ext 1 = 0 && c.sOk 2 b.toNat && c.gfxCore && c.rpackPlace) then c.illegal
    else if c.act = 0 then .ok m
    else
      match c.read m 1 a.toNat, c.readS m 2 (some b.toNat) with
      | .ok (_, va), .ok vb =>
        let g := m.grp c.gi
        let t := m.team c.g.team
        let stopped := maskOf (c.lanes.filter fun l => (tvGet g l).status = 2 || (tvGet g l).status = 3)
        if (vb.toNat ≥ 2 ^ min 64 c.g.nv) || (t.rpMask.isSome && t.rpMask ≠ some vb) then c.illegal
        else if stopped ≠ 0 then c.raise .illegalOp c.waddr stopped
        else
          match c.long m (c.flag f) [] [] (.rpack t.rpPhase) with
          | .ok m1 =>
            let m2 := m1.setGrp c.gi { m1.grp c.gi with repack := some (c.lanes.map fun l => (l, wb (va l) 0 32)) }
            let m3 := m2.setTeam c.g.team { m2.team c.g.team with rpMask := some vb }
            .xfer ((lanesOf c.vmask).map fun l => (l, if c.act.getLsbD l then some (fallThrough c.voice) else none)) m3
          | e => e
      | .error e, _ => e
      | _, .error e => e) s

/-- Whether every group of a team that has not drained has arrived, stands at its next course, and has had every access it issued
before performed: its arrival is a release (R423). -/
def repackReady (m : Mach) (ti : Nat) : Bool :=
  (m.team ti).groups.any (fun i => (m.grp i).repack.isSome) &&
    (m.team ti).groups.all fun i =>
      let g := m.grp i
      g.freed || g.live = 0 || (g.repack.isSome && !accessesHeld m i g.nextId true && g.voices.all fun v => !v.2.inside && v.2.pend.isNone)

/-- The arrived lanes of a team, sorted by key, stably in (GROUPID, LANEID) order: group index and lane. -/
def repackOrder (m : Mach) (ti : Nat) : List (Nat × Nat) :=
  let all := (m.team ti).groups.flatMap fun gi => (((m.grp gi).repack).getD []).map fun e => (e.2, gi, e.1)
  (sortBy (fun a b : Nat × Nat × Nat => a.1 < b.1) all.reverse).map Prod.snd

/-- A free value among the vector registers of a team (R423; notes/assumptions/20.md). -/
def teamWord (m : Mach) (ti salt : Nat) : Word :=
  let gs := (m.team ti).groups
  let pick := fun k n => (Config.freeWord m.fresh (4 * salt + k)).toNat % max 1 n
  Tbl.get 0 (m.grp (gs.getD (pick 0 gs.length) 0)).v (64 * pick 1 96 + pick 2 64)

/-- A group after a repack: what its lanes receive from the sorted list's part (R423). -/
def repackGroup (m : Mach) (ti gi : Nat) (mask : Word) (from' : List (Nat × Nat)) : Group :=
  let g := m.grp gi
  let lane := fun (n : Nat) => from'.getD n (0, 0)
  let src := fun (n : Nat) => m.grp (lane n).1
  let ls := List.range from'.length
  let regs := (List.range g.nv).flatMap fun r => ls.map fun n =>
    (64 * r + n, if mask.getLsbD r then Tbl.get 0 (src n).v (64 * r + (lane n).2) else teamWord m ti (64 * (96 * gi + r) + n))
  let preds := (List.range 7).map fun p => (p, maskOf (ls.filter fun n => (Tbl.get 0 (src n).p p).getLsbD (lane n).2))
  let rets := ls.map fun n => (n, Tbl.get [] (src n).ret (lane n).2)
  let live := maskOf ls
  let g1 : Group :=
    { g with v := regs.foldl (fun t e => Tbl.set 0 t e.1 e.2) (g.v.filter fun e => from'.length ≤ e.1 % 64),
             p := preds.foldl (fun t e => Tbl.set 0 t e.1 e.2) [], ret := rets.foldl (fun t e => Tbl.set [] t e.1 e.2) [] }
  { g1 with tvu := [], tvPend := [], tvJobs := g.tvJobs.map (fun j => { j with left := 0 }),
            voices := (g.voices.map fun v => (v.1, { v.2 with mask := live })).filter fun v => v.2.mask ≠ 0, repack := none }

/-- A repack completes: every group's lanes, exits, tokens and words (R423, R424). The lanes go to the arrived groups in GROUPID
order (DEDUCED, notes/assumptions/20.md). -/
def repackTeam (m : Mach) (ti : Nat) : Mach :=
  let t := m.team ti
  let order := repackOrder m ti
  let arrived := t.groups.filter fun gi => (m.grp gi).repack.isSome
  let mask := t.rpMask.getD 0
  let one := fun (acc : Mach) (e : Nat × Nat) =>
    let g := m.grp e.2
    let part := (order.drop (e.1 * g.width)).take g.width
    let tok := BitVec.ofNat 64 (4 * 2 ^ 48 + part.length * 2 ^ 32 + order.length * 2 ^ 16 + t.rpPhase % 2 ^ 16)
    let bound := g.q.any fun q => q.2.bind = .eng 4
    let new := repackGroup m ti e.2 mask part
    let tokens := if bound && !part.isEmpty then g.rdTok ++ [tok] else if part.isEmpty then [] else g.rdTok
    let acc1 := acc.setGrp e.2 { new with live := g.live ||| maskOf (List.range part.length), rdTok := tokens }
    let gone := (lanesOf (acc1.grp e.2).live).filter fun l => part.length ≤ l
    let acc2 := exitLanes acc1 e.2 gone
    ((g.outst.filter fun o => match o.wait with | .rpack _ => true | _ => false).map fun o => o.id).foldl (fun m id => performed m e.2 id []) acc2
  let m1 := ((List.range arrived.length).zip arrived).foldl one m
  m1.setTeam ti { m1.team ti with rpMask := none, rpPhase := t.rpPhase + 1 }

/-- A free place for a repack token in the queue bound to the RDU. -/
def rduRoom (g : Group) : Option Nat :=
  (List.range 8).find? fun q => (qGet g q).bind = .eng 4 && (qGet g q).elems.length < 8

/-- RDU_TOKEN_PUSH (R424). -/
def pushRdu (m : Mach) (gi : Nat) : Option Mach :=
  let g := m.grp gi
  match g.rdTok, rduRoom g with
  | w :: rest, some q =>
    if g.freed || (m.team g.team).place ≠ .resident then none
    else (pushToken (m.setGrp gi { g with rdTok := rest }) gi q (.eng 4) w .rd)
  | _, _ => none
def execRduTokenPush (g : Nat) (s : State) : Host.Outcome State Fault Refusal := .next { s with m := (pushRdu s.m g).getD s.m }

end Sys2Proof.Machine
end

