-- ==== Sys2Proof/Machine/System.lean ====
section
/-!
DEFINITION. Sys2Proof/Machine/System.lean: the meanings of ctxsv, ctxrs and tlbinv (05 R155 to R158).
-/

namespace Sys2Proof.Machine

/-- A context word: a kind-0 prefix whose payload is zero apart from flg; the fields name s0 to s15; PROT for a group that is
not privileged; once when a lane is active; minors 3 to 5 issue on MEM (R155, 01 R36). -/
def ctxWord (x : Pre) (ch : Bool) (fields : List Nat) (ok : Bool) (body : Cx → Mach → Eff) (s : State) :
    Host.Outcome State Fault Refusal :=
  issue (some .mem) false x ch (fun c m =>
    let named := fields.all fun k => 0x70 ≤ k && k - 0x70 < c.g.ns
    if !(c.kind0 true && ok && named) then c.illegal
    else if c.act = 0 then .ok m
    else if !c.grid.lr.priv then c.raise .prot 0 c.act
    else if fields.any fun k => busyReg c.base c.gi c.vi (128 + (k - 0x70)) then .stall {}
    else body c m) s

/-- The scalar a field of a context word names. -/
def Cx.ctxScalar (c : Cx) (m : Mach) (code : Nat) : Word := scalVal m.fresh c.base c.gi (code - 0x70)

/-- The rights of a context word's own accesses. -/
def ctxWho (m : Mach) (gi : Nat) : Who := { whoGroup m gi with spec := false }

/-- One address in each 64 KiB page of some bytes, and those at which a migrating page holds an access. -/
def spanVas (va n : Nat) : List Nat :=
  (List.range ((va % 65536 + n + 65535) / 65536)).map fun i => if i = 0 then va else va / 65536 * 65536 + 65536 * i
def spanHeld (m : Mach) (w : Who) (acc : Acc) (va n : Nat) : List Nat := (spanVas va n).filter fun a => checkVa m w acc 1 false a = .held

/-- Whether every byte of a range passes an access's checks. -/
def spanOk (m : Mach) (w : Who) (acc : Acc) (va n : Nat) : Bool :=
  (spanVas va n).all fun a => match checkVa m w acc 1 false a with | .ok _ => true | _ => false

/-- Bytes of an area written by the device: at the level-2 slice, line by line, after dirty copies are recalled (14 R329); those
that cannot be written are left. -/
def putArea (m0 : Mach) (w : Who) (va : Nat) (bs : List Byte) : Mach :=
  let m := pinRange m0 w va bs.length
  let cells := ((List.range bs.length).zip bs).filterMap fun ib => match checkVa m w .store 1 false (va + ib.1) with
    | .ok (.mem key _) => some (key, ib.2)
    | _ => none
  wrLines (((cells.map fun c => c.1 / 128).dedup).foldl (fun m l => recallC1 m (128 * l) 128) m) cells

/-- The result byte of an area, where it can be written (R156). -/
def putResult (m : Mach) (w : Who) (area : Word) (r : Nat) : Mach := putArea m w (area.toNat + 0x28) [BitVec.ofNat 8 r]

/-- Whether a full area that ctxsv wrote holds a grid: it runs only after ctxrs. -/
def inArea (m : Mach) (gr : Nat) : Bool := m.areas.any fun a => match a with | some x => x.gr = gr | none => false

/-- The grid that a record address names: one of the context that runs (R156). -/
def namedGrid (m : Mach) (w : Who) (addr : Word) : Option Nat :=
  (List.range m.grids.length).find? fun i =>
    let x := m.grid i
    x.part = w.part && x.ctx = w.ctx && x.recAddr = addr && !x.ended && !x.killed && i ≠ w.grid && !inArea m i

/-- A team taken off, into a full area: everything that its core holds with its tag is written out; a resident one leaves its core,
the others leave where they stand. -/
def shelve (m0 : Mach) (ti : Nat) : Mach :=
  let k := takeOff m0 true ti
  let m := if (m0.team ti).place = .resident then leaveCore m0 ti none .context else m0
  let run := ((m.team ti).kept.bind fun k => k.run)
  let m1 := writeOutTeam m ti
  let reqs := ((m1.team ti).kept.map fun k => k.reqs).getD []
  (poolGive m1 (m1.grid (m1.team ti).grid).part run).setTeam ti
    { m1.team ti with place := .context, stopping := none,
                      kept := if (m1.team ti).groups.isEmpty then none else some { k with run := none, reqs := reqs } }

/-- The reservations in resonance buffers that the freed groups of a grid keep are given up (R156, 09 R216). -/
def dropRes (m : Mach) (gr : Nat) : Mach :=
  { m with groups := m.groups.map fun g => if g.grid = gr && g.freed then { g with holdsRes := false } else g }

/-- The full area written and every resource of the grid freed (R156). -/
def storeGrid (m : Mach) (w : Who) (gr : Nat) (area : Word) (secs : List (Nat × List Byte × Nat)) : Mach :=
  let ts := teamsOf m gr
  let x := m.grid gr
  let a := area.toNat
  let hdr := areaHeader m gr (featuresOf m gr (liveGroups m ts) ts) false secs
  let m1 := hdr.foldl (fun m h => putArea m w (a + h.1) (toBytes 8 h.2.toNat)) m
  let m2 := (placeSecs 256 secs).foldl (fun m s => putArea m w (a + s.1) s.2.2.1) m1
  let m3 := dropRes (ts.foldl shelve m2) gr
  let own := (m3.part x.part).shadows.filter fun s => x.lr.spec && ownShadow m3 gr s
  let gs := ts.flatMap fun t => (m3.team t).groups
  let ar : Area :=
    { gr := gr, grid := { m3.grid gr with tail := none }, teams := ts.map fun t => (t, m3.team t), groups := gs.map fun g => (g, m3.grp g),
      mons := (List.range 12).flatMap fun d => ((m3.mc d).mons ++ (m3.mc d).arms).filter fun k => gs.contains k.grp, shadows := own }
  let m4 := gs.foldl dropHolds (if x.lr.spec then dropShadows m3 gr else m3)
  let p := m4.part x.part
  let m5 := m4.setPart x.part { p with queues := (p.queues.map fun q => (q.1, q.2.filter fun e => !ofGrid m4 gr e)).filter fun q => !q.2.isEmpty }
  let m6 := (poolGive m5 x.part x.tail).setGrid gr { m5.grid gr with tail := none }
  { m6 with areas := m6.areas ++ [some ar] }

/-- What a ctxsv does once its teams are quiet: the size needed, when the area is too small; else the area, unless some byte of it
cannot be written. -/
def ctxsvWrite (m : Mach) (w : Who) (gr : Nat) (area : Word) (secs : List (Nat × List Byte × Nat)) : Mach :=
  let n := areaLen secs
  if n > (loadVa m w (area.toNat + 0x18) 8).getD 0 then
    putResult (putArea (unstop m gr) w (area.toNat + 0x18) (toBytes 8 n)) w area 3
  else if spanOk m w .store area.toNat n then putResult (storeGrid m w gr area secs) w area 0
  else putResult (unstop m gr) w area 2

/-- Where a ctxsv stands: none while its teams are not quiet within 10 us, or while a migrating page holds the area; else the device
after it, and whether the word has completed (R156, 10 R244). -/
def ctxsvEnd (m : Mach) (gi gr : Nat) (area : Word) (since : Nat) : Option (Mach × Bool) :=
  let w := ctxWho m gi
  let ts := teamsOf m gr
  let x := m.grid gr
  let finish := fun (n : Nat) (go : Mach → Mach) =>
    let held := spanHeld m w .store area.toNat n
    if held.any (pageHeld m gi) then none else if held.isEmpty then some (go m, true) else some (holdPages m w gi held, false)
  if x.ended || x.killed || inArea m gr then finish 256 fun m => putResult (unstop m gr) w area 1
  else if ts.all fun t => (m.team t).place ≠ .resident || teamQuiet m t then
    let secs := sectionsOf m gr (m.areas.length + 1) ts true
    finish (areaLen secs) fun m => ctxsvWrite m w gr area secs
  else if m.time - since ≥ 10000 then finish 256 fun m => putResult (unstop m gr) w area 4
  else none

/-- CTXSV (R156). -/
def execCtxsv (x : Pre) (ch : Bool) (a b : BitVec 7) (s : State) : Host.Outcome State Fault Refusal :=
  ctxWord x ch [a.toNat, b.toNat] true (fun c m =>
    let w := ctxWho c.base c.gi
    let rec' := c.ctxScalar m a.toNat
    let area := c.ctxScalar m b.toNat
    let flag := flagOf c.voice c.pre.flg
    let done := fun (r : Nat) => match c.long m flag [] [] .ready with
      | .ok m1 => Eff.ok (putResult m1 w area r)
      | e => e
    match spanHeld m w .store area.toNat 256 with
    | [] =>
      if area.toNat % 4096 ≠ 0 || !spanOk m w .store area.toNat 256 then done 2
      else
        match namedGrid m w rec' with
        | none => done 1
        | some gr =>
          match c.long m flag [] [] (.ctxsv gr area m.time) with
          | .ok m1 =>
            .ok ((teamsOf m1 gr).foldl (fun m t => if (m.team t).place = .resident then
              m.setTeam t { m.team t with stopping := some 2, stopAt := m.time } else m) m1)
          | e => e
    | vas => .stall { held := vas }) s

/-! Restoring (R157). -/

/-- A group under new numbers. -/
def renumGroup (gr : Nat) (ft : Nat → Nat) (g : Group) : Group :=
  { g with grid := gr, team := ft g.team, voices := g.voices.map fun v => (v.1, { v.2 with yieldTo := [] }) }

/-- A team under new numbers. -/
def renumTeam (gr : Nat) (ft fg : Nat → Nat) (t : Team) : Team :=
  let ends := fun (e : Option (Nat × Nat)) => e.map fun p => (fg p.1, p.2)
  { t with grid := gr, groups := t.groups.map fg, cluster := t.cluster.map ft, stopping := none, idle := none,
           links := t.links.map fun l => (l.1, { l.2 with send := ends l.2.send, recv := ends l.2.recv }),
           place := if t.groups.isEmpty then .queued else .saved,
           kept := t.kept.map fun k =>
             { k with slots := k.slots.map fun s => (s.1, { s.2 with team := ft s.2.team }),
                      loops := k.loops.map fun o => { o with grp := fg o.grp },
                      reqs := k.reqs.map fun q => ({ q.1 with grp := fg q.1.grp }, q.2) } }

/-- The outstanding waitc words of a restored group: the lanes satisfied since the save are latched at its old number. -/
def latch (old new : Group) : Group :=
  { new with outst := new.outst.map fun o => match o.wait, findOutst old o.id with
      | .monitors l, some p => (match p.wait with | .monitors k => { o with wait := .monitors (min l k) } | _ => o)
      | _, _ => o }

/-- The teams of a full area back in front of their queues, under new numbers. -/
def restoreArea (m : Mach) (a : Area) : Mach :=
  let gr := m.grids.length
  let nt := m.teams.length
  let ng := m.groups.length
  let ft := fun (t : Nat) => nt + ((a.teams.findIdx? fun e => e.1 = t).getD 0)
  let teamNow := fun (t : Nat) => if a.teams.any fun e => e.1 = t then ft t else t
  let fg := fun (g : Nat) => ng + ((a.groups.findIdx? fun e => e.1 = g).getD 0)
  let isFresh : Bool := a.groups.all fun e => (m.grp e.1).grid = a.gr && !(m.grp e.1).freed
  let groups := a.groups.map fun e => renumGroup gr ft (if isFresh then latch (m.grp e.1) e.2 else e.2)
  let m1 := { m with grids := m.grids ++ [a.grid], teams := m.teams ++ a.teams.map (fun e => renumTeam gr ft fg e.2),
                     groups := m.groups ++ groups }
  let retag := fun (k : Monitor) => if (a.groups.map Prod.fst).contains k.grp then { k with grp := fg k.grp } else k
  let m2 := if isFresh then (List.range 12).foldl (fun m d => m.setMc d { m.mc d with mons := (m.mc d).mons.map retag, arms := (m.mc d).arms.map retag }) m1
    else a.mons.foldl (fun m k => arriveMonitor m { k with grp := fg k.grp }) m1
  let m3 := a.groups.foldl (fun m e => m.setGrp e.1 { m.grp e.1 with freed := true, live := 0 }) m2
  let m4 := (a.teams.foldl (fun m e => m.setTeam e.1 { m.team e.1 with place := .complete }) m3).setGrid a.gr { m3.grid a.gr with ended := true }
  let p := m4.part a.grid.part
  let shadows := a.shadows.foldl (fun l s => (l.filter fun o => !(o.ctx = s.ctx && o.va = s.va)) ++ [{ s with grid := gr, team := teamNow s.team }]) p.shadows
  let q := 8 * a.grid.lr.cls + a.grid.lr.prio
  let ents := a.teams.map (fun e => QEnt.team (ft e.1)) ++ (if a.grid.made < clusterCount a.grid then [QEnt.grid gr] else [])
  m4.setPart a.grid.part { p with shadows := shadows, queues := Tbl.set [] p.queues q (ents ++ Tbl.get [] p.queues q) }

/-- The area that an image holds: the number at the start of its group section (DESIGN CHOICE, notes/assumptions/14.md). -/
def imageArea (m : Mach) (w : Who) (rd : Nat → Word) (record : Word) : Option Area :=
  match sectionAt rd 1 with
  | none => none
  | some off =>
    match (rd off).toNat, m.areas[(rd off).toNat - 1]? with
    | n + 1, some (some a) =>
      if a.grid.recAddr = record ∧ a.grid.part = w.part ∧ a.grid.ctx = w.ctx ∧ n < m.areas.length then
        some { a with teams := match sectionAt rd 4 with
          | some mo => matrixFrom rd mo a.teams
          | none => a.teams }
      else none
    | _, _ => none

/-- The checks of an area in their order, and what they lead to: the device and the result; or the addresses at which migrating
pages hold the reading (R157, 10 R244). An area whose bytes cannot be read answers 5 (DESIGN CHOICE, notes/assumptions/86.md). -/
def restoreImage (m0 : Mach) (w : Who) (area : Word) : Except (List Nat) (Mach × Nat) :=
  let m := pinRange m0 w area.toNat 256
  let word := fun (off : Nat) => loadVa m w (area.toNat + off) 8
  let rd := fun (off : Nat) => BitVec.ofNat 64 ((word off).getD 0)
  match spanHeld m w .load area.toNat 256 with
  | [] =>
    if !((List.range 32).all fun i => (word (8 * i)).isSome) then .ok (m, 5)
    else if (rd 0).toNat ≠ 2 ^ 32 + 0x5E170C70 ∨ wb (rd 8) 24 1 = 1 then .ok (m, 5)
    else if (rd 0x10).toNat / 2 ^ 10 ≠ 0 then .ok (appendReport m w.part [BitVec.ofNat 64 (0x300 + 0x10), area, 0, 0, 0, 0, 0, 0], 6)
    else
      let size := (rd 0x18).toNat
      let stat := (rd 0x20).toNat + 0x78
      let m1 := pinRange (pinRange m w stat 8) w area.toNat size
      match spanHeld m w .load stat 8 ++ spanHeld m w .load area.toNat size with
      | [] =>
        if (loadVa m w stat 8).map (· % 16) ≠ some 1 then .ok (pinRange m w stat 8, 1)
        else if !spanOk m w .load area.toNat size then .ok (m1, 5)
        else
          match imageArea m1 w (fun off => BitVec.ofNat 64 ((loadVa m1 w (area.toNat + off) 8).getD 0)) (rd 0x20) with
          | some a => .ok (restoreArea m1 a, 0)
          | none => .ok (m1, 0)
      | vas => .error vas
  | vas => .error vas

/-- CTXRS (R157). -/
def execCtxrs (x : Pre) (ch : Bool) (a : BitVec 7) (s : State) : Host.Outcome State Fault Refusal :=
  ctxWord x ch [a.toNat] true (fun c m =>
    let w := ctxWho c.base c.gi
    let area := c.ctxScalar m a.toNat
    match c.long m (flagOf c.voice c.pre.flg) [] [] .ready with
    | .ok m1 =>
      match restoreImage m1 w area with
      | .ok r => .ok (putResult r.1 w area r.2)
      | .error vas => .stall { held := vas }
    | e => e) s

/-! Translations dropped (R158). -/

/-- The entries of a partition that translate an address, or all, dropped. -/
def dropTlb (m : Mach) (p : Nat) (va : Option Nat) : Mach :=
  let x := m.part p
  m.setPart p { x with tlb := match va with
    | none => []
    | some a => x.tlb.filter fun t => a / 2 ^ t.lg ≠ t.va / 2 ^ t.lg }

/-- Whether a tlbinv covers an address: it names all, or an address of the same page (10 R244). -/
def invCovers (m : Mach) (p : Nat) (va : Option Nat) (ctx a : Nat) : Bool :=
  match va with
  | none => true
  | some b => match walk m p ctx a with
    | .leaf _ lg => a / 2 ^ lg = b / 2 ^ lg
    | _ => a / 2 ^ 16 = b / 2 ^ 16

/-- Accesses held at pages that a tlbinv covers are walked again from now on; status words at once (10 R244). -/
def freeHolds (m : Mach) (p : Nat) (va : Option Nat) : Mach :=
  let x := m.part p
  let m1 := m.setPart p { x with holds := x.holds.filter fun h => !invCovers m p va h.ctx h.va }
  (((m.grids.filter fun g => g.part = p).map Grid.ctx).dedup).foldl (fun m c => retryStatus m p c (invCovers m p va c)) m1

/-- What tlbinv does: the stores of its core become visible at device scope, then the entries drop, then held accesses are walked
again (R158, 10 R244). -/
def tlbinvAt (m : Mach) (w : Who) (va : Option Nat) : Mach :=
  freeHolds (dropTlb (flushC1 m w.die w.core) w.part va) w.part va

/-- TLBINV: after every access that the group issued before it (R158). -/
def execTlbinv (x : Pre) (ch : Bool) (a : BitVec 7) (k : BitVec 2) (s : State) : Host.Outcome State Fault Refusal :=
  ctxWord x ch (if k = 0 then [a.toNat] else []) (k = 0 || (k = 1 && a = 0)) (fun c m =>
    let va := if k = 0 then some (c.ctxScalar m a.toNat).toNat else none
    c.after m (flagOf c.voice c.pre.flg) (.tlbinv va) fun m => tlbinvAt m (whoGroup c.base c.gi) va) s

end Sys2Proof.Machine
end

