-- ==== Sys2Proof/Machine/CoreEvents.lean ====
section
/-!
DEFINITION. Sys2Proof/Machine/CoreEvents.lean: events of a core that no word performs: the end of a course that waited for
mortar results, the completion of a long-latency word, the age override, a trap's entry that was held, and uncorrectable
errors (01 R17, R22, 04 R113, 05 R139, R149, 11 R271, R273, R282, 14 R337, 15 R352).
-/

namespace Sys2Proof.Machine

/-! The end of a course (01 R17). -/

/-- A voice whose transfer waits for results that have all completed. -/
def courseReady (m : Mach) (gi vi : Nat) : Option (List (Nat × Option Nat)) :=
  match voiceAt m gi vi with
  | none => none
  | some v => if running m gi && !courseBusy m gi vi then v.pend else none

/-- COURSE_END. -/
def execCourseEnd (g v : Nat) (s : State) : Host.Outcome State Fault Refusal :=
  .next { s with m := match courseReady s.m g v with | some ds => retireCourse s.m g v ds | none => s.m }

/-! The completion of a long-latency word (01 R22). -/

/-- A word completes with a scalar result found at completion. -/
def completeWith (m : Mach) (gi : Nat) (o : Outst) (dst : Nat) (v : Word) : Mach :=
  completeWord m gi { o with wr := o.wr ++ [.scal dst v] }

/-- The slot a cbacq takes, as it writes it (11 R273). -/
def acquired (k : Cbuf) : Word := if k.kind then BitVec.ofNat 64 (k.base + k.acqi) else ownSpad (k.base + 256 * k.ssz * k.acqi)

/-- A cbacq completes: the oldest of its buffer's, when a slot is filled (11 R273). -/
def cbacqDone (m : Mach) (gi : Nat) (o : Outst) (n dst : Nat) : Option Mach :=
  let team := (m.grp gi).team
  match cbOf (m.team team) n with
  | none => none
  | some k =>
    if k.filled > 0 ∧ k.waiting.head? = some (gi, o.id) then
      let m1 := setCb m team n
        { k with filled := k.filled - 1, acq := k.acq + 1, acqi := (k.acqi + 1) % k.nslots, waiting := k.waiting.drop 1 }
      some (completeWith m1 gi o dst (acquired k))
    else none

/-- What a word does when the last access that its group issued before it is performed. -/
def heldAct (m : Mach) (gi : Nat) (o : Outst) : HeldAct → Mach
  | .fence scope => releaseAt m (whoGroup m gi) scope
  | .maint inv all rs => maintain m (whoGroup m gi) inv all rs
  | .icinv lo hi => icinvAt m (whoGroup m gi) lo hi
  | .tlbinv va => tlbinvAt m (whoGroup m gi) va
  | .barArr n clu c => arriveBar m gi n clu c o.id
  | .cbrel _ => m
  | .haloDecl h => fillHalo m gi h

/-- An outstanding word completed, or moved on; none while what it waits for has not happened. -/
def wordDone (m : Mach) (gi : Nat) (o : Outst) : Option Mach :=
  let g := m.grp gi
  let t := m.team g.team
  match o.wait with
  | .ready => if canPush m gi o then some (completeWord m gi o) else none
  | .held act => if accessesHeld m gi o.id true then none else some (completeWord (heldAct m gi o act) gi o)
  | .bob off dst =>
    if poisoned m (spadKey g.team off) 8 then some (handleUE m g.team)
    else if bobDone (bobWord m g.team off) then some (completeWith m gi o dst (bobWord m g.team off)) else none
  | .cbacq n dst => cbacqDone m gi o n dst
  | .bar n clu phase => if !arrivalHeld g n clu o.id && (barOf m g.team clu n).phase > phase then some (completeWord m gi o) else none
  | .monitors left => if left = 0 then some (completeWord m gi o) else none
  | .haloWait h gen => if (haloOf m g.team h).any (fun x => haloMet x gen) then some (completeWord m gi o) else none
  | .mark v => markDone m gi o v
  | .bind addr dst hdr entries => bindDone m gi o addr dst hdr entries
  | .xfer region entry dst => xferDone m gi o region entry dst
  | .tv => tvDone m gi o
  | .rpack phase => if t.rpPhase > phase then some (completeWord m gi o) else if repackReady m g.team then some (repackTeam m g.team) else none
  | .ctxsv gr area since => (ctxsvEnd m gi gr area since).map fun e => if e.2 then completeWord e.1 gi o else e.1
  | .claim _ | .slots | .mx | .ts | .haloRel _ _ | .coll _ | .sxb => none

/-- The word of a group with an outstanding number, where the group is on its core. -/
def wordEvent (m : Mach) (gi id : Nat) : Option Mach :=
  let g := m.grp gi
  if gi < m.groups.length && !g.freed && !g.victim && (m.team g.team).place = .resident then (findOutst g id).bind (wordDone m gi) else none

/-- WORD_COMPLETE. -/
def execWordComplete (g k : Nat) (s : State) : Host.Outcome State Fault Refusal := .next { s with m := (wordEvent s.m g k).getD s.m }

/-! The age override (04 R113). -/

/-- A voice that has been eligible for 2048 steps without issuing. -/
def ageDue (m : Mach) (gi vi : Nat) : Bool :=
  match voiceAt m gi vi with
  | none => false
  | some v => v.waited ≥ 2048 && !v.aged

/-- AGE_OVERRIDE. -/
def execAgeOverride (g v : Nat) (s : State) : Host.Outcome State Fault Refusal :=
  .next { s with m := match ageDue s.m g v, voiceAt s.m g v with
    | true, some x => setVoice s.m g v { x with aged := true }
    | _, _ => s.m }

/-! A trap's entry (05 R139). -/

/-- TRAP_ENTRY: the entry of a raised trap, tried again. -/
def execTrapEntry (g : Nat) (s : State) : Host.Outcome State Fault Refusal :=
  .next { s with m := if g < s.m.groups.length then enterTrap s.m g else s.m }

/-! Errors in storage (05 R149, R152, 10 R234). -/

/-- A corrected error counted for a core's level-1 memory (21 R448). -/
def countSram (m : Mach) (die core : Nat) : Mach :=
  { m with pk := { m.pk with life := { m.pk.life with sram := countUp m.pk.life.sram (64 * die + core) } } }

/-- A corrected error counted for other storage of a core: 1 to 6 as UeSite.corrected numbers them, 7 the instruction cache, 8 a TLB. -/
def countMacro (m : Mach) (kind die core : Nat) : Mach :=
  { m with pk := { m.pk with life := { m.pk.life with sram := countUp m.pk.life.sram (1024 * kind + 64 * die + core) } } }

/-- The dirty bytes that a core holds of a line, with their tags. -/
def dirtyOf (m : Mach) (die core line : Nat) : List (Nat × Nat) :=
  let c := m.core die core
  (m.c1.filterMap fun e => match e.2 with
      | some x => if e.1 / 128 = line && x.core = 64 * die + core then some (e.1, x.tag) else none
      | none => none) ++
    (c.c2.filterMap fun e => match e.2 with
      | some x => if e.1 / 128 = line && x.dirty then some (e.1, x.tag) else none
      | none => none) ++
    c.atoms.filterMap fun e => match e.2 with
      | some x => if e.1 / 128 = line then some (e.1, x.tag) else none
      | none => none

/-- The dirty bytes that a core holds of a line are lost. -/
def loseLine (m : Mach) (die core line : Nat) : Mach :=
  let c := m.core die core
  let m1 := m.setCore die core { c with c2 := c.c2.filter (fun e => e.1 / 128 ≠ line), atoms := c.atoms.filter fun e => e.1 / 128 ≠ line }
  { m1 with c1 := m1.c1.filter fun e => e.1 / 128 ≠ line || (match e.2 with | some x => x.core ≠ 64 * die + core | none => true) }

/-- The clean bytes that a core holds of a line, fetched again (R149). -/
def refetchLine (m : Mach) (die core line : Nat) : Mach :=
  let c := m.core die core
  m.setCore die core { c with c2 := c.c2.map fun e =>
    (e.1, e.2.map fun x => if e.1 / 128 = line && !x.dirty then { x with val := rdByte m e.1 } else x) }

/-- The grids of a context that have not ended. -/
def runningGrids (m : Mach) (p ctx : Nat) : List Nat :=
  (List.range m.grids.length).filter fun i => (m.grid i).part = p && (m.grid i).ctx = ctx && !(m.grid i).ended

/-- The grid that a context tag stands for: one of the context's, by a free choice (DESIGN CHOICE, notes/assumptions/21.md). -/
def taggedGrid (m : Mach) (p ctx : Nat) : Option Nat :=
  let gs := runningGrids m p ctx
  gs[(Config.freeWord m.fresh 0).toNat % max 1 gs.length]?

/-- An error in a dirty line: the line is lost, and the grid whose context tag it carries is killed; a clean one is fetched again
(R149). -/
def lineError (m : Mach) (die core line : Nat) : Mach :=
  match dirtyOf m die core line with
  | [] => countSram (refetchLine m die core line) die core
  | d :: _ =>
    let m1 := loseLine m die core line
    match taggedGrid m1 (d.2 / 4096) (d.2 % 4096) with
    | some gr => killGrid m1 gr 0x11 (some [0x100 + 0x11, (m1.grid gr).recAddr, 0, 0, 0, 0, 0, BitVec.ofNat 64 (core * 2 ^ 8 + die)])
    | none => m1

/-- Whether a team that is off its core has items with its tag in place there. -/
def taggedLeft (m : Mach) (ti : Nat) : Bool :=
  let t := m.team ti
  let c := m.core t.die t.core
  t.place ≠ .resident && t.place ≠ .complete && (c.slots.any (fun s => s.2.team = ti) || c.tiles.any fun s => s.2 = ti + 1)

/-- An error in a tagged item of a saved team: it cannot be written out, so its grid is killed with a report of its own and one of
kind 4 (R152, R148). -/
def loseLazy (m : Mach) (ti : Nat) : Mach :=
  let t := m.team ti
  let x := m.grid t.grid
  let ws := fun (kind : Nat) => [BitVec.ofNat 64 (256 * kind + 0x11), x.recAddr, BitVec.ofNat 64 t.tid, 0, 0, 0, 0, BitVec.ofNat 64 (t.core * 2 ^ 8 + t.die)]
  appendReport (killGrid m t.grid 0x11 (some (ws 1))) x.part (ws 4)

/-- A cached translation dropped, to be walked again, and counted (10 R234). -/
def dropEntry (m : Mach) (die core ctx va : Nat) : Mach :=
  let p := partOf m.pk die core
  countMacro (m.setPart p { m.part p with tlb := (m.part p).tlb.filter fun t => !(t.ctx = ctx && va / 2 ^ t.lg = t.va / 2 ^ t.lg) }) 8 die core

/-- What an error in storage does, by where it lies. -/
def ueAt (m : Mach) : UeSite → Mach
  | .team tm =>
    if tm < m.teams.length ∧ (m.team tm).place = .resident then handleUE m tm
    else if tm < m.teams.length && taggedLeft m tm then loseLazy m tm
    else m
  | .cleanLine die core line => countSram (refetchLine m die core line) die core
  | .dirtyLine die core line => lineError m die core line
  | .fetchLine die core => countMacro m 7 die core
  | .transEntry die core ctx va => dropEntry m die core ctx va
  | .channel die chan =>
    { m with pk := { m.pk with life := { m.pk.life with chan := countUp m.pk.life.chan (8 * die + chan) } } }
  | .corrected k die core => if 1 ≤ k ∧ k ≤ 6 then countMacro m k die core else m

/-- HANDLE_UE. -/
def execHandleUe (site : UeSite) (s : State) : Host.Outcome State Fault Refusal := .next { s with m := ueAt s.m site }

end Sys2Proof.Machine
end

