-- ==== Sys2Proof/Machine/MemEvents.lean ====
section
/-!
DEFINITION. Sys2Proof/Machine/MemEvents.lean: events of the memory system: page walks, channels, scrubbing and poison, the
bank ports, monitors and frames of the synchronisation engines, writes of the host and of peer devices, and hardware
prefetch (10 R233 to R246, 14 R314, R329, 15 R352, 18 R388 to R395, 21 R436, R440).
-/

namespace Sys2Proof.Machine

/-! Page walks (10 R239, R241, R242, R244). -/

/-- A walk for a translation buffer: a leaf that is not migrating is cached; a failing or held walk leaves nothing. -/
def fillTlb (m : Mach) (p c va : Nat) : Mach :=
  let x := m.part p
  if !(m.ctx p c).enabled || isWindow va || va ≥ 2 ^ 48 then m
  else
    match walk m p c va with
    | .leaf e lg =>
      if pteMig e then m
      else
        let ent : TlbEnt := { ctx := c, va := va / 2 ^ lg * 2 ^ lg, lg := lg, leaf := e }
        m.setPart p { x with tlb := ent :: x.tlb.filter fun t => !(t.ctx = c && va / 2 ^ t.lg = t.va / 2 ^ t.lg) }
    | _ => m

/-- PAGE_WALK: the walk of a miss. -/
def execPageWalk (part ctx va : Nat) (s : State) : Host.Outcome State Fault Refusal :=
  .next { s with m := fillTlb s.m part ctx va }

/-! Channels and errors (10 R233 to R235). -/

def Mach.onLife (m : Mach) (f : Life → Life) : Mach := { m with pk := { m.pk with life := f m.pk.life } }

/-- LINK_CRC_RETRY: a retry changes timing only (R233). -/
def execLinkCrcRetry (_die _chan : Nat) (s : State) : Host.Outcome State Fault Refusal := .next s

/-- CHANNEL_RETRAIN: it is counted (R233, 21 R448). -/
def execChannelRetrain (die chan : Nat) (s : State) : Host.Outcome State Fault Refusal :=
  .next { s with m := s.m.onLife fun l => { l with retrains := countUp l.retrains (8 * die + chan) } }

/-- The level-2 slice of a local line: 8 times the home die, plus the channel (R230). -/
def sliceOf (m : Mach) (line : Nat) : Nat :=
  let key := 128 * line
  let p := keyPart key
  let off := keyOff key
  let l := off / 4096 / max 1 (nM m p) * 4096 + off % 4096
  8 * homeDie m p off + (bitsOf l 12 3 ^^^ bitsOf l 15 3)

def isLocalLine (line : Nat) : Bool := keyRegion (128 * line) = 1

/-- A line marked. -/
def poisonLine (m : Mach) (line : Nat) : Mach :=
  if isLocalLine line && !m.poison.contains line then { m with poison := m.poison ++ [line] } else m
def countSlice (m : Mach) (line : Nat) : Mach :=
  m.onLife fun l => { l with slice := countUp l.slice (sliceOf m line) }

/-- L2_SCRUB: what a scrub finds of a line (R234). -/
def scrub (m : Mach) (line : Nat) : ScrubResult → Mach
  | .clean => m
  | .corrected | .uncorrectableClean => if isLocalLine line then countSlice m line else m
  | .uncorrectableDirty => poisonLine m line

def execL2Scrub (line : Nat) (r : ScrubResult) (s : State) : Host.Outcome State Fault Refusal := .next { s with m := scrub s.m line r }

/-- DATA_POISON (R235). -/
def execDataPoison (line : Nat) (s : State) : Host.Outcome State Fault Refusal := .next { s with m := poisonLine s.m line }

/-! The synchronisation engines (18). -/

/-- SYE_ACCESS. -/
def execSyeAccess (die bank : Nat) (s : State) : Host.Outcome State Fault Refusal := .next { s with m := (serveBank s.m die bank).getD s.m }

/-- HOME_SLICE_WRITE: bytes that reach the slice of a local address are written there, and its monitors tested (15 R352). -/
def execHomeSliceWrite (key : Nat) (bs : List (BitVec 8)) (s : State) : Host.Outcome State Fault Refusal :=
  .next { s with m := if keyRegion key = 1 && keyRegion (key + bs.length) = 1 then wrBytes s.m key bs else s.m }

/-- Whether a queued arm can take an entry (R393). -/
def armReady (x : MemDie) : Bool := !x.arms.isEmpty && decide (x.mons.length < 65536)

/-- MONITOR_ARM. -/
def execMonitorArm (die : Nat) (s : State) : Host.Outcome State Fault Refusal :=
  let x := s.m.mc die
  .next { s with m := match armReady x, x.arms with
    | true, k :: rest => armMonitor (s.m.setMc die { x with arms := rest }) die k
    | _, _ => s.m }

/-- SYE_UNPIN: what has been accepted is performed, every frame is freed, done is set (R391). -/
def unpinAll (m : Mach) (die : Nat) : Mach :=
  let x := m.mc die
  if !x.unpinning then m
  else
    let m1 := x.ovframes.foldl (fun m g => spillFrame m die g) (servePorts m die fun _ => true)
    let y := m1.mc die
    m1.setMc die { y with frames := [], ovframes := [], unpinning := false, unpin := y.unpin ||| 2 }

def execSyeUnpin (die : Nat) (s : State) : Host.Outcome State Fault Refusal := .next { s with m := unpinAll s.m die }

/-! The host and peer devices (21 R436, R438, R440, R445). -/

/-- Whether the device accepts the package: a shading die, and a memory-cache die on every bed die (00 R1). -/
def Package.accepted (k : Package) : Bool :=
  (List.range 12).any (fun d => k.has d && isShading d) &&
    (List.range k.beds).all fun b => (List.range 12).any fun d => k.has d && isMemDie d && d / 6 = b

/-- The functions appear on an accepted package once a controller image has been accepted (00 R1, R441, R445). -/
def functionsUp (m : Mach) : Bool := m.pk.accepted && (Tbl.get none m.pk.images 0).isSome

/-- The byte a host address of a function names: BAR2 maps local memory, BAR0 the device-control region (R438). -/
def hostKey (m : Mach) (p pa : Nat) : Option Nat :=
  match bitsOf pa 44 2 with
  | 0 => if pa < nM m p * 2 ^ 36 then some (keyLocal p pa) else none
  | 3 => if bitsOf pa 0 44 < 2 ^ 26 then some (keyDev p (bitsOf pa 0 44)) else none
  | _ => none

/-- Bytes cut at the bounds of 8-byte words. -/
def pieces : Nat → List Byte → List (Nat × List Byte)
  | _, [] => []
  | key, b :: bs =>
    match pieces (key + 1) bs with
    | [] => [(key, [b])]
    | (k, ws) :: rest => if (key + 1) % 8 = 0 then (key, [b]) :: (k, ws) :: rest else (key, b :: ws) :: rest

/-- A request put at the bank ports of its home: where the port's queue is full, the requester waits, and the bank serves its ports in
turn until there is room (18 R395). -/
def enqueue (m0 : Mach) (r : SyeReq) : Mach :=
  let die := homeDie m0 (keyPart r.key) (keyOff r.key)
  let m := serveRoom die (bankOf r.key) r.port (m0.mc die).ports.length m0
  m.setMc die { m.mc die with ports := (m.mc die).ports ++ [r] }

/-- A write from outside the cores: to a pinned granule through the bank ports, else at once at the slice, after the owner's
copies of a coh-1 line are written back (14 R329, 18 R388). -/
def outsideWrite (m : Mach) (port key : Nat) (bs : List Byte) : Mach :=
  let atSlice := fun (m : Mach) (key : Nat) (bs : List Byte) => wrBytes (recallC1 m key bs.length) key bs
  if (List.range ((key % 4096 + bs.length + 4095) / 4096)).any fun i => pinned m (key + 4096 * i - (if i = 0 then 0 else key % 4096)) then
    (pieces key bs).foldl (fun m e =>
      if pinned m e.1 then enqueue m { port := port, key := e.1, op := 0, val := e.2, cmp := [] } else atSlice m e.1 e.2) m
  else atSlice m key bs

/-- The host's requests of a function that wait at bank ports are performed, each bank in its turn: they come before its next
(R436, 18 R395). -/
def drainHost (m : Mach) (p : Nat) : Mach := (memDies m p).foldl (fun m d => servePorts m d fun r => r.port = 6) m

/-- A write of the host performed: a posted write at its slice, an AtomicOp on local memory at its bank; of its own earlier
requests none is left at a bank (R436, R438). -/
def hostPerform (m : Mach) (p : Nat) (w : HostWrite) : Mach :=
  match hostKey m p w.pa with
  | none => m
  | some key =>
    let m1 := drainHost m p
    if w.atom = 0 then outsideWrite m1 6 key w.bytes
    else if keyRegion key = 1 && (w.bytes.length = 4 || w.bytes.length = 8) && key % w.bytes.length = 0 then
      enqueue m1 { port := 6, key := key, op := w.atom, val := w.bytes, cmp := w.cmp }
    else m1

/-- The write of no bytes. -/
def noWrite : HostWrite := { pa := 0, bytes := [], atom := 0, cmp := [], relaxed := false }

/-- The places in a function's queue of the writes that may be performed now: the first, and every one marked relaxed (R436). -/
def postedNow (ws : List HostWrite) : List Nat := (List.range ws.length).filter fun i => i = 0 || (ws.getD i noWrite).relaxed

/-- One of those, which is a free choice, performed (R436; notes/assumptions/93.md). -/
def performPosted (m : Mach) (p : Nat) : Mach :=
  let ws := (m.part p).posted
  let able := postedNow ws
  let i := able.getD ((Config.freeWord m.fresh 0).toNat % max 1 able.length) 0
  match ws[i]? with
  | none => m
  | some w => hostPerform (m.setPart p { m.part p with posted := ws.eraseIdx i }) p w

/-- HOST_POSTED_WRITE: the writes of one function are received in their order; one with both attributes clear is performed after
every earlier one, a relaxed one at any time; a write of no bytes stands for the moment at which one of those received is
performed (R436; DEDUCED, notes/assumptions/93.md). -/
def hostWrite (m : Mach) (p : Nat) (w : HostWrite) : Mach :=
  if !functionsUp m || p ≥ partCount m.pk.cur then m
  else if w.atom = 0 && w.bytes.isEmpty then performPosted m p
  else m.setPart p { m.part p with posted := (m.part p).posted ++ [w] }

def execHostPostedWrite (part : Nat) (w : HostWrite) (s : State) : Host.Outcome State Fault Refusal := .next { s with m := hostWrite s.m part w }

/-- PEER_DEVICE_ACCESS: a peer's write to local memory; its read changes nothing here (14 R314, R329, 10 R235). -/
def execPeerDeviceAccess (part : Nat) (acc : PeerAccess) (s : State) : Host.Outcome State Fault Refusal :=
  .next { s with m := if acc.write && decide (part < partCount s.m.pk.cur) && decide (acc.pa + acc.bytes.length ≤ nM s.m part * 2 ^ 36) then
      outsideWrite s.m 7 (keyLocal part acc.pa) acc.bytes else s.m }

/-! Hardware prefetch (10 R246). -/

/-- The lines of a core's level-1 cache whose eviction another party can tell: those with bytes of coh-2 pages or of narrow atomics. A
coh-1 line that is evicted shows nothing before its release (14 R329, R330, R340). -/
def heldLines (m : Mach) (die core : Nat) : List Nat :=
  let c := m.core die core
  (c.c2.map (fun (e : Nat × Option Copy2) => e.1 / 128) ++ c.atoms.map fun (e : Nat × Option DirtyA) => e.1 / 128).dedup

/-- A line evicted: its dirty bytes written back to the next level, its copy dropped. -/
def evictLine (m : Mach) (die core line : Nat) : Mach :=
  flushC2 (flushAtoms m die core fun k _ => k / 128 = line) die core (128 * line) 128 true

/-- HARDWARE_PREFETCH: the fill of a line may evict another line of the core, by a free choice. -/
def execHardwarePrefetch (die core line : Nat) (s : State) : Host.Outcome State Fault Refusal :=
  let ls := (heldLines s.m die core).filter (· ≠ line)
  .next { s with m := match ls[(Config.freeWord s.m.fresh 0).toNat % (ls.length + 1)]? with
    | some l => evictLine s.m die core l
    | none => s.m }

end Sys2Proof.Machine
end

