-- ==== Sys2Proof/Machine/PkgEvents.lean ====
section
/-!
DEFINITION. Sys2Proof/Machine/PkgEvents.lean: events of the package: contexts, control registers, partition mode and reset,
Relmer links and routes, images and measurements, power, and the lifetime records (21 R430 to R448).
-/

namespace Sys2Proof.Machine

/-! Contexts (R432, R433). -/

/-- The device as a privileged party of a context (R433). -/
def whoCtx (m : Mach) (p ctx : Nat) : Who :=
  { part := p, ctx := ctx, grid := m.grids.length, team := m.teams.length, priv := true, spec := false, narrow := false,
    die := 12, core := 0 }

/-- The four words of a context's entry; none where no memory holds it: the device-control region is no place for a table (10 R229). -/
def ctxEntry (m : Mach) (p ctx : Nat) : Option (List Nat) :=
  let base := (m.part p).ctxbase.toNat / 4096 * 4096
  (plainKey m p (base + 32 * ctx)).map fun key => (List.range 4).map fun i => rdNum m (key + 8 * i) 8

/-- Whether an entry may be enabled: valid, and no reserved field set (R432). -/
def entryOk (e : List Nat) : Bool :=
  bitAt (e.getD 0 0) 63 && bitsOf (e.getD 0 0) 46 16 = 0 && bitsOf (e.getD 0 0) 0 16 = 0 && bitsOf (e.getD 1 0) 48 16 = 0 &&
    e.getD 2 0 = 0 && e.getD 3 0 = 0

/-- The operation that waits first at CTXCTL ended with a result; result reads busy while others wait (R433). -/
def endCtxOp (m : Mach) (p res : Nat) : Mach :=
  let x := m.part p
  let rest := x.ctxops.drop 1
  m.setPart p { x with ctxops := rest, ctxctl := if rest.isEmpty then BitVec.ofNat 64 (res * 2 ^ 30 + x.ctxctl.toNat % 2 ^ 30) else x.ctxctl }

/-- The grids of a context, stopped without a report, their statuses written (R433, 05 R147). -/
def stopCtx (m : Mach) (p ctx : Nat) : Mach :=
  ((List.range m.grids.length).filter fun gr => (m.grid gr).part = p && (m.grid gr).ctx = ctx).foldl (fun m gr => killGrid m gr 0 none) m

/-- Whether every group of a context's grids has drained (05 R147 step 7). -/
def ctxQuiet (m : Mach) (p ctx : Nat) : Bool :=
  m.groups.all fun g => g.freed || !((m.grid g.grid).part = p && (m.grid g.grid).ctx = ctx)

/-- A context whose groups have drained disabled: its saved areas and monitors freed, its shadows and translations dropped (R433). -/
def clearCtx (m : Mach) (p ctx : Nat) : Mach :=
  let mine := fun (m : Mach) (gr : Nat) => (m.grid gr).part = p && (m.grid gr).ctx = ctx
  let m2 := (List.range 12).foldl (fun m d =>
    let x := m.mc d
    let keep := fun (k : Monitor) => !mine m (m.grp k.grp).grid
    m.setMc d { x with mons := x.mons.filter keep, arms := x.arms.filter keep }) m
  let m3 := { m2 with areas := m2.areas.map fun (a : Option Area) => a.filter fun r => !(r.grid.part = p && r.grid.ctx = ctx) }
  let x := m3.part p
  m3.setPart p
    { x with shadows := x.shadows.filter fun s => s.ctx ≠ ctx, tlb := x.tlb.filter fun t => t.ctx ≠ ctx,
             holds := x.holds.filter fun h => h.ctx ≠ ctx,
             ctxs := Tbl.set { enabled := false, root := 0 } x.ctxs ctx { m3.ctx p ctx with enabled := false } }

/-- The operation that waits first at CTXCTL goes on as another. -/
def setCtxOp (m : Mach) (p op ctx : Nat) : Mach := m.setPart p { m.part p with ctxops := (op, ctx) :: (m.part p).ctxops.drop 1 }

/-- A context being disabled: it ends with a result once its groups have drained; until then it waits as an operation of its own. -/
def endDisable (m : Mach) (p ctx op res : Nat) : Mach :=
  if ctxQuiet m p ctx then endCtxOp (clearCtx m p ctx) p res else setCtxOp m p op ctx

/-- Whether the device waits at a migrating page for the control program of a context, and the wait begun (10 R244). -/
def ctxHeld (m : Mach) (p ctx : Nat) : Bool := (m.part p).holds.any fun h => h.grp = 2 ^ 40 + ctx
def holdCtx (m : Mach) (p ctx va : Nat) : Mach :=
  (setCtxOp m p 3 ctx).setPart p
    { (setCtxOp m p 3 ctx).part p with holds := (m.part p).holds ++ [newHold m (whoCtx m p ctx) (2 ^ 40 + ctx) 6 va] }

/-- The resident control program of an enabled context accepted, or the context disabled again (R433). -/
def acceptRcp (m : Mach) (p ctx rcp : Nat) : Mach :=
  let w := whoCtx m p ctx
  let undo := fun (m : Mach) => endDisable (stopCtx m p ctx) p ctx 4 2
  match checkRecord m w rcp with
  | .held => holdCtx m p ctx rcp
  | .ok _ =>
    match acceptLaunch m { who := w, task := false, rcp := true } rcp with
    | .error vas => holdCtx m p ctx (vas.headD rcp)
    | .ok (m2, 0) => endCtxOp m2 p 0
    | .ok (m2, _) => undo m2
  | _ => undo m

/-- The first half of an enable: the root loaded, the context's translations dropped, the context marked enabled (R433). -/
def loadCtx (m : Mach) (p ctx : Nat) (e : List Nat) : Mach :=
  let x := m.part p
  m.setPart p
    { x with ctxs := Tbl.set { enabled := false, root := 0 } x.ctxs ctx { enabled := true, root := bitsOf (e.getD 0 0) 16 30 * 2 ^ 16 },
             tlb := x.tlb.filter fun t => t.ctx ≠ ctx }

/-- Enabling a context; none while a page that the launch needs migrates (R433). -/
def enableCtx (m : Mach) (p ctx : Nat) : Option Mach :=
  match ctxEntry m p ctx with
  | none => some (endCtxOp m p 2)
  | some e =>
    let rcp := bitsOf (e.getD 1 0) 0 48
    if (m.part p).ctxops.head? = some (3, ctx) then (if ctxHeld m p ctx then none else some (acceptRcp m p ctx rcp))
    else if ctx > (m.part p).ctxbase.toNat % 4096 || !entryOk e || (m.ctx p ctx).enabled then some (endCtxOp m p 2)
    else some (acceptRcp (loadCtx m p ctx e) p ctx rcp)

/-- Disabling a context: its grids stop, and when its groups have drained the operation ends (R433). -/
def disableCtx (m : Mach) (p ctx : Nat) : Mach :=
  if (m.ctx p ctx).enabled then endDisable (stopCtx m p ctx) p ctx 5 0 else endCtxOp m p 2

/-- The operation that waits first at a partition's CTXCTL. -/
def ctxOp (m : Mach) (p : Nat) : Option (Nat × Nat) := (m.part p).ctxops.head?

/-- CTX_ENABLE. -/
def execCtxEnable (part ctx : Nat) (s : State) : Host.Outcome State Fault Refusal :=
  .next { s with m := if ctxOp s.m part = some (1, ctx) || ctxOp s.m part = some (3, ctx) then (enableCtx s.m part ctx).getD s.m else s.m }

/-- CTX_DISABLE; it also ends an operation that waited for groups to drain. -/
def execCtxDisable (part ctx : Nat) (s : State) : Host.Outcome State Fault Refusal :=
  .next { s with m := match ctxOp s.m part with
    | some (op, c) =>
      if c ≠ ctx then s.m
      else if op = 2 then disableCtx s.m part ctx
      else if op = 4 then endDisable s.m part ctx 4 2
      else if op = 5 then endDisable s.m part ctx 5 0
      else s.m
    | none => s.m }

/-! Control registers (R4, R430, R431, R437, R439). -/

/-- A register of a partition that exists, written through its function, where the functions have appeared (R441, R445). -/
def writeReg (m : Mach) (p off : Nat) (v : Word) : Mach := if functionsUp m && decide (p < partCount m.pk.cur) then devWrite m p off v fun _ => true else m

/-- PMODE_WRITE (R439). -/
def execPmodeWrite (part : Nat) (val : BitVec 64) (s : State) : Host.Outcome State Fault Refusal := .next { s with m := writeReg s.m part 0x00 val }
/-- QUOTA_WRITE (R431). -/
def execQuotaWrite (part : Nat) (val : BitVec 64) (s : State) : Host.Outcome State Fault Refusal := .next { s with m := writeReg s.m part 0x20 val }
/-- WEIGHT_WRITE (R431). -/
def execWeightWrite (part : Nat) (val : BitVec 64) (s : State) : Host.Outcome State Fault Refusal := .next { s with m := writeReg s.m part 0x28 val }
/-- FLOGTAIL_WRITE (R437). -/
def execFlogtailWrite (part : Nat) (val : BitVec 64) (s : State) : Host.Outcome State Fault Refusal := .next { s with m := writeReg s.m part 0x58 val }
/-- FLOGLOST_CLEAR (R431). -/
def execFloglostClear (part : Nat) (val : BitVec 64) (s : State) : Host.Outcome State Fault Refusal := .next { s with m := writeReg s.m part 0x60 val }
/-- REGISTER_WRITE: any register of the device-control region, by its offset (R4, R430). -/
def execRegisterWrite (part off : Nat) (val : BitVec 64) (s : State) : Host.Outcome State Fault Refusal := .next { s with m := writeReg s.m part (off / 8 * 8) val }

/-! Reset (R439, R441). -/

/-- Memory that a reset of the package leaves: that of the host and of other devices. -/
def outsideMem (mem : List Host.Cell) : List Host.Cell := mem.filter fun e => keyRegion e.1 ≠ 1 && keyRegion e.1 ≠ 3

/-- What a package reset leaves of a device: the package with the pending mode in force, PMODE's err, and memory outside it. -/
def resetPackage (m : Mach) : Mach :=
  let pk := { m.pk with cur := if m.pk.pend then m.pk.mode else m.pk.cur, pend := false, links := 0, alt := [] }
  { Mach.reset with fresh := m.fresh, mem := outsideMem m.mem, pk := pk,
                    parts := Tbl.set Part.reset [] 0 { Part.reset with err := (m.part 0).err } }

/-- PACKAGE_RESET. -/
def execPackageReset (s : State) : Host.Outcome State Fault Refusal := .next { s with m := resetPackage s.m, chain := none, cyc := none, pipes := [], cur := none }

/-! Relmer links and routes (R443, R444). -/

/-- The ports and links that exist: external ports 0 to 15; 16 + d, the link of die d to its bed die; 28, between the bed dies. The
links inside the package follow the rules of the ports (R443; their numbers: DESIGN CHOICE, notes/assumptions/94.md). -/
def isPort (m : Mach) (port : Nat) : Bool :=
  if port < 16 then port < 8 * m.pk.beds else if port < 28 then m.pk.has (port - 16) else port = 28 && m.pk.beds = 2
def portDown (m : Mach) (port : Nat) : Bool := bitAt m.pk.links port

/-- Every entry, of whichever bed die, whose primary route leaves through a port switched to its alternate (R444). -/
def failOver (k : Package) (port : Nat) : Package :=
  { k with alt := (k.alt ++ (k.routes.filter fun (r : Nat × Nat × Nat) => r.2.1 = port).map fun (r : Nat × Nat × Nat) => r.1).dedup }

/-- Whether an access that waits for a route still finds none (R444). -/
def noRouteStill (m : Mach) (p : Nat) (h : Hold) : Bool :=
  match translation m p h.ctx h.va with
  | .leaf e lg =>
    (match paKey m p (ptePa e + h.va % 2 ^ lg) with
     | some key => !routed m h.bed (routeKey m (whoGroup m h.grp) key)
     | none => false)
  | _ => false

/-- Accesses that waited for a route and find one now go on (R444). -/
def freeRoutes (m : Mach) : Mach :=
  (m.parts.map Prod.fst).foldl (fun m p =>
    let x := m.part p
    if x.holds.any Hold.noRoute then m.setPart p { x with holds := x.holds.filter fun h => !h.noRoute || noRouteStill m p h } else m) m

/-- A port marked down. -/
def markDown (m : Mach) (port : Nat) : Mach :=
  if !isPort m port || portDown m port then m else freeRoutes { m with pk := failOver { m.pk with links := m.pk.links + 2 ^ port } port }

/-- FLIT_RETRY: a flit is sent again; the receiver performs each access once (R443, R444). -/
def execFlitRetry (port : Nat) (s : State) : Host.Outcome State Fault Refusal :=
  .next { s with m := if isPort s.m port then { s.m with pk := { s.m.pk with flits := countUp s.m.pk.flits port } } else s.m }

/-- A failing lane: the first of a port is spared and counted, the second takes the port down (R443). -/
def laneFails (m : Mach) (port : Nat) : Mach :=
  if !isPort m port then m
  else
    let n := Tbl.get 0 m.pk.lanes port
    let m1 := { m with pk := { m.pk with lanes := Tbl.set 0 m.pk.lanes port (n + 1) } }
    if n = 0 then m1.onLife fun l => { l with lanesSpared := countUp l.lanesSpared port } else markDown m1 port

/-- RELMER_LANE_FAIL. -/
def execRelmerLaneFail (port : Nat) (s : State) : Host.Outcome State Fault Refusal := .next { s with m := laneFails s.m port }

/-- RELMER_PORT_DOWN: a port with two failed lanes or three failed retrains is marked (R443). -/
def execRelmerPortDown (port : Nat) (s : State) : Host.Outcome State Fault Refusal :=
  .next { s with m := if Tbl.get 0 s.m.pk.lanes port ≥ 2 || Tbl.get 0 s.m.pk.fails port ≥ 3 then markDown s.m port else s.m }

/-- A retrain counted; the third failure in a row takes the port down (R443). -/
def retrain (m : Mach) (port : Nat) (ok : Bool) : Mach :=
  if !isPort m port then m
  else
    let n := if ok then 0 else Tbl.get 0 m.pk.fails port + 1
    let m1 := { m with pk := { m.pk with fails := Tbl.set 0 m.pk.fails port n } }.onLife fun l => { l with relRetrains := countUp l.relRetrains port }
    if n ≥ 3 then markDown m1 port else m1

/-- RELMER_RETRAIN. -/
def execRelmerRetrain (port : Nat) (ok : Bool) (s : State) : Host.Outcome State Fault Refusal := .next { s with m := retrain s.m port ok }

/-- ROUTE_REWRITE: the new entry governs from now on (R444). A destination is a Relmer node, or 65536 plus a die of the package. -/
def rewriteRoute (m : Mach) (bed dst prim alt : Nat) : Mach :=
  if bed ≥ m.pk.beds || dst ≥ 65548 then m
  else
    let k := { m.pk with routes := Tbl.put m.pk.routes (routeAt bed dst) (prim, alt), alt := m.pk.alt.filter (· ≠ routeAt bed dst) }
    freeRoutes { m with pk := if bitAt k.links prim then { k with alt := k.alt ++ [routeAt bed dst] } else k }

def execRouteRewrite (bed dst prim alt : Nat) (s : State) : Host.Outcome State Fault Refusal := .next { s with m := rewriteRoute s.m bed dst prim alt }

/-- An access that has waited 10 ms without a route: its group and address (R444). -/
def routeOverdue (m : Mach) : Option (Nat × Word) :=
  (m.parts.flatMap fun p => p.2.holds).findSome? fun h =>
    if h.noRoute && decide (h.grp < m.groups.length) && decide (m.time - h.since ≥ 10000000) then some (h.grp, BitVec.ofNat 64 h.va) else none

/-- NO_ROUTE_TIMEOUT: the grid whose access found no route for 10 ms is killed with PROT (R444, 05 R148): an access that waits, or one
whose flits were in flight when its route was lost. -/
def execNoRouteTimeout (g : Nat) (addr : BitVec 64) (s : State) : Host.Outcome State Fault Refusal :=
  .next { s with m := if g < s.m.groups.length ∧ !(s.m.grp g).freed then killFor s.m g 0x09 addr else s.m }

/-! Images and measurements (R445, R446). -/

/-- Whether an image is accepted: both signatures and the security version. -/
def imageOk (m : Mach) (im : Image) : Bool := Config.ecdsaOk im && Config.lmsOk im && decide (im.secver ≥ m.pk.minver)

/-- An image accepted or rejected; a controller that has no image to keep boots the recovery image. -/
def loadImage (m : Mach) (im : Image) : Mach :=
  if im.kind ≥ 3 then m
  else if imageOk m im then
    { m with pk := { m.pk with images := Tbl.set none m.pk.images im.kind (some im), recovery := if im.kind = 0 then false else m.pk.recovery } }
  else
    let m1 := m.onLife fun l => { l with rejections := min (l.rejections + 1) (2 ^ 64 - 1) }
    if im.kind = 0 ∧ (Tbl.get none m.pk.images 0).isNone then { m1 with pk := { m1.pk with recovery := true } } else m1

/-- IMAGE_LOAD. -/
def execImageLoad (im : Image) (s : State) : Host.Outcome State Fault Refusal := .next { s with m := loadImage s.m im }

/-- The bytes of the enumeration table. -/
def enumBytes (m : Mach) : List Byte := (List.range 14).flatMap fun i => toBytes 8 (enumWord m (8 * i))

/-- The measurements: each accepted image, the enumeration table and the fuse state. -/
def measurements (m : Mach) : List (List Byte) :=
  (m.pk.images.filterMap fun e => e.2.map fun im => Config.sha384 im.body) ++
    [Config.sha384 (enumBytes m), Config.sha384 (Config.fuseBytes m.pk.present m.pk.rev m.pk.minver)]

/-- SPDM_MEASUREMENT: the measurements, then the signature over them. -/
def execSpdmMeasurement (s : State) : Host.Outcome State Fault Refusal :=
  let ms := measurements s.m
  .next { s with m := { s.m with pk := { s.m.pk with spdm := ms ++ [Config.sign ms.flatten] } } }

/-! Power (R447). -/

/-- The islands of a package: 64 times a die, or 12 plus a bed die, plus the island's number there. -/
def islands (k : Package) : List Nat :=
  ((List.range 12).flatMap fun d =>
    if k.has d then (List.range (if isShading d then 40 else if isGeo d then 8 else 2)).map fun i => 64 * d + i else []) ++
  (List.range k.beds).flatMap fun b => [64 * (12 + b), 64 * (12 + b) + 1]

/-- The nominal clock of an island in MHz (00 R3): 2000 on compute dies, 1600 on memory-cache dies and the SXB. R3 names none for the island
of a bed die that holds the host port and the system controller: the model takes 1600 there too (DESIGN CHOICE,
notes/assumptions/87.md). -/
def nominal (isl : Nat) : Nat := if isl / 64 < 12 ∧ (isGeo (isl / 64) || isShading (isl / 64)) then 2000 else 1600

/-- POWER_CAP_SET: at most 1800 W. -/
def execPowerCapSet (watts : Nat) (s : State) : Host.Outcome State Fault Refusal := .next { s with m := { s.m with pk := { s.m.pk with cap := min watts 1800 } } }

/-- ISLAND_CLOCK_CHANGE: a step of 25 MHz, up to the nominal clock. -/
def execIslandClockChange (isl mhz : Nat) (s : State) : Host.Outcome State Fault Refusal :=
  .next { s with m := if (islands s.m.pk).contains isl ∧ mhz % 25 = 0 ∧ mhz ≤ nominal isl ∧ mhz ≠ 0 then
      { s.m with pk := { s.m.pk with clocks := Tbl.set 0 s.m.pk.clocks isl (if mhz = nominal isl then 0 else mhz) } } else s.m }

/-- THERMAL_THROTTLE. -/
def execThermalThrottle (isl : Nat) (s : State) : Host.Outcome State Fault Refusal :=
  .next { s with m := if (islands s.m.pk).contains isl ∧ !s.m.pk.throttled.contains isl then
      { s.m with pk := { s.m.pk with throttled := s.m.pk.throttled ++ [isl] } } else s.m }

/-- The module off: every state of the device is lost but the fuses, the images and records in flash, and what other devices
hold. -/
def powerOff (m : Mach) (flash : Life) : Mach :=
  { Mach.reset with
      fresh := m.fresh
      mem := outsideMem m.mem
      pk := { Package.reset with
                present := m.pk.present
                twoBeds := m.pk.twoBeds
                rev := m.pk.rev
                minver := m.pk.minver
                images := m.pk.images
                on := false
                life := flash
                flash := flash } }

/-- Power is off. -/
def offState (s : State) (flash : Life) : State := { s with m := powerOff s.m flash, chain := none, cyc := none, pipes := [], cur := none }

/-- THERMAL_TRIP: counted, and stored as at an orderly power-down (DESIGN CHOICE, notes/assumptions/22.md). -/
def execThermalTrip (s : State) : Host.Outcome State Fault Refusal :=
  .next (offState s { s.m.pk.life with trips := min (s.m.pk.life.trips + 1) (2 ^ 64 - 1) })

/-! Lifetime records (R448). -/

/-- LIFETIME_FLUSH. -/
def execLifetimeFlush (s : State) : Host.Outcome State Fault Refusal := .next { s with m := { s.m with pk := { s.m.pk with flash := s.m.pk.life } } }

/-- ORDERLY_POWER_DOWN. -/
def execOrderlyPowerDown (s : State) : Host.Outcome State Fault Refusal := .next (offState s s.m.pk.life)

/-- LIFETIME_READ. -/
def execLifetimeRead (s : State) : Host.Outcome State Fault Refusal := .next { s with m := { s.m with pk := { s.m.pk with report := some s.m.pk.life } } }

/-- ABRUPT_POWER_LOSS: what is not in flash is forgotten. -/
def execAbruptPowerLoss (s : State) : Host.Outcome State Fault Refusal := .next (offState s s.m.pk.flash)

/-- VOLTAGE_DROOP. -/
def execVoltageDroop (isl : Nat) (s : State) : Host.Outcome State Fault Refusal :=
  .next { s with m := if (islands s.m.pk).contains isl then s.m.onLife fun l => { l with droops := countUp l.droops isl } else s.m }

/-- A minute above 95 C of an island: the sixtieth makes an hour. -/
def hotMinute (l : Life) (isl : Nat) : Life :=
  let k := Tbl.get 0 l.hotMins isl + 1
  if k ≥ 60 then { l with hotMins := Tbl.set 0 l.hotMins isl 0, hot := countUp l.hot isl } else { l with hotMins := Tbl.set 0 l.hotMins isl k }

/-- A minute powered: the sixtieth makes an hour. -/
def poweredMinute (l : Life) : Life :=
  if l.minutes + 1 ≥ 60 then { l with minutes := 0, hours := min (l.hours + 1) (2 ^ 64 - 1) } else { l with minutes := l.minutes + 1 }

/-- One minute of the records: time powered, and each island's temperature, which is free (R448). -/
def oneMinute (m : Mach) (l : Life) (i : Nat) : Life :=
  let add := fun (l : Life) (isl : Nat) =>
    let bin := min 26 (Config.tempBin m.fresh (isl + 1024 * i))
    let l1 := { l with hist := countUp l.hist (64 * isl + bin) }
    if bin ≥ 20 then hotMinute l1 isl else l1
  (islands m.pk).foldl add (poweredMinute l)

/-- Nanoseconds of a minute. -/
def minuteNs : Nat := 60000000000

/-- Time passes: TIME rises, and the minutes it completes are recorded (02 R85, R448). -/
def passTime (m : Mach) (ns : Nat) : Mach :=
  if m.pk.on then
    { m.onLife fun l => (List.range ((m.time + ns) / minuteNs - m.time / minuteNs)).foldl (oneMinute m) l with time := m.time + ns }
  else m

end Sys2Proof.Machine
end

