-- ==== Sys2Proof/Machine/Shadow.lean ====
section
/-!
DEFINITION. Sys2Proof/Machine/Shadow.lean: the meanings of major 0x37 minors 0 to 4: shadows over buffers and the settlement
of a speculative grid (11 R276 to R280, 10 R252).
-/

namespace Sys2Proof.Machine

/-- The walks of some 64 KiB pages in a row; addresses in the register window walk no table (09 R219). -/
def rangeWalks (m : Mach) (w : Who) (va n : Nat) : List (Nat × Walk) :=
  ((List.range n).map fun i => va + i * 2 ^ 16).filterMap fun a =>
    if isWindow a then none else some (a, if a ≥ 2 ^ 48 then .fail else translation m w.part w.ctx a)

/-- The first page of a range that lies in the register window. -/
def windowPage (va n : Nat) : Option Nat := ((List.range n).map fun i => va + i * 2 ^ 16).find? isWindow

/-- The pages of some walks: physical page numbers, by key. -/
def walkPages (m : Mach) (w : Who) (ws : List (Nat × Walk)) : List Nat :=
  ws.filterMap fun aw => match aw.2 with
    | .leaf e lg => (paKey m w.part (ptePa e + aw.1 % 2 ^ lg)).map (· / 2 ^ 16)
    | _ => none

/-- What stops shopen before its last check: a held page, a failed walk, a missing permission, a backing outside local
memory or a page in the register window (R277, 09 R219). -/
def rangeStop (w : Who) (window : Option Nat) (buf back : List (Nat × Walk)) : Option Stop :=
  let all := buf ++ back
  let mig := fun (aw : Nat × Walk) => match aw.2 with | .leaf e _ => pteMig e | _ => false
  let lost := fun (aw : Nat × Walk) => match aw.2 with | .fail => true | _ => false
  let bad := fun (aw : Nat × Walk) => match aw.2 with | .leaf e _ => !permits e w.priv .atomic | _ => false
  let remote := fun (aw : Nat × Walk) => match aw.2 with | .leaf e _ => bitsOf (ptePa e) 44 2 ≠ 0 | _ => false
  if all.any mig then some (.hold ((all.filter mig).map Prod.fst))
  else
    match all.find? lost with
    | some aw => some (.cause (trapOf .xlate (BitVec.ofNat 64 aw.1) 0))
    | none =>
      if all.any fun aw => aw.2 = .ue then some (.cause (trapOf .sramUe 0 0))
      else
        match (window.orElse fun _ => (all.find? bad).map Prod.fst).orElse fun _ => (back.find? remote).map Prod.fst with
        | some va => some (.cause (trapOf .prot (BitVec.ofNat 64 va) 0))
        | none => none

/-- A stop with the lanes of Active in TMASK. -/
def Cx.stopAll (c : Cx) : Stop → Eff
  | .hold vas => .stall { held := vas }
  | .cause t => c.raise t.cause t.addr (if t.cause = .sramUe then 0 else c.act)

/-- Pages copied, with the poison marks of their lines: what the opening grid reads of the buffer, the dirty bytes of its cores'
caches among it (R277, 10 R235, 14 R318). -/
def copyPages (m : Mach) (cores : Nat → Bool) (src dst : List Nat) : Mach :=
  (src.zip dst).foldl (fun m sd =>
    let lo := sd.1 * 2 ^ 16
    let m0 := flushC2In (flushC1In (flushAtomsIn m cores lo (2 ^ 16)) (fun x => x.seen.any cores) lo (2 ^ 16)) cores lo (2 ^ 16)
    let m1 := wrLines (recallC1 m0 (sd.2 * 2 ^ 16) (2 ^ 16)) ((List.range (2 ^ 16)).zip (rdBytes m0 lo (2 ^ 16)) |>.map fun e => (sd.2 * 2 ^ 16 + e.1, e.2))
    let marks := (m.poison.filter fun l => l / 512 = sd.1).map fun l => sd.2 * 512 + l % 512
    { m1 with poison := (m1.poison ++ marks).dedup }) m

/-- Whether two lists of pages share one, and whether they are the same pages, in whatever order. -/
def meets (a b : List Nat) : Bool := a.any fun x => b.contains x
def samePages (a b : List Nat) : Bool := a.all (fun x => b.contains x) && b.all (fun x => a.contains x)

/-- The backing page of each page of a key: the one at the page's place in the buffer (R277). -/
def backingOf (keys wp pages : List Nat) : List Nat := pages.map fun pg => wp.getD (keys.findIdx (· = pg)) 0

/-- SHOPEN: the checks of R277 in their order, then the entry OPEN and in force. -/
def execShopen (x : Pre) (ch : Bool) (f : Bool) (a b : BitVec 7) (i : Bool) (s : State) : Host.Outcome State Fault Refusal :=
  qWord .mem x ch (some a.toNat) (some b.toNat) always (fun c m va vb =>
    let w := c.who
    let n := wb va 0 14 + 1
    let va0 := wb va 16 32 * 2 ^ 16
    if wb va 14 2 ≠ 0 then c.illegal
    else if vb.toNat % 2 ^ 16 ≠ 0 then c.raise .misalign vb c.act
    else
      let mine := fun (k : Nat) => (List.range m.teams.length).any fun t =>
        (m.team t).grid = w.grid && (m.team t).place = .resident && 64 * (m.team t).die + (m.team t).core = k
      let window := (windowPage va0 n).orElse fun _ => windowPage vb.toNat n
      let buf := rangeWalks m w va0 n
      let back := rangeWalks m w vb.toNat n
      match rangeStop w window buf back with
      | some k => c.stopAll k
      | none =>
        let keys := walkPages m w buf
        let wp := walkPages m w back
        let p := m.part w.part
        let near := p.shadows.filter fun sh => meets sh.pages keys || meets sh.pages wp
        let same := near.find? fun sh => !sh.isOpen && samePages sh.pages keys
        let refused := near.any (fun sh => sh.isOpen || !samePages sh.pages keys) || meets keys wp ||
          (va0 < vb.toNat + n * 2 ^ 16 && vb.toNat < va0 + n * 2 ^ 16) || (same.isNone && p.shadows.length ≥ 256)
        if refused then c.raise .prot va c.act
        else
          let rp := (same.map Shadow.rp).getD []
          let pages := (same.map Shadow.pages).getD keys
          let back := backingOf keys wp pages
          let entry : Shadow := { ctx := w.ctx, va := va0, pages := pages, rp := rp, wp := back, isOpen := true, grid := w.grid, team := w.team }
          let keep := p.shadows.filter fun sh => !samePages sh.pages keys
          let m1 := m.setPart w.part { p with shadows := keep ++ [entry] }
          let m2 := if i then copyPages m1 mine (if rp.isEmpty then pages else rp) back else m1
          c.longWait m2 f .ready none) s

/-- The entry of the issuing context for the buffer at an address: an OPEN one before a PUBLISHED one (R278, R279). -/
def Cx.entryAt (c : Cx) (m : Mach) (va : Word) : Option Shadow :=
  let here := (m.part c.who.part).shadows.filter fun sh => sh.ctx = c.who.ctx && sh.va = wb va 16 32 * 2 ^ 16
  (here.find? Shadow.isOpen).orElse fun _ => here.head?

/-- The entry of a buffer replaced by what a function makes of it; the translations of the buffer's pages are dropped (10 R252). -/
def Cx.changeEntry (c : Cx) (m : Mach) (sh : Shadow) (f : Shadow → Option Shadow) : Mach :=
  let p := m.part c.who.part
  dropPages (m.setPart c.who.part { p with shadows := p.shadows.filterMap fun e => if e = sh then f e else some e }) c.who.part sh

/-- PUBLISH: RP := WP (R278). Everything its group accessed before happens before its completion (14 R321). -/
def execPublish (x : Pre) (ch : Bool) (f : Bool) (a : BitVec 7) (s : State) : Host.Outcome State Fault Refusal :=
  qWord .mem x ch (some a.toNat) none always (fun c m va _ =>
    match c.entryAt m va with
    | none => c.raise .prot va c.act
    | some sh =>
      if !sh.isOpen then c.raise .prot va c.act
      else if earlierHeld m c.gi then .stall {}
      else c.longWait (c.changeEntry (releaseAt m c.who 4) sh fun e => some (publishOne e)) f .ready none) s

/-- SHDROP (R279). -/
def execShdrop (x : Pre) (ch : Bool) (f : Bool) (a : BitVec 7) (s : State) : Host.Outcome State Fault Refusal :=
  qWord .mem x ch (some a.toNat) none always (fun c m va _ =>
    match c.entryAt m va with
    | none => c.raise .prot va c.act
    | some sh => c.longWait (c.changeEntry m sh dropOne) f .ready none) s

/-- The newest speculative grid of the issuing context with a launch record address. -/
def specGrid (m : Mach) (w : Who) (addr : Word) : Option Nat :=
  ((List.range m.grids.length).filter fun g =>
    (m.grid g).part = w.part && (m.grid g).ctx = w.ctx && (m.grid g).lr.spec && (m.grid g).recAddr = addr).getLast?

/-- The result of commit or discard, and the device after it (R280). -/
def settleGrid (m : Mach) (w : Who) (addr : Word) (act : Mach → Nat → Mach) : Mach × Nat :=
  match specGrid m w addr with
  | none => (m, 1)
  | some g =>
    let x := m.grid g
    if x.settled || x.killed then (m, 3)
    else if !x.ended then (m, 2)
    else ((act m g).setGrid g { (act m g).grid g with settled := true }, 0)

/-- COMMIT (R280). Everything its group accessed before happens before its completion (14 R321). -/
def execCommit (x : Pre) (ch : Bool) (f : Bool) (a b : BitVec 7) (s : State) : Host.Outcome State Fault Refusal :=
  qWord .ctl x ch (some a.toNat) (some b.toNat) always (fun c m va _ =>
    if earlierHeld m c.gi then .stall {}
    else
      let r := settleGrid (releaseAt m c.who 4) c.who va publishShadows
      c.longS r.1 f 2 b.toNat (BitVec.ofNat 64 r.2)) s

/-- DISCARD (R280). -/
def execDiscard (x : Pre) (ch : Bool) (f : Bool) (a b : BitVec 7) (s : State) : Host.Outcome State Fault Refusal :=
  qWord .ctl x ch (some a.toNat) (some b.toNat) always (fun c m va _ =>
    let r := settleGrid m c.who va dropShadows
    c.longS r.1 f 2 b.toNat (BitVec.ofNat 64 r.2)) s

end Sys2Proof.Machine
end

