-- ==== Sys2Proof/Machine/Dispatch.lean ====
section
/-!
DEFINITION. Sys2Proof/Machine/Dispatch.lean: one arm per instruction.
-/

namespace Sys2Proof.Machine

def exec (i : Instr) (s : State) : Host.Outcome State Fault Refusal :=
  match i with
  | .head h l a b w => Sys2Proof.Machine.execHead h l a b w s
  | .add x ch t d a b => Sys2Proof.Machine.execAdd x ch t d a b s
  | .sub x ch t d a b => Sys2Proof.Machine.execSub x ch t d a b s
  | .mul x ch t d a b => Sys2Proof.Machine.execMul x ch t d a b s
  | .mulh x ch t d a b => Sys2Proof.Machine.execMulh x ch t d a b s
  | .mad x ch t d a b => Sys2Proof.Machine.execMad x ch t d a b s
  | .ineg x ch t d a => Sys2Proof.Machine.execIneg x ch t d a s
  | .iabs x ch t d a => Sys2Proof.Machine.execIabs x ch t d a s
  | .imin x ch t d a b => Sys2Proof.Machine.execImin x ch t d a b s
  | .imax x ch t d a b => Sys2Proof.Machine.execImax x ch t d a b s
  | .sad x ch t d a b => Sys2Proof.Machine.execSad x ch t d a b s
  | .add3 x ch t d a b => Sys2Proof.Machine.execAdd3 x ch t d a b s
  | .cmp x ch t n p a b => Sys2Proof.Machine.execCmp x ch t n p a b s
  | .sel x ch t d a b => Sys2Proof.Machine.execSel x ch t d a b s
  | .mov x ch t d a => Sys2Proof.Machine.execMov x ch t d a s
  | .cvt x ch t d a h k => Sys2Proof.Machine.execCvt x ch t d a h k s
  | .lea x ch t d a b => Sys2Proof.Machine.execLea x ch t d a b s
  | .shl x ch w d a b => Sys2Proof.Machine.execShl x ch w d a b s
  | .shr x ch w d a b => Sys2Proof.Machine.execShr x ch w d a b s
  | .sar x ch w d a b => Sys2Proof.Machine.execSar x ch w d a b s
  | .band x ch w d a b => Sys2Proof.Machine.execBand x ch w d a b s
  | .bor x ch w d a b => Sys2Proof.Machine.execBor x ch w d a b s
  | .bxor x ch w d a b => Sys2Proof.Machine.execBxor x ch w d a b s
  | .andn x ch w d a b => Sys2Proof.Machine.execAndn x ch w d a b s
  | .orn x ch w d a b => Sys2Proof.Machine.execOrn x ch w d a b s
  | .bnot x ch w d a => Sys2Proof.Machine.execBnot x ch w d a s
  | .popc x ch w d a => Sys2Proof.Machine.execPopc x ch w d a s
  | .clz x ch w d a => Sys2Proof.Machine.execClz x ch w d a s
  | .ctz x ch w d a => Sys2Proof.Machine.execCtz x ch w d a s
  | .brev x ch w d a => Sys2Proof.Machine.execBrev x ch w d a s
  | .perm x ch w d a b => Sys2Proof.Machine.execPerm x ch w d a b s
  | .idot4I8 x ch d a b => Sys2Proof.Machine.execIdot4I8 x ch d a b s
  | .idot4N8 x ch d a b => Sys2Proof.Machine.execIdot4N8 x ch d a b s
  | .bfx x ch t d a b => Sys2Proof.Machine.execBfx x ch t d a b s
  | .bfi x ch t d a b => Sys2Proof.Machine.execBfi x ch t d a b s
  | .fshl x ch t d a b => Sys2Proof.Machine.execFshl x ch t d a b s
  | .fshr x ch t d a b => Sys2Proof.Machine.execFshr x ch t d a b s
  | .bmsk x ch t d b => Sys2Proof.Machine.execBmsk x ch t d b s
  | .movi x ch d im => Sys2Proof.Machine.execMovi x ch d im s
  | .movh x ch d a im => Sys2Proof.Machine.execMovh x ch d a im s
  | .xset x ch n a im => Sys2Proof.Machine.execXset x ch n a im s
  | .fadd x ch t d a b => Sys2Proof.Machine.execFadd x ch t d a b s
  | .fsub x ch t d a b => Sys2Proof.Machine.execFsub x ch t d a b s
  | .fmul x ch t d a b => Sys2Proof.Machine.execFmul x ch t d a b s
  | .ffma x ch t d a b => Sys2Proof.Machine.execFfma x ch t d a b s
  | .fmin x ch t d a b => Sys2Proof.Machine.execFmin x ch t d a b s
  | .fmax x ch t d a b => Sys2Proof.Machine.execFmax x ch t d a b s
  | .fcmp x ch n p a b => Sys2Proof.Machine.execFcmp x ch n p a b s
  | .fclass x ch t d a => Sys2Proof.Machine.execFclass x ch t d a s
  | .frnd x ch t d a => Sys2Proof.Machine.execFrnd x ch t d a s
  | .fcvt x ch t d a h k => Sys2Proof.Machine.execFcvt x ch t d a h k s
  | .ftoi x ch t d a h k => Sys2Proof.Machine.execFtoi x ch t d a h k s
  | .itof x ch t d a h k => Sys2Proof.Machine.execItof x ch t d a h k s
  | .fscale x ch t d a b => Sys2Proof.Machine.execFscale x ch t d a b s
  | .fdot2 x ch t d a b => Sys2Proof.Machine.execFdot2 x ch t d a b s
  | .fdot4 x ch t d a b => Sys2Proof.Machine.execFdot4 x ch t d a b s
  | .fdiv x ch t d a b => Sys2Proof.Machine.execFdiv x ch t d a b s
  | .frcp x ch t d a => Sys2Proof.Machine.execFrcp x ch t d a s
  | .frsq x ch t d a => Sys2Proof.Machine.execFrsq x ch t d a s
  | .fsqrt x ch t d a => Sys2Proof.Machine.execFsqrt x ch t d a s
  | .fexp2 x ch t d a => Sys2Proof.Machine.execFexp2 x ch t d a s
  | .flog2 x ch t d a => Sys2Proof.Machine.execFlog2 x ch t d a s
  | .fsin x ch t d a => Sys2Proof.Machine.execFsin x ch t d a s
  | .fcos x ch t d a => Sys2Proof.Machine.execFcos x ch t d a s
  | .ftanh x ch t d a => Sys2Proof.Machine.execFtanh x ch t d a s
  | .fpackTf8 x ch t d a h => Sys2Proof.Machine.execFpackTf8 x ch t d a h s
  | .fpackTf6 x ch t d a h => Sys2Proof.Machine.execFpackTf6 x ch t d a h s
  | .funpackTf8 x ch t d a h => Sys2Proof.Machine.execFunpackTf8 x ch t d a h s
  | .funpackTf6 x ch t d a h => Sys2Proof.Machine.execFunpackTf6 x ch t d a h s
  | .shflIdx x ch t d a b => Sys2Proof.Machine.execShflIdx x ch t d a b s
  | .shflUp x ch t d a b => Sys2Proof.Machine.execShflUp x ch t d a b s
  | .shflDown x ch t d a b => Sys2Proof.Machine.execShflDown x ch t d a b s
  | .shflXor x ch t d a b => Sys2Proof.Machine.execShflXor x ch t d a b s
  | .voteAll x ch p q => Sys2Proof.Machine.execVoteAll x ch p q s
  | .voteAny x ch p q => Sys2Proof.Machine.execVoteAny x ch p q s
  | .voteBallot x ch d q => Sys2Proof.Machine.execVoteBallot x ch d q s
  | .matchKey x ch t d a k => Sys2Proof.Machine.execMatchKey x ch t d a k s
  | .lredAdd x ch t d a => Sys2Proof.Machine.execLredAdd x ch t d a s
  | .lredMin x ch t d a => Sys2Proof.Machine.execLredMin x ch t d a s
  | .lredMax x ch t d a => Sys2Proof.Machine.execLredMax x ch t d a s
  | .lredAnd x ch t d a => Sys2Proof.Machine.execLredAnd x ch t d a s
  | .lredOr x ch t d a => Sys2Proof.Machine.execLredOr x ch t d a s
  | .lredXor x ch t d a => Sys2Proof.Machine.execLredXor x ch t d a s
  | .lscanAdd x ch t d a => Sys2Proof.Machine.execLscanAdd x ch t d a s
  | .lscanMax x ch t d a => Sys2Proof.Machine.execLscanMax x ch t d a s
  | .plop x ch t p a b => Sys2Proof.Machine.execPlop x ch t p a b s
  | .pmovToPred x ch p a => Sys2Proof.Machine.execPmovToPred x ch p a s
  | .pmovFromPred x ch d p => Sys2Proof.Machine.execPmovFromPred x ch d p s
  | .jmpt x n a b => Sys2Proof.Machine.execJmpt x n a b s
  | .ret x => Sys2Proof.Machine.execRet x s
  | .exit x => Sys2Proof.Machine.execExit x s
  | .yield x ch => Sys2Proof.Machine.execYield x ch s
  | .nop x ch d a b => Sys2Proof.Machine.execNop x ch d a b s
  | .brk x ch k => Sys2Proof.Machine.execBrk x ch k s
  | .sypub x ch a => Sys2Proof.Machine.execSypub x ch a s
  | .sydone x ch a => Sys2Proof.Machine.execSydone x ch a s
  | .setmode x ch d a b => Sys2Proof.Machine.execSetmode x ch d a b s
  | .bra n p o => Sys2Proof.Machine.execBra n p o s
  | .call n p o => Sys2Proof.Machine.execCall n p o s
  | .srd x ch d im => Sys2Proof.Machine.execSrd x ch d im s
  | .swr x ch a im => Sys2Proof.Machine.execSwr x ch a im s
  | .trap x ch k => Sys2Proof.Machine.execTrap x ch k s
  | .rett x => Sys2Proof.Machine.execRett x s
  | .sys x ch k => Sys2Proof.Machine.execSys x ch k s
  | .ctxsv x ch a b => Sys2Proof.Machine.execCtxsv x ch a b s
  | .ctxrs x ch a => Sys2Proof.Machine.execCtxrs x ch a s
  | .tlbinv x ch a k => Sys2Proof.Machine.execTlbinv x ch a k s
  | .ld x ch z f t b o => Sys2Proof.Machine.execLd x ch z f t b o s
  | .ldSext x ch z f t b o => Sys2Proof.Machine.execLdSext x ch z f t b o s
  | .st x ch z f t b o => Sys2Proof.Machine.execSt x ch z f t b o s
  | .lds x ch z f t b o => Sys2Proof.Machine.execLds x ch z f t b o s
  | .ldsSext x ch z f t b o => Sys2Proof.Machine.execLdsSext x ch z f t b o s
  | .sts x ch z f t b o => Sys2Proof.Machine.execSts x ch z f t b o s
  | .ldc x ch z f t b o => Sys2Proof.Machine.execLdc x ch z f t b o s
  | .ldm x ch f t b n => Sys2Proof.Machine.execLdm x ch f t b n s
  | .stm x ch f t b n => Sys2Proof.Machine.execStm x ch f t b n s
  | .prfm x ch l b o => Sys2Proof.Machine.execPrfm x ch l b o s
  | .cwb x ch f t b o => Sys2Proof.Machine.execCwb x ch f t b o s
  | .cinv x ch f t b o => Sys2Proof.Machine.execCinv x ch f t b o s
  | .icinv x ch f t b o => Sys2Proof.Machine.execIcinv x ch f t b o s
  | .fence x ch f => Sys2Proof.Machine.execFence x ch f s
  | .atomAdd x ch t d a b => Sys2Proof.Machine.execAtomAdd x ch t d a b s
  | .atomMin x ch t d a b => Sys2Proof.Machine.execAtomMin x ch t d a b s
  | .atomMax x ch t d a b => Sys2Proof.Machine.execAtomMax x ch t d a b s
  | .atomAnd x ch t d a b => Sys2Proof.Machine.execAtomAnd x ch t d a b s
  | .atomOr x ch t d a b => Sys2Proof.Machine.execAtomOr x ch t d a b s
  | .atomXor x ch t d a b => Sys2Proof.Machine.execAtomXor x ch t d a b s
  | .atomExch x ch t d a b => Sys2Proof.Machine.execAtomExch x ch t d a b s
  | .atomc x ch t d a b => Sys2Proof.Machine.execAtomc x ch t d a b s
  | .redAdd x ch t a b => Sys2Proof.Machine.execRedAdd x ch t a b s
  | .redMin x ch t a b => Sys2Proof.Machine.execRedMin x ch t a b s
  | .redMax x ch t a b => Sys2Proof.Machine.execRedMax x ch t a b s
  | .redAnd x ch t a b => Sys2Proof.Machine.execRedAnd x ch t a b s
  | .redOr x ch t a b => Sys2Proof.Machine.execRedOr x ch t a b s
  | .redXor x ch t a b => Sys2Proof.Machine.execRedXor x ch t a b s
  | .waitc x ch t n a b => Sys2Proof.Machine.execWaitc x ch t n a b s
  | .atomFadd x ch t d a b => Sys2Proof.Machine.execAtomFadd x ch t d a b s
  | .redFadd x ch t a b => Sys2Proof.Machine.execRedFadd x ch t a b s
  | .ldtile x ch q a => Sys2Proof.Machine.execLdtile x ch q a s
  | .qbindNone x ch q => Sys2Proof.Machine.execQbindNone x ch q s
  | .qbindCmd x ch q => Sys2Proof.Machine.execQbindCmd x ch q s
  | .qbindTok x ch q => Sys2Proof.Machine.execQbindTok x ch q s
  | .qbindEng x ch q a => Sys2Proof.Machine.execQbindEng x ch q a s
  | .qbindLsend x ch q a => Sys2Proof.Machine.execQbindLsend x ch q a s
  | .qbindLrecv x ch q a => Sys2Proof.Machine.execQbindLrecv x ch q a s
  | .qpush x ch q a => Sys2Proof.Machine.execQpush x ch q a s
  | .qcnt x ch q a => Sys2Proof.Machine.execQcnt x ch q a s
  | .cbinit x ch a b n => Sys2Proof.Machine.execCbinit x ch a b n s
  | .cbacq x ch f a n => Sys2Proof.Machine.execCbacq x ch f a n s
  | .cbrel x ch n => Sys2Proof.Machine.execCbrel x ch n s
  | .cbstat x ch a n => Sys2Proof.Machine.execCbstat x ch a n s
  | .rtag x ch f a b => Sys2Proof.Machine.execRtag x ch f a b s
  | .bobinit x ch a b => Sys2Proof.Machine.execBobinit x ch a b s
  | .bobadd x ch a b => Sys2Proof.Machine.execBobadd x ch a b s
  | .bobwait x ch f a b => Sys2Proof.Machine.execBobwait x ch f a b s
  | .barArr x ch b n => Sys2Proof.Machine.execBarArr x ch b n s
  | .barWait x ch f k n => Sys2Proof.Machine.execBarWait x ch f k n s
  | .haloDecl x ch f a => Sys2Proof.Machine.execHaloDecl x ch f a s
  | .haloRel x ch f a => Sys2Proof.Machine.execHaloRel x ch f a s
  | .haloWait x ch f a b => Sys2Proof.Machine.execHaloWait x ch f a b s
  | .haloDrop x ch f a => Sys2Proof.Machine.execHaloDrop x ch f a s
  | .coll x ch f a o => Sys2Proof.Machine.execColl x ch f a o s
  | .shopen x ch f a b im => Sys2Proof.Machine.execShopen x ch f a b im s
  | .publish x ch f a => Sys2Proof.Machine.execPublish x ch f a s
  | .shdrop x ch f a => Sys2Proof.Machine.execShdrop x ch f a s
  | .commit x ch f a b => Sys2Proof.Machine.execCommit x ch f a b s
  | .discard x ch f a b => Sys2Proof.Machine.execDiscard x ch f a b s
  | .launch x ch f a => Sys2Proof.Machine.execLaunch x ch f a s
  | .task x ch f a => Sys2Proof.Machine.execTask x ch f a s
  | .take x ch a b => Sys2Proof.Machine.execTake x ch a b s
  | .claim x ch f b => Sys2Proof.Machine.execClaim x ch f b s
  | .give x ch b => Sys2Proof.Machine.execGive x ch b s
  | .slclaim x ch f a => Sys2Proof.Machine.execSlclaim x ch f a s
  | .slrelFree x ch a => Sys2Proof.Machine.execSlrelFree x ch a s
  | .slrelReset x ch a => Sys2Proof.Machine.execSlrelReset x ch a s
  | .acclaim x ch f a => Sys2Proof.Machine.execAcclaim x ch f a s
  | .acrel x ch a => Sys2Proof.Machine.execAcrel x ch a s
  | .mxlay x ch a n => Sys2Proof.Machine.execMxlay x ch a n s
  | .mxloop x ch f q a b e => Sys2Proof.Machine.execMxloop x ch f q a b e s
  | .mxsc x ch f a b => Sys2Proof.Machine.execMxsc x ch f a b s
  | .mxz x ch f a => Sys2Proof.Machine.execMxz x ch f a s
  | .mxrd x ch f a b => Sys2Proof.Machine.execMxrd x ch f a b s
  | .mxwr x ch a b => Sys2Proof.Machine.execMxwr x ch a b s
  | .mxst x ch f a b => Sys2Proof.Machine.execMxst x ch f a b s
  | .mxsp x ch a b => Sys2Proof.Machine.execMxsp x ch a b s
  | .mxcnt x ch a => Sys2Proof.Machine.execMxcnt x ch a s
  | .mxcntClr x ch a => Sys2Proof.Machine.execMxcntClr x ch a s
  | .tsinit x ch f q a k => Sys2Proof.Machine.execTsinit x ch f q a k s
  | .tsexp x ch f q a k => Sys2Proof.Machine.execTsexp x ch f q a k s
  | .tsdesc x ch f a b => Sys2Proof.Machine.execTsdesc x ch f a b s
  | .tsback x ch f a b => Sys2Proof.Machine.execTsback x ch f a b s
  | .tsroot x ch f q a b k => Sys2Proof.Machine.execTsroot x ch f q a b k s
  | .tsfree x ch f q a b k => Sys2Proof.Machine.execTsfree x ch f q a b k s
  | .tsrd x ch f a b w => Sys2Proof.Machine.execTsrd x ch f a b w s
  | .tsstat x ch f a b k => Sys2Proof.Machine.execTsstat x ch f a b k s
  | .mvemit x ch f a => Sys2Proof.Machine.execMvemit x ch f a s
  | .cover x ch a b n => Sys2Proof.Machine.execCover x ch a b n s
  | .seqtkHw x ch f a => Sys2Proof.Machine.execSeqtkHw x ch f a s
  | .seqtkCommit x ch a => Sys2Proof.Machine.execSeqtkCommit x ch a s
  | .regionBind x ch f a b => Sys2Proof.Machine.execRegionBind x ch f a b s
  | .regionXfer x ch f a b => Sys2Proof.Machine.execRegionXfer x ch f a b s
  | .smpl x ch f a b l => Sys2Proof.Machine.execSmpl x ch f a b l s
  | .trace x ch f q a b => Sys2Proof.Machine.execTrace x ch f q a b s
  | .tresGo x ch f q a b => Sys2Proof.Machine.execTresGo x ch f q a b s
  | .tresHit x ch f q a b => Sys2Proof.Machine.execTresHit x ch f q a b s
  | .tresTmax x ch f q a b => Sys2Proof.Machine.execTresTmax x ch f q a b s
  | .tvld x ch f a => Sys2Proof.Machine.execTvld x ch f a s
  | .tvst x ch f a => Sys2Proof.Machine.execTvst x ch f a s
  | .rpack x ch f a b => Sys2Proof.Machine.execRpack x ch f a b s
  | .hintPfs x ch e n a b => Sys2Proof.Machine.execHintPfs x ch e n a b s
  | .hintBlk x ch e => Sys2Proof.Machine.execHintBlk x ch e s
  | .hintUndefined x ch h e => Sys2Proof.Machine.execHintUndefined x ch h e s
  | .courseEnd g v => Sys2Proof.Machine.execCourseEnd g v s
  | .wordComplete g k => Sys2Proof.Machine.execWordComplete g k s
  | .ageOverride g v => Sys2Proof.Machine.execAgeOverride g v s
  | .trapEntry g => Sys2Proof.Machine.execTrapEntry g s
  | .groupFreed g => Sys2Proof.Machine.execGroupFreed g s
  | .teamAdmission die => Sys2Proof.Machine.execTeamAdmission die s
  | .queueFrontTimeout die q => Sys2Proof.Machine.execQueueFrontTimeout die q s
  | .rtWaitTimeout die => Sys2Proof.Machine.execRtWaitTimeout die s
  | .preemptionSave tm => Sys2Proof.Machine.execPreemptionSave tm s
  | .preemptionAbandon tm => Sys2Proof.Machine.execPreemptionAbandon tm s
  | .taskSplit die core => Sys2Proof.Machine.execTaskSplit die core s
  | .handleUe site => Sys2Proof.Machine.execHandleUe site s
  | .claimServed die core => Sys2Proof.Machine.execClaimServed die core s
  | .claimVictim die core => Sys2Proof.Machine.execClaimVictim die core s
  | .claimVictimRestore die core => Sys2Proof.Machine.execClaimVictimRestore die core s
  | .slotRequestServed die core => Sys2Proof.Machine.execSlotRequestServed die core s
  | .pageWalk part ctx va => Sys2Proof.Machine.execPageWalk part ctx va s
  | .linkCrcRetry die chan => Sys2Proof.Machine.execLinkCrcRetry die chan s
  | .channelRetrain die chan => Sys2Proof.Machine.execChannelRetrain die chan s
  | .l2Scrub line r => Sys2Proof.Machine.execL2Scrub line r s
  | .dataPoison line => Sys2Proof.Machine.execDataPoison line s
  | .ceCommandStart g q => Sys2Proof.Machine.execCeCommandStart g q s
  | .ceLineTransfer die core k line => Sys2Proof.Machine.execCeLineTransfer die core k line s
  | .ceCommandEnd die core k => Sys2Proof.Machine.execCeCommandEnd die core k s
  | .mxKstep die core => Sys2Proof.Machine.execMxKstep die core s
  | .tseServe die => Sys2Proof.Machine.execTseServe die s
  | .tseBackupNode die => Sys2Proof.Machine.execTseBackupNode die s
  | .syeAccess die bank => Sys2Proof.Machine.execSyeAccess die bank s
  | .homeSliceWrite key bs => Sys2Proof.Machine.execHomeSliceWrite key bs s
  | .monitorArm die => Sys2Proof.Machine.execMonitorArm die s
  | .swapOut tm => Sys2Proof.Machine.execSwapOut tm s
  | .swapIn tm => Sys2Proof.Machine.execSwapIn tm s
  | .syeUnpin die => Sys2Proof.Machine.execSyeUnpin die s
  | .collChunk k remote => Sys2Proof.Machine.execCollChunk k remote s
  | .collMemberTimeout k mem => Sys2Proof.Machine.execCollMemberTimeout k mem s
  | .haloSnapshot tm h => Sys2Proof.Machine.execHaloSnapshot tm h s
  | .haloDelivery tm h dir => Sys2Proof.Machine.execHaloDelivery tm h dir s
  | .sxbAccept part k => Sys2Proof.Machine.execSxbAccept part k s
  | .sxbDeliver part region => Sys2Proof.Machine.execSxbDeliver part region s
  | .tvuNodeStep g lane => Sys2Proof.Machine.execTvuNodeStep g lane s
  | .rduTokenPush g => Sys2Proof.Machine.execRduTokenPush g s
  | .hostPostedWrite part w => Sys2Proof.Machine.execHostPostedWrite part w s
  | .ctxEnable part ctx => Sys2Proof.Machine.execCtxEnable part ctx s
  | .ctxDisable part ctx => Sys2Proof.Machine.execCtxDisable part ctx s
  | .pmodeWrite part val => Sys2Proof.Machine.execPmodeWrite part val s
  | .packageReset => Sys2Proof.Machine.execPackageReset s
  | .quotaWrite part val => Sys2Proof.Machine.execQuotaWrite part val s
  | .weightWrite part val => Sys2Proof.Machine.execWeightWrite part val s
  | .flogtailWrite part val => Sys2Proof.Machine.execFlogtailWrite part val s
  | .floglostClear part val => Sys2Proof.Machine.execFloglostClear part val s
  | .registerWrite part off val => Sys2Proof.Machine.execRegisterWrite part off val s
  | .flitRetry port => Sys2Proof.Machine.execFlitRetry port s
  | .relmerLaneFail port => Sys2Proof.Machine.execRelmerLaneFail port s
  | .relmerPortDown port => Sys2Proof.Machine.execRelmerPortDown port s
  | .routeRewrite bed dst prim alt => Sys2Proof.Machine.execRouteRewrite bed dst prim alt s
  | .noRouteTimeout g addr => Sys2Proof.Machine.execNoRouteTimeout g addr s
  | .imageLoad im => Sys2Proof.Machine.execImageLoad im s
  | .spdmMeasurement => Sys2Proof.Machine.execSpdmMeasurement s
  | .powerCapSet watts => Sys2Proof.Machine.execPowerCapSet watts s
  | .islandClockChange isl mhz => Sys2Proof.Machine.execIslandClockChange isl mhz s
  | .thermalThrottle isl => Sys2Proof.Machine.execThermalThrottle isl s
  | .thermalTrip => Sys2Proof.Machine.execThermalTrip s
  | .lifetimeFlush => Sys2Proof.Machine.execLifetimeFlush s
  | .orderlyPowerDown => Sys2Proof.Machine.execOrderlyPowerDown s
  | .lifetimeRead => Sys2Proof.Machine.execLifetimeRead s
  | .abruptPowerLoss => Sys2Proof.Machine.execAbruptPowerLoss s
  | .voltageDroop isl => Sys2Proof.Machine.execVoltageDroop isl s
  | .peerDeviceAccess part acc => Sys2Proof.Machine.execPeerDeviceAccess part acc s
  | .failureNotice k mem => Sys2Proof.Machine.execFailureNotice k mem s
  | .hardwarePrefetch die core line => Sys2Proof.Machine.execHardwarePrefetch die core line s
  | .relmerRetrain port ok => Sys2Proof.Machine.execRelmerRetrain port ok s

end Sys2Proof.Machine
end

