-- ==== Sys2Proof/Machine/Internal.lean ====
section
/-!
DEFINITION. Sys2Proof/Machine/Internal.lean: the events that the device performs on its own: those that a state holds ready.
-/

namespace Sys2Proof.Machine

/-- An event that the device performs on its own: the instruction of the same name, its arguments found in the state. -/
inductive Ev where
  | courseEnd (g v : Nat)
  | wordComplete (g k : Nat)
  | ageOverride (g v : Nat)
  | trapEntry (g : Nat)
  | groupFreed (g : Nat)
  | teamAdmission (die : Nat)
  | queueFrontTimeout (die q : Nat)
  | rtWaitTimeout (die : Nat)
  | preemptionSave (tm : Nat)
  | preemptionAbandon (tm : Nat)
  | taskSplit (die core : Nat)
  | claimServed (die core : Nat)
  | claimVictim (die core : Nat)
  | claimVictimRestore (die core : Nat)
  | slotRequestServed (die core : Nat)
  | ceCommandStart (g q : Nat)
  | ceLineTransfer (die core k line : Nat)
  | ceCommandEnd (die core k : Nat)
  | mxKstep (die core : Nat)
  | tseServe (die : Nat)
  | tseBackupNode (die : Nat)
  | syeAccess (die bank : Nat)
  | monitorArm (die : Nat)
  | swapOut (tm : Nat)
  | swapIn (tm : Nat)
  | syeUnpin (die : Nat)
  | collChunk (k : Nat)
  | collTimeout (k mem : Nat)
  | haloSnapshot (tm h : Nat)
  | haloDelivery (tm h dir : Nat)
  | sxbAccept (part k : Nat)
  | sxbDeliver (part region : Nat)
  | tvuNodeStep (g lane : Nat)
  | rduTokenPush (g : Nat)
  | ctxEnable (part ctx : Nat)
  | ctxDisable (part ctx : Nat)
  | hostPosted (part : Nat)
  | noRouteTimeout (g : Nat) (addr : Word)
deriving DecidableEq, Repr, Inhabited

/-- An event, if a condition holds. -/
def ready (b : Bool) (i : Ev) : List Ev := if b then [i] else []

/-- The lanes at which a group's TVU may have something to do: those with a state, and those with waiting work. -/
def tvLanes (g : Group) : List Nat := (g.tvu.map Prod.fst ++ g.tvPend.map TvPend.lane).dedup

/-- The events of one group. -/
def groupEvents (m : Mach) (gi : Nat) : List Ev :=
  let g := m.grp gi
  if g.freed then []
  else
    g.voices.flatMap (fun v => ready (courseReady m gi v.1).isSome (.courseEnd gi v.1) ++ ready (ageDue m gi v.1) (.ageOverride gi v.1)) ++
    g.outst.flatMap (fun o => ready (wordEvent m gi o.id).isSome (.wordComplete gi o.id)) ++
    ready g.trap.isSome (.trapEntry gi) ++ ready (drained m gi) (.groupFreed gi) ++
    g.q.flatMap (fun q => ready (ceStart m gi q.1).isSome (.ceCommandStart gi q.1)) ++
    (tvLanes g).flatMap (fun l => ready (tvNext m gi l).isSome (.tvuNodeStep gi l)) ++
    ready (!g.rdTok.isEmpty && (pushRdu m gi).isSome) (.rduTokenPush gi)

/-- The events of one team. -/
def teamEvents (m : Mach) (ti : Nat) : List Ev :=
  let t := m.team ti
  if t.place = .complete then []
  else
    ready ((t.stopping = some 0 || t.stopping = some 1) && t.place = .resident && teamQuiet m ti) (.preemptionSave ti) ++
    ready (overdue m ti) (.preemptionAbandon ti) ++ ready (swapDue m ti) (.swapOut ti) ++ ready (wakes m ti) (.swapIn ti) ++
    t.halos.flatMap fun h => (List.range 4).flatMap fun d => ready (deliverable m ti h.1 d) (.haloDelivery ti h.1 d)

/-- The events of one core. -/
def coreEvents (m : Mach) (die core : Nat) : List Ev :=
  let c := m.core die core
  ready (canSplit m die core).isSome (.taskSplit die core) ++ ready (claimReady m die core).isSome (.claimServed die core) ++
  ready (claimVictim m die core).isSome (.claimVictim die core) ++ ready (victimFits m die core).isSome (.claimVictimRestore die core) ++
  ready (c.reqs.head?.any (canServe m die core)) (.slotRequestServed die core) ++ ready (mxNext m die core).isSome (.mxKstep die core) ++
  ((List.range c.ce.length).zip c.ce).flatMap fun e =>
    ((ceNextLine m e.2).toList.map fun l => Ev.ceLineTransfer die core e.1 l) ++ ready (ceEnd m die core e.1).isSome (.ceCommandEnd die core e.1)

/-- The events of one die. -/
def dieEvents (m : Mach) (die : Nat) : List Ev :=
  ready (nextAdmission m die).isSome (.teamAdmission die) ++
  (List.range 32).flatMap (fun q => ready (blocksNow m die q).isSome (.queueFrontTimeout die q)) ++
  ready (rtChoice m die).isSome (.rtWaitTimeout die) ++ (List.range (coreCount die)).flatMap (coreEvents m die) ++
  ready (tsStep m die).isSome (.tseServe die) ++ ready (backStep m die).isSome (.tseBackupNode die) ++
  ((m.mc die).ports.map fun r => bankOf r.key).dedup.map (fun b => Ev.syeAccess die b) ++
  ready (armReady (m.mc die)) (.monitorArm die) ++ ready (m.mc die).unpinning (.syeUnpin die)

/-- The events of one partition. -/
def partEvents (m : Mach) (p : Nat) : List Ev :=
  let x := m.part p
  (List.range x.packets.length).flatMap (fun k => ready (sxbAcceptable m p k) (.sxbAccept p k)) ++
  ((x.packets.filter fun k => k.accepted).map fun k => pkRegion k.words).dedup.flatMap (fun r => ready (deliverPacket m p r).isSome (.sxbDeliver p r)) ++
  ready (!x.posted.isEmpty) (.hostPosted p) ++
  (match ctxOp m p with
   | some (1, c) | some (3, c) => ready (enableCtx m p c).isSome (.ctxEnable p c)
   | some (2, c) => [.ctxDisable p c]
   | some (_, c) => ready (ctxQuiet m p c) (.ctxDisable p c)
   | none => [])

/-- Whether a collective has something to do on its own: a chunk whose parts are all there, staging to take, a source to copy, or a
member that no route reaches. -/
def collMoves (m : Mach) (k : Nat) : Bool :=
  let c := collAt m k
  !c.ended && !c.out && (chunkReady m k [] || collPrepare m k ≠ m)

/-- The events of one member of a collective: a chunk, and the members that have been silent too long (18 R398). -/
def collEvents (m : Mach) (k : Nat) : List Ev :=
  ready (collMoves m k) (.collChunk k) ++
  (List.range (collAt m k).entries.length).flatMap fun mem => ready (silent m (collAt m k) mem) (.collTimeout k mem)

/-- The events of the device that may be performed next, in a fixed order. -/
def internalEvents (m : Mach) : List Ev :=
  (List.range m.groups.length).flatMap (groupEvents m) ++ (List.range m.teams.length).flatMap (teamEvents m) ++
  ((List.range 12).filter fun d => m.pk.has d).flatMap (dieEvents m) ++
  (List.range m.colls.length).flatMap (collEvents m) ++
  (List.range 4).flatMap (partEvents m) ++ (routeOverdue m).toList.map fun e => Ev.noRouteTimeout e.1 e.2

/-- What comes before anything else: a halo release whose snapshot can be taken (14 R336), an age override that is due (04 R113), and a
front that begins to keep later teams off a die (04 R123). -/
def urgentEvent (m : Mach) : Option Ev :=
  ((List.range m.teams.length).findSome? fun ti => (m.team ti).halos.findSome? fun h =>
    if snapReady m h.2 then some (Ev.haloSnapshot ti h.1) else none).orElse fun _ =>
  ((List.range m.groups.length).findSome? fun gi => (m.grp gi).voices.findSome? fun v =>
    if ageDue m gi v.1 then some (Ev.ageOverride gi v.1) else none).orElse fun _ =>
  ((List.range 12).filter fun d => m.pk.has d).findSome? fun d => (List.range 32).findSome? fun q =>
    if (blocksNow m d q).isSome then some (Ev.queueFrontTimeout d q) else none

end Sys2Proof.Machine
end

