-- ==== Sys2Proof/Machine/Sched.lean ====
section
/-!
DEFINITION. Sys2Proof/Machine/Sched.lean: what the next step does: which voice issues (04 R111 to R114), which event happens,
fetching a word and running it, and placing a word where the next step fetches it.
-/

namespace Sys2Proof.Machine

/-! Running one voice. -/

/-- The guard of an undecodable member: that of its X word (01 R29). -/
def rawPre (w : Nat) : Pre :=
  if majorOf w = 2 then .k0 (bitAt w 21) (BitVec.ofNat 3 (bitsOf w 18 3)) 0 0 false false 0 false else .none

/-- The next member of a voice inside a course, or the end of its words. -/
def runInside (gi vi : Nat) (v : Voice) (s : State) : Host.Outcome State Fault Refusal :=
  if v.word > lastWord v.code then .next { s with m := endOfWords s.m gi vi, chain := none, cur := none }
  else if s.chain.isNone && waitsForClaim s.m gi v then .next { s with m := stallAt s.m gi vi v.word {}, cur := none }
  else
    match decodeWords (v.code.drop v.word) with
    | .ok (i, _) => exec i s
    | .error _ => issue none false (rawPre (v.code.getD v.word 0)) false (fun c _ => c.illegal) s

/-- A voice that stands at a head enters the course there, or traps, or waits (01 R20, R21, 10 R245). -/
def runHead (gi vi : Nat) (v : Voice) (s : State) : Host.Outcome State Fault Refusal :=
  match fetchCourse s.m gi v with
  | .error (.hold vas) => .next { s with m := stallHead s.m gi vi vas, chain := none, cur := none }
  | .error (.cause t) => .next { s with m := headTrap s.m gi vi t, chain := none, cur := none }
  | .ok ws =>
    match decodeWords ws with
    | .ok (i, _) => exec i s
    | .error _ => .next { s with m := enterCourse s.m gi vi v ws, chain := none, cur := none }

/-- One member, or the entry, of a voice. -/
def runVoice (gi vi : Nat) (s : State) : Host.Outcome State Fault Refusal :=
  match voiceAt s.m gi vi with
  | none => .next { s with chain := none, cur := none }
  | some v =>
    if v.inside then runInside gi vi v { s with cur := some (gi, vi) } else runHead gi vi v { s with cur := some (gi, vi) }

/-- Whether a voice that stood at a head has passed it. -/
def entered (gi vi : Nat) (old new : Mach) : Bool :=
  match voiceAt old gi vi, voiceAt new gi vi with
  | some v, some w => !v.inside && w.inside && !w.stalled
  | _, _ => false

/-- A voice run on its own until a chain of it has issued, stalled or trapped: past its head if it stands at one. -/
def trial (gi vi : Nat) : Nat → State → State
  | 0, s => s
  | n + 1, s =>
    match runVoice gi vi s with
    | .next t => if t.chain.isSome || entered gi vi s.m t.m then trial gi vi n t else t
    | _ => s
def tryVoice (gi vi : Nat) (s : State) : State := trial gi vi 6 { s with chain := none, cur := none, pipes := [] }

/-- An event of the device performed: the meaning of the instruction of the same name. -/
def runEv : Ev → State → Host.Outcome State Fault Refusal
  | .courseEnd g v, s => execCourseEnd g v s
  | .wordComplete g k, s => execWordComplete g k s
  | .ageOverride g v, s => execAgeOverride g v s
  | .trapEntry g, s => execTrapEntry g s
  | .groupFreed g, s => execGroupFreed g s
  | .teamAdmission die, s => execTeamAdmission die s
  | .queueFrontTimeout die q, s => execQueueFrontTimeout die q s
  | .rtWaitTimeout die, s => execRtWaitTimeout die s
  | .preemptionSave tm, s => execPreemptionSave tm s
  | .preemptionAbandon tm, s => execPreemptionAbandon tm s
  | .taskSplit die core, s => execTaskSplit die core s
  | .claimServed die core, s => execClaimServed die core s
  | .claimVictim die core, s => execClaimVictim die core s
  | .claimVictimRestore die core, s => execClaimVictimRestore die core s
  | .slotRequestServed die core, s => execSlotRequestServed die core s
  | .ceCommandStart g q, s => execCeCommandStart g q s
  | .ceLineTransfer die core k line, s => execCeLineTransfer die core k line s
  | .ceCommandEnd die core k, s => execCeCommandEnd die core k s
  | .mxKstep die core, s => execMxKstep die core s
  | .tseServe die, s => execTseServe die s
  | .tseBackupNode die, s => execTseBackupNode die s
  | .syeAccess die bank, s => execSyeAccess die bank s
  | .monitorArm die, s => execMonitorArm die s
  | .swapOut tm, s => execSwapOut tm s
  | .swapIn tm, s => execSwapIn tm s
  | .syeUnpin die, s => execSyeUnpin die s
  | .collChunk k, s => execCollChunk k [] s
  | .collTimeout k mem, s => execCollMemberTimeout k mem s
  | .haloSnapshot tm h, s => execHaloSnapshot tm h s
  | .haloDelivery tm h dir, s => execHaloDelivery tm h dir s
  | .sxbAccept part k, s => execSxbAccept part k s
  | .sxbDeliver part region, s => execSxbDeliver part region s
  | .tvuNodeStep g lane, s => execTvuNodeStep g lane s
  | .rduTokenPush g, s => execRduTokenPush g s
  | .ctxEnable part ctx, s => execCtxEnable part ctx s
  | .ctxDisable part ctx, s => execCtxDisable part ctx s
  | .hostPosted part, s => execHostPostedWrite part noWrite s
  | .noRouteTimeout g addr, s => execNoRouteTimeout g addr s

/-! Which voices a stall of 01 R19 holds, brought up to date (R113). -/

/-- The voices that a yielding voice must let issue first, less those that no longer can (02 R81). -/
def yielded (m : Mach) (v : Voice) : Bool := !v.inside && v.yieldTo.any fun y => eligible m y.1 y.2

/-- A voice that a stall holds: it has not been eligible without a break. -/
def heldBack (v : Voice) : Voice := { v with stalled := true, waited := 0, aged := false }

/-- A voice's marks and its held accesses as a trial of it has left them. -/
def adopt (m : Mach) (gi vi : Nat) (v : Voice) (t : Mach) : Mach :=
  let p := (m.grid (m.grp gi).grid).part
  let m1 := setVoice m gi vi v
  match (t.part p).holds.filter fun h => h.grp = gi && h.who = vi with
  | [] => m1
  | hs => m1.setPart p { m1.part p with holds := (m1.part p).holds ++ hs }

/-- Whether a voice at a head may pass it now although a stall holds its first chain: the group's turn is free, and no other voice of
the group can issue. -/
def mayPass (m : Mach) (gi vi : Nat) (v : Voice) : Bool :=
  !turnTaken (m.grp gi) vi && !yielded m v && !((m.grp gi).voices.any fun w => w.1 ≠ vi && eligible m gi w.1)

/-- The marks of one voice brought up to date: its next chain is tried, and only what a stall leaves is kept: the mark, what the voice
waits for, its held accesses, a ripple begun, and a head passed. -/
def refreshVoice (m : Mach) (gi vi : Nat) (s : State) : Mach :=
  match voiceAt m gi vi with
  | none => m
  | some v =>
    if !mayRun m gi v || isHeld m gi vi then m
    else
      let v0 := { v with stalled := false, sym := none }
      let go := fun (v0 : Voice) => (tryVoice gi vi { s with m := setVoice m gi vi v0 }).m
      let begun := fun (t : Mach) => match voiceAt t gi vi with
        | some w => v.ripple.isNone && w.ripple.isSome && w.word = v.word && v.inside
        | none => false
      let t0 := go v0
      let v1 := if begun t0 then { v0 with ripple := (voiceAt t0 gi vi).bind Voice.ripple } else v0
      let t := if begun t0 then go v1 else t0
      match voiceAt t gi vi with
      | none => setVoice m gi vi v1
      | some w =>
        if !(w.stalled && w.pend.isNone) then setVoice m gi vi v1
        else if !v.inside && w.inside then
          (if mayPass m gi vi v then adopt m gi vi (heldBack w) t else setVoice m gi vi (heldBack v1))
        else adopt m gi vi { heldBack v1 with sym := w.sym } t

/-- The voices of a device. -/
def allVoices (m : Mach) : List (Nat × Nat) :=
  (List.range m.groups.length).flatMap fun gi => (m.grp gi).voices.map fun v => (gi, v.1)

/-- The device with every voice's marks up to date. -/
def refresh (s : State) : Mach := (allVoices s.m).foldl (fun m gv => refreshVoice m gv.1 gv.2 s) s.m

/-! The choice of a voice (R111, R113, R114). -/

/-- Whether a voice is a candidate: it is eligible, the group's turn is free for it, and it yields to none. -/
def candidate (m : Mach) (gi vi : Nat) : Bool :=
  match voiceAt m gi vi with
  | none => false
  | some v => eligible m gi vi && !turnTaken (m.grp gi) vi && !yielded m v

/-- The issue counters and weights of GFX and TNS (R114). -/
def issueCount (m : Mach) (g : Group) (cls : Nat) : Nat := Tbl.get 0 (m.core g.die g.core).issue (2 * g.slot + (cls - 1))
def weightOf (m : Mach) (g : Group) (cls : Nat) : Nat :=
  wb (m.part (m.grid g.grid).part).weight (if cls = 1 then 0 else 4) 4
def classOf (m : Mach) (gi : Nat) : Nat := (m.grid (m.grp gi).grid).lr.cls

/-- Whether GFX wins over TNS in a group's slot: the lower count over weight, GFX on a tie (R114). -/
def gfxWins (m : Mach) (g : Group) : Bool := issueCount m g 1 * weightOf m g 2 ≤ issueCount m g 2 * weightOf m g 1

/-- The first key of R113. -/
def classKey (m : Mach) (gi : Nat) : Nat :=
  match classOf m gi with
  | 0 => 0
  | 1 => if gfxWins m (m.grp gi) then 1 else 2
  | 2 => if gfxWins m (m.grp gi) then 2 else 1
  | _ => 3

/-- Two lists of keys in lexical order. -/
def keysLt : List Nat → List Nat → Bool
  | a :: as, b :: bs => a < b || (a = b && keysLt as bs)
  | _, _ => false

def voiceOf (m : Mach) (gv : Nat × Nat) : Voice := Tbl.get default (m.grp gv.1).voices gv.2

/-- The keys that choose among the voices of one group, smaller first: the age override, then R111. -/
def innerKeys (m : Mach) (gv : Nat × Nat) : List Nat :=
  let v := voiceOf m gv
  [if v.aged then 0 else 1, if v.inside then 0 else 1 + v.head, gv.2]

/-- The keys of R113 that choose among voices of different groups, smaller first. -/
def outerKeys (m : Mach) (gv : Nat × Nat) : List Nat :=
  let g := m.grp gv.1
  let v := voiceOf m gv
  [classKey m gv.1, 7 - (m.grid g.grid).lr.prio, if v.aged then 0 else 1, g.prog, 2 ^ 64 - v.waited, g.resid]

/-- The core of a group. -/
def coreOf (m : Mach) (gi : Nat) : Nat := 64 * (m.grp gi).die + (m.grp gi).core

/-- The candidates of a slot, one for each group that has some: the first by R111. -/
def slotVoices (m : Mach) (core slot : Nat) : List (Nat × Nat) :=
  (List.range m.groups.length).filterMap fun gi =>
    if coreOf m gi = core && (m.grp gi).slot = slot then
      firstBy (fun x y => keysLt (innerKeys m x) (innerKeys m y))
        (((m.grp gi).voices.map fun v => (gi, v.1)).filter fun gv => candidate m gi gv.2)
    else none

/-- The pipe classes that a voice's next chain needs. -/
def chainPipes (s : State) (gv : Nat × Nat) : List Pipe := (tryVoice gv.1 gv.2 s).pipes
def samePipes (a b : List Pipe) : Bool := a.all (b.contains ·) && b.all (a.contains ·)

/-- The quarters of its slot that a voice's lanes lie in (R106). -/
def quartersAt (g : Group) (v : Voice) : List Nat :=
  ((List.range (g.width / 8)).filter fun k => bitsOf v.mask.toNat (8 * k) 8 ≠ 0).map (g.quarter + ·)

/-- The voices that issue together with the winner of a slot whose group is narrower than 32 lanes: in key order, those whose lanes
lie in quarters unused so far and whose chains need the same pipe classes, one of BG only where the winner is of BG (R113; R111: of
one group at most one voice issues in a cycle). -/
def together (s : State) (win : Nat × Nat) (rest : List (Nat × Nat)) : List (Nat × Nat) :=
  if (s.m.grp win.1).width ≥ 32 then []
  else
    let need := chainPipes s win
    ((sortBy (fun x y => keysLt (outerKeys s.m x) (outerKeys s.m y)) rest).foldl (fun (acc : List (Nat × Nat) × List Nat) gv =>
      let qs := quartersAt (s.m.grp gv.1) (voiceOf s.m gv)
      let allowed : Bool := classOf s.m gv.1 ≠ 3 || classOf s.m win.1 = 3
      if allowed && qs.all (!acc.2.contains ·) && samePipes (chainPipes s gv) need then (acc.1 ++ [gv], acc.2 ++ qs) else acc)
      ([], quartersAt (s.m.grp win.1) (voiceOf s.m win))).1

/-- The counters that a choice between GFX and TNS raises in a slot (R114). -/
def chargeSlot (m : Mach) (cands : List (Nat × Nat)) (gi : Nat) : Mach :=
  let g := m.grp gi
  let k := classOf m gi
  let rival := if k = 1 then 2 else 1
  if (k = 1 ∨ k = 2) ∧ cands.any (fun c => classOf m c.1 = rival) then
    let c := m.core g.die g.core
    let mine := Tbl.get 0 c.issue (2 * g.slot + (k - 1)) + 1
    let other := Tbl.get 0 c.issue (2 * g.slot + (rival - 1))
    let both : Bool := mine > 65535 && other > 65535
    let t := Tbl.set 0 c.issue (2 * g.slot + (k - 1)) (if both then mine / 2 else mine)
    m.setCore g.die g.core { c with issue := Tbl.set 0 t (2 * g.slot + (rival - 1)) (if both then other / 2 else other) }
  else m

/-- A voice that issued, or can no longer issue, holds back no voice that yielded to it (02 R81). In the yield's own cycle a chain
issued after the yield counts as issued since, one issued before it does not (DESIGN CHOICE, notes/assumptions/108.md). -/
def noteYield (gi vi : Nat) (m : Mach) : Mach :=
  let one := fun (nv : Nat × Voice) =>
    (nv.1, { nv.2 with yieldTo := nv.2.yieldTo.filter fun y => y ≠ (gi, vi) && eligible m y.1 y.2 })
  if m.groups.any fun g => g.voices.any fun v => !v.2.yieldTo.isEmpty then
    { m with groups := m.groups.map fun g => { g with voices := g.voices.map one } }
  else m

/-- A voice about to issue: the device, and the rest of the cycle. -/
structure Turn where
  m : Mach
  gi : Nat
  vi : Nat
  cyc : Cycle
deriving DecidableEq, Repr, Inhabited

/-- The slots of a cycle arbitrated in order, as far as one that some voice wins; a group of 64 lanes takes the next slot too
(R113). -/
def arbitrate (s : State) (core : Nat) : List Nat → Option Turn
  | [] => none
  | k :: ks =>
    let cs := slotVoices s.m core k
    match firstBy (fun x y => keysLt (outerKeys s.m x) (outerKeys s.m y)) cs with
    | none => arbitrate s core ks
    | some win =>
      some { m := chargeSlot s.m cs win.1, gi := win.1, vi := win.2,
             cyc := { core := core, slots := if (s.m.grp win.1).width = 64 then ks.drop 1 else ks,
                      co := together s win (cs.filter (· ≠ win)) } }

/-- What is left of a cycle: the voices that issue together, then the slots still to be arbitrated. -/
def nextTurn (s : State) (c : Cycle) : Option Turn :=
  match c.co.filter fun gv => eligible s.m gv.1 gv.2 with
  | gv :: rest => some { m := s.m, gi := gv.1, vi := gv.2, cyc := { c with co := rest } }
  | [] => arbitrate s c.core c.slots

/-- A number that moves through a list as the model's counter rises. -/
def turnOf (fresh n : Nat) : Nat := fresh * 40503 / 1024 % max 1 n

/-- The core whose cycle begins: one of those that have candidates (DESIGN CHOICE, notes/assumptions/5.md). -/
def chooseCore (m : Mach) : Option Nat :=
  let cs := (((allVoices m).filter fun gv => candidate m gv.1 gv.2).map fun gv => coreOf m gv.1).dedup
  cs[turnOf m.fresh cs.length]?

/-- The eligible voices of a core have waited one cycle more (R113); the one that issues starts again. -/
def noteCycle (m : Mach) (core : Nat) : Mach :=
  (allVoices m).foldl (fun m gv =>
    if coreOf m gv.1 = core && eligible m gv.1 gv.2 then
      setVoice m gv.1 gv.2 { voiceOf m gv with waited := (voiceOf m gv).waited + 1 }
    else m) m

/-- A cycle of some core begun. -/
def newCycle (s : State) : Option Turn :=
  (chooseCore s.m).bind fun core => arbitrate { s with m := noteCycle s.m core } core [0, 1, 2, 3]

/-! What a step does. -/

/-- What happens next. -/
inductive Pick where
  /-- the chain in progress goes on -/
  | chain (gi vi : Nat)
  /-- an event of the inbox -/
  | inbox (e : Instr) (rest : List Instr)
  /-- a voice issues -/
  | voice (t : Turn)
  /-- an event of the device -/
  | event (e : Ev)
  | idle
deriving DecidableEq, Repr, Inhabited

/-- The event whose turn it is. -/
def chooseEvent (m : Mach) : Option Ev :=
  let es := internalEvents m
  es[turnOf m.fresh es.length]?

/-- A chain in progress first, then the rest of the cycle it belongs to, then what cannot wait, then the inbox; then events of the device
and cycles of its cores, which take turns (DESIGN CHOICE, notes/assumptions/5.md). -/
def pick (s : State) : Pick :=
  match s.chain, s.cur with
  | some _, some (gi, vi) => .chain gi vi
  | _, _ =>
    match s.cyc.bind (nextTurn s) with
    | some t => .voice t
    | none =>
      match urgentEvent s.m, s.inbox with
      | some e, _ => .event e
      | none, e :: rest => .inbox e rest
      | none, [] =>
        let v := fun (_ : Unit) => (newCycle s).map Pick.voice
        let e := fun (_ : Unit) => (chooseEvent s.m).map Pick.event
        ((if s.cyc.isNone then (v ()).orElse e else (e ()).orElse v)).getD .idle

/-- The state from which a step chooses: between chains and cycles the marks of stalled voices are brought up to date. -/
def current (s : State) : State :=
  if s.chain.isSome || (s.cyc.bind (nextTurn s)).isSome then s else { s with m := refresh s }

/-- A turn begun: whether the voice holds back others that yielded is noted when it issues a chain. -/
def turnState (s : State) (t : Turn) : State :=
  let inside := (voiceOf t.m (t.gi, t.vi)).inside
  { s with m := if inside then noteYield t.gi t.vi t.m else t.m, chain := none, cyc := some t.cyc }

/-- A voice that has passed its head issues its chain in the same cycle. -/
def goOn (gi vi : Nat) (old : Mach) (s : State) : State :=
  if entered gi vi old s.m then { s with cyc := s.cyc.map fun c => { c with co := (gi, vi) :: c.co } } else s

/-- Every step moves the model's counter and TIME, and notes since when queues' front teams and idle teams have waited
(notes/assumptions/4.md, 02 R85, 04 R123, 18 R396). -/
def advance (old : Mach) (s : State) : State :=
  { s with m := { noteIdle (noteFronts (passTime s.m (Config.tick old.fresh))) with fresh := old.fresh + 1 } }

/-- A function of the next state, if there is one. -/
def mapNext (f : State → State) : Host.Outcome State Fault Refusal → Host.Outcome State Fault Refusal
  | .next t => .next (f t)
  | o => o

/-- One step from a state whose marks are up to date, the module powered. -/
def stepFrom (s : State) : Host.Outcome State Fault Refusal :=
  match pick s with
  | .chain gi vi => mapNext (advance s.m) (runVoice gi vi s)
  | .inbox e rest => mapNext (advance s.m) (exec e { s with inbox := rest })
  | .voice t => mapNext (fun r => advance s.m (goOn t.gi t.vi t.m r)) (runVoice t.gi t.vi (turnState s t))
  | .event e => mapNext (advance s.m) (runEv e { s with cyc := none })
  | .idle => .next (advance s.m { s with cyc := none })

/-- One step, the module powered. -/
def stepOn (s : State) : Host.Outcome State Fault Refusal := stepFrom (current s)

/-! A word placed where the next step fetches it (notes/assumptions/6.md). -/

/-- The virtual address of the kernel that holds it, and its header's packet. -/
def probeVa : Nat := 0xC0000

/-- Page tables in local memory that map one 64 KiB page of code and data, readable, writable and executable. -/
def probeTables : List (Nat × Nat) :=
  [(keyLocal 0 0x10000, 0x20001), (keyLocal 0 0x20000, 0x30001), (keyLocal 0 0x30060, 0x40073)]

def probeRec : Rec :=
  { kaddr := probeVa, gx := 1, gy := 1, gz := 1, split := 1, width := 0, chw := 1, chh := 1, grps := 1, grant := 4, param := 0,
    prelude := 0, geo := false, spec := false, priv := true, idem := false, ordered := false, prio := 0, cls := 0, lo := 0,
    hi := 0, grain := 0 }
def probeHdr : Hdr :=
  { isa := 3, family := Config.family, width := 0, compat := false, ordered := false, idem := false, roles := 1, vregs := 96,
    sregs := 64, spad := 4, syms := [] }
def probeGrid : Grid :=
  { part := 0, ctx := 0, recAddr := BitVec.ofNat 64 0xC8000, lr := probeRec, hdr := probeHdr, prelude := [], task := false,
    nextTid := 1, made := 1, killed := false, ended := false, cause := 0, settled := false, streams := [], cursors := [],
    dist := [], exited := [], tail := none, stat := none }
def probeTeam : Team :=
  { grid := 0, tid := 0, die := 1, core := 0, place := .resident, stopping := none, stopAt := 0, kept := none, groups := [0], cluster := [0], rank := 0,
    spad := [], bars := [], clbars := [], cbs := [], f0 := 0, f := 0, h := 0, halos := [], links := [], rpMask := none,
    rpPhase := 0, relaunches := 0, idle := none, order := 0 }
def probeGroup (v : Voice) : Group :=
  { grid := 0, team := 0, gid := 0, width := 8, die := 1, core := 0, slot := 0, quarter := 0, resid := 0, voices := [(0, v)],
    park := [], live := fullMask 8, v := [], nv := 96, s := [], ns := 64, p := [], x := [], ly := [], q := [], outq := [], f := [],
    mode := 0, fpflags := 0, prog := 0, tvec := 0, tcause := 0, taddr := 0, tpc := 0, tmask := 0, pp := 0, ret := [],
    inhandler := false, handler := none, trap := none, outst := [], nextId := 0, conflicts := 0, mxsp := none, mxseq := 0,
    arrived := [], tvu := [], tvJobs := [], tvPend := [], rdTok := [], repack := none, freed := false, stopped := false,
    victim := false, vrun := none, holdsRes := false, inWords := [] }

/-- The words of the course that holds an instruction: a head that selects no flag, the instruction's words, and nops; an
instruction that is itself a head stands first. -/
def probeCode (w : Nat) : List Nat :=
  let w0 := w % 2 ^ 32
  let w1 := w / 2 ^ 32 % 2 ^ 32
  let nop := 0x48C00000
  if majorOf w0 = 0 then w0 :: List.replicate (3 * (bitsOf w0 21 3 + 1) - 1) nop
  else [0x003FE000, w0, if w1 = 0 then nop else w1, nop, nop, nop]

/-- The device with one group about to run an instruction. -/
def probeMach (m : Mach) (w : Nat) : Mach :=
  let code := probeCode w
  let head := probeVa / 12 + 1
  let sv := standingVoice (fullMask 8) head
  let v := if majorOf (w % 2 ^ 32) = 0 then sv else { sv with inside := true, word := 1, code := code }
  let mem0 := probeTables.foldl (fun t kv => putMem t kv.1 (toBytes 8 kv.2)) m.mem
  let mem1 := putMem mem0 (keyLocal 0 (0x40000 + probeVa % 2 ^ 16 + 12)) (code.flatMap fun x => toBytes 4 x)
  let p := m.part 0
  { m with mem := mem1, poison := [], c1 := [], past := [], cores := [], colls := [], grids := [probeGrid], teams := [probeTeam], groups := [probeGroup v],
           parts := Tbl.set Part.reset m.parts 0 { p with ctxs := Tbl.put p.ctxs 0 { enabled := true, root := 0x10000 },
                                                           tlb := [], holds := [], drops := [], shadows := [], pass := none } }

/-- The state whose next step fetches and runs an instruction. -/
def probeState (s : State) (w : Nat) : State :=
  { s with m := { probeMach s.m w with pk := { s.m.pk with on := true } }, chain := none, cyc := some { core := 64, slots := [], co := [(0, 0)] },
           cur := some (0, 0), inbox := [] }

end Sys2Proof.Machine
end

