-- ==== Sys2Proof/Machine/Step.lean ====
section
/-!
DEFINITION. Sys2Proof/Machine/Step.lean: one step of the machine, and where a word stands that the next step runs.
-/

namespace Sys2Proof.Machine

/-- One step: nothing runs while the module is off (21 R447). -/
def step (s : State) : Host.Outcome State Fault Refusal := if s.m.pk.on then stepOn s else .fault .poweredOff

/-- The state in which an instruction stands where step fetches its next one (notes/assumptions/6.md). -/
def State.withFetchWord (s : State) (_nbits w : Nat) : State := probeState s w

end Sys2Proof.Machine
end

