-- ==== Sys2Proof/Laws/Encoding.lean ====
section
/-!
SUPPORT. Sys2Proof/Laws/Encoding.lean: cutting a field out of a word that was put together from fields.
-/

namespace Sys2Proof

theorem fld_low (v n r len : Nat) (h : v < 2 ^ n) (hl : n = len) : fld (v + 2 ^ n * r) 0 len = v := by
  subst hl; simp [fld, Nat.add_mul_mod_self_left, Nat.mod_eq_of_lt h]

theorem fld_high (v n r lo len : Nat) (h : v < 2 ^ n) (hl : n ≤ lo) : fld (v + 2 ^ n * r) lo len = fld r (lo - n) len := by
  unfold fld
  rw [show (2 : Nat) ^ lo = 2 ^ n * 2 ^ (lo - n) by rw [← pow_add]; congr 1; omega, ← Nat.div_div_eq_div_mul,
    Nat.add_mul_div_left _ _ (by positivity), Nat.div_eq_of_lt h, Nat.zero_add]

@[simp] theorem fld_zero (lo len : Nat) : fld 0 lo len = 0 := by simp [fld]

/-! A field above a cell. -/

@[simp] theorem fld_cellV {n : Nat} (x : BitVec n) (r lo len : Nat) (hl : n ≤ lo) : fld (cellV x r) lo len = fld r (lo - n) len :=
  fld_high _ _ _ _ _ x.isLt hl
@[simp] theorem fld_cellB (x : Bool) (r lo len : Nat) (hl : 1 ≤ lo) : fld (cellB x r) lo len = fld r (lo - 1) len :=
  fld_high _ _ _ _ _ (by cases x <;> decide) hl
@[simp] theorem fld_cellN (v n r lo len : Nat) (h : v < 2 ^ n) (hl : n ≤ lo) : fld (cellN v n r) lo len = fld r (lo - n) len :=
  fld_high _ _ _ _ _ h hl
@[simp] theorem bvf_cellV {n : Nat} (x : BitVec n) (r lo len : Nat) (hl : n ≤ lo) : bvf (cellV x r) lo len = bvf r (lo - n) len := by
  simp [bvf, fld_cellV, hl]
@[simp] theorem bvf_cellB (x : Bool) (r lo len : Nat) (hl : 1 ≤ lo) : bvf (cellB x r) lo len = bvf r (lo - 1) len := by
  simp [bvf, fld_cellB, hl]
@[simp] theorem bvf_cellN (v n r lo len : Nat) (h : v < 2 ^ n) (hl : n ≤ lo) : bvf (cellN v n r) lo len = bvf r (lo - n) len := by
  simp [bvf, fld_cellN, h, hl]
@[simp] theorem bit_cellV {n : Nat} (x : BitVec n) (r lo : Nat) (hl : n ≤ lo) : bit (cellV x r) lo = bit r (lo - n) := by
  simp [bit, fld_cellV, hl]
@[simp] theorem bit_cellB (x : Bool) (r lo : Nat) (hl : 1 ≤ lo) : bit (cellB x r) lo = bit r (lo - 1) := by
  simp [bit, fld_cellB, hl]
@[simp] theorem bit_cellN (v n r lo : Nat) (h : v < 2 ^ n) (hl : n ≤ lo) : bit (cellN v n r) lo = bit r (lo - n) := by
  simp [bit, fld_cellN, h, hl]

/-! The field of a cell. -/

@[simp] theorem fld_cellN_low (v n r : Nat) (h : v < 2 ^ n) : fld (cellN v n r) 0 n = v := fld_low _ _ _ _ h rfl
@[simp] theorem fld_cellB_low (x : Bool) (r : Nat) : fld (cellB x r) 0 1 = x.toNat := fld_low _ _ _ _ (by cases x <;> decide) rfl
@[simp] theorem fld_cellV_low {n : Nat} (x : BitVec n) (r : Nat) : fld (cellV x r) 0 n = x.toNat := fld_low _ _ _ _ x.isLt rfl
@[simp] theorem bvf_cellV_low {n : Nat} (x : BitVec n) (r : Nat) : bvf (cellV x r) 0 n = x := by simp [bvf, fld_cellV_low]
@[simp] theorem bit_cellB_low (x : Bool) (r : Nat) : bit (cellB x r) 0 = x := by cases x <;> simp [bit, fld_cellB_low]
@[simp] theorem bit_zero (lo : Nat) : bit 0 lo = false := by simp [bit, fld_zero]
theorem fld_hint (x : Bool) (r : Nat) : fld (cellB x (cellN 31 5 r)) 0 6 = 62 + x.toNat := by
  have : cellB x (cellN 31 5 r) = (x.toNat + 62) + 2 ^ 6 * r := by simp [cellB, cellN]; ring
  rw [this, fld_low _ _ _ _ (by cases x <;> decide) rfl, Nat.add_comm]

/-- A longer run of bits that starts with a cell of another code. -/
@[simp] theorem fld_cellN_ne (v n r len k : Nat) (h : n ≤ len) (hv : v < 2 ^ n) (hk : v ≠ k % 2 ^ n) :
    (fld (cellN v n r) 0 len = k) = False := by
  simp only [eq_iff_iff, iff_false]
  intro he
  apply hk
  rw [← he, fld, cellN, Nat.pow_zero, Nat.div_one, Nat.mod_mod_of_dvd _ (Nat.pow_dvd_pow 2 h), Nat.add_mul_mod_self_left,
    Nat.mod_eq_of_lt hv]

/-- A shorter run of bits at the start of a cell. -/
@[simp] theorem fld_cellN_part (v n r len : Nat) (h : len < n) : fld (cellN v n r) 0 len = v % 2 ^ len := by
  rw [fld, cellN, Nat.pow_zero, Nat.div_one, show (2 : Nat) ^ n = 2 ^ len * 2 ^ (n - len) by rw [← pow_add]; congr 1; omega,
    Nat.mul_assoc, Nat.add_mul_mod_self_left]

/-! The types that share the major code. -/

theorem IntTy.code_lt (t : IntTy) : t.code < 10 := by cases t <;> decide
@[simp] theorem IntTy.ofCode_code (t : IntTy) : IntTy.ofCode t.code = t := by cases t <;> rfl
theorem BTy.code_lt (t : BTy) : t.code < 2 := by cases t <;> decide
@[simp] theorem BTy.ofCode_code (t : BTy) : BTy.ofCode t.code = t := by cases t <;> rfl
theorem WTy.code_lt (t : WTy) : t.code < 4 := by cases t <;> decide
@[simp] theorem WTy.ofCode_code (t : WTy) : WTy.ofCode t.code = t := by cases t <;> rfl
theorem FTy.code_lt (t : FTy) : t.code < 4 := by cases t <;> decide
@[simp] theorem FTy.ofCode_code (t : FTy) : FTy.ofCode t.code = t := by cases t <;> rfl
theorem HTy.code_lt (t : HTy) : t.code < 2 := by cases t <;> decide
@[simp] theorem HTy.ofCode_code (t : HTy) : HTy.ofCode t.code = t := by cases t <;> rfl
theorem LTy.code_lt (t : LTy) : t.code < 2 := by cases t <;> decide
@[simp] theorem LTy.ofCode_code (t : LTy) : LTy.ofCode t.code = t := by cases t <;> rfl
theorem ATy.code_lt (t : ATy) : t.code < 2 := by cases t <;> decide
@[simp] theorem ATy.ofCode_code (t : ATy) : ATy.ofCode t.code = t := by cases t <;> rfl
theorem MSz.code_lt (t : MSz) : t.code < 4 := by cases t <;> decide
@[simp] theorem MSz.ofCode_code (t : MSz) : MSz.ofCode t.code = t := by cases t <;> rfl

/-- An X word is known by its major code and gives its prefix back. -/
theorem encodeX_ok (x : Pre) (h : x ≠ .none) :
    ∃ w, encodeX x = [w] ∧ fld w 25 6 = 2 ∧ bit w 31 = false ∧ decodeX w = .ok x := by
  cases x with
  | none => exact absurd rfl h
  | _ =>
    refine ⟨_, rfl, ?_, ?_, ?_⟩ <;>
    simp [decodeX, fld_cellV, fld_cellB, fld_cellN, fld_cellN_low, bvf_cellV, bvf_cellB, bvf_cellN, bvf_cellV_low, bit_cellV, bit_cellB,
      bit_cellN, bit_cellB_low, bit_zero]

end Sys2Proof
end

