-- ==== Sys2Proof/Laws/PerInstr.lean ====
section
/-!
SUPPORT. Sys2Proof/Laws/PerInstr.lean: the per-instruction family RoundTrip: the words of a well-formed instruction decode to it.
-/

set_option Elab.async false
set_option linter.unusedSimpArgs false

namespace Sys2Proof.Laws.RoundTrip

/-- Decoding the words of a well-formed instruction gives it back, with every operand at its value, and leaves the words that
follow. Events have no words. -/
def Statement (i : Instr) : Prop :=
  i.isEvent = false → i.wf = true → ∀ rest, decodeWords (encode i ++ rest) = .ok (i, rest)

/-- It is enough that the base word decodes. -/
theorem of_base (i : Instr) (x : Pre) (w : Nat) (hx : i.pre = x) (he : encodeBase i = w) (h : decodeBase x w = .ok i)
    (hm : fld w 25 6 ≠ 2) : Statement i := by
  subst he hx
  intro he hw rest
  have hk : keepWf i = .ok i := by simp [keepWf, hw]
  by_cases hp : i.pre = .none
  · rw [hp] at h
    simp [encode, he, hp, encodeX, decodeWords, hm, h, hk, Except.bind, Except.map]
  · obtain ⟨w, h1, h2, h3, h4⟩ := encodeX_ok i.pre hp
    simp [encode, he, h1, decodeWords, h2, h3, h4, h, hk, Except.bind, Except.map]

theorem base_HintU (x : Pre) (w : Nat) (b : Bool) (h : fld w 25 6 = 62 + b.toNat) : decodeBase x w = decodeHintU x w := by
  cases b <;> (unfold decodeBase; rw [h]; rfl)

theorem base_Head_0 (x : Pre) (w : Nat) (h : fld w 25 6 = 0) : decodeBase x w = decodeHead x w := by
  unfold decodeBase; rw [h]; rfl

theorem base_Int_IntTy_4 (x : Pre) (w : Nat) (t : IntTy) (h : fld w 25 6 = 4 + t.code) : decodeBase x w = decodeInt x w := by
  cases t <;> (unfold decodeBase; rw [h]; rfl)

theorem base_Int_LTy_12 (x : Pre) (w : Nat) (t : LTy) (h : fld w 25 6 = 12 + t.code) : decodeBase x w = decodeInt x w := by
  cases t <;> (unfold decodeBase; rw [h]; rfl)

theorem base_Bitwise_BTy_14 (x : Pre) (w : Nat) (t : BTy) (h : fld w 25 6 = 14 + t.code) : decodeBase x w = decodeBitwise x w := by
  cases t <;> (unfold decodeBase; rw [h]; rfl)

theorem base_Bitwise_14 (x : Pre) (w : Nat) (h : fld w 25 6 = 14) : decodeBase x w = decodeBitwise x w := by
  unfold decodeBase; rw [h]; rfl

theorem base_Field_WTy_16 (x : Pre) (w : Nat) (t : WTy) (h : fld w 25 6 = 16 + t.code) : decodeBase x w = decodeField x w := by
  cases t <;> (unfold decodeBase; rw [h]; rfl)

theorem base_Movi_20 (x : Pre) (w : Nat) (h : fld w 25 6 = 20) : decodeBase x w = decodeMovi x w := by
  unfold decodeBase; rw [h]; rfl

theorem base_Movh_21 (x : Pre) (w : Nat) (h : fld w 25 6 = 21) : decodeBase x w = decodeMovh x w := by
  unfold decodeBase; rw [h]; rfl

theorem base_Xset_22 (x : Pre) (w : Nat) (h : fld w 25 6 = 22) : decodeBase x w = decodeXset x w := by
  unfold decodeBase; rw [h]; rfl

theorem base_FloatA_FTy_24 (x : Pre) (w : Nat) (t : FTy) (h : fld w 25 6 = 24 + t.code) : decodeBase x w = decodeFloatA x w := by
  cases t <;> (unfold decodeBase; rw [h]; rfl)

theorem base_FloatA_24 (x : Pre) (w : Nat) (h : fld w 25 6 = 24) : decodeBase x w = decodeFloatA x w := by
  unfold decodeBase; rw [h]; rfl

theorem base_FloatA_HTy_26 (x : Pre) (w : Nat) (t : HTy) (h : fld w 25 6 = 26 + t.code) : decodeBase x w = decodeFloatA x w := by
  cases t <;> (unfold decodeBase; rw [h]; rfl)

theorem base_FloatX_FTy_28 (x : Pre) (w : Nat) (t : FTy) (h : fld w 25 6 = 28 + t.code) : decodeBase x w = decodeFloatX x w := by
  cases t <;> (unfold decodeBase; rw [h]; rfl)

theorem base_Lane_WTy_32 (x : Pre) (w : Nat) (t : WTy) (h : fld w 25 6 = 32 + t.code) : decodeBase x w = decodeLane x w := by
  cases t <;> (unfold decodeBase; rw [h]; rfl)

theorem base_Lane_35 (x : Pre) (w : Nat) (h : fld w 25 6 = 35) : decodeBase x w = decodeLane x w := by
  unfold decodeBase; rw [h]; rfl

theorem base_Ctl_36 (x : Pre) (w : Nat) (h : fld w 25 6 = 36) : decodeBase x w = decodeCtl x w := by
  unfold decodeBase; rw [h]; rfl

theorem base_Bra_37 (x : Pre) (w : Nat) (h : fld w 25 6 = 37) : decodeBase x w = decodeBra x w := by
  unfold decodeBase; rw [h]; rfl

theorem base_Call_38 (x : Pre) (w : Nat) (h : fld w 25 6 = 38) : decodeBase x w = decodeCall x w := by
  unfold decodeBase; rw [h]; rfl

theorem base_Srd_39 (x : Pre) (w : Nat) (h : fld w 25 6 = 39) : decodeBase x w = decodeSrd x w := by
  unfold decodeBase; rw [h]; rfl

theorem base_Swr_40 (x : Pre) (w : Nat) (h : fld w 25 6 = 40) : decodeBase x w = decodeSwr x w := by
  unfold decodeBase; rw [h]; rfl

theorem base_Sys_41 (x : Pre) (w : Nat) (h : fld w 25 6 = 41) : decodeBase x w = decodeSys x w := by
  unfold decodeBase; rw [h]; rfl

theorem base_Mem_MSz_42 (x : Pre) (w : Nat) (t : MSz) (h : fld w 25 6 = 42 + t.code) : decodeBase x w = decodeMem x w := by
  cases t <;> (unfold decodeBase; rw [h]; rfl)

theorem base_MemM_46 (x : Pre) (w : Nat) (h : fld w 25 6 = 46) : decodeBase x w = decodeMemM x w := by
  unfold decodeBase; rw [h]; rfl

theorem base_Maint_47 (x : Pre) (w : Nat) (h : fld w 25 6 = 47) : decodeBase x w = decodeMaint x w := by
  unfold decodeBase; rw [h]; rfl

theorem base_Atomic_WTy_48 (x : Pre) (w : Nat) (t : WTy) (h : fld w 25 6 = 48 + t.code) : decodeBase x w = decodeAtomic x w := by
  cases t <;> (unfold decodeBase; rw [h]; rfl)

theorem base_AtomicF_ATy_52 (x : Pre) (w : Nat) (t : ATy) (h : fld w 25 6 = 52 + t.code) : decodeBase x w = decodeAtomicF x w := by
  cases t <;> (unfold decodeBase; rw [h]; rfl)

theorem base_Queue_54 (x : Pre) (w : Nat) (h : fld w 25 6 = 54) : decodeBase x w = decodeQueue x w := by
  unfold decodeBase; rw [h]; rfl

theorem base_Shadow_55 (x : Pre) (w : Nat) (h : fld w 25 6 = 55) : decodeBase x w = decodeShadow x w := by
  unfold decodeBase; rw [h]; rfl

theorem base_Matrix_56 (x : Pre) (w : Nat) (h : fld w 25 6 = 56) : decodeBase x w = decodeMatrix x w := by
  unfold decodeBase; rw [h]; rfl

theorem base_Tree_57 (x : Pre) (w : Nat) (h : fld w 25 6 = 57) : decodeBase x w = decodeTree x w := by
  unfold decodeBase; rw [h]; rfl

theorem base_Graph_58 (x : Pre) (w : Nat) (h : fld w 25 6 = 58) : decodeBase x w = decodeGraph x w := by
  unfold decodeBase; rw [h]; rfl

theorem base_HintPfs_60 (x : Pre) (w : Nat) (h : fld w 25 6 = 60) : decodeBase x w = decodeHintPfs x w := by
  unfold decodeBase; rw [h]; rfl

theorem base_HintBlk_61 (x : Pre) (w : Nat) (h : fld w 25 6 = 61) : decodeBase x w = decodeHintBlk x w := by
  unfold decodeBase; rw [h]; rfl

theorem head (h' : Bool) (l' : BitVec 3) (a' : BitVec 4) (b' : BitVec 4) (w' : BitVec 12) : Statement (.head h' l' a' b' w') := by
  let w := cellV w' <| cellN 0 1 <| cellV b' <| cellV a' <| cellV l' <| cellB h' 0
  have hm : fld w 25 6 = 0 := by simp only [w, Nat.reducePow, Nat.reduceLeDiff, Nat.reduceSub, Nat.reduceLT, fld_zero, fld_cellV, fld_cellB, fld_cellN, fld_cellN_low]
  refine of_base _ .none w rfl rfl ?_ (by rw [hm]; omega)
  rw [base_Head_0 _ _ hm]
  unfold decodeHead
  first | (simp only [w, Nat.reducePow, Nat.reduceLeDiff, Nat.reduceSub, Nat.reduceLT, Nat.add_sub_cancel_left, Nat.le_add_right, and_true, true_and, and_self, ↓reduceIte, fld_zero, fld_cellV, fld_cellB, fld_cellN, bvf_cellV, bvf_cellB, bvf_cellN, bit_cellV, bit_cellB, bit_cellN, fld_cellN_low, fld_cellB_low, fld_cellV_low, bvf_cellV_low, bit_cellB_low, fld_cellN_ne, fld_cellN_part]; done) | simp [w]

theorem add (x' : Pre) (ch' : Bool) (t' : IntTy) (d' : BitVec 7) (a' : BitVec 7) (b' : BitVec 7) : Statement (.add x' ch' t' d' a' b') := by
  let w := cellV b' <| cellV a' <| cellV d' <| cellN 0 4 <| cellN (4 + t'.code) 6 <| cellB ch' 0
  have hc : 4 + t'.code < 64 := by have := t'.code_lt; omega
  have hm : fld w 25 6 = 4 + t'.code := by simp only [w, hc, Nat.reducePow, Nat.reduceLeDiff, Nat.reduceSub, Nat.reduceLT, fld_zero, fld_cellV, fld_cellB, fld_cellN, fld_cellN_low]
  have hn : fld w 21 4 = 0 := by simp only [w, hc, Nat.reducePow, Nat.reduceLeDiff, Nat.reduceSub, Nat.reduceLT, fld_zero, fld_cellV, fld_cellB, fld_cellN, fld_cellN_low]
  refine of_base _ x' w rfl rfl ?_ (by rw [hm]; omega)
  rw [base_Int_IntTy_4 _ _ t' hm]
  unfold decodeInt
  rw [hn]
  first | (simp only [w, hc, Nat.reducePow, Nat.reduceLeDiff, Nat.reduceSub, Nat.reduceLT, Nat.add_sub_cancel_left, Nat.le_add_right, and_true, true_and, and_self, ↓reduceIte, fld_zero, fld_cellV, fld_cellB, fld_cellN, bvf_cellV, bvf_cellB, bvf_cellN, bit_cellV, bit_cellB, bit_cellN, fld_cellN_low, fld_cellB_low, fld_cellV_low, bvf_cellV_low, bit_cellB_low, fld_cellN_ne, fld_cellN_part, IntTy.ofCode_code]; done) | simp [w, hc]

theorem sub (x' : Pre) (ch' : Bool) (t' : IntTy) (d' : BitVec 7) (a' : BitVec 7) (b' : BitVec 7) : Statement (.sub x' ch' t' d' a' b') := by
  let w := cellV b' <| cellV a' <| cellV d' <| cellN 1 4 <| cellN (4 + t'.code) 6 <| cellB ch' 0
  have hc : 4 + t'.code < 64 := by have := t'.code_lt; omega
  have hm : fld w 25 6 = 4 + t'.code := by simp only [w, hc, Nat.reducePow, Nat.reduceLeDiff, Nat.reduceSub, Nat.reduceLT, fld_zero, fld_cellV, fld_cellB, fld_cellN, fld_cellN_low]
  have hn : fld w 21 4 = 1 := by simp only [w, hc, Nat.reducePow, Nat.reduceLeDiff, Nat.reduceSub, Nat.reduceLT, fld_zero, fld_cellV, fld_cellB, fld_cellN, fld_cellN_low]
  refine of_base _ x' w rfl rfl ?_ (by rw [hm]; omega)
  rw [base_Int_IntTy_4 _ _ t' hm]
  unfold decodeInt
  rw [hn]
  first | (simp only [w, hc, Nat.reducePow, Nat.reduceLeDiff, Nat.reduceSub, Nat.reduceLT, Nat.add_sub_cancel_left, Nat.le_add_right, and_true, true_and, and_self, ↓reduceIte, fld_zero, fld_cellV, fld_cellB, fld_cellN, bvf_cellV, bvf_cellB, bvf_cellN, bit_cellV, bit_cellB, bit_cellN, fld_cellN_low, fld_cellB_low, fld_cellV_low, bvf_cellV_low, bit_cellB_low, fld_cellN_ne, fld_cellN_part, IntTy.ofCode_code]; done) | simp [w, hc]

theorem mul (x' : Pre) (ch' : Bool) (t' : IntTy) (d' : BitVec 7) (a' : BitVec 7) (b' : BitVec 7) : Statement (.mul x' ch' t' d' a' b') := by
  let w := cellV b' <| cellV a' <| cellV d' <| cellN 2 4 <| cellN (4 + t'.code) 6 <| cellB ch' 0
  have hc : 4 + t'.code < 64 := by have := t'.code_lt; omega
  have hm : fld w 25 6 = 4 + t'.code := by simp only [w, hc, Nat.reducePow, Nat.reduceLeDiff, Nat.reduceSub, Nat.reduceLT, fld_zero, fld_cellV, fld_cellB, fld_cellN, fld_cellN_low]
  have hn : fld w 21 4 = 2 := by simp only [w, hc, Nat.reducePow, Nat.reduceLeDiff, Nat.reduceSub, Nat.reduceLT, fld_zero, fld_cellV, fld_cellB, fld_cellN, fld_cellN_low]
  refine of_base _ x' w rfl rfl ?_ (by rw [hm]; omega)
  rw [base_Int_IntTy_4 _ _ t' hm]
  unfold decodeInt
  rw [hn]
  first | (simp only [w, hc, Nat.reducePow, Nat.reduceLeDiff, Nat.reduceSub, Nat.reduceLT, Nat.add_sub_cancel_left, Nat.le_add_right, and_true, true_and, and_self, ↓reduceIte, fld_zero, fld_cellV, fld_cellB, fld_cellN, bvf_cellV, bvf_cellB, bvf_cellN, bit_cellV, bit_cellB, bit_cellN, fld_cellN_low, fld_cellB_low, fld_cellV_low, bvf_cellV_low, bit_cellB_low, fld_cellN_ne, fld_cellN_part, IntTy.ofCode_code]; done) | simp [w, hc]

theorem mulh (x' : Pre) (ch' : Bool) (t' : IntTy) (d' : BitVec 7) (a' : BitVec 7) (b' : BitVec 7) : Statement (.mulh x' ch' t' d' a' b') := by
  let w := cellV b' <| cellV a' <| cellV d' <| cellN 3 4 <| cellN (4 + t'.code) 6 <| cellB ch' 0
  have hc : 4 + t'.code < 64 := by have := t'.code_lt; omega
  have hm : fld w 25 6 = 4 + t'.code := by simp only [w, hc, Nat.reducePow, Nat.reduceLeDiff, Nat.reduceSub, Nat.reduceLT, fld_zero, fld_cellV, fld_cellB, fld_cellN, fld_cellN_low]
  have hn : fld w 21 4 = 3 := by simp only [w, hc, Nat.reducePow, Nat.reduceLeDiff, Nat.reduceSub, Nat.reduceLT, fld_zero, fld_cellV, fld_cellB, fld_cellN, fld_cellN_low]
  refine of_base _ x' w rfl rfl ?_ (by rw [hm]; omega)
  rw [base_Int_IntTy_4 _ _ t' hm]
  unfold decodeInt
  rw [hn]
  first | (simp only [w, hc, Nat.reducePow, Nat.reduceLeDiff, Nat.reduceSub, Nat.reduceLT, Nat.add_sub_cancel_left, Nat.le_add_right, and_true, true_and, and_self, ↓reduceIte, fld_zero, fld_cellV, fld_cellB, fld_cellN, bvf_cellV, bvf_cellB, bvf_cellN, bit_cellV, bit_cellB, bit_cellN, fld_cellN_low, fld_cellB_low, fld_cellV_low, bvf_cellV_low, bit_cellB_low, fld_cellN_ne, fld_cellN_part, IntTy.ofCode_code]; done) | simp [w, hc]

theorem mad (x' : Pre) (ch' : Bool) (t' : IntTy) (d' : BitVec 7) (a' : BitVec 7) (b' : BitVec 7) : Statement (.mad x' ch' t' d' a' b') := by
  let w := cellV b' <| cellV a' <| cellV d' <| cellN 4 4 <| cellN (4 + t'.code) 6 <| cellB ch' 0
  have hc : 4 + t'.code < 64 := by have := t'.code_lt; omega
  have hm : fld w 25 6 = 4 + t'.code := by simp only [w, hc, Nat.reducePow, Nat.reduceLeDiff, Nat.reduceSub, Nat.reduceLT, fld_zero, fld_cellV, fld_cellB, fld_cellN, fld_cellN_low]
  have hn : fld w 21 4 = 4 := by simp only [w, hc, Nat.reducePow, Nat.reduceLeDiff, Nat.reduceSub, Nat.reduceLT, fld_zero, fld_cellV, fld_cellB, fld_cellN, fld_cellN_low]
  refine of_base _ x' w rfl rfl ?_ (by rw [hm]; omega)
  rw [base_Int_IntTy_4 _ _ t' hm]
  unfold decodeInt
  rw [hn]
  first | (simp only [w, hc, Nat.reducePow, Nat.reduceLeDiff, Nat.reduceSub, Nat.reduceLT, Nat.add_sub_cancel_left, Nat.le_add_right, and_true, true_and, and_self, ↓reduceIte, fld_zero, fld_cellV, fld_cellB, fld_cellN, bvf_cellV, bvf_cellB, bvf_cellN, bit_cellV, bit_cellB, bit_cellN, fld_cellN_low, fld_cellB_low, fld_cellV_low, bvf_cellV_low, bit_cellB_low, fld_cellN_ne, fld_cellN_part, IntTy.ofCode_code]; done) | simp [w, hc]

theorem ineg (x' : Pre) (ch' : Bool) (t' : IntTy) (d' : BitVec 7) (a' : BitVec 7) : Statement (.ineg x' ch' t' d' a') := by
  let w := cellN 0 7 <| cellV a' <| cellV d' <| cellN 5 4 <| cellN (4 + t'.code) 6 <| cellB ch' 0
  have hc : 4 + t'.code < 64 := by have := t'.code_lt; omega
  have hm : fld w 25 6 = 4 + t'.code := by simp only [w, hc, Nat.reducePow, Nat.reduceLeDiff, Nat.reduceSub, Nat.reduceLT, fld_zero, fld_cellV, fld_cellB, fld_cellN, fld_cellN_low]
  have hn : fld w 21 4 = 5 := by simp only [w, hc, Nat.reducePow, Nat.reduceLeDiff, Nat.reduceSub, Nat.reduceLT, fld_zero, fld_cellV, fld_cellB, fld_cellN, fld_cellN_low]
  refine of_base _ x' w rfl rfl ?_ (by rw [hm]; omega)
  rw [base_Int_IntTy_4 _ _ t' hm]
  unfold decodeInt
  rw [hn]
  first | (simp only [w, hc, Nat.reducePow, Nat.reduceLeDiff, Nat.reduceSub, Nat.reduceLT, Nat.add_sub_cancel_left, Nat.le_add_right, and_true, true_and, and_self, ↓reduceIte, fld_zero, fld_cellV, fld_cellB, fld_cellN, bvf_cellV, bvf_cellB, bvf_cellN, bit_cellV, bit_cellB, bit_cellN, fld_cellN_low, fld_cellB_low, fld_cellV_low, bvf_cellV_low, bit_cellB_low, fld_cellN_ne, fld_cellN_part, IntTy.ofCode_code]; done) | simp [w, hc]

theorem iabs (x' : Pre) (ch' : Bool) (t' : IntTy) (d' : BitVec 7) (a' : BitVec 7) : Statement (.iabs x' ch' t' d' a') := by
  let w := cellN 0 7 <| cellV a' <| cellV d' <| cellN 6 4 <| cellN (4 + t'.code) 6 <| cellB ch' 0
  have hc : 4 + t'.code < 64 := by have := t'.code_lt; omega
  have hm : fld w 25 6 = 4 + t'.code := by simp only [w, hc, Nat.reducePow, Nat.reduceLeDiff, Nat.reduceSub, Nat.reduceLT, fld_zero, fld_cellV, fld_cellB, fld_cellN, fld_cellN_low]
  have hn : fld w 21 4 = 6 := by simp only [w, hc, Nat.reducePow, Nat.reduceLeDiff, Nat.reduceSub, Nat.reduceLT, fld_zero, fld_cellV, fld_cellB, fld_cellN, fld_cellN_low]
  refine of_base _ x' w rfl rfl ?_ (by rw [hm]; omega)
  rw [base_Int_IntTy_4 _ _ t' hm]
  unfold decodeInt
  rw [hn]
  first | (simp only [w, hc, Nat.reducePow, Nat.reduceLeDiff, Nat.reduceSub, Nat.reduceLT, Nat.add_sub_cancel_left, Nat.le_add_right, and_true, true_and, and_self, ↓reduceIte, fld_zero, fld_cellV, fld_cellB, fld_cellN, bvf_cellV, bvf_cellB, bvf_cellN, bit_cellV, bit_cellB, bit_cellN, fld_cellN_low, fld_cellB_low, fld_cellV_low, bvf_cellV_low, bit_cellB_low, fld_cellN_ne, fld_cellN_part, IntTy.ofCode_code]; done) | simp [w, hc]

theorem imin (x' : Pre) (ch' : Bool) (t' : IntTy) (d' : BitVec 7) (a' : BitVec 7) (b' : BitVec 7) : Statement (.imin x' ch' t' d' a' b') := by
  let w := cellV b' <| cellV a' <| cellV d' <| cellN 7 4 <| cellN (4 + t'.code) 6 <| cellB ch' 0
  have hc : 4 + t'.code < 64 := by have := t'.code_lt; omega
  have hm : fld w 25 6 = 4 + t'.code := by simp only [w, hc, Nat.reducePow, Nat.reduceLeDiff, Nat.reduceSub, Nat.reduceLT, fld_zero, fld_cellV, fld_cellB, fld_cellN, fld_cellN_low]
  have hn : fld w 21 4 = 7 := by simp only [w, hc, Nat.reducePow, Nat.reduceLeDiff, Nat.reduceSub, Nat.reduceLT, fld_zero, fld_cellV, fld_cellB, fld_cellN, fld_cellN_low]
  refine of_base _ x' w rfl rfl ?_ (by rw [hm]; omega)
  rw [base_Int_IntTy_4 _ _ t' hm]
  unfold decodeInt
  rw [hn]
  first | (simp only [w, hc, Nat.reducePow, Nat.reduceLeDiff, Nat.reduceSub, Nat.reduceLT, Nat.add_sub_cancel_left, Nat.le_add_right, and_true, true_and, and_self, ↓reduceIte, fld_zero, fld_cellV, fld_cellB, fld_cellN, bvf_cellV, bvf_cellB, bvf_cellN, bit_cellV, bit_cellB, bit_cellN, fld_cellN_low, fld_cellB_low, fld_cellV_low, bvf_cellV_low, bit_cellB_low, fld_cellN_ne, fld_cellN_part, IntTy.ofCode_code]; done) | simp [w, hc]

theorem imax (x' : Pre) (ch' : Bool) (t' : IntTy) (d' : BitVec 7) (a' : BitVec 7) (b' : BitVec 7) : Statement (.imax x' ch' t' d' a' b') := by
  let w := cellV b' <| cellV a' <| cellV d' <| cellN 8 4 <| cellN (4 + t'.code) 6 <| cellB ch' 0
  have hc : 4 + t'.code < 64 := by have := t'.code_lt; omega
  have hm : fld w 25 6 = 4 + t'.code := by simp only [w, hc, Nat.reducePow, Nat.reduceLeDiff, Nat.reduceSub, Nat.reduceLT, fld_zero, fld_cellV, fld_cellB, fld_cellN, fld_cellN_low]
  have hn : fld w 21 4 = 8 := by simp only [w, hc, Nat.reducePow, Nat.reduceLeDiff, Nat.reduceSub, Nat.reduceLT, fld_zero, fld_cellV, fld_cellB, fld_cellN, fld_cellN_low]
  refine of_base _ x' w rfl rfl ?_ (by rw [hm]; omega)
  rw [base_Int_IntTy_4 _ _ t' hm]
  unfold decodeInt
  rw [hn]
  first | (simp only [w, hc, Nat.reducePow, Nat.reduceLeDiff, Nat.reduceSub, Nat.reduceLT, Nat.add_sub_cancel_left, Nat.le_add_right, and_true, true_and, and_self, ↓reduceIte, fld_zero, fld_cellV, fld_cellB, fld_cellN, bvf_cellV, bvf_cellB, bvf_cellN, bit_cellV, bit_cellB, bit_cellN, fld_cellN_low, fld_cellB_low, fld_cellV_low, bvf_cellV_low, bit_cellB_low, fld_cellN_ne, fld_cellN_part, IntTy.ofCode_code]; done) | simp [w, hc]

theorem sad (x' : Pre) (ch' : Bool) (t' : IntTy) (d' : BitVec 7) (a' : BitVec 7) (b' : BitVec 7) : Statement (.sad x' ch' t' d' a' b') := by
  let w := cellV b' <| cellV a' <| cellV d' <| cellN 9 4 <| cellN (4 + t'.code) 6 <| cellB ch' 0
  have hc : 4 + t'.code < 64 := by have := t'.code_lt; omega
  have hm : fld w 25 6 = 4 + t'.code := by simp only [w, hc, Nat.reducePow, Nat.reduceLeDiff, Nat.reduceSub, Nat.reduceLT, fld_zero, fld_cellV, fld_cellB, fld_cellN, fld_cellN_low]
  have hn : fld w 21 4 = 9 := by simp only [w, hc, Nat.reducePow, Nat.reduceLeDiff, Nat.reduceSub, Nat.reduceLT, fld_zero, fld_cellV, fld_cellB, fld_cellN, fld_cellN_low]
  refine of_base _ x' w rfl rfl ?_ (by rw [hm]; omega)
  rw [base_Int_IntTy_4 _ _ t' hm]
  unfold decodeInt
  rw [hn]
  first | (simp only [w, hc, Nat.reducePow, Nat.reduceLeDiff, Nat.reduceSub, Nat.reduceLT, Nat.add_sub_cancel_left, Nat.le_add_right, and_true, true_and, and_self, ↓reduceIte, fld_zero, fld_cellV, fld_cellB, fld_cellN, bvf_cellV, bvf_cellB, bvf_cellN, bit_cellV, bit_cellB, bit_cellN, fld_cellN_low, fld_cellB_low, fld_cellV_low, bvf_cellV_low, bit_cellB_low, fld_cellN_ne, fld_cellN_part, IntTy.ofCode_code]; done) | simp [w, hc]

theorem add3 (x' : Pre) (ch' : Bool) (t' : IntTy) (d' : BitVec 7) (a' : BitVec 7) (b' : BitVec 7) : Statement (.add3 x' ch' t' d' a' b') := by
  let w := cellV b' <| cellV a' <| cellV d' <| cellN 10 4 <| cellN (4 + t'.code) 6 <| cellB ch' 0
  have hc : 4 + t'.code < 64 := by have := t'.code_lt; omega
  have hm : fld w 25 6 = 4 + t'.code := by simp only [w, hc, Nat.reducePow, Nat.reduceLeDiff, Nat.reduceSub, Nat.reduceLT, fld_zero, fld_cellV, fld_cellB, fld_cellN, fld_cellN_low]
  have hn : fld w 21 4 = 10 := by simp only [w, hc, Nat.reducePow, Nat.reduceLeDiff, Nat.reduceSub, Nat.reduceLT, fld_zero, fld_cellV, fld_cellB, fld_cellN, fld_cellN_low]
  refine of_base _ x' w rfl rfl ?_ (by rw [hm]; omega)
  rw [base_Int_IntTy_4 _ _ t' hm]
  unfold decodeInt
  rw [hn]
  first | (simp only [w, hc, Nat.reducePow, Nat.reduceLeDiff, Nat.reduceSub, Nat.reduceLT, Nat.add_sub_cancel_left, Nat.le_add_right, and_true, true_and, and_self, ↓reduceIte, fld_zero, fld_cellV, fld_cellB, fld_cellN, bvf_cellV, bvf_cellB, bvf_cellN, bit_cellV, bit_cellB, bit_cellN, fld_cellN_low, fld_cellB_low, fld_cellV_low, bvf_cellV_low, bit_cellB_low, fld_cellN_ne, fld_cellN_part, IntTy.ofCode_code]; done) | simp [w, hc]

theorem cmp (x' : Pre) (ch' : Bool) (t' : IntTy) (n' : BitVec 4) (p' : BitVec 3) (a' : BitVec 7) (b' : BitVec 7) : Statement (.cmp x' ch' t' n' p' a' b') := by
  let w := cellV b' <| cellV a' <| cellV p' <| cellV n' <| cellN 11 4 <| cellN (4 + t'.code) 6 <| cellB ch' 0
  have hc : 4 + t'.code < 64 := by have := t'.code_lt; omega
  have hm : fld w 25 6 = 4 + t'.code := by simp only [w, hc, Nat.reducePow, Nat.reduceLeDiff, Nat.reduceSub, Nat.reduceLT, fld_zero, fld_cellV, fld_cellB, fld_cellN, fld_cellN_low]
  have hn : fld w 21 4 = 11 := by simp only [w, hc, Nat.reducePow, Nat.reduceLeDiff, Nat.reduceSub, Nat.reduceLT, fld_zero, fld_cellV, fld_cellB, fld_cellN, fld_cellN_low]
  refine of_base _ x' w rfl rfl ?_ (by rw [hm]; omega)
  rw [base_Int_IntTy_4 _ _ t' hm]
  unfold decodeInt
  rw [hn]
  first | (simp only [w, hc, Nat.reducePow, Nat.reduceLeDiff, Nat.reduceSub, Nat.reduceLT, Nat.add_sub_cancel_left, Nat.le_add_right, and_true, true_and, and_self, ↓reduceIte, fld_zero, fld_cellV, fld_cellB, fld_cellN, bvf_cellV, bvf_cellB, bvf_cellN, bit_cellV, bit_cellB, bit_cellN, fld_cellN_low, fld_cellB_low, fld_cellV_low, bvf_cellV_low, bit_cellB_low, fld_cellN_ne, fld_cellN_part, IntTy.ofCode_code]; done) | simp [w, hc]

theorem sel (x' : Pre) (ch' : Bool) (t' : IntTy) (d' : BitVec 7) (a' : BitVec 7) (b' : BitVec 7) : Statement (.sel x' ch' t' d' a' b') := by
  let w := cellV b' <| cellV a' <| cellV d' <| cellN 12 4 <| cellN (4 + t'.code) 6 <| cellB ch' 0
  have hc : 4 + t'.code < 64 := by have := t'.code_lt; omega
  have hm : fld w 25 6 = 4 + t'.code := by simp only [w, hc, Nat.reducePow, Nat.reduceLeDiff, Nat.reduceSub, Nat.reduceLT, fld_zero, fld_cellV, fld_cellB, fld_cellN, fld_cellN_low]
  have hn : fld w 21 4 = 12 := by simp only [w, hc, Nat.reducePow, Nat.reduceLeDiff, Nat.reduceSub, Nat.reduceLT, fld_zero, fld_cellV, fld_cellB, fld_cellN, fld_cellN_low]
  refine of_base _ x' w rfl rfl ?_ (by rw [hm]; omega)
  rw [base_Int_IntTy_4 _ _ t' hm]
  unfold decodeInt
  rw [hn]
  first | (simp only [w, hc, Nat.reducePow, Nat.reduceLeDiff, Nat.reduceSub, Nat.reduceLT, Nat.add_sub_cancel_left, Nat.le_add_right, and_true, true_and, and_self, ↓reduceIte, fld_zero, fld_cellV, fld_cellB, fld_cellN, bvf_cellV, bvf_cellB, bvf_cellN, bit_cellV, bit_cellB, bit_cellN, fld_cellN_low, fld_cellB_low, fld_cellV_low, bvf_cellV_low, bit_cellB_low, fld_cellN_ne, fld_cellN_part, IntTy.ofCode_code]; done) | simp [w, hc]

theorem mov (x' : Pre) (ch' : Bool) (t' : IntTy) (d' : BitVec 7) (a' : BitVec 7) : Statement (.mov x' ch' t' d' a') := by
  let w := cellN 0 7 <| cellV a' <| cellV d' <| cellN 13 4 <| cellN (4 + t'.code) 6 <| cellB ch' 0
  have hc : 4 + t'.code < 64 := by have := t'.code_lt; omega
  have hm : fld w 25 6 = 4 + t'.code := by simp only [w, hc, Nat.reducePow, Nat.reduceLeDiff, Nat.reduceSub, Nat.reduceLT, fld_zero, fld_cellV, fld_cellB, fld_cellN, fld_cellN_low]
  have hn : fld w 21 4 = 13 := by simp only [w, hc, Nat.reducePow, Nat.reduceLeDiff, Nat.reduceSub, Nat.reduceLT, fld_zero, fld_cellV, fld_cellB, fld_cellN, fld_cellN_low]
  refine of_base _ x' w rfl rfl ?_ (by rw [hm]; omega)
  rw [base_Int_IntTy_4 _ _ t' hm]
  unfold decodeInt
  rw [hn]
  first | (simp only [w, hc, Nat.reducePow, Nat.reduceLeDiff, Nat.reduceSub, Nat.reduceLT, Nat.add_sub_cancel_left, Nat.le_add_right, and_true, true_and, and_self, ↓reduceIte, fld_zero, fld_cellV, fld_cellB, fld_cellN, bvf_cellV, bvf_cellB, bvf_cellN, bit_cellV, bit_cellB, bit_cellN, fld_cellN_low, fld_cellB_low, fld_cellV_low, bvf_cellV_low, bit_cellB_low, fld_cellN_ne, fld_cellN_part, IntTy.ofCode_code]; done) | simp [w, hc]

theorem cvt (x' : Pre) (ch' : Bool) (t' : IntTy) (d' : BitVec 7) (a' : BitVec 7) (h' : BitVec 3) (s' : BitVec 4) : Statement (.cvt x' ch' t' d' a' h' s') := by
  let w := cellV s' <| cellV h' <| cellV a' <| cellV d' <| cellN 14 4 <| cellN (4 + t'.code) 6 <| cellB ch' 0
  have hc : 4 + t'.code < 64 := by have := t'.code_lt; omega
  have hm : fld w 25 6 = 4 + t'.code := by simp only [w, hc, Nat.reducePow, Nat.reduceLeDiff, Nat.reduceSub, Nat.reduceLT, fld_zero, fld_cellV, fld_cellB, fld_cellN, fld_cellN_low]
  have hn : fld w 21 4 = 14 := by simp only [w, hc, Nat.reducePow, Nat.reduceLeDiff, Nat.reduceSub, Nat.reduceLT, fld_zero, fld_cellV, fld_cellB, fld_cellN, fld_cellN_low]
  refine of_base _ x' w rfl rfl ?_ (by rw [hm]; omega)
  rw [base_Int_IntTy_4 _ _ t' hm]
  unfold decodeInt
  rw [hn]
  first | (simp only [w, hc, Nat.reducePow, Nat.reduceLeDiff, Nat.reduceSub, Nat.reduceLT, Nat.add_sub_cancel_left, Nat.le_add_right, and_true, true_and, and_self, ↓reduceIte, fld_zero, fld_cellV, fld_cellB, fld_cellN, bvf_cellV, bvf_cellB, bvf_cellN, bit_cellV, bit_cellB, bit_cellN, fld_cellN_low, fld_cellB_low, fld_cellV_low, bvf_cellV_low, bit_cellB_low, fld_cellN_ne, fld_cellN_part, IntTy.ofCode_code]; done) | simp [w, hc]

theorem lea (x' : Pre) (ch' : Bool) (t' : LTy) (d' : BitVec 7) (a' : BitVec 7) (b' : BitVec 7) : Statement (.lea x' ch' t' d' a' b') := by
  let w := cellV b' <| cellV a' <| cellV d' <| cellN 15 4 <| cellN (12 + t'.code) 6 <| cellB ch' 0
  have hc : 12 + t'.code < 64 := by have := t'.code_lt; omega
  have hm : fld w 25 6 = 12 + t'.code := by simp only [w, hc, Nat.reducePow, Nat.reduceLeDiff, Nat.reduceSub, Nat.reduceLT, fld_zero, fld_cellV, fld_cellB, fld_cellN, fld_cellN_low]
  have hn : fld w 21 4 = 15 := by simp only [w, hc, Nat.reducePow, Nat.reduceLeDiff, Nat.reduceSub, Nat.reduceLT, fld_zero, fld_cellV, fld_cellB, fld_cellN, fld_cellN_low]
  refine of_base _ x' w rfl rfl ?_ (by rw [hm]; omega)
  rw [base_Int_LTy_12 _ _ t' hm]
  unfold decodeInt
  rw [hn]
  first | (simp only [w, hc, Nat.reducePow, Nat.reduceLeDiff, Nat.reduceSub, Nat.reduceLT, Nat.add_sub_cancel_left, Nat.le_add_right, and_true, true_and, and_self, ↓reduceIte, fld_zero, fld_cellV, fld_cellB, fld_cellN, bvf_cellV, bvf_cellB, bvf_cellN, bit_cellV, bit_cellB, bit_cellN, fld_cellN_low, fld_cellB_low, fld_cellV_low, bvf_cellV_low, bit_cellB_low, fld_cellN_ne, fld_cellN_part, LTy.ofCode_code]; done) | simp [w, hc]

theorem shl (x' : Pre) (ch' : Bool) (w' : BTy) (d' : BitVec 7) (a' : BitVec 7) (b' : BitVec 7) : Statement (.shl x' ch' w' d' a' b') := by
  let w := cellV b' <| cellV a' <| cellV d' <| cellN 0 4 <| cellN (14 + w'.code) 6 <| cellB ch' 0
  have hc : 14 + w'.code < 64 := by have := w'.code_lt; omega
  have hm : fld w 25 6 = 14 + w'.code := by simp only [w, hc, Nat.reducePow, Nat.reduceLeDiff, Nat.reduceSub, Nat.reduceLT, fld_zero, fld_cellV, fld_cellB, fld_cellN, fld_cellN_low]
  have hn : fld w 21 4 = 0 := by simp only [w, hc, Nat.reducePow, Nat.reduceLeDiff, Nat.reduceSub, Nat.reduceLT, fld_zero, fld_cellV, fld_cellB, fld_cellN, fld_cellN_low]
  refine of_base _ x' w rfl rfl ?_ (by rw [hm]; omega)
  rw [base_Bitwise_BTy_14 _ _ w' hm]
  unfold decodeBitwise
  rw [hn]
  first | (simp only [w, hc, Nat.reducePow, Nat.reduceLeDiff, Nat.reduceSub, Nat.reduceLT, Nat.add_sub_cancel_left, Nat.le_add_right, and_true, true_and, and_self, ↓reduceIte, fld_zero, fld_cellV, fld_cellB, fld_cellN, bvf_cellV, bvf_cellB, bvf_cellN, bit_cellV, bit_cellB, bit_cellN, fld_cellN_low, fld_cellB_low, fld_cellV_low, bvf_cellV_low, bit_cellB_low, fld_cellN_ne, fld_cellN_part, BTy.ofCode_code]; done) | simp [w, hc]

theorem shr (x' : Pre) (ch' : Bool) (w' : BTy) (d' : BitVec 7) (a' : BitVec 7) (b' : BitVec 7) : Statement (.shr x' ch' w' d' a' b') := by
  let w := cellV b' <| cellV a' <| cellV d' <| cellN 1 4 <| cellN (14 + w'.code) 6 <| cellB ch' 0
  have hc : 14 + w'.code < 64 := by have := w'.code_lt; omega
  have hm : fld w 25 6 = 14 + w'.code := by simp only [w, hc, Nat.reducePow, Nat.reduceLeDiff, Nat.reduceSub, Nat.reduceLT, fld_zero, fld_cellV, fld_cellB, fld_cellN, fld_cellN_low]
  have hn : fld w 21 4 = 1 := by simp only [w, hc, Nat.reducePow, Nat.reduceLeDiff, Nat.reduceSub, Nat.reduceLT, fld_zero, fld_cellV, fld_cellB, fld_cellN, fld_cellN_low]
  refine of_base _ x' w rfl rfl ?_ (by rw [hm]; omega)
  rw [base_Bitwise_BTy_14 _ _ w' hm]
  unfold decodeBitwise
  rw [hn]
  first | (simp only [w, hc, Nat.reducePow, Nat.reduceLeDiff, Nat.reduceSub, Nat.reduceLT, Nat.add_sub_cancel_left, Nat.le_add_right, and_true, true_and, and_self, ↓reduceIte, fld_zero, fld_cellV, fld_cellB, fld_cellN, bvf_cellV, bvf_cellB, bvf_cellN, bit_cellV, bit_cellB, bit_cellN, fld_cellN_low, fld_cellB_low, fld_cellV_low, bvf_cellV_low, bit_cellB_low, fld_cellN_ne, fld_cellN_part, BTy.ofCode_code]; done) | simp [w, hc]

theorem sar (x' : Pre) (ch' : Bool) (w' : BTy) (d' : BitVec 7) (a' : BitVec 7) (b' : BitVec 7) : Statement (.sar x' ch' w' d' a' b') := by
  let w := cellV b' <| cellV a' <| cellV d' <| cellN 2 4 <| cellN (14 + w'.code) 6 <| cellB ch' 0
  have hc : 14 + w'.code < 64 := by have := w'.code_lt; omega
  have hm : fld w 25 6 = 14 + w'.code := by simp only [w, hc, Nat.reducePow, Nat.reduceLeDiff, Nat.reduceSub, Nat.reduceLT, fld_zero, fld_cellV, fld_cellB, fld_cellN, fld_cellN_low]
  have hn : fld w 21 4 = 2 := by simp only [w, hc, Nat.reducePow, Nat.reduceLeDiff, Nat.reduceSub, Nat.reduceLT, fld_zero, fld_cellV, fld_cellB, fld_cellN, fld_cellN_low]
  refine of_base _ x' w rfl rfl ?_ (by rw [hm]; omega)
  rw [base_Bitwise_BTy_14 _ _ w' hm]
  unfold decodeBitwise
  rw [hn]
  first | (simp only [w, hc, Nat.reducePow, Nat.reduceLeDiff, Nat.reduceSub, Nat.reduceLT, Nat.add_sub_cancel_left, Nat.le_add_right, and_true, true_and, and_self, ↓reduceIte, fld_zero, fld_cellV, fld_cellB, fld_cellN, bvf_cellV, bvf_cellB, bvf_cellN, bit_cellV, bit_cellB, bit_cellN, fld_cellN_low, fld_cellB_low, fld_cellV_low, bvf_cellV_low, bit_cellB_low, fld_cellN_ne, fld_cellN_part, BTy.ofCode_code]; done) | simp [w, hc]

theorem band (x' : Pre) (ch' : Bool) (w' : BTy) (d' : BitVec 7) (a' : BitVec 7) (b' : BitVec 7) : Statement (.band x' ch' w' d' a' b') := by
  let w := cellV b' <| cellV a' <| cellV d' <| cellN 3 4 <| cellN (14 + w'.code) 6 <| cellB ch' 0
  have hc : 14 + w'.code < 64 := by have := w'.code_lt; omega
  have hm : fld w 25 6 = 14 + w'.code := by simp only [w, hc, Nat.reducePow, Nat.reduceLeDiff, Nat.reduceSub, Nat.reduceLT, fld_zero, fld_cellV, fld_cellB, fld_cellN, fld_cellN_low]
  have hn : fld w 21 4 = 3 := by simp only [w, hc, Nat.reducePow, Nat.reduceLeDiff, Nat.reduceSub, Nat.reduceLT, fld_zero, fld_cellV, fld_cellB, fld_cellN, fld_cellN_low]
  refine of_base _ x' w rfl rfl ?_ (by rw [hm]; omega)
  rw [base_Bitwise_BTy_14 _ _ w' hm]
  unfold decodeBitwise
  rw [hn]
  first | (simp only [w, hc, Nat.reducePow, Nat.reduceLeDiff, Nat.reduceSub, Nat.reduceLT, Nat.add_sub_cancel_left, Nat.le_add_right, and_true, true_and, and_self, ↓reduceIte, fld_zero, fld_cellV, fld_cellB, fld_cellN, bvf_cellV, bvf_cellB, bvf_cellN, bit_cellV, bit_cellB, bit_cellN, fld_cellN_low, fld_cellB_low, fld_cellV_low, bvf_cellV_low, bit_cellB_low, fld_cellN_ne, fld_cellN_part, BTy.ofCode_code]; done) | simp [w, hc]

theorem bor (x' : Pre) (ch' : Bool) (w' : BTy) (d' : BitVec 7) (a' : BitVec 7) (b' : BitVec 7) : Statement (.bor x' ch' w' d' a' b') := by
  let w := cellV b' <| cellV a' <| cellV d' <| cellN 4 4 <| cellN (14 + w'.code) 6 <| cellB ch' 0
  have hc : 14 + w'.code < 64 := by have := w'.code_lt; omega
  have hm : fld w 25 6 = 14 + w'.code := by simp only [w, hc, Nat.reducePow, Nat.reduceLeDiff, Nat.reduceSub, Nat.reduceLT, fld_zero, fld_cellV, fld_cellB, fld_cellN, fld_cellN_low]
  have hn : fld w 21 4 = 4 := by simp only [w, hc, Nat.reducePow, Nat.reduceLeDiff, Nat.reduceSub, Nat.reduceLT, fld_zero, fld_cellV, fld_cellB, fld_cellN, fld_cellN_low]
  refine of_base _ x' w rfl rfl ?_ (by rw [hm]; omega)
  rw [base_Bitwise_BTy_14 _ _ w' hm]
  unfold decodeBitwise
  rw [hn]
  first | (simp only [w, hc, Nat.reducePow, Nat.reduceLeDiff, Nat.reduceSub, Nat.reduceLT, Nat.add_sub_cancel_left, Nat.le_add_right, and_true, true_and, and_self, ↓reduceIte, fld_zero, fld_cellV, fld_cellB, fld_cellN, bvf_cellV, bvf_cellB, bvf_cellN, bit_cellV, bit_cellB, bit_cellN, fld_cellN_low, fld_cellB_low, fld_cellV_low, bvf_cellV_low, bit_cellB_low, fld_cellN_ne, fld_cellN_part, BTy.ofCode_code]; done) | simp [w, hc]

theorem bxor (x' : Pre) (ch' : Bool) (w' : BTy) (d' : BitVec 7) (a' : BitVec 7) (b' : BitVec 7) : Statement (.bxor x' ch' w' d' a' b') := by
  let w := cellV b' <| cellV a' <| cellV d' <| cellN 5 4 <| cellN (14 + w'.code) 6 <| cellB ch' 0
  have hc : 14 + w'.code < 64 := by have := w'.code_lt; omega
  have hm : fld w 25 6 = 14 + w'.code := by simp only [w, hc, Nat.reducePow, Nat.reduceLeDiff, Nat.reduceSub, Nat.reduceLT, fld_zero, fld_cellV, fld_cellB, fld_cellN, fld_cellN_low]
  have hn : fld w 21 4 = 5 := by simp only [w, hc, Nat.reducePow, Nat.reduceLeDiff, Nat.reduceSub, Nat.reduceLT, fld_zero, fld_cellV, fld_cellB, fld_cellN, fld_cellN_low]
  refine of_base _ x' w rfl rfl ?_ (by rw [hm]; omega)
  rw [base_Bitwise_BTy_14 _ _ w' hm]
  unfold decodeBitwise
  rw [hn]
  first | (simp only [w, hc, Nat.reducePow, Nat.reduceLeDiff, Nat.reduceSub, Nat.reduceLT, Nat.add_sub_cancel_left, Nat.le_add_right, and_true, true_and, and_self, ↓reduceIte, fld_zero, fld_cellV, fld_cellB, fld_cellN, bvf_cellV, bvf_cellB, bvf_cellN, bit_cellV, bit_cellB, bit_cellN, fld_cellN_low, fld_cellB_low, fld_cellV_low, bvf_cellV_low, bit_cellB_low, fld_cellN_ne, fld_cellN_part, BTy.ofCode_code]; done) | simp [w, hc]

theorem andn (x' : Pre) (ch' : Bool) (w' : BTy) (d' : BitVec 7) (a' : BitVec 7) (b' : BitVec 7) : Statement (.andn x' ch' w' d' a' b') := by
  let w := cellV b' <| cellV a' <| cellV d' <| cellN 6 4 <| cellN (14 + w'.code) 6 <| cellB ch' 0
  have hc : 14 + w'.code < 64 := by have := w'.code_lt; omega
  have hm : fld w 25 6 = 14 + w'.code := by simp only [w, hc, Nat.reducePow, Nat.reduceLeDiff, Nat.reduceSub, Nat.reduceLT, fld_zero, fld_cellV, fld_cellB, fld_cellN, fld_cellN_low]
  have hn : fld w 21 4 = 6 := by simp only [w, hc, Nat.reducePow, Nat.reduceLeDiff, Nat.reduceSub, Nat.reduceLT, fld_zero, fld_cellV, fld_cellB, fld_cellN, fld_cellN_low]
  refine of_base _ x' w rfl rfl ?_ (by rw [hm]; omega)
  rw [base_Bitwise_BTy_14 _ _ w' hm]
  unfold decodeBitwise
  rw [hn]
  first | (simp only [w, hc, Nat.reducePow, Nat.reduceLeDiff, Nat.reduceSub, Nat.reduceLT, Nat.add_sub_cancel_left, Nat.le_add_right, and_true, true_and, and_self, ↓reduceIte, fld_zero, fld_cellV, fld_cellB, fld_cellN, bvf_cellV, bvf_cellB, bvf_cellN, bit_cellV, bit_cellB, bit_cellN, fld_cellN_low, fld_cellB_low, fld_cellV_low, bvf_cellV_low, bit_cellB_low, fld_cellN_ne, fld_cellN_part, BTy.ofCode_code]; done) | simp [w, hc]

theorem orn (x' : Pre) (ch' : Bool) (w' : BTy) (d' : BitVec 7) (a' : BitVec 7) (b' : BitVec 7) : Statement (.orn x' ch' w' d' a' b') := by
  let w := cellV b' <| cellV a' <| cellV d' <| cellN 7 4 <| cellN (14 + w'.code) 6 <| cellB ch' 0
  have hc : 14 + w'.code < 64 := by have := w'.code_lt; omega
  have hm : fld w 25 6 = 14 + w'.code := by simp only [w, hc, Nat.reducePow, Nat.reduceLeDiff, Nat.reduceSub, Nat.reduceLT, fld_zero, fld_cellV, fld_cellB, fld_cellN, fld_cellN_low]
  have hn : fld w 21 4 = 7 := by simp only [w, hc, Nat.reducePow, Nat.reduceLeDiff, Nat.reduceSub, Nat.reduceLT, fld_zero, fld_cellV, fld_cellB, fld_cellN, fld_cellN_low]
  refine of_base _ x' w rfl rfl ?_ (by rw [hm]; omega)
  rw [base_Bitwise_BTy_14 _ _ w' hm]
  unfold decodeBitwise
  rw [hn]
  first | (simp only [w, hc, Nat.reducePow, Nat.reduceLeDiff, Nat.reduceSub, Nat.reduceLT, Nat.add_sub_cancel_left, Nat.le_add_right, and_true, true_and, and_self, ↓reduceIte, fld_zero, fld_cellV, fld_cellB, fld_cellN, bvf_cellV, bvf_cellB, bvf_cellN, bit_cellV, bit_cellB, bit_cellN, fld_cellN_low, fld_cellB_low, fld_cellV_low, bvf_cellV_low, bit_cellB_low, fld_cellN_ne, fld_cellN_part, BTy.ofCode_code]; done) | simp [w, hc]

theorem bnot (x' : Pre) (ch' : Bool) (w' : BTy) (d' : BitVec 7) (a' : BitVec 7) : Statement (.bnot x' ch' w' d' a') := by
  let w := cellN 0 7 <| cellV a' <| cellV d' <| cellN 8 4 <| cellN (14 + w'.code) 6 <| cellB ch' 0
  have hc : 14 + w'.code < 64 := by have := w'.code_lt; omega
  have hm : fld w 25 6 = 14 + w'.code := by simp only [w, hc, Nat.reducePow, Nat.reduceLeDiff, Nat.reduceSub, Nat.reduceLT, fld_zero, fld_cellV, fld_cellB, fld_cellN, fld_cellN_low]
  have hn : fld w 21 4 = 8 := by simp only [w, hc, Nat.reducePow, Nat.reduceLeDiff, Nat.reduceSub, Nat.reduceLT, fld_zero, fld_cellV, fld_cellB, fld_cellN, fld_cellN_low]
  refine of_base _ x' w rfl rfl ?_ (by rw [hm]; omega)
  rw [base_Bitwise_BTy_14 _ _ w' hm]
  unfold decodeBitwise
  rw [hn]
  first | (simp only [w, hc, Nat.reducePow, Nat.reduceLeDiff, Nat.reduceSub, Nat.reduceLT, Nat.add_sub_cancel_left, Nat.le_add_right, and_true, true_and, and_self, ↓reduceIte, fld_zero, fld_cellV, fld_cellB, fld_cellN, bvf_cellV, bvf_cellB, bvf_cellN, bit_cellV, bit_cellB, bit_cellN, fld_cellN_low, fld_cellB_low, fld_cellV_low, bvf_cellV_low, bit_cellB_low, fld_cellN_ne, fld_cellN_part, BTy.ofCode_code]; done) | simp [w, hc]

theorem popc (x' : Pre) (ch' : Bool) (w' : BTy) (d' : BitVec 7) (a' : BitVec 7) : Statement (.popc x' ch' w' d' a') := by
  let w := cellN 0 7 <| cellV a' <| cellV d' <| cellN 9 4 <| cellN (14 + w'.code) 6 <| cellB ch' 0
  have hc : 14 + w'.code < 64 := by have := w'.code_lt; omega
  have hm : fld w 25 6 = 14 + w'.code := by simp only [w, hc, Nat.reducePow, Nat.reduceLeDiff, Nat.reduceSub, Nat.reduceLT, fld_zero, fld_cellV, fld_cellB, fld_cellN, fld_cellN_low]
  have hn : fld w 21 4 = 9 := by simp only [w, hc, Nat.reducePow, Nat.reduceLeDiff, Nat.reduceSub, Nat.reduceLT, fld_zero, fld_cellV, fld_cellB, fld_cellN, fld_cellN_low]
  refine of_base _ x' w rfl rfl ?_ (by rw [hm]; omega)
  rw [base_Bitwise_BTy_14 _ _ w' hm]
  unfold decodeBitwise
  rw [hn]
  first | (simp only [w, hc, Nat.reducePow, Nat.reduceLeDiff, Nat.reduceSub, Nat.reduceLT, Nat.add_sub_cancel_left, Nat.le_add_right, and_true, true_and, and_self, ↓reduceIte, fld_zero, fld_cellV, fld_cellB, fld_cellN, bvf_cellV, bvf_cellB, bvf_cellN, bit_cellV, bit_cellB, bit_cellN, fld_cellN_low, fld_cellB_low, fld_cellV_low, bvf_cellV_low, bit_cellB_low, fld_cellN_ne, fld_cellN_part, BTy.ofCode_code]; done) | simp [w, hc]

theorem clz (x' : Pre) (ch' : Bool) (w' : BTy) (d' : BitVec 7) (a' : BitVec 7) : Statement (.clz x' ch' w' d' a') := by
  let w := cellN 0 7 <| cellV a' <| cellV d' <| cellN 10 4 <| cellN (14 + w'.code) 6 <| cellB ch' 0
  have hc : 14 + w'.code < 64 := by have := w'.code_lt; omega
  have hm : fld w 25 6 = 14 + w'.code := by simp only [w, hc, Nat.reducePow, Nat.reduceLeDiff, Nat.reduceSub, Nat.reduceLT, fld_zero, fld_cellV, fld_cellB, fld_cellN, fld_cellN_low]
  have hn : fld w 21 4 = 10 := by simp only [w, hc, Nat.reducePow, Nat.reduceLeDiff, Nat.reduceSub, Nat.reduceLT, fld_zero, fld_cellV, fld_cellB, fld_cellN, fld_cellN_low]
  refine of_base _ x' w rfl rfl ?_ (by rw [hm]; omega)
  rw [base_Bitwise_BTy_14 _ _ w' hm]
  unfold decodeBitwise
  rw [hn]
  first | (simp only [w, hc, Nat.reducePow, Nat.reduceLeDiff, Nat.reduceSub, Nat.reduceLT, Nat.add_sub_cancel_left, Nat.le_add_right, and_true, true_and, and_self, ↓reduceIte, fld_zero, fld_cellV, fld_cellB, fld_cellN, bvf_cellV, bvf_cellB, bvf_cellN, bit_cellV, bit_cellB, bit_cellN, fld_cellN_low, fld_cellB_low, fld_cellV_low, bvf_cellV_low, bit_cellB_low, fld_cellN_ne, fld_cellN_part, BTy.ofCode_code]; done) | simp [w, hc]

theorem ctz (x' : Pre) (ch' : Bool) (w' : BTy) (d' : BitVec 7) (a' : BitVec 7) : Statement (.ctz x' ch' w' d' a') := by
  let w := cellN 0 7 <| cellV a' <| cellV d' <| cellN 11 4 <| cellN (14 + w'.code) 6 <| cellB ch' 0
  have hc : 14 + w'.code < 64 := by have := w'.code_lt; omega
  have hm : fld w 25 6 = 14 + w'.code := by simp only [w, hc, Nat.reducePow, Nat.reduceLeDiff, Nat.reduceSub, Nat.reduceLT, fld_zero, fld_cellV, fld_cellB, fld_cellN, fld_cellN_low]
  have hn : fld w 21 4 = 11 := by simp only [w, hc, Nat.reducePow, Nat.reduceLeDiff, Nat.reduceSub, Nat.reduceLT, fld_zero, fld_cellV, fld_cellB, fld_cellN, fld_cellN_low]
  refine of_base _ x' w rfl rfl ?_ (by rw [hm]; omega)
  rw [base_Bitwise_BTy_14 _ _ w' hm]
  unfold decodeBitwise
  rw [hn]
  first | (simp only [w, hc, Nat.reducePow, Nat.reduceLeDiff, Nat.reduceSub, Nat.reduceLT, Nat.add_sub_cancel_left, Nat.le_add_right, and_true, true_and, and_self, ↓reduceIte, fld_zero, fld_cellV, fld_cellB, fld_cellN, bvf_cellV, bvf_cellB, bvf_cellN, bit_cellV, bit_cellB, bit_cellN, fld_cellN_low, fld_cellB_low, fld_cellV_low, bvf_cellV_low, bit_cellB_low, fld_cellN_ne, fld_cellN_part, BTy.ofCode_code]; done) | simp [w, hc]

theorem brev (x' : Pre) (ch' : Bool) (w' : BTy) (d' : BitVec 7) (a' : BitVec 7) : Statement (.brev x' ch' w' d' a') := by
  let w := cellN 0 7 <| cellV a' <| cellV d' <| cellN 12 4 <| cellN (14 + w'.code) 6 <| cellB ch' 0
  have hc : 14 + w'.code < 64 := by have := w'.code_lt; omega
  have hm : fld w 25 6 = 14 + w'.code := by simp only [w, hc, Nat.reducePow, Nat.reduceLeDiff, Nat.reduceSub, Nat.reduceLT, fld_zero, fld_cellV, fld_cellB, fld_cellN, fld_cellN_low]
  have hn : fld w 21 4 = 12 := by simp only [w, hc, Nat.reducePow, Nat.reduceLeDiff, Nat.reduceSub, Nat.reduceLT, fld_zero, fld_cellV, fld_cellB, fld_cellN, fld_cellN_low]
  refine of_base _ x' w rfl rfl ?_ (by rw [hm]; omega)
  rw [base_Bitwise_BTy_14 _ _ w' hm]
  unfold decodeBitwise
  rw [hn]
  first | (simp only [w, hc, Nat.reducePow, Nat.reduceLeDiff, Nat.reduceSub, Nat.reduceLT, Nat.add_sub_cancel_left, Nat.le_add_right, and_true, true_and, and_self, ↓reduceIte, fld_zero, fld_cellV, fld_cellB, fld_cellN, bvf_cellV, bvf_cellB, bvf_cellN, bit_cellV, bit_cellB, bit_cellN, fld_cellN_low, fld_cellB_low, fld_cellV_low, bvf_cellV_low, bit_cellB_low, fld_cellN_ne, fld_cellN_part, BTy.ofCode_code]; done) | simp [w, hc]

theorem perm (x' : Pre) (ch' : Bool) (w' : BTy) (d' : BitVec 7) (a' : BitVec 7) (b' : BitVec 7) : Statement (.perm x' ch' w' d' a' b') := by
  let w := cellV b' <| cellV a' <| cellV d' <| cellN 13 4 <| cellN (14 + w'.code) 6 <| cellB ch' 0
  have hc : 14 + w'.code < 64 := by have := w'.code_lt; omega
  have hm : fld w 25 6 = 14 + w'.code := by simp only [w, hc, Nat.reducePow, Nat.reduceLeDiff, Nat.reduceSub, Nat.reduceLT, fld_zero, fld_cellV, fld_cellB, fld_cellN, fld_cellN_low]
  have hn : fld w 21 4 = 13 := by simp only [w, hc, Nat.reducePow, Nat.reduceLeDiff, Nat.reduceSub, Nat.reduceLT, fld_zero, fld_cellV, fld_cellB, fld_cellN, fld_cellN_low]
  refine of_base _ x' w rfl rfl ?_ (by rw [hm]; omega)
  rw [base_Bitwise_BTy_14 _ _ w' hm]
  unfold decodeBitwise
  rw [hn]
  first | (simp only [w, hc, Nat.reducePow, Nat.reduceLeDiff, Nat.reduceSub, Nat.reduceLT, Nat.add_sub_cancel_left, Nat.le_add_right, and_true, true_and, and_self, ↓reduceIte, fld_zero, fld_cellV, fld_cellB, fld_cellN, bvf_cellV, bvf_cellB, bvf_cellN, bit_cellV, bit_cellB, bit_cellN, fld_cellN_low, fld_cellB_low, fld_cellV_low, bvf_cellV_low, bit_cellB_low, fld_cellN_ne, fld_cellN_part, BTy.ofCode_code]; done) | simp [w, hc]

theorem idot4I8 (x' : Pre) (ch' : Bool) (d' : BitVec 7) (a' : BitVec 7) (b' : BitVec 7) : Statement (.idot4I8 x' ch' d' a' b') := by
  let w := cellV b' <| cellV a' <| cellV d' <| cellN 14 4 <| cellN 14 6 <| cellB ch' 0
  have hm : fld w 25 6 = 14 := by simp only [w, Nat.reducePow, Nat.reduceLeDiff, Nat.reduceSub, Nat.reduceLT, fld_zero, fld_cellV, fld_cellB, fld_cellN, fld_cellN_low]
  have hn : fld w 21 4 = 14 := by simp only [w, Nat.reducePow, Nat.reduceLeDiff, Nat.reduceSub, Nat.reduceLT, fld_zero, fld_cellV, fld_cellB, fld_cellN, fld_cellN_low]
  refine of_base _ x' w rfl rfl ?_ (by rw [hm]; omega)
  rw [base_Bitwise_14 _ _ hm]
  unfold decodeBitwise
  rw [hn]
  first | (simp only [w, Nat.reducePow, Nat.reduceLeDiff, Nat.reduceSub, Nat.reduceLT, Nat.add_sub_cancel_left, Nat.le_add_right, and_true, true_and, and_self, ↓reduceIte, fld_zero, fld_cellV, fld_cellB, fld_cellN, bvf_cellV, bvf_cellB, bvf_cellN, bit_cellV, bit_cellB, bit_cellN, fld_cellN_low, fld_cellB_low, fld_cellV_low, bvf_cellV_low, bit_cellB_low, fld_cellN_ne, fld_cellN_part]; done) | simp [w]

theorem idot4N8 (x' : Pre) (ch' : Bool) (d' : BitVec 7) (a' : BitVec 7) (b' : BitVec 7) : Statement (.idot4N8 x' ch' d' a' b') := by
  let w := cellV b' <| cellV a' <| cellV d' <| cellN 15 4 <| cellN 14 6 <| cellB ch' 0
  have hm : fld w 25 6 = 14 := by simp only [w, Nat.reducePow, Nat.reduceLeDiff, Nat.reduceSub, Nat.reduceLT, fld_zero, fld_cellV, fld_cellB, fld_cellN, fld_cellN_low]
  have hn : fld w 21 4 = 15 := by simp only [w, Nat.reducePow, Nat.reduceLeDiff, Nat.reduceSub, Nat.reduceLT, fld_zero, fld_cellV, fld_cellB, fld_cellN, fld_cellN_low]
  refine of_base _ x' w rfl rfl ?_ (by rw [hm]; omega)
  rw [base_Bitwise_14 _ _ hm]
  unfold decodeBitwise
  rw [hn]
  first | (simp only [w, Nat.reducePow, Nat.reduceLeDiff, Nat.reduceSub, Nat.reduceLT, Nat.add_sub_cancel_left, Nat.le_add_right, and_true, true_and, and_self, ↓reduceIte, fld_zero, fld_cellV, fld_cellB, fld_cellN, bvf_cellV, bvf_cellB, bvf_cellN, bit_cellV, bit_cellB, bit_cellN, fld_cellN_low, fld_cellB_low, fld_cellV_low, bvf_cellV_low, bit_cellB_low, fld_cellN_ne, fld_cellN_part]; done) | simp [w]

theorem bfx (x' : Pre) (ch' : Bool) (t' : WTy) (d' : BitVec 7) (a' : BitVec 7) (b' : BitVec 7) : Statement (.bfx x' ch' t' d' a' b') := by
  let w := cellV b' <| cellV a' <| cellV d' <| cellN 0 4 <| cellN (16 + t'.code) 6 <| cellB ch' 0
  have hc : 16 + t'.code < 64 := by have := t'.code_lt; omega
  have hm : fld w 25 6 = 16 + t'.code := by simp only [w, hc, Nat.reducePow, Nat.reduceLeDiff, Nat.reduceSub, Nat.reduceLT, fld_zero, fld_cellV, fld_cellB, fld_cellN, fld_cellN_low]
  have hn : fld w 21 4 = 0 := by simp only [w, hc, Nat.reducePow, Nat.reduceLeDiff, Nat.reduceSub, Nat.reduceLT, fld_zero, fld_cellV, fld_cellB, fld_cellN, fld_cellN_low]
  refine of_base _ x' w rfl rfl ?_ (by rw [hm]; omega)
  rw [base_Field_WTy_16 _ _ t' hm]
  unfold decodeField
  rw [hn]
  first | (simp only [w, hc, Nat.reducePow, Nat.reduceLeDiff, Nat.reduceSub, Nat.reduceLT, Nat.add_sub_cancel_left, Nat.le_add_right, and_true, true_and, and_self, ↓reduceIte, fld_zero, fld_cellV, fld_cellB, fld_cellN, bvf_cellV, bvf_cellB, bvf_cellN, bit_cellV, bit_cellB, bit_cellN, fld_cellN_low, fld_cellB_low, fld_cellV_low, bvf_cellV_low, bit_cellB_low, fld_cellN_ne, fld_cellN_part, WTy.ofCode_code]; done) | simp [w, hc]

theorem bfi (x' : Pre) (ch' : Bool) (t' : WTy) (d' : BitVec 7) (a' : BitVec 7) (b' : BitVec 7) : Statement (.bfi x' ch' t' d' a' b') := by
  let w := cellV b' <| cellV a' <| cellV d' <| cellN 1 4 <| cellN (16 + t'.code) 6 <| cellB ch' 0
  have hc : 16 + t'.code < 64 := by have := t'.code_lt; omega
  have hm : fld w 25 6 = 16 + t'.code := by simp only [w, hc, Nat.reducePow, Nat.reduceLeDiff, Nat.reduceSub, Nat.reduceLT, fld_zero, fld_cellV, fld_cellB, fld_cellN, fld_cellN_low]
  have hn : fld w 21 4 = 1 := by simp only [w, hc, Nat.reducePow, Nat.reduceLeDiff, Nat.reduceSub, Nat.reduceLT, fld_zero, fld_cellV, fld_cellB, fld_cellN, fld_cellN_low]
  refine of_base _ x' w rfl rfl ?_ (by rw [hm]; omega)
  rw [base_Field_WTy_16 _ _ t' hm]
  unfold decodeField
  rw [hn]
  first | (simp only [w, hc, Nat.reducePow, Nat.reduceLeDiff, Nat.reduceSub, Nat.reduceLT, Nat.add_sub_cancel_left, Nat.le_add_right, and_true, true_and, and_self, ↓reduceIte, fld_zero, fld_cellV, fld_cellB, fld_cellN, bvf_cellV, bvf_cellB, bvf_cellN, bit_cellV, bit_cellB, bit_cellN, fld_cellN_low, fld_cellB_low, fld_cellV_low, bvf_cellV_low, bit_cellB_low, fld_cellN_ne, fld_cellN_part, WTy.ofCode_code]; done) | simp [w, hc]

theorem fshl (x' : Pre) (ch' : Bool) (t' : WTy) (d' : BitVec 7) (a' : BitVec 7) (b' : BitVec 7) : Statement (.fshl x' ch' t' d' a' b') := by
  let w := cellV b' <| cellV a' <| cellV d' <| cellN 2 4 <| cellN (16 + t'.code) 6 <| cellB ch' 0
  have hc : 16 + t'.code < 64 := by have := t'.code_lt; omega
  have hm : fld w 25 6 = 16 + t'.code := by simp only [w, hc, Nat.reducePow, Nat.reduceLeDiff, Nat.reduceSub, Nat.reduceLT, fld_zero, fld_cellV, fld_cellB, fld_cellN, fld_cellN_low]
  have hn : fld w 21 4 = 2 := by simp only [w, hc, Nat.reducePow, Nat.reduceLeDiff, Nat.reduceSub, Nat.reduceLT, fld_zero, fld_cellV, fld_cellB, fld_cellN, fld_cellN_low]
  refine of_base _ x' w rfl rfl ?_ (by rw [hm]; omega)
  rw [base_Field_WTy_16 _ _ t' hm]
  unfold decodeField
  rw [hn]
  first | (simp only [w, hc, Nat.reducePow, Nat.reduceLeDiff, Nat.reduceSub, Nat.reduceLT, Nat.add_sub_cancel_left, Nat.le_add_right, and_true, true_and, and_self, ↓reduceIte, fld_zero, fld_cellV, fld_cellB, fld_cellN, bvf_cellV, bvf_cellB, bvf_cellN, bit_cellV, bit_cellB, bit_cellN, fld_cellN_low, fld_cellB_low, fld_cellV_low, bvf_cellV_low, bit_cellB_low, fld_cellN_ne, fld_cellN_part, WTy.ofCode_code]; done) | simp [w, hc]

theorem fshr (x' : Pre) (ch' : Bool) (t' : WTy) (d' : BitVec 7) (a' : BitVec 7) (b' : BitVec 7) : Statement (.fshr x' ch' t' d' a' b') := by
  let w := cellV b' <| cellV a' <| cellV d' <| cellN 3 4 <| cellN (16 + t'.code) 6 <| cellB ch' 0
  have hc : 16 + t'.code < 64 := by have := t'.code_lt; omega
  have hm : fld w 25 6 = 16 + t'.code := by simp only [w, hc, Nat.reducePow, Nat.reduceLeDiff, Nat.reduceSub, Nat.reduceLT, fld_zero, fld_cellV, fld_cellB, fld_cellN, fld_cellN_low]
  have hn : fld w 21 4 = 3 := by simp only [w, hc, Nat.reducePow, Nat.reduceLeDiff, Nat.reduceSub, Nat.reduceLT, fld_zero, fld_cellV, fld_cellB, fld_cellN, fld_cellN_low]
  refine of_base _ x' w rfl rfl ?_ (by rw [hm]; omega)
  rw [base_Field_WTy_16 _ _ t' hm]
  unfold decodeField
  rw [hn]
  first | (simp only [w, hc, Nat.reducePow, Nat.reduceLeDiff, Nat.reduceSub, Nat.reduceLT, Nat.add_sub_cancel_left, Nat.le_add_right, and_true, true_and, and_self, ↓reduceIte, fld_zero, fld_cellV, fld_cellB, fld_cellN, bvf_cellV, bvf_cellB, bvf_cellN, bit_cellV, bit_cellB, bit_cellN, fld_cellN_low, fld_cellB_low, fld_cellV_low, bvf_cellV_low, bit_cellB_low, fld_cellN_ne, fld_cellN_part, WTy.ofCode_code]; done) | simp [w, hc]

theorem bmsk (x' : Pre) (ch' : Bool) (t' : WTy) (d' : BitVec 7) (b' : BitVec 7) : Statement (.bmsk x' ch' t' d' b') := by
  let w := cellV b' <| cellN 0 7 <| cellV d' <| cellN 4 4 <| cellN (16 + t'.code) 6 <| cellB ch' 0
  have hc : 16 + t'.code < 64 := by have := t'.code_lt; omega
  have hm : fld w 25 6 = 16 + t'.code := by simp only [w, hc, Nat.reducePow, Nat.reduceLeDiff, Nat.reduceSub, Nat.reduceLT, fld_zero, fld_cellV, fld_cellB, fld_cellN, fld_cellN_low]
  have hn : fld w 21 4 = 4 := by simp only [w, hc, Nat.reducePow, Nat.reduceLeDiff, Nat.reduceSub, Nat.reduceLT, fld_zero, fld_cellV, fld_cellB, fld_cellN, fld_cellN_low]
  refine of_base _ x' w rfl rfl ?_ (by rw [hm]; omega)
  rw [base_Field_WTy_16 _ _ t' hm]
  unfold decodeField
  rw [hn]
  first | (simp only [w, hc, Nat.reducePow, Nat.reduceLeDiff, Nat.reduceSub, Nat.reduceLT, Nat.add_sub_cancel_left, Nat.le_add_right, and_true, true_and, and_self, ↓reduceIte, fld_zero, fld_cellV, fld_cellB, fld_cellN, bvf_cellV, bvf_cellB, bvf_cellN, bit_cellV, bit_cellB, bit_cellN, fld_cellN_low, fld_cellB_low, fld_cellV_low, bvf_cellV_low, bit_cellB_low, fld_cellN_ne, fld_cellN_part, WTy.ofCode_code]; done) | simp [w, hc]

theorem movi (x' : Pre) (ch' : Bool) (d' : BitVec 7) (i' : BitVec 11) : Statement (.movi x' ch' d' i') := by
  let w := cellV i' <| cellN 0 7 <| cellV d' <| cellN 20 6 <| cellB ch' 0
  have hm : fld w 25 6 = 20 := by simp only [w, Nat.reducePow, Nat.reduceLeDiff, Nat.reduceSub, Nat.reduceLT, fld_zero, fld_cellV, fld_cellB, fld_cellN, fld_cellN_low]
  refine of_base _ x' w rfl rfl ?_ (by rw [hm]; omega)
  rw [base_Movi_20 _ _ hm]
  unfold decodeMovi
  first | (simp only [w, Nat.reducePow, Nat.reduceLeDiff, Nat.reduceSub, Nat.reduceLT, Nat.add_sub_cancel_left, Nat.le_add_right, and_true, true_and, and_self, ↓reduceIte, fld_zero, fld_cellV, fld_cellB, fld_cellN, bvf_cellV, bvf_cellB, bvf_cellN, bit_cellV, bit_cellB, bit_cellN, fld_cellN_low, fld_cellB_low, fld_cellV_low, bvf_cellV_low, bit_cellB_low, fld_cellN_ne, fld_cellN_part]; done) | simp [w]

theorem movh (x' : Pre) (ch' : Bool) (d' : BitVec 7) (a' : BitVec 7) (i' : BitVec 11) : Statement (.movh x' ch' d' a' i') := by
  let w := cellV i' <| cellV a' <| cellV d' <| cellN 21 6 <| cellB ch' 0
  have hm : fld w 25 6 = 21 := by simp only [w, Nat.reducePow, Nat.reduceLeDiff, Nat.reduceSub, Nat.reduceLT, fld_zero, fld_cellV, fld_cellB, fld_cellN, fld_cellN_low]
  refine of_base _ x' w rfl rfl ?_ (by rw [hm]; omega)
  rw [base_Movh_21 _ _ hm]
  unfold decodeMovh
  first | (simp only [w, Nat.reducePow, Nat.reduceLeDiff, Nat.reduceSub, Nat.reduceLT, Nat.add_sub_cancel_left, Nat.le_add_right, and_true, true_and, and_self, ↓reduceIte, fld_zero, fld_cellV, fld_cellB, fld_cellN, bvf_cellV, bvf_cellB, bvf_cellN, bit_cellV, bit_cellB, bit_cellN, fld_cellN_low, fld_cellB_low, fld_cellV_low, bvf_cellV_low, bit_cellB_low, fld_cellN_ne, fld_cellN_part]; done) | simp [w]

theorem xset (x' : Pre) (ch' : Bool) (n' : BitVec 2) (a' : BitVec 7) (i' : BitVec 11) : Statement (.xset x' ch' n' a' i') := by
  let w := cellV i' <| cellV a' <| cellV n' <| cellN 0 5 <| cellN 22 6 <| cellB ch' 0
  have hm : fld w 25 6 = 22 := by simp only [w, Nat.reducePow, Nat.reduceLeDiff, Nat.reduceSub, Nat.reduceLT, fld_zero, fld_cellV, fld_cellB, fld_cellN, fld_cellN_low]
  refine of_base _ x' w rfl rfl ?_ (by rw [hm]; omega)
  rw [base_Xset_22 _ _ hm]
  unfold decodeXset
  first | (simp only [w, Nat.reducePow, Nat.reduceLeDiff, Nat.reduceSub, Nat.reduceLT, Nat.add_sub_cancel_left, Nat.le_add_right, and_true, true_and, and_self, ↓reduceIte, fld_zero, fld_cellV, fld_cellB, fld_cellN, bvf_cellV, bvf_cellB, bvf_cellN, bit_cellV, bit_cellB, bit_cellN, fld_cellN_low, fld_cellB_low, fld_cellV_low, bvf_cellV_low, bit_cellB_low, fld_cellN_ne, fld_cellN_part]; done) | simp [w]

theorem fadd (x' : Pre) (ch' : Bool) (t' : FTy) (d' : BitVec 7) (a' : BitVec 7) (b' : BitVec 7) : Statement (.fadd x' ch' t' d' a' b') := by
  let w := cellV b' <| cellV a' <| cellV d' <| cellN 0 4 <| cellN (24 + t'.code) 6 <| cellB ch' 0
  have hc : 24 + t'.code < 64 := by have := t'.code_lt; omega
  have hm : fld w 25 6 = 24 + t'.code := by simp only [w, hc, Nat.reducePow, Nat.reduceLeDiff, Nat.reduceSub, Nat.reduceLT, fld_zero, fld_cellV, fld_cellB, fld_cellN, fld_cellN_low]
  have hn : fld w 21 4 = 0 := by simp only [w, hc, Nat.reducePow, Nat.reduceLeDiff, Nat.reduceSub, Nat.reduceLT, fld_zero, fld_cellV, fld_cellB, fld_cellN, fld_cellN_low]
  refine of_base _ x' w rfl rfl ?_ (by rw [hm]; omega)
  rw [base_FloatA_FTy_24 _ _ t' hm]
  unfold decodeFloatA
  rw [hn]
  first | (simp only [w, hc, Nat.reducePow, Nat.reduceLeDiff, Nat.reduceSub, Nat.reduceLT, Nat.add_sub_cancel_left, Nat.le_add_right, and_true, true_and, and_self, ↓reduceIte, fld_zero, fld_cellV, fld_cellB, fld_cellN, bvf_cellV, bvf_cellB, bvf_cellN, bit_cellV, bit_cellB, bit_cellN, fld_cellN_low, fld_cellB_low, fld_cellV_low, bvf_cellV_low, bit_cellB_low, fld_cellN_ne, fld_cellN_part, FTy.ofCode_code]; done) | simp [w, hc]

theorem fsub (x' : Pre) (ch' : Bool) (t' : FTy) (d' : BitVec 7) (a' : BitVec 7) (b' : BitVec 7) : Statement (.fsub x' ch' t' d' a' b') := by
  let w := cellV b' <| cellV a' <| cellV d' <| cellN 1 4 <| cellN (24 + t'.code) 6 <| cellB ch' 0
  have hc : 24 + t'.code < 64 := by have := t'.code_lt; omega
  have hm : fld w 25 6 = 24 + t'.code := by simp only [w, hc, Nat.reducePow, Nat.reduceLeDiff, Nat.reduceSub, Nat.reduceLT, fld_zero, fld_cellV, fld_cellB, fld_cellN, fld_cellN_low]
  have hn : fld w 21 4 = 1 := by simp only [w, hc, Nat.reducePow, Nat.reduceLeDiff, Nat.reduceSub, Nat.reduceLT, fld_zero, fld_cellV, fld_cellB, fld_cellN, fld_cellN_low]
  refine of_base _ x' w rfl rfl ?_ (by rw [hm]; omega)
  rw [base_FloatA_FTy_24 _ _ t' hm]
  unfold decodeFloatA
  rw [hn]
  first | (simp only [w, hc, Nat.reducePow, Nat.reduceLeDiff, Nat.reduceSub, Nat.reduceLT, Nat.add_sub_cancel_left, Nat.le_add_right, and_true, true_and, and_self, ↓reduceIte, fld_zero, fld_cellV, fld_cellB, fld_cellN, bvf_cellV, bvf_cellB, bvf_cellN, bit_cellV, bit_cellB, bit_cellN, fld_cellN_low, fld_cellB_low, fld_cellV_low, bvf_cellV_low, bit_cellB_low, fld_cellN_ne, fld_cellN_part, FTy.ofCode_code]; done) | simp [w, hc]

theorem fmul (x' : Pre) (ch' : Bool) (t' : FTy) (d' : BitVec 7) (a' : BitVec 7) (b' : BitVec 7) : Statement (.fmul x' ch' t' d' a' b') := by
  let w := cellV b' <| cellV a' <| cellV d' <| cellN 2 4 <| cellN (24 + t'.code) 6 <| cellB ch' 0
  have hc : 24 + t'.code < 64 := by have := t'.code_lt; omega
  have hm : fld w 25 6 = 24 + t'.code := by simp only [w, hc, Nat.reducePow, Nat.reduceLeDiff, Nat.reduceSub, Nat.reduceLT, fld_zero, fld_cellV, fld_cellB, fld_cellN, fld_cellN_low]
  have hn : fld w 21 4 = 2 := by simp only [w, hc, Nat.reducePow, Nat.reduceLeDiff, Nat.reduceSub, Nat.reduceLT, fld_zero, fld_cellV, fld_cellB, fld_cellN, fld_cellN_low]
  refine of_base _ x' w rfl rfl ?_ (by rw [hm]; omega)
  rw [base_FloatA_FTy_24 _ _ t' hm]
  unfold decodeFloatA
  rw [hn]
  first | (simp only [w, hc, Nat.reducePow, Nat.reduceLeDiff, Nat.reduceSub, Nat.reduceLT, Nat.add_sub_cancel_left, Nat.le_add_right, and_true, true_and, and_self, ↓reduceIte, fld_zero, fld_cellV, fld_cellB, fld_cellN, bvf_cellV, bvf_cellB, bvf_cellN, bit_cellV, bit_cellB, bit_cellN, fld_cellN_low, fld_cellB_low, fld_cellV_low, bvf_cellV_low, bit_cellB_low, fld_cellN_ne, fld_cellN_part, FTy.ofCode_code]; done) | simp [w, hc]

theorem ffma (x' : Pre) (ch' : Bool) (t' : FTy) (d' : BitVec 7) (a' : BitVec 7) (b' : BitVec 7) : Statement (.ffma x' ch' t' d' a' b') := by
  let w := cellV b' <| cellV a' <| cellV d' <| cellN 3 4 <| cellN (24 + t'.code) 6 <| cellB ch' 0
  have hc : 24 + t'.code < 64 := by have := t'.code_lt; omega
  have hm : fld w 25 6 = 24 + t'.code := by simp only [w, hc, Nat.reducePow, Nat.reduceLeDiff, Nat.reduceSub, Nat.reduceLT, fld_zero, fld_cellV, fld_cellB, fld_cellN, fld_cellN_low]
  have hn : fld w 21 4 = 3 := by simp only [w, hc, Nat.reducePow, Nat.reduceLeDiff, Nat.reduceSub, Nat.reduceLT, fld_zero, fld_cellV, fld_cellB, fld_cellN, fld_cellN_low]
  refine of_base _ x' w rfl rfl ?_ (by rw [hm]; omega)
  rw [base_FloatA_FTy_24 _ _ t' hm]
  unfold decodeFloatA
  rw [hn]
  first | (simp only [w, hc, Nat.reducePow, Nat.reduceLeDiff, Nat.reduceSub, Nat.reduceLT, Nat.add_sub_cancel_left, Nat.le_add_right, and_true, true_and, and_self, ↓reduceIte, fld_zero, fld_cellV, fld_cellB, fld_cellN, bvf_cellV, bvf_cellB, bvf_cellN, bit_cellV, bit_cellB, bit_cellN, fld_cellN_low, fld_cellB_low, fld_cellV_low, bvf_cellV_low, bit_cellB_low, fld_cellN_ne, fld_cellN_part, FTy.ofCode_code]; done) | simp [w, hc]

theorem fmin (x' : Pre) (ch' : Bool) (t' : FTy) (d' : BitVec 7) (a' : BitVec 7) (b' : BitVec 7) : Statement (.fmin x' ch' t' d' a' b') := by
  let w := cellV b' <| cellV a' <| cellV d' <| cellN 4 4 <| cellN (24 + t'.code) 6 <| cellB ch' 0
  have hc : 24 + t'.code < 64 := by have := t'.code_lt; omega
  have hm : fld w 25 6 = 24 + t'.code := by simp only [w, hc, Nat.reducePow, Nat.reduceLeDiff, Nat.reduceSub, Nat.reduceLT, fld_zero, fld_cellV, fld_cellB, fld_cellN, fld_cellN_low]
  have hn : fld w 21 4 = 4 := by simp only [w, hc, Nat.reducePow, Nat.reduceLeDiff, Nat.reduceSub, Nat.reduceLT, fld_zero, fld_cellV, fld_cellB, fld_cellN, fld_cellN_low]
  refine of_base _ x' w rfl rfl ?_ (by rw [hm]; omega)
  rw [base_FloatA_FTy_24 _ _ t' hm]
  unfold decodeFloatA
  rw [hn]
  first | (simp only [w, hc, Nat.reducePow, Nat.reduceLeDiff, Nat.reduceSub, Nat.reduceLT, Nat.add_sub_cancel_left, Nat.le_add_right, and_true, true_and, and_self, ↓reduceIte, fld_zero, fld_cellV, fld_cellB, fld_cellN, bvf_cellV, bvf_cellB, bvf_cellN, bit_cellV, bit_cellB, bit_cellN, fld_cellN_low, fld_cellB_low, fld_cellV_low, bvf_cellV_low, bit_cellB_low, fld_cellN_ne, fld_cellN_part, FTy.ofCode_code]; done) | simp [w, hc]

theorem fmax (x' : Pre) (ch' : Bool) (t' : FTy) (d' : BitVec 7) (a' : BitVec 7) (b' : BitVec 7) : Statement (.fmax x' ch' t' d' a' b') := by
  let w := cellV b' <| cellV a' <| cellV d' <| cellN 5 4 <| cellN (24 + t'.code) 6 <| cellB ch' 0
  have hc : 24 + t'.code < 64 := by have := t'.code_lt; omega
  have hm : fld w 25 6 = 24 + t'.code := by simp only [w, hc, Nat.reducePow, Nat.reduceLeDiff, Nat.reduceSub, Nat.reduceLT, fld_zero, fld_cellV, fld_cellB, fld_cellN, fld_cellN_low]
  have hn : fld w 21 4 = 5 := by simp only [w, hc, Nat.reducePow, Nat.reduceLeDiff, Nat.reduceSub, Nat.reduceLT, fld_zero, fld_cellV, fld_cellB, fld_cellN, fld_cellN_low]
  refine of_base _ x' w rfl rfl ?_ (by rw [hm]; omega)
  rw [base_FloatA_FTy_24 _ _ t' hm]
  unfold decodeFloatA
  rw [hn]
  first | (simp only [w, hc, Nat.reducePow, Nat.reduceLeDiff, Nat.reduceSub, Nat.reduceLT, Nat.add_sub_cancel_left, Nat.le_add_right, and_true, true_and, and_self, ↓reduceIte, fld_zero, fld_cellV, fld_cellB, fld_cellN, bvf_cellV, bvf_cellB, bvf_cellN, bit_cellV, bit_cellB, bit_cellN, fld_cellN_low, fld_cellB_low, fld_cellV_low, bvf_cellV_low, bit_cellB_low, fld_cellN_ne, fld_cellN_part, FTy.ofCode_code]; done) | simp [w, hc]

theorem fcmp (x' : Pre) (ch' : Bool) (n' : BitVec 4) (p' : BitVec 3) (a' : BitVec 7) (b' : BitVec 7) : Statement (.fcmp x' ch' n' p' a' b') := by
  let w := cellV b' <| cellV a' <| cellV p' <| cellV n' <| cellN 6 4 <| cellN 24 6 <| cellB ch' 0
  have hm : fld w 25 6 = 24 := by simp only [w, Nat.reducePow, Nat.reduceLeDiff, Nat.reduceSub, Nat.reduceLT, fld_zero, fld_cellV, fld_cellB, fld_cellN, fld_cellN_low]
  have hn : fld w 21 4 = 6 := by simp only [w, Nat.reducePow, Nat.reduceLeDiff, Nat.reduceSub, Nat.reduceLT, fld_zero, fld_cellV, fld_cellB, fld_cellN, fld_cellN_low]
  refine of_base _ x' w rfl rfl ?_ (by rw [hm]; omega)
  rw [base_FloatA_24 _ _ hm]
  unfold decodeFloatA
  rw [hn]
  first | (simp only [w, Nat.reducePow, Nat.reduceLeDiff, Nat.reduceSub, Nat.reduceLT, Nat.add_sub_cancel_left, Nat.le_add_right, and_true, true_and, and_self, ↓reduceIte, fld_zero, fld_cellV, fld_cellB, fld_cellN, bvf_cellV, bvf_cellB, bvf_cellN, bit_cellV, bit_cellB, bit_cellN, fld_cellN_low, fld_cellB_low, fld_cellV_low, bvf_cellV_low, bit_cellB_low, fld_cellN_ne, fld_cellN_part]; done) | simp [w]

theorem fclass (x' : Pre) (ch' : Bool) (t' : FTy) (d' : BitVec 7) (a' : BitVec 7) : Statement (.fclass x' ch' t' d' a') := by
  let w := cellN 0 7 <| cellV a' <| cellV d' <| cellN 7 4 <| cellN (24 + t'.code) 6 <| cellB ch' 0
  have hc : 24 + t'.code < 64 := by have := t'.code_lt; omega
  have hm : fld w 25 6 = 24 + t'.code := by simp only [w, hc, Nat.reducePow, Nat.reduceLeDiff, Nat.reduceSub, Nat.reduceLT, fld_zero, fld_cellV, fld_cellB, fld_cellN, fld_cellN_low]
  have hn : fld w 21 4 = 7 := by simp only [w, hc, Nat.reducePow, Nat.reduceLeDiff, Nat.reduceSub, Nat.reduceLT, fld_zero, fld_cellV, fld_cellB, fld_cellN, fld_cellN_low]
  refine of_base _ x' w rfl rfl ?_ (by rw [hm]; omega)
  rw [base_FloatA_FTy_24 _ _ t' hm]
  unfold decodeFloatA
  rw [hn]
  first | (simp only [w, hc, Nat.reducePow, Nat.reduceLeDiff, Nat.reduceSub, Nat.reduceLT, Nat.add_sub_cancel_left, Nat.le_add_right, and_true, true_and, and_self, ↓reduceIte, fld_zero, fld_cellV, fld_cellB, fld_cellN, bvf_cellV, bvf_cellB, bvf_cellN, bit_cellV, bit_cellB, bit_cellN, fld_cellN_low, fld_cellB_low, fld_cellV_low, bvf_cellV_low, bit_cellB_low, fld_cellN_ne, fld_cellN_part, FTy.ofCode_code]; done) | simp [w, hc]

theorem frnd (x' : Pre) (ch' : Bool) (t' : FTy) (d' : BitVec 7) (a' : BitVec 7) : Statement (.frnd x' ch' t' d' a') := by
  let w := cellN 0 7 <| cellV a' <| cellV d' <| cellN 8 4 <| cellN (24 + t'.code) 6 <| cellB ch' 0
  have hc : 24 + t'.code < 64 := by have := t'.code_lt; omega
  have hm : fld w 25 6 = 24 + t'.code := by simp only [w, hc, Nat.reducePow, Nat.reduceLeDiff, Nat.reduceSub, Nat.reduceLT, fld_zero, fld_cellV, fld_cellB, fld_cellN, fld_cellN_low]
  have hn : fld w 21 4 = 8 := by simp only [w, hc, Nat.reducePow, Nat.reduceLeDiff, Nat.reduceSub, Nat.reduceLT, fld_zero, fld_cellV, fld_cellB, fld_cellN, fld_cellN_low]
  refine of_base _ x' w rfl rfl ?_ (by rw [hm]; omega)
  rw [base_FloatA_FTy_24 _ _ t' hm]
  unfold decodeFloatA
  rw [hn]
  first | (simp only [w, hc, Nat.reducePow, Nat.reduceLeDiff, Nat.reduceSub, Nat.reduceLT, Nat.add_sub_cancel_left, Nat.le_add_right, and_true, true_and, and_self, ↓reduceIte, fld_zero, fld_cellV, fld_cellB, fld_cellN, bvf_cellV, bvf_cellB, bvf_cellN, bit_cellV, bit_cellB, bit_cellN, fld_cellN_low, fld_cellB_low, fld_cellV_low, bvf_cellV_low, bit_cellB_low, fld_cellN_ne, fld_cellN_part, FTy.ofCode_code]; done) | simp [w, hc]

theorem fcvt (x' : Pre) (ch' : Bool) (t' : FTy) (d' : BitVec 7) (a' : BitVec 7) (h' : BitVec 3) (s' : BitVec 2) : Statement (.fcvt x' ch' t' d' a' h' s') := by
  let w := cellV s' <| cellN 0 2 <| cellV h' <| cellV a' <| cellV d' <| cellN 9 4 <| cellN (24 + t'.code) 6 <| cellB ch' 0
  have hc : 24 + t'.code < 64 := by have := t'.code_lt; omega
  have hm : fld w 25 6 = 24 + t'.code := by simp only [w, hc, Nat.reducePow, Nat.reduceLeDiff, Nat.reduceSub, Nat.reduceLT, fld_zero, fld_cellV, fld_cellB, fld_cellN, fld_cellN_low]
  have hn : fld w 21 4 = 9 := by simp only [w, hc, Nat.reducePow, Nat.reduceLeDiff, Nat.reduceSub, Nat.reduceLT, fld_zero, fld_cellV, fld_cellB, fld_cellN, fld_cellN_low]
  refine of_base _ x' w rfl rfl ?_ (by rw [hm]; omega)
  rw [base_FloatA_FTy_24 _ _ t' hm]
  unfold decodeFloatA
  rw [hn]
  first | (simp only [w, hc, Nat.reducePow, Nat.reduceLeDiff, Nat.reduceSub, Nat.reduceLT, Nat.add_sub_cancel_left, Nat.le_add_right, and_true, true_and, and_self, ↓reduceIte, fld_zero, fld_cellV, fld_cellB, fld_cellN, bvf_cellV, bvf_cellB, bvf_cellN, bit_cellV, bit_cellB, bit_cellN, fld_cellN_low, fld_cellB_low, fld_cellV_low, bvf_cellV_low, bit_cellB_low, fld_cellN_ne, fld_cellN_part, FTy.ofCode_code]; done) | simp [w, hc]

theorem ftoi (x' : Pre) (ch' : Bool) (t' : FTy) (d' : BitVec 7) (a' : BitVec 7) (h' : BitVec 3) (s' : BitVec 4) : Statement (.ftoi x' ch' t' d' a' h' s') := by
  let w := cellV s' <| cellV h' <| cellV a' <| cellV d' <| cellN 10 4 <| cellN (24 + t'.code) 6 <| cellB ch' 0
  have hc : 24 + t'.code < 64 := by have := t'.code_lt; omega
  have hm : fld w 25 6 = 24 + t'.code := by simp only [w, hc, Nat.reducePow, Nat.reduceLeDiff, Nat.reduceSub, Nat.reduceLT, fld_zero, fld_cellV, fld_cellB, fld_cellN, fld_cellN_low]
  have hn : fld w 21 4 = 10 := by simp only [w, hc, Nat.reducePow, Nat.reduceLeDiff, Nat.reduceSub, Nat.reduceLT, fld_zero, fld_cellV, fld_cellB, fld_cellN, fld_cellN_low]
  refine of_base _ x' w rfl rfl ?_ (by rw [hm]; omega)
  rw [base_FloatA_FTy_24 _ _ t' hm]
  unfold decodeFloatA
  rw [hn]
  first | (simp only [w, hc, Nat.reducePow, Nat.reduceLeDiff, Nat.reduceSub, Nat.reduceLT, Nat.add_sub_cancel_left, Nat.le_add_right, and_true, true_and, and_self, ↓reduceIte, fld_zero, fld_cellV, fld_cellB, fld_cellN, bvf_cellV, bvf_cellB, bvf_cellN, bit_cellV, bit_cellB, bit_cellN, fld_cellN_low, fld_cellB_low, fld_cellV_low, bvf_cellV_low, bit_cellB_low, fld_cellN_ne, fld_cellN_part, FTy.ofCode_code]; done) | simp [w, hc]

theorem itof (x' : Pre) (ch' : Bool) (t' : FTy) (d' : BitVec 7) (a' : BitVec 7) (h' : BitVec 3) (s' : BitVec 4) : Statement (.itof x' ch' t' d' a' h' s') := by
  let w := cellV s' <| cellV h' <| cellV a' <| cellV d' <| cellN 11 4 <| cellN (24 + t'.code) 6 <| cellB ch' 0
  have hc : 24 + t'.code < 64 := by have := t'.code_lt; omega
  have hm : fld w 25 6 = 24 + t'.code := by simp only [w, hc, Nat.reducePow, Nat.reduceLeDiff, Nat.reduceSub, Nat.reduceLT, fld_zero, fld_cellV, fld_cellB, fld_cellN, fld_cellN_low]
  have hn : fld w 21 4 = 11 := by simp only [w, hc, Nat.reducePow, Nat.reduceLeDiff, Nat.reduceSub, Nat.reduceLT, fld_zero, fld_cellV, fld_cellB, fld_cellN, fld_cellN_low]
  refine of_base _ x' w rfl rfl ?_ (by rw [hm]; omega)
  rw [base_FloatA_FTy_24 _ _ t' hm]
  unfold decodeFloatA
  rw [hn]
  first | (simp only [w, hc, Nat.reducePow, Nat.reduceLeDiff, Nat.reduceSub, Nat.reduceLT, Nat.add_sub_cancel_left, Nat.le_add_right, and_true, true_and, and_self, ↓reduceIte, fld_zero, fld_cellV, fld_cellB, fld_cellN, bvf_cellV, bvf_cellB, bvf_cellN, bit_cellV, bit_cellB, bit_cellN, fld_cellN_low, fld_cellB_low, fld_cellV_low, bvf_cellV_low, bit_cellB_low, fld_cellN_ne, fld_cellN_part, FTy.ofCode_code]; done) | simp [w, hc]

theorem fscale (x' : Pre) (ch' : Bool) (t' : FTy) (d' : BitVec 7) (a' : BitVec 7) (b' : BitVec 7) : Statement (.fscale x' ch' t' d' a' b') := by
  let w := cellV b' <| cellV a' <| cellV d' <| cellN 12 4 <| cellN (24 + t'.code) 6 <| cellB ch' 0
  have hc : 24 + t'.code < 64 := by have := t'.code_lt; omega
  have hm : fld w 25 6 = 24 + t'.code := by simp only [w, hc, Nat.reducePow, Nat.reduceLeDiff, Nat.reduceSub, Nat.reduceLT, fld_zero, fld_cellV, fld_cellB, fld_cellN, fld_cellN_low]
  have hn : fld w 21 4 = 12 := by simp only [w, hc, Nat.reducePow, Nat.reduceLeDiff, Nat.reduceSub, Nat.reduceLT, fld_zero, fld_cellV, fld_cellB, fld_cellN, fld_cellN_low]
  refine of_base _ x' w rfl rfl ?_ (by rw [hm]; omega)
  rw [base_FloatA_FTy_24 _ _ t' hm]
  unfold decodeFloatA
  rw [hn]
  first | (simp only [w, hc, Nat.reducePow, Nat.reduceLeDiff, Nat.reduceSub, Nat.reduceLT, Nat.add_sub_cancel_left, Nat.le_add_right, and_true, true_and, and_self, ↓reduceIte, fld_zero, fld_cellV, fld_cellB, fld_cellN, bvf_cellV, bvf_cellB, bvf_cellN, bit_cellV, bit_cellB, bit_cellN, fld_cellN_low, fld_cellB_low, fld_cellV_low, bvf_cellV_low, bit_cellB_low, fld_cellN_ne, fld_cellN_part, FTy.ofCode_code]; done) | simp [w, hc]

theorem fdot2 (x' : Pre) (ch' : Bool) (t' : FTy) (d' : BitVec 7) (a' : BitVec 7) (b' : BitVec 7) : Statement (.fdot2 x' ch' t' d' a' b') := by
  let w := cellV b' <| cellV a' <| cellV d' <| cellN 13 4 <| cellN (24 + t'.code) 6 <| cellB ch' 0
  have hc : 24 + t'.code < 64 := by have := t'.code_lt; omega
  have hm : fld w 25 6 = 24 + t'.code := by simp only [w, hc, Nat.reducePow, Nat.reduceLeDiff, Nat.reduceSub, Nat.reduceLT, fld_zero, fld_cellV, fld_cellB, fld_cellN, fld_cellN_low]
  have hn : fld w 21 4 = 13 := by simp only [w, hc, Nat.reducePow, Nat.reduceLeDiff, Nat.reduceSub, Nat.reduceLT, fld_zero, fld_cellV, fld_cellB, fld_cellN, fld_cellN_low]
  refine of_base _ x' w rfl rfl ?_ (by rw [hm]; omega)
  rw [base_FloatA_FTy_24 _ _ t' hm]
  unfold decodeFloatA
  rw [hn]
  first | (simp only [w, hc, Nat.reducePow, Nat.reduceLeDiff, Nat.reduceSub, Nat.reduceLT, Nat.add_sub_cancel_left, Nat.le_add_right, and_true, true_and, and_self, ↓reduceIte, fld_zero, fld_cellV, fld_cellB, fld_cellN, bvf_cellV, bvf_cellB, bvf_cellN, bit_cellV, bit_cellB, bit_cellN, fld_cellN_low, fld_cellB_low, fld_cellV_low, bvf_cellV_low, bit_cellB_low, fld_cellN_ne, fld_cellN_part, FTy.ofCode_code]; done) | simp [w, hc]

theorem fdot4 (x' : Pre) (ch' : Bool) (t' : HTy) (d' : BitVec 7) (a' : BitVec 7) (b' : BitVec 7) : Statement (.fdot4 x' ch' t' d' a' b') := by
  let w := cellV b' <| cellV a' <| cellV d' <| cellN 14 4 <| cellN (26 + t'.code) 6 <| cellB ch' 0
  have hc : 26 + t'.code < 64 := by have := t'.code_lt; omega
  have hm : fld w 25 6 = 26 + t'.code := by simp only [w, hc, Nat.reducePow, Nat.reduceLeDiff, Nat.reduceSub, Nat.reduceLT, fld_zero, fld_cellV, fld_cellB, fld_cellN, fld_cellN_low]
  have hn : fld w 21 4 = 14 := by simp only [w, hc, Nat.reducePow, Nat.reduceLeDiff, Nat.reduceSub, Nat.reduceLT, fld_zero, fld_cellV, fld_cellB, fld_cellN, fld_cellN_low]
  refine of_base _ x' w rfl rfl ?_ (by rw [hm]; omega)
  rw [base_FloatA_HTy_26 _ _ t' hm]
  unfold decodeFloatA
  rw [hn]
  first | (simp only [w, hc, Nat.reducePow, Nat.reduceLeDiff, Nat.reduceSub, Nat.reduceLT, Nat.add_sub_cancel_left, Nat.le_add_right, and_true, true_and, and_self, ↓reduceIte, fld_zero, fld_cellV, fld_cellB, fld_cellN, bvf_cellV, bvf_cellB, bvf_cellN, bit_cellV, bit_cellB, bit_cellN, fld_cellN_low, fld_cellB_low, fld_cellV_low, bvf_cellV_low, bit_cellB_low, fld_cellN_ne, fld_cellN_part, HTy.ofCode_code]; done) | simp [w, hc]

theorem fdiv (x' : Pre) (ch' : Bool) (t' : FTy) (d' : BitVec 7) (a' : BitVec 7) (b' : BitVec 7) : Statement (.fdiv x' ch' t' d' a' b') := by
  let w := cellV b' <| cellV a' <| cellV d' <| cellN 0 4 <| cellN (28 + t'.code) 6 <| cellB ch' 0
  have hc : 28 + t'.code < 64 := by have := t'.code_lt; omega
  have hm : fld w 25 6 = 28 + t'.code := by simp only [w, hc, Nat.reducePow, Nat.reduceLeDiff, Nat.reduceSub, Nat.reduceLT, fld_zero, fld_cellV, fld_cellB, fld_cellN, fld_cellN_low]
  have hn : fld w 21 4 = 0 := by simp only [w, hc, Nat.reducePow, Nat.reduceLeDiff, Nat.reduceSub, Nat.reduceLT, fld_zero, fld_cellV, fld_cellB, fld_cellN, fld_cellN_low]
  refine of_base _ x' w rfl rfl ?_ (by rw [hm]; omega)
  rw [base_FloatX_FTy_28 _ _ t' hm]
  unfold decodeFloatX
  rw [hn]
  first | (simp only [w, hc, Nat.reducePow, Nat.reduceLeDiff, Nat.reduceSub, Nat.reduceLT, Nat.add_sub_cancel_left, Nat.le_add_right, and_true, true_and, and_self, ↓reduceIte, fld_zero, fld_cellV, fld_cellB, fld_cellN, bvf_cellV, bvf_cellB, bvf_cellN, bit_cellV, bit_cellB, bit_cellN, fld_cellN_low, fld_cellB_low, fld_cellV_low, bvf_cellV_low, bit_cellB_low, fld_cellN_ne, fld_cellN_part, FTy.ofCode_code]; done) | simp [w, hc]

theorem frcp (x' : Pre) (ch' : Bool) (t' : FTy) (d' : BitVec 7) (a' : BitVec 7) : Statement (.frcp x' ch' t' d' a') := by
  let w := cellN 0 7 <| cellV a' <| cellV d' <| cellN 1 4 <| cellN (28 + t'.code) 6 <| cellB ch' 0
  have hc : 28 + t'.code < 64 := by have := t'.code_lt; omega
  have hm : fld w 25 6 = 28 + t'.code := by simp only [w, hc, Nat.reducePow, Nat.reduceLeDiff, Nat.reduceSub, Nat.reduceLT, fld_zero, fld_cellV, fld_cellB, fld_cellN, fld_cellN_low]
  have hn : fld w 21 4 = 1 := by simp only [w, hc, Nat.reducePow, Nat.reduceLeDiff, Nat.reduceSub, Nat.reduceLT, fld_zero, fld_cellV, fld_cellB, fld_cellN, fld_cellN_low]
  refine of_base _ x' w rfl rfl ?_ (by rw [hm]; omega)
  rw [base_FloatX_FTy_28 _ _ t' hm]
  unfold decodeFloatX
  rw [hn]
  first | (simp only [w, hc, Nat.reducePow, Nat.reduceLeDiff, Nat.reduceSub, Nat.reduceLT, Nat.add_sub_cancel_left, Nat.le_add_right, and_true, true_and, and_self, ↓reduceIte, fld_zero, fld_cellV, fld_cellB, fld_cellN, bvf_cellV, bvf_cellB, bvf_cellN, bit_cellV, bit_cellB, bit_cellN, fld_cellN_low, fld_cellB_low, fld_cellV_low, bvf_cellV_low, bit_cellB_low, fld_cellN_ne, fld_cellN_part, FTy.ofCode_code]; done) | simp [w, hc]

theorem frsq (x' : Pre) (ch' : Bool) (t' : FTy) (d' : BitVec 7) (a' : BitVec 7) : Statement (.frsq x' ch' t' d' a') := by
  let w := cellN 0 7 <| cellV a' <| cellV d' <| cellN 2 4 <| cellN (28 + t'.code) 6 <| cellB ch' 0
  have hc : 28 + t'.code < 64 := by have := t'.code_lt; omega
  have hm : fld w 25 6 = 28 + t'.code := by simp only [w, hc, Nat.reducePow, Nat.reduceLeDiff, Nat.reduceSub, Nat.reduceLT, fld_zero, fld_cellV, fld_cellB, fld_cellN, fld_cellN_low]
  have hn : fld w 21 4 = 2 := by simp only [w, hc, Nat.reducePow, Nat.reduceLeDiff, Nat.reduceSub, Nat.reduceLT, fld_zero, fld_cellV, fld_cellB, fld_cellN, fld_cellN_low]
  refine of_base _ x' w rfl rfl ?_ (by rw [hm]; omega)
  rw [base_FloatX_FTy_28 _ _ t' hm]
  unfold decodeFloatX
  rw [hn]
  first | (simp only [w, hc, Nat.reducePow, Nat.reduceLeDiff, Nat.reduceSub, Nat.reduceLT, Nat.add_sub_cancel_left, Nat.le_add_right, and_true, true_and, and_self, ↓reduceIte, fld_zero, fld_cellV, fld_cellB, fld_cellN, bvf_cellV, bvf_cellB, bvf_cellN, bit_cellV, bit_cellB, bit_cellN, fld_cellN_low, fld_cellB_low, fld_cellV_low, bvf_cellV_low, bit_cellB_low, fld_cellN_ne, fld_cellN_part, FTy.ofCode_code]; done) | simp [w, hc]

theorem fsqrt (x' : Pre) (ch' : Bool) (t' : FTy) (d' : BitVec 7) (a' : BitVec 7) : Statement (.fsqrt x' ch' t' d' a') := by
  let w := cellN 0 7 <| cellV a' <| cellV d' <| cellN 3 4 <| cellN (28 + t'.code) 6 <| cellB ch' 0
  have hc : 28 + t'.code < 64 := by have := t'.code_lt; omega
  have hm : fld w 25 6 = 28 + t'.code := by simp only [w, hc, Nat.reducePow, Nat.reduceLeDiff, Nat.reduceSub, Nat.reduceLT, fld_zero, fld_cellV, fld_cellB, fld_cellN, fld_cellN_low]
  have hn : fld w 21 4 = 3 := by simp only [w, hc, Nat.reducePow, Nat.reduceLeDiff, Nat.reduceSub, Nat.reduceLT, fld_zero, fld_cellV, fld_cellB, fld_cellN, fld_cellN_low]
  refine of_base _ x' w rfl rfl ?_ (by rw [hm]; omega)
  rw [base_FloatX_FTy_28 _ _ t' hm]
  unfold decodeFloatX
  rw [hn]
  first | (simp only [w, hc, Nat.reducePow, Nat.reduceLeDiff, Nat.reduceSub, Nat.reduceLT, Nat.add_sub_cancel_left, Nat.le_add_right, and_true, true_and, and_self, ↓reduceIte, fld_zero, fld_cellV, fld_cellB, fld_cellN, bvf_cellV, bvf_cellB, bvf_cellN, bit_cellV, bit_cellB, bit_cellN, fld_cellN_low, fld_cellB_low, fld_cellV_low, bvf_cellV_low, bit_cellB_low, fld_cellN_ne, fld_cellN_part, FTy.ofCode_code]; done) | simp [w, hc]

theorem fexp2 (x' : Pre) (ch' : Bool) (t' : FTy) (d' : BitVec 7) (a' : BitVec 7) : Statement (.fexp2 x' ch' t' d' a') := by
  let w := cellN 0 7 <| cellV a' <| cellV d' <| cellN 4 4 <| cellN (28 + t'.code) 6 <| cellB ch' 0
  have hc : 28 + t'.code < 64 := by have := t'.code_lt; omega
  have hm : fld w 25 6 = 28 + t'.code := by simp only [w, hc, Nat.reducePow, Nat.reduceLeDiff, Nat.reduceSub, Nat.reduceLT, fld_zero, fld_cellV, fld_cellB, fld_cellN, fld_cellN_low]
  have hn : fld w 21 4 = 4 := by simp only [w, hc, Nat.reducePow, Nat.reduceLeDiff, Nat.reduceSub, Nat.reduceLT, fld_zero, fld_cellV, fld_cellB, fld_cellN, fld_cellN_low]
  refine of_base _ x' w rfl rfl ?_ (by rw [hm]; omega)
  rw [base_FloatX_FTy_28 _ _ t' hm]
  unfold decodeFloatX
  rw [hn]
  first | (simp only [w, hc, Nat.reducePow, Nat.reduceLeDiff, Nat.reduceSub, Nat.reduceLT, Nat.add_sub_cancel_left, Nat.le_add_right, and_true, true_and, and_self, ↓reduceIte, fld_zero, fld_cellV, fld_cellB, fld_cellN, bvf_cellV, bvf_cellB, bvf_cellN, bit_cellV, bit_cellB, bit_cellN, fld_cellN_low, fld_cellB_low, fld_cellV_low, bvf_cellV_low, bit_cellB_low, fld_cellN_ne, fld_cellN_part, FTy.ofCode_code]; done) | simp [w, hc]

theorem flog2 (x' : Pre) (ch' : Bool) (t' : FTy) (d' : BitVec 7) (a' : BitVec 7) : Statement (.flog2 x' ch' t' d' a') := by
  let w := cellN 0 7 <| cellV a' <| cellV d' <| cellN 5 4 <| cellN (28 + t'.code) 6 <| cellB ch' 0
  have hc : 28 + t'.code < 64 := by have := t'.code_lt; omega
  have hm : fld w 25 6 = 28 + t'.code := by simp only [w, hc, Nat.reducePow, Nat.reduceLeDiff, Nat.reduceSub, Nat.reduceLT, fld_zero, fld_cellV, fld_cellB, fld_cellN, fld_cellN_low]
  have hn : fld w 21 4 = 5 := by simp only [w, hc, Nat.reducePow, Nat.reduceLeDiff, Nat.reduceSub, Nat.reduceLT, fld_zero, fld_cellV, fld_cellB, fld_cellN, fld_cellN_low]
  refine of_base _ x' w rfl rfl ?_ (by rw [hm]; omega)
  rw [base_FloatX_FTy_28 _ _ t' hm]
  unfold decodeFloatX
  rw [hn]
  first | (simp only [w, hc, Nat.reducePow, Nat.reduceLeDiff, Nat.reduceSub, Nat.reduceLT, Nat.add_sub_cancel_left, Nat.le_add_right, and_true, true_and, and_self, ↓reduceIte, fld_zero, fld_cellV, fld_cellB, fld_cellN, bvf_cellV, bvf_cellB, bvf_cellN, bit_cellV, bit_cellB, bit_cellN, fld_cellN_low, fld_cellB_low, fld_cellV_low, bvf_cellV_low, bit_cellB_low, fld_cellN_ne, fld_cellN_part, FTy.ofCode_code]; done) | simp [w, hc]

theorem fsin (x' : Pre) (ch' : Bool) (t' : FTy) (d' : BitVec 7) (a' : BitVec 7) : Statement (.fsin x' ch' t' d' a') := by
  let w := cellN 0 7 <| cellV a' <| cellV d' <| cellN 6 4 <| cellN (28 + t'.code) 6 <| cellB ch' 0
  have hc : 28 + t'.code < 64 := by have := t'.code_lt; omega
  have hm : fld w 25 6 = 28 + t'.code := by simp only [w, hc, Nat.reducePow, Nat.reduceLeDiff, Nat.reduceSub, Nat.reduceLT, fld_zero, fld_cellV, fld_cellB, fld_cellN, fld_cellN_low]
  have hn : fld w 21 4 = 6 := by simp only [w, hc, Nat.reducePow, Nat.reduceLeDiff, Nat.reduceSub, Nat.reduceLT, fld_zero, fld_cellV, fld_cellB, fld_cellN, fld_cellN_low]
  refine of_base _ x' w rfl rfl ?_ (by rw [hm]; omega)
  rw [base_FloatX_FTy_28 _ _ t' hm]
  unfold decodeFloatX
  rw [hn]
  first | (simp only [w, hc, Nat.reducePow, Nat.reduceLeDiff, Nat.reduceSub, Nat.reduceLT, Nat.add_sub_cancel_left, Nat.le_add_right, and_true, true_and, and_self, ↓reduceIte, fld_zero, fld_cellV, fld_cellB, fld_cellN, bvf_cellV, bvf_cellB, bvf_cellN, bit_cellV, bit_cellB, bit_cellN, fld_cellN_low, fld_cellB_low, fld_cellV_low, bvf_cellV_low, bit_cellB_low, fld_cellN_ne, fld_cellN_part, FTy.ofCode_code]; done) | simp [w, hc]

theorem fcos (x' : Pre) (ch' : Bool) (t' : FTy) (d' : BitVec 7) (a' : BitVec 7) : Statement (.fcos x' ch' t' d' a') := by
  let w := cellN 0 7 <| cellV a' <| cellV d' <| cellN 7 4 <| cellN (28 + t'.code) 6 <| cellB ch' 0
  have hc : 28 + t'.code < 64 := by have := t'.code_lt; omega
  have hm : fld w 25 6 = 28 + t'.code := by simp only [w, hc, Nat.reducePow, Nat.reduceLeDiff, Nat.reduceSub, Nat.reduceLT, fld_zero, fld_cellV, fld_cellB, fld_cellN, fld_cellN_low]
  have hn : fld w 21 4 = 7 := by simp only [w, hc, Nat.reducePow, Nat.reduceLeDiff, Nat.reduceSub, Nat.reduceLT, fld_zero, fld_cellV, fld_cellB, fld_cellN, fld_cellN_low]
  refine of_base _ x' w rfl rfl ?_ (by rw [hm]; omega)
  rw [base_FloatX_FTy_28 _ _ t' hm]
  unfold decodeFloatX
  rw [hn]
  first | (simp only [w, hc, Nat.reducePow, Nat.reduceLeDiff, Nat.reduceSub, Nat.reduceLT, Nat.add_sub_cancel_left, Nat.le_add_right, and_true, true_and, and_self, ↓reduceIte, fld_zero, fld_cellV, fld_cellB, fld_cellN, bvf_cellV, bvf_cellB, bvf_cellN, bit_cellV, bit_cellB, bit_cellN, fld_cellN_low, fld_cellB_low, fld_cellV_low, bvf_cellV_low, bit_cellB_low, fld_cellN_ne, fld_cellN_part, FTy.ofCode_code]; done) | simp [w, hc]

theorem ftanh (x' : Pre) (ch' : Bool) (t' : FTy) (d' : BitVec 7) (a' : BitVec 7) : Statement (.ftanh x' ch' t' d' a') := by
  let w := cellN 0 7 <| cellV a' <| cellV d' <| cellN 8 4 <| cellN (28 + t'.code) 6 <| cellB ch' 0
  have hc : 28 + t'.code < 64 := by have := t'.code_lt; omega
  have hm : fld w 25 6 = 28 + t'.code := by simp only [w, hc, Nat.reducePow, Nat.reduceLeDiff, Nat.reduceSub, Nat.reduceLT, fld_zero, fld_cellV, fld_cellB, fld_cellN, fld_cellN_low]
  have hn : fld w 21 4 = 8 := by simp only [w, hc, Nat.reducePow, Nat.reduceLeDiff, Nat.reduceSub, Nat.reduceLT, fld_zero, fld_cellV, fld_cellB, fld_cellN, fld_cellN_low]
  refine of_base _ x' w rfl rfl ?_ (by rw [hm]; omega)
  rw [base_FloatX_FTy_28 _ _ t' hm]
  unfold decodeFloatX
  rw [hn]
  first | (simp only [w, hc, Nat.reducePow, Nat.reduceLeDiff, Nat.reduceSub, Nat.reduceLT, Nat.add_sub_cancel_left, Nat.le_add_right, and_true, true_and, and_self, ↓reduceIte, fld_zero, fld_cellV, fld_cellB, fld_cellN, bvf_cellV, bvf_cellB, bvf_cellN, bit_cellV, bit_cellB, bit_cellN, fld_cellN_low, fld_cellB_low, fld_cellV_low, bvf_cellV_low, bit_cellB_low, fld_cellN_ne, fld_cellN_part, FTy.ofCode_code]; done) | simp [w, hc]

theorem fpackTf8 (x' : Pre) (ch' : Bool) (t' : FTy) (d' : BitVec 7) (a' : BitVec 7) (h' : BitVec 3) : Statement (.fpackTf8 x' ch' t' d' a' h') := by
  let w := cellV h' <| cellN 0 4 <| cellV a' <| cellV d' <| cellN 9 4 <| cellN (28 + t'.code) 6 <| cellB ch' 0
  have hc : 28 + t'.code < 64 := by have := t'.code_lt; omega
  have hm : fld w 25 6 = 28 + t'.code := by simp only [w, hc, Nat.reducePow, Nat.reduceLeDiff, Nat.reduceSub, Nat.reduceLT, fld_zero, fld_cellV, fld_cellB, fld_cellN, fld_cellN_low]
  have hn : fld w 21 4 = 9 := by simp only [w, hc, Nat.reducePow, Nat.reduceLeDiff, Nat.reduceSub, Nat.reduceLT, fld_zero, fld_cellV, fld_cellB, fld_cellN, fld_cellN_low]
  refine of_base _ x' w rfl rfl ?_ (by rw [hm]; omega)
  rw [base_FloatX_FTy_28 _ _ t' hm]
  unfold decodeFloatX
  rw [hn]
  first | (simp only [w, hc, Nat.reducePow, Nat.reduceLeDiff, Nat.reduceSub, Nat.reduceLT, Nat.add_sub_cancel_left, Nat.le_add_right, and_true, true_and, and_self, ↓reduceIte, fld_zero, fld_cellV, fld_cellB, fld_cellN, bvf_cellV, bvf_cellB, bvf_cellN, bit_cellV, bit_cellB, bit_cellN, fld_cellN_low, fld_cellB_low, fld_cellV_low, bvf_cellV_low, bit_cellB_low, fld_cellN_ne, fld_cellN_part, FTy.ofCode_code]; done) | simp [w, hc]

theorem fpackTf6 (x' : Pre) (ch' : Bool) (t' : FTy) (d' : BitVec 7) (a' : BitVec 7) (h' : BitVec 3) : Statement (.fpackTf6 x' ch' t' d' a' h') := by
  let w := cellV h' <| cellN 0 4 <| cellV a' <| cellV d' <| cellN 10 4 <| cellN (28 + t'.code) 6 <| cellB ch' 0
  have hc : 28 + t'.code < 64 := by have := t'.code_lt; omega
  have hm : fld w 25 6 = 28 + t'.code := by simp only [w, hc, Nat.reducePow, Nat.reduceLeDiff, Nat.reduceSub, Nat.reduceLT, fld_zero, fld_cellV, fld_cellB, fld_cellN, fld_cellN_low]
  have hn : fld w 21 4 = 10 := by simp only [w, hc, Nat.reducePow, Nat.reduceLeDiff, Nat.reduceSub, Nat.reduceLT, fld_zero, fld_cellV, fld_cellB, fld_cellN, fld_cellN_low]
  refine of_base _ x' w rfl rfl ?_ (by rw [hm]; omega)
  rw [base_FloatX_FTy_28 _ _ t' hm]
  unfold decodeFloatX
  rw [hn]
  first | (simp only [w, hc, Nat.reducePow, Nat.reduceLeDiff, Nat.reduceSub, Nat.reduceLT, Nat.add_sub_cancel_left, Nat.le_add_right, and_true, true_and, and_self, ↓reduceIte, fld_zero, fld_cellV, fld_cellB, fld_cellN, bvf_cellV, bvf_cellB, bvf_cellN, bit_cellV, bit_cellB, bit_cellN, fld_cellN_low, fld_cellB_low, fld_cellV_low, bvf_cellV_low, bit_cellB_low, fld_cellN_ne, fld_cellN_part, FTy.ofCode_code]; done) | simp [w, hc]

theorem funpackTf8 (x' : Pre) (ch' : Bool) (t' : FTy) (d' : BitVec 7) (a' : BitVec 7) (h' : BitVec 3) : Statement (.funpackTf8 x' ch' t' d' a' h') := by
  let w := cellV h' <| cellN 0 4 <| cellV a' <| cellV d' <| cellN 11 4 <| cellN (28 + t'.code) 6 <| cellB ch' 0
  have hc : 28 + t'.code < 64 := by have := t'.code_lt; omega
  have hm : fld w 25 6 = 28 + t'.code := by simp only [w, hc, Nat.reducePow, Nat.reduceLeDiff, Nat.reduceSub, Nat.reduceLT, fld_zero, fld_cellV, fld_cellB, fld_cellN, fld_cellN_low]
  have hn : fld w 21 4 = 11 := by simp only [w, hc, Nat.reducePow, Nat.reduceLeDiff, Nat.reduceSub, Nat.reduceLT, fld_zero, fld_cellV, fld_cellB, fld_cellN, fld_cellN_low]
  refine of_base _ x' w rfl rfl ?_ (by rw [hm]; omega)
  rw [base_FloatX_FTy_28 _ _ t' hm]
  unfold decodeFloatX
  rw [hn]
  first | (simp only [w, hc, Nat.reducePow, Nat.reduceLeDiff, Nat.reduceSub, Nat.reduceLT, Nat.add_sub_cancel_left, Nat.le_add_right, and_true, true_and, and_self, ↓reduceIte, fld_zero, fld_cellV, fld_cellB, fld_cellN, bvf_cellV, bvf_cellB, bvf_cellN, bit_cellV, bit_cellB, bit_cellN, fld_cellN_low, fld_cellB_low, fld_cellV_low, bvf_cellV_low, bit_cellB_low, fld_cellN_ne, fld_cellN_part, FTy.ofCode_code]; done) | simp [w, hc]

theorem funpackTf6 (x' : Pre) (ch' : Bool) (t' : FTy) (d' : BitVec 7) (a' : BitVec 7) (h' : BitVec 3) : Statement (.funpackTf6 x' ch' t' d' a' h') := by
  let w := cellV h' <| cellN 0 4 <| cellV a' <| cellV d' <| cellN 12 4 <| cellN (28 + t'.code) 6 <| cellB ch' 0
  have hc : 28 + t'.code < 64 := by have := t'.code_lt; omega
  have hm : fld w 25 6 = 28 + t'.code := by simp only [w, hc, Nat.reducePow, Nat.reduceLeDiff, Nat.reduceSub, Nat.reduceLT, fld_zero, fld_cellV, fld_cellB, fld_cellN, fld_cellN_low]
  have hn : fld w 21 4 = 12 := by simp only [w, hc, Nat.reducePow, Nat.reduceLeDiff, Nat.reduceSub, Nat.reduceLT, fld_zero, fld_cellV, fld_cellB, fld_cellN, fld_cellN_low]
  refine of_base _ x' w rfl rfl ?_ (by rw [hm]; omega)
  rw [base_FloatX_FTy_28 _ _ t' hm]
  unfold decodeFloatX
  rw [hn]
  first | (simp only [w, hc, Nat.reducePow, Nat.reduceLeDiff, Nat.reduceSub, Nat.reduceLT, Nat.add_sub_cancel_left, Nat.le_add_right, and_true, true_and, and_self, ↓reduceIte, fld_zero, fld_cellV, fld_cellB, fld_cellN, bvf_cellV, bvf_cellB, bvf_cellN, bit_cellV, bit_cellB, bit_cellN, fld_cellN_low, fld_cellB_low, fld_cellV_low, bvf_cellV_low, bit_cellB_low, fld_cellN_ne, fld_cellN_part, FTy.ofCode_code]; done) | simp [w, hc]

theorem shflIdx (x' : Pre) (ch' : Bool) (t' : WTy) (d' : BitVec 7) (a' : BitVec 7) (b' : BitVec 7) : Statement (.shflIdx x' ch' t' d' a' b') := by
  let w := cellV b' <| cellV a' <| cellV d' <| cellN 0 4 <| cellN (32 + t'.code) 6 <| cellB ch' 0
  have hc : 32 + t'.code < 64 := by have := t'.code_lt; omega
  have hm : fld w 25 6 = 32 + t'.code := by simp only [w, hc, Nat.reducePow, Nat.reduceLeDiff, Nat.reduceSub, Nat.reduceLT, fld_zero, fld_cellV, fld_cellB, fld_cellN, fld_cellN_low]
  have hn : fld w 21 4 = 0 := by simp only [w, hc, Nat.reducePow, Nat.reduceLeDiff, Nat.reduceSub, Nat.reduceLT, fld_zero, fld_cellV, fld_cellB, fld_cellN, fld_cellN_low]
  refine of_base _ x' w rfl rfl ?_ (by rw [hm]; omega)
  rw [base_Lane_WTy_32 _ _ t' hm]
  unfold decodeLane
  rw [hn]
  first | (simp only [w, hc, Nat.reducePow, Nat.reduceLeDiff, Nat.reduceSub, Nat.reduceLT, Nat.add_sub_cancel_left, Nat.le_add_right, and_true, true_and, and_self, ↓reduceIte, fld_zero, fld_cellV, fld_cellB, fld_cellN, bvf_cellV, bvf_cellB, bvf_cellN, bit_cellV, bit_cellB, bit_cellN, fld_cellN_low, fld_cellB_low, fld_cellV_low, bvf_cellV_low, bit_cellB_low, fld_cellN_ne, fld_cellN_part, WTy.ofCode_code]; done) | simp [w, hc]

theorem shflUp (x' : Pre) (ch' : Bool) (t' : WTy) (d' : BitVec 7) (a' : BitVec 7) (b' : BitVec 7) : Statement (.shflUp x' ch' t' d' a' b') := by
  let w := cellV b' <| cellV a' <| cellV d' <| cellN 1 4 <| cellN (32 + t'.code) 6 <| cellB ch' 0
  have hc : 32 + t'.code < 64 := by have := t'.code_lt; omega
  have hm : fld w 25 6 = 32 + t'.code := by simp only [w, hc, Nat.reducePow, Nat.reduceLeDiff, Nat.reduceSub, Nat.reduceLT, fld_zero, fld_cellV, fld_cellB, fld_cellN, fld_cellN_low]
  have hn : fld w 21 4 = 1 := by simp only [w, hc, Nat.reducePow, Nat.reduceLeDiff, Nat.reduceSub, Nat.reduceLT, fld_zero, fld_cellV, fld_cellB, fld_cellN, fld_cellN_low]
  refine of_base _ x' w rfl rfl ?_ (by rw [hm]; omega)
  rw [base_Lane_WTy_32 _ _ t' hm]
  unfold decodeLane
  rw [hn]
  first | (simp only [w, hc, Nat.reducePow, Nat.reduceLeDiff, Nat.reduceSub, Nat.reduceLT, Nat.add_sub_cancel_left, Nat.le_add_right, and_true, true_and, and_self, ↓reduceIte, fld_zero, fld_cellV, fld_cellB, fld_cellN, bvf_cellV, bvf_cellB, bvf_cellN, bit_cellV, bit_cellB, bit_cellN, fld_cellN_low, fld_cellB_low, fld_cellV_low, bvf_cellV_low, bit_cellB_low, fld_cellN_ne, fld_cellN_part, WTy.ofCode_code]; done) | simp [w, hc]

theorem shflDown (x' : Pre) (ch' : Bool) (t' : WTy) (d' : BitVec 7) (a' : BitVec 7) (b' : BitVec 7) : Statement (.shflDown x' ch' t' d' a' b') := by
  let w := cellV b' <| cellV a' <| cellV d' <| cellN 2 4 <| cellN (32 + t'.code) 6 <| cellB ch' 0
  have hc : 32 + t'.code < 64 := by have := t'.code_lt; omega
  have hm : fld w 25 6 = 32 + t'.code := by simp only [w, hc, Nat.reducePow, Nat.reduceLeDiff, Nat.reduceSub, Nat.reduceLT, fld_zero, fld_cellV, fld_cellB, fld_cellN, fld_cellN_low]
  have hn : fld w 21 4 = 2 := by simp only [w, hc, Nat.reducePow, Nat.reduceLeDiff, Nat.reduceSub, Nat.reduceLT, fld_zero, fld_cellV, fld_cellB, fld_cellN, fld_cellN_low]
  refine of_base _ x' w rfl rfl ?_ (by rw [hm]; omega)
  rw [base_Lane_WTy_32 _ _ t' hm]
  unfold decodeLane
  rw [hn]
  first | (simp only [w, hc, Nat.reducePow, Nat.reduceLeDiff, Nat.reduceSub, Nat.reduceLT, Nat.add_sub_cancel_left, Nat.le_add_right, and_true, true_and, and_self, ↓reduceIte, fld_zero, fld_cellV, fld_cellB, fld_cellN, bvf_cellV, bvf_cellB, bvf_cellN, bit_cellV, bit_cellB, bit_cellN, fld_cellN_low, fld_cellB_low, fld_cellV_low, bvf_cellV_low, bit_cellB_low, fld_cellN_ne, fld_cellN_part, WTy.ofCode_code]; done) | simp [w, hc]

theorem shflXor (x' : Pre) (ch' : Bool) (t' : WTy) (d' : BitVec 7) (a' : BitVec 7) (b' : BitVec 7) : Statement (.shflXor x' ch' t' d' a' b') := by
  let w := cellV b' <| cellV a' <| cellV d' <| cellN 3 4 <| cellN (32 + t'.code) 6 <| cellB ch' 0
  have hc : 32 + t'.code < 64 := by have := t'.code_lt; omega
  have hm : fld w 25 6 = 32 + t'.code := by simp only [w, hc, Nat.reducePow, Nat.reduceLeDiff, Nat.reduceSub, Nat.reduceLT, fld_zero, fld_cellV, fld_cellB, fld_cellN, fld_cellN_low]
  have hn : fld w 21 4 = 3 := by simp only [w, hc, Nat.reducePow, Nat.reduceLeDiff, Nat.reduceSub, Nat.reduceLT, fld_zero, fld_cellV, fld_cellB, fld_cellN, fld_cellN_low]
  refine of_base _ x' w rfl rfl ?_ (by rw [hm]; omega)
  rw [base_Lane_WTy_32 _ _ t' hm]
  unfold decodeLane
  rw [hn]
  first | (simp only [w, hc, Nat.reducePow, Nat.reduceLeDiff, Nat.reduceSub, Nat.reduceLT, Nat.add_sub_cancel_left, Nat.le_add_right, and_true, true_and, and_self, ↓reduceIte, fld_zero, fld_cellV, fld_cellB, fld_cellN, bvf_cellV, bvf_cellB, bvf_cellN, bit_cellV, bit_cellB, bit_cellN, fld_cellN_low, fld_cellB_low, fld_cellV_low, bvf_cellV_low, bit_cellB_low, fld_cellN_ne, fld_cellN_part, WTy.ofCode_code]; done) | simp [w, hc]

theorem voteAll (x' : Pre) (ch' : Bool) (p' : BitVec 3) (q' : BitVec 3) : Statement (.voteAll x' ch' p' q') := by
  let w := cellN 0 7 <| cellV q' <| cellN 0 4 <| cellV p' <| cellN 0 4 <| cellN 4 4 <| cellN 35 6 <| cellB ch' 0
  have hm : fld w 25 6 = 35 := by simp only [w, Nat.reducePow, Nat.reduceLeDiff, Nat.reduceSub, Nat.reduceLT, fld_zero, fld_cellV, fld_cellB, fld_cellN, fld_cellN_low]
  have hn : fld w 21 4 = 4 := by simp only [w, Nat.reducePow, Nat.reduceLeDiff, Nat.reduceSub, Nat.reduceLT, fld_zero, fld_cellV, fld_cellB, fld_cellN, fld_cellN_low]
  refine of_base _ x' w rfl rfl ?_ (by rw [hm]; omega)
  rw [base_Lane_35 _ _ hm]
  unfold decodeLane
  rw [hn]
  first | (simp only [w, Nat.reducePow, Nat.reduceLeDiff, Nat.reduceSub, Nat.reduceLT, Nat.add_sub_cancel_left, Nat.le_add_right, and_true, true_and, and_self, ↓reduceIte, fld_zero, fld_cellV, fld_cellB, fld_cellN, bvf_cellV, bvf_cellB, bvf_cellN, bit_cellV, bit_cellB, bit_cellN, fld_cellN_low, fld_cellB_low, fld_cellV_low, bvf_cellV_low, bit_cellB_low, fld_cellN_ne, fld_cellN_part]; done) | simp [w]

theorem voteAny (x' : Pre) (ch' : Bool) (p' : BitVec 3) (q' : BitVec 3) : Statement (.voteAny x' ch' p' q') := by
  let w := cellN 0 7 <| cellV q' <| cellN 0 4 <| cellV p' <| cellN 0 4 <| cellN 5 4 <| cellN 35 6 <| cellB ch' 0
  have hm : fld w 25 6 = 35 := by simp only [w, Nat.reducePow, Nat.reduceLeDiff, Nat.reduceSub, Nat.reduceLT, fld_zero, fld_cellV, fld_cellB, fld_cellN, fld_cellN_low]
  have hn : fld w 21 4 = 5 := by simp only [w, Nat.reducePow, Nat.reduceLeDiff, Nat.reduceSub, Nat.reduceLT, fld_zero, fld_cellV, fld_cellB, fld_cellN, fld_cellN_low]
  refine of_base _ x' w rfl rfl ?_ (by rw [hm]; omega)
  rw [base_Lane_35 _ _ hm]
  unfold decodeLane
  rw [hn]
  first | (simp only [w, Nat.reducePow, Nat.reduceLeDiff, Nat.reduceSub, Nat.reduceLT, Nat.add_sub_cancel_left, Nat.le_add_right, and_true, true_and, and_self, ↓reduceIte, fld_zero, fld_cellV, fld_cellB, fld_cellN, bvf_cellV, bvf_cellB, bvf_cellN, bit_cellV, bit_cellB, bit_cellN, fld_cellN_low, fld_cellB_low, fld_cellV_low, bvf_cellV_low, bit_cellB_low, fld_cellN_ne, fld_cellN_part]; done) | simp [w]

theorem voteBallot (x' : Pre) (ch' : Bool) (d' : BitVec 7) (q' : BitVec 3) : Statement (.voteBallot x' ch' d' q') := by
  let w := cellN 0 7 <| cellV q' <| cellN 0 4 <| cellV d' <| cellN 6 4 <| cellN 35 6 <| cellB ch' 0
  have hm : fld w 25 6 = 35 := by simp only [w, Nat.reducePow, Nat.reduceLeDiff, Nat.reduceSub, Nat.reduceLT, fld_zero, fld_cellV, fld_cellB, fld_cellN, fld_cellN_low]
  have hn : fld w 21 4 = 6 := by simp only [w, Nat.reducePow, Nat.reduceLeDiff, Nat.reduceSub, Nat.reduceLT, fld_zero, fld_cellV, fld_cellB, fld_cellN, fld_cellN_low]
  refine of_base _ x' w rfl rfl ?_ (by rw [hm]; omega)
  rw [base_Lane_35 _ _ hm]
  unfold decodeLane
  rw [hn]
  first | (simp only [w, Nat.reducePow, Nat.reduceLeDiff, Nat.reduceSub, Nat.reduceLT, Nat.add_sub_cancel_left, Nat.le_add_right, and_true, true_and, and_self, ↓reduceIte, fld_zero, fld_cellV, fld_cellB, fld_cellN, bvf_cellV, bvf_cellB, bvf_cellN, bit_cellV, bit_cellB, bit_cellN, fld_cellN_low, fld_cellB_low, fld_cellV_low, bvf_cellV_low, bit_cellB_low, fld_cellN_ne, fld_cellN_part]; done) | simp [w]

theorem matchKey (x' : Pre) (ch' : Bool) (t' : WTy) (d' : BitVec 7) (a' : BitVec 7) (k' : BitVec 7) : Statement (.matchKey x' ch' t' d' a' k') := by
  let w := cellV k' <| cellV a' <| cellV d' <| cellN 7 4 <| cellN (32 + t'.code) 6 <| cellB ch' 0
  have hc : 32 + t'.code < 64 := by have := t'.code_lt; omega
  have hm : fld w 25 6 = 32 + t'.code := by simp only [w, hc, Nat.reducePow, Nat.reduceLeDiff, Nat.reduceSub, Nat.reduceLT, fld_zero, fld_cellV, fld_cellB, fld_cellN, fld_cellN_low]
  have hn : fld w 21 4 = 7 := by simp only [w, hc, Nat.reducePow, Nat.reduceLeDiff, Nat.reduceSub, Nat.reduceLT, fld_zero, fld_cellV, fld_cellB, fld_cellN, fld_cellN_low]
  refine of_base _ x' w rfl rfl ?_ (by rw [hm]; omega)
  rw [base_Lane_WTy_32 _ _ t' hm]
  unfold decodeLane
  rw [hn]
  first | (simp only [w, hc, Nat.reducePow, Nat.reduceLeDiff, Nat.reduceSub, Nat.reduceLT, Nat.add_sub_cancel_left, Nat.le_add_right, and_true, true_and, and_self, ↓reduceIte, fld_zero, fld_cellV, fld_cellB, fld_cellN, bvf_cellV, bvf_cellB, bvf_cellN, bit_cellV, bit_cellB, bit_cellN, fld_cellN_low, fld_cellB_low, fld_cellV_low, bvf_cellV_low, bit_cellB_low, fld_cellN_ne, fld_cellN_part, WTy.ofCode_code]; done) | simp [w, hc]

theorem lredAdd (x' : Pre) (ch' : Bool) (t' : WTy) (d' : BitVec 7) (a' : BitVec 7) : Statement (.lredAdd x' ch' t' d' a') := by
  let w := cellN 0 7 <| cellV a' <| cellV d' <| cellN 8 4 <| cellN (32 + t'.code) 6 <| cellB ch' 0
  have hc : 32 + t'.code < 64 := by have := t'.code_lt; omega
  have hm : fld w 25 6 = 32 + t'.code := by simp only [w, hc, Nat.reducePow, Nat.reduceLeDiff, Nat.reduceSub, Nat.reduceLT, fld_zero, fld_cellV, fld_cellB, fld_cellN, fld_cellN_low]
  have hn : fld w 21 4 = 8 := by simp only [w, hc, Nat.reducePow, Nat.reduceLeDiff, Nat.reduceSub, Nat.reduceLT, fld_zero, fld_cellV, fld_cellB, fld_cellN, fld_cellN_low]
  refine of_base _ x' w rfl rfl ?_ (by rw [hm]; omega)
  rw [base_Lane_WTy_32 _ _ t' hm]
  unfold decodeLane
  rw [hn]
  first | (simp only [w, hc, Nat.reducePow, Nat.reduceLeDiff, Nat.reduceSub, Nat.reduceLT, Nat.add_sub_cancel_left, Nat.le_add_right, and_true, true_and, and_self, ↓reduceIte, fld_zero, fld_cellV, fld_cellB, fld_cellN, bvf_cellV, bvf_cellB, bvf_cellN, bit_cellV, bit_cellB, bit_cellN, fld_cellN_low, fld_cellB_low, fld_cellV_low, bvf_cellV_low, bit_cellB_low, fld_cellN_ne, fld_cellN_part, WTy.ofCode_code]; done) | simp [w, hc]

theorem lredMin (x' : Pre) (ch' : Bool) (t' : WTy) (d' : BitVec 7) (a' : BitVec 7) : Statement (.lredMin x' ch' t' d' a') := by
  let w := cellN 0 7 <| cellV a' <| cellV d' <| cellN 9 4 <| cellN (32 + t'.code) 6 <| cellB ch' 0
  have hc : 32 + t'.code < 64 := by have := t'.code_lt; omega
  have hm : fld w 25 6 = 32 + t'.code := by simp only [w, hc, Nat.reducePow, Nat.reduceLeDiff, Nat.reduceSub, Nat.reduceLT, fld_zero, fld_cellV, fld_cellB, fld_cellN, fld_cellN_low]
  have hn : fld w 21 4 = 9 := by simp only [w, hc, Nat.reducePow, Nat.reduceLeDiff, Nat.reduceSub, Nat.reduceLT, fld_zero, fld_cellV, fld_cellB, fld_cellN, fld_cellN_low]
  refine of_base _ x' w rfl rfl ?_ (by rw [hm]; omega)
  rw [base_Lane_WTy_32 _ _ t' hm]
  unfold decodeLane
  rw [hn]
  first | (simp only [w, hc, Nat.reducePow, Nat.reduceLeDiff, Nat.reduceSub, Nat.reduceLT, Nat.add_sub_cancel_left, Nat.le_add_right, and_true, true_and, and_self, ↓reduceIte, fld_zero, fld_cellV, fld_cellB, fld_cellN, bvf_cellV, bvf_cellB, bvf_cellN, bit_cellV, bit_cellB, bit_cellN, fld_cellN_low, fld_cellB_low, fld_cellV_low, bvf_cellV_low, bit_cellB_low, fld_cellN_ne, fld_cellN_part, WTy.ofCode_code]; done) | simp [w, hc]

theorem lredMax (x' : Pre) (ch' : Bool) (t' : WTy) (d' : BitVec 7) (a' : BitVec 7) : Statement (.lredMax x' ch' t' d' a') := by
  let w := cellN 0 7 <| cellV a' <| cellV d' <| cellN 10 4 <| cellN (32 + t'.code) 6 <| cellB ch' 0
  have hc : 32 + t'.code < 64 := by have := t'.code_lt; omega
  have hm : fld w 25 6 = 32 + t'.code := by simp only [w, hc, Nat.reducePow, Nat.reduceLeDiff, Nat.reduceSub, Nat.reduceLT, fld_zero, fld_cellV, fld_cellB, fld_cellN, fld_cellN_low]
  have hn : fld w 21 4 = 10 := by simp only [w, hc, Nat.reducePow, Nat.reduceLeDiff, Nat.reduceSub, Nat.reduceLT, fld_zero, fld_cellV, fld_cellB, fld_cellN, fld_cellN_low]
  refine of_base _ x' w rfl rfl ?_ (by rw [hm]; omega)
  rw [base_Lane_WTy_32 _ _ t' hm]
  unfold decodeLane
  rw [hn]
  first | (simp only [w, hc, Nat.reducePow, Nat.reduceLeDiff, Nat.reduceSub, Nat.reduceLT, Nat.add_sub_cancel_left, Nat.le_add_right, and_true, true_and, and_self, ↓reduceIte, fld_zero, fld_cellV, fld_cellB, fld_cellN, bvf_cellV, bvf_cellB, bvf_cellN, bit_cellV, bit_cellB, bit_cellN, fld_cellN_low, fld_cellB_low, fld_cellV_low, bvf_cellV_low, bit_cellB_low, fld_cellN_ne, fld_cellN_part, WTy.ofCode_code]; done) | simp [w, hc]

theorem lredAnd (x' : Pre) (ch' : Bool) (t' : WTy) (d' : BitVec 7) (a' : BitVec 7) : Statement (.lredAnd x' ch' t' d' a') := by
  let w := cellN 0 7 <| cellV a' <| cellV d' <| cellN 11 4 <| cellN (32 + t'.code) 6 <| cellB ch' 0
  have hc : 32 + t'.code < 64 := by have := t'.code_lt; omega
  have hm : fld w 25 6 = 32 + t'.code := by simp only [w, hc, Nat.reducePow, Nat.reduceLeDiff, Nat.reduceSub, Nat.reduceLT, fld_zero, fld_cellV, fld_cellB, fld_cellN, fld_cellN_low]
  have hn : fld w 21 4 = 11 := by simp only [w, hc, Nat.reducePow, Nat.reduceLeDiff, Nat.reduceSub, Nat.reduceLT, fld_zero, fld_cellV, fld_cellB, fld_cellN, fld_cellN_low]
  refine of_base _ x' w rfl rfl ?_ (by rw [hm]; omega)
  rw [base_Lane_WTy_32 _ _ t' hm]
  unfold decodeLane
  rw [hn]
  first | (simp only [w, hc, Nat.reducePow, Nat.reduceLeDiff, Nat.reduceSub, Nat.reduceLT, Nat.add_sub_cancel_left, Nat.le_add_right, and_true, true_and, and_self, ↓reduceIte, fld_zero, fld_cellV, fld_cellB, fld_cellN, bvf_cellV, bvf_cellB, bvf_cellN, bit_cellV, bit_cellB, bit_cellN, fld_cellN_low, fld_cellB_low, fld_cellV_low, bvf_cellV_low, bit_cellB_low, fld_cellN_ne, fld_cellN_part, WTy.ofCode_code]; done) | simp [w, hc]

theorem lredOr (x' : Pre) (ch' : Bool) (t' : WTy) (d' : BitVec 7) (a' : BitVec 7) : Statement (.lredOr x' ch' t' d' a') := by
  let w := cellN 0 7 <| cellV a' <| cellV d' <| cellN 12 4 <| cellN (32 + t'.code) 6 <| cellB ch' 0
  have hc : 32 + t'.code < 64 := by have := t'.code_lt; omega
  have hm : fld w 25 6 = 32 + t'.code := by simp only [w, hc, Nat.reducePow, Nat.reduceLeDiff, Nat.reduceSub, Nat.reduceLT, fld_zero, fld_cellV, fld_cellB, fld_cellN, fld_cellN_low]
  have hn : fld w 21 4 = 12 := by simp only [w, hc, Nat.reducePow, Nat.reduceLeDiff, Nat.reduceSub, Nat.reduceLT, fld_zero, fld_cellV, fld_cellB, fld_cellN, fld_cellN_low]
  refine of_base _ x' w rfl rfl ?_ (by rw [hm]; omega)
  rw [base_Lane_WTy_32 _ _ t' hm]
  unfold decodeLane
  rw [hn]
  first | (simp only [w, hc, Nat.reducePow, Nat.reduceLeDiff, Nat.reduceSub, Nat.reduceLT, Nat.add_sub_cancel_left, Nat.le_add_right, and_true, true_and, and_self, ↓reduceIte, fld_zero, fld_cellV, fld_cellB, fld_cellN, bvf_cellV, bvf_cellB, bvf_cellN, bit_cellV, bit_cellB, bit_cellN, fld_cellN_low, fld_cellB_low, fld_cellV_low, bvf_cellV_low, bit_cellB_low, fld_cellN_ne, fld_cellN_part, WTy.ofCode_code]; done) | simp [w, hc]

theorem lredXor (x' : Pre) (ch' : Bool) (t' : WTy) (d' : BitVec 7) (a' : BitVec 7) : Statement (.lredXor x' ch' t' d' a') := by
  let w := cellN 0 7 <| cellV a' <| cellV d' <| cellN 13 4 <| cellN (32 + t'.code) 6 <| cellB ch' 0
  have hc : 32 + t'.code < 64 := by have := t'.code_lt; omega
  have hm : fld w 25 6 = 32 + t'.code := by simp only [w, hc, Nat.reducePow, Nat.reduceLeDiff, Nat.reduceSub, Nat.reduceLT, fld_zero, fld_cellV, fld_cellB, fld_cellN, fld_cellN_low]
  have hn : fld w 21 4 = 13 := by simp only [w, hc, Nat.reducePow, Nat.reduceLeDiff, Nat.reduceSub, Nat.reduceLT, fld_zero, fld_cellV, fld_cellB, fld_cellN, fld_cellN_low]
  refine of_base _ x' w rfl rfl ?_ (by rw [hm]; omega)
  rw [base_Lane_WTy_32 _ _ t' hm]
  unfold decodeLane
  rw [hn]
  first | (simp only [w, hc, Nat.reducePow, Nat.reduceLeDiff, Nat.reduceSub, Nat.reduceLT, Nat.add_sub_cancel_left, Nat.le_add_right, and_true, true_and, and_self, ↓reduceIte, fld_zero, fld_cellV, fld_cellB, fld_cellN, bvf_cellV, bvf_cellB, bvf_cellN, bit_cellV, bit_cellB, bit_cellN, fld_cellN_low, fld_cellB_low, fld_cellV_low, bvf_cellV_low, bit_cellB_low, fld_cellN_ne, fld_cellN_part, WTy.ofCode_code]; done) | simp [w, hc]

theorem lscanAdd (x' : Pre) (ch' : Bool) (t' : WTy) (d' : BitVec 7) (a' : BitVec 7) : Statement (.lscanAdd x' ch' t' d' a') := by
  let w := cellN 0 7 <| cellV a' <| cellV d' <| cellN 14 4 <| cellN (32 + t'.code) 6 <| cellB ch' 0
  have hc : 32 + t'.code < 64 := by have := t'.code_lt; omega
  have hm : fld w 25 6 = 32 + t'.code := by simp only [w, hc, Nat.reducePow, Nat.reduceLeDiff, Nat.reduceSub, Nat.reduceLT, fld_zero, fld_cellV, fld_cellB, fld_cellN, fld_cellN_low]
  have hn : fld w 21 4 = 14 := by simp only [w, hc, Nat.reducePow, Nat.reduceLeDiff, Nat.reduceSub, Nat.reduceLT, fld_zero, fld_cellV, fld_cellB, fld_cellN, fld_cellN_low]
  refine of_base _ x' w rfl rfl ?_ (by rw [hm]; omega)
  rw [base_Lane_WTy_32 _ _ t' hm]
  unfold decodeLane
  rw [hn]
  first | (simp only [w, hc, Nat.reducePow, Nat.reduceLeDiff, Nat.reduceSub, Nat.reduceLT, Nat.add_sub_cancel_left, Nat.le_add_right, and_true, true_and, and_self, ↓reduceIte, fld_zero, fld_cellV, fld_cellB, fld_cellN, bvf_cellV, bvf_cellB, bvf_cellN, bit_cellV, bit_cellB, bit_cellN, fld_cellN_low, fld_cellB_low, fld_cellV_low, bvf_cellV_low, bit_cellB_low, fld_cellN_ne, fld_cellN_part, WTy.ofCode_code]; done) | simp [w, hc]

theorem lscanMax (x' : Pre) (ch' : Bool) (t' : WTy) (d' : BitVec 7) (a' : BitVec 7) : Statement (.lscanMax x' ch' t' d' a') := by
  let w := cellN 0 7 <| cellV a' <| cellV d' <| cellN 15 4 <| cellN (32 + t'.code) 6 <| cellB ch' 0
  have hc : 32 + t'.code < 64 := by have := t'.code_lt; omega
  have hm : fld w 25 6 = 32 + t'.code := by simp only [w, hc, Nat.reducePow, Nat.reduceLeDiff, Nat.reduceSub, Nat.reduceLT, fld_zero, fld_cellV, fld_cellB, fld_cellN, fld_cellN_low]
  have hn : fld w 21 4 = 15 := by simp only [w, hc, Nat.reducePow, Nat.reduceLeDiff, Nat.reduceSub, Nat.reduceLT, fld_zero, fld_cellV, fld_cellB, fld_cellN, fld_cellN_low]
  refine of_base _ x' w rfl rfl ?_ (by rw [hm]; omega)
  rw [base_Lane_WTy_32 _ _ t' hm]
  unfold decodeLane
  rw [hn]
  first | (simp only [w, hc, Nat.reducePow, Nat.reduceLeDiff, Nat.reduceSub, Nat.reduceLT, Nat.add_sub_cancel_left, Nat.le_add_right, and_true, true_and, and_self, ↓reduceIte, fld_zero, fld_cellV, fld_cellB, fld_cellN, bvf_cellV, bvf_cellB, bvf_cellN, bit_cellV, bit_cellB, bit_cellN, fld_cellN_low, fld_cellB_low, fld_cellV_low, bvf_cellV_low, bit_cellB_low, fld_cellN_ne, fld_cellN_part, WTy.ofCode_code]; done) | simp [w, hc]

theorem plop (x' : Pre) (ch' : Bool) (t' : BitVec 4) (p' : BitVec 3) (a' : BitVec 3) (b' : BitVec 3) : Statement (.plop x' ch' t' p' a' b') := by
  let w := cellV b' <| cellN 0 4 <| cellV a' <| cellN 0 4 <| cellV p' <| cellV t' <| cellN 0 4 <| cellN 36 6 <| cellB ch' 0
  have hm : fld w 25 6 = 36 := by simp only [w, Nat.reducePow, Nat.reduceLeDiff, Nat.reduceSub, Nat.reduceLT, fld_zero, fld_cellV, fld_cellB, fld_cellN, fld_cellN_low]
  have hn : fld w 21 4 = 0 := by simp only [w, Nat.reducePow, Nat.reduceLeDiff, Nat.reduceSub, Nat.reduceLT, fld_zero, fld_cellV, fld_cellB, fld_cellN, fld_cellN_low]
  refine of_base _ x' w rfl rfl ?_ (by rw [hm]; omega)
  rw [base_Ctl_36 _ _ hm]
  unfold decodeCtl
  rw [hn]
  first | (simp only [w, Nat.reducePow, Nat.reduceLeDiff, Nat.reduceSub, Nat.reduceLT, Nat.add_sub_cancel_left, Nat.le_add_right, and_true, true_and, and_self, ↓reduceIte, fld_zero, fld_cellV, fld_cellB, fld_cellN, bvf_cellV, bvf_cellB, bvf_cellN, bit_cellV, bit_cellB, bit_cellN, fld_cellN_low, fld_cellB_low, fld_cellV_low, bvf_cellV_low, bit_cellB_low, fld_cellN_ne, fld_cellN_part]; done) | simp [w]

theorem pmovToPred (x' : Pre) (ch' : Bool) (p' : BitVec 3) (a' : BitVec 7) : Statement (.pmovToPred x' ch' p' a') := by
  let w := cellN 0 7 <| cellV a' <| cellV p' <| cellN 0 4 <| cellN 1 4 <| cellN 36 6 <| cellB ch' 0
  have hm : fld w 25 6 = 36 := by simp only [w, Nat.reducePow, Nat.reduceLeDiff, Nat.reduceSub, Nat.reduceLT, fld_zero, fld_cellV, fld_cellB, fld_cellN, fld_cellN_low]
  have hn : fld w 21 4 = 1 := by simp only [w, Nat.reducePow, Nat.reduceLeDiff, Nat.reduceSub, Nat.reduceLT, fld_zero, fld_cellV, fld_cellB, fld_cellN, fld_cellN_low]
  refine of_base _ x' w rfl rfl ?_ (by rw [hm]; omega)
  rw [base_Ctl_36 _ _ hm]
  unfold decodeCtl
  rw [hn]
  first | (simp only [w, Nat.reducePow, Nat.reduceLeDiff, Nat.reduceSub, Nat.reduceLT, Nat.add_sub_cancel_left, Nat.le_add_right, and_true, true_and, and_self, ↓reduceIte, fld_zero, fld_cellV, fld_cellB, fld_cellN, bvf_cellV, bvf_cellB, bvf_cellN, bit_cellV, bit_cellB, bit_cellN, fld_cellN_low, fld_cellB_low, fld_cellV_low, bvf_cellV_low, bit_cellB_low, fld_cellN_ne, fld_cellN_part]; done) | simp [w]

theorem pmovFromPred (x' : Pre) (ch' : Bool) (d' : BitVec 7) (p' : BitVec 3) : Statement (.pmovFromPred x' ch' d' p') := by
  let w := cellN 1 7 <| cellV p' <| cellN 0 4 <| cellV d' <| cellN 1 4 <| cellN 36 6 <| cellB ch' 0
  have hm : fld w 25 6 = 36 := by simp only [w, Nat.reducePow, Nat.reduceLeDiff, Nat.reduceSub, Nat.reduceLT, fld_zero, fld_cellV, fld_cellB, fld_cellN, fld_cellN_low]
  have hn : fld w 21 4 = 1 := by simp only [w, Nat.reducePow, Nat.reduceLeDiff, Nat.reduceSub, Nat.reduceLT, fld_zero, fld_cellV, fld_cellB, fld_cellN, fld_cellN_low]
  refine of_base _ x' w rfl rfl ?_ (by rw [hm]; omega)
  rw [base_Ctl_36 _ _ hm]
  unfold decodeCtl
  rw [hn]
  first | (simp only [w, Nat.reducePow, Nat.reduceLeDiff, Nat.reduceSub, Nat.reduceLT, Nat.add_sub_cancel_left, Nat.le_add_right, and_true, true_and, and_self, ↓reduceIte, fld_zero, fld_cellV, fld_cellB, fld_cellN, bvf_cellV, bvf_cellB, bvf_cellN, bit_cellV, bit_cellB, bit_cellN, fld_cellN_low, fld_cellB_low, fld_cellV_low, bvf_cellV_low, bit_cellB_low, fld_cellN_ne, fld_cellN_part]; done) | simp [w]

theorem jmpt (x' : Pre) (n' : BitVec 7) (a' : BitVec 7) (b' : BitVec 7) : Statement (.jmpt x' n' a' b') := by
  let w := cellV b' <| cellV a' <| cellV n' <| cellN 2 4 <| cellN 36 6 0
  have hm : fld w 25 6 = 36 := by simp only [w, Nat.reducePow, Nat.reduceLeDiff, Nat.reduceSub, Nat.reduceLT, fld_zero, fld_cellV, fld_cellB, fld_cellN, fld_cellN_low]
  have hn : fld w 21 4 = 2 := by simp only [w, Nat.reducePow, Nat.reduceLeDiff, Nat.reduceSub, Nat.reduceLT, fld_zero, fld_cellV, fld_cellB, fld_cellN, fld_cellN_low]
  refine of_base _ x' w rfl rfl ?_ (by rw [hm]; omega)
  rw [base_Ctl_36 _ _ hm]
  unfold decodeCtl
  rw [hn]
  first | (simp only [w, Nat.reducePow, Nat.reduceLeDiff, Nat.reduceSub, Nat.reduceLT, Nat.add_sub_cancel_left, Nat.le_add_right, and_true, true_and, and_self, ↓reduceIte, fld_zero, fld_cellV, fld_cellB, fld_cellN, bvf_cellV, bvf_cellB, bvf_cellN, bit_cellV, bit_cellB, bit_cellN, fld_cellN_low, fld_cellB_low, fld_cellV_low, bvf_cellV_low, bit_cellB_low, fld_cellN_ne, fld_cellN_part]; done) | simp [w]

theorem ret (x' : Pre) : Statement (.ret x') := by
  let w := cellN 0 21 <| cellN 3 4 <| cellN 36 6 0
  have hm : fld w 25 6 = 36 := by simp only [w, Nat.reducePow, Nat.reduceLeDiff, Nat.reduceSub, Nat.reduceLT, fld_zero, fld_cellV, fld_cellB, fld_cellN, fld_cellN_low]
  have hn : fld w 21 4 = 3 := by simp only [w, Nat.reducePow, Nat.reduceLeDiff, Nat.reduceSub, Nat.reduceLT, fld_zero, fld_cellV, fld_cellB, fld_cellN, fld_cellN_low]
  refine of_base _ x' w rfl rfl ?_ (by rw [hm]; omega)
  rw [base_Ctl_36 _ _ hm]
  unfold decodeCtl
  rw [hn]
  first | (simp only [w, Nat.reducePow, Nat.reduceLeDiff, Nat.reduceSub, Nat.reduceLT, Nat.add_sub_cancel_left, Nat.le_add_right, and_true, true_and, and_self, ↓reduceIte, fld_zero, fld_cellV, fld_cellB, fld_cellN, bvf_cellV, bvf_cellB, bvf_cellN, bit_cellV, bit_cellB, bit_cellN, fld_cellN_low, fld_cellB_low, fld_cellV_low, bvf_cellV_low, bit_cellB_low, fld_cellN_ne, fld_cellN_part]; done) | simp [w]

theorem exit (x' : Pre) : Statement (.exit x') := by
  let w := cellN 0 21 <| cellN 4 4 <| cellN 36 6 0
  have hm : fld w 25 6 = 36 := by simp only [w, Nat.reducePow, Nat.reduceLeDiff, Nat.reduceSub, Nat.reduceLT, fld_zero, fld_cellV, fld_cellB, fld_cellN, fld_cellN_low]
  have hn : fld w 21 4 = 4 := by simp only [w, Nat.reducePow, Nat.reduceLeDiff, Nat.reduceSub, Nat.reduceLT, fld_zero, fld_cellV, fld_cellB, fld_cellN, fld_cellN_low]
  refine of_base _ x' w rfl rfl ?_ (by rw [hm]; omega)
  rw [base_Ctl_36 _ _ hm]
  unfold decodeCtl
  rw [hn]
  first | (simp only [w, Nat.reducePow, Nat.reduceLeDiff, Nat.reduceSub, Nat.reduceLT, Nat.add_sub_cancel_left, Nat.le_add_right, and_true, true_and, and_self, ↓reduceIte, fld_zero, fld_cellV, fld_cellB, fld_cellN, bvf_cellV, bvf_cellB, bvf_cellN, bit_cellV, bit_cellB, bit_cellN, fld_cellN_low, fld_cellB_low, fld_cellV_low, bvf_cellV_low, bit_cellB_low, fld_cellN_ne, fld_cellN_part]; done) | simp [w]

theorem yield (x' : Pre) (ch' : Bool) : Statement (.yield x' ch') := by
  let w := cellN 0 21 <| cellN 5 4 <| cellN 36 6 <| cellB ch' 0
  have hm : fld w 25 6 = 36 := by simp only [w, Nat.reducePow, Nat.reduceLeDiff, Nat.reduceSub, Nat.reduceLT, fld_zero, fld_cellV, fld_cellB, fld_cellN, fld_cellN_low]
  have hn : fld w 21 4 = 5 := by simp only [w, Nat.reducePow, Nat.reduceLeDiff, Nat.reduceSub, Nat.reduceLT, fld_zero, fld_cellV, fld_cellB, fld_cellN, fld_cellN_low]
  refine of_base _ x' w rfl rfl ?_ (by rw [hm]; omega)
  rw [base_Ctl_36 _ _ hm]
  unfold decodeCtl
  rw [hn]
  first | (simp only [w, Nat.reducePow, Nat.reduceLeDiff, Nat.reduceSub, Nat.reduceLT, Nat.add_sub_cancel_left, Nat.le_add_right, and_true, true_and, and_self, ↓reduceIte, fld_zero, fld_cellV, fld_cellB, fld_cellN, bvf_cellV, bvf_cellB, bvf_cellN, bit_cellV, bit_cellB, bit_cellN, fld_cellN_low, fld_cellB_low, fld_cellV_low, bvf_cellV_low, bit_cellB_low, fld_cellN_ne, fld_cellN_part]; done) | simp [w]

theorem nop (x' : Pre) (ch' : Bool) (d' : BitVec 7) (a' : BitVec 7) (b' : BitVec 7) : Statement (.nop x' ch' d' a' b') := by
  let w := cellV b' <| cellV a' <| cellV d' <| cellN 6 4 <| cellN 36 6 <| cellB ch' 0
  have hm : fld w 25 6 = 36 := by simp only [w, Nat.reducePow, Nat.reduceLeDiff, Nat.reduceSub, Nat.reduceLT, fld_zero, fld_cellV, fld_cellB, fld_cellN, fld_cellN_low]
  have hn : fld w 21 4 = 6 := by simp only [w, Nat.reducePow, Nat.reduceLeDiff, Nat.reduceSub, Nat.reduceLT, fld_zero, fld_cellV, fld_cellB, fld_cellN, fld_cellN_low]
  refine of_base _ x' w rfl rfl ?_ (by rw [hm]; omega)
  rw [base_Ctl_36 _ _ hm]
  unfold decodeCtl
  rw [hn]
  first | (simp only [w, Nat.reducePow, Nat.reduceLeDiff, Nat.reduceSub, Nat.reduceLT, Nat.add_sub_cancel_left, Nat.le_add_right, and_true, true_and, and_self, ↓reduceIte, fld_zero, fld_cellV, fld_cellB, fld_cellN, bvf_cellV, bvf_cellB, bvf_cellN, bit_cellV, bit_cellB, bit_cellN, fld_cellN_low, fld_cellB_low, fld_cellV_low, bvf_cellV_low, bit_cellB_low, fld_cellN_ne, fld_cellN_part]; done) | simp [w]

theorem brk (x' : Pre) (ch' : Bool) (k' : BitVec 14) : Statement (.brk x' ch' k') := by
  let w := cellV k' <| cellN 0 7 <| cellN 7 4 <| cellN 36 6 <| cellB ch' 0
  have hm : fld w 25 6 = 36 := by simp only [w, Nat.reducePow, Nat.reduceLeDiff, Nat.reduceSub, Nat.reduceLT, fld_zero, fld_cellV, fld_cellB, fld_cellN, fld_cellN_low]
  have hn : fld w 21 4 = 7 := by simp only [w, Nat.reducePow, Nat.reduceLeDiff, Nat.reduceSub, Nat.reduceLT, fld_zero, fld_cellV, fld_cellB, fld_cellN, fld_cellN_low]
  refine of_base _ x' w rfl rfl ?_ (by rw [hm]; omega)
  rw [base_Ctl_36 _ _ hm]
  unfold decodeCtl
  rw [hn]
  first | (simp only [w, Nat.reducePow, Nat.reduceLeDiff, Nat.reduceSub, Nat.reduceLT, Nat.add_sub_cancel_left, Nat.le_add_right, and_true, true_and, and_self, ↓reduceIte, fld_zero, fld_cellV, fld_cellB, fld_cellN, bvf_cellV, bvf_cellB, bvf_cellN, bit_cellV, bit_cellB, bit_cellN, fld_cellN_low, fld_cellB_low, fld_cellV_low, bvf_cellV_low, bit_cellB_low, fld_cellN_ne, fld_cellN_part]; done) | simp [w]

theorem sypub (x' : Pre) (ch' : Bool) (a' : BitVec 7) : Statement (.sypub x' ch' a') := by
  let w := cellN 0 7 <| cellV a' <| cellN 0 7 <| cellN 8 4 <| cellN 36 6 <| cellB ch' 0
  have hm : fld w 25 6 = 36 := by simp only [w, Nat.reducePow, Nat.reduceLeDiff, Nat.reduceSub, Nat.reduceLT, fld_zero, fld_cellV, fld_cellB, fld_cellN, fld_cellN_low]
  have hn : fld w 21 4 = 8 := by simp only [w, Nat.reducePow, Nat.reduceLeDiff, Nat.reduceSub, Nat.reduceLT, fld_zero, fld_cellV, fld_cellB, fld_cellN, fld_cellN_low]
  refine of_base _ x' w rfl rfl ?_ (by rw [hm]; omega)
  rw [base_Ctl_36 _ _ hm]
  unfold decodeCtl
  rw [hn]
  first | (simp only [w, Nat.reducePow, Nat.reduceLeDiff, Nat.reduceSub, Nat.reduceLT, Nat.add_sub_cancel_left, Nat.le_add_right, and_true, true_and, and_self, ↓reduceIte, fld_zero, fld_cellV, fld_cellB, fld_cellN, bvf_cellV, bvf_cellB, bvf_cellN, bit_cellV, bit_cellB, bit_cellN, fld_cellN_low, fld_cellB_low, fld_cellV_low, bvf_cellV_low, bit_cellB_low, fld_cellN_ne, fld_cellN_part]; done) | simp [w]

theorem sydone (x' : Pre) (ch' : Bool) (a' : BitVec 7) : Statement (.sydone x' ch' a') := by
  let w := cellN 0 7 <| cellV a' <| cellN 0 7 <| cellN 9 4 <| cellN 36 6 <| cellB ch' 0
  have hm : fld w 25 6 = 36 := by simp only [w, Nat.reducePow, Nat.reduceLeDiff, Nat.reduceSub, Nat.reduceLT, fld_zero, fld_cellV, fld_cellB, fld_cellN, fld_cellN_low]
  have hn : fld w 21 4 = 9 := by simp only [w, Nat.reducePow, Nat.reduceLeDiff, Nat.reduceSub, Nat.reduceLT, fld_zero, fld_cellV, fld_cellB, fld_cellN, fld_cellN_low]
  refine of_base _ x' w rfl rfl ?_ (by rw [hm]; omega)
  rw [base_Ctl_36 _ _ hm]
  unfold decodeCtl
  rw [hn]
  first | (simp only [w, Nat.reducePow, Nat.reduceLeDiff, Nat.reduceSub, Nat.reduceLT, Nat.add_sub_cancel_left, Nat.le_add_right, and_true, true_and, and_self, ↓reduceIte, fld_zero, fld_cellV, fld_cellB, fld_cellN, bvf_cellV, bvf_cellB, bvf_cellN, bit_cellV, bit_cellB, bit_cellN, fld_cellN_low, fld_cellB_low, fld_cellV_low, bvf_cellV_low, bit_cellB_low, fld_cellN_ne, fld_cellN_part]; done) | simp [w]

theorem setmode (x' : Pre) (ch' : Bool) (d' : BitVec 7) (a' : BitVec 7) (b' : BitVec 7) : Statement (.setmode x' ch' d' a' b') := by
  let w := cellV b' <| cellV a' <| cellV d' <| cellN 10 4 <| cellN 36 6 <| cellB ch' 0
  have hm : fld w 25 6 = 36 := by simp only [w, Nat.reducePow, Nat.reduceLeDiff, Nat.reduceSub, Nat.reduceLT, fld_zero, fld_cellV, fld_cellB, fld_cellN, fld_cellN_low]
  have hn : fld w 21 4 = 10 := by simp only [w, Nat.reducePow, Nat.reduceLeDiff, Nat.reduceSub, Nat.reduceLT, fld_zero, fld_cellV, fld_cellB, fld_cellN, fld_cellN_low]
  refine of_base _ x' w rfl rfl ?_ (by rw [hm]; omega)
  rw [base_Ctl_36 _ _ hm]
  unfold decodeCtl
  rw [hn]
  first | (simp only [w, Nat.reducePow, Nat.reduceLeDiff, Nat.reduceSub, Nat.reduceLT, Nat.add_sub_cancel_left, Nat.le_add_right, and_true, true_and, and_self, ↓reduceIte, fld_zero, fld_cellV, fld_cellB, fld_cellN, bvf_cellV, bvf_cellB, bvf_cellN, bit_cellV, bit_cellB, bit_cellN, fld_cellN_low, fld_cellB_low, fld_cellV_low, bvf_cellV_low, bit_cellB_low, fld_cellN_ne, fld_cellN_part]; done) | simp [w]

theorem bra (n' : Bool) (p' : BitVec 3) (o' : BitVec 21) : Statement (.bra n' p' o') := by
  let w := cellV o' <| cellV p' <| cellB n' <| cellN 37 6 0
  have hm : fld w 25 6 = 37 := by simp only [w, Nat.reducePow, Nat.reduceLeDiff, Nat.reduceSub, Nat.reduceLT, fld_zero, fld_cellV, fld_cellB, fld_cellN, fld_cellN_low]
  refine of_base _ .none w rfl rfl ?_ (by rw [hm]; omega)
  rw [base_Bra_37 _ _ hm]
  unfold decodeBra
  first | (simp only [w, Nat.reducePow, Nat.reduceLeDiff, Nat.reduceSub, Nat.reduceLT, Nat.add_sub_cancel_left, Nat.le_add_right, and_true, true_and, and_self, ↓reduceIte, fld_zero, fld_cellV, fld_cellB, fld_cellN, bvf_cellV, bvf_cellB, bvf_cellN, bit_cellV, bit_cellB, bit_cellN, fld_cellN_low, fld_cellB_low, fld_cellV_low, bvf_cellV_low, bit_cellB_low, fld_cellN_ne, fld_cellN_part]; done) | simp [w]

theorem call (n' : Bool) (p' : BitVec 3) (o' : BitVec 21) : Statement (.call n' p' o') := by
  let w := cellV o' <| cellV p' <| cellB n' <| cellN 38 6 0
  have hm : fld w 25 6 = 38 := by simp only [w, Nat.reducePow, Nat.reduceLeDiff, Nat.reduceSub, Nat.reduceLT, fld_zero, fld_cellV, fld_cellB, fld_cellN, fld_cellN_low]
  refine of_base _ .none w rfl rfl ?_ (by rw [hm]; omega)
  rw [base_Call_38 _ _ hm]
  unfold decodeCall
  first | (simp only [w, Nat.reducePow, Nat.reduceLeDiff, Nat.reduceSub, Nat.reduceLT, Nat.add_sub_cancel_left, Nat.le_add_right, and_true, true_and, and_self, ↓reduceIte, fld_zero, fld_cellV, fld_cellB, fld_cellN, bvf_cellV, bvf_cellB, bvf_cellN, bit_cellV, bit_cellB, bit_cellN, fld_cellN_low, fld_cellB_low, fld_cellV_low, bvf_cellV_low, bit_cellB_low, fld_cellN_ne, fld_cellN_part]; done) | simp [w]

theorem srd (x' : Pre) (ch' : Bool) (d' : BitVec 7) (i' : BitVec 14) : Statement (.srd x' ch' d' i') := by
  let w := cellV i' <| cellV d' <| cellN 0 4 <| cellN 39 6 <| cellB ch' 0
  have hm : fld w 25 6 = 39 := by simp only [w, Nat.reducePow, Nat.reduceLeDiff, Nat.reduceSub, Nat.reduceLT, fld_zero, fld_cellV, fld_cellB, fld_cellN, fld_cellN_low]
  have hn : fld w 21 4 = 0 := by simp only [w, Nat.reducePow, Nat.reduceLeDiff, Nat.reduceSub, Nat.reduceLT, fld_zero, fld_cellV, fld_cellB, fld_cellN, fld_cellN_low]
  refine of_base _ x' w rfl rfl ?_ (by rw [hm]; omega)
  rw [base_Srd_39 _ _ hm]
  unfold decodeSrd
  rw [hn]
  first | (simp only [w, Nat.reducePow, Nat.reduceLeDiff, Nat.reduceSub, Nat.reduceLT, Nat.add_sub_cancel_left, Nat.le_add_right, and_true, true_and, and_self, ↓reduceIte, fld_zero, fld_cellV, fld_cellB, fld_cellN, bvf_cellV, bvf_cellB, bvf_cellN, bit_cellV, bit_cellB, bit_cellN, fld_cellN_low, fld_cellB_low, fld_cellV_low, bvf_cellV_low, bit_cellB_low, fld_cellN_ne, fld_cellN_part]; done) | simp [w]

theorem swr (x' : Pre) (ch' : Bool) (a' : BitVec 7) (i' : BitVec 14) : Statement (.swr x' ch' a' i') := by
  let w := cellV i' <| cellV a' <| cellN 0 4 <| cellN 40 6 <| cellB ch' 0
  have hm : fld w 25 6 = 40 := by simp only [w, Nat.reducePow, Nat.reduceLeDiff, Nat.reduceSub, Nat.reduceLT, fld_zero, fld_cellV, fld_cellB, fld_cellN, fld_cellN_low]
  have hn : fld w 21 4 = 0 := by simp only [w, Nat.reducePow, Nat.reduceLeDiff, Nat.reduceSub, Nat.reduceLT, fld_zero, fld_cellV, fld_cellB, fld_cellN, fld_cellN_low]
  refine of_base _ x' w rfl rfl ?_ (by rw [hm]; omega)
  rw [base_Swr_40 _ _ hm]
  unfold decodeSwr
  rw [hn]
  first | (simp only [w, Nat.reducePow, Nat.reduceLeDiff, Nat.reduceSub, Nat.reduceLT, Nat.add_sub_cancel_left, Nat.le_add_right, and_true, true_and, and_self, ↓reduceIte, fld_zero, fld_cellV, fld_cellB, fld_cellN, bvf_cellV, bvf_cellB, bvf_cellN, bit_cellV, bit_cellB, bit_cellN, fld_cellN_low, fld_cellB_low, fld_cellV_low, bvf_cellV_low, bit_cellB_low, fld_cellN_ne, fld_cellN_part]; done) | simp [w]

theorem trap (x' : Pre) (ch' : Bool) (k' : BitVec 14) : Statement (.trap x' ch' k') := by
  let w := cellV k' <| cellN 0 7 <| cellN 0 4 <| cellN 41 6 <| cellB ch' 0
  have hm : fld w 25 6 = 41 := by simp only [w, Nat.reducePow, Nat.reduceLeDiff, Nat.reduceSub, Nat.reduceLT, fld_zero, fld_cellV, fld_cellB, fld_cellN, fld_cellN_low]
  have hn : fld w 21 4 = 0 := by simp only [w, Nat.reducePow, Nat.reduceLeDiff, Nat.reduceSub, Nat.reduceLT, fld_zero, fld_cellV, fld_cellB, fld_cellN, fld_cellN_low]
  refine of_base _ x' w rfl rfl ?_ (by rw [hm]; omega)
  rw [base_Sys_41 _ _ hm]
  unfold decodeSys
  rw [hn]
  first | (simp only [w, Nat.reducePow, Nat.reduceLeDiff, Nat.reduceSub, Nat.reduceLT, Nat.add_sub_cancel_left, Nat.le_add_right, and_true, true_and, and_self, ↓reduceIte, fld_zero, fld_cellV, fld_cellB, fld_cellN, bvf_cellV, bvf_cellB, bvf_cellN, bit_cellV, bit_cellB, bit_cellN, fld_cellN_low, fld_cellB_low, fld_cellV_low, bvf_cellV_low, bit_cellB_low, fld_cellN_ne, fld_cellN_part]; done) | simp [w]

theorem rett (x' : Pre) : Statement (.rett x') := by
  let w := cellN 0 21 <| cellN 1 4 <| cellN 41 6 0
  have hm : fld w 25 6 = 41 := by simp only [w, Nat.reducePow, Nat.reduceLeDiff, Nat.reduceSub, Nat.reduceLT, fld_zero, fld_cellV, fld_cellB, fld_cellN, fld_cellN_low]
  have hn : fld w 21 4 = 1 := by simp only [w, Nat.reducePow, Nat.reduceLeDiff, Nat.reduceSub, Nat.reduceLT, fld_zero, fld_cellV, fld_cellB, fld_cellN, fld_cellN_low]
  refine of_base _ x' w rfl rfl ?_ (by rw [hm]; omega)
  rw [base_Sys_41 _ _ hm]
  unfold decodeSys
  rw [hn]
  first | (simp only [w, Nat.reducePow, Nat.reduceLeDiff, Nat.reduceSub, Nat.reduceLT, Nat.add_sub_cancel_left, Nat.le_add_right, and_true, true_and, and_self, ↓reduceIte, fld_zero, fld_cellV, fld_cellB, fld_cellN, bvf_cellV, bvf_cellB, bvf_cellN, bit_cellV, bit_cellB, bit_cellN, fld_cellN_low, fld_cellB_low, fld_cellV_low, bvf_cellV_low, bit_cellB_low, fld_cellN_ne, fld_cellN_part]; done) | simp [w]

theorem sys (x' : Pre) (ch' : Bool) (k' : BitVec 14) : Statement (.sys x' ch' k') := by
  let w := cellV k' <| cellN 0 7 <| cellN 2 4 <| cellN 41 6 <| cellB ch' 0
  have hm : fld w 25 6 = 41 := by simp only [w, Nat.reducePow, Nat.reduceLeDiff, Nat.reduceSub, Nat.reduceLT, fld_zero, fld_cellV, fld_cellB, fld_cellN, fld_cellN_low]
  have hn : fld w 21 4 = 2 := by simp only [w, Nat.reducePow, Nat.reduceLeDiff, Nat.reduceSub, Nat.reduceLT, fld_zero, fld_cellV, fld_cellB, fld_cellN, fld_cellN_low]
  refine of_base _ x' w rfl rfl ?_ (by rw [hm]; omega)
  rw [base_Sys_41 _ _ hm]
  unfold decodeSys
  rw [hn]
  first | (simp only [w, Nat.reducePow, Nat.reduceLeDiff, Nat.reduceSub, Nat.reduceLT, Nat.add_sub_cancel_left, Nat.le_add_right, and_true, true_and, and_self, ↓reduceIte, fld_zero, fld_cellV, fld_cellB, fld_cellN, bvf_cellV, bvf_cellB, bvf_cellN, bit_cellV, bit_cellB, bit_cellN, fld_cellN_low, fld_cellB_low, fld_cellV_low, bvf_cellV_low, bit_cellB_low, fld_cellN_ne, fld_cellN_part]; done) | simp [w]

theorem ctxsv (x' : Pre) (ch' : Bool) (a' : BitVec 7) (b' : BitVec 7) : Statement (.ctxsv x' ch' a' b') := by
  let w := cellV b' <| cellN 0 7 <| cellV a' <| cellN 3 4 <| cellN 41 6 <| cellB ch' 0
  have hm : fld w 25 6 = 41 := by simp only [w, Nat.reducePow, Nat.reduceLeDiff, Nat.reduceSub, Nat.reduceLT, fld_zero, fld_cellV, fld_cellB, fld_cellN, fld_cellN_low]
  have hn : fld w 21 4 = 3 := by simp only [w, Nat.reducePow, Nat.reduceLeDiff, Nat.reduceSub, Nat.reduceLT, fld_zero, fld_cellV, fld_cellB, fld_cellN, fld_cellN_low]
  refine of_base _ x' w rfl rfl ?_ (by rw [hm]; omega)
  rw [base_Sys_41 _ _ hm]
  unfold decodeSys
  rw [hn]
  first | (simp only [w, Nat.reducePow, Nat.reduceLeDiff, Nat.reduceSub, Nat.reduceLT, Nat.add_sub_cancel_left, Nat.le_add_right, and_true, true_and, and_self, ↓reduceIte, fld_zero, fld_cellV, fld_cellB, fld_cellN, bvf_cellV, bvf_cellB, bvf_cellN, bit_cellV, bit_cellB, bit_cellN, fld_cellN_low, fld_cellB_low, fld_cellV_low, bvf_cellV_low, bit_cellB_low, fld_cellN_ne, fld_cellN_part]; done) | simp [w]

theorem ctxrs (x' : Pre) (ch' : Bool) (a' : BitVec 7) : Statement (.ctxrs x' ch' a') := by
  let w := cellN 0 14 <| cellV a' <| cellN 4 4 <| cellN 41 6 <| cellB ch' 0
  have hm : fld w 25 6 = 41 := by simp only [w, Nat.reducePow, Nat.reduceLeDiff, Nat.reduceSub, Nat.reduceLT, fld_zero, fld_cellV, fld_cellB, fld_cellN, fld_cellN_low]
  have hn : fld w 21 4 = 4 := by simp only [w, Nat.reducePow, Nat.reduceLeDiff, Nat.reduceSub, Nat.reduceLT, fld_zero, fld_cellV, fld_cellB, fld_cellN, fld_cellN_low]
  refine of_base _ x' w rfl rfl ?_ (by rw [hm]; omega)
  rw [base_Sys_41 _ _ hm]
  unfold decodeSys
  rw [hn]
  first | (simp only [w, Nat.reducePow, Nat.reduceLeDiff, Nat.reduceSub, Nat.reduceLT, Nat.add_sub_cancel_left, Nat.le_add_right, and_true, true_and, and_self, ↓reduceIte, fld_zero, fld_cellV, fld_cellB, fld_cellN, bvf_cellV, bvf_cellB, bvf_cellN, bit_cellV, bit_cellB, bit_cellN, fld_cellN_low, fld_cellB_low, fld_cellV_low, bvf_cellV_low, bit_cellB_low, fld_cellN_ne, fld_cellN_part]; done) | simp [w]

theorem tlbinv (x' : Pre) (ch' : Bool) (a' : BitVec 7) (k' : BitVec 2) : Statement (.tlbinv x' ch' a' k') := by
  let w := cellV k' <| cellN 0 12 <| cellV a' <| cellN 5 4 <| cellN 41 6 <| cellB ch' 0
  have hm : fld w 25 6 = 41 := by simp only [w, Nat.reducePow, Nat.reduceLeDiff, Nat.reduceSub, Nat.reduceLT, fld_zero, fld_cellV, fld_cellB, fld_cellN, fld_cellN_low]
  have hn : fld w 21 4 = 5 := by simp only [w, Nat.reducePow, Nat.reduceLeDiff, Nat.reduceSub, Nat.reduceLT, fld_zero, fld_cellV, fld_cellB, fld_cellN, fld_cellN_low]
  refine of_base _ x' w rfl rfl ?_ (by rw [hm]; omega)
  rw [base_Sys_41 _ _ hm]
  unfold decodeSys
  rw [hn]
  first | (simp only [w, Nat.reducePow, Nat.reduceLeDiff, Nat.reduceSub, Nat.reduceLT, Nat.add_sub_cancel_left, Nat.le_add_right, and_true, true_and, and_self, ↓reduceIte, fld_zero, fld_cellV, fld_cellB, fld_cellN, bvf_cellV, bvf_cellB, bvf_cellN, bit_cellV, bit_cellB, bit_cellN, fld_cellN_low, fld_cellB_low, fld_cellV_low, bvf_cellV_low, bit_cellB_low, fld_cellN_ne, fld_cellN_part]; done) | simp [w]

theorem ld (x' : Pre) (ch' : Bool) (z' : MSz) (f' : Bool) (t' : BitVec 7) (b' : BitVec 7) (o' : BitVec 7) : Statement (.ld x' ch' z' f' t' b' o') := by
  let w := cellV o' <| cellV b' <| cellV t' <| cellB f' <| cellN 0 3 <| cellN (42 + z'.code) 6 <| cellB ch' 0
  have hc : 42 + z'.code < 64 := by have := z'.code_lt; omega
  have hm : fld w 25 6 = 42 + z'.code := by simp only [w, hc, Nat.reducePow, Nat.reduceLeDiff, Nat.reduceSub, Nat.reduceLT, fld_zero, fld_cellV, fld_cellB, fld_cellN, fld_cellN_low]
  have hn : fld w 22 3 = 0 := by simp only [w, hc, Nat.reducePow, Nat.reduceLeDiff, Nat.reduceSub, Nat.reduceLT, fld_zero, fld_cellV, fld_cellB, fld_cellN, fld_cellN_low]
  refine of_base _ x' w rfl rfl ?_ (by rw [hm]; omega)
  rw [base_Mem_MSz_42 _ _ z' hm]
  unfold decodeMem
  rw [hn]
  first | (simp only [w, hc, Nat.reducePow, Nat.reduceLeDiff, Nat.reduceSub, Nat.reduceLT, Nat.add_sub_cancel_left, Nat.le_add_right, and_true, true_and, and_self, ↓reduceIte, fld_zero, fld_cellV, fld_cellB, fld_cellN, bvf_cellV, bvf_cellB, bvf_cellN, bit_cellV, bit_cellB, bit_cellN, fld_cellN_low, fld_cellB_low, fld_cellV_low, bvf_cellV_low, bit_cellB_low, fld_cellN_ne, fld_cellN_part, MSz.ofCode_code]; done) | simp [w, hc]

theorem ldSext (x' : Pre) (ch' : Bool) (z' : MSz) (f' : Bool) (t' : BitVec 7) (b' : BitVec 7) (o' : BitVec 7) : Statement (.ldSext x' ch' z' f' t' b' o') := by
  let w := cellV o' <| cellV b' <| cellV t' <| cellB f' <| cellN 1 3 <| cellN (42 + z'.code) 6 <| cellB ch' 0
  have hc : 42 + z'.code < 64 := by have := z'.code_lt; omega
  have hm : fld w 25 6 = 42 + z'.code := by simp only [w, hc, Nat.reducePow, Nat.reduceLeDiff, Nat.reduceSub, Nat.reduceLT, fld_zero, fld_cellV, fld_cellB, fld_cellN, fld_cellN_low]
  have hn : fld w 22 3 = 1 := by simp only [w, hc, Nat.reducePow, Nat.reduceLeDiff, Nat.reduceSub, Nat.reduceLT, fld_zero, fld_cellV, fld_cellB, fld_cellN, fld_cellN_low]
  refine of_base _ x' w rfl rfl ?_ (by rw [hm]; omega)
  rw [base_Mem_MSz_42 _ _ z' hm]
  unfold decodeMem
  rw [hn]
  first | (simp only [w, hc, Nat.reducePow, Nat.reduceLeDiff, Nat.reduceSub, Nat.reduceLT, Nat.add_sub_cancel_left, Nat.le_add_right, and_true, true_and, and_self, ↓reduceIte, fld_zero, fld_cellV, fld_cellB, fld_cellN, bvf_cellV, bvf_cellB, bvf_cellN, bit_cellV, bit_cellB, bit_cellN, fld_cellN_low, fld_cellB_low, fld_cellV_low, bvf_cellV_low, bit_cellB_low, fld_cellN_ne, fld_cellN_part, MSz.ofCode_code]; done) | simp [w, hc]

theorem st (x' : Pre) (ch' : Bool) (z' : MSz) (f' : Bool) (t' : BitVec 7) (b' : BitVec 7) (o' : BitVec 7) : Statement (.st x' ch' z' f' t' b' o') := by
  let w := cellV o' <| cellV b' <| cellV t' <| cellB f' <| cellN 2 3 <| cellN (42 + z'.code) 6 <| cellB ch' 0
  have hc : 42 + z'.code < 64 := by have := z'.code_lt; omega
  have hm : fld w 25 6 = 42 + z'.code := by simp only [w, hc, Nat.reducePow, Nat.reduceLeDiff, Nat.reduceSub, Nat.reduceLT, fld_zero, fld_cellV, fld_cellB, fld_cellN, fld_cellN_low]
  have hn : fld w 22 3 = 2 := by simp only [w, hc, Nat.reducePow, Nat.reduceLeDiff, Nat.reduceSub, Nat.reduceLT, fld_zero, fld_cellV, fld_cellB, fld_cellN, fld_cellN_low]
  refine of_base _ x' w rfl rfl ?_ (by rw [hm]; omega)
  rw [base_Mem_MSz_42 _ _ z' hm]
  unfold decodeMem
  rw [hn]
  first | (simp only [w, hc, Nat.reducePow, Nat.reduceLeDiff, Nat.reduceSub, Nat.reduceLT, Nat.add_sub_cancel_left, Nat.le_add_right, and_true, true_and, and_self, ↓reduceIte, fld_zero, fld_cellV, fld_cellB, fld_cellN, bvf_cellV, bvf_cellB, bvf_cellN, bit_cellV, bit_cellB, bit_cellN, fld_cellN_low, fld_cellB_low, fld_cellV_low, bvf_cellV_low, bit_cellB_low, fld_cellN_ne, fld_cellN_part, MSz.ofCode_code]; done) | simp [w, hc]

theorem lds (x' : Pre) (ch' : Bool) (z' : MSz) (f' : Bool) (t' : BitVec 7) (b' : BitVec 7) (o' : BitVec 7) : Statement (.lds x' ch' z' f' t' b' o') := by
  let w := cellV o' <| cellV b' <| cellV t' <| cellB f' <| cellN 3 3 <| cellN (42 + z'.code) 6 <| cellB ch' 0
  have hc : 42 + z'.code < 64 := by have := z'.code_lt; omega
  have hm : fld w 25 6 = 42 + z'.code := by simp only [w, hc, Nat.reducePow, Nat.reduceLeDiff, Nat.reduceSub, Nat.reduceLT, fld_zero, fld_cellV, fld_cellB, fld_cellN, fld_cellN_low]
  have hn : fld w 22 3 = 3 := by simp only [w, hc, Nat.reducePow, Nat.reduceLeDiff, Nat.reduceSub, Nat.reduceLT, fld_zero, fld_cellV, fld_cellB, fld_cellN, fld_cellN_low]
  refine of_base _ x' w rfl rfl ?_ (by rw [hm]; omega)
  rw [base_Mem_MSz_42 _ _ z' hm]
  unfold decodeMem
  rw [hn]
  first | (simp only [w, hc, Nat.reducePow, Nat.reduceLeDiff, Nat.reduceSub, Nat.reduceLT, Nat.add_sub_cancel_left, Nat.le_add_right, and_true, true_and, and_self, ↓reduceIte, fld_zero, fld_cellV, fld_cellB, fld_cellN, bvf_cellV, bvf_cellB, bvf_cellN, bit_cellV, bit_cellB, bit_cellN, fld_cellN_low, fld_cellB_low, fld_cellV_low, bvf_cellV_low, bit_cellB_low, fld_cellN_ne, fld_cellN_part, MSz.ofCode_code]; done) | simp [w, hc]

theorem ldsSext (x' : Pre) (ch' : Bool) (z' : MSz) (f' : Bool) (t' : BitVec 7) (b' : BitVec 7) (o' : BitVec 7) : Statement (.ldsSext x' ch' z' f' t' b' o') := by
  let w := cellV o' <| cellV b' <| cellV t' <| cellB f' <| cellN 4 3 <| cellN (42 + z'.code) 6 <| cellB ch' 0
  have hc : 42 + z'.code < 64 := by have := z'.code_lt; omega
  have hm : fld w 25 6 = 42 + z'.code := by simp only [w, hc, Nat.reducePow, Nat.reduceLeDiff, Nat.reduceSub, Nat.reduceLT, fld_zero, fld_cellV, fld_cellB, fld_cellN, fld_cellN_low]
  have hn : fld w 22 3 = 4 := by simp only [w, hc, Nat.reducePow, Nat.reduceLeDiff, Nat.reduceSub, Nat.reduceLT, fld_zero, fld_cellV, fld_cellB, fld_cellN, fld_cellN_low]
  refine of_base _ x' w rfl rfl ?_ (by rw [hm]; omega)
  rw [base_Mem_MSz_42 _ _ z' hm]
  unfold decodeMem
  rw [hn]
  first | (simp only [w, hc, Nat.reducePow, Nat.reduceLeDiff, Nat.reduceSub, Nat.reduceLT, Nat.add_sub_cancel_left, Nat.le_add_right, and_true, true_and, and_self, ↓reduceIte, fld_zero, fld_cellV, fld_cellB, fld_cellN, bvf_cellV, bvf_cellB, bvf_cellN, bit_cellV, bit_cellB, bit_cellN, fld_cellN_low, fld_cellB_low, fld_cellV_low, bvf_cellV_low, bit_cellB_low, fld_cellN_ne, fld_cellN_part, MSz.ofCode_code]; done) | simp [w, hc]

theorem sts (x' : Pre) (ch' : Bool) (z' : MSz) (f' : Bool) (t' : BitVec 7) (b' : BitVec 7) (o' : BitVec 7) : Statement (.sts x' ch' z' f' t' b' o') := by
  let w := cellV o' <| cellV b' <| cellV t' <| cellB f' <| cellN 5 3 <| cellN (42 + z'.code) 6 <| cellB ch' 0
  have hc : 42 + z'.code < 64 := by have := z'.code_lt; omega
  have hm : fld w 25 6 = 42 + z'.code := by simp only [w, hc, Nat.reducePow, Nat.reduceLeDiff, Nat.reduceSub, Nat.reduceLT, fld_zero, fld_cellV, fld_cellB, fld_cellN, fld_cellN_low]
  have hn : fld w 22 3 = 5 := by simp only [w, hc, Nat.reducePow, Nat.reduceLeDiff, Nat.reduceSub, Nat.reduceLT, fld_zero, fld_cellV, fld_cellB, fld_cellN, fld_cellN_low]
  refine of_base _ x' w rfl rfl ?_ (by rw [hm]; omega)
  rw [base_Mem_MSz_42 _ _ z' hm]
  unfold decodeMem
  rw [hn]
  first | (simp only [w, hc, Nat.reducePow, Nat.reduceLeDiff, Nat.reduceSub, Nat.reduceLT, Nat.add_sub_cancel_left, Nat.le_add_right, and_true, true_and, and_self, ↓reduceIte, fld_zero, fld_cellV, fld_cellB, fld_cellN, bvf_cellV, bvf_cellB, bvf_cellN, bit_cellV, bit_cellB, bit_cellN, fld_cellN_low, fld_cellB_low, fld_cellV_low, bvf_cellV_low, bit_cellB_low, fld_cellN_ne, fld_cellN_part, MSz.ofCode_code]; done) | simp [w, hc]

theorem ldc (x' : Pre) (ch' : Bool) (z' : MSz) (f' : Bool) (t' : BitVec 7) (b' : BitVec 7) (o' : BitVec 7) : Statement (.ldc x' ch' z' f' t' b' o') := by
  let w := cellV o' <| cellV b' <| cellV t' <| cellB f' <| cellN 6 3 <| cellN (42 + z'.code) 6 <| cellB ch' 0
  have hc : 42 + z'.code < 64 := by have := z'.code_lt; omega
  have hm : fld w 25 6 = 42 + z'.code := by simp only [w, hc, Nat.reducePow, Nat.reduceLeDiff, Nat.reduceSub, Nat.reduceLT, fld_zero, fld_cellV, fld_cellB, fld_cellN, fld_cellN_low]
  have hn : fld w 22 3 = 6 := by simp only [w, hc, Nat.reducePow, Nat.reduceLeDiff, Nat.reduceSub, Nat.reduceLT, fld_zero, fld_cellV, fld_cellB, fld_cellN, fld_cellN_low]
  refine of_base _ x' w rfl rfl ?_ (by rw [hm]; omega)
  rw [base_Mem_MSz_42 _ _ z' hm]
  unfold decodeMem
  rw [hn]
  first | (simp only [w, hc, Nat.reducePow, Nat.reduceLeDiff, Nat.reduceSub, Nat.reduceLT, Nat.add_sub_cancel_left, Nat.le_add_right, and_true, true_and, and_self, ↓reduceIte, fld_zero, fld_cellV, fld_cellB, fld_cellN, bvf_cellV, bvf_cellB, bvf_cellN, bit_cellV, bit_cellB, bit_cellN, fld_cellN_low, fld_cellB_low, fld_cellV_low, bvf_cellV_low, bit_cellB_low, fld_cellN_ne, fld_cellN_part, MSz.ofCode_code]; done) | simp [w, hc]

theorem ldm (x' : Pre) (ch' : Bool) (f' : Bool) (t' : BitVec 7) (b' : BitVec 7) (n' : BitVec 7) : Statement (.ldm x' ch' f' t' b' n') := by
  let w := cellV n' <| cellV b' <| cellV t' <| cellB f' <| cellN 0 3 <| cellN 46 6 <| cellB ch' 0
  have hm : fld w 25 6 = 46 := by simp only [w, Nat.reducePow, Nat.reduceLeDiff, Nat.reduceSub, Nat.reduceLT, fld_zero, fld_cellV, fld_cellB, fld_cellN, fld_cellN_low]
  have hn : fld w 22 3 = 0 := by simp only [w, Nat.reducePow, Nat.reduceLeDiff, Nat.reduceSub, Nat.reduceLT, fld_zero, fld_cellV, fld_cellB, fld_cellN, fld_cellN_low]
  refine of_base _ x' w rfl rfl ?_ (by rw [hm]; omega)
  rw [base_MemM_46 _ _ hm]
  unfold decodeMemM
  rw [hn]
  first | (simp only [w, Nat.reducePow, Nat.reduceLeDiff, Nat.reduceSub, Nat.reduceLT, Nat.add_sub_cancel_left, Nat.le_add_right, and_true, true_and, and_self, ↓reduceIte, fld_zero, fld_cellV, fld_cellB, fld_cellN, bvf_cellV, bvf_cellB, bvf_cellN, bit_cellV, bit_cellB, bit_cellN, fld_cellN_low, fld_cellB_low, fld_cellV_low, bvf_cellV_low, bit_cellB_low, fld_cellN_ne, fld_cellN_part]; done) | simp [w]

theorem stm (x' : Pre) (ch' : Bool) (f' : Bool) (t' : BitVec 7) (b' : BitVec 7) (n' : BitVec 7) : Statement (.stm x' ch' f' t' b' n') := by
  let w := cellV n' <| cellV b' <| cellV t' <| cellB f' <| cellN 1 3 <| cellN 46 6 <| cellB ch' 0
  have hm : fld w 25 6 = 46 := by simp only [w, Nat.reducePow, Nat.reduceLeDiff, Nat.reduceSub, Nat.reduceLT, fld_zero, fld_cellV, fld_cellB, fld_cellN, fld_cellN_low]
  have hn : fld w 22 3 = 1 := by simp only [w, Nat.reducePow, Nat.reduceLeDiff, Nat.reduceSub, Nat.reduceLT, fld_zero, fld_cellV, fld_cellB, fld_cellN, fld_cellN_low]
  refine of_base _ x' w rfl rfl ?_ (by rw [hm]; omega)
  rw [base_MemM_46 _ _ hm]
  unfold decodeMemM
  rw [hn]
  first | (simp only [w, Nat.reducePow, Nat.reduceLeDiff, Nat.reduceSub, Nat.reduceLT, Nat.add_sub_cancel_left, Nat.le_add_right, and_true, true_and, and_self, ↓reduceIte, fld_zero, fld_cellV, fld_cellB, fld_cellN, bvf_cellV, bvf_cellB, bvf_cellN, bit_cellV, bit_cellB, bit_cellN, fld_cellN_low, fld_cellB_low, fld_cellV_low, bvf_cellV_low, bit_cellB_low, fld_cellN_ne, fld_cellN_part]; done) | simp [w]

theorem prfm (x' : Pre) (ch' : Bool) (l' : BitVec 2) (b' : BitVec 7) (o' : BitVec 7) : Statement (.prfm x' ch' l' b' o') := by
  let w := cellV o' <| cellV b' <| cellV l' <| cellN 0 6 <| cellN 0 3 <| cellN 47 6 <| cellB ch' 0
  have hm : fld w 25 6 = 47 := by simp only [w, Nat.reducePow, Nat.reduceLeDiff, Nat.reduceSub, Nat.reduceLT, fld_zero, fld_cellV, fld_cellB, fld_cellN, fld_cellN_low]
  have hn : fld w 22 3 = 0 := by simp only [w, Nat.reducePow, Nat.reduceLeDiff, Nat.reduceSub, Nat.reduceLT, fld_zero, fld_cellV, fld_cellB, fld_cellN, fld_cellN_low]
  refine of_base _ x' w rfl rfl ?_ (by rw [hm]; omega)
  rw [base_Maint_47 _ _ hm]
  unfold decodeMaint
  rw [hn]
  first | (simp only [w, Nat.reducePow, Nat.reduceLeDiff, Nat.reduceSub, Nat.reduceLT, Nat.add_sub_cancel_left, Nat.le_add_right, and_true, true_and, and_self, ↓reduceIte, fld_zero, fld_cellV, fld_cellB, fld_cellN, bvf_cellV, bvf_cellB, bvf_cellN, bit_cellV, bit_cellB, bit_cellN, fld_cellN_low, fld_cellB_low, fld_cellV_low, bvf_cellV_low, bit_cellB_low, fld_cellN_ne, fld_cellN_part]; done) | simp [w]

theorem cwb (x' : Pre) (ch' : Bool) (f' : Bool) (t' : BitVec 7) (b' : BitVec 7) (o' : BitVec 7) : Statement (.cwb x' ch' f' t' b' o') := by
  let w := cellV o' <| cellV b' <| cellV t' <| cellB f' <| cellN 1 3 <| cellN 47 6 <| cellB ch' 0
  have hm : fld w 25 6 = 47 := by simp only [w, Nat.reducePow, Nat.reduceLeDiff, Nat.reduceSub, Nat.reduceLT, fld_zero, fld_cellV, fld_cellB, fld_cellN, fld_cellN_low]
  have hn : fld w 22 3 = 1 := by simp only [w, Nat.reducePow, Nat.reduceLeDiff, Nat.reduceSub, Nat.reduceLT, fld_zero, fld_cellV, fld_cellB, fld_cellN, fld_cellN_low]
  refine of_base _ x' w rfl rfl ?_ (by rw [hm]; omega)
  rw [base_Maint_47 _ _ hm]
  unfold decodeMaint
  rw [hn]
  first | (simp only [w, Nat.reducePow, Nat.reduceLeDiff, Nat.reduceSub, Nat.reduceLT, Nat.add_sub_cancel_left, Nat.le_add_right, and_true, true_and, and_self, ↓reduceIte, fld_zero, fld_cellV, fld_cellB, fld_cellN, bvf_cellV, bvf_cellB, bvf_cellN, bit_cellV, bit_cellB, bit_cellN, fld_cellN_low, fld_cellB_low, fld_cellV_low, bvf_cellV_low, bit_cellB_low, fld_cellN_ne, fld_cellN_part]; done) | simp [w]

theorem cinv (x' : Pre) (ch' : Bool) (f' : Bool) (t' : BitVec 7) (b' : BitVec 7) (o' : BitVec 7) : Statement (.cinv x' ch' f' t' b' o') := by
  let w := cellV o' <| cellV b' <| cellV t' <| cellB f' <| cellN 2 3 <| cellN 47 6 <| cellB ch' 0
  have hm : fld w 25 6 = 47 := by simp only [w, Nat.reducePow, Nat.reduceLeDiff, Nat.reduceSub, Nat.reduceLT, fld_zero, fld_cellV, fld_cellB, fld_cellN, fld_cellN_low]
  have hn : fld w 22 3 = 2 := by simp only [w, Nat.reducePow, Nat.reduceLeDiff, Nat.reduceSub, Nat.reduceLT, fld_zero, fld_cellV, fld_cellB, fld_cellN, fld_cellN_low]
  refine of_base _ x' w rfl rfl ?_ (by rw [hm]; omega)
  rw [base_Maint_47 _ _ hm]
  unfold decodeMaint
  rw [hn]
  first | (simp only [w, Nat.reducePow, Nat.reduceLeDiff, Nat.reduceSub, Nat.reduceLT, Nat.add_sub_cancel_left, Nat.le_add_right, and_true, true_and, and_self, ↓reduceIte, fld_zero, fld_cellV, fld_cellB, fld_cellN, bvf_cellV, bvf_cellB, bvf_cellN, bit_cellV, bit_cellB, bit_cellN, fld_cellN_low, fld_cellB_low, fld_cellV_low, bvf_cellV_low, bit_cellB_low, fld_cellN_ne, fld_cellN_part]; done) | simp [w]

theorem icinv (x' : Pre) (ch' : Bool) (f' : Bool) (t' : BitVec 7) (b' : BitVec 7) (o' : BitVec 7) : Statement (.icinv x' ch' f' t' b' o') := by
  let w := cellV o' <| cellV b' <| cellV t' <| cellB f' <| cellN 3 3 <| cellN 47 6 <| cellB ch' 0
  have hm : fld w 25 6 = 47 := by simp only [w, Nat.reducePow, Nat.reduceLeDiff, Nat.reduceSub, Nat.reduceLT, fld_zero, fld_cellV, fld_cellB, fld_cellN, fld_cellN_low]
  have hn : fld w 22 3 = 3 := by simp only [w, Nat.reducePow, Nat.reduceLeDiff, Nat.reduceSub, Nat.reduceLT, fld_zero, fld_cellV, fld_cellB, fld_cellN, fld_cellN_low]
  refine of_base _ x' w rfl rfl ?_ (by rw [hm]; omega)
  rw [base_Maint_47 _ _ hm]
  unfold decodeMaint
  rw [hn]
  first | (simp only [w, Nat.reducePow, Nat.reduceLeDiff, Nat.reduceSub, Nat.reduceLT, Nat.add_sub_cancel_left, Nat.le_add_right, and_true, true_and, and_self, ↓reduceIte, fld_zero, fld_cellV, fld_cellB, fld_cellN, bvf_cellV, bvf_cellB, bvf_cellN, bit_cellV, bit_cellB, bit_cellN, fld_cellN_low, fld_cellB_low, fld_cellV_low, bvf_cellV_low, bit_cellB_low, fld_cellN_ne, fld_cellN_part]; done) | simp [w]

theorem fence (x' : Pre) (ch' : Bool) (f' : Bool) : Statement (.fence x' ch' f') := by
  let w := cellN 0 21 <| cellB f' <| cellN 4 3 <| cellN 47 6 <| cellB ch' 0
  have hm : fld w 25 6 = 47 := by simp only [w, Nat.reducePow, Nat.reduceLeDiff, Nat.reduceSub, Nat.reduceLT, fld_zero, fld_cellV, fld_cellB, fld_cellN, fld_cellN_low]
  have hn : fld w 22 3 = 4 := by simp only [w, Nat.reducePow, Nat.reduceLeDiff, Nat.reduceSub, Nat.reduceLT, fld_zero, fld_cellV, fld_cellB, fld_cellN, fld_cellN_low]
  refine of_base _ x' w rfl rfl ?_ (by rw [hm]; omega)
  rw [base_Maint_47 _ _ hm]
  unfold decodeMaint
  rw [hn]
  first | (simp only [w, Nat.reducePow, Nat.reduceLeDiff, Nat.reduceSub, Nat.reduceLT, Nat.add_sub_cancel_left, Nat.le_add_right, and_true, true_and, and_self, ↓reduceIte, fld_zero, fld_cellV, fld_cellB, fld_cellN, bvf_cellV, bvf_cellB, bvf_cellN, bit_cellV, bit_cellB, bit_cellN, fld_cellN_low, fld_cellB_low, fld_cellV_low, bvf_cellV_low, bit_cellB_low, fld_cellN_ne, fld_cellN_part]; done) | simp [w]

theorem atomAdd (x' : Pre) (ch' : Bool) (t' : WTy) (d' : BitVec 7) (a' : BitVec 7) (b' : BitVec 7) : Statement (.atomAdd x' ch' t' d' a' b') := by
  let w := cellV b' <| cellV a' <| cellV d' <| cellN 0 4 <| cellN (48 + t'.code) 6 <| cellB ch' 0
  have hc : 48 + t'.code < 64 := by have := t'.code_lt; omega
  have hm : fld w 25 6 = 48 + t'.code := by simp only [w, hc, Nat.reducePow, Nat.reduceLeDiff, Nat.reduceSub, Nat.reduceLT, fld_zero, fld_cellV, fld_cellB, fld_cellN, fld_cellN_low]
  have hn : fld w 21 4 = 0 := by simp only [w, hc, Nat.reducePow, Nat.reduceLeDiff, Nat.reduceSub, Nat.reduceLT, fld_zero, fld_cellV, fld_cellB, fld_cellN, fld_cellN_low]
  refine of_base _ x' w rfl rfl ?_ (by rw [hm]; omega)
  rw [base_Atomic_WTy_48 _ _ t' hm]
  unfold decodeAtomic
  rw [hn]
  first | (simp only [w, hc, Nat.reducePow, Nat.reduceLeDiff, Nat.reduceSub, Nat.reduceLT, Nat.add_sub_cancel_left, Nat.le_add_right, and_true, true_and, and_self, ↓reduceIte, fld_zero, fld_cellV, fld_cellB, fld_cellN, bvf_cellV, bvf_cellB, bvf_cellN, bit_cellV, bit_cellB, bit_cellN, fld_cellN_low, fld_cellB_low, fld_cellV_low, bvf_cellV_low, bit_cellB_low, fld_cellN_ne, fld_cellN_part, WTy.ofCode_code]; done) | simp [w, hc]

theorem atomMin (x' : Pre) (ch' : Bool) (t' : WTy) (d' : BitVec 7) (a' : BitVec 7) (b' : BitVec 7) : Statement (.atomMin x' ch' t' d' a' b') := by
  let w := cellV b' <| cellV a' <| cellV d' <| cellN 1 4 <| cellN (48 + t'.code) 6 <| cellB ch' 0
  have hc : 48 + t'.code < 64 := by have := t'.code_lt; omega
  have hm : fld w 25 6 = 48 + t'.code := by simp only [w, hc, Nat.reducePow, Nat.reduceLeDiff, Nat.reduceSub, Nat.reduceLT, fld_zero, fld_cellV, fld_cellB, fld_cellN, fld_cellN_low]
  have hn : fld w 21 4 = 1 := by simp only [w, hc, Nat.reducePow, Nat.reduceLeDiff, Nat.reduceSub, Nat.reduceLT, fld_zero, fld_cellV, fld_cellB, fld_cellN, fld_cellN_low]
  refine of_base _ x' w rfl rfl ?_ (by rw [hm]; omega)
  rw [base_Atomic_WTy_48 _ _ t' hm]
  unfold decodeAtomic
  rw [hn]
  first | (simp only [w, hc, Nat.reducePow, Nat.reduceLeDiff, Nat.reduceSub, Nat.reduceLT, Nat.add_sub_cancel_left, Nat.le_add_right, and_true, true_and, and_self, ↓reduceIte, fld_zero, fld_cellV, fld_cellB, fld_cellN, bvf_cellV, bvf_cellB, bvf_cellN, bit_cellV, bit_cellB, bit_cellN, fld_cellN_low, fld_cellB_low, fld_cellV_low, bvf_cellV_low, bit_cellB_low, fld_cellN_ne, fld_cellN_part, WTy.ofCode_code]; done) | simp [w, hc]

theorem atomMax (x' : Pre) (ch' : Bool) (t' : WTy) (d' : BitVec 7) (a' : BitVec 7) (b' : BitVec 7) : Statement (.atomMax x' ch' t' d' a' b') := by
  let w := cellV b' <| cellV a' <| cellV d' <| cellN 2 4 <| cellN (48 + t'.code) 6 <| cellB ch' 0
  have hc : 48 + t'.code < 64 := by have := t'.code_lt; omega
  have hm : fld w 25 6 = 48 + t'.code := by simp only [w, hc, Nat.reducePow, Nat.reduceLeDiff, Nat.reduceSub, Nat.reduceLT, fld_zero, fld_cellV, fld_cellB, fld_cellN, fld_cellN_low]
  have hn : fld w 21 4 = 2 := by simp only [w, hc, Nat.reducePow, Nat.reduceLeDiff, Nat.reduceSub, Nat.reduceLT, fld_zero, fld_cellV, fld_cellB, fld_cellN, fld_cellN_low]
  refine of_base _ x' w rfl rfl ?_ (by rw [hm]; omega)
  rw [base_Atomic_WTy_48 _ _ t' hm]
  unfold decodeAtomic
  rw [hn]
  first | (simp only [w, hc, Nat.reducePow, Nat.reduceLeDiff, Nat.reduceSub, Nat.reduceLT, Nat.add_sub_cancel_left, Nat.le_add_right, and_true, true_and, and_self, ↓reduceIte, fld_zero, fld_cellV, fld_cellB, fld_cellN, bvf_cellV, bvf_cellB, bvf_cellN, bit_cellV, bit_cellB, bit_cellN, fld_cellN_low, fld_cellB_low, fld_cellV_low, bvf_cellV_low, bit_cellB_low, fld_cellN_ne, fld_cellN_part, WTy.ofCode_code]; done) | simp [w, hc]

theorem atomAnd (x' : Pre) (ch' : Bool) (t' : WTy) (d' : BitVec 7) (a' : BitVec 7) (b' : BitVec 7) : Statement (.atomAnd x' ch' t' d' a' b') := by
  let w := cellV b' <| cellV a' <| cellV d' <| cellN 3 4 <| cellN (48 + t'.code) 6 <| cellB ch' 0
  have hc : 48 + t'.code < 64 := by have := t'.code_lt; omega
  have hm : fld w 25 6 = 48 + t'.code := by simp only [w, hc, Nat.reducePow, Nat.reduceLeDiff, Nat.reduceSub, Nat.reduceLT, fld_zero, fld_cellV, fld_cellB, fld_cellN, fld_cellN_low]
  have hn : fld w 21 4 = 3 := by simp only [w, hc, Nat.reducePow, Nat.reduceLeDiff, Nat.reduceSub, Nat.reduceLT, fld_zero, fld_cellV, fld_cellB, fld_cellN, fld_cellN_low]
  refine of_base _ x' w rfl rfl ?_ (by rw [hm]; omega)
  rw [base_Atomic_WTy_48 _ _ t' hm]
  unfold decodeAtomic
  rw [hn]
  first | (simp only [w, hc, Nat.reducePow, Nat.reduceLeDiff, Nat.reduceSub, Nat.reduceLT, Nat.add_sub_cancel_left, Nat.le_add_right, and_true, true_and, and_self, ↓reduceIte, fld_zero, fld_cellV, fld_cellB, fld_cellN, bvf_cellV, bvf_cellB, bvf_cellN, bit_cellV, bit_cellB, bit_cellN, fld_cellN_low, fld_cellB_low, fld_cellV_low, bvf_cellV_low, bit_cellB_low, fld_cellN_ne, fld_cellN_part, WTy.ofCode_code]; done) | simp [w, hc]

theorem atomOr (x' : Pre) (ch' : Bool) (t' : WTy) (d' : BitVec 7) (a' : BitVec 7) (b' : BitVec 7) : Statement (.atomOr x' ch' t' d' a' b') := by
  let w := cellV b' <| cellV a' <| cellV d' <| cellN 4 4 <| cellN (48 + t'.code) 6 <| cellB ch' 0
  have hc : 48 + t'.code < 64 := by have := t'.code_lt; omega
  have hm : fld w 25 6 = 48 + t'.code := by simp only [w, hc, Nat.reducePow, Nat.reduceLeDiff, Nat.reduceSub, Nat.reduceLT, fld_zero, fld_cellV, fld_cellB, fld_cellN, fld_cellN_low]
  have hn : fld w 21 4 = 4 := by simp only [w, hc, Nat.reducePow, Nat.reduceLeDiff, Nat.reduceSub, Nat.reduceLT, fld_zero, fld_cellV, fld_cellB, fld_cellN, fld_cellN_low]
  refine of_base _ x' w rfl rfl ?_ (by rw [hm]; omega)
  rw [base_Atomic_WTy_48 _ _ t' hm]
  unfold decodeAtomic
  rw [hn]
  first | (simp only [w, hc, Nat.reducePow, Nat.reduceLeDiff, Nat.reduceSub, Nat.reduceLT, Nat.add_sub_cancel_left, Nat.le_add_right, and_true, true_and, and_self, ↓reduceIte, fld_zero, fld_cellV, fld_cellB, fld_cellN, bvf_cellV, bvf_cellB, bvf_cellN, bit_cellV, bit_cellB, bit_cellN, fld_cellN_low, fld_cellB_low, fld_cellV_low, bvf_cellV_low, bit_cellB_low, fld_cellN_ne, fld_cellN_part, WTy.ofCode_code]; done) | simp [w, hc]

theorem atomXor (x' : Pre) (ch' : Bool) (t' : WTy) (d' : BitVec 7) (a' : BitVec 7) (b' : BitVec 7) : Statement (.atomXor x' ch' t' d' a' b') := by
  let w := cellV b' <| cellV a' <| cellV d' <| cellN 5 4 <| cellN (48 + t'.code) 6 <| cellB ch' 0
  have hc : 48 + t'.code < 64 := by have := t'.code_lt; omega
  have hm : fld w 25 6 = 48 + t'.code := by simp only [w, hc, Nat.reducePow, Nat.reduceLeDiff, Nat.reduceSub, Nat.reduceLT, fld_zero, fld_cellV, fld_cellB, fld_cellN, fld_cellN_low]
  have hn : fld w 21 4 = 5 := by simp only [w, hc, Nat.reducePow, Nat.reduceLeDiff, Nat.reduceSub, Nat.reduceLT, fld_zero, fld_cellV, fld_cellB, fld_cellN, fld_cellN_low]
  refine of_base _ x' w rfl rfl ?_ (by rw [hm]; omega)
  rw [base_Atomic_WTy_48 _ _ t' hm]
  unfold decodeAtomic
  rw [hn]
  first | (simp only [w, hc, Nat.reducePow, Nat.reduceLeDiff, Nat.reduceSub, Nat.reduceLT, Nat.add_sub_cancel_left, Nat.le_add_right, and_true, true_and, and_self, ↓reduceIte, fld_zero, fld_cellV, fld_cellB, fld_cellN, bvf_cellV, bvf_cellB, bvf_cellN, bit_cellV, bit_cellB, bit_cellN, fld_cellN_low, fld_cellB_low, fld_cellV_low, bvf_cellV_low, bit_cellB_low, fld_cellN_ne, fld_cellN_part, WTy.ofCode_code]; done) | simp [w, hc]

theorem atomExch (x' : Pre) (ch' : Bool) (t' : WTy) (d' : BitVec 7) (a' : BitVec 7) (b' : BitVec 7) : Statement (.atomExch x' ch' t' d' a' b') := by
  let w := cellV b' <| cellV a' <| cellV d' <| cellN 6 4 <| cellN (48 + t'.code) 6 <| cellB ch' 0
  have hc : 48 + t'.code < 64 := by have := t'.code_lt; omega
  have hm : fld w 25 6 = 48 + t'.code := by simp only [w, hc, Nat.reducePow, Nat.reduceLeDiff, Nat.reduceSub, Nat.reduceLT, fld_zero, fld_cellV, fld_cellB, fld_cellN, fld_cellN_low]
  have hn : fld w 21 4 = 6 := by simp only [w, hc, Nat.reducePow, Nat.reduceLeDiff, Nat.reduceSub, Nat.reduceLT, fld_zero, fld_cellV, fld_cellB, fld_cellN, fld_cellN_low]
  refine of_base _ x' w rfl rfl ?_ (by rw [hm]; omega)
  rw [base_Atomic_WTy_48 _ _ t' hm]
  unfold decodeAtomic
  rw [hn]
  first | (simp only [w, hc, Nat.reducePow, Nat.reduceLeDiff, Nat.reduceSub, Nat.reduceLT, Nat.add_sub_cancel_left, Nat.le_add_right, and_true, true_and, and_self, ↓reduceIte, fld_zero, fld_cellV, fld_cellB, fld_cellN, bvf_cellV, bvf_cellB, bvf_cellN, bit_cellV, bit_cellB, bit_cellN, fld_cellN_low, fld_cellB_low, fld_cellV_low, bvf_cellV_low, bit_cellB_low, fld_cellN_ne, fld_cellN_part, WTy.ofCode_code]; done) | simp [w, hc]

theorem atomc (x' : Pre) (ch' : Bool) (t' : WTy) (d' : BitVec 7) (a' : BitVec 7) (b' : BitVec 7) : Statement (.atomc x' ch' t' d' a' b') := by
  let w := cellV b' <| cellV a' <| cellV d' <| cellN 7 4 <| cellN (48 + t'.code) 6 <| cellB ch' 0
  have hc : 48 + t'.code < 64 := by have := t'.code_lt; omega
  have hm : fld w 25 6 = 48 + t'.code := by simp only [w, hc, Nat.reducePow, Nat.reduceLeDiff, Nat.reduceSub, Nat.reduceLT, fld_zero, fld_cellV, fld_cellB, fld_cellN, fld_cellN_low]
  have hn : fld w 21 4 = 7 := by simp only [w, hc, Nat.reducePow, Nat.reduceLeDiff, Nat.reduceSub, Nat.reduceLT, fld_zero, fld_cellV, fld_cellB, fld_cellN, fld_cellN_low]
  refine of_base _ x' w rfl rfl ?_ (by rw [hm]; omega)
  rw [base_Atomic_WTy_48 _ _ t' hm]
  unfold decodeAtomic
  rw [hn]
  first | (simp only [w, hc, Nat.reducePow, Nat.reduceLeDiff, Nat.reduceSub, Nat.reduceLT, Nat.add_sub_cancel_left, Nat.le_add_right, and_true, true_and, and_self, ↓reduceIte, fld_zero, fld_cellV, fld_cellB, fld_cellN, bvf_cellV, bvf_cellB, bvf_cellN, bit_cellV, bit_cellB, bit_cellN, fld_cellN_low, fld_cellB_low, fld_cellV_low, bvf_cellV_low, bit_cellB_low, fld_cellN_ne, fld_cellN_part, WTy.ofCode_code]; done) | simp [w, hc]

theorem redAdd (x' : Pre) (ch' : Bool) (t' : WTy) (a' : BitVec 7) (b' : BitVec 7) : Statement (.redAdd x' ch' t' a' b') := by
  let w := cellV b' <| cellV a' <| cellN 0 7 <| cellN 8 4 <| cellN (48 + t'.code) 6 <| cellB ch' 0
  have hc : 48 + t'.code < 64 := by have := t'.code_lt; omega
  have hm : fld w 25 6 = 48 + t'.code := by simp only [w, hc, Nat.reducePow, Nat.reduceLeDiff, Nat.reduceSub, Nat.reduceLT, fld_zero, fld_cellV, fld_cellB, fld_cellN, fld_cellN_low]
  have hn : fld w 21 4 = 8 := by simp only [w, hc, Nat.reducePow, Nat.reduceLeDiff, Nat.reduceSub, Nat.reduceLT, fld_zero, fld_cellV, fld_cellB, fld_cellN, fld_cellN_low]
  refine of_base _ x' w rfl rfl ?_ (by rw [hm]; omega)
  rw [base_Atomic_WTy_48 _ _ t' hm]
  unfold decodeAtomic
  rw [hn]
  first | (simp only [w, hc, Nat.reducePow, Nat.reduceLeDiff, Nat.reduceSub, Nat.reduceLT, Nat.add_sub_cancel_left, Nat.le_add_right, and_true, true_and, and_self, ↓reduceIte, fld_zero, fld_cellV, fld_cellB, fld_cellN, bvf_cellV, bvf_cellB, bvf_cellN, bit_cellV, bit_cellB, bit_cellN, fld_cellN_low, fld_cellB_low, fld_cellV_low, bvf_cellV_low, bit_cellB_low, fld_cellN_ne, fld_cellN_part, WTy.ofCode_code]; done) | simp [w, hc]

theorem redMin (x' : Pre) (ch' : Bool) (t' : WTy) (a' : BitVec 7) (b' : BitVec 7) : Statement (.redMin x' ch' t' a' b') := by
  let w := cellV b' <| cellV a' <| cellN 0 7 <| cellN 9 4 <| cellN (48 + t'.code) 6 <| cellB ch' 0
  have hc : 48 + t'.code < 64 := by have := t'.code_lt; omega
  have hm : fld w 25 6 = 48 + t'.code := by simp only [w, hc, Nat.reducePow, Nat.reduceLeDiff, Nat.reduceSub, Nat.reduceLT, fld_zero, fld_cellV, fld_cellB, fld_cellN, fld_cellN_low]
  have hn : fld w 21 4 = 9 := by simp only [w, hc, Nat.reducePow, Nat.reduceLeDiff, Nat.reduceSub, Nat.reduceLT, fld_zero, fld_cellV, fld_cellB, fld_cellN, fld_cellN_low]
  refine of_base _ x' w rfl rfl ?_ (by rw [hm]; omega)
  rw [base_Atomic_WTy_48 _ _ t' hm]
  unfold decodeAtomic
  rw [hn]
  first | (simp only [w, hc, Nat.reducePow, Nat.reduceLeDiff, Nat.reduceSub, Nat.reduceLT, Nat.add_sub_cancel_left, Nat.le_add_right, and_true, true_and, and_self, ↓reduceIte, fld_zero, fld_cellV, fld_cellB, fld_cellN, bvf_cellV, bvf_cellB, bvf_cellN, bit_cellV, bit_cellB, bit_cellN, fld_cellN_low, fld_cellB_low, fld_cellV_low, bvf_cellV_low, bit_cellB_low, fld_cellN_ne, fld_cellN_part, WTy.ofCode_code]; done) | simp [w, hc]

theorem redMax (x' : Pre) (ch' : Bool) (t' : WTy) (a' : BitVec 7) (b' : BitVec 7) : Statement (.redMax x' ch' t' a' b') := by
  let w := cellV b' <| cellV a' <| cellN 0 7 <| cellN 10 4 <| cellN (48 + t'.code) 6 <| cellB ch' 0
  have hc : 48 + t'.code < 64 := by have := t'.code_lt; omega
  have hm : fld w 25 6 = 48 + t'.code := by simp only [w, hc, Nat.reducePow, Nat.reduceLeDiff, Nat.reduceSub, Nat.reduceLT, fld_zero, fld_cellV, fld_cellB, fld_cellN, fld_cellN_low]
  have hn : fld w 21 4 = 10 := by simp only [w, hc, Nat.reducePow, Nat.reduceLeDiff, Nat.reduceSub, Nat.reduceLT, fld_zero, fld_cellV, fld_cellB, fld_cellN, fld_cellN_low]
  refine of_base _ x' w rfl rfl ?_ (by rw [hm]; omega)
  rw [base_Atomic_WTy_48 _ _ t' hm]
  unfold decodeAtomic
  rw [hn]
  first | (simp only [w, hc, Nat.reducePow, Nat.reduceLeDiff, Nat.reduceSub, Nat.reduceLT, Nat.add_sub_cancel_left, Nat.le_add_right, and_true, true_and, and_self, ↓reduceIte, fld_zero, fld_cellV, fld_cellB, fld_cellN, bvf_cellV, bvf_cellB, bvf_cellN, bit_cellV, bit_cellB, bit_cellN, fld_cellN_low, fld_cellB_low, fld_cellV_low, bvf_cellV_low, bit_cellB_low, fld_cellN_ne, fld_cellN_part, WTy.ofCode_code]; done) | simp [w, hc]

theorem redAnd (x' : Pre) (ch' : Bool) (t' : WTy) (a' : BitVec 7) (b' : BitVec 7) : Statement (.redAnd x' ch' t' a' b') := by
  let w := cellV b' <| cellV a' <| cellN 0 7 <| cellN 11 4 <| cellN (48 + t'.code) 6 <| cellB ch' 0
  have hc : 48 + t'.code < 64 := by have := t'.code_lt; omega
  have hm : fld w 25 6 = 48 + t'.code := by simp only [w, hc, Nat.reducePow, Nat.reduceLeDiff, Nat.reduceSub, Nat.reduceLT, fld_zero, fld_cellV, fld_cellB, fld_cellN, fld_cellN_low]
  have hn : fld w 21 4 = 11 := by simp only [w, hc, Nat.reducePow, Nat.reduceLeDiff, Nat.reduceSub, Nat.reduceLT, fld_zero, fld_cellV, fld_cellB, fld_cellN, fld_cellN_low]
  refine of_base _ x' w rfl rfl ?_ (by rw [hm]; omega)
  rw [base_Atomic_WTy_48 _ _ t' hm]
  unfold decodeAtomic
  rw [hn]
  first | (simp only [w, hc, Nat.reducePow, Nat.reduceLeDiff, Nat.reduceSub, Nat.reduceLT, Nat.add_sub_cancel_left, Nat.le_add_right, and_true, true_and, and_self, ↓reduceIte, fld_zero, fld_cellV, fld_cellB, fld_cellN, bvf_cellV, bvf_cellB, bvf_cellN, bit_cellV, bit_cellB, bit_cellN, fld_cellN_low, fld_cellB_low, fld_cellV_low, bvf_cellV_low, bit_cellB_low, fld_cellN_ne, fld_cellN_part, WTy.ofCode_code]; done) | simp [w, hc]

theorem redOr (x' : Pre) (ch' : Bool) (t' : WTy) (a' : BitVec 7) (b' : BitVec 7) : Statement (.redOr x' ch' t' a' b') := by
  let w := cellV b' <| cellV a' <| cellN 0 7 <| cellN 12 4 <| cellN (48 + t'.code) 6 <| cellB ch' 0
  have hc : 48 + t'.code < 64 := by have := t'.code_lt; omega
  have hm : fld w 25 6 = 48 + t'.code := by simp only [w, hc, Nat.reducePow, Nat.reduceLeDiff, Nat.reduceSub, Nat.reduceLT, fld_zero, fld_cellV, fld_cellB, fld_cellN, fld_cellN_low]
  have hn : fld w 21 4 = 12 := by simp only [w, hc, Nat.reducePow, Nat.reduceLeDiff, Nat.reduceSub, Nat.reduceLT, fld_zero, fld_cellV, fld_cellB, fld_cellN, fld_cellN_low]
  refine of_base _ x' w rfl rfl ?_ (by rw [hm]; omega)
  rw [base_Atomic_WTy_48 _ _ t' hm]
  unfold decodeAtomic
  rw [hn]
  first | (simp only [w, hc, Nat.reducePow, Nat.reduceLeDiff, Nat.reduceSub, Nat.reduceLT, Nat.add_sub_cancel_left, Nat.le_add_right, and_true, true_and, and_self, ↓reduceIte, fld_zero, fld_cellV, fld_cellB, fld_cellN, bvf_cellV, bvf_cellB, bvf_cellN, bit_cellV, bit_cellB, bit_cellN, fld_cellN_low, fld_cellB_low, fld_cellV_low, bvf_cellV_low, bit_cellB_low, fld_cellN_ne, fld_cellN_part, WTy.ofCode_code]; done) | simp [w, hc]

theorem redXor (x' : Pre) (ch' : Bool) (t' : WTy) (a' : BitVec 7) (b' : BitVec 7) : Statement (.redXor x' ch' t' a' b') := by
  let w := cellV b' <| cellV a' <| cellN 0 7 <| cellN 13 4 <| cellN (48 + t'.code) 6 <| cellB ch' 0
  have hc : 48 + t'.code < 64 := by have := t'.code_lt; omega
  have hm : fld w 25 6 = 48 + t'.code := by simp only [w, hc, Nat.reducePow, Nat.reduceLeDiff, Nat.reduceSub, Nat.reduceLT, fld_zero, fld_cellV, fld_cellB, fld_cellN, fld_cellN_low]
  have hn : fld w 21 4 = 13 := by simp only [w, hc, Nat.reducePow, Nat.reduceLeDiff, Nat.reduceSub, Nat.reduceLT, fld_zero, fld_cellV, fld_cellB, fld_cellN, fld_cellN_low]
  refine of_base _ x' w rfl rfl ?_ (by rw [hm]; omega)
  rw [base_Atomic_WTy_48 _ _ t' hm]
  unfold decodeAtomic
  rw [hn]
  first | (simp only [w, hc, Nat.reducePow, Nat.reduceLeDiff, Nat.reduceSub, Nat.reduceLT, Nat.add_sub_cancel_left, Nat.le_add_right, and_true, true_and, and_self, ↓reduceIte, fld_zero, fld_cellV, fld_cellB, fld_cellN, bvf_cellV, bvf_cellB, bvf_cellN, bit_cellV, bit_cellB, bit_cellN, fld_cellN_low, fld_cellB_low, fld_cellV_low, bvf_cellV_low, bit_cellB_low, fld_cellN_ne, fld_cellN_part, WTy.ofCode_code]; done) | simp [w, hc]

theorem waitc (x' : Pre) (ch' : Bool) (t' : WTy) (n' : BitVec 4) (a' : BitVec 7) (b' : BitVec 7) : Statement (.waitc x' ch' t' n' a' b') := by
  let w := cellV b' <| cellV a' <| cellN 0 3 <| cellV n' <| cellN 14 4 <| cellN (48 + t'.code) 6 <| cellB ch' 0
  have hc : 48 + t'.code < 64 := by have := t'.code_lt; omega
  have hm : fld w 25 6 = 48 + t'.code := by simp only [w, hc, Nat.reducePow, Nat.reduceLeDiff, Nat.reduceSub, Nat.reduceLT, fld_zero, fld_cellV, fld_cellB, fld_cellN, fld_cellN_low]
  have hn : fld w 21 4 = 14 := by simp only [w, hc, Nat.reducePow, Nat.reduceLeDiff, Nat.reduceSub, Nat.reduceLT, fld_zero, fld_cellV, fld_cellB, fld_cellN, fld_cellN_low]
  refine of_base _ x' w rfl rfl ?_ (by rw [hm]; omega)
  rw [base_Atomic_WTy_48 _ _ t' hm]
  unfold decodeAtomic
  rw [hn]
  first | (simp only [w, hc, Nat.reducePow, Nat.reduceLeDiff, Nat.reduceSub, Nat.reduceLT, Nat.add_sub_cancel_left, Nat.le_add_right, and_true, true_and, and_self, ↓reduceIte, fld_zero, fld_cellV, fld_cellB, fld_cellN, bvf_cellV, bvf_cellB, bvf_cellN, bit_cellV, bit_cellB, bit_cellN, fld_cellN_low, fld_cellB_low, fld_cellV_low, bvf_cellV_low, bit_cellB_low, fld_cellN_ne, fld_cellN_part, WTy.ofCode_code]; done) | simp [w, hc]

theorem atomFadd (x' : Pre) (ch' : Bool) (t' : ATy) (d' : BitVec 7) (a' : BitVec 7) (b' : BitVec 7) : Statement (.atomFadd x' ch' t' d' a' b') := by
  let w := cellV b' <| cellV a' <| cellV d' <| cellN 0 4 <| cellN (52 + t'.code) 6 <| cellB ch' 0
  have hc : 52 + t'.code < 64 := by have := t'.code_lt; omega
  have hm : fld w 25 6 = 52 + t'.code := by simp only [w, hc, Nat.reducePow, Nat.reduceLeDiff, Nat.reduceSub, Nat.reduceLT, fld_zero, fld_cellV, fld_cellB, fld_cellN, fld_cellN_low]
  have hn : fld w 21 4 = 0 := by simp only [w, hc, Nat.reducePow, Nat.reduceLeDiff, Nat.reduceSub, Nat.reduceLT, fld_zero, fld_cellV, fld_cellB, fld_cellN, fld_cellN_low]
  refine of_base _ x' w rfl rfl ?_ (by rw [hm]; omega)
  rw [base_AtomicF_ATy_52 _ _ t' hm]
  unfold decodeAtomicF
  rw [hn]
  first | (simp only [w, hc, Nat.reducePow, Nat.reduceLeDiff, Nat.reduceSub, Nat.reduceLT, Nat.add_sub_cancel_left, Nat.le_add_right, and_true, true_and, and_self, ↓reduceIte, fld_zero, fld_cellV, fld_cellB, fld_cellN, bvf_cellV, bvf_cellB, bvf_cellN, bit_cellV, bit_cellB, bit_cellN, fld_cellN_low, fld_cellB_low, fld_cellV_low, bvf_cellV_low, bit_cellB_low, fld_cellN_ne, fld_cellN_part, ATy.ofCode_code]; done) | simp [w, hc]

theorem redFadd (x' : Pre) (ch' : Bool) (t' : ATy) (a' : BitVec 7) (b' : BitVec 7) : Statement (.redFadd x' ch' t' a' b') := by
  let w := cellV b' <| cellV a' <| cellN 0 7 <| cellN 8 4 <| cellN (52 + t'.code) 6 <| cellB ch' 0
  have hc : 52 + t'.code < 64 := by have := t'.code_lt; omega
  have hm : fld w 25 6 = 52 + t'.code := by simp only [w, hc, Nat.reducePow, Nat.reduceLeDiff, Nat.reduceSub, Nat.reduceLT, fld_zero, fld_cellV, fld_cellB, fld_cellN, fld_cellN_low]
  have hn : fld w 21 4 = 8 := by simp only [w, hc, Nat.reducePow, Nat.reduceLeDiff, Nat.reduceSub, Nat.reduceLT, fld_zero, fld_cellV, fld_cellB, fld_cellN, fld_cellN_low]
  refine of_base _ x' w rfl rfl ?_ (by rw [hm]; omega)
  rw [base_AtomicF_ATy_52 _ _ t' hm]
  unfold decodeAtomicF
  rw [hn]
  first | (simp only [w, hc, Nat.reducePow, Nat.reduceLeDiff, Nat.reduceSub, Nat.reduceLT, Nat.add_sub_cancel_left, Nat.le_add_right, and_true, true_and, and_self, ↓reduceIte, fld_zero, fld_cellV, fld_cellB, fld_cellN, bvf_cellV, bvf_cellB, bvf_cellN, bit_cellV, bit_cellB, bit_cellN, fld_cellN_low, fld_cellB_low, fld_cellV_low, bvf_cellV_low, bit_cellB_low, fld_cellN_ne, fld_cellN_part, ATy.ofCode_code]; done) | simp [w, hc]

theorem ldtile (x' : Pre) (ch' : Bool) (q' : BitVec 3) (a' : BitVec 7) : Statement (.ldtile x' ch' q' a') := by
  let w := cellN 0 10 <| cellV a' <| cellV q' <| cellN 0 1 <| cellN 0 4 <| cellN 54 6 <| cellB ch' 0
  have hm : fld w 25 6 = 54 := by simp only [w, Nat.reducePow, Nat.reduceLeDiff, Nat.reduceSub, Nat.reduceLT, fld_zero, fld_cellV, fld_cellB, fld_cellN, fld_cellN_low]
  have hn : fld w 21 4 = 0 := by simp only [w, Nat.reducePow, Nat.reduceLeDiff, Nat.reduceSub, Nat.reduceLT, fld_zero, fld_cellV, fld_cellB, fld_cellN, fld_cellN_low]
  refine of_base _ x' w rfl rfl ?_ (by rw [hm]; omega)
  rw [base_Queue_54 _ _ hm]
  unfold decodeQueue
  rw [hn]
  first | (simp only [w, Nat.reducePow, Nat.reduceLeDiff, Nat.reduceSub, Nat.reduceLT, Nat.add_sub_cancel_left, Nat.le_add_right, and_true, true_and, and_self, ↓reduceIte, fld_zero, fld_cellV, fld_cellB, fld_cellN, bvf_cellV, bvf_cellB, bvf_cellN, bit_cellV, bit_cellB, bit_cellN, fld_cellN_low, fld_cellB_low, fld_cellV_low, bvf_cellV_low, bit_cellB_low, fld_cellN_ne, fld_cellN_part]; done) | simp [w]

theorem qbindNone (x' : Pre) (ch' : Bool) (q' : BitVec 3) : Statement (.qbindNone x' ch' q') := by
  let w := cellN 0 17 <| cellV q' <| cellN 0 1 <| cellN 1 4 <| cellN 54 6 <| cellB ch' 0
  have hm : fld w 25 6 = 54 := by simp only [w, Nat.reducePow, Nat.reduceLeDiff, Nat.reduceSub, Nat.reduceLT, fld_zero, fld_cellV, fld_cellB, fld_cellN, fld_cellN_low]
  have hn : fld w 21 4 = 1 := by simp only [w, Nat.reducePow, Nat.reduceLeDiff, Nat.reduceSub, Nat.reduceLT, fld_zero, fld_cellV, fld_cellB, fld_cellN, fld_cellN_low]
  refine of_base _ x' w rfl rfl ?_ (by rw [hm]; omega)
  rw [base_Queue_54 _ _ hm]
  unfold decodeQueue
  rw [hn]
  first | (simp only [w, Nat.reducePow, Nat.reduceLeDiff, Nat.reduceSub, Nat.reduceLT, Nat.add_sub_cancel_left, Nat.le_add_right, and_true, true_and, and_self, ↓reduceIte, fld_zero, fld_cellV, fld_cellB, fld_cellN, bvf_cellV, bvf_cellB, bvf_cellN, bit_cellV, bit_cellB, bit_cellN, fld_cellN_low, fld_cellB_low, fld_cellV_low, bvf_cellV_low, bit_cellB_low, fld_cellN_ne, fld_cellN_part]; done) | simp [w]

theorem qbindCmd (x' : Pre) (ch' : Bool) (q' : BitVec 3) : Statement (.qbindCmd x' ch' q') := by
  let w := cellN 1 17 <| cellV q' <| cellN 0 1 <| cellN 1 4 <| cellN 54 6 <| cellB ch' 0
  have hm : fld w 25 6 = 54 := by simp only [w, Nat.reducePow, Nat.reduceLeDiff, Nat.reduceSub, Nat.reduceLT, fld_zero, fld_cellV, fld_cellB, fld_cellN, fld_cellN_low]
  have hn : fld w 21 4 = 1 := by simp only [w, Nat.reducePow, Nat.reduceLeDiff, Nat.reduceSub, Nat.reduceLT, fld_zero, fld_cellV, fld_cellB, fld_cellN, fld_cellN_low]
  refine of_base _ x' w rfl rfl ?_ (by rw [hm]; omega)
  rw [base_Queue_54 _ _ hm]
  unfold decodeQueue
  rw [hn]
  first | (simp only [w, Nat.reducePow, Nat.reduceLeDiff, Nat.reduceSub, Nat.reduceLT, Nat.add_sub_cancel_left, Nat.le_add_right, and_true, true_and, and_self, ↓reduceIte, fld_zero, fld_cellV, fld_cellB, fld_cellN, bvf_cellV, bvf_cellB, bvf_cellN, bit_cellV, bit_cellB, bit_cellN, fld_cellN_low, fld_cellB_low, fld_cellV_low, bvf_cellV_low, bit_cellB_low, fld_cellN_ne, fld_cellN_part]; done) | simp [w]

theorem qbindTok (x' : Pre) (ch' : Bool) (q' : BitVec 3) : Statement (.qbindTok x' ch' q') := by
  let w := cellN 2 17 <| cellV q' <| cellN 0 1 <| cellN 1 4 <| cellN 54 6 <| cellB ch' 0
  have hm : fld w 25 6 = 54 := by simp only [w, Nat.reducePow, Nat.reduceLeDiff, Nat.reduceSub, Nat.reduceLT, fld_zero, fld_cellV, fld_cellB, fld_cellN, fld_cellN_low]
  have hn : fld w 21 4 = 1 := by simp only [w, Nat.reducePow, Nat.reduceLeDiff, Nat.reduceSub, Nat.reduceLT, fld_zero, fld_cellV, fld_cellB, fld_cellN, fld_cellN_low]
  refine of_base _ x' w rfl rfl ?_ (by rw [hm]; omega)
  rw [base_Queue_54 _ _ hm]
  unfold decodeQueue
  rw [hn]
  first | (simp only [w, Nat.reducePow, Nat.reduceLeDiff, Nat.reduceSub, Nat.reduceLT, Nat.add_sub_cancel_left, Nat.le_add_right, and_true, true_and, and_self, ↓reduceIte, fld_zero, fld_cellV, fld_cellB, fld_cellN, bvf_cellV, bvf_cellB, bvf_cellN, bit_cellV, bit_cellB, bit_cellN, fld_cellN_low, fld_cellB_low, fld_cellV_low, bvf_cellV_low, bit_cellB_low, fld_cellN_ne, fld_cellN_part]; done) | simp [w]

theorem qbindEng (x' : Pre) (ch' : Bool) (q' : BitVec 3) (a' : BitVec 7) : Statement (.qbindEng x' ch' q' a') := by
  let w := cellN 3 10 <| cellV a' <| cellV q' <| cellN 0 1 <| cellN 1 4 <| cellN 54 6 <| cellB ch' 0
  have hm : fld w 25 6 = 54 := by simp only [w, Nat.reducePow, Nat.reduceLeDiff, Nat.reduceSub, Nat.reduceLT, fld_zero, fld_cellV, fld_cellB, fld_cellN, fld_cellN_low]
  have hn : fld w 21 4 = 1 := by simp only [w, Nat.reducePow, Nat.reduceLeDiff, Nat.reduceSub, Nat.reduceLT, fld_zero, fld_cellV, fld_cellB, fld_cellN, fld_cellN_low]
  refine of_base _ x' w rfl rfl ?_ (by rw [hm]; omega)
  rw [base_Queue_54 _ _ hm]
  unfold decodeQueue
  rw [hn]
  first | (simp only [w, Nat.reducePow, Nat.reduceLeDiff, Nat.reduceSub, Nat.reduceLT, Nat.add_sub_cancel_left, Nat.le_add_right, and_true, true_and, and_self, ↓reduceIte, fld_zero, fld_cellV, fld_cellB, fld_cellN, bvf_cellV, bvf_cellB, bvf_cellN, bit_cellV, bit_cellB, bit_cellN, fld_cellN_low, fld_cellB_low, fld_cellV_low, bvf_cellV_low, bit_cellB_low, fld_cellN_ne, fld_cellN_part]; done) | simp [w]

theorem qbindLsend (x' : Pre) (ch' : Bool) (q' : BitVec 3) (a' : BitVec 7) : Statement (.qbindLsend x' ch' q' a') := by
  let w := cellN 4 10 <| cellV a' <| cellV q' <| cellN 0 1 <| cellN 1 4 <| cellN 54 6 <| cellB ch' 0
  have hm : fld w 25 6 = 54 := by simp only [w, Nat.reducePow, Nat.reduceLeDiff, Nat.reduceSub, Nat.reduceLT, fld_zero, fld_cellV, fld_cellB, fld_cellN, fld_cellN_low]
  have hn : fld w 21 4 = 1 := by simp only [w, Nat.reducePow, Nat.reduceLeDiff, Nat.reduceSub, Nat.reduceLT, fld_zero, fld_cellV, fld_cellB, fld_cellN, fld_cellN_low]
  refine of_base _ x' w rfl rfl ?_ (by rw [hm]; omega)
  rw [base_Queue_54 _ _ hm]
  unfold decodeQueue
  rw [hn]
  first | (simp only [w, Nat.reducePow, Nat.reduceLeDiff, Nat.reduceSub, Nat.reduceLT, Nat.add_sub_cancel_left, Nat.le_add_right, and_true, true_and, and_self, ↓reduceIte, fld_zero, fld_cellV, fld_cellB, fld_cellN, bvf_cellV, bvf_cellB, bvf_cellN, bit_cellV, bit_cellB, bit_cellN, fld_cellN_low, fld_cellB_low, fld_cellV_low, bvf_cellV_low, bit_cellB_low, fld_cellN_ne, fld_cellN_part]; done) | simp [w]

theorem qbindLrecv (x' : Pre) (ch' : Bool) (q' : BitVec 3) (a' : BitVec 7) : Statement (.qbindLrecv x' ch' q' a') := by
  let w := cellN 5 10 <| cellV a' <| cellV q' <| cellN 0 1 <| cellN 1 4 <| cellN 54 6 <| cellB ch' 0
  have hm : fld w 25 6 = 54 := by simp only [w, Nat.reducePow, Nat.reduceLeDiff, Nat.reduceSub, Nat.reduceLT, fld_zero, fld_cellV, fld_cellB, fld_cellN, fld_cellN_low]
  have hn : fld w 21 4 = 1 := by simp only [w, Nat.reducePow, Nat.reduceLeDiff, Nat.reduceSub, Nat.reduceLT, fld_zero, fld_cellV, fld_cellB, fld_cellN, fld_cellN_low]
  refine of_base _ x' w rfl rfl ?_ (by rw [hm]; omega)
  rw [base_Queue_54 _ _ hm]
  unfold decodeQueue
  rw [hn]
  first | (simp only [w, Nat.reducePow, Nat.reduceLeDiff, Nat.reduceSub, Nat.reduceLT, Nat.add_sub_cancel_left, Nat.le_add_right, and_true, true_and, and_self, ↓reduceIte, fld_zero, fld_cellV, fld_cellB, fld_cellN, bvf_cellV, bvf_cellB, bvf_cellN, bit_cellV, bit_cellB, bit_cellN, fld_cellN_low, fld_cellB_low, fld_cellV_low, bvf_cellV_low, bit_cellB_low, fld_cellN_ne, fld_cellN_part]; done) | simp [w]

theorem qpush (x' : Pre) (ch' : Bool) (q' : BitVec 3) (a' : BitVec 7) : Statement (.qpush x' ch' q' a') := by
  let w := cellN 0 10 <| cellV a' <| cellV q' <| cellN 0 1 <| cellN 2 4 <| cellN 54 6 <| cellB ch' 0
  have hm : fld w 25 6 = 54 := by simp only [w, Nat.reducePow, Nat.reduceLeDiff, Nat.reduceSub, Nat.reduceLT, fld_zero, fld_cellV, fld_cellB, fld_cellN, fld_cellN_low]
  have hn : fld w 21 4 = 2 := by simp only [w, Nat.reducePow, Nat.reduceLeDiff, Nat.reduceSub, Nat.reduceLT, fld_zero, fld_cellV, fld_cellB, fld_cellN, fld_cellN_low]
  refine of_base _ x' w rfl rfl ?_ (by rw [hm]; omega)
  rw [base_Queue_54 _ _ hm]
  unfold decodeQueue
  rw [hn]
  first | (simp only [w, Nat.reducePow, Nat.reduceLeDiff, Nat.reduceSub, Nat.reduceLT, Nat.add_sub_cancel_left, Nat.le_add_right, and_true, true_and, and_self, ↓reduceIte, fld_zero, fld_cellV, fld_cellB, fld_cellN, bvf_cellV, bvf_cellB, bvf_cellN, bit_cellV, bit_cellB, bit_cellN, fld_cellN_low, fld_cellB_low, fld_cellV_low, bvf_cellV_low, bit_cellB_low, fld_cellN_ne, fld_cellN_part]; done) | simp [w]

theorem qcnt (x' : Pre) (ch' : Bool) (q' : BitVec 3) (a' : BitVec 7) : Statement (.qcnt x' ch' q' a') := by
  let w := cellN 0 10 <| cellV a' <| cellV q' <| cellN 0 1 <| cellN 3 4 <| cellN 54 6 <| cellB ch' 0
  have hm : fld w 25 6 = 54 := by simp only [w, Nat.reducePow, Nat.reduceLeDiff, Nat.reduceSub, Nat.reduceLT, fld_zero, fld_cellV, fld_cellB, fld_cellN, fld_cellN_low]
  have hn : fld w 21 4 = 3 := by simp only [w, Nat.reducePow, Nat.reduceLeDiff, Nat.reduceSub, Nat.reduceLT, fld_zero, fld_cellV, fld_cellB, fld_cellN, fld_cellN_low]
  refine of_base _ x' w rfl rfl ?_ (by rw [hm]; omega)
  rw [base_Queue_54 _ _ hm]
  unfold decodeQueue
  rw [hn]
  first | (simp only [w, Nat.reducePow, Nat.reduceLeDiff, Nat.reduceSub, Nat.reduceLT, Nat.add_sub_cancel_left, Nat.le_add_right, and_true, true_and, and_self, ↓reduceIte, fld_zero, fld_cellV, fld_cellB, fld_cellN, bvf_cellV, bvf_cellB, bvf_cellN, bit_cellV, bit_cellB, bit_cellN, fld_cellN_low, fld_cellB_low, fld_cellV_low, bvf_cellV_low, bit_cellB_low, fld_cellN_ne, fld_cellN_part]; done) | simp [w]

theorem cbinit (x' : Pre) (ch' : Bool) (a' : BitVec 7) (b' : BitVec 7) (n' : BitVec 3) : Statement (.cbinit x' ch' a' b' n') := by
  let w := cellV n' <| cellV b' <| cellV a' <| cellN 0 4 <| cellN 4 4 <| cellN 54 6 <| cellB ch' 0
  have hm : fld w 25 6 = 54 := by simp only [w, Nat.reducePow, Nat.reduceLeDiff, Nat.reduceSub, Nat.reduceLT, fld_zero, fld_cellV, fld_cellB, fld_cellN, fld_cellN_low]
  have hn : fld w 21 4 = 4 := by simp only [w, Nat.reducePow, Nat.reduceLeDiff, Nat.reduceSub, Nat.reduceLT, fld_zero, fld_cellV, fld_cellB, fld_cellN, fld_cellN_low]
  refine of_base _ x' w rfl rfl ?_ (by rw [hm]; omega)
  rw [base_Queue_54 _ _ hm]
  unfold decodeQueue
  rw [hn]
  first | (simp only [w, Nat.reducePow, Nat.reduceLeDiff, Nat.reduceSub, Nat.reduceLT, Nat.add_sub_cancel_left, Nat.le_add_right, and_true, true_and, and_self, ↓reduceIte, fld_zero, fld_cellV, fld_cellB, fld_cellN, bvf_cellV, bvf_cellB, bvf_cellN, bit_cellV, bit_cellB, bit_cellN, fld_cellN_low, fld_cellB_low, fld_cellV_low, bvf_cellV_low, bit_cellB_low, fld_cellN_ne, fld_cellN_part]; done) | simp [w]

theorem cbacq (x' : Pre) (ch' : Bool) (f' : Bool) (a' : BitVec 7) (n' : BitVec 3) : Statement (.cbacq x' ch' f' a' n') := by
  let w := cellV n' <| cellN 0 7 <| cellV a' <| cellN 0 3 <| cellB f' <| cellN 5 4 <| cellN 54 6 <| cellB ch' 0
  have hm : fld w 25 6 = 54 := by simp only [w, Nat.reducePow, Nat.reduceLeDiff, Nat.reduceSub, Nat.reduceLT, fld_zero, fld_cellV, fld_cellB, fld_cellN, fld_cellN_low]
  have hn : fld w 21 4 = 5 := by simp only [w, Nat.reducePow, Nat.reduceLeDiff, Nat.reduceSub, Nat.reduceLT, fld_zero, fld_cellV, fld_cellB, fld_cellN, fld_cellN_low]
  refine of_base _ x' w rfl rfl ?_ (by rw [hm]; omega)
  rw [base_Queue_54 _ _ hm]
  unfold decodeQueue
  rw [hn]
  first | (simp only [w, Nat.reducePow, Nat.reduceLeDiff, Nat.reduceSub, Nat.reduceLT, Nat.add_sub_cancel_left, Nat.le_add_right, and_true, true_and, and_self, ↓reduceIte, fld_zero, fld_cellV, fld_cellB, fld_cellN, bvf_cellV, bvf_cellB, bvf_cellN, bit_cellV, bit_cellB, bit_cellN, fld_cellN_low, fld_cellB_low, fld_cellV_low, bvf_cellV_low, bit_cellB_low, fld_cellN_ne, fld_cellN_part]; done) | simp [w]

theorem cbrel (x' : Pre) (ch' : Bool) (n' : BitVec 3) : Statement (.cbrel x' ch' n') := by
  let w := cellV n' <| cellN 0 18 <| cellN 6 4 <| cellN 54 6 <| cellB ch' 0
  have hm : fld w 25 6 = 54 := by simp only [w, Nat.reducePow, Nat.reduceLeDiff, Nat.reduceSub, Nat.reduceLT, fld_zero, fld_cellV, fld_cellB, fld_cellN, fld_cellN_low]
  have hn : fld w 21 4 = 6 := by simp only [w, Nat.reducePow, Nat.reduceLeDiff, Nat.reduceSub, Nat.reduceLT, fld_zero, fld_cellV, fld_cellB, fld_cellN, fld_cellN_low]
  refine of_base _ x' w rfl rfl ?_ (by rw [hm]; omega)
  rw [base_Queue_54 _ _ hm]
  unfold decodeQueue
  rw [hn]
  first | (simp only [w, Nat.reducePow, Nat.reduceLeDiff, Nat.reduceSub, Nat.reduceLT, Nat.add_sub_cancel_left, Nat.le_add_right, and_true, true_and, and_self, ↓reduceIte, fld_zero, fld_cellV, fld_cellB, fld_cellN, bvf_cellV, bvf_cellB, bvf_cellN, bit_cellV, bit_cellB, bit_cellN, fld_cellN_low, fld_cellB_low, fld_cellV_low, bvf_cellV_low, bit_cellB_low, fld_cellN_ne, fld_cellN_part]; done) | simp [w]

theorem cbstat (x' : Pre) (ch' : Bool) (a' : BitVec 7) (n' : BitVec 3) : Statement (.cbstat x' ch' a' n') := by
  let w := cellV n' <| cellN 0 7 <| cellV a' <| cellN 0 4 <| cellN 7 4 <| cellN 54 6 <| cellB ch' 0
  have hm : fld w 25 6 = 54 := by simp only [w, Nat.reducePow, Nat.reduceLeDiff, Nat.reduceSub, Nat.reduceLT, fld_zero, fld_cellV, fld_cellB, fld_cellN, fld_cellN_low]
  have hn : fld w 21 4 = 7 := by simp only [w, Nat.reducePow, Nat.reduceLeDiff, Nat.reduceSub, Nat.reduceLT, fld_zero, fld_cellV, fld_cellB, fld_cellN, fld_cellN_low]
  refine of_base _ x' w rfl rfl ?_ (by rw [hm]; omega)
  rw [base_Queue_54 _ _ hm]
  unfold decodeQueue
  rw [hn]
  first | (simp only [w, Nat.reducePow, Nat.reduceLeDiff, Nat.reduceSub, Nat.reduceLT, Nat.add_sub_cancel_left, Nat.le_add_right, and_true, true_and, and_self, ↓reduceIte, fld_zero, fld_cellV, fld_cellB, fld_cellN, bvf_cellV, bvf_cellB, bvf_cellN, bit_cellV, bit_cellB, bit_cellN, fld_cellN_low, fld_cellB_low, fld_cellV_low, bvf_cellV_low, bit_cellB_low, fld_cellN_ne, fld_cellN_part]; done) | simp [w]

theorem rtag (x' : Pre) (ch' : Bool) (f' : Bool) (a' : BitVec 7) (b' : BitVec 7) : Statement (.rtag x' ch' f' a' b') := by
  let w := cellN 0 3 <| cellV b' <| cellV a' <| cellN 0 3 <| cellB f' <| cellN 8 4 <| cellN 54 6 <| cellB ch' 0
  have hm : fld w 25 6 = 54 := by simp only [w, Nat.reducePow, Nat.reduceLeDiff, Nat.reduceSub, Nat.reduceLT, fld_zero, fld_cellV, fld_cellB, fld_cellN, fld_cellN_low]
  have hn : fld w 21 4 = 8 := by simp only [w, Nat.reducePow, Nat.reduceLeDiff, Nat.reduceSub, Nat.reduceLT, fld_zero, fld_cellV, fld_cellB, fld_cellN, fld_cellN_low]
  refine of_base _ x' w rfl rfl ?_ (by rw [hm]; omega)
  rw [base_Queue_54 _ _ hm]
  unfold decodeQueue
  rw [hn]
  first | (simp only [w, Nat.reducePow, Nat.reduceLeDiff, Nat.reduceSub, Nat.reduceLT, Nat.add_sub_cancel_left, Nat.le_add_right, and_true, true_and, and_self, ↓reduceIte, fld_zero, fld_cellV, fld_cellB, fld_cellN, bvf_cellV, bvf_cellB, bvf_cellN, bit_cellV, bit_cellB, bit_cellN, fld_cellN_low, fld_cellB_low, fld_cellV_low, bvf_cellV_low, bit_cellB_low, fld_cellN_ne, fld_cellN_part]; done) | simp [w]

theorem bobinit (x' : Pre) (ch' : Bool) (a' : BitVec 7) (b' : BitVec 7) : Statement (.bobinit x' ch' a' b') := by
  let w := cellN 0 3 <| cellV b' <| cellV a' <| cellN 0 4 <| cellN 9 4 <| cellN 54 6 <| cellB ch' 0
  have hm : fld w 25 6 = 54 := by simp only [w, Nat.reducePow, Nat.reduceLeDiff, Nat.reduceSub, Nat.reduceLT, fld_zero, fld_cellV, fld_cellB, fld_cellN, fld_cellN_low]
  have hn : fld w 21 4 = 9 := by simp only [w, Nat.reducePow, Nat.reduceLeDiff, Nat.reduceSub, Nat.reduceLT, fld_zero, fld_cellV, fld_cellB, fld_cellN, fld_cellN_low]
  refine of_base _ x' w rfl rfl ?_ (by rw [hm]; omega)
  rw [base_Queue_54 _ _ hm]
  unfold decodeQueue
  rw [hn]
  first | (simp only [w, Nat.reducePow, Nat.reduceLeDiff, Nat.reduceSub, Nat.reduceLT, Nat.add_sub_cancel_left, Nat.le_add_right, and_true, true_and, and_self, ↓reduceIte, fld_zero, fld_cellV, fld_cellB, fld_cellN, bvf_cellV, bvf_cellB, bvf_cellN, bit_cellV, bit_cellB, bit_cellN, fld_cellN_low, fld_cellB_low, fld_cellV_low, bvf_cellV_low, bit_cellB_low, fld_cellN_ne, fld_cellN_part]; done) | simp [w]

theorem bobadd (x' : Pre) (ch' : Bool) (a' : BitVec 7) (b' : BitVec 7) : Statement (.bobadd x' ch' a' b') := by
  let w := cellN 0 3 <| cellV b' <| cellV a' <| cellN 0 4 <| cellN 10 4 <| cellN 54 6 <| cellB ch' 0
  have hm : fld w 25 6 = 54 := by simp only [w, Nat.reducePow, Nat.reduceLeDiff, Nat.reduceSub, Nat.reduceLT, fld_zero, fld_cellV, fld_cellB, fld_cellN, fld_cellN_low]
  have hn : fld w 21 4 = 10 := by simp only [w, Nat.reducePow, Nat.reduceLeDiff, Nat.reduceSub, Nat.reduceLT, fld_zero, fld_cellV, fld_cellB, fld_cellN, fld_cellN_low]
  refine of_base _ x' w rfl rfl ?_ (by rw [hm]; omega)
  rw [base_Queue_54 _ _ hm]
  unfold decodeQueue
  rw [hn]
  first | (simp only [w, Nat.reducePow, Nat.reduceLeDiff, Nat.reduceSub, Nat.reduceLT, Nat.add_sub_cancel_left, Nat.le_add_right, and_true, true_and, and_self, ↓reduceIte, fld_zero, fld_cellV, fld_cellB, fld_cellN, bvf_cellV, bvf_cellB, bvf_cellN, bit_cellV, bit_cellB, bit_cellN, fld_cellN_low, fld_cellB_low, fld_cellV_low, bvf_cellV_low, bit_cellB_low, fld_cellN_ne, fld_cellN_part]; done) | simp [w]

theorem bobwait (x' : Pre) (ch' : Bool) (f' : Bool) (a' : BitVec 7) (b' : BitVec 7) : Statement (.bobwait x' ch' f' a' b') := by
  let w := cellN 0 3 <| cellV b' <| cellV a' <| cellN 0 3 <| cellB f' <| cellN 11 4 <| cellN 54 6 <| cellB ch' 0
  have hm : fld w 25 6 = 54 := by simp only [w, Nat.reducePow, Nat.reduceLeDiff, Nat.reduceSub, Nat.reduceLT, fld_zero, fld_cellV, fld_cellB, fld_cellN, fld_cellN_low]
  have hn : fld w 21 4 = 11 := by simp only [w, Nat.reducePow, Nat.reduceLeDiff, Nat.reduceSub, Nat.reduceLT, fld_zero, fld_cellV, fld_cellB, fld_cellN, fld_cellN_low]
  refine of_base _ x' w rfl rfl ?_ (by rw [hm]; omega)
  rw [base_Queue_54 _ _ hm]
  unfold decodeQueue
  rw [hn]
  first | (simp only [w, Nat.reducePow, Nat.reduceLeDiff, Nat.reduceSub, Nat.reduceLT, Nat.add_sub_cancel_left, Nat.le_add_right, and_true, true_and, and_self, ↓reduceIte, fld_zero, fld_cellV, fld_cellB, fld_cellN, bvf_cellV, bvf_cellB, bvf_cellN, bit_cellV, bit_cellB, bit_cellN, fld_cellN_low, fld_cellB_low, fld_cellV_low, bvf_cellV_low, bit_cellB_low, fld_cellN_ne, fld_cellN_part]; done) | simp [w]

theorem barArr (x' : Pre) (ch' : Bool) (b' : BitVec 7) (n' : BitVec 3) : Statement (.barArr x' ch' b' n') := by
  let w := cellV n' <| cellV b' <| cellN 0 11 <| cellN 12 4 <| cellN 54 6 <| cellB ch' 0
  have hm : fld w 25 6 = 54 := by simp only [w, Nat.reducePow, Nat.reduceLeDiff, Nat.reduceSub, Nat.reduceLT, fld_zero, fld_cellV, fld_cellB, fld_cellN, fld_cellN_low]
  have hn : fld w 21 4 = 12 := by simp only [w, Nat.reducePow, Nat.reduceLeDiff, Nat.reduceSub, Nat.reduceLT, fld_zero, fld_cellV, fld_cellB, fld_cellN, fld_cellN_low]
  refine of_base _ x' w rfl rfl ?_ (by rw [hm]; omega)
  rw [base_Queue_54 _ _ hm]
  unfold decodeQueue
  rw [hn]
  first | (simp only [w, Nat.reducePow, Nat.reduceLeDiff, Nat.reduceSub, Nat.reduceLT, Nat.add_sub_cancel_left, Nat.le_add_right, and_true, true_and, and_self, ↓reduceIte, fld_zero, fld_cellV, fld_cellB, fld_cellN, bvf_cellV, bvf_cellB, bvf_cellN, bit_cellV, bit_cellB, bit_cellN, fld_cellN_low, fld_cellB_low, fld_cellV_low, bvf_cellV_low, bit_cellB_low, fld_cellN_ne, fld_cellN_part]; done) | simp [w]

theorem barWait (x' : Pre) (ch' : Bool) (f' : Bool) (k' : Bool) (n' : BitVec 3) : Statement (.barWait x' ch' f' k' n') := by
  let w := cellV n' <| cellN 0 6 <| cellB k' <| cellN 0 10 <| cellB f' <| cellN 13 4 <| cellN 54 6 <| cellB ch' 0
  have hm : fld w 25 6 = 54 := by simp only [w, Nat.reducePow, Nat.reduceLeDiff, Nat.reduceSub, Nat.reduceLT, fld_zero, fld_cellV, fld_cellB, fld_cellN, fld_cellN_low]
  have hn : fld w 21 4 = 13 := by simp only [w, Nat.reducePow, Nat.reduceLeDiff, Nat.reduceSub, Nat.reduceLT, fld_zero, fld_cellV, fld_cellB, fld_cellN, fld_cellN_low]
  refine of_base _ x' w rfl rfl ?_ (by rw [hm]; omega)
  rw [base_Queue_54 _ _ hm]
  unfold decodeQueue
  rw [hn]
  first | (simp only [w, Nat.reducePow, Nat.reduceLeDiff, Nat.reduceSub, Nat.reduceLT, Nat.add_sub_cancel_left, Nat.le_add_right, and_true, true_and, and_self, ↓reduceIte, fld_zero, fld_cellV, fld_cellB, fld_cellN, bvf_cellV, bvf_cellB, bvf_cellN, bit_cellV, bit_cellB, bit_cellN, fld_cellN_low, fld_cellB_low, fld_cellV_low, bvf_cellV_low, bit_cellB_low, fld_cellN_ne, fld_cellN_part]; done) | simp [w]

theorem haloDecl (x' : Pre) (ch' : Bool) (f' : Bool) (a' : BitVec 7) : Statement (.haloDecl x' ch' f' a') := by
  let w := cellN 0 10 <| cellV a' <| cellN 0 3 <| cellB f' <| cellN 14 4 <| cellN 54 6 <| cellB ch' 0
  have hm : fld w 25 6 = 54 := by simp only [w, Nat.reducePow, Nat.reduceLeDiff, Nat.reduceSub, Nat.reduceLT, fld_zero, fld_cellV, fld_cellB, fld_cellN, fld_cellN_low]
  have hn : fld w 21 4 = 14 := by simp only [w, Nat.reducePow, Nat.reduceLeDiff, Nat.reduceSub, Nat.reduceLT, fld_zero, fld_cellV, fld_cellB, fld_cellN, fld_cellN_low]
  refine of_base _ x' w rfl rfl ?_ (by rw [hm]; omega)
  rw [base_Queue_54 _ _ hm]
  unfold decodeQueue
  rw [hn]
  first | (simp only [w, Nat.reducePow, Nat.reduceLeDiff, Nat.reduceSub, Nat.reduceLT, Nat.add_sub_cancel_left, Nat.le_add_right, and_true, true_and, and_self, ↓reduceIte, fld_zero, fld_cellV, fld_cellB, fld_cellN, bvf_cellV, bvf_cellB, bvf_cellN, bit_cellV, bit_cellB, bit_cellN, fld_cellN_low, fld_cellB_low, fld_cellV_low, bvf_cellV_low, bit_cellB_low, fld_cellN_ne, fld_cellN_part]; done) | simp [w]

theorem haloRel (x' : Pre) (ch' : Bool) (f' : Bool) (a' : BitVec 7) : Statement (.haloRel x' ch' f' a') := by
  let w := cellN 1 10 <| cellV a' <| cellN 0 3 <| cellB f' <| cellN 14 4 <| cellN 54 6 <| cellB ch' 0
  have hm : fld w 25 6 = 54 := by simp only [w, Nat.reducePow, Nat.reduceLeDiff, Nat.reduceSub, Nat.reduceLT, fld_zero, fld_cellV, fld_cellB, fld_cellN, fld_cellN_low]
  have hn : fld w 21 4 = 14 := by simp only [w, Nat.reducePow, Nat.reduceLeDiff, Nat.reduceSub, Nat.reduceLT, fld_zero, fld_cellV, fld_cellB, fld_cellN, fld_cellN_low]
  refine of_base _ x' w rfl rfl ?_ (by rw [hm]; omega)
  rw [base_Queue_54 _ _ hm]
  unfold decodeQueue
  rw [hn]
  first | (simp only [w, Nat.reducePow, Nat.reduceLeDiff, Nat.reduceSub, Nat.reduceLT, Nat.add_sub_cancel_left, Nat.le_add_right, and_true, true_and, and_self, ↓reduceIte, fld_zero, fld_cellV, fld_cellB, fld_cellN, bvf_cellV, bvf_cellB, bvf_cellN, bit_cellV, bit_cellB, bit_cellN, fld_cellN_low, fld_cellB_low, fld_cellV_low, bvf_cellV_low, bit_cellB_low, fld_cellN_ne, fld_cellN_part]; done) | simp [w]

theorem haloWait (x' : Pre) (ch' : Bool) (f' : Bool) (a' : BitVec 7) (b' : BitVec 7) : Statement (.haloWait x' ch' f' a' b') := by
  let w := cellN 2 3 <| cellV b' <| cellV a' <| cellN 0 3 <| cellB f' <| cellN 14 4 <| cellN 54 6 <| cellB ch' 0
  have hm : fld w 25 6 = 54 := by simp only [w, Nat.reducePow, Nat.reduceLeDiff, Nat.reduceSub, Nat.reduceLT, fld_zero, fld_cellV, fld_cellB, fld_cellN, fld_cellN_low]
  have hn : fld w 21 4 = 14 := by simp only [w, Nat.reducePow, Nat.reduceLeDiff, Nat.reduceSub, Nat.reduceLT, fld_zero, fld_cellV, fld_cellB, fld_cellN, fld_cellN_low]
  refine of_base _ x' w rfl rfl ?_ (by rw [hm]; omega)
  rw [base_Queue_54 _ _ hm]
  unfold decodeQueue
  rw [hn]
  first | (simp only [w, Nat.reducePow, Nat.reduceLeDiff, Nat.reduceSub, Nat.reduceLT, Nat.add_sub_cancel_left, Nat.le_add_right, and_true, true_and, and_self, ↓reduceIte, fld_zero, fld_cellV, fld_cellB, fld_cellN, bvf_cellV, bvf_cellB, bvf_cellN, bit_cellV, bit_cellB, bit_cellN, fld_cellN_low, fld_cellB_low, fld_cellV_low, bvf_cellV_low, bit_cellB_low, fld_cellN_ne, fld_cellN_part]; done) | simp [w]

theorem haloDrop (x' : Pre) (ch' : Bool) (f' : Bool) (a' : BitVec 7) : Statement (.haloDrop x' ch' f' a') := by
  let w := cellN 3 10 <| cellV a' <| cellN 0 3 <| cellB f' <| cellN 14 4 <| cellN 54 6 <| cellB ch' 0
  have hm : fld w 25 6 = 54 := by simp only [w, Nat.reducePow, Nat.reduceLeDiff, Nat.reduceSub, Nat.reduceLT, fld_zero, fld_cellV, fld_cellB, fld_cellN, fld_cellN_low]
  have hn : fld w 21 4 = 14 := by simp only [w, Nat.reducePow, Nat.reduceLeDiff, Nat.reduceSub, Nat.reduceLT, fld_zero, fld_cellV, fld_cellB, fld_cellN, fld_cellN_low]
  refine of_base _ x' w rfl rfl ?_ (by rw [hm]; omega)
  rw [base_Queue_54 _ _ hm]
  unfold decodeQueue
  rw [hn]
  first | (simp only [w, Nat.reducePow, Nat.reduceLeDiff, Nat.reduceSub, Nat.reduceLT, Nat.add_sub_cancel_left, Nat.le_add_right, and_true, true_and, and_self, ↓reduceIte, fld_zero, fld_cellV, fld_cellB, fld_cellN, bvf_cellV, bvf_cellB, bvf_cellN, bit_cellV, bit_cellB, bit_cellN, fld_cellN_low, fld_cellB_low, fld_cellV_low, bvf_cellV_low, bit_cellB_low, fld_cellN_ne, fld_cellN_part]; done) | simp [w]

theorem coll (x' : Pre) (ch' : Bool) (f' : Bool) (a' : BitVec 7) (o' : BitVec 3) : Statement (.coll x' ch' f' a' o') := by
  let w := cellV o' <| cellN 0 7 <| cellV a' <| cellN 0 3 <| cellB f' <| cellN 15 4 <| cellN 54 6 <| cellB ch' 0
  have hm : fld w 25 6 = 54 := by simp only [w, Nat.reducePow, Nat.reduceLeDiff, Nat.reduceSub, Nat.reduceLT, fld_zero, fld_cellV, fld_cellB, fld_cellN, fld_cellN_low]
  have hn : fld w 21 4 = 15 := by simp only [w, Nat.reducePow, Nat.reduceLeDiff, Nat.reduceSub, Nat.reduceLT, fld_zero, fld_cellV, fld_cellB, fld_cellN, fld_cellN_low]
  refine of_base _ x' w rfl rfl ?_ (by rw [hm]; omega)
  rw [base_Queue_54 _ _ hm]
  unfold decodeQueue
  rw [hn]
  first | (simp only [w, Nat.reducePow, Nat.reduceLeDiff, Nat.reduceSub, Nat.reduceLT, Nat.add_sub_cancel_left, Nat.le_add_right, and_true, true_and, and_self, ↓reduceIte, fld_zero, fld_cellV, fld_cellB, fld_cellN, bvf_cellV, bvf_cellB, bvf_cellN, bit_cellV, bit_cellB, bit_cellN, fld_cellN_low, fld_cellB_low, fld_cellV_low, bvf_cellV_low, bit_cellB_low, fld_cellN_ne, fld_cellN_part]; done) | simp [w]

theorem shopen (x' : Pre) (ch' : Bool) (f' : Bool) (a' : BitVec 7) (b' : BitVec 7) (i' : Bool) : Statement (.shopen x' ch' f' a' b' i') := by
  let w := cellB i' <| cellN 0 2 <| cellV b' <| cellV a' <| cellN 0 3 <| cellB f' <| cellN 0 4 <| cellN 55 6 <| cellB ch' 0
  have hm : fld w 25 6 = 55 := by simp only [w, Nat.reducePow, Nat.reduceLeDiff, Nat.reduceSub, Nat.reduceLT, fld_zero, fld_cellV, fld_cellB, fld_cellN, fld_cellN_low]
  have hn : fld w 21 4 = 0 := by simp only [w, Nat.reducePow, Nat.reduceLeDiff, Nat.reduceSub, Nat.reduceLT, fld_zero, fld_cellV, fld_cellB, fld_cellN, fld_cellN_low]
  refine of_base _ x' w rfl rfl ?_ (by rw [hm]; omega)
  rw [base_Shadow_55 _ _ hm]
  unfold decodeShadow
  rw [hn]
  first | (simp only [w, Nat.reducePow, Nat.reduceLeDiff, Nat.reduceSub, Nat.reduceLT, Nat.add_sub_cancel_left, Nat.le_add_right, and_true, true_and, and_self, ↓reduceIte, fld_zero, fld_cellV, fld_cellB, fld_cellN, bvf_cellV, bvf_cellB, bvf_cellN, bit_cellV, bit_cellB, bit_cellN, fld_cellN_low, fld_cellB_low, fld_cellV_low, bvf_cellV_low, bit_cellB_low, fld_cellN_ne, fld_cellN_part]; done) | simp [w]

theorem publish (x' : Pre) (ch' : Bool) (f' : Bool) (a' : BitVec 7) : Statement (.publish x' ch' f' a') := by
  let w := cellN 0 10 <| cellV a' <| cellN 0 3 <| cellB f' <| cellN 1 4 <| cellN 55 6 <| cellB ch' 0
  have hm : fld w 25 6 = 55 := by simp only [w, Nat.reducePow, Nat.reduceLeDiff, Nat.reduceSub, Nat.reduceLT, fld_zero, fld_cellV, fld_cellB, fld_cellN, fld_cellN_low]
  have hn : fld w 21 4 = 1 := by simp only [w, Nat.reducePow, Nat.reduceLeDiff, Nat.reduceSub, Nat.reduceLT, fld_zero, fld_cellV, fld_cellB, fld_cellN, fld_cellN_low]
  refine of_base _ x' w rfl rfl ?_ (by rw [hm]; omega)
  rw [base_Shadow_55 _ _ hm]
  unfold decodeShadow
  rw [hn]
  first | (simp only [w, Nat.reducePow, Nat.reduceLeDiff, Nat.reduceSub, Nat.reduceLT, Nat.add_sub_cancel_left, Nat.le_add_right, and_true, true_and, and_self, ↓reduceIte, fld_zero, fld_cellV, fld_cellB, fld_cellN, bvf_cellV, bvf_cellB, bvf_cellN, bit_cellV, bit_cellB, bit_cellN, fld_cellN_low, fld_cellB_low, fld_cellV_low, bvf_cellV_low, bit_cellB_low, fld_cellN_ne, fld_cellN_part]; done) | simp [w]

theorem shdrop (x' : Pre) (ch' : Bool) (f' : Bool) (a' : BitVec 7) : Statement (.shdrop x' ch' f' a') := by
  let w := cellN 0 10 <| cellV a' <| cellN 0 3 <| cellB f' <| cellN 2 4 <| cellN 55 6 <| cellB ch' 0
  have hm : fld w 25 6 = 55 := by simp only [w, Nat.reducePow, Nat.reduceLeDiff, Nat.reduceSub, Nat.reduceLT, fld_zero, fld_cellV, fld_cellB, fld_cellN, fld_cellN_low]
  have hn : fld w 21 4 = 2 := by simp only [w, Nat.reducePow, Nat.reduceLeDiff, Nat.reduceSub, Nat.reduceLT, fld_zero, fld_cellV, fld_cellB, fld_cellN, fld_cellN_low]
  refine of_base _ x' w rfl rfl ?_ (by rw [hm]; omega)
  rw [base_Shadow_55 _ _ hm]
  unfold decodeShadow
  rw [hn]
  first | (simp only [w, Nat.reducePow, Nat.reduceLeDiff, Nat.reduceSub, Nat.reduceLT, Nat.add_sub_cancel_left, Nat.le_add_right, and_true, true_and, and_self, ↓reduceIte, fld_zero, fld_cellV, fld_cellB, fld_cellN, bvf_cellV, bvf_cellB, bvf_cellN, bit_cellV, bit_cellB, bit_cellN, fld_cellN_low, fld_cellB_low, fld_cellV_low, bvf_cellV_low, bit_cellB_low, fld_cellN_ne, fld_cellN_part]; done) | simp [w]

theorem commit (x' : Pre) (ch' : Bool) (f' : Bool) (a' : BitVec 7) (b' : BitVec 7) : Statement (.commit x' ch' f' a' b') := by
  let w := cellN 0 3 <| cellV b' <| cellV a' <| cellN 0 3 <| cellB f' <| cellN 3 4 <| cellN 55 6 <| cellB ch' 0
  have hm : fld w 25 6 = 55 := by simp only [w, Nat.reducePow, Nat.reduceLeDiff, Nat.reduceSub, Nat.reduceLT, fld_zero, fld_cellV, fld_cellB, fld_cellN, fld_cellN_low]
  have hn : fld w 21 4 = 3 := by simp only [w, Nat.reducePow, Nat.reduceLeDiff, Nat.reduceSub, Nat.reduceLT, fld_zero, fld_cellV, fld_cellB, fld_cellN, fld_cellN_low]
  refine of_base _ x' w rfl rfl ?_ (by rw [hm]; omega)
  rw [base_Shadow_55 _ _ hm]
  unfold decodeShadow
  rw [hn]
  first | (simp only [w, Nat.reducePow, Nat.reduceLeDiff, Nat.reduceSub, Nat.reduceLT, Nat.add_sub_cancel_left, Nat.le_add_right, and_true, true_and, and_self, ↓reduceIte, fld_zero, fld_cellV, fld_cellB, fld_cellN, bvf_cellV, bvf_cellB, bvf_cellN, bit_cellV, bit_cellB, bit_cellN, fld_cellN_low, fld_cellB_low, fld_cellV_low, bvf_cellV_low, bit_cellB_low, fld_cellN_ne, fld_cellN_part]; done) | simp [w]

theorem discard (x' : Pre) (ch' : Bool) (f' : Bool) (a' : BitVec 7) (b' : BitVec 7) : Statement (.discard x' ch' f' a' b') := by
  let w := cellN 0 3 <| cellV b' <| cellV a' <| cellN 0 3 <| cellB f' <| cellN 4 4 <| cellN 55 6 <| cellB ch' 0
  have hm : fld w 25 6 = 55 := by simp only [w, Nat.reducePow, Nat.reduceLeDiff, Nat.reduceSub, Nat.reduceLT, fld_zero, fld_cellV, fld_cellB, fld_cellN, fld_cellN_low]
  have hn : fld w 21 4 = 4 := by simp only [w, Nat.reducePow, Nat.reduceLeDiff, Nat.reduceSub, Nat.reduceLT, fld_zero, fld_cellV, fld_cellB, fld_cellN, fld_cellN_low]
  refine of_base _ x' w rfl rfl ?_ (by rw [hm]; omega)
  rw [base_Shadow_55 _ _ hm]
  unfold decodeShadow
  rw [hn]
  first | (simp only [w, Nat.reducePow, Nat.reduceLeDiff, Nat.reduceSub, Nat.reduceLT, Nat.add_sub_cancel_left, Nat.le_add_right, and_true, true_and, and_self, ↓reduceIte, fld_zero, fld_cellV, fld_cellB, fld_cellN, bvf_cellV, bvf_cellB, bvf_cellN, bit_cellV, bit_cellB, bit_cellN, fld_cellN_low, fld_cellB_low, fld_cellV_low, bvf_cellV_low, bit_cellB_low, fld_cellN_ne, fld_cellN_part]; done) | simp [w]

theorem launch (x' : Pre) (ch' : Bool) (f' : Bool) (a' : BitVec 7) : Statement (.launch x' ch' f' a') := by
  let w := cellN 0 10 <| cellV a' <| cellN 0 3 <| cellB f' <| cellN 5 4 <| cellN 55 6 <| cellB ch' 0
  have hm : fld w 25 6 = 55 := by simp only [w, Nat.reducePow, Nat.reduceLeDiff, Nat.reduceSub, Nat.reduceLT, fld_zero, fld_cellV, fld_cellB, fld_cellN, fld_cellN_low]
  have hn : fld w 21 4 = 5 := by simp only [w, Nat.reducePow, Nat.reduceLeDiff, Nat.reduceSub, Nat.reduceLT, fld_zero, fld_cellV, fld_cellB, fld_cellN, fld_cellN_low]
  refine of_base _ x' w rfl rfl ?_ (by rw [hm]; omega)
  rw [base_Shadow_55 _ _ hm]
  unfold decodeShadow
  rw [hn]
  first | (simp only [w, Nat.reducePow, Nat.reduceLeDiff, Nat.reduceSub, Nat.reduceLT, Nat.add_sub_cancel_left, Nat.le_add_right, and_true, true_and, and_self, ↓reduceIte, fld_zero, fld_cellV, fld_cellB, fld_cellN, bvf_cellV, bvf_cellB, bvf_cellN, bit_cellV, bit_cellB, bit_cellN, fld_cellN_low, fld_cellB_low, fld_cellV_low, bvf_cellV_low, bit_cellB_low, fld_cellN_ne, fld_cellN_part]; done) | simp [w]

theorem task (x' : Pre) (ch' : Bool) (f' : Bool) (a' : BitVec 7) : Statement (.task x' ch' f' a') := by
  let w := cellN 0 10 <| cellV a' <| cellN 0 3 <| cellB f' <| cellN 6 4 <| cellN 55 6 <| cellB ch' 0
  have hm : fld w 25 6 = 55 := by simp only [w, Nat.reducePow, Nat.reduceLeDiff, Nat.reduceSub, Nat.reduceLT, fld_zero, fld_cellV, fld_cellB, fld_cellN, fld_cellN_low]
  have hn : fld w 21 4 = 6 := by simp only [w, Nat.reducePow, Nat.reduceLeDiff, Nat.reduceSub, Nat.reduceLT, fld_zero, fld_cellV, fld_cellB, fld_cellN, fld_cellN_low]
  refine of_base _ x' w rfl rfl ?_ (by rw [hm]; omega)
  rw [base_Shadow_55 _ _ hm]
  unfold decodeShadow
  rw [hn]
  first | (simp only [w, Nat.reducePow, Nat.reduceLeDiff, Nat.reduceSub, Nat.reduceLT, Nat.add_sub_cancel_left, Nat.le_add_right, and_true, true_and, and_self, ↓reduceIte, fld_zero, fld_cellV, fld_cellB, fld_cellN, bvf_cellV, bvf_cellB, bvf_cellN, bit_cellV, bit_cellB, bit_cellN, fld_cellN_low, fld_cellB_low, fld_cellV_low, bvf_cellV_low, bit_cellB_low, fld_cellN_ne, fld_cellN_part]; done) | simp [w]

theorem take (x' : Pre) (ch' : Bool) (a' : BitVec 7) (b' : BitVec 7) : Statement (.take x' ch' a' b') := by
  let w := cellN 0 3 <| cellV b' <| cellV a' <| cellN 0 4 <| cellN 7 4 <| cellN 55 6 <| cellB ch' 0
  have hm : fld w 25 6 = 55 := by simp only [w, Nat.reducePow, Nat.reduceLeDiff, Nat.reduceSub, Nat.reduceLT, fld_zero, fld_cellV, fld_cellB, fld_cellN, fld_cellN_low]
  have hn : fld w 21 4 = 7 := by simp only [w, Nat.reducePow, Nat.reduceLeDiff, Nat.reduceSub, Nat.reduceLT, fld_zero, fld_cellV, fld_cellB, fld_cellN, fld_cellN_low]
  refine of_base _ x' w rfl rfl ?_ (by rw [hm]; omega)
  rw [base_Shadow_55 _ _ hm]
  unfold decodeShadow
  rw [hn]
  first | (simp only [w, Nat.reducePow, Nat.reduceLeDiff, Nat.reduceSub, Nat.reduceLT, Nat.add_sub_cancel_left, Nat.le_add_right, and_true, true_and, and_self, ↓reduceIte, fld_zero, fld_cellV, fld_cellB, fld_cellN, bvf_cellV, bvf_cellB, bvf_cellN, bit_cellV, bit_cellB, bit_cellN, fld_cellN_low, fld_cellB_low, fld_cellV_low, bvf_cellV_low, bit_cellB_low, fld_cellN_ne, fld_cellN_part]; done) | simp [w]

theorem claim (x' : Pre) (ch' : Bool) (f' : Bool) (b' : BitVec 7) : Statement (.claim x' ch' f' b') := by
  let w := cellN 0 3 <| cellV b' <| cellN 0 10 <| cellB f' <| cellN 8 4 <| cellN 55 6 <| cellB ch' 0
  have hm : fld w 25 6 = 55 := by simp only [w, Nat.reducePow, Nat.reduceLeDiff, Nat.reduceSub, Nat.reduceLT, fld_zero, fld_cellV, fld_cellB, fld_cellN, fld_cellN_low]
  have hn : fld w 21 4 = 8 := by simp only [w, Nat.reducePow, Nat.reduceLeDiff, Nat.reduceSub, Nat.reduceLT, fld_zero, fld_cellV, fld_cellB, fld_cellN, fld_cellN_low]
  refine of_base _ x' w rfl rfl ?_ (by rw [hm]; omega)
  rw [base_Shadow_55 _ _ hm]
  unfold decodeShadow
  rw [hn]
  first | (simp only [w, Nat.reducePow, Nat.reduceLeDiff, Nat.reduceSub, Nat.reduceLT, Nat.add_sub_cancel_left, Nat.le_add_right, and_true, true_and, and_self, ↓reduceIte, fld_zero, fld_cellV, fld_cellB, fld_cellN, bvf_cellV, bvf_cellB, bvf_cellN, bit_cellV, bit_cellB, bit_cellN, fld_cellN_low, fld_cellB_low, fld_cellV_low, bvf_cellV_low, bit_cellB_low, fld_cellN_ne, fld_cellN_part]; done) | simp [w]

theorem give (x' : Pre) (ch' : Bool) (b' : BitVec 7) : Statement (.give x' ch' b') := by
  let w := cellN 0 3 <| cellV b' <| cellN 0 11 <| cellN 9 4 <| cellN 55 6 <| cellB ch' 0
  have hm : fld w 25 6 = 55 := by simp only [w, Nat.reducePow, Nat.reduceLeDiff, Nat.reduceSub, Nat.reduceLT, fld_zero, fld_cellV, fld_cellB, fld_cellN, fld_cellN_low]
  have hn : fld w 21 4 = 9 := by simp only [w, Nat.reducePow, Nat.reduceLeDiff, Nat.reduceSub, Nat.reduceLT, fld_zero, fld_cellV, fld_cellB, fld_cellN, fld_cellN_low]
  refine of_base _ x' w rfl rfl ?_ (by rw [hm]; omega)
  rw [base_Shadow_55 _ _ hm]
  unfold decodeShadow
  rw [hn]
  first | (simp only [w, Nat.reducePow, Nat.reduceLeDiff, Nat.reduceSub, Nat.reduceLT, Nat.add_sub_cancel_left, Nat.le_add_right, and_true, true_and, and_self, ↓reduceIte, fld_zero, fld_cellV, fld_cellB, fld_cellN, bvf_cellV, bvf_cellB, bvf_cellN, bit_cellV, bit_cellB, bit_cellN, fld_cellN_low, fld_cellB_low, fld_cellV_low, bvf_cellV_low, bit_cellB_low, fld_cellN_ne, fld_cellN_part]; done) | simp [w]

theorem slclaim (x' : Pre) (ch' : Bool) (f' : Bool) (a' : BitVec 7) : Statement (.slclaim x' ch' f' a') := by
  let w := cellN 0 10 <| cellV a' <| cellN 0 3 <| cellB f' <| cellN 0 4 <| cellN 56 6 <| cellB ch' 0
  have hm : fld w 25 6 = 56 := by simp only [w, Nat.reducePow, Nat.reduceLeDiff, Nat.reduceSub, Nat.reduceLT, fld_zero, fld_cellV, fld_cellB, fld_cellN, fld_cellN_low]
  have hn : fld w 21 4 = 0 := by simp only [w, Nat.reducePow, Nat.reduceLeDiff, Nat.reduceSub, Nat.reduceLT, fld_zero, fld_cellV, fld_cellB, fld_cellN, fld_cellN_low]
  refine of_base _ x' w rfl rfl ?_ (by rw [hm]; omega)
  rw [base_Matrix_56 _ _ hm]
  unfold decodeMatrix
  rw [hn]
  first | (simp only [w, Nat.reducePow, Nat.reduceLeDiff, Nat.reduceSub, Nat.reduceLT, Nat.add_sub_cancel_left, Nat.le_add_right, and_true, true_and, and_self, ↓reduceIte, fld_zero, fld_cellV, fld_cellB, fld_cellN, bvf_cellV, bvf_cellB, bvf_cellN, bit_cellV, bit_cellB, bit_cellN, fld_cellN_low, fld_cellB_low, fld_cellV_low, bvf_cellV_low, bit_cellB_low, fld_cellN_ne, fld_cellN_part]; done) | simp [w]

theorem slrelFree (x' : Pre) (ch' : Bool) (a' : BitVec 7) : Statement (.slrelFree x' ch' a') := by
  let w := cellN 0 10 <| cellV a' <| cellN 0 4 <| cellN 1 4 <| cellN 56 6 <| cellB ch' 0
  have hm : fld w 25 6 = 56 := by simp only [w, Nat.reducePow, Nat.reduceLeDiff, Nat.reduceSub, Nat.reduceLT, fld_zero, fld_cellV, fld_cellB, fld_cellN, fld_cellN_low]
  have hn : fld w 21 4 = 1 := by simp only [w, Nat.reducePow, Nat.reduceLeDiff, Nat.reduceSub, Nat.reduceLT, fld_zero, fld_cellV, fld_cellB, fld_cellN, fld_cellN_low]
  refine of_base _ x' w rfl rfl ?_ (by rw [hm]; omega)
  rw [base_Matrix_56 _ _ hm]
  unfold decodeMatrix
  rw [hn]
  first | (simp only [w, Nat.reducePow, Nat.reduceLeDiff, Nat.reduceSub, Nat.reduceLT, Nat.add_sub_cancel_left, Nat.le_add_right, and_true, true_and, and_self, ↓reduceIte, fld_zero, fld_cellV, fld_cellB, fld_cellN, bvf_cellV, bvf_cellB, bvf_cellN, bit_cellV, bit_cellB, bit_cellN, fld_cellN_low, fld_cellB_low, fld_cellV_low, bvf_cellV_low, bit_cellB_low, fld_cellN_ne, fld_cellN_part]; done) | simp [w]

theorem slrelReset (x' : Pre) (ch' : Bool) (a' : BitVec 7) : Statement (.slrelReset x' ch' a') := by
  let w := cellN 1 10 <| cellV a' <| cellN 0 4 <| cellN 1 4 <| cellN 56 6 <| cellB ch' 0
  have hm : fld w 25 6 = 56 := by simp only [w, Nat.reducePow, Nat.reduceLeDiff, Nat.reduceSub, Nat.reduceLT, fld_zero, fld_cellV, fld_cellB, fld_cellN, fld_cellN_low]
  have hn : fld w 21 4 = 1 := by simp only [w, Nat.reducePow, Nat.reduceLeDiff, Nat.reduceSub, Nat.reduceLT, fld_zero, fld_cellV, fld_cellB, fld_cellN, fld_cellN_low]
  refine of_base _ x' w rfl rfl ?_ (by rw [hm]; omega)
  rw [base_Matrix_56 _ _ hm]
  unfold decodeMatrix
  rw [hn]
  first | (simp only [w, Nat.reducePow, Nat.reduceLeDiff, Nat.reduceSub, Nat.reduceLT, Nat.add_sub_cancel_left, Nat.le_add_right, and_true, true_and, and_self, ↓reduceIte, fld_zero, fld_cellV, fld_cellB, fld_cellN, bvf_cellV, bvf_cellB, bvf_cellN, bit_cellV, bit_cellB, bit_cellN, fld_cellN_low, fld_cellB_low, fld_cellV_low, bvf_cellV_low, bit_cellB_low, fld_cellN_ne, fld_cellN_part]; done) | simp [w]

theorem acclaim (x' : Pre) (ch' : Bool) (f' : Bool) (a' : BitVec 7) : Statement (.acclaim x' ch' f' a') := by
  let w := cellN 0 10 <| cellV a' <| cellN 0 3 <| cellB f' <| cellN 2 4 <| cellN 56 6 <| cellB ch' 0
  have hm : fld w 25 6 = 56 := by simp only [w, Nat.reducePow, Nat.reduceLeDiff, Nat.reduceSub, Nat.reduceLT, fld_zero, fld_cellV, fld_cellB, fld_cellN, fld_cellN_low]
  have hn : fld w 21 4 = 2 := by simp only [w, Nat.reducePow, Nat.reduceLeDiff, Nat.reduceSub, Nat.reduceLT, fld_zero, fld_cellV, fld_cellB, fld_cellN, fld_cellN_low]
  refine of_base _ x' w rfl rfl ?_ (by rw [hm]; omega)
  rw [base_Matrix_56 _ _ hm]
  unfold decodeMatrix
  rw [hn]
  first | (simp only [w, Nat.reducePow, Nat.reduceLeDiff, Nat.reduceSub, Nat.reduceLT, Nat.add_sub_cancel_left, Nat.le_add_right, and_true, true_and, and_self, ↓reduceIte, fld_zero, fld_cellV, fld_cellB, fld_cellN, bvf_cellV, bvf_cellB, bvf_cellN, bit_cellV, bit_cellB, bit_cellN, fld_cellN_low, fld_cellB_low, fld_cellV_low, bvf_cellV_low, bit_cellB_low, fld_cellN_ne, fld_cellN_part]; done) | simp [w]

theorem acrel (x' : Pre) (ch' : Bool) (a' : BitVec 7) : Statement (.acrel x' ch' a') := by
  let w := cellN 0 10 <| cellV a' <| cellN 0 4 <| cellN 3 4 <| cellN 56 6 <| cellB ch' 0
  have hm : fld w 25 6 = 56 := by simp only [w, Nat.reducePow, Nat.reduceLeDiff, Nat.reduceSub, Nat.reduceLT, fld_zero, fld_cellV, fld_cellB, fld_cellN, fld_cellN_low]
  have hn : fld w 21 4 = 3 := by simp only [w, Nat.reducePow, Nat.reduceLeDiff, Nat.reduceSub, Nat.reduceLT, fld_zero, fld_cellV, fld_cellB, fld_cellN, fld_cellN_low]
  refine of_base _ x' w rfl rfl ?_ (by rw [hm]; omega)
  rw [base_Matrix_56 _ _ hm]
  unfold decodeMatrix
  rw [hn]
  first | (simp only [w, Nat.reducePow, Nat.reduceLeDiff, Nat.reduceSub, Nat.reduceLT, Nat.add_sub_cancel_left, Nat.le_add_right, and_true, true_and, and_self, ↓reduceIte, fld_zero, fld_cellV, fld_cellB, fld_cellN, bvf_cellV, bvf_cellB, bvf_cellN, bit_cellV, bit_cellB, bit_cellN, fld_cellN_low, fld_cellB_low, fld_cellV_low, bvf_cellV_low, bit_cellB_low, fld_cellN_ne, fld_cellN_part]; done) | simp [w]

theorem mxlay (x' : Pre) (ch' : Bool) (a' : BitVec 7) (n' : BitVec 2) : Statement (.mxlay x' ch' a' n') := by
  let w := cellV n' <| cellN 0 8 <| cellV a' <| cellN 0 4 <| cellN 4 4 <| cellN 56 6 <| cellB ch' 0
  have hm : fld w 25 6 = 56 := by simp only [w, Nat.reducePow, Nat.reduceLeDiff, Nat.reduceSub, Nat.reduceLT, fld_zero, fld_cellV, fld_cellB, fld_cellN, fld_cellN_low]
  have hn : fld w 21 4 = 4 := by simp only [w, Nat.reducePow, Nat.reduceLeDiff, Nat.reduceSub, Nat.reduceLT, fld_zero, fld_cellV, fld_cellB, fld_cellN, fld_cellN_low]
  refine of_base _ x' w rfl rfl ?_ (by rw [hm]; omega)
  rw [base_Matrix_56 _ _ hm]
  unfold decodeMatrix
  rw [hn]
  first | (simp only [w, Nat.reducePow, Nat.reduceLeDiff, Nat.reduceSub, Nat.reduceLT, Nat.add_sub_cancel_left, Nat.le_add_right, and_true, true_and, and_self, ↓reduceIte, fld_zero, fld_cellV, fld_cellB, fld_cellN, bvf_cellV, bvf_cellB, bvf_cellN, bit_cellV, bit_cellB, bit_cellN, fld_cellN_low, fld_cellB_low, fld_cellV_low, bvf_cellV_low, bit_cellB_low, fld_cellN_ne, fld_cellN_part]; done) | simp [w]

theorem mxloop (x' : Pre) (ch' : Bool) (f' : Bool) (q' : BitVec 3) (a' : BitVec 7) (b' : BitVec 7) (e' : BitVec 3) : Statement (.mxloop x' ch' f' q' a' b' e') := by
  let w := cellV e' <| cellV b' <| cellV a' <| cellV q' <| cellB f' <| cellN 5 4 <| cellN 56 6 <| cellB ch' 0
  have hm : fld w 25 6 = 56 := by simp only [w, Nat.reducePow, Nat.reduceLeDiff, Nat.reduceSub, Nat.reduceLT, fld_zero, fld_cellV, fld_cellB, fld_cellN, fld_cellN_low]
  have hn : fld w 21 4 = 5 := by simp only [w, Nat.reducePow, Nat.reduceLeDiff, Nat.reduceSub, Nat.reduceLT, fld_zero, fld_cellV, fld_cellB, fld_cellN, fld_cellN_low]
  refine of_base _ x' w rfl rfl ?_ (by rw [hm]; omega)
  rw [base_Matrix_56 _ _ hm]
  unfold decodeMatrix
  rw [hn]
  first | (simp only [w, Nat.reducePow, Nat.reduceLeDiff, Nat.reduceSub, Nat.reduceLT, Nat.add_sub_cancel_left, Nat.le_add_right, and_true, true_and, and_self, ↓reduceIte, fld_zero, fld_cellV, fld_cellB, fld_cellN, bvf_cellV, bvf_cellB, bvf_cellN, bit_cellV, bit_cellB, bit_cellN, fld_cellN_low, fld_cellB_low, fld_cellV_low, bvf_cellV_low, bit_cellB_low, fld_cellN_ne, fld_cellN_part]; done) | simp [w]

theorem mxsc (x' : Pre) (ch' : Bool) (f' : Bool) (a' : BitVec 7) (b' : BitVec 7) : Statement (.mxsc x' ch' f' a' b') := by
  let w := cellN 0 3 <| cellV b' <| cellV a' <| cellN 0 3 <| cellB f' <| cellN 6 4 <| cellN 56 6 <| cellB ch' 0
  have hm : fld w 25 6 = 56 := by simp only [w, Nat.reducePow, Nat.reduceLeDiff, Nat.reduceSub, Nat.reduceLT, fld_zero, fld_cellV, fld_cellB, fld_cellN, fld_cellN_low]
  have hn : fld w 21 4 = 6 := by simp only [w, Nat.reducePow, Nat.reduceLeDiff, Nat.reduceSub, Nat.reduceLT, fld_zero, fld_cellV, fld_cellB, fld_cellN, fld_cellN_low]
  refine of_base _ x' w rfl rfl ?_ (by rw [hm]; omega)
  rw [base_Matrix_56 _ _ hm]
  unfold decodeMatrix
  rw [hn]
  first | (simp only [w, Nat.reducePow, Nat.reduceLeDiff, Nat.reduceSub, Nat.reduceLT, Nat.add_sub_cancel_left, Nat.le_add_right, and_true, true_and, and_self, ↓reduceIte, fld_zero, fld_cellV, fld_cellB, fld_cellN, bvf_cellV, bvf_cellB, bvf_cellN, bit_cellV, bit_cellB, bit_cellN, fld_cellN_low, fld_cellB_low, fld_cellV_low, bvf_cellV_low, bit_cellB_low, fld_cellN_ne, fld_cellN_part]; done) | simp [w]

theorem mxz (x' : Pre) (ch' : Bool) (f' : Bool) (a' : BitVec 7) : Statement (.mxz x' ch' f' a') := by
  let w := cellN 0 10 <| cellV a' <| cellN 0 3 <| cellB f' <| cellN 7 4 <| cellN 56 6 <| cellB ch' 0
  have hm : fld w 25 6 = 56 := by simp only [w, Nat.reducePow, Nat.reduceLeDiff, Nat.reduceSub, Nat.reduceLT, fld_zero, fld_cellV, fld_cellB, fld_cellN, fld_cellN_low]
  have hn : fld w 21 4 = 7 := by simp only [w, Nat.reducePow, Nat.reduceLeDiff, Nat.reduceSub, Nat.reduceLT, fld_zero, fld_cellV, fld_cellB, fld_cellN, fld_cellN_low]
  refine of_base _ x' w rfl rfl ?_ (by rw [hm]; omega)
  rw [base_Matrix_56 _ _ hm]
  unfold decodeMatrix
  rw [hn]
  first | (simp only [w, Nat.reducePow, Nat.reduceLeDiff, Nat.reduceSub, Nat.reduceLT, Nat.add_sub_cancel_left, Nat.le_add_right, and_true, true_and, and_self, ↓reduceIte, fld_zero, fld_cellV, fld_cellB, fld_cellN, bvf_cellV, bvf_cellB, bvf_cellN, bit_cellV, bit_cellB, bit_cellN, fld_cellN_low, fld_cellB_low, fld_cellV_low, bvf_cellV_low, bit_cellB_low, fld_cellN_ne, fld_cellN_part]; done) | simp [w]

theorem mxrd (x' : Pre) (ch' : Bool) (f' : Bool) (a' : BitVec 7) (b' : BitVec 7) : Statement (.mxrd x' ch' f' a' b') := by
  let w := cellN 0 3 <| cellV b' <| cellV a' <| cellN 0 3 <| cellB f' <| cellN 8 4 <| cellN 56 6 <| cellB ch' 0
  have hm : fld w 25 6 = 56 := by simp only [w, Nat.reducePow, Nat.reduceLeDiff, Nat.reduceSub, Nat.reduceLT, fld_zero, fld_cellV, fld_cellB, fld_cellN, fld_cellN_low]
  have hn : fld w 21 4 = 8 := by simp only [w, Nat.reducePow, Nat.reduceLeDiff, Nat.reduceSub, Nat.reduceLT, fld_zero, fld_cellV, fld_cellB, fld_cellN, fld_cellN_low]
  refine of_base _ x' w rfl rfl ?_ (by rw [hm]; omega)
  rw [base_Matrix_56 _ _ hm]
  unfold decodeMatrix
  rw [hn]
  first | (simp only [w, Nat.reducePow, Nat.reduceLeDiff, Nat.reduceSub, Nat.reduceLT, Nat.add_sub_cancel_left, Nat.le_add_right, and_true, true_and, and_self, ↓reduceIte, fld_zero, fld_cellV, fld_cellB, fld_cellN, bvf_cellV, bvf_cellB, bvf_cellN, bit_cellV, bit_cellB, bit_cellN, fld_cellN_low, fld_cellB_low, fld_cellV_low, bvf_cellV_low, bit_cellB_low, fld_cellN_ne, fld_cellN_part]; done) | simp [w]

theorem mxwr (x' : Pre) (ch' : Bool) (a' : BitVec 7) (b' : BitVec 7) : Statement (.mxwr x' ch' a' b') := by
  let w := cellN 0 3 <| cellV b' <| cellV a' <| cellN 0 4 <| cellN 9 4 <| cellN 56 6 <| cellB ch' 0
  have hm : fld w 25 6 = 56 := by simp only [w, Nat.reducePow, Nat.reduceLeDiff, Nat.reduceSub, Nat.reduceLT, fld_zero, fld_cellV, fld_cellB, fld_cellN, fld_cellN_low]
  have hn : fld w 21 4 = 9 := by simp only [w, Nat.reducePow, Nat.reduceLeDiff, Nat.reduceSub, Nat.reduceLT, fld_zero, fld_cellV, fld_cellB, fld_cellN, fld_cellN_low]
  refine of_base _ x' w rfl rfl ?_ (by rw [hm]; omega)
  rw [base_Matrix_56 _ _ hm]
  unfold decodeMatrix
  rw [hn]
  first | (simp only [w, Nat.reducePow, Nat.reduceLeDiff, Nat.reduceSub, Nat.reduceLT, Nat.add_sub_cancel_left, Nat.le_add_right, and_true, true_and, and_self, ↓reduceIte, fld_zero, fld_cellV, fld_cellB, fld_cellN, bvf_cellV, bvf_cellB, bvf_cellN, bit_cellV, bit_cellB, bit_cellN, fld_cellN_low, fld_cellB_low, fld_cellV_low, bvf_cellV_low, bit_cellB_low, fld_cellN_ne, fld_cellN_part]; done) | simp [w]

theorem mxst (x' : Pre) (ch' : Bool) (f' : Bool) (a' : BitVec 7) (b' : BitVec 7) : Statement (.mxst x' ch' f' a' b') := by
  let w := cellN 0 3 <| cellV b' <| cellV a' <| cellN 0 3 <| cellB f' <| cellN 10 4 <| cellN 56 6 <| cellB ch' 0
  have hm : fld w 25 6 = 56 := by simp only [w, Nat.reducePow, Nat.reduceLeDiff, Nat.reduceSub, Nat.reduceLT, fld_zero, fld_cellV, fld_cellB, fld_cellN, fld_cellN_low]
  have hn : fld w 21 4 = 10 := by simp only [w, Nat.reducePow, Nat.reduceLeDiff, Nat.reduceSub, Nat.reduceLT, fld_zero, fld_cellV, fld_cellB, fld_cellN, fld_cellN_low]
  refine of_base _ x' w rfl rfl ?_ (by rw [hm]; omega)
  rw [base_Matrix_56 _ _ hm]
  unfold decodeMatrix
  rw [hn]
  first | (simp only [w, Nat.reducePow, Nat.reduceLeDiff, Nat.reduceSub, Nat.reduceLT, Nat.add_sub_cancel_left, Nat.le_add_right, and_true, true_and, and_self, ↓reduceIte, fld_zero, fld_cellV, fld_cellB, fld_cellN, bvf_cellV, bvf_cellB, bvf_cellN, bit_cellV, bit_cellB, bit_cellN, fld_cellN_low, fld_cellB_low, fld_cellV_low, bvf_cellV_low, bit_cellB_low, fld_cellN_ne, fld_cellN_part]; done) | simp [w]

theorem mxsp (x' : Pre) (ch' : Bool) (a' : BitVec 7) (b' : BitVec 7) : Statement (.mxsp x' ch' a' b') := by
  let w := cellN 0 3 <| cellV b' <| cellV a' <| cellN 0 4 <| cellN 11 4 <| cellN 56 6 <| cellB ch' 0
  have hm : fld w 25 6 = 56 := by simp only [w, Nat.reducePow, Nat.reduceLeDiff, Nat.reduceSub, Nat.reduceLT, fld_zero, fld_cellV, fld_cellB, fld_cellN, fld_cellN_low]
  have hn : fld w 21 4 = 11 := by simp only [w, Nat.reducePow, Nat.reduceLeDiff, Nat.reduceSub, Nat.reduceLT, fld_zero, fld_cellV, fld_cellB, fld_cellN, fld_cellN_low]
  refine of_base _ x' w rfl rfl ?_ (by rw [hm]; omega)
  rw [base_Matrix_56 _ _ hm]
  unfold decodeMatrix
  rw [hn]
  first | (simp only [w, Nat.reducePow, Nat.reduceLeDiff, Nat.reduceSub, Nat.reduceLT, Nat.add_sub_cancel_left, Nat.le_add_right, and_true, true_and, and_self, ↓reduceIte, fld_zero, fld_cellV, fld_cellB, fld_cellN, bvf_cellV, bvf_cellB, bvf_cellN, bit_cellV, bit_cellB, bit_cellN, fld_cellN_low, fld_cellB_low, fld_cellV_low, bvf_cellV_low, bit_cellB_low, fld_cellN_ne, fld_cellN_part]; done) | simp [w]

theorem mxcnt (x' : Pre) (ch' : Bool) (a' : BitVec 7) : Statement (.mxcnt x' ch' a') := by
  let w := cellN 0 10 <| cellV a' <| cellN 0 4 <| cellN 12 4 <| cellN 56 6 <| cellB ch' 0
  have hm : fld w 25 6 = 56 := by simp only [w, Nat.reducePow, Nat.reduceLeDiff, Nat.reduceSub, Nat.reduceLT, fld_zero, fld_cellV, fld_cellB, fld_cellN, fld_cellN_low]
  have hn : fld w 21 4 = 12 := by simp only [w, Nat.reducePow, Nat.reduceLeDiff, Nat.reduceSub, Nat.reduceLT, fld_zero, fld_cellV, fld_cellB, fld_cellN, fld_cellN_low]
  refine of_base _ x' w rfl rfl ?_ (by rw [hm]; omega)
  rw [base_Matrix_56 _ _ hm]
  unfold decodeMatrix
  rw [hn]
  first | (simp only [w, Nat.reducePow, Nat.reduceLeDiff, Nat.reduceSub, Nat.reduceLT, Nat.add_sub_cancel_left, Nat.le_add_right, and_true, true_and, and_self, ↓reduceIte, fld_zero, fld_cellV, fld_cellB, fld_cellN, bvf_cellV, bvf_cellB, bvf_cellN, bit_cellV, bit_cellB, bit_cellN, fld_cellN_low, fld_cellB_low, fld_cellV_low, bvf_cellV_low, bit_cellB_low, fld_cellN_ne, fld_cellN_part]; done) | simp [w]

theorem mxcntClr (x' : Pre) (ch' : Bool) (a' : BitVec 7) : Statement (.mxcntClr x' ch' a') := by
  let w := cellN 1 10 <| cellV a' <| cellN 0 4 <| cellN 12 4 <| cellN 56 6 <| cellB ch' 0
  have hm : fld w 25 6 = 56 := by simp only [w, Nat.reducePow, Nat.reduceLeDiff, Nat.reduceSub, Nat.reduceLT, fld_zero, fld_cellV, fld_cellB, fld_cellN, fld_cellN_low]
  have hn : fld w 21 4 = 12 := by simp only [w, Nat.reducePow, Nat.reduceLeDiff, Nat.reduceSub, Nat.reduceLT, fld_zero, fld_cellV, fld_cellB, fld_cellN, fld_cellN_low]
  refine of_base _ x' w rfl rfl ?_ (by rw [hm]; omega)
  rw [base_Matrix_56 _ _ hm]
  unfold decodeMatrix
  rw [hn]
  first | (simp only [w, Nat.reducePow, Nat.reduceLeDiff, Nat.reduceSub, Nat.reduceLT, Nat.add_sub_cancel_left, Nat.le_add_right, and_true, true_and, and_self, ↓reduceIte, fld_zero, fld_cellV, fld_cellB, fld_cellN, bvf_cellV, bvf_cellB, bvf_cellN, bit_cellV, bit_cellB, bit_cellN, fld_cellN_low, fld_cellB_low, fld_cellV_low, bvf_cellV_low, bit_cellB_low, fld_cellN_ne, fld_cellN_part]; done) | simp [w]

theorem tsinit (x' : Pre) (ch' : Bool) (f' : Bool) (q' : BitVec 3) (a' : BitVec 7) (k' : Bool) : Statement (.tsinit x' ch' f' q' a' k') := by
  let w := cellB k' <| cellN 0 9 <| cellV a' <| cellV q' <| cellB f' <| cellN 0 4 <| cellN 57 6 <| cellB ch' 0
  have hm : fld w 25 6 = 57 := by simp only [w, Nat.reducePow, Nat.reduceLeDiff, Nat.reduceSub, Nat.reduceLT, fld_zero, fld_cellV, fld_cellB, fld_cellN, fld_cellN_low]
  have hn : fld w 21 4 = 0 := by simp only [w, Nat.reducePow, Nat.reduceLeDiff, Nat.reduceSub, Nat.reduceLT, fld_zero, fld_cellV, fld_cellB, fld_cellN, fld_cellN_low]
  refine of_base _ x' w rfl rfl ?_ (by rw [hm]; omega)
  rw [base_Tree_57 _ _ hm]
  unfold decodeTree
  rw [hn]
  first | (simp only [w, Nat.reducePow, Nat.reduceLeDiff, Nat.reduceSub, Nat.reduceLT, Nat.add_sub_cancel_left, Nat.le_add_right, and_true, true_and, and_self, ↓reduceIte, fld_zero, fld_cellV, fld_cellB, fld_cellN, bvf_cellV, bvf_cellB, bvf_cellN, bit_cellV, bit_cellB, bit_cellN, fld_cellN_low, fld_cellB_low, fld_cellV_low, bvf_cellV_low, bit_cellB_low, fld_cellN_ne, fld_cellN_part]; done) | simp [w]

theorem tsexp (x' : Pre) (ch' : Bool) (f' : Bool) (q' : BitVec 3) (a' : BitVec 7) (k' : Bool) : Statement (.tsexp x' ch' f' q' a' k') := by
  let w := cellB k' <| cellN 0 9 <| cellV a' <| cellV q' <| cellB f' <| cellN 1 4 <| cellN 57 6 <| cellB ch' 0
  have hm : fld w 25 6 = 57 := by simp only [w, Nat.reducePow, Nat.reduceLeDiff, Nat.reduceSub, Nat.reduceLT, fld_zero, fld_cellV, fld_cellB, fld_cellN, fld_cellN_low]
  have hn : fld w 21 4 = 1 := by simp only [w, Nat.reducePow, Nat.reduceLeDiff, Nat.reduceSub, Nat.reduceLT, fld_zero, fld_cellV, fld_cellB, fld_cellN, fld_cellN_low]
  refine of_base _ x' w rfl rfl ?_ (by rw [hm]; omega)
  rw [base_Tree_57 _ _ hm]
  unfold decodeTree
  rw [hn]
  first | (simp only [w, Nat.reducePow, Nat.reduceLeDiff, Nat.reduceSub, Nat.reduceLT, Nat.add_sub_cancel_left, Nat.le_add_right, and_true, true_and, and_self, ↓reduceIte, fld_zero, fld_cellV, fld_cellB, fld_cellN, bvf_cellV, bvf_cellB, bvf_cellN, bit_cellV, bit_cellB, bit_cellN, fld_cellN_low, fld_cellB_low, fld_cellV_low, bvf_cellV_low, bit_cellB_low, fld_cellN_ne, fld_cellN_part]; done) | simp [w]

theorem tsdesc (x' : Pre) (ch' : Bool) (f' : Bool) (a' : BitVec 7) (b' : BitVec 7) : Statement (.tsdesc x' ch' f' a' b') := by
  let w := cellN 0 3 <| cellV b' <| cellV a' <| cellN 0 3 <| cellB f' <| cellN 2 4 <| cellN 57 6 <| cellB ch' 0
  have hm : fld w 25 6 = 57 := by simp only [w, Nat.reducePow, Nat.reduceLeDiff, Nat.reduceSub, Nat.reduceLT, fld_zero, fld_cellV, fld_cellB, fld_cellN, fld_cellN_low]
  have hn : fld w 21 4 = 2 := by simp only [w, Nat.reducePow, Nat.reduceLeDiff, Nat.reduceSub, Nat.reduceLT, fld_zero, fld_cellV, fld_cellB, fld_cellN, fld_cellN_low]
  refine of_base _ x' w rfl rfl ?_ (by rw [hm]; omega)
  rw [base_Tree_57 _ _ hm]
  unfold decodeTree
  rw [hn]
  first | (simp only [w, Nat.reducePow, Nat.reduceLeDiff, Nat.reduceSub, Nat.reduceLT, Nat.add_sub_cancel_left, Nat.le_add_right, and_true, true_and, and_self, ↓reduceIte, fld_zero, fld_cellV, fld_cellB, fld_cellN, bvf_cellV, bvf_cellB, bvf_cellN, bit_cellV, bit_cellB, bit_cellN, fld_cellN_low, fld_cellB_low, fld_cellV_low, bvf_cellV_low, bit_cellB_low, fld_cellN_ne, fld_cellN_part]; done) | simp [w]

theorem tsback (x' : Pre) (ch' : Bool) (f' : Bool) (a' : BitVec 7) (b' : BitVec 7) : Statement (.tsback x' ch' f' a' b') := by
  let w := cellN 0 3 <| cellV b' <| cellV a' <| cellN 0 3 <| cellB f' <| cellN 3 4 <| cellN 57 6 <| cellB ch' 0
  have hm : fld w 25 6 = 57 := by simp only [w, Nat.reducePow, Nat.reduceLeDiff, Nat.reduceSub, Nat.reduceLT, fld_zero, fld_cellV, fld_cellB, fld_cellN, fld_cellN_low]
  have hn : fld w 21 4 = 3 := by simp only [w, Nat.reducePow, Nat.reduceLeDiff, Nat.reduceSub, Nat.reduceLT, fld_zero, fld_cellV, fld_cellB, fld_cellN, fld_cellN_low]
  refine of_base _ x' w rfl rfl ?_ (by rw [hm]; omega)
  rw [base_Tree_57 _ _ hm]
  unfold decodeTree
  rw [hn]
  first | (simp only [w, Nat.reducePow, Nat.reduceLeDiff, Nat.reduceSub, Nat.reduceLT, Nat.add_sub_cancel_left, Nat.le_add_right, and_true, true_and, and_self, ↓reduceIte, fld_zero, fld_cellV, fld_cellB, fld_cellN, bvf_cellV, bvf_cellB, bvf_cellN, bit_cellV, bit_cellB, bit_cellN, fld_cellN_low, fld_cellB_low, fld_cellV_low, bvf_cellV_low, bit_cellB_low, fld_cellN_ne, fld_cellN_part]; done) | simp [w]

theorem tsroot (x' : Pre) (ch' : Bool) (f' : Bool) (q' : BitVec 3) (a' : BitVec 7) (b' : BitVec 7) (k' : Bool) : Statement (.tsroot x' ch' f' q' a' b' k') := by
  let w := cellB k' <| cellN 0 2 <| cellV b' <| cellV a' <| cellV q' <| cellB f' <| cellN 4 4 <| cellN 57 6 <| cellB ch' 0
  have hm : fld w 25 6 = 57 := by simp only [w, Nat.reducePow, Nat.reduceLeDiff, Nat.reduceSub, Nat.reduceLT, fld_zero, fld_cellV, fld_cellB, fld_cellN, fld_cellN_low]
  have hn : fld w 21 4 = 4 := by simp only [w, Nat.reducePow, Nat.reduceLeDiff, Nat.reduceSub, Nat.reduceLT, fld_zero, fld_cellV, fld_cellB, fld_cellN, fld_cellN_low]
  refine of_base _ x' w rfl rfl ?_ (by rw [hm]; omega)
  rw [base_Tree_57 _ _ hm]
  unfold decodeTree
  rw [hn]
  first | (simp only [w, Nat.reducePow, Nat.reduceLeDiff, Nat.reduceSub, Nat.reduceLT, Nat.add_sub_cancel_left, Nat.le_add_right, and_true, true_and, and_self, ↓reduceIte, fld_zero, fld_cellV, fld_cellB, fld_cellN, bvf_cellV, bvf_cellB, bvf_cellN, bit_cellV, bit_cellB, bit_cellN, fld_cellN_low, fld_cellB_low, fld_cellV_low, bvf_cellV_low, bit_cellB_low, fld_cellN_ne, fld_cellN_part]; done) | simp [w]

theorem tsfree (x' : Pre) (ch' : Bool) (f' : Bool) (q' : BitVec 3) (a' : BitVec 7) (b' : BitVec 7) (k' : Bool) : Statement (.tsfree x' ch' f' q' a' b' k') := by
  let w := cellB k' <| cellN 0 2 <| cellV b' <| cellV a' <| cellV q' <| cellB f' <| cellN 5 4 <| cellN 57 6 <| cellB ch' 0
  have hm : fld w 25 6 = 57 := by simp only [w, Nat.reducePow, Nat.reduceLeDiff, Nat.reduceSub, Nat.reduceLT, fld_zero, fld_cellV, fld_cellB, fld_cellN, fld_cellN_low]
  have hn : fld w 21 4 = 5 := by simp only [w, Nat.reducePow, Nat.reduceLeDiff, Nat.reduceSub, Nat.reduceLT, fld_zero, fld_cellV, fld_cellB, fld_cellN, fld_cellN_low]
  refine of_base _ x' w rfl rfl ?_ (by rw [hm]; omega)
  rw [base_Tree_57 _ _ hm]
  unfold decodeTree
  rw [hn]
  first | (simp only [w, Nat.reducePow, Nat.reduceLeDiff, Nat.reduceSub, Nat.reduceLT, Nat.add_sub_cancel_left, Nat.le_add_right, and_true, true_and, and_self, ↓reduceIte, fld_zero, fld_cellV, fld_cellB, fld_cellN, bvf_cellV, bvf_cellB, bvf_cellN, bit_cellV, bit_cellB, bit_cellN, fld_cellN_low, fld_cellB_low, fld_cellV_low, bvf_cellV_low, bit_cellB_low, fld_cellN_ne, fld_cellN_part]; done) | simp [w]

theorem tsrd (x' : Pre) (ch' : Bool) (f' : Bool) (a' : BitVec 7) (b' : BitVec 7) (w' : BitVec 3) : Statement (.tsrd x' ch' f' a' b' w') := by
  let w := cellV w' <| cellV b' <| cellV a' <| cellN 0 3 <| cellB f' <| cellN 6 4 <| cellN 57 6 <| cellB ch' 0
  have hm : fld w 25 6 = 57 := by simp only [w, Nat.reducePow, Nat.reduceLeDiff, Nat.reduceSub, Nat.reduceLT, fld_zero, fld_cellV, fld_cellB, fld_cellN, fld_cellN_low]
  have hn : fld w 21 4 = 6 := by simp only [w, Nat.reducePow, Nat.reduceLeDiff, Nat.reduceSub, Nat.reduceLT, fld_zero, fld_cellV, fld_cellB, fld_cellN, fld_cellN_low]
  refine of_base _ x' w rfl rfl ?_ (by rw [hm]; omega)
  rw [base_Tree_57 _ _ hm]
  unfold decodeTree
  rw [hn]
  first | (simp only [w, Nat.reducePow, Nat.reduceLeDiff, Nat.reduceSub, Nat.reduceLT, Nat.add_sub_cancel_left, Nat.le_add_right, and_true, true_and, and_self, ↓reduceIte, fld_zero, fld_cellV, fld_cellB, fld_cellN, bvf_cellV, bvf_cellB, bvf_cellN, bit_cellV, bit_cellB, bit_cellN, fld_cellN_low, fld_cellB_low, fld_cellV_low, bvf_cellV_low, bit_cellB_low, fld_cellN_ne, fld_cellN_part]; done) | simp [w]

theorem tsstat (x' : Pre) (ch' : Bool) (f' : Bool) (a' : BitVec 7) (b' : BitVec 7) (k' : BitVec 3) : Statement (.tsstat x' ch' f' a' b' k') := by
  let w := cellV k' <| cellV b' <| cellV a' <| cellN 0 3 <| cellB f' <| cellN 7 4 <| cellN 57 6 <| cellB ch' 0
  have hm : fld w 25 6 = 57 := by simp only [w, Nat.reducePow, Nat.reduceLeDiff, Nat.reduceSub, Nat.reduceLT, fld_zero, fld_cellV, fld_cellB, fld_cellN, fld_cellN_low]
  have hn : fld w 21 4 = 7 := by simp only [w, Nat.reducePow, Nat.reduceLeDiff, Nat.reduceSub, Nat.reduceLT, fld_zero, fld_cellV, fld_cellB, fld_cellN, fld_cellN_low]
  refine of_base _ x' w rfl rfl ?_ (by rw [hm]; omega)
  rw [base_Tree_57 _ _ hm]
  unfold decodeTree
  rw [hn]
  first | (simp only [w, Nat.reducePow, Nat.reduceLeDiff, Nat.reduceSub, Nat.reduceLT, Nat.add_sub_cancel_left, Nat.le_add_right, and_true, true_and, and_self, ↓reduceIte, fld_zero, fld_cellV, fld_cellB, fld_cellN, bvf_cellV, bvf_cellB, bvf_cellN, bit_cellV, bit_cellB, bit_cellN, fld_cellN_low, fld_cellB_low, fld_cellV_low, bvf_cellV_low, bit_cellB_low, fld_cellN_ne, fld_cellN_part]; done) | simp [w]

theorem mvemit (x' : Pre) (ch' : Bool) (f' : Bool) (a' : BitVec 7) : Statement (.mvemit x' ch' f' a') := by
  let w := cellN 0 10 <| cellV a' <| cellN 0 3 <| cellB f' <| cellN 0 4 <| cellN 58 6 <| cellB ch' 0
  have hm : fld w 25 6 = 58 := by simp only [w, Nat.reducePow, Nat.reduceLeDiff, Nat.reduceSub, Nat.reduceLT, fld_zero, fld_cellV, fld_cellB, fld_cellN, fld_cellN_low]
  have hn : fld w 21 4 = 0 := by simp only [w, Nat.reducePow, Nat.reduceLeDiff, Nat.reduceSub, Nat.reduceLT, fld_zero, fld_cellV, fld_cellB, fld_cellN, fld_cellN_low]
  refine of_base _ x' w rfl rfl ?_ (by rw [hm]; omega)
  rw [base_Graph_58 _ _ hm]
  unfold decodeGraph
  rw [hn]
  first | (simp only [w, Nat.reducePow, Nat.reduceLeDiff, Nat.reduceSub, Nat.reduceLT, Nat.add_sub_cancel_left, Nat.le_add_right, and_true, true_and, and_self, ↓reduceIte, fld_zero, fld_cellV, fld_cellB, fld_cellN, bvf_cellV, bvf_cellB, bvf_cellN, bit_cellV, bit_cellB, bit_cellN, fld_cellN_low, fld_cellB_low, fld_cellV_low, bvf_cellV_low, bit_cellB_low, fld_cellN_ne, fld_cellN_part]; done) | simp [w]

theorem cover (x' : Pre) (ch' : Bool) (a' : BitVec 7) (b' : BitVec 7) (n' : BitVec 3) : Statement (.cover x' ch' a' b' n') := by
  let w := cellV n' <| cellV b' <| cellV a' <| cellN 0 4 <| cellN 1 4 <| cellN 58 6 <| cellB ch' 0
  have hm : fld w 25 6 = 58 := by simp only [w, Nat.reducePow, Nat.reduceLeDiff, Nat.reduceSub, Nat.reduceLT, fld_zero, fld_cellV, fld_cellB, fld_cellN, fld_cellN_low]
  have hn : fld w 21 4 = 1 := by simp only [w, Nat.reducePow, Nat.reduceLeDiff, Nat.reduceSub, Nat.reduceLT, fld_zero, fld_cellV, fld_cellB, fld_cellN, fld_cellN_low]
  refine of_base _ x' w rfl rfl ?_ (by rw [hm]; omega)
  rw [base_Graph_58 _ _ hm]
  unfold decodeGraph
  rw [hn]
  first | (simp only [w, Nat.reducePow, Nat.reduceLeDiff, Nat.reduceSub, Nat.reduceLT, Nat.add_sub_cancel_left, Nat.le_add_right, and_true, true_and, and_self, ↓reduceIte, fld_zero, fld_cellV, fld_cellB, fld_cellN, bvf_cellV, bvf_cellB, bvf_cellN, bit_cellV, bit_cellB, bit_cellN, fld_cellN_low, fld_cellB_low, fld_cellV_low, bvf_cellV_low, bit_cellB_low, fld_cellN_ne, fld_cellN_part]; done) | simp [w]

theorem seqtkHw (x' : Pre) (ch' : Bool) (f' : Bool) (a' : BitVec 7) : Statement (.seqtkHw x' ch' f' a') := by
  let w := cellN 0 10 <| cellV a' <| cellN 0 3 <| cellB f' <| cellN 2 4 <| cellN 58 6 <| cellB ch' 0
  have hm : fld w 25 6 = 58 := by simp only [w, Nat.reducePow, Nat.reduceLeDiff, Nat.reduceSub, Nat.reduceLT, fld_zero, fld_cellV, fld_cellB, fld_cellN, fld_cellN_low]
  have hn : fld w 21 4 = 2 := by simp only [w, Nat.reducePow, Nat.reduceLeDiff, Nat.reduceSub, Nat.reduceLT, fld_zero, fld_cellV, fld_cellB, fld_cellN, fld_cellN_low]
  refine of_base _ x' w rfl rfl ?_ (by rw [hm]; omega)
  rw [base_Graph_58 _ _ hm]
  unfold decodeGraph
  rw [hn]
  first | (simp only [w, Nat.reducePow, Nat.reduceLeDiff, Nat.reduceSub, Nat.reduceLT, Nat.add_sub_cancel_left, Nat.le_add_right, and_true, true_and, and_self, ↓reduceIte, fld_zero, fld_cellV, fld_cellB, fld_cellN, bvf_cellV, bvf_cellB, bvf_cellN, bit_cellV, bit_cellB, bit_cellN, fld_cellN_low, fld_cellB_low, fld_cellV_low, bvf_cellV_low, bit_cellB_low, fld_cellN_ne, fld_cellN_part]; done) | simp [w]

theorem seqtkCommit (x' : Pre) (ch' : Bool) (a' : BitVec 7) : Statement (.seqtkCommit x' ch' a') := by
  let w := cellN 1 10 <| cellV a' <| cellN 0 4 <| cellN 2 4 <| cellN 58 6 <| cellB ch' 0
  have hm : fld w 25 6 = 58 := by simp only [w, Nat.reducePow, Nat.reduceLeDiff, Nat.reduceSub, Nat.reduceLT, fld_zero, fld_cellV, fld_cellB, fld_cellN, fld_cellN_low]
  have hn : fld w 21 4 = 2 := by simp only [w, Nat.reducePow, Nat.reduceLeDiff, Nat.reduceSub, Nat.reduceLT, fld_zero, fld_cellV, fld_cellB, fld_cellN, fld_cellN_low]
  refine of_base _ x' w rfl rfl ?_ (by rw [hm]; omega)
  rw [base_Graph_58 _ _ hm]
  unfold decodeGraph
  rw [hn]
  first | (simp only [w, Nat.reducePow, Nat.reduceLeDiff, Nat.reduceSub, Nat.reduceLT, Nat.add_sub_cancel_left, Nat.le_add_right, and_true, true_and, and_self, ↓reduceIte, fld_zero, fld_cellV, fld_cellB, fld_cellN, bvf_cellV, bvf_cellB, bvf_cellN, bit_cellV, bit_cellB, bit_cellN, fld_cellN_low, fld_cellB_low, fld_cellV_low, bvf_cellV_low, bit_cellB_low, fld_cellN_ne, fld_cellN_part]; done) | simp [w]

theorem regionBind (x' : Pre) (ch' : Bool) (f' : Bool) (a' : BitVec 7) (b' : BitVec 7) : Statement (.regionBind x' ch' f' a' b') := by
  let w := cellN 0 3 <| cellV b' <| cellV a' <| cellN 0 3 <| cellB f' <| cellN 3 4 <| cellN 58 6 <| cellB ch' 0
  have hm : fld w 25 6 = 58 := by simp only [w, Nat.reducePow, Nat.reduceLeDiff, Nat.reduceSub, Nat.reduceLT, fld_zero, fld_cellV, fld_cellB, fld_cellN, fld_cellN_low]
  have hn : fld w 21 4 = 3 := by simp only [w, Nat.reducePow, Nat.reduceLeDiff, Nat.reduceSub, Nat.reduceLT, fld_zero, fld_cellV, fld_cellB, fld_cellN, fld_cellN_low]
  refine of_base _ x' w rfl rfl ?_ (by rw [hm]; omega)
  rw [base_Graph_58 _ _ hm]
  unfold decodeGraph
  rw [hn]
  first | (simp only [w, Nat.reducePow, Nat.reduceLeDiff, Nat.reduceSub, Nat.reduceLT, Nat.add_sub_cancel_left, Nat.le_add_right, and_true, true_and, and_self, ↓reduceIte, fld_zero, fld_cellV, fld_cellB, fld_cellN, bvf_cellV, bvf_cellB, bvf_cellN, bit_cellV, bit_cellB, bit_cellN, fld_cellN_low, fld_cellB_low, fld_cellV_low, bvf_cellV_low, bit_cellB_low, fld_cellN_ne, fld_cellN_part]; done) | simp [w]

theorem regionXfer (x' : Pre) (ch' : Bool) (f' : Bool) (a' : BitVec 7) (b' : BitVec 7) : Statement (.regionXfer x' ch' f' a' b') := by
  let w := cellN 1 3 <| cellV b' <| cellV a' <| cellN 0 3 <| cellB f' <| cellN 3 4 <| cellN 58 6 <| cellB ch' 0
  have hm : fld w 25 6 = 58 := by simp only [w, Nat.reducePow, Nat.reduceLeDiff, Nat.reduceSub, Nat.reduceLT, fld_zero, fld_cellV, fld_cellB, fld_cellN, fld_cellN_low]
  have hn : fld w 21 4 = 3 := by simp only [w, Nat.reducePow, Nat.reduceLeDiff, Nat.reduceSub, Nat.reduceLT, fld_zero, fld_cellV, fld_cellB, fld_cellN, fld_cellN_low]
  refine of_base _ x' w rfl rfl ?_ (by rw [hm]; omega)
  rw [base_Graph_58 _ _ hm]
  unfold decodeGraph
  rw [hn]
  first | (simp only [w, Nat.reducePow, Nat.reduceLeDiff, Nat.reduceSub, Nat.reduceLT, Nat.add_sub_cancel_left, Nat.le_add_right, and_true, true_and, and_self, ↓reduceIte, fld_zero, fld_cellV, fld_cellB, fld_cellN, bvf_cellV, bvf_cellB, bvf_cellN, bit_cellV, bit_cellB, bit_cellN, fld_cellN_low, fld_cellB_low, fld_cellV_low, bvf_cellV_low, bit_cellB_low, fld_cellN_ne, fld_cellN_part]; done) | simp [w]

theorem smpl (x' : Pre) (ch' : Bool) (f' : Bool) (a' : BitVec 7) (b' : BitVec 7) (l' : BitVec 3) : Statement (.smpl x' ch' f' a' b' l') := by
  let w := cellV l' <| cellV b' <| cellV a' <| cellN 0 3 <| cellB f' <| cellN 4 4 <| cellN 58 6 <| cellB ch' 0
  have hm : fld w 25 6 = 58 := by simp only [w, Nat.reducePow, Nat.reduceLeDiff, Nat.reduceSub, Nat.reduceLT, fld_zero, fld_cellV, fld_cellB, fld_cellN, fld_cellN_low]
  have hn : fld w 21 4 = 4 := by simp only [w, Nat.reducePow, Nat.reduceLeDiff, Nat.reduceSub, Nat.reduceLT, fld_zero, fld_cellV, fld_cellB, fld_cellN, fld_cellN_low]
  refine of_base _ x' w rfl rfl ?_ (by rw [hm]; omega)
  rw [base_Graph_58 _ _ hm]
  unfold decodeGraph
  rw [hn]
  first | (simp only [w, Nat.reducePow, Nat.reduceLeDiff, Nat.reduceSub, Nat.reduceLT, Nat.add_sub_cancel_left, Nat.le_add_right, and_true, true_and, and_self, ↓reduceIte, fld_zero, fld_cellV, fld_cellB, fld_cellN, bvf_cellV, bvf_cellB, bvf_cellN, bit_cellV, bit_cellB, bit_cellN, fld_cellN_low, fld_cellB_low, fld_cellV_low, bvf_cellV_low, bit_cellB_low, fld_cellN_ne, fld_cellN_part]; done) | simp [w]

theorem trace (x' : Pre) (ch' : Bool) (f' : Bool) (q' : BitVec 3) (a' : BitVec 7) (b' : BitVec 7) : Statement (.trace x' ch' f' q' a' b') := by
  let w := cellN 0 3 <| cellV b' <| cellV a' <| cellV q' <| cellB f' <| cellN 5 4 <| cellN 58 6 <| cellB ch' 0
  have hm : fld w 25 6 = 58 := by simp only [w, Nat.reducePow, Nat.reduceLeDiff, Nat.reduceSub, Nat.reduceLT, fld_zero, fld_cellV, fld_cellB, fld_cellN, fld_cellN_low]
  have hn : fld w 21 4 = 5 := by simp only [w, Nat.reducePow, Nat.reduceLeDiff, Nat.reduceSub, Nat.reduceLT, fld_zero, fld_cellV, fld_cellB, fld_cellN, fld_cellN_low]
  refine of_base _ x' w rfl rfl ?_ (by rw [hm]; omega)
  rw [base_Graph_58 _ _ hm]
  unfold decodeGraph
  rw [hn]
  first | (simp only [w, Nat.reducePow, Nat.reduceLeDiff, Nat.reduceSub, Nat.reduceLT, Nat.add_sub_cancel_left, Nat.le_add_right, and_true, true_and, and_self, ↓reduceIte, fld_zero, fld_cellV, fld_cellB, fld_cellN, bvf_cellV, bvf_cellB, bvf_cellN, bit_cellV, bit_cellB, bit_cellN, fld_cellN_low, fld_cellB_low, fld_cellV_low, bvf_cellV_low, bit_cellB_low, fld_cellN_ne, fld_cellN_part]; done) | simp [w]

theorem tresGo (x' : Pre) (ch' : Bool) (f' : Bool) (q' : BitVec 3) (a' : BitVec 7) (b' : BitVec 7) : Statement (.tresGo x' ch' f' q' a' b') := by
  let w := cellN 0 3 <| cellV b' <| cellV a' <| cellV q' <| cellB f' <| cellN 6 4 <| cellN 58 6 <| cellB ch' 0
  have hm : fld w 25 6 = 58 := by simp only [w, Nat.reducePow, Nat.reduceLeDiff, Nat.reduceSub, Nat.reduceLT, fld_zero, fld_cellV, fld_cellB, fld_cellN, fld_cellN_low]
  have hn : fld w 21 4 = 6 := by simp only [w, Nat.reducePow, Nat.reduceLeDiff, Nat.reduceSub, Nat.reduceLT, fld_zero, fld_cellV, fld_cellB, fld_cellN, fld_cellN_low]
  refine of_base _ x' w rfl rfl ?_ (by rw [hm]; omega)
  rw [base_Graph_58 _ _ hm]
  unfold decodeGraph
  rw [hn]
  first | (simp only [w, Nat.reducePow, Nat.reduceLeDiff, Nat.reduceSub, Nat.reduceLT, Nat.add_sub_cancel_left, Nat.le_add_right, and_true, true_and, and_self, ↓reduceIte, fld_zero, fld_cellV, fld_cellB, fld_cellN, bvf_cellV, bvf_cellB, bvf_cellN, bit_cellV, bit_cellB, bit_cellN, fld_cellN_low, fld_cellB_low, fld_cellV_low, bvf_cellV_low, bit_cellB_low, fld_cellN_ne, fld_cellN_part]; done) | simp [w]

theorem tresHit (x' : Pre) (ch' : Bool) (f' : Bool) (q' : BitVec 3) (a' : BitVec 7) (b' : BitVec 7) : Statement (.tresHit x' ch' f' q' a' b') := by
  let w := cellN 1 3 <| cellV b' <| cellV a' <| cellV q' <| cellB f' <| cellN 6 4 <| cellN 58 6 <| cellB ch' 0
  have hm : fld w 25 6 = 58 := by simp only [w, Nat.reducePow, Nat.reduceLeDiff, Nat.reduceSub, Nat.reduceLT, fld_zero, fld_cellV, fld_cellB, fld_cellN, fld_cellN_low]
  have hn : fld w 21 4 = 6 := by simp only [w, Nat.reducePow, Nat.reduceLeDiff, Nat.reduceSub, Nat.reduceLT, fld_zero, fld_cellV, fld_cellB, fld_cellN, fld_cellN_low]
  refine of_base _ x' w rfl rfl ?_ (by rw [hm]; omega)
  rw [base_Graph_58 _ _ hm]
  unfold decodeGraph
  rw [hn]
  first | (simp only [w, Nat.reducePow, Nat.reduceLeDiff, Nat.reduceSub, Nat.reduceLT, Nat.add_sub_cancel_left, Nat.le_add_right, and_true, true_and, and_self, ↓reduceIte, fld_zero, fld_cellV, fld_cellB, fld_cellN, bvf_cellV, bvf_cellB, bvf_cellN, bit_cellV, bit_cellB, bit_cellN, fld_cellN_low, fld_cellB_low, fld_cellV_low, bvf_cellV_low, bit_cellB_low, fld_cellN_ne, fld_cellN_part]; done) | simp [w]

theorem tresTmax (x' : Pre) (ch' : Bool) (f' : Bool) (q' : BitVec 3) (a' : BitVec 7) (b' : BitVec 7) : Statement (.tresTmax x' ch' f' q' a' b') := by
  let w := cellN 2 3 <| cellV b' <| cellV a' <| cellV q' <| cellB f' <| cellN 6 4 <| cellN 58 6 <| cellB ch' 0
  have hm : fld w 25 6 = 58 := by simp only [w, Nat.reducePow, Nat.reduceLeDiff, Nat.reduceSub, Nat.reduceLT, fld_zero, fld_cellV, fld_cellB, fld_cellN, fld_cellN_low]
  have hn : fld w 21 4 = 6 := by simp only [w, Nat.reducePow, Nat.reduceLeDiff, Nat.reduceSub, Nat.reduceLT, fld_zero, fld_cellV, fld_cellB, fld_cellN, fld_cellN_low]
  refine of_base _ x' w rfl rfl ?_ (by rw [hm]; omega)
  rw [base_Graph_58 _ _ hm]
  unfold decodeGraph
  rw [hn]
  first | (simp only [w, Nat.reducePow, Nat.reduceLeDiff, Nat.reduceSub, Nat.reduceLT, Nat.add_sub_cancel_left, Nat.le_add_right, and_true, true_and, and_self, ↓reduceIte, fld_zero, fld_cellV, fld_cellB, fld_cellN, bvf_cellV, bvf_cellB, bvf_cellN, bit_cellV, bit_cellB, bit_cellN, fld_cellN_low, fld_cellB_low, fld_cellV_low, bvf_cellV_low, bit_cellB_low, fld_cellN_ne, fld_cellN_part]; done) | simp [w]

theorem tvld (x' : Pre) (ch' : Bool) (f' : Bool) (a' : BitVec 7) : Statement (.tvld x' ch' f' a') := by
  let w := cellN 0 10 <| cellV a' <| cellN 0 3 <| cellB f' <| cellN 7 4 <| cellN 58 6 <| cellB ch' 0
  have hm : fld w 25 6 = 58 := by simp only [w, Nat.reducePow, Nat.reduceLeDiff, Nat.reduceSub, Nat.reduceLT, fld_zero, fld_cellV, fld_cellB, fld_cellN, fld_cellN_low]
  have hn : fld w 21 4 = 7 := by simp only [w, Nat.reducePow, Nat.reduceLeDiff, Nat.reduceSub, Nat.reduceLT, fld_zero, fld_cellV, fld_cellB, fld_cellN, fld_cellN_low]
  refine of_base _ x' w rfl rfl ?_ (by rw [hm]; omega)
  rw [base_Graph_58 _ _ hm]
  unfold decodeGraph
  rw [hn]
  first | (simp only [w, Nat.reducePow, Nat.reduceLeDiff, Nat.reduceSub, Nat.reduceLT, Nat.add_sub_cancel_left, Nat.le_add_right, and_true, true_and, and_self, ↓reduceIte, fld_zero, fld_cellV, fld_cellB, fld_cellN, bvf_cellV, bvf_cellB, bvf_cellN, bit_cellV, bit_cellB, bit_cellN, fld_cellN_low, fld_cellB_low, fld_cellV_low, bvf_cellV_low, bit_cellB_low, fld_cellN_ne, fld_cellN_part]; done) | simp [w]

theorem tvst (x' : Pre) (ch' : Bool) (f' : Bool) (a' : BitVec 7) : Statement (.tvst x' ch' f' a') := by
  let w := cellN 0 10 <| cellV a' <| cellN 0 3 <| cellB f' <| cellN 8 4 <| cellN 58 6 <| cellB ch' 0
  have hm : fld w 25 6 = 58 := by simp only [w, Nat.reducePow, Nat.reduceLeDiff, Nat.reduceSub, Nat.reduceLT, fld_zero, fld_cellV, fld_cellB, fld_cellN, fld_cellN_low]
  have hn : fld w 21 4 = 8 := by simp only [w, Nat.reducePow, Nat.reduceLeDiff, Nat.reduceSub, Nat.reduceLT, fld_zero, fld_cellV, fld_cellB, fld_cellN, fld_cellN_low]
  refine of_base _ x' w rfl rfl ?_ (by rw [hm]; omega)
  rw [base_Graph_58 _ _ hm]
  unfold decodeGraph
  rw [hn]
  first | (simp only [w, Nat.reducePow, Nat.reduceLeDiff, Nat.reduceSub, Nat.reduceLT, Nat.add_sub_cancel_left, Nat.le_add_right, and_true, true_and, and_self, ↓reduceIte, fld_zero, fld_cellV, fld_cellB, fld_cellN, bvf_cellV, bvf_cellB, bvf_cellN, bit_cellV, bit_cellB, bit_cellN, fld_cellN_low, fld_cellB_low, fld_cellV_low, bvf_cellV_low, bit_cellB_low, fld_cellN_ne, fld_cellN_part]; done) | simp [w]

theorem rpack (x' : Pre) (ch' : Bool) (f' : Bool) (a' : BitVec 7) (b' : BitVec 7) : Statement (.rpack x' ch' f' a' b') := by
  let w := cellN 0 3 <| cellV b' <| cellV a' <| cellN 0 3 <| cellB f' <| cellN 9 4 <| cellN 58 6 <| cellB ch' 0
  have hm : fld w 25 6 = 58 := by simp only [w, Nat.reducePow, Nat.reduceLeDiff, Nat.reduceSub, Nat.reduceLT, fld_zero, fld_cellV, fld_cellB, fld_cellN, fld_cellN_low]
  have hn : fld w 21 4 = 9 := by simp only [w, Nat.reducePow, Nat.reduceLeDiff, Nat.reduceSub, Nat.reduceLT, fld_zero, fld_cellV, fld_cellB, fld_cellN, fld_cellN_low]
  refine of_base _ x' w rfl rfl ?_ (by rw [hm]; omega)
  rw [base_Graph_58 _ _ hm]
  unfold decodeGraph
  rw [hn]
  first | (simp only [w, Nat.reducePow, Nat.reduceLeDiff, Nat.reduceSub, Nat.reduceLT, Nat.add_sub_cancel_left, Nat.le_add_right, and_true, true_and, and_self, ↓reduceIte, fld_zero, fld_cellV, fld_cellB, fld_cellN, bvf_cellV, bvf_cellB, bvf_cellN, bit_cellV, bit_cellB, bit_cellN, fld_cellN_low, fld_cellB_low, fld_cellV_low, bvf_cellV_low, bit_cellB_low, fld_cellN_ne, fld_cellN_part]; done) | simp [w]

theorem hintPfs (x' : Pre) (ch' : Bool) (e' : BitVec 4) (n' : BitVec 7) (a' : BitVec 7) (b' : BitVec 7) : Statement (.hintPfs x' ch' e' n' a' b') := by
  let w := cellV b' <| cellV a' <| cellV n' <| cellV e' <| cellN 60 6 <| cellB ch' 0
  have hm : fld w 25 6 = 60 := by simp only [w, Nat.reducePow, Nat.reduceLeDiff, Nat.reduceSub, Nat.reduceLT, fld_zero, fld_cellV, fld_cellB, fld_cellN, fld_cellN_low]
  refine of_base _ x' w rfl rfl ?_ (by rw [hm]; omega)
  rw [base_HintPfs_60 _ _ hm]
  unfold decodeHintPfs
  first | (simp only [w, Nat.reducePow, Nat.reduceLeDiff, Nat.reduceSub, Nat.reduceLT, Nat.add_sub_cancel_left, Nat.le_add_right, and_true, true_and, and_self, ↓reduceIte, fld_zero, fld_cellV, fld_cellB, fld_cellN, bvf_cellV, bvf_cellB, bvf_cellN, bit_cellV, bit_cellB, bit_cellN, fld_cellN_low, fld_cellB_low, fld_cellV_low, bvf_cellV_low, bit_cellB_low, fld_cellN_ne, fld_cellN_part]; done) | simp [w]

theorem hintBlk (x' : Pre) (ch' : Bool) (e' : BitVec 25) : Statement (.hintBlk x' ch' e') := by
  let w := cellV e' <| cellN 61 6 <| cellB ch' 0
  have hm : fld w 25 6 = 61 := by simp only [w, Nat.reducePow, Nat.reduceLeDiff, Nat.reduceSub, Nat.reduceLT, fld_zero, fld_cellV, fld_cellB, fld_cellN, fld_cellN_low]
  refine of_base _ x' w rfl rfl ?_ (by rw [hm]; omega)
  rw [base_HintBlk_61 _ _ hm]
  unfold decodeHintBlk
  first | (simp only [w, Nat.reducePow, Nat.reduceLeDiff, Nat.reduceSub, Nat.reduceLT, Nat.add_sub_cancel_left, Nat.le_add_right, and_true, true_and, and_self, ↓reduceIte, fld_zero, fld_cellV, fld_cellB, fld_cellN, bvf_cellV, bvf_cellB, bvf_cellN, bit_cellV, bit_cellB, bit_cellN, fld_cellN_low, fld_cellB_low, fld_cellV_low, bvf_cellV_low, bit_cellB_low, fld_cellN_ne, fld_cellN_part]; done) | simp [w]

theorem hintUndefined (x' : Pre) (ch' : Bool) (h' : Bool) (e' : BitVec 25) : Statement (.hintUndefined x' ch' h' e') := by
  let w := cellV e' <| cellB h' <| cellN 31 5 <| cellB ch' 0
  have hm : fld w 25 6 = 62 + h'.toNat := by simp [w, fld_hint]
  refine of_base _ x' w rfl rfl ?_ (by rw [hm]; omega)
  rw [base_HintU _ _ _ hm]
  unfold decodeHintU
  first | (simp only [w, Nat.reducePow, Nat.reduceLeDiff, Nat.reduceSub, Nat.reduceLT, Nat.add_sub_cancel_left, Nat.le_add_right, and_true, true_and, and_self, ↓reduceIte, fld_zero, fld_cellV, fld_cellB, fld_cellN, bvf_cellV, bvf_cellB, bvf_cellN, bit_cellV, bit_cellB, bit_cellN, fld_cellN_low, fld_cellB_low, fld_cellV_low, bvf_cellV_low, bit_cellB_low, fld_cellN_ne, fld_cellN_part]; done) | simp [w]

theorem courseEnd (g' : Nat) (v' : Nat) : Statement (.courseEnd g' v') := nofun
theorem wordComplete (g' : Nat) (k' : Nat) : Statement (.wordComplete g' k') := nofun
theorem ageOverride (g' : Nat) (v' : Nat) : Statement (.ageOverride g' v') := nofun
theorem trapEntry (g' : Nat) : Statement (.trapEntry g') := nofun
theorem groupFreed (g' : Nat) : Statement (.groupFreed g') := nofun
theorem teamAdmission (die' : Nat) : Statement (.teamAdmission die') := nofun
theorem queueFrontTimeout (die' : Nat) (q' : Nat) : Statement (.queueFrontTimeout die' q') := nofun
theorem rtWaitTimeout (die' : Nat) : Statement (.rtWaitTimeout die') := nofun
theorem preemptionSave (tm' : Nat) : Statement (.preemptionSave tm') := nofun
theorem preemptionAbandon (tm' : Nat) : Statement (.preemptionAbandon tm') := nofun
theorem taskSplit (die' : Nat) (core' : Nat) : Statement (.taskSplit die' core') := nofun
theorem handleUe (site' : UeSite) : Statement (.handleUe site') := nofun
theorem claimServed (die' : Nat) (core' : Nat) : Statement (.claimServed die' core') := nofun
theorem claimVictim (die' : Nat) (core' : Nat) : Statement (.claimVictim die' core') := nofun
theorem claimVictimRestore (die' : Nat) (core' : Nat) : Statement (.claimVictimRestore die' core') := nofun
theorem slotRequestServed (die' : Nat) (core' : Nat) : Statement (.slotRequestServed die' core') := nofun
theorem pageWalk (part' : Nat) (ctx' : Nat) (va' : Nat) : Statement (.pageWalk part' ctx' va') := nofun
theorem linkCrcRetry (die' : Nat) (chan' : Nat) : Statement (.linkCrcRetry die' chan') := nofun
theorem channelRetrain (die' : Nat) (chan' : Nat) : Statement (.channelRetrain die' chan') := nofun
theorem l2Scrub (line' : Nat) (r' : ScrubResult) : Statement (.l2Scrub line' r') := nofun
theorem dataPoison (line' : Nat) : Statement (.dataPoison line') := nofun
theorem ceCommandStart (g' : Nat) (q' : Nat) : Statement (.ceCommandStart g' q') := nofun
theorem ceLineTransfer (die' : Nat) (core' : Nat) (k' : Nat) (line' : Nat) : Statement (.ceLineTransfer die' core' k' line') := nofun
theorem ceCommandEnd (die' : Nat) (core' : Nat) (k' : Nat) : Statement (.ceCommandEnd die' core' k') := nofun
theorem mxKstep (die' : Nat) (core' : Nat) : Statement (.mxKstep die' core') := nofun
theorem tseServe (die' : Nat) : Statement (.tseServe die') := nofun
theorem tseBackupNode (die' : Nat) : Statement (.tseBackupNode die') := nofun
theorem syeAccess (die' : Nat) (bank' : Nat) : Statement (.syeAccess die' bank') := nofun
theorem homeSliceWrite (key' : Nat) (bs' : List (BitVec 8)) : Statement (.homeSliceWrite key' bs') := nofun
theorem monitorArm (die' : Nat) : Statement (.monitorArm die') := nofun
theorem swapOut (tm' : Nat) : Statement (.swapOut tm') := nofun
theorem swapIn (tm' : Nat) : Statement (.swapIn tm') := nofun
theorem syeUnpin (die' : Nat) : Statement (.syeUnpin die') := nofun
theorem collChunk (k' : Nat) (remote' : List CollPart) : Statement (.collChunk k' remote') := nofun
theorem collMemberTimeout (k' : Nat) (mem' : Nat) : Statement (.collMemberTimeout k' mem') := nofun
theorem haloSnapshot (tm' : Nat) (h' : Nat) : Statement (.haloSnapshot tm' h') := nofun
theorem haloDelivery (tm' : Nat) (h' : Nat) (dir' : Nat) : Statement (.haloDelivery tm' h' dir') := nofun
theorem sxbAccept (part' : Nat) (k' : Nat) : Statement (.sxbAccept part' k') := nofun
theorem sxbDeliver (part' : Nat) (region' : Nat) : Statement (.sxbDeliver part' region') := nofun
theorem tvuNodeStep (g' : Nat) (lane' : Nat) : Statement (.tvuNodeStep g' lane') := nofun
theorem rduTokenPush (g' : Nat) : Statement (.rduTokenPush g') := nofun
theorem hostPostedWrite (part' : Nat) (w' : HostWrite) : Statement (.hostPostedWrite part' w') := nofun
theorem ctxEnable (part' : Nat) (ctx' : Nat) : Statement (.ctxEnable part' ctx') := nofun
theorem ctxDisable (part' : Nat) (ctx' : Nat) : Statement (.ctxDisable part' ctx') := nofun
theorem pmodeWrite (part' : Nat) (val' : BitVec 64) : Statement (.pmodeWrite part' val') := nofun
theorem packageReset : Statement (.packageReset) := nofun
theorem quotaWrite (part' : Nat) (val' : BitVec 64) : Statement (.quotaWrite part' val') := nofun
theorem weightWrite (part' : Nat) (val' : BitVec 64) : Statement (.weightWrite part' val') := nofun
theorem flogtailWrite (part' : Nat) (val' : BitVec 64) : Statement (.flogtailWrite part' val') := nofun
theorem floglostClear (part' : Nat) (val' : BitVec 64) : Statement (.floglostClear part' val') := nofun
theorem registerWrite (part' : Nat) (off' : Nat) (val' : BitVec 64) : Statement (.registerWrite part' off' val') := nofun
theorem flitRetry (port' : Nat) : Statement (.flitRetry port') := nofun
theorem relmerLaneFail (port' : Nat) : Statement (.relmerLaneFail port') := nofun
theorem relmerPortDown (port' : Nat) : Statement (.relmerPortDown port') := nofun
theorem routeRewrite (bed' : Nat) (dst' : Nat) (prim' : Nat) (alt' : Nat) : Statement (.routeRewrite bed' dst' prim' alt') := nofun
theorem noRouteTimeout (g' : Nat) (addr' : BitVec 64) : Statement (.noRouteTimeout g' addr') := nofun
theorem imageLoad (im' : Image) : Statement (.imageLoad im') := nofun
theorem spdmMeasurement : Statement (.spdmMeasurement) := nofun
theorem powerCapSet (watts' : Nat) : Statement (.powerCapSet watts') := nofun
theorem islandClockChange (isl' : Nat) (mhz' : Nat) : Statement (.islandClockChange isl' mhz') := nofun
theorem thermalThrottle (isl' : Nat) : Statement (.thermalThrottle isl') := nofun
theorem thermalTrip : Statement (.thermalTrip) := nofun
theorem lifetimeFlush : Statement (.lifetimeFlush) := nofun
theorem orderlyPowerDown : Statement (.orderlyPowerDown) := nofun
theorem lifetimeRead : Statement (.lifetimeRead) := nofun
theorem abruptPowerLoss : Statement (.abruptPowerLoss) := nofun
theorem voltageDroop (isl' : Nat) : Statement (.voltageDroop isl') := nofun
theorem peerDeviceAccess (part' : Nat) (acc' : PeerAccess) : Statement (.peerDeviceAccess part' acc') := nofun
theorem failureNotice (k' : Nat) (mem' : Nat) : Statement (.failureNotice k' mem') := nofun
theorem hardwarePrefetch (die' : Nat) (core' : Nat) (line' : Nat) : Statement (.hardwarePrefetch die' core' line') := nofun
theorem relmerRetrain (port' : Nat) (ok' : Bool) : Statement (.relmerRetrain port' ok') := nofun

end Sys2Proof.Laws.RoundTrip
end

