-- ==== Sys2Proof/Safety.lean ====
section
/-!
DEFINITION. Sys2Proof/Safety.lean: the terms that claims use: a voice that issues, a word that is done, a safe state.
-/

namespace Sys2Proof.Machine

/-- The memory of a state is in its canonical form. -/
def State.memOk (s : State) : Prop := Memory.wf s.m.mem = true

/-- A chain in progress has used no pipe class twice, and belongs to the voice that issues (01 R10). -/
def State.chainOk (s : State) : Prop := ∀ k, s.chain = some k → k.used.Nodup ∧ s.cur.isSome

/-- Voice vi of group gi issues its next word: it is inside a course. -/
structure Issues (s : State) (gi vi : Nat) (v : Voice) : Prop where
  cur : s.cur = some (gi, vi)
  voice : voiceAt s.m gi vi = some v
  inside : v.inside = true

/-- A voice issues a word of a pipe class that its chain has not used (01 R10). -/
structure Ready (s : State) (gi vi : Nat) (v : Voice) (cls : Pipe) : Prop extends Issues s gi vi v where
  clear : s.used.contains cls = false

/-- No lane of a ripple is left to run after this one (08 R204): a transfer word takes its effect. -/
def Voice.lastLane (v : Voice) : Prop := ∀ r, v.ripple = some r → r.rest = []

/-- The state after a word that has taken its effect, the device then m: the chain goes on, or has issued. -/
def doneState (s : State) (gi vi : Nat) (v : Voice) (cls : Pipe) (x : Pre) (ch : Bool) (m : Mach) : State :=
  memberDone (cxOf s gi vi v false x) v (some cls) ch s.late none m s

/-- The state after a transfer word that sends each lane of its voice somewhere. -/
def xferState (s : State) (gi vi : Nat) (v : Voice) (x : Pre) (dests : List (Nat × Option Nat)) (m : Mach) : State :=
  memberDone (cxOf s gi vi v true x) v (some .ctl) false s.late (some dests) m s

/-- The state after a word that raised a cause before it wrote anything (01 R12). -/
def causeState (s : State) (gi vi : Nat) (v : Voice) (xf : Bool) (x : Pre) (k : Cause) (addr : Word) (mask : Mask) : State :=
  trapState (cxOf s gi vi v xf x) v (trapOf k addr mask) s.base [] s

/-- The state after a word that stalled in place (01 R19). -/
def stallState (s : State) (gi vi : Nat) (v : Voice) (xf : Bool) (x : Pre) : State :=
  let c := cxOf s gi vi v xf x
  { s with m := stallAt c.base gi vi c.first {}, chain := none, cur := none }

/-- The word of a group outstanding: its counter raised, its register writes and what it waits for held (01 R22, R24). The words of one
chain share the number that the group would have given next when the chain began. In a ripple the lanes of one word share a number, and the first of them alone raises the counter (08 R204). -/
def outstandingIn (m : Mach) (gi vi word chain : Nat) (flag : Option Nat) (wr : List RegWr) (dsts : List Nat) (wait : Wait) (exc : Nat := 0)
    (float : Bool := false) : Mach :=
  let g := m.grp gi
  let o : Outst := { id := g.nextId, flag := flag, voice := vi, wr := wr, wait := wait, exc := exc, dsts := dsts, float := float,
                     chain := chain, ovr := [], win := [], cap := 97, span := none }
  let v := Tbl.get default g.voices vi
  match v.ripple with
  | none => m.setGrp gi { raiseFlag g flag with outst := g.outst ++ [o], nextId := g.nextId + 1 }
  | some r =>
    match r.held.find? fun h => h.1 = word with
    | some h => m.setGrp gi { g with outst := g.outst ++ [{ o with span := some h.2.1 }], nextId := g.nextId + 1 }
    | none =>
      let v1 := { v with ripple := some { r with held := r.held ++ [(word, g.nextId, flag)] } }
      m.setGrp gi { raiseFlag g flag with
        outst := g.outst ++ [{ o with span := some g.nextId }], nextId := g.nextId + 1, voices := Tbl.put g.voices vi v1 }

end Sys2Proof.Machine
end

