-- ==== Sys2Proof/Certificates/Slice0/Obligations.lean ====
section
/-!
DEFINITION. Sys2Proof/Certificates/Slice0/Obligations.lean: the statements about the model, grouped as the spec's files are.
A statement of what a word does concludes that exec answers the next state that the rules give, for every state and operands
that meet the hypotheses; `Ready` says that a voice issues the word and its chain has not used the word's class.
-/

namespace Sys2Proof.Claims

open Sys2Proof.Machine

/-- Some lane results of a word with their exceptions. -/
abbrev LaneFn := Cx → Nat → Word → Word → Word → Word × Exc

/-- The exceptions of every active lane together (06 R174). -/
def excAll (rs : List (Nat × Word × Exc)) : Exc := rs.foldl (fun e r => e ||| r.2.2) 0

/-- A word that computes each active lane of d from the same lane of its sources completes at issue: its operands read and
its destination written, exec answers the state in which d holds the lane results and FPFLAGS the enabled exceptions. -/
def AluDone (i : Instr) (p : Pipe) (x : Pre) (ch : Bool) (u : Use) (d a b : Nat) (lane : LaneFn) : Prop :=
  ∀ (s : State) (gi vi : Nat) (v : Voice), Ready s gi vi v (destClass x p d) →
    let c := cxOf s gi vi v false x
    c.preOk u = true → c.fieldsOk u d a b = true →
    ∀ m1 va vb vc m2, c.sources s.m u a b = .ok (m1, va, vb, vc) →
      let rs := c.lanes.map fun l => (l, lane c l (va l) (vb l) (vc l))
      c.write m1 d (rs.map fun r => (r.1, r.2.1)) = .ok m2 →
      exec i s = .next (doneState s gi vi v (destClass x p d) x ch (if excAll rs = 0 then m2 else c.orExc m2 (excAll rs)))

/-- A word that writes a predicate from a comparison of its sources completes at issue. -/
def PredDone (i : Instr) (x : Pre) (ch : Bool) (u : Use) (pd a b : Nat) (test : Cx → Word → Word → Bool × Exc) : Prop :=
  ∀ (s : State) (gi vi : Nat) (v : Voice), Ready s gi vi v .alu →
    let c := cxOf s gi vi v false x
    c.preOk u = true → c.fieldsOk u 0 a b = true →
    ∀ m1 va vb vc, c.sources s.m u a b = .ok (m1, va, vb, vc) →
      let exc := (c.lanes.map fun l => (test c (va l) (vb l)).2).foldl (fun e r => e ||| r) 0
      let m2 := c.writePred m1 pd fun l => (test c (va l) (vb l)).1
      exec i s = .next (doneState s gi vi v .alu x ch (if exc = 0 then m2 else c.orExc m2 exc))

/-- A long-latency word with a register result is outstanding after it issues: its counter raised, the results held. -/
def LongDone (i : Instr) (x : Pre) (ch : Bool) (u : Use) (d a b : Nat) (lane : LaneFn) : Prop :=
  ∀ (s : State) (gi vi : Nat) (v : Voice), Ready s gi vi v (destClass x .xfu d) →
    let c := cxOf s gi vi v false x
    c.preOk u = true → c.fieldsOk u d a b = true → c.destStop d = none → c.lanes ≠ [] →
    ((c.pre.indexed 0).isNone && (opdOf c.pre 0 d).isQ) = false →
    ∀ m1 va vb vc, c.sources s.m u a b = .ok (m1, va, vb, vc) →
      saturated (m1.grp gi) (c.regFlag x.flg) = false →
      let rs := c.lanes.map fun l => (l, lane c l (va l) (vb l) (vc l))
      let wr := c.wrOf d (rs.map fun r => (r.1, r.2.1))
      exec i s = .next (doneState s gi vi v (destClass x .xfu d) x ch
        (outstandingIn m1 gi vi v.word c.g.nextId (c.regFlag x.flg) wr.1 wr.2 .ready (enabledExc c.g.mode (excAll rs)) true))

/-- Integer majors accept .sat where a table marks it, and a sub-element of b on a packed type (02 R56, 01 R29). -/
def intUse (t : IntTy) (c sat : Bool) : Use := { Use.dab with c := c, sat := sat, sub := tyCount t, subw := tyWidth t }
/-- The same with no operand b. -/
def intUse1 (t : IntTy) (sat : Bool) : Use := { Use.da with sat := sat, sub := tyCount t, subw := tyWidth t }

/-- The exact integer function of a type, position by position. -/
def intFn (t : IntTy) (f : Int → Int → Int → Int) : LaneFn := fun c _ p q r => (intLane t c.pre.sat f p q r, 0)

/-- A W-bit bitwise word. -/
def bitFn (w : BTy) (f : Nat → Nat → Nat → Nat) : LaneFn := fun _ _ p q r =>
  (bLane (bWidth w) (f (wb p 0 (bWidth w)) q.toNat r.toNat), 0)

/-- A word on E-bit values of a type. -/
def fieldFn (t : WTy) (f : Nat → Word → Word → Nat) : LaneFn := fun _ _ p q r =>
  (laneFrom (wtSigned t) (wtWidth t) 1 fun _ => f (wb p 0 (wtWidth t)) q r, 0)

/-- A float word computed position by position. -/
def floatFn (t : FTy) (f : FEnv → FVal → FVal → FVal → Nat × Exc) : LaneFn := fun c _ p q r =>
  floatLane t fun n => f c.env (felem t c.env p n) (felem t c.env q n) (felem t c.env r n)

/-- Float words take a rounding field and .sat where the table says yes (07 R182). -/
def floatUse (t : FTy) (c round long : Bool) : Use :=
  { Use.dab with c := c, rnd := round, sat := round, sub := ftCount t, subw := ftWidth t, long := long }
/-- The same with no operand b. -/
def floatUse1 (t : FTy) (rnd sat long : Bool) : Use :=
  { Use.da with rnd := rnd, sat := sat, sub := ftCount t, subw := ftWidth t, long := long }

/-- The state with the device m and no chain in progress. -/
def ended (s : State) (m : Mach) : State := { s with m := m, chain := none, cur := none }

/-- A word that writes the positions of d that its part number names, from those of a and the lane's old value; an illegal
part and a queue destination raise ILLEGAL_OP. -/
def PartDone (i : Instr) (p : Pipe) (x : Pre) (ch : Bool) (u : Use) (d a : Nat) (fits : Prop)
    (lane : Cx → Word → Word → Word × Exc) : Prop :=
  ∀ (s : State) (gi vi : Nat) (v : Voice), Ready s gi vi v (destClass x p d) →
    let c := cxOf s gi vi v false x
    let legal := fits ∧ ((c.pre.indexed 0).isNone && (opdOf c.pre 0 d).isQ) = false
    (¬legal → exec i s = .next (causeState s gi vi v false x .illegalOp c.waddr c.act)) ∧
    (legal → c.preOk u = true → c.fieldsOk u d a 0 = true →
      ∀ m1 va vb vc m2, c.sources s.m u a 0 = .ok (m1, va, vb, vc) →
        let rs := c.lanes.map fun l => (l, lane c (va l) (c.oldVal m1 d l))
        c.write m1 d (rs.map fun r => (r.1, r.2.1)) = .ok m2 →
        exec i s = .next (doneState s gi vi v (destClass x p d) x ch (if excAll rs = 0 then m2 else c.orExc m2 (excAll rs))))

/-- A word of format Q, once a lane is active and its fields are legal: where its scalar operands and the device meet a
condition, it completes with the device that its rule gives. -/
def QDone (i : Instr) (cls : Pipe) (x : Pre) (ch : Bool) (a b : Option Nat) (when : Cx → Mach → Word → Word → Prop)
    (result : Cx → Mach → Word → Word → Mach) : Prop :=
  ∀ (s : State) (gi vi : Nat) (v : Voice), Ready s gi vi v cls →
    let c := cxOf s gi vi v false x
    c.qOk a b = true → c.act ≠ 0 → ∀ va vb, c.readS s.m 1 a = .ok va → c.readS s.m 2 b = .ok vb →
    when c s.m va vb → exec i s = .next (doneState s gi vi v cls x ch (result c s.m va vb))

/-- The same word raises a cause instead, with TMASK the active lanes. -/
def QTraps (i : Instr) (cls : Pipe) (x : Pre) (a b : Option Nat) (when : Cx → Mach → Word → Word → Prop)
    (k : Cause) (addr : Cx → Word → Word → Word) : Prop :=
  ∀ (s : State) (gi vi : Nat) (v : Voice), Ready s gi vi v cls →
    let c := cxOf s gi vi v false x
    c.qOk a b = true → c.act ≠ 0 → ∀ va vb, c.readS s.m 1 a = .ok va → c.readS s.m 2 b = .ok vb →
    when c s.m va vb → exec i s = .next (causeState s gi vi v false x k (addr c va vb) c.act)

/-- The group's word outstanding on the device, its counter not full. -/
def out (c : Cx) (m : Mach) (flag : Option Nat) (wr : List RegWr) (dsts : List Nat) (wait : Wait) : Mach :=
  outstandingIn m c.gi c.vi c.word c.g.nextId flag wr dsts wait
/-- The device once the chain of the voice u has issued: the voice at its next word; in a ripple, the counters of the words that its
last lane has passed fall where they may (08 R204). -/
def issuedMach (m : Mach) (gi vi : Nat) (u : Voice) (next : Nat) : Mach :=
  let m1 := setVoice m gi vi { u with word := next, stalled := false, sym := none, restart := none, waited := 0, aged := false }
  if u.ripple.isSome then m1.setGrp gi (settleSpans (m1.grp gi) vi) else m1
/-- The counter has room. -/
def room (c : Cx) (m : Mach) (flag : Option Nat) : Prop := saturated (m.grp c.gi) flag = false

/-- A word whose effect follows the accesses that its group issued before it (11 R254): where some are still to be performed it is
outstanding until they are, else its effect is performed and it is outstanding. -/
def afterAll (c : Cx) (m : Mach) (flag : Option Nat) (act : HeldAct) (now : Mach) : Mach :=
  if accessesHeld m c.gi (m.grp c.gi).nextId true then out c m flag [] [] (.held act) else out c now flag [] [] .ready
/-- The counter has room for it. -/
def afterRoom (c : Cx) (m : Mach) (flag : Option Nat) (now : Mach) : Prop := room c m flag ∧ room c now flag

/-- An event answers the state with the device m. -/
def Does (i : Instr) (s : State) (m : Mach) : Prop := exec i s = .next { s with m := m }

/-- A group stands on its core: not freed, not saved as a claim victim, its team resident. -/
def onItsCore (m : Mach) (gi : Nat) : Prop :=
  gi < m.groups.length ∧ (m.grp gi).freed = false ∧ (m.grp gi).victim = false ∧ (m.team (m.grp gi).team).place = .resident

end Sys2Proof.Claims

open Sys2Proof Sys2Proof.Machine Sys2Proof.Claims
/-! ## 02: integer, bit-field, cross-lane and control instructions -/

/-- 02 R57, R56: integer arithmetic of majors 0x04 to 0x0D: the exact function of the elements, wrapped or clamped.
01 R37: neg and abs exist under signed types alone: under an unsigned type they raise ILLEGAL_OP at the word. -/
def Obligations.IntegerArithmetic : Prop :=
  (∀ (x : Pre) (ch : Bool) (t : IntTy) (d a b : BitVec 7),
  let run := fun (i : Instr) (c sat : Bool) (f : Int → Int → Int → Int) =>
    AluDone i .alu x ch (intUse t c sat) d.toNat a.toNat b.toNat (intFn t f)
  let run1 := fun (i : Instr) (sat : Bool) (f : Int → Int → Int → Int) =>
    AluDone i .alu x ch (intUse1 t sat) d.toNat a.toNat 0 (intFn t f)
  run (.add x ch t d a b) false true (fun p q _ => p + q) ∧
  run (.sub x ch t d a b) false true (fun p q _ => p - q) ∧
  run (.mul x ch t d a b) false true (fun p q _ => p * q) ∧
  run (.mulh x ch t d a b) false false (fun p q _ => p * q / 2 ^ tyWidth t) ∧
  run (.mad x ch t d a b) true true (fun p q r => p * q + r) ∧
  run (.add3 x ch t d a b) true true (fun p q r => p + q + r) ∧
  run (.imin x ch t d a b) false false (fun p q _ => min p q) ∧
  run (.imax x ch t d a b) false false (fun p q _ => max p q) ∧
  run1 (.mov x ch t d a) false (fun p _ _ => p) ∧
  (tySigned t = true → run1 (.ineg x ch t d a) true (fun p _ _ => -p)) ∧
  (tySigned t = true → run1 (.iabs x ch t d a) true (fun p _ _ => if p < 0 then -p else p)) ∧
  (tyCount t = 1 → run (.sad x ch t d a b) true true (fun p q r => (p - q).natAbs + r)) ∧
  (tyCount t ≠ 1 → AluDone (.sad x ch t d a b) .alu x ch (intUse t true true) d.toNat a.toNat b.toNat
    (fun c _ p q r => (sadLane t c.pre.sat p q r, 0)))) ∧
  (∀ (x : Pre) (ch : Bool) (t : IntTy) (d a : BitVec 7) (s : State) (gi vi : Nat) (v : Voice),
  Ready s gi vi v (destClass x .alu d.toNat) → tySigned t = false →
  let stop := causeState s gi vi v false x .illegalOp (cxOf s gi vi v false x).waddr (cxOf s gi vi v false x).act
  exec (.ineg x ch t d a) s = .next stop ∧ exec (.iabs x ch t d a) s = .next stop)

/-- 02 R56, 01 R45: each sub-element of an integer result is the exact result of the same sub-elements, wrapped into the type
or, with .sat, clamped into it; a single 32-bit result is extended to the lane by the type's sign. -/
def Obligations.IntegerElements : Prop := ∀ (t : IntTy) (sat : Bool) (f : Int → Int → Int → Int) (p q r : Word) (n : Nat),
  n < tyCount t →
  let w := tyWidth t
  let e := fun (y : Word) => readInt (tySigned t) w (elemOf y w n)
  let z := f (e p) (e q) (e r)
  e (intLane t sat f p q r) =
      readInt (tySigned t) w (wrapInt w (if sat then max (minOf (tySigned t) w) (min (maxOf (tySigned t) w) z) else z)) ∧
    (tyCount t = 1 → (intLane t sat f p q r).toNat = if tySigned t = true ∧ e (intLane t sat f p q r) < 0
      then (2 ^ 64 + e (intLane t sat f p q r)).toNat else (e (intLane t sat f p q r)).toNat)

/-- 02 R58: cmp sets pd in each active lane to the truth of the condition, 0 eq, 1 ne, 2 lt, 3 le, 4 gt, 5 ge; a pd of p7
discards it. Packed majors and conditions 6 to 15 raise ILLEGAL_OP. -/
def Obligations.IntegerCompare : Prop := ∀ (x : Pre) (ch : Bool) (t : IntTy) (n : BitVec 4) (p : BitVec 3) (a b : BitVec 7),
  (tyCount t = 1 → n.toNat ≤ 5 →
    PredDone (.cmp x ch t n p a b) x ch { Use.dab with d := false } p.toNat a.toNat b.toNat (fun _ y z =>
      let e := fun (q : Word) => readInt (tySigned t) (tyWidth t) (wb q 0 (tyWidth t))
      (match n.toNat with
        | 0 => decide (e y = e z) | 1 => decide (e y ≠ e z) | 2 => decide (e y < e z) | 3 => decide (e y ≤ e z)
        | 4 => decide (e y > e z) | _ => decide (e y ≥ e z), 0))) ∧
  ((tyCount t ≠ 1 ∨ n.toNat > 5) → ∀ s gi vi v, Ready s gi vi v .alu →
    exec (.cmp x ch t n p a b) s =
      .next (causeState s gi vi v false x .illegalOp (cxOf s gi vi v false x).waddr (cxOf s gi vi v false x).act))

/-- 02 R59: sel takes a's lane where the predicate that c[2:0] of a kind-0 prefix names holds, else b's; without a kind-0
prefix the predicate is p7 and d := a; c[6:3] nonzero raises ILLEGAL_OP.
That prefixes of kinds 1 to 3 give p7, and that one lane's choice goes to a scalar or a queue, are the model's
(notes/assumptions/42.md, 79.md). -/
def Obligations.Select : Prop := ∀ (x : Pre) (ch : Bool) (t : IntTy) (d a b : BitVec 7) (s : State) (gi vi : Nat) (v : Voice),
  Ready s gi vi v (destClass x .alu d.toNat) →
  let pn := match x with | .k0 _ _ c _ _ _ _ _ => c.toNat | _ => 7
  let y := match x with | .k0 n g _ r st su i f => Pre.k0 n g 0 r st su i f | z => z
  let c0 := cxOf s gi vi v false x
  let c := { c0 with pre := y }
  (pn > 7 → exec (.sel x ch t d a b) s = .next (causeState s gi vi v false x .illegalOp c0.waddr c0.act)) ∧
  (pn ≤ 7 → c.preOk (intUse t false false) = true → c.fieldsOk (intUse t false false) d.toNat a.toNat b.toNat = true →
    ∀ m1 va vb vc m2, c.sources s.m (intUse t false false) a.toNat b.toNat = .ok (m1, va, vb, vc) →
      c.write m1 d.toNat (c.lanes.map fun l => (l, intLane t false (fun p q _ => if (c.predVal pn).getLsbD l then p else q) (va l) (vb l) 0)) = .ok m2 →
      exec (.sel x ch t d a b) s = .next (doneState s gi vi v (destClass x .alu d.toNat) x ch m2))

/-- 02 R60: cvt writes the sub-elements of d that its part number chooses from those of a, and keeps the others. -/
def Obligations.IntegerConvert : Prop := ∀ (x : Pre) (ch : Bool) (t : IntTy) (d a : BitVec 7) (h : BitVec 3) (k : BitVec 4)
  (s : State) (gi vi : Nat) (v : Voice), Ready s gi vi v (destClass x .alu d.toNat) →
  let c := cxOf s gi vi v false x
  let st := tyOfCode k.toNat
  let cd := tyCount t
  let cs := tyCount st
  let legal := k.toNat ≤ 9 ∧ h.toNat * min cd cs + min cd cs ≤ max cd cs ∧ (cd = cs → h.toNat = 0) ∧
    ((c.pre.indexed 0).isNone && (opdOf c.pre 0 d.toNat).isQ) = false
  (¬legal → exec (.cvt x ch t d a h k) s = .next (causeState s gi vi v false x .illegalOp c.waddr c.act)) ∧
  (legal → c.preOk { Use.da with sat := true } = true → c.fieldsOk { Use.da with sat := true } d.toNat a.toNat 0 = true →
    ∀ m1 va vb vc m2, c.sources s.m { Use.da with sat := true } a.toNat 0 = .ok (m1, va, vb, vc) →
      c.write m1 d.toNat (c.lanes.map fun l => (l, (partLane (tyWidth t) cd (tySigned t) (tyWidth st) cs h.toNat
        (fun e => (narrow (tySigned t) c.pre.sat (tyWidth t) (readInt (tySigned st) (tyWidth st) e), 0)) (va l)
        (c.oldVal m1 d.toNat l)).1)) = .ok m2 →
      exec (.cvt x ch t d a h k) s = .next (doneState s gi vi v (destClass x .alu d.toNat) x ch m2))

/-- 02 R61: lea adds to a the low 32 bits of b, extended by the major's sign and shifted left by c[2:0]. -/
def Obligations.AddressArithmetic : Prop := ∀ (x : Pre) (ch : Bool) (t : LTy) (d a b : BitVec 7),
  AluDone (.lea x ch t d a b) .alu x ch Use.dabc d.toNat a.toNat b.toNat (fun _ _ p q r =>
    (p + ((if t = .i64 then (q.truncate 32).signExtend 64 else (q.truncate 32).zeroExtend 64 : Word) <<< (r.toNat % 8)), 0))

/-- 02 R62 to R64: the bitwise words, perm and the dot products of bytes. -/
def Obligations.BitwiseWords : Prop := ∀ (x : Pre) (ch : Bool) (w : BTy) (d a b : BitVec 7),
  let n := bWidth w
  let run := fun (i : Instr) (f : Nat → Nat → Nat → Nat) => AluDone i .alu x ch Use.dab d.toNat a.toNat b.toNat (bitFn w f)
  let run1 := fun (i : Instr) (f : Nat → Nat) => AluDone i .alu x ch Use.da d.toNat a.toNat 0 (bitFn w fun p _ _ => f p)
  run (.shl x ch w d a b) (fun p k _ => if k ≥ n then 0 else p * 2 ^ k) ∧
  run (.shr x ch w d a b) (fun p k _ => if k ≥ n then 0 else p / 2 ^ k) ∧
  run (.sar x ch w d a b) (fun p k _ => wrapInt n (toSigned n p / 2 ^ min k n)) ∧
  run (.band x ch w d a b) (fun p q _ => p &&& q) ∧
  run (.bor x ch w d a b) (fun p q _ => p ||| q % 2 ^ n) ∧
  run (.bxor x ch w d a b) (fun p q _ => p ^^^ q % 2 ^ n) ∧
  run (.andn x ch w d a b) (fun p q _ => p &&& (2 ^ n - 1 - q % 2 ^ n)) ∧
  run (.orn x ch w d a b) (fun p q _ => p ||| (2 ^ n - 1 - q % 2 ^ n)) ∧
  run1 (.bnot x ch w d a) (fun p => 2 ^ n - 1 - p % 2 ^ n) ∧
  run1 (.popc x ch w d a) (fun p => ((List.range n).filter fun i => bitAt p i).length) ∧
  run1 (.clz x ch w d a) (fun p => if p = 0 then n else n - 1 - Nat.log2 p) ∧
  run1 (.ctz x ch w d a) (fun p => ((List.range n).find? fun i => bitAt p i).getD n) ∧
  run1 (.brev x ch w d a) (revOf n) ∧
  AluDone (.perm x ch w d a b) .alu x ch Use.dabc d.toNat a.toNat b.toNat (bitFn w fun p q r => permOf n p q r) ∧
  AluDone (.idot4I8 x ch d a b) .alu x ch { Use.dabc with sat := true } d.toNat a.toNat b.toNat
    (fun c _ p q r => (idotLane true c.pre.sat p q r, 0)) ∧
  AluDone (.idot4N8 x ch d a b) .alu x ch { Use.dabc with sat := true } d.toNat a.toNat b.toNat
    (fun c _ p q r => (idotLane false c.pre.sat p q r, 0))

/-- 02 R66, R67, R65: bit fields, funnel shifts and masks; the immediates of movi and movh.
02 R87: xset writes index[6:0] from the low bits of a plus the immediate, and the bounds from a, in each active lane. -/
def Obligations.FieldsAndImmediates : Prop :=
  (∀ (x : Pre) (ch : Bool) (t : WTy) (d a b : BitVec 7) (i : BitVec 11),
  let w := wtWidth t
  let run := fun (i : Instr) (c : Bool) (f : Nat → Word → Word → Nat) =>
    AluDone i .alu x ch { Use.dab with c := c } d.toNat a.toNat b.toNat (fieldFn t f)
  run (.bfx x ch t d a b) false (fun p q _ =>
    if (fieldOf w q).2 = 0 then 0
    else wrapInt w (readInt (wtSigned t) (fieldOf w q).2 (bitsOf p (fieldOf w q).1 (fieldOf w q).2))) ∧
  run (.bfi x ch t d a b) true (fun p q r =>
    wb r 0 w - bitsOf (wb r 0 w) (fieldOf w q).1 (fieldOf w q).2 * 2 ^ (fieldOf w q).1 +
      bitsOf p 0 (fieldOf w q).2 * 2 ^ (fieldOf w q).1) ∧
  run (.fshl x ch t d a b) true (fun p q r => bitsOf ((p * 2 ^ w + wb q 0 w) * 2 ^ min r.toNat (2 * w)) w w) ∧
  run (.fshr x ch t d a b) true (fun p q r =>
    wrapInt w (readInt (wtSigned t) (2 * w) (p * 2 ^ w + wb q 0 w) / 2 ^ min r.toNat (2 * w))) ∧
  AluDone (.bmsk x ch t d b) .alu x ch { Use.dab with a := false } d.toNat 0 b.toNat
    (fieldFn t fun _ q _ => (2 ^ (fieldOf w q).2 - 1) * 2 ^ (fieldOf w q).1) ∧
  AluDone (.movi x ch d i) .alu x ch { Use.da with a := false } d.toNat 0 0 (fun _ _ _ _ _ => (i.signExtend 64, 0)) ∧
  AluDone (.movh x ch d a i) .alu x ch Use.da d.toNat a.toNat 0 (fun _ _ p _ _ => ((p <<< 11) ||| i.zeroExtend 64, 0))) ∧
  (∀ (x : Pre) (ch : Bool) (n : BitVec 2) (a : BitVec 7) (i : BitVec 11)
  (s : State) (gi vi : Nat) (v : Voice), Ready s gi vi v .alu →
  let c := cxOf s gi vi v false x
  c.preOk { Use.da with d := false } = true → c.fieldsOk { Use.da with d := false } 0 a.toNat 0 = true →
  ∀ m1 va, c.read s.m 1 a.toNat = .ok (m1, va) →
    exec (.xset x ch n a i) s = .next (doneState s gi vi v .alu x ch (m1.setGrp gi { m1.grp gi with
      x := c.lanes.foldl (fun t l => Tbl.set 0 t (64 * n.toNat + l)
        (BitVec.ofNat 64 ((wb (va l) 0 7 + (i.signExtend 64).toNat) % 128 + wb (va l) 8 7 * 2 ^ 8 + wb (va l) 16 7 * 2 ^ 16)))
        (m1.grp gi).x })))

/-- 02 R71: each active lane takes the sub-element b[8:6] of the lane of a that the shuffle names, modulo the width; a lane
outside Active is read too.
02 R73, R74: match compares each active lane's key with every active lane's; reductions combine a over Active, scans over
the active lanes up to each lane's own.
That a queue takes one element of a reduction is the model's reading (notes/assumptions/34.md). -/
def Obligations.CrossLaneWords : Prop :=
  (∀ (x : Pre) (ch : Bool) (t : WTy) (d a b : BitVec 7),
  let run := fun (i : Instr) (src : Nat → Nat → Nat → Nat) =>
    ∀ s gi vi v, Ready s gi vi v (destClass x .xfu d.toNat) →
      let c := cxOf s gi vi v false x
      c.preOk Use.dab = true → c.fieldsOk Use.dab d.toNat a.toNat b.toNat = true →
      ∀ m1 va vb vc m2, c.sources s.m Use.dab a.toNat b.toNat = .ok (m1, va, vb, vc) →
        c.write m1 d.toNat (c.lanes.map fun l => (l, laneFrom (wtSigned t) (wtWidth t) 1 fun _ =>
          elemOf (c.anyLane m1 1 va (src c.g.width l (wb (vb l) 0 6) % c.g.width)) (wtWidth t)
            (wb (vb l) 6 3 % (64 / wtWidth t)))) = .ok m2 →
        exec i s = .next (doneState s gi vi v (destClass x .xfu d.toNat) x ch m2)
  run (.shflIdx x ch t d a b) (fun _ _ n => n) ∧
  run (.shflUp x ch t d a b) (fun w l n => l + w * 8 - n) ∧
  run (.shflDown x ch t d a b) (fun _ l n => l + n) ∧
  run (.shflXor x ch t d a b) (fun _ l n => l ^^^ n)) ∧
  (∀ (x : Pre) (ch : Bool) (t : WTy) (d a k : BitVec 7) (s : State) (gi vi : Nat) (v : Voice),
  Ready s gi vi v (destClass x .xfu d.toNat) →
  let c := cxOf s gi vi v false x
  ∀ m1 va, c.read s.m 1 a.toNat = .ok (m1, va) → c.preOk Use.da = true →
  let put := fun (i : Instr) (vals : List (Nat × Word)) => ∀ m2, c.write m1 d.toNat vals = .ok m2 →
    exec i s = .next (doneState s gi vi v (destClass x .xfu d.toNat) x ch m2)
  let red := fun (op : Nat) => match combineAll op t va c.lanes with
    | none => []
    | some r => c.lanes.map fun l => (l, laneFrom (wtSigned t) (wtWidth t) 1 fun _ => r)
  let scan := fun (op : Nat) => c.lanes.map fun l =>
    (l, laneFrom (wtSigned t) (wtWidth t) 1 fun _ => (combineAll op t va (c.lanes.filter fun j => j ≤ l)).getD 0)
  (c.fieldsOk Use.da d.toNat a.toNat 0 = true → (k.toNat = 0 ∨ k.toNat ≤ 3 ∧ t = .n32) →
    put (.matchKey x ch t d a k) (c.lanes.map fun l =>
      (l, maskOf (c.lanes.filter fun j => keysMatch k.toNat (wtWidth t) (va l) (va j))))) ∧
  (c.dstOk d.toNat = true → c.srcOk 1 a.toNat = true →
    put (.lredAdd x ch t d a) (red 0) ∧ put (.lredMin x ch t d a) (red 1) ∧ put (.lredMax x ch t d a) (red 2) ∧
    put (.lredAnd x ch t d a) (red 3) ∧ put (.lredOr x ch t d a) (red 4) ∧ put (.lredXor x ch t d a) (red 5) ∧
    (c.oneDest d.toNat = false →
      put (.lscanAdd x ch t d a) (scan 0) ∧ put (.lscanMax x ch t d a) (scan 2))))

/-- 02 R72, R68, R69: votes, plop and pmov: predicates combined, tested over Active, and moved to and from registers.
02 R58: what writing a predicate leaves: in each active lane the value given, in every other lane the old one; p7
discards it; every other predicate as before.
That a queue takes one element of a ballot or of pmov is the model's reading (notes/assumptions/34.md). -/
def Obligations.PredicateWords : Prop :=
  (∀ (x : Pre) (ch : Bool) (p q r : BitVec 3) (t : BitVec 4) (d : BitVec 7)
  (s : State) (gi vi : Nat) (v : Voice),
  let c := cxOf s gi vi v false x
  let bit := fun (n : BitVec 3) (l : Nat) => n.toNat = 7 || (Tbl.get 0 c.g.p n.toNat).getLsbD l
  let u := { Use.nil with d := true }
  (Ready s gi vi v .xfu → c.preOk Use.nil = true →
    exec (.voteAll x ch p q) s = .next (doneState s gi vi v .xfu x ch (c.writePred s.m p.toNat fun _ => c.act &&& ~~~c.predVal q.toNat = 0)) ∧
    exec (.voteAny x ch p q) s = .next (doneState s gi vi v .xfu x ch (c.writePred s.m p.toNat fun _ => c.act &&& c.predVal q.toNat ≠ 0))) ∧
  (Ready s gi vi v .ctl → c.preOk Use.nil = true →
    exec (.plop x ch t p q r) s = .next (doneState s gi vi v .ctl x ch (c.writePred s.m p.toNat fun l =>
      t.toNat / 2 ^ (2 * ((c.predVal q.toNat).getLsbD l).toNat + ((c.predVal r.toNat).getLsbD l).toNat) % 2 == 1))) ∧
  (Ready s gi vi v (destClass x .xfu d.toNat) → c.preOk u = true → c.fieldsOk u d.toNat 0 0 = true →
    ∀ m2, c.write s.m d.toNat (c.lanes.map fun l => (l, c.predVal q.toNat &&& c.act)) = .ok m2 →
      exec (.voteBallot x ch d q) s = .next (doneState s gi vi v (destClass x .xfu d.toNat) x ch m2)) ∧
  (Ready s gi vi v .ctl → c.preOk u = true → c.fieldsOk u d.toNat 0 0 = true →
    ∀ m2, c.write s.m d.toNat (c.lanes.map fun l => (l, if c.oneDest d.toNat then c.predVal q.toNat &&& c.act
        else if (c.predVal q.toNat).getLsbD l then 1 else 0)) = .ok m2 →
      exec (.pmovFromPred x ch d q) s = .next (doneState s gi vi v .ctl x ch m2)) ∧
  (Ready s gi vi v .ctl → c.preOk { Use.da with d := false } = true → c.fieldsOk { Use.da with d := false } 0 d.toNat 0 = true →
    ∀ m1 va, c.read s.m 1 d.toNat = .ok (m1, va) →
      exec (.pmovToPred x ch p d) s = .next (doneState s gi vi v .ctl x ch (c.writePred m1 p.toNat fun l =>
        if c.uniformAt 1 d.toNat then (va l).getLsbD l else va l ≠ 0))) ∧
  (∀ l < 64, (c.predVal q.toNat).getLsbD l = bit q l)) ∧
  (∀ (s : State) (gi vi : Nat) (v : Voice) (x : Pre) (m : Mach) (p : Nat) (f : Nat → Bool),
  gi < m.groups.length →
  let c := cxOf s gi vi v false x
  let old := fun n => Tbl.get 0 (m.grp gi).p n
  let new := fun n => Tbl.get 0 ((c.writePred m p f).grp gi).p n
  (p < 7 → ∀ l < 64, (new p).getLsbD l = if c.act.getLsbD l then f l else (old p).getLsbD l) ∧
  (∀ n, n ≠ p → new n = old n) ∧ (7 ≤ p → c.writePred m p f = m))

/-- 02 R75 to R80: where the transfer words send the lanes of their voice: the taken lanes to the destination, the others to
the packet after the course; exit ends the active lanes.
02 R79: jmpt reads its table's entry for each active lane and goes to that packet, counted from the kernel's header; an
index of n or more raises JUMP_RANGE with the table's address.
02 R76, R78: a transfer to a packet that is not a head raises BAD_TARGET, TADDR its byte address; a ninth call entry
raises ILLEGAL_OP with TADDR 0, a return with an empty stack BAD_TARGET with TADDR 0. The mask of the first names every lane bound
for that packet, those that fall through to it too.
That a destination is taken modulo 2^48 packets is the model's choice (notes/assumptions/103.md). -/
def Obligations.TransfersTaken : Prop :=
  (∀ (x : Pre) (n : Bool) (p : BitVec 3) (o : BitVec 21) (s : State) (gi vi : Nat) (v : Voice),
  Ready s gi vi v .ctl → v.lastLane →
  let c := cxOf s gi vi v true .none
  let cx := cxOf s gi vi v true x
  let dst := (((c.voice.head + v.word / 3 : Nat) : Int) + o.toInt) % (2 ^ 48 : Nat)
  let taken := lanesOf (v.mask &&& (if n then ~~~c.predVal p.toNat else c.predVal p.toNat))
  let after := fallThrough c.voice
  let goes := fun (w : List (Nat × Nat)) => (lanesOf v.mask).map fun l => (l, some (((w.find? fun t => t.1 = l).map Prod.snd).getD after))
  let isHead := fun (q : Nat) => examine c.base (whoGroup c.base gi) q ≠ some false
  (taken = [] ∨ isHead dst.toNat → exec (.bra n p o) s = .next (xferState s gi vi v .none (goes (taken.map fun l => (l, dst.toNat))) s.m)) ∧
  (taken = [] ∨ isHead dst.toNat → (∀ l ∈ taken, (Tbl.get [] c.g.ret l).length < 8) →
    exec (.call n p o) s = .next (xferState s gi vi v .none (goes (taken.map fun l => (l, dst.toNat)))
      (s.m.setGrp gi { s.m.grp gi with ret := taken.foldl (fun t l => Tbl.set [] t l (after :: Tbl.get [] c.g.ret l)) (s.m.grp gi).ret }))) ∧
  (cx.preOk Use.nil = true → (∀ l ∈ cx.lanes, ∃ q r, Tbl.get [] cx.g.ret l = q :: r ∧ isHead q) →
    exec (.ret x) s = .next (xferState s gi vi v x (goes (cx.lanes.map fun l => (l, (Tbl.get [] cx.g.ret l).headD 0)))
      (s.m.setGrp gi { s.m.grp gi with ret := cx.lanes.foldl (fun t l => Tbl.set [] t l ((Tbl.get [] cx.g.ret l).drop 1)) (s.m.grp gi).ret }))) ∧
  (cx.preOk Use.nil = true →
    exec (.exit x) s = .next (xferState s gi vi v x ((lanesOf v.mask).map fun l => (l, if cx.act.getLsbD l then none else some after)) s.m))) ∧
  (∀ (x : Pre) (n a b : BitVec 7) (s : State) (gi vi : Nat) (v : Voice),
  Ready s gi vi v .ctl → v.lastLane →
  let c := cxOf s gi vi v true x
  let u := { Use.dab with d := false }
  c.preOk u = true → c.fieldsOk u 0 a.toNat b.toNat = true → (opdOf x 2 b.toNat).isS = true →
  x.symp 2 = none → x.indexed 2 = none →
  ∀ m1 va vb vc, c.sources s.m u a.toNat b.toNat = .ok (m1, va, vb, vc) →
    let bad := c.lanes.filter fun l => wb (va l) 0 32 ≥ n.toNat + 1
    (bad ≠ [] → exec (.jmpt x n a b) s = .next (causeState s gi vi v true x .jumpRange (vb 0) (maskOf bad))) ∧
    (bad = [] → ∀ ls, checkLanes m1 (whoGroup c.base gi) .load 4 false
        (c.lanes.map fun l => (l, vb 0 + BitVec.ofNat 64 (4 * wb (va l) 0 32))) = .ok ls → anyPoison m1 4 ls = false →
      let m2 := touchLines (pinLocs m1 ls) (whoGroup c.base gi) false 4 ls
      let dst := ls.map fun l => (l.1, (c.grid.lr.kaddr / 12 + seeNum m2 (whoGroup c.base gi) 4 l.2) % 2 ^ 48)
      (∀ t ∈ dst, examine c.base (whoGroup c.base gi) t.2 ≠ some false) →
      exec (.jmpt x n a b) s = .next (xferState s gi vi v x ((lanesOf v.mask).map fun l =>
        (l, some (((dst.find? fun t => t.1 = l).map Prod.snd).getD (fallThrough c.voice)))) m2))) ∧
  (∀ (x : Pre) (n : Bool) (p : BitVec 3) (o : BitVec 21) (s : State) (gi vi : Nat) (v : Voice),
  Ready s gi vi v .ctl → v.lastLane →
  let c := cxOf s gi vi v true .none
  let cx := cxOf s gi vi v true x
  let dst := c.branchTo o
  let taken := c.branchLanes n p.toNat
  let full := taken.filter fun l => (Tbl.get [] c.g.ret l).length ≥ 8
  let none' := cx.lanes.filter fun l => (Tbl.get [] cx.g.ret l).isEmpty
  (taken ≠ [] → examine c.base (whoGroup c.base gi) dst = some false →
    exec (.bra n p o) s = .next (causeState s gi vi v true .none .badTarget (BitVec.ofNat 64 (12 * dst))
      (maskOf ((lanesOf v.mask).filter fun l => taken.contains l || fallThrough c.voice = dst)))) ∧
  (full ≠ [] → exec (.call n p o) s = .next (causeState s gi vi v true .none .illegalOp 0 (maskOf full))) ∧
  (cx.preOk Use.nil = true → none' ≠ [] →
    exec (.ret x) s = .next (causeState s gi vi v true x .badTarget 0 (maskOf none'))))

/-- 01 R38, 02 R81, R83: nop and the hints take no effect and never trap by their own fields: a kind-0 prefix with no payload,
or none, before any of them; kind 1 with the extensions of a and b that name scalars before hint.pfs.
02 R81: yield changes nothing but that the voice, at its next head, lets the voices that are now eligible on its core go
first; with no lane active it does nothing. -/
def Obligations.HintsAndYield : Prop :=
  (∀ (x : Pre) (ch h : Bool) (d a b : BitVec 7) (e : BitVec 4) (k : BitVec 25)
  (s : State) (gi vi : Nat) (v : Voice), Ready s gi vi v .ctl →
  let quiet := match x with
    | .none => true
    | .k0 _ _ c r st su i f => c = 0 && r = 0 && !st && !su && i = 0 && !f
    | .k1 _ _ c dx ax bx cx f => c = 0 && dx = 0 && ax = 0 && bx = 0 && cx = 0 && !f
    | _ => false
  let t := doneState s gi vi v .ctl x ch s.m
  (quiet = true → exec (.nop x ch d a b) s = .next t ∧ exec (.hintPfs x ch e d a b) s = .next t ∧
    exec (.hintBlk x ch k) s = .next t ∧ exec (.hintUndefined x ch h k) s = .next t) ∧
  (∀ n g ax bx, x = .k1 n g 0 0 ax bx 0 false → (ax = 0 ∨ 0x70 ≤ a.toNat) → (bx = 0 ∨ 0x70 ≤ b.toNat) →
    exec (.hintPfs x ch e d a b) s = .next t)) ∧
  (∀ (x : Pre) (ch : Bool) (s : State) (gi vi : Nat) (v w : Voice),
  Ready s gi vi v .ctl →
  let c := cxOf s gi vi v false x
  c.preOk Use.nil = true → voiceAt s.m gi vi = some w →
  exec (.yield x ch) s = .next (doneState s gi vi v .ctl x ch
    (if c.act = 0 then s.m else setVoice s.m gi vi { w with yieldTo := eligibleOn c.base c.g.die c.g.core gi vi })))

/-- 02 R84, R85: srd writes the special register named by imm14 to each active lane, LANEID and ITEM per lane.
That LANEID or ITEM into a queue raises ILLEGAL_OP, as into a scalar, is the model's reading (notes/assumptions/80.md). -/
def Obligations.SpecialRegisterReads : Prop := ∀ (x : Pre) (ch : Bool) (d : BitVec 7) (i : BitVec 14) (s : State) (gi vi : Nat) (v : Voice),
  Ready s gi vi v .ctl →
  let c := cxOf s gi vi v false x
  let g := c.g
  let t := c.base.team g.team
  let value := fun (l : Nat) => match i.toNat with
    | 0x00 => some (BitVec.ofNat 64 l)
    | 0x01 => some (BitVec.ofNat 64 g.gid)
    | 0x02 => some (BitVec.ofNat 64 t.tid)
    | 0x03 => some (BitVec.ofNat 64 (clusterOf c.grid t.tid))
    | 0x04 => some (BitVec.ofNat 64 g.core)
    | 0x05 => some (BitVec.ofNat 64 g.die)
    | 0x06 => some (BitVec.ofNat 64 ((t.tid * c.grid.lr.grps + g.gid) * g.width + l))
    | 0x07 => some (BitVec.ofNat 64 (g.gid % c.grid.hdr.roles))
    | 0x08 => some g.mode
    | 0x09 => some g.fpflags
    | 0x0A => some (BitVec.ofNat 64 g.prog)
    | 0x0B => some (BitVec.ofNat 64 s.m.time)
    | 0x10 => some g.tvec
    | 0x11 => some g.tcause
    | 0x12 => some g.taddr
    | 0x13 => some g.tpc
    | 0x14 => some g.tmask
    | _ => none
  let perLane := i.toNat = 0 ∨ i.toNat = 6
  (c.kind0 false = true → c.dstOk d.toNat = true → value 0 ≠ none → (perLane → c.oneDest d.toNat = false) →
    ((i.toNat = 8 ∨ i.toNat = 9) → c.floatBusy = false) →
    ∀ m2, c.write s.m d.toNat (c.lanes.map fun l => (l, (value l).getD 0)) = .ok m2 →
      exec (.srd x ch d i) s = .next (doneState s gi vi v .ctl x ch m2)) ∧
  ((c.kind0 false = false ∨ value 0 = none ∨ (perLane ∧ c.oneDest d.toNat = true)) →
    exec (.srd x ch d i) s = .next (causeState s gi vi v false x .illegalOp c.waddr c.act))

/-- 02 R84, 00 R5: swr writes MODE and FPFLAGS, their reserved bits reading 0, and TVEC in a privileged grid; TVEC in any
other grid raises PROT with TADDR 0.
02 R84: an swr to any register but MODE, FPFLAGS and TVEC, or from a vector, raises ILLEGAL_OP.
02 R86: setmode writes the old MODE to d, then sets MODE := (MODE AND NOT b) OR (a AND b), its reserved bits 0. -/
def Obligations.SpecialRegisterWrites : Prop :=
  (∀ (x : Pre) (ch : Bool) (a : BitVec 7) (s : State) (gi vi : Nat) (v : Voice),
  Ready s gi vi v .ctl →
  let c := cxOf s gi vi v false x
  c.kind0 false = true → (opdOf x 1 a.toNat).uniform = true → c.srcOk 1 a.toNat = true → c.act ≠ 0 →
  ∀ m1 va l ls, c.read s.m 1 a.toNat = .ok (m1, va) → c.lanes = l :: ls →
    let put := fun (g : Group) => Host.Outcome.next (doneState s gi vi v .ctl x ch (m1.setGrp gi g))
    (c.floatBusy = false → exec (.swr x ch a 0x08) s = put { m1.grp gi with mode := va l &&& 0x1F3F }) ∧
    (c.floatBusy = false → exec (.swr x ch a 0x09) s = put { m1.grp gi with fpflags := va l &&& 0x1F }) ∧
    (c.grid.lr.priv = true → exec (.swr x ch a 0x10) s = put { m1.grp gi with tvec := va l }) ∧
    (c.grid.lr.priv = false → exec (.swr x ch a 0x10) s = .next (causeState s gi vi v false x .prot 0 c.act))) ∧
  (∀ (x : Pre) (ch : Bool) (a : BitVec 7) (i : BitVec 14) (s : State) (gi vi : Nat) (v : Voice),
  Ready s gi vi v .ctl → ((i.toNat ≠ 8 ∧ i.toNat ≠ 9 ∧ i.toNat ≠ 16) ∨ (opdOf x 1 a.toNat).uniform = false) →
  exec (.swr x ch a i) s =
    .next (causeState s gi vi v false x .illegalOp (cxOf s gi vi v false x).waddr (cxOf s gi vi v false x).act)) ∧
  (∀ (x : Pre) (ch : Bool) (d a b : BitVec 7) (s : State) (gi vi : Nat) (v : Voice),
  Ready s gi vi v .ctl →
  let c := cxOf s gi vi v false x
  let legal := c.preOk Use.dab = true ∧ c.fieldsOk Use.dab d.toNat a.toNat b.toNat = true ∧ x.indexed 0 = none ∧
    (opdOf x 0 d.toNat).isS = true
  (legal → c.floatBusy = false → ∀ m1 va vb vc l ls m2, c.sources s.m Use.dab a.toNat b.toNat = .ok (m1, va, vb, vc) →
    c.lanes = l :: ls → c.write m1 d.toNat (c.lanes.map fun k => (k, c.g.mode)) = .ok m2 →
    exec (.setmode x ch d a b) s = .next (doneState s gi vi v .ctl x ch
      (m2.setGrp gi { m2.grp gi with mode := ((c.g.mode &&& ~~~(vb l)) ||| (va l &&& vb l)) &&& 0x1F3F }))) ∧
  (¬legal → exec (.setmode x ch d a b) s = .next (causeState s gi vi v false x .illegalOp c.waddr c.act)))

/-- 02 R88 to R93: sypub appends each active lane's value to its item's stream, sydone closes it with the value; both raise
ILLEGAL_OP outside an ordered kernel's sympathetic registers.
02 R88, R91, R93: publishing one element: a closed stream takes nothing; fewer than 16 elements held, it is appended; with
16 held, the oldest is released when every reader has passed it, else the publisher waits. -/
def Obligations.SympatheticWords : Prop :=
  (∀ (x : Pre) (ch : Bool) (a : BitVec 7) (s : State) (gi vi : Nat) (v : Voice),
  Ready s gi vi v .mem →
  let c := cxOf s gi vi v false x
  let legal := c.kind0 false = true ∧ a.toNat < c.g.nv ∧ c.grid.hdr.ordered = true ∧ compatG c.base c.g = false ∧
    (c.grid.hdr.syms.any fun y => y.1 = a.toNat) = true
  (¬legal → exec (.sypub x ch a) s = .next (causeState s gi vi v false x .illegalOp c.waddr c.act) ∧
    exec (.sydone x ch a) s = .next (causeState s gi vi v false x .illegalOp c.waddr c.act)) ∧
  (legal → ∀ m1 va, c.read s.m 1 a.toNat = .ok (m1, va) →
    (∀ gd, (c.lanes.foldl (fun o l => o.bind fun y => publish y (itemOf c.base c.g l) a.toNat (va l)) (some (m1.grid c.g.grid))) = some gd →
      exec (.sypub x ch a) s = .next (doneState s gi vi v .mem x ch (m1.setGrid c.g.grid gd))) ∧
    ((c.lanes.foldl (fun o l => o.bind fun y => publish y (itemOf c.base c.g l) a.toNat (va l)) (some (m1.grid c.g.grid))) = none →
      exec (.sypub x ch a) s = .next (stallState s gi vi v false x)) ∧
    exec (.sydone x ch a) s = .next (doneState s gi vi v .mem x ch (m1.setGrid c.g.grid (c.lanes.foldl (fun y l =>
      let st := streamOf y (itemOf c.base c.g l) a.toNat
      if st.closed.isSome then y else setStream y (itemOf c.base c.g l) a.toNat { st with closed := some (va l) }) (m1.grid c.g.grid)))))) ∧
  (∀ (g : Grid) (item v : Nat) (w : Word),
  let st := streamOf g item v
  (st.closed ≠ none → publish g item v w = some g) ∧
  (st.closed = none → st.elems.length < 16 →
    ∃ g', publish g item v w = some g' ∧ (streamOf g' item v).elems = st.elems ++ [w] ∧
      (streamOf g' item v).released = st.released ∧ ∀ i r, 128 * i + r ≠ 128 * item + v → streamOf g' i r = streamOf g i r) ∧
  (st.closed = none → 16 ≤ st.elems.length → canRelease g item v = true →
    ∃ g', publish g item v w = some g' ∧ (streamOf g' item v).elems = st.elems.drop 1 ++ [w] ∧
      (streamOf g' item v).released = st.released + 1) ∧
  (st.closed = none → 16 ≤ st.elems.length → canRelease g item v = false → publish g item v w = none))

/-! ## 05: traps -/

/-- 02 R82, 05 R145, 01 R12: brk and sys complete, and then raise BREAK or SYSCALL with done set: TADDR the code, TMASK the
active lanes, the chain after it the place to go on; inside a chain, the chain first goes on. A guarded-off word does nothing.
05 R144: trap in handler state kills the grid with the cause that TCAUSE holds, its code in the report; out of handler
state it raises ILLEGAL_OP; guarded off, it does nothing.
That TPC names the chain's first word for a brk or sys inside a chain is the model's choice (notes/assumptions/100.md). -/
def Obligations.BreakAndSystemCall : Prop :=
  (∀ (x : Pre) (k : BitVec 14) (s : State) (gi vi : Nat) (v : Voice),
  Ready s gi vi v .ctl →
  let c := cxOf s gi vi v false x
  let raised := fun (m : Mach) (u : Voice) (q : Cause) => Host.Outcome.next { ended s (raiseTrap
    (issuedMach m gi vi u (c.bword + 1)) gi
    { voice := vi, first := c.first, after := c.bword + 1, member := c.member, bases := []
      trap := { cause := q, addr := k.zeroExtend 64, mask := c.act, elem := 0, done := true } }) with pipes := s.used ++ [.ctl] }
  (∀ m u, pushOut (c.settled s.m) gi = some m → voiceAt m gi vi = some u →
    (c.preOk Use.nil = true → c.act ≠ 0 → exec (.brk x false k) s = raised m u .brk) ∧
    (c.kind0 false = true → c.act ≠ 0 → exec (.sys x false k) s = raised m u .syscall)) ∧
  (c.act ≠ 0 → let next := fun (q : Cause) => Host.Outcome.next { s with
      m := setVoice s.m gi vi { v with word := c.bword + 1 }
      chain := some { base := s.base, used := s.used ++ [.ctl], first := c.first, member := c.member + 1, late := some (c.member,
        { cause := q, addr := k.zeroExtend 64, mask := c.act, elem := 0, done := true }) } }
    (c.preOk Use.nil = true → exec (.brk x true k) s = next .brk) ∧ (c.kind0 false = true → exec (.sys x true k) s = next .syscall)) ∧
  (c.act = 0 → (c.preOk Use.nil = true → exec (.brk x false k) s = .next (doneState s gi vi v .ctl x false s.m)) ∧
    (c.kind0 false = true → exec (.sys x false k) s = .next (doneState s gi vi v .ctl x false s.m)))) ∧
  (∀ (x : Pre) (ch : Bool) (k : BitVec 14) (s : State) (gi vi : Nat) (v : Voice),
  Ready s gi vi v .ctl →
  let c := cxOf s gi vi v false x
  let g := s.m.grp gi
  c.kind0 false = true →
  (c.act = 0 → exec (.trap x ch k) s = .next (doneState s gi vi v .ctl x ch s.m)) ∧
  (c.act ≠ 0 → c.g.inhandler = false → exec (.trap x ch k) s = .next (causeState s gi vi v false x .illegalOp c.waddr c.act)) ∧
  (c.act ≠ 0 → c.g.inhandler = true →
    ∀ m, pushOut (c.settled (killGrid s.m g.grid (wb g.tcause 0 8)
        (some (killReport s.m gi k.toNat (wb g.tcause 0 8) g.taddr g.tpc g.tmask g.pp)))) gi = some m →
      exec (.trap x ch k) s = .next (ended s m)))

/-- 05 R137 to R143: taking a trap. The group's TCAUSE, TADDR, TPC, TMASK and partial-progress word are set. Then the group
whose TVEC gives a frame address F, not in handler state, with no mortar result outstanding, saves its registers at F and goes
on as one voice of its live lanes at the packet that the first 8 bytes of the frame hold, in handler state. A frame on a
migrating page holds the entry (10 R244).
05 R139, R144: a trap in handler state, or with no handler, kills the grid with the trap's cause and a report of kind 1. -/
def Obligations.TrapEntry : Prop :=
  (∀ (m : Mach) (gi : Nat) (p : PendTrap), gi < m.groups.length →
  let g := m.grp gi
  let head := (Tbl.get default g.voices p.voice).head
  let g1 := { g with
    tcause := BitVec.ofNat 64 p.trap.cause.code, taddr := p.trap.addr,
    tpc := BitVec.ofNat 64 (p.first * 2 ^ 48 + head % 2 ^ 48), tmask := p.trap.mask,
    pp := BitVec.ofNat 64 (boolNat p.trap.done * 2 ^ 63 + p.trap.elem * 2 ^ 8 + p.member), trap := some p }
  let m1 := m.setGrp gi g1
  let f := wb g.tvec 8 40 * 256
  let m0 := pinFrame m1 (whoGroup m1 gi) f 1
  p.trap.cause ≠ .sramUe → (p.trap.cause = .symFault → (m.grid g.grid).killed = false) → g.inhandler = false → f ≠ 0 →
  (anyMortarBusy g = true → raiseTrap m gi p = m1) ∧
  (anyMortarBusy g = false → isHeld m1 gi 4 = false → ∀ hpc m2, readFrame m0 (whoGroup m1 gi) f = .ok hpc →
    writeFrame (whoGroup m1 gi) f (frameWords m1 gi p.voice) m0 = .done m2 →
    raiseTrap m gi p = (dropHolds m2 gi).setGrp gi { m2.grp gi with
      trap := none, inhandler := true, park := [], voices := [(0, standingVoice (m2.grp gi).live (hpc % 2 ^ 48))],
      handler := some { voices := (m2.grp gi).voices, park := (m2.grp gi).park, tv := p.voice, first := p.first, after := p.after, bases := p.bases } }) ∧
  (anyMortarBusy g = false → isHeld m1 gi 4 = false → checkVa m0 (whoGroup m1 gi) .load 8 true f = .held →
    raiseTrap m gi p = holdAt m1 gi 4 [f])) ∧
  (∀ (m : Mach) (gi : Nat) (p : PendTrap), gi < m.groups.length →
  let g := m.grp gi
  let g1 := { g with
    tcause := BitVec.ofNat 64 p.trap.cause.code, taddr := p.trap.addr,
    tpc := BitVec.ofNat 64 (p.first * 2 ^ 48 + (Tbl.get default g.voices p.voice).head % 2 ^ 48), tmask := p.trap.mask,
    pp := BitVec.ofNat 64 (boolNat p.trap.done * 2 ^ 63 + p.trap.elem * 2 ^ 8 + p.member), trap := none }
  let m1 := m.setGrp gi g1
  p.trap.cause ≠ .sramUe → (p.trap.cause = .symFault → (m.grid g.grid).killed = false) → (g.inhandler = true ∨ wb g.tvec 8 40 = 0) →
  raiseTrap m gi p = killGrid m1 g.grid p.trap.cause.code
    (some (killReport m1 gi 0 p.trap.cause.code g1.taddr g1.tpc g1.tmask g1.pp)))

/-- 05 R142, R143: rett ends the handler's course and puts back the voices, park table, mortar sets and place of the trap,
as the frame's mortar and partial-progress words hold them; out of handler state it raises ILLEGAL_OP.
05 R142, R143: what returning puts in force: handler state is left, the general, predicate and mode
registers stay as the handler left them, every voice of the trap (all inside courses, no lane parked) that still has live lanes
stands where the trap left it, the trapping voice after its chain when the done bit is set and at its chain's first word
otherwise; lanes that have exited are dropped, from the destinations of a course whose end waits too.
That rett waits for what its own voice has outstanding to mortar and promoted registers alone is the model's choice
(notes/assumptions/76.md). -/
def Obligations.TrapReturn : Prop :=
  (∀ (x : Pre) (s : State) (gi vi : Nat) (v : Voice),
  Ready s gi vi v .ctl → v.lastLane →
  let c := cxOf s gi vi v true x
  let w := whoGroup c.base gi
  let f := wb c.g.tvec 8 40 * 256
  c.kind0 false = true →
  (c.act = 0 → exec (.rett x) s = .next (xferState s gi vi v x ((lanesOf v.mask).map fun l => (l, some (fallThrough c.voice))) s.m)) ∧
  (c.act ≠ 0 → c.g.handler = none → exec (.rett x) s = .next (causeState s gi vi v true x .illegalOp c.waddr c.act)) ∧
  (∀ h p ms, c.act ≠ 0 → c.g.handler = some h → courseBusy c.base gi vi = false →
    let m0 := pinFrame s.m w f (32 + 32 * c.g.width)
    readFrames m0 w (32 * c.g.width) (f + 0x100) = .ok ms → readFrame m0 w (f + 0x28) = .ok p →
    let m1 := m0.setGrp gi (((m0.grp gi).voices.map Prod.fst).foldl endRipple (m0.grp gi))
    ∀ m, pushOut (c.settled (returnTrap (retireCourse m1 gi vi ((lanesOf v.mask).map fun l => (l, some 0))) gi h (BitVec.ofNat 64 p)
        fun vo r l => BitVec.ofNat 64 (ms.getD (c.g.width * (8 * vo + r) + l) 0))) gi = some m →
      exec (.rett x) s = .next (ended s m))) ∧
  (∀ (m : Mach) (gi : Nat) (h : Handler) (p : Word) (mort : Nat → Nat → Nat → Word),
  gi < m.groups.length →
  let g := m.grp gi
  let t := (returnTrap m gi h p mort).grp gi
  t.inhandler = false ∧ t.handler = none ∧
  t.v = g.v ∧ t.s = g.s ∧ t.p = g.p ∧ t.mode = g.mode ∧ t.tvec = g.tvec ∧ t.tcause = g.tcause ∧ t.live = g.live ∧
  (h.park = [] → (h.voices.map Prod.fst).Nodup → (∀ e ∈ h.voices, e.2.inside = true) →
    ∀ n v, (n, v) ∈ h.voices → v.mask &&& g.live ≠ 0 →
      ∃ w, voiceAt (returnTrap m gi h p mort) gi n = some w ∧ w.mask = v.mask &&& g.live ∧ w.head = v.head ∧ w.code = v.code ∧
        w.inside = true ∧ (v.ripple = none → w.word = if n = h.tv then (if wb p 63 1 = 1 then h.after else h.first) else v.word) ∧
        w.pend = v.pend.map fun ds => ds.filter fun d => g.live.getLsbD d.1))

/-! ## 01: courses and chains -/

/-- 01 R20 to R23, 10 R245: a voice that stands at a head enters the course when its structure is right and the counters its
wait mask names are zero: its first member is next and its mortar set is clear. A set counter holds it, a structure error
raises ILLEGAL_OP with TADDR the offending word's address. -/
def Obligations.CourseEntry : Prop := ∀ (h : Bool) (l : BitVec 3) (a b : BitVec 4) (w : BitVec 12) (s : State) (gi vi : Nat) (v : Voice) (ws : List Nat),
  s.cur = some (gi, vi) → voiceAt s.m gi vi = some v → v.inside = false → fetchCourse s.m gi v = .ok ws →
  let code := encodeBase (.head h l a b w) :: ws.drop 1
  let put := fun (u : Voice) => Host.Outcome.next (ended s (setVoice s.m gi vi u))
  (structErr code (s.m.grp gi).nv = none → (∀ n < 12, w.getLsbD n = true → counter (s.m.grp gi) n = 0) →
    exec (.head h l a b w) s = put { v with
      inside := true, word := 1, code := code, mortar := [], stalled := false, sym := none,
      restart := none, ripple := none, entered := s.m.fresh, yieldTo := [] }) ∧
  (structErr code (s.m.grp gi).nv = none → (∃ n < 12, w.getLsbD n = true ∧ counter (s.m.grp gi) n ≠ 0) →
    exec (.head h l a b w) s = put { v with stalled := true }) ∧
  (∀ i, structErr code (s.m.grp gi).nv = some i →
    exec (.head h l a b w) s = .next (ended s
      (raiseTrap (setVoice s.m gi vi { v with word := 0, stalled := false }) gi
        { voice := vi, first := 0, after := 0, member := 0, bases := []
          trap := { cause := .illegalOp, addr := BitVec.ofNat 64 (12 * v.head + 4 * i), mask := v.mask, elem := 0, done := false } })))

/-- 01 R10, R12: a word of a pipe class that its chain has used raises CHAIN_CONFLICT, and the device is as it was before the
chain but for the trap.
01 R10 to R12, R17: what is done with a member that took its effect: with its chain bit set, the chain goes on with the next
word, its class used, reading the device before the chain; else the chain's pushes are performed and it has issued, and the
voice stands at the next word or, at the end of the course, the course ends, or the ripple's next lane begins, with the last of
them the counters of its words fall as those complete (08 R204); a push
that finds no room makes the whole chain stall.
01 R17, R44: the end of a course, its mortar results complete, in interlocked mode no word still to write a promoted register: the coping's promotions copy mortar registers to vector registers
in every lane of the voice, PROG counts the course, exiting lanes exit, and the others go to their destinations.
That a conflict comes before every other cause of the same member is the model's choice (notes/assumptions/27.md). -/
def Obligations.ChainRules : Prop :=
  (∀ (cls : Pipe) (xf : Bool) (x : Pre) (ch : Bool) (body : Cx → Mach → Eff) (s : State) (gi vi : Nat) (v : Voice),
  Issues s gi vi v → s.used.contains cls = true →
  let c := cxOf s gi vi v xf x
  issue (some cls) xf x ch body s = .next (ended s
    (raiseTrap s.base gi { voice := vi, first := c.first, after := chainEnd v.code 5 c.first, member := c.member, bases := []
                           trap := { cause := .chainConflict, addr := c.waddr, mask := c.act, elem := 0, done := false } }))) ∧
  (∀ (s : State) (gi vi : Nat) (v w : Voice) (cls : Pipe) (x : Pre) (m : Mach),
  voiceAt m gi vi = some w → s.late = none →
  let next := v.word + (if x = .none then 1 else 2)
  let issued := fun (m : Mach) => { ended s m with pipes := s.used ++ [cls] }
  doneState s gi vi v cls x true m = { s with
    m := setVoice m gi vi { w with word := next }
    chain := some { base := s.base, used := s.used ++ [cls], first := s.firstWord v, member := s.member + 1, late := none } } ∧
  let settled := (cxOf s gi vi v false x).settled m
  (∀ m1 u, pushOut settled gi = some m1 → voiceAt m1 gi vi = some u →
    let m2 := issuedMach m1 gi vi u next
    let falls := (lanesOf u.mask).map fun l => (l, some (u.head + u.code.length / 3))
    (next ≤ lastWord u.code → doneState s gi vi v cls x false m = issued m2) ∧
    (lastWord u.code < next → u.ripple = none → gi < m1.groups.length → doneState s gi vi v cls x false m = issued
      (finishCourse m2 gi vi falls)) ∧
    (∀ r, lastWord u.code < next → u.ripple = some r → r.rest = [] → gi < m1.groups.length → doneState s gi vi v cls x false m = issued
      (finishCourse (m2.setGrp gi (endRipple (m2.grp gi) vi)) gi vi falls)) ∧
    (∀ r l ls, lastWord u.code < next → u.ripple = some r → r.rest = l :: ls → gi < m1.groups.length →
      doneState s gi vi v cls x false m = issued (setVoice m1 gi vi { u with
        word := r.first, stalled := false, sym := none, restart := none, waited := 0, aged := false
        ripple := some { r with lane := l, rest := ls } }))) ∧
  (pushOut settled gi = none → doneState s gi vi v cls x false m = issued (stallAt s.base gi vi (s.firstWord v) {}))) ∧
  (∀ (m : Mach) (gi vi : Nat) (dests : List (Nat × Option Nat)),
  courseBusy m gi vi = false → (∀ e ∈ dests, e.2 ≠ none) → gi < m.groups.length →
  let g := m.grp gi
  let v := Tbl.get default g.voices vi
  let g1 := (promotions v.code).foldl (fun g p => writeVec g p.2 ((lanesOf v.mask).map fun l => (l, Tbl.get 0 v.mortar (64 * p.1 + l)))) g
  finishCourse m gi vi dests =
    m.setGrp gi (moveLanes { g1 with prog := min (g.prog + 1) 0xFFFFFFFF } vi (destSets dests)))

/-! ## 02, 11: memory -/

/-- 02 R95 to R98, 01 R22: a load whose lanes' addresses pass every check is outstanding with one value for each active lane,
zero- or sign-extended from the access size; a signed load of 64 bits raises ILLEGAL_OP.
02 R95 to R100, 01 R22: a store whose lanes' addresses pass every check stores the low bytes of t at each active lane's
location, lane by lane upwards, and is outstanding.
That memory is accessed when the word issues and a load's registers change when it completes, that a store reads its base before
its data, and that ldc reads what memory holds at issue, are the model's choices (notes/assumptions/7.md, 46.md, 81.md). -/
def Obligations.LoadsAndStores : Prop :=
  (∀ (x : Pre) (ch : Bool) (z : MSz) (f : Bool) (t b o : BitVec 7) (s : State) (gi vi : Nat) (v : Voice),
  let c := cxOf s gi vi v false x
  let n := szBytes z
  let run := fun (i : Instr) (sp : Space) (sgn : Bool) =>
    Ready s gi vi v (destClass x .mem t.toNat) → c.loadOk sp t.toNat b.toNat = true → c.act ≠ 0 → c.destStop t.toNat = none →
    ∀ m1 vb ls, c.read s.m 1 b.toNat = .ok (m1, vb) →
      c.locate m1 sp .load n (c.addrs vb (offsetOf x o * n)) = .ok ls → anyPoison m1 n ls = false →
      let m2 := touchLines (c.recall (pinLocs m1 ls) n ls) c.who c.strong n ls
      saturated (m2.grp gi) (c.regFlag f) = false →
      let wr := c.wrOf t.toNat (ls.map fun l => (l.1, if sgn then BitVec.ofInt 64 (toSigned (8 * n) (seeNum m2 c.who n l.2))
        else BitVec.ofNat 64 (seeNum m2 c.who n l.2)))
      exec i s = .next (doneState s gi vi v (destClass x .mem t.toNat) x ch (outstandingIn m2 gi vi v.word c.g.nextId (c.regFlag f) wr.1 wr.2 .ready))
  run (.ld x ch z f t b o) .global false ∧ run (.lds x ch z f t b o) .spad false ∧ run (.ldc x ch z f t b o) .const false ∧
  (z ≠ .b64 → run (.ldSext x ch z f t b o) .global true ∧ run (.ldsSext x ch z f t b o) .spad true) ∧
  (z = .b64 → Issues s gi vi v →
    exec (.ldSext x ch z f t b o) s = .next (causeState s gi vi v false x .illegalOp c.waddr c.act) ∧
    exec (.ldsSext x ch z f t b o) s = .next (causeState s gi vi v false x .illegalOp c.waddr c.act))) ∧
  (∀ (x : Pre) (ch : Bool) (z : MSz) (f : Bool) (t b o : BitVec 7) (s : State) (gi vi : Nat) (v : Voice),
  Ready s gi vi v .mem →
  let c := cxOf s gi vi v false x
  let n := szBytes z
  let run := fun (i : Instr) (sp : Space) =>
    c.memPre [0, 1, 3] sp.maxScope = true → c.srcOk 1 b.toNat = true → c.srcOk 2 t.toNat = true → c.act ≠ 0 →
    (3 ≤ x.ord → earlierHeld s.m gi = false) →
    ∀ m1 vb m2 vt ls, c.read s.m 1 b.toNat = .ok (m1, vb) → c.read m1 2 t.toNat = .ok (m2, vt) →
      c.locate m2 sp .store n (c.addrs vb (offsetOf x o * n)) = .ok ls →
      let m0 := c.recall (pinLocs (c.release m2) ls) n ls
      let m3 := clearCovered (ls.foldl (fun m l => doStore m c.who n (vt l.1).toNat l.2) (takeTurns m0 c.who ls)) (spansOf m0 n ls)
      saturated (m3.grp gi) (c.flag f) = false →
      exec i s = .next (doneState s gi vi v .mem x ch (outstandingIn m3 gi vi v.word c.g.nextId (c.flag f) [] [] .ready))
  run (.st x ch z f t b o) .global ∧ run (.sts x ch z f t b o) .spad)

/-- 02 R100: the frame of stores: every byte outside the bytes of the lanes' locations, in memory, in the dirty lines of every
core, and in every scratchpad, is as before. A store to a peer partition, and one of the device itself, first has the dirty lines
it meets written back (14 R329): there the newest value of every other byte, dirty or in memory, is as before, where the table of
dirty bytes is in its canonical form.
10 R229, 14 R328: a store to plain memory that no line protocol holds back is read back by every party: byte i of the
location is byte i of the number stored. -/
def Obligations.StoreFrame : Prop :=
  (∀ (m : Mach) (w : Who) (n : Nat) (val : Nat → Word) (ls : List (Nat × Loc)),
  let m' := ls.foldl (fun m l => doStore m w n (val l.1).toNat l.2) m
  let out := fun (k : Nat) => ∀ l ∈ ls, ∀ key leaf, l.2 = .mem key leaf → k < key ∨ key + n ≤ k
  let own := w.die < 12 ∧ ∀ l ∈ ls, ∀ key leaf, l.2 = .mem key leaf → keyRegion key = 1 → keyPart key = w.part
  let newest := fun (m : Mach) (k : Nat) => match Tbl.get none m.c1 k with | some x => x.val | none => rdByte m k
  (own → ∀ k, keyRegion k ≠ 3 → out k → rdByte m' k = rdByte m k ∧ Tbl.get none m'.c1 k = Tbl.get none m.c1 k) ∧
  (Tbl.wfFrom none 0 m.c1 = true → ∀ k, keyRegion k ≠ 3 → out k → newest m' k = newest m k) ∧
  (∀ k, out k → ∀ die core, Tbl.get none (m'.core die core).c2 k = Tbl.get none (m.core die core).c2 k ∧
    Tbl.get none (m'.core die core).atoms k = Tbl.get none (m.core die core).atoms k) ∧
  (∀ tm k, (∀ l ∈ ls, ∀ t off, l.2 = .spad t off → t ≠ tm ∨ k < off ∨ off + n ≤ k) →
    Tbl.get 0 (m'.team tm).spad k = Tbl.get 0 (m.team tm).spad k) ∧
  (∀ g r, (∀ l ∈ ls, ∀ h reg lane byte, l.2 = .win h reg lane byte → h ≠ g ∨ 64 * reg + lane ≠ r) →
    Tbl.get 0 (m'.grp g).v r = Tbl.get 0 (m.grp g).v r)) ∧
  (∀ (m : Mach) (w : Who) (n val key : Nat) (leaf : Word) (i : Nat), i < n →
  cohOf m leaf key ≠ 1 → cohOf m leaf key ≠ 2 → keyRegion key ≠ 3 → keyRegion (key + i) ≠ 3 →
  rdByte (doStore m w n val (.mem key leaf)) (key + i) = BitVec.ofNat 8 (val / 2 ^ (8 * i)))

/-- 02 R99, 10 R239, R240: the checks of one address in plain memory in their order: alignment, canonical form, the walk,
migration, permission and privilege.
02 R99: lanes' checks: no lane held, a misaligned address in some lane raises MISALIGN before every other cause, TMASK
the misaligned lanes and TADDR the address of the first of them. -/
def Obligations.AccessChecks : Prop :=
  (∀ (m : Mach) (w : Who) (acc : Acc) (n : Nat) (win : Bool) (va : Nat),
  let ck := checkVa m w acc n win va
  (va % n ≠ 0 → ck = .bad .misalign 0) ∧
  (va % n = 0 → 2 ^ 48 ≤ va → ck = .bad .xlate 1) ∧
  (va % n = 0 → va < 2 ^ 48 → isWindow va = true → win = false → ck = .bad .prot 2) ∧
  (va % n = 0 → va < 2 ^ 48 → isWindow va = false →
    (translation m w.part w.ctx va = .fail → ck = .bad .xlate 1) ∧
    (∀ e lg, translation m w.part w.ctx va = .leaf e lg →
      (pteMig e = true → ck = .held) ∧
      (pteMig e = false → permits e w.priv acc = false → ck = .bad .prot 2) ∧
      (pteMig e = false → permits e w.priv acc = true → ptePriv e = true → w.priv = true)))) ∧
  (∀ (m : Mach) (w : Who) (acc : Acc) (n : Nat) (win : Bool) (as : List (Nat × Word)),
  let bad := as.filter fun a => a.2.toNat % n ≠ 0
  (∀ a ∈ as, checkVa m w acc n win a.2.toNat ≠ .held) →
  ∀ first rest, bad = first :: rest →
    checkLanes m w acc n win as = .error (.cause
      { cause := .misalign, addr := first.2, mask := maskOf (bad.map Prod.fst), elem := 0, done := false }))

/-- 02 R101, R102: ldm and stm whose every element passes its checks: the registers from t on receive, or store, the 64-bit
elements at base + offset + 8 e, and the word is outstanding; after a return from a trap of its own it goes on at the element
that trapped, with the bases kept. That offh is signed, and that memory is accessed at issue while ldm's registers change at
completion, are the model's choices (notes/assumptions/82.md, 7.md).
05 R143, 02 R102: an stm or ldm that stops at an element with a cause leaves the elements before it done, and traps with
the element's number in the trap and the lanes' bases kept. -/
def Obligations.LoadStoreMultiple : Prop :=
  (∀ (x : Pre) (ch f : Bool) (t b n : BitVec 7) (s : State) (gi vi : Nat) (v : Voice),
  Ready s gi vi v .mem →
  let c := cxOf s gi vi v false x
  let cnt := n.toNat + 1
  let r := t.toNat
  let off := 8 * (BitVec.ofNat 12 x.offh).toInt
  c.memPre [0, 1] 4 = true → c.srcOk 1 b.toNat = true → r < 0x60 → r + cnt ≤ c.g.nv → c.act ≠ 0 → c.runBusy r cnt = false →
  ∀ m1 vb, c.read s.m 1 b.toNat = .ok (m1, vb) →
  ∀ e0 base, ((c.voice.restart = none ∧ e0 = 0 ∧ base = vb) ∨
      ∃ k bs, c.voice.restart = some (k, e0, bs) ∧ k = c.member ∧ base = fun l => Tbl.get (vb l) bs l) →
  let at' := fun (e : Nat) => c.addrs base (off + 8 * e)
  let seen := fun (m : Mach) (ls : List (Nat × Loc)) => touchLines (c.recall (pinLocs m ls) 8 ls) c.who c.strong 8 ls
  ((b.toNat < r ∨ r + cnt ≤ b.toNat) → ∀ done, elems (fun e _ => c.locate m1 .global .load 8 (at' e))
      (fun e m ls => if anyPoison m1 8 ls then .error (.cause (trapOf .sramUe 0 0))
        else .ok ((seen m ls).setGrp gi (writeVec ((seen m ls).grp gi) (r + e)
          (ls.map fun l => (l.1, BitVec.ofNat 64 (seeNum (seen m ls) c.who 8 l.2)))))) (cnt - e0) e0 c.base = .ok done →
    let m2 := (List.range (cnt - e0)).foldl (fun m i => match c.locate m1 .global .load 8 (at' (e0 + i)) with | .ok l => seen m l | _ => m) m1
    saturated (m2.grp gi) (c.regFlag f) = false →
    exec (.ldm x ch f t b n) s = .next (doneState s gi vi v .mem x ch (outstandingIn m2 gi vi v.word c.g.nextId (c.regFlag f)
      ((List.range (cnt - e0)).flatMap fun i => c.lanes.map fun l =>
        RegWr.vec (r + e0 + i) l (Tbl.get 0 (done.grp gi).v (64 * (r + e0 + i) + l)))
      ((List.range cnt).map fun e => r + e) .ready))) ∧
  (∀ m2, elems (fun e m => c.locate m .global .store 8 (at' e))
      (fun e m ls => .ok (storeAll c.who 8 (c.recall (pinLocs m ls) 8 ls) ls fun l => vecVal c.base.fresh c.base gi (r + e) l)) (cnt - e0) e0 m1 = .ok m2 →
    let spans := (List.range (cnt - e0)).flatMap fun i => match c.locate m1 .global .store 8 (at' (e0 + i : Nat)) with
      | .ok ls => spansOf m1 8 ls
      | _ => []
    saturated (m2.grp gi) (c.flag f) = false →
    exec (.stm x ch f t b n) s = .next (doneState s gi vi v .mem x ch
      (outstandingIn (clearCovered m2 spans) gi vi v.word c.g.nextId (c.flag f) [] [] .ready)))) ∧
  (∀ (c : Cx) (base : Nat → Word) (e : Nat) (t : Trap) (m : Mach),
  c.elemStop base (e, .cause t, m) = .trap { t with elem := e } m (c.lanes.map fun l => (l, base l)) ∧
  (∀ chk act n m0, elems chk act n 0 m0 = .error (e, .cause t, m) →
    e < n ∧ elems chk act e 0 m0 = .ok m ∧
      (chk e m = .error (.cause t) ∨ ∃ ls, chk e m = .ok ls ∧ act e m ls = .error (.cause t))))

/-- 11 R255 to R259: prefetch changes nothing; cache maintenance writes the lines of its range back, cinv drops the copies, and
is outstanding; a release fence makes what its core wrote and saw visible at its scope and is outstanding; icinv
does so too and drops the words of code that the instruction caches hold of its range. Each takes its effect once the accesses
that its group issued before it are performed. -/
def Obligations.CacheWords : Prop := ∀ (x : Pre) (ch f : Bool) (t b o : BitVec 7) (l : BitVec 2) (s : State) (gi vi : Nat) (v : Voice),
  Ready s gi vi v .mem →
  let c := cxOf s gi vi v false x
  let done := fun (m : Mach) => doneState s gi vi v .mem x ch m
  (c.memPre [0] 0 = true → l.toNat ≤ 2 → c.srcOk 1 b.toNat = true → ((opdOf x 1 b.toNat).isV = true ∨ (opdOf x 1 b.toNat).isS = true) →
    ∀ m1 vb, c.read s.m 1 b.toNat = .ok (m1, vb) → exec (.prfm x ch l b o) s = .next (doneState s gi vi v .mem x ch m1)) ∧
  (c.memPre [0] 4 = true → c.srcOk 1 b.toNat = true → c.srcOk 2 t.toNat = true → (opdOf x 1 b.toNat).isS = true →
    (opdOf x 2 t.toNat).isS = true → c.act ≠ 0 →
    ∀ m1 vb m2 vt, c.read s.m 1 b.toNat = .ok (m1, vb) → c.read m1 2 t.toNat = .ok (m2, vt) → (vt 0).toNat ≤ 2 ^ 30 →
      let ea := (vb 0 + BitVec.ofInt 64 (128 * offsetOf x o)).toNat
      let lo := ea / 128 * 128
      let hi := (ea + (vt 0).toNat + 127) / 128 * 128
      let all : Bool := x.scope?.getD 3 ≥ 3
      ((vt 0).toNat = 0 → saturated (m2.grp gi) (c.flag f) = false →
        exec (.cwb x ch f t b o) s = .next (done (out c m2 (c.flag f) [] [] .ready)) ∧
        exec (.cinv x ch f t b o) s = .next (done (out c m2 (c.flag f) [] [] .ready))) ∧
      (∀ rs, (vt 0).toNat ≠ 0 → maintPages m2 c.who lo hi ((hi - 1) / 2 ^ 16 - lo / 2 ^ 16 + 1) (lo / 2 ^ 16) = .ok rs →
        let run := fun (i : Instr) (inv : Bool) => afterRoom c m2 (c.flag f) (maintain m2 c.who inv all rs) →
          exec i s = .next (done (afterAll c m2 (c.flag f) (.maint inv all rs) (maintain m2 c.who inv all rs)))
        run (.cwb x ch f t b o) false ∧ run (.cinv x ch f t b o) true) ∧
      (let top := if (vt 0).toNat = 0 then lo else hi
       let m3 := dropCode (flushC1 m2 c.g.die c.g.core) c.who lo top
       x.scope?.getD 3 = 3 → afterRoom c m2 (c.flag f) m3 →
         exec (.icinv x ch f t b o) s = .next (done (afterAll c m2 (c.flag f) (.icinv lo top) m3)))) ∧
  (let ord := if x.scope?.isNone then 4 else x.ord
   let sc := x.scope?.getD 3
   let scope := if ord ≥ 3 then sc else 0
   let m1 := releaseAt s.m c.who scope
   PreClass.mem.accepts x = true → 2 ≤ ord → ord ≤ 4 → sc ≤ 4 → x.offh = 0 → c.act ≠ 0 → afterRoom c s.m (c.flag f) m1 →
     exec (.fence x ch f) s = .next (done (afterAll c s.m (c.flag f) (.fence scope) m1)))

/-! ## 15: atomics -/

/-- 15 R341 to R350: an atomic word whose lanes pass every check performs its read-modify-write lane by lane upwards and is
outstanding; a returning atomic holds the old values for its destination, in the type; with a scalar destination the access is
one (the model's reading, notes/assumptions/9.md). That the access is performed when the word issues, or where its location is one
that a bank serves in its turn, is the model's choice (notes/assumptions/7.md, 35.md, 95.md).
15 R346, R348: what the integer operations write, from the old value p and the operands y and z, all of w bits; a failed
compare writes nothing.
15 R351, R352: a waitc whose lanes pass every check is outstanding with one monitor for each distinct address and value,
each arriving at its SYE in turn. -/
def Obligations.Atomics : Prop :=
  (∀ (x : Pre) (ch : Bool) (t : WTy) (q : ATy) (d a b : BitVec 7) (s : State) (gi vi : Nat) (v : Voice),
  let c := cxOf s gi vi v false x
  let run := fun (i : Instr) (u : AtomUse) (dd : Nat) =>
    let cls := if u.returns then destClass x .mem dd else .mem
    Ready s gi vi v cls → c.atomPre u.ords = true → c.atomOperands (if u.returns then some dd else none) a.toNat b.toNat = true →
    (u.op = .cas → c.pairOk b.toNat = true) → c.act ≠ 0 → (3 ≤ x.ord → earlierHeld s.m gi = false) →
    (u.returns = true → c.destStop dd = none) →
    ∀ m1 va m2 vb m3 vz all, c.read s.m 1 a.toNat = .ok (m1, va) → c.read m1 2 b.toNat = .ok (m2, vb) →
      (if u.op = .cas then c.read m2 3 (b.toNat + 1) else .ok (m2, fun _ => 0)) = .ok (m3, vz) →
      unlessHeld m3 gi u.n (judge (c.lanes.map fun l => (l, va l, checkAtomic m3 c.who u c.scope (va l).toNat))) = .ok all →
      let ls := if u.returns && (opdOf x 0 dd).isS then all.take 1 else all
      anyPoison m3 u.n ls = false →
      let low := fun (y : Word) => y.toNat % 2 ^ (8 * u.n)
      let r := atomAll u c.who c.scope (fun l => low (vb l)) (fun l => low (vz l)) ls (pinLocs (c.release m3) ls)
      let wr := if u.returns then c.wrOf dd (r.2.map fun p => (p.1, if u.n = 4 then lane32 u.sgn p.2 else BitVec.ofNat 64 p.2)) else ([], [])
      saturated (r.1.grp gi) (c.flag x.flg) = false →
      exec i s = .next (doneState s gi vi v cls x ch (outstandingIn r.1 gi vi v.word c.g.nextId (c.flag x.flg) wr.1 wr.2 .ready))
  let back := fun (op : AtomOp) => ({ op := op, sgn := wtSigned t, n := wtWidth t / 8, half := false, returns := true, ords := [0, 1, 2, 3, 4] } : AtomUse)
  let quiet := fun (op : AtomOp) => ({ back op with returns := false, ords := [0, 1, 3] } : AtomUse)
  let sum := fun (ret : Bool) => ({ op := .fadd, sgn := false, n := 4, half := q = .f16x2, returns := ret, ords := if ret then [0, 1, 2, 3, 4] else [0, 1, 3] } : AtomUse)
  (run (.atomAdd x ch t d a b) (back .add) d.toNat ∧ run (.atomMin x ch t d a b) (back .min) d.toNat ∧
    run (.atomMax x ch t d a b) (back .max) d.toNat ∧ run (.atomAnd x ch t d a b) (back .and) d.toNat ∧
    run (.atomOr x ch t d a b) (back .or) d.toNat ∧ run (.atomXor x ch t d a b) (back .xor) d.toNat ∧
    run (.atomExch x ch t d a b) (back .exch) d.toNat ∧ run (.atomc x ch t d a b) (back .cas) d.toNat) ∧
  (run (.redAdd x ch t a b) (quiet .add) 0 ∧ run (.redMin x ch t a b) (quiet .min) 0 ∧ run (.redMax x ch t a b) (quiet .max) 0 ∧
    run (.redAnd x ch t a b) (quiet .and) 0 ∧ run (.redOr x ch t a b) (quiet .or) 0 ∧ run (.redXor x ch t a b) (quiet .xor) 0) ∧
  run (.atomFadd x ch q d a b) (sum true) d.toNat ∧ run (.redFadd x ch q a b) (sum false) 0) ∧
  (∀ (sgn : Bool) (w p y z : Nat),
  let r := fun (n : Nat) => readInt sgn w n
  AtomOp.apply .add sgn w p y z = some ((p + y) % 2 ^ w) ∧
  (∀ o, AtomOp.apply .min sgn w p y z = some o → (o = p ∨ o = y) ∧ r o ≤ r p ∧ r o ≤ r y) ∧
  (∀ o, AtomOp.apply .max sgn w p y z = some o → (o = p ∨ o = y) ∧ r p ≤ r o ∧ r y ≤ r o) ∧
  AtomOp.apply .and sgn w p y z = some (p &&& y) ∧ AtomOp.apply .or sgn w p y z = some (p ||| y) ∧
  AtomOp.apply .xor sgn w p y z = some (p ^^^ y) ∧ AtomOp.apply .exch sgn w p y z = some y ∧
  (p = y → AtomOp.apply .cas sgn w p y z = some z) ∧ (p ≠ y → AtomOp.apply .cas sgn w p y z = none)) ∧
  (∀ (x : Pre) (ch : Bool) (t : WTy) (n : BitVec 4) (a b : BitVec 7) (s : State) (gi vi : Nat) (v : Voice),
  Ready s gi vi v .mem →
  let c := cxOf s gi vi v false x
  let size := wtWidth t / 8
  c.atomPre [0, 1, 2] = true → c.atomOperands none a.toNat b.toNat = true → 3 ≤ c.scope → n.toNat ≤ 5 → c.act ≠ 0 →
  ∀ m1 va m2 vb ls, c.read s.m 1 a.toNat = .ok (m1, va) → c.read m1 2 b.toNat = .ok (m2, vb) →
    unlessHeld m2 gi size (checkLanes m2 c.who .load size false (c.lanes.map fun l => (l, va l))) = .ok ls →
    (∀ l ∈ c.lanes, ∃ e pa, leafAt m2 c.who (va l).toNat = some (e, pa) ∧ bitsOf pa 44 2 = 0) → anyPoison m2 size ls = false →
    let keys := ls.filterMap fun l => match l.2 with
      | .mem key _ => some (l.1, key, BitVec.ofNat 64 ((vb l.1).toNat % 2 ^ (8 * size)))
      | _ => none
    let m3 := ls.foldl (fun m l => (atomLoc m c.who 3 size l.2).1) (pinLocs m2 ls)
    saturated (m3.grp gi) (c.flag x.flg) = false →
    exec (.waitc x ch t n a b) s = .next (doneState s gi vi v .mem x ch
      (((shareMonitors keys).map fun e => (Monitor.mk gi (m2.grp gi).nextId e.2.2 e.1 size n.toNat (wtSigned t) e.2.1 (decide (x.ord = 2)))).foldl arriveMonitor
        (outstandingIn m3 gi vi v.word c.g.nextId (c.flag x.flg) [] [] (.monitors keys.length)))))

/-! ## 06, 07: float instructions -/

/-- 07 R185 to R189, R193, R194: float words computed at issue: each position of d from the same position of the sources, read
under MODE.fzi, rounded by the word's rounding mode; the dot products take FP32 accumulators from c.
07 R187: fcmp sets pd to the truth of its condition on FP32 values, a NaN being unordered; conditions 8 to 15 raise
ILLEGAL_OP. -/
def Obligations.FloatArithmetic : Prop :=
  (∀ (x : Pre) (ch : Bool) (t : FTy) (h : HTy) (d a b : BitVec 7),
  let run := fun (i : Instr) (c round : Bool) (f : Fmt → FEnv → FVal → FVal → FVal → Nat × Exc) =>
    AluDone i .alu x ch (floatUse t c round false) d.toNat a.toNat b.toNat (floatFn t (f (ftFmt t)))
  let fh : FTy := if h = .f16x4 then .f16x4 else .bf16x4
  let dot := fun (ft : FTy) (v : FEnv) (p q r : Word) (c : Nat) (ns : List Nat) =>
    fusedSum .f32 v (readF .f32 v.fzi (elemOf r 32 c)) (ns.map (felem ft v p)) (ns.map (felem ft v q))
  run (.fadd x ch t d a b) false true (fun f v p q _ => addF f v p q) ∧
  run (.fsub x ch t d a b) false true (fun f v p q _ => addF f v p q.negate) ∧
  run (.fmul x ch t d a b) false true (fun f v p q _ => writeF f v (mulF p q)) ∧
  run (.ffma x ch t d a b) true true (fun f v p q r => fusedTerms f v [r, mulF p q]) ∧
  run (.fmin x ch t d a b) false false (fun f _ p q _ => minMaxF f false p q) ∧
  run (.fmax x ch t d a b) false false (fun f _ p q _ => minMaxF f true p q) ∧
  AluDone (.fclass x ch t d a) .alu x ch Use.da d.toNat a.toNat 0 (fun _ _ p _ _ =>
    floatLane t fun n => (classF (ftFmt t) (elemOf p (ftWidth t) n), 0)) ∧
  AluDone (.frnd x ch t d a) .alu x ch (floatUse1 t true false false) d.toNat a.toNat 0
    (floatFn t fun v p _ _ => frndF (ftFmt t) v.rm p) ∧
  AluDone (.fscale x ch t d a b) .alu x ch (floatUse t false true false) d.toNat a.toNat b.toNat (fun c _ p q _ =>
    floatLane t fun n => scaleF (ftFmt t) c.env (felem t c.env p n)
      (max (-600) (min 600 (toSigned (ftWidth t) (elemOf q (ftWidth t) n))))) ∧
  (t = .f32x2 → AluDone (.fdot2 x ch t d a b) .alu x ch (floatUse t true true false) d.toNat a.toNat b.toNat (fun c _ p q r =>
    (lane32 false (dot t c.env p q r 0 [0, 1]).1, (dot t c.env p q r 0 [0, 1]).2))) ∧
  (t ≠ .f32 → t ≠ .f32x2 → AluDone (.fdot2 x ch t d a b) .alu x ch (floatUse t true true false) d.toNat a.toNat b.toNat
    (fun c _ p q r =>
      (packElems 32 2 fun n => if n = 0 then (dot t c.env p q r 0 [0, 1]).1 else (dot t c.env p q r 1 [2, 3]).1,
        (dot t c.env p q r 0 [0, 1]).2 ||| (dot t c.env p q r 1 [2, 3]).2))) ∧
  AluDone (.fdot4 x ch h d a b) .alu x ch (floatUse fh true true false) d.toNat a.toNat b.toNat (fun c _ p q r =>
    (lane32 false (dot fh c.env p q r 0 [0, 1, 2, 3]).1, (dot fh c.env p q r 0 [0, 1, 2, 3]).2))) ∧
  (∀ (x : Pre) (ch : Bool) (n : BitVec 4) (p : BitVec 3) (a b : BitVec 7),
  (n.toNat ≤ 7 → PredDone (.fcmp x ch n p a b) x ch { Use.dab with d := false } p.toNat a.toNat b.toNat (fun c y z =>
    let u := felem .f32 c.env y 0
    let w := felem .f32 c.env z 0
    let un := u.isNan || w.isNan
    (match n.toNat with
      | 0 => !un && decide (cmpF u w = 0) | 1 => un || decide (cmpF u w ≠ 0) | 2 => !un && decide (cmpF u w < 0)
      | 3 => !un && decide (cmpF u w ≤ 0) | 4 => !un && decide (cmpF u w > 0) | 5 => !un && decide (cmpF u w ≥ 0)
      | 6 => un | _ => !un, if u.isSnan || w.isSnan then excIv else 0))) ∧
  (n.toNat > 7 → ∀ s gi vi v, Ready s gi vi v .alu →
    exec (.fcmp x ch n p a b) s =
      .next (causeState s gi vi v false x .illegalOp (cxOf s gi vi v false x).waddr (cxOf s gi vi v false x).act)))

/-- 07 R190 to R192, R195 to R197: the conversions write the positions of d that the part number names, and keep the others; a
part beyond the lane, an unknown type and a queue destination raise ILLEGAL_OP. That fpack takes no rounding field is read from
R183's default (notes/assumptions/77.md). -/
def Obligations.FloatConvert : Prop := ∀ (x : Pre) (ch : Bool) (t : FTy) (d a : BitVec 7) (h : BitVec 3) (k : BitVec 4) (j : BitVec 2),
  let st := ftOfCode j.toNat
  let it := tyOfCode k.toNat
  let fits := fun (cd cs : Nat) => h.toNat * min cd cs + min cd cs ≤ max cd cs ∧ (cd = cs → h.toNat = 0)
  let u := { Use.da with rnd := true, sat := true }
  let w := ftWidth t
  let n := ftCount t
  PartDone (.fcvt x ch t d a h j) .alu x ch u d.toNat a.toNat (fits n (ftCount st)) (fun c p old =>
    partLane w n false (ftWidth st) (ftCount st) h.toNat (fun e => match readF (ftFmt st) c.env.fzi e with
      | .nan sg => ((ftFmt t).nan, if sg then excIv else 0)
      | y => writeF (ftFmt t) c.env y) p old) ∧
  PartDone (.ftoi x ch t d a h k) .alu x ch { Use.da with rnd := true } d.toNat a.toNat (k.toNat ≤ 9 ∧ fits (tyCount it) n)
    (fun c p old => partLane (tyWidth it) (tyCount it) (tySigned it) w n h.toNat
      (fun e => ftoiF (tySigned it) (tyWidth it) c.env.rm (readF (ftFmt t) c.env.fzi e)) p old) ∧
  PartDone (.itof x ch t d a h k) .alu x ch u d.toNat a.toNat (k.toNat ≤ 9 ∧ fits n (tyCount it))
    (fun c p old => partLane w n false (tyWidth it) (tyCount it) h.toNat
      (fun e => itofF (ftFmt t) c.env (readInt (tySigned it) (tyWidth it) e)) p old) ∧
  PartDone (.fpackTf8 x ch t d a h) .xfu x ch Use.da d.toNat a.toNat (h.toNat * n + n ≤ 8)
    (fun c p old => packLane tf8 8 t h.toNat c.env p old) ∧
  PartDone (.fpackTf6 x ch t d a h) .xfu x ch Use.da d.toNat a.toNat (h.toNat * n + n ≤ 8)
    (fun c p old => packLane tf6 6 t h.toNat c.env p old) ∧
  PartDone (.funpackTf8 x ch t d a h) .xfu x ch u d.toNat a.toNat (h.toNat * n + n ≤ 8)
    (fun c p _ => unpackLane tf8 8 t h.toNat c.env p) ∧
  PartDone (.funpackTf6 x ch t d a h) .xfu x ch u d.toNat a.toNat (h.toNat * n + n ≤ 8)
    (fun c p _ => unpackLane tf6 6 t h.toNat c.env p)

/-- 07 R198 to R201: division, square root and the special functions are long-latency: the result of each position is held
outstanding for d. -/
def Obligations.FloatLongLatency : Prop := ∀ (x : Pre) (ch : Bool) (t : FTy) (d a b : BitVec 7),
  let f := ftFmt t
  let one := fun (i : Instr) (sat : Bool) (g : FEnv → Nat → Nat × Exc) =>
    LongDone i x ch { Use.da with sat := sat, long := true } d.toNat a.toNat 0 (fun c _ p _ _ =>
      floatLane t fun n => g c.env (elemOf p (ftWidth t) n))
  LongDone (.fdiv x ch t d a b) x ch (floatUse t false true true) d.toNat a.toNat b.toNat
    (floatFn t fun v p q _ => divF f v p q) ∧
  LongDone (.fsqrt x ch t d a) x ch (floatUse1 t true false true) d.toNat a.toNat 0 (floatFn t fun v p _ _ => sqrtF f v p) ∧
  one (.frcp x ch t d a) true (frcpF f) ∧ one (.frsq x ch t d a) false (frsqF f) ∧
  one (.fexp2 x ch t d a) true (specialF 4 f) ∧ one (.flog2 x ch t d a) false (specialF 5 f) ∧
  one (.fsin x ch t d a) false (specialF 6 f) ∧ one (.fcos x ch t d a) false (specialF 7 f) ∧
  one (.ftanh x ch t d a) false (specialF 8 f)

/-- 06 R161, R176, 07 R185, R186, R198, R201: the float results that no rounding decides: NaN, infinities and zeros. -/
def Obligations.FloatSpecialResults : Prop := ∀ (f : Fmt) (v : FEnv) (p q : FVal) (n k : Bool) (m : Nat) (e : Int),
  let r1 := fun (z : Nat × Exc) => z.1
  (p.isNan = true ∨ q.isNan = true → r1 (addF f v p q) = f.nan ∧ r1 (writeF f v (mulF p q)) = f.nan ∧ r1 (divF f v p q) = f.nan) ∧
  (p.isNan = true → r1 (sqrtF f v p) = f.nan ∧ (q.isNan = false → r1 (minMaxF f k p q) = r1 (writeF f .rne q))) ∧
  addF f v (.inf n) (.inf (!n)) = (f.nan, excIv) ∧ addF f v (.inf n) (.inf n) = (f.infBits n, 0) ∧
  addF f v (.inf n) (.fin k m e) = (f.infBits n, 0) ∧
  writeF f v (mulF (.inf n) (.fin k 0 e)) = (f.nan, excIv) ∧
  (m ≠ 0 → writeF f v (mulF (.inf n) (.fin k m e)) = (f.infBits (n != k), 0) ∧
    divF f v (.fin n m e) (.fin k 0 e) = (f.infBits (n != k), excDz) ∧
    sqrtF f v (.fin true m e) = (f.nan, excIv)) ∧
  divF f v (.fin n 0 e) (.fin k 0 e) = (f.nan, excIv) ∧ divF f v (.inf n) (.inf k) = (f.nan, excIv) ∧
  sqrtF f v (.fin n 0 e) = (signBit f n, 0) ∧ sqrtF f v (.inf false) = (f.infBits false, 0) ∧
  (∀ b, readF f v.fzi b = .fin n 0 e → frcpF f v b = (f.infBits n, excDz) ∧ frsqF f v b = (f.infBits n, excDz) ∧
    specialF 5 f v b = (f.infBits true, excDz) ∧ specialF 6 f v b = (signBit f n, 0) ∧ specialF 8 f v b = (signBit f n, 0)) ∧
  (∀ b, readF f v.fzi b = .inf n → frcpF f v b = (signBit f n, 0) ∧ specialF 6 f v b = (f.nan, excIv) ∧ specialF 7 f v b = (f.nan, excIv))

/-! ## 09, 11: queues, barrier objects, circular buffers, ring tags and barriers -/

/-- 11 R261, R262, R267 to R271, 09 R212, 01 R11: a push of four scalars, and ldtile's counted tile-load, whose slot is FILLING from
then on: the elements join the queue when the chain has issued, where they have room; a
binding of an empty queue to a free endpoint; the count, state and closed bit that qcnt reads; barrier objects set, raised and
waited for. Any other queue state raises QUEUE_STATE with the queue's number.
11 R272 to R274: cbinit makes a buffer of free slots; cbacq waits in turn for a filled slot; cbrel frees the oldest acquired
slot; cbstat reads the counters. While accesses that the group issued before a cbrel are to be performed, a record of it stays with the
group. A bobwait completes at once when its object's word is met at issue. A word on a buffer that was not initialised, or with nothing to release, is ILLEGAL_OP.
That qcnt's closed bit is set for a receiving end alone is the model's reading (notes/assumptions/45.md). -/
def Obligations.QueuesAndBuffers : Prop :=
  (∀ (x : Pre) (ch f : Bool) (q : BitVec 3) (a b : BitVec 7),
  let n := q.toNat
  let y := fun (c : Cx) (m : Mach) => qGet (m.grp c.gi) n
  let free := fun (c : Cx) => c.fourOk a.toNat = true ∧ c.scalarsBusy a.toNat 4 = false
  let push := fun (c : Cx) (m : Mach) (es : List (Word × Origin)) =>
    m.setGrp c.gi { m.grp c.gi with outq := (m.grp c.gi).outq ++ [(n, es)] }
  let regs := fun (c : Cx) (m : Mach) => (List.range 4).map fun i => scalVal m.fresh c.base c.gi (c.sNum 1 a.toNat + i)
  let data := fun (ws : List Word) => ws.map fun w => (w, Origin.data)
  let binds := fun (i : Instr) (op : Option Nat) (legal : Cx → Nat → Prop) (e : Nat → Bind) =>
    QDone i .mem x ch op none (fun c m va _ => legal c va.toNat ∧ qCount m c.gi n = 0 ∧ bindFree m c.gi n (e va.toNat) = true)
      (fun c m va _ => let m1 := bindEnd (unbindQ m c.gi n) c.gi n (e va.toNat)
        m1.setGrp c.gi (qSet (m1.grp c.gi) n { qGet (m1.grp c.gi) n with bind := e va.toNat })) ∧
    QTraps i .mem x op none (fun c m va _ => legal c va.toNat ∧ (qCount m c.gi n ≠ 0 ∨ bindFree m c.gi n (e va.toNat) = false))
      .queueState (fun _ _ _ => BitVec.ofNat 64 n)
  let any := fun (_ : Cx) (_ : Nat) => True
  let op := some a.toNat
  let obj := fun (c : Cx) (m : Mach) (va : Word) => va.toNat % 16 = 0 ∧ bitsOf va.toNat 28 4 = 15 ∧ va.toNat < 2 ^ 32 ∧
    bitsOf va.toNat 20 8 = 0 ∧ (m.team c.g.team).place ≠ .complete ∧ bitsOf va.toNat 0 20 + 16 ≤ spadSize m c.g.team
  let at' := fun (va : Word) => bitsOf va.toNat 0 20
  (QDone (.qpush x ch q a) .mem x ch op none (fun c _ _ _ => free c ∧ mayPush c.base c.gi n = true)
      (fun c m _ _ => push c m (data (regs c m))) ∧
    QTraps (.qpush x ch q a) .mem x op none (fun c _ _ _ => free c ∧ mayPush c.base c.gi n = false)
      .queueState (fun _ _ _ => BitVec.ofNat 64 n)) ∧
  (let tile := fun (c : Cx) (m : Mach) => free c ∧ isGeo c.g.die = false ∧ wb ((regs c m).getD 0 0) 56 8 = 4 ∧ (y c m).bind = .cmd ∧
     mayPush c.base c.gi n = true
   let k := fun (c : Cx) (m : Mach) => wb ((regs c m).getD 2 0) 0 6
   QDone (.ldtile x ch q a) .mem x ch op none (fun c m _ _ => tile c m ∧ wb ((regs c m).getD 0 0) 53 1 = 1)
     (fun c m _ _ => push c m (data (regs c m))) ∧
   QDone (.ldtile x ch q a) .mem x ch op none (fun c m _ _ => tile c m ∧ wb ((regs c m).getD 0 0) 53 1 = 0 ∧
       fillable (slotOf m c.g (k c m)) c.g.team = true)
     (fun c m _ _ => push c (setSlot m c.g (k c m) { slotOf m c.g (k c m) with state := 2 })
       (((regs c m).getD 0 0, Origin.tile) :: data ((regs c m).drop 1))) ∧
   QTraps (.ldtile x ch q a) .mem x op none (fun c m _ _ => tile c m ∧ wb ((regs c m).getD 0 0) 53 1 = 0 ∧
       fillable (slotOf m c.g (k c m)) c.g.team = false ∧ m.fresh = c.base.fresh) .slotState (fun c _ _ => BitVec.ofNat 64 (wb ((regs c c.base).getD 2 0) 0 6))) ∧
  (binds (.qbindNone x ch q) none any (fun _ => .unbound) ∧ binds (.qbindCmd x ch q) none any (fun _ => .cmd) ∧
    binds (.qbindTok x ch q) none any (fun _ => .tok) ∧
    binds (.qbindEng x ch q a) op (fun c e => 1 ≤ e ∧ e ≤ 5 ∧ (isGeo c.g.die = true → e = 2)) (fun e => .eng e) ∧
    binds (.qbindLsend x ch q a) op (fun _ e => e ≤ 31) (fun e => .lsend e) ∧
    binds (.qbindLrecv x ch q a) op (fun _ e => e ≤ 31) (fun e => .lrecv e)) ∧
  QDone (.qcnt x ch q a) .ctl x ch op none (fun _ _ _ _ => True) (fun c m _ _ =>
    let state := match (y c m).bind with | .unbound => 0 | .cmd => 2 | .lsend _ => 2 | _ => 1
    let closed := match (y c m).bind with | .lrecv k => (linkOf (m.team (m.grp c.gi).team) k).closed | _ => false
    m.setGrp c.gi (writeScal (m.grp c.gi) (c.sNum 1 a.toNat)
      (BitVec.ofNat 64 (boolNat closed * 64 + state * 16 + qCount m c.gi n)))) ∧
  QDone (.bobinit x ch a b) .mem x ch op (some b.toNat) (fun c m va vb => obj c m va ∧ wb vb 40 24 = 0 ∧ fenceHeld m c.gi = false)
    (fun c m va vb => putBob (setBob m c.g.team (at' va + 8) 0) c.g.team (at' va) vb) ∧
  QDone (.bobadd x ch a b) .mem x ch op (some b.toNat) (fun c m va vb => obj c m va ∧ wb vb 40 24 = 0 ∧ fenceHeld m c.gi = false)
    (fun c m va vb => putBob m c.g.team (at' va) (bobSum (bobWord m c.g.team (at' va)) vb.toNat)) ∧
  (let w0 := fun (c : Cx) (m : Mach) (va : Word) => bobWord m c.g.team (at' va)
   let met := fun (c : Cx) (m : Mach) (va : Word) => wb (w0 c m va) 0 40 = 0 ∨ wb (w0 c m va) 63 1 = 1
   let sound := fun (c : Cx) (m : Mach) (va : Word) => obj c m va ∧ poisoned m (spadKey c.g.team (at' va)) 8 = false ∧ room c m (c.flag f)
   QDone (.bobwait x ch f a b) .ctl x ch op (some b.toNat) (fun c m va _ => sound c m va ∧ met c m va)
     (fun c m va _ => out c m (c.flag f) [.scal (c.sNum 2 b.toNat) (w0 c m va)] [128 + c.sNum 2 b.toNat] .ready) ∧
   QDone (.bobwait x ch f a b) .ctl x ch op (some b.toNat) (fun c m va _ => sound c m va ∧ ¬met c m va)
     (fun c m va _ => out c m (c.flag f) [] [128 + c.sNum 2 b.toNat] (.bob (at' va) (c.sNum 2 b.toNat)))) ∧
  QTraps (.bobadd x ch a b) .mem x op (some b.toNat) (fun _ _ va vb => wb vb 40 24 = 0 ∧ va.toNat % 16 ≠ 0) .misalign (fun _ va _ => va) ∧
  QTraps (.bobadd x ch a b) .mem x op (some b.toNat) (fun c m va vb => wb vb 40 24 = 0 ∧ va.toNat % 16 = 0 ∧ ¬obj c m va) .prot
    (fun _ va _ => va)) ∧
  (∀ (x : Pre) (ch f : Bool) (a b : BitVec 7) (n : BitVec 3), n.toNat < 4 →
  let op := some a.toNat
  let buf := fun (c : Cx) (m : Mach) => cbOf (m.team c.g.team) n.toNat
  let idle := fun (c : Cx) (m : Mach) => ∀ k, buf c m = some k → k.busy = [] ∧ k.acq = 0
  let clean := fun (vb : Word) => 1 ≤ wb vb 0 8 ∧ wb vb 0 8 ≤ 64 ∧ wb vb 9 7 = 0 ∧ wb vb 32 32 = 0
  let waiters := fun (c : Cx) (m : Mach) => ((buf c m).map fun k => k.waiting).getD []
  let made := fun (c : Cx) (m : Mach) (base : Nat) (vb : Word) (kind : Bool) =>
    setCb m c.g.team n.toNat {
      base := base, nslots := wb vb 0 8, kind := kind, ssz := wb vb 16 16, free := wb vb 0 8, filled := 0,
      acq := 0, fill := 0, acqi := 0, busy := [], waiting := waiters c m }
  QDone (.cbinit x ch a b n) .mem x ch op (some b.toNat) (fun c m va vb => idle c m ∧ clean vb ∧ wb vb 8 1 = 0 ∧
      1 ≤ wb vb 16 16 ∧ va.toNat % 256 = 0 ∧ checkSpad m c.who 1 va.toNat = .ok (.spad c.g.team (bitsOf va.toNat 0 20)) ∧
      bitsOf va.toNat 0 20 + 256 * wb vb 16 16 * wb vb 0 8 ≤ spadSize m c.g.team)
    (fun c m va vb => made c m (bitsOf va.toNat 0 20) vb false) ∧
  QDone (.cbinit x ch a b n) .mem x ch op (some b.toNat) (fun c m va vb => idle c m ∧ clean vb ∧ wb vb 8 1 = 1 ∧ wb vb 16 16 = 0 ∧
      va.toNat + wb vb 0 8 ≤ 64 ∧
      ∀ i < wb vb 0 8, (slotOf m c.g (va.toNat + i)).team = c.g.team ∧ (slotOf m c.g (va.toNat + i)).state = 1)
    (fun c m va vb => made c m va.toNat vb true) ∧
  QDone (.cbacq x ch f a n) .ctl x ch op none (fun c m _ _ => (buf c m).isSome ∧ room c m (c.flag f)) (fun c m _ _ =>
    match buf c m with
    | some k => setCb (out c m (c.flag f) [] [128 + c.sNum 1 a.toNat] (.cbacq n.toNat (c.sNum 1 a.toNat))) c.g.team n.toNat
        { k with waiting := k.waiting ++ [(c.gi, (m.grp c.gi).nextId)] }
    | none => m) ∧
  QDone (.cbrel x ch n) .mem x ch none none (fun c m _ _ => ∃ k, buf c m = some k ∧ k.acq ≠ 0) (fun c m _ _ =>
    match buf c m with
    | some k =>
      let i := k.base + (k.acqi + k.nslots - k.acq % k.nslots) % k.nslots
      let m1 := if k.kind = true ∧ (slotOf m c.g i).team = c.g.team ∧ (slotOf m c.g i).state ≠ 0
        then setSlot m c.g i { slotOf m c.g i with state := 1, f := 0 } else m
      let m2 := setCb m1 c.g.team n.toNat { k with acq := k.acq - 1, free := k.free + 1 }
      if accessesHeld m2 c.gi (m2.grp c.gi).nextId true then out c m2 none [] [] (.held (.cbrel n.toNat)) else m2
    | none => m) ∧
  QDone (.cbstat x ch a n) .ctl x ch op none (fun _ _ _ _ => True) (fun c m _ _ =>
    m.setGrp c.gi (writeScal (m.grp c.gi) (c.sNum 1 a.toNat) (match buf c m with
      | none => 0
      | some k => BitVec.ofNat 64
          (k.acqi * 2 ^ 40 + k.fill * 2 ^ 32 + k.nslots * 2 ^ 24 + k.acq * 2 ^ 16 + k.filled * 2 ^ 8 + k.free)))) ∧
  QTraps (.cbrel x ch n) .mem x none none (fun c m _ _ => ∀ k, buf c m = some k → k.acq = 0) .illegalOp (fun c _ _ => c.waddr) ∧
  QTraps (.cbacq x ch f a n) .ctl x op none (fun c m _ _ => buf c m = none) .illegalOp (fun c _ _ => c.waddr)) ∧
  (∀ (m : Mach) (gi n : Nat) (es : List (Word × Origin)), gi < m.groups.length → (m.grp gi).outq = [(n, es)] →
  let g := m.grp gi
  let y := qGet g n
  y.bind = .cmd →
  (es = [] → pushOut m gi = if 8 ≤ y.elems.length then none else some (m.setGrp gi { g with outq := [] })) ∧
  (es ≠ [] → y.elems.length + es.length ≤ 8 → pushOut m gi = some (m.setGrp gi (qSet { g with outq := [] } n { y with elems := y.elems ++ es }))) ∧
  (es ≠ [] → 8 < y.elems.length + es.length → pushOut m gi = none))

/-- 11 R275, R281, R282, 04 R112: a ring tag is compared and set as one access, and the word returns the old tag and whether it
matched; an arrival raises a barrier's count, and the last of a phase completes it, clearing PROG in every group of its teams;
an arrival at a cluster's barrier makes what its core wrote and saw visible to the cluster;
while accesses that the group issued before it are to be performed the arrival waits for them, recorded with the group, its count
fixed (notes/assumptions/102.md, the model's choice).
bar.wait waits for the phase of the group's last arrival; a group that never arrived raises ILLEGAL_OP. -/
def Obligations.TagsAndBarriers : Prop := ∀ (x : Pre) (ch f k : Bool) (a b : BitVec 7) (n : BitVec 3),
  let clu := b.getLsbD 6
  let cnt := bitsOf b.toNat 0 6
  let teams := fun (c : Cx) (m : Mach) => if clu then (m.team c.g.team).cluster else [c.g.team]
  let goal := fun (c : Cx) (m : Mach) =>
    if cnt = 0 then (m.grid (m.grp c.gi).grid).lr.grps * (if clu then (m.team c.g.team).cluster.length else 1) else cnt
  let bar := fun (c : Cx) (m : Mach) => barOf m c.g.team clu n.toNat
  let rel := fun (c : Cx) (m : Mach) => if clu then releaseAt m (whoGroup m c.gi) 2 else m
  let fits := fun (c : Cx) (m : Mach) => (clu = true ∨ cnt ≤ 32) ∧ ((bar c m).c = none ∨ (bar c m).c = some b.toNat)
  let before := fun (c : Cx) (m : Mach) => accessesHeld m c.gi (m.grp c.gi).nextId true
  let legal := fun (c : Cx) (m : Mach) => fits c m ∧ before c m = false ∧ (m.grp c.gi).team = c.g.team
  let noted := fun (c : Cx) (m : Mach) => m.setGrp c.gi
    { m.grp c.gi with
      arrived := Tbl.put (m.grp c.gi).arrived (2 * n.toNat + boolNat clu) (bar c m).phase
      outst := (m.grp c.gi).outst.map fun o => match o.wait with
        | .bar i cl _ => if i = n.toNat && cl = clu && (m.grp c.gi).nextId < o.id then { o with wait := .bar i cl (bar c m).phase } else o
        | _ => o }
  QDone (.barArr x ch b n) .mem x ch none none (fun c m _ _ => legal c m ∧ (bar c m).count + 1 < goal c m)
    (fun c m _ _ => setBar (noted c (rel c m)) c.g.team clu n.toNat { bar c m with c := some b.toNat, count := (bar c m).count + 1 }) ∧
  QDone (.barArr x ch b n) .mem x ch none none (fun c m _ _ => legal c m ∧ goal c m ≤ (bar c m).count + 1)
    (fun c m _ _ =>
      let m1 := setBar (noted c (rel c m)) c.g.team clu n.toNat { c := none, count := 0, phase := (bar c m).phase + 1 }
      { m1 with groups := m1.groups.map fun g => if (teams c m).contains g.team then { g with prog := 0 } else g }) ∧
  QDone (.barArr x ch b n) .mem x ch none none (fun c m _ _ => fits c m ∧ before c m = true)
    (fun c m _ _ => out c (setBar m c.g.team clu n.toNat { bar c m with c := some b.toNat }) none [] []
      (.held (.barArr n.toNat clu b.toNat))) ∧
  QTraps (.barArr x ch b n) .mem x none none (fun c m _ _ => (clu = false ∧ 32 < cnt) ∨ ((bar c m).c ≠ none ∧ (bar c m).c ≠ some b.toNat))
    .illegalOp (fun c _ _ => c.waddr) ∧
  QDone (.barWait x ch f k n) .mem x ch none none
    (fun c m _ _ => ((m.grp c.gi).arrived.find? fun e => e.1 = 2 * n.toNat + boolNat k).isSome ∧ room c m (c.flag f))
    (fun c m _ _ => out c m (c.flag f) [] []
      (.bar n.toNat k (((m.grp c.gi).arrived.find? fun e => e.1 = 2 * n.toNat + boolNat k).getD (0, 0)).2)) ∧
  (let none' := fun (c : Cx) (m : Mach) => ((m.grp c.gi).arrived.find? fun e => e.1 = 2 * n.toNat + boolNat k) = none
   let due := fun (c : Cx) (m : Mach) => arrivalHeld (m.grp c.gi) n.toNat k (m.grp c.gi).nextId
   QDone (.barWait x ch f k n) .mem x ch none none (fun c m _ _ => none' c m ∧ due c m = true ∧ room c m (c.flag f))
     (fun c m _ _ => out c m (c.flag f) [] [] (.bar n.toNat k 0)) ∧
   QTraps (.barWait x ch f k n) .mem x none none (fun c m _ _ => none' c m ∧ due c m = false) .illegalOp (fun c _ _ => c.waddr)) ∧
  (∀ (s : State) (gi vi : Nat) (v : Voice), Ready s gi vi v .ctl →
    let c := cxOf s gi vi v false x
    c.qOk (some a.toNat) (some b.toNat) = true → c.act ≠ 0 →
    ∀ va vb, c.readS s.m 1 (some a.toNat) = .ok va → c.readS s.m 2 (some b.toNat) = .ok vb →
      wb vb 16 48 = 0 → wb vb 0 8 ≤ 3 → wb vb 8 8 ≤ 3 → earlierHeld s.m gi = false →
      ∀ l ls, unlessHeld s.m gi 1 (checkLanes s.m c.who .atomic 1 false (c.lanes.map fun l => (l, va))) = .ok (l :: ls) → seePoison s.m 1 l.2 = false →
        let r := atomLoc (flushC1 (pinLocs s.m (l :: ls)) c.g.die c.g.core) c.who 3 1 l.2
        let w := atomWho r.1 c.who 3
        let old := seeNum r.1 w 1 r.2
        let m2 := if old = wb vb 0 8 then doAtomic r.1 c.who 3 1 (wb vb 8 8) r.2 else r.1
        saturated (m2.grp gi) (c.flag f) = false →
        exec (.rtag x ch f a b) s = .next (doneState s gi vi v .ctl x ch (out c m2 (c.flag f)
          [.scal (c.sNum 2 b.toNat) (BitVec.ofNat 64 (boolNat (decide (old = wb vb 0 8)) * 256 + old))] [128 + c.sNum 2 b.toNat] .ready)))

/-! ## 14, 15: halo exchange and collectives; 10, 11: shadows; 04, 09: launches and claims -/

/-- 14 R333 to R339, 15 R355 to R357: halo.decl of a tile that passes every check makes its replicas, once the accesses that its group
issued before it are performed, and is outstanding; a release
raises the generation and is outstanding until its last delivery; a wait asks for a generation; a drop removes the handle and
releases at device scope; a coll
whose record passes its address checks is outstanding, its record running or failed with the error found. -/
def Obligations.HaloAndCollective : Prop := ∀ (x : Pre) (ch f : Bool) (a b : BitVec 7) (o : BitVec 3),
  let op := some a.toNat
  let nth := fun (va : Word) => wb va 0 3
  let held := fun (c : Cx) (m : Mach) (va : Word) => if wb va 3 61 = 0 then haloOf m c.g.team (nth va) else none
  let regs := fun (c : Cx) (m : Mach) => (List.range 4).map fun i => scalVal m.fresh c.base c.gi (c.sNum 1 a.toNat + i)
  let pages := fun (c : Cx) (m : Mach) => (tilePages (regs c m)).map fun p => tilePage m c.who (max p (hBase (regs c m)))
  let placed := fun (c : Cx) (m : Mach) => setHalo m c.g.team (hHandle (regs c m))
    { desc := regs c m, decl := (c.gi, (m.grp c.gi).nextId), filled := false
      pages := ((tilePages (regs c m)).zip (pages c m)).filterMap fun e => match e.2 with
        | .ok (.mem key _) => some (e.1 / 2 ^ 16, key / 2 ^ 16)
        | _ => none
      gen := 0, out := none, snap := [], keys := [], repl := [], got := [], waited := 0 }
  let tiles := fun (c : Cx) (m : Mach) => (List.range m.teams.length).flatMap fun u =>
    if (m.team u).grid = (m.team c.g.team).grid then (m.team u).halos.map fun h => h.2.desc else []
  QDone (.haloDecl x ch f a) .mem x ch op none (fun c m _ _ =>
      let d := regs c m
      c.fourOk a.toNat = true ∧ c.scalarsBusy a.toNat 4 = false ∧ haloFields d (m.team c.g.team).rank = true ∧
      haloOf m c.g.team (hHandle d) = none ∧ hBase d % 128 = 0 ∧
      (∀ r ∈ pages c m, ∃ key leaf, r = .ok (.mem key leaf)) ∧ (tiles c m).any (tilesMeet d) = false ∧
      (∀ k < 4, haloRank d k ≠ 15 → (haloMate m c.g.team d k).isSome) ∧
      (∀ k ∈ haloDirs d, ∀ u, haloMate m c.g.team d k = some u → replicaFits m u (linesTo m c.g.team d u) = true) ∧
      afterRoom c (placed c m) (c.flag f) (fillHalo (placed c m) c.gi (hHandle d)))
    (fun c m _ _ => afterAll c (placed c m) (c.flag f) (.haloDecl (hHandle (regs c m)))
      (fillHalo (placed c m) c.gi (hHandle (regs c m)))) ∧
  QDone (.haloRel x ch f a) .mem x ch op none (fun c m va _ =>
      (∃ h, held c m va = some h ∧ h.out = none) ∧ room c m (c.flag f))
    (fun c m va _ => match held c m va with
      | some h => setHalo (out c m (c.flag f) [] [] (.haloRel (nth va) (h.gen + 1))) c.g.team (nth va)
          { h with gen := h.gen + 1, out := some (c.gi, (m.grp c.gi).nextId, false) }
      | none => m) ∧
  QDone (.haloWait x ch f a b) .mem x ch op (some b.toNat) (fun c m va vb =>
      (held c m va).isSome ∧ wb vb 32 32 = 0 ∧ room c m (c.flag f))
    (fun c m va vb => match held c m va with
      | some h => out c (setHalo m c.g.team (nth va) { h with waited := max h.waited vb.toNat }) (c.flag f) [] []
          (.haloWait (nth va) vb.toNat)
      | none => m) ∧
  QDone (.haloDrop x ch f a) .mem x ch op none (fun c m va _ => (held c m va).isSome ∧
      afterRoom c (dropHalo m c.g.team (nth va)) (c.flag f) (releaseAt (dropHalo m c.g.team (nth va)) c.who 3))
    (fun c m va _ => afterAll c (dropHalo m c.g.team (nth va)) (c.flag f) (.fence 3)
      (releaseAt (dropHalo m c.g.team (nth va)) c.who 3)) ∧
  (QTraps (.haloRel x ch f a) .mem x op none (fun c m va _ => held c m va = none) .illegalOp (fun c _ _ => c.waddr) ∧
    QTraps (.haloDrop x ch f a) .mem x op none (fun c m va _ => held c m va = none) .illegalOp (fun c _ _ => c.waddr) ∧
    QTraps (.haloWait x ch f a b) .mem x op (some b.toNat) (fun c m va vb => held c m va = none ∨ wb vb 32 32 ≠ 0) .illegalOp
      (fun c _ _ => c.waddr)) ∧
  (o.toNat ≤ 5 → ∀ (s : State) (gi vi : Nat) (v : Voice), Ready s gi vi v .mem →
    let c := cxOf s gi vi v false x
    let w := whoEngine c.base gi c.g.die
    c.qOk op none = true → c.act ≠ 0 → ∀ va, c.readS s.m 1 op = .ok va → earlierHeld s.m gi = false → tableHeld s.m w va = [] →
    ∀ l key leaf ls, unlessHeld s.m gi 64 (checkLanes s.m w .atomic 64 false (c.lanes.map fun l => (l, va))) = .ok ((l, .mem key leaf) :: ls) →
      let we := whoEngine c.base gi (collDie s.m w key)
      let m0 := pinTable (flushC1 (pinLocs s.m [(l, .mem key leaf)]) c.g.die c.g.core) we va
      saturated (m0.grp gi) (c.flag f) = false →
      let k := s.m.colls.length
      let m1 := out c m0 (c.flag f) [] [] (.coll k)
      let r := parseColl m1 we gi (s.m.grp gi).nextId o.toNat va key
      let m2 := { m1 with colls := m1.colls ++ [joinColl m1 r.1] }
      exec (.coll x ch f a o) s = .next (doneState s gi vi v .mem x ch
        (if r.2 = 0 then takeStaging (writeColl m2 r.1 0 1) k else closeColl m2 k r.2)))

/-- 11 R277 to R280, 10 R252: shopen opens an entry over the buffer's pages, with the read pages the old entry had, and copies the
pages first where .init says so (of the read pages, where there are some), with what the grid's own cores hold of them; an entry keyed
by the same pages, in whatever order they are mapped now, is the one reopened. publish makes the written pages the read pages, what its
core wrote and saw visible first; shdrop drops them, and both drop every TLB and walker entry of the buffer; commit publishes and
discard drops the shadows of an ended speculative grid once, the result 1 for no such grid, 2 while it runs, 3 once settled or killed.
That shopen ignores bits 63:48 of its address, and which shadows a speculative grid owns, are the model's choices
(notes/assumptions/48.md, 10.md). -/
def Obligations.ShadowWords : Prop := ∀ (x : Pre) (ch f i : Bool) (a b : BitVec 7),
  let op := some a.toNat
  let entry := fun (c : Cx) (m : Mach) (va : Word) =>
    let here := (m.part c.who.part).shadows.filter fun sh => sh.ctx = c.who.ctx && sh.va = wb va 16 32 * 2 ^ 16
    (here.find? fun sh => sh.isOpen).orElse fun _ => here.head?
  let change := fun (c : Cx) (m : Mach) (sh : Shadow) (g : Shadow → Option Shadow) =>
    dropPages (m.setPart c.who.part { m.part c.who.part with
      shadows := (m.part c.who.part).shadows.filterMap fun e => if e = sh then g e else some e }) c.who.part sh
  let none' := fun (g : Word → Word) => (fun (_ : Cx) (va _ : Word) => g va)
  let opened := fun (c : Cx) (m : Mach) (va vb : Word) =>
    let n := wb va 0 14 + 1
    let keys := walkPages m c.who (rangeWalks m c.who (wb va 16 32 * 2 ^ 16) n)
    let wp := walkPages m c.who (rangeWalks m c.who vb.toNat n)
    let p := m.part c.who.part
    let near := p.shadows.filter fun sh => meets sh.pages keys || meets sh.pages wp
    let same := near.head?
    let old := (same.map Shadow.rp).getD []
    let pages := (same.map Shadow.pages).getD keys
    let m1 := m.setPart c.who.part { p with
      shadows := (p.shadows.filter fun sh => !samePages sh.pages keys) ++
        [{ ctx := c.who.ctx, va := wb va 16 32 * 2 ^ 16, pages := pages, rp := old, wp := backingOf keys wp pages, isOpen := true,
           grid := c.who.grid, team := c.who.team }] }
    let mine := fun (k : Nat) => (List.range m.teams.length).any fun t =>
      (m.team t).grid = c.who.grid && (m.team t).place = .resident && 64 * (m.team t).die + (m.team t).core = k
    if i then copyPages m1 mine (if old = [] then pages else old) (backingOf keys wp pages) else m1
  QDone (.shopen x ch f a b i) .mem x ch op (some b.toNat) (fun c m va vb =>
      let n := wb va 0 14 + 1
      let buf := rangeWalks m c.who (wb va 16 32 * 2 ^ 16) n
      let back := rangeWalks m c.who vb.toNat n
      let keys := walkPages m c.who buf
      let wp := walkPages m c.who back
      let near := (m.part c.who.part).shadows.filter fun sh => meets sh.pages keys || meets sh.pages wp
      wb va 14 2 = 0 ∧ vb.toNat % 2 ^ 16 = 0 ∧ windowPage (wb va 16 32 * 2 ^ 16) n = none ∧ windowPage vb.toNat n = none ∧
      rangeStop c.who none buf back = none ∧ meets keys wp = false ∧
      (∀ sh ∈ near, sh.isOpen = false ∧ samePages sh.pages keys = true) ∧ (near = [] → (m.part c.who.part).shadows.length < 256) ∧
      (vb.toNat + n * 2 ^ 16 ≤ wb va 16 32 * 2 ^ 16 ∨ wb va 16 32 * 2 ^ 16 + n * 2 ^ 16 ≤ vb.toNat) ∧
      room c (opened c m va vb) (c.flag f))
    (fun c m va vb => out c (opened c m va vb) (c.flag f) [] [] .ready) ∧
  QDone (.publish x ch f a) .mem x ch op none (fun c m va _ => earlierHeld m c.gi = false ∧
      ∃ sh, entry c m va = some sh ∧ sh.isOpen = true ∧ room c (change c (releaseAt m c.who 4) sh fun e => some { e with rp := e.wp, wp := [], isOpen := false }) (c.flag f))
    (fun c m va _ => match entry c m va with
      | some sh => out c (change c (releaseAt m c.who 4) sh fun e => some { e with rp := e.wp, wp := [], isOpen := false }) (c.flag f) [] [] .ready
      | none => m) ∧
  QDone (.shdrop x ch f a) .mem x ch op none (fun c m va _ => (entry c m va).isSome ∧ room c m (c.flag f))
    (fun c m va _ => match entry c m va with
      | some sh => out c (change c m sh fun e =>
          if e.isOpen = true ∧ e.rp ≠ [] then some { e with isOpen := false, wp := [] } else none) (c.flag f) [] [] .ready
      | none => m) ∧
  (QTraps (.publish x ch f a) .mem x op none (fun c m va _ => ∀ sh, entry c m va = some sh → sh.isOpen = false) .prot (none' id) ∧
    QTraps (.shdrop x ch f a) .mem x op none (fun c m va _ => entry c m va = none) .prot (none' id)) ∧
  (let settle := fun (i : Instr) (rel : Bool) (act : Mach → Nat → Mach) =>
    ∀ (s : State) (gi vi : Nat) (v : Voice), Ready s gi vi v .ctl →
      let c := cxOf s gi vi v false x
      c.qOk op (some b.toNat) = true → c.act ≠ 0 → (rel = true → earlierHeld s.m gi = false) →
      ∀ va vb, c.readS s.m 1 op = .ok va → c.readS s.m 2 (some b.toNat) = .ok vb →
        let m := if rel then releaseAt s.m c.who 4 else s.m
        let r := match specGrid m c.who va with
          | none => (m, 1)
          | some g =>
            if (m.grid g).settled = true ∨ (m.grid g).killed = true then (m, 3)
            else if (m.grid g).ended = false then (m, 2)
            else ((act m g).setGrid g { (act m g).grid g with settled := true }, 0)
        saturated (r.1.grp gi) (c.flag f) = false →
        exec i s = .next (doneState s gi vi v .ctl x ch (out c r.1 (c.flag f)
          [.scal (c.sNum 2 b.toNat) (BitVec.ofNat 64 r.2)] [128 + c.sNum 2 b.toNat] .ready))
   settle (.commit x ch f a b) true publishShadows ∧ settle (.discard x ch f a b) false dropShadows)

/-- 04 R121, R125 to R128, 09 R222 to R224: launch and task release the group's stores, judge the record, and leave the grid
queued with status accepted, or the record refused with the lowest reason that applies; take hands out the next chunk of the
team's interval; claim waits for quarters, or is done at once at or below the count; give lowers the vector count, or does nothing at
or above it; either is ILLEGAL_OP where a member of its chain names a register at or beyond the count left. -/
def Obligations.LaunchAndClaim : Prop := ∀ (x : Pre) (ch f : Bool) (a b : BitVec 7),
  let op := some a.toNat
  let starts := fun (i : Instr) (range : Bool) =>
    ∀ (s : State) (gi vi : Nat) (v : Voice), Ready s gi vi v .mem →
      let c := cxOf s gi vi v false x
      let w := whoEngine c.base gi c.g.die
      c.qOk op none = true → c.act ≠ 0 → ∀ va, c.readS s.m 1 op = .ok va → earlierHeld s.m gi = false →
      ∀ l, checkRecord s.m w va.toNat = .ok l → saturated ((flushC1 s.m c.g.die c.g.core).grp gi) (c.flag f) = false →
        let m1 := out c (flushC1 s.m c.g.die c.g.core) (c.flag f) [] [] .ready
        let done := fun (m : Mach) => exec i s = .next (doneState s gi vi v .mem x ch m)
        (∀ k, judgeLaunch m1 { who := w, task := range, rcp := false } va.toNat = .ok (.error k) →
          done (putStatus m1 w va.toNat (statusWord 2 k 0))) ∧
        (∀ gd, judgeLaunch m1 { who := w, task := range, rcp := false } va.toNat = .ok (.ok gd) →
          let m2 := putStatus (takeTail { m1 with grids := m1.grids ++ [gd] } m1.grids.length) w va.toNat (statusWord 1 0 0)
          let n := 8 * gd.lr.cls + gd.lr.prio
          done (m2.setPart gd.part { m2.part gd.part with
            queues := Tbl.set [] (m2.part gd.part).queues n (Tbl.get [] (m2.part gd.part).queues n ++ [.grid m1.grids.length]) }))
  starts (.launch x ch f a) false ∧ starts (.task x ch f a) true ∧
  QDone (.take x ch a b) .ctl x ch op (some b.toNat) (fun c _ _ _ => c.sNum 1 a.toNat ≠ c.sNum 2 b.toNat ∧ c.grid.task = true)
    (fun c m _ _ =>
      let t := m.team c.g.team
      let n := if t.h ≤ t.f then 0 else min c.grid.lr.grain (t.h - t.f)
      let m1 := m.setTeam c.g.team { t with f := t.f + n }
      m1.setGrp c.gi (writeScal (writeScal (m1.grp c.gi) (c.sNum 1 a.toNat) (BitVec.ofNat 64 (if t.h ≤ t.f then t.h else t.f)))
        (c.sNum 2 b.toNat) (BitVec.ofNat 64 n))) ∧
  (∀ (s : State) (gi vi : Nat) (v : Voice), Ready s gi vi v .mem →
    let c := cxOf s gi vi v false x
    let g := s.m.grp gi
    let n := b.toNat
    let done := fun (i : Instr) (m : Mach) => exec i s = .next (doneState s gi vi v .mem x ch m)
    let stop := fun (i : Instr) (k : Cause) (addr : Word) => exec i s = .next (causeState s gi vi v false x k addr c.act)
    c.kind0 false = true → c.act ≠ 0 →
    (n ≤ 96 → n % 8 = 0 → 8 ≤ n → claimOf g = none → c.chainNames (max n g.nv) = false → saturated g (c.flag f) = false →
      (n ≤ g.nv → done (.claim x ch f b) (out c s.m (c.flag f) [] [] .ready)) ∧
      (g.nv < n →
        let m1 := out c s.m (c.flag f) [] [] (.claim n)
        let k := m1.core g.die g.core
        done (.claim x ch f b) (m1.setCore g.die g.core { k with claims := k.claims ++ [gi] }))) ∧
    (96 < n → stop (.claim x ch f b) .claimLimit (BitVec.ofNat 64 n)) ∧
    (n ≤ 96 → (n % 8 ≠ 0 ∨ n < 8 ∨ claimOf g ≠ none) → stop (.claim x ch f b) .illegalOp c.waddr) ∧
    (n % 8 = 0 → 8 ≤ n → claimOf g = none → g.nv ≤ n → c.chainNames g.nv = false → done (.give x ch b) s.m) ∧
    (n % 8 = 0 → 8 ≤ n → claimOf g = none → c.chainNames (min n g.nv) = true → stop (.give x ch b) .illegalOp c.waddr) ∧
    (n % 8 = 0 → 8 ≤ n → claimOf g = none → n < g.nv → (∀ y ∈ c.grid.hdr.syms, y.1 < n) → c.copingNames n = false →
      c.chainNames n = false →
      done (.give x ch b) (s.m.setGrp gi { g with
        nv := n, v := g.v.filter fun e => e.1 < 64 * n,
        outst := g.outst.map fun o => { o with cap := min o.cap n } })) ∧
    ((n % 8 ≠ 0 ∨ n < 8 ∨ claimOf g ≠ none) → stop (.give x ch b) .illegalOp c.waddr))

/-! ## 12: matrix words -/

/-- 12 R288 to R307: with room in the engine: claims of slots and tiles join the core's requests; releases take effect at issue;
a layout register takes six scalars; a loop, a scale, a zeroing, a read, a write and a tile store whose checks all pass take their
place at the end of the engine order; mxsp waits for the group's next sparse loop; mxcnt reads the conflict count and .clr zeroes
it. With 32 words in the engine order a matrix word waits, before any check. -/
def Obligations.MatrixWords : Prop := ∀ (x : Pre) (ch f : Bool) (a b : BitVec 7) (n : BitVec 2) (q e : BitVec 3),
  let op := some a.toNat
  let ob := some b.toNat
  let able := fun (c : Cx) (m : Mach) => isGeo c.g.die = false ∧ compatG c.base c.g = false ∧ (m.core c.g.die c.g.core).mx.length < 32
  let first := fun (va : Word) => wb va 0 6
  let len := fun (va : Word) => wb va 8 6 + 1
  let run := fun (va : Word) => (List.range (len va)).map fun i => first va + i
  let legal := fun (va : Word) => wb va 6 2 = 0 ∧ wb va 14 50 = 0 ∧ first va + len va ≤ 64
  let owns := fun (c : Cx) (m : Mach) (t : Nat) => Tbl.get 0 (m.core c.g.die c.g.core).tiles t = c.g.team + 1
  let asks := fun (c : Cx) (m : Mach) (acc : Bool) (va : Word) (fill : Nat) =>
    let m1 := out c m (c.flag f) [] [] .slots
    let k := m1.core c.g.die c.g.core
    m1.setCore c.g.die c.g.core { k with
      reqs := k.reqs ++ [{ grp := c.gi, id := (m.grp c.gi).nextId, acc := acc, first := first va, n := len va, e := fill }] }
  let joins := fun (c : Cx) (m : Mach) (flag : Option Nat) (dsts : List Nat) (w : MxWork) =>
    pushMx (out c m flag [] dsts .mx) c.g { grp := c.gi, id := some (m.grp c.gi).nextId, seq := (m.grp c.gi).nextId, work := w }
  let now := fun (c : Cx) (m : Mach) (w : MxWork) => pushMx m c.g { grp := c.gi, id := none, seq := (m.grp c.gi).nextId, work := w }
  let cell := fun (va : Word) => wb va 6 2 = 0 ∧ wb va 15 1 = 0 ∧ wb va 23 41 = 0 ∧ wb va 16 1 = 0
  let vec := fun (c : Cx) => c.vecB b.toNat = true ∧ busyReg c.base c.gi c.vi b.toNat = false
  QDone (.slclaim x ch f a) .mem x ch op none (fun c m va _ => able c m ∧ wb va 6 2 = 0 ∧ wb va 14 2 = 0 ∧ wb va 27 37 = 0 ∧
      first va + len va ≤ 64 ∧ 1 ≤ wb va 16 11 ∧ wb va 16 11 ≤ 1024 ∧
      (∀ i ∈ run va, (slotOf m c.g i).team = c.g.team → (slotOf m c.g i).state = 0) ∧ room c m (c.flag f))
    (fun c m va _ => asks c m false va (16 * wb va 16 11)) ∧
  QDone (.acclaim x ch f a) .mem x ch op none (fun c m va _ => able c m ∧ legal va ∧ (∀ i ∈ run va, ¬owns c m i) ∧ room c m (c.flag f))
    (fun c m va _ => asks c m true va 0) ∧
  (let hold := fun (c : Cx) (m : Mach) (va : Word) => able c m ∧ legal va ∧
     ∀ i ∈ run va, (slotOf m c.g i).team = c.g.team ∧ (slotOf m c.g i).state ≠ 0
   QDone (.slrelFree x ch a) .mem x ch op none (fun c m va _ => hold c m va) (fun c m va _ =>
     (run va).foldl (fun m i => setSlot m c.g i { state := 0, team := 0, e := 0, f := 0 }) m) ∧
   QDone (.slrelReset x ch a) .mem x ch op none (fun c m va _ => hold c m va) (fun c m va _ =>
     (run va).foldl (fun m i => setSlot m c.g i { slotOf m c.g i with state := 1, f := 0 }) m)) ∧
  QDone (.acrel x ch a) .mem x ch op none (fun c m va _ => able c m ∧ legal va ∧ ∀ i ∈ run va, owns c m i) (fun c m va _ =>
    let k := m.core c.g.die c.g.core
    now c (m.setCore c.g.die c.g.core { k with
      tiles := k.tiles.filter fun t => t.1 < first va || first va + len va ≤ t.1 }) (.acrel va)) ∧
  QDone (.mxlay x ch a n) .mem x ch op none
    (fun c m _ _ => able c m ∧ c.sNum 1 a.toNat + 5 < c.g.ns ∧ c.scalarsBusy a.toNat 6 = false)
    (fun c m _ _ => m.setGrp c.gi { m.grp c.gi with
      ly := (List.range 6).foldl (fun t i => Tbl.set 0 t (6 * n.toNat + i) ((c.scalars m a.toNat 6).getD i 0)) (m.grp c.gi).ly }) ∧
  (let loop := fun (c : Cx) (m : Mach) (va vb : Word) =>
     let g := m.grp c.gi
     let d := loopOf va vb e.toNat
     (d, layOf g (wb va 8 2), layOf g (wb va 10 2), if d.sparse then g.mxsp else none)
   QDone (.mxloop x ch f q a b e) .mem x ch op ob (fun c m va vb =>
       let l := loop c m va vb
       let token : Bool := wb va 30 1 = 1
       able c m ∧ e.toNat ≤ 4 ∧ wb va 31 33 = 0 ∧ wb va 12 4 = 0 ∧ wb va 6 2 = 0 ∧ 1 ≤ l.1.steps ∧ l.1.steps ≤ 1024 ∧
       (token = false → q = 0) ∧ loopCombo va e.toNat l.1 l.2.1 l.2.2.1 l.2.2.2 = false ∧
       (token = true → (qGet (m.grp c.gi) q.toNat).bind = .eng 1) ∧
       (∀ i < 64, bitAt (loopSlots l.1 l.2.1 l.2.2.1 l.2.2.2) i = true → 
         (slotOf m (m.grp c.gi) i).team = (m.grp c.gi).team ∧ (slotOf m (m.grp c.gi) i).state = 3) ∧
       holdsTile m (m.grp c.gi) l.1.tile = true ∧ room c m (c.flag f))
     (fun c m va vb =>
       let l := loop c m va vb
       let g := m.grp c.gi
       let m1 := joins c m (c.flag f) [] (.loop va vb e.toNat q.toNat g.mxseq 0 l.2.1 l.2.2.1 l.2.2.2 (loopSlots l.1 l.2.1 l.2.2.1 l.2.2.2))
       m1.setGrp c.gi { m1.grp c.gi with
         mxseq := ((m1.grp c.gi).mxseq + 1) % 2 ^ 16, mxsp := if l.1.sparse then none else (m1.grp c.gi).mxsp })) ∧
  QDone (.mxsc x ch f a b) .mem x ch op ob (fun c m va vb => able c m ∧ wb va 6 2 = 0 ∧ wb va 14 2 = 0 ∧ wb va 18 46 = 0 ∧
      wb va 16 2 ≠ 3 ∧ wb va 0 6 ≠ wb va 8 6 ∧ vb.toNat % 4 = 0 ∧ wb vb 28 4 = 15 ∧ wb vb 32 32 = 0 ∧ wb vb 20 8 = 0 ∧
      wb vb 0 20 + 1024 ≤ spadSize m c.g.team ∧ owns c m (wb va 0 6) ∧ owns c m (wb va 8 6) ∧ room c m (c.flag f))
    (fun c m va vb => joins c m (c.flag f) [] (.sc va vb)) ∧
  QDone (.mxz x ch f a) .mem x ch op none (fun c m va _ => able c m ∧ legal va ∧ (∀ i ∈ run va, owns c m i) ∧ room c m (c.flag f))
    (fun c m va _ => joins c m (c.flag f) [] (.z va)) ∧
  QDone (.mxrd x ch f a b) .mem x ch op none
    (fun c m va _ => able c m ∧ vec c ∧ cell va ∧ owns c m (first va) ∧ room c m (c.regFlag f))
    (fun c m va _ => joins c m (c.regFlag f) [b.toNat] (.rd va b.toNat c.lanes)) ∧
  QDone (.mxwr x ch a b) .mem x ch op none (fun c m va _ => able c m ∧ vec c ∧ cell va ∧ owns c m (first va))
    (fun c m va _ => now c m (.wr va (c.lanes.map fun l => (l, vecVal m.fresh c.base c.gi b.toNat l)))) ∧
  QDone (.mxsp x ch a b) .mem x ch op ob (fun c m va vb => able c m ∧ wb va 20 44 = 0 ∧ wb vb 32 32 = 0)
    (fun c m va vb => m.setGrp c.gi { m.grp c.gi with mxsp := some (va, vb) }) ∧
  (let count := fun (c : Cx) (m : Mach) => writeScal (m.grp c.gi) (c.sNum 1 a.toNat) (BitVec.ofNat 64 (m.grp c.gi).conflicts)
   QDone (.mxcnt x ch a) .ctl x ch op none (fun c m _ _ => able c m) (fun c m _ _ => m.setGrp c.gi (count c m)) ∧
   QDone (.mxcntClr x ch a) .ctl x ch op none (fun c m _ _ => able c m) (fun c m _ _ =>
     let m1 := m.setGrp c.gi { m.grp c.gi with conflicts := 0 }
     m1.setGrp c.gi (writeScal (m1.grp c.gi) (c.sNum 1 a.toNat) (BitVec.ofNat 64 (m.grp c.gi).conflicts)))) ∧
  (∀ (s : State) (gi vi : Nat) (v : Voice), Ready s gi vi v .mem →
    let c := cxOf s gi vi v false x
    c.stPre a.toNat b.toNat = true → c.sOk 1 a.toNat = true → c.sOk 2 b.toNat = true → c.pre.rnd ≤ 5 → able c s.m → c.act ≠ 0 →
    ∀ va vb, c.readS s.m 1 op = .ok va → c.readS s.m 2 ob = .ok vb →
      let t := tileSt va
      let work := fun (k : Nat) => MxWork.st va vb (rmOf c.g.mode c.pre.rnd) (c.pre.sat || wb c.g.mode 5 1 = 1) k
      wb va 48 16 = 0 → wb va 16 8 = 0 → wb va 11 1 = 0 → wb va 6 2 = 0 → t.fmt ≤ 4 → t.stride % 16 = 0 → wb va 8 2 ≠ 3 →
      owns c s.m t.tile →
      (t.toStore = false → vb.toNat % 16 = 0 → (∀ u ∈ stUnits t vb, ∃ l, checkVa s.m c.who .store 1 false u.1 = .ok l) →
        room c s.m (c.flag f) →
        exec (.mxst x ch f a b) s = .next (doneState s gi vi v .mem x ch (joins c s.m (c.flag f) [] (work 0)))) ∧
      (t.toStore = true → (∀ i < t.rows, wb vb 0 20 + i * t.stride + t.bytes ≤ 2 ^ 20) →
        (∀ o ∈ (s.m.core c.g.die c.g.core).mx, (s.m.grp o.grp).team = c.g.team → ∀ d1 d2 d3 d4 d5 d6 d7 d8 d9 k,
          o.work = .loop d1 d2 d3 d4 d5 d6 d7 d8 d9 k → ∀ i ∈ slotList (stSlots t vb), bitAt k i = false) →
        (∀ i ∈ slotList (stSlots t vb), fillable (slotOf s.m c.g i) c.g.team = true) →
        let m1 := (slotList (stSlots t vb)).foldl (fun m i =>
          setSlot m c.g i { slotOf m c.g i with state := 2 }) s.m
        room c m1 (c.flag f) →
        exec (.mxst x ch f a b) s = .next (doneState s gi vi v .mem x ch (joins c m1 (c.flag f) [] (work (stSlots t vb)))))) ∧
  (let waits := fun (i : Instr) (cls : Pipe) => ∀ (s : State) (gi vi : Nat) (v : Voice), Ready s gi vi v cls →
     let c := cxOf s gi vi v false x
     c.act ≠ 0 → 32 ≤ (s.m.core c.g.die c.g.core).mx.length → exec i s = .next (stallState s gi vi v false x)
   waits (.slclaim x ch f a) .mem ∧ waits (.acclaim x ch f a) .mem ∧ waits (.slrelFree x ch a) .mem ∧ waits (.acrel x ch a) .mem ∧
   waits (.mxloop x ch f q a b e) .mem ∧ waits (.mxsc x ch f a b) .mem ∧ waits (.mxz x ch f a) .mem ∧ waits (.mxrd x ch f a b) .mem ∧
   waits (.mxwr x ch a b) .mem ∧ waits (.mxst x ch f a b) .mem ∧ waits (.mxcnt x ch a) .ctl)

/-! ## 16: tree words -/

/-- 16 R366 to R381: a tree word whose descriptor addresses pass their checks is outstanding, and its requests stand at the end of
the order of the engine of the die that homes each descriptor, its group's earlier stores visible: one request for a whole word,
one for each active lane, in ascending order, for a descent, a backup and a read. Where an access that its group issued before it
is still to be performed, each request waits for it (16 R377). -/
def Obligations.TreeWords : Prop := ∀ (x : Pre) (ch f k : Bool) (q w : BitVec 3) (a b : BitVec 7)
    (s : State) (gi vi : Nat) (v : Voice),
  let c := cxOf s gi vi v false x
  let op := some a.toNat
  let queue := if k then some q.toNat else none
  let bound := queue.all fun n => (qGet (s.m.grp gi) n).bind = .eng 2
  let quiet := compatG c.base c.g = false ∧ c.act ≠ 0 ∧ bound = true
  let who := c.whoDesc
  let id := (s.m.grp gi).nextId
  let late := fun (m : Mach) => accessesHeld m gi (m.grp gi).nextId true
  let seen := fun (m : Mach) => if late m then m else flushC1 m c.g.die c.g.core
  let sent := fun (m : Mach) (flag : Option Nat) (dsts : List Nat) (rs : List (Nat × TsReq)) =>
    submitTs (out c (seen m) flag [] dsts .ts) (rs.map fun r => (r.1, { r.2 with late := late m }))
  let room' := fun (m : Mach) (flag : Option Nat) => saturated ((seen m).grp gi) flag = false
  let req := fun (id : Nat) (d : Word) (n : Option Nat) (t : TsWork) =>
    ({ grp := gi, id := id, desc := d, q := n, work := t, walk := none, begun := false, late := false } : TsReq)
  let tree := fun (m : Mach) (perm : Bool) (va : Word) (l : Loc) => checkDesc m who perm va.toNat = .ok l
  let whole := fun (i : Instr) (ob : Option Nat) (limit : Nat) (work : Word → TsWork) =>
    c.qOk op ob = true → ∀ va vb, c.readS s.m 1 op = .ok va → c.readS s.m 2 ob = .ok vb → vb.toNat < limit →
    ∀ l, tree s.m true va l → c.grid.lr.spec = false → room' s.m (c.flag f) →
      exec i s = .next (doneState s gi vi v .mem x ch (sent s.m (c.flag f) []
        [(locDie s.m l, req id va queue (work vb))]))
  let each := fun (m : Mach) (va : Nat → Word) (ls : List (Nat × Loc)) =>
    judge (c.lanes.map fun l => (l, va l, checkDesc m who true (va l).toNat)) = .ok ls
  let lanes := fun (m : Mach) (flag : Option Nat) (dsts : List Nat) (va : Nat → Word) (work : Nat → TsWork) (ls : List (Nat × Loc)) =>
    sent m flag dsts (ls.map fun l => (locDie m l.2, req (m.grp gi).nextId (va l.1) none (work l.1)))
  (Ready s gi vi v .mem → quiet → (k = true ∨ q = 0) →
    whole (.tsinit x ch f q a k) none (2 ^ 64) (fun _ => .init) ∧ whole (.tsroot x ch f q a b k) (some b.toNat) 64 .root ∧
    whole (.tsfree x ch f q a b k) (some b.toNat) (2 ^ 32) .free ∧
    (c.qOk op none = true → ∀ va, c.readS s.m 1 op = .ok va →
      ∀ l ls, checkLanes s.m who .load 32 false [((lanesOf c.act).headD 0, va)] = .ok (l :: ls) →
        anyPoison s.m 8 (l :: ls) = false →
        let d := BitVec.ofNat 64 (seeNum s.m who 8 l.2)
        let m1 := touchLines (pinLocs s.m (l :: ls)) who false 8 (l :: ls)
        (queue.all fun n => (qGet (m1.grp gi) n).bind = .eng 2) = true →
        ∀ t, tree m1 true ((d.truncate 48).zeroExtend 64) t → c.grid.lr.spec = false → room' m1 (c.flag f) →
          exec (.tsexp x ch f q a k) s = .next (doneState s gi vi v .mem x ch (sent m1 (c.flag f) []
            [(locDie m1 t, req (m1.grp gi).nextId d queue (.exp va))])))) ∧
  (Ready s gi vi v .ctl → compatG c.base c.g = false → c.act ≠ 0 → c.qOk op (some b.toNat) = true →
    ∀ va vb, c.readS s.m 1 op = .ok va → c.readS s.m 2 (some b.toNat) = .ok vb → ∀ l, tree s.m false va l → room' s.m (c.regFlag f) →
      exec (.tsstat x ch f a b w) s = .next (doneState s gi vi v .ctl x ch (sent s.m (c.regFlag f) [128 + c.sNum 2 b.toNat]
        [(locDie s.m l, req id va none (.stat w.toNat (c.sNum 2 b.toNat)))]))) ∧
  (Ready s gi vi v .mem → compatG c.base c.g = false → c.act ≠ 0 → c.grid.lr.spec = false → c.vsOk 1 a.toNat false = true →
    ∀ m1 va, c.read s.m 1 a.toNat = .ok (m1, va) →
    (c.tsPre false op none = true → c.vecB b.toNat = true → busyReg c.base gi vi b.toNat = false →
      ∀ ls, each m1 va ls → room' m1 (c.flag f) →
        exec (.tsdesc x ch f a b) s = .next (doneState s gi vi v .mem x ch (lanes m1 (c.flag f) [b.toNat] va
          (fun l => .desc l b.toNat) ls))) ∧
    (c.tsPre true op none = true → c.vecB b.toNat = true → c.cOk = true → w.toNat ≤ 4 → busyReg c.base gi vi b.toNat = false →
      ∀ m2 vc, c.readC m1 = .ok (m2, vc) →
      ∀ ls, each m2 va ls → room' m2 (c.regFlag f) →
        exec (.tsrd x ch f a b w) s = .next (doneState s gi vi v .mem x ch (lanes m2 (c.regFlag f) [b.toNat] va
          (fun l => .rd w.toNat l b.toNat (wb (vc l) 0 32)) ls))) ∧
    (c.tsPre true op (some b.toNat) = true → c.vsOk 2 b.toNat true = true → c.cOk = true →
      ∀ m2 vb m3 vc, c.read m1 2 b.toNat = .ok (m2, vb) → c.readC m2 = .ok (m3, vc) →
      ∀ ls, each m3 va ls → room' m3 (c.flag f) →
        exec (.tsback x ch f a b) s = .next (doneState s gi vi v .mem x ch (lanes m3 (c.flag f) [] va
          (fun l => .back l (vb l) ((vc l).truncate 32)) ls))))

/-! ## 19, 20: graphics and rays -/

/-- 19 R403 to R412: packets emitted one a lane, in ascending order, none yet accepted; a mark raised once its word completes; a
commit of a region's tokens by the die that owns it; a map bound, or refused with 1 or 2; a region transfer, or its refusal with 1,
2 or 3; coverage and barycentric weights of three vertices at each lane's pixel.
19 R412: a pixel is covered only by a triangle of nonzero area, and the order of its vertices does not matter to that; two
triangles on the two sides of an edge never both cover a pixel whose centre lies on it.
That a misaligned map is refused with 2 is the model's choice (notes/assumptions/19.md). -/
def Obligations.GraphicsWords : Prop :=
  (∀ (x : Pre) (ch f : Bool) (a b : BitVec 7) (n : BitVec 3),
  let op := some a.toNat
  let ob := some b.toNat
  let shading := fun (c : Cx) => isGeo c.g.die = false ∧ compatG c.base c.g = false
  let geometry := fun (c : Cx) => isGeo c.g.die = true ∧ compatG c.base c.g = false
  let answer := fun (c : Cx) (m : Mach) (v : Nat) =>
    out c m (c.flag f) [.scal (c.sNum 2 b.toNat) (BitVec.ofNat 64 v)] [128 + c.sNum 2 b.toNat] .ready
  let cells := fun (h : List Nat) => (bitsOf (h.getD 0 0) 0 8 + 1) * (bitsOf (h.getD 0 0) 8 8 + 1)
  (∀ (s : State) (gi vi : Nat) (v : Voice), Ready s gi vi v .mem →
    let c := cxOf s gi vi v false x
    let ws := fun (l : Nat) => (List.range 8).map fun k => vecVal s.m.fresh c.base gi (a.toNat + k) l
    c.plainPre none none = true → c.runOk 1 a.toNat 8 = true → compatG c.base c.g = false → c.act ≠ 0 → c.vecsBusy a.toNat 8 = false →
    ((∀ l ∈ c.lanes, packetBad (ws l) = false) → room c s.m (c.flag f) →
      let m1 := out c s.m (c.flag f) [] [] .sxb
      exec (.mvemit x ch f a) s = .next (doneState s gi vi v .mem x ch (m1.setPart c.grid.part { m1.part c.grid.part with
        packets := (m1.part c.grid.part).packets ++ c.lanes.map fun l =>
          { die := c.g.die, words := ws l, src := (gi, (s.m.grp gi).nextId), accepted := false } }))) ∧
    ((∃ l ∈ c.lanes, packetBad (ws l) = true) →
      exec (.mvemit x ch f a) s = .next (causeState s gi vi v false x .illegalOp c.waddr
        (maskOf (c.lanes.filter fun l => packetBad (ws l)))))) ∧
  QDone (.seqtkHw x ch f a) .mem x ch op none (fun c m va _ => geometry c ∧ wb va 40 24 = 0 ∧ room c m (c.flag f))
    (fun c m va _ => out c m (c.flag f) [] [] (.mark va.toNat)) ∧
  QDone (.seqtkCommit x ch a) .mem x ch op none (fun c m va _ => shading c ∧
      ∃ ps, (m.part c.grid.part).pass = some ps ∧ (entryOf ps (wb va 40 16)).map entryDie = some c.g.die)
    (fun c m va _ => match (m.part c.grid.part).pass with
      | some ps => m.setPart c.grid.part { m.part c.grid.part with
          pass := some { ps with
            uncommitted := Tbl.set [] ps.uncommitted (wb va 40 16)
              ((uncommitted ps (wb va 40 16)).filter fun t => wb va 0 40 < t) } }
      | none => m) ∧
  QTraps (.seqtkCommit x ch a) .mem x op none (fun c m va _ => shading c ∧
      ∀ ps, (m.part c.grid.part).pass = some ps → (entryOf ps (wb va 40 16)).map entryDie ≠ some c.g.die)
    .regionOwner (fun _ va _ => BitVec.ofNat 64 (wb va 40 16)) ∧
  (∀ (s : State) (gi vi : Nat) (v : Voice), Ready s gi vi v .ctl →
    let c := cxOf s gi vi v false x
    let done := fun (m : Mach) => exec (.regionBind x ch f a b) s = .next (doneState s gi vi v .ctl x ch m)
    c.qOk op ob = true → shading c → c.grid.lr.priv = true → c.act ≠ 0 →
    ∀ va vb, c.readS s.m 1 op = .ok va → c.readS s.m 2 ob = .ok vb → room c s.m (c.flag f) →
      (va.toNat % 128 ≠ 0 → done (answer c s.m 2)) ∧
      (va.toNat % 128 = 0 → ∀ h, mapWords s.m c.who va.toNat 8 16 = .ok (some h) →
        (mapBad h = true → done (answer c s.m 1)) ∧
        (mapBad h = false → ∀ es, mapWords s.m c.who (va.toNat + 0x80) 4 (cells h) = .ok (some es) →
          (es.any entryBad = true → done (answer c s.m 1)) ∧
          (es.any entryBad = false → done (out c s.m (c.flag f) [] [128 + c.sNum 2 b.toNat]
            (.bind va (c.sNum 2 b.toNat) (h.map (BitVec.ofNat 64)) (es.map (BitVec.ofNat 32))))))) ∧
      (va.toNat % 128 = 0 → mapWords s.m c.who va.toNat 8 16 = .ok none → done (answer c s.m 2)) ∧
      (va.toNat % 128 = 0 → ∀ h, mapWords s.m c.who va.toNat 8 16 = .ok (some h) → mapBad h = false →
        mapWords s.m c.who (va.toNat + 0x80) 4 (cells h) = .ok none → done (answer c s.m 2))) ∧
  (QTraps (.regionBind x ch f a b) .ctl x op ob (fun c _ _ _ => shading c ∧ c.grid.lr.priv = false) .prot (fun _ _ _ => 0) ∧
    QTraps (.regionXfer x ch f a b) .ctl x op ob (fun c _ _ _ => shading c ∧ c.grid.lr.priv = false) .prot (fun _ _ _ => 0)) ∧
  (let able := fun (c : Cx) (m : Mach) => shading c ∧ c.grid.lr.priv = true ∧ room c m (c.flag f)
   let inside := fun (ps : Pass) (r : Nat) => r % 256 ≤ wb (ps.hdr.getD 0 0) 0 8 ∧ r / 256 ≤ wb (ps.hdr.getD 0 0) 8 8
   let fit := fun (c : Cx) (m : Mach) (e : Nat) => bitAt e 31 = true ∧ m.pk.has (bitsOf e 24 4) = true ∧
     isShading (bitsOf e 24 4) = true ∧ partOf m.pk (bitsOf e 24 4) 0 = c.grid.part
   let i := Instr.regionXfer x ch f a b
   QDone i .ctl x ch op ob (fun c m _ _ => able c m ∧ (m.part c.grid.part).pass = none) (fun c m _ _ => answer c m 1) ∧
   QDone i .ctl x ch op ob (fun c m va _ => able c m ∧ ∃ ps, (m.part c.grid.part).pass = some ps ∧ ¬inside ps (wb va 0 16))
     (fun c m _ _ => answer c m 2) ∧
   QDone i .ctl x ch op ob (fun c m va vb => able c m ∧ (∃ ps, (m.part c.grid.part).pass = some ps ∧ inside ps (wb va 0 16)) ∧
     ¬fit c m (wb vb 0 32)) (fun c m _ _ => answer c m 3) ∧
   QDone i .ctl x ch op ob (fun c m va vb => able c m ∧ (∃ ps, (m.part c.grid.part).pass = some ps ∧ inside ps (wb va 0 16)) ∧
     fit c m (wb vb 0 32)) (fun c m va vb =>
       let m1 := out c m (c.flag f) [] [128 + c.sNum 2 b.toNat] (.xfer (wb va 0 16) (BitVec.ofNat 64 (wb vb 0 32)) (c.sNum 2 b.toNat))
       m1.setPart c.grid.part { m1.part c.grid.part with
         moving := (m1.part c.grid.part).moving ++ [(wb va 0 16, c.gi, (m.grp c.gi).nextId)] })) ∧
  (∀ (s : State) (gi vi : Nat) (v : Voice), Ready s gi vi v .alu →
    let c := cxOf s gi vi v false x
    let bo := opdOf c.pre 2 b.toNat
    c.thirdRunOk 1 = true → c.sOk 1 a.toNat = true → c.sNum 1 a.toNat + 2 < c.g.ns → (bo.isV = true ∨ bo.isM = true) →
    bo.exists? c.g = true → shading c → c.act ≠ 0 → c.scalarsBusy a.toNat 3 = false → busyReg c.base gi vi c.third = false →
    ∀ m1 vb, c.read s.m 2 b.toNat = .ok (m1, vb) →
      let vs := (c.scalars s.m a.toNat 3).map fun y => (toSigned 24 (wb y 0 24), toSigned 24 (wb y 32 24))
      let one := fun (l : Nat) => coverAt (vs.getD 0 default) (vs.getD 1 default) (vs.getD 2 default) (wb (vb l) 0 16) (wb (vb l) 16 16)
      let g := writeVec (m1.grp gi) c.third (c.lanes.map fun l => (l, (one l).2))
      let hit := maskOf (c.lanes.filter fun l => (one l).1)
      exec (.cover x ch a b n) s = .next (doneState s gi vi v .alu x ch (m1.setGrp gi (if n.toNat = 7 then g
        else { g with p := Tbl.set 0 g.p n.toNat ((Tbl.get 0 g.p n.toNat &&& ~~~c.act) ||| hit) }))))) ∧
  (∀ (u v w z : Int × Int) (px py : Nat),
  let p : Int × Int := (256 * px + 128, 256 * py + 128)
  (area2 u v w = 0 → (coverAt u v w px py).1 = false) ∧
  (coverAt u v w px py).1 = (coverAt v w u px py).1 ∧
  (coverAt u v w px py).1 = (coverAt u w v px py).1 ∧
  (area2 u v p = 0 → 0 < area2 u v w → area2 u v z < 0 → ¬((coverAt u v w px py).1 = true ∧ (coverAt u v z px py).1 = true)))

/-- 19 R413 to R424: a sample of a texture at each lane's coordinates, its two registers held outstanding; traces and resumptions
under a scene record, and moves of traversal state, one piece of work a lane; the arrival of a group at a repack, whose inactive
lanes exit and whose active lanes stand at the next course.
The order in which repacked positions are filled is the model's (notes/assumptions/20.md) and is not stated here; that tvld, tvst and
smpl's texels may not lie in the register window is the model's choice (notes/assumptions/111.md). -/
def Obligations.RayWords : Prop := ∀ (x : Pre) (ch f : Bool) (q l : BitVec 3) (a b : BitVec 7) (s : State) (gi vi : Nat) (v : Voice),
  let c := cxOf s gi vi v false x
  let bo := opdOf c.pre 2 b.toNat
  let ob := some b.toNat
  let shading := isGeo c.g.die = false ∧ compatG c.base c.g = false
  let pair := [c.third, c.third + 1]
  let scene := fun (m : Mach) (vb : Word) (sc : Nat × Nat × Nat) (t : Mach) => ∃ n o ls,
    checkLanes m c.who .load 32 false ((c.lanes.take 1).map fun n => (n, vb)) = .ok ((n, o) :: ls) ∧
    anyPoison m 32 ((n, o) :: ls) = false ∧ t = touchLines (pinLocs m ((n, o) :: ls)) c.who false 32 ((n, o) :: ls) ∧
    sceneOf (seeNum t c.who 32 o) = some sc ∧ (qGet (t.grp gi) q.toNat).bind = .eng 3
  let issued := fun (m : Mach) (queue : Option Nat) (dsts : List Nat) (work : Nat → Nat → TvPend) =>
    let id := (m.grp gi).nextId
    let m1 := out c m (c.flag f) [] dsts .tv
    let g := m1.grp gi
    let ws := c.lanes.map (work id)
    let job : TvJob := { id := id, q := queue, dst := dsts.headD 0, left := c.act, faults := [] }
    tvNow (m1.setGrp gi { g with tvJobs := g.tvJobs ++ [job], tvPend := g.tvPend ++ ws }) gi ws
  let resumes := fun (i : Instr) (kind : Nat) =>
    c.vsOk 1 a.toNat true = true → c.sOk 2 b.toNat = true → ∀ vb m1 va, c.readS s.m 2 ob = .ok vb → c.read s.m 1 a.toNat = .ok (m1, va) →
    ∀ sc m2, scene m1 vb sc m2 → room c m2 (c.flag f) →
      exec i s = .next (doneState s gi vi v .mem x ch (issued m2 (some q.toNat) pair fun id n => .resume n kind (va n) sc.1 sc.2.2 id))
  let moves := fun (i : Instr) (acc : Acc) (work : Nat → Word → Nat → TvPend) =>
    ∀ m1 va, c.read s.m 1 a.toNat = .ok (m1, va) →
    ∀ ls, unlessHeld m1 gi 64 (checkLanes m1 c.who acc 64 false (c.lanes.map fun n => (n, va n))) = .ok ls →
      (acc = .load → anyPoison m1 64 ls = false) → room c m1 (c.flag f) →
      exec i s = .next (doneState s gi vi v .mem x ch (issued m1 none [] fun id n => work n (va n) id))
  Ready s gi vi v .mem → shading → c.act ≠ 0 →
  (c.thirdRunOk 2 = true → c.vecsBusy c.third 2 = false →
    (resumes (.tresGo x ch f q a b) 0 ∧ resumes (.tresHit x ch f q a b) 1 ∧ resumes (.tresTmax x ch f q a b) 2) ∧
    (c.runOk 1 a.toNat 4 = true → c.sOk 2 b.toNat = true → c.vecsBusy a.toNat 4 = false →
      ∀ vb, c.readS s.m 2 ob = .ok vb → ∀ sc m1, scene s.m vb sc m1 → room c m1 (c.flag f) →
        exec (.trace x ch f q a b) s = .next (doneState s gi vi v .mem x ch (issued m1 (some q.toNat) pair fun id n =>
          .start n (traceState (c.vecRun m1 a.toNat 4 n) sc id)))) ∧
    (c.sOk 1 a.toNat = true → (bo.isV = true ∨ bo.isM = true) → bo.exists? c.g = true →
      ∀ va m1 vb, c.readS s.m 1 (some a.toNat) = .ok va → c.read s.m 2 b.toNat = .ok (m1, vb) →
      ∀ n o ds, checkLanes m1 c.who .load 32 false ((c.lanes.take 1).map fun k => (k, va)) = .ok ((n, o) :: ds) →
        anyPoison m1 32 ((n, o) :: ds) = false →
        let d := fun (i : Nat) => bitsOf (seeNum m1 c.who 32 o) (64 * i) 64
        let t := texOf d
        let size := texelBytes t.fmt
        let ts := c.lanes.flatMap fun k => (texels t l.toNat (wb (vb k) 0 32) (wb (vb k) 32 32)).map fun e => (k, e)
        texBad d l.toNat = false →
        ∀ ls, checkLanes m1 c.who .load 1 false (ts.map fun e => (e.1, BitVec.ofNat 64 e.2.2)) = .ok ls → anyPoison m1 size ls = false →
          let m2 := touchLines (touchLines (pinLocs (pinLocs m1 ((n, o) :: ds)) ls) c.who false 32 ((n, o) :: ds)) c.who false size ls
          let vals := (ts.zip ls).map fun e => (e.1.1, e.1.2.1, seeNum m2 c.who size e.2.2)
          let chan := fun (k i : Nat) => blend ((vals.filter fun e => e.1 = k).map fun e => (e.2.1, texChannel t.fmt e.2.2 i))
          room c m2 (c.flag f) →
          exec (.smpl x ch f a b l) s = .next (doneState s gi vi v .mem x ch (out c m2 (c.flag f)
            (c.lanes.flatMap fun k =>
              [RegWr.vec c.third k (BitVec.ofNat 64 (chan k 1 * 2 ^ 32 + chan k 0)),
                RegWr.vec (c.third + 1) k (BitVec.ofNat 64 (chan k 3 * 2 ^ 32 + chan k 2))]) pair .ready)))) ∧
  (c.plainPre (some a.toNat) none = true → c.vsOk 1 a.toNat false = true →
    moves (.tvld x ch f a) .load .load ∧ moves (.tvst x ch f a) .store .store) ∧
  (let ao := opdOf c.pre 1 a.toNat
   c.plainPre none ob = true → (ao.isV = true ∨ ao.isM = true) → ao.exists? c.g = true → c.pre.ext 1 = 0 → c.sOk 2 b.toNat = true →
   c.rpackPlace = true → ∀ m1 va vb, c.read s.m 1 a.toNat = .ok (m1, va) → c.readS s.m 2 ob = .ok vb →
   let t := s.m.team c.g.team
   vb.toNat < 2 ^ min 64 c.g.nv → (t.rpMask = none ∨ t.rpMask = some vb) →
   (∀ n ∈ c.lanes, (tvGet (s.m.grp gi) n).status ≠ 2 ∧ (tvGet (s.m.grp gi) n).status ≠ 3) →
   room c s.m (c.flag f) →
   let m2 := out c s.m (c.flag f) [] [] (.rpack t.rpPhase)
   let m3 := m2.setGrp gi { m2.grp gi with repack := some (c.lanes.map fun n => (n, wb (va n) 0 32)) }
   exec (.rpack x ch f a b) s = .next (memberDone c v (some .mem) ch s.late
     (some ((lanesOf v.mask).map fun n => (n, if c.act.getLsbD n then some (fallThrough c.voice) else none)))
     (m3.setTeam c.g.team { m3.team c.g.team with rpMask := some vb }) s))

/-! ## 05: context words -/

/-- 05 R155 to R158: in a privileged grid ctxsv, its area's page not migrating, begins to stop the teams of the grid it names, or
leaves result 2 (an area that is misaligned or not writable) or 1 (no such grid) at once; ctxrs restores an image and leaves its
result; tlbinv makes the group's stores visible, drops one translation or all, and performs what those translations held, after
the accesses that its group issued before it. In any other grid all three raise PROT with TADDR 0.
That the named grid is one of the issuing context, and result 5 for an image that cannot be read, are the model's choices
(notes/assumptions/50.md, 86.md). -/
def Obligations.ContextWords : Prop := ∀ (x : Pre) (ch : Bool) (a b : BitVec 7) (s : State) (gi vi : Nat) (v : Voice),
  Ready s gi vi v .mem →
  let c := cxOf s gi vi v false x
  let w := ctxWho c.base gi
  let reg := fun (r : BitVec 7) => 0x70 ≤ r.toNat ∧ r.toNat - 0x70 < c.g.ns
  let clear := fun (r : BitVec 7) => busyReg c.base gi vi (128 + (r.toNat - 0x70)) = false
  let val := fun (r : BitVec 7) => c.ctxScalar s.m r.toNat
  let flag := flagOf c.voice c.pre.flg
  let done := fun (i : Instr) (m : Mach) => exec i s = .next (doneState s gi vi v .mem x ch m)
  let stop := fun (i : Instr) => exec i s = .next (causeState s gi vi v false x .prot 0 c.act)
  let one := out c s.m flag [] [] .ready
  let dropped := fun (keep : TlbEnt → Bool) =>
    let m1 := flushC1 s.m (whoGroup c.base gi).die (whoGroup c.base gi).core
    let p := (whoGroup c.base gi).part
    m1.setPart p { m1.part p with tlb := (m1.part p).tlb.filter keep }
  let inv := fun (i : Instr) (va : Option Nat) (keep : TlbEnt → Bool) =>
    let now := freeHolds (dropped keep) (whoGroup c.base gi).part va
    afterRoom c s.m flag now → done i (afterAll c s.m flag (.tlbinv va) now)
  c.kind0 true = true → c.act ≠ 0 →
  (c.grid.lr.priv = false → (reg a → reg b → stop (.ctxsv x ch a b)) ∧ (reg a → stop (.ctxrs x ch a)) ∧
    (reg a → stop (.tlbinv x ch a 0)) ∧ stop (.tlbinv x ch 0 1)) ∧
  (c.grid.lr.priv = true → room c s.m flag → reg a → clear a →
    (reg b → clear b → spanHeld s.m w .store (val b).toNat 256 = [] →
      ((val b).toNat % 4096 ≠ 0 ∨ spanOk s.m w .store (val b).toNat 256 = false → done (.ctxsv x ch a b) (putResult one w (val b) 2)) ∧
      ((val b).toNat % 4096 = 0 → spanOk s.m w .store (val b).toNat 256 = true →
        (namedGrid s.m w (val a) = none → done (.ctxsv x ch a b) (putResult one w (val b) 1)) ∧
        (∀ gr, namedGrid s.m w (val a) = some gr →
          let m1 := out c s.m flag [] [] (.ctxsv gr (val b) s.m.time)
          done (.ctxsv x ch a b) ((teamsOf m1 gr).foldl (fun m t => if (m.team t).place = .resident
            then m.setTeam t { m.team t with stopping := some 2, stopAt := m.time } else m) m1)))) ∧
    (∀ m1 r, restoreImage one w (val a) = .ok (m1, r) → done (.ctxrs x ch a) (putResult m1 w (val a) r))) ∧
  (c.grid.lr.priv = true →
    (reg a → clear a → inv (.tlbinv x ch a 0) (some (val a).toNat) fun t => (val a).toNat / 2 ^ t.lg ≠ t.va / 2 ^ t.lg) ∧
    inv (.tlbinv x ch 0 1) none fun _ => false)

/-! ## Events that the device performs without a word -/

/-- 01 R17, R22, 04 R113, 05 R139: what happens to a voice and its words outside issue. A course that waited for mortar results
ends when they, and what is still to be written to the registers it promotes to, are complete; a long-latency word whose condition
has come writes its registers and lowers its counter; a voice that has waited 2048 steps gets the age override; a held trap is
entered when its last mortar result is complete and its frame's pages do not migrate.
That the age override counts a voice's lost turns is the model's choice (notes/assumptions/24.md). -/
def Obligations.VoiceEvents : Prop := ∀ (s : State) (g n : Nat),
  (∀ x ds, voiceAt s.m g n = some x → running s.m g = true → courseBusy s.m g n = false → x.pend = some ds →
    Does (.courseEnd g n) s (retireCourse s.m g n ds)) ∧
  (∀ o, onItsCore s.m g → findOutst (s.m.grp g) n = some o →
    let t := (s.m.grp g).team
    (o.wait = .ready → canPush s.m g o = true → Does (.wordComplete g n) s (completeWord s.m g o)) ∧
    (o.wait = .ready → canPush s.m g o = false → Does (.wordComplete g n) s s.m) ∧
    (∀ act, o.wait = .held act → accessesHeld s.m g o.id true = false →
      Does (.wordComplete g n) s (completeWord (heldAct s.m g o act) g o)) ∧
    (o.wait = .monitors 0 → Does (.wordComplete g n) s (completeWord s.m g o)) ∧
    (∀ b c ph, o.wait = .bar b c ph → arrivalHeld (s.m.grp g) b c o.id = false → ph < (barOf s.m t c b).phase → Does (.wordComplete g n) s (completeWord s.m g o)) ∧
    (∀ off dst, o.wait = .bob off dst → poisoned s.m (spadKey t off) 8 = false → bobDone (bobWord s.m t off) = true →
      Does (.wordComplete g n) s (completeWord s.m g { o with wr := o.wr ++ [.scal dst (bobWord s.m t off)] })) ∧
    (∀ k, o.wait = .monitors (k + 1) → Does (.wordComplete g n) s s.m)) ∧
  (∀ x, voiceAt s.m g n = some x → 2048 ≤ x.waited → x.aged = false →
    Does (.ageOverride g n) s (setVoice s.m g n { x with aged := true })) ∧
  (∀ p, g < s.m.groups.length →
    let y := s.m.grp g
    y.trap = some p → p.trap.cause ≠ .sramUe → p.trap.cause ≠ .symFault → y.inhandler = false →
    let f := wb y.tvec 8 40 * 256
    f ≠ 0 → (anyMortarBusy y = true ∨ isHeld s.m g 4 = true → Does (.trapEntry g) s s.m) ∧
      (anyMortarBusy y = false → isHeld s.m g 4 = false → let m0 := pinFrame s.m (whoGroup s.m g) f 1
        ∀ hpc m2, readFrame m0 (whoGroup s.m g) f = .ok hpc →
        writeFrame (whoGroup s.m g) f (frameWords s.m g p.voice) m0 = .done m2 →
        Does (.trapEntry g) s ((dropHolds m2 g).setGrp g { m2.grp g with
          trap := none, inhandler := true, park := [], voices := [(0, standingVoice (m2.grp g).live (hpc % 2 ^ 48))]
          handler := some { voices := (m2.grp g).voices, park := (m2.grp g).park, tv := p.voice, first := p.first, after := p.after, bases := p.bases } })))

/-- 04 R115 to R123, R129, R132: groups and teams come and go. A drained group is freed, and with the last its team and its
grid end; a die admits the plan that the order of R123 puts first, a launch's next cluster or a team; a queue whose front has
waited 200 us blocks what comes after it; an idle core takes the upper half of the chunks of a range task's team.
04 R124, 05 R150 to R154, 18 R396: pre-emption. An RT team that has waited 20 us has victims stopped, and the room that they leave is kept for it; a stopped team that
is quiet is saved into an area of the pool and leaves its core, to the front of its queue, or swapped out; one not quiet in 10
us runs on and the next victim is stopped; a team that waited its time in waitc is swapped out, and comes back when a waitc
has completed.
Which die an entry asks and the order of equal candidates are the model's (notes/assumptions/13.md, 24.md). -/
def Obligations.TeamEvents : Prop :=
  (∀ (s : State) (g die core q : Nat),
  (drained s.m g = true →
    let y := s.m.grp g
    let x := s.m.grid y.grid
    let m1 := dropGroup s.m g (x.lr.ordered && !x.hdr.syms.isEmpty)
    let all := (m1.team y.team).groups.all fun i => (m1.grp i).freed
    Does (.groupFreed g) s (if all then finishGrid (endTeam m1 y.team) y.grid else m1)) ∧
  (∀ p k pl, nextAdmission s.m die = some (p, k, pl) →
    let m0 := chargeAdmission s.m p k die (planGroups s.m pl)
    let m1 := m0.setPart p { m0.part p with rooms := (m0.part p).rooms.filter fun r => r.2 ≠ pl.ent }
    (∀ gr, pl.ent = .grid gr → Does (.teamAdmission die) s (popFront (startCluster m1 gr die pl.cores) p k pl.ent)) ∧
    (∀ t, pl.ent = .team t → (m1.team t).place = .saved →
      Does (.teamAdmission die) s (popFront (resumeTeam m1 t die (pl.cores.getD 0 0)) p k pl.ent)) ∧
    (∀ t, pl.ent = .team t → (m1.team t).place ≠ .saved →
      Does (.teamAdmission die) s (popFront (startTeam m1 t die (pl.cores.getD 0 0)) p k pl.ent))) ∧
  (∀ p, blocksNow s.m die q = some p →
    Does (.queueFrontTimeout die q) s (s.m.setPart p { s.m.part p with blocked := (s.m.part p).blocked ++ [32 * die + q] })) ∧
  (∀ ti, canSplit s.m die core = some ti →
    let t := s.m.team ti
    let x := s.m.grid t.grid
    let cut := t.f + x.lr.grain * (((t.h - t.f + x.lr.grain - 1) / x.lr.grain + 1) / 2)
    let new := s.m.teams.length
    let m1 := (s.m.setTeam ti { t with h := cut }).setGrid t.grid { x with nextTid := x.nextTid + 1 }
    Does (.taskSplit die core) s
      (startTeam { m1 with teams := m1.teams ++ [newTeam t.grid x.nextTid die core [new] 0 cut t.h] } new die core))) ∧
  (∀ (s : State) (die ti : Nat),
  let t := s.m.team ti
  (rtChoice s.m die = none → Does (.rtWaitTimeout die) s s.m) ∧
  (∀ p e c vs, rtChoice s.m die = some (p, e, c, vs) →
    let m1 := vs.foldl (stopTeam 0) s.m
    Does (.rtWaitTimeout die) s (if vs.any (leaving m1) = true
      then m1.setPart p { m1.part p with rooms := Tbl.put (m1.part p).rooms (64 * die + c) e } else m1)) ∧
  (∀ m1 run, t.place = .resident → teamQuiet s.m ti = true → poolArea s.m ti = some (m1, run) →
    let life := m1.pk.life
    (t.stopping = some 0 →
      let m2 := queueFront (leaveCore m1 ti (some run) .saved) ti
      Does (.preemptionSave ti) s { m2 with pk := { m2.pk with life := { life with preempts := countUp life.preempts t.die } } }) ∧
    (t.stopping = some 1 →
      let m2 := if waitsOnly s.m ti then leaveCore m1 ti (some run) .swapped else queueFront (leaveCore m1 ti (some run) .saved) ti
      Does (.preemptionSave ti) s { m2 with pk := { m2.pk with life := { life with swaps := countUp life.swaps t.die } } })) ∧
  (overdue s.m ti = true →
    let m1 := s.m.setTeam ti { t with stopping := none }
    let p := (s.m.grid t.grid).part
    let alone := if (residentTeams m1 t.die t.core).any (leaving m1) then m1
      else m1.setPart p { m1.part p with rooms := (m1.part p).rooms.filter fun r => r.1 ≠ 64 * t.die + t.core }
    (t.stopping = some 1 → Does (.preemptionAbandon ti) s alone) ∧
    (t.stopping = some 0 → Does (.preemptionAbandon ti) s (match (victims s.m t.die t.core).find? fun v => v ≠ ti with
      | some v => stopTeam 0 m1 v
      | none => alone))) ∧
  (swapDue s.m ti = true → Does (.swapOut ti) s (saveTeam (stopTeam 1 s.m ti) ti)) ∧
  (wakes s.m ti = true → Does (.swapIn ti) s (queueFront (s.m.setTeam ti { t with place := .saved }) ti)))

/-- 09 R208, R223, R225, 12 R285 to R292: what a core gives. A claim is served when its quarters are free: the group's
count rises and the new registers read zero; a victim among blocked groups is saved into the pool, or its grid killed where the
pool has no room, and comes back when it fits and no claim can be served; the oldest request of slots or tiles is served when every
member of its run is free, what a saved team left tagged there written out first. -/
def Obligations.CoreResourceEvents : Prop := ∀ (s : State) (die core : Nat),
  let c := s.m.core die core
  (∀ i n o k, claimReady s.m die core = some (i, n) → claimOf (s.m.grp i) = some (o, k) →
    let g := s.m.grp i
    Does (.claimServed die core) s (performed ((s.m.setCore die core { c with claims := c.claims.filter (· ≠ i) }).setGrp i
      { g with nv := n, v := g.v.filter fun e => e.1 < 64 * g.nv }) i o.id [])) ∧
  (∀ i, claimVictim s.m die core = some i →
    let room := poolWrite s.m (s.m.grp i).grid (featuresOf s.m (s.m.grp i).grid [i] []) (victimSecs s.m i)
    (∀ m1 run, room = some (m1, run) → Does (.claimVictim die core) s (m1.setGrp i { m1.grp i with victim := true, vrun := some run })) ∧
    (room = none → Does (.claimVictim die core) s
      (killFor s.m i 0x15 (BitVec.ofNat 64 (((claimOf (s.m.grp i)).map Prod.snd).getD 0))))) ∧
  (∀ i, victimFits s.m die core = some i →
    let g := s.m.grp i
    claimReady s.m die core = none ∧ Does (.claimVictimRestore die core) s
      (completeLatched ((poolGive s.m (s.m.grid g.grid).part g.vrun).setGrp i { g with victim := false, vrun := none }) i)) ∧
  (∀ r rest, c.reqs = r :: rest → canServe s.m die core r = true →
    let team := (s.m.grp r.grp).team
    let run := (List.range r.n).map fun i => r.first + i
    let m := if r.acc then writeOut s.m die core none [] run else writeOut s.m die core none run []
    let c := m.core die core
    (r.acc = true → Does (.slotRequestServed die core) s (performed (m.setCore die core
      { c with reqs := rest, tiles := run.foldl (fun t n => Tbl.put t n (team + 1)) c.tiles,
               acc := c.acc.filter fun e => !run.contains (e.1 / 16384) }) r.grp r.id [])) ∧
    (r.acc = false → Does (.slotRequestServed die core) s (performed (m.setCore die core
      { c with reqs := rest, slots := run.foldl (fun t n => Tbl.put t n { state := 1, team := team, e := r.e, f := 0 }) c.slots })
      r.grp r.id [])))

/-- 10 R233 to R246, 05 R149: the memory system. A walk caches a leaf; a retry of a link changes nothing; a retrain and a
scrub that corrects are counted; a dirty line that a scrub cannot correct, or data that arrives poisoned, marks its line; an
uncorrectable error of a clean line is counted and the line read again, of a team's private memory handled, of what a saved team left
on the core reported with its grid's death; corrected errors of each kind are counted, and an entry of a TLB is dropped; a
prefetch may write one line back.
Which line a prefetch evicts is a free choice (notes/assumptions/58.md). -/
def Obligations.MemorySystemEvents : Prop := ∀ (s : State) (p c va die n line : Nat),
  Does (.pageWalk p c va) s (fillTlb s.m p c va) ∧
  (∀ e lg, (s.m.ctx p c).enabled = true → isWindow va = false → va < 2 ^ 48 → walk s.m p c va = .leaf e lg → pteMig e = false →
    let q := s.m.part p
    let ent : TlbEnt := { ctx := c, va := va / 2 ^ lg * 2 ^ lg, lg := lg, leaf := e }
    Does (.pageWalk p c va) s
      (s.m.setPart p { q with tlb := ent :: q.tlb.filter fun t => !(t.ctx = c && va / 2 ^ t.lg = t.va / 2 ^ t.lg) })) ∧
  Does (.linkCrcRetry die n) s s.m ∧
  Does (.channelRetrain die n) s (s.m.onLife fun l => { l with retrains := countUp l.retrains (8 * die + n) }) ∧
  (isLocalLine line = true →
    Does (.l2Scrub line .clean) s s.m ∧
    Does (.l2Scrub line .corrected) s (countSlice s.m line) ∧
    Does (.l2Scrub line .uncorrectableClean) s (countSlice s.m line) ∧
    (s.m.poison.contains line = false →
      Does (.l2Scrub line .uncorrectableDirty) s { s.m with poison := s.m.poison ++ [line] } ∧
      Does (.dataPoison line) s { s.m with poison := s.m.poison ++ [line] }) ∧
    (s.m.poison.contains line = true → Does (.dataPoison line) s s.m)) ∧
  Does (.handleUe (.cleanLine die n line)) s (countSram (refetchLine s.m die n line) die n) ∧
  (n < s.m.teams.length → (s.m.team n).place = .resident → Does (.handleUe (.team n)) s (handleUE s.m n)) ∧
  (n < s.m.teams.length → (s.m.team n).place ≠ .resident → taggedLeft s.m n = true → Does (.handleUe (.team n)) s (loseLazy s.m n)) ∧
  Does (.handleUe (.fetchLine die n)) s (countMacro s.m 7 die n) ∧
  (∀ k, 1 ≤ k → k ≤ 6 → Does (.handleUe (.corrected k die n)) s (countMacro s.m k die n)) ∧
  (let q := s.m.part (partOf s.m.pk die n)
   Does (.handleUe (.transEntry die n c va)) s (countMacro (s.m.setPart (partOf s.m.pk die n)
     { q with tlb := q.tlb.filter fun t => !(t.ctx = c && va / 2 ^ t.lg = t.va / 2 ^ t.lg) }) 8 die n)) ∧
  (let ls := (heldLines s.m die n).filter (· ≠ line)
   (ls = [] → Does (.hardwarePrefetch die n line) s s.m) ∧
   (∀ l, ls[(Config.freeWord s.m.fresh 0).toNat % (ls.length + 1)]? = some l →
     Does (.hardwarePrefetch die n line) s (evictLine s.m die n l)))

/-- 14 R314, R329, 15 R352, 18 R388 to R395, 21 R436, R438: writes that no word performs, and the synchronisation engines.
A bank serves the first request of the port whose turn it is; a write that reaches its slice is done there; a queued arm takes a
free entry or is satisfied; unpinning performs what was accepted and frees every frame; peer writes reach memory at once, the host's
in their order, but for those marked relaxed.
That a bank serves one request a turn is the model's choice (notes/assumptions/5.md, 35.md). -/
def Obligations.OutsideWrites : Prop := ∀ (s : State) (p die bank key : Nat) (bs : List (BitVec 8)),
  let x := s.m.mc die
  (∀ r, nextReq x bank = some r → Does (.syeAccess die bank) s
    (spillFrame (performReq (s.m.setMc die { x with ports := x.ports.erase r, turn := Tbl.set 0 x.turn bank r.port }) r) die (r.key / 4096))) ∧
  (keyRegion key = 1 → keyRegion (key + bs.length) = 1 → Does (.homeSliceWrite key bs) s (wrBytes s.m key bs)) ∧
  (∀ k rest, x.arms = k :: rest → x.mons.length < 65536 →
    Does (.monitorArm die) s (armMonitor (s.m.setMc die { x with arms := rest }) die k)) ∧
  (x.unpinning = true →
    let m1 := x.ovframes.foldl (fun m g => spillFrame m die g) (servePorts s.m die fun _ => true)
    Does (.syeUnpin die) s (m1.setMc die { m1.mc die with frames := [], ovframes := [], unpinning := false, unpin := (m1.mc die).unpin ||| 2 })) ∧
  (functionsUp s.m = true → p < partCount s.m.pk.cur →
    (∀ w, w.atom ≠ 0 ∨ w.bytes ≠ [] →
      Does (.hostPostedWrite p w) s (s.m.setPart p { s.m.part p with posted := (s.m.part p).posted ++ [w] })) ∧
    (∀ w rest, (s.m.part p).posted = w :: rest → (∀ r ∈ rest, r.relaxed = false) →
      let m1 := s.m.setPart p { s.m.part p with posted := rest }
      ∀ k, hostKey m1 p w.pa = some k →
      (w.atom = 0 → Does (.hostPostedWrite p noWrite) s (outsideWrite (drainHost m1 p) 6 k w.bytes)) ∧
      (w.atom ≠ 0 → keyRegion k = 1 → (w.bytes.length = 4 ∨ w.bytes.length = 8) → k % w.bytes.length = 0 →
        Does (.hostPostedWrite p noWrite) s (enqueue (drainHost m1 p) { port := 6, key := k, op := w.atom, val := w.bytes, cmp := w.cmp }))) ∧
    ((s.m.part p).posted ≠ [] → ∃ u i, (s.m.part p).posted[i]? = some u ∧ (i = 0 ∨ u.relaxed = true) ∧
      Does (.hostPostedWrite p noWrite) s (hostPerform (s.m.setPart p { s.m.part p with posted := (s.m.part p).posted.eraseIdx i }) p u))) ∧
  (p < partCount s.m.pk.cur → ∀ a, a.pa + a.bytes.length ≤ nM s.m p * 2 ^ 36 →
    (a.write = true → Does (.peerDeviceAccess p a) s (outsideWrite s.m 7 (keyLocal p a.pa) a.bytes)) ∧
    (a.write = false → Does (.peerDeviceAccess p a) s s.m))

/-- 10 R248 to R251, 11 R263 to R273: the copy engine. A queue that holds a whole command whose buffer and slot let it start
gives it to the engine; a line moves; a command whose bytes are all there, or that failed, ends. A filled command of no buffer
and no slot leaves the queue four elements shorter and stands last at the engine; a line of it, whose units are all found, is
stored, and the line is noted; with its last line noted it leaves the engine.
12 R283, R298, R308, 16 R370, R377: the engines that work through what words left them. The matrix engine performs the oldest
word of its order, unless it holds a loop of a quiet team that is being stopped or a store behind a fence that waits; it zeroes
tiles, and writes tile elements from the values that a word brought; the tree engine serves its next request, a request for a
count answered with it; its backup moves by a node, to the parent with the value of the other side, and ends at the root.
The order in which the engines take turns is the model's (notes/assumptions/5.md). -/
def Obligations.EngineEvents : Prop :=
  (∀ (s : State) (g q die core k line : Nat),
  (∀ m1, ceStart s.m g q = some m1 → Does (.ceCommandStart g q) s m1) ∧
  (∀ m1, ceLine s.m die core k line = some m1 → Does (.ceLineTransfer die core k line) s m1) ∧
  (∀ m1, ceEnd s.m die core k = some m1 → Does (.ceCommandEnd die core k) s m1) ∧
  (let y := s.m.grp g
   let x := qGet y q
   let ws := (x.elems.take 4).map Prod.fst
   ceReady s.m g q = true → ceOp ws = 3 → ceCb ws = false → ceRing ws = false → ceLen ws % 8 = 0 → wb (ws.getD 0 0) 48 3 = 0 →
   ws.getD 3 0 = 0 → wb (ws.getD 2 0) 0 3 = 0 → bobNamed ws = false → (∀ e es, x.elems = e :: es → e.2 ≠ .tile) →
   let m1 := flushC1 (s.m.setGrp g (qSet y q { x with elems := x.elems.drop 4 })) y.die y.core
   let c := m1.core y.die y.core
   Does (.ceCommandStart g q) s (m1.setCore y.die y.core { c with ce := c.ce ++
     [{ grp := g, w := ws, dst := ws.getD 2 0, cb := none, slot := none, done := [], fail := [], token := none }] })) ∧
  (∀ c, (s.m.core die core).ce[k]? = some c → ceOp c.w ≠ 4 → bobNamed c.w = false → c.fail = [] → c.token = none →
    (∀ us, line < ceLines c → line ∉ c.done →
      ceUnits s.m c ((List.range ((ceSpan c line).2 / 8)).map fun i => (ceSpan c line).1 + 8 * i) = .ok us →
      Does (.ceLineTransfer die core k line) s (setCmd (cePut s.m (whoGroup s.m c.grp) us) die core k { c with done := c.done ++ [line] })) ∧
    (line ∈ c.done → Does (.ceLineTransfer die core k line) s s.m) ∧
    (ceRing c.w = false → ceTok c.w = false → c.cb = none → c.slot = none → (∀ n < ceLines c, n ∈ c.done) →
      let m1 := setCmd s.m die core k c
      Does (.ceCommandEnd die core k) s
        (m1.setCore die core { m1.core die core with ce := (m1.core die core).ce.eraseIdx k })) ∧
    ((∃ n < ceLines c, n ∉ c.done) → Does (.ceCommandEnd die core k) s s.m))) ∧
  (∀ (s : State) (die core : Nat),
  (∀ o os, (s.m.core die core).mx = o :: os →
    (∀ m1, loopHeld s.m o os = false → fenceBefore s.m o.grp o.seq = false → runMx s.m die core o = some m1 → Does (.mxKstep die core) s m1) ∧
    (loopHeld s.m o os = true → Does (.mxKstep die core) s s.m) ∧
    (∀ a, o.work = .z a → Does (.mxKstep die core) s (mxDone (setAcc s.m die core
      ((s.m.core die core).acc.filter fun e => e.1 / 16384 < runFirst a ∨ runFirst a + runLength a ≤ e.1 / 16384)) die core o [])) ∧
    (∀ a vals, o.work = .wr a vals → Does (.mxKstep die core) s (mxDone (setAcc s.m die core (vals.foldl (fun t e =>
      let j := (wb a 16 7 + 2 * e.1) % 128
      accPut (accPut t (wb a 0 6) (wb a 8 7) j (wb e.2 0 32)) (wb a 0 6) (wb a 8 7) (j + 1) (wb e.2 32 32))
      (s.m.core die core).acc)) die core o []))) ∧
  (∀ r m1, tsNext s.m die = some r → tsServe s.m die r = some m1 → Does (.tseServe die) s m1) ∧
  (∀ r rs k d, (s.m.mc die).ts = r :: rs → r.walk = none → r.late = false → r.work = .stat k d →
    Does (.tseServe die) s (tsDone s.m die r [.scal d (BitVec.ofNat 64 (Tbl.get 0 (s.m.mc die).tstat k))])) ∧
  (∀ r rs y v n, (s.m.mc die).ts = r :: rs → r.walk = some (y, v, n) →
    (lanesFirst rs = true → Does (.tseBackupNode die) s s.m) ∧
    (lanesFirst rs = false → ∀ t m1 p m2, tsRun die (tsTree die (whoTs s.m r.grp die) r.desc.toNat false) s.m = (.ok t, m1) →
      tsRun die (backNode t y v.toNat) m1 = (.ok p, m2) →
      (p = 0 ∨ 64 ≤ n → Does (.tseBackupNode die) s (tsDone m2 die r [])) ∧
      (p ≠ 0 → n < 64 → Does (.tseBackupNode die) s
        (tsReplace m2 die r { r with walk := some (p, if t.negamax then v ^^^ 0x80000000#32 else v, n + 1) })))) ∧
  (∀ m1, backStep s.m die = some m1 → Does (.tseBackupNode die) s m1))

/-- 14 R336 to R339, 15 R357 to R360, 18 R397 to R399: halo exchange and collectives. An outstanding release whose earlier
accesses are performed copies its strips, what its team's narrow atomics left dirty in them written back first; a strip with a
poisoned line is an uncorrectable error (notes/assumptions/107.md, the model's choice); with none it is received by all; a strip that its neighbour waits for is delivered; a
chunk of a collective whose members agree and have all given their parts is performed, and the last one ends it, while members
that differ end it with error 4; a member that has been silent for the engine's time, or is noticed as failed, is left out.
That a notice is an input is the model's choice (notes/assumptions/44.md). -/
def Obligations.ExchangeEvents : Prop := ∀ (s : State) (ti h dir k mem : Nat),
  (∀ x g id, haloOf s.m ti h = some x → x.out = some (g, id, false) → snapReady s.m x = true →
    let m0 := (s.m.cores.map Prod.fst).foldl (fun m c => flushAtoms m (c / 64) (c % 64) fun k y =>
      (x.keys.flatMap Prod.snd).contains (k / 128) && atomMine m (m.team ti).die (m.team ti).core c y) s.m
    let m1 := setHalo m0 ti h { x with out := some (g, id, true), snap := x.keys.map fun k => (k.1, lineBytes m0 k.2) }
    (linesPoisoned m0 x.keys = true → Does (.haloSnapshot ti h) s (handleUE m0 ti)) ∧
    (linesPoisoned m0 x.keys = false → x.keys ≠ [] → Does (.haloSnapshot ti h) s m1) ∧
    (linesPoisoned m0 x.keys = false → x.keys = [] → Does (.haloSnapshot ti h) s (performed (setHalo m1 ti h { x with out := none, snap := [] }) g id []))) ∧
  (deliverable s.m ti h dir = true → Does (.haloDelivery ti h dir) s (deliver s.m ti h dir)) ∧
  (∀ remote, k < s.m.colls.length → (collAt s.m k).ended = false → (collAt s.m k).out = false →
    let m1 := collPrepare s.m k
    let c := collAt m1 k
    let peers := collPeers m1 c
    let agree := (∀ j ∈ peers, collAgree c (collAt m1 j) = true) ∧ ∀ r ∈ remote, r.agrees = true ∨ r.member ∉ survivors c
    (¬agree → Does (.collChunk k remote) s (peers.foldl (fun m j => closeColl m j 4) m1)) ∧
    (agree → chunkReady m1 k remote = false → Does (.collChunk k remote) s m1) ∧
    (agree → chunkReady m1 k remote = true →
      Does (.collChunk k remote) s (collEnds (runChunk (c.entries.length + 1) k remote m1) peers))) ∧
  (let c := collAt s.m k
   (silent s.m c mem = true → Does (.collMemberTimeout k mem) s (loseMember s.m c.gid c.seq mem)) ∧
   (silent s.m c mem = false → Does (.collMemberTimeout k mem) s s.m) ∧
   (k < s.m.colls.length → c.ended = false → mem < c.entries.length → mem ≠ c.member →
    Does (.failureNotice k mem) s (loseMember s.m c.gid c.seq mem)))

/-- 19 R403 to R410, R416 to R424: the bridge accepts a packet behind those accepted before, its group's earlier stores visible, its word complete with the
last;
it delivers the smallest of a region into the queue of the region's core, or drops and counts it where the map has no
entry; the traversal unit takes a node, and with an empty stack stops the lane with HIT or MISS; a repack token enters its
queue.
When the packets of a closing region are delivered is the model's turn order (notes/assumptions/5.md, 54.md). -/
def Obligations.GraphicsEvents : Prop := ∀ (s : State) (p k g lane : Nat),
  (∀ y, sxbAcceptable s.m p k = true → (s.m.part p).packets[k]? = some y →
    let x := s.m.part p
    let ps := x.packets.eraseIdx k ++ [{ y with accepted := true }]
    let m1 := flushC1 (s.m.setPart p { x with packets := ps }) (s.m.grp y.src.1).die (s.m.grp y.src.1).core
    Does (.sxbAccept p k) s (if (ps.any fun z => !z.accepted && z.src = y.src) then m1 else performed m1 y.src.1 y.src.2 [])) ∧
  (∀ m1, deliverPacket s.m p k = some m1 → Does (.sxbDeliver p k) s m1) ∧
  (let x := s.m.part p
   ∀ ps y, x.pass = some ps → smallestPacket x.packets k = some y → closing s.m p = true → entryOf ps k = none →
    (∀ e ∈ movingNow s.m p, e.1 ≠ k) →
    Does (.sxbDeliver p k) s (s.m.setPart p { x with packets := x.packets.erase y, pass := some { ps with dropped := ps.dropped + 1 } })) ∧
  (let y := s.m.grp g
   let t := tvGet y lane
   y.freed = false → y.stopped = false → (s.m.team y.team).place = .resident → t.status = 5 → (s.m.team y.team).stopping = none →
    (∀ m1 t1, tvAdvance s.m g (whoGroup s.m g) lane t = .ok (.on m1 t1) → Does (.tvuNodeStep g lane) s (tvSet m1 g lane t1)) ∧
    (t.depth = 0 → t.hitfound = true →
      Does (.tvuNodeStep g lane) s (tvStop s.m g lane { t with status := 1 } (2 ^ 56 + t.at' 9) (t.at' 8) none)) ∧
    (t.depth = 0 → t.hitfound = false → Does (.tvuNodeStep g lane) s (tvStop s.m g lane { t with status := 0 } 0 (t.at' 8) none))) ∧
  (∀ w rest q, (s.m.grp g).rdTok = w :: rest → rduRoom (s.m.grp g) = some q → (s.m.grp g).freed = false →
    (s.m.team (s.m.grp g).team).place = .resident →
    let y := { s.m.grp g with rdTok := rest }
    g < s.m.groups.length →
    Does (.rduTokenPush g) s (s.m.setGrp g (qSet y q { qGet y q with elems := (qGet y q).elems ++ [(w, .rd)] })))

/-- 21 R430 to R441: contexts and control registers. The operation that waits first at CTXCTL enables or disables its context: a
context without a usable table entry, or already enabled, gives result 2; another is loaded from its entry and its record
accepted; a context that is disabled has its grids stopped, and result 0 once they have drained.
A write to a register of a partition that exists, of a package that shows its functions, has the register's effect: QUOTA if its sum is at most 16, WEIGHT with each part
at least 1, FLOGLOST cleared where bit 32 is written as 1, the bases and sizes while no context is enabled; PMODE is refused, err
set, for mode 3, for mode 2 on one bed, and while any context is enabled, and is written in partition 0 alone.
A reset of the package leaves it with the pending mode in force, PMODE's error, and the memory of the host and of other devices.
What of the package outlives its reset is the model's reading (notes/assumptions/63.md); so are result 2 for a context table that
cannot be read (62.md) and how FLOGTAIL's distance is taken (73.md). -/
def Obligations.PartitionEvents : Prop := ∀ (s : State) (p c : Nat) (v : BitVec 64),
  let x := s.m.part p
  let n := v.toNat
  (∀ m1, ctxOp s.m p = some (1, c) → enableCtx s.m p c = some m1 → Does (.ctxEnable p c) s m1) ∧
  (ctxOp s.m p = some (1, c) → ctxEntry s.m p c = none → Does (.ctxEnable p c) s (endCtxOp s.m p 2)) ∧
  (∀ e, ctxOp s.m p = some (1, c) → ctxEntry s.m p c = some e →
    (x.ctxbase.toNat % 4096 < c ∨ entryOk e = false ∨ (s.m.ctx p c).enabled = true → Does (.ctxEnable p c) s (endCtxOp s.m p 2)) ∧
    (c ≤ x.ctxbase.toNat % 4096 → entryOk e = true → (s.m.ctx p c).enabled = false →
      let m1 := s.m.setPart p { x with
        ctxs := Tbl.set { enabled := false, root := 0 } x.ctxs c { enabled := true, root := bitsOf (e.getD 0 0) 16 30 * 2 ^ 16 }
        tlb := x.tlb.filter fun t => t.ctx ≠ c }
      Does (.ctxEnable p c) s (acceptRcp m1 p c (bitsOf (e.getD 1 0) 0 48)))) ∧
  (ctxOp s.m p = some (2, c) →
    ((s.m.ctx p c).enabled = true →
      let m1 := stopCtx s.m p c
      (ctxQuiet m1 p c = true → Does (.ctxDisable p c) s (endCtxOp (clearCtx m1 p c) p 0)) ∧
      (ctxQuiet m1 p c = false → Does (.ctxDisable p c) s (setCtxOp m1 p 5 c))) ∧
    ((s.m.ctx p c).enabled = false → Does (.ctxDisable p c) s (endCtxOp s.m p 2))) ∧
  (ctxOp s.m p = some (5, c) → ctxQuiet s.m p c = true → Does (.ctxDisable p c) s (endCtxOp (clearCtx s.m p c) p 0)) ∧
  (functionsUp s.m = false → Does (.pmodeWrite p v) s s.m ∧ Does (.quotaWrite p v) s s.m ∧ ∀ off, Does (.registerWrite p off v) s s.m) ∧
  (functionsUp s.m = true → p < partCount s.m.pk.cur →
    (p ≠ 0 → Does (.pmodeWrite p v) s s.m) ∧
    (p = 0 → let x1 := if bitAt n 7 then { x with err := false } else x
      (n % 4 = 3 ∨ (n % 4 = 2 ∧ s.m.pk.beds = 1) ∨ (∃ q < 4, anyCtx s.m q = true) →
        Does (.pmodeWrite p v) s (s.m.setPart 0 { x1 with err := true })) ∧
      ((∀ q < 4, anyCtx s.m q = false) → n % 4 ≠ 3 → (n % 4 = 2 → s.m.pk.beds ≠ 1) →
        (∀ q < partCount (n % 4), (∃ d < 12, s.m.pk.has d = true ∧ isShading d = true ∧ partIn s.m.pk (n % 4) d 0 = q) ∧
          memDiesIn s.m.pk (n % 4) q ≠ []) →
        Does (.pmodeWrite p v) s { s.m.setPart 0 x1 with pk := { s.m.pk with mode := n % 4, pend := true } })) ∧
    (let sum := wb v 0 4 + wb v 4 4 + wb v 8 4 + wb v 12 4
     (sum ≤ 16 → Does (.quotaWrite p v) s (s.m.setPart p { x with quota := BitVec.ofNat 64 (n % 2 ^ 16) })) ∧
     (16 < sum → Does (.quotaWrite p v) s s.m)) ∧
    Does (.weightWrite p v) s (s.m.setPart p { x with weight := BitVec.ofNat 64 (max 1 (wb v 4 4) * 16 + max 1 (wb v 0 4)) }) ∧
    (n % 2 ^ 32 = x.floghead → Does (.flogtailWrite p v) s (s.m.setPart p { x with flogtail := x.floghead })) ∧
    (n % 2 ^ 32 = x.floghead + 1 → Does (.flogtailWrite p v) s s.m) ∧
    (bitAt n 32 = true → Does (.floglostClear p v) s (s.m.setPart p { x with flogovf := false, floglost := 0 })) ∧
    (bitAt n 32 = false → Does (.floglostClear p v) s s.m) ∧
    (∀ off, off / 8 * 8 ∈ [0x10, 0x30, 0x38, 0x40, 0x48] → anyCtx s.m p = true → Does (.registerWrite p off v) s s.m) ∧
    (∀ off, off / 8 * 8 ∈ [0x08, 0x50, 0x68] → Does (.registerWrite p off v) s s.m) ∧
    (∀ off, off / 8 * 8 = 0x10 → anyCtx s.m p = false →
      Does (.registerWrite p off v) s (s.m.setPart p { x with ctxbase := BitVec.ofNat 64 (n % 2 ^ 46) })) ∧
    (∀ off, off / 8 * 8 = 0x38 → anyCtx s.m p = false →
      Does (.registerWrite p off v) s (s.m.setPart p { x with poolsize := BitVec.ofNat 64 (n % 2 ^ 32) })) ∧
    ∀ off, Does (.registerWrite p off v) s (devWrite s.m p (off / 8 * 8) v fun _ => true)) ∧
  (∃ t, exec .packageReset s = .next t ∧ t.chain = none ∧ t.m.grids = [] ∧ t.m.teams = [] ∧ t.m.groups = [] ∧ t.m.colls = [] ∧
    t.m.pk.cur = (if s.m.pk.pend then s.m.pk.mode else s.m.pk.cur) ∧ t.m.pk.pend = false ∧ t.m.pk.links = 0 ∧
    t.m.pk.life = s.m.pk.life ∧ t.m.pk.images = s.m.pk.images ∧
    (t.m.part 0).err = (s.m.part 0).err ∧
    ∀ e ∈ s.m.mem, (e ∈ t.m.mem ↔ keyRegion e.1 ≠ 1 ∧ keyRegion e.1 ≠ 3))

/-- 21 R443, R444, 05 R148: Relmer links, the package's own among them. A repeated flit and a retrain are counted; the first
failed lane of a link is spared, the second takes the link down, as the third failed retrain in a row does; a link that goes down
moves the destinations of its bed die to their alternates, and accesses that waited for a route go on; a new route governs at once;
an access that found no route kills its grid with PROT. The numbers of the links and of the package's dies as destinations are the
model's (notes/assumptions/94.md).
21 R445 to R448: the package. An image whose signatures and version hold is accepted, another is counted, and a controller
without an image then boots its recovery image; a measurement lists the hashes and signs them; power is capped at 1800 W;
clocks move by 25 MHz steps up to nominal; a thermal trip and a power-down store the records, an abrupt loss forgets what is
not in flash, and nothing runs with the power off.
That a cap above 1800 W is taken as 1800, and what a thermal trip stores, are the model's readings (notes/assumptions/64.md, 22.md).
That images of other kinds, and clock changes that are no multiple of 25 MHz, are ignored is the model's (notes/assumptions/66.md) and is not stated here. -/
def Obligations.LinkAndPackageEvents : Prop :=
  (∀ (s : State) (n : Nat),
  (isPort s.m n = true →
    Does (.flitRetry n) s { s.m with pk := { s.m.pk with flits := countUp s.m.pk.flits n } } ∧
    (Tbl.get 0 s.m.pk.lanes n = 0 → Does (.relmerLaneFail n) s
      ({ s.m with pk := { s.m.pk with lanes := Tbl.set 0 s.m.pk.lanes n 1 } }.onLife fun l =>
        { l with lanesSpared := countUp l.lanesSpared n })) ∧
    (0 < Tbl.get 0 s.m.pk.lanes n → Does (.relmerLaneFail n) s
      (markDown { s.m with pk := { s.m.pk with lanes := Tbl.set 0 s.m.pk.lanes n (Tbl.get 0 s.m.pk.lanes n + 1) } } n)) ∧
    (2 ≤ Tbl.get 0 s.m.pk.lanes n → portDown s.m n = false → Does (.relmerPortDown n) s
      (freeRoutes { s.m with pk := failOver { s.m.pk with links := s.m.pk.links + 2 ^ n } n })) ∧
    Does (.relmerRetrain n true) s ({ s.m with pk := { s.m.pk with fails := Tbl.set 0 s.m.pk.fails n 0 } }.onLife fun l =>
      { l with relRetrains := countUp l.relRetrains n }) ∧
    (let f := Tbl.get 0 s.m.pk.fails n + 1
     let m1 := { s.m with pk := { s.m.pk with fails := Tbl.set 0 s.m.pk.fails n f } }.onLife fun l =>
       { l with relRetrains := countUp l.relRetrains n }
     Does (.relmerRetrain n false) s (if 3 ≤ f then markDown m1 n else m1))) ∧
  (∀ dst a b, n < s.m.pk.beds → dst < 65548 →
    let at' := routeAt n dst
    let k := { s.m.pk with routes := Tbl.put s.m.pk.routes at' (a, b), alt := s.m.pk.alt.filter (· ≠ at') }
    Does (.routeRewrite n dst a b) s (freeRoutes { s.m with pk := if bitAt k.links a then { k with alt := k.alt ++ [at'] } else k })) ∧
  ((n < 8 * s.m.pk.beds ∧ n < 16 → isPort s.m n = true) ∧ (n < 12 → isPort s.m (16 + n) = s.m.pk.has n)) ∧
  (∀ a, n < s.m.groups.length → (s.m.grp n).freed = false → Does (.noRouteTimeout n a) s (killFor s.m n 0x09 a))) ∧
  (∀ (s : State),
  (∀ im, im.kind < 3 →
    (imageOk s.m im = true → Does (.imageLoad im) s { s.m with pk := { s.m.pk with
      images := Tbl.set none s.m.pk.images im.kind (some im)
      recovery := if im.kind = 0 then false else s.m.pk.recovery } }) ∧
    (imageOk s.m im = false →
      let m1 := s.m.onLife fun l => { l with rejections := min (l.rejections + 1) (2 ^ 64 - 1) }
      Does (.imageLoad im) s
        (if im.kind = 0 ∧ Tbl.get none s.m.pk.images 0 = none then { m1 with pk := { m1.pk with recovery := true } } else m1))) ∧
  (let ms := measurements s.m
   Does .spdmMeasurement s { s.m with pk := { s.m.pk with spdm := ms ++ [Config.sign ms.flatten] } }) ∧
  (∀ w, Does (.powerCapSet w) s { s.m with pk := { s.m.pk with cap := min w 1800 } }) ∧
  (∀ isl mhz, isl ∈ islands s.m.pk → mhz % 25 = 0 → 0 < mhz → mhz ≤ nominal isl → ∃ m1, Does (.islandClockChange isl mhz) s m1 ∧
    (∀ i, Tbl.get 0 m1.pk.clocks i = if i = isl then (if mhz = nominal isl then 0 else mhz) else Tbl.get 0 s.m.pk.clocks i) ∧
    { m1 with pk := { m1.pk with clocks := s.m.pk.clocks } } = s.m) ∧
  (∀ isl, isl ∈ islands s.m.pk →
    (isl ∉ s.m.pk.throttled → Does (.thermalThrottle isl) s { s.m with pk := { s.m.pk with throttled := s.m.pk.throttled ++ [isl] } }) ∧
    Does (.voltageDroop isl) s (s.m.onLife fun l => { l with droops := countUp l.droops isl })) ∧
  Does .lifetimeFlush s { s.m with pk := { s.m.pk with flash := s.m.pk.life } } ∧
  Does .lifetimeRead s { s.m with pk := { s.m.pk with report := some s.m.pk.life } } ∧
  (∀ i life, (i, life) ∈ [(Instr.orderlyPowerDown, s.m.pk.life), (.abruptPowerLoss, s.m.pk.flash),
      (.thermalTrip, { s.m.pk.life with trips := min (s.m.pk.life.trips + 1) (2 ^ 64 - 1) })] →
    ∃ t, exec i s = .next t ∧ t.m.pk.on = false ∧ t.m.pk.life = life ∧ t.m.pk.flash = life ∧ t.m.pk.images = s.m.pk.images ∧
      t.m.groups = [] ∧ step t = .fault .poweredOff))

/-! ## Encoding, the step, reset, invariants and frames -/

/-- 01 R13 to R16, R27 to R31, 02 to 19: decoding is the inverse of encoding: the words of every well-formed instruction, its X
word first, decode to it, every operand at its value, whatever words follow. -/
def Obligations.DecodeOfEncode : Prop := ∀ (i : Instr) (rest : List Nat),
  i.isEvent = false → i.wf = true → decodeWords (encode i ++ rest) = .ok (i, rest)

/-- 01 R26, R29, R36, 02, 07 R187, 11, 12 R289, 15: words that the spec writes out beside their assembly text decode to the
instructions they stand for, and a word of an unassigned major to nothing. -/
def Obligations.DecodedWords : Prop :=  decodeTableWord 32 0x0123E002 = some (.head true 1 1 15 2) ∧
  decodeTableWord 32 0x90180082 = some (.add .none true .i32 0x60 1 2) ∧
  decodeTableWord 64 (0x1C187003 * 2 ^ 32 + 0x04080000) = some (.shl (.k0 false 2 0 0 false false 0 false) false .b32 0x61 0x60 3) ∧
  decodeTableWord 32 0x484100F3 = some (.jmpt .none 4 1 0x73) ∧
  decodeTableWord 32 0x4AFFFFFD = some (.bra false 7 0x1FFFFD) ∧
  decodeTableWord 32 0x2200C205 = some (.bfx .none false .n32 3 4 5) ∧
  decodeTableWord 32 0x33208192 = some (.fcvt .none false .f32x2 2 3 1 2) ∧
  decodeTableWord 64 (0x58817980 * 2 ^ 32 + 0x051DB000) = some (.st (.k4 false 7 3 3 0) false .b32 false 5 0x73 0) ∧
  decodeTableWord 32 0x66E18108 = some (.atomc .none false .n64 6 2 8) ∧
  decodeTableWord 32 0x70A5D3AA = some (.mxloop .none false false 2 0x74 0x75 2) ∧
  decodeTableWord 32 0x06000000 = none

/-- 01 R10, R20 to R22, 04 R111, R113: a step runs the instruction that the words of a course give. A chain in progress goes on with
the word after the last member; a voice that issues runs the word it stands at, or the head of the course at its address, and
after its head its first chain in the same cycle; a word that decodes to nothing raises ILLEGAL_OP; an input is performed as
the event of its name; every step moves TIME.
Which voice or event has the next turn, and how far TIME moves, are the model's choices (notes/assumptions/5.md, 24.md); what the turn runs is the spec's. -/
def Obligations.StepRunsDecoded : Prop := ∀ (s : State), s.m.pk.on = true →
  let s0 := current s
  (∀ gi vi v i rest, s.chain ≠ none → s.cur = some (gi, vi) → voiceAt s.m gi vi = some v → v.inside = true →
    v.word ≤ lastWord v.code → decodeWords (v.code.drop v.word) = .ok (i, rest) → step s = mapNext (advance s.m) (exec i s)) ∧
  (∀ t, pick s0 = .voice t →
    let s1 := { turnState s0 t with cur := some (t.gi, t.vi) }
    let after := mapNext fun r => advance s0.m (goOn t.gi t.vi t.m r)
    ∀ v, voiceAt s1.m t.gi t.vi = some v →
      (v.inside = true → v.word ≤ lastWord v.code → waitsForClaim s1.m t.gi v = false →
        (∀ i rest, decodeWords (v.code.drop v.word) = .ok (i, rest) → step s = after (exec i s1)) ∧
        (∀ e, decodeWords (v.code.drop v.word) = .error e → step s = after (.next
          (causeState s1 t.gi t.vi v false (rawPre (v.code.getD v.word 0)) .illegalOp
            (cxOf s1 t.gi t.vi v false (rawPre (v.code.getD v.word 0))).waddr
            (cxOf s1 t.gi t.vi v false (rawPre (v.code.getD v.word 0))).act)))) ∧
      (v.inside = false → ∀ ws i rest, fetchCourse s1.m t.gi v = .ok ws → decodeWords ws = .ok (i, rest) →
        step s = after (exec i s1))) ∧
  (∀ gi vi w, (voiceOf s0.m (gi, vi)).inside = false → voiceAt s0.m gi vi ≠ none → voiceAt w.m gi vi ≠ none →
    (voiceOf w.m (gi, vi)).inside = true → (voiceOf w.m (gi, vi)).stalled = false →
    (goOn gi vi s0.m w).cyc = w.cyc.map fun c => { c with co := (gi, vi) :: c.co }) ∧
  (∀ e rest, s.chain = none → s0.cyc.bind (nextTurn s0) = none → urgentEvent s0.m = none → s.inbox = e :: rest →
    step s = mapNext (advance s0.m) (exec e { s0 with inbox := rest })) ∧
  (∀ e, pick s0 = .event e → ∃ i, i.isEvent = true ∧ step s = mapNext (advance s0.m) (exec i { s0 with cyc := none })) ∧
  (∀ t, (advance s.m t).m.fresh = s.m.fresh + 1 ∧
    (t.m.pk.on = true → (advance s.m t).m.time = t.m.time + Config.tick s.m.fresh))

/-- 21 R430, R431, R439, R441, 18 R390, 02 R85, 04 R130: after reset no context is enabled, no group runs and no chain is in
progress, the control registers and those of the synchronisation engines hold their reset values, and a group that starts has
its special registers 0, its lanes all live in one voice at the kernel's first course. Reset meets the invariants.
A field that the spec gives no reset value is left out (notes/assumptions/3.md). -/
def Obligations.ResetValues : Prop :=  (∀ p < 4, (∀ c, (State.reset.m.ctx p c).enabled = false) ∧
    ctlRead State.reset.m p 0x00 = 0 ∧ ctlRead State.reset.m p 0x10 = 0 ∧ ctlRead State.reset.m p 0x18 = 0 ∧
    ctlRead State.reset.m p 0x20 = 0x2644 ∧ ctlRead State.reset.m p 0x28 = 0x11 ∧ ctlRead State.reset.m p 0x60 = 0) ∧
  (∀ die, syeRead State.reset.m die 0x00 = 0 ∧ syeRead State.reset.m die 0x08 = 0 ∧ syeRead State.reset.m die 0x10 = 1000 ∧
    syeRead State.reset.m die 0x18 = 10000 ∧ syeRead State.reset.m die 0x20 = 0) ∧
  State.reset.m.groups = [] ∧ State.reset.m.teams = [] ∧ State.reset.m.grids = [] ∧ State.reset.chain = none ∧
  (∀ key, keyRegion key = 1 → rdByte State.reset.m key = 0) ∧
  (∀ gr ti gid w die core pos n r h, let g := newGroup gr ti gid w die core pos n r h
    g.mode = 0 ∧ g.fpflags = 0 ∧ g.prog = 0 ∧ g.tvec = 0 ∧ g.tcause = 0 ∧ g.taddr = 0 ∧ g.tpc = 0 ∧ g.tmask = 0 ∧
    g.live = fullMask w ∧ Tbl.get 0 g.s 0 = r.param ∧ g.voices = [(0, standingVoice (fullMask w) (r.kaddr / 12 + 1))]) ∧
  State.reset.memOk ∧ State.reset.chainOk ∧ Tbl.wfFrom none 0 State.reset.m.c1 = true

/-- 01 R10: an invariant that every step keeps: a chain in progress has used no pipe class twice and belongs to a voice that
issues. -/
def Obligations.ChainInvariant : Prop := ∀ (s t : State), s.chainOk → step s = .next t → t.chainOk

/-- The device's memory keeps its canonical form under what words and events write it with: stores, write-backs, frames of
traps, reports and status words, the death of a grid, the end of a course, requests at the engines' banks and host writes; and so
does the table of the bytes that cores hold dirty of coh-1 lines under stores, write-backs and recalls. -/
def Obligations.MemoryForm : Prop := ∀ (m : Mach), Memory.wf m.mem = true →
  (∀ key bs, Memory.wf (wrBytes m key bs).mem = true) ∧
  (∀ w n v l, Memory.wf (doStore m w n v l).mem = true) ∧
  (∀ p off v cov, Memory.wf (devWrite m p off v cov).mem = true) ∧
  (∀ die core, Memory.wf (flushC1 m die core).mem = true) ∧
  (∀ die core lo n, Memory.wf (flushC2 m die core lo n).mem = true) ∧
  (∀ gi p, Memory.wf (raiseTrap m gi p).mem = true) ∧
  (∀ gr k r, Memory.wf (killGrid m gr k r).mem = true) ∧
  (∀ gi vi ds, Memory.wf (finishCourse m gi vi ds).mem = true) ∧
  (∀ gi o, Memory.wf (completeWord m gi o).mem = true) ∧
  (∀ r, Memory.wf (performReq m r).mem = true) ∧
  (∀ p w, Memory.wf (hostWrite m p w).mem = true) ∧
  (Tbl.wfFrom none 0 m.c1 = true →
    (∀ w n v l, Tbl.wfFrom none 0 (doStore m w n v l).c1 = true) ∧ (∀ key bs, Tbl.wfFrom none 0 (wrBytes m key bs).c1 = true) ∧
    (∀ die core, Tbl.wfFrom none 0 (flushC1 m die core).c1 = true) ∧ (∀ key n, Tbl.wfFrom none 0 (recallC1 m key n).c1 = true))

/-- Every instruction runs: no instruction is refused; an event always answers a next state, a word whenever a voice that is
inside a course issues, and a head whenever a voice that stands at one does. -/
def Obligations.EveryInstructionRuns : Prop := ∀ (i : Instr) (s : State),
  (∀ r, exec i s ≠ .refused r) ∧
  (i.isEvent = true → ∃ t, exec i s = .next t) ∧
  (∀ gi vi v, Issues s gi vi v → (∀ h l a b w, i ≠ .head h l a b w) → ∃ t, exec i s = .next t) ∧
  (∀ gi vi v, s.cur = some (gi, vi) → voiceAt s.m gi vi = some v → v.inside = false → (∃ h l a b w, i = .head h l a b w) →
    ∃ t, exec i s = .next t)

/-- 01 R31 to R34, 02 R54: what writing a destination changes: the lanes it names of its one register, and nothing else: not
another register of the group, not its predicates, index registers, flags or special registers, no other group, no memory. A queue
receives its one element when the chain has issued (01 R11); an outstanding word notes which of its results were overtaken (R24). -/
def Obligations.DestinationWrites : Prop := ∀ (c : Cx) (m m2 : Mach) (code : Nat) (vals : List (Nat × Word)),
  c.gi < m.groups.length → vals.map Prod.fst = c.lanes → c.write m code vals = .ok m2 →
  let g := m.grp c.gi
  let h := m2.grp c.gi
  let core := fun (os : List Outst) => os.map fun o => { o with ovr := [] }
  ({ m2 with groups := m.groups } = m) ∧
  (∀ j, j ≠ c.gi → m2.grp j = m.grp j) ∧
  (h.p = g.p ∧ h.x = g.x ∧ h.ly = g.ly ∧ h.f = g.f ∧ h.mode = g.mode ∧ h.fpflags = g.fpflags ∧ h.prog = g.prog ∧
    h.tvec = g.tvec ∧ h.tcause = g.tcause ∧ h.taddr = g.taddr ∧ h.tpc = g.tpc ∧ h.tmask = g.tmask ∧ h.live = g.live ∧ core h.outst = core g.outst) ∧
  (match c.pre.indexed 0 with
    | some (xn, off) => h.s = g.s ∧ h.q = g.q ∧ h.outq = g.outq ∧ h.voices = g.voices ∧
        (∀ l w r, (l, w) ∈ vals → c.indexReg xn off l = some r → Tbl.get 0 h.v (64 * r + l) = w) ∧
        ∀ k, (∀ l ∈ c.lanes, ∀ r, c.indexReg xn off l = some r → k ≠ 64 * r + l) → Tbl.get 0 h.v k = Tbl.get 0 g.v k
    | none => match opdOf c.pre 0 code with
      | .v r => h.s = g.s ∧ h.q = g.q ∧ h.outq = g.outq ∧ h.voices = g.voices ∧
          (∀ l w, (l, w) ∈ vals → Tbl.get 0 h.v (64 * r + l) = w) ∧
          ∀ k, (∀ l ∈ c.lanes, k ≠ 64 * r + l) → Tbl.get 0 h.v k = Tbl.get 0 g.v k
      | .mo r => h.v = g.v ∧ h.s = g.s ∧ h.q = g.q ∧ h.outq = g.outq ∧
          (∀ l w, (l, w) ∈ vals → Tbl.get 0 (Tbl.get default h.voices c.vi).mortar (64 * r + l) = w) ∧
          (∀ k, (∀ l ∈ c.lanes, k ≠ 64 * r + l) →
            Tbl.get 0 (Tbl.get default h.voices c.vi).mortar k = Tbl.get 0 (Tbl.get default g.voices c.vi).mortar k) ∧
          ∀ n, n ≠ c.vi → Tbl.get default h.voices n = Tbl.get default g.voices n
      | .s r => h.v = g.v ∧ h.q = g.q ∧ h.outq = g.outq ∧ h.voices = g.voices ∧
          (∀ l w rest, vals = (l, w) :: rest → Tbl.get 0 h.s r = w) ∧ (vals = [] → h.s = g.s) ∧
          ∀ k, k ≠ r → Tbl.get 0 h.s k = Tbl.get 0 g.s k
      | .q n => h.v = g.v ∧ h.s = g.s ∧ h.voices = g.voices ∧ h.q = g.q ∧ (vals = [] → h.outq = g.outq) ∧
          ∀ l w rest, vals = (l, w) :: rest → h.outq = g.outq ++ [(n, [(w, .data)])])

/-- 01 R24, R30 to R33, R44: what reading an operand gives and changes. A register without an outstanding write reads as it
stood before the chain and changes nothing; with one, in a kernel that does not interlock, it reads the old value or the new; a
queue gives its oldest element once to every lane and keeps the rest; no read changes memory. -/
def Obligations.OperandReads : Prop := ∀ (c : Cx) (m : Mach) (pos code : Nat),
  c.pre.symp pos = none → c.pre.indexed pos = none →
  let g := c.base.grp c.gi
  (∀ r, opdOf c.pre pos code = .v r → busyReg c.base c.gi c.vi r = false → ∃ val, c.read m pos code = .ok (m, val) ∧
    (∀ l, pendingV g.outst r l = none → val l = Tbl.get 0 g.v (64 * r + l)) ∧
    (∀ l new, pendingV g.outst r l = some new → val l = Tbl.get 0 g.v (64 * r + l) ∨ val l = new)) ∧
  (∀ r, opdOf c.pre pos code = .mo r → busyReg c.base c.gi c.vi (96 + r) = false → ∃ val, c.read m pos code = .ok (m, val) ∧
    (∀ l, pendingM g.outst c.vi r l = none → val l = Tbl.get 0 (Tbl.get default g.voices c.vi).mortar (64 * r + l))) ∧
  (∀ r, opdOf c.pre pos code = .s r → busyReg c.base c.gi c.vi (128 + r) = false → ∃ val, c.read m pos code = .ok (m, val) ∧
    (∀ l, pendingS g.outst r = none → val l = Tbl.get 0 g.s r) ∧
    (∀ l new, pendingS g.outst r = some new → val l = Tbl.get 0 g.s r ∨ val l = new)) ∧
  (∀ n e rest, opdOf c.pre pos code = .q n → c.act ≠ 0 → c.gi < m.groups.length →
    (qGet (m.grp c.gi) n).bind ≠ .unbound → (qGet (m.grp c.gi) n).bind ≠ .cmd →
    (∀ k, (qGet (m.grp c.gi) n).bind ≠ .lsend k ∧ (qGet (m.grp c.gi) n).bind ≠ .lrecv k) →
    (qGet (m.grp c.gi) n).elems = e :: rest → tokenTrap c.act e.1 e.2 = none →
    ∃ m1 val, c.read m pos code = .ok (m1, val) ∧ (∀ l, val l = e.1) ∧ (qGet (m1.grp c.gi) n).elems = rest ∧
      (qGet (m1.grp c.gi) n).bind = (qGet (m.grp c.gi) n).bind ∧ (∀ j, j ≠ n → qGet (m1.grp c.gi) j = qGet (m.grp c.gi) j) ∧
      { m1 with groups := m.groups } = m ∧ ∀ j, j ≠ c.gi → m1.grp j = m.grp j) ∧
  (∀ m1 val, c.read m pos code = .ok (m1, val) → m1.mem = m.mem)

/-- 01 R11, R17, R19: the frame of a word that has taken its effect on the device, no brk or sys before it in its chain: when its
chain has issued the elements that it pushed enter their queues, all or, where one has no room, none and the voice waits in place;
beside that and its effect only the voices of its group change, and, where the course ends, PROG, the vector registers that the
coping promotes and the counters that a ripple held; no memory, no other group, no other register. -/
def Obligations.DoneFrame : Prop := ∀ (s : State) (gi vi : Nat) (v w : Voice) (cls : Pipe) (x : Pre) (ch : Bool) (m : Mach),
  s.late = none → voiceAt m gi vi = some w →
  let t := doneState s gi vi v cls x ch m
  (ch = true ↔ t.chain ≠ none) ∧ t.inbox = s.inbox ∧
  let settled := (cxOf s gi vi v false x).settled m
  (ch = false → pushOut settled gi = none → t.m = stallAt s.base gi vi (s.firstWord v) {}) ∧
  ∀ m1, (ch = true → m1 = m) → (ch = false → pushOut settled gi = some m1) →
  let g := m1.grp gi
  let h := t.m.grp gi
  let core := fun (os : List Outst) => os.map fun o => { o with ovr := [] }
  ({ t.m with groups := m1.groups } = m1) ∧ (∀ key, rdByte t.m key = rdByte m key) ∧ (∀ j, j ≠ gi → t.m.grp j = m.grp j) ∧
  (h.s = g.s ∧ h.p = g.p ∧ h.x = g.x ∧ h.ly = g.ly ∧ h.q = g.q ∧ h.outq = g.outq ∧ (w.ripple = none → h.f = g.f) ∧ h.mode = g.mode ∧
    h.fpflags = g.fpflags ∧ h.tvec = g.tvec ∧ h.tcause = g.tcause ∧ h.taddr = g.taddr ∧ h.tpc = g.tpc ∧ h.tmask = g.tmask ∧
    h.live = g.live ∧ core h.outst = core g.outst) ∧
  (∀ k, (∀ p ∈ promotions w.code, k / 64 ≠ p.2) → Tbl.get 0 h.v k = Tbl.get 0 g.v k)
end

