-- ==== Sys2Proof/Laws/Tables.lean ====
section
/-!
SUPPORT. Sys2Proof/Laws/Tables.lean: sparse tables and lists read back what was put into them, elsewhere keep what they
held, and keep their canonical form.
-/

namespace Sys2Proof.Machine

/-- Every key of a table is at least a bound. -/
theorem Tbl.get_below {α : Type} [DecidableEq α] (d : α) :
    ∀ (t : Tbl α) (lo n : Nat), Tbl.wfFrom d lo t = true → n < lo → Tbl.get d t n = d
  | [], _, _, _, _ => rfl
  | (k, v) :: t, lo, n, h, hn => by
    simp only [Tbl.wfFrom, Bool.and_eq_true, decide_eq_true_eq] at h
    have hk : n ≠ k := by omega
    simp only [Tbl.get, hk, if_false]
    exact Tbl.get_below d t (k + 1) n h.2 (by omega)

/-- A smaller bound holds too. -/
theorem Tbl.wfFrom_mono {α : Type} [DecidableEq α] (d : α) {t : Tbl α} {lo lo' : Nat} (h : Tbl.wfFrom d lo t = true)
    (hl : lo' ≤ lo) : Tbl.wfFrom d lo' t = true := by
  cases t with
  | nil => rfl
  | cons e t =>
    obtain ⟨k, v⟩ := e
    simp only [Tbl.wfFrom, Bool.and_eq_true, decide_eq_true_eq] at h ⊢
    exact ⟨⟨by omega, h.1.2⟩, h.2⟩

@[simp] theorem Tbl.get_put_same {α : Type} (d : α) (n : Nat) (x : α) : ∀ t : Tbl α, Tbl.get d (Tbl.put t n x) n = x
  | [] => by simp [Tbl.put, Tbl.get]
  | (k, v) :: t => by
    unfold Tbl.put
    split
    · simp [Tbl.get]
    · split
      · rename_i h; simp [Tbl.get, h]
      · rename_i h; simp [Tbl.get, h, Tbl.get_put_same d n x t]

theorem Tbl.get_put_other {α : Type} (d : α) {n k : Nat} (h : k ≠ n) (x : α) :
    ∀ t : Tbl α, Tbl.get d (Tbl.put t n x) k = Tbl.get d t k
  | [] => by simp [Tbl.put, Tbl.get, h]
  | (j, v) :: t => by
    unfold Tbl.put
    split
    · simp [Tbl.get, h]
    · split
      · rename_i h2; subst h2; simp [Tbl.get, h]
      · simp [Tbl.get, Tbl.get_put_other d h x t]

theorem Tbl.get_del_other {α : Type} (d : α) {n k : Nat} (h : k ≠ n) :
    ∀ t : Tbl α, Tbl.get d (Tbl.del t n) k = Tbl.get d t k
  | [] => rfl
  | (j, v) :: t => by
    unfold Tbl.del
    split
    · rename_i h2; subst h2; simp [Tbl.get, h, Tbl.get_del_other d h t]
    · simp [Tbl.get, Tbl.get_del_other d h t]

theorem Tbl.get_del_same {α : Type} (d : α) (n : Nat) : ∀ t : Tbl α, Tbl.get d (Tbl.del t n) n = d
  | [] => rfl
  | (j, v) :: t => by
    unfold Tbl.del
    split
    · exact Tbl.get_del_same d n t
    · rename_i h; simp only [Tbl.get, h, if_false]; exact Tbl.get_del_same d n t

theorem Tbl.get_set_other {α : Type} [DecidableEq α] (d : α) (t : Tbl α) {n k : Nat} (h : k ≠ n) (x : α) :
    Tbl.get d (Tbl.set d t n x) k = Tbl.get d t k := by
  unfold Tbl.set; split
  · exact Tbl.get_del_other d h t
  · exact Tbl.get_put_other d h x t

@[simp] theorem Tbl.get_set_same {α : Type} [DecidableEq α] (d : α) (t : Tbl α) (n : Nat) (x : α) :
    Tbl.get d (Tbl.set d t n x) n = x := by
  unfold Tbl.set; split
  · rename_i h; rw [h]; exact Tbl.get_del_same d n t
  · exact Tbl.get_put_same d n x t

theorem Tbl.wf_del {α : Type} [DecidableEq α] (d : α) (n : Nat) :
    ∀ (t : Tbl α) (lo : Nat), Tbl.wfFrom d lo t = true → Tbl.wfFrom d lo (Tbl.del t n) = true
  | [], _, _ => rfl
  | (j, v) :: t, lo, hw => by
    simp only [Tbl.wfFrom, Bool.and_eq_true, decide_eq_true_eq] at hw
    unfold Tbl.del
    split
    · exact Tbl.wfFrom_mono d (Tbl.wf_del d n t (j + 1) hw.2) (by omega)
    · simp only [Tbl.wfFrom, Bool.and_eq_true, decide_eq_true_eq]
      exact ⟨hw.1, Tbl.wf_del d n t (j + 1) hw.2⟩

theorem Tbl.wf_put {α : Type} [DecidableEq α] (d : α) {n : Nat} {x : α} (hx : (x != d) = true) :
    ∀ (t : Tbl α) (lo : Nat), lo ≤ n → Tbl.wfFrom d lo t = true → Tbl.wfFrom d lo (Tbl.put t n x) = true
  | [], lo, hl, _ => by simp [Tbl.put, Tbl.wfFrom, hl]; simpa using hx
  | (j, v) :: t, lo, hl, hw => by
    simp only [Tbl.wfFrom, Bool.and_eq_true, decide_eq_true_eq] at hw
    unfold Tbl.put
    split
    · rename_i h
      simp only [Tbl.wfFrom, Bool.and_eq_true, decide_eq_true_eq]
      exact ⟨⟨hl, hx⟩, ⟨by omega, hw.1.2⟩, hw.2⟩
    · split
      · simp only [Tbl.wfFrom, Bool.and_eq_true, decide_eq_true_eq]
        exact ⟨⟨hw.1.1, hx⟩, hw.2⟩
      · rename_i h1 h2
        simp only [Tbl.wfFrom, Bool.and_eq_true, decide_eq_true_eq]
        exact ⟨hw.1, Tbl.wf_put d hx t (j + 1) (by omega) hw.2⟩

theorem Tbl.wf_set {α : Type} [DecidableEq α] (d : α) {t : Tbl α} {lo n : Nat} (x : α) (hl : lo ≤ n)
    (hw : Tbl.wfFrom d lo t = true) : Tbl.wfFrom d lo (Tbl.set d t n x) = true := by
  unfold Tbl.set; split
  · exact Tbl.wf_del d n t lo hw
  · rename_i h; exact Tbl.wf_put d (by simpa using h) t lo hl hw

/-! Lists indexed by number. -/

@[simp] theorem length_setAt {α : Type} (y : α) : ∀ (xs : List α) (n : Nat), (setAt xs n y).length = xs.length
  | [], _ => rfl
  | _ :: _, 0 => rfl
  | _ :: xs, n + 1 => by simp [setAt, length_setAt y xs n]

theorem getD_setAt_same {α : Type} (d y : α) : ∀ (xs : List α) (n : Nat), n < xs.length → (setAt xs n y).getD n d = y
  | _ :: _, 0, _ => rfl
  | _ :: xs, n + 1, h => by simpa [setAt] using getD_setAt_same d y xs n (by simpa using h)

theorem getD_setAt_other {α : Type} (d y : α) :
    ∀ (xs : List α) (n k : Nat), k ≠ n → (setAt xs n y).getD k d = xs.getD k d
  | [], _, _, _ => rfl
  | _ :: _, 0, 0, h => absurd rfl h
  | _ :: _, 0, _ + 1, _ => rfl
  | _ :: _, _ + 1, 0, _ => rfl
  | _ :: xs, n + 1, k + 1, h => by simpa [setAt] using getD_setAt_other d y xs n k (by omega)

theorem Mach.grp_setGrp_same (m : Mach) {i : Nat} (h : i < m.groups.length) (g : Group) : (m.setGrp i g).grp i = g :=
  getD_setAt_same _ _ _ _ h
theorem Mach.grp_setGrp_other (m : Mach) {i k : Nat} (h : k ≠ i) (g : Group) : (m.setGrp i g).grp k = m.grp k :=
  getD_setAt_other _ _ _ _ _ h
theorem Mach.team_setTeam_same (m : Mach) {i : Nat} (h : i < m.teams.length) (t : Team) : (m.setTeam i t).team i = t :=
  getD_setAt_same _ _ _ _ h
theorem Mach.team_setTeam_other (m : Mach) {i k : Nat} (h : k ≠ i) (t : Team) : (m.setTeam i t).team k = m.team k :=
  getD_setAt_other _ _ _ _ _ h
theorem Mach.grid_setGrid_same (m : Mach) {i : Nat} (h : i < m.grids.length) (x : Grid) : (m.setGrid i x).grid i = x :=
  getD_setAt_same _ _ _ _ h
theorem Mach.grid_setGrid_other (m : Mach) {i k : Nat} (h : k ≠ i) (x : Grid) : (m.setGrid i x).grid k = m.grid k :=
  getD_setAt_other _ _ _ _ _ h
theorem Mach.length_setGrp (m : Mach) (i : Nat) (g : Group) : (m.setGrp i g).groups.length = m.groups.length :=
  length_setAt _ _ _

end Sys2Proof.Machine
end

