-- ==== Sys2Proof/Laws/Issue.lean ====
section
/-!
SUPPORT. Sys2Proof/Laws/Issue.lean: everything that issuing a word can do, one lemma per outcome of the word's meaning, and
what the shared operations of a meaning answer.
-/

namespace Sys2Proof.Machine

/-- A word whose class is free and that does not wait its turn in a ripple does what its meaning says. -/
theorem issue_ready {s : State} {gi vi : Nat} {v : Voice} {cls : Pipe} (h : Ready s gi vi v cls) (x : Pre) (ch : Bool)
    (body : Cx → Mach → Eff) :
    issue (some cls) false x ch body s = .next (match body (cxOf s gi vi v false x) s.m with
      | .ok m => memberDone (cxOf s gi vi v false x) v (some cls) ch s.late none m s
      | .late t m => memberDone (cxOf s gi vi v false x) v (some cls) ch (some ((cxOf s gi vi v false x).member, t)) none m s
      | .xfer ds m => memberDone (cxOf s gi vi v false x) v (some cls) ch s.late (some ds) m s
      | .gone m => { s with m := (pushOut ((cxOf s gi vi v false x).settled m) gi).getD
                              (stallAt (cxOf s gi vi v false x).base gi vi (cxOf s gi vi v false x).first {}),
                            chain := none, cur := none }
      | .trap t m bases => trapState (cxOf s gi vi v false x) v t m bases s
      | .stall why => { s with m := stallAt (cxOf s gi vi v false x).base gi vi (cxOf s gi vi v false x).first why,
                               chain := none, cur := none }) := by
  have hc : conflicts s (some cls) = false := h.clear
  simp only [issue, h.cur, h.voice, h.inside, if_true, issueAt, hc, Bool.false_and, Bool.false_eq_true, if_false] <;>
    rfl

/-- The word takes its effect. -/
theorem issue_done {s : State} {gi vi : Nat} {v : Voice} {cls : Pipe} (h : Ready s gi vi v cls) {x : Pre} {ch : Bool}
    {body : Cx → Mach → Eff} {m : Mach} (hb : body (cxOf s gi vi v false x) s.m = .ok m) :
    issue (some cls) false x ch body s = .next (doneState s gi vi v cls x ch m) := by
  rw [issue_ready h, hb]; rfl

/-- The word raises a cause before it writes anything. -/
theorem issue_cause {s : State} {gi vi : Nat} {v : Voice} {cls : Pipe} (h : Ready s gi vi v cls) {x : Pre} {ch : Bool}
    {body : Cx → Mach → Eff} {k : Cause} {addr : Word} {mask : Mask}
    (hb : body (cxOf s gi vi v false x) s.m = (cxOf s gi vi v false x).raise k addr mask) :
    issue (some cls) false x ch body s = .next (causeState s gi vi v false x k addr mask) := by
  rw [issue_ready h, hb]; rfl

/-- The word stalls in place. -/
theorem issue_stall {s : State} {gi vi : Nat} {v : Voice} {cls : Pipe} (h : Ready s gi vi v cls) {x : Pre} {ch : Bool}
    {body : Cx → Mach → Eff} (hb : body (cxOf s gi vi v false x) s.m = .stall {}) :
    issue (some cls) false x ch body s = .next (stallState s gi vi v false x) := by
  rw [issue_ready h, hb]; rfl

/-- A word of a class that its chain has used raises CHAIN_CONFLICT (01 R10). -/
theorem issue_conflict {s : State} {gi vi : Nat} {v : Voice} {cls : Pipe} (h : Issues s gi vi v) (hc : s.used.contains cls = true)
    (x : Pre) (ch : Bool) (body : Cx → Mach → Eff) :
    issue (some cls) false x ch body s =
      .next (causeState s gi vi v false x .chainConflict (cxOf s gi vi v false x).waddr (cxOf s gi vi v false x).act) := by
  have hc' : conflicts s (some cls) = true := hc
  simp only [issue, h.cur, h.voice, h.inside, if_true, issueAt, hc']
  rfl

/-- A transfer word whose voice has no lane of a ripple left to run. -/
theorem issue_xfer {s : State} {gi vi : Nat} {v : Voice} {cls : Pipe} (h : Ready s gi vi v cls) (hr : v.lastLane) {x : Pre}
    {body : Cx → Mach → Eff} {ds : List (Nat × Option Nat)} {m : Mach}
    (hb : body (cxOf s gi vi v true x) s.m = .xfer ds m) :
    issue (some cls) true x false body s = .next (memberDone (cxOf s gi vi v true x) v (some cls) false s.late (some ds) m s) := by
  have hc : conflicts s (some cls) = false := h.clear
  rcases hv : v.ripple with _ | r
  · simp only [issue, h.cur, h.voice, h.inside, if_true, issueAt, hc, hv, hb]; rfl
  · simp only [issue, h.cur, h.voice, h.inside, if_true, issueAt, hc, hv, hb, hr r hv]; rfl

/-- A transfer word that raises a cause. -/
theorem issue_xfer_cause {s : State} {gi vi : Nat} {v : Voice} {cls : Pipe} (h : Ready s gi vi v cls) (hr : v.lastLane)
    {x : Pre} {body : Cx → Mach → Eff} {k : Cause} {addr : Word} {mask : Mask}
    (hb : body (cxOf s gi vi v true x) s.m = (cxOf s gi vi v true x).raise k addr mask) :
    issue (some cls) true x false body s = .next (causeState s gi vi v true x k addr mask) := by
  have hc : conflicts s (some cls) = false := h.clear
  rcases hv : v.ripple with _ | r
  · simp only [issue, h.cur, h.voice, h.inside, if_true, issueAt, hc, hv, hb]; rfl
  · simp only [issue, h.cur, h.voice, h.inside, if_true, issueAt, hc, hv, hb, hr r hv]; rfl

/-- Issuing a word never refuses. -/
theorem issue_not_refused (cls : Option Pipe) (xf : Bool) (x : Pre) (ch : Bool) (body : Cx → Mach → Eff) (s : State) (r : Refusal) :
    issue cls xf x ch body s ≠ .refused r := by
  unfold issue
  split
  · simp
  · split
    · simp
    · split <;> simp

/-- A long-latency word whose counter is below 63 is outstanding (01 R22, 08 R204). -/
theorem Cx.long_ok (c : Cx) (m : Mach) (flag : Option Nat) (wr : List RegWr) (dsts : List Nat) (wait : Wait) (e : Nat) (f : Bool)
    (h : saturated (m.grp c.gi) flag = false) :
    c.long m flag wr dsts wait e f = .ok (outstandingIn m c.gi c.vi c.word c.g.nextId flag wr dsts wait e f) := by
  unfold Cx.long outstandingIn
  rcases hr : (Tbl.get default (m.grp c.gi).voices c.vi).ripple with _ | r
  · simp [hr, h]
  · rcases hh : r.held.find? fun h => h.1 = c.word with _ | k
    · simp [hr, hh, h]
    · simp [hr, hh]

/-- A long-latency word whose counter holds 63 stalls in place (01 R22), unless it is a further lane of a ripple's word, which
has raised the counter already (08 R204). -/
theorem Cx.long_stall (c : Cx) (m : Mach) (flag : Option Nat) (wr : List RegWr) (dsts : List Nat) (wait : Wait) (e : Nat) (f : Bool)
    (hn : ∀ r, (Tbl.get default (m.grp c.gi).voices c.vi).ripple = some r → r.held.find? (fun h => h.1 = c.word) = none)
    (h : saturated (m.grp c.gi) flag = true) : c.long m flag wr dsts wait e f = .stall {} := by
  unfold Cx.long
  rcases hr : (Tbl.get default (m.grp c.gi).voices c.vi).ripple with _ | r
  · simp [hr, h]
  · simp [hr, hn r hr, h]

/-- A voice exists only in a group that exists. -/
theorem voiceAt_lt {m : Mach} {gi vi : Nat} {v : Voice} (h : voiceAt m gi vi = some v) : gi < m.groups.length := by
  by_contra hn
  have : m.grp gi = default := by
    unfold Mach.grp
    rw [List.getD_eq_getElem?_getD, List.getElem?_eq_none (by omega)]
    rfl
  simp only [voiceAt, this] at h
  cases h

end Sys2Proof.Machine
end

