-- ==== Sys2Proof/Laws/Alu.lean ====
section
/-!
SUPPORT. Sys2Proof/Laws/Alu.lean: what a word with register operands does once its fields are legal, its sources read and its
destination written, and what reading and writing operands can change.
-/

namespace Sys2Proof.Machine

/-- A word whose result is written at issue. -/
theorem aluWord_done {s : State} {gi vi : Nat} {v : Voice} {p : Pipe} {x : Pre} {ch : Bool} {u : Use} {d a b : Nat}
    {f : Cx → Nat → Word → Word → Word → Word → Word × Exc} (h : Ready s gi vi v (destClass x p d)) (hl : u.long = false)
    (h1 : (cxOf s gi vi v false x).preOk u = true) (h2 : (cxOf s gi vi v false x).fieldsOk u d a b = true)
    {m1 m2 : Mach} {va vb vc : Nat → Word} (hs : (cxOf s gi vi v false x).sources s.m u a b = .ok (m1, va, vb, vc))
    {rs : List (Nat × Word × Exc)}
    (hr : rs = (cxOf s gi vi v false x).lanes.map fun l => (l, f (cxOf s gi vi v false x) l (va l) (vb l) (vc l)
      (if u.rmw then (cxOf s gi vi v false x).oldVal m1 d l else 0)))
    (hw : (cxOf s gi vi v false x).write m1 d (rs.map fun r => (r.1, r.2.1)) = .ok m2) :
    aluWord p x ch u d a b f s = .next (doneState s gi vi v (destClass x p d) x ch
      (if rs.foldl (fun e r => e ||| r.2.2) 0 = 0 then m2
       else (cxOf s gi vi v false x).orExc m2 (rs.foldl (fun e r => e ||| r.2.2) 0))) := by
  unfold aluWord
  apply issue_done h
  simp only [aluBody, h1, h2, hs, hl, Bool.and_self, Bool.not_true, Bool.false_eq_true, if_false]
  rw [← hr, hw]
  by_cases h0 : rs.foldl (fun e r => e ||| r.2.2) 0 = 0
  · rw [if_pos h0, if_pos h0]
  · rw [if_neg h0, if_neg h0]

/-- A word with an illegal field raises ILLEGAL_OP. -/
theorem aluWord_illegal {s : State} {gi vi : Nat} {v : Voice} {p : Pipe} {x : Pre} {ch : Bool} {u : Use} {d a b : Nat}
    {f : Cx → Nat → Word → Word → Word → Word → Word × Exc} (h : Ready s gi vi v (destClass x p d))
    (hn : ((cxOf s gi vi v false x).preOk u && (cxOf s gi vi v false x).fieldsOk u d a b) = false) :
    aluWord p x ch u d a b f s =
      .next (causeState s gi vi v false x .illegalOp (cxOf s gi vi v false x).waddr (cxOf s gi vi v false x).act) := by
  unfold aluWord
  apply issue_cause h
  simp only [aluBody, hn, Bool.not_false, if_true]
  rfl

/-- A word with register operands whose result is written at issue. -/
theorem aluBody_done {c : Cx} {m : Mach} {u : Use} {d a b : Nat} {f : Cx → Nat → Word → Word → Word → Word → Word × Exc}
    (hl : u.long = false) (h1 : c.preOk u = true) (h2 : c.fieldsOk u d a b = true)
    {m1 m2 : Mach} {va vb vc : Nat → Word} (hs : c.sources m u a b = .ok (m1, va, vb, vc)) {rs : List (Nat × Word × Exc)}
    (hr : rs = c.lanes.map fun l => (l, f c l (va l) (vb l) (vc l) (if u.rmw then c.oldVal m1 d l else 0)))
    (hw : c.write m1 d (rs.map fun r => (r.1, r.2.1)) = .ok m2) :
    aluBody u d a b f c m = .ok (if rs.foldl (fun e r => e ||| r.2.2) 0 = 0 then m2
      else c.orExc m2 (rs.foldl (fun e r => e ||| r.2.2) 0)) := by
  simp only [aluBody, h1, h2, hs, hl, Bool.and_self, Bool.not_true, Bool.false_eq_true, if_false]
  rw [← hr, hw]
  by_cases h0 : rs.foldl (fun e r => e ||| r.2.2) 0 = 0
  · rw [if_pos h0, if_pos h0]
  · rw [if_neg h0, if_neg h0]

/-- A word with a part number that is legal, its result written at issue. -/
theorem partBody_done {c : Cx} {m : Mach} {ok : Bool} {u : Use} {d a : Nat} {f : Cx → Word → Word → Word × Exc}
    (hk : ok = true) (hq : ((c.pre.indexed 0).isNone && (opdOf c.pre 0 d).isQ) = false) (hl : u.long = false)
    (h1 : c.preOk u = true) (h2 : c.fieldsOk u d a 0 = true) {m1 m2 : Mach} {va vb vc : Nat → Word}
    (hs : c.sources m u a 0 = .ok (m1, va, vb, vc)) {rs : List (Nat × Word × Exc)}
    (hr : rs = c.lanes.map fun l => (l, f c (va l) (c.oldVal m1 d l)))
    (hw : c.write m1 d (rs.map fun r => (r.1, r.2.1)) = .ok m2) :
    partBody ok u d a f c m = .ok (if rs.foldl (fun e r => e ||| r.2.2) 0 = 0 then m2
      else c.orExc m2 (rs.foldl (fun e r => e ||| r.2.2) 0)) := by
  have h : aluBody { u with rmw := true } d a 0 (fun c _ va _ _ old => f c va old) c m = _ :=
    aluBody_done (u := { u with rmw := true }) hl h1 h2 hs hr hw
  simp only [partBody, hk, hq, Bool.not_true, Bool.or_self, Bool.false_eq_true, if_false, h]

/-- A word with an illegal part, or with a queue for d. -/
theorem partBody_illegal {c : Cx} {m : Mach} {ok : Bool} {u : Use} {d a : Nat} {f : Cx → Word → Word → Word × Exc}
    (h : ok = false ∨ ((c.pre.indexed 0).isNone && (opdOf c.pre 0 d).isQ) = true) : partBody ok u d a f c m = c.illegal := by
  unfold partBody
  rcases h with h | h <;> simp [h]

/-- A long-latency word with register operands is outstanding with the results of its lanes (01 R22). -/
theorem aluBody_long {c : Cx} {m : Mach} {u : Use} {d a b : Nat} {f : Cx → Nat → Word → Word → Word → Word → Word × Exc}
    (hl : u.long = true) (h1 : c.preOk u = true) (h2 : c.fieldsOk u d a b = true) (h3 : c.destStop d = none) (hne : c.lanes ≠ [])
    (hq : ((c.pre.indexed 0).isNone && (opdOf c.pre 0 d).isQ) = false) {m1 : Mach} {va vb vc : Nat → Word}
    (hs : c.sources m u a b = .ok (m1, va, vb, vc)) (hsat : saturated (m1.grp c.gi) (c.regFlag c.pre.flg) = false)
    {rs : List (Nat × Word × Exc)} (hr : rs = c.lanes.map fun l => (l, f c l (va l) (vb l) (vc l) (if u.rmw then c.oldVal m1 d l else 0))) :
    aluBody u d a b f c m = .ok (outstandingIn m1 c.gi c.vi c.word c.g.nextId (c.regFlag c.pre.flg)
      (c.wrOf d (rs.map fun r => (r.1, r.2.1))).1 (c.wrOf d (rs.map fun r => (r.1, r.2.1))).2 .ready
      (enabledExc c.g.mode (rs.foldl (fun e r => e ||| r.2.2) 0)) true) := by
  have hv : (rs.map fun r => (r.1, r.2.1)).isEmpty = false := by
    subst hr
    cases hc : c.lanes with
    | nil => exact absurd hc hne
    | cons l ls => rfl
  simp only [aluBody, h1, h2, hs, hl, Bool.and_self, Bool.not_true, Bool.false_eq_true, if_false, if_true]
  rw [← hr]
  simp only [Cx.longResult, hv, h3, Bool.false_eq_true, if_false]
  split
  · rename_i n ha hb
    rw [ha, hb] at hq
    cases hq
  · exact Cx.long_ok _ _ _ _ _ _ _ _ hsat

/-- A word that compares its sources into a predicate. -/
theorem predBody_done {c : Cx} {m : Mach} {u : Use} {p a b : Nat} {f : Cx → Word → Word → Bool × Exc}
    (h1 : c.preOk u = true) (h2 : c.fieldsOk u 0 a b = true) {m1 : Mach} {va vb vc : Nat → Word}
    (hs : c.sources m u a b = .ok (m1, va, vb, vc)) {rs : List (Nat × Bool × Exc)}
    (hr : rs = c.lanes.map fun l => (l, f c (va l) (vb l))) :
    predBody u p a b f c m = .ok
      (let m2 := c.writePred m1 p fun l => ((rs.find? fun r => r.1 = l).map fun r => r.2.1).getD false
       if rs.foldl (fun e r => e ||| r.2.2) 0 = 0 then m2 else c.orExc m2 (rs.foldl (fun e r => e ||| r.2.2) 0)) := by
  subst hr
  simp only [predBody, h1, h2, hs, Bool.and_self, Bool.not_true, Bool.false_eq_true, if_false]

end Sys2Proof.Machine
end

