-- ==== Sys2Proof/Laws/State.lean ====
section
/-!
SUPPORT. Sys2Proof/Laws/State.lean: what each update of the device and of a group leaves in every other field, one lemma per
field and update, so that no later proof unfolds a record update.
-/

namespace Sys2Proof.Machine

/-! `Mach.setPart` changes `parts` alone. -/

@[simp] theorem Mach.setPart_time (m : Mach) (p : Nat) (y : Part) : (m.setPart p y).time = m.time := rfl
@[simp] theorem Mach.setPart_fresh (m : Mach) (p : Nat) (y : Part) : (m.setPart p y).fresh = m.fresh := rfl
@[simp] theorem Mach.setPart_mem (m : Mach) (p : Nat) (y : Part) : (m.setPart p y).mem = m.mem := rfl
@[simp] theorem Mach.setPart_poison (m : Mach) (p : Nat) (y : Part) : (m.setPart p y).poison = m.poison := rfl
@[simp] theorem Mach.setPart_c1 (m : Mach) (p : Nat) (y : Part) : (m.setPart p y).c1 = m.c1 := rfl
@[simp] theorem Mach.setPart_past (m : Mach) (p : Nat) (y : Part) : (m.setPart p y).past = m.past := rfl
@[simp] theorem Mach.setPart_adm (m : Mach) (p : Nat) (y : Part) : (m.setPart p y).adm = m.adm := rfl
@[simp] theorem Mach.setPart_groups (m : Mach) (p : Nat) (y : Part) : (m.setPart p y).groups = m.groups := rfl
@[simp] theorem Mach.setPart_teams (m : Mach) (p : Nat) (y : Part) : (m.setPart p y).teams = m.teams := rfl
@[simp] theorem Mach.setPart_grids (m : Mach) (p : Nat) (y : Part) : (m.setPart p y).grids = m.grids := rfl
@[simp] theorem Mach.setPart_cores (m : Mach) (p : Nat) (y : Part) : (m.setPart p y).cores = m.cores := rfl
@[simp] theorem Mach.setPart_mcs (m : Mach) (p : Nat) (y : Part) : (m.setPart p y).mcs = m.mcs := rfl
@[simp] theorem Mach.setPart_colls (m : Mach) (p : Nat) (y : Part) : (m.setPart p y).colls = m.colls := rfl
@[simp] theorem Mach.setPart_areas (m : Mach) (p : Nat) (y : Part) : (m.setPart p y).areas = m.areas := rfl
@[simp] theorem Mach.setPart_pk (m : Mach) (p : Nat) (y : Part) : (m.setPart p y).pk = m.pk := rfl
@[simp] theorem Mach.setPart_core (m : Mach) (p : Nat) (y : Part) (k l : Nat) : (m.setPart p y).core k l = m.core k l := rfl
@[simp] theorem Mach.setPart_mc (m : Mach) (p : Nat) (y : Part) (k : Nat) : (m.setPart p y).mc k = m.mc k := rfl
@[simp] theorem Mach.setPart_grp (m : Mach) (p : Nat) (y : Part) (k : Nat) : (m.setPart p y).grp k = m.grp k := rfl
@[simp] theorem Mach.setPart_team (m : Mach) (p : Nat) (y : Part) (k : Nat) : (m.setPart p y).team k = m.team k := rfl
@[simp] theorem Mach.setPart_grid (m : Mach) (p : Nat) (y : Part) (k : Nat) : (m.setPart p y).grid k = m.grid k := rfl

/-! `Mach.setCore` changes `cores` alone. -/

@[simp] theorem Mach.setCore_time (m : Mach) (d c : Nat) (y : Core) : (m.setCore d c y).time = m.time := rfl
@[simp] theorem Mach.setCore_fresh (m : Mach) (d c : Nat) (y : Core) : (m.setCore d c y).fresh = m.fresh := rfl
@[simp] theorem Mach.setCore_mem (m : Mach) (d c : Nat) (y : Core) : (m.setCore d c y).mem = m.mem := rfl
@[simp] theorem Mach.setCore_poison (m : Mach) (d c : Nat) (y : Core) : (m.setCore d c y).poison = m.poison := rfl
@[simp] theorem Mach.setCore_c1 (m : Mach) (d c : Nat) (y : Core) : (m.setCore d c y).c1 = m.c1 := rfl
@[simp] theorem Mach.setCore_past (m : Mach) (d c : Nat) (y : Core) : (m.setCore d c y).past = m.past := rfl
@[simp] theorem Mach.setCore_adm (m : Mach) (d c : Nat) (y : Core) : (m.setCore d c y).adm = m.adm := rfl
@[simp] theorem Mach.setCore_parts (m : Mach) (d c : Nat) (y : Core) : (m.setCore d c y).parts = m.parts := rfl
@[simp] theorem Mach.setCore_groups (m : Mach) (d c : Nat) (y : Core) : (m.setCore d c y).groups = m.groups := rfl
@[simp] theorem Mach.setCore_teams (m : Mach) (d c : Nat) (y : Core) : (m.setCore d c y).teams = m.teams := rfl
@[simp] theorem Mach.setCore_grids (m : Mach) (d c : Nat) (y : Core) : (m.setCore d c y).grids = m.grids := rfl
@[simp] theorem Mach.setCore_mcs (m : Mach) (d c : Nat) (y : Core) : (m.setCore d c y).mcs = m.mcs := rfl
@[simp] theorem Mach.setCore_colls (m : Mach) (d c : Nat) (y : Core) : (m.setCore d c y).colls = m.colls := rfl
@[simp] theorem Mach.setCore_areas (m : Mach) (d c : Nat) (y : Core) : (m.setCore d c y).areas = m.areas := rfl
@[simp] theorem Mach.setCore_pk (m : Mach) (d c : Nat) (y : Core) : (m.setCore d c y).pk = m.pk := rfl
@[simp] theorem Mach.setCore_part (m : Mach) (d c : Nat) (y : Core) (k : Nat) : (m.setCore d c y).part k = m.part k := rfl
@[simp] theorem Mach.setCore_mc (m : Mach) (d c : Nat) (y : Core) (k : Nat) : (m.setCore d c y).mc k = m.mc k := rfl
@[simp] theorem Mach.setCore_grp (m : Mach) (d c : Nat) (y : Core) (k : Nat) : (m.setCore d c y).grp k = m.grp k := rfl
@[simp] theorem Mach.setCore_team (m : Mach) (d c : Nat) (y : Core) (k : Nat) : (m.setCore d c y).team k = m.team k := rfl
@[simp] theorem Mach.setCore_grid (m : Mach) (d c : Nat) (y : Core) (k : Nat) : (m.setCore d c y).grid k = m.grid k := rfl

/-! `Mach.setMc` changes `mcs` alone. -/

@[simp] theorem Mach.setMc_time (m : Mach) (d : Nat) (y : MemDie) : (m.setMc d y).time = m.time := rfl
@[simp] theorem Mach.setMc_fresh (m : Mach) (d : Nat) (y : MemDie) : (m.setMc d y).fresh = m.fresh := rfl
@[simp] theorem Mach.setMc_mem (m : Mach) (d : Nat) (y : MemDie) : (m.setMc d y).mem = m.mem := rfl
@[simp] theorem Mach.setMc_poison (m : Mach) (d : Nat) (y : MemDie) : (m.setMc d y).poison = m.poison := rfl
@[simp] theorem Mach.setMc_c1 (m : Mach) (d : Nat) (y : MemDie) : (m.setMc d y).c1 = m.c1 := rfl
@[simp] theorem Mach.setMc_past (m : Mach) (d : Nat) (y : MemDie) : (m.setMc d y).past = m.past := rfl
@[simp] theorem Mach.setMc_adm (m : Mach) (d : Nat) (y : MemDie) : (m.setMc d y).adm = m.adm := rfl
@[simp] theorem Mach.setMc_parts (m : Mach) (d : Nat) (y : MemDie) : (m.setMc d y).parts = m.parts := rfl
@[simp] theorem Mach.setMc_groups (m : Mach) (d : Nat) (y : MemDie) : (m.setMc d y).groups = m.groups := rfl
@[simp] theorem Mach.setMc_teams (m : Mach) (d : Nat) (y : MemDie) : (m.setMc d y).teams = m.teams := rfl
@[simp] theorem Mach.setMc_grids (m : Mach) (d : Nat) (y : MemDie) : (m.setMc d y).grids = m.grids := rfl
@[simp] theorem Mach.setMc_cores (m : Mach) (d : Nat) (y : MemDie) : (m.setMc d y).cores = m.cores := rfl
@[simp] theorem Mach.setMc_colls (m : Mach) (d : Nat) (y : MemDie) : (m.setMc d y).colls = m.colls := rfl
@[simp] theorem Mach.setMc_areas (m : Mach) (d : Nat) (y : MemDie) : (m.setMc d y).areas = m.areas := rfl
@[simp] theorem Mach.setMc_pk (m : Mach) (d : Nat) (y : MemDie) : (m.setMc d y).pk = m.pk := rfl
@[simp] theorem Mach.setMc_part (m : Mach) (d : Nat) (y : MemDie) (k : Nat) : (m.setMc d y).part k = m.part k := rfl
@[simp] theorem Mach.setMc_core (m : Mach) (d : Nat) (y : MemDie) (k l : Nat) : (m.setMc d y).core k l = m.core k l := rfl
@[simp] theorem Mach.setMc_grp (m : Mach) (d : Nat) (y : MemDie) (k : Nat) : (m.setMc d y).grp k = m.grp k := rfl
@[simp] theorem Mach.setMc_team (m : Mach) (d : Nat) (y : MemDie) (k : Nat) : (m.setMc d y).team k = m.team k := rfl
@[simp] theorem Mach.setMc_grid (m : Mach) (d : Nat) (y : MemDie) (k : Nat) : (m.setMc d y).grid k = m.grid k := rfl

/-! `Mach.setGrp` changes `groups` alone. -/

@[simp] theorem Mach.setGrp_time (m : Mach) (i : Nat) (y : Group) : (m.setGrp i y).time = m.time := rfl
@[simp] theorem Mach.setGrp_fresh (m : Mach) (i : Nat) (y : Group) : (m.setGrp i y).fresh = m.fresh := rfl
@[simp] theorem Mach.setGrp_mem (m : Mach) (i : Nat) (y : Group) : (m.setGrp i y).mem = m.mem := rfl
@[simp] theorem Mach.setGrp_poison (m : Mach) (i : Nat) (y : Group) : (m.setGrp i y).poison = m.poison := rfl
@[simp] theorem Mach.setGrp_c1 (m : Mach) (i : Nat) (y : Group) : (m.setGrp i y).c1 = m.c1 := rfl
@[simp] theorem Mach.setGrp_past (m : Mach) (i : Nat) (y : Group) : (m.setGrp i y).past = m.past := rfl
@[simp] theorem Mach.setGrp_adm (m : Mach) (i : Nat) (y : Group) : (m.setGrp i y).adm = m.adm := rfl
@[simp] theorem Mach.setGrp_parts (m : Mach) (i : Nat) (y : Group) : (m.setGrp i y).parts = m.parts := rfl
@[simp] theorem Mach.setGrp_teams (m : Mach) (i : Nat) (y : Group) : (m.setGrp i y).teams = m.teams := rfl
@[simp] theorem Mach.setGrp_grids (m : Mach) (i : Nat) (y : Group) : (m.setGrp i y).grids = m.grids := rfl
@[simp] theorem Mach.setGrp_cores (m : Mach) (i : Nat) (y : Group) : (m.setGrp i y).cores = m.cores := rfl
@[simp] theorem Mach.setGrp_mcs (m : Mach) (i : Nat) (y : Group) : (m.setGrp i y).mcs = m.mcs := rfl
@[simp] theorem Mach.setGrp_colls (m : Mach) (i : Nat) (y : Group) : (m.setGrp i y).colls = m.colls := rfl
@[simp] theorem Mach.setGrp_areas (m : Mach) (i : Nat) (y : Group) : (m.setGrp i y).areas = m.areas := rfl
@[simp] theorem Mach.setGrp_pk (m : Mach) (i : Nat) (y : Group) : (m.setGrp i y).pk = m.pk := rfl
@[simp] theorem Mach.setGrp_part (m : Mach) (i : Nat) (y : Group) (k : Nat) : (m.setGrp i y).part k = m.part k := rfl
@[simp] theorem Mach.setGrp_core (m : Mach) (i : Nat) (y : Group) (k l : Nat) : (m.setGrp i y).core k l = m.core k l := rfl
@[simp] theorem Mach.setGrp_mc (m : Mach) (i : Nat) (y : Group) (k : Nat) : (m.setGrp i y).mc k = m.mc k := rfl
@[simp] theorem Mach.setGrp_team (m : Mach) (i : Nat) (y : Group) (k : Nat) : (m.setGrp i y).team k = m.team k := rfl
@[simp] theorem Mach.setGrp_grid (m : Mach) (i : Nat) (y : Group) (k : Nat) : (m.setGrp i y).grid k = m.grid k := rfl

/-! `Mach.setTeam` changes `teams` alone. -/

@[simp] theorem Mach.setTeam_time (m : Mach) (i : Nat) (y : Team) : (m.setTeam i y).time = m.time := rfl
@[simp] theorem Mach.setTeam_fresh (m : Mach) (i : Nat) (y : Team) : (m.setTeam i y).fresh = m.fresh := rfl
@[simp] theorem Mach.setTeam_mem (m : Mach) (i : Nat) (y : Team) : (m.setTeam i y).mem = m.mem := rfl
@[simp] theorem Mach.setTeam_poison (m : Mach) (i : Nat) (y : Team) : (m.setTeam i y).poison = m.poison := rfl
@[simp] theorem Mach.setTeam_c1 (m : Mach) (i : Nat) (y : Team) : (m.setTeam i y).c1 = m.c1 := rfl
@[simp] theorem Mach.setTeam_past (m : Mach) (i : Nat) (y : Team) : (m.setTeam i y).past = m.past := rfl
@[simp] theorem Mach.setTeam_adm (m : Mach) (i : Nat) (y : Team) : (m.setTeam i y).adm = m.adm := rfl
@[simp] theorem Mach.setTeam_parts (m : Mach) (i : Nat) (y : Team) : (m.setTeam i y).parts = m.parts := rfl
@[simp] theorem Mach.setTeam_groups (m : Mach) (i : Nat) (y : Team) : (m.setTeam i y).groups = m.groups := rfl
@[simp] theorem Mach.setTeam_grids (m : Mach) (i : Nat) (y : Team) : (m.setTeam i y).grids = m.grids := rfl
@[simp] theorem Mach.setTeam_cores (m : Mach) (i : Nat) (y : Team) : (m.setTeam i y).cores = m.cores := rfl
@[simp] theorem Mach.setTeam_mcs (m : Mach) (i : Nat) (y : Team) : (m.setTeam i y).mcs = m.mcs := rfl
@[simp] theorem Mach.setTeam_colls (m : Mach) (i : Nat) (y : Team) : (m.setTeam i y).colls = m.colls := rfl
@[simp] theorem Mach.setTeam_areas (m : Mach) (i : Nat) (y : Team) : (m.setTeam i y).areas = m.areas := rfl
@[simp] theorem Mach.setTeam_pk (m : Mach) (i : Nat) (y : Team) : (m.setTeam i y).pk = m.pk := rfl
@[simp] theorem Mach.setTeam_part (m : Mach) (i : Nat) (y : Team) (k : Nat) : (m.setTeam i y).part k = m.part k := rfl
@[simp] theorem Mach.setTeam_core (m : Mach) (i : Nat) (y : Team) (k l : Nat) : (m.setTeam i y).core k l = m.core k l := rfl
@[simp] theorem Mach.setTeam_mc (m : Mach) (i : Nat) (y : Team) (k : Nat) : (m.setTeam i y).mc k = m.mc k := rfl
@[simp] theorem Mach.setTeam_grp (m : Mach) (i : Nat) (y : Team) (k : Nat) : (m.setTeam i y).grp k = m.grp k := rfl
@[simp] theorem Mach.setTeam_grid (m : Mach) (i : Nat) (y : Team) (k : Nat) : (m.setTeam i y).grid k = m.grid k := rfl

/-! `Mach.setGrid` changes `grids` alone. -/

@[simp] theorem Mach.setGrid_time (m : Mach) (i : Nat) (y : Grid) : (m.setGrid i y).time = m.time := rfl
@[simp] theorem Mach.setGrid_fresh (m : Mach) (i : Nat) (y : Grid) : (m.setGrid i y).fresh = m.fresh := rfl
@[simp] theorem Mach.setGrid_mem (m : Mach) (i : Nat) (y : Grid) : (m.setGrid i y).mem = m.mem := rfl
@[simp] theorem Mach.setGrid_poison (m : Mach) (i : Nat) (y : Grid) : (m.setGrid i y).poison = m.poison := rfl
@[simp] theorem Mach.setGrid_c1 (m : Mach) (i : Nat) (y : Grid) : (m.setGrid i y).c1 = m.c1 := rfl
@[simp] theorem Mach.setGrid_past (m : Mach) (i : Nat) (y : Grid) : (m.setGrid i y).past = m.past := rfl
@[simp] theorem Mach.setGrid_adm (m : Mach) (i : Nat) (y : Grid) : (m.setGrid i y).adm = m.adm := rfl
@[simp] theorem Mach.setGrid_parts (m : Mach) (i : Nat) (y : Grid) : (m.setGrid i y).parts = m.parts := rfl
@[simp] theorem Mach.setGrid_groups (m : Mach) (i : Nat) (y : Grid) : (m.setGrid i y).groups = m.groups := rfl
@[simp] theorem Mach.setGrid_teams (m : Mach) (i : Nat) (y : Grid) : (m.setGrid i y).teams = m.teams := rfl
@[simp] theorem Mach.setGrid_cores (m : Mach) (i : Nat) (y : Grid) : (m.setGrid i y).cores = m.cores := rfl
@[simp] theorem Mach.setGrid_mcs (m : Mach) (i : Nat) (y : Grid) : (m.setGrid i y).mcs = m.mcs := rfl
@[simp] theorem Mach.setGrid_colls (m : Mach) (i : Nat) (y : Grid) : (m.setGrid i y).colls = m.colls := rfl
@[simp] theorem Mach.setGrid_areas (m : Mach) (i : Nat) (y : Grid) : (m.setGrid i y).areas = m.areas := rfl
@[simp] theorem Mach.setGrid_pk (m : Mach) (i : Nat) (y : Grid) : (m.setGrid i y).pk = m.pk := rfl
@[simp] theorem Mach.setGrid_part (m : Mach) (i : Nat) (y : Grid) (k : Nat) : (m.setGrid i y).part k = m.part k := rfl
@[simp] theorem Mach.setGrid_core (m : Mach) (i : Nat) (y : Grid) (k l : Nat) : (m.setGrid i y).core k l = m.core k l := rfl
@[simp] theorem Mach.setGrid_mc (m : Mach) (i : Nat) (y : Grid) (k : Nat) : (m.setGrid i y).mc k = m.mc k := rfl
@[simp] theorem Mach.setGrid_grp (m : Mach) (i : Nat) (y : Grid) (k : Nat) : (m.setGrid i y).grp k = m.grp k := rfl
@[simp] theorem Mach.setGrid_team (m : Mach) (i : Nat) (y : Grid) (k : Nat) : (m.setGrid i y).team k = m.team k := rfl

/-! `writeVec` changes `v`, and marks in `outst` what it overwrote. -/

@[simp] theorem writeVec_grid (g : Group) (r : Nat) (xs : List (Nat × Word)) (src : Option (Nat × Nat)) : (writeVec g r xs src).grid = g.grid := rfl
@[simp] theorem writeVec_team (g : Group) (r : Nat) (xs : List (Nat × Word)) (src : Option (Nat × Nat)) : (writeVec g r xs src).team = g.team := rfl
@[simp] theorem writeVec_gid (g : Group) (r : Nat) (xs : List (Nat × Word)) (src : Option (Nat × Nat)) : (writeVec g r xs src).gid = g.gid := rfl
@[simp] theorem writeVec_width (g : Group) (r : Nat) (xs : List (Nat × Word)) (src : Option (Nat × Nat)) : (writeVec g r xs src).width = g.width := rfl
@[simp] theorem writeVec_die (g : Group) (r : Nat) (xs : List (Nat × Word)) (src : Option (Nat × Nat)) : (writeVec g r xs src).die = g.die := rfl
@[simp] theorem writeVec_core (g : Group) (r : Nat) (xs : List (Nat × Word)) (src : Option (Nat × Nat)) : (writeVec g r xs src).core = g.core := rfl
@[simp] theorem writeVec_slot (g : Group) (r : Nat) (xs : List (Nat × Word)) (src : Option (Nat × Nat)) : (writeVec g r xs src).slot = g.slot := rfl
@[simp] theorem writeVec_quarter (g : Group) (r : Nat) (xs : List (Nat × Word)) (src : Option (Nat × Nat)) : (writeVec g r xs src).quarter = g.quarter := rfl
@[simp] theorem writeVec_resid (g : Group) (r : Nat) (xs : List (Nat × Word)) (src : Option (Nat × Nat)) : (writeVec g r xs src).resid = g.resid := rfl
@[simp] theorem writeVec_voices (g : Group) (r : Nat) (xs : List (Nat × Word)) (src : Option (Nat × Nat)) : (writeVec g r xs src).voices = g.voices := rfl
@[simp] theorem writeVec_park (g : Group) (r : Nat) (xs : List (Nat × Word)) (src : Option (Nat × Nat)) : (writeVec g r xs src).park = g.park := rfl
@[simp] theorem writeVec_live (g : Group) (r : Nat) (xs : List (Nat × Word)) (src : Option (Nat × Nat)) : (writeVec g r xs src).live = g.live := rfl
@[simp] theorem writeVec_nv (g : Group) (r : Nat) (xs : List (Nat × Word)) (src : Option (Nat × Nat)) : (writeVec g r xs src).nv = g.nv := rfl
@[simp] theorem writeVec_s (g : Group) (r : Nat) (xs : List (Nat × Word)) (src : Option (Nat × Nat)) : (writeVec g r xs src).s = g.s := rfl
@[simp] theorem writeVec_ns (g : Group) (r : Nat) (xs : List (Nat × Word)) (src : Option (Nat × Nat)) : (writeVec g r xs src).ns = g.ns := rfl
@[simp] theorem writeVec_p (g : Group) (r : Nat) (xs : List (Nat × Word)) (src : Option (Nat × Nat)) : (writeVec g r xs src).p = g.p := rfl
@[simp] theorem writeVec_x (g : Group) (r : Nat) (xs : List (Nat × Word)) (src : Option (Nat × Nat)) : (writeVec g r xs src).x = g.x := rfl
@[simp] theorem writeVec_ly (g : Group) (r : Nat) (xs : List (Nat × Word)) (src : Option (Nat × Nat)) : (writeVec g r xs src).ly = g.ly := rfl
@[simp] theorem writeVec_q (g : Group) (r : Nat) (xs : List (Nat × Word)) (src : Option (Nat × Nat)) : (writeVec g r xs src).q = g.q := rfl
@[simp] theorem writeVec_f (g : Group) (r : Nat) (xs : List (Nat × Word)) (src : Option (Nat × Nat)) : (writeVec g r xs src).f = g.f := rfl
@[simp] theorem writeVec_mode (g : Group) (r : Nat) (xs : List (Nat × Word)) (src : Option (Nat × Nat)) : (writeVec g r xs src).mode = g.mode := rfl
@[simp] theorem writeVec_fpflags (g : Group) (r : Nat) (xs : List (Nat × Word)) (src : Option (Nat × Nat)) : (writeVec g r xs src).fpflags = g.fpflags := rfl
@[simp] theorem writeVec_prog (g : Group) (r : Nat) (xs : List (Nat × Word)) (src : Option (Nat × Nat)) : (writeVec g r xs src).prog = g.prog := rfl
@[simp] theorem writeVec_outq (g : Group) (r : Nat) (xs : List (Nat × Word)) (src : Option (Nat × Nat)) : (writeVec g r xs src).outq = g.outq := rfl
@[simp] theorem writeVec_inWords (g : Group) (r : Nat) (xs : List (Nat × Word)) (src : Option (Nat × Nat)) : (writeVec g r xs src).inWords = g.inWords := rfl
@[simp] theorem writeVec_tvec (g : Group) (r : Nat) (xs : List (Nat × Word)) (src : Option (Nat × Nat)) : (writeVec g r xs src).tvec = g.tvec := rfl
@[simp] theorem writeVec_tcause (g : Group) (r : Nat) (xs : List (Nat × Word)) (src : Option (Nat × Nat)) : (writeVec g r xs src).tcause = g.tcause := rfl
@[simp] theorem writeVec_taddr (g : Group) (r : Nat) (xs : List (Nat × Word)) (src : Option (Nat × Nat)) : (writeVec g r xs src).taddr = g.taddr := rfl
@[simp] theorem writeVec_tpc (g : Group) (r : Nat) (xs : List (Nat × Word)) (src : Option (Nat × Nat)) : (writeVec g r xs src).tpc = g.tpc := rfl
@[simp] theorem writeVec_tmask (g : Group) (r : Nat) (xs : List (Nat × Word)) (src : Option (Nat × Nat)) : (writeVec g r xs src).tmask = g.tmask := rfl
@[simp] theorem writeVec_pp (g : Group) (r : Nat) (xs : List (Nat × Word)) (src : Option (Nat × Nat)) : (writeVec g r xs src).pp = g.pp := rfl
@[simp] theorem writeVec_ret (g : Group) (r : Nat) (xs : List (Nat × Word)) (src : Option (Nat × Nat)) : (writeVec g r xs src).ret = g.ret := rfl
@[simp] theorem writeVec_inhandler (g : Group) (r : Nat) (xs : List (Nat × Word)) (src : Option (Nat × Nat)) : (writeVec g r xs src).inhandler = g.inhandler := rfl
@[simp] theorem writeVec_handler (g : Group) (r : Nat) (xs : List (Nat × Word)) (src : Option (Nat × Nat)) : (writeVec g r xs src).handler = g.handler := rfl
@[simp] theorem writeVec_trap (g : Group) (r : Nat) (xs : List (Nat × Word)) (src : Option (Nat × Nat)) : (writeVec g r xs src).trap = g.trap := rfl
@[simp] theorem writeVec_nextId (g : Group) (r : Nat) (xs : List (Nat × Word)) (src : Option (Nat × Nat)) : (writeVec g r xs src).nextId = g.nextId := rfl
@[simp] theorem writeVec_conflicts (g : Group) (r : Nat) (xs : List (Nat × Word)) (src : Option (Nat × Nat)) : (writeVec g r xs src).conflicts = g.conflicts := rfl
@[simp] theorem writeVec_mxsp (g : Group) (r : Nat) (xs : List (Nat × Word)) (src : Option (Nat × Nat)) : (writeVec g r xs src).mxsp = g.mxsp := rfl
@[simp] theorem writeVec_mxseq (g : Group) (r : Nat) (xs : List (Nat × Word)) (src : Option (Nat × Nat)) : (writeVec g r xs src).mxseq = g.mxseq := rfl
@[simp] theorem writeVec_arrived (g : Group) (r : Nat) (xs : List (Nat × Word)) (src : Option (Nat × Nat)) : (writeVec g r xs src).arrived = g.arrived := rfl
@[simp] theorem writeVec_tvu (g : Group) (r : Nat) (xs : List (Nat × Word)) (src : Option (Nat × Nat)) : (writeVec g r xs src).tvu = g.tvu := rfl
@[simp] theorem writeVec_tvJobs (g : Group) (r : Nat) (xs : List (Nat × Word)) (src : Option (Nat × Nat)) : (writeVec g r xs src).tvJobs = g.tvJobs := rfl
@[simp] theorem writeVec_tvPend (g : Group) (r : Nat) (xs : List (Nat × Word)) (src : Option (Nat × Nat)) : (writeVec g r xs src).tvPend = g.tvPend := rfl
@[simp] theorem writeVec_rdTok (g : Group) (r : Nat) (xs : List (Nat × Word)) (src : Option (Nat × Nat)) : (writeVec g r xs src).rdTok = g.rdTok := rfl
@[simp] theorem writeVec_repack (g : Group) (r : Nat) (xs : List (Nat × Word)) (src : Option (Nat × Nat)) : (writeVec g r xs src).repack = g.repack := rfl
@[simp] theorem writeVec_freed (g : Group) (r : Nat) (xs : List (Nat × Word)) (src : Option (Nat × Nat)) : (writeVec g r xs src).freed = g.freed := rfl
@[simp] theorem writeVec_stopped (g : Group) (r : Nat) (xs : List (Nat × Word)) (src : Option (Nat × Nat)) : (writeVec g r xs src).stopped = g.stopped := rfl
@[simp] theorem writeVec_victim (g : Group) (r : Nat) (xs : List (Nat × Word)) (src : Option (Nat × Nat)) : (writeVec g r xs src).victim = g.victim := rfl
@[simp] theorem writeVec_vrun (g : Group) (r : Nat) (xs : List (Nat × Word)) (src : Option (Nat × Nat)) : (writeVec g r xs src).vrun = g.vrun := rfl
@[simp] theorem writeVec_holdsRes (g : Group) (r : Nat) (xs : List (Nat × Word)) (src : Option (Nat × Nat)) : (writeVec g r xs src).holdsRes = g.holdsRes := rfl

/-! `writeMort` changes `voices`, and marks in `outst` what it overwrote. -/

@[simp] theorem writeMort_grid (g : Group) (k r : Nat) (xs : List (Nat × Word)) (src : Option (Nat × Nat)) : (writeMort g k r xs src).grid = g.grid := rfl
@[simp] theorem writeMort_team (g : Group) (k r : Nat) (xs : List (Nat × Word)) (src : Option (Nat × Nat)) : (writeMort g k r xs src).team = g.team := rfl
@[simp] theorem writeMort_gid (g : Group) (k r : Nat) (xs : List (Nat × Word)) (src : Option (Nat × Nat)) : (writeMort g k r xs src).gid = g.gid := rfl
@[simp] theorem writeMort_width (g : Group) (k r : Nat) (xs : List (Nat × Word)) (src : Option (Nat × Nat)) : (writeMort g k r xs src).width = g.width := rfl
@[simp] theorem writeMort_die (g : Group) (k r : Nat) (xs : List (Nat × Word)) (src : Option (Nat × Nat)) : (writeMort g k r xs src).die = g.die := rfl
@[simp] theorem writeMort_core (g : Group) (k r : Nat) (xs : List (Nat × Word)) (src : Option (Nat × Nat)) : (writeMort g k r xs src).core = g.core := rfl
@[simp] theorem writeMort_slot (g : Group) (k r : Nat) (xs : List (Nat × Word)) (src : Option (Nat × Nat)) : (writeMort g k r xs src).slot = g.slot := rfl
@[simp] theorem writeMort_quarter (g : Group) (k r : Nat) (xs : List (Nat × Word)) (src : Option (Nat × Nat)) : (writeMort g k r xs src).quarter = g.quarter := rfl
@[simp] theorem writeMort_resid (g : Group) (k r : Nat) (xs : List (Nat × Word)) (src : Option (Nat × Nat)) : (writeMort g k r xs src).resid = g.resid := rfl
@[simp] theorem writeMort_park (g : Group) (k r : Nat) (xs : List (Nat × Word)) (src : Option (Nat × Nat)) : (writeMort g k r xs src).park = g.park := rfl
@[simp] theorem writeMort_live (g : Group) (k r : Nat) (xs : List (Nat × Word)) (src : Option (Nat × Nat)) : (writeMort g k r xs src).live = g.live := rfl
@[simp] theorem writeMort_v (g : Group) (k r : Nat) (xs : List (Nat × Word)) (src : Option (Nat × Nat)) : (writeMort g k r xs src).v = g.v := rfl
@[simp] theorem writeMort_nv (g : Group) (k r : Nat) (xs : List (Nat × Word)) (src : Option (Nat × Nat)) : (writeMort g k r xs src).nv = g.nv := rfl
@[simp] theorem writeMort_s (g : Group) (k r : Nat) (xs : List (Nat × Word)) (src : Option (Nat × Nat)) : (writeMort g k r xs src).s = g.s := rfl
@[simp] theorem writeMort_ns (g : Group) (k r : Nat) (xs : List (Nat × Word)) (src : Option (Nat × Nat)) : (writeMort g k r xs src).ns = g.ns := rfl
@[simp] theorem writeMort_p (g : Group) (k r : Nat) (xs : List (Nat × Word)) (src : Option (Nat × Nat)) : (writeMort g k r xs src).p = g.p := rfl
@[simp] theorem writeMort_x (g : Group) (k r : Nat) (xs : List (Nat × Word)) (src : Option (Nat × Nat)) : (writeMort g k r xs src).x = g.x := rfl
@[simp] theorem writeMort_ly (g : Group) (k r : Nat) (xs : List (Nat × Word)) (src : Option (Nat × Nat)) : (writeMort g k r xs src).ly = g.ly := rfl
@[simp] theorem writeMort_q (g : Group) (k r : Nat) (xs : List (Nat × Word)) (src : Option (Nat × Nat)) : (writeMort g k r xs src).q = g.q := rfl
@[simp] theorem writeMort_f (g : Group) (k r : Nat) (xs : List (Nat × Word)) (src : Option (Nat × Nat)) : (writeMort g k r xs src).f = g.f := rfl
@[simp] theorem writeMort_mode (g : Group) (k r : Nat) (xs : List (Nat × Word)) (src : Option (Nat × Nat)) : (writeMort g k r xs src).mode = g.mode := rfl
@[simp] theorem writeMort_fpflags (g : Group) (k r : Nat) (xs : List (Nat × Word)) (src : Option (Nat × Nat)) : (writeMort g k r xs src).fpflags = g.fpflags := rfl
@[simp] theorem writeMort_prog (g : Group) (k r : Nat) (xs : List (Nat × Word)) (src : Option (Nat × Nat)) : (writeMort g k r xs src).prog = g.prog := rfl
@[simp] theorem writeMort_outq (g : Group) (k r : Nat) (xs : List (Nat × Word)) (src : Option (Nat × Nat)) : (writeMort g k r xs src).outq = g.outq := rfl
@[simp] theorem writeMort_inWords (g : Group) (k r : Nat) (xs : List (Nat × Word)) (src : Option (Nat × Nat)) : (writeMort g k r xs src).inWords = g.inWords := rfl
@[simp] theorem writeMort_tvec (g : Group) (k r : Nat) (xs : List (Nat × Word)) (src : Option (Nat × Nat)) : (writeMort g k r xs src).tvec = g.tvec := rfl
@[simp] theorem writeMort_tcause (g : Group) (k r : Nat) (xs : List (Nat × Word)) (src : Option (Nat × Nat)) : (writeMort g k r xs src).tcause = g.tcause := rfl
@[simp] theorem writeMort_taddr (g : Group) (k r : Nat) (xs : List (Nat × Word)) (src : Option (Nat × Nat)) : (writeMort g k r xs src).taddr = g.taddr := rfl
@[simp] theorem writeMort_tpc (g : Group) (k r : Nat) (xs : List (Nat × Word)) (src : Option (Nat × Nat)) : (writeMort g k r xs src).tpc = g.tpc := rfl
@[simp] theorem writeMort_tmask (g : Group) (k r : Nat) (xs : List (Nat × Word)) (src : Option (Nat × Nat)) : (writeMort g k r xs src).tmask = g.tmask := rfl
@[simp] theorem writeMort_pp (g : Group) (k r : Nat) (xs : List (Nat × Word)) (src : Option (Nat × Nat)) : (writeMort g k r xs src).pp = g.pp := rfl
@[simp] theorem writeMort_ret (g : Group) (k r : Nat) (xs : List (Nat × Word)) (src : Option (Nat × Nat)) : (writeMort g k r xs src).ret = g.ret := rfl
@[simp] theorem writeMort_inhandler (g : Group) (k r : Nat) (xs : List (Nat × Word)) (src : Option (Nat × Nat)) : (writeMort g k r xs src).inhandler = g.inhandler := rfl
@[simp] theorem writeMort_handler (g : Group) (k r : Nat) (xs : List (Nat × Word)) (src : Option (Nat × Nat)) : (writeMort g k r xs src).handler = g.handler := rfl
@[simp] theorem writeMort_trap (g : Group) (k r : Nat) (xs : List (Nat × Word)) (src : Option (Nat × Nat)) : (writeMort g k r xs src).trap = g.trap := rfl
@[simp] theorem writeMort_nextId (g : Group) (k r : Nat) (xs : List (Nat × Word)) (src : Option (Nat × Nat)) : (writeMort g k r xs src).nextId = g.nextId := rfl
@[simp] theorem writeMort_conflicts (g : Group) (k r : Nat) (xs : List (Nat × Word)) (src : Option (Nat × Nat)) : (writeMort g k r xs src).conflicts = g.conflicts := rfl
@[simp] theorem writeMort_mxsp (g : Group) (k r : Nat) (xs : List (Nat × Word)) (src : Option (Nat × Nat)) : (writeMort g k r xs src).mxsp = g.mxsp := rfl
@[simp] theorem writeMort_mxseq (g : Group) (k r : Nat) (xs : List (Nat × Word)) (src : Option (Nat × Nat)) : (writeMort g k r xs src).mxseq = g.mxseq := rfl
@[simp] theorem writeMort_arrived (g : Group) (k r : Nat) (xs : List (Nat × Word)) (src : Option (Nat × Nat)) : (writeMort g k r xs src).arrived = g.arrived := rfl
@[simp] theorem writeMort_tvu (g : Group) (k r : Nat) (xs : List (Nat × Word)) (src : Option (Nat × Nat)) : (writeMort g k r xs src).tvu = g.tvu := rfl
@[simp] theorem writeMort_tvJobs (g : Group) (k r : Nat) (xs : List (Nat × Word)) (src : Option (Nat × Nat)) : (writeMort g k r xs src).tvJobs = g.tvJobs := rfl
@[simp] theorem writeMort_tvPend (g : Group) (k r : Nat) (xs : List (Nat × Word)) (src : Option (Nat × Nat)) : (writeMort g k r xs src).tvPend = g.tvPend := rfl
@[simp] theorem writeMort_rdTok (g : Group) (k r : Nat) (xs : List (Nat × Word)) (src : Option (Nat × Nat)) : (writeMort g k r xs src).rdTok = g.rdTok := rfl
@[simp] theorem writeMort_repack (g : Group) (k r : Nat) (xs : List (Nat × Word)) (src : Option (Nat × Nat)) : (writeMort g k r xs src).repack = g.repack := rfl
@[simp] theorem writeMort_freed (g : Group) (k r : Nat) (xs : List (Nat × Word)) (src : Option (Nat × Nat)) : (writeMort g k r xs src).freed = g.freed := rfl
@[simp] theorem writeMort_stopped (g : Group) (k r : Nat) (xs : List (Nat × Word)) (src : Option (Nat × Nat)) : (writeMort g k r xs src).stopped = g.stopped := rfl
@[simp] theorem writeMort_victim (g : Group) (k r : Nat) (xs : List (Nat × Word)) (src : Option (Nat × Nat)) : (writeMort g k r xs src).victim = g.victim := rfl
@[simp] theorem writeMort_vrun (g : Group) (k r : Nat) (xs : List (Nat × Word)) (src : Option (Nat × Nat)) : (writeMort g k r xs src).vrun = g.vrun := rfl
@[simp] theorem writeMort_holdsRes (g : Group) (k r : Nat) (xs : List (Nat × Word)) (src : Option (Nat × Nat)) : (writeMort g k r xs src).holdsRes = g.holdsRes := rfl

/-! `writeScal` changes `s`, and marks in `outst` what it overwrote. -/

@[simp] theorem writeScal_grid (g : Group) (r : Nat) (y : Word) (src : Option (Nat × Nat)) : (writeScal g r y src).grid = g.grid := rfl
@[simp] theorem writeScal_team (g : Group) (r : Nat) (y : Word) (src : Option (Nat × Nat)) : (writeScal g r y src).team = g.team := rfl
@[simp] theorem writeScal_gid (g : Group) (r : Nat) (y : Word) (src : Option (Nat × Nat)) : (writeScal g r y src).gid = g.gid := rfl
@[simp] theorem writeScal_width (g : Group) (r : Nat) (y : Word) (src : Option (Nat × Nat)) : (writeScal g r y src).width = g.width := rfl
@[simp] theorem writeScal_die (g : Group) (r : Nat) (y : Word) (src : Option (Nat × Nat)) : (writeScal g r y src).die = g.die := rfl
@[simp] theorem writeScal_core (g : Group) (r : Nat) (y : Word) (src : Option (Nat × Nat)) : (writeScal g r y src).core = g.core := rfl
@[simp] theorem writeScal_slot (g : Group) (r : Nat) (y : Word) (src : Option (Nat × Nat)) : (writeScal g r y src).slot = g.slot := rfl
@[simp] theorem writeScal_quarter (g : Group) (r : Nat) (y : Word) (src : Option (Nat × Nat)) : (writeScal g r y src).quarter = g.quarter := rfl
@[simp] theorem writeScal_resid (g : Group) (r : Nat) (y : Word) (src : Option (Nat × Nat)) : (writeScal g r y src).resid = g.resid := rfl
@[simp] theorem writeScal_voices (g : Group) (r : Nat) (y : Word) (src : Option (Nat × Nat)) : (writeScal g r y src).voices = g.voices := rfl
@[simp] theorem writeScal_park (g : Group) (r : Nat) (y : Word) (src : Option (Nat × Nat)) : (writeScal g r y src).park = g.park := rfl
@[simp] theorem writeScal_live (g : Group) (r : Nat) (y : Word) (src : Option (Nat × Nat)) : (writeScal g r y src).live = g.live := rfl
@[simp] theorem writeScal_v (g : Group) (r : Nat) (y : Word) (src : Option (Nat × Nat)) : (writeScal g r y src).v = g.v := rfl
@[simp] theorem writeScal_nv (g : Group) (r : Nat) (y : Word) (src : Option (Nat × Nat)) : (writeScal g r y src).nv = g.nv := rfl
@[simp] theorem writeScal_ns (g : Group) (r : Nat) (y : Word) (src : Option (Nat × Nat)) : (writeScal g r y src).ns = g.ns := rfl
@[simp] theorem writeScal_p (g : Group) (r : Nat) (y : Word) (src : Option (Nat × Nat)) : (writeScal g r y src).p = g.p := rfl
@[simp] theorem writeScal_x (g : Group) (r : Nat) (y : Word) (src : Option (Nat × Nat)) : (writeScal g r y src).x = g.x := rfl
@[simp] theorem writeScal_ly (g : Group) (r : Nat) (y : Word) (src : Option (Nat × Nat)) : (writeScal g r y src).ly = g.ly := rfl
@[simp] theorem writeScal_q (g : Group) (r : Nat) (y : Word) (src : Option (Nat × Nat)) : (writeScal g r y src).q = g.q := rfl
@[simp] theorem writeScal_f (g : Group) (r : Nat) (y : Word) (src : Option (Nat × Nat)) : (writeScal g r y src).f = g.f := rfl
@[simp] theorem writeScal_mode (g : Group) (r : Nat) (y : Word) (src : Option (Nat × Nat)) : (writeScal g r y src).mode = g.mode := rfl
@[simp] theorem writeScal_fpflags (g : Group) (r : Nat) (y : Word) (src : Option (Nat × Nat)) : (writeScal g r y src).fpflags = g.fpflags := rfl
@[simp] theorem writeScal_prog (g : Group) (r : Nat) (y : Word) (src : Option (Nat × Nat)) : (writeScal g r y src).prog = g.prog := rfl
@[simp] theorem writeScal_outq (g : Group) (r : Nat) (y : Word) (src : Option (Nat × Nat)) : (writeScal g r y src).outq = g.outq := rfl
@[simp] theorem writeScal_inWords (g : Group) (r : Nat) (y : Word) (src : Option (Nat × Nat)) : (writeScal g r y src).inWords = g.inWords := rfl
@[simp] theorem writeScal_tvec (g : Group) (r : Nat) (y : Word) (src : Option (Nat × Nat)) : (writeScal g r y src).tvec = g.tvec := rfl
@[simp] theorem writeScal_tcause (g : Group) (r : Nat) (y : Word) (src : Option (Nat × Nat)) : (writeScal g r y src).tcause = g.tcause := rfl
@[simp] theorem writeScal_taddr (g : Group) (r : Nat) (y : Word) (src : Option (Nat × Nat)) : (writeScal g r y src).taddr = g.taddr := rfl
@[simp] theorem writeScal_tpc (g : Group) (r : Nat) (y : Word) (src : Option (Nat × Nat)) : (writeScal g r y src).tpc = g.tpc := rfl
@[simp] theorem writeScal_tmask (g : Group) (r : Nat) (y : Word) (src : Option (Nat × Nat)) : (writeScal g r y src).tmask = g.tmask := rfl
@[simp] theorem writeScal_pp (g : Group) (r : Nat) (y : Word) (src : Option (Nat × Nat)) : (writeScal g r y src).pp = g.pp := rfl
@[simp] theorem writeScal_ret (g : Group) (r : Nat) (y : Word) (src : Option (Nat × Nat)) : (writeScal g r y src).ret = g.ret := rfl
@[simp] theorem writeScal_inhandler (g : Group) (r : Nat) (y : Word) (src : Option (Nat × Nat)) : (writeScal g r y src).inhandler = g.inhandler := rfl
@[simp] theorem writeScal_handler (g : Group) (r : Nat) (y : Word) (src : Option (Nat × Nat)) : (writeScal g r y src).handler = g.handler := rfl
@[simp] theorem writeScal_trap (g : Group) (r : Nat) (y : Word) (src : Option (Nat × Nat)) : (writeScal g r y src).trap = g.trap := rfl
@[simp] theorem writeScal_nextId (g : Group) (r : Nat) (y : Word) (src : Option (Nat × Nat)) : (writeScal g r y src).nextId = g.nextId := rfl
@[simp] theorem writeScal_conflicts (g : Group) (r : Nat) (y : Word) (src : Option (Nat × Nat)) : (writeScal g r y src).conflicts = g.conflicts := rfl
@[simp] theorem writeScal_mxsp (g : Group) (r : Nat) (y : Word) (src : Option (Nat × Nat)) : (writeScal g r y src).mxsp = g.mxsp := rfl
@[simp] theorem writeScal_mxseq (g : Group) (r : Nat) (y : Word) (src : Option (Nat × Nat)) : (writeScal g r y src).mxseq = g.mxseq := rfl
@[simp] theorem writeScal_arrived (g : Group) (r : Nat) (y : Word) (src : Option (Nat × Nat)) : (writeScal g r y src).arrived = g.arrived := rfl
@[simp] theorem writeScal_tvu (g : Group) (r : Nat) (y : Word) (src : Option (Nat × Nat)) : (writeScal g r y src).tvu = g.tvu := rfl
@[simp] theorem writeScal_tvJobs (g : Group) (r : Nat) (y : Word) (src : Option (Nat × Nat)) : (writeScal g r y src).tvJobs = g.tvJobs := rfl
@[simp] theorem writeScal_tvPend (g : Group) (r : Nat) (y : Word) (src : Option (Nat × Nat)) : (writeScal g r y src).tvPend = g.tvPend := rfl
@[simp] theorem writeScal_rdTok (g : Group) (r : Nat) (y : Word) (src : Option (Nat × Nat)) : (writeScal g r y src).rdTok = g.rdTok := rfl
@[simp] theorem writeScal_repack (g : Group) (r : Nat) (y : Word) (src : Option (Nat × Nat)) : (writeScal g r y src).repack = g.repack := rfl
@[simp] theorem writeScal_freed (g : Group) (r : Nat) (y : Word) (src : Option (Nat × Nat)) : (writeScal g r y src).freed = g.freed := rfl
@[simp] theorem writeScal_stopped (g : Group) (r : Nat) (y : Word) (src : Option (Nat × Nat)) : (writeScal g r y src).stopped = g.stopped := rfl
@[simp] theorem writeScal_victim (g : Group) (r : Nat) (y : Word) (src : Option (Nat × Nat)) : (writeScal g r y src).victim = g.victim := rfl
@[simp] theorem writeScal_vrun (g : Group) (r : Nat) (y : Word) (src : Option (Nat × Nat)) : (writeScal g r y src).vrun = g.vrun := rfl
@[simp] theorem writeScal_holdsRes (g : Group) (r : Nat) (y : Word) (src : Option (Nat × Nat)) : (writeScal g r y src).holdsRes = g.holdsRes := rfl

/-! `qSet` changes `q` alone. -/

@[simp] theorem qSet_grid (g : Group) (n : Nat) (y : Queue) : (qSet g n y).grid = g.grid := rfl
@[simp] theorem qSet_team (g : Group) (n : Nat) (y : Queue) : (qSet g n y).team = g.team := rfl
@[simp] theorem qSet_gid (g : Group) (n : Nat) (y : Queue) : (qSet g n y).gid = g.gid := rfl
@[simp] theorem qSet_width (g : Group) (n : Nat) (y : Queue) : (qSet g n y).width = g.width := rfl
@[simp] theorem qSet_die (g : Group) (n : Nat) (y : Queue) : (qSet g n y).die = g.die := rfl
@[simp] theorem qSet_core (g : Group) (n : Nat) (y : Queue) : (qSet g n y).core = g.core := rfl
@[simp] theorem qSet_slot (g : Group) (n : Nat) (y : Queue) : (qSet g n y).slot = g.slot := rfl
@[simp] theorem qSet_quarter (g : Group) (n : Nat) (y : Queue) : (qSet g n y).quarter = g.quarter := rfl
@[simp] theorem qSet_resid (g : Group) (n : Nat) (y : Queue) : (qSet g n y).resid = g.resid := rfl
@[simp] theorem qSet_voices (g : Group) (n : Nat) (y : Queue) : (qSet g n y).voices = g.voices := rfl
@[simp] theorem qSet_park (g : Group) (n : Nat) (y : Queue) : (qSet g n y).park = g.park := rfl
@[simp] theorem qSet_live (g : Group) (n : Nat) (y : Queue) : (qSet g n y).live = g.live := rfl
@[simp] theorem qSet_v (g : Group) (n : Nat) (y : Queue) : (qSet g n y).v = g.v := rfl
@[simp] theorem qSet_nv (g : Group) (n : Nat) (y : Queue) : (qSet g n y).nv = g.nv := rfl
@[simp] theorem qSet_s (g : Group) (n : Nat) (y : Queue) : (qSet g n y).s = g.s := rfl
@[simp] theorem qSet_ns (g : Group) (n : Nat) (y : Queue) : (qSet g n y).ns = g.ns := rfl
@[simp] theorem qSet_p (g : Group) (n : Nat) (y : Queue) : (qSet g n y).p = g.p := rfl
@[simp] theorem qSet_x (g : Group) (n : Nat) (y : Queue) : (qSet g n y).x = g.x := rfl
@[simp] theorem qSet_ly (g : Group) (n : Nat) (y : Queue) : (qSet g n y).ly = g.ly := rfl
@[simp] theorem qSet_f (g : Group) (n : Nat) (y : Queue) : (qSet g n y).f = g.f := rfl
@[simp] theorem qSet_mode (g : Group) (n : Nat) (y : Queue) : (qSet g n y).mode = g.mode := rfl
@[simp] theorem qSet_fpflags (g : Group) (n : Nat) (y : Queue) : (qSet g n y).fpflags = g.fpflags := rfl
@[simp] theorem qSet_prog (g : Group) (n : Nat) (y : Queue) : (qSet g n y).prog = g.prog := rfl
@[simp] theorem qSet_outq (g : Group) (n : Nat) (y : Queue) : (qSet g n y).outq = g.outq := rfl
@[simp] theorem qSet_inWords (g : Group) (n : Nat) (y : Queue) : (qSet g n y).inWords = g.inWords := rfl
@[simp] theorem qSet_tvec (g : Group) (n : Nat) (y : Queue) : (qSet g n y).tvec = g.tvec := rfl
@[simp] theorem qSet_tcause (g : Group) (n : Nat) (y : Queue) : (qSet g n y).tcause = g.tcause := rfl
@[simp] theorem qSet_taddr (g : Group) (n : Nat) (y : Queue) : (qSet g n y).taddr = g.taddr := rfl
@[simp] theorem qSet_tpc (g : Group) (n : Nat) (y : Queue) : (qSet g n y).tpc = g.tpc := rfl
@[simp] theorem qSet_tmask (g : Group) (n : Nat) (y : Queue) : (qSet g n y).tmask = g.tmask := rfl
@[simp] theorem qSet_pp (g : Group) (n : Nat) (y : Queue) : (qSet g n y).pp = g.pp := rfl
@[simp] theorem qSet_ret (g : Group) (n : Nat) (y : Queue) : (qSet g n y).ret = g.ret := rfl
@[simp] theorem qSet_inhandler (g : Group) (n : Nat) (y : Queue) : (qSet g n y).inhandler = g.inhandler := rfl
@[simp] theorem qSet_handler (g : Group) (n : Nat) (y : Queue) : (qSet g n y).handler = g.handler := rfl
@[simp] theorem qSet_trap (g : Group) (n : Nat) (y : Queue) : (qSet g n y).trap = g.trap := rfl
@[simp] theorem qSet_outst (g : Group) (n : Nat) (y : Queue) : (qSet g n y).outst = g.outst := rfl
@[simp] theorem qSet_nextId (g : Group) (n : Nat) (y : Queue) : (qSet g n y).nextId = g.nextId := rfl
@[simp] theorem qSet_conflicts (g : Group) (n : Nat) (y : Queue) : (qSet g n y).conflicts = g.conflicts := rfl
@[simp] theorem qSet_mxsp (g : Group) (n : Nat) (y : Queue) : (qSet g n y).mxsp = g.mxsp := rfl
@[simp] theorem qSet_mxseq (g : Group) (n : Nat) (y : Queue) : (qSet g n y).mxseq = g.mxseq := rfl
@[simp] theorem qSet_arrived (g : Group) (n : Nat) (y : Queue) : (qSet g n y).arrived = g.arrived := rfl
@[simp] theorem qSet_tvu (g : Group) (n : Nat) (y : Queue) : (qSet g n y).tvu = g.tvu := rfl
@[simp] theorem qSet_tvJobs (g : Group) (n : Nat) (y : Queue) : (qSet g n y).tvJobs = g.tvJobs := rfl
@[simp] theorem qSet_tvPend (g : Group) (n : Nat) (y : Queue) : (qSet g n y).tvPend = g.tvPend := rfl
@[simp] theorem qSet_rdTok (g : Group) (n : Nat) (y : Queue) : (qSet g n y).rdTok = g.rdTok := rfl
@[simp] theorem qSet_repack (g : Group) (n : Nat) (y : Queue) : (qSet g n y).repack = g.repack := rfl
@[simp] theorem qSet_freed (g : Group) (n : Nat) (y : Queue) : (qSet g n y).freed = g.freed := rfl
@[simp] theorem qSet_stopped (g : Group) (n : Nat) (y : Queue) : (qSet g n y).stopped = g.stopped := rfl
@[simp] theorem qSet_victim (g : Group) (n : Nat) (y : Queue) : (qSet g n y).victim = g.victim := rfl
@[simp] theorem qSet_vrun (g : Group) (n : Nat) (y : Queue) : (qSet g n y).vrun = g.vrun := rfl
@[simp] theorem qSet_holdsRes (g : Group) (n : Nat) (y : Queue) : (qSet g n y).holdsRes = g.holdsRes := rfl

/-! `raiseFlag` changes `f` alone. -/

@[simp] theorem raiseFlag_grid (g : Group) (k : Option Nat) : (raiseFlag g k).grid = g.grid := by cases k <;> rfl
@[simp] theorem raiseFlag_team (g : Group) (k : Option Nat) : (raiseFlag g k).team = g.team := by cases k <;> rfl
@[simp] theorem raiseFlag_gid (g : Group) (k : Option Nat) : (raiseFlag g k).gid = g.gid := by cases k <;> rfl
@[simp] theorem raiseFlag_width (g : Group) (k : Option Nat) : (raiseFlag g k).width = g.width := by cases k <;> rfl
@[simp] theorem raiseFlag_die (g : Group) (k : Option Nat) : (raiseFlag g k).die = g.die := by cases k <;> rfl
@[simp] theorem raiseFlag_core (g : Group) (k : Option Nat) : (raiseFlag g k).core = g.core := by cases k <;> rfl
@[simp] theorem raiseFlag_slot (g : Group) (k : Option Nat) : (raiseFlag g k).slot = g.slot := by cases k <;> rfl
@[simp] theorem raiseFlag_quarter (g : Group) (k : Option Nat) : (raiseFlag g k).quarter = g.quarter := by cases k <;> rfl
@[simp] theorem raiseFlag_resid (g : Group) (k : Option Nat) : (raiseFlag g k).resid = g.resid := by cases k <;> rfl
@[simp] theorem raiseFlag_voices (g : Group) (k : Option Nat) : (raiseFlag g k).voices = g.voices := by cases k <;> rfl
@[simp] theorem raiseFlag_park (g : Group) (k : Option Nat) : (raiseFlag g k).park = g.park := by cases k <;> rfl
@[simp] theorem raiseFlag_live (g : Group) (k : Option Nat) : (raiseFlag g k).live = g.live := by cases k <;> rfl
@[simp] theorem raiseFlag_v (g : Group) (k : Option Nat) : (raiseFlag g k).v = g.v := by cases k <;> rfl
@[simp] theorem raiseFlag_nv (g : Group) (k : Option Nat) : (raiseFlag g k).nv = g.nv := by cases k <;> rfl
@[simp] theorem raiseFlag_s (g : Group) (k : Option Nat) : (raiseFlag g k).s = g.s := by cases k <;> rfl
@[simp] theorem raiseFlag_ns (g : Group) (k : Option Nat) : (raiseFlag g k).ns = g.ns := by cases k <;> rfl
@[simp] theorem raiseFlag_p (g : Group) (k : Option Nat) : (raiseFlag g k).p = g.p := by cases k <;> rfl
@[simp] theorem raiseFlag_x (g : Group) (k : Option Nat) : (raiseFlag g k).x = g.x := by cases k <;> rfl
@[simp] theorem raiseFlag_ly (g : Group) (k : Option Nat) : (raiseFlag g k).ly = g.ly := by cases k <;> rfl
@[simp] theorem raiseFlag_q (g : Group) (k : Option Nat) : (raiseFlag g k).q = g.q := by cases k <;> rfl
@[simp] theorem raiseFlag_mode (g : Group) (k : Option Nat) : (raiseFlag g k).mode = g.mode := by cases k <;> rfl
@[simp] theorem raiseFlag_fpflags (g : Group) (k : Option Nat) : (raiseFlag g k).fpflags = g.fpflags := by cases k <;> rfl
@[simp] theorem raiseFlag_prog (g : Group) (k : Option Nat) : (raiseFlag g k).prog = g.prog := by cases k <;> rfl
@[simp] theorem raiseFlag_outq (g : Group) (k : Option Nat) : (raiseFlag g k).outq = g.outq := by cases k <;> rfl
@[simp] theorem raiseFlag_inWords (g : Group) (k : Option Nat) : (raiseFlag g k).inWords = g.inWords := by cases k <;> rfl
@[simp] theorem raiseFlag_tvec (g : Group) (k : Option Nat) : (raiseFlag g k).tvec = g.tvec := by cases k <;> rfl
@[simp] theorem raiseFlag_tcause (g : Group) (k : Option Nat) : (raiseFlag g k).tcause = g.tcause := by cases k <;> rfl
@[simp] theorem raiseFlag_taddr (g : Group) (k : Option Nat) : (raiseFlag g k).taddr = g.taddr := by cases k <;> rfl
@[simp] theorem raiseFlag_tpc (g : Group) (k : Option Nat) : (raiseFlag g k).tpc = g.tpc := by cases k <;> rfl
@[simp] theorem raiseFlag_tmask (g : Group) (k : Option Nat) : (raiseFlag g k).tmask = g.tmask := by cases k <;> rfl
@[simp] theorem raiseFlag_pp (g : Group) (k : Option Nat) : (raiseFlag g k).pp = g.pp := by cases k <;> rfl
@[simp] theorem raiseFlag_ret (g : Group) (k : Option Nat) : (raiseFlag g k).ret = g.ret := by cases k <;> rfl
@[simp] theorem raiseFlag_inhandler (g : Group) (k : Option Nat) : (raiseFlag g k).inhandler = g.inhandler := by cases k <;> rfl
@[simp] theorem raiseFlag_handler (g : Group) (k : Option Nat) : (raiseFlag g k).handler = g.handler := by cases k <;> rfl
@[simp] theorem raiseFlag_trap (g : Group) (k : Option Nat) : (raiseFlag g k).trap = g.trap := by cases k <;> rfl
@[simp] theorem raiseFlag_outst (g : Group) (k : Option Nat) : (raiseFlag g k).outst = g.outst := by cases k <;> rfl
@[simp] theorem raiseFlag_nextId (g : Group) (k : Option Nat) : (raiseFlag g k).nextId = g.nextId := by cases k <;> rfl
@[simp] theorem raiseFlag_conflicts (g : Group) (k : Option Nat) : (raiseFlag g k).conflicts = g.conflicts := by cases k <;> rfl
@[simp] theorem raiseFlag_mxsp (g : Group) (k : Option Nat) : (raiseFlag g k).mxsp = g.mxsp := by cases k <;> rfl
@[simp] theorem raiseFlag_mxseq (g : Group) (k : Option Nat) : (raiseFlag g k).mxseq = g.mxseq := by cases k <;> rfl
@[simp] theorem raiseFlag_arrived (g : Group) (k : Option Nat) : (raiseFlag g k).arrived = g.arrived := by cases k <;> rfl
@[simp] theorem raiseFlag_tvu (g : Group) (k : Option Nat) : (raiseFlag g k).tvu = g.tvu := by cases k <;> rfl
@[simp] theorem raiseFlag_tvJobs (g : Group) (k : Option Nat) : (raiseFlag g k).tvJobs = g.tvJobs := by cases k <;> rfl
@[simp] theorem raiseFlag_tvPend (g : Group) (k : Option Nat) : (raiseFlag g k).tvPend = g.tvPend := by cases k <;> rfl
@[simp] theorem raiseFlag_rdTok (g : Group) (k : Option Nat) : (raiseFlag g k).rdTok = g.rdTok := by cases k <;> rfl
@[simp] theorem raiseFlag_repack (g : Group) (k : Option Nat) : (raiseFlag g k).repack = g.repack := by cases k <;> rfl
@[simp] theorem raiseFlag_freed (g : Group) (k : Option Nat) : (raiseFlag g k).freed = g.freed := by cases k <;> rfl
@[simp] theorem raiseFlag_stopped (g : Group) (k : Option Nat) : (raiseFlag g k).stopped = g.stopped := by cases k <;> rfl
@[simp] theorem raiseFlag_victim (g : Group) (k : Option Nat) : (raiseFlag g k).victim = g.victim := by cases k <;> rfl
@[simp] theorem raiseFlag_vrun (g : Group) (k : Option Nat) : (raiseFlag g k).vrun = g.vrun := by cases k <;> rfl
@[simp] theorem raiseFlag_holdsRes (g : Group) (k : Option Nat) : (raiseFlag g k).holdsRes = g.holdsRes := by cases k <;> rfl

/-! `lowerFlag` changes `f` alone. -/

@[simp] theorem lowerFlag_grid (g : Group) (k : Option Nat) : (lowerFlag g k).grid = g.grid := by cases k <;> rfl
@[simp] theorem lowerFlag_team (g : Group) (k : Option Nat) : (lowerFlag g k).team = g.team := by cases k <;> rfl
@[simp] theorem lowerFlag_gid (g : Group) (k : Option Nat) : (lowerFlag g k).gid = g.gid := by cases k <;> rfl
@[simp] theorem lowerFlag_width (g : Group) (k : Option Nat) : (lowerFlag g k).width = g.width := by cases k <;> rfl
@[simp] theorem lowerFlag_die (g : Group) (k : Option Nat) : (lowerFlag g k).die = g.die := by cases k <;> rfl
@[simp] theorem lowerFlag_core (g : Group) (k : Option Nat) : (lowerFlag g k).core = g.core := by cases k <;> rfl
@[simp] theorem lowerFlag_slot (g : Group) (k : Option Nat) : (lowerFlag g k).slot = g.slot := by cases k <;> rfl
@[simp] theorem lowerFlag_quarter (g : Group) (k : Option Nat) : (lowerFlag g k).quarter = g.quarter := by cases k <;> rfl
@[simp] theorem lowerFlag_resid (g : Group) (k : Option Nat) : (lowerFlag g k).resid = g.resid := by cases k <;> rfl
@[simp] theorem lowerFlag_voices (g : Group) (k : Option Nat) : (lowerFlag g k).voices = g.voices := by cases k <;> rfl
@[simp] theorem lowerFlag_park (g : Group) (k : Option Nat) : (lowerFlag g k).park = g.park := by cases k <;> rfl
@[simp] theorem lowerFlag_live (g : Group) (k : Option Nat) : (lowerFlag g k).live = g.live := by cases k <;> rfl
@[simp] theorem lowerFlag_v (g : Group) (k : Option Nat) : (lowerFlag g k).v = g.v := by cases k <;> rfl
@[simp] theorem lowerFlag_nv (g : Group) (k : Option Nat) : (lowerFlag g k).nv = g.nv := by cases k <;> rfl
@[simp] theorem lowerFlag_s (g : Group) (k : Option Nat) : (lowerFlag g k).s = g.s := by cases k <;> rfl
@[simp] theorem lowerFlag_ns (g : Group) (k : Option Nat) : (lowerFlag g k).ns = g.ns := by cases k <;> rfl
@[simp] theorem lowerFlag_p (g : Group) (k : Option Nat) : (lowerFlag g k).p = g.p := by cases k <;> rfl
@[simp] theorem lowerFlag_x (g : Group) (k : Option Nat) : (lowerFlag g k).x = g.x := by cases k <;> rfl
@[simp] theorem lowerFlag_ly (g : Group) (k : Option Nat) : (lowerFlag g k).ly = g.ly := by cases k <;> rfl
@[simp] theorem lowerFlag_q (g : Group) (k : Option Nat) : (lowerFlag g k).q = g.q := by cases k <;> rfl
@[simp] theorem lowerFlag_mode (g : Group) (k : Option Nat) : (lowerFlag g k).mode = g.mode := by cases k <;> rfl
@[simp] theorem lowerFlag_fpflags (g : Group) (k : Option Nat) : (lowerFlag g k).fpflags = g.fpflags := by cases k <;> rfl
@[simp] theorem lowerFlag_prog (g : Group) (k : Option Nat) : (lowerFlag g k).prog = g.prog := by cases k <;> rfl
@[simp] theorem lowerFlag_outq (g : Group) (k : Option Nat) : (lowerFlag g k).outq = g.outq := by cases k <;> rfl
@[simp] theorem lowerFlag_inWords (g : Group) (k : Option Nat) : (lowerFlag g k).inWords = g.inWords := by cases k <;> rfl
@[simp] theorem lowerFlag_tvec (g : Group) (k : Option Nat) : (lowerFlag g k).tvec = g.tvec := by cases k <;> rfl
@[simp] theorem lowerFlag_tcause (g : Group) (k : Option Nat) : (lowerFlag g k).tcause = g.tcause := by cases k <;> rfl
@[simp] theorem lowerFlag_taddr (g : Group) (k : Option Nat) : (lowerFlag g k).taddr = g.taddr := by cases k <;> rfl
@[simp] theorem lowerFlag_tpc (g : Group) (k : Option Nat) : (lowerFlag g k).tpc = g.tpc := by cases k <;> rfl
@[simp] theorem lowerFlag_tmask (g : Group) (k : Option Nat) : (lowerFlag g k).tmask = g.tmask := by cases k <;> rfl
@[simp] theorem lowerFlag_pp (g : Group) (k : Option Nat) : (lowerFlag g k).pp = g.pp := by cases k <;> rfl
@[simp] theorem lowerFlag_ret (g : Group) (k : Option Nat) : (lowerFlag g k).ret = g.ret := by cases k <;> rfl
@[simp] theorem lowerFlag_inhandler (g : Group) (k : Option Nat) : (lowerFlag g k).inhandler = g.inhandler := by cases k <;> rfl
@[simp] theorem lowerFlag_handler (g : Group) (k : Option Nat) : (lowerFlag g k).handler = g.handler := by cases k <;> rfl
@[simp] theorem lowerFlag_trap (g : Group) (k : Option Nat) : (lowerFlag g k).trap = g.trap := by cases k <;> rfl
@[simp] theorem lowerFlag_outst (g : Group) (k : Option Nat) : (lowerFlag g k).outst = g.outst := by cases k <;> rfl
@[simp] theorem lowerFlag_nextId (g : Group) (k : Option Nat) : (lowerFlag g k).nextId = g.nextId := by cases k <;> rfl
@[simp] theorem lowerFlag_conflicts (g : Group) (k : Option Nat) : (lowerFlag g k).conflicts = g.conflicts := by cases k <;> rfl
@[simp] theorem lowerFlag_mxsp (g : Group) (k : Option Nat) : (lowerFlag g k).mxsp = g.mxsp := by cases k <;> rfl
@[simp] theorem lowerFlag_mxseq (g : Group) (k : Option Nat) : (lowerFlag g k).mxseq = g.mxseq := by cases k <;> rfl
@[simp] theorem lowerFlag_arrived (g : Group) (k : Option Nat) : (lowerFlag g k).arrived = g.arrived := by cases k <;> rfl
@[simp] theorem lowerFlag_tvu (g : Group) (k : Option Nat) : (lowerFlag g k).tvu = g.tvu := by cases k <;> rfl
@[simp] theorem lowerFlag_tvJobs (g : Group) (k : Option Nat) : (lowerFlag g k).tvJobs = g.tvJobs := by cases k <;> rfl
@[simp] theorem lowerFlag_tvPend (g : Group) (k : Option Nat) : (lowerFlag g k).tvPend = g.tvPend := by cases k <;> rfl
@[simp] theorem lowerFlag_rdTok (g : Group) (k : Option Nat) : (lowerFlag g k).rdTok = g.rdTok := by cases k <;> rfl
@[simp] theorem lowerFlag_repack (g : Group) (k : Option Nat) : (lowerFlag g k).repack = g.repack := by cases k <;> rfl
@[simp] theorem lowerFlag_freed (g : Group) (k : Option Nat) : (lowerFlag g k).freed = g.freed := by cases k <;> rfl
@[simp] theorem lowerFlag_stopped (g : Group) (k : Option Nat) : (lowerFlag g k).stopped = g.stopped := by cases k <;> rfl
@[simp] theorem lowerFlag_victim (g : Group) (k : Option Nat) : (lowerFlag g k).victim = g.victim := by cases k <;> rfl
@[simp] theorem lowerFlag_vrun (g : Group) (k : Option Nat) : (lowerFlag g k).vrun = g.vrun := by cases k <;> rfl
@[simp] theorem lowerFlag_holdsRes (g : Group) (k : Option Nat) : (lowerFlag g k).holdsRes = g.holdsRes := by cases k <;> rfl

/-! `setOutst` changes `outst` alone. -/

@[simp] theorem setOutst_grid (g : Group) (y : Outst) : (setOutst g y).grid = g.grid := rfl
@[simp] theorem setOutst_team (g : Group) (y : Outst) : (setOutst g y).team = g.team := rfl
@[simp] theorem setOutst_gid (g : Group) (y : Outst) : (setOutst g y).gid = g.gid := rfl
@[simp] theorem setOutst_width (g : Group) (y : Outst) : (setOutst g y).width = g.width := rfl
@[simp] theorem setOutst_die (g : Group) (y : Outst) : (setOutst g y).die = g.die := rfl
@[simp] theorem setOutst_core (g : Group) (y : Outst) : (setOutst g y).core = g.core := rfl
@[simp] theorem setOutst_slot (g : Group) (y : Outst) : (setOutst g y).slot = g.slot := rfl
@[simp] theorem setOutst_quarter (g : Group) (y : Outst) : (setOutst g y).quarter = g.quarter := rfl
@[simp] theorem setOutst_resid (g : Group) (y : Outst) : (setOutst g y).resid = g.resid := rfl
@[simp] theorem setOutst_voices (g : Group) (y : Outst) : (setOutst g y).voices = g.voices := rfl
@[simp] theorem setOutst_park (g : Group) (y : Outst) : (setOutst g y).park = g.park := rfl
@[simp] theorem setOutst_live (g : Group) (y : Outst) : (setOutst g y).live = g.live := rfl
@[simp] theorem setOutst_v (g : Group) (y : Outst) : (setOutst g y).v = g.v := rfl
@[simp] theorem setOutst_nv (g : Group) (y : Outst) : (setOutst g y).nv = g.nv := rfl
@[simp] theorem setOutst_s (g : Group) (y : Outst) : (setOutst g y).s = g.s := rfl
@[simp] theorem setOutst_ns (g : Group) (y : Outst) : (setOutst g y).ns = g.ns := rfl
@[simp] theorem setOutst_p (g : Group) (y : Outst) : (setOutst g y).p = g.p := rfl
@[simp] theorem setOutst_x (g : Group) (y : Outst) : (setOutst g y).x = g.x := rfl
@[simp] theorem setOutst_ly (g : Group) (y : Outst) : (setOutst g y).ly = g.ly := rfl
@[simp] theorem setOutst_q (g : Group) (y : Outst) : (setOutst g y).q = g.q := rfl
@[simp] theorem setOutst_f (g : Group) (y : Outst) : (setOutst g y).f = g.f := rfl
@[simp] theorem setOutst_mode (g : Group) (y : Outst) : (setOutst g y).mode = g.mode := rfl
@[simp] theorem setOutst_fpflags (g : Group) (y : Outst) : (setOutst g y).fpflags = g.fpflags := rfl
@[simp] theorem setOutst_prog (g : Group) (y : Outst) : (setOutst g y).prog = g.prog := rfl
@[simp] theorem setOutst_outq (g : Group) (y : Outst) : (setOutst g y).outq = g.outq := rfl
@[simp] theorem setOutst_inWords (g : Group) (y : Outst) : (setOutst g y).inWords = g.inWords := rfl
@[simp] theorem setOutst_tvec (g : Group) (y : Outst) : (setOutst g y).tvec = g.tvec := rfl
@[simp] theorem setOutst_tcause (g : Group) (y : Outst) : (setOutst g y).tcause = g.tcause := rfl
@[simp] theorem setOutst_taddr (g : Group) (y : Outst) : (setOutst g y).taddr = g.taddr := rfl
@[simp] theorem setOutst_tpc (g : Group) (y : Outst) : (setOutst g y).tpc = g.tpc := rfl
@[simp] theorem setOutst_tmask (g : Group) (y : Outst) : (setOutst g y).tmask = g.tmask := rfl
@[simp] theorem setOutst_pp (g : Group) (y : Outst) : (setOutst g y).pp = g.pp := rfl
@[simp] theorem setOutst_ret (g : Group) (y : Outst) : (setOutst g y).ret = g.ret := rfl
@[simp] theorem setOutst_inhandler (g : Group) (y : Outst) : (setOutst g y).inhandler = g.inhandler := rfl
@[simp] theorem setOutst_handler (g : Group) (y : Outst) : (setOutst g y).handler = g.handler := rfl
@[simp] theorem setOutst_trap (g : Group) (y : Outst) : (setOutst g y).trap = g.trap := rfl
@[simp] theorem setOutst_nextId (g : Group) (y : Outst) : (setOutst g y).nextId = g.nextId := rfl
@[simp] theorem setOutst_conflicts (g : Group) (y : Outst) : (setOutst g y).conflicts = g.conflicts := rfl
@[simp] theorem setOutst_mxsp (g : Group) (y : Outst) : (setOutst g y).mxsp = g.mxsp := rfl
@[simp] theorem setOutst_mxseq (g : Group) (y : Outst) : (setOutst g y).mxseq = g.mxseq := rfl
@[simp] theorem setOutst_arrived (g : Group) (y : Outst) : (setOutst g y).arrived = g.arrived := rfl
@[simp] theorem setOutst_tvu (g : Group) (y : Outst) : (setOutst g y).tvu = g.tvu := rfl
@[simp] theorem setOutst_tvJobs (g : Group) (y : Outst) : (setOutst g y).tvJobs = g.tvJobs := rfl
@[simp] theorem setOutst_tvPend (g : Group) (y : Outst) : (setOutst g y).tvPend = g.tvPend := rfl
@[simp] theorem setOutst_rdTok (g : Group) (y : Outst) : (setOutst g y).rdTok = g.rdTok := rfl
@[simp] theorem setOutst_repack (g : Group) (y : Outst) : (setOutst g y).repack = g.repack := rfl
@[simp] theorem setOutst_freed (g : Group) (y : Outst) : (setOutst g y).freed = g.freed := rfl
@[simp] theorem setOutst_stopped (g : Group) (y : Outst) : (setOutst g y).stopped = g.stopped := rfl
@[simp] theorem setOutst_victim (g : Group) (y : Outst) : (setOutst g y).victim = g.victim := rfl
@[simp] theorem setOutst_vrun (g : Group) (y : Outst) : (setOutst g y).vrun = g.vrun := rfl
@[simp] theorem setOutst_holdsRes (g : Group) (y : Outst) : (setOutst g y).holdsRes = g.holdsRes := rfl

end Sys2Proof.Machine
end

