-- ==== Sys2Proof/Laws/Memory.lean ====
section
/-!
SUPPORT. Sys2Proof/Laws/Memory.lean: every memory operation keeps memory's canonical form, a byte written is read back, and
the bytes beside it stay.
-/

namespace Sys2Proof.Machine

theorem putMem_wf : ∀ (bs : List Byte) (mem : List Host.Cell) (key : Nat),
    Memory.wf mem = true → Memory.wf (putMem mem key bs) = true
  | [], _, _, h => h
  | _ :: bs, _, key, h => putMem_wf bs _ (key + 1) (Tbl.wf_set _ _ (Nat.zero_le _) h)

theorem putMem_other : ∀ (bs : List Byte) (mem : List Host.Cell) (key k : Nat), k < key ∨ key + bs.length ≤ k →
    Tbl.get Memory.fill (putMem mem key bs) k = Tbl.get Memory.fill mem k
  | [], _, _, _, _ => rfl
  | b :: bs, mem, key, k, h => by
    simp only [List.length_cons] at h
    rw [putMem, putMem_other bs _ (key + 1) k (by omega), Tbl.get_set_other _ _ (by omega)]

theorem putMem_same : ∀ (bs : List Byte) (mem : List Host.Cell) (key i : Nat), (h : i < bs.length) →
    Tbl.get Memory.fill (putMem mem key bs) (key + i) = bs[i]
  | b :: bs, mem, key, 0, _ => by
    rw [putMem, putMem_other bs _ (key + 1) (key + 0) (by omega)]
    exact Tbl.get_set_same Memory.fill mem key b
  | b :: bs, mem, key, i + 1, h => by
    have := putMem_same bs (Tbl.set Memory.fill mem key b) (key + 1) i (by simpa using h)
    simpa [putMem, Nat.add_assoc, Nat.add_comm 1 i] using this

/-! Operations that leave the memory table alone. -/

theorem foldl_mem {α : Type} (f : Mach → α → Mach) (hf : ∀ m a, (f m a).mem = m.mem) :
    ∀ (as : List α) (m : Mach), (as.foldl f m).mem = m.mem
  | [], _ => rfl
  | a :: as, m => (foldl_mem f hf as (f m a)).trans (hf m a)

theorem testMonitors_mem (m : Mach) (die key n : Nat) : (testMonitors m die key n).mem = m.mem := by
  unfold testMonitors
  simp only
  split
  · rfl
  · exact foldl_mem satisfy (fun _ _ => rfl) _ _

theorem testFrom_mem (m : Mach) (key n : Nat) : (testFrom m key n).mem = m.mem := by
  unfold testFrom
  split
  · rfl
  · exact foldl_mem _ (fun _ _ => testMonitors_mem _ _ _ _) _ _

theorem pmodeWrite_mem (m : Mach) (p v : Nat) : (pmodeWrite m p v).mem = m.mem := by
  unfold pmodeWrite
  simp only
  split
  · rfl
  · split <;> rfl

theorem ctlWrite_mem (m : Mach) (p off : Nat) (v : Word) (cov : Nat → Bool) : (ctlWrite m p off v cov).mem = m.mem := by
  unfold ctlWrite
  simp only
  split <;> (try split) <;> first | rfl | exact pmodeWrite_mem _ _ _

theorem syeWrite_mem (m : Mach) (p die off : Nat) (v : Word) : (syeWrite m p die off v).mem = m.mem := by
  unfold syeWrite
  simp only
  split <;> (try split) <;> rfl

theorem devWrite_mem (m : Mach) (p off : Nat) (v : Word) (cov : Nat → Bool) : (devWrite m p off v cov).mem = m.mem := by
  unfold devWrite
  simp only
  split
  · exact ctlWrite_mem _ _ _ _ _
  · split
    · rfl
    · split
      · split
        · exact syeWrite_mem _ _ _ _ _
        · rfl
      · rfl

theorem devBytes_mem (m : Mach) (p off : Nat) (bs : List Byte) : (devBytes m p off bs).mem = m.mem :=
  foldl_mem _ (fun _ _ => devWrite_mem _ _ _ _ _) _ _

/-- What writing bytes by key makes of the memory table: all it can do to it. -/
theorem wrBytes_mem (m : Mach) (key : Nat) (bs : List Byte) :
    (wrBytes m key bs).mem = if keyRegion key = 3 then m.mem else putMem m.mem key bs := by
  unfold wrBytes
  split
  · exact devBytes_mem _ _ _ _
  · rw [testFrom_mem]

theorem wrBytes_wf {m : Mach} (key : Nat) (bs : List Byte) (h : Memory.wf m.mem = true) :
    Memory.wf (wrBytes m key bs).mem = true := by
  rw [wrBytes_mem]; split
  · exact h
  · exact putMem_wf _ _ _ h

/-- A fold of steps that each keep memory's form keeps it. -/
theorem foldl_wf {α : Type} (f : Mach → α → Mach) (hf : ∀ m a, Memory.wf m.mem = true → Memory.wf (f m a).mem = true) :
    ∀ (as : List α) (m : Mach), Memory.wf m.mem = true → Memory.wf (as.foldl f m).mem = true
  | [], _, h => h
  | a :: as, m, h => foldl_wf f hf as (f m a) (hf m a h)

theorem setCells_wf (cells : List (Nat × Byte)) (mem : List Host.Cell) (h : Memory.wf mem = true) :
    Memory.wf (cells.foldl (fun t kb => Tbl.set Memory.fill t kb.1 kb.2) mem) = true := by
  induction cells generalizing mem with
  | nil => exact h
  | cons c cs ih => exact ih _ (Tbl.wf_set _ _ (Nat.zero_le _) h)

theorem wrLine_wf {m : Mach} (line : Nat) (cells : List (Nat × Byte)) (h : Memory.wf m.mem = true) :
    Memory.wf (wrLine m line cells).mem = true := by
  unfold wrLine
  split
  · exact foldl_wf _ (fun _ _ => wrBytes_wf _ _) _ _ h
  · simp only [testFrom_mem]
    exact setCells_wf _ _ h

/-- Write-backs keep memory's form: every cache operation is one of these after a change of the caches alone. -/
theorem wrLines_wf {m : Mach} (cells : List (Nat × Byte)) (h : Memory.wf m.mem = true) : Memory.wf (wrLines m cells).mem = true :=
  foldl_wf _ (fun _ _ => wrLine_wf _ _) _ _ h

theorem flushC1In_wf {m : Mach} (who : Dirty1 → Bool) (lo n : Nat) (h : Memory.wf m.mem = true) :
    Memory.wf (flushC1In m who lo n).mem = true := wrLines_wf _ h

theorem flushC2_wf {m : Mach} (die core lo n : Nat) (d : Bool) (h : Memory.wf m.mem = true) :
    Memory.wf (flushC2 m die core lo n d).mem = true := wrLines_wf _ h

theorem flushC2In_wf {m : Mach} (who : Nat → Bool) (lo n : Nat) (d : Bool) (h : Memory.wf m.mem = true) :
    Memory.wf (flushC2In m who lo n d).mem = true :=
  foldl_wf _ (fun _ _ => flushC2_wf _ _ _ _ _) _ _ h

theorem flushAtoms_wf {m : Mach} (die core : Nat) (pick : Nat → DirtyA → Bool) (h : Memory.wf m.mem = true) :
    Memory.wf (flushAtoms m die core pick).mem = true := wrLines_wf _ h

theorem flushAtomsIn_wf {m : Mach} (who : Nat → Bool) (lo n : Nat) (h : Memory.wf m.mem = true) :
    Memory.wf (flushAtomsIn m who lo n).mem = true :=
  foldl_wf _ (fun _ _ => flushAtoms_wf _ _ _) _ _ h

theorem flushC1_wf {m : Mach} (die core : Nat) (h : Memory.wf m.mem = true) : Memory.wf (flushC1 m die core).mem = true :=
  foldl_wf _ (fun _ _ => flushAtoms_wf _ _ _) _ _ (flushC1In_wf _ _ _ h)

theorem recallC1_wf {m : Mach} (key n : Nat) (h : Memory.wf m.mem = true) : Memory.wf (recallC1 m key n).mem = true := by
  unfold recallC1
  split
  · exact h
  · exact flushC1In_wf _ _ _ h

theorem supersede_mem (m : Mach) (w : Who) (key n : Nat) : (supersede m w key n).mem = m.mem := by
  unfold supersede
  split
  · rfl
  · simp only
    split <;> rfl

theorem spadPut_mem (m : Mach) (t off : Nat) (bs : List Byte) : (spadPut m t off bs).mem = m.mem := rfl

theorem doStore_wf {m : Mach} (w : Who) (n v : Nat) (l : Loc) (h : Memory.wf m.mem = true) :
    Memory.wf (doStore m w n v l).mem = true := by
  have hs : ∀ key, Memory.wf (supersede m w key n).mem = true := fun key => by rw [supersede_mem]; exact h
  cases l with
  | mem key leaf =>
    simp only [doStore]
    split
    · exact wrBytes_wf _ _ (recallC1_wf _ _ (hs key))
    · split
      · exact hs key
      · exact hs key
      · exact wrBytes_wf _ _ (hs key)
  | win => exact h
  | spad => exact h

theorem storeAll_wf {m : Mach} (w : Who) (n : Nat) (vs : List (Nat × Loc)) (val : Nat → Word) (h : Memory.wf m.mem = true) :
    Memory.wf (vs.foldl (fun m l => doStore m w n (val l.1).toNat l.2) m).mem = true :=
  foldl_wf _ (fun _ _ => doStore_wf _ _ _ _) _ _ h

theorem recallGranule_wf {m : Mach} (gran : Nat) (h : Memory.wf m.mem = true) : Memory.wf (recallGranule m gran).mem = true :=
  flushC2In_wf _ _ _ _ (flushC1In_wf _ _ _ (flushAtomsIn_wf _ _ _ h))

theorem pinAt_wf {m : Mach} (leaf : Word) (key : Nat) (h : Memory.wf m.mem = true) : Memory.wf (pinAt m leaf key).mem = true := by
  unfold pinAt
  split
  · exact h
  · simp only
    split
    · exact recallGranule_wf _ h
    · split <;> exact recallGranule_wf _ h

theorem pinLocs_wf {m : Mach} (ls : List (Nat × Loc)) (h : Memory.wf m.mem = true) : Memory.wf (pinLocs m ls).mem = true := by
  refine foldl_wf _ (fun m a hm => ?_) _ _ h
  split
  · exact pinAt_wf _ _ hm
  · exact hm

/-! Requests served at the banks of an SYE. -/

theorem performReq_wf {m : Mach} (r : SyeReq) (h : Memory.wf m.mem = true) : Memory.wf (performReq m r).mem = true := by
  unfold performReq
  simp only
  split
  · exact wrBytes_wf _ _ (recallC1_wf _ _ h)
  · exact recallC1_wf _ _ h

theorem spillFrame_wf {m : Mach} (die gran : Nat) (h : Memory.wf m.mem = true) : Memory.wf (spillFrame m die gran).mem = true := by
  unfold spillFrame
  split
  · exact h
  · exact wrBytes_wf _ _ h

theorem serveBank_wf {m : Mach} (die bank : Nat) (h : Memory.wf m.mem = true) :
    Memory.wf ((serveBank m die bank).getD m).mem = true := by
  unfold serveBank
  cases hq : nextReq (m.mc die) bank with
  | none => exact h
  | some r => exact spillFrame_wf _ _ (performReq_wf _ h)

theorem serveBefore_wf (die bank port : Nat) : ∀ (n : Nat) (m : Mach), Memory.wf m.mem = true →
    Memory.wf (serveBefore die bank port n m).mem = true
  | 0, _, h => h
  | n + 1, m, h => by
    unfold serveBefore
    split
    · exact h
    · simp only
      split
      · exact serveBefore_wf die bank port n _ (serveBank_wf _ _ h)
      · exact h

theorem takeTurn_wf {m : Mach} (w : Who) (key : Nat) (h : Memory.wf m.mem = true) : Memory.wf (takeTurn m w key).mem = true := by
  unfold takeTurn
  split
  · exact h
  · split
    · exact h
    · exact serveBefore_wf _ _ _ _ _ h

theorem takeTurns_wf {m : Mach} (w : Who) (ls : List (Nat × Loc)) (h : Memory.wf m.mem = true) :
    Memory.wf (takeTurns m w ls).mem = true := by
  refine foldl_wf _ (fun m a hm => ?_) _ _ h
  split
  · exact takeTurn_wf _ _ hm
  · exact hm

theorem putAt_wf {m : Mach} (w : Who) (n v : Nat) (l : Loc) (h : Memory.wf m.mem = true) : Memory.wf (putAt m w n v l).mem = true :=
  doStore_wf _ _ _ _ (takeTurns_wf _ _ (pinLocs_wf _ h))

theorem storeVa_wf {m m' : Mach} (w : Who) (va n v : Nat) (h : Memory.wf m.mem = true) (hs : storeVa m w va n v = some m') :
    Memory.wf m'.mem = true := by
  unfold storeVa at hs
  split at hs
  · cases hs; exact putAt_wf _ _ _ _ h
  · cases hs

/-! A byte of memory written and read (10 R229). -/

theorem rdByte_mem {m : Mach} {key : Nat} (h : keyRegion key ≠ 3) : rdByte m key = Tbl.get Memory.fill m.mem key := by
  simp [rdByte, h]

/-- A byte outside the bytes written reads as before. -/
theorem rdByte_wrBytes_other (m : Mach) {key k : Nat} (bs : List Byte) (hk : keyRegion k ≠ 3)
    (h : k < key ∨ key + bs.length ≤ k) : rdByte (wrBytes m key bs) k = rdByte m k := by
  rw [rdByte_mem hk, rdByte_mem hk, wrBytes_mem]
  split
  · rfl
  · exact putMem_other _ _ _ _ h

/-- A byte written reads back. -/
theorem rdByte_wrBytes_same (m : Mach) {key i : Nat} (bs : List Byte) (h : i < bs.length)
    (hr : keyRegion key ≠ 3) (hi : keyRegion (key + i) ≠ 3) : rdByte (wrBytes m key bs) (key + i) = bs[i] := by
  rw [rdByte_mem hi, wrBytes_mem, if_neg hr]
  exact putMem_same _ _ _ _ h

theorem State.reset_memory_wf : Memory.wf State.reset.m.mem = true := rfl

/-! Write-backs and register writes leave the teams and grids alone. -/

/-- Two devices have the same teams and grids, and every group belongs to the same ones. -/
def SameTeams (m m' : Mach) : Prop :=
  m'.teams = m.teams ∧ m'.grids = m.grids ∧ ∀ i, (m'.grp i).team = (m.grp i).team ∧ (m'.grp i).grid = (m.grp i).grid

theorem SameTeams.of {m m' : Mach} (ht : m'.teams = m.teams) (hg : m'.grids = m.grids) (hs : m'.groups = m.groups) : SameTeams m m' :=
  ⟨ht, hg, fun i => by simp [Mach.grp, hs]⟩
theorem SameTeams.rfl (m : Mach) : SameTeams m m := .of (Eq.refl _) (Eq.refl _) (Eq.refl _)
theorem SameTeams.trans {a b c : Mach} (h : SameTeams a b) (h' : SameTeams b c) : SameTeams a c :=
  ⟨h'.1.trans h.1, h'.2.1.trans h.2.1, fun i => ⟨(h'.2.2 i).1.trans (h.2.2 i).1, (h'.2.2 i).2.trans (h.2.2 i).2⟩⟩

theorem satisfy_teams (m : Mach) (k : Monitor) : SameTeams m (satisfy m k) := by
  refine ⟨Eq.refl _, Eq.refl _, fun i => ?_⟩
  have hw : ∀ (g : Group) id ls here, (satisfyWord g id ls here).team = g.team ∧ (satisfyWord g id ls here).grid = g.grid := by
    intro g id ls here
    unfold satisfyWord
    split
    · exact ⟨Eq.refl _, Eq.refl _⟩
    · split
      · simp only
        split
        · have hl : ∀ (g : Group) fl, (lowerFlag g fl).team = g.team ∧ (lowerFlag g fl).grid = g.grid := by
            intro g fl
            unfold lowerFlag
            split <;> exact ⟨Eq.refl _, Eq.refl _⟩
          unfold dropOutst
          simp only
          split
          · exact ⟨Eq.refl _, Eq.refl _⟩
          · exact hl _ _
        · exact ⟨Eq.refl _, Eq.refl _⟩
      · exact ⟨Eq.refl _, Eq.refl _⟩
  unfold satisfy
  by_cases hk : i = k.grp
  · subst hk
    by_cases hl : k.grp < m.groups.length
    · simp [Mach.grp_setGrp_same, hl, hw]
    · simp [Mach.grp, Mach.setGrp, hl]
  · simp [Mach.grp_setGrp_other, hk]

theorem foldl_sameTeams {α : Type} (f : Mach → α → Mach) (hf : ∀ m a, SameTeams m (f m a)) :
    ∀ (as : List α) (m : Mach), SameTeams m (as.foldl f m)
  | [], m => .rfl m
  | a :: as, m => (hf m a).trans (foldl_sameTeams f hf as (f m a))

theorem testMonitors_teams (m : Mach) (die key n : Nat) : SameTeams m (testMonitors m die key n) := by
  unfold testMonitors
  simp only
  split
  · exact .rfl m
  · exact SameTeams.trans (.of (Eq.refl _) (Eq.refl _) (Eq.refl _)) (foldl_sameTeams satisfy satisfy_teams _ _)

theorem testFrom_teams (m : Mach) (key n : Nat) : SameTeams m (testFrom m key n) := by
  unfold testFrom
  split
  · exact .rfl m
  · exact foldl_sameTeams _ (fun _ _ => testMonitors_teams _ _ _ _) _ _

theorem pmodeWrite_teams (m : Mach) (p v : Nat) : SameTeams m (pmodeWrite m p v) := by
  unfold pmodeWrite
  simp only
  split
  · exact .rfl m
  · split <;> exact SameTeams.of (Eq.refl _) (Eq.refl _) (Eq.refl _)

theorem ctlWrite_teams (m : Mach) (p off : Nat) (v : Word) (cov : Nat → Bool) : SameTeams m (ctlWrite m p off v cov) := by
  unfold ctlWrite
  simp only
  split <;> (try split) <;> first | exact SameTeams.of (Eq.refl _) (Eq.refl _) (Eq.refl _) | exact pmodeWrite_teams _ _ _

theorem syeWrite_teams (m : Mach) (p die off : Nat) (v : Word) : SameTeams m (syeWrite m p die off v) := by
  unfold syeWrite
  simp only
  split <;> (try split) <;> exact SameTeams.of (Eq.refl _) (Eq.refl _) (Eq.refl _)

theorem devWrite_teams (m : Mach) (p off : Nat) (v : Word) (cov : Nat → Bool) : SameTeams m (devWrite m p off v cov) := by
  unfold devWrite
  simp only
  split
  · exact ctlWrite_teams _ _ _ _ _
  · split
    · exact SameTeams.of (Eq.refl _) (Eq.refl _) (Eq.refl _)
    · split
      · split
        · exact syeWrite_teams _ _ _ _ _
        · exact .rfl m
      · exact .rfl m

theorem wrBytes_teams (m : Mach) (key : Nat) (bs : List Byte) : SameTeams m (wrBytes m key bs) := by
  unfold wrBytes
  split
  · exact foldl_sameTeams _ (fun _ _ => devWrite_teams _ _ _ _ _) _ _
  · exact SameTeams.trans (.of (Eq.refl _) (Eq.refl _) (Eq.refl _)) (testFrom_teams _ _ _)

theorem wrLines_teams (m : Mach) (cells : List (Nat × Byte)) : SameTeams m (wrLines m cells) := by
  refine foldl_sameTeams _ (fun m l => ?_) _ _
  unfold wrLine
  split
  · exact foldl_sameTeams _ (fun _ _ => wrBytes_teams _ _ _) _ _
  · exact SameTeams.trans (.of (Eq.refl _) (Eq.refl _) (Eq.refl _)) (testFrom_teams _ _ _)

theorem flushAtoms_teams (m : Mach) (die core : Nat) (pick : Nat → DirtyA → Bool) : SameTeams m (flushAtoms m die core pick) :=
  SameTeams.trans (.of (Eq.refl _) (Eq.refl _) (Eq.refl _)) (wrLines_teams _ _)

theorem flushC1In_teams (m : Mach) (who : Dirty1 → Bool) (lo n : Nat) : SameTeams m (flushC1In m who lo n) :=
  SameTeams.trans (b := { m with c1 := _ }) (.of (Eq.refl _) (Eq.refl _) (Eq.refl _)) (wrLines_teams _ _)

theorem flushC1_teams (m : Mach) (die core : Nat) : SameTeams m (flushC1 m die core) :=
  (flushC1In_teams m _ _ _).trans (foldl_sameTeams _ (fun _ _ => flushAtoms_teams _ _ _ _) _ _)

/-- What a release at a scope leaves alone: the teams, their barriers and clusters, and the grids. -/
theorem releaseAt_teams (m : Mach) (w : Who) (scope : Nat) : SameTeams m (releaseAt m w scope) := by
  unfold releaseAt
  split
  · exact flushC1_teams _ _ _
  · split
    · exact SameTeams.trans (.of (Eq.refl _) (Eq.refl _) (Eq.refl _)) (flushAtoms_teams _ _ _ _)
    · exact .rfl m

end Sys2Proof.Machine
end

