-- ==== Sys2Proof/Laws/Queue.lean ====
section
/-!
SUPPORT. Sys2Proof/Laws/Queue.lean: everything that a word of format Q, or a matrix word, can do, by its outcome.
-/

namespace Sys2Proof.Machine

/-- A word of format Q with a lane active does what its body says with its scalar operands (11 R260). -/
theorem qWord_body {s : State} {gi vi : Nat} {v : Voice} {cls : Pipe} (h : Ready s gi vi v cls) {x : Pre} {ch : Bool}
    {a b : Option Nat} {ok : Cx → Bool} {body : Cx → Mach → Word → Word → Eff} {va vb : Word}
    (hq : (cxOf s gi vi v false x).qOk a b = true) (hk : ok (cxOf s gi vi v false x) = true) (hact : (cxOf s gi vi v false x).act ≠ 0)
    (ha : (cxOf s gi vi v false x).readS s.m 1 a = .ok va) (hb : (cxOf s gi vi v false x).readS s.m 2 b = .ok vb)
    {m : Mach} (hm : body (cxOf s gi vi v false x) s.m va vb = .ok m) :
    qWord cls x ch a b ok body s = .next (doneState s gi vi v cls x ch m) := by
  unfold qWord
  apply issue_done h
  simp only [qBody, hq, hk, hact, ha, hb, hm, Bool.and_self, Bool.not_true, Bool.false_eq_true, if_false]

/-- The same word, its body raising a cause. -/
theorem qWord_cause {s : State} {gi vi : Nat} {v : Voice} {cls : Pipe} (h : Ready s gi vi v cls) {x : Pre} {ch : Bool}
    {a b : Option Nat} {ok : Cx → Bool} {body : Cx → Mach → Word → Word → Eff} {va vb : Word}
    (hq : (cxOf s gi vi v false x).qOk a b = true) (hk : ok (cxOf s gi vi v false x) = true) (hact : (cxOf s gi vi v false x).act ≠ 0)
    (ha : (cxOf s gi vi v false x).readS s.m 1 a = .ok va) (hb : (cxOf s gi vi v false x).readS s.m 2 b = .ok vb)
    {k : Cause} {addr : Word} {mask : Mask}
    (hm : body (cxOf s gi vi v false x) s.m va vb = (cxOf s gi vi v false x).raise k addr mask) :
    qWord cls x ch a b ok body s = .next (causeState s gi vi v false x k addr mask) := by
  unfold qWord
  apply issue_cause h
  simp only [qBody, hq, hk, hact, ha, hb, hm, Bool.and_self, Bool.not_true, Bool.false_eq_true, if_false]

/-- A word of format Q whose prefix, fields or own check are illegal. -/
theorem qWord_illegal {s : State} {gi vi : Nat} {v : Voice} {cls : Pipe} (h : Ready s gi vi v cls) {x : Pre} {ch : Bool}
    {a b : Option Nat} {ok : Cx → Bool} {body : Cx → Mach → Word → Word → Eff}
    (hn : ((cxOf s gi vi v false x).qOk a b && ok (cxOf s gi vi v false x)) = false) :
    qWord cls x ch a b ok body s =
      .next (causeState s gi vi v false x .illegalOp (cxOf s gi vi v false x).waddr (cxOf s gi vi v false x).act) := by
  unfold qWord
  apply issue_cause h
  simp only [qBody, hn, Bool.not_false, if_true]
  rfl

/-- A word of format Q with no lane active does nothing. -/
theorem qWord_idle {s : State} {gi vi : Nat} {v : Voice} {cls : Pipe} (h : Ready s gi vi v cls) {x : Pre} {ch : Bool}
    {a b : Option Nat} {ok : Cx → Bool} {body : Cx → Mach → Word → Word → Eff}
    (hq : (cxOf s gi vi v false x).qOk a b = true) (hk : ok (cxOf s gi vi v false x) = true) (hact : (cxOf s gi vi v false x).act = 0) :
    qWord cls x ch a b ok body s = .next (doneState s gi vi v cls x ch s.m) := by
  unfold qWord
  apply issue_done h
  simp only [qBody, hq, hk, hact, Bool.and_self, Bool.not_true, Bool.false_eq_true, if_false, if_true]

/-- A matrix word with room in the engine is its word of format Q (12 R288). -/
theorem mxBody_room {c : Cx} {m : Mach} {a b : Option Nat} {ok : Cx → Bool} {body : Cx → Mach → Word → Word → Eff}
    (hf : c.act = 0 ∨ c.mxFull m = false) : mxBody a b ok body c m = qBody a b (fun c => c.mxCore && ok c) body c m := by
  unfold mxBody
  rcases hf with hf | hf <;> simp [hf]

/-- A matrix word that finds the engine full stalls before anything of it is checked (12 R288). -/
theorem mxBody_full {c : Cx} {m : Mach} {a b : Option Nat} {ok : Cx → Bool} {body : Cx → Mach → Word → Word → Eff}
    (ha : c.act ≠ 0) (hf : c.mxFull m = true) : mxBody a b ok body c m = .stall {} := by
  simp only [mxBody, hf, Bool.and_true, decide_eq_true_eq, ne_eq, ha, not_false_eq_true, if_true]

/-- A matrix word, with room in the engine (12 R288). -/
theorem mxWord_body {s : State} {gi vi : Nat} {v : Voice} (h : Ready s gi vi v .mem) {x : Pre} {ch : Bool}
    {a b : Option Nat} {ok : Cx → Bool} {body : Cx → Mach → Word → Word → Eff} {va vb : Word}
    (hq : (cxOf s gi vi v false x).qOk a b = true) (hk : ((cxOf s gi vi v false x).mxCore && ok (cxOf s gi vi v false x)) = true)
    (hf : (cxOf s gi vi v false x).mxFull s.m = false) (hact : (cxOf s gi vi v false x).act ≠ 0)
    (ha : (cxOf s gi vi v false x).readS s.m 1 a = .ok va) (hb : (cxOf s gi vi v false x).readS s.m 2 b = .ok vb)
    {m : Mach} (hm : body (cxOf s gi vi v false x) s.m va vb = .ok m) :
    mxWord x ch a b ok body s = .next (doneState s gi vi v .mem x ch m) := by
  unfold mxWord
  apply issue_done h
  rw [mxBody_room (.inr hf)]
  simp only [qBody, hq, hk, hact, ha, hb, hm, Bool.and_self, Bool.not_true, Bool.false_eq_true, if_false]

end Sys2Proof.Machine
end

