-- ==== Sys2Proof/Laws/Step.lean ====
section
/-!
SUPPORT. Sys2Proof/Laws/Step.lean: what one step can be: the meaning of one instruction, with what the step adds around it.
-/

namespace Sys2Proof.Machine

/-- An event of the device is the instruction of the same name. -/
theorem runEv_exec (e : Ev) (s : State) : ∃ i, i.isEvent = true ∧ runEv e s = exec i s := by
  cases e
  case courseEnd g v => exact ⟨.courseEnd g v, rfl, rfl⟩
  case wordComplete g k => exact ⟨.wordComplete g k, rfl, rfl⟩
  case ageOverride g v => exact ⟨.ageOverride g v, rfl, rfl⟩
  case trapEntry g => exact ⟨.trapEntry g, rfl, rfl⟩
  case groupFreed g => exact ⟨.groupFreed g, rfl, rfl⟩
  case teamAdmission d => exact ⟨.teamAdmission d, rfl, rfl⟩
  case queueFrontTimeout d q => exact ⟨.queueFrontTimeout d q, rfl, rfl⟩
  case rtWaitTimeout d => exact ⟨.rtWaitTimeout d, rfl, rfl⟩
  case preemptionSave t => exact ⟨.preemptionSave t, rfl, rfl⟩
  case preemptionAbandon t => exact ⟨.preemptionAbandon t, rfl, rfl⟩
  case taskSplit d c => exact ⟨.taskSplit d c, rfl, rfl⟩
  case claimServed d c => exact ⟨.claimServed d c, rfl, rfl⟩
  case claimVictim d c => exact ⟨.claimVictim d c, rfl, rfl⟩
  case claimVictimRestore d c => exact ⟨.claimVictimRestore d c, rfl, rfl⟩
  case slotRequestServed d c => exact ⟨.slotRequestServed d c, rfl, rfl⟩
  case ceCommandStart g q => exact ⟨.ceCommandStart g q, rfl, rfl⟩
  case ceLineTransfer d c k l => exact ⟨.ceLineTransfer d c k l, rfl, rfl⟩
  case ceCommandEnd d c k => exact ⟨.ceCommandEnd d c k, rfl, rfl⟩
  case mxKstep d c => exact ⟨.mxKstep d c, rfl, rfl⟩
  case tseServe d => exact ⟨.tseServe d, rfl, rfl⟩
  case tseBackupNode d => exact ⟨.tseBackupNode d, rfl, rfl⟩
  case syeAccess d b => exact ⟨.syeAccess d b, rfl, rfl⟩
  case monitorArm d => exact ⟨.monitorArm d, rfl, rfl⟩
  case swapOut t => exact ⟨.swapOut t, rfl, rfl⟩
  case swapIn t => exact ⟨.swapIn t, rfl, rfl⟩
  case syeUnpin d => exact ⟨.syeUnpin d, rfl, rfl⟩
  case hostPosted p => exact ⟨.hostPostedWrite p noWrite, rfl, rfl⟩
  case noRouteTimeout g a => exact ⟨.noRouteTimeout g a, rfl, rfl⟩
  case collTimeout k n => exact ⟨.collMemberTimeout k n, rfl, rfl⟩
  case collChunk k => exact ⟨.collChunk k [], rfl, rfl⟩
  case haloSnapshot t h => exact ⟨.haloSnapshot t h, rfl, rfl⟩
  case haloDelivery t h d => exact ⟨.haloDelivery t h d, rfl, rfl⟩
  case sxbAccept p k => exact ⟨.sxbAccept p k, rfl, rfl⟩
  case sxbDeliver p r => exact ⟨.sxbDeliver p r, rfl, rfl⟩
  case tvuNodeStep g l => exact ⟨.tvuNodeStep g l, rfl, rfl⟩
  case rduTokenPush g => exact ⟨.rduTokenPush g, rfl, rfl⟩
  case ctxEnable p c => exact ⟨.ctxEnable p c, rfl, rfl⟩
  case ctxDisable p c => exact ⟨.ctxDisable p c, rfl, rfl⟩

/-- Everything running a voice can do: nothing is left of it, its words end, it waits for a claim, it runs a decoded instruction,
it raises ILLEGAL_OP, or it waits or traps at its head; no chain is in progress after any but the third and fourth. -/
theorem runVoice_cases (gi vi : Nat) (s : State) :
    (∃ m cur, runVoice gi vi s = .next { s with m := m, chain := none, cur := cur }) ∨
    (s.chain = none ∧ ∃ m, runVoice gi vi s = .next { s with m := m, cur := none }) ∨
    (∃ i, runVoice gi vi s = exec i { s with cur := some (gi, vi) }) ∨
    (∃ x, runVoice gi vi s = issue none false x false (fun c _ => c.illegal) { s with cur := some (gi, vi) }) := by
  unfold runVoice
  split
  · exact .inl ⟨_, _, rfl⟩
  · split
    · unfold runInside
      split
      · exact .inl ⟨_, _, rfl⟩
      · split
        · rename_i h
          refine .inr (.inl ⟨?_, _, rfl⟩)
          simp only [Bool.and_eq_true, Option.isNone_iff_eq_none] at h
          exact h.1
        · split
          · exact .inr (.inr (.inl ⟨_, rfl⟩))
          · exact .inr (.inr (.inr ⟨_, rfl⟩))
    · unfold runHead
      split
      · exact .inl ⟨_, _, rfl⟩
      · exact .inl ⟨_, _, rfl⟩
      · split
        · exact .inr (.inr (.inl ⟨_, rfl⟩))
        · exact .inl ⟨_, _, rfl⟩

/-- Issuing a word keeps the rule of chains: no pipe class is used twice (01 R10). -/
theorem issue_chainOk {cls : Option Pipe} {xf : Bool} {x : Pre} {ch : Bool} {body : Cx → Mach → Eff} {s t : State}
    (hs : s.chainOk) (h : issue cls xf x ch body s = .next t) : t.chainOk := by
  unfold issue at h
  split at h
  · cases h
  · rename_i gi vi hc
    split at h
    · cases h
    · split at h
      · cases h
        have key : conflicts s cls = false → ∀ c v late dests m, (memberDone c v cls ch late dests m s).chainOk := by
          intro hcf c v late dests m
          unfold memberDone
          dsimp only
          split
          · intro k hk
            simp only [Option.some.injEq] at hk
            subst hk
            refine ⟨?_, by simp [hc]⟩
            have hu : s.used.Nodup := by
              unfold State.used
              split
              · rename_i k hk; exact (hs k hk).1
              · exact List.nodup_nil
            cases cls with
            | none => simpa using hu
            | some p =>
              have : p ∉ s.used := by simpa [conflicts] using hcf
              simp only [Option.toList_some, List.nodup_append, hu, List.nodup_singleton, true_and, List.mem_singleton]
              rintro a ha b rfl rfl
              exact this ha
          · intro k hk; cases hk
        unfold issueAt
        dsimp only
        split
        · intro k hk; cases hk
        · rename_i hcf
          have hcf : conflicts s cls = false := by simpa using hcf
          generalize (xf && _) = b
          cases b
          · simp only [Bool.false_eq_true, if_false]
            generalize body _ s.m = e
            cases e with
            | ok m => exact key hcf _ (by assumption) _ _ _
            | late u m => exact key hcf _ (by assumption) _ _ _
            | xfer ds m => exact key hcf _ (by assumption) _ _ _
            | gone m => intro k hk; cases hk
            | trap u m bs => intro k hk; cases hk
            | stall y => intro k hk; cases hk
          · exact key hcf _ (by assumption) _ _ _
      · cases h

end Sys2Proof.Machine
end

