-- ==== Sys2Proof/Tests/Slice0.lean ====
section
/-!
SUPPORT. Sys2Proof/Tests/Slice0.lean: the author's tests. Words written out from the spec's encodings decode to what they
stand for; each check of WellFormed refuses an ill-formed term; small steps agree with numbers worked out by hand from the
spec; and for each statement of Certificates/Slice0 a concrete state and operands meet its hypotheses.
-/

namespace Sys2Proof.Tests

open Sys2Proof.Machine

-- One theorem at a time: elaborated side by side, they wait for each other's kernel checks and hold a thread each.
set_option Elab.async false

/-! ## States that the tests use -/

/-- Lane values of one vector register. -/
def lanes8 (r : Nat) (f : Nat → Nat) : Tbl Word := (List.range 8).map fun l => (64 * r + l, BitVec.ofNat 64 (f l))

/-- One privileged group of eight lanes on a shading core, inside a course whose next word is w, its group changed by f. -/
def stand (w : Nat) (f : Group → Group) : State :=
  let s := probeState State.reset w
  { s with m := { s.m with groups := [f (s.m.grp 0)] } }

/-- v1 holds 10 times the lane, v2 the lane plus 1; s0 is an address in a mapped page, s1 is 5, s2 is 7; p1 the low lanes. -/
def fill (g : Group) : Group := { g with
  v := lanes8 1 (fun l => 10 * l) ++ lanes8 2 (fun l => l + 1) ++ lanes8 3 (fun l => 0xC4000 + 8 * l),
  s := [(0, 0xC4000), (1, 5), (2, 7)], p := [(1, 0x0F)] }

def W : State := stand 0x48C00000 fill

/-- The voice that issues in a state built by `stand`. -/
def vo (s : State) : Voice := (voiceAt s.m 0 0).getD default
/-- What its word sees. -/
def see (s : State) (xf : Bool) (x : Pre) : Cx := cxOf s 0 0 (vo s) xf x

/-- A voice that issues a word of a class, as a Bool. -/
def ready? (s : State) (cls : Pipe) : Bool :=
  s.cur = some (0, 0) && (voiceAt s.m 0 0).isSome && (vo s).inside && !(s.used.contains cls)

theorem ready_of {s : State} {cls : Pipe} (h : ready? s cls = true) : Ready s 0 0 (vo s) cls := by
  simp only [ready?, Bool.and_eq_true, Bool.not_eq_true', decide_eq_true_eq] at h
  obtain ⟨⟨⟨hc, hv⟩, hi⟩, hu⟩ := h
  refine ⟨⟨hc, ?_, hi⟩, hu⟩
  rw [vo]
  cases hx : voiceAt s.m 0 0 with
  | none => rw [hx] at hv; cases hv
  | some v => rfl

def ok? {ε α : Type} : Except ε α → Bool | .ok _ => true | .error _ => false
theorem ok_of {ε α : Type} {e : Except ε α} (h : ok? e = true) : ∃ a, e = .ok a := by
  cases e with | ok a => exact ⟨a, rfl⟩ | error _ => cases h
def eff? : Eff → Bool | .ok _ => true | _ => false
theorem eff_of {e : Eff} (h : eff? e = true) : ∃ m, e = .ok m := by
  cases e <;> first | exact ⟨_, rfl⟩ | cases h

/-- The lane results of a word, as the statements of words that compute each lane take them. -/
abbrev Fn := Cx → Nat → Word → Word → Word → Word

/-- The hypotheses of a word that computes each active lane of d from the same lane of its sources. -/
def AluHyp (s : State) (x : Pre) (p : Pipe) (u : Use) (d a b : Nat) (f : Fn) : Prop :=
  ∃ v, Ready s 0 0 v (destClass x p d) ∧
    let c := cxOf s 0 0 v false x
    c.preOk u = true ∧ c.fieldsOk u d a b = true ∧ c.lanes ≠ [] ∧
    ∃ m1 va vb vc m2, c.sources s.m u a b = .ok (m1, va, vb, vc) ∧
      c.write m1 d (c.lanes.map fun l => (l, f c l (va l) (vb l) (vc l))) = .ok m2

def alu? (s : State) (x : Pre) (p : Pipe) (u : Use) (d a b : Nat) (f : Fn) : Bool :=
  let c := see s false x
  ready? s (destClass x p d) && c.preOk u && c.fieldsOk u d a b && !c.lanes.isEmpty &&
    match c.sources s.m u a b with
    | .ok (m1, va, vb, vc) => eff? (c.write m1 d (c.lanes.map fun l => (l, f c l (va l) (vb l) (vc l))))
    | .error _ => false

theorem alu_of {s : State} {x : Pre} {p : Pipe} {u : Use} {d a b : Nat} {f : Fn} (h : alu? s x p u d a b f = true) :
    AluHyp s x p u d a b f := by
  simp only [alu?, Bool.and_eq_true, Bool.not_eq_true'] at h
  obtain ⟨⟨⟨⟨hr, hp⟩, hf⟩, hl⟩, hs⟩ := h
  refine ⟨vo s, ready_of hr, hp, hf, fun e => ?_, ?_⟩
  · rw [see] at hl; rw [e] at hl; cases hl
  · split at hs
    · next m1 va vb vc e => obtain ⟨m2, hw⟩ := eff_of hs; exact ⟨m1, va, vb, vc, m2, e, hw⟩
    · cases hs

/-- The hypotheses of a word that writes a predicate from its sources. -/
def PredHyp (s : State) (x : Pre) (u : Use) (a b : Nat) : Prop :=
  ∃ v, Ready s 0 0 v .alu ∧ let c := cxOf s 0 0 v false x
    c.preOk u = true ∧ c.fieldsOk u 0 a b = true ∧ c.lanes ≠ [] ∧ ∃ m1 va vb vc, c.sources s.m u a b = .ok (m1, va, vb, vc)

theorem pred_of {s : State} {x : Pre} {u : Use} {a b : Nat} (h : let c := see s false x
    (ready? s .alu && c.preOk u && c.fieldsOk u 0 a b && !c.lanes.isEmpty && ok? (c.sources s.m u a b)) = true) :
    PredHyp s x u a b := by
  simp only [Bool.and_eq_true, Bool.not_eq_true'] at h
  obtain ⟨⟨⟨⟨hr, hp⟩, hf⟩, hl⟩, hs⟩ := h
  obtain ⟨⟨m1, va, vb, vc⟩, e⟩ := ok_of hs
  refine ⟨vo s, ready_of hr, hp, hf, fun e => ?_, m1, va, vb, vc, e⟩
  rw [see] at hl; rw [e] at hl; cases hl

/-- The hypotheses of a long-latency word with a register result. -/
def LongHyp (s : State) (x : Pre) (u : Use) (d a b : Nat) : Prop :=
  ∃ v, Ready s 0 0 v (destClass x .xfu d) ∧ let c := cxOf s 0 0 v false x
    c.preOk u = true ∧ c.fieldsOk u d a b = true ∧ c.destStop d = none ∧ c.lanes ≠ [] ∧
    ((c.pre.indexed 0).isNone && (opdOf c.pre 0 d).isQ) = false ∧
    ∃ m1 va vb vc, c.sources s.m u a b = .ok (m1, va, vb, vc) ∧ saturated (m1.grp 0) (c.regFlag x.flg) = false

def long? (s : State) (x : Pre) (u : Use) (d a b : Nat) : Bool :=
  let c := see s false x
  ready? s (destClass x .xfu d) && c.preOk u && c.fieldsOk u d a b && (c.destStop d).isNone && !c.lanes.isEmpty &&
    !((c.pre.indexed 0).isNone && (opdOf c.pre 0 d).isQ) &&
    match c.sources s.m u a b with
    | .ok (m1, _, _, _) => !saturated (m1.grp 0) (c.regFlag x.flg)
    | .error _ => false

theorem long_of {s : State} {x : Pre} {u : Use} {d a b : Nat} (h : long? s x u d a b = true) : LongHyp s x u d a b := by
  simp only [long?, Bool.and_eq_true, Bool.not_eq_true'] at h
  obtain ⟨⟨⟨⟨⟨⟨hr, hp⟩, hf⟩, hd⟩, hl⟩, hq⟩, hs⟩ := h
  refine ⟨vo s, ready_of hr, hp, hf, Option.isNone_iff_eq_none.mp hd, fun e => ?_, hq, ?_⟩
  · rw [see] at hl; rw [e] at hl; cases hl
  · split at hs
    · next m1 va vb vc e => exact ⟨m1, va, vb, vc, e, by rw [Bool.not_eq_true'] at hs; exact hs⟩
    · cases hs

/-- The hypotheses of a word of format Q on which a condition holds. -/
def QHyp (s : State) (cls : Pipe) (x : Pre) (a b : Option Nat) (when : Cx → Mach → Word → Word → Prop) : Prop :=
  ∃ v, Ready s 0 0 v cls ∧ let c := cxOf s 0 0 v false x
    c.qOk a b = true ∧ c.act ≠ 0 ∧ ∃ va vb, c.readS s.m 1 a = .ok va ∧ c.readS s.m 2 b = .ok vb ∧ when c s.m va vb

def q? (s : State) (cls : Pipe) (x : Pre) (a b : Option Nat) : Bool :=
  let c := see s false x
  ready? s cls && c.qOk a b && decide (c.act ≠ 0)

/-- The values of the operands of a word of format Q. -/
def valOf (s : State) (x : Pre) (pos : Nat) (a : Option Nat) : Option Word :=
  match (see s false x).readS s.m pos a with | .ok v => some v | .error _ => none

theorem val_of {s : State} {x : Pre} {pos : Nat} {a : Option Nat} {v : Word} (h : valOf s x pos a = some v) :
    (see s false x).readS s.m pos a = .ok v := by
  unfold valOf at h
  split at h
  · next w e => rw [e]; cases h; rfl
  · cases h

theorem q_of {s : State} {cls : Pipe} {x : Pre} {a b : Option Nat} {when : Cx → Mach → Word → Word → Prop} (va vb : Word)
    (h : q? s cls x a b = true) (ha : valOf s x 1 a = some va) (hb : valOf s x 2 b = some vb)
    (hw : when (see s false x) s.m va vb) : QHyp s cls x a b when := by
  simp only [q?, Bool.and_eq_true, decide_eq_true_eq] at h
  exact ⟨vo s, ready_of h.1.1, h.1.2, h.2, va, vb, val_of ha, val_of hb, hw⟩
/-! ## Witnesses -/

def plain : Pre := .none
/-- A kind-0 prefix: no guard, third operand c. -/
def k0 (c : BitVec 7) : Pre := .k0 false 7 c 0 false false 0 false

theorem witness_IntegerArithmetic (t : IntTy) :
    AluHyp W plain .alu { Use.dab with sat := true, sub := tyCount t, subw := tyWidth t } 3 1 2
      (fun c _ p q r => intLane t c.pre.sat (fun y z _ => y + z) p q r) ∧
    AluHyp W (k0 0x71) .alu { Use.dab with c := true, sat := true, sub := tyCount t, subw := tyWidth t } 0x70 0x71 0x72
      (fun c _ p q r => intLane t c.pre.sat (fun y z w => y * z + w) p q r) := by
  cases t <;> exact ⟨alu_of (by decide), alu_of (by decide)⟩

theorem witness_IntegerArithmetic_signed :
    tySigned .i32 = true ∧ tyCount .i32 = 1 ∧ tyCount .i8x8 ≠ 1 ∧
    AluHyp W plain .alu { Use.da with sat := true, sub := 1, subw := 32 } 3 1 0 (fun c _ p q r => intLane .i32 c.pre.sat (fun y _ _ => -y) p q r) :=
  ⟨rfl, rfl, by decide, alu_of (by decide)⟩

theorem witness_IntegerArithmetic_unsigned : Ready W 0 0 (vo W) (destClass plain .alu 3) ∧ tySigned .n32 = false :=
  ⟨ready_of (by decide), rfl⟩

theorem witness_IntegerElements : 7 < tyCount .i8x8 ∧ 0 < tyCount .n32 := by decide

theorem witness_IntegerCompare :
    PredHyp W plain { Use.dab with d := false } 1 2 ∧ tyCount .i32 = 1 ∧ (5#4).toNat ≤ 5 ∧ (6#4).toNat > 5 ∧ tyCount .n16x4 ≠ 1 ∧
    Ready W 0 0 (vo W) .alu := ⟨pred_of (by decide), by decide, by decide, by decide, by decide, ready_of (by decide)⟩

theorem witness_Select :
    AluHyp W plain .alu { Use.dab with sub := 1, subw := 32 } 3 1 2 (fun _ _ p _ _ => p) ∧
    (∃ v, Ready W 0 0 v (destClass (k0 7) .alu 3) ∧ (7#7).toNat ≤ 7 ∧
      let c := { cxOf W 0 0 v false (k0 7) with pre := k0 0 }
      c.preOk { Use.dab with sub := 1, subw := 32 } = true ∧ c.fieldsOk { Use.dab with sub := 1, subw := 32 } 3 1 2 = true ∧
      ∃ m1 va vb vc m2, c.sources W.m { Use.dab with sub := 1, subw := 32 } 1 2 = .ok (m1, va, vb, vc) ∧
        c.write m1 3 (c.lanes.map fun l => (l, va l)) = .ok m2) ∧
    Ready W 0 0 (vo W) (destClass (k0 8) .alu 3) ∧ (8#7).toNat > 7 := by
  refine ⟨alu_of (by decide), ⟨vo W, ready_of (by decide), by decide, by decide, by decide, ?_⟩, ready_of (by decide), by decide⟩
  obtain ⟨⟨m1, va, vb, vc⟩, e⟩ := ok_of (e := Cx.sources { cxOf W 0 0 (vo W) false (k0 7) with pre := k0 0 } W.m
    { Use.dab with sub := 1, subw := 32 } 1 2) (by decide)
  exact ⟨m1, va, vb, vc, _, e, rfl⟩

theorem witness_IntegerConvert :
    AluHyp W plain .alu { Use.da with sat := true } 3 1 0 (fun _ _ p _ _ => p) ∧
    (let cd := tyCount .i16x4
     let fits := fun (k h : Nat) => h * min cd (tyCount (tyOfCode k)) + min cd (tyCount (tyOfCode k)) ≤ max cd (tyCount (tyOfCode k))
     (9 ≤ 9 ∧ fits 9 3 ∧ fits 0 1) ∧ ¬fits 0 2 ∧ ¬(10 ≤ 9)) := ⟨alu_of (by decide), by decide⟩

theorem witness_AddressArithmetic : AluHyp W (k0 0x71) .alu Use.dabc 3 3 1 (fun _ _ p q r => p + (q <<< (r.toNat % 8))) :=
  alu_of (by decide)

theorem witness_BitwiseWords :
    AluHyp W plain .alu Use.dab 3 1 2 (fun _ _ p q _ => p &&& q) ∧ AluHyp W plain .alu Use.da 0x70 0x71 0 (fun _ _ p _ _ => ~~~p) ∧
    AluHyp W (k0 2) .alu { Use.dabc with sat := true } 0x60 1 2 (fun c _ p q r => idotLane true c.pre.sat p q r) :=
  ⟨alu_of (by decide), alu_of (by decide), alu_of (by decide)⟩

theorem witness_FieldsAndImmediates :
    AluHyp W plain .alu Use.dab 3 1 2 (fun _ _ p _ _ => p) ∧ AluHyp W (k0 1) .alu { Use.dab with c := true } 3 1 2 (fun _ _ p _ _ => p) ∧
    AluHyp W plain .alu { Use.dab with a := false } 3 0 2 (fun _ _ _ q _ => q) ∧
    AluHyp W plain .alu { Use.da with a := false } 0x70 0 0 (fun _ _ _ _ _ => 72) ∧
    (∃ v, Ready W 0 0 v .alu ∧ let c := cxOf W 0 0 v false plain
      c.preOk { Use.da with d := false } = true ∧ c.fieldsOk { Use.da with d := false } 0 2 0 = true ∧
      ∃ m1 va, c.read W.m 1 2 = .ok (m1, va)) := by
  refine ⟨alu_of (by decide), alu_of (by decide), alu_of (by decide), alu_of (by decide), vo W, ready_of (by decide), by decide, by decide, ?_⟩
  obtain ⟨⟨m1, va⟩, e⟩ := ok_of (e := (see W false plain).read W.m 1 2) (by decide)
  exact ⟨m1, va, e⟩

theorem witness_CrossLaneWords :
    AluHyp W plain .xfu Use.dab 3 1 2 (fun _ _ p _ _ => p) ∧
    (∃ v, Ready W 0 0 v (destClass plain .xfu 3) ∧ let c := cxOf W 0 0 v false plain
      c.preOk Use.da = true ∧ c.fieldsOk Use.da 3 1 0 = true ∧ c.dstOk 3 = true ∧ c.srcOk 1 1 = true ∧ c.oneDest 3 = false ∧
      ((3#7).toNat ≤ 3 ∧ WTy.n32 = .n32) ∧
      ∃ m1 va m2, c.read W.m 1 1 = .ok (m1, va) ∧ c.write m1 3 (c.lanes.map fun l => (l, va l)) = .ok m2) := by
  refine ⟨alu_of (by decide), vo W, ready_of (by decide), by decide, by decide, by decide, by decide, by decide, by decide, ?_⟩
  obtain ⟨⟨m1, va⟩, e⟩ := ok_of (e := (see W false plain).read W.m 1 1) (by decide)
  exact ⟨m1, va, _, e, rfl⟩

theorem witness_PredicateWords :
    Ready W 0 0 (vo W) .xfu ∧ Ready W 0 0 (vo W) .ctl ∧ (see W false plain).preOk Use.nil = true ∧
    AluHyp W plain .xfu { Use.nil with d := true } 0x73 0 0 (fun c _ _ _ _ => c.predVal 1 &&& c.act) ∧
    (∃ m1 va, (see W false plain).read W.m 1 0x70 = .ok (m1, va)) ∧ (0 : Nat) < W.m.groups.length ∧
    (6 : Nat) < 7 ∧ (7 : Nat) ≤ 7 ∧ (see W false plain).act.getLsbD 7 = true := by
  refine ⟨ready_of (by decide), ready_of (by decide), by decide, alu_of (by decide), ?_, by decide, by decide, by decide, by decide⟩
  obtain ⟨⟨m1, va⟩, e⟩ := ok_of (e := (see W false plain).read W.m 1 0x70) (by decide)
  exact ⟨m1, va, e⟩

/-- A number of n bytes at an offset of the mapped page 0xC0000. -/
def poke (s : State) (off n x : Nat) : State :=
  { s with m := { s.m with mem := putMem s.m.mem (keyLocal 0 (0x40000 + off)) (toBytes n x) } }

/-- The voice is of the last lane of a ripple: no ripple is in progress. -/
theorem last_lane (s : State) (h : (vo s).ripple = none) : (vo s).lastLane := fun r e => by rw [h] at e; cases e

/-- Lane 0 has eight calls on its stack, lane 1 one, to the course at packet 65537; the table at 0xC4000 holds 1, 2. -/
def calls : State :=
  poke (stand 0x48C00000 fun g => { fill g with ret := [(0, List.replicate 8 65537), (1, [65537])], p := [(1, 0x02), (2, 0x01)],
                                                v := lanes8 2 (fun l => l) }) 0x4000 8 0x200000001

theorem witness_TransfersTaken :
    Ready calls 0 0 (vo calls) .ctl ∧ (vo calls).lastLane ∧
    (let c := see calls true .none
     -- bra back to the course that holds it; call from lane 1, whose stack has room; ret of lane 1 alone
     examine c.base (whoGroup c.base 0) 65537 ≠ some false ∧ lanesOf ((vo calls).mask &&& c.predVal 1) = [1] ∧
     (Tbl.get [] c.g.ret 1).length < 8 ∧ c.preOk Use.nil = true) ∧
    (let g := see calls true (.k0 false 1 0 0 false false 0 false)
     g.lanes = [1] ∧ g.preOk Use.nil = true ∧ Tbl.get [] g.g.ret 1 = [65537]) := by
  refine ⟨ready_of (by decide), last_lane _ (by decide), by decide, by decide⟩

theorem witness_TransfersTaken_traps :
    (let c := see calls true .none
     -- bra to the packet after its own, which is no head; call from lane 0, whose stack is full; ret of a lane with none
     examine c.base (whoGroup c.base 0) (c.branchTo 1) = some false ∧ c.branchLanes false 7 ≠ [] ∧
     ((c.branchLanes false 2).filter fun l => (Tbl.get [] c.g.ret l).length ≥ 8) = [0] ∧
     (c.lanes.filter fun l => (Tbl.get [] c.g.ret l).isEmpty) ≠ []) := by decide

theorem witness_TransfersTaken_table :
    ∃ v, Ready calls 0 0 v .ctl ∧ v.lastLane ∧
      -- lane 0 alone takes entry 0 of a table of one; lane 1 alone has an index beyond it
      (∀ g ∈ [Pre.k0 false 2 0 0 false false 0 false, .k0 false 1 0 0 false false 0 false],
        let c := cxOf calls 0 0 v true g
        let u := { Use.dab with d := false }
        c.preOk u = true ∧ c.fieldsOk u 0 2 0x70 = true ∧ (opdOf g 2 0x70).isS = true ∧ g.symp 2 = none ∧ g.indexed 2 = none) ∧
      (let c := cxOf calls 0 0 v true (.k0 false 2 0 0 false false 0 false)
       let u := { Use.dab with d := false }
       ∃ m1 va vb vc ls, c.sources calls.m u 2 0x70 = .ok (m1, va, vb, vc) ∧ (c.lanes.filter fun l => wb (va l) 0 32 ≥ 1) = [] ∧
         checkLanes m1 (whoGroup c.base 0) .load 4 false (c.lanes.map fun l => (l, vb 0 + BitVec.ofNat 64 (4 * wb (va l) 0 32))) = .ok ls ∧
         anyPoison m1 4 ls = false ∧ ∀ l ∈ ls, examine c.base (whoGroup c.base 0)
           ((c.grid.lr.kaddr / 12 + seeNum m1 (whoGroup c.base 0) 4 l.2) % 2 ^ 48) ≠ some false) ∧
      (let c := cxOf calls 0 0 v true (.k0 false 1 0 0 false false 0 false)
       ∃ m1 va vb vc, c.sources calls.m { Use.dab with d := false } 2 0x70 = .ok (m1, va, vb, vc) ∧
         (c.lanes.filter fun l => wb (va l) 0 32 ≥ 1) ≠ []) := by
  refine ⟨vo calls, ready_of (by decide), last_lane _ (by decide), by decide, ?_, ?_⟩
  · exact ⟨_, _, _, _, _, rfl, by decide, rfl, by decide, by decide⟩
  · exact ⟨_, _, _, _, rfl, by decide⟩

theorem witness_HintsAndYield :
    Ready W 0 0 (vo W) .ctl ∧ (see W false plain).preOk Use.nil = true ∧ voiceAt W.m 0 0 = some (vo W) ∧
    (let g := Pre.k1 true 1 0 0 3 3 0 false
     g = .k1 true 1 0 0 3 3 0 false ∧ 0x70 ≤ (0x70#7).toNat ∧ (0 : BitVec 2) = 0) :=
  ⟨ready_of (by decide), by decide, by decide, by decide⟩

theorem witness_SpecialRegisterReads :
    (∃ v, Ready W 0 0 v .ctl ∧ let c := cxOf W 0 0 v false plain
      c.kind0 false = true ∧ c.dstOk 3 = true ∧ c.oneDest 3 = false ∧ c.floatBusy = false ∧
      ∃ m2, c.write W.m 3 (c.lanes.map fun l => (l, BitVec.ofNat 64 l)) = .ok m2) ∧
    (∃ v, Ready W 0 0 v .ctl ∧ (cxOf W 0 0 v false plain).oneDest 0x70 = true) :=
  ⟨⟨vo W, ready_of (by decide), by decide, by decide, by decide, by decide, _, rfl⟩, vo W, ready_of (by decide), by decide⟩

/-- The same group in a grid that is not privileged. -/
def user (s : State) : State :=
  { s with m := { s.m with grids := s.m.grids.map fun x => { x with lr := { x.lr with priv := false } } } }

theorem witness_SpecialRegisterWrites :
    (∀ s ∈ [W, user W], ready? s .ctl = true ∧ (see s false plain).kind0 false = true ∧
      (opdOf plain 1 0x71).uniform = true ∧ (see s false plain).srcOk 1 0x71 = true ∧ (see s false plain).act ≠ 0 ∧
      (see s false plain).floatBusy = false ∧ ok? ((see s false plain).read s.m 1 0x71) = true ∧ (see s false plain).lanes ≠ []) ∧
    (see W false plain).grid.lr.priv = true ∧ (see (user W) false plain).grid.lr.priv = false ∧
    ((7#14).toNat ≠ 8 ∧ (7#14).toNat ≠ 9 ∧ (7#14).toNat ≠ 16) ∧ (opdOf plain 1 1).uniform = false ∧
    ((see W false plain).preOk Use.dab = true ∧ (see W false plain).fieldsOk Use.dab 0x70 0x71 0x72 = true ∧
      plain.indexed 0 = none ∧ (opdOf plain 0 0x70).isS = true ∧ ok? ((see W false plain).sources W.m Use.dab 0x71 0x72) = true ∧
      eff? ((see W false plain).write W.m 0x70 ((see W false plain).lanes.map fun k => (k, (see W false plain).g.mode))) = true) ∧
    ¬(opdOf plain 0 3).isS = true := by decide

/-- An ordered kernel whose v3 is a sympathetic source register. -/
def ordered : State :=
  { W with m := { W.m with grids := W.m.grids.map fun x => { x with
      hdr := { x.hdr with ordered := true, syms := [(3, 0)] }, lr := { x.lr with ordered := true } } } }

theorem witness_SympatheticWords :
    (∃ v, Ready ordered 0 0 v .mem ∧ let c := cxOf ordered 0 0 v false plain
      (c.kind0 false = true ∧ (3#7).toNat < c.g.nv ∧ c.grid.hdr.ordered = true ∧ compatG c.base c.g = false ∧
        (c.grid.hdr.syms.any fun y => y.1 = 3) = true) ∧
      ∃ m1 va gd, c.read ordered.m 1 3 = .ok (m1, va) ∧
        (c.lanes.foldl (fun o l => o.bind fun y => publish y (itemOf c.base c.g l) 3 (va l)) (some (m1.grid c.g.grid))) = some gd) ∧
    (∃ v, Ready W 0 0 v .mem ∧ (cxOf W 0 0 v false plain).grid.hdr.ordered = false) ∧
    (let x := probeGrid
     let full := { x with streams := [(128 * 4 + 3, { elems := List.replicate 16 0, released := 0, closed := none })] }
     (streamOf x 4 3).closed = none ∧ (streamOf x 4 3).elems.length < 16 ∧
     (streamOf full 4 3).closed = none ∧ 16 ≤ (streamOf full 4 3).elems.length) :=
  ⟨⟨vo ordered, ready_of (by decide), by decide, _, _, _, rfl, rfl⟩, ⟨vo W, ready_of (by decide), by decide⟩, by decide⟩

/-- A trap of voice 0. -/
def pend (k : Cause) : PendTrap :=
  { voice := 0, first := 1, after := 2, member := 0, bases := [], trap := { cause := k, addr := 5, mask := 3, elem := 0, done := false } }

/-- Memory that holds the page tables alone. -/
def bare (s : State) : State := { s with m := { s.m with mem := probeTables.foldl (fun t kv => putMem t kv.1 (toBytes 8 kv.2)) [] } }

/-- The group with a frame for its traps at 0xC4000, whose handler starts at packet 65537. -/
def framed : State := poke (bare (stand 0x48C00000 fun g => { fill g with tvec := 0xC4000, trap := some (pend .brk) })) 0x4000 8 65537

/-- The page of the frame migrates. -/
def migrating : State :=
  { framed with m := { framed.m with mem := putMem framed.m.mem (keyLocal 0 0x30060) (toBytes 8 (0x40073 + 2 ^ 61)) } }

/-- The same group in its handler. -/
def handling : State :=
  { framed with m := { framed.m with groups := framed.m.groups.map fun g => { g with
      inhandler := true, trap := none, tcause := 0x0E, handler := some { voices := g.voices, park := [], tv := 0, first := 1, after := 2, bases := [] } } } }

/-- Guarded off in every lane. -/
def off : Pre := .k0 true 7 0 0 false false 0 false

theorem witness_BreakAndSystemCall :
    Ready W 0 0 (vo W) .ctl ∧ Ready handling 0 0 (vo handling) .ctl ∧
    ((see W false plain).preOk Use.nil = true ∧ (see W false plain).kind0 false = true ∧ (see W false plain).act ≠ 0) ∧
    ((see W false off).preOk Use.nil = true ∧ (see W false off).kind0 false = true ∧ (see W false off).act = 0) ∧
    (see W false plain).g.inhandler = false ∧
    ((see handling false plain).kind0 false = true ∧ (see handling false plain).act ≠ 0 ∧ (see handling false plain).g.inhandler = true) :=
  ⟨ready_of (by decide), ready_of (by decide), by decide⟩

theorem witness_TrapEntry :
    (let g := framed.m.grp 0
     (0 : Nat) < framed.m.groups.length ∧ (pend .brk).trap.cause ≠ .sramUe ∧ (pend .brk).trap.cause ≠ .symFault ∧
     g.inhandler = false ∧ wb g.tvec 8 40 * 256 = 0xC4000 ∧ anyMortarBusy g = false ∧ isHeld framed.m 0 4 = false ∧
     (let m0 := pinFrame framed.m (whoGroup framed.m 0) 0xC4000 1
      ok? (readFrame m0 (whoGroup framed.m 0) 0xC4000) = true ∧
      (match writeFrame (whoGroup framed.m 0) 0xC4000 (frameWords framed.m 0 0) m0 with | .done _ => true | _ => false) = true)) ∧
    (let m := migrating.m
     anyMortarBusy (m.grp 0) = false ∧ isHeld m 0 4 = false ∧
     checkVa (pinFrame m (whoGroup m 0) 0xC4000 1) (whoGroup m 0) .load 8 true 0xC4000 = .held) := by
  decide +kernel

theorem witness_TrapEntry_kills :
    (handling.m.grp 0).inhandler = true ∧ wb (W.m.grp 0).tvec 8 40 = 0 ∧ (0 : Nat) < handling.m.groups.length := by decide

theorem witness_TrapReturn :
    Ready handling 0 0 (vo handling) .ctl ∧ (vo handling).lastLane ∧
    (let c := see handling true plain
     let m0 := pinFrame handling.m (whoGroup c.base 0) 0xC4000 (32 + 32 * c.g.width)
     c.kind0 false = true ∧ c.act ≠ 0 ∧ c.g.handler.isSome = true ∧ courseBusy c.base 0 0 = false ∧
     ok? (readFrame m0 (whoGroup c.base 0) (0xC4000 + 0x28)) = true ∧
     ok? (readFrames m0 (whoGroup c.base 0) (32 * c.g.width) (0xC4000 + 0x100)) = true) ∧
    (see W true plain).g.handler = none ∧ (see W true off).act = 0 ∧
    (let h := ((handling.m.grp 0).handler.getD default)
     h.park = [] ∧ (h.voices.map Prod.fst).Nodup ∧ (∀ e ∈ h.voices, e.2.inside = true) ∧
     ∀ e ∈ h.voices, e.2.mask &&& (handling.m.grp 0).live ≠ 0) :=
  ⟨ready_of (by decide), last_lane _ (by decide), by decide +kernel, by decide, by decide, by decide⟩

/-- A voice that stands at a head whose wait mask names flag 0, and the value of that flag. -/
def atHead (w f : Nat) : State := stand w fun g => { g with f := [(0, f)] }

theorem witness_CourseEntry :
    (∀ s ∈ [atHead 0x0023E002 0, atHead 0x0023E002 1], s.cur = some (0, 0) ∧ (voiceAt s.m 0 0).isSome = true ∧ (vo s).inside = false ∧
      (match fetchCourse s.m 0 (vo s) with
        | .ok ws => (structErr (encodeBase (.head false 1 1 15 2) :: ws.drop 1) (s.m.grp 0).nv).isNone
        | .error _ => false) = true) ∧
    (2#12).getLsbD 1 = true ∧ counter ((atHead 0x0023E002 0).m.grp 0) 1 = 0 := by decide

/-- A chain in progress that has used the ALU. -/
def inChain : State := { W with chain := some { base := W.m, used := [.alu], first := 1, member := 1, late := none } }

theorem witness_ChainRules :
    Issues inChain 0 0 (vo inChain) ∧ inChain.used.contains .alu = true ∧
    (voiceAt W.m 0 0 = some (vo W) ∧ W.late = none ∧ (vo W).word + 1 ≤ lastWord (vo W).code ∧ (vo W).ripple = none) ∧
    (let s := { W with m := setVoice W.m 0 0 { vo W with word := 5 } }
     voiceAt s.m 0 0 = some (vo s) ∧ lastWord (vo s).code < 5 + 1 ∧ (vo s).ripple = none) ∧
    (let v := { vo W with word := 5, ripple := some { first := 1, lane := 7, rest := [], held := [] } }
     let s := { W with m := setVoice W.m 0 0 v }
     voiceAt s.m 0 0 = some v ∧ lastWord v.code < 5 + 1 ∧ s.late = none ∧
       voiceAt ((pushOut ((cxOf s 0 0 v false plain).settled s.m) 0).getD W.m) 0 0 = some v) ∧
    (courseBusy W.m 0 0 = false ∧ (0 : Nat) < W.m.groups.length ∧
      ∀ e ∈ (lanesOf (vo W).mask).map (fun l => (l, some 65538)), e.2 ≠ none) :=
  ⟨⟨by decide, by decide, by decide⟩, by decide, by decide, by decide, by decide, by decide⟩

/-- v3 of W holds an aligned address of the mapped page for each lane. -/
theorem witness_LoadsAndStores :
    (∀ z ∈ [MSz.b8, .b64], ready? W (destClass plain .mem 4) = true ∧
      (let c := see W false plain
       c.loadOk .global 4 3 = true ∧ c.act ≠ 0 ∧ c.destStop 4 = none ∧
       (match c.read W.m 1 3 with
        | .ok (m1, vb) => (match c.locate m1 .global .load (szBytes z) (c.addrs vb (offsetOf plain 0 * szBytes z)) with
          | .ok ls => !anyPoison m1 (szBytes z) ls &&
              !saturated ((touchLines (c.recall (pinLocs m1 ls) (szBytes z) ls) c.who c.strong (szBytes z) ls).grp 0) (c.regFlag false)
          | .error _ => false)
        | .error _ => false) = true)) ∧
    (∃ v, Ready W 0 0 v .mem ∧ let c := cxOf W 0 0 v false plain
      c.memPre [0, 1, 3] Space.global.maxScope = true ∧ c.srcOk 1 3 = true ∧ c.srcOk 2 1 = true ∧ c.act ≠ 0 ∧ (3 ≤ plain.ord → earlierHeld W.m 0 = false) ∧
      ∃ m1 vb m2 vt ls, c.read W.m 1 3 = .ok (m1, vb) ∧ c.read m1 2 1 = .ok (m2, vt) ∧
        c.locate m2 .global .store 4 (c.addrs vb 0) = .ok ls ∧
        (let m0 := c.recall (pinLocs (c.release m2) ls) 4 ls
         saturated ((clearCovered (ls.foldl (fun m l => doStore m c.who 4 (vt l.1).toNat l.2) (takeTurns m0 c.who ls)) (spansOf m0 4 ls)).grp 0)
           (c.flag false) = false)) ∧
    (MSz.b64 = .b64 ∧ Issues W 0 0 (vo W)) := by
  refine ⟨by decide, ⟨vo W, ready_of (by decide), by decide, by decide, by decide, by decide, by decide, ?_⟩, rfl, by decide, by decide, by decide⟩
  exact ⟨_, _, _, _, _, rfl, rfl, rfl, by decide⟩

theorem witness_StoreFrame :
    (let ls := [(0, Loc.mem (keyLocal 0 0x44000) 0x40073)]
     let k := keyLocal 0 0x44004
     (11 < 12 ∧ ∀ l ∈ ls, ∀ key leaf, l.2 = Loc.mem key leaf → keyRegion key = 1 ∧ keyPart key = 0) ∧
     Tbl.wfFrom none 0 W.m.c1 = true ∧ keyRegion k ≠ 3 ∧ ∀ l ∈ ls, ∀ key leaf, l.2 = .mem key leaf → k < key ∨ key + 4 ≤ k) ∧
    (let key := keyLocal 0 0x44000
     (3 : Nat) < 4 ∧ cohOf W.m 0x40073 key ≠ 1 ∧ cohOf W.m 0x40073 key ≠ 2 ∧ keyRegion key ≠ 3 ∧ keyRegion (key + 3) ≠ 3) := by
  refine ⟨⟨⟨by decide, ?_⟩, by decide, by decide, ?_⟩, by decide⟩
  · intro l hl key leaf h
    simp only [List.mem_singleton] at hl
    subst hl
    cases h
    decide
  · intro l hl key leaf h
    simp only [List.mem_singleton] at hl
    subst hl
    cases h
    exact .inr (by decide)

theorem witness_AccessChecks :
    (let w := whoGroup W.m 0
     (0xC4001 % 4 ≠ 0) ∧ (2 ^ 48 % 4 = 0 ∧ 2 ^ 48 ≤ 2 ^ 48) ∧ (0xFE0000000000 < 2 ^ 48 ∧ isWindow 0xFE0000000000 = true) ∧
     (isWindow 0xC4000 = false ∧ 0xC4000 < 2 ^ 48) ∧ translation W.m w.part w.ctx 0xE0000 = .fail ∧
     translation W.m w.part w.ctx 0xCFFFC = .leaf 0x40073 16 ∧ pteMig 0x40073 = false ∧ permits 0x40073 false .load = true ∧
     permits 0x40063 false .load = false ∧ pteMig (0x40073 + 2 ^ 61) = true ∧ ptePriv (0x40073 + 2 ^ 7) = true) ∧
    (let as : List (Nat × Word) := [(0, 0xC4000), (1, 0xC4002), (2, 0xC4003)]
     (∀ a ∈ as, checkVa W.m (whoGroup W.m 0) .load 4 false a.2.toNat ≠ .held) ∧
     as.filter (fun a => a.2.toNat % 4 ≠ 0) = [(1, 0xC4002), (2, 0xC4003)]) := by decide +kernel

/-- The lanes load from, and store to, v4 and v5 at their own address in v3. -/
theorem witness_LoadStoreMultiple :
    (∃ v, Ready W 0 0 v .mem ∧ let c := cxOf W 0 0 v false plain
      c.memPre [0, 1] 4 = true ∧ c.srcOk 1 3 = true ∧ 4 < 0x60 ∧ 4 + 2 ≤ c.g.nv ∧ c.act ≠ 0 ∧ c.runBusy 4 2 = false ∧ c.voice.restart = none ∧
      3 < 4 ∧ ∃ m1 vb, c.read W.m 1 3 = .ok (m1, vb) ∧
        let seen := fun (m : Mach) (ls : List (Nat × Loc)) => touchLines (c.recall (pinLocs m ls) 8 ls) c.who c.strong 8 ls
        (∃ done, elems (fun e _ => c.locate m1 .global .load 8 (c.addrs vb (8 * e))) (fun e m ls =>
          if anyPoison m1 8 ls then .error (.cause (trapOf .sramUe 0 0))
          else .ok ((seen m ls).setGrp 0 (writeVec ((seen m ls).grp 0) (4 + e)
            (ls.map fun l => (l.1, BitVec.ofNat 64 (seeNum (seen m ls) c.who 8 l.2)))))) 2 0 c.base = .ok done) ∧
        saturated (((List.range 2).foldl (fun m i => match c.locate m1 .global .load 8 (c.addrs vb (8 * ((0 + i : Nat) : Int))) with
          | .ok l => seen m l | _ => m) m1).grp 0) (c.regFlag false) = false ∧
        ∃ m2, elems (fun e m => c.locate m .global .store 8 (c.addrs vb (8 * e))) (fun e m ls =>
          .ok (storeAll c.who 8 (c.recall (pinLocs m ls) 8 ls) ls fun l => vecVal c.base.fresh c.base 0 (4 + e) l)) 2 0 m1 = .ok m2) ∧
    (∃ m, elems (fun e _ => if e = 1 then .error (.cause (trapOf .prot 5 1)) else .ok []) (fun _ m _ => .ok m) 2 0 W.m =
      .error (1, .cause (trapOf .prot 5 1), m)) := by
  refine ⟨⟨vo W, ready_of (by decide), by decide, by decide, by decide, by decide, by decide, by decide, by decide, by decide, ?_⟩, W.m, rfl⟩
  exact ⟨_, _, rfl, ok_of (by decide +kernel), by decide +kernel, ok_of (by decide +kernel)⟩

/-- s0 an address, s3 a length, s4 none. -/
def span : State := stand 0x48C00000 fun g => { fill g with s := [(0, 0xC4000), (3, 200), (4, 0)] }

theorem witness_CacheWords :
    (∃ v, Ready span 0 0 v .mem ∧ let c := cxOf span 0 0 v false plain
      c.memPre [0] 0 = true ∧ (2#2).toNat ≤ 2 ∧ c.memPre [0] 4 = true ∧ c.srcOk 1 0x70 = true ∧ c.srcOk 2 0x73 = true ∧ c.srcOk 2 0x74 = true ∧
      (opdOf plain 1 0x70).isS = true ∧ (opdOf plain 2 0x73).isS = true ∧ c.act ≠ 0 ∧
      ∃ m1 vb m2 vt m4 vz rs, c.read span.m 1 0x70 = .ok (m1, vb) ∧ c.read m1 2 0x73 = .ok (m2, vt) ∧ c.read m1 2 0x74 = .ok (m4, vz) ∧
        (vt 0).toNat ≤ 2 ^ 30 ∧ (vt 0).toNat ≠ 0 ∧ (vz 0).toNat = 0 ∧
        maintPages m2 c.who 0xC4000 0xC4100 1 12 = .ok rs ∧
        saturated (m2.grp 0) (c.flag false) = false ∧ saturated ((maintain m2 c.who false true rs).grp 0) (c.flag false) = false ∧
        saturated ((maintain m2 c.who true true rs).grp 0) (c.flag false) = false ∧
        saturated (m4.grp 0) (c.flag false) = false ∧ plain.scope?.getD 3 = 3 ∧
        saturated ((dropCode (flushC1 m2 c.g.die c.g.core) c.who 0xC4000 0xC4100).grp 0) (c.flag false) = false ∧
        saturated ((dropCode (flushC1 m4 c.g.die c.g.core) c.who 0xC4000 0xC4000).grp 0) (c.flag false) = false) ∧
    (∀ x ∈ [plain, Pre.k4 false 7 2 4 0, .k4 false 7 3 1 0],
      PreClass.mem.accepts x = true ∧ 2 ≤ (if x.scope?.isNone then 4 else x.ord) ∧ (if x.scope?.isNone then 4 else x.ord) ≤ 4 ∧
      x.scope?.getD 3 ≤ 4 ∧ x.offh = 0 ∧ (see span false x).act ≠ 0 ∧
      saturated ((releaseAt span.m (see span false x).who (if x.ord ≥ 3 then x.scope?.getD 3 else 0)).grp 0) ((see span false x).flag false) = false ∧
      saturated (span.m.grp 0) ((see span false x).flag false) = false) := by
  refine ⟨⟨vo span, ready_of (by decide), by decide, by decide, by decide, by decide, by decide, by decide, by decide, by decide, by decide, ?_⟩, by decide⟩
  exact ⟨_, _, _, _, _, _, _, rfl, rfl, rfl, by decide, by decide, by decide, rfl, by decide, by decide, by decide, by decide, by decide, by decide, by decide⟩

/-- The atomics of the witness: an add that returns, into v4, and a compare and exchange of the pair v4, v5. -/
def adds : AtomUse := { op := .add, sgn := true, n := 4, half := false, returns := true, ords := [0, 1, 2, 3, 4] }

theorem witness_Atomics :
    (∃ v, Ready W 0 0 v (destClass plain .mem 4) ∧ let c := cxOf W 0 0 v false plain
      c.atomPre adds.ords = true ∧ c.atomOperands (some 4) 3 1 = true ∧ c.pairOk 4 = true ∧ c.act ≠ 0 ∧ (3 ≤ plain.ord → earlierHeld W.m 0 = false) ∧
      c.destStop 4 = none ∧ ∃ m1 va m2 vb all, c.read W.m 1 3 = .ok (m1, va) ∧ c.read m1 2 1 = .ok (m2, vb) ∧
        unlessHeld m2 0 4 (judge (c.lanes.map fun l => (l, va l, checkAtomic m2 c.who adds c.scope (va l).toNat))) = .ok all ∧
        anyPoison m2 4 all = false ∧
        saturated ((atomAll adds c.who c.scope (fun l => (vb l).toNat % 2 ^ 32) (fun _ => 0) all (pinLocs (c.release m2) all)).1.grp 0) (c.flag false) = false) ∧
    (AtomOp.apply .min true 32 0xFFFFFFFF 1 0 = some 0xFFFFFFFF ∧ AtomOp.apply .max true 32 0xFFFFFFFF 1 0 = some 1 ∧ (5 : Nat) = 5 ∧ (5 : Nat) ≠ 6) ∧
    (∃ v, Ready W 0 0 v .mem ∧ let c := cxOf W 0 0 v false plain
      c.atomPre [0, 1, 2] = true ∧ c.atomOperands none 3 1 = true ∧ 3 ≤ c.scope ∧ (5#4).toNat ≤ 5 ∧ c.act ≠ 0 ∧
      ∃ m1 va m2 vb ls, c.read W.m 1 3 = .ok (m1, va) ∧ c.read m1 2 1 = .ok (m2, vb) ∧
        unlessHeld m2 0 4 (checkLanes m2 c.who .load 4 false (c.lanes.map fun l => (l, va l))) = .ok ls ∧
        (∀ l ∈ c.lanes, (leafAt m2 c.who (va l).toNat).isSome ∧ bitsOf (((leafAt m2 c.who (va l).toNat).map Prod.snd).getD 0) 44 2 = 0) ∧
        anyPoison m2 4 ls = false ∧
        saturated ((ls.foldl (fun m l => (atomLoc m c.who 3 4 l.2).1) (pinLocs m2 ls)).grp 0) (c.flag false) = false) := by
  refine ⟨⟨vo W, ready_of (by decide), by decide, by decide, by decide, by decide, by decide, by decide, ?_⟩, by decide,
    ⟨vo W, ready_of (by decide), by decide, by decide, by decide, by decide, by decide, ?_⟩⟩
  · exact ⟨_, _, _, _, _, rfl, rfl, rfl, by decide, by decide +kernel⟩
  · exact ⟨_, _, _, _, _, rfl, rfl, rfl, by decide +kernel, by decide, by decide⟩

/-- v1 holds 2.0, v2 3.0 in FP32. -/
def floats : State := stand 0x48C00000 fun g => { fill g with v := lanes8 1 (fun _ => 0x40000000) ++ lanes8 2 (fun _ => 0x40400000) }

def fl (c : Bool) (t : FTy) : Use := { Use.dab with c := c, rnd := true, sat := true, sub := ftCount t, subw := ftWidth t }

theorem witness_FloatArithmetic :
    AluHyp floats plain .alu (fl false .f32) 3 1 2 (fun c _ p q _ => (floatLane .f32 fun n =>
      addF .f32 c.env (felem .f32 c.env p n) (felem .f32 c.env q n)).1) ∧
    AluHyp floats (k0 1) .alu (fl true .f32x2) 3 1 2 (fun _ _ p _ _ => p) ∧
    AluHyp floats plain .alu Use.da 3 1 0 (fun _ _ p _ _ => p) ∧
    PredHyp floats plain { Use.dab with d := false } 1 2 ∧ (7#4).toNat ≤ 7 ∧ (8#4).toNat > 7 ∧ Ready floats 0 0 (vo floats) .alu :=
  ⟨alu_of (by decide), alu_of (by decide), alu_of (by decide), pred_of (by decide), by decide, by decide, ready_of (by decide)⟩

theorem witness_FloatConvert :
    AluHyp floats plain .alu { Use.da with rnd := true, sat := true } 3 1 0 (fun _ _ p _ _ => p) ∧
    AluHyp floats plain .alu { Use.da with rnd := true } 3 1 0 (fun _ _ p _ _ => p) ∧
    AluHyp floats plain .xfu Use.da 3 1 0 (fun _ _ p _ _ => p) ∧
    ((plain.indexed 0).isNone && (opdOf plain 0 3).isQ) = false ∧ (3 * 2 + 2 ≤ 8) ∧ ¬(4 * 2 + 2 ≤ 8) :=
  ⟨alu_of (by decide), alu_of (by decide), alu_of (by decide), by decide⟩

theorem witness_FloatLongLatency :
    LongHyp floats plain { fl false .f32 with long := true } 3 1 2 ∧
    LongHyp floats plain { Use.da with rnd := true, sub := 1, subw := 32, long := true } 0x60 1 0 ∧
    LongHyp floats plain { Use.da with sat := true, long := true } 3 1 0 := ⟨long_of (by decide), long_of (by decide), long_of (by decide)⟩

theorem witness_FloatSpecialResults :
    (FVal.nan true).isNan = true ∧ (FVal.inf true).isNan = false ∧ (5 : Nat) ≠ 0 ∧
    readF .f32 false 0x80000000 = .fin true 0 (-149) ∧ readF .f32 false 0xFF800000 = .inf true := by decide

/-- A state changed in its device. -/
def State.with' (s : State) (f : Mach → Mach) : State := { s with m := f s.m }

/-- Queue 1 takes commands and holds four elements, queue 2 is unbound; s0 to s3 are a tile-load into slot 2, which the
team has claimed; s4 is the address of a barrier object, s5 a count. Buffer 1 has an acquired slot, buffer 0 none set up;
bar 1 has one arrival of c = 2. -/
def queues : State := State.with' (stand 0x48C00000 fun g => { fill g with
    q := [(1, { bind := .cmd, elems := List.replicate 4 (0, .data) })], arrived := [(2, 0)]
    s := [(0, 4 * 2 ^ 56), (2, 2), (4, 0xF00003F0), (5, 3), (6, 0xF0000400), (7, 5), (8, 0xF0000000), (9, 0x00010001), (10, 0x101), (11, 2),
          (12, 4 * 2 ^ 56 + 2 ^ 53), (14, 2)] })
  fun m => (m.setCore 1 0 { (m.core 1 0) with slots := [(2, { state := 1, team := 0, e := 16, f := 0 })] }).setTeam 0
    { m.team 0 with
      cbs := [(1, { base := 0, nslots := 2, kind := false, ssz := 1, free := 1, filled := 0, acq := 1, fill := 0, acqi := 1, busy := [], waiting := [] })],
      bars := [(1, { c := some 2, count := 0, phase := 0 })] }

/-- The same with slot 2 not claimed, and a barrier object that is not met at s4's address. -/
def queues2 : State := State.with' queues fun m => (m.setCore 1 0 { (m.core 1 0) with slots := [] }).setTeam 0 { m.team 0 with
  spad := [(0x3F0, 5)] }

theorem witness_QueuesAndBuffers_queues :
    QHyp queues .mem plain (some 0x70) none (fun c _ _ _ => c.fourOk 0x70 = true ∧ c.scalarsBusy 0x70 4 = false ∧
      mayPush c.base c.gi 1 = true) ∧
    QHyp queues .mem plain (some 0x70) none (fun c _ _ _ => c.fourOk 0x70 = true ∧ c.scalarsBusy 0x70 4 = false ∧
      mayPush c.base c.gi 2 = false) ∧
    -- a counted load into a slot that may be filled and into one that may not; one that is not counted
    (let tile := fun (c : Cx) (m : Mach) (a : Nat) => c.fourOk a = true ∧ c.scalarsBusy a 4 = false ∧ isGeo c.g.die = false ∧
       (qGet (m.grp c.gi) 1).bind = .cmd ∧ mayPush c.base c.gi 1 = true
     QHyp queues2 .mem plain (some 0x70) none (fun c m _ _ => tile c m 0x70 ∧
       (let regs := (List.range 4).map fun i => scalVal m.fresh c.base c.gi (c.sNum 1 0x70 + i)
        wb (regs.getD 0 0) 56 8 = 4 ∧ wb (regs.getD 0 0) 53 1 = 0 ∧ m.fresh = c.base.fresh ∧
        fillable (slotOf m c.g (wb (regs.getD 2 0) 0 6)) c.g.team = false)) ∧
     QHyp queues .mem plain (some 0x7C) none (fun c m _ _ => tile c m 0x7C ∧
       (let regs := (List.range 4).map fun i => scalVal m.fresh c.base c.gi (c.sNum 1 0x7C + i)
        wb (regs.getD 0 0) 56 8 = 4 ∧ wb (regs.getD 0 0) 53 1 = 1))) ∧
    QHyp queues .mem plain (some 0x70) none (fun c m _ _ => isGeo c.g.die = false ∧ c.fourOk 0x70 = true ∧ c.scalarsBusy 0x70 4 = false ∧
      (qGet (m.grp c.gi) 1).bind = .cmd ∧ mayPush c.base c.gi 1 = true ∧
      (let regs := (List.range 4).map fun i => scalVal m.fresh c.base c.gi (c.sNum 1 0x70 + i)
       wb (regs.getD 0 0) 56 8 = 4 ∧ wb (regs.getD 0 0) 53 1 = 0 ∧ fillable (slotOf m c.g (wb (regs.getD 2 0) 0 6)) c.g.team = true)) ∧
    QHyp queues .mem plain none none (fun c m _ _ => qCount m c.gi 2 = 0 ∧ bindFree m c.gi 2 .tok = true) ∧
    QHyp queues .mem plain none none (fun c m _ _ => qCount m c.gi 1 ≠ 0) ∧
    QHyp queues .mem plain (some 0x77) none (fun c m va _ => 1 ≤ va.toNat ∧ va.toNat ≤ 5 ∧ isGeo c.g.die = false ∧
      qCount m c.gi 2 = 0 ∧ bindFree m c.gi 2 (.eng va.toNat) = true) ∧
    QHyp queues .ctl plain (some 0x70) none (fun _ _ _ _ => True) := by
  refine ⟨q_of _ 0 (by decide) rfl rfl ?_, q_of _ 0 (by decide) rfl rfl ?_, ⟨q_of _ 0 (by decide) rfl rfl ?_, q_of _ 0 (by decide) rfl rfl ?_⟩,
    q_of _ 0 (by decide) rfl rfl ?_, q_of 0 0 (by decide) rfl rfl ?_,
    q_of 0 0 (by decide) rfl rfl ?_, q_of _ 0 (by decide) rfl rfl ?_, q_of _ 0 (by decide) rfl rfl trivial⟩ <;> decide

theorem witness_QueuesAndBuffers_objects :
    (let obj := fun (c : Cx) (m : Mach) (va : Word) => va.toNat % 16 = 0 ∧ bitsOf va.toNat 28 4 = 15 ∧ va.toNat < 2 ^ 32 ∧
       bitsOf va.toNat 20 8 = 0 ∧ (m.team c.g.team).place ≠ .complete ∧ bitsOf va.toNat 0 20 + 16 ≤ spadSize m c.g.team
     QHyp queues .mem plain (some 0x74) (some 0x75) (fun c m va vb => obj c m va ∧ wb vb 40 24 = 0 ∧ fenceHeld m c.gi = false) ∧
     (let sound := fun (c : Cx) (m : Mach) (va : Word) => obj c m va ∧ poisoned m (spadKey c.g.team (bitsOf va.toNat 0 20)) 8 = false ∧
        saturated (m.grp c.gi) (c.flag false) = false
      QHyp queues .ctl plain (some 0x74) (some 0x75) (fun c m va _ => sound c m va ∧ wb (bobWord m c.g.team (bitsOf va.toNat 0 20)) 0 40 = 0) ∧
      QHyp queues2 .ctl plain (some 0x74) (some 0x75) (fun c m va _ => sound c m va ∧
        ¬(wb (bobWord m c.g.team (bitsOf va.toNat 0 20)) 0 40 = 0 ∨ wb (bobWord m c.g.team (bitsOf va.toNat 0 20)) 63 1 = 1))) ∧
     QHyp queues .mem plain (some 0x75) (some 0x75) (fun _ _ va vb => wb vb 40 24 = 0 ∧ va.toNat % 16 ≠ 0) ∧
     QHyp queues .mem plain (some 0x76) (some 0x75) (fun c m va vb => wb vb 40 24 = 0 ∧ va.toNat % 16 = 0 ∧ ¬obj c m va)) ∧
    (let clean := fun (vb : Word) => 1 ≤ wb vb 0 8 ∧ wb vb 0 8 ≤ 64 ∧ wb vb 9 7 = 0 ∧ wb vb 32 32 = 0
     (0#3).toNat < 4 ∧ (3#3).toNat < 4 ∧
     QHyp queues .mem plain (some 0x78) (some 0x79) (fun c m va vb => cbOf (m.team c.g.team) 0 = none ∧ clean vb ∧ wb vb 8 1 = 0 ∧
       1 ≤ wb vb 16 16 ∧ va.toNat % 256 = 0 ∧ checkSpad m c.who 1 va.toNat = .ok (.spad c.g.team (bitsOf va.toNat 0 20)) ∧
       bitsOf va.toNat 0 20 + 256 * wb vb 16 16 * wb vb 0 8 ≤ spadSize m c.g.team) ∧
     QHyp queues .mem plain (some 0x7B) (some 0x7A) (fun c m va vb => cbOf (m.team c.g.team) 0 = none ∧ clean vb ∧ wb vb 8 1 = 1 ∧
       wb vb 16 16 = 0 ∧ va.toNat + wb vb 0 8 ≤ 64 ∧
       ∀ i < wb vb 0 8, (slotOf m c.g (va.toNat + i)).team = c.g.team ∧ (slotOf m c.g (va.toNat + i)).state = 1) ∧
     QHyp queues .ctl plain (some 0x70) none (fun c m _ _ => (cbOf (m.team c.g.team) 1).isSome ∧ saturated (m.grp c.gi) (c.flag false) = false) ∧
     QHyp queues .mem plain none none (fun c m _ _ => ∃ k, cbOf (m.team c.g.team) 1 = some k ∧ k.acq ≠ 0) ∧
     QHyp queues .mem plain none none (fun c m _ _ => cbOf (m.team c.g.team) 0 = none)) := by
  refine ⟨⟨q_of _ _ (by decide) rfl rfl ?_, ⟨q_of _ _ (by decide) rfl rfl ?_, q_of _ _ (by decide) rfl rfl ?_⟩,
      q_of _ _ (by decide) rfl rfl ?_, q_of _ _ (by decide) rfl rfl ?_⟩,
    by decide, by decide, q_of _ _ (by decide) rfl rfl ?_, q_of _ _ (by decide) rfl rfl ?_, q_of _ 0 (by decide) rfl rfl ?_,
    q_of 0 0 (by decide) rfl rfl ⟨_, rfl, ?_⟩, q_of 0 0 (by decide) rfl rfl ?_⟩ <;> decide +kernel

/-- A chain that pushes four elements, and one that pushes five, into a command queue that holds four. -/
theorem witness_QueuesAndBuffers_issue :
    ∀ n ∈ [0, 4, 5], let m := queues.m.setGrp 0 { queues.m.grp 0 with outq := [(1, List.replicate n (0, .data))] }
      0 < m.groups.length ∧ (m.grp 0).outq = [(1, List.replicate n (0, .data))] ∧ (qGet (m.grp 0) 1).bind = .cmd ∧
      (qGet (m.grp 0) 1).elems.length + n = 4 + n := by decide

/-- The group has a load outstanding that is performed later, and bar.wait's arrival is held behind it. -/
def arriving : State := State.with' queues fun m => m.setGrp 0 { m.grp 0 with
  arrived := [], nextId := 2, tvPend := [.load 0 0xC4000 0]
  outst := [{ (default : Outst) with id := 1, wait := .held (.barArr 1 false 2) }] }

theorem witness_TagsAndBarriers :
    (let fits := fun (c : Cx) (m : Mach) (b : BitVec 7) => (b.getLsbD 6 = true ∨ bitsOf b.toNat 0 6 ≤ 32) ∧
       ((barOf m c.g.team (b.getLsbD 6) 1).c = none ∨ (barOf m c.g.team (b.getLsbD 6) 1).c = some b.toNat)
     let before := fun (c : Cx) (m : Mach) => accessesHeld m c.gi (m.grp c.gi).nextId true
     let legal := fun (c : Cx) (m : Mach) (b : BitVec 7) => fits c m b ∧ before c m = false ∧ (m.grp c.gi).team = c.g.team
     QHyp arriving .mem plain none none (fun c m _ _ => fits c m 2 ∧ before c m = true) ∧
     QHyp arriving .mem plain none none (fun c m _ _ => ((m.grp c.gi).arrived.find? fun e => e.1 = 2) = none ∧
       arrivalHeld (m.grp c.gi) 1 false (m.grp c.gi).nextId = true ∧ saturated (m.grp c.gi) (c.flag false) = false) ∧
     QHyp W .mem plain none none (fun c m _ _ => ((m.grp c.gi).arrived.find? fun e => e.1 = 2) = none ∧
       arrivalHeld (m.grp c.gi) 1 false (m.grp c.gi).nextId = false) ∧
     QHyp queues .mem plain none none (fun c m _ _ => legal c m 2 ∧ (barOf m c.g.team false 1).count + 1 < 2) ∧
     QHyp queues .mem plain none none (fun c m _ _ => legal c m 0x41 ∧ 1 ≤ (barOf m c.g.team true 1).count + 1) ∧
     QHyp queues .mem plain none none (fun _ _ _ _ => 32 < bitsOf (33#7).toNat 0 6) ∧
     QHyp queues .mem plain none none (fun c m _ _ => (barOf m c.g.team false 1).c ≠ none ∧ (barOf m c.g.team false 1).c ≠ some 1)) ∧
    QHyp queues .mem plain none none (fun c m _ _ =>
      ((m.grp c.gi).arrived.find? fun e => e.1 = 2 * 1 + boolNat false).isSome ∧ saturated (m.grp c.gi) (c.flag false) = false) ∧
    (∃ v, Ready W 0 0 v .ctl ∧ let c := cxOf W 0 0 v false plain
      c.qOk (some 0x70) (some 0x73) = true ∧ c.act ≠ 0 ∧ earlierHeld W.m 0 = false ∧
      ∃ va vb l ls, c.readS W.m 1 (some 0x70) = .ok va ∧ c.readS W.m 2 (some 0x73) = .ok vb ∧ wb vb 16 48 = 0 ∧ wb vb 0 8 ≤ 3 ∧
        wb vb 8 8 ≤ 3 ∧ unlessHeld W.m 0 1 (checkLanes W.m c.who .atomic 1 false (c.lanes.map fun l => (l, va))) = .ok (l :: ls) ∧ seePoison W.m 1 l.2 = false ∧
        (let r := atomLoc (flushC1 (pinLocs W.m (l :: ls)) c.g.die c.g.core) c.who 3 1 l.2
         saturated ((doAtomic r.1 c.who 3 1 (wb vb 8 8) r.2).grp 0) (c.flag false) = false ∧ saturated (r.1.grp 0) (c.flag false) = false)) := by
  refine ⟨⟨q_of 0 0 (by decide) rfl rfl ?_, q_of 0 0 (by decide) rfl rfl ?_, q_of 0 0 (by decide) rfl rfl ?_,
    q_of 0 0 (by decide) rfl rfl ?_, q_of 0 0 (by decide) rfl rfl ?_, q_of 0 0 (by decide) rfl rfl ?_, q_of 0 0 (by decide) rfl rfl ?_⟩,
    q_of 0 0 (by decide) rfl rfl ?_, vo W, ready_of (by decide), by decide, by decide, by decide, ?_⟩
  · decide
  · decide
  · decide
  · decide
  · decide
  · decide
  · decide
  · decide
  · exact ⟨_, _, _, _, rfl, rfl, by decide, by decide, by decide, rfl, by decide, by decide⟩

/-- s0 to s3 describe a tile of one line at 0xC4000 with no neighbour; the team holds halo 1, with no release outstanding;
s5 names it, s6 halo 2, which nobody declared. -/
def tiled : State := State.with' (stand 0x48C00000 fun g => { fill g with
    s := [(0, 0xC4000), (1, 2 ^ 48 + 2 ^ 32 + 128), (2, 0xFFFF0000), (3, 0), (5, 1), (6, 2)] })
  fun m => m.setTeam 0 { m.team 0 with halos := [(1, { desc := [0xC8000, 2 ^ 48 + 2 ^ 32 + 128, 0xFFFF0000, 1], pages := [(12, 2 ^ 28 + 4)], decl := (0, 0), filled := true, gen := 0, out := none, snap := [],
                                                        keys := [], repl := [], got := [], waited := 0 })] }

theorem witness_HaloAndCollective :
    (let regs := fun (c : Cx) (m : Mach) => (List.range 4).map fun i => scalVal m.fresh c.base c.gi (c.sNum 1 0x70 + i)
     QHyp tiled .mem plain (some 0x70) none (fun c m _ _ =>
      let d := regs c m
      c.fourOk 0x70 = true ∧ c.scalarsBusy 0x70 4 = false ∧ haloFields d (m.team c.g.team).rank = true ∧
      haloOf m c.g.team (hHandle d) = none ∧ hBase d % 128 = 0 ∧
      ((tilePages d).map fun p => tilePage m c.who (max p (hBase d))) = [.ok (.mem (keyLocal 0 0x44000) 0x40073)] ∧
      (((m.team 0).halos.map fun h => h.2.desc).any (tilesMeet d)) = false ∧ (∀ k < 4, haloRank d k = 15) ∧ haloDirs d = [] ∧
      (let m1 := setHalo m c.g.team (hHandle d) { desc := d, pages := [(12, keyLocal 0 0x40000 / 2 ^ 16)], decl := (c.gi, (m.grp c.gi).nextId), filled := false, gen := 0, out := none, snap := [], keys := [], repl := [], got := [], waited := 0 }
       saturated (m1.grp c.gi) (c.flag false) = false ∧
       saturated ((fillHalo m1 c.gi (hHandle d)).grp c.gi) (c.flag false) = false))) ∧
    (let held := fun (c : Cx) (m : Mach) (va : Word) => if wb va 3 61 = 0 then haloOf m c.g.team (wb va 0 3) else none
     QHyp tiled .mem plain (some 0x75) none (fun c m va _ => (∃ h, held c m va = some h ∧ h.out = none) ∧
       saturated (m.grp c.gi) (c.flag false) = false ∧ saturated ((dropHalo m c.g.team 1).grp c.gi) (c.flag false) = false ∧
       saturated ((releaseAt (dropHalo m c.g.team 1) c.who 3).grp c.gi) (c.flag false) = false) ∧
     QHyp tiled .mem plain (some 0x75) (some 0x75) (fun c m va vb => (held c m va).isSome ∧ wb vb 32 32 = 0) ∧
     QHyp tiled .mem plain (some 0x76) (some 0x75) (fun c m va _ => held c m va = none)) ∧
    (∃ v, Ready W 0 0 v .mem ∧ let c := cxOf W 0 0 v false plain
      c.qOk (some 0x70) none = true ∧ c.act ≠ 0 ∧ earlierHeld W.m 0 = false ∧ (5#3).toNat ≤ 5 ∧
      let w := whoEngine c.base 0 c.g.die
      ∃ va l key leaf ls, c.readS W.m 1 (some 0x70) = .ok va ∧ tableHeld W.m w va = [] ∧
        unlessHeld W.m 0 64 (checkLanes W.m w .atomic 64 false (c.lanes.map fun l => (l, va))) = .ok ((l, .mem key leaf) :: ls) ∧
        saturated ((pinTable (flushC1 (pinLocs W.m [(l, .mem key leaf)]) c.g.die c.g.core) (whoEngine c.base 0 (collDie W.m w key)) va).grp 0)
          (c.flag false) = false) := by
  refine ⟨q_of _ 0 (by decide) rfl rfl ?_, ⟨q_of _ 0 (by decide) rfl rfl ⟨⟨_, rfl, rfl⟩, ?_⟩, q_of _ _ (by decide) rfl rfl ?_, q_of _ _ (by decide) rfl rfl ?_⟩,
    vo W, ready_of (by decide), by decide, by decide, by decide, by decide, _, _, _, _, _, rfl, by decide, rfl, by decide⟩
  · decide +kernel
  · decide +kernel
  · decide
  · decide

/-- Pages 0xC0000 and 0xD0000 are mapped, and the page 0xC0000 has an open shadow when `on`. -/
def paged (on : Bool) : State := State.with' (stand 0x48C00000 fun g => { fill g with s := [(0, 0xC0000), (1, 0xD0000), (2, 7)] })
  fun m => { m with
    mem := putMem m.mem (keyLocal 0 0x30068) (toBytes 8 0x50073)
    parts := Tbl.set Part.reset m.parts 0 { m.part 0 with
      shadows := if on then [{ ctx := 0, va := 0xC0000, pages := [2 ^ 28 + 4], rp := [], wp := [2 ^ 28 + 5], isOpen := true, grid := 0, team := 0 }] else [] } }

theorem witness_ShadowWords :
    QHyp (paged false) .mem plain (some 0x70) (some 0x71) (fun c m va vb =>
      let n := wb va 0 14 + 1
      let buf := rangeWalks m c.who (wb va 16 32 * 2 ^ 16) n
      let back := rangeWalks m c.who vb.toNat n
      wb va 14 2 = 0 ∧ vb.toNat % 2 ^ 16 = 0 ∧ windowPage (wb va 16 32 * 2 ^ 16) n = none ∧ windowPage vb.toNat n = none ∧
      rangeStop c.who none buf back = none ∧
      meets (walkPages m c.who buf) (walkPages m c.who back) = false ∧ (m.part c.who.part).shadows = [] ∧
      wb va 16 32 * 2 ^ 16 + n * 2 ^ 16 ≤ vb.toNat ∧ saturated (m.grp c.gi) (c.flag false) = false) ∧
    (let entry := fun (c : Cx) (m : Mach) (va : Word) =>
       let here := (m.part c.who.part).shadows.filter fun sh => sh.ctx = c.who.ctx && sh.va = wb va 16 32 * 2 ^ 16
       (here.find? fun sh => sh.isOpen).orElse fun _ => here.head?
     QHyp (paged true) .mem plain (some 0x70) none (fun c m va _ => ∃ sh, entry c m va = some sh ∧ sh.isOpen = true ∧
        earlierHeld m c.gi = false ∧ saturated ((releaseAt m c.who 4).grp c.gi) (c.flag false) = false ∧
        saturated (m.grp c.gi) (c.flag false) = false) ∧
     QHyp (paged false) .mem plain (some 0x70) none (fun c m va _ => entry c m va = none)) ∧
    QHyp (paged true) .ctl plain (some 0x70) (some 0x72) (fun c m va _ => specGrid m c.who va = none ∧
      specGrid (releaseAt m c.who 4) c.who va = none ∧ earlierHeld m c.gi = false ∧
      saturated ((releaseAt m c.who 4).grp c.gi) (c.flag false) = false ∧ saturated (m.grp c.gi) (c.flag false) = false) := by
  refine ⟨q_of _ _ (by decide) rfl rfl ?_, ⟨q_of _ 0 (by decide) rfl rfl ⟨_, rfl, ?_⟩, q_of _ 0 (by decide) rfl rfl ?_⟩,
    q_of _ _ (by decide) rfl rfl ?_⟩ <;> decide +kernel

/-- A launch record at 0xC4000 of one group of width 8, whose kernel's header stands at 0xC0000. -/
def launching : State :=
  let s := stand 0x48C00000 fun g => { fill g with s := [(0, 0xC4000), (1, 5), (2, 0xC4080)] }
  let p := [(0x4000, 0xC0000), (0x4008, 2 ^ 40 + 2 ^ 24 + 1), (0x4010, 2 ^ 24 + 2 ^ 16 + 2 ^ 12 + 1), (0x4018, 4)].foldl (fun s e => poke s e.1 8 e.2) s
  poke (poke p 0 4 0x7E1C3310) 4 4 0x00400000

theorem witness_LaunchAndClaim_records :
    (∀ r ∈ [0x70, 0x72], q? launching .mem plain (some r) none = true) ∧ earlierHeld launching.m 0 = false ∧
    (let w := whoEngine launching.m 0 1
     let m := outstandingIn (flushC1 launching.m 1 0) 0 0 1 0 none [] [] .ready
     let a : Asker := { who := w, task := false, rcp := false }
     (match judgeLaunch m a 0xC4000 with | .ok (.ok g) => decide (g.lr.grps = 1) | _ => false) = true ∧
     (match judgeLaunch m a 0xC4080 with | .ok (.error k) => decide (k = 1) | _ => false) = true ∧
     (∀ va ∈ [0xC4000, 0xC4080], (match checkRecord launching.m w va with | .ok _ => true | _ => false) = true) ∧
     saturated ((flushC1 launching.m 1 0).grp 0) ((see launching false plain).flag false) = false) := by
  decide +kernel

/-- A group with eight vector registers, of a range task. -/
def small : State := State.with' (stand 0x48C00000 fun g => { g with nv := 8 }) fun m =>
  { m with grids := m.grids.map fun x => { x with task := true, lr := { x.lr with grain := 4 } },
           teams := m.teams.map fun t => { t with f := 2, h := 5 } }

theorem witness_LaunchAndClaim_counts :
    QHyp small .ctl plain (some 0x70) (some 0x71) (fun c _ _ _ => c.sNum 1 0x70 ≠ c.sNum 2 0x71 ∧ c.grid.task = true) ∧
    (∀ s ∈ [W, small], ready? s .mem = true ∧ (see s false plain).kind0 false = true ∧ (see s false plain).act ≠ 0 ∧
      claimOf (s.m.grp 0) = none ∧ saturated (s.m.grp 0) ((see s false plain).flag false) = false) ∧
    -- a claim that grows, one that does not, one beyond 96, one that is no multiple of 8; a give that shrinks, one that does not
    ((96 : Nat) ≤ 96 ∧ 96 % 8 = 0 ∧ 8 ≤ 96 ∧ (small.m.grp 0).nv < 96 ∧ (see small false plain).chainNames (max 96 8) = false) ∧
    (8 ≤ (W.m.grp 0).nv ∧ 8 % 8 = 0 ∧ (see W false plain).chainNames (max 8 96) = false) ∧ 96 < 97 ∧ 12 % 8 ≠ 0 ∧
    (8 < (W.m.grp 0).nv ∧ (∀ y ∈ (see W false plain).grid.hdr.syms, y.1 < 8) ∧ (see W false plain).copingNames 8 = false ∧
      (see W false plain).chainNames 8 = false) ∧ ((small.m.grp 0).nv ≤ 8 ∧ (see small false plain).chainNames (small.m.grp 0).nv = false) ∧
    -- a give to eight registers whose chain names v9
    (let s := stand ((encode (.add .none false .i32 9 1 2)).headD 0) fill
     ready? s .mem = true ∧ (see s false plain).kind0 false = true ∧ (see s false plain).act ≠ 0 ∧ claimOf (s.m.grp 0) = none ∧
     (see s false plain).chainNames (min 8 (s.m.grp 0).nv) = true) := by
  refine ⟨q_of _ _ (by decide) rfl rfl ?_, ?_⟩ <;> decide

/-- Slot 5 is free, slots 0 and 3 are claimed by the team (3 filling), slot 1 is ready; tile 2 is the team's; queue 1 takes the
tokens of the matrix engine; ly0 is a layout of 1024 elements of FP16 in slot 1, ly1 one of 2048. -/
def matrix : State := State.with' (stand 0x48C00000 fun g => { fill g with
    q := [(1, { bind := .eng 1, elems := [] })]
    ly := [(0, 0x4000), (4, 2 ^ 48 + 2 ^ 32 + 2 ^ 16 + 1024), (6, 0x4000), (10, 2 ^ 48 + 2 ^ 32 + 2 ^ 16 + 2048)]
    s := [(0, 5 + 2 ^ 16), (1, 5), (2, 0), (3, 2), (4, 2 + 2 ^ 8 * 3), (5, 0xF0000000),
          (6, 0x50010402), (7, 0), (8, 2 + 2 ^ 8 + 2 ^ 10 + 2 ^ 12 * 3), (9, 0xC000),
          (10, 2 + 2 ^ 8 + 2 ^ 12 * 3), (11, 0xC4000)] })
  fun m => m.setCore 1 0 { (m.core 1 0) with
    slots := [(0, { state := 1, team := 0, e := 16, f := 0 }), (1, { state := 3, team := 0, e := 16, f := 16 }),
              (3, { state := 2, team := 0, e := 16, f := 0 })]
    tiles := [(2, 1), (3, 1)] }

theorem witness_MatrixWords_claims :
    (let able := fun (c : Cx) (m : Mach) => isGeo c.g.die = false ∧ compatG c.base c.g = false ∧ (m.core c.g.die c.g.core).mx.length < 32
     let first := fun (va : Word) => wb va 0 6
     let len := fun (va : Word) => wb va 8 6 + 1
     let run := fun (va : Word) => (List.range (len va)).map fun i => first va + i
     let legal := fun (va : Word) => wb va 6 2 = 0 ∧ wb va 14 50 = 0 ∧ first va + len va ≤ 64
     let owns := fun (c : Cx) (m : Mach) (t : Nat) => Tbl.get 0 (m.core c.g.die c.g.core).tiles t = c.g.team + 1
     let roomy := fun (c : Cx) (m : Mach) => saturated (m.grp c.gi) (c.flag false) = false
     QHyp matrix .mem plain (some 0x70) none (fun c m va _ => able c m ∧ wb va 6 2 = 0 ∧ wb va 14 2 = 0 ∧ wb va 27 37 = 0 ∧
       first va + len va ≤ 64 ∧ 1 ≤ wb va 16 11 ∧ wb va 16 11 ≤ 1024 ∧
       (∀ i ∈ run va, (slotOf m c.g i).team = c.g.team → (slotOf m c.g i).state = 0) ∧ roomy c m) ∧
     QHyp matrix .mem plain (some 0x71) none (fun c m va _ => able c m ∧ legal va ∧ (∀ i ∈ run va, ¬owns c m i) ∧ roomy c m) ∧
     QHyp matrix .mem plain (some 0x72) none (fun c m va _ => able c m ∧ legal va ∧
       ∀ i ∈ run va, (slotOf m c.g i).team = c.g.team ∧ (slotOf m c.g i).state ≠ 0) ∧
     QHyp matrix .mem plain (some 0x73) none (fun c m va _ => able c m ∧ legal va ∧ (∀ i ∈ run va, owns c m i) ∧ roomy c m) ∧
     QHyp matrix .mem plain (some 0x70) none (fun c m _ _ => able c m ∧ c.sNum 1 0x70 + 5 < c.g.ns ∧ c.scalarsBusy 0x70 6 = false) ∧
     QHyp matrix .mem plain (some 0x74) (some 0x75) (fun c m va vb => able c m ∧ wb va 6 2 = 0 ∧ wb va 14 2 = 0 ∧ wb va 18 46 = 0 ∧
       wb va 16 2 ≠ 3 ∧ wb va 0 6 ≠ wb va 8 6 ∧ vb.toNat % 4 = 0 ∧ wb vb 28 4 = 15 ∧ wb vb 32 32 = 0 ∧ wb vb 20 8 = 0 ∧
       wb vb 0 20 + 1024 ≤ spadSize m c.g.team ∧ owns c m (wb va 0 6) ∧ owns c m (wb va 8 6) ∧ roomy c m) ∧
     QHyp matrix .mem plain (some 0x73) none (fun c m va _ => able c m ∧ (c.vecB 4 = true ∧ busyReg c.base c.gi c.vi 4 = false) ∧
       (wb va 6 2 = 0 ∧ wb va 15 1 = 0 ∧ wb va 23 41 = 0 ∧ wb va 16 1 = 0) ∧ owns c m (first va) ∧
       saturated (m.grp c.gi) (c.regFlag false) = false) ∧
     QHyp matrix .mem plain (some 0x73) (some 0x71) (fun c m va vb => able c m ∧ wb va 20 44 = 0 ∧ wb vb 32 32 = 0) ∧
     QHyp matrix .ctl plain (some 0x73) none (fun c m _ _ => able c m)) := by
  refine ⟨q_of _ 0 (by decide) rfl rfl ?_, q_of _ 0 (by decide) rfl rfl ?_, q_of _ 0 (by decide) rfl rfl ?_, q_of _ 0 (by decide) rfl rfl ?_,
    q_of _ 0 (by decide) rfl rfl ?_, q_of _ _ (by decide) rfl rfl ?_, q_of _ 0 (by decide) rfl rfl ?_, q_of _ _ (by decide) rfl rfl ?_,
    q_of _ 0 (by decide) rfl rfl ?_⟩ <;> decide

/-- The engine order holds 32 words. -/
def engineFull : State := State.with' matrix fun m => m.setCore 1 0 { m.core 1 0 with
  mx := List.replicate 32 { grp := 0, id := none, seq := 0, work := .acrel 0 } }

theorem witness_MatrixWords_waits :
    (∀ p ∈ [Pipe.mem, .ctl], ready? engineFull p = true) ∧ (see engineFull false plain).act ≠ 0 ∧
    32 ≤ (engineFull.m.core (see engineFull false plain).g.die (see engineFull false plain).g.core).mx.length := by decide

/-- A layout of some number of elements that all lie at byte 0x4000, the first of slot 1. -/
def flat (n : Nat) : List Word := [0x4000, 0, 0, 0, BitVec.ofNat 64 (2 ^ 48 + 2 ^ 32 + 2 ^ 16 + n), 0]

theorem flat_fields (k : Nat) : layCursor (flat k) 0 0 = 0x4000 ∧ ∀ j < 4, laySt (flat k) j = 0 := by
  have hs : ∀ j, laySt (flat k) j = toSigned 32 (wb ((flat 0).getD (2 + j / 2) 0) (32 * (j % 2)) 32) ∨ 4 ≤ j := by
    intro j
    rcases j with _ | _ | _ | _ | j
    all_goals first | exact .inl rfl | exact .inr (by omega)
  refine ⟨show layCursor (flat 0) 0 0 = 0x4000 by decide, fun j hj => ?_⟩
  rcases hs j with h | h
  · rw [h]; clear h hs; interval_cases j <;> decide
  · omega

theorem flat_bit (k n : Nat) : elemBit (flat k) n 0 0 = 131072 := by
  obtain ⟨hc, h⟩ := flat_fields k
  simp [elemBit, layOff, h, hc]

theorem flat_placed (k n : Nat) : placed (flat k) n 1 0 = true := by
  have hb : layBits (flat k) = 16 := by simp only [layBits, layFmt, flat, List.getD_cons_zero]; decide
  obtain ⟨hc, -⟩ := flat_fields k
  simp [placed, hb, hc, flat_bit]

theorem flat_slots (k n : Nat) (h : 0 < n) : operandSlots (flat k) n 1 0 = 2 := by
  have hb : layBits (flat k) = 16 := by simp only [layBits, layFmt, flat, List.getD_cons_zero]; decide
  have two : ∀ m, (List.range m).foldl (fun k _ => addSlot (addSlot k 1) 1) 2 = 2 := by
    intro m
    induction m with
    | zero => rfl
    | succ m ih => rw [List.range_succ, List.foldl_append, ih]; rfl
  obtain ⟨m, rfl⟩ : ∃ m, n = m + 1 := ⟨n - 1, by omega⟩
  simp only [operandSlots, List.range_one, List.foldl_cons, List.foldl_nil, flat_bit, hb]
  rw [List.range_succ_eq_map, List.foldl_cons, List.foldl_map]
  exact two m

theorem witness_MatrixWords_loop :
    QHyp matrix .mem plain (some 0x76) (some 0x77) (fun c m va vb =>
      let g := m.grp c.gi
      let d := loopOf va vb 0
      let la := layOf g (wb va 8 2)
      let lb := layOf g (wb va 10 2)
      (isGeo c.g.die = false ∧ compatG c.base c.g = false ∧ (m.core c.g.die c.g.core).mx.length < 32 ∧ (0#3).toNat ≤ 4 ∧
        wb va 31 33 = 0 ∧ wb va 12 4 = 0 ∧ wb va 6 2 = 0 ∧ 1 ≤ d.steps ∧ d.steps ≤ 1024 ∧ wb va 30 1 = 1 ∧
        d.sparse = false ∧ (qGet g 1).bind = .eng 1 ∧ holdsTile m g d.tile = true ∧ saturated g (c.flag false) = false) ∧
      loopCombo va 0 d la lb none = false ∧ loopSlots d la lb none = 2 ∧
      ∀ i < 64, bitAt 2 i = true → (slotOf m g i).team = g.team ∧ (slotOf m g i).state = 3) := by
  refine q_of 0x50010402 0 (by decide) rfl rfl ⟨by decide, ?_, ?_, by decide⟩
  · have ha : layOf (matrix.m.grp 0) (wb (0x50010402 : Word) 8 2) = flat 1024 := by decide
    have hb : layOf (matrix.m.grp 0) (wb (0x50010402 : Word) 10 2) = flat 2048 := by decide
    have hd : loopOf 0x50010402 0 0 = { m := 64, n := 128, ka := 16, kb := 16, steps := 1, tile := 2, incA := 0, incB := 0, sparse := false } := by
      decide
    show loopCombo 0x50010402 0 (loopOf 0x50010402 0 0) (layOf (matrix.m.grp 0) (wb (0x50010402 : Word) 8 2))
      (layOf (matrix.m.grp 0) (wb (0x50010402 : Word) 10 2)) none = false
    rw [ha, hb, hd]
    have h1 : fmtFits 0 (layFmt (flat 1024)) (layFmt (flat 2048)) = true := by decide
    have h2 : layBad (flat 1024) (64 * 16) = false := by decide
    have h3 : layBad (flat 2048) (128 * 16) = false := by decide
    simp [loopCombo, h1, h2, h3, flat_placed, wb]
    decide
  · have ha : layOf (matrix.m.grp 0) (wb (0x50010402 : Word) 8 2) = flat 1024 := by decide
    have hb : layOf (matrix.m.grp 0) (wb (0x50010402 : Word) 10 2) = flat 2048 := by decide
    have hd : loopOf 0x50010402 0 0 = { m := 64, n := 128, ka := 16, kb := 16, steps := 1, tile := 2, incA := 0, incB := 0, sparse := false } := by
      decide
    show loopSlots (loopOf 0x50010402 0 0) (layOf (matrix.m.grp 0) (wb (0x50010402 : Word) 8 2))
      (layOf (matrix.m.grp 0) (wb (0x50010402 : Word) 10 2)) none = 2
    rw [ha, hb, hd]
    simp only [loopSlots, flat_slots _ _ (by decide : 0 < 64 * 16), flat_slots _ _ (by decide : 0 < 128 * 16), metaSlots]
    rfl

theorem witness_MatrixWords_store :
    (∀ a ∈ [0x78, 0x7A], ready? matrix .mem = true ∧ (let c := see matrix false plain
      c.stPre a 0x79 = true ∧ c.sOk 1 a = true ∧ c.sOk 2 0x79 = true ∧ c.pre.rnd ≤ 5 ∧ c.act ≠ 0 ∧ saturated (matrix.m.grp 0) (c.flag false) = false)) ∧
    (valOf matrix plain 1 (some 0x78) = some 0x3502 ∧ valOf matrix plain 2 (some 0x79) = some 0xC000 ∧
      valOf matrix plain 1 (some 0x7A) = some 0x3102 ∧ valOf matrix plain 2 (some 0x7B) = some 0xC4000) ∧
    ([(0x3502 : Word), 0x3102].all fun va => decide (wb va 48 16 = 0 ∧ wb va 16 8 = 0 ∧
      wb va 11 1 = 0 ∧ wb va 6 2 = 0 ∧ (tileSt va).fmt ≤ 4 ∧ (tileSt va).stride % 16 = 0 ∧ wb va 8 2 ≠ 3 ∧
      Tbl.get 0 (matrix.m.core 1 0).tiles (tileSt va).tile = 1)) = true ∧
    (let t : TileSt := { rows := 128, cols := 64, bytes := 64, stride := 0, fmt := 3, toStore := true, tile := 2 }
     tileSt 0x3502 = t ∧ (∀ i < t.rows, 0xC000 + i * t.stride + t.bytes ≤ 2 ^ 20) ∧ stSlots t 0xC000 = 8 ∧
     slotList 8 = [3] ∧ fillable (slotOf matrix.m (matrix.m.grp 0) 3) 0 = true ∧ (matrix.m.core 1 0).mx = [] ∧
     saturated ((setSlot matrix.m (matrix.m.grp 0) 3 { slotOf matrix.m (matrix.m.grp 0) 3 with state := 2 }).grp 0)
       ((see matrix false plain).flag false) = false) ∧
    (let t : TileSt := { rows := 128, cols := 64, bytes := 64, stride := 0, fmt := 3, toStore := false, tile := 2 }
     tileSt 0x3102 = t ∧ (0xC4000 : Word).toNat % 16 = 0 ∧ (∀ u ∈ stUnits t 0xC4000, u.1 ∈ [0xC4000, 0xC4010, 0xC4020, 0xC4030]) ∧
     ∀ a ∈ [0xC4000, 0xC4010, 0xC4020, 0xC4030],
       (match checkVa matrix.m (whoGroup matrix.m 0) .store 1 false a with | .ok _ => true | _ => false) = true) := by
  refine ⟨by decide, by decide, by decide +kernel, ⟨by decide +kernel, by decide +kernel, by decide +kernel, by decide, by decide, by decide, by decide⟩, by decide +kernel, by decide, by decide +kernel, by decide +kernel⟩

/-- v5 holds an aligned address of 64 bytes for each lane; s0 a descriptor's address, s1 the address of a record that names it;
queues 2 and 3 take the tokens of the tree engine and the traversal unit. -/
def trees : State := poke (stand 0x48C00000 fun g => { fill g with
    v := lanes8 5 (fun l => 0xC4000 + 64 * l), s := [(0, 0xC5000), (1, 0xC4000), (2, 63)]
    q := [(2, { bind := .eng 2, elems := [] }), (3, { bind := .eng 3, elems := [] })] }) 0x4000 8 0xC5000

theorem witness_TreeWords_whole :
    Ready trees 0 0 (vo trees) .mem ∧ Ready trees 0 0 (vo trees) .ctl ∧
    (let c := see trees false plain
     compatG c.base c.g = false ∧ c.act ≠ 0 ∧ accessesHeld trees.m 0 0 true = false ∧ (qGet (trees.m.grp 0) 2).bind = .eng 2 ∧
     c.qOk (some 0x70) (some 0x72) = true ∧ c.qOk (some 0x71) none = true ∧ c.grid.lr.spec = false ∧
     valOf trees plain 1 (some 0x70) = some 0xC5000 ∧ valOf trees plain 2 (some 0x72) = some 63 ∧ (63 : Word).toNat < 64 ∧
     (match checkDesc trees.m c.whoDesc true 0xC5000 with | .ok _ => true | _ => false) = true ∧
     (match checkLanes trees.m c.whoDesc .load 32 false [(0, 0xC4000)] with
      | .ok (l :: ls) => (let m1 := touchLines (pinLocs trees.m (l :: ls)) c.whoDesc false 8 (l :: ls)
          (match checkDesc m1 c.whoDesc true 0xC5000 with | .ok _ => true | _ => false) && decide ((qGet (m1.grp 0) 2).bind = .eng 2) &&
            !saturated ((flushC1 m1 1 0).grp 0) (c.flag false)) && !anyPoison trees.m 8 (l :: ls) && decide (seeNum trees.m c.whoDesc 8 l.2 = 0xC5000)
      | _ => false) = true ∧
     saturated ((flushC1 trees.m 1 0).grp 0) (c.flag false) = false ∧ saturated ((flushC1 trees.m 1 0).grp 0) (c.regFlag false) = false) :=
  ⟨ready_of (by decide), ready_of (by decide), by decide +kernel⟩

theorem witness_TreeWords_lanes :
    ∃ v, Ready trees 0 0 v .mem ∧ let c := cxOf trees 0 0 v false plain
      compatG c.base c.g = false ∧ c.act ≠ 0 ∧ c.grid.lr.spec = false ∧ c.vsOk 1 5 false = true ∧ c.tsPre false (some 5) none = true ∧
      c.tsPre true (some 5) (some 6) = true ∧ c.vecB 6 = true ∧ c.vsOk 2 6 true = true ∧ c.cOk = true ∧ (4#3).toNat ≤ 4 ∧
      busyReg c.base 0 0 6 = false ∧ ∃ m1 va m2 vc m3 vb ls, c.read trees.m 1 5 = .ok (m1, va) ∧ accessesHeld m1 0 (m1.grp 0).nextId true = false ∧
        c.readC m1 = .ok (m2, vc) ∧ c.read m1 2 6 = .ok (m3, vb) ∧
        judge (c.lanes.map fun l => (l, va l, checkDesc m1 c.whoDesc true (va l).toNat)) = .ok ls ∧
        saturated ((flushC1 m1 1 0).grp 0) (c.flag false) = false ∧ saturated ((flushC1 m1 1 0).grp 0) (c.regFlag false) = false :=
  ⟨vo trees, ready_of (by decide), by decide, by decide, by decide, by decide, by decide, by decide, by decide, by decide, by decide,
    by decide, by decide, _, _, _, _, _, _, _, rfl, by decide, rfl, rfl, rfl, by decide, by decide⟩

/-- A geometry group: v8 to v15 hold a packet of zeros in every lane, v17 to v24 one with a reserved field set in lane 3. -/
def geometry : State := State.with' (stand 0x48C00000 fun g => { g with die := 0, v := [(64 * 18 + 3, 2 ^ 60)], s := [(0, 7)] }) fun m =>
  { m with teams := m.teams.map fun t => { t with die := 0 } }

/-- A shading group of a partition whose pass has one region, of its own die; s0 commits it, s1 region 1 and s2 an entry for it;
s3 is a map's address, s4 one not aligned, s5 one not mapped; a map with a bad header stands at 0xC4080. -/
def binning : State := State.with' (poke (stand 0x48C00000 fun g => { fill g with
    s := [(0, 5), (1, 256), (2, 2 ^ 31 + 2 ^ 24), (3, 0xC5000), (4, 0xC5001), (5, 0xE0000), (6, 0), (7, 0xC4080), (8, 2 ^ 32)],
    v := lanes8 2 (fun l => l) }) 0x4080 8 (2 ^ 19))
  fun m => { m with parts := Tbl.set Part.reset m.parts 0 { m.part 0 with
    pass := some { map := 0xC5000, ctx := 0, hdr := List.replicate 16 0, entries := [0x81000000], last := [], uncommitted := [], late := 0, dropped := 0 } } }

theorem witness_GraphicsWords_packets :
    (let c := see geometry false plain
     ready? geometry .mem = true ∧ c.plainPre none none = true ∧ c.runOk 1 8 8 = true ∧ c.runOk 1 17 8 = true ∧
     compatG c.base c.g = false ∧ c.act ≠ 0 ∧ c.vecsBusy 8 8 = false ∧ c.vecsBusy 17 8 = false ∧ saturated (geometry.m.grp 0) (c.flag false) = false ∧
     (∀ l ∈ c.lanes, packetBad ((List.range 8).map fun k => vecVal geometry.m.fresh c.base 0 (8 + k) l) = false) ∧
     packetBad ((List.range 8).map fun k => vecVal geometry.m.fresh c.base 0 (17 + k) 3) = true ∧ 3 ∈ c.lanes) ∧
    QHyp geometry .mem plain (some 0x70) none (fun c m va _ => isGeo c.g.die = true ∧ compatG c.base c.g = false ∧ wb va 40 24 = 0 ∧
      saturated (m.grp c.gi) (c.flag false) = false) := by
  refine ⟨by decide +kernel, q_of _ 0 (by decide) rfl rfl ?_⟩
  decide

theorem witness_GraphicsWords_passes :
    (let shading := fun (c : Cx) => isGeo c.g.die = false ∧ compatG c.base c.g = false
     QHyp binning .mem plain (some 0x70) none (fun c m va _ => shading c ∧
       ∃ ps, (m.part c.grid.part).pass = some ps ∧ (entryOf ps (wb va 40 16)).map entryDie = some c.g.die) ∧
     QHyp W .mem plain (some 0x71) none (fun c m _ _ => shading c ∧ (m.part c.grid.part).pass = none) ∧
     QHyp (user W) .ctl plain (some 0x71) (some 0x72) (fun c _ _ _ => shading c ∧ c.grid.lr.priv = false) ∧
     QHyp binning .ctl plain (some 0x74) (some 0x70) (fun c m va _ => shading c ∧ c.grid.lr.priv = true ∧ va.toNat % 128 ≠ 0 ∧
       saturated (m.grp c.gi) (c.flag false) = false) ∧
     QHyp binning .ctl plain (some 0x73) (some 0x70) (fun c m va _ => va.toNat % 128 = 0 ∧ ∃ h es,
       mapWords m c.who va.toNat 8 16 = .ok (some h) ∧ mapBad h = false ∧ mapWords m c.who (va.toNat + 0x80) 4 1 = .ok (some es) ∧ es.any entryBad = false) ∧
     QHyp binning .ctl plain (some 0x77) (some 0x70) (fun c m va _ => va.toNat % 128 = 0 ∧ ∃ h,
       mapWords m c.who va.toNat 8 16 = .ok (some h) ∧ mapBad h = true) ∧
     QHyp binning .ctl plain (some 0x75) (some 0x70) (fun c m va _ => va.toNat % 128 = 0 ∧ mapWords m c.who va.toNat 8 16 = .ok none) ∧
     QHyp binning .ctl plain (some 0x71) (some 0x72) (fun c m va _ => ∃ ps, (m.part c.grid.part).pass = some ps ∧
       ¬(wb va 0 16 % 256 ≤ wb (ps.hdr.getD 0 0) 0 8 ∧ wb va 0 16 / 256 ≤ wb (ps.hdr.getD 0 0) 8 8)) ∧
     (let fit := fun (c : Cx) (m : Mach) (e : Nat) => bitAt e 31 = true ∧ m.pk.has (bitsOf e 24 4) = true ∧
        isShading (bitsOf e 24 4) = true ∧ partOf m.pk (bitsOf e 24 4) 0 = c.grid.part
      QHyp binning .ctl plain (some 0x76) (some 0x72) (fun c m va vb => wb va 0 16 = 0 ∧ fit c m (wb vb 0 32)) ∧
      QHyp binning .ctl plain (some 0x76) (some 0x71) (fun c m va vb => wb va 0 16 = 0 ∧ ¬fit c m (wb vb 0 32)))) := by
  refine ⟨q_of _ 0 (by decide) rfl rfl ⟨by decide, _, rfl, by decide⟩, q_of _ 0 (by decide) rfl rfl ?_, q_of _ _ (by decide) rfl rfl ?_,
    q_of _ _ (by decide) rfl rfl ?_, q_of _ _ (by decide) rfl rfl ⟨by decide, _, _, rfl, by decide, rfl, by decide⟩,
    q_of _ _ (by decide) rfl rfl ⟨by decide, _, rfl, by decide⟩, q_of _ _ (by decide) rfl rfl ⟨by decide, rfl⟩,
    q_of _ _ (by decide) rfl rfl ⟨_, rfl, by decide⟩, q_of _ _ (by decide) rfl rfl ?_, q_of _ _ (by decide) rfl rfl ?_⟩ <;> decide

theorem witness_GraphicsWords_cover :
    (∃ v, Ready binning 0 0 v .alu ∧ let c := cxOf binning 0 0 v false (k0 8)
      c.thirdRunOk 1 = true ∧ c.sOk 1 0x70 = true ∧ c.sNum 1 0x70 + 2 < c.g.ns ∧ (opdOf c.pre 2 2).isV = true ∧ (opdOf c.pre 2 2).exists? c.g = true ∧
      isGeo c.g.die = false ∧ compatG c.base c.g = false ∧ c.act ≠ 0 ∧ c.scalarsBusy 0x70 3 = false ∧ busyReg c.base 0 0 c.third = false ∧
      ∃ m1 vb, c.read binning.m 2 2 = .ok (m1, vb)) ∧
    (let u : Int × Int := (128, 128)
     let v : Int × Int := (128, 640)
     area2 u v (128, 128) = 0 ∧ 0 < area2 u v (0, 128) ∧ area2 u v (640, 128) < 0 ∧ area2 u v (128, 900) = 0) :=
  ⟨⟨vo binning, ready_of (by decide), by decide, by decide, by decide, by decide, by decide, by decide, by decide, by decide, by decide, by decide,
    _, _, rfl⟩, by decide⟩

/-- v5 holds an aligned address for each lane; s0 a scene record of zeros, s1 a texture of one texel at 0xC8000; s2 a mask. -/
def rays : State := State.with' (poke (stand 0x48C00000 fun g => { fill g with
    v := lanes8 5 (fun l => 0xC4000 + 64 * l), s := [(0, 0xC5000), (1, 0xC6000), (2, 1)]
    q := [(3, { bind := .eng 3, elems := [] })] }) 0x6000 8 0xC8000)
  fun m => setVoice m 0 0 { (voiceAt m 0 0).getD default with word := 5 }

theorem witness_RayWords_traces :
    ∃ v, Ready rays 0 0 v .mem ∧ let c := cxOf rays 0 0 v false (k0 8)
      isGeo c.g.die = false ∧ compatG c.base c.g = false ∧ c.act ≠ 0 ∧ c.thirdRunOk 2 = true ∧ c.vecsBusy c.third 2 = false ∧
      c.vsOk 1 5 true = true ∧ c.sOk 2 0x70 = true ∧ c.runOk 1 1 4 = true ∧ c.vecsBusy 1 4 = false ∧ (qGet (rays.m.grp 0) 3).bind = .eng 3 ∧
      ∃ vb m1 va n o ls, c.readS rays.m 2 (some 0x70) = .ok vb ∧ c.read rays.m 1 5 = .ok (m1, va) ∧
        checkLanes m1 c.who .load 32 false ((c.lanes.take 1).map fun n => (n, vb)) = .ok ((n, o) :: ls) ∧
        anyPoison m1 32 ((n, o) :: ls) = false ∧ sceneOf (seeNum m1 c.who 32 o) = some (0, 0, 0) ∧ saturated (m1.grp 0) (c.flag false) = false :=
  ⟨vo rays, ready_of (by decide), by decide, by decide, by decide, by decide, by decide, by decide, by decide, by decide, by decide, by decide,
    _, _, _, _, _, _, rfl, rfl, rfl, by decide, by decide +kernel, by decide⟩

theorem witness_RayWords_samples :
    ∃ v, Ready rays 0 0 v .mem ∧ let c := cxOf rays 0 0 v false (k0 8)
      c.thirdRunOk 2 = true ∧ c.vecsBusy c.third 2 = false ∧ c.sOk 1 0x71 = true ∧ (opdOf c.pre 2 7).isV = true ∧ (opdOf c.pre 2 7).exists? c.g = true ∧
      ∃ va m1 vb n o ds, c.readS rays.m 1 (some 0x71) = .ok va ∧ c.read rays.m 2 7 = .ok (m1, vb) ∧
        checkLanes m1 c.who .load 32 false ((c.lanes.take 1).map fun k => (k, va)) = .ok ((n, o) :: ds) ∧ anyPoison m1 32 ((n, o) :: ds) = false ∧
        (let d := fun (i : Nat) => bitsOf (seeNum m1 c.who 32 o) (64 * i) 64
         let t := texOf d
         let ts := c.lanes.flatMap fun k => (texels t 0 (wb (vb k) 0 32) (wb (vb k) 32 32)).map fun e => (k, e)
         texBad d 0 = false ∧ ∃ ls, checkLanes m1 c.who .load 1 false (ts.map fun e => (e.1, BitVec.ofNat 64 e.2.2)) = .ok ls ∧
           anyPoison m1 (texelBytes t.fmt) ls = false ∧ saturated ((touchLines (touchLines (pinLocs (pinLocs m1 ((n, o) :: ds)) ls) c.who false 32 ((n, o) :: ds))
             c.who false (texelBytes t.fmt) ls).grp 0) (c.flag false) = false) :=
  ⟨vo rays, ready_of (by decide), by decide, by decide, by decide, by decide, by decide, _, _, _, _, _, _, rfl, rfl, rfl, by decide,
    by decide +kernel, _, rfl, by decide +kernel, by decide +kernel⟩

theorem witness_RayWords_moves :
    (∃ v, Ready rays 0 0 v .mem ∧ let c := cxOf rays 0 0 v false plain
      c.plainPre (some 5) none = true ∧ c.vsOk 1 5 false = true ∧ ∃ m1 va ls ks, c.read rays.m 1 5 = .ok (m1, va) ∧
        unlessHeld m1 0 64 (checkLanes m1 c.who .load 64 false (c.lanes.map fun n => (n, va n))) = .ok ls ∧
        unlessHeld m1 0 64 (checkLanes m1 c.who .store 64 false (c.lanes.map fun n => (n, va n))) = .ok ks ∧
        anyPoison m1 64 ls = false ∧ saturated (m1.grp 0) (c.flag false) = false) ∧
    (let c := see rays false plain
     c.plainPre none (some 0x72) = true ∧ (opdOf c.pre 1 5).isV = true ∧ (opdOf c.pre 1 5).exists? c.g = true ∧ c.pre.ext 1 = 0 ∧
     c.sOk 2 0x72 = true ∧ c.rpackPlace = true ∧ valOf rays plain 2 (some 0x72) = some 1 ∧ (1 : Word).toNat < 2 ^ min 64 c.g.nv ∧
     (rays.m.team c.g.team).rpMask = none ∧ (∀ n ∈ c.lanes, (tvGet (rays.m.grp 0) n).status ≠ 2 ∧ (tvGet (rays.m.grp 0) n).status ≠ 3) ∧
     saturated (rays.m.grp 0) (c.flag false) = false) :=
  ⟨⟨vo rays, ready_of (by decide), by decide, by decide, _, _, _, _, rfl, rfl, rfl, by decide, by decide⟩, by decide +kernel⟩

/-- s0 names a second grid, s1 a page for an image, s2 no page, s3 no grid. -/
def contexts : State := State.with' (stand 0x48C00000 fun g => { g with
    s := [(0, 0xC9000), (1, 0xC5000), (2, 0xC5008), (3, 5), (4, 0xE0000)] })
  fun m => { m with grids := m.grids ++ [{ probeGrid with recAddr := 0xC9000 }] }

theorem witness_ContextWords :
    (∀ s ∈ [contexts, user contexts], ready? s .mem = true ∧ (see s false plain).kind0 true = true ∧ (see s false plain).act ≠ 0 ∧
      saturated (s.m.grp 0) (flagOf (see s false plain).voice plain.flg) = false) ∧
    (see contexts false plain).grid.lr.priv = true ∧ (see (user contexts) false plain).grid.lr.priv = false ∧
    (∀ r ∈ [(0x70 : Nat), 0x74], 0x70 ≤ r ∧ r - 0x70 < (see contexts false plain).g.ns ∧ busyReg contexts.m 0 0 (128 + (r - 0x70)) = false) ∧
    (let c := see contexts false plain
     let w := ctxWho c.base 0
     let val := fun (r : Nat) => c.ctxScalar contexts.m r
     (∀ r ∈ [0x71, 0x72, 0x74], spanHeld contexts.m w .store (val r).toNat 256 = []) ∧
     spanOk contexts.m w .store (val 0x74).toNat 256 = false ∧ spanOk contexts.m w .store (val 0x71).toNat 256 = true ∧
     (val 0x71).toNat % 4096 = 0 ∧ (val 0x72).toNat % 4096 ≠ 0 ∧
     namedGrid contexts.m w (val 0x73) = none ∧ namedGrid contexts.m w (val 0x70) = some 1 ∧
     ok? (restoreImage (outstandingIn contexts.m 0 0 c.word c.g.nextId (flagOf c.voice c.pre.flg) [] [] .ready) w (val 0x71)) = true) ∧
    (∀ va keep, keep ∈ [fun _ => false, fun t : TlbEnt => decide (0xC9000 / 2 ^ t.lg ≠ t.va / 2 ^ t.lg)] → va ∈ [none, some 0xC9000] →
      let c := see contexts false plain
      let m1 := flushC1 contexts.m (whoGroup c.base 0).die (whoGroup c.base 0).core
      let p := (whoGroup c.base 0).part
      saturated ((freeHolds (m1.setPart p { m1.part p with tlb := (m1.part p).tlb.filter keep }) p va).grp 0)
        (flagOf c.voice c.pre.flg) = false) := by
  refine ⟨by decide, by decide, by decide, by decide, by decide +kernel, ?_⟩
  intro va keep hk hv
  simp only [List.mem_cons, List.not_mem_nil, or_false] at hk hv
  rcases hk with rfl | rfl <;> rcases hv with rfl | rfl <;> decide

/-! Witnesses of events. -/

/-- An outstanding word that waits for something. -/
def word (id : Nat) (w : Wait) : Outst := { id := id, flag := some 2, voice := 0, wr := [.scal 9 5], wait := w, exc := 0, dsts := [137], float := false,
                                            chain := 0, ovr := [], win := [], cap := 97, span := none }

/-- Words that have what they waited for (0 to 4), a bar.wait whose phase has gone by, and a voice that has waited 2048 turns. -/
def done' : State := State.with' (stand 0x48C00000 fun g => { fill g with
    q := [(1, { bind := .cmd, elems := List.replicate 8 (0, .data) })]
    outst := [word 0 .ready, word 1 (.monitors 0), word 2 (.bar 1 false 0), word 3 (.bob 0x20 9), word 4 (.held (.fence 3)), word 5 (.claim 16),
      word 6 (.monitors 2), { word 7 .ready with wr := [.push 1 7] }], f := [(2, 8)] })
  fun m => setVoice (m.setTeam 0 { m.team 0 with bars := [(1, { c := none, count := 0, phase := 1 })] }) 0 0
    { (voiceAt m 0 0).getD default with waited := 2048, pend := some [] }

theorem witness_VoiceEvents :
    (voiceAt done'.m 0 0).isSome = true ∧ running done'.m 0 = true ∧ courseBusy done'.m 0 0 = false ∧ (vo done').pend = some [] ∧
    ((0 : Nat) < done'.m.groups.length ∧ (done'.m.grp 0).freed = false ∧ (done'.m.grp 0).victim = false ∧ (done'.m.team 0).place = .resident) ∧
    ((findOutst (done'.m.grp 0) 0).map Outst.wait = some .ready ∧ (findOutst (done'.m.grp 0) 1).map Outst.wait = some (.monitors 0) ∧
      (findOutst (done'.m.grp 0) 2).map Outst.wait = some (.bar 1 false 0) ∧ 0 < (barOf done'.m 0 false 1).phase ∧
      arrivalHeld (done'.m.grp 0) 1 false 2 = false ∧ canPush done'.m 0 (word 0 .ready) = true ∧
      findOutst (done'.m.grp 0) 7 = some { word 7 .ready with wr := [.push 1 7] } ∧
      canPush done'.m 0 { word 7 .ready with wr := [.push 1 7] } = false ∧
      (findOutst (done'.m.grp 0) 4).map Outst.wait = some (.held (.fence 3)) ∧ accessesHeld done'.m 0 4 true = false ∧
      poisoned done'.m (spadKey 0 0x20) 8 = false ∧
      (findOutst (done'.m.grp 0) 3).map Outst.wait = some (.bob 0x20 9) ∧ bobDone (bobWord done'.m 0 0x20) = true ∧
      (findOutst (done'.m.grp 0) 6).map Outst.wait = some (.monitors 2)) ∧
    (2048 ≤ (vo done').waited ∧ (vo done').aged = false) := by decide

/-- A trap that is held at a trapping group that has a frame. -/
theorem witness_VoiceEvents_trap :
    (let s := State.with' framed fun m => m.setGrp 0 { m.grp 0 with outst := [{ word 0 .ready with dsts := [96] }] }
     (0 : Nat) < s.m.groups.length ∧ (s.m.grp 0).trap = some (pend .brk) ∧ (pend .brk).trap.cause ≠ .sramUe ∧ (pend .brk).trap.cause ≠ .symFault ∧
     (s.m.grp 0).inhandler = false ∧ wb (s.m.grp 0).tvec 8 40 * 256 ≠ 0 ∧ anyMortarBusy (s.m.grp 0) = true) ∧
    (framed.m.grp 0).trap = some (pend .brk) ∧ anyMortarBusy (framed.m.grp 0) = false ∧ isHeld framed.m 0 4 = false ∧
    isHeld (holdAt migrating.m 0 4 [0xC4000]) 0 4 = true ∧
    ok? (readFrame (pinFrame framed.m (whoGroup framed.m 0) 0xC4000 1) (whoGroup framed.m 0) 0xC4000) = true := by decide +kernel

/-- The queues of a partition with a new launch at the front of queue 0, and teams that wait in queues 1 and 2. -/
def admits (q : Nat) (e : QEnt) (p : Place) : State := { State.reset with m := { State.reset.m with
  time := 300000
  grids := [{ probeGrid with made := 0 }]
  teams := if e = .grid 0 then [] else [{ probeTeam with place := p, groups := [0] }]
  groups := if p = .saved ∧ e ≠ .grid 0 then [probeGroup (standingVoice (fullMask 8) 65537)] else []
  parts := [(0, { Part.reset with queues := [(q, [e])], fronts := [(q, (e, 1, 0))] })] } }

theorem witness_TeamEvents_admission :
    ((nextAdmission (admits 0 (.grid 0) .queued).m 1).map fun x => x.2.2.ent) = some (.grid 0) ∧
    ((nextAdmission (admits 1 (.team 0) .queued).m 1).map fun x => x.2.2.ent) = some (.team 0) ∧
    ((nextAdmission (admits 2 (.team 0) .saved).m 1).map fun x => x.2.2.ent) = some (.team 0) ∧
    blocksNow (admits 31 (.grid 0) .queued).m 1 31 = some 0 := by decide +kernel

theorem witness_TeamEvents_groups :
    drained (State.with' W fun m => m.setGrp 0 { m.grp 0 with live := 0, voices := [] }).m 0 = true ∧
    canSplit (State.with' W fun m => { m with
      grids := m.grids.map fun x => { x with task := true, lr := { x.lr with grain := 4 } }, teams := m.teams.map fun t => { t with f := 0, h := 8 } }).m 1 1 = some 0 := by
  decide +kernel

/-- The team's only voice stands at a head whose wait names the flag of its outstanding waitc. -/
def waiting (f : Team → Team) : State := State.with' (stand 0x0023E004 fun g => { g with
    outst := [{ word 0 (.monitors 0) with flag := some 2 }], f := [(2, 1)] })
  fun m => { m.setTeam 0 (f { m.team 0 with idle := some 0 }) with
    time := 10000, mcs := [(3, { MemDie.reset with swap := 10, mons := [{ grp := 0, id := 0, lanes := 1, key := keyLocal 0 0, size := 4, cond := 0, sgn := false, val := 0, acq := false }] })] }

theorem witness_TeamEvents_preemption :
    (∀ k ∈ [0, 1], overdue (State.with' W fun m => { m.setTeam 0 { m.team 0 with stopping := some k, stopAt := 0 } with time := 10000 }).m 0 = true) ∧
    swapDue (waiting id).m 0 = true ∧ wakes (waiting fun t => { t with place := .swapped }).m 0 = true ∧
    (∀ k ∈ [0, 1], let m := (waiting fun t => { t with stopping := some k }).m
      (m.team 0).place = .resident ∧ teamQuiet m 0 = true) := by decide +kernel

/-- A pool that nobody has taken from holds what is no larger than it. -/
theorem pool_free {x : Part} (h : x.runs = [] ∧ x.poolsize = 0xFFFFFFFF) {n : Nat} (fit : n ≤ 0xFFFFFFFF) : poolFind x n = some 0 := by
  have hl : sortBy (fun a b : Nat => a < b) [0] = [0] := by decide
  simp only [poolFind, h.1, List.map_nil, hl, poolClear, h.2, List.all_nil, Bool.and_true, List.find?_cons]
  have hz : decide (0 + n ≤ (0xFFFFFFFF : Word).toNat) = true := decide_eq_true (by rw [Nat.zero_add]; exact fit)
  rw [hz]

/-- The pool holds a team's image where the device's own sections fit it (their sizes are free values). -/
theorem witness_TeamEvents_save (k : Nat) (hk : k = 0 ∨ k = 1)
    (fit : unitsOf (areaLen (sectionsOf (waiting fun t => { t with stopping := some k }).m 0 0 [0] false)) ≤ 0xFFFFFFFF) :
    let s := State.with' (waiting fun t => { t with stopping := some k }) fun m => { m with parts := Tbl.set Part.reset m.parts 0 { m.part 0 with poolsize := 0xFFFFFFFF } }
    (s.m.team 0).place = .resident ∧ teamQuiet s.m 0 = true ∧ (s.m.team 0).stopping = some k ∧ ∃ m1 run, poolArea s.m 0 = some (m1, run) := by
  intro s
  have hp : poolFind (s.m.part 0) (unitsOf (areaLen (sectionsOf s.m 0 0 [0] false))) = some 0 :=
    pool_free (by rcases hk with rfl | rfl <;> decide)
      (show unitsOf (areaLen (sectionsOf (waiting fun t => { t with stopping := some k }).m 0 0 [0] false)) ≤ _ from fit)
  refine ⟨?_, ?_, ?_, ?_⟩
  · rcases hk with rfl | rfl <;> decide
  · rcases hk with rfl | rfl <;> decide
  · rcases hk with rfl | rfl <;> decide
  · have hg : (s.m.team 0).grid = 0 ∧ (s.m.grid 0).part = 0 := by rcases hk with rfl | rfl <;> decide
    have ht : poolTake s.m 0 (unitsOf (areaLen (sectionsOf s.m 0 0 [0] false))) =
        some (s.m.setPart 0 { s.m.part 0 with runs := (s.m.part 0).runs ++ [(0, unitsOf (areaLen (sectionsOf s.m 0 0 [0] false)))] },
          (0, unitsOf (areaLen (sectionsOf s.m 0 0 [0] false)))) := by
      rw [poolTake, hp]; rfl
    rw [poolArea, poolWrite]
    simp only [hg.1, hg.2, ht]
    exact ⟨_, _, rfl⟩

/-- An RT launch has waited for a core of die 1, where every core holds a team of another class: that of core 0 is being
stopped for it, if k says so. -/
def urgent (k : Option Nat) : State := State.with' W fun m => { m with
  time := 300000
  grids := [{ probeGrid with lr := { probeRec with cls := 1 } }, { probeGrid with lr := { probeRec with grant := 253 }, made := 0 }]
  teams := (List.range (coreCount 1)).map fun c =>
    { probeTeam with core := c, groups := if c = 0 then [0] else [], stopping := if c = 0 then k else none }
  parts := Tbl.set Part.reset m.parts 0 { m.part 0 with queues := [(0, [.grid 1])], fronts := [(0, (.grid 1, 0, 0))] } }

theorem witness_TeamEvents_urgent :
    (rtChoice W.m 1).isNone = true ∧ rtWaiting (urgent none).m 1 = [(0, .grid 1)] ∧
    rtCore (urgent none).m 1 0 (.grid 1) = some (0, [0]) ∧ rtCore (urgent (some 0)).m 1 0 (.grid 1) = some (0, []) ∧
    (rtChoice (urgent (some 0)).m 1).isNone = true := by
  decide +kernel

/-- With a pool that the victim's image fits (its size is a free value), the victim is stopped for it. -/
theorem witness_TeamEvents_room :
    let s := State.with' (urgent none) fun m => { m with parts := Tbl.set Part.reset m.parts 0 { m.part 0 with poolsize := 0xFFFFFFFF } }
    unitsOf (areaLen (sectionsOf s.m 0 0 [0] false)) ≤ 0xFFFFFFFF →
    (rtChoice s.m 1).map (fun r => r.2.2.2) = some [0] ∧ leaving (stopTeam 0 s.m 0) 0 = true := by
  intro s fit
  have hp : canStop s.m 0 = true := by
    show (poolFind (s.m.part 0) (unitsOf (areaLen (sectionsOf s.m 0 0 [0] false)))).isSome = true
    rw [pool_free (by decide) fit]; rfl
  have hw : rtWaiting s.m 1 = [(0, .grid 1)] := by decide +kernel
  have hc : rtCore s.m 1 0 (.grid 1) = some (0, [0]) := by decide +kernel
  refine ⟨by simp [rtChoice, hw, hc, hp], ?_⟩
  rw [stopTeam, hp]
  decide +kernel

/-- A group with an outstanding claim of n registers, on a core whose other group, if any, fills the rest of the file. -/
def claiming (n : Nat) (others : List Group) (f : Group → Group) : State := State.with'
  (stand 0x0023E004 fun g => f { g with nv := 8, outst := [{ word 0 (.claim n) with flag := some 2 }], f := [(2, 1)] })
  fun m => { m with groups := m.groups ++ others, cores := [(64, { m.core 1 0 with claims := [0] })] }

/-- Another group of 64 lanes and 96 registers. -/
def wide (r : Nat) : Group := { probeGroup (standingVoice (fullMask 64) 65537) with width := 64, gid := r, resid := r }

theorem witness_CoreResourceEvents :
    (claimReady (claiming 16 [] id).m 1 0 = some (0, 16) ∧ ((claimOf ((claiming 16 [] id).m.grp 0)).map Prod.snd) = some 16) ∧
    (let s := claiming 96 [] fun g => { g with nv := 8192 }
     claimVictim (State.with' s fun m => { m with cores := [] }).m 1 0 = some 0 ∧
       poolTake (State.with' s fun m => { m with cores := [] }).m 0 1 = none) ∧
    victimFits (claiming 16 [] fun g => { g with victim := true }).m 1 0 = some 0 ∧
    (∀ acc ∈ [true, false], canServe W.m 1 0 { grp := 0, id := 0, acc := acc, first := 63, n := 1, e := 16 } = true) := by
  decide +kernel

theorem witness_MemorySystemEvents :
    isLocalLine (keyLocal 0 0 / 128) = true ∧ W.m.poison.contains (keyLocal 0 0 / 128) = false ∧
    (State.with' W fun m => { m with poison := [keyLocal 0 0 / 128] }).m.poison.contains (keyLocal 0 0 / 128) = true ∧
    (0 : Nat) < W.m.teams.length ∧ (W.m.team 0).place = .resident ∧ (heldLines W.m 1 0).filter (· ≠ 0) = [] ∧
    -- a saved team whose slot is still tagged on its core, and a walk that finds a leaf
    (let m := W.m.setTeam 0 { W.m.team 0 with place := .saved }
     let m := m.setCore 1 0 { m.core 1 0 with tiles := [(0, 1)] }
     0 < m.teams.length ∧ (m.team 0).place ≠ .resident ∧ taggedLeft m 0 = true) ∧
    ((W.m.ctx 0 0).enabled = true ∧ isWindow 0xC4000 = false ∧ walk W.m 0 0 0xC4000 = .leaf 0x40073 16 ∧ pteMig 0x40073 = false) ∧
    (let m := W.m.setCore 1 0 { W.m.core 1 0 with c2 := [(128, some { dirty := true, tag := 0, val := 5 })] }
     ∃ l, ((heldLines m 1 0).filter (· ≠ 0))[(Config.freeWord m.fresh 0).toNat % (((heldLines m 1 0).filter (· ≠ 0)).length + 1)]? = some l ∨
       (Config.freeWord m.fresh 0).toNat % 2 = 1) := by
  refine ⟨by decide, by decide, by decide, by decide, by decide, by decide, by decide, by decide +kernel, ?_⟩
  have h : (heldLines (W.m.setCore 1 0 { W.m.core 1 0 with c2 := [(128, some { dirty := true, tag := 0, val := 5 })] }) 1 0).filter (· ≠ 0) = [1] := by
    decide
  refine ⟨1, ?_⟩
  rw [h]
  rcases Nat.mod_two_eq_zero_or_one (Config.freeWord (W.m.setCore 1 0 { W.m.core 1 0 with
    c2 := [(128, some { dirty := true, tag := 0, val := 5 })] }).fresh 0).toNat with e | e
  · left
    show [1][_ % 2]? = some 1
    rw [e]; rfl
  · exact .inr e

/-- A package whose controller runs, one request at a bank of memory die 3, one queued arm and an unpin in progress. -/
def outside : State := { State.reset with m := { State.reset.m with
  pk := { State.reset.m.pk with images := [(0, some { kind := 0, secver := 0, body := [], trailer := [] })] }
  mcs := [(3, { MemDie.reset with unpinning := true, ports := [{ port := 6, key := keyLocal 0 0, op := 0, val := [1], cmp := [] }],
                                  arms := [{ grp := 0, id := 0, lanes := 1, key := keyLocal 0 0, size := 4, cond := 0, sgn := false, val := 0, acq := false }] })] } }

theorem witness_OutsideWrites :
    (nextReq (outside.m.mc 3) (bankOf (keyLocal 0 0))).isSome = true ∧
    (keyRegion (keyLocal 0 8) = 1 ∧ keyRegion (keyLocal 0 8 + 1) = 1) ∧
    ((outside.m.mc 3).arms ≠ [] ∧ (outside.m.mc 3).mons.length < 65536) ∧ (outside.m.mc 3).unpinning = true ∧
    (functionsUp outside.m = true ∧ 0 < partCount outside.m.pk.cur ∧ hostKey outside.m 0 64 = some (keyLocal 0 64) ∧
      keyRegion (keyLocal 0 64) = 1 ∧ keyLocal 0 64 % 8 = 0) ∧
    -- a queue whose oldest write comes before one that is ordered, and one before a relaxed one
    (∀ r ∈ [false, true], let q : List HostWrite := [noWrite, { noWrite with pa := 64, bytes := [1], relaxed := r }]
     q ≠ [] ∧ (r = false → ∀ w ∈ q.drop 1, w.relaxed = false) ∧ ∀ w ∈ q.drop 1, w.atom ≠ 0 ∨ w.bytes ≠ []) ∧
    64 + 8 ≤ nM outside.m 0 * 2 ^ 36 := by decide +kernel

/-- Queue 1 holds a fill of eight bytes at 0xC4000. -/
def filling : State := State.with' (stand 0x48C00000 fun g => { fill g with
    q := [(1, { bind := .cmd, elems := [(3 * 2 ^ 56 + 0xFFFF * 2 ^ 32 + 8, .data), (5, .data), (0xC4000, .data), (0, .data)] })] })
  fun m => setVoice m 0 0 { (voiceAt m 0 0).getD default with inside := false }

/-- The command of that queue at the engine, with some lines stored. -/
def begunFill (ls : List Nat) : CeCmd :=
  { grp := 0, w := ((qGet (filling.m.grp 0) 1).elems.take 4).map Prod.fst, dst := 0xC4000, cb := none, slot := none, done := ls, fail := [], token := none }

theorem witness_EngineEvents_copy :
    (match ceStart filling.m 0 1 with
      | some m1 => (match ceLine m1 1 0 0 0 with
        | some m2 => (ceEnd m2 1 0 0).isSome && decide (rdByte m2 (keyLocal 0 0x44000) = 5)
        | none => false)
      | none => false) = true ∧
    (let y := filling.m.grp 0
     let ws := ((qGet y 1).elems.take 4).map Prod.fst
     ceReady filling.m 0 1 = true ∧ ceOp ws = 3 ∧ ceCb ws = false ∧ ceRing ws = false ∧ ceLen ws % 8 = 0 ∧ wb (ws.getD 0 0) 48 3 = 0 ∧
     ws.getD 3 0 = 0 ∧ wb (ws.getD 2 0) 0 3 = 0 ∧ bobNamed ws = false ∧ ((qGet y 1).elems.head?.map Prod.snd) = some .data) ∧
    -- the command begun, and with its one line stored
    (∀ ls ∈ [[], [0]], let c := begunFill ls
     ceOp c.w ≠ 4 ∧ bobNamed c.w = false ∧ c.fail = [] ∧ c.token = none ∧ ceRing c.w = false ∧ ceTok c.w = false ∧ c.cb = none ∧ c.slot = none ∧
     ceLines c = 1 ∧ ok? (ceUnits filling.m c ((List.range ((ceSpan c 0).2 / 8)).map fun i => (ceSpan c 0).1 + 8 * i)) = true) := by
  decide +kernel

/-- A zeroing of tile 2 at the front of the engine order, and a request for a count at the tree engine of die 3. -/
def working : State := State.with' matrix fun m => { (m.setCore 1 0 { m.core 1 0 with mx := [{ grp := 0, id := none, seq := 0, work := .z 2 }] }) with
  mcs := [(3, { MemDie.reset with ts := [{ grp := 0, id := 0, desc := 0xC5000, q := none, work := .stat 3 9, walk := none, begun := false, late := false }] })] }

/-- A tree at 0xC5000 of four nodes at 0xC4000, its root node 1, the parent of node 2. -/
def planted : State := [(0x5000, 0xC4000), (0x5008, 4), (0x5010, 1), (0x5020, 2 ^ 33), (0x4050, 1 * 2 ^ 32)].foldl (fun s e => poke s e.1 8 e.2) trees

theorem witness_EngineEvents_engines :
    ((working.m.core 1 0).mx = [{ grp := 0, id := none, seq := 0, work := .z 2 }] ∧ (working.m.team 0).stopping = none ∧
      (runMx working.m 1 0 { grp := 0, id := none, seq := 0, work := .z 2 }).isSome = true) ∧
    (fenceBefore working.m 0 0 = false ∧ loopHeld working.m { grp := 0, id := none, seq := 0, work := .z 2 } [] = false) ∧
    -- a loop of a team that is being stopped, and a write of tile elements
    (let m := (working.m.setTeam 0 { working.m.team 0 with stopping := some 0 })
     let m := setVoice m 0 0 { (voiceAt m 0 0).getD default with inside := false }
     loopHeld m { grp := 0, id := none, seq := 0, work := .loop 0 0 0 0 0 0 [] [] none 0 } [] = true) ∧
    ((working.m.mc 3).ts = [{ grp := 0, id := 0, desc := 0xC5000, q := none, work := .stat 3 9, walk := none, begun := false, late := false }]) ∧
    -- a backup at the root of a tree of two nodes, and one below it
    (∀ y ∈ [1, 2], let m := (State.with' planted fun m => m).m
     (match tsRun 3 (tsTree 3 (whoTs m 0 3) 0xC5000 false) m with
      | (.ok t, m1) => (match tsRun 3 (backNode t y 5) m1 with | (.ok p, _) => decide (p = 0 ↔ y = 1) | _ => false)
      | _ => false) = true) ∧
    lanesFirst [] = false ∧ lanesFirst [{ grp := 0, id := 0, desc := 0, q := none, work := .stat 3 9, walk := none, begun := true, late := false }] = true ∧
    ((tsNext working.m 3).bind (tsServe working.m 3)).isSome = true ∧
    (backStep (State.with' working fun m => { m with mcs := [(3, { MemDie.reset with ts :=
      [{ grp := 0, id := 0, desc := 0xC5000, q := none, work := .back 0 1 0, walk := some (1, 0, 0), begun := false, late := false }] })] }).m 3).isSome = true := by
  decide +kernel

/-! Witnesses of halo exchange, collectives and the graphics units. -/

/-- A tile of one line whose north neighbour has rank 1, and its neighbour's tile with its south neighbour of rank 0. -/
def tile (dir rank : Nat) : List Word := [0xC4000, 2 ^ 48 + 2 ^ 32 + 128, BitVec.ofNat 64 (0xFFFF0000 - (15 - rank) * 2 ^ (16 + 4 * dir) + 1), 0]
def halo (d : List Word) (out : Option (Nat × Nat × Bool)) (snap : List (Nat × List Host.Cell)) (keys : List (Nat × List Nat)) : Halo :=
  { desc := d, pages := [], decl := (0, 0), filled := true, gen := 1, out := out, snap := snap, keys := keys, repl := [], got := [], waited := 1 }

/-- Two resident teams of one cluster, a halo of each; that of team 0 is x. -/
def tiles (x : Halo) : State := State.with' W fun m => { m with
  teams := [{ probeTeam with cluster := [0, 1], halos := [(0, x)] },
            { probeTeam with cluster := [0, 1], rank := 1, tid := 1, groups := [], halos := [(0, halo (tile 1 0) none [] [])] }] }

/-- The record of a member of a collective of two over 32-bit integers; member 1 adds op b. -/
def member (k op : Nat) : Coll :=
  { grp := 0, id := k, op := op, recAddr := 0xC4000, recKey := keyLocal 0 0x44000, die := 3, member := k, count := 2, ty := 0, chunk := 4096,
    seq := 1, gid := 9, src := 0xC5000, dst := 0xC6000, entries := [0xFFFF000003000000, 0x0000000003000000], next := 0, failed := [],
    first := none, staged := true, copy := some [5], since := 0, out := false, error := 0, ended := false }
def collective (op : Nat) : State := State.with' W fun m => { m with
  colls := [member 0 0, member 1 op]
  mcs := [(3, { MemDie.reset with ovsize := 2 ^ 16 })] }

/-- The members whose devices can be reached stay in a collective, whatever number this device has. -/
theorem lose_none {m : Mach} {c : Coll}
    (h : ((survivors c).all fun i => let e := c.entries.getD i 0
      routeUp m (c.die / 6) (65536 + entDie e) && reachable m (m.grid (m.grp c.grp).grid).part (entNode e)) = true) :
    loseUnreachable m c = m := by
  rw [loseUnreachable, List.filter_eq_nil_iff.mpr]
  · rfl
  · intro i hi
    have hr := List.all_eq_true.mp h i hi
    simp only [Bool.and_eq_true] at hr
    have he : entReachable m c (c.entries.getD i 0) = true := by
      rw [entReachable]
      split
      · exact hr.1
      · exact hr.2
    rw [he]
    simp

/-- The first collective's preparation, its members reachable. -/
def prepared (m : Mach) : Mach :=
  let m1 := serveStaging m
  (collPeers m1 (collAt m1 0)).foldl copyChunk m1

theorem prepare_eq {m : Mach}
    (h : ((survivors (collAt m 0)).all fun i => let e := (collAt m 0).entries.getD i 0
      routeUp m ((collAt m 0).die / 6) (65536 + entDie e) && reachable m (m.grid (m.grp (collAt m 0).grp).grid).part (entNode e)) = true) :
    collPrepare m 0 = prepared m := by
  rw [collPrepare, lose_none h]; rfl

/-- A chunk of a collective of which member 1 adds op; alone, member 1 runs elsewhere. -/
def chunk (op : Nat) (alone : Bool) : Mach :=
  { (collective op).m with colls := if alone then [member 0 0] else (collective op).m.colls }

theorem chunk_prepared (op : Nat) (alone : Bool) (h : op = 0 ∨ op = 1) : collPrepare (chunk op alone) 0 = prepared (chunk op alone) := by
  apply prepare_eq
  rcases h with rfl | rfl <;> cases alone <;> decide +kernel

theorem witness_ExchangeEvents_chunks :
    (∀ op ∈ [0, 1], ∀ alone : Bool, let m := chunk op alone
      0 < m.colls.length ∧ (collAt m 0).ended = false ∧ (collAt m 0).out = false ∧
      (let m1 := collPrepare m 0
       let c := collAt m1 0
       decide (∀ j ∈ collPeers m1 c, collAgree c (collAt m1 j) = true) = (decide (op = 0) || alone) ∧
       (op = 0 → chunkReady m1 0 [] = !alone))) := by
  intro op ho alone m
  simp only [List.mem_cons, List.not_mem_nil, or_false] at ho
  simp only [show m = chunk op alone from rfl, chunk_prepared op alone ho]
  rcases ho with rfl | rfl <;> cases alone <;> decide +kernel

theorem witness_ExchangeEvents :
    (∀ keys ∈ [[], [(0, [1])]], let m := (tiles (halo (tile 0 1) (some (0, 0, false)) [] keys)).m
      (haloOf m 0 0).map Halo.out = some (some (0, 0, false)) ∧ snapReady m (halo (tile 0 1) (some (0, 0, false)) [] keys) = true ∧
      ∀ bad ∈ [[], [1]], let m0 := (m.cores.map Prod.fst).foldl (fun m c => flushAtoms m (c / 64) (c % 64) fun k y =>
          (keys.flatMap Prod.snd).contains (k / 128) && atomMine m (m.team 0).die (m.team 0).core c y) { m with poison := bad }
        linesPoisoned m0 keys = decide (bad ≠ [] ∧ keys ≠ [])) ∧
    deliverable (tiles (halo (tile 0 1) (some (0, 0, true)) [(0, [])] [(0, [1])])).m 0 0 0 = true ∧
    silent { chunk 0 true with time := 10 ^ 9 } { member 0 0 with next := 1 } 1 = true ∧ silent (chunk 0 true) { member 0 0 with copy := none } 1 = false ∧
    ((member 0 0).ended = false ∧ 1 < (member 0 0).entries.length ∧ 1 ≠ (member 0 0).member) := by decide +kernel

/-- A packet of a region, accepted or not. -/
def packet (region : Nat) (acc : Bool) : Packet :=
  { die := 0, words := [BitVec.ofNat 64 (region * 2 ^ 40)] ++ List.replicate 7 0, src := (0, 0), accepted := acc }
def packets (ps : List Packet) : State := State.with' binning fun m => { m with
  parts := Tbl.set Part.reset m.parts 0 { m.part 0 with packets := ps, marks := [(0, 2 ^ 41)] }
  groups := m.groups.map fun g => { g with q := [(4, { bind := .eng 5, elems := [] })] } }

/-- A group whose lane 0 traverses: its state is t, its stack empty or with one empty reference. -/
def tracing (t : Tvu) : State := State.with' rays fun m => m.setGrp 0 { m.grp 0 with
  tvu := [(0, { t with status := 5, job := 0 })]
  rdTok := [7]
  q := [(4, { bind := .eng 4, elems := List.replicate 7 (0, .data) })] }

theorem witness_GraphicsEvents :
    (sxbAcceptable (packets [packet 0 false]).m 0 0 = true ∧ ((packets [packet 0 false]).m.part 0).packets[0]? = some (packet 0 false)) ∧
    (let s := State.with' (packets [packet 9 true]) fun m => m.setGrp 0 { m.grp 0 with outst := [word 0 (.bind 0xC5000 0 [] [])] }
     (deliverPacket s.m 0 9).isSome = true ∧ closing s.m 0 = true ∧ smallestPacket (s.m.part 0).packets 9 = some (packet 9 true) ∧
     ((s.m.part 0).pass.map fun ps => entryOf ps 9) = some none ∧ ((movingNow s.m 0).all fun e => e.1 ≠ 9) = true) ∧
    (∀ hit ∈ [false, true], let y := (tracing { Tvu.idle with hitfound := hit }).m.grp 0
     y.freed = false ∧ y.stopped = false ∧ (tvGet y 0).status = 5 ∧ (tvGet y 0).depth = 0 ∧ (tvGet y 0).hitfound = hit) ∧
    (let m := (tracing Tvu.idle).m
     (m.team (m.grp 0).team).place = .resident ∧ (m.team (m.grp 0).team).stopping = none ∧ (m.grp 0).rdTok = [7] ∧
     rduRoom (m.grp 0) = some 4 ∧ 0 < m.groups.length) ∧
    (let s := tracing { Tvu.idle with depth := 1, entries := [0xFFFFFFFF, 0, 0, 0, 0] }
     (match tvAdvance s.m 0 (whoGroup s.m 0) 0 (tvGet (s.m.grp 0) 0) with | .ok (.on _ _) => true | _ => false) = true) := by
  decide +kernel

/-! Witnesses of contexts, links, the package, and the machine as a whole. -/

/-- An operation on context 0 waits at CTXCTL; the context table stands at base, its entry at 0x200000 a context's. -/
def waitingCtx (op : Nat) (on : Bool) (base : Word) : State := State.with' W fun m => { m with
  mem := putMem m.mem (keyLocal 0 0x200000) (toBytes 8 (2 ^ 63 + 0x10000))
  parts := Tbl.set Part.reset m.parts 0 { m.part 0 with ctxops := [(op, 0)], ctxbase := base, ctxs := [(0, { enabled := on, root := 0x10000 })] } }

theorem witness_PartitionEvents_contexts :
    (let s := waitingCtx 1 false 0
     ctxOp s.m 0 = some (1, 0) ∧ (enableCtx s.m 0 0).isSome = true) ∧
    (let s := waitingCtx 1 false (2 ^ 60)
     ctxOp s.m 0 = some (1, 0) ∧ ctxEntry s.m 0 0 = none) ∧
    (∀ on ∈ [false, true], let s := waitingCtx 1 on 0x200000
     ctxOp s.m 0 = some (1, 0) ∧ (ctxEntry s.m 0 0).map entryOk = some true ∧ 0 ≤ (s.m.part 0).ctxbase.toNat % 4096 ∧
       (s.m.ctx 0 0).enabled = on) ∧
    (∀ op ∈ [2, 5], ∀ on ∈ [false, true], let s := waitingCtx op on 0
     ctxOp s.m 0 = some (op, 0) ∧ (s.m.ctx 0 0).enabled = on ∧ ctxQuiet (stopCtx s.m 0 0) 0 0 = false ∧
       ctxQuiet (stopCtx { s.m with groups := [] } 0 0) 0 0 = true) := by decide +kernel

theorem witness_PartitionEvents_registers :
    (let s := State.with' W fun m => { m with pk := outside.m.pk }
     functionsUp s.m = true ∧ 0 < partCount s.m.pk.cur ∧ anyCtx s.m 0 = true) ∧ functionsUp W.m = false ∧
    functionsUp outside.m = true ∧ 0 < partCount outside.m.pk.cur ∧ (∀ q < 4, anyCtx outside.m q = false) ∧ outside.m.pk.beds ≠ 1 ∧
    (∀ n ∈ [0, 1, 2], ∀ q < partCount n, (∃ d < 12, outside.m.pk.has d = true ∧ isShading d = true ∧ partIn outside.m.pk n d 0 = q) ∧
      memDiesIn outside.m.pk n q ≠ []) ∧
    (wb (0x4444 : Word) 0 4 + wb (0x4444 : Word) 4 4 + wb (0x4444 : Word) 8 4 + wb (0x4444 : Word) 12 4 ≤ 16 ∧
      16 < wb (0x5444 : Word) 0 4 + wb (0x5444 : Word) 4 4 + wb (0x5444 : Word) 8 4 + wb (0x5444 : Word) 12 4) ∧
    (0 % 2 ^ 32 = (outside.m.part 0).floghead ∧ 1 % 2 ^ 32 = (outside.m.part 0).floghead + 1) ∧ bitAt (2 ^ 32) 32 = true ∧ bitAt 0 32 = false ∧
    0x33 / 8 * 8 ∈ [0x10, 0x30, 0x38, 0x40, 0x48] ∧ 0x50 / 8 * 8 ∈ [0x08, 0x50, 0x68] ∧ anyCtx outside.m 0 = false ∧
    (State.reset.m.mem = [] ∨ W.m.mem ≠ []) := by decide +kernel

/-- Port 0 has lost n lanes. -/
def lanesLost (n : Nat) : State := State.with' W fun m => { m with pk := { m.pk with lanes := Tbl.set 0 m.pk.lanes 0 n } }

theorem witness_LinkAndPackageEvents :
    (isPort W.m 0 = true ∧ isPort W.m 17 = true ∧ 0 < W.m.pk.beds ∧ (0 : Nat) < 65548 ∧ Tbl.get 0 (lanesLost 0).m.pk.lanes 0 = 0 ∧ 0 < Tbl.get 0 (lanesLost 1).m.pk.lanes 0 ∧
      2 ≤ Tbl.get 0 (lanesLost 2).m.pk.lanes 0 ∧ portDown (lanesLost 2).m 0 = false) ∧
    (0 < W.m.groups.length ∧ (W.m.grp 0).freed = false) ∧
    (∀ mhz ∈ [25, 2000], 64 ∈ islands W.m.pk ∧ mhz % 25 = 0 ∧ 0 < mhz ∧ mhz ≤ nominal 64 ∧ 64 ∉ W.m.pk.throttled) ∧
    (let im : Image := { kind := 0, secver := 0, body := [], trailer := [] }
     im.kind < 3 ∧ imageOk (State.with' W fun m => { m with pk := { m.pk with minver := 1 } }).m im = false ∧
     ∀ t : Image, Config.ecdsaOk t = true → Config.lmsOk t = true → imageOk W.m t = true) := by
  refine ⟨by decide, by decide, by decide +kernel, by decide, ?_, ?_⟩
  · show (_ && _ && decide ((0 : Nat) ≥ 1)) = false
    rw [Bool.and_eq_false_iff]; exact .inr rfl
  · intro t h1 h2
    rw [imageOk, h1, h2, show W.m.pk.minver = 0 by decide]; rfl

theorem witness_DecodeOfEncode :
    (Instr.add (k0 1) true .i32 0x60 1 2).isEvent = false ∧ (Instr.add (k0 1) true .i32 0x60 1 2).wf = true := by decide

/-- The state before a cycle: no voice has issued. -/
def turn (s : State) : State := { s with cur := none, cyc := none }

/-- The turn that pick gives. -/
def turnOf (s : State) : Option Turn := match pick (current s) with | .voice t => some t | _ => none

theorem witness_StepRunsDecoded_voices :
    (let s := { stand 0x90180082 fill with chain := some { base := W.m, used := [.mem], first := 1, member := 1, late := none } }
     s.m.pk.on = true ∧ s.cur = some (0, 0) ∧ (vo s).inside = true ∧ (vo s).word ≤ lastWord (vo s).code ∧
     decodeWords ((vo s).code.drop (vo s).word) = .ok (.add .none true .i32 0x60 1 2, (vo s).code.drop ((vo s).word + 1))) ∧
    (∀ w ∈ [0x48C00000, 0x06000000, 0x003FE000], let s := stand w fill
     s.m.pk.on = true ∧ (match turnOf s with
      | none => false
      | some t =>
        let s1 := { turnState (current s) t with cur := some (t.gi, t.vi) }
        match voiceAt s1.m t.gi t.vi with
        | none => false
        | some v =>
          if w = 0x003FE000 then !v.inside && (match fetchCourse s1.m t.gi v with | .ok ws => ok? (decodeWords ws) | .error _ => false)
          else v.inside && decide (v.word ≤ lastWord v.code) && !waitsForClaim s1.m t.gi v &&
            ok? (decodeWords (v.code.drop v.word)) == decide (w = 0x48C00000)) = true) ∧
    (let s := stand 0x003FE000 fill
     let w := stand 0x48C00000 fill
     (voiceOf s.m (0, 0)).inside = false ∧ voiceAt s.m 0 0 ≠ none ∧ voiceAt w.m 0 0 ≠ none ∧ (voiceOf w.m (0, 0)).inside = true ∧
       (voiceOf w.m (0, 0)).stalled = false) := by decide +kernel

theorem witness_StepRunsDecoded_events :
    (let s := { turn W with inbox := [.packageReset] }
     s.m.pk.on = true ∧ s.chain = none ∧ (current s).cyc.bind (nextTurn (current s)) = none ∧ urgentEvent (current s).m = none) ∧
    (let s := { turn done' with cyc := some { core := 64, slots := [], co := [] } }
     s.m.pk.on = true ∧ (match pick (current s) with | .event _ => true | _ => false) = true) := by decide +kernel

theorem witness_ResetValues : (0 : Nat) < 4 ∧ keyRegion (keyLocal 0 0) = 1 := by decide

/-- A step of the machine with a chain in progress answers a next state. -/
theorem witness_ChainInvariant :
    let s := { stand 0x90180082 fill with chain := some { base := W.m, used := [.mem], first := 1, member := 1, late := none } }
    s.chainOk ∧ (match step s with | .next _ => true | _ => false) = true := by
  refine ⟨fun k e => ?_, by decide +kernel⟩
  cases e
  decide

theorem witness_MemoryForm : Tbl.wfFrom none 0 W.m.c1 = true ∧ Memory.wf W.m.mem = true ∧ Memory.wf State.reset.m.mem = true := by decide +kernel

theorem witness_EveryInstructionRuns :
    (Instr.packageReset).isEvent = true ∧ Issues W 0 0 (vo W) ∧
    (let s := stand 0x003FE000 fill
     s.cur = some (0, 0) ∧ (voiceAt s.m 0 0).isSome = true ∧ (vo s).inside = false) :=
  ⟨rfl, (ready_of (cls := .mem) (by decide)).toIssues, by decide⟩

/-- Index register 1 names v8 to v15; queue 1 takes elements of the group and holds one. -/
def operands : State := stand 0x48C00000 fun g => { fill g with
  x := (List.range 8).map fun l => (64 + l, BitVec.ofNat 64 (2 ^ 16 * 64 + 8))
  q := [(1, { bind := .tok, elems := [(42, .data)] }), (2, { bind := .cmd, elems := [] })]
  outst := [{ word 0 (.monitors 0) with wr := [.vec 5 0 77, .scal 9 88] }] }
def indexedPre : Pre := .k3 false 7 0 1 0 0

theorem witness_DestinationWrites :
    ∀ e ∈ [(plain, 3), (plain, 0x61), (plain, 0x72), (plain, 0x6A), (indexedPre, 3)],
      let c := see operands false e.1
      let vals := c.lanes.map fun l => (l, (7 : Word))
      c.gi < operands.m.groups.length ∧ vals.map Prod.fst = c.lanes ∧ eff? (c.write operands.m e.2 vals) = true := by decide +kernel

theorem witness_OperandReads :
    let c := see operands false plain
    (c.pre.symp 1 = none ∧ c.pre.indexed 1 = none) ∧
    (opdOf c.pre 1 1 = .v 1 ∧ busyReg c.base 0 0 1 = false ∧ pendingV (c.base.grp 0).outst 1 0 = none) ∧
    (opdOf c.pre 1 5 = .v 5 ∧ busyReg c.base 0 0 5 = false ∧ pendingV (c.base.grp 0).outst 5 0 = some 77) ∧
    (opdOf c.pre 1 0x61 = .mo 1 ∧ busyReg c.base 0 0 97 = false ∧ pendingM (c.base.grp 0).outst 0 1 0 = none) ∧
    (opdOf c.pre 1 0x79 = .s 9 ∧ busyReg c.base 0 0 137 = false ∧ pendingS (c.base.grp 0).outst 9 = some 88) ∧
    (opdOf c.pre 1 0x70 = .s 0 ∧ busyReg c.base 0 0 128 = false ∧ pendingS (c.base.grp 0).outst 0 = none) ∧
    (opdOf c.pre 1 0x69 = .q 1 ∧ c.act ≠ 0 ∧ (qGet (operands.m.grp 0) 1).bind = .tok ∧
      (qGet (operands.m.grp 0) 1).elems = [(42, .data)] ∧ tokenTrap c.act 42 .data = none) := by decide

theorem witness_DoneFrame : W.late = none ∧ (voiceAt W.m 0 0).isSome = true ∧ (pushOut W.m 0).isSome = true ∧
    (pushOut (done'.m.setGrp 0 { done'.m.grp 0 with outq := [(1, [(7, .data)])] }) 0).isNone = true := by decide

/-! Words of the spec's own examples and encodings, and what they stand for; an X word is given first. -/

/-- 02 R66, R68, R26, R65; 01 R21, R42: integer, bit, predicate and move words. -/
theorem test_decode_alu :
    decodeTableWord 32 0x0123E002 = some (.head true 1 1 15 2) ∧  -- head of two packets, flags 1
    decodeTableWord 32 0x90180082 = some (.add .none true .i32 0x60 1 2) ∧  -- add.i32 m0, v1, v2, chained
    decodeTableWord 64 (0x101D3A75 * 2 ^ 32 + 0x045C0200) = some (.add (.k1 false 7 0 1 0 0 0 false) false .i32 0x74 0x74 0x75) ∧  -- add.i32 s20, s4, s5
    decodeTableWord 64 (0x10004103 * 2 ^ 32 + 0x049C1000) = some (.add (.k2 false 7 0 1 0 0 false false) false .i32 1 2 3) ∧  -- add.i32 v1, v2 from the lane's stream, v3
    decodeTableWord 64 (0x10004003 * 2 ^ 32 + 0x04DD7F80) = some (.add (.k3 false 7 1 1 0x7F 0) false .i32 1 0 3) ∧  -- add.i32 v1, v[x1-1], v3
    decodeTableWord 64 (0x1C187003 * 2 ^ 32 + 0x04080000) = some (.shl (.k0 false 2 0 0 false false 0 false) false .b32 0x61 0x60 3) ∧  -- @p2 shl.b32 m1, m0, v3
    decodeTableWord 32 0x2200C205 = some (.bfx .none false .n32 3 4 5) ∧  -- bfx.n32 v3, v4, v5
    decodeTableWord 32 0x480C4103 = some (.plop .none false 6 1 2 3) ∧  -- plop p1, p2, p3, 6
    decodeTableWord 32 0x29D00048 = some (.movi .none false 0x74 0x48) ∧  -- movi s4, 0x48
    decodeTableWord 32 0x2BD3A68A = some (.movh .none false 0x74 0x74 0x68A) ∧  -- movh s4, s4, 0x68A
    decodeTableWord 32 0x2C041005 = some (.xset .none false 1 2 5)  -- xset x1, v2, 5
    := by decide +kernel

/-- 01 R26, 02 R74 to R84: transfers, special registers, traps, hints. -/
theorem test_decode_control :
    decodeTableWord 32 0x4AFFFFFD = some (.bra false 7 0x1FFFFD) ∧  -- bra -3
    decodeTableWord 32 0x4CE00002 = some (.call false 7 2) ∧  -- call +2
    decodeTableWord 32 0x48C00000 = some (.nop .none false 0 0 0) ∧  -- nop
    decodeTableWord 32 0x484100F3 = some (.jmpt .none 4 1 0x73) ∧  -- jmpt v1, s3, 5
    decodeTableWord 32 0x4E004002 = some (.srd .none false 1 2) ∧  -- srd v1, 2
    decodeTableWord 32 0x501D0008 = some (.swr .none false 0x74 8) ∧  -- swr 8, s4
    decodeTableWord 32 0x52000005 = some (.trap .none false 5) ∧  -- trap 5
    decodeTableWord 32 0x52400021 = some (.sys .none false 0x21) ∧  -- sys 0x21
    decodeTableWord 32 0x527D0075 = some (.ctxsv .none false 0x74 0x75) ∧  -- ctxsv s4, s5
    decodeTableWord 32 0x529D0000 = some (.ctxrs .none false 0x74) ∧  -- ctxrs s4
    decodeTableWord 32 0x42604103 = some (.shflXor .none false .n32 1 2 3)  -- shfl.xor.n32 v1, v2, v3
    := by decide +kernel

/-- 07 R180, R185, R190 to R197: floating point. -/
theorem test_decode_float :
    decodeTableWord 32 0x30004103 = some (.fadd .none false .f32 1 2 3) ∧  -- fadd.f32 v1, v2, v3
    decodeTableWord 32 0x38014307 = some (.fdiv .none false .f32 5 6 7) ∧  -- fdiv.f32 v5, v6, v7
    decodeTableWord 64 (0x30604103 * 2 ^ 32 + 0x041C2000) = some (.ffma (.k0 false 7 4 0 false false 0 false) false .f32 1 2 3) ∧  -- ffma.f32 v1, v2, v3, v4
    decodeTableWord 32 0x30C48083 = some (.fcmp .none false 2 2 1 3) ∧  -- fcmp.lt.f32 p2, v1, v3
    decodeTableWord 32 0x33208192 = some (.fcvt .none false .f32x2 2 3 1 2) ∧  -- fcvt.f32.x2.f16.x4 v2, v3, 1
    decodeTableWord 32 0x31410104 = some (.ftoi .none false .f32 4 2 0 4) ∧  -- ftoi.i32.f32 v4, v2
    decodeTableWord 32 0x3B220482 = some (.fpackTf8 .none false .f32x2 8 9 2)  -- fpack.tf8.f32.x2 v8, v9, 2
    := by decide +kernel

/-- 02 R96, R106, 11 R289 to R294, 15 R340 to R349: loads, stores, cache words, atomics, waits. -/
theorem test_decode_memory :
    decodeTableWord 32 0x58013904 = some (.ld .none false .b32 false 4 0x72 4) ∧  -- ld.n32 v4, [s2+16]
    decodeTableWord 32 0x58C10101 = some (.lds .none false .b32 false 4 2 1) ∧  -- lds.n32 v4, [v2+1]
    decodeTableWord 64 (0x58817980 * 2 ^ 32 + 0x051DB000) = some (.st (.k4 false 7 3 3 0) false .b32 false 5 0x73 0) ∧  -- st.n32.rel.dev v5, [s3+0]
    decodeTableWord 64 (0x5C023903 * 2 ^ 32 + 0x051C3008) = some (.ldm (.k4 false 7 0 3 8) false false 8 0x72 3) ∧  -- ldm v8, 4, [s2+1027 lines]
    decodeTableWord 32 0x5E007A02 = some (.prfm .none false 1 0x74 2) ∧  -- prfm.l2 [s4+256]
    decodeTableWord 64 (0x5E5D7A00 * 2 ^ 32 + 0x051C4000) = some (.cwb (.k4 false 7 0 4 0) false false 0x75 0x74 0) ∧  -- cwb.sys s5, [s4+0]
    decodeTableWord 32 0x5EDD7A00 = some (.icinv .none false false 0x75 0x74 0) ∧  -- icinv s5, [s4+0]
    decodeTableWord 64 (0x5F000000 * 2 ^ 32 + 0x051DC000) = some (.fence (.k4 false 7 3 4 0) false false) ∧  -- fence.rel.sys
    decodeTableWord 32 0x62010103 = some (.atomAdd .none false .n32 4 2 3) ∧  -- atom.add.n32 v4, v2, v3
    decodeTableWord 64 (0x62010103 * 2 ^ 32 + 0x051E3000) = some (.atomAdd (.k4 false 7 4 3 0) false .n32 4 2 3) ∧  -- atom.add.n32.ar.dev v4, v2, v3
    decodeTableWord 32 0x66E18108 = some (.atomc .none false .n64 6 2 8) ∧  -- atomc.n64 v6, v2, v8
    decodeTableWord 32 0x63000103 = some (.redAdd .none false .n32 2 3) ∧  -- red.add.n32 v2, v3
    decodeTableWord 32 0x68014103 = some (.atomFadd .none false .f32 5 2 3) ∧  -- atom.fadd.f32 v5, v2, v3
    decodeTableWord 32 0x63C00103 = some (.waitc .none false .n32 0 2 3) ∧  -- waitc.eq.n32 v2, v3
    decodeTableWord 32 0x65C63A75 = some (.waitc .none false .i64 3 0x74 0x75)  -- waitc.ge.i64 s4, s5
    := by decide +kernel

/-- 10 R260: queues, buffers, tags, barriers. -/
theorem test_decode_queues :
    decodeTableWord 32 0x6C05E000 = some (.ldtile .none false 2 0x78) ∧  -- ldtile q2, s8
    decodeTableWord 32 0x6C240001 = some (.qbindCmd .none false 2) ∧  -- qbind.cmd q2
    decodeTableWord 32 0x6C45E000 = some (.qpush .none false 2 0x78) ∧  -- qpush q2, s8
    decodeTableWord 32 0x6C65CC00 = some (.qcnt .none false 2 0x73) ∧  -- qcnt s3, q2
    decodeTableWord 32 0x6C81D3A9 = some (.cbinit .none false 0x74 0x75 1) ∧  -- cbinit 1, s4, s5
    decodeTableWord 32 0x6CA1D801 = some (.cbacq .none false false 0x76 1) ∧  -- cbacq 1, s6
    decodeTableWord 32 0x6CC00001 = some (.cbrel .none false 1) ∧  -- cbrel 1
    decodeTableWord 32 0x6CE1CC01 = some (.cbstat .none false 0x73 1) ∧  -- cbstat 1, s3
    decodeTableWord 32 0x6D01D3A8 = some (.rtag .none false false 0x74 0x75) ∧  -- rtag s4, s5
    decodeTableWord 32 0x6D21DBB8 = some (.bobinit .none false 0x76 0x77) ∧  -- bobinit s6, s7
    decodeTableWord 32 0x6D41DBB8 = some (.bobadd .none false 0x76 0x77) ∧  -- bobadd s6, s7
    decodeTableWord 32 0x6D61DBB8 = some (.bobwait .none false false 0x76 0x77) ∧  -- bobwait s6, s7
    decodeTableWord 32 0x6D800022 = some (.barArr .none false 4 2) ∧  -- bar.arr 2, 4
    decodeTableWord 32 0x6DA00002 = some (.barWait .none false false false 2)  -- bar.wait 2
    := by decide +kernel

/-- 11 R281 to R288, 04 R136, 14 R333 to R339, 15 R355: shadows, launches, claims, halo, collectives. -/
theorem test_decode_system :
    decodeTableWord 32 0x6E01D3A9 = some (.shopen .none false false 0x74 0x75 true) ∧  -- shopen.copy s4, s5
    decodeTableWord 32 0x6E21D000 = some (.publish .none false false 0x74) ∧  -- publish s4
    decodeTableWord 32 0x6E41D000 = some (.shdrop .none false false 0x74) ∧  -- shdrop s4
    decodeTableWord 32 0x6E61D3A8 = some (.commit .none false false 0x74 0x75) ∧  -- commit s4, s5
    decodeTableWord 32 0x6E81D3A8 = some (.discard .none false false 0x74 0x75) ∧  -- discard s4, s5
    decodeTableWord 32 0x6EA1CC00 = some (.launch .none false false 0x73) ∧  -- launch s3
    decodeTableWord 32 0x6EC1CC00 = some (.task .none false false 0x73) ∧  -- task s3
    decodeTableWord 32 0x6EE1D3A8 = some (.take .none false 0x74 0x75) ∧  -- take s4, s5
    decodeTableWord 32 0x6F000200 = some (.claim .none false false 64) ∧  -- claim 64
    decodeTableWord 32 0x6F200100 = some (.give .none false 32) ∧  -- give 32
    decodeTableWord 32 0x6DC1E000 = some (.haloDecl .none false false 0x78) ∧  -- halo.decl s8
    decodeTableWord 32 0x6DC1D001 = some (.haloRel .none false false 0x74) ∧  -- halo.rel s4
    decodeTableWord 32 0x6DC1D3AA = some (.haloWait .none false false 0x74 0x75) ∧  -- halo.wait s4, s5
    decodeTableWord 32 0x6DC1D003 = some (.haloDrop .none false false 0x74) ∧  -- halo.drop s4
    decodeTableWord 32 0x6DE1D000 = some (.coll .none false false 0x74 0)  -- coll.add s4
    := by decide +kernel

/-- 12, 13, 16, 19: matrix, tree, graphics and ray words, and hints. -/
theorem test_decode_engines :
    decodeTableWord 32 0x7001D000 = some (.slclaim .none false false 0x74) ∧  -- slclaim s4
    decodeTableWord 32 0x7021D001 = some (.slrelReset .none false 0x74) ∧  -- slrel.reset s4
    decodeTableWord 32 0x7041D400 = some (.acclaim .none false false 0x75) ∧  -- acclaim s5
    decodeTableWord 32 0x7061D400 = some (.acrel .none false 0x75) ∧  -- acrel s5
    decodeTableWord 32 0x7081E001 = some (.mxlay .none false 0x78 1) ∧  -- mxlay ly1, s8
    decodeTableWord 32 0x70A5D3AA = some (.mxloop .none false false 2 0x74 0x75 2) ∧  -- mxloop.tf8 q2, s4, s5
    decodeTableWord 32 0x70C1DBB8 = some (.mxsc .none false false 0x76 0x77) ∧  -- mxsc s6, s7
    decodeTableWord 32 0x70E1D400 = some (.mxz .none false false 0x75) ∧  -- mxz s5
    decodeTableWord 32 0x7101D860 = some (.mxrd .none false false 0x76 12) ∧  -- mxrd v12, s6
    decodeTableWord 32 0x7121D860 = some (.mxwr .none false 0x76 12) ∧  -- mxwr s6, v12
    decodeTableWord 32 0x7141DBB8 = some (.mxst .none false false 0x76 0x77) ∧  -- mxst s6, s7
    decodeTableWord 32 0x7161D3A8 = some (.mxsp .none false 0x74 0x75) ∧  -- mxsp s4, s5
    decodeTableWord 32 0x7181CC00 = some (.mxcnt .none false 0x73) ∧  -- mxcnt s3
    decodeTableWord 32 0x7205D001 = some (.tsinit .none false false 2 0x74 true) ∧  -- tsinit q2, s4
    decodeTableWord 32 0x7225E001 = some (.tsexp .none false false 2 0x78 true) ∧  -- tsexp q2, s8
    decodeTableWord 32 0x7241D050 = some (.tsdesc .none false false 0x74 10) ∧  -- tsdesc v10, s4
    decodeTableWord 32 0x7285D3A9 = some (.tsroot .none false false 2 0x74 0x75 true) ∧  -- tsroot q2, s4, s5
    decodeTableWord 32 0x72A5D3A9 = some (.tsfree .none false false 2 0x74 0x75 true) ∧  -- tsfree q2, s4, s5
    decodeTableWord 32 0x72E1D3B0 = some (.tsstat .none false false 0x74 0x76 0) ∧  -- tsstat.desc s6, s4
    decodeTableWord 32 0x74004000 = some (.mvemit .none false false 16) ∧  -- mvemit v16
    decodeTableWord 32 0x7441D000 = some (.seqtkHw .none false false 0x74) ∧  -- seqtk.hw s4
    decodeTableWord 32 0x7461D3A9 = some (.regionXfer .none false false 0x74 0x75) ∧  -- region.xfer s4, s5
    decodeTableWord 32 0x74E05000 = some (.tvld .none false false 20) ∧  -- tvld v20
    decodeTableWord 32 0x75005000 = some (.tvst .none false false 20) ∧  -- tvst v20
    decodeTableWord 32 0x752013A8 = some (.rpack .none false false 4 0x75) ∧  -- rpack v4, s5, b standing in bits 9 to 3
    decodeTableWord 32 0x78023A75 = some (.hintPfs .none false 0 8 0x74 0x75) ∧  -- hint.pfs 8, s4, s5
    decodeTableWord 32 0x7A000000 = some (.hintBlk .none false 0)  -- hint.blk
    := by decide +kernel

/-- 01 R27, R28, R37: a word of an unassigned major, an X word before a head, an X word of an unassigned kind, a kind-4 X word
before an ALU word and a set field that the word keeps at 0 decode to nothing. -/
theorem test_decode_refuses :
    decodeTableWord 32 0x06000000 = none ∧ decodeTableWord 64 (0x0123E002 * 2 ^ 32 + 0x041C0000) = none ∧
    decodeTableWord 64 (0x10004103 * 2 ^ 32 + 0x055C0000) = none ∧ decodeTableWord 64 (0x10004103 * 2 ^ 32 + 0x051C3000) = none ∧
    decodeTableWord 32 0x7001D001 = none := by decide +kernel

/-! An ill-formed term for each check of WellFormed, which the check refuses. -/

/-- 01 R28: the kinds of X word that each class refuses. -/
theorem test_wf_prefixes :
    PreClass.bare.accepts (k0 0) = false ∧ PreClass.alu.accepts (.k4 false 7 0 0 0) = false ∧ PreClass.mem.accepts (k0 0) = false ∧
    PreClass.atomic.accepts (.k1 false 7 0 0 0 0 0 false) = false ∧ PreClass.sys.accepts (.k1 false 7 0 0 0 0 0 false) = false ∧
    PreClass.sym.accepts (.k3 false 7 0 0 0 0) = false ∧ PreClass.queue.accepts (.k4 false 7 0 0 0) = false ∧
    PreClass.hint.accepts (.k2 false 7 0 0 0 0 false false) = false ∧ (Instr.add (.k4 false 7 0 0 0) false .i32 1 2 3).wf = false := by decide

/-- 01 R37 and the rule of each word: the field values that an assigned word excludes. -/
theorem test_wf_fields :
    (Instr.ineg plain false .n32 1 2).wf = false ∧ (Instr.iabs plain false .n64 1 2).wf = false ∧
    (Instr.cmp plain false .i16x4 0 1 2 3).wf = false ∧ (Instr.cmp plain false .i32 6 1 2 3).wf = false ∧
    (Instr.cvt plain false .i16x4 1 2 0 10).wf = false ∧ (Instr.fcmp plain false 8 1 2 3).wf = false ∧
    (Instr.ftoi plain false .f32 1 2 0 10).wf = false ∧ (Instr.itof plain false .f32 1 2 0 10).wf = false ∧
    (Instr.fdot2 plain false .f32 1 2 3).wf = false ∧ (Instr.matchKey plain false .n64 1 2 1).wf = false ∧
    (Instr.waitc plain false .n32 6 1 2).wf = false ∧ (Instr.ldSext plain false .b64 false 1 2 3).wf = false ∧
    (Instr.ldsSext plain false .b64 false 1 2 3).wf = false ∧ (Instr.prfm plain false 3 1 2).wf = false ∧
    (Instr.mxloop plain false false 0 0x74 0x75 5).wf = false ∧ (Instr.tsrd plain false false 1 2 5).wf = false ∧
    (Instr.coll plain false false 0x74 6).wf = false ∧ (Instr.tlbinv plain false 0x74 2).wf = false := by decide

/-! Single words, with results worked out by hand from the spec. -/

/-- What lane l of vector register r holds after an instruction; v4 and v5 hold a and b in every lane at the start, v6 c. -/
def after (i : Instr) (a b c : Nat) (r l : Nat) : Option Word :=
  match exec i (stand 0x48C00000 fun g => { fill g with
    v := lanes8 1 (fun l => 10 * l) ++ lanes8 4 (fun _ => a) ++ lanes8 5 (fun _ => b) ++ lanes8 6 (fun _ => c) }) with
  | .next t => some (Tbl.get 0 (t.m.grp 0).v (64 * r + l))
  | _ => none

/-- 02 R57: sub-elements wrap each on its own; .sat clamps them. -/
theorem test_add_elements :
    after (.add plain false .i8x8 3 4 5) 0x7F00000000000080 0x0100000000000080 0 3 0 = some 0x8000000000000000 ∧
    after (.add (.k0 false 7 0 0 true false 0 false) false .i8x8 3 4 5) 0x7F00000000000080 0x0100000000000080 0 3 0 =
      some 0x7F00000000000080 := by decide +kernel

/-- 02 R60, the rule's example: bytes 4 to 7, sign-extended into four 16-bit elements. -/
theorem test_cvt_high : after (.cvt plain false .i16x4 3 4 1 0) 0x807FFF0100000000 0 0 3 0 = some 0xFF80007FFFFF0001 := by decide +kernel

/-- 02 R67, the rule's examples. -/
theorem test_bit_fields :
    after (.bfx plain false .n32 3 4 5) 0xF0F01234 0x0000081C 0 3 0 = some 0xF ∧
    after (.bfx plain false .i64 3 4 5) 0xF0F01234 0x0000081C 0 3 0 = some 0xF ∧
    after (.bfx plain false .i32 3 4 5) 0xF0F01234 0x0000081C 0 3 0 = some 0xFFFFFFFFFFFFFFFF ∧
    after (.fshl (k0 6) false .n32 3 4 5) 0x000000FF 0x80000000 4 3 0 = some 0xFF8 := by decide +kernel

/-- 02 R71, the rule's examples in a group of width 8: idx with b = 11 reads lane 3, up by 1 gives lane 0 the value of lane 7. -/
theorem test_shuffles :
    after (.shflIdx plain false .n32 3 1 5) 0 11 0 3 6 = some 30 ∧ after (.shflUp plain false .n32 3 1 5) 0 1 0 3 0 = some 70 := by
  decide +kernel

/-- 02 R65: movi sign-extends eleven bits; movh shifts by eleven and fills in zeros above the immediate. -/
theorem test_immediates :
    after (.movi plain false 3 0x400) 0 0 0 3 7 = some 0xFFFFFFFFFFFFFC00 ∧
    after (.movh plain false 3 4 0x68A) 0x48 0 0 3 0 = some 0x2468A := by decide +kernel

/-- 02 R68: bit 2 pa + pb of the table gives the lane: the table 0xC copies pa. -/
theorem test_plop : (match exec (.plop plain false 0xC 2 1 0) W with
    | .next t => some (Tbl.get 0 (t.m.grp 0).p 2)
    | _ => none) = some 0x0F := by decide +kernel

/-- 06 R168, 07: 1 + 2 = 3; the largest finite number plus itself is infinite; a third is rounded to nearest. -/
theorem test_float_sums :
    after (.fadd plain false .f32 3 4 5) 0x3F800000 0x40000000 0 3 0 = some 0x40400000 ∧
    after (.fadd plain false .f32 3 4 5) 0x7F7FFFFF 0x7F7FFFFF 0 3 0 = some 0x7F800000 ∧
    divF .f32 FEnv.rne (.fin false 1 0) (.fin false 3 0) = (0x3EAAAAAB, excNx) := by decide +kernel

/-- 07 R191, the rule's example: −2.5 gives −2 under RNE, RTZ and RUP, −3 under RDN and RNA, each with NX. -/
theorem test_ftoi :
    after (.ftoi plain false .f32 3 4 0 4) 0xC0200000 0 0 3 0 = some 0xFFFFFFFFFFFFFFFE ∧
    ((List.range 5).map fun rm => (ftoiF true 32 rm (.fin true 5 (-1))).1 % 2 ^ 32) =
      [0xFFFFFFFE, 0xFFFFFFFE, 0xFFFFFFFE, 0xFFFFFFFD, 0xFFFFFFFD] ∧
    (ftoiF true 32 0 (.fin true 5 (-1))).2 = excNx := by decide +kernel

/-- 06 R167, the table of worked codes: 1.0625, 2^-25, −0.0, a NaN into TF8; 5.0 and 100.0 into TF6. -/
theorem test_tapered :
    roundTF tf8 0 (.fin false 17 (-4)) = (0x40, excNx) ∧ roundTF tf8 4 (.fin false 17 (-4)) = (0x41, excNx) ∧
    roundTF tf8 0 (.fin false 1 (-25)) = (0x00, excNx ||| excUf) ∧ roundTF tf8 4 (.fin false 1 (-25)) = (0x01, excNx ||| excUf) ∧
    roundTF tf8 0 (.fin false 30000000 0) = (0x7F, excNx ||| excOf) ∧ (roundTF tf6 0 (.nan false)).1 = 0x20 ∧
    roundTF tf6 0 (.fin false 5 0) = (0x18, excNx) ∧ roundTF tf6 4 (.fin false 5 0) = (0x19, excNx) ∧
    roundTF tf6 0 (.fin false 100 0) = (0x1E, excNx) ∧ roundTF tf6 2 (.fin false 100 0) = (0x1F, excNx) := by decide +kernel

/-- 02 R94 to R97: a store of four bytes, little endian, reads back byte by byte at the page's physical address. -/
theorem test_store : (match exec (.st plain false .b32 false 4 0x70 0) (stand 0x48C00000 fun g => { fill g with
      v := lanes8 4 (fun _ => 0x11223344) }) with
    | .next t => some ((List.range 5).map fun i => rdByte t.m (keyLocal 0 (0x44000 + i)))
    | _ => none) = some [0x44, 0x33, 0x22, 0x11, 0x00] := by decide +kernel

end Sys2Proof.Tests
end

section
/-!
PROOFS. The statements about the integer comparison, conversion and address words (02 R58, R60, R61).
-/

namespace Sys2Proof.Proofs

open Sys2Proof.Machine Sys2Proof.Claims

/-! ## What the three words run -/

theorem exec_cmp (x : Pre) (ch : Bool) (t : IntTy) (n : BitVec 4) (p : BitVec 3) (a b : BitVec 7) (s : State) :
    exec (.cmp x ch t n p a b) s = execCmp x ch t n p a b s := by
  rfl

theorem exec_cvt (x : Pre) (ch : Bool) (t : IntTy) (d a : BitVec 7) (h : BitVec 3) (k : BitVec 4) (s : State) :
    exec (.cvt x ch t d a h k) s = execCvt x ch t d a h k s := by
  rfl

theorem exec_lea (x : Pre) (ch : Bool) (t : LTy) (d a b : BitVec 7) (s : State) :
    exec (.lea x ch t d a b) s = execLea x ch t d a b s := by
  rfl

/-! ## Words that compute each lane of d -/

/-- An instruction that runs as an ALU word with its result at once, no lane of it reading the old d, completes at issue. -/
theorem aluDone_of_exec {i : Instr} {p : Pipe} {x : Pre} {ch : Bool} {u : Use} {d a b : Nat} {lane : LaneFn}
    (hl : u.long = false) (he : ∀ s, exec i s = aluWord p x ch u d a b (fun c l y z w _ => lane c l y z w) s) :
    AluDone i p x ch u d a b lane := by
  intro s gi vi v hr c h1 h2 m1 va vb vc m2 hs rs hw
  rw [he]
  exact aluWord_done hr hl h1 h2 hs rfl hw

/-! ## Words that write a predicate -/

/-- A predicate write looks at the new value in the active lanes alone. -/
theorem writePred_congr (c : Cx) (m : Mach) (p : Nat) {v w : Nat → Bool} (h : ∀ l ∈ c.lanes, v l = w l) :
    c.writePred m p v = c.writePred m p w := by
  have hf : c.lanes.filter v = c.lanes.filter w := List.filter_congr h
  simp only [Cx.writePred, hf]

/-- In a table of a function over some keys, each of them finds its own value. -/
theorem find?_map_key {α : Type} (g : Nat → α) {ls : List Nat} {l : Nat} (h : l ∈ ls) :
    (ls.map fun k => (k, g k)).find? (fun r => r.1 = l) = some (l, g l) := by
  induction ls with
  | nil => cases h
  | cons k ks ih =>
    by_cases hk : k = l
    · simp [hk]
    · have hm : l ∈ ks := (List.mem_cons.mp h).resolve_left fun e => hk e.symm
      simpa [hk] using ih hm

/-- A comparison whose fields are legal and whose sources are read writes each active lane's test. -/
theorem predBody_eq {c : Cx} {m : Mach} {u : Use} {p a b : Nat} {test : Cx → Word → Word → Bool × Exc}
    (h1 : c.preOk u = true) (h2 : c.fieldsOk u 0 a b = true) {m1 : Mach} {va vb vc : Nat → Word}
    (hs : c.sources m u a b = .ok (m1, va, vb, vc)) :
    predBody u p a b test c m = .ok
      (let exc := (c.lanes.map fun l => (test c (va l) (vb l)).2).foldl (fun e r => e ||| r) 0
       let m2 := c.writePred m1 p fun l => (test c (va l) (vb l)).1
       if exc = 0 then m2 else c.orExc m2 exc) := by
  rw [predBody_done h1 h2 hs rfl]
  have hw : (c.writePred m1 p fun l => (((c.lanes.map fun k => (k, test c (va k) (vb k))).find?
      fun r => r.1 = l).map fun r => r.2.1).getD false) = c.writePred m1 p fun l => (test c (va l) (vb l)).1 :=
    writePred_congr c m1 p fun l hl => by rw [find?_map_key (fun k => test c (va k) (vb k)) hl]; rfl
  simp only [hw, List.foldl_map]

/-- An instruction whose body compares its sources completes at issue. -/
theorem predDone_of_exec {i : Instr} {x : Pre} {ch : Bool} {u : Use} {p a b : Nat} {test : Cx → Word → Word → Bool × Exc}
    (he : ∀ s, exec i s = issue (some .alu) false x ch (predBody u p a b test) s) : PredDone i x ch u p a b test := by
  intro s gi vi v hr c h1 h2 m1 va vb vc hs
  rw [he]
  exact issue_done hr (predBody_eq h1 h2 hs)

/-! ## Conversions -/

/-- The parts that R60 allows. -/
theorem partOk_iff (cd cs h : Nat) :
    partOk cd cs h = true ↔ h * min cd cs + min cd cs ≤ max cd cs ∧ (cd = cs → h = 0) := by
  simp only [partOk, Bool.and_eq_true, Bool.or_eq_true, decide_eq_true_eq]
  exact and_congr_right fun _ => imp_iff_not_or.symm

/-- A conversion raises no exception where none of its sub-elements does. -/
theorem partLane_exc_zero (dw cd : Nat) (dsgn : Bool) (sw cs h : Nat) (f : Nat → Nat) (a old : Word) :
    (partLane dw cd dsgn sw cs h (fun e => (f e, 0)) a old).2 = 0 := by
  refine List.foldlRecOn (motive := fun acc : Word × Exc => acc.2 = 0) _ _ rfl fun acc hacc n _ => ?_
  simp [hacc]

/-- Lanes that raise no exception raise none together. -/
theorem excAll_map_zero {ls : List Nat} {g : Nat → Word × Exc} (h : ∀ l ∈ ls, (g l).2 = 0) :
    excAll (ls.map fun l => (l, g l)) = 0 := by
  unfold excAll
  rw [List.foldl_map]
  refine List.foldlRecOn (motive := fun e : Exc => e = 0) _ _ rfl fun e he l hl => ?_
  simp [he, h l hl]

/-! ## The obligations -/

/-- Settles O3: a legal `cmp` is a comparison into a predicate; its other forms stop before they read anything. -/
theorem integerCompare : Obligations.IntegerCompare := by
  intro x ch t n p a b
  constructor
  · intro ht hn
    refine predDone_of_exec fun s => ?_
    have hlegal : ¬(tyCount t ≠ 1 ∨ n.toNat > 5) := by omega
    simp only [exec_cmp, execCmp, if_neg hlegal] <;> rfl
  · intro hbad s gi vi v hr
    rw [exec_cmp]
    exact issue_cause hr (if_pos hbad)

/-- Settles O5: the parts that the word accepts are R60's, and an integer conversion raises no exception. -/
theorem integerConvert : Obligations.IntegerConvert := by
  intro x ch t d a h k s gi vi v hr c st cd cs legal
  rw [exec_cvt]
  have hparts : (decide (k.toNat ≤ 9) && partOk cd cs h.toNat) = true ↔
      k.toNat ≤ 9 ∧ h.toNat * min cd cs + min cd cs ≤ max cd cs ∧ (cd = cs → h.toNat = 0) := by
    rw [Bool.and_eq_true, decide_eq_true_eq, partOk_iff]
  constructor
  · intro hn
    refine issue_cause hr (partBody_illegal ?_)
    by_contra hc
    obtain ⟨hok, hq⟩ := not_or.mp hc
    obtain ⟨hk, hfit, hsame⟩ := hparts.mp (Bool.eq_true_of_not_eq_false hok)
    exact hn ⟨hk, hfit, hsame, Bool.eq_false_of_not_eq_true hq⟩
  · intro ⟨hk, hfit, hsame, hq⟩ h1 h2 m1 va vb vc m2 hs hw
    refine issue_done hr ?_
    rw [partBody_done (hparts.mpr ⟨hk, hfit, hsame⟩) hq rfl h1 h2 hs rfl (by rw [List.map_map]; exact hw)]
    exact congrArg Eff.ok (if_pos (excAll_map_zero fun l _ => partLane_exc_zero _ _ _ _ _ _ _ _ _))

/-- Settles O6: `lea` is an ALU word, and its shift c[2:0] is c modulo 8. -/
theorem addressArithmetic : Obligations.AddressArithmetic := by
  intro x ch t d a b
  refine aluDone_of_exec rfl fun s => ?_
  have hshift : ∀ r : Word, wb r 0 3 = r.toNat % 8 := fun r => by simp [wb, bitsOf]
  simp only [exec_lea, execLea, hshift]

end Sys2Proof.Proofs
end

section
/-!
PROOFS. Decoding is the inverse of encoding (01 R13 to R16, R27 to R31).
-/

namespace Sys2Proof.Proofs

open Sys2Proof.Laws

/-- The round trip of every instruction: a word's by its base word, an event's because it has no words. -/
theorem roundTrip (i : Instr) : RoundTrip.Statement i := by
  cases i with
  | head => exact RoundTrip.head _ _ _ _ _
  | add => exact RoundTrip.add _ _ _ _ _ _
  | sub => exact RoundTrip.sub _ _ _ _ _ _
  | mul => exact RoundTrip.mul _ _ _ _ _ _
  | mulh => exact RoundTrip.mulh _ _ _ _ _ _
  | mad => exact RoundTrip.mad _ _ _ _ _ _
  | ineg => exact RoundTrip.ineg _ _ _ _ _
  | iabs => exact RoundTrip.iabs _ _ _ _ _
  | imin => exact RoundTrip.imin _ _ _ _ _ _
  | imax => exact RoundTrip.imax _ _ _ _ _ _
  | sad => exact RoundTrip.sad _ _ _ _ _ _
  | add3 => exact RoundTrip.add3 _ _ _ _ _ _
  | cmp => exact RoundTrip.cmp _ _ _ _ _ _ _
  | sel => exact RoundTrip.sel _ _ _ _ _ _
  | mov => exact RoundTrip.mov _ _ _ _ _
  | cvt => exact RoundTrip.cvt _ _ _ _ _ _ _
  | lea => exact RoundTrip.lea _ _ _ _ _ _
  | shl => exact RoundTrip.shl _ _ _ _ _ _
  | shr => exact RoundTrip.shr _ _ _ _ _ _
  | sar => exact RoundTrip.sar _ _ _ _ _ _
  | band => exact RoundTrip.band _ _ _ _ _ _
  | bor => exact RoundTrip.bor _ _ _ _ _ _
  | bxor => exact RoundTrip.bxor _ _ _ _ _ _
  | andn => exact RoundTrip.andn _ _ _ _ _ _
  | orn => exact RoundTrip.orn _ _ _ _ _ _
  | bnot => exact RoundTrip.bnot _ _ _ _ _
  | popc => exact RoundTrip.popc _ _ _ _ _
  | clz => exact RoundTrip.clz _ _ _ _ _
  | ctz => exact RoundTrip.ctz _ _ _ _ _
  | brev => exact RoundTrip.brev _ _ _ _ _
  | perm => exact RoundTrip.perm _ _ _ _ _ _
  | idot4I8 => exact RoundTrip.idot4I8 _ _ _ _ _
  | idot4N8 => exact RoundTrip.idot4N8 _ _ _ _ _
  | bfx => exact RoundTrip.bfx _ _ _ _ _ _
  | bfi => exact RoundTrip.bfi _ _ _ _ _ _
  | fshl => exact RoundTrip.fshl _ _ _ _ _ _
  | fshr => exact RoundTrip.fshr _ _ _ _ _ _
  | bmsk => exact RoundTrip.bmsk _ _ _ _ _
  | movi => exact RoundTrip.movi _ _ _ _
  | movh => exact RoundTrip.movh _ _ _ _ _
  | xset => exact RoundTrip.xset _ _ _ _ _
  | fadd => exact RoundTrip.fadd _ _ _ _ _ _
  | fsub => exact RoundTrip.fsub _ _ _ _ _ _
  | fmul => exact RoundTrip.fmul _ _ _ _ _ _
  | ffma => exact RoundTrip.ffma _ _ _ _ _ _
  | fmin => exact RoundTrip.fmin _ _ _ _ _ _
  | fmax => exact RoundTrip.fmax _ _ _ _ _ _
  | fcmp => exact RoundTrip.fcmp _ _ _ _ _ _
  | fclass => exact RoundTrip.fclass _ _ _ _ _
  | frnd => exact RoundTrip.frnd _ _ _ _ _
  | fcvt => exact RoundTrip.fcvt _ _ _ _ _ _ _
  | ftoi => exact RoundTrip.ftoi _ _ _ _ _ _ _
  | itof => exact RoundTrip.itof _ _ _ _ _ _ _
  | fscale => exact RoundTrip.fscale _ _ _ _ _ _
  | fdot2 => exact RoundTrip.fdot2 _ _ _ _ _ _
  | fdot4 => exact RoundTrip.fdot4 _ _ _ _ _ _
  | fdiv => exact RoundTrip.fdiv _ _ _ _ _ _
  | frcp => exact RoundTrip.frcp _ _ _ _ _
  | frsq => exact RoundTrip.frsq _ _ _ _ _
  | fsqrt => exact RoundTrip.fsqrt _ _ _ _ _
  | fexp2 => exact RoundTrip.fexp2 _ _ _ _ _
  | flog2 => exact RoundTrip.flog2 _ _ _ _ _
  | fsin => exact RoundTrip.fsin _ _ _ _ _
  | fcos => exact RoundTrip.fcos _ _ _ _ _
  | ftanh => exact RoundTrip.ftanh _ _ _ _ _
  | fpackTf8 => exact RoundTrip.fpackTf8 _ _ _ _ _ _
  | fpackTf6 => exact RoundTrip.fpackTf6 _ _ _ _ _ _
  | funpackTf8 => exact RoundTrip.funpackTf8 _ _ _ _ _ _
  | funpackTf6 => exact RoundTrip.funpackTf6 _ _ _ _ _ _
  | shflIdx => exact RoundTrip.shflIdx _ _ _ _ _ _
  | shflUp => exact RoundTrip.shflUp _ _ _ _ _ _
  | shflDown => exact RoundTrip.shflDown _ _ _ _ _ _
  | shflXor => exact RoundTrip.shflXor _ _ _ _ _ _
  | voteAll => exact RoundTrip.voteAll _ _ _ _
  | voteAny => exact RoundTrip.voteAny _ _ _ _
  | voteBallot => exact RoundTrip.voteBallot _ _ _ _
  | matchKey => exact RoundTrip.matchKey _ _ _ _ _ _
  | lredAdd => exact RoundTrip.lredAdd _ _ _ _ _
  | lredMin => exact RoundTrip.lredMin _ _ _ _ _
  | lredMax => exact RoundTrip.lredMax _ _ _ _ _
  | lredAnd => exact RoundTrip.lredAnd _ _ _ _ _
  | lredOr => exact RoundTrip.lredOr _ _ _ _ _
  | lredXor => exact RoundTrip.lredXor _ _ _ _ _
  | lscanAdd => exact RoundTrip.lscanAdd _ _ _ _ _
  | lscanMax => exact RoundTrip.lscanMax _ _ _ _ _
  | plop => exact RoundTrip.plop _ _ _ _ _ _
  | pmovToPred => exact RoundTrip.pmovToPred _ _ _ _
  | pmovFromPred => exact RoundTrip.pmovFromPred _ _ _ _
  | jmpt => exact RoundTrip.jmpt _ _ _ _
  | ret => exact RoundTrip.ret _
  | exit => exact RoundTrip.exit _
  | yield => exact RoundTrip.yield _ _
  | nop => exact RoundTrip.nop _ _ _ _ _
  | brk => exact RoundTrip.brk _ _ _
  | sypub => exact RoundTrip.sypub _ _ _
  | sydone => exact RoundTrip.sydone _ _ _
  | setmode => exact RoundTrip.setmode _ _ _ _ _
  | bra => exact RoundTrip.bra _ _ _
  | call => exact RoundTrip.call _ _ _
  | srd => exact RoundTrip.srd _ _ _ _
  | swr => exact RoundTrip.swr _ _ _ _
  | trap => exact RoundTrip.trap _ _ _
  | rett => exact RoundTrip.rett _
  | sys => exact RoundTrip.sys _ _ _
  | ctxsv => exact RoundTrip.ctxsv _ _ _ _
  | ctxrs => exact RoundTrip.ctxrs _ _ _
  | tlbinv => exact RoundTrip.tlbinv _ _ _ _
  | ld => exact RoundTrip.ld _ _ _ _ _ _ _
  | ldSext => exact RoundTrip.ldSext _ _ _ _ _ _ _
  | st => exact RoundTrip.st _ _ _ _ _ _ _
  | lds => exact RoundTrip.lds _ _ _ _ _ _ _
  | ldsSext => exact RoundTrip.ldsSext _ _ _ _ _ _ _
  | sts => exact RoundTrip.sts _ _ _ _ _ _ _
  | ldc => exact RoundTrip.ldc _ _ _ _ _ _ _
  | ldm => exact RoundTrip.ldm _ _ _ _ _ _
  | stm => exact RoundTrip.stm _ _ _ _ _ _
  | prfm => exact RoundTrip.prfm _ _ _ _ _
  | cwb => exact RoundTrip.cwb _ _ _ _ _ _
  | cinv => exact RoundTrip.cinv _ _ _ _ _ _
  | icinv => exact RoundTrip.icinv _ _ _ _ _ _
  | fence => exact RoundTrip.fence _ _ _
  | atomAdd => exact RoundTrip.atomAdd _ _ _ _ _ _
  | atomMin => exact RoundTrip.atomMin _ _ _ _ _ _
  | atomMax => exact RoundTrip.atomMax _ _ _ _ _ _
  | atomAnd => exact RoundTrip.atomAnd _ _ _ _ _ _
  | atomOr => exact RoundTrip.atomOr _ _ _ _ _ _
  | atomXor => exact RoundTrip.atomXor _ _ _ _ _ _
  | atomExch => exact RoundTrip.atomExch _ _ _ _ _ _
  | atomc => exact RoundTrip.atomc _ _ _ _ _ _
  | redAdd => exact RoundTrip.redAdd _ _ _ _ _
  | redMin => exact RoundTrip.redMin _ _ _ _ _
  | redMax => exact RoundTrip.redMax _ _ _ _ _
  | redAnd => exact RoundTrip.redAnd _ _ _ _ _
  | redOr => exact RoundTrip.redOr _ _ _ _ _
  | redXor => exact RoundTrip.redXor _ _ _ _ _
  | waitc => exact RoundTrip.waitc _ _ _ _ _ _
  | atomFadd => exact RoundTrip.atomFadd _ _ _ _ _ _
  | redFadd => exact RoundTrip.redFadd _ _ _ _ _
  | ldtile => exact RoundTrip.ldtile _ _ _ _
  | qbindNone => exact RoundTrip.qbindNone _ _ _
  | qbindCmd => exact RoundTrip.qbindCmd _ _ _
  | qbindTok => exact RoundTrip.qbindTok _ _ _
  | qbindEng => exact RoundTrip.qbindEng _ _ _ _
  | qbindLsend => exact RoundTrip.qbindLsend _ _ _ _
  | qbindLrecv => exact RoundTrip.qbindLrecv _ _ _ _
  | qpush => exact RoundTrip.qpush _ _ _ _
  | qcnt => exact RoundTrip.qcnt _ _ _ _
  | cbinit => exact RoundTrip.cbinit _ _ _ _ _
  | cbacq => exact RoundTrip.cbacq _ _ _ _ _
  | cbrel => exact RoundTrip.cbrel _ _ _
  | cbstat => exact RoundTrip.cbstat _ _ _ _
  | rtag => exact RoundTrip.rtag _ _ _ _ _
  | bobinit => exact RoundTrip.bobinit _ _ _ _
  | bobadd => exact RoundTrip.bobadd _ _ _ _
  | bobwait => exact RoundTrip.bobwait _ _ _ _ _
  | barArr => exact RoundTrip.barArr _ _ _ _
  | barWait => exact RoundTrip.barWait _ _ _ _ _
  | haloDecl => exact RoundTrip.haloDecl _ _ _ _
  | haloRel => exact RoundTrip.haloRel _ _ _ _
  | haloWait => exact RoundTrip.haloWait _ _ _ _ _
  | haloDrop => exact RoundTrip.haloDrop _ _ _ _
  | coll => exact RoundTrip.coll _ _ _ _ _
  | shopen => exact RoundTrip.shopen _ _ _ _ _ _
  | publish => exact RoundTrip.publish _ _ _ _
  | shdrop => exact RoundTrip.shdrop _ _ _ _
  | commit => exact RoundTrip.commit _ _ _ _ _
  | discard => exact RoundTrip.discard _ _ _ _ _
  | launch => exact RoundTrip.launch _ _ _ _
  | task => exact RoundTrip.task _ _ _ _
  | take => exact RoundTrip.take _ _ _ _
  | claim => exact RoundTrip.claim _ _ _ _
  | give => exact RoundTrip.give _ _ _
  | slclaim => exact RoundTrip.slclaim _ _ _ _
  | slrelFree => exact RoundTrip.slrelFree _ _ _
  | slrelReset => exact RoundTrip.slrelReset _ _ _
  | acclaim => exact RoundTrip.acclaim _ _ _ _
  | acrel => exact RoundTrip.acrel _ _ _
  | mxlay => exact RoundTrip.mxlay _ _ _ _
  | mxloop => exact RoundTrip.mxloop _ _ _ _ _ _ _
  | mxsc => exact RoundTrip.mxsc _ _ _ _ _
  | mxz => exact RoundTrip.mxz _ _ _ _
  | mxrd => exact RoundTrip.mxrd _ _ _ _ _
  | mxwr => exact RoundTrip.mxwr _ _ _ _
  | mxst => exact RoundTrip.mxst _ _ _ _ _
  | mxsp => exact RoundTrip.mxsp _ _ _ _
  | mxcnt => exact RoundTrip.mxcnt _ _ _
  | mxcntClr => exact RoundTrip.mxcntClr _ _ _
  | tsinit => exact RoundTrip.tsinit _ _ _ _ _ _
  | tsexp => exact RoundTrip.tsexp _ _ _ _ _ _
  | tsdesc => exact RoundTrip.tsdesc _ _ _ _ _
  | tsback => exact RoundTrip.tsback _ _ _ _ _
  | tsroot => exact RoundTrip.tsroot _ _ _ _ _ _ _
  | tsfree => exact RoundTrip.tsfree _ _ _ _ _ _ _
  | tsrd => exact RoundTrip.tsrd _ _ _ _ _ _
  | tsstat => exact RoundTrip.tsstat _ _ _ _ _ _
  | mvemit => exact RoundTrip.mvemit _ _ _ _
  | cover => exact RoundTrip.cover _ _ _ _ _
  | seqtkHw => exact RoundTrip.seqtkHw _ _ _ _
  | seqtkCommit => exact RoundTrip.seqtkCommit _ _ _
  | regionBind => exact RoundTrip.regionBind _ _ _ _ _
  | regionXfer => exact RoundTrip.regionXfer _ _ _ _ _
  | smpl => exact RoundTrip.smpl _ _ _ _ _ _
  | trace => exact RoundTrip.trace _ _ _ _ _ _
  | tresGo => exact RoundTrip.tresGo _ _ _ _ _ _
  | tresHit => exact RoundTrip.tresHit _ _ _ _ _ _
  | tresTmax => exact RoundTrip.tresTmax _ _ _ _ _ _
  | tvld => exact RoundTrip.tvld _ _ _ _
  | tvst => exact RoundTrip.tvst _ _ _ _
  | rpack => exact RoundTrip.rpack _ _ _ _ _
  | hintPfs => exact RoundTrip.hintPfs _ _ _ _ _ _
  | hintBlk => exact RoundTrip.hintBlk _ _ _
  | hintUndefined => exact RoundTrip.hintUndefined _ _ _ _
  | _ => exact nofun

/-- Settles O51: an instruction's words decode to it by the round trip of its constructor. -/
theorem decodeOfEncode : Obligations.DecodeOfEncode :=
  fun i rest he hw => roundTrip i he hw rest

end Sys2Proof.Proofs
end

section
/-!
PROOFS. What kind of step each instruction takes, that every one of them runs, and the chain invariant (01 R10).
-/

namespace Sys2Proof.Proofs

open Sys2Proof.Machine Sys2Proof.Claims

/-! ## The three kinds of instruction -/

/-- An outcome that is some word issued. -/
def IsIssue (s : State) (o : Host.Outcome State Fault Refusal) : Prop := ∃ cls xf x ch body, o = issue cls xf x ch body s

theorem isIssue_issue (cls : Option Pipe) (xf : Bool) (x : Pre) (ch : Bool) (body : Cx → Mach → Eff) (s : State) :
    IsIssue s (issue cls xf x ch body s) := ⟨_, _, _, _, _, rfl⟩

theorem isIssue_ite {s : State} {p : Prop} [Decidable p] {o o' : Host.Outcome State Fault Refusal} (h : IsIssue s o)
    (h' : IsIssue s o') : IsIssue s (if p then o else o') := by
  split
  · exact h
  · exact h'

/-- Every word but a head is issued; six of them choose between two bodies by their fields. -/
theorem exec_word_isIssue (i : Instr) (hh : ∀ h l a b w, i ≠ .head h l a b w) (he : i.isEvent = false) (s : State) :
    IsIssue s (exec i s) := by
  cases i with
  | head => exact absurd rfl (hh _ _ _ _ _)
  | ineg | iabs | sad | fdot2 | ldSext | ldsSext => exact isIssue_ite (isIssue_issue ..) (isIssue_issue ..)
  | _ => first | exact isIssue_issue .. | cases he

/-- What an event leaves of the chain in progress and of the voice that issues: both as they were, or no chain. -/
def EventNext (s t : State) : Prop := t.chain = s.chain ∧ t.cur = s.cur ∨ t.chain = none

/-- Every event answers a next state: a new device, or after a reset or the loss of power a state with nothing in progress. -/
theorem exec_event_next (i : Instr) (he : i.isEvent = true) (s : State) : ∃ t, exec i s = .next t ∧ EventNext s t := by
  cases i with
  | packageReset | thermalTrip | orderlyPowerDown | abruptPowerLoss => exact ⟨_, rfl, .inr rfl⟩
  | _ => first | exact ⟨_, rfl, .inl ⟨rfl, rfl⟩⟩ | cases he

/-- A head leaves no chain in progress. -/
theorem execHead_chain {h : Bool} {l : BitVec 3} {a b : BitVec 4} {w : BitVec 12} {s t : State}
    (he : execHead h l a b w s = .next t) : t.chain = none := by
  unfold execHead at he
  split at he
  · cases he
  · split at he
    · cases he
    · split at he
      · cases he
      · cases he; rfl

/-- A head that a standing voice has come to answers a next state. -/
theorem execHead_next {s : State} {gi vi : Nat} {v : Voice} (hc : s.cur = some (gi, vi)) (hv : voiceAt s.m gi vi = some v)
    (hi : v.inside = false) (h : Bool) (l : BitVec 3) (a b : BitVec 4) (w : BitVec 12) : ∃ t, execHead h l a b w s = .next t := by
  simp only [execHead, hc, hv, hi]
  exact ⟨_, rfl⟩

/-- A voice inside a course that issues a word gets a next state. -/
theorem issue_next {s : State} {gi vi : Nat} {v : Voice} (h : Issues s gi vi v) (cls : Option Pipe) (xf : Bool) (x : Pre) (ch : Bool)
    (body : Cx → Mach → Eff) : ∃ t, issue cls xf x ch body s = .next t := by
  simp only [issue, h.cur, h.voice, h.inside]
  exact ⟨_, rfl⟩

theorem execHead_not_refused (h : Bool) (l : BitVec 3) (a b : BitVec 4) (w : BitVec 12) (s : State) (r : Refusal) :
    execHead h l a b w s ≠ .refused r := by
  unfold execHead
  split
  · nofun
  · split
    · nofun
    · split <;> nofun

/-- Settles O57: an instruction is an event, a head, or a word that is issued, and each of the three answers. -/
theorem everyInstructionRuns : Obligations.EveryInstructionRuns := by
  intro i s
  by_cases hh : ∃ h l a b w, i = .head h l a b w
  · obtain ⟨h, l, a, b, w, rfl⟩ := hh
    exact ⟨execHead_not_refused h l a b w s, nofun, fun _ _ _ _ hn => absurd rfl (hn h l a b w),
      fun _ _ _ hc hv hi _ => execHead_next hc hv hi h l a b w⟩
  have hn : ∀ h l a b w, i ≠ .head h l a b w := fun h l a b w e => hh ⟨h, l, a, b, w, e⟩
  cases he : i.isEvent with
  | true =>
    obtain ⟨t, ht, _⟩ := exec_event_next i he s
    exact ⟨fun r hr => (by rw [ht] at hr; cases hr), fun _ => ⟨t, ht⟩, fun _ _ _ _ _ => ⟨t, ht⟩, fun _ _ _ _ _ _ h => absurd h hh⟩
  | false =>
    obtain ⟨cls, xf, x, ch, body, hw⟩ := exec_word_isIssue i hn he s
    rw [hw]
    exact ⟨issue_not_refused cls xf x ch body s, nofun, fun _ _ _ hv _ => issue_next hv cls xf x ch body,
      fun _ _ _ _ _ _ h => absurd h hh⟩

/-! ## The chain invariant -/

theorem chainOk_of_chain_none {s : State} (h : s.chain = none) : s.chainOk := fun k hk => by rw [h] at hk; cases hk

/-- The invariant looks at the chain and at whether some voice issues. -/
theorem chainOk_congr {s t : State} (hs : s.chainOk) (hc : t.chain = s.chain) (hcur : s.cur.isSome → t.cur.isSome) : t.chainOk :=
  fun k hk => ⟨(hs k (hc ▸ hk)).1, hcur (hs k (hc ▸ hk)).2⟩

theorem exec_keeps_chainOk {i : Instr} {s t : State} (hs : s.chainOk) (h : exec i s = .next t) : t.chainOk := by
  by_cases hh : ∃ h l a b w, i = .head h l a b w
  · obtain ⟨h', l, a, b, w, rfl⟩ := hh
    exact chainOk_of_chain_none (execHead_chain h)
  cases he : i.isEvent with
  | true =>
    obtain ⟨u, hu, hk⟩ := exec_event_next i he s
    obtain rfl : u = t := by rw [hu] at h; cases h; rfl
    rcases hk with ⟨hc, hcur⟩ | hc
    · exact chainOk_congr hs hc fun hv => hcur ▸ hv
    · exact chainOk_of_chain_none hc
  | false =>
    obtain ⟨cls, xf, x, ch, body, hw⟩ := exec_word_isIssue i (fun h l a b w e => hh ⟨h, l, a, b, w, e⟩) he s
    exact issue_chainOk hs (hw ▸ h)

theorem runVoice_keeps_chainOk {gi vi : Nat} {s t : State} (hs : s.chainOk) (h : runVoice gi vi s = .next t) : t.chainOk := by
  have hcur : State.chainOk { s with cur := some (gi, vi) } := chainOk_congr hs rfl fun _ => rfl
  rcases runVoice_cases gi vi s with ⟨m, cur, e⟩ | ⟨hc, m, e⟩ | ⟨i, e⟩ | ⟨x, e⟩ <;> rw [e] at h
  · cases h; exact chainOk_of_chain_none rfl
  · cases h; exact chainOk_of_chain_none hc
  · exact exec_keeps_chainOk hcur h
  · exact issue_chainOk hcur h

theorem mapNext_eq_next {f : State → State} {o : Host.Outcome State Fault Refusal} {t : State} (h : mapNext f o = .next t) :
    ∃ u, o = .next u ∧ t = f u := by
  cases o with
  | next u => cases h; exact ⟨u, rfl, rfl⟩
  | fault => cases h
  | refused => cases h

/-- A change of the next state that leaves its chain and the voice that issues alone. -/
def KeepsChain (f : State → State) : Prop := ∀ u, (f u).chain = u.chain ∧ (f u).cur = u.cur

theorem advance_keepsChain (old : Mach) : KeepsChain (advance old) := fun _ => ⟨rfl, rfl⟩

theorem goOn_keepsChain (gi vi : Nat) (old : Mach) : KeepsChain (goOn gi vi old) := fun s => by
  unfold goOn
  split <;> exact ⟨rfl, rfl⟩

theorem KeepsChain.comp {f g : State → State} (hf : KeepsChain f) (hg : KeepsChain g) : KeepsChain fun u => f (g u) :=
  fun u => ⟨(hf (g u)).1.trans (hg u).1, (hf (g u)).2.trans (hg u).2⟩

theorem KeepsChain.chainOk {f : State → State} (hf : KeepsChain f) {s : State} (hs : s.chainOk) : (f s).chainOk :=
  chainOk_congr hs (hf s).1 fun hv => (hf s).2 ▸ hv

theorem mapNext_keeps_chainOk {f : State → State} {o : Host.Outcome State Fault Refusal} {t : State} (h : mapNext f o = .next t)
    (hf : KeepsChain f) (ho : ∀ u, o = .next u → u.chainOk) : t.chainOk := by
  obtain ⟨u, hu, rfl⟩ := mapNext_eq_next h
  exact hf.chainOk (ho u hu)

theorem current_chainOk {s : State} (hs : s.chainOk) : (current s).chainOk := by
  unfold current
  split
  · exact hs
  · exact chainOk_congr hs rfl id

/-- Whatever is next, a member of the chain, a voice's turn, an input or an event, keeps the invariant, and what a step adds around
it leaves the chain alone. -/
theorem stepFrom_keeps_chainOk {s t : State} (hs : s.chainOk) (h : stepFrom s = .next t) : t.chainOk := by
  have hcyc : State.chainOk { s with cyc := none } := chainOk_congr hs rfl id
  unfold stepFrom at h
  split at h
  case h_1 => exact mapNext_keeps_chainOk h (advance_keepsChain _) fun _ => runVoice_keeps_chainOk hs
  case h_2 e rest _ =>
    have hin : State.chainOk { s with inbox := rest } := chainOk_congr hs rfl id
    exact mapNext_keeps_chainOk h (advance_keepsChain _) fun _ => exec_keeps_chainOk hin
  case h_3 =>
    exact mapNext_keeps_chainOk h ((advance_keepsChain _).comp (goOn_keepsChain _ _ _)) fun _ =>
      runVoice_keeps_chainOk (chainOk_of_chain_none rfl)
  case h_4 e _ =>
    obtain ⟨i, _, hi⟩ := runEv_exec e { s with cyc := none }
    rw [hi] at h
    exact mapNext_keeps_chainOk h (advance_keepsChain _) fun _ => exec_keeps_chainOk hcyc
  case h_5 =>
    obtain rfl : advance s.m { s with cyc := none } = t := by injection h
    exact (advance_keepsChain s.m).chainOk hcyc

/-- Settles O55: a step is one from the state with its marks up to date, whose chain is the same. -/
theorem chainInvariant : Obligations.ChainInvariant := by
  intro s t hs h
  unfold step at h
  split at h
  · exact stepFrom_keeps_chainOk (current_chainOk hs) h
  · cases h

end Sys2Proof.Proofs
end

section
/-!
PROOFS. Integer arithmetic, selection, bitwise and field words, and the elements of an integer result (02 R56, R57, R59, R62 to R67, R87).
-/

namespace Sys2Proof.Proofs

open Sys2Proof.Machine Sys2Proof.Claims

/-! ## The positions of a lane -/

/-- A lane's number, put together from the low w bits of c numbers. -/
def packNat (w c : Nat) (g : Nat → Nat) : Nat := (List.range c).foldl (fun a n => a + g n % 2 ^ w * 2 ^ (w * n)) 0

theorem packNat_succ (w c : Nat) (g : Nat → Nat) : packNat w (c + 1) g = packNat w c g + g c % 2 ^ w * 2 ^ (w * c) := by
  simp [packNat, List.range_succ]

theorem packNat_lt (w : Nat) (g : Nat → Nat) (c : Nat) : packNat w c g < 2 ^ (w * c) := by
  induction c with
  | zero => simp [packNat]
  | succ c ih =>
    have hm : g c % 2 ^ w + 1 ≤ 2 ^ w := Nat.mod_lt _ (by positivity)
    calc packNat w (c + 1) g < 2 ^ (w * c) + g c % 2 ^ w * 2 ^ (w * c) := by rw [packNat_succ]; omega
      _ = (g c % 2 ^ w + 1) * 2 ^ (w * c) := by ring
      _ ≤ 2 ^ w * 2 ^ (w * c) := Nat.mul_le_mul_right _ hm
      _ = 2 ^ (w * (c + 1)) := by rw [← pow_add]; ring_nf

theorem bitsOf_packNat (w : Nat) (g : Nat → Nat) {c n : Nat} (h : n < c) : bitsOf (packNat w c g) (w * n) w = g n % 2 ^ w := by
  induction c with
  | zero => omega
  | succ c ih =>
    have hp : 0 < 2 ^ (w * n) := by positivity
    rw [packNat_succ, bitsOf]
    rcases Nat.lt_succ_iff_lt_or_eq.mp h with hn | rfl
    · obtain ⟨k, rfl⟩ := Nat.exists_eq_add_of_lt hn
      have hs : g (n + k + 1) % 2 ^ w * 2 ^ (w * (n + k + 1)) = 2 ^ (w * n) * (2 ^ w * (g (n + k + 1) % 2 ^ w * 2 ^ (w * k))) := by
        rw [show w * (n + k + 1) = w * n + (w + w * k) by ring, pow_add, pow_add]; ring
      rw [hs, Nat.add_mul_div_left _ _ hp, Nat.add_mul_mod_self_left]
      exact ih hn
    · rw [Nat.add_mul_div_right _ _ hp, Nat.div_eq_of_lt (packNat_lt w g n), Nat.zero_add, Nat.mod_mod]

theorem toNat_packElems {w c : Nat} (g : Nat → Nat) (h : w * c ≤ 64) : (packElems w c g).toNat = packNat w c g := by
  have := (packNat_lt w g c).trans_le (Nat.pow_le_pow_right (by decide) h)
  exact Nat.mod_eq_of_lt this

theorem elemOf_packElems {w c n : Nat} (g : Nat → Nat) (h : w * c ≤ 64) (hn : n < c) :
    elemOf (packElems w c g) w n = g n % 2 ^ w := by
  rw [elemOf, wb, toNat_packElems g h, bitsOf_packNat w g hn]

theorem elemOf_lane32 (sgn : Bool) (x : Nat) : elemOf (lane32 sgn x) 32 0 = x % 2 ^ 32 := by
  have hlow : (lane32 sgn x).setWidth 32 = BitVec.ofNat 32 x := by
    cases sgn
    · simp [lane32]
    · refine BitVec.eq_of_getLsbD_eq fun i hi => ?_
      simp only [lane32, if_true, BitVec.getLsbD_setWidth, BitVec.getLsbD_signExtend, hi, show i < 64 by omega,
        decide_true, Bool.true_and]
  simpa [elemOf, wb, bitsOf] using congrArg BitVec.toNat hlow

/-- Each position of a lane holds the low bits of its number. -/
theorem elemOf_laneFrom {sgn : Bool} {w c n : Nat} (g : Nat → Nat) (h : w * c ≤ 64) (hn : n < c) :
    elemOf (laneFrom sgn w c g) w n = g n % 2 ^ w := by
  unfold laneFrom
  split
  · rename_i hw
    obtain ⟨rfl, rfl⟩ := hw
    obtain rfl : n = 0 := by omega
    exact elemOf_lane32 sgn _
  · exact elemOf_packElems g h hn

theorem wrapInt_lt (w : Nat) (z : Int) : wrapInt w z < 2 ^ w := by
  have hp : (0 : Int) < (2 ^ w : Nat) := by positivity
  have := Int.emod_lt_of_pos z hp
  have := Int.emod_nonneg z hp.ne'
  unfold wrapInt
  omega

theorem tyWidth_mul_tyCount_le (t : IntTy) : tyWidth t * tyCount t ≤ 64 := by cases t <;> decide

theorem tyWidth_of_tyCount_one {t : IntTy} (h : tyCount t = 1) : tyWidth t = 32 ∨ tyWidth t = 64 := by
  cases t <;> simp_all [tyCount, tyWidth]

/-- A number of w bits, extended to the lane by the sign of its type. -/
def extended (sgn : Bool) (w x : Nat) : Nat :=
  if sgn = true ∧ readInt sgn w x < 0 then (2 ^ 64 + readInt sgn w x).toNat else (readInt sgn w x).toNat

theorem toNat_lane32 (sgn : Bool) (x : Nat) (h : x < 2 ^ 32) : (lane32 sgn x).toNat = extended sgn 32 x := by
  cases sgn
  · simp [lane32, extended, readInt]; omega
  · have hm : (BitVec.ofNat 32 x).msb = decide (2 ^ 31 ≤ x) := by rw [BitVec.msb_eq_decide]; simp; omega
    simp only [lane32, if_true, BitVec.toNat_signExtend, hm, extended, readInt, toSigned]
    by_cases hx : x < 2 ^ 31
    · have hn : ¬((x : Int) < 0) := by omega
      simp [show x < 2147483648 from hx, hn, show ¬ 2147483648 ≤ x by omega]; omega
    · have hn : (x : Int) - 4294967296 < 0 := by omega
      simp [show ¬ x < 2147483648 from hx, hn, show 2147483648 ≤ x by omega]; omega

theorem extended_64 (sgn : Bool) (x : Nat) (h : x < 2 ^ 64) : extended sgn 64 x = x := by
  cases sgn
  · simp [extended, readInt]
  · simp only [extended, readInt, toSigned, if_true, true_and]
    split <;> split <;> omega

/-- Settles O2: a lane's positions are the narrowed results, and a single result is extended to the lane. -/
theorem integerElements : Obligations.IntegerElements := by
  intro t sat f p q r n hn w e z
  have hlane : elemOf (intLane t sat f p q r) w n = narrow (tySigned t) sat w z := by
    rw [intLane, elemOf_laneFrom _ (tyWidth_mul_tyCount_le t) hn]
    exact Nat.mod_eq_of_lt (wrapInt_lt _ _)
  refine ⟨congrArg (readInt _ w) hlane, fun h1 => ?_⟩
  obtain rfl : n = 0 := by omega
  have he : e (intLane t sat f p q r) = readInt (tySigned t) w (narrow (tySigned t) sat w z) := congrArg (readInt _ w) hlane
  have hz : narrow (tySigned t) sat w z < 2 ^ w := wrapInt_lt _ _
  rw [he]
  change _ = extended (tySigned t) w _
  rcases tyWidth_of_tyCount_one h1 with hw | hw
  · have hx : intLane t sat f p q r = lane32 (tySigned t) (narrow (tySigned t) sat w z) := if_pos ⟨hw, h1⟩
    rw [hx, toNat_lane32 _ _ (hw ▸ hz)]
    exact congrArg (extended _ · _) hw.symm
  · have hx : (intLane t sat f p q r).toNat = narrow (tySigned t) sat w z := by
      rw [← hlane, show w = 64 from hw]
      simp [elemOf, wb, bitsOf, Nat.mod_eq_of_lt (BitVec.isLt _)]
    rw [hx, show w = 64 from hw, extended_64 _ _ (hw ▸ hz)]

/-! ## Words that compute each lane of d -/

/-- Settles O1: each word is an ALU word on its exact function; neg and abs of an unsigned type stop at the word. -/
theorem integerArithmetic : Obligations.IntegerArithmetic := by
  refine ⟨fun x ch t d a b => ?_, fun x ch t d a s gi vi v hr ht => ?_⟩
  · refine ⟨aluDone_of_exec rfl fun _ => rfl, aluDone_of_exec rfl fun _ => rfl, aluDone_of_exec rfl fun _ => rfl,
      aluDone_of_exec rfl fun _ => rfl, aluDone_of_exec rfl fun _ => rfl, aluDone_of_exec rfl fun _ => rfl,
      aluDone_of_exec rfl fun _ => rfl, aluDone_of_exec rfl fun _ => rfl, aluDone_of_exec rfl fun _ => rfl,
      fun ht => aluDone_of_exec rfl fun _ => if_pos ht, fun ht => aluDone_of_exec rfl fun _ => if_pos ht,
      fun ht => aluDone_of_exec rfl fun _ => if_pos ht, fun ht => aluDone_of_exec rfl fun _ => if_neg ht⟩
  · have hn : ¬tySigned t = true := by simp [ht]
    constructor
    · exact (if_neg hn).trans (issue_cause hr rfl)
    · exact (if_neg hn).trans (issue_cause hr rfl)

/-- Settles O7: each word is an ALU word on its own function of the low bits. -/
theorem bitwiseWords : Obligations.BitwiseWords := by
  intro x ch w d a b n run run1
  exact ⟨aluDone_of_exec rfl fun _ => rfl, aluDone_of_exec rfl fun _ => rfl, aluDone_of_exec rfl fun _ => rfl,
    aluDone_of_exec rfl fun _ => rfl, aluDone_of_exec rfl fun _ => rfl, aluDone_of_exec rfl fun _ => rfl,
    aluDone_of_exec rfl fun _ => rfl, aluDone_of_exec rfl fun _ => rfl, aluDone_of_exec rfl fun _ => rfl,
    aluDone_of_exec rfl fun _ => rfl, aluDone_of_exec rfl fun _ => rfl, aluDone_of_exec rfl fun _ => rfl,
    aluDone_of_exec rfl fun _ => rfl, aluDone_of_exec rfl fun _ => rfl, aluDone_of_exec rfl fun _ => rfl,
    aluDone_of_exec rfl fun _ => rfl⟩

/-- Settles O8: the field and immediate words are ALU words; xset reads its source and writes its index register's lanes. -/
theorem fieldsAndImmediates : Obligations.FieldsAndImmediates := by
  constructor
  · intro x ch t d a b i w run
    exact ⟨aluDone_of_exec rfl fun _ => rfl, aluDone_of_exec rfl fun _ => rfl, aluDone_of_exec rfl fun _ => rfl,
      aluDone_of_exec rfl fun _ => rfl, aluDone_of_exec rfl fun _ => rfl, aluDone_of_exec rfl fun _ => rfl,
      aluDone_of_exec rfl fun _ => rfl⟩
  · intro x ch n a i s gi vi v hr c h1 h2 m1 va hs
    refine issue_done hr ?_
    simp only [c] at h1 h2 hs
    simp only [h1, h2, hs, Bool.and_self, Bool.not_true, Bool.false_eq_true, if_false]
    rfl

/-! ## Selection -/

theorem exec_sel (x : Pre) (ch : Bool) (t : IntTy) (d a b : BitVec 7) (s : State) :
    exec (.sel x ch t d a b) s = execSel x ch t d a b s := by
  rfl

/-- Settles O4: the body of `sel` is an ALU word's under the prefix without its predicate. -/
theorem select : Obligations.Select := by
  intro x ch t d a b s gi vi v hr pn y c0 c
  have hsel : selPred x = (pn, y) := by cases x <;> rfl
  rw [exec_sel, execSel, hsel]
  constructor
  · exact fun hp => issue_cause hr (if_pos hp)
  · intro hp h1 h2 m1 va vb vc m2 hs hw
    refine issue_done hr ((if_neg (by simpa using hp)).trans ?_)
    refine (aluBody_done (u := intUse t false false) rfl h1 h2 hs rfl (m2 := m2) (by rw [List.map_map]; exact hw)).trans ?_
    exact congrArg Eff.ok (if_pos (excAll_map_zero fun _ _ => rfl))

end Sys2Proof.Proofs
end

section
/-!
PROOFS. Shuffles, matches, reductions and scans; votes, predicate logic and moves (02 R58, R68, R69, R71 to R74).
-/

namespace Sys2Proof.Proofs

open Sys2Proof.Machine Sys2Proof.Claims

/-- A check that passes lets the word go on. -/
theorem ite_checked {α : Type} {b : Bool} (h : b = true) (x y : α) : (if !b then x else y) = y := by rw [h]; rfl

/-! ## Masks -/

theorem mem_lanesOf (m : Mask) (l : Nat) : l ∈ lanesOf m ↔ m.getLsbD l = true := by
  simp only [lanesOf, List.mem_filter, List.mem_range, and_iff_right_iff_imp]
  exact fun h => BitVec.lt_of_getLsbD h

theorem getLsbD_maskOf (ls : List Nat) (l : Nat) : (maskOf ls).getLsbD l = (decide (l < 64) && decide (l ∈ ls)) := by
  have key : ∀ (ks : List Nat) (m : Mask), (ks.foldl (fun m l => m ||| (1#64 <<< l)) m).getLsbD l =
      (m.getLsbD l || decide (l < 64) && decide (l ∈ ks)) := by
    intro ks
    induction ks with
    | nil => simp
    | cons k ks ih =>
      intro m
      have hbit : (1#64 <<< k).getLsbD l = (decide (k < 64) && decide (k = l)) := BitVec.getLsbD_twoPow k l
      rw [List.foldl_cons, ih, BitVec.getLsbD_or, hbit]
      by_cases hk : k = l
      · by_cases hl : l < 64 <;> simp [hk, hl]
      · simp [hk, Ne.symm hk]
  simpa [maskOf] using key ls 0

theorem getLsbD_fullMask_64 {l : Nat} (h : l < 64) : (fullMask 64).getLsbD l = true := by
  have hm : fullMask 64 = BitVec.allOnes 64 := by decide
  rw [hm, BitVec.getLsbD_allOnes]
  exact decide_eq_true h

/-! ## What a word does once its checks have passed -/

theorem shflWord_done {s : State} {gi vi : Nat} {v : Voice} {x : Pre} {ch : Bool} {t : WTy} {d a b : Nat} {src : Nat → Nat → Nat → Nat}
    (hr : Ready s gi vi v (destClass x .xfu d)) {c : Cx} (hc : c = cxOf s gi vi v false x) (h1 : c.preOk Use.dab = true)
    (h2 : c.fieldsOk Use.dab d a b = true) {m1 m2 : Mach} {va vb vc : Nat → Word}
    (hs : c.sources s.m Use.dab a b = .ok (m1, va, vb, vc))
    (hw : c.write m1 d (c.lanes.map fun l => (l, laneFrom (wtSigned t) (wtWidth t) 1 fun _ =>
      elemOf (c.anyLane m1 1 va (src c.g.width l (wb (vb l) 0 6) % c.g.width)) (wtWidth t) (wb (vb l) 6 3 % (64 / wtWidth t)))) = .ok m2) :
    shflWord x ch t d a b src s = .next (doneState s gi vi v (destClass x .xfu d) x ch m2) := by
  subst hc
  refine issue_done hr ?_
  simp only [h1, h2, hs, Bool.and_self, ite_checked]
  exact hw

theorem lredWord_done {s : State} {gi vi : Nat} {v : Voice} {x : Pre} {ch : Bool} {t : WTy} {d a op : Nat}
    (hr : Ready s gi vi v (destClass x .xfu d)) {c : Cx} (hc : c = cxOf s gi vi v false x) (h1 : c.preOk Use.da = true)
    (h2 : c.dstOk d = true) (h3 : c.srcOk 1 a = true) {m1 m2 : Mach} {va : Nat → Word} (hs : c.read s.m 1 a = .ok (m1, va))
    (hw : c.write m1 d (match combineAll op t va c.lanes with
      | none => []
      | some r => c.lanes.map fun l => (l, laneFrom (wtSigned t) (wtWidth t) 1 fun _ => r)) = .ok m2) :
    lredWord x ch t d a op s = .next (doneState s gi vi v (destClass x .xfu d) x ch m2) := by
  subst hc
  refine issue_done hr ?_
  simp only [h1, h2, h3, hs, Bool.and_self, ite_checked]
  cases hop : combineAll op t va (cxOf s gi vi v false x).lanes <;> simpa only [hop, Cx.all] using hw

theorem lscanWord_done {s : State} {gi vi : Nat} {v : Voice} {x : Pre} {ch : Bool} {t : WTy} {d a op : Nat}
    (hr : Ready s gi vi v (destClass x .xfu d)) {c : Cx} (hc : c = cxOf s gi vi v false x) (h1 : c.preOk Use.da = true)
    (h2 : c.dstOk d = true) (h3 : c.srcOk 1 a = true) (h4 : c.oneDest d = false) {m1 m2 : Mach} {va : Nat → Word}
    (hs : c.read s.m 1 a = .ok (m1, va))
    (hw : c.write m1 d (c.lanes.map fun l => (l, laneFrom (wtSigned t) (wtWidth t) 1 fun _ =>
      (combineAll op t va (c.lanes.filter fun j => j ≤ l)).getD 0)) = .ok m2) :
    lscanWord x ch t d a op s = .next (doneState s gi vi v (destClass x .xfu d) x ch m2) := by
  subst hc
  refine issue_done hr ?_
  simp only [h1, h2, h3, h4, hs, Bool.and_self, Bool.not_false, ite_checked]
  exact hw

/-- Settles O9: shuffles, a match, reductions and scans write what their rule gives once their checks have passed. -/
theorem crossLaneWords : Obligations.CrossLaneWords := by
  constructor
  · intro x ch t d a b run
    have shfl : ∀ (i : Instr) (src), (∀ s, exec i s = shflWord x ch t d.toNat a.toNat b.toNat src s) → run i src := by
      intro i src he s gi vi v hr c h1 h2 m1 va vb vc m2 hs hw
      exact (he s).trans (shflWord_done hr rfl h1 h2 hs hw)
    exact ⟨shfl (.shflIdx x ch t d a b) (fun _ _ n => n) fun _ => rfl,
      shfl (.shflUp x ch t d a b) (fun w l n => l + w * 8 - n) fun _ => rfl,
      shfl (.shflDown x ch t d a b) (fun _ l n => l + n) fun _ => rfl,
      shfl (.shflXor x ch t d a b) (fun _ l n => l ^^^ n) fun _ => rfl⟩
  · intro x ch t d a k s gi vi v hr c m1 va hs h1 put red scan
    constructor
    · intro h2 hk m2 hw
      refine issue_done hr ?_
      subst c
      have hk' : (k.toNat = 0 || (k.toNat ≤ 3 && t = .n32) : Bool) = true := by simpa using hk
      simp only [h1, h2, hk', hs, Bool.and_self, ite_checked]
      exact hw
    · intro hd ha
      have lred : ∀ {i : Instr} {op}, exec i s = lredWord x ch t d.toNat a.toNat op s → put i (red op) :=
        fun he m2 hw => he.trans (lredWord_done hr rfl h1 hd ha hs hw)
      refine ⟨lred rfl, lred rfl, lred rfl, lred rfl, lred rfl, lred rfl, fun hq => ?_⟩
      have lscan : ∀ {i : Instr} {op}, exec i s = lscanWord x ch t d.toNat a.toNat op s → put i (scan op) :=
        fun he m2 hw => he.trans (lscanWord_done hr rfl h1 hd ha hq hs hw)
      exact ⟨lscan rfl, lscan rfl⟩

/-! ## Predicates -/

theorem getLsbD_predVal (c : Cx) (n : Nat) {l : Nat} (h : l < 64) :
    (c.predVal n).getLsbD l = (n = 7 || (Tbl.get 0 c.g.p n).getLsbD l) := by
  unfold Cx.predVal
  split
  · rename_i hn; simp [hn, getLsbD_fullMask_64 h]
  · rename_i hn; simp [hn]

theorem writePred_discards (c : Cx) (m : Mach) {p : Nat} (f : Nat → Bool) (h : 7 ≤ p) : c.writePred m p f = m := if_pos h

/-- What a predicate write makes of the group's predicates. -/
theorem preds_writePred {c : Cx} {m : Mach} {p : Nat} (f : Nat → Bool) (hg : c.gi < m.groups.length) (h : p < 7) :
    ((c.writePred m p f).grp c.gi).p = Tbl.set 0 (m.grp c.gi).p p
      ((Tbl.get 0 (m.grp c.gi).p p &&& ~~~c.act) ||| maskOf (c.lanes.filter f)) := by
  unfold Cx.writePred
  rw [if_neg (by omega : ¬p ≥ 7), Mach.grp_setGrp_same _ hg]

theorem pred_writePred_same {c : Cx} {m : Mach} {p : Nat} (f : Nat → Bool) (hg : c.gi < m.groups.length) (h : p < 7) {l : Nat}
    (hl : l < 64) : (Tbl.get 0 ((c.writePred m p f).grp c.gi).p p).getLsbD l =
      if c.act.getLsbD l then f l else (Tbl.get 0 (m.grp c.gi).p p).getLsbD l := by
  rw [preds_writePred f hg h, Tbl.get_set_same, BitVec.getLsbD_or, BitVec.getLsbD_and, BitVec.getLsbD_not, getLsbD_maskOf]
  simp only [hl, List.mem_filter, Cx.lanes, mem_lanesOf]
  cases c.act.getLsbD l <;> simp

theorem pred_writePred_other {c : Cx} {m : Mach} {p n : Nat} (f : Nat → Bool) (hg : c.gi < m.groups.length) (hn : n ≠ p) :
    Tbl.get 0 ((c.writePred m p f).grp c.gi).p n = Tbl.get 0 (m.grp c.gi).p n := by
  by_cases h : p < 7
  · rw [preds_writePred f hg h, Tbl.get_set_other _ _ hn]
  · rw [writePred_discards c m f (by omega)]

/-- Settles O10: each word writes its predicate or its register once its checks have passed, and a predicate write changes the
active lanes of its predicate alone. -/
theorem predicateWords : Obligations.PredicateWords := by
  constructor
  · intro x ch p q r t d s gi vi v c bit u
    subst c u
    refine ⟨fun hr h1 => ⟨issue_done hr (ite_checked h1 _ _), issue_done hr (ite_checked h1 _ _)⟩,
      fun hr h1 => issue_done hr (ite_checked h1 _ _), fun hr h1 h2 m2 hw => issue_done hr ?_, fun hr h1 h2 m2 hw => issue_done hr ?_,
      fun hr h1 h2 m1 va hs => issue_done hr ?_, fun l hl => getLsbD_predVal _ _ hl⟩
    · exact (ite_checked (by rw [h1, h2]; rfl) _ _).trans hw
    · refine (ite_checked (by rw [h1, h2]; rfl) _ _).trans ?_
      by_cases hd : (cxOf s gi vi v false x).oneDest d.toNat = true
      · simpa only [hd, if_true, Cx.all] using hw
      · simpa only [hd, if_false, Bool.false_eq_true] using hw
    · refine (ite_checked (by rw [h1, h2]; rfl) _ _).trans ?_
      rw [hs]
  · intro s gi vi v x m p f hg c old new
    exact ⟨fun hp l hl => pred_writePred_same f hg hp hl, fun n hn => pred_writePred_other f hg hn,
      fun hp => writePred_discards c m f hp⟩

end Sys2Proof.Proofs
end

section
/-!
PROOFS. Transfers, hints, special registers, sympathetic words, brk, sys and trap (02 R75 to R93, 05 R144, R145).
-/

namespace Sys2Proof.Proofs

open Sys2Proof.Machine Sys2Proof.Claims

/-! ## Transfers -/

theorem mem_insertBy {α : Type} (lt : α → α → Bool) (x a : α) (ys : List α) : a ∈ insertBy lt x ys ↔ a = x ∨ a ∈ ys := by
  induction ys with
  | nil => simp [insertBy]
  | cons y ys ih =>
    unfold insertBy
    split
    · simp
    · rw [List.mem_cons, ih, List.mem_cons]; tauto

theorem mem_sortBy {α : Type} (lt : α → α → Bool) (a : α) (xs : List α) : a ∈ sortBy lt xs ↔ a ∈ xs := by
  induction xs with
  | nil => rfl
  | cons x xs ih => rw [sortBy, mem_insertBy, ih, List.mem_cons]

/-- Where a transfer to some taken destinations sends each lane of its voice. -/
def transferDests (c : Cx) (taken : List (Nat × Nat)) : List (Nat × Option Nat) :=
  (lanesOf c.vmask).map fun l => (l, some (((taken.find? fun t => t.1 = l).map Prod.snd).getD (fallThrough c.voice)))

/-- A transfer whose destinations are all heads, or cannot be examined, sends its lanes (02 R76). -/
theorem transfer_heads {c : Cx} {taken : List (Nat × Nat)} (m : Mach)
    (h : ∀ t ∈ taken, examine c.base (whoGroup c.base c.gi) t.2 ≠ some false) :
    c.transfer m taken = .xfer (transferDests c taken) m := by
  have hnone : ((sortBy (fun a b : Nat => a < b) (taken.map Prod.snd)).dedup.find? fun p =>
      examine c.base (whoGroup c.base c.gi) p = some false) = none := by
    refine List.find?_eq_none.mpr fun p hp => ?_
    rw [List.mem_dedup, mem_sortBy, List.mem_map] at hp
    obtain ⟨t, ht, rfl⟩ := hp
    simpa using h t ht
  unfold Cx.transfer
  dsimp only
  rw [hnone]
  rfl

theorem find?_map_dest (ls : List Nat) (q l after : Nat) :
    (((ls.map fun k => (k, q)).find? fun t => t.1 = l).map Prod.snd).getD after = if l ∈ ls then q else after := by
  by_cases h : l ∈ ls
  · rw [find?_map_key (fun _ => q) h, if_pos h]; rfl
  · have hn : ((ls.map fun k => (k, q)).find? fun t => t.1 = l) = none := by
      refine List.find?_eq_none.mpr fun t ht => ?_
      obtain ⟨k, hk, rfl⟩ := List.mem_map.mp ht
      simpa using fun e : k = l => h (e ▸ hk)
    rw [hn, if_neg h]; rfl

/-- A transfer of some lanes to one packet that is no head (02 R76). -/
theorem transfer_notHead {c : Cx} {ls : List Nat} {q : Nat} (m : Mach) (hne : ls ≠ [])
    (h : examine c.base (whoGroup c.base c.gi) q = some false) :
    c.transfer m (ls.map fun l => (l, q)) = c.raise .badTarget (BitVec.ofNat 64 (12 * q))
      (maskOf ((lanesOf c.vmask).filter fun l => ls.contains l || fallThrough c.voice = q)) := by
  have hall : ∀ p ∈ (sortBy (fun a b : Nat => a < b) ((ls.map fun l => (l, q)).map Prod.snd)).dedup, p = q := fun p hp => by
    rw [List.mem_dedup, mem_sortBy, List.map_map] at hp
    obtain ⟨_, _, rfl⟩ := List.mem_map.mp hp
    rfl
  have hmem : q ∈ (sortBy (fun a b : Nat => a < b) ((ls.map fun l => (l, q)).map Prod.snd)).dedup := by
    simpa [List.mem_dedup, mem_sortBy] using List.exists_mem_of_ne_nil ls hne
  have hfind : ((sortBy (fun a b : Nat => a < b) ((ls.map fun l => (l, q)).map Prod.snd)).dedup.find? fun p =>
      examine c.base (whoGroup c.base c.gi) p = some false) = some q := by
    obtain ⟨p, hp⟩ := Option.isSome_iff_exists.mp 
      (List.find?_isSome (p := fun p => decide (examine c.base (whoGroup c.base c.gi) p = some false)).mpr ⟨q, hmem, decide_eq_true h⟩)
    rw [hp, hall p (List.mem_of_find?_eq_some hp)]
  unfold Cx.transfer
  dsimp only
  rw [hfind]
  refine congrArg (fun ks => c.raise .badTarget (BitVec.ofNat 64 (12 * q)) (maskOf ks)) (List.filter_congr fun l _ => ?_)
  simp only [find?_map_dest]
  by_cases hl : l ∈ ls <;> simp [hl]

/-- Settles O11: a transfer goes where its lanes name a head, and its causes come before it writes anything. -/
theorem transfersTaken : Obligations.TransfersTaken := by
  refine ⟨?_, ?_, ?_⟩
  · intro x n p o s gi vi v hr hl c cx dst taken after goes isHead
    have heads : taken = [] ∨ isHead dst.toNat → ∀ t ∈ taken.map fun l => (l, dst.toNat), isHead t.2 := by
      rintro h t ht
      obtain ⟨l, hl, rfl⟩ := List.mem_map.mp ht
      exact h.resolve_left (List.ne_nil_of_mem hl)
    refine ⟨fun h => issue_xfer hr hl (transfer_heads _ (heads h)), fun h hdepth => issue_xfer hr hl ?_, fun h1 hstack => issue_xfer hr hl ?_,
      fun h1 => issue_xfer hr hl (ite_checked h1 _ _)⟩
    · have hfull : (taken.filter fun l => (Tbl.get [] c.g.ret l).length ≥ 8) = [] :=
        List.filter_eq_nil_iff.mpr fun l hm => by simpa using hdepth l hm
      exact (if_neg (not_not_intro hfull)).trans (transfer_heads _ (heads h))
    · have hempty : (cx.lanes.filter fun l => (Tbl.get [] cx.g.ret l).isEmpty) = [] := by
        refine List.filter_eq_nil_iff.mpr fun l hm => ?_
        obtain ⟨q, r, hq, _⟩ := hstack l hm
        simp [hq]
      refine (ite_checked h1 _ _).trans ((if_neg (not_not_intro hempty)).trans (transfer_heads _ fun t ht => ?_))
      obtain ⟨l, hm, rfl⟩ := List.mem_map.mp ht
      obtain ⟨q, r, hq, hh⟩ := hstack l hm
      have hhead : (Tbl.get [] (cxOf s gi vi v true x).g.ret l).headD 0 = q := congrArg (List.headD · 0) hq
      exact hhead ▸ hh
  · intro x n a b s gi vi v hr hl c u h1 h2 hS hsym hidx m1 va vb vc hs bad
    have hok : (c.preOk u && c.fieldsOk u 0 a.toNat b.toNat && (opdOf c.pre 2 b.toNat).isS && (c.pre.symp 2).isNone &&
        (c.pre.indexed 2).isNone) = true := by
      have hS' : (opdOf c.pre 2 b.toNat).isS = true := hS
      have hsym' : c.pre.symp 2 = none := hsym
      have hidx' : c.pre.indexed 2 = none := hidx
      rw [h1, h2, hS', hsym', hidx']; rfl
    constructor
    · intro hb
      refine issue_xfer_cause hr hl ((ite_checked hok _ _).trans ?_)
      simp only [c, u] at hs
      simp only [hs]
      exact if_pos hb
    · intro hb ls hls hpo m2 dst hd
      refine issue_xfer hr hl ((ite_checked hok _ _).trans ?_)
      simp only [c, u] at hs hls
      simp only [hs]
      refine (if_neg (not_not_intro hb)).trans ?_
      simp only [show whoGroup (cxOf s gi vi v true x).base (cxOf s gi vi v true x).gi = whoGroup c.base gi from rfl, c, hls, hpo]
      exact transfer_heads _ hd
  · intro x n p o s gi vi v hr hl c cx dst taken full none'
    refine ⟨fun hne hbad => issue_xfer_cause hr hl (transfer_notHead _ hne hbad), fun hf => issue_xfer_cause hr hl (if_pos hf),
      fun h1 hn => issue_xfer_cause hr hl ((ite_checked h1 _ _).trans (if_pos hn))⟩

/-! ## Hints and yield -/

/-- Settles O12: a hint's prefix is checked, and it changes nothing; yield marks its own voice alone. -/
theorem hintsAndYield : Obligations.HintsAndYield := by
  constructor
  · intro x ch h d a b e k s gi vi v hr quiet t
    constructor
    · intro hq
      have hok : ((cxOf s gi vi v false x).kind0 false || (cxOf s gi vi v false x).kind1 none none none false) = true := by
        cases x <;> simp_all [quiet, Cx.kind0, Cx.kind1, cxOf, Pre.ext]
      have hokP : ((cxOf s gi vi v false x).kind0 false || (cxOf s gi vi v false x).kind1 none (some a.toNat) (some b.toNat) false) = true := by
        cases x <;> simp_all [quiet, Cx.kind0, Cx.kind1, cxOf, Pre.ext]
      exact ⟨issue_done hr (if_pos hok), issue_done hr (if_pos hokP), issue_done hr (if_pos hok), issue_done hr (if_pos hok)⟩
    · rintro n g ax bx rfl ha hb
      refine issue_done hr (if_pos ?_)
      have scalar : ∀ (pos code : Nat), 0x70 ≤ code → (opdOf (.k1 n g 0 0 ax bx 0 false) pos code).isS = true := fun pos code hc => by
        simp only [opdOf]
        rw [if_neg (by omega), if_neg (by omega), if_neg (by omega)]
        rfl
      have fits : ∀ (y : BitVec 2) (pos code : Nat), (y = 0 ∨ 0x70 ≤ code) →
          (decide (y.toNat = 0) || (opdOf (.k1 n g 0 0 ax bx 0 false) pos code).isS) = true := by
        rintro y pos code (rfl | hc)
        · rfl
        · rw [scalar pos code hc, Bool.or_true]
      simp only [Cx.kind0, Cx.kind1, cxOf, Pre.ext]
      rw [fits ax 1 _ ha, fits bx 2 _ hb]
      rfl
  · intro x ch s gi vi v w hr c h1 hw
    refine issue_done hr ((ite_checked h1 _ _).trans ?_)
    subst c
    simp only [show voiceAt s.m (cxOf s gi vi v false x).gi (cxOf s gi vi v false x).vi = some w from hw]
    split <;> rfl

/-! ## Special registers -/

/-- TIME alone is read from the moment, and never whether a register is in the table. -/
theorem specVal_isNone_time (m : Mach) (g : Group) (n l t : Nat) :
    (specVal { m with time := t } g n l).isNone = (specVal m g n l).isNone := by
  unfold specVal
  split <;> rfl

/-- Settles O13: a legal `srd` writes each lane's value of the table; the others stop before they write. -/
theorem specialRegisterReads : Obligations.SpecialRegisterReads := by
  intro x ch d i s gi vi v hr c g t value each
  have hval : ∀ l, specVal { c.base with time := s.m.time } c.g i.toNat l = value l := fun l => rfl
  have hnone : (specVal c.base c.g i.toNat 0).isNone = (value 0).isNone := by
    rw [← hval]; exact (specVal_isNone_time _ _ _ _ _).symm
  have heach : perLane i.toNat = true ↔ each := by simp [perLane, each]
  constructor
  · intro h1 h2 h3 h4 h5 m2 hw
    have hq : (perLane i.toNat && c.oneDest d.toNat) = false := by
      cases hp : perLane i.toNat
      · rfl
      · exact h4 (heach.mp hp)
    have hf : ((decide (i.toNat = 8) || decide (i.toNat = 9)) && c.floatBusy) = false := by
      by_cases h89 : i.toNat = 8 ∨ i.toNat = 9
      · simp [h5 h89]
      · simp_all
    have hok : (!c.kind0 false || !c.dstOk d.toNat || (specVal c.base c.g i.toNat 0).isNone || (perLane i.toNat && c.oneDest d.toNat)) = false := by
      rw [h1, h2, hnone, hq, Option.isNone_eq_false_iff.mpr (Option.isSome_iff_ne_none.mpr h3)]; rfl
    refine issue_done hr ((if_neg (Bool.eq_false_iff.mp hok)).trans ((if_neg (Bool.eq_false_iff.mp hf)).trans ?_))
    exact hw
  · intro hbad
    refine issue_cause hr (if_pos ?_)
    change (!c.kind0 false || !c.dstOk d.toNat || (specVal c.base c.g i.toNat 0).isNone || (perLane i.toNat && c.oneDest d.toNat)) = true
    rcases hbad with h | h | ⟨h, h'⟩
    · simp [h]
    · simp [hnone, h]
    · simp [heach.mpr h, h']

/-- Settles O14: a legal write puts the value into its register; the others stop before they read. -/
theorem specialRegisterWrites : Obligations.SpecialRegisterWrites := by
  refine ⟨?_, ?_, ?_⟩
  · intro x ch a s gi vi v hr c h1 h2 h3 hact m1 va l ls hs hl put
    subst c
    have h2' : (opdOf (cxOf s gi vi v false x).pre 1 a.toNat).uniform = true := h2
    refine ⟨fun hf => issue_done hr ?_, fun hf => issue_done hr ?_, fun hp => issue_done hr ?_, fun hp => issue_cause hr ?_⟩
    · simp [h1, h2', h3, hs, hl, hf]; rfl
    · simp [h1, h2', h3, hs, hl, hf]; rfl
    · simp [h1, h2', h3, hs, hl, hp]; rfl
    · have hact' : (cxOf s gi vi v false x).act ≠ 0#64 := hact
      simp [h1, h2', h3, hact', hp]
  · intro x ch a i s gi vi v hr h
    refine issue_cause hr (if_pos ?_)
    have hx : opdOf (cxOf s gi vi v false x).pre 1 a.toNat = opdOf x 1 a.toNat := rfl
    rcases h with ⟨h8, h9, h16⟩ | h
    · simp [h8, h9, h16]
    · simp [hx, h]
  · intro x ch d a b s gi vi v hr c legal
    have hlegal : (c.preOk Use.dab && c.fieldsOk Use.dab d.toNat a.toNat b.toNat && (c.pre.indexed 0).isNone &&
        (opdOf c.pre 0 d.toNat).isS) = true ↔ legal := by
      simp only [Bool.and_eq_true, Option.isNone_iff_eq_none, and_assoc]
      exact Iff.rfl
    constructor
    · intro h hf m1 va vb vc l ls m2 hs hl hw
      refine issue_done hr ((ite_checked (hlegal.mpr h) _ _).trans ((if_neg (Bool.eq_false_iff.mp hf)).trans ?_))
      subst c
      simp only [Cx.all, hs, hl] at hw ⊢
      simp only [hw]
      rfl
    · intro h
      refine issue_cause hr (if_pos ?_)
      exact Bool.not_eq_true' _ ▸ Bool.eq_false_iff.mpr (mt hlegal.mp h)

/-! ## Sympathetic streams -/

@[simp] theorem streamOf_setStream_same (g : Grid) (i r : Nat) (st : Stream) : streamOf (setStream g i r st) i r = st :=
  Tbl.get_set_same _ _ _ _

theorem streamOf_setStream_other (g : Grid) {i r j k : Nat} (st : Stream) (h : 128 * j + k ≠ 128 * i + r) :
    streamOf (setStream g i r st) j k = streamOf g j k :=
  Tbl.get_set_other _ _ h _

/-- A fold of steps that each go on goes on. -/
theorem foldl_bind_some {α β : Type} (f : β → α → β) (as : List α) (b : β) :
    as.foldl (fun o a => o.bind fun y => some (f y a)) (some b) = some (as.foldl f b) := by
  induction as generalizing b with
  | nil => rfl
  | cons a as ih => exact ih _

/-- The sympathetic words check their register, read it, and go through the active lanes. -/
theorem symWord_legal {s : State} {gi vi : Nat} {v : Voice} (hr : Ready s gi vi v .mem) {x : Pre} {ch : Bool} {a : Nat}
    {f : Cx → Grid → Nat → Word → Option Grid} {c : Cx} (hc : c = cxOf s gi vi v false x)
    (hk : (!c.kind0 false || decide (a ≥ c.g.nv) || !c.grid.hdr.ordered || compatG c.base c.g ||
      !(c.grid.hdr.syms.any fun y => y.1 = a)) = false) {m1 : Mach} {va : Nat → Word} (hs : c.read s.m 1 a = .ok (m1, va)) :
    (∀ gd, c.lanes.foldl (fun o l => o.bind fun y => f c y l (va l)) (some (m1.grid c.g.grid)) = some gd →
      symWord x ch a f s = .next (doneState s gi vi v .mem x ch (m1.setGrid c.g.grid gd))) ∧
    (c.lanes.foldl (fun o l => o.bind fun y => f c y l (va l)) (some (m1.grid c.g.grid)) = none →
      symWord x ch a f s = .next (stallState s gi vi v false x)) := by
  subst hc
  have hk' := Bool.eq_false_iff.mp hk
  constructor
  · intro gd hg
    refine issue_done hr ((if_neg hk').trans ?_)
    simp only [hs, hg]
  · intro hg
    refine issue_stall hr ((if_neg hk').trans ?_)
    simp only [hs, hg]

/-- Settles O15: a legal word goes through its lanes, each publishing or closing its stream; and what publishing one element does. -/
theorem sympatheticWords : Obligations.SympatheticWords := by
  constructor
  · intro x ch a s gi vi v hr c legal
    have hlegal : (!c.kind0 false || decide (a.toNat ≥ c.g.nv) || !c.grid.hdr.ordered || compatG c.base c.g ||
        !(c.grid.hdr.syms.any fun y => y.1 = a.toNat)) = false ↔ legal := by
      simp only [Bool.or_eq_false_iff, Bool.not_eq_false', decide_eq_false_iff_not, not_le, ge_iff_le, and_assoc]
      exact Iff.rfl
    constructor
    · intro h
      have hk := Bool.eq_true_of_not_eq_false (mt hlegal.mp h)
      exact ⟨issue_cause hr (if_pos hk), issue_cause hr (if_pos hk)⟩
    · intro h m1 va hs
      have hk := hlegal.mpr h
      obtain ⟨hgo, hwait⟩ := symWord_legal (ch := ch) (f := fun c gd l w => publish gd (itemOf c.base c.g l) a.toNat w) hr rfl hk hs
      refine ⟨hgo, hwait, ?_⟩
      exact (symWord_legal hr (f := fun c gd l w => some (let st := streamOf gd (itemOf c.base c.g l) a.toNat
        if st.closed.isSome then gd else setStream gd (itemOf c.base c.g l) a.toNat { st with closed := some w })) rfl hk hs).1 _
        (foldl_bind_some (fun y l => let st := streamOf y (itemOf c.base c.g l) a.toNat
          if st.closed.isSome then y else setStream y (itemOf c.base c.g l) a.toNat { st with closed := some (va l) }) _ _)
  · intro g item v w st
    refine ⟨fun h => if_pos (Option.isSome_iff_ne_none.mpr h), fun h hn => ?_, fun h hn hc => ?_, fun h hn hc => ?_⟩
    · refine ⟨setStream g item v { st with elems := st.elems ++ [w] }, by simp [publish, st, h, hn], ?_, ?_, fun i r hir =>
        streamOf_setStream_other _ _ hir⟩
      · rw [streamOf_setStream_same]
      · rw [streamOf_setStream_same]
    · refine ⟨setStream g item v { st with elems := st.elems.drop 1 ++ [w], released := st.released + 1 }, ?_, ?_, ?_⟩
      · simp [publish, st, h, Nat.not_lt.mpr hn, hc]
      · rw [streamOf_setStream_same]
      · rw [streamOf_setStream_same]
    · simp [publish, st, h, Nat.not_lt.mpr hn, hc]

/-! ## brk, sys and trap -/

/-- A word that completes and then raises a trap, last in its chain: the chain's pushes are performed, and then the trap. -/
theorem memberDone_late {s : State} {gi vi : Nat} {v u : Voice} {x : Pre} {cls : Pipe} {k : Nat} {t : Trap} {m : Mach}
    (hm : pushOut ((cxOf s gi vi v false x).settled s.m) gi = some m) (hu : voiceAt m gi vi = some u) :
    memberDone (cxOf s gi vi v false x) v (some cls) false (some (k, t)) none s.m s =
      { ended s (raiseTrap (issuedMach m gi vi u ((cxOf s gi vi v false x).bword + 1)) gi
          { voice := vi, first := (cxOf s gi vi v false x).first, after := (cxOf s gi vi v false x).bword + 1, member := k, bases := [],
            trap := t }) with pipes := s.used ++ [cls] } := by
  have hm' : pushOut ((cxOf s gi vi v false x).settled s.m) (cxOf s gi vi v false x).gi = some m := hm
  have hu' : voiceAt m (cxOf s gi vi v false x).gi (cxOf s gi vi v false x).vi = some u := hu
  simp only [memberDone, Bool.false_eq_true, if_false, hm', commit, hu']
  rfl

/-- The same inside a chain, which first goes on. -/
theorem memberDone_late_chain {s : State} {gi vi : Nat} {v : Voice} {x : Pre} {cls : Pipe} {k : Nat} {t : Trap}
    (hv : voiceAt s.m gi vi = some v) : memberDone (cxOf s gi vi v false x) v (some cls) true (some (k, t)) none s.m s =
      { s with
        m := setVoice s.m gi vi { v with word := (cxOf s gi vi v false x).bword + 1 }
        chain := some { base := s.base, used := s.used ++ [cls], first := (cxOf s gi vi v false x).first,
                        member := (cxOf s gi vi v false x).member + 1, late := some (k, t) } } := by
  have hv' : voiceAt s.m (cxOf s gi vi v false x).gi (cxOf s gi vi v false x).vi = some v := hv
  simp only [memberDone, if_true, hv']
  rfl

/-- A word whose effect comes after its chain. -/
theorem issue_late {s : State} {gi vi : Nat} {v : Voice} {cls : Pipe} (h : Ready s gi vi v cls) {x : Pre} {ch : Bool}
    {body : Cx → Mach → Eff} {t : Trap} (hb : body (cxOf s gi vi v false x) s.m = .late t s.m) :
    issue (some cls) false x ch body s = .next (memberDone (cxOf s gi vi v false x) v (some cls) ch
      (some ((cxOf s gi vi v false x).member, t)) none s.m s) := by
  rw [issue_ready h, hb]

/-- A word that ends its voice: the pushes of its chain are performed on what it leaves. -/
theorem issue_gone {s : State} {gi vi : Nat} {v : Voice} {cls : Pipe} (h : Ready s gi vi v cls) {x : Pre} {ch : Bool}
    {body : Cx → Mach → Eff} {m m1 : Mach} (hb : body (cxOf s gi vi v false x) s.m = .gone m)
    (hm : pushOut ((cxOf s gi vi v false x).settled m) gi = some m1) : issue (some cls) false x ch body s = .next (ended s m1) := by
  rw [issue_ready h, hb]
  simp only [hm]
  rfl

/-- Settles O16: brk and sys leave their trap to the end of the chain; trap ends the grid or stops at the word. -/
theorem breakAndSystemCall : Obligations.BreakAndSystemCall := by
  constructor
  · intro x k s gi vi v hr c raised
    have late : ∀ {cl : Bool} {t : Trap} {e : Eff}, cl = true → c.act ≠ 0 →
        (if !cl then e else if c.act = 0 then .ok s.m else .late t s.m) = Eff.late t s.m := fun hc ha =>
      (ite_checked hc _ _).trans (if_neg ha)
    have idle : ∀ {cl : Bool} {t : Trap} {e : Eff}, cl = true → c.act = 0 →
        (if !cl then e else if c.act = 0 then .ok s.m else .late t s.m) = Eff.ok s.m := fun hc ha =>
      (ite_checked hc _ _).trans (if_pos ha)
    refine ⟨fun m u hm hu => ?_, fun ha => ?_, fun ha => ⟨fun h1 => issue_done hr (idle h1 ha), fun h1 => issue_done hr (idle h1 ha)⟩⟩
    · exact ⟨fun h1 ha => (issue_late hr (late h1 ha)).trans (congrArg _ (memberDone_late hm hu)),
        fun h1 ha => (issue_late hr (late h1 ha)).trans (congrArg _ (memberDone_late hm hu))⟩
    · intro next
      exact ⟨fun h1 => (issue_late hr (late h1 ha)).trans (congrArg _ (memberDone_late_chain hr.voice)),
        fun h1 => (issue_late hr (late h1 ha)).trans (congrArg _ (memberDone_late_chain hr.voice))⟩
  · intro x ch k s gi vi v hr c g h1
    refine ⟨fun ha => issue_done hr ((ite_checked h1 _ _).trans (if_pos ha)),
      fun ha hh => issue_cause hr ((ite_checked h1 _ _).trans ((if_neg ha).trans (if_pos (by rw [hh]; rfl)))), fun ha hh m hm => ?_⟩
    exact issue_gone hr ((ite_checked h1 _ _).trans ((if_neg ha).trans (ite_checked hh _ _))) hm

end Sys2Proof.Proofs
end

section
/-!
PROOFS. More rules of the state: a group written twice, the voices of a group, and what the end of a ripple leaves alone.
-/

namespace Sys2Proof.Proofs

open Sys2Proof.Machine Sys2Proof.Claims

/-! ## Groups written -/

theorem setAt_setAt {α : Type} (x y : α) : ∀ (xs : List α) (n : Nat), setAt (setAt xs n x) n y = setAt xs n y
  | [], _ => rfl
  | _ :: _, 0 => rfl
  | a :: xs, n + 1 => congrArg (a :: ·) (setAt_setAt x y xs n)

theorem setAt_getD {α : Type} (d : α) : ∀ (xs : List α) (n : Nat), setAt xs n (xs.getD n d) = xs
  | [], _ => rfl
  | _ :: _, 0 => rfl
  | a :: xs, n + 1 => congrArg (a :: ·) (setAt_getD d xs n)

@[simp] theorem setGrp_setGrp (m : Mach) (i : Nat) (g h : Group) : (m.setGrp i g).setGrp i h = m.setGrp i h := by
  simp only [Mach.setGrp, setAt_setAt]

@[simp] theorem setGrp_grp (m : Mach) (i : Nat) : m.setGrp i (m.grp i) = m := by
  simp only [Mach.setGrp, Mach.grp, setAt_getD]

/-! ## Tables whose keys need not be in order -/

/-- The first entry of a key. -/
def lookup {α : Type} (t : Tbl α) (n : Nat) : Option α := (t.find? fun e => e.1 = n).map Prod.snd

theorem lookup_cons {α : Type} (k n : Nat) (x : α) (t : Tbl α) :
    lookup ((k, x) :: t) n = if k = n then some x else lookup t n := by
  by_cases h : k = n <;> simp [lookup, h]

theorem lookup_put {α : Type} (n k : Nat) (x : α) (t : Tbl α) : lookup (Tbl.put t n x) k = if n = k then some x else lookup t k := by
  induction t with
  | nil => simp [Tbl.put, lookup_cons, lookup]
  | cons e t ih =>
    obtain ⟨j, y⟩ := e
    unfold Tbl.put
    split
    · rw [lookup_cons]
    · split
      · rename_i h; subst h; simp only [lookup_cons]; split <;> rfl
      · rw [lookup_cons, lookup_cons, ih]
        by_cases hj : j = k
        · have hn : n ≠ k := by omega
          simp [hj, hn]
        · simp [hj]

theorem lookup_map {α β : Type} (f : Nat → α → β) (t : Tbl α) (n : Nat) :
    lookup (t.map fun e => (e.1, f e.1 e.2)) n = (lookup t n).map (f n) := by
  induction t with
  | nil => rfl
  | cons e t ih =>
    obtain ⟨k, x⟩ := e
    rw [List.map_cons, lookup_cons, lookup_cons, ih]
    by_cases h : k = n <;> simp [h]

theorem get_eq_lookup {α : Type} (d : α) (t : Tbl α) (n : Nat) : Tbl.get d t n = (lookup t n).getD d := by
  induction t with
  | nil => rfl
  | cons e t ih =>
    obtain ⟨k, x⟩ := e
    rw [lookup_cons, Tbl.get, ih]
    by_cases h : k = n
    · simp [h]
    · simp [h, Ne.symm h]

theorem lookup_of_mem_nodup {α : Type} {t : Tbl α} {n : Nat} {x : α} (hd : (t.map Prod.fst).Nodup) (hm : (n, x) ∈ t) :
    lookup t n = some x := by
  induction t with
  | nil => cases hm
  | cons e t ih =>
    obtain ⟨k, y⟩ := e
    rw [List.map_cons, List.nodup_cons] at hd
    rw [lookup_cons]
    rcases List.mem_cons.mp hm with h | h
    · cases h; simp
    · have hk : k ≠ n := fun e => hd.1 (e ▸ List.mem_map.mpr ⟨_, h, rfl⟩)
      rw [if_neg hk, ih hd.2 h]

@[simp] theorem put_put {α : Type} (n : Nat) (x y : α) (t : Tbl α) : Tbl.put (Tbl.put t n x) n y = Tbl.put t n y := by
  induction t with
  | nil => simp [Tbl.put]
  | cons e t ih =>
    obtain ⟨k, z⟩ := e
    by_cases h1 : n < k
    · simp [Tbl.put, h1]
    · by_cases h2 : n = k
      · simp [Tbl.put, h2]
      · simp [Tbl.put, h1, h2, ih]

/-! ## Voices -/

theorem voiceAt_eq_lookup (m : Mach) (gi vi : Nat) : voiceAt m gi vi = lookup (m.grp gi).voices vi := rfl

theorem voice_of_voiceAt {m : Mach} {gi vi : Nat} {v : Voice} (h : voiceAt m gi vi = some v) :
    Tbl.get default (m.grp gi).voices vi = v := by
  rw [get_eq_lookup, ← voiceAt_eq_lookup, h]; rfl

theorem grp_setVoice_same {m : Mach} {gi : Nat} (hg : gi < m.groups.length) (vi : Nat) (v : Voice) :
    (setVoice m gi vi v).grp gi = { m.grp gi with voices := Tbl.put (m.grp gi).voices vi v } := Mach.grp_setGrp_same _ hg _

theorem voiceAt_setVoice_same {m : Mach} {gi : Nat} (hg : gi < m.groups.length) (vi : Nat) (v : Voice) :
    voiceAt (setVoice m gi vi v) gi vi = some v := by
  rw [voiceAt_eq_lookup, grp_setVoice_same hg, lookup_put, if_pos rfl]

theorem length_setVoice (m : Mach) (gi vi : Nat) (v : Voice) : (setVoice m gi vi v).groups.length = m.groups.length :=
  Mach.length_setGrp _ _ _

theorem setVoice_setVoice (m : Mach) {gi : Nat} (hg : gi < m.groups.length) (vi : Nat) (v w : Voice) :
    setVoice (setVoice m gi vi v) gi vi w = setVoice m gi vi w := by
  simp only [setVoice, setGrp_setGrp, Mach.grp_setGrp_same _ hg, put_put]

/-! ## The end of a ripple -/

/-- Two groups that differ in their counters alone. -/
def SameButCounters (g h : Group) : Prop := h = { g with f := h.f }

theorem SameButCounters.refl (g : Group) : SameButCounters g g := rfl

theorem SameButCounters.trans {g h k : Group} (a : SameButCounters g h) (b : SameButCounters h k) : SameButCounters g k :=
  Eq.trans b (congrArg (fun y : Group => { y with f := k.f }) a)

theorem lowerFlag_counters (g : Group) (k : Option Nat) : SameButCounters g (lowerFlag g k) := by
  cases k <;> rfl

theorem closeSpans_counters (held : List (Nat × Nat × Option Nat)) (g : Group) : SameButCounters g (closeSpans g held) := by
  induction held generalizing g with
  | nil => exact .refl g
  | cons h hs ih =>
    refine SameButCounters.trans ?_ (ih _)
    dsimp only
    split
    · exact .refl g
    · exact lowerFlag_counters g _

/-- A voice but for what its ripple has outstanding. -/
def forgetHeld (v : Voice) : Voice := { v with ripple := v.ripple.map fun r => { r with held := [] } }

/-- Two groups that differ in their counters and in what ripples have outstanding alone. -/
def SameButSpans (g h : Group) : Prop :=
  h = { g with f := h.f, voices := h.voices } ∧ ∀ n, (lookup h.voices n).map forgetHeld = (lookup g.voices n).map forgetHeld

theorem SameButSpans.refl (g : Group) : SameButSpans g g := ⟨rfl, fun _ => rfl⟩

theorem SameButSpans.trans {g h k : Group} (a : SameButSpans g h) (b : SameButSpans h k) : SameButSpans g k :=
  ⟨b.1.trans (congrArg (fun y : Group => { y with f := k.f, voices := k.voices }) a.1), fun n => (b.2 n).trans (a.2 n)⟩

theorem SameButCounters.spans {g h : Group} (a : SameButCounters g h) : SameButSpans g h := by
  have hv : h.voices = g.voices := by unfold SameButCounters at a; rw [a]
  refine ⟨?_, fun n => by rw [hv]⟩
  rw [hv]
  exact a

theorem settleSpans_spans (g : Group) (vi : Nat) : SameButSpans g (settleSpans g vi) := by
  unfold settleSpans
  dsimp only
  split
  · exact .refl g
  · rename_i r hr
    split
    · exact .refl g
    · refine SameButSpans.trans ?_ (closeSpans_counters _ _).spans
      refine ⟨rfl, fun n => ?_⟩
      dsimp only
      rw [lookup_put]
      split
      · rename_i hn
        subst hn
        rw [get_eq_lookup] at hr ⊢
        cases hl : lookup g.voices vi with
        | none => rw [hl] at hr; cases hr
        | some v =>
          rw [hl] at hr
          have hr' : v.ripple = some r := hr
          simp [forgetHeld, hr']
      · rfl

end Sys2Proof.Proofs
end

section
/-!
PROOFS. Taking a trap and returning from one, the entry of a course, and the chain rules (01 R10 to R23, 05 R137 to R144).
-/

namespace Sys2Proof.Proofs

open Sys2Proof.Machine Sys2Proof.Claims

/-! ## Taking a trap -/

/-- The address of a group's trap frame (05 R139). -/
def frameAt (m : Mach) (gi : Nat) : Nat := wb (m.grp gi).tvec 8 40 * 256

/-- A group with a trap that its handler may take: no uncorrectable error, no killed stream, not in handler state, with a frame. -/
structure MayEnter (m : Mach) (gi : Nat) (p : PendTrap) : Prop where
  trap : (m.grp gi).trap = some p
  notUe : p.trap.cause ≠ .sramUe
  notKilled : p.trap.cause = .symFault → (m.grid (m.grp gi).grid).killed = false
  outside : (m.grp gi).inhandler = false
  frame : frameAt m gi ≠ 0

theorem MayEnter.killed_false {m : Mach} {gi : Nat} {p : PendTrap} (h : MayEnter m gi p) :
    (decide (p.trap.cause = .symFault) && (m.grid (m.grp gi).grid).killed) = false := by
  by_cases hs : p.trap.cause = .symFault
  · rw [h.notKilled hs, Bool.and_false]
  · rw [decide_eq_false hs, Bool.false_and]

theorem MayEnter.goes_on {m : Mach} {gi : Nat} {p : PendTrap} (h : MayEnter m gi p) :
    ((m.grp gi).inhandler || decide (wb (m.grp gi).tvec 8 40 * 256 = 0)) = false := by
  rw [h.outside, Bool.false_or]
  exact decide_eq_false h.frame

/-- The entry waits for mortar results. -/
theorem enterTrap_mortarBusy {m : Mach} {gi : Nat} {p : PendTrap} (h : MayEnter m gi p) (hb : anyMortarBusy (m.grp gi) = true) :
    enterTrap m gi = m := by
  simp only [enterTrap, h.trap, if_neg h.notUe, h.killed_false, h.goes_on, hb, Bool.true_or, Bool.false_eq_true, if_false, if_true]

/-- The frame is read and written, and the handler begins. -/
theorem enterTrap_done {m m2 : Mach} {gi hpc : Nat} {p : PendTrap} (h : MayEnter m gi p) (hb : anyMortarBusy (m.grp gi) = false)
    (hh : isHeld m gi 4 = false)
    (hr : readFrame (pinFrame m (whoGroup m gi) (frameAt m gi) 1) (whoGroup m gi) (frameAt m gi) = .ok hpc)
    (hw : writeFrame (whoGroup m gi) (frameAt m gi) (frameWords m gi p.voice) (pinFrame m (whoGroup m gi) (frameAt m gi) 1) = .done m2) :
    enterTrap m gi = (dropHolds m2 gi).setGrp gi { m2.grp gi with
      trap := none, inhandler := true, park := [], voices := [(0, standingVoice (m2.grp gi).live (hpc % 2 ^ 48))],
      handler := some { voices := (m2.grp gi).voices, park := (m2.grp gi).park, tv := p.voice, first := p.first, after := p.after,
                        bases := p.bases } } := by
  simp only [frameAt] at hr hw
  simp only [enterTrap, h.trap, if_neg h.notUe, h.killed_false, h.goes_on, hb, hh, hr, hw, Bool.or_self, Bool.false_eq_true, if_false]

/-- The frame lies on a migrating page, which holds the entry (10 R244). -/
theorem enterTrap_held {m : Mach} {gi va : Nat} {p : PendTrap} (h : MayEnter m gi p) (hb : anyMortarBusy (m.grp gi) = false)
    (hh : isHeld m gi 4 = false)
    (hr : readFrame (pinFrame m (whoGroup m gi) (frameAt m gi) 1) (whoGroup m gi) (frameAt m gi) = .error (.inl va)) :
    enterTrap m gi = holdAt m gi 4 [va] := by
  simp only [frameAt] at hr
  simp only [enterTrap, h.trap, if_neg h.notUe, h.killed_false, h.goes_on, hb, hh, hr, Bool.or_self, Bool.false_eq_true, if_false]

/-- Settles O17: the trap registers are set, and the entry goes as the frame and the handler allow. -/
theorem trapEntry : Obligations.TrapEntry := by
  constructor
  · intro m gi p hg g head g1 m1 f m0 hue hsym hin hf
    have hg1 : m1.grp gi = g1 := Mach.grp_setGrp_same m hg g1
    have hfr : frameAt m1 gi = f := by rw [frameAt, hg1]
    have hm : MayEnter m1 gi p :=
      ⟨by rw [hg1], hue, fun hs => by rw [hg1]; exact hsym hs, by rw [hg1]; exact hin, by rw [hfr]; exact hf⟩
    have hmb : anyMortarBusy (m1.grp gi) = anyMortarBusy g := by rw [hg1]; rfl
    have hraise : raiseTrap m gi p = enterTrap m1 gi := rfl
    rw [hraise]
    refine ⟨fun hb => enterTrap_mortarBusy hm (hmb.trans hb), fun hb hh hpc m2 hread hwrite => ?_, fun hb hh hheld => ?_⟩
    · exact enterTrap_done hm (hmb.trans hb) hh (by rw [hfr]; exact hread) (by rw [hfr]; exact hwrite)
    · refine enterTrap_held hm (hmb.trans hb) hh ?_
      rw [hfr, readFrame, hheld]
  · intro m gi p hg g g1 m1 hue hsym hin
    have hstop : (g.inhandler || decide (wb g.tvec 8 40 * 256 = 0)) = true := by
      rcases hin with h | h <;> simp [h]
    have hk : (decide (p.trap.cause = .symFault) && (m.grid g.grid).killed) = false := by
      by_cases hs : p.trap.cause = .symFault
      · rw [hsym hs, Bool.and_false]
      · rw [decide_eq_false hs, Bool.false_and]
    simp only [raiseTrap, enterTrap, Mach.grp_setGrp_same _ hg, if_neg hue, Mach.setGrp_grid, setGrp_setGrp]
    rw [if_neg (by rw [hk]; exact Bool.false_ne_true), if_pos hstop]
    rfl

/-! ## The entry of a course -/

/-- The counters that a head's wait mask names are zero. -/
theorem waitMet_head (g : Sys2Proof.Machine.Group) (h : Bool) (l : BitVec 3) (a b : BitVec 4) (w : BitVec 12) :
    waitMet g (encodeBase (.head h l a b w)) = true ↔ ∀ n < 12, w.getLsbD n = true → counter g n = 0 := by
  have hbit : ∀ n < 12, bitAt (encodeBase (.head h l a b w)) n = w.getLsbD n := fun n hn => by
    have hcell : ∀ r : Nat, bitAt (cellV w r) n = w.getLsbD n := fun r => by
      have ht := Nat.testBit_two_pow_mul_add r w.isLt n
      rw [if_pos hn] at ht
      rw [bitAt, cellV, Nat.add_comm, BitVec.getLsbD, ← ht, Nat.testBit_eq_decide_div_mod_eq]
      rfl
    exact hcell _
  simp only [waitMet, List.all_eq_true, List.mem_range, Bool.or_eq_true, Bool.not_eq_true', decide_eq_true_eq]
  refine forall₂_congr fun n hn => ?_
  rw [hbit n hn]
  cases w.getLsbD n <;> simp

/-- A head at which a voice stands, its course fetched. -/
theorem execHead_fetched {s : State} {gi vi : Nat} {v : Voice} {ws : List Nat} (hc : s.cur = some (gi, vi))
    (hv : voiceAt s.m gi vi = some v) (hi : v.inside = false) (hf : fetchCourse s.m gi v = .ok ws) (h : Bool) (l : BitVec 3) (a b : BitVec 4)
    (w : BitVec 12) : exec (.head h l a b w) s =
      .next (ended s (enterCourse s.m gi vi v (encodeBase (.head h l a b w) :: ws.drop 1))) := by
  change execHead h l a b w s = _
  simp only [execHead, hc, hv, hi, hf, Bool.false_eq_true, if_false]
  rfl

/-- A hold of no address is none. -/
theorem holdAt_nil (m : Mach) (gi who : Nat) : holdAt m gi who [] = m := rfl

/-- Settles O19: the course's structure is checked, then the counters of the wait mask. -/
theorem courseEntry : Obligations.CourseEntry := by
  intro h l a b w s gi vi v ws hc hv hi hf code put
  rw [execHead_fetched hc hv hi hf]
  refine ⟨fun hs hz => ?_, fun hs hz => ?_, fun i hs => ?_⟩
  · have hw : waitMet (s.m.grp gi) (code.getD 0 0) = true := (waitMet_head _ h l a b w).mpr hz
    simp only [enterCourse, code] at hs hw ⊢
    rw [hs]
    exact congrArg (fun m => Host.Outcome.next (ended s m)) (if_pos hw)
  · have hw : ¬waitMet (s.m.grp gi) (code.getD 0 0) = true := fun hm => by
      obtain ⟨n, hn, hb, hne⟩ := hz
      exact hne ((waitMet_head _ h l a b w).mp hm n hn hb)
    have hstall : stallHead s.m gi vi [] = setVoice s.m gi vi { v with stalled := true } := by
      simp only [stallHead, hv, holdAt_nil]
    simp only [enterCourse, code] at hs hw ⊢
    rw [hs]
    exact congrArg (fun m => Host.Outcome.next (ended s m)) ((if_neg hw).trans hstall)
  · simp only [enterCourse, code] at hs ⊢
    rw [hs]
    simp only [headTrap, hv]
    rfl

end Sys2Proof.Proofs
end

section
/-!
PROOFS. Returning from a trap (05 R142, R143), and the chain rules (01 R10 to R17).
-/

namespace Sys2Proof.Proofs

open Sys2Proof.Machine Sys2Proof.Claims

/-! ## Voices that are all inside courses -/

/-- Every voice of a table is inside a course. -/
def AllInside (vs : Tbl Voice) : Prop := ∀ e ∈ vs, e.2.inside = true

theorem mergeInto_inside (n : Nat) {v : Voice} (h : v.inside = true) (vs : Tbl Voice) : mergeInto n v vs = vs ++ [(n, v)] := by
  induction vs with
  | nil => rfl
  | cons e vs ih => simp [mergeInto, h, ih]

theorem mergeVoices_inside {vs : Tbl Voice} (h : AllInside vs) : mergeVoices vs = vs := by
  have key : ∀ (vs acc : Tbl Voice), AllInside vs → vs.foldl (fun acc nv => mergeInto nv.1 nv.2 acc) acc = acc ++ vs := by
    intro vs
    induction vs with
    | nil => simp
    | cons e vs ih =>
      intro acc ha
      rw [List.foldl_cons, mergeInto_inside _ (ha e (by simp)), ih _ fun x hx => ha x (by simp [hx])]
      simp
  exact key vs [] h

theorem joinParked_inside {vs : Tbl Voice} (h : AllInside vs) : joinParked vs [] = (vs, []) := by
  have hmap : (vs.map fun v => if v.2.inside then v else
      (v.1, { v.2 with mask := v.2.mask ||| maskOf ((([] : Tbl Nat).filter fun e => e.2 = v.2.head).map Prod.fst) })) = vs :=
    (List.map_congr_left fun e he => if_pos (h e he)).trans (List.map_id vs)
  exact congrArg (·, []) hmap

/-- Nothing merges and nothing is resumed among voices inside courses, no lane parked. -/
theorem settle_inside {g : Sys2Proof.Machine.Group} (h : AllInside g.voices) (hp : g.park = []) : settle g = g := by
  have hs : settleFrom 70 g.voices [] = (g.voices, []) := by
    simp [settleFrom, mergeVoices_inside h, joinParked_inside h, lowestPark, firstBy]
  unfold settle
  rw [hp, hs]
  exact congrArg (fun p => { g with park := p }) hp.symm

/-! ## What a return puts back -/

/-- What the frame and the lanes that live leave of a voice of the trap (05 R142, R143). -/
def restored (g : Sys2Proof.Machine.Group) (h : Handler) (p : Word) (mort : Nat → Nat → Nat → Word) (n : Nat) (v : Voice) : Voice :=
  let ks := (List.range 8).flatMap fun r => (List.range g.width).map fun l => (64 * r + l, mort n r l)
  let mt := ks.foldl (fun t k => Tbl.set 0 t k.1 k.2) []
  let v1 := liveRipple g.live
    { v with mask := v.mask &&& g.live, mortar := if v.inside then mt else [], stalled := false, sym := none,
             pend := v.pend.map fun ds => ds.filter fun d => g.live.getLsbD d.1 }
  if n = h.tv then
    if wb p 63 1 = 1 then { v1 with word := h.after, restart := none }
    else if (v.ripple.map Ripple.lane) ≠ (v1.ripple.map Ripple.lane) then v1
    else { v1 with word := h.first, restart := if wb p 8 24 = 0 && h.bases.isEmpty then none else some (wb p 0 2, wb p 8 24, h.bases) }
  else v1

/-- The voices of the trap that still have live lanes. -/
def restoredVoices (g : Sys2Proof.Machine.Group) (h : Handler) (p : Word) (mort : Nat → Nat → Nat → Word) : Tbl Voice :=
  (h.voices.map fun e => (e.1, restored g h p mort e.1 e.2)).filter fun v => v.2.mask ≠ 0

/-- The ripples of voices of the trap whose lanes have all exited. -/
def lostSpans (g : Sys2Proof.Machine.Group) (h : Handler) (p : Word) (mort : Nat → Nat → Nat → Word) : List (Nat × Nat × Option Nat) :=
  (h.voices.filter fun v => !((restoredVoices g h p mort).any fun u => u.1 = v.1)).flatMap fun v => (v.2.ripple.map Ripple.held).getD []

/-- The group out of handler state, before its ripples settle and its voices merge. -/
def leftHandler (g : Sys2Proof.Machine.Group) (h : Handler) (p : Word) (mort : Nat → Nat → Nat → Word) : Sys2Proof.Machine.Group :=
  { g with inhandler := false, handler := none, voices := restoredVoices g h p mort, park := h.park.filter fun e => g.live.getLsbD e.1 }

/-- The group after its ripples have settled. -/
def spansSettled (g : Sys2Proof.Machine.Group) (h : Handler) (p : Word) (mort : Nat → Nat → Nat → Word) : Sys2Proof.Machine.Group :=
  closeSpans (((restoredVoices g h p mort).map Prod.fst).foldl settleSpans (leftHandler g h p mort)) (lostSpans g h p mort)

theorem returnTrap_eq (m : Mach) (gi : Nat) (h : Handler) (p : Word) (mort : Nat → Nat → Nat → Word) :
    returnTrap m gi h p mort = m.setGrp gi (settle (spansSettled (m.grp gi) h p mort)) := by
  have hput : ∀ e : Nat × Voice, (e.1, restored (m.grp gi) h p mort e.1 e.2) =
      (let nv := e
       let v := nv.2
       let mask := v.mask &&& (m.grp gi).live
       let ks := (List.range 8).flatMap fun r => (List.range (m.grp gi).width).map fun l => (64 * r + l, mort nv.1 r l)
       let mt := ks.foldl (fun t k => Tbl.set 0 t k.1 k.2) []
       let v1 := liveRipple (m.grp gi).live
         { v with mask := mask, mortar := if v.inside then mt else [], stalled := false, sym := none,
                  pend := v.pend.map fun ds => ds.filter fun d => (m.grp gi).live.getLsbD d.1 }
       if nv.1 = h.tv then
         if wb p 63 1 = 1 then (nv.1, { v1 with word := h.after, restart := none })
         else if (v.ripple.map Ripple.lane) ≠ (v1.ripple.map Ripple.lane) then (nv.1, v1)
         else (nv.1, { v1 with word := h.first, restart := if wb p 8 24 = 0 && h.bases.isEmpty then none else some (wb p 0 2, wb p 8 24, h.bases) })
       else (nv.1, v1)) := fun e => by
    dsimp only [restored]
    split_ifs <;> rfl
  unfold returnTrap spansSettled leftHandler lostSpans restoredVoices
  simp only [hput]

theorem foldl_settleSpans_spans (ks : List Nat) (g : Sys2Proof.Machine.Group) : SameButSpans g (ks.foldl settleSpans g) := by
  induction ks generalizing g with
  | nil => exact .refl g
  | cons k ks ih => exact (settleSpans_spans g k).trans (ih _)

theorem spansSettled_spans (g : Sys2Proof.Machine.Group) (h : Handler) (p : Word) (mort : Nat → Nat → Nat → Word) :
    SameButSpans (leftHandler g h p mort) (spansSettled g h p mort) :=
  (foldl_settleSpans_spans _ _).trans (closeSpans_counters _ _).spans

/-- What a voice keeps of its lanes and place, whatever its ripple's lanes have done. -/
theorem restored_keeps (g : Sys2Proof.Machine.Group) (h : Handler) (p : Word) (mort : Nat → Nat → Nat → Word) (n : Nat) (v : Voice) :
    (restored g h p mort n v).mask = v.mask &&& g.live ∧ (restored g h p mort n v).head = v.head ∧
    (restored g h p mort n v).code = v.code ∧ (restored g h p mort n v).inside = v.inside ∧
    (restored g h p mort n v).pend = v.pend.map fun ds => ds.filter fun d => g.live.getLsbD d.1 := by
  have hlive : ∀ u : Voice, (liveRipple g.live u).mask = u.mask ∧ (liveRipple g.live u).head = u.head ∧
      (liveRipple g.live u).code = u.code ∧ (liveRipple g.live u).inside = u.inside ∧ (liveRipple g.live u).pend = u.pend := by
    intro u
    unfold liveRipple
    split
    · exact ⟨rfl, rfl, rfl, rfl, rfl⟩
    · split
      · exact ⟨rfl, rfl, rfl, rfl, rfl⟩
      · dsimp only
        split <;> exact ⟨rfl, rfl, rfl, rfl, rfl⟩
  unfold restored
  dsimp only
  split_ifs <;> exact hlive _

/-- Where a voice outside a ripple stands. -/
theorem restored_word (g : Sys2Proof.Machine.Group) (h : Handler) (p : Word) (mort : Nat → Nat → Nat → Word) (n : Nat) {v : Voice}
    (hr : v.ripple = none) :
    (restored g h p mort n v).word = if n = h.tv then (if wb p 63 1 = 1 then h.after else h.first) else v.word := by
  simp only [restored, liveRipple, hr]
  split_ifs <;> simp_all

theorem lookup_restoredVoices {g : Sys2Proof.Machine.Group} {h : Handler} (p : Word) (mort : Nat → Nat → Nat → Word) {n : Nat} {v : Voice}
    (hd : (h.voices.map Prod.fst).Nodup) (hm : (n, v) ∈ h.voices) (hl : v.mask &&& g.live ≠ 0) :
    lookup (restoredVoices g h p mort) n = some (restored g h p mort n v) := by
  refine lookup_of_mem_nodup ?_ (List.mem_filter.mpr ⟨List.mem_map.mpr ⟨_, hm, rfl⟩, ?_⟩)
  · refine List.Nodup.sublist (List.filter_sublist.map _) ?_
    rwa [List.map_map]
  · rw [(restored_keeps g h p mort n v).1]
    exact decide_eq_true hl

theorem mem_of_lookup {α : Type} {t : Tbl α} {n : Nat} {x : α} (h : lookup t n = some x) : (n, x) ∈ t := by
  obtain ⟨e, he, hx⟩ := Option.map_eq_some_iff.mp h
  have hn : e.1 = n := by simpa using List.find?_some he
  rw [← hn, ← hx]
  exact List.mem_of_find?_eq_some he

theorem mem_put {α : Type} {t : Tbl α} {n : Nat} {x : α} {e : Nat × α} (h : e ∈ Tbl.put t n x) : e = (n, x) ∨ e ∈ t := by
  induction t with
  | nil => exact .inl (by simpa [Tbl.put] using h)
  | cons y t ih =>
    obtain ⟨k, z⟩ := y
    unfold Tbl.put at h
    split_ifs at h with h1 h2
    · simpa using h
    · subst h2
      exact (List.mem_cons.mp h).imp_right fun h => by simp [h]
    · rcases List.mem_cons.mp h with h | h
      · exact .inr (by simp [h])
      · exact (ih h).imp_right fun h => by simp [h]

theorem settleSpans_allInside {g : Sys2Proof.Machine.Group} (h : AllInside g.voices) (vi : Nat) :
    AllInside (settleSpans g vi).voices := by
  unfold settleSpans
  dsimp only
  split
  · exact h
  · rename_i r hr
    split
    · exact h
    · rw [closeSpans_counters _ _]
      refine fun e he => ?_
      rcases mem_put he with rfl | he
      · rw [get_eq_lookup] at hr ⊢
        cases hl : lookup g.voices vi with
        | none => rw [hl] at hr; cases hr
        | some v => exact (h _ (mem_of_lookup hl) : v.inside = true)
      · exact h e he

theorem foldl_settleSpans_allInside (ks : List Nat) {g : Sys2Proof.Machine.Group} (h : AllInside g.voices) :
    AllInside (ks.foldl settleSpans g).voices := by
  induction ks generalizing g with
  | nil => exact h
  | cons k ks ih => exact ih (settleSpans_allInside h k)

theorem spansSettled_allInside {g : Sys2Proof.Machine.Group} {h : Handler} {p : Word} {mort : Nat → Nat → Nat → Word}
    (hi : AllInside h.voices) : AllInside (spansSettled g h p mort).voices := by
  unfold spansSettled
  rw [closeSpans_counters _ _]
  refine foldl_settleSpans_allInside _ fun e he => ?_
  obtain ⟨e', he', rfl⟩ := List.mem_map.mp (List.mem_filter.mp he).1
  exact (restored_keeps g h p mort e'.1 e'.2).2.2.2.1.trans (hi _ he')

/-- A transfer word that is done, its voice gone. -/
theorem issue_xfer_gone {s : State} {gi vi : Nat} {v : Voice} {cls : Pipe} (h : Ready s gi vi v cls) (hr : v.lastLane) {x : Pre}
    {body : Cx → Mach → Eff} {m m1 : Mach} (hb : body (cxOf s gi vi v true x) s.m = .gone m)
    (hm : pushOut ((cxOf s gi vi v true x).settled m) gi = some m1) : issue (some cls) true x false body s = .next (ended s m1) := by
  have hc : conflicts s (some cls) = false := h.clear
  rcases hv : v.ripple with _ | r
  · simp only [issue, h.cur, h.voice, h.inside, if_true, issueAt, hc, hv, hb, hm]; rfl
  · simp only [issue, h.cur, h.voice, h.inside, if_true, issueAt, hc, hv, hb, hm, hr r hv]; rfl

/-- Settles O18: a word of the frame that reads gives its voice back through the return, whose ripples settle and whose voices,
all inside courses, stay apart. -/
theorem trapReturn : Obligations.TrapReturn := by
  constructor
  · intro x s gi vi v hr hl c w f h1
    refine ⟨fun ha => ?_, fun ha hh => ?_, ?_⟩
    · exact issue_xfer hr hl ((ite_checked h1 _ _).trans ((if_pos ha).trans (transfer_heads _ (List.forall_mem_nil _))))
    · refine issue_xfer_cause hr hl ((ite_checked h1 _ _).trans ((if_neg ha).trans ?_))
      simp only [c] at hh
      simp only [hh]
      rfl
    · intro h p ms ha hh hb m0 hms hp m1 m hm
      refine issue_xfer_gone hr hl ((ite_checked h1 _ _).trans ((if_neg ha).trans ?_)) hm
      simp only [c, w, f, m0] at hh hb hms hp
      simp only [hh]
      refine (if_neg (by rw [show courseBusy (cxOf s gi vi v true x).base (cxOf s gi vi v true x).gi (cxOf s gi vi v true x).vi = false from hb]; exact Bool.false_ne_true)).trans ?_
      simp only [show (cxOf s gi vi v true x).gi = gi from rfl, hms, hp]
      rfl
  · intro m gi h p mort hg g t
    have ht : t = settle (spansSettled g h p mort) := by
      simp only [t, returnTrap_eq, Mach.grp_setGrp_same _ hg, g]
    obtain ⟨hf, hv⟩ := spansSettled_spans g h p mort
    refine ⟨?_, ?_, ?_, ?_, ?_, ?_, ?_, ?_, ?_, ?_⟩
    iterate 9 (rw [ht, settle, hf]; rfl)
    intro hp hd hi n v hm hl
    have hpark : (spansSettled g h p mort).park = [] := by
      rw [hf]; simp [leftHandler, hp]
    rw [voiceAt_eq_lookup]
    change ∃ w, lookup t.voices n = some w ∧ _
    rw [ht, settle_inside (spansSettled_allInside hi) hpark]
    have hn := hv n
    have hrest : lookup (leftHandler g h p mort).voices n = some (restored g h p mort n v) := lookup_restoredVoices p mort hd hm hl
    rw [hrest] at hn
    obtain ⟨w, hw, hwv⟩ := Option.map_eq_some_iff.mp hn
    obtain ⟨k1, k2, k3, k4, k5⟩ := restored_keeps g h p mort n v
    have e1 : w.mask = (restored g h p mort n v).mask := (congrArg Voice.mask hwv :)
    have e2 : w.head = (restored g h p mort n v).head := (congrArg Voice.head hwv :)
    have e3 : w.code = (restored g h p mort n v).code := (congrArg Voice.code hwv :)
    have e4 : w.inside = (restored g h p mort n v).inside := (congrArg Voice.inside hwv :)
    have e5 : w.pend = (restored g h p mort n v).pend := (congrArg Voice.pend hwv :)
    have e6 : w.word = (restored g h p mort n v).word := (congrArg Voice.word hwv :)
    exact ⟨w, hw, e1.trans k1, e2.trans k2, e3.trans k3, e4.trans (k4.trans (hi _ hm)),
      fun hr => e6.trans (restored_word g h p mort n hr), e5.trans k5⟩

end Sys2Proof.Proofs
end

section
/-!
PROOFS. The chain rules (01 R10 to R17).
-/

namespace Sys2Proof.Proofs

open Sys2Proof.Machine Sys2Proof.Claims

/-- A word of any kind of a class that its chain has used raises CHAIN_CONFLICT (01 R10). -/
theorem issue_usedClass {s : State} {gi vi : Nat} {v : Voice} {cls : Pipe} (h : Issues s gi vi v) (hc : s.used.contains cls = true)
    (xf : Bool) (x : Pre) (ch : Bool) (body : Cx → Mach → Eff) :
    issue (some cls) xf x ch body s =
      .next (causeState s gi vi v xf x .chainConflict (cxOf s gi vi v xf x).waddr (cxOf s gi vi v xf x).act) := by
  have hc' : conflicts s (some cls) = true := hc
  simp only [issue, h.cur, h.voice, h.inside, if_true, issueAt, hc']
  rfl

/-- A voice whose chain has issued. -/
def issuedVoice (u : Voice) (next : Nat) : Voice :=
  { u with word := next, stalled := false, sym := none, restart := none, waited := 0, aged := false }

theorem issuedMach_plain {m : Mach} {gi vi : Nat} {u : Voice} {next : Nat} (hr : u.ripple = none) :
    issuedMach m gi vi u next = setVoice m gi vi (issuedVoice u next) := by
  simp [issuedMach, hr, issuedVoice]

/-- While lanes of a ripple are still to run, none of its words is issued in every lane. -/
theorem settleSpans_rest {g : Sys2Proof.Machine.Group} {vi : Nat} {v : Voice} {r : Ripple} {l : Nat} {ls : List Nat}
    (hv : lookup g.voices vi = some v) (hr : v.ripple = some r) (hl : r.rest = l :: ls) : settleSpans g vi = g := by
  have hg : Tbl.get default g.voices vi = v := by rw [get_eq_lookup, hv]; rfl
  simp [settleSpans, hg, hr, hl]

theorem issuedMach_rest {m : Mach} {gi vi : Nat} {u : Voice} {next l : Nat} {ls : List Nat} {r : Ripple} (hg : gi < m.groups.length)
    (hr : u.ripple = some r) (hl : r.rest = l :: ls) :
    issuedMach m gi vi u next = setVoice m gi vi (issuedVoice u next) := by
  have hv : lookup ((setVoice m gi vi (issuedVoice u next)).grp gi).voices vi = some (issuedVoice u next) := voiceAt_setVoice_same hg vi _
  refine (if_pos (by rw [hr]; rfl)).trans ?_
  change (setVoice m gi vi (issuedVoice u next)).setGrp gi (settleSpans ((setVoice m gi vi (issuedVoice u next)).grp gi) vi) = _
  rw [settleSpans_rest hv hr hl, setGrp_grp]

/-- The voice stands as its chain left it, but for what its ripple has outstanding. -/
theorem voiceAt_issuedMach {m : Mach} {gi : Nat} (hg : gi < m.groups.length) (vi : Nat) (u : Voice) (next : Nat) :
    ∃ w, voiceAt (issuedMach m gi vi u next) gi vi = some w ∧ forgetHeld w = forgetHeld (issuedVoice u next) := by
  have hv : voiceAt (setVoice m gi vi (issuedVoice u next)) gi vi = some (issuedVoice u next) := voiceAt_setVoice_same hg vi _
  unfold issuedMach
  dsimp only
  split
  · have hs := (settleSpans_spans ((setVoice m gi vi (issuedVoice u next)).grp gi) vi).2 vi
    rw [← voiceAt_eq_lookup, hv] at hs
    rw [voiceAt_eq_lookup, Mach.grp_setGrp_same _ ((length_setVoice _ _ _ _).symm ▸ hg)]
    exact Option.map_eq_some_iff.mp hs
  · exact ⟨_, hv, rfl⟩

/-- A chain that has issued, no trap behind it: it ends its words, or goes on. -/
theorem commit_eq {m : Mach} {gi vi first next : Nat} {u : Voice} (hu : voiceAt m gi vi = some u) :
    commit m gi vi first next none none =
      if next > lastWord u.code then endOfWords (issuedMach m gi vi u next) gi vi else issuedMach m gi vi u next := by
  simp [commit, hu, issuedMach]

/-- The lanes of a voice at the end of its course, falling through. -/
def fallsOf (u : Voice) : List (Nat × Option Nat) := (lanesOf u.mask).map fun l => (l, some (u.head + u.code.length / 3))

theorem fallsOf_of_forgetHeld {w u : Voice} {next : Nat} (h : forgetHeld w = forgetHeld (issuedVoice u next)) : fallsOf w = fallsOf u := by
  have e1 : w.mask = u.mask := (congrArg Voice.mask h :)
  have e2 : w.head = u.head := (congrArg Voice.head h :)
  have e3 : w.code = u.code := (congrArg Voice.code h :)
  simp only [fallsOf, e1, e2, e3]

theorem endOfWords_plain {m : Mach} {gi vi : Nat} {w : Voice} (hw : voiceAt m gi vi = some w) (hr : w.ripple = none) :
    endOfWords m gi vi = finishCourse m gi vi (fallsOf w) := by
  simp [endOfWords, hw, hr, fallsOf, fallThrough]

theorem endOfWords_last {m : Mach} {gi vi : Nat} {w : Voice} {r : Ripple} (hw : voiceAt m gi vi = some w) (hr : w.ripple = some r)
    (hl : r.rest = []) : endOfWords m gi vi = finishCourse (m.setGrp gi (endRipple (m.grp gi) vi)) gi vi (fallsOf w) := by
  simp [endOfWords, hw, hr, hl, fallsOf, fallThrough]

theorem endOfWords_rest {m : Mach} {gi vi l : Nat} {w : Voice} {r : Ripple} {ls : List Nat} (hw : voiceAt m gi vi = some w)
    (hr : w.ripple = some r) (hl : r.rest = l :: ls) :
    endOfWords m gi vi = setVoice m gi vi { w with word := r.first, ripple := some { r with lane := l, rest := ls } } := by
  simp [endOfWords, hw, hr, hl]

/-- A ripple with no lane left to run, whatever it has outstanding. -/
theorem ripple_of_forgetHeld {w u : Voice} {next : Nat} {r : Ripple} (h : forgetHeld w = forgetHeld (issuedVoice u next))
    (hr : u.ripple = some r) (hl : r.rest = []) : ∃ r', w.ripple = some r' ∧ r'.rest = [] := by
  have e : w.ripple.map (fun r => { r with held := [] }) = u.ripple.map fun r => { r with held := [] } := (congrArg Voice.ripple h :)
  rw [hr] at e
  obtain ⟨r', hr', he⟩ := Option.map_eq_some_iff.mp e
  exact ⟨r', hr', (congrArg Ripple.rest he :).trans hl⟩

/-- A write of a vector register leaves the count of courses. -/
theorem foldl_writeVec_prog (ps : List (Nat × Nat)) (vals : Nat × Nat → List (Nat × Word)) (g : Sys2Proof.Machine.Group) :
    (ps.foldl (fun g p => writeVec g p.2 (vals p)) g).prog = g.prog := by
  induction ps generalizing g with
  | nil => rfl
  | cons p ps ih => exact (ih _).trans rfl

/-- A group whose course ends: its coping's promotions made, the course counted, its lanes moved. -/
def courseEnded (g : Sys2Proof.Machine.Group) (vi : Nat) (dests : List (Nat × Option Nat)) : Sys2Proof.Machine.Group :=
  let v := Tbl.get default g.voices vi
  let g1 := (promotions v.code).foldl (fun g p => writeVec g p.2 ((lanesOf v.mask).map fun l => (l, Tbl.get 0 v.mortar (64 * p.1 + l)))) g
  moveLanes { g1 with prog := min (g.prog + 1) 0xFFFFFFFF } vi (destSets dests)

/-- The end of a course no lane of which exits (01 R17). -/
theorem finishCourse_moves {m : Mach} {gi vi : Nat} {dests : List (Nat × Option Nat)} (hb : courseBusy m gi vi = false)
    (hd : ∀ e ∈ dests, e.2 ≠ none) (hg : gi < m.groups.length) :
    finishCourse m gi vi dests = m.setGrp gi (courseEnded (m.grp gi) vi dests) := by
  have hnone : (dests.filter fun d => d.2.isNone) = [] := List.filter_eq_nil_iff.mpr fun d hm => by simp [hd d hm]
  have hprog := foldl_writeVec_prog (promotions (Tbl.get default (m.grp gi).voices vi).code)
    (fun p => (lanesOf (Tbl.get default (m.grp gi).voices vi).mask).map fun l =>
      (l, Tbl.get 0 (Tbl.get default (m.grp gi).voices vi).mortar (64 * p.1 + l))) (m.grp gi)
  rw [finishCourse]
  simp only [hb, Bool.false_eq_true, if_false]
  rw [retireCourse]
  simp only [hnone, List.map_nil, exitLanes, List.isEmpty_nil, if_true, Mach.grp_setGrp_same _ hg, setGrp_setGrp]
  rw [courseEnded, ← hprog]

/-- Settles O20. -/
theorem chainRules : Obligations.ChainRules := by
  refine ⟨?_, ?_, ?_⟩
  · intro cls xf x ch body s gi vi v hi hc c
    exact issue_usedClass hi hc xf x ch body
  · intro s gi vi v w cls x m hw hlate next issued
    have hnext : (cxOf s gi vi v false x).bword + 1 = next := by
      simp only [cxOf, next]; split <;> rfl
    refine ⟨?_, ?_⟩
    · rw [doneState, memberDone, hlate, hnext, if_pos rfl]
      simp only [show voiceAt m (cxOf s gi vi v false x).gi (cxOf s gi vi v false x).vi = some w from hw]
      rfl
    · intro settled
      have hstate : ∀ m1, pushOut settled gi = some m1 →
          doneState s gi vi v cls x false m = issued (commit m1 gi vi (s.firstWord v) next none none) := by
        intro m1 hm
        have hm' : pushOut ((cxOf s gi vi v false x).settled m) (cxOf s gi vi v false x).gi = some m1 := hm
        rw [doneState, memberDone, hlate, hnext]
        simp only [hm']
        rfl
      refine ⟨fun m1 u hm hu => ?_, fun hm => ?_⟩
      · intro m2 falls
        have hm2 : m2 = issuedMach m1 gi vi u next := rfl
        rw [hstate m1 hm, commit_eq hu]
        refine ⟨fun hle => ?_, fun hlt hr hg => ?_, fun r hlt hr hl hg => ?_, fun r l ls hlt hr hl hg => ?_⟩
        · rw [if_neg (by omega)]
        · obtain ⟨w', hw', hf⟩ := voiceAt_issuedMach hg vi u next
          have hr' : w'.ripple = none := by
            have e : w'.ripple.map (fun r => { r with held := [] }) = u.ripple.map fun r => { r with held := [] } :=
              (congrArg Voice.ripple hf :)
            rw [hr] at e
            exact Option.map_eq_none_iff.mp e
          rw [if_pos hlt, endOfWords_plain hw' hr', fallsOf_of_forgetHeld hf]
          rfl
        · obtain ⟨w', hw', hf⟩ := voiceAt_issuedMach hg vi u next
          obtain ⟨r', hr', hl'⟩ := ripple_of_forgetHeld hf hr hl
          rw [if_pos hlt, endOfWords_last hw' hr' hl', fallsOf_of_forgetHeld hf]
          rfl
        · rw [if_pos hlt, issuedMach_rest hg hr hl, endOfWords_rest (w := issuedVoice u next) (voiceAt_setVoice_same hg vi _) hr hl, setVoice_setVoice _ hg]
          rfl
      · have hm' : pushOut ((cxOf s gi vi v false x).settled m) (cxOf s gi vi v false x).gi = none := hm
        rw [doneState, memberDone, hlate]
        simp only [hm']
        rfl
  · exact fun m gi vi dests hb hd hg => finishCourse_moves hb hd hg

end Sys2Proof.Proofs
end

section
/-!
PROOFS. The checks of addresses (02 R99, 10 R239, R240).
-/

namespace Sys2Proof.Proofs

open Sys2Proof.Machine Sys2Proof.Claims

/-! ## One address -/

theorem checkVa_misaligned {m : Mach} {w : Who} {acc : Acc} {n va : Nat} {win : Bool} (h : va % n ≠ 0) :
    checkVa m w acc n win va = .bad .misalign 0 := if_pos h

/-- An aligned address in plain memory is walked. -/
theorem checkVa_plain {m : Mach} {w : Who} {acc : Acc} {n va : Nat} {win : Bool} (h : va % n = 0) (hc : va < 2 ^ 48)
    (hw : isWindow va = false) :
    checkVa m w acc n win va = match translation m w.part w.ctx va with
      | .fail => .bad .xlate 1
      | .ue => .ue
      | .leaf e lg =>
        if pteMig e then .held
        else if !permits e w.priv acc then .bad .prot 2
        else
          match paKey m w.part (ptePa e + va % 2 ^ lg) with
          | none => .bad .xlate 1
          | some key =>
            let writes := acc = .store || acc = .atomic
            if writes && w.spec && !w.narrow && !specWritable m w key then .bad .prot 2
            else if writes && haloForbids m w key then .bad .prot 2
            else if pteCoh e = 1 && w.die < 12 && xferHolds m w.part w.die va then .held
            else if writes && pteCoh e = 1 && w.die < 12 && regionOwner m w.part va ≠ some w.die then .bad .regionOwner 5
            else if !routed m w.bed (routeKey m w key) then .held
            else .ok (.mem (routeKey m w key) e) := by
  unfold checkVa
  rw [if_neg (not_not_intro h), if_neg (by omega), hw, if_neg Bool.false_ne_true] <;> rfl

theorem priv_of_permits {e : Word} {priv : Bool} {acc : Acc} (h : permits e priv acc = true) (hp : ptePriv e = true) : priv = true := by
  cases acc <;> simp_all [permits]

/-- The causes of an aligned address come after MISALIGN in the order of the checks. -/
def LaterCause : Chk → Prop
  | .bad c k => c ≠ .misalign ∧ k ≠ 0
  | _ => True

theorem LaterCause.ite {p : Prop} [Decidable p] {a b : Chk} (ha : LaterCause a) (hb : LaterCause b) : LaterCause (if p then a else b) := by
  split
  · exact ha
  · exact hb

theorem laterCause_bad {c : Cause} {k : Nat} (hc : c ≠ .misalign) (hk : k ≠ 0) : LaterCause (.bad c k) := ⟨hc, hk⟩

theorem checkWindow_later (m : Mach) (w : Who) (va : Nat) : LaterCause (checkWindow m w va) := by
  have hprot : ∀ k, k ≠ 0 → LaterCause (.bad .prot k) := fun k => laterCause_bad (by decide)
  unfold checkWindow
  refine .ite (hprot 2 (by decide)) ?_
  split
  · exact laterCause_bad (by decide) (by decide)
  · exact .ite (hprot 4 (by decide)) trivial

theorem checkVa_later {m : Mach} {w : Who} {acc : Acc} {n va : Nat} {win : Bool} (h : va % n = 0) :
    LaterCause (checkVa m w acc n win va) := by
  have hxlate : LaterCause (.bad .xlate 1) := laterCause_bad (by decide) (by decide)
  have hprot : LaterCause (.bad .prot 2) := laterCause_bad (by decide) (by decide)
  have howner : LaterCause (.bad .regionOwner 5) := laterCause_bad (by decide) (by decide)
  unfold checkVa
  rw [if_neg (not_not_intro h)]
  refine .ite hxlate (.ite (.ite (checkWindow_later m w va) hprot) ?_)
  split
  · exact hxlate
  · trivial
  · refine .ite trivial (.ite hprot ?_)
    split
    · exact hxlate
    · exact .ite hprot (.ite hprot (.ite trivial (.ite howner (.ite trivial trivial))))

/-! ## The lanes together -/

/-- The first entry of least rank, where one has rank 0, has rank 0. -/
theorem firstBy_least {α : Type} (rank : α → Nat) {xs : List α} {x : α} (hx : x ∈ xs) (h0 : rank x = 0) :
    ∃ b, b ∈ xs ∧ firstBy (fun a b => decide (rank a < rank b)) xs = some b ∧ rank b = 0 := by
  induction xs with
  | nil => cases hx
  | cons y ys ih =>
    rcases List.mem_cons.mp hx with rfl | hm
    · refine ⟨x, List.mem_cons_self .., ?_, h0⟩
      unfold firstBy
      split
      · rfl
      · simp [h0]
    · obtain ⟨b, hb, hf, hr⟩ := ih hm
      simp only [firstBy, hf, hr]
      by_cases hy : 0 < rank y
      · exact ⟨b, List.mem_cons_of_mem _ hb, by simp [hy], hr⟩
      · exact ⟨y, List.mem_cons_self .., by simp [hy], by omega⟩

/-- The lanes whose checks meet a cause. -/
def badLanes (rs : List (Nat × Word × Chk)) : List (Nat × Word × Cause × Nat) :=
  rs.filterMap fun r => match r.2.2 with | .bad c k => some (r.1, r.2.1, c, k) | _ => none

/-- Where no lane is held and one meets a cause of the first rank, that cause is raised with the lanes that meet it. -/
theorem judge_first {rs : List (Nat × Word × Chk)} {b : Nat × Word × Cause × Nat} {cause : Cause}
    (hheld : ∀ r ∈ rs, r.2.2 ≠ .held) (hb : b ∈ badLanes rs) (h0 : b.2.2.2 = 0)
    (hcause : ∀ x ∈ badLanes rs, x.2.2.2 = 0 → x.2.2.1 = cause) :
    judge rs = .error (.cause (trapOf cause ((((badLanes rs).filter fun x => x.2.2.1 = cause).head?.map fun x => x.2.1).getD 0)
      (maskOf (((badLanes rs).filter fun x => x.2.2.1 = cause).map Prod.fst)))) := by
  obtain ⟨b', hb', hf, hr⟩ := firstBy_least (fun x : Nat × Word × Cause × Nat => x.2.2.2) hb h0
  have hany : (rs.any fun r => r.2.2 = .held) = false := by
    rw [List.any_eq_false]
    exact fun r hm => by simpa using hheld r hm
  unfold judge
  rw [if_neg (by rw [hany]; exact Bool.false_ne_true)]
  change (match firstBy (fun x y : Nat × Word × Cause × Nat => decide (x.2.2.2 < y.2.2.2)) (badLanes rs) with
    | some b => _
    | none => _) = _
  rw [hf]
  dsimp only
  rw [hcause b' hb' hr]
  rfl

/-- The misaligned lanes are those that meet MISALIGN. -/
theorem badLanes_misaligned (m : Mach) (w : Who) (acc : Acc) (n : Nat) (win : Bool) (as : List (Nat × Word)) :
    (badLanes (as.map fun la => (la.1, la.2, checkVa m w acc n win la.2.toNat))).filter (fun x => x.2.2.1 = .misalign) =
      (as.filter fun a => a.2.toNat % n ≠ 0).map fun a => (a.1, a.2, .misalign, 0) := by
  induction as with
  | nil => rfl
  | cons a as ih =>
    unfold badLanes at ih ⊢
    rw [List.map_cons, List.filterMap_cons]
    by_cases h : a.2.toNat % n = 0
    · have hl := checkVa_later (m := m) (w := w) (acc := acc) (win := win) h
      rw [List.filter_cons_of_neg (by simpa using h), ← ih]
      dsimp only
      cases hc : checkVa m w acc n win a.2.toNat with
      | bad c k =>
        rw [hc] at hl
        dsimp only
        rw [List.filter_cons_of_neg (by simpa using hl.1)]
      | _ => rfl
    · rw [List.filter_cons_of_pos (by simpa using h), List.map_cons, ← ih, checkVa_misaligned h]
      dsimp only
      rw [List.filter_cons_of_pos (by simp)]

theorem misaligned_of_badLanes {m : Mach} {w : Who} {acc : Acc} {n : Nat} {win : Bool} {as : List (Nat × Word)}
    {x : Nat × Word × Cause × Nat} (h : x ∈ badLanes (as.map fun la => (la.1, la.2, checkVa m w acc n win la.2.toNat)))
    (h0 : x.2.2.2 = 0) : x.2.2.1 = .misalign := by
  obtain ⟨r, hr, hx⟩ := List.mem_filterMap.mp h
  obtain ⟨a, ha, rfl⟩ := List.mem_map.mp hr
  dsimp only at hx
  split at hx
  · rename_i c k hc
    obtain rfl := Option.some.inj hx
    by_contra hne
    have hal : a.2.toNat % n = 0 := by
      by_contra hn
      rw [checkVa_misaligned hn] at hc
      cases hc
      exact hne rfl
    have hl := checkVa_later (m := m) (w := w) (acc := acc) (win := win) hal
    rw [hc] at hl
    exact hl.2 h0
  · cases hx

/-- Settles O23: the checks come one after another, and of all of them only a misaligned address is of the first rank. -/
theorem accessChecks : Obligations.AccessChecks := by
  constructor
  · intro m w acc n win va ck
    refine ⟨checkVa_misaligned, fun h hc => ?_, fun h hc hw hwin => ?_, fun h hc hw => ⟨fun ht => ?_, fun e lg ht => ⟨fun hm => ?_, fun hm hp => ?_, ?_⟩⟩⟩
    · exact (if_neg (not_not_intro h)).trans (if_pos hc)
    · refine (if_neg (not_not_intro h)).trans ((if_neg (by omega)).trans ((if_pos hw).trans ?_))
      rw [hwin]
      rfl
    · exact (checkVa_plain h hc hw).trans (by rw [ht])
    · exact (checkVa_plain h hc hw).trans (by rw [ht]; exact if_pos hm)
    · refine (checkVa_plain h hc hw).trans ?_
      rw [ht]
      exact (if_neg (by rw [hm]; exact Bool.false_ne_true)).trans (if_pos (by rw [hp]; rfl))
    · exact fun _ hp hpriv => priv_of_permits hp hpriv
  · intro m w acc n win as bad hheld first rest hbad
    have hmem : (first.1, first.2, Cause.misalign, 0) ∈
        badLanes (as.map fun la => (la.1, la.2, checkVa m w acc n win la.2.toNat)) := by
      have hin : (first.1, first.2, Cause.misalign, 0) ∈ bad.map fun a => (a.1, a.2, Cause.misalign, 0) := by rw [hbad]; simp
      simp only [bad, ← badLanes_misaligned m w acc n win as] at hin
      exact (List.mem_filter.mp hin).1
    refine (judge_first (cause := .misalign) ?_ hmem rfl fun x hx h0 => misaligned_of_badLanes hx h0).trans ?_
    · intro r hr
      obtain ⟨a, ha, rfl⟩ := List.mem_map.mp hr
      exact hheld a ha
    · rw [badLanes_misaligned]
      change Except.error (Stop.cause (trapOf .misalign (((bad.map fun a => (a.1, a.2, Cause.misalign, 0)).head?.map fun x => x.2.1).getD 0)
        (maskOf ((bad.map fun a => (a.1, a.2, Cause.misalign, 0)).map Prod.fst)))) = _
      rw [List.map_map, hbad]
      rfl

end Sys2Proof.Proofs
end

section
/-!
PROOFS. What writes of memory leave of the caches, the scratchpads and the registers, and what write-backs make of memory
(14 R329, 10 R229).
-/

namespace Sys2Proof.Proofs

open Sys2Proof.Machine Sys2Proof.Claims

/-! ## Tables filtered -/

theorem get_filter_of_kept {α : Type} (d : α) (p : Nat × α → Bool) {k : Nat} (t : Tbl α) (h : ∀ e ∈ t, e.1 = k → p e = true) :
    Tbl.get d (t.filter p) k = Tbl.get d t k := by
  induction t with
  | nil => rfl
  | cons e t ih =>
    obtain ⟨j, x⟩ := e
    have ih := ih fun e he => h e (List.mem_cons_of_mem _ he)
    by_cases hp : p (j, x) = true
    · rw [List.filter_cons_of_pos hp, Tbl.get, Tbl.get, ih]
    · have hj : k ≠ j := fun hk => hp (h (j, x) (List.mem_cons_self ..) hk.symm)
      rw [List.filter_cons_of_neg hp, ih, Tbl.get, if_neg hj]

theorem get_filter_of_dropped {α : Type} (d : α) (p : Nat × α → Bool) {k : Nat} (t : Tbl α) (h : ∀ e ∈ t, e.1 = k → p e = false) :
    Tbl.get d (t.filter p) k = d := by
  induction t with
  | nil => rfl
  | cons e t ih =>
    obtain ⟨j, x⟩ := e
    have ih := ih fun e he => h e (List.mem_cons_of_mem _ he)
    by_cases hp : p (j, x) = true
    · have hj : k ≠ j := fun hk => by simpa [hp] using h (j, x) (List.mem_cons_self ..) hk.symm
      rw [List.filter_cons_of_pos hp, Tbl.get, if_neg hj, ih]
    · rw [List.filter_cons_of_neg hp, ih]

theorem wfFrom_filter {α : Type} [DecidableEq α] (d : α) (p : Nat × α → Bool) (t : Tbl α) (lo : Nat) (h : Tbl.wfFrom d lo t = true) :
    Tbl.wfFrom d lo (t.filter p) = true := by
  induction t generalizing lo with
  | nil => rfl
  | cons e t ih =>
    obtain ⟨j, x⟩ := e
    simp only [Tbl.wfFrom, Bool.and_eq_true, decide_eq_true_eq] at h
    obtain ⟨⟨hlo, hx⟩, ht⟩ := h
    by_cases hp : p (j, x) = true
    · rw [List.filter_cons_of_pos hp]
      simp only [Tbl.wfFrom, Bool.and_eq_true, decide_eq_true_eq]
      exact ⟨⟨hlo, hx⟩, ih _ ht⟩
    · rw [List.filter_cons_of_neg hp]
      exact Tbl.wfFrom_mono d (ih _ ht) (by omega)

/-- An entry of a table in its canonical form is what its key reads as. -/
theorem get_of_mem_wf {α : Type} [DecidableEq α] (d : α) {t : Tbl α} {lo k : Nat} {x : α} (h : Tbl.wfFrom d lo t = true)
    (hm : (k, x) ∈ t) : Tbl.get d t k = x ∧ lo ≤ k := by
  induction t generalizing lo with
  | nil => cases hm
  | cons e t ih =>
    obtain ⟨j, y⟩ := e
    simp only [Tbl.wfFrom, Bool.and_eq_true, decide_eq_true_eq] at h
    obtain ⟨⟨hlo, _⟩, ht⟩ := h
    rcases List.mem_cons.mp hm with he | hm
    · cases he
      exact ⟨if_pos rfl, hlo⟩
    · obtain ⟨hg, hk⟩ := ih ht hm
      exact ⟨(if_neg (by omega)).trans hg, by omega⟩

/-- What a key reads as, where that is no default, is an entry. -/
theorem mem_of_get {α : Type} {d : α} {t : Tbl α} {k : Nat} {x : α} (h : Tbl.get d t k = x) (hx : x ≠ d) : (k, x) ∈ t := by
  induction t with
  | nil => exact absurd h.symm hx
  | cons e t ih =>
    obtain ⟨j, y⟩ := e
    unfold Tbl.get at h
    split at h
    · subst_vars; exact List.mem_cons_self ..
    · exact List.mem_cons_of_mem _ (ih h)

theorem get_foldl_set_other {α β : Type} [DecidableEq α] (d : α) (key : β → Nat) (val : β → α) {k : Nat} (bs : List β) (t : Tbl α)
    (h : ∀ b ∈ bs, key b ≠ k) : Tbl.get d (bs.foldl (fun t b => Tbl.set d t (key b) (val b)) t) k = Tbl.get d t k := by
  induction bs generalizing t with
  | nil => rfl
  | cons b bs ih =>
    rw [List.foldl_cons, ih _ fun b hb => h b (List.mem_cons_of_mem _ hb), Tbl.get_set_other _ _ (h b (List.mem_cons_self ..)).symm]

theorem get_foldl_set_same {α β : Type} [DecidableEq α] (d : α) (key : β → Nat) (val : β → α) {b : β} (bs : List β) (t : Tbl α)
    (hd : (bs.map key).Nodup) (hb : b ∈ bs) : Tbl.get d (bs.foldl (fun t b => Tbl.set d t (key b) (val b)) t) (key b) = val b := by
  induction bs generalizing t with
  | nil => cases hb
  | cons a bs ih =>
    rw [List.map_cons, List.nodup_cons] at hd
    rw [List.foldl_cons]
    rcases List.mem_cons.mp hb with rfl | hb
    · rw [get_foldl_set_other d key val bs _ fun c hc hk => hd.1 (List.mem_map.mpr ⟨c, hc, hk⟩), Tbl.get_set_same]
    · exact ih _ hd.2 hb

theorem wfFrom_foldl_set {α β : Type} [DecidableEq α] (d : α) (key : β → Nat) (val : β → α) (bs : List β) (t : Tbl α)
    (h : Tbl.wfFrom d 0 t = true) : Tbl.wfFrom d 0 (bs.foldl (fun t b => Tbl.set d t (key b) (val b)) t) = true := by
  induction bs generalizing t with
  | nil => exact h
  | cons b bs ih => exact ih _ (Tbl.wf_set _ _ (Nat.zero_le _) h)

/-! ## What a write leaves beside memory -/

/-- Two groups that differ in their outstanding words and counters alone. -/
def SameButOutst (g h : Sys2Proof.Machine.Group) : Prop := h = { g with f := h.f, outst := h.outst }

theorem SameButOutst.refl (g : Sys2Proof.Machine.Group) : SameButOutst g g := rfl

theorem SameButOutst.trans {g h k : Sys2Proof.Machine.Group} (a : SameButOutst g h) (b : SameButOutst h k) : SameButOutst g k :=
  Eq.trans b (congrArg (fun y : Sys2Proof.Machine.Group => { y with f := k.f, outst := k.outst }) a)

/-- Two devices with the same bytes in the level-1 caches, the same grids and teams, and groups that differ in what is outstanding alone. -/
structure SameCaches (m m' : Mach) : Prop where
  c1 : m'.c1 = m.c1
  cores : m'.cores = m.cores
  teams : m'.teams = m.teams
  grids : m'.grids = m.grids
  groups : ∀ i, SameButOutst (m.grp i) (m'.grp i)

theorem SameCaches.regs {m m' : Mach} (h : SameCaches m m') (i : Nat) : (m'.grp i).v = (m.grp i).v := by rw [h.groups i]

theorem SameCaches.of {m m' : Mach} (h1 : m'.c1 = m.c1) (hc : m'.cores = m.cores) (ht : m'.teams = m.teams)
    (hd : m'.grids = m.grids) (hg : m'.groups = m.groups) : SameCaches m m' :=
  ⟨h1, hc, ht, hd, fun i => by simp only [Mach.grp, hg]; exact .refl _⟩

theorem SameCaches.refl (m : Mach) : SameCaches m m := ⟨rfl, rfl, rfl, rfl, fun _ => .refl _⟩

theorem SameCaches.trans {a b c : Mach} (h : SameCaches a b) (h' : SameCaches b c) : SameCaches a c :=
  ⟨h'.c1.trans h.c1, h'.cores.trans h.cores, h'.teams.trans h.teams, h'.grids.trans h.grids, fun i => (h.groups i).trans (h'.groups i)⟩

theorem SameCaches.before {a b c : Mach} (h : SameCaches b c) (h1 : b.c1 = a.c1) (hc : b.cores = a.cores) (ht : b.teams = a.teams)
    (hd : b.grids = a.grids) (hg : b.groups = a.groups) : SameCaches a c := (SameCaches.of h1 hc ht hd hg).trans h

theorem SameCaches.core {m m' : Mach} (h : SameCaches m m') (die c : Nat) : m'.core die c = m.core die c := by
  simp only [Mach.core, h.cores]

theorem SameCaches.team {m m' : Mach} (h : SameCaches m m') (t : Nat) : m'.team t = m.team t := by
  simp only [Mach.team, h.teams]

theorem foldl_sameCaches {α : Type} (f : Mach → α → Mach) (hf : ∀ m a, SameCaches m (f m a)) :
    ∀ (as : List α) (m : Mach), SameCaches m (as.foldl f m)
  | [], m => .refl m
  | a :: as, m => (hf m a).trans (foldl_sameCaches f hf as (f m a))

/-- A group's outstanding words changed. -/
theorem setGrp_sameCaches (m : Mach) (i : Nat) {g : Sys2Proof.Machine.Group} (h : SameButOutst (m.grp i) g) :
    SameCaches m (m.setGrp i g) := by
  refine ⟨rfl, rfl, rfl, rfl, fun k => ?_⟩
  by_cases hk : k = i
  · subst hk
    by_cases hl : k < m.groups.length
    · rwa [Mach.grp_setGrp_same _ hl]
    · have hself : (m.setGrp k g).grp k = m.grp k := by simp [Mach.grp, Mach.setGrp, hl]
      rw [hself]
      exact .refl _
  · rw [Mach.grp_setGrp_other _ hk]
    exact .refl _

theorem dropOutst_same (g : Sys2Proof.Machine.Group) (o : Outst) : SameButOutst g (dropOutst g o) := by
  unfold dropOutst
  dsimp only
  split
  · rfl
  · cases o.flag <;> rfl

theorem satisfyWord_same (g : Sys2Proof.Machine.Group) (id : Nat) (ls : Mask) (here : Bool) :
    SameButOutst g (satisfyWord g id ls here) := by
  unfold satisfyWord
  split
  · rfl
  · split
    · dsimp only
      split
      · exact dropOutst_same _ _
      · rfl
    · rfl

theorem satisfy_caches (m : Mach) (k : Monitor) : SameCaches m (satisfy m k) := setGrp_sameCaches m _ (satisfyWord_same _ _ _ _)

theorem testMonitors_caches (m : Mach) (die key n : Nat) : SameCaches m (testMonitors m die key n) := by
  unfold testMonitors
  dsimp only
  split
  · exact .refl m
  · exact (foldl_sameCaches satisfy satisfy_caches _ _).before rfl rfl rfl rfl rfl

theorem testFrom_caches (m : Mach) (key n : Nat) : SameCaches m (testFrom m key n) := by
  unfold testFrom
  split
  · exact .refl m
  · exact foldl_sameCaches _ (fun _ _ => testMonitors_caches _ _ _ _) _ _

theorem SameCaches.ite {p : Prop} [Decidable p] {m a b : Mach} (ha : SameCaches m a) (hb : SameCaches m b) :
    SameCaches m (if p then a else b) := by
  split
  · exact ha
  · exact hb

theorem setPart_caches (m : Mach) (p : Nat) (x : Part) : SameCaches m (m.setPart p x) := .of rfl rfl rfl rfl rfl
theorem setMc_caches (m : Mach) (d : Nat) (x : MemDie) : SameCaches m (m.setMc d x) := .of rfl rfl rfl rfl rfl

theorem pmodeWrite_caches (m : Mach) (p v : Nat) : SameCaches m (pmodeWrite m p v) :=
  .ite (.refl m) (.ite (setPart_caches ..) (.of rfl rfl rfl rfl rfl))

theorem ctlWrite_caches (m : Mach) (p off : Nat) (v : Word) (cov : Nat → Bool) : SameCaches m (ctlWrite m p off v cov) := by
  have hp : ∀ x, SameCaches m (m.setPart p x) := setPart_caches m p
  have hr := SameCaches.refl m
  unfold ctlWrite
  dsimp only
  split
  · exact .ite (pmodeWrite_caches m p _) hr
  · exact .ite hr (hp _)
  · exact .ite (hp _) (hp _)
  · exact .ite hr (hp _)
  · exact hp _
  · exact .ite hr (hp _)
  · exact .ite hr (hp _)
  · exact .ite hr (hp _)
  · exact .ite hr (hp _)
  · exact .ite hr (hp _)
  · exact .ite (hp _) hr
  · exact hr

theorem syeWrite_caches (m : Mach) (p die off : Nat) (v : Word) : SameCaches m (syeWrite m p die off v) := by
  have hd : ∀ x, SameCaches m (m.setMc die x) := setMc_caches m die
  have hr := SameCaches.refl m
  unfold syeWrite
  dsimp only
  split
  · exact .ite (hd _) hr
  · exact .ite (hd _) hr
  · exact hd _
  · exact hd _
  · exact .ite (hd _) (hd _)
  · exact hr

theorem devWrite_caches (m : Mach) (p off : Nat) (v : Word) (cov : Nat → Bool) : SameCaches m (devWrite m p off v cov) :=
  .ite (ctlWrite_caches ..) (.ite (setPart_caches ..) (.ite (.ite (syeWrite_caches ..) (.refl m)) (.refl m)))

/-- A write by key changes no cache, no scratchpad and no register. -/
theorem wrBytes_caches (m : Mach) (key : Nat) (bs : List Byte) : SameCaches m (wrBytes m key bs) :=
  .ite (foldl_sameCaches _ (fun _ _ => devWrite_caches _ _ _ _ _) _ _)
    ((testFrom_caches _ _ _).before rfl rfl rfl rfl rfl)

theorem wrLine_caches (m : Mach) (line : Nat) (cells : List (Nat × Byte)) : SameCaches m (wrLine m line cells) :=
  .ite (foldl_sameCaches _ (fun _ _ => wrBytes_caches _ _ _) _ _)
    ((testFrom_caches _ _ _).before rfl rfl rfl rfl rfl)

theorem wrLines_caches (m : Mach) (cells : List (Nat × Byte)) : SameCaches m (wrLines m cells) :=
  foldl_sameCaches _ (fun _ _ => wrLine_caches _ _ _) _ _

/-! ## What write-backs make of memory -/

/-- A line lies in one region. -/
theorem keyRegion_line (k : Nat) : keyRegion (128 * (k / 128)) = keyRegion k := by
  unfold keyRegion
  split_ifs <;> omega

theorem rdByte_wrLine_other {m : Mach} {line k : Nat} {cells : List (Nat × Byte)} (hk : keyRegion k ≠ 3) (h : ∀ c ∈ cells, c.1 ≠ k) :
    rdByte (wrLine m line cells) k = rdByte m k := by
  unfold wrLine
  split
  · induction cells generalizing m with
    | nil => rfl
    | cons c cs ih =>
      rw [List.foldl_cons, ih fun c hc => h c (List.mem_cons_of_mem _ hc)]
      have := h c (List.mem_cons_self ..)
      exact rdByte_wrBytes_other m [c.2] hk (by simp only [List.length_singleton]; omega)
  · rw [rdByte_mem hk, rdByte_mem hk]
    dsimp only
    rw [testFrom_mem]
    exact get_foldl_set_other Memory.fill Prod.fst Prod.snd cells m.mem h

theorem rdByte_wrLine_same {m : Mach} {line k : Nat} {b : Byte} {cells : List (Nat × Byte)} (hk : keyRegion k ≠ 3)
    (hl : line = k / 128) (hd : (cells.map Prod.fst).Nodup) (hm : (k, b) ∈ cells) : rdByte (wrLine m line cells) k = b := by
  unfold wrLine
  rw [hl, keyRegion_line, if_neg hk, rdByte_mem hk]
  dsimp only
  rw [testFrom_mem]
  exact get_foldl_set_same Memory.fill Prod.fst Prod.snd (b := (k, b)) cells m.mem hd hm

theorem rdByte_wrLines_other {m : Mach} {k : Nat} {cells : List (Nat × Byte)} (hk : keyRegion k ≠ 3) (h : ∀ c ∈ cells, c.1 ≠ k) :
    rdByte (wrLines m cells) k = rdByte m k := by
  unfold wrLines
  induction (cells.map fun c => c.1 / 128).dedup generalizing m with
  | nil => rfl
  | cons l ls ih =>
    rw [List.foldl_cons, ih, rdByte_wrLine_other hk fun c hc => h c (List.mem_filter.mp hc).1]

theorem rdByte_wrLines_same {m : Mach} {k : Nat} {b : Byte} {cells : List (Nat × Byte)} (hk : keyRegion k ≠ 3)
    (hd : (cells.map Prod.fst).Nodup) (hm : (k, b) ∈ cells) : rdByte (wrLines m cells) k = b := by
  have hline : ∀ m l, l ≠ k / 128 → rdByte (wrLine m l (cells.filter fun c => c.1 / 128 = l)) k = rdByte m k := fun m l hl =>
    rdByte_wrLine_other hk fun c hc he => hl (he ▸ (of_decide_eq_true (List.mem_filter.mp hc).2).symm)
  have hsame : ∀ m, rdByte (wrLine m (k / 128) (cells.filter fun c => c.1 / 128 = k / 128)) k = b := fun m =>
    rdByte_wrLine_same hk rfl (hd.sublist (List.filter_sublist.map _)) (List.mem_filter.mpr ⟨hm, by simp⟩)
  have hmem : k / 128 ∈ (cells.map fun c => c.1 / 128).dedup := List.mem_dedup.mpr (List.mem_map.mpr ⟨_, hm, rfl⟩)
  unfold wrLines
  have hnd := List.nodup_dedup (cells.map fun c => c.1 / 128)
  generalize (cells.map fun c => c.1 / 128).dedup = ls at hmem hnd
  have hrest : ∀ (ls : List Nat) (m : Mach), k / 128 ∉ ls →
      rdByte (ls.foldl (fun m l => wrLine m l (cells.filter fun c => c.1 / 128 = l)) m) k = rdByte m k := by
    intro ls
    induction ls with
    | nil => exact fun _ _ => rfl
    | cons l ls ih =>
      intro m hn
      rw [List.mem_cons, not_or] at hn
      rw [List.foldl_cons, ih _ hn.2, hline m l (Ne.symm hn.1)]
  induction ls generalizing m with
  | nil => cases hmem
  | cons l ls ih =>
    rw [List.nodup_cons] at hnd
    rw [List.foldl_cons]
    rcases List.mem_cons.mp hmem with he | hmem
    · rw [← he] at hnd ⊢
      rw [hrest ls _ hnd.1, hsame]
    · exact ih hmem hnd.2

/-! ## The bytes that cores hold dirty of coh-1 lines -/

theorem mem_c1In {m : Mach} {who : Dirty1 → Bool} {lo n k : Nat} {x : Dirty1} :
    (k, x) ∈ c1In m who lo n ↔ (k, some x) ∈ m.c1 ∧ (who x && lo ≤ k && k < lo + n) = true := by
  unfold c1In
  rw [List.mem_filterMap]
  constructor
  · rintro ⟨⟨j, y⟩, he, hx⟩
    cases y with
    | none => cases hx
    | some y =>
      dsimp only at hx
      split at hx
      · rename_i hw
        cases hx
        exact ⟨he, hw⟩
      · cases hx
  · rintro ⟨he, hw⟩
    exact ⟨_, he, if_pos hw⟩

/-- The newest value of a byte: dirty in a level-1 cache of a coh-1 line, or in memory. -/
def newestByte (m : Mach) (k : Nat) : Byte := match Tbl.get none m.c1 k with | some x => x.val | none => rdByte m k

theorem flushC1In_c1 (m : Mach) (who : Dirty1 → Bool) (lo n : Nat) :
    (flushC1In m who lo n).c1 = m.c1.filter fun e => !((c1In m who lo n).any fun x => x.1 = e.1) :=
  (wrLines_caches _ _).c1

theorem keys_nodup_of_wf {α : Type} [DecidableEq α] (d : α) {t : Tbl α} {lo : Nat} (h : Tbl.wfFrom d lo t = true) :
    (t.map Prod.fst).Nodup := by
  induction t generalizing lo with
  | nil => exact List.nodup_nil
  | cons e t ih =>
    obtain ⟨j, y⟩ := e
    simp only [Tbl.wfFrom, Bool.and_eq_true, decide_eq_true_eq] at h
    obtain ⟨_, ht⟩ := h
    rw [List.map_cons, List.nodup_cons]
    refine ⟨fun hm => ?_, ih ht⟩
    obtain ⟨e, he, hk⟩ := List.mem_map.mp hm
    have := (get_of_mem_wf d ht he).2
    omega

theorem c1In_keys_nodup {m : Mach} (h : Tbl.wfFrom none 0 m.c1 = true) (who : Dirty1 → Bool) (lo n : Nat) :
    ((c1In m who lo n).map Prod.fst).Nodup := by
  have hsub : ((c1In m who lo n).map Prod.fst).Sublist (m.c1.map Prod.fst) := by
    unfold c1In
    induction m.c1 with
    | nil => exact .slnil
    | cons e t ih =>
      rw [List.filterMap_cons]
      split
      · exact .cons _ ih
      · rename_i b hb
        have hkey : b.1 = e.1 := by
          obtain ⟨j, y⟩ := e
          cases y with
          | none => cases hb
          | some y =>
            dsimp only at hb
            split at hb
            · cases hb; rfl
            · cases hb
        rw [List.map_cons, List.map_cons, hkey]
        exact .cons_cons _ ih
  exact (keys_nodup_of_wf none h).sublist hsub

/-- A write-back changes no byte's newest value (14 R329). -/
theorem newestByte_flushC1In {m : Mach} (h : Tbl.wfFrom none 0 m.c1 = true) (who : Dirty1 → Bool) (lo n : Nat) {k : Nat}
    (hk : keyRegion k ≠ 3) : newestByte (flushC1In m who lo n) k = newestByte m k := by
  have hany : ∀ e : Nat × Option Dirty1, e.1 = k →
      (!((c1In m who lo n).any fun x => x.1 = e.1)) = !((c1In m who lo n).any fun x => x.1 = k) := fun e he => by rw [he]
  by_cases hm : ∃ x, (k, x) ∈ c1In m who lo n
  · obtain ⟨x, hx⟩ := hm
    have hget : Tbl.get none m.c1 k = some x := (get_of_mem_wf none h (mem_c1In.mp hx).1).1
    have hdrop : Tbl.get none (flushC1In m who lo n).c1 k = none := by
      rw [flushC1In_c1]
      refine get_filter_of_dropped none _ _ fun e _ he => ?_
      rw [hany e he, Bool.not_eq_false', List.any_eq_true]
      exact ⟨_, hx, by simp⟩
    unfold newestByte
    rw [hdrop, hget]
    refine rdByte_wrLines_same hk ?_ (List.mem_map.mpr ⟨_, hx, rfl⟩)
    rw [List.map_map]
    exact c1In_keys_nodup h who lo n
  · have hno : ∀ x ∈ c1In m who lo n, x.1 ≠ k := fun x hx he => hm ⟨x.2, he ▸ hx⟩
    have hkeep : Tbl.get none (flushC1In m who lo n).c1 k = Tbl.get none m.c1 k := by
      rw [flushC1In_c1]
      refine get_filter_of_kept none _ _ fun e _ he => ?_
      rw [hany e he, Bool.not_eq_true', List.any_eq_false]
      exact fun x hx => by simpa using hno x hx
    have hmem : rdByte (flushC1In m who lo n) k = rdByte m k := by
      unfold flushC1In
      refine (rdByte_wrLines_other hk fun c hc => ?_).trans (by rw [rdByte_mem hk, rdByte_mem hk])
      obtain ⟨x, hx, rfl⟩ := List.mem_map.mp hc
      exact hno x hx
    unfold newestByte
    rw [hkeep, hmem]

theorem newestByte_recallC1 {m : Mach} (h : Tbl.wfFrom none 0 m.c1 = true) (key n : Nat) {k : Nat} (hk : keyRegion k ≠ 3) :
    newestByte (recallC1 m key n) k = newestByte m k := by
  unfold recallC1
  split
  · rfl
  · exact newestByte_flushC1In h _ _ _ hk

theorem flushC1In_c1_wf {m : Mach} (h : Tbl.wfFrom none 0 m.c1 = true) (who : Dirty1 → Bool) (lo n : Nat) :
    Tbl.wfFrom none 0 (flushC1In m who lo n).c1 = true := by
  rw [flushC1In_c1]
  exact wfFrom_filter _ _ _ _ h

theorem recallC1_c1_wf {m : Mach} (h : Tbl.wfFrom none 0 m.c1 = true) (key n : Nat) : Tbl.wfFrom none 0 (recallC1 m key n).c1 = true := by
  unfold recallC1
  split
  · exact h
  · exact flushC1In_c1_wf h _ _ _

/-- A write-back of coh-1 bytes changes no other cache, no scratchpad and no register. -/
theorem flushC1In_others (m : Mach) (who : Dirty1 → Bool) (lo n : Nat) : SameCaches { m with c1 := (flushC1In m who lo n).c1 } (flushC1In m who lo n) := by
  have h := wrLines_caches { m with c1 := m.c1.filter fun e => !((c1In m who lo n).any fun x => x.1 = e.1) } ((c1In m who lo n).map fun x => (x.1, x.2.val))
  exact ⟨rfl, h.cores, h.teams, h.grids, h.groups⟩

theorem recallC1_others (m : Mach) (key n : Nat) : SameCaches { m with c1 := (recallC1 m key n).c1 } (recallC1 m key n) := by
  unfold recallC1
  split
  · exact .refl m
  · exact flushC1In_others m _ _ _

end Sys2Proof.Proofs
end

section
/-!
PROOFS. The frame of stores (02 R100, 14 R328, R329).
-/

namespace Sys2Proof.Proofs

open Sys2Proof.Machine Sys2Proof.Claims

theorem length_toBytes (n v : Nat) : (toBytes n v).length = n := by
  induction n generalizing v with
  | zero => rfl
  | succ n ih => rw [toBytes, List.length_cons, ih]

theorem getElem_toBytes {n v i : Nat} (h : i < (toBytes n v).length) : (toBytes n v)[i] = BitVec.ofNat 8 (v / 2 ^ (8 * i)) := by
  induction n generalizing v i with
  | zero => exact absurd h (Nat.not_lt_zero _)
  | succ n ih =>
    cases i with
    | zero => simp [toBytes]
    | succ i =>
      have hi : i < (toBytes n (v / 256)).length := by simpa [toBytes] using h
      have e : v / 256 / 2 ^ (8 * i) = v / 2 ^ (8 * (i + 1)) := by
        rw [Nat.div_div_eq_div_mul, show 8 * (i + 1) = 8 + 8 * i by omega, Nat.pow_add]
      simp only [toBytes, List.getElem_cons_succ]
      rw [ih hi, e]

theorem core_setCore (m : Mach) (d c : Nat) (x : Core) (d' c' : Nat) :
    (m.setCore d c x).core d' c' = if 64 * d' + c' = 64 * d + c then x else m.core d' c' := by
  unfold Mach.core Mach.setCore
  split
  · rename_i h
    dsimp only
    rw [h, Tbl.get_set_same]
  · rename_i h
    exact Tbl.get_set_other _ _ h _

/-- A property of the device that each step of a fold keeps. -/
theorem foldl_same {α β : Type} (f : Mach → β) (step : Mach → α → Mach) (as : List α) (m : Mach)
    (h : ∀ m, ∀ a ∈ as, f (step m a) = f m) : f (as.foldl step m) = f m := by
  induction as generalizing m with
  | nil => rfl
  | cons a as ih => rw [List.foldl_cons, ih _ fun m b hb => h m b (List.mem_cons_of_mem _ hb), h m a (List.mem_cons_self ..)]

/-! ## What a store drops of its own party's copies -/

/-- A key outside the bytes of a store. -/
def Outside (key n k : Nat) : Prop := k < key ∨ key + n ≤ k

theorem outside_decide {key n k : Nat} (h : Outside key n k) : (decide (k < key) || decide (key + n ≤ k)) = true := by
  simpa [Outside] using h

theorem supersede_c1_other (m : Mach) (w : Who) {key n k : Nat} (h : Outside key n k) :
    Tbl.get none (supersede m w key n).c1 k = Tbl.get none m.c1 k := by
  have hk : ∀ f : Nat × Option Dirty1 → Bool, Tbl.get none (m.c1.filter fun e => (decide (e.1 < key) || decide (key + n ≤ e.1)) || f e) k =
      Tbl.get none m.c1 k := fun f => get_filter_of_kept none _ _ fun e _ he => by rw [he, outside_decide h]; rfl
  unfold supersede
  split
  · rfl
  · dsimp only
    split <;> exact hk _

theorem supersede_c1_wf {m : Mach} (hw : Tbl.wfFrom none 0 m.c1 = true) (w : Who) (key n : Nat) :
    Tbl.wfFrom none 0 (supersede m w key n).c1 = true := by
  unfold supersede
  split
  · exact hw
  · dsimp only
    split <;> exact wfFrom_filter _ _ _ _ hw

/-- What a core holds of a key: its coh-2 copy and what narrow atomics left. -/
def coreHolds (c : Core) (k : Nat) : Option Copy2 × Option DirtyA := (Tbl.get none c.c2 k, Tbl.get none c.atoms k)

theorem core_setCore_holds {m : Mach} {d c k : Nat} {x : Core} (h : coreHolds x k = coreHolds (m.core d c) k) (d' c' : Nat) :
    coreHolds ((m.setCore d c x).core d' c') k = coreHolds (m.core d' c') k := by
  rw [core_setCore]
  split
  · rename_i he
    rw [h, Mach.core, Mach.core, he]
  · rfl

theorem supersede_core_other (m : Mach) (w : Who) {key n k : Nat} (h : Outside key n k) (die c : Nat) :
    coreHolds ((supersede m w key n).core die c) k = coreHolds (m.core die c) k := by
  have kept : ∀ {α : Type} (f : Nat × Option α → Bool) (t : Tbl (Option α)),
      Tbl.get none (t.filter fun e => (decide (e.1 < key) || decide (key + n ≤ e.1)) || f e) k = Tbl.get none t k := fun f t =>
    get_filter_of_kept none _ _ fun e _ he => by rw [he, outside_decide h]; rfl
  have kept' : ∀ {α : Type} (t : Tbl (Option α)),
      Tbl.get none (t.filter fun e => decide (e.1 < key) || decide (key + n ≤ e.1)) k = Tbl.get none t k := fun t =>
    get_filter_of_kept none _ _ fun e _ he => by rw [he, outside_decide h]
  unfold supersede
  split
  · rfl
  · dsimp only
    split
    · refine (core_setCore_holds ?_ die c).trans rfl
      exact Prod.ext (kept' _) (kept' _)
    · refine (core_setCore_holds ?_ die c).trans ((core_setCore_holds ?_ die c).trans rfl)
      · exact Prod.ext rfl (kept _ _)
      · exact Prod.ext (kept' _) (kept' _)

theorem supersede_teams (m : Mach) (w : Who) (key n : Nat) :
    (supersede m w key n).teams = m.teams ∧ (supersede m w key n).groups = m.groups := by
  unfold supersede
  split
  · exact ⟨rfl, rfl⟩
  · dsimp only
    split <;> exact ⟨rfl, rfl⟩

/-! ## One store -/

/-- The ways a store to memory goes: past the caches with the dirty lines that it meets written back, into a level-1 cache of a
coh-1 or coh-2 line, or to the level-2 slice (14 R328 to R330). -/
theorem doStore_mem_cases {P : Mach → Prop} {m m0 : Mach} {w : Who} {n v key : Nat} {leaf : Word} (h0 : supersede m w key n = m0)
    (recalled : (w.die ≥ 12 ∨ (keyRegion key = 1 ∧ keyPart key ≠ w.part)) → P (wrBytes (recallC1 m0 key n) key (toBytes n v)))
    (coh1 : ∀ x : Nat × Byte → Dirty1,
      P { m0 with c1 := ((List.range n).zip (toBytes n v)).foldl (fun t ib => Tbl.set none t (key + ib.1) (some (x ib))) m0.c1 })
    (coh2 : ∀ (c : Core) (x : Nat × Byte → Copy2), c = m0.core w.die w.core → P (m0.setCore w.die w.core
        { c with c2 := ((List.range n).zip (toBytes n v)).foldl (fun t ib => Tbl.set none t (key + ib.1) (some (x ib))) c.c2 }))
    (slice : P (wrBytes m0 key (toBytes n v))) : P (doStore m w n v (.mem key leaf)) := by
  subst h0
  unfold doStore
  dsimp only
  split
  · rename_i h
    exact recalled h
  · split
    · exact coh1 fun ib => { core := 64 * w.die + w.core, tag := w.tag, seen := _, val := ib.2 }
    · exact coh2 _ (fun ib => { dirty := true, tag := w.tag, val := ib.2 }) rfl
    · exact slice

theorem zip_range_ne {key n k : Nat} (h : Outside key n k) (bs : List Byte) : ∀ ib ∈ (List.range n).zip bs, key + ib.1 ≠ k := by
  intro ib hib
  have := List.mem_range.mp (List.of_mem_zip hib).1
  rcases h with h | h <;> omega

theorem outside_toBytes {key n k : Nat} (h : Outside key n k) (v : Nat) : k < key ∨ key + (toBytes n v).length ≤ k := by
  rwa [length_toBytes]

theorem rdByte_of_mem {m m' : Mach} {k : Nat} (hk : keyRegion k ≠ 3) (h : m'.mem = m.mem) : rdByte m' k = rdByte m k := by
  rw [rdByte_mem hk, rdByte_mem hk, h]

theorem rdByte_supersede (m : Mach) (w : Who) (key n : Nat) {k : Nat} (hk : keyRegion k ≠ 3) :
    rdByte (supersede m w key n) k = rdByte m k := by
  rw [rdByte_mem hk, rdByte_mem hk, supersede_mem]

theorem doStore_other_own {m : Mach} {w : Who} {n v key k : Nat} {leaf : Word} (hk : keyRegion k ≠ 3) (h : Outside key n k)
    (hown : w.die < 12 ∧ (keyRegion key = 1 → keyPart key = w.part)) :
    rdByte (doStore m w n v (.mem key leaf)) k = rdByte m k ∧
      Tbl.get none (doStore m w n v (.mem key leaf)).c1 k = Tbl.get none m.c1 k := by
  have hsup := rdByte_supersede m w key n hk
  have hc1 := supersede_c1_other m w h
  obtain ⟨m0, h0⟩ : ∃ m0, supersede m w key n = m0 := ⟨_, rfl⟩
  rw [h0] at hsup hc1
  refine doStore_mem_cases (P := fun m' => rdByte m' k = rdByte m k ∧ Tbl.get none m'.c1 k = Tbl.get none m.c1 k) h0 (fun hr => ?_) (fun x => ?_) (fun c x hc => ?_) ?_
  · obtain ⟨hdie, hpart⟩ := hown
    rcases hr with hr | ⟨hr, hne⟩
    · omega
    · exact absurd (hpart hr) hne
  · refine ⟨?_, (get_foldl_set_other none (fun ib : Nat × Byte => key + ib.1) (fun ib => some (x ib)) _ _ (zip_range_ne h _)).trans hc1⟩
    refine (rdByte_of_mem (m := m0) hk ?_).trans hsup
    rfl
  · refine ⟨?_, hc1⟩
    refine (rdByte_of_mem (m := m0) hk ?_).trans hsup
    rfl
  · exact ⟨(rdByte_wrBytes_other _ _ hk (outside_toBytes h v)).trans hsup, (congrArg (Tbl.get none · k) (wrBytes_caches _ _ _).c1).trans hc1⟩

theorem newestByte_congr {m m' : Mach} {k : Nat} (h1 : Tbl.get none m'.c1 k = Tbl.get none m.c1 k) (h2 : rdByte m' k = rdByte m k) :
    newestByte m' k = newestByte m k := by
  unfold newestByte
  rw [h1, h2]

theorem newestByte_doStore {m : Mach} {w : Who} {n v key k : Nat} {leaf : Word} (hw : Tbl.wfFrom none 0 m.c1 = true)
    (hk : keyRegion k ≠ 3) (h : Outside key n k) : newestByte (doStore m w n v (.mem key leaf)) k = newestByte m k := by
  have hsup : newestByte (supersede m w key n) k = newestByte m k :=
    newestByte_congr (supersede_c1_other m w h) (rdByte_supersede m w key n hk)
  have hwf := supersede_c1_wf hw w key n
  obtain ⟨m0, h0⟩ : ∃ m0, supersede m w key n = m0 := ⟨_, rfl⟩
  rw [h0] at hsup hwf
  refine doStore_mem_cases (P := fun m' => newestByte m' k = newestByte m k) h0 (fun hr => ?_) (fun x => ?_) (fun c x hc => ?_) ?_
  · refine (newestByte_congr ?_ (rdByte_wrBytes_other _ _ hk (outside_toBytes h v))).trans
      ((newestByte_recallC1 hwf key n hk).trans hsup)
    exact congrArg (Tbl.get none · k) (wrBytes_caches _ _ _).c1
  · refine (newestByte_congr (m := m0) ?_ (rdByte_of_mem hk ?_)).trans hsup
    · exact get_foldl_set_other none (fun ib : Nat × Byte => key + ib.1) (fun ib => some (x ib)) _ _ (zip_range_ne h _)
    · rfl
  · refine (newestByte_congr (m := m0) ?_ (rdByte_of_mem hk ?_)).trans hsup <;> rfl
  · refine (newestByte_congr ?_ (rdByte_wrBytes_other _ _ hk (outside_toBytes h v))).trans hsup
    exact congrArg (Tbl.get none · k) (wrBytes_caches _ _ _).c1

theorem doStore_c1_wf {m : Mach} (hw : Tbl.wfFrom none 0 m.c1 = true) (w : Who) (n v : Nat) (l : Loc) :
    Tbl.wfFrom none 0 (doStore m w n v l).c1 = true := by
  cases l with
  | mem key leaf =>
    have hs := supersede_c1_wf hw w key n
    obtain ⟨m0, h0⟩ : ∃ m0, supersede m w key n = m0 := ⟨_, rfl⟩
    rw [h0] at hs
    refine doStore_mem_cases (P := fun m' => Tbl.wfFrom none 0 m'.c1 = true) h0 (fun hr => ?_) (fun x => ?_) (fun c x hc => hs) ?_
    · rw [(wrBytes_caches _ _ _).c1]
      exact recallC1_c1_wf hs key n
    · exact wfFrom_foldl_set none (fun ib : Nat × Byte => key + ib.1) (fun ib => some (x ib)) _ _ hs
    · rw [(wrBytes_caches _ _ _).c1]
      exact hs
  | win g reg lane byte => exact hw
  | spad t off => exact hw

theorem doStore_core_other (m : Mach) (w : Who) {n v key k : Nat} {leaf : Word} (h : Outside key n k) (die c : Nat) :
    coreHolds ((doStore m w n v (.mem key leaf)).core die c) k = coreHolds (m.core die c) k := by
  have hsup := supersede_core_other m w h die c
  obtain ⟨m0, h0⟩ : ∃ m0, supersede m w key n = m0 := ⟨_, rfl⟩
  rw [h0] at hsup
  refine doStore_mem_cases (P := fun m' => coreHolds (m'.core die c) k = coreHolds (m.core die c) k) h0 (fun hr => ?_) (fun x => ?_) (fun c' x hc => ?_) ?_
  · rw [(wrBytes_caches _ _ _).core, (recallC1_others _ key n).core]
    exact hsup
  · exact hsup
  · subst hc
    refine (core_setCore_holds ?_ die c).trans hsup
    refine Prod.ext ?_ rfl
    exact get_foldl_set_other none (fun ib : Nat × Byte => key + ib.1) (fun ib => some (x ib)) _ _ (zip_range_ne h _)
  · rw [(wrBytes_caches _ _ _).core]
    exact hsup

/-- A store to memory changes no scratchpad and no vector register. -/
theorem doStore_mem_teams (m : Mach) (w : Who) (n v key : Nat) (leaf : Word) :
    (doStore m w n v (.mem key leaf)).teams = m.teams ∧ ∀ g, ((doStore m w n v (.mem key leaf)).grp g).v = (m.grp g).v := by
  obtain ⟨ht, hg⟩ := supersede_teams m w key n
  have hv : ∀ g, ((supersede m w key n).grp g).v = (m.grp g).v := fun g => by simp only [Mach.grp, hg]
  obtain ⟨m0, h0⟩ : ∃ m0, supersede m w key n = m0 := ⟨_, rfl⟩
  rw [h0] at ht hv
  refine doStore_mem_cases (P := fun m' => m'.teams = m.teams ∧ ∀ g, (m'.grp g).v = (m.grp g).v) h0 (fun hr => ?_) (fun x => ⟨ht, hv⟩) (fun c x hc => ⟨ht, hv⟩) ?_
  · have hr := recallC1_others m0 key n
    have hb := wrBytes_caches (recallC1 m0 key n) key (toBytes n v)
    exact ⟨hb.teams.trans (hr.teams.trans ht), fun g => (hb.regs g).trans ((hr.regs g).trans (hv g))⟩
  · have hb := wrBytes_caches m0 key (toBytes n v)
    exact ⟨hb.teams.trans ht, fun g => (hb.regs g).trans (hv g)⟩

theorem spadPut_other (m : Mach) {t off tm k : Nat} {bs : List Byte} (h : t ≠ tm ∨ k < off ∨ off + bs.length ≤ k) :
    Tbl.get 0 ((spadPut m t off bs).team tm).spad k = Tbl.get 0 (m.team tm).spad k := by
  unfold spadPut
  by_cases ht : tm = t
  · subst ht
    by_cases hl : tm < m.teams.length
    · rw [Mach.team_setTeam_same _ hl]
      exact get_foldl_set_other 0 (fun ib : Nat × Byte => off + ib.1) Prod.snd _ _
        (zip_range_ne (h.resolve_left (not_not_intro rfl)) bs)
    · simp [Mach.team, Mach.setTeam, hl]
  · rw [Mach.team_setTeam_other _ ht]

theorem doStore_win_other (m : Mach) (w : Who) {n v g reg lane byte i r : Nat} (h : g ≠ i ∨ 64 * reg + lane ≠ r) :
    Tbl.get 0 ((doStore m w n v (.win g reg lane byte)).grp i).v r = Tbl.get 0 (m.grp i).v r := by
  unfold doStore
  dsimp only
  by_cases hi : i = g
  · subst hi
    by_cases hl : i < m.groups.length
    · rw [Mach.grp_setGrp_same _ hl]
      exact Tbl.get_set_other _ _ (h.resolve_left (not_not_intro rfl)).symm _
    · simp [Mach.grp, Mach.setGrp, hl]
  · rw [Mach.grp_setGrp_other _ hi]

/-- A store to plain memory that no line protocol holds back is one write at the level-2 slice (10 R229, 14 R328). -/
theorem rdByte_doStore_same {m : Mach} {w : Who} {n val key i : Nat} {leaf : Word} (hi : i < n) (h1 : cohOf m leaf key ≠ 1)
    (h2 : cohOf m leaf key ≠ 2) (hr : keyRegion key ≠ 3) (hri : keyRegion (key + i) ≠ 3) :
    rdByte (doStore m w n val (.mem key leaf)) (key + i) = BitVec.ofNat 8 (val / 2 ^ (8 * i)) := by
  have hlen : i < (toBytes n val).length := by rwa [length_toBytes]
  have hb : ∀ m', rdByte (wrBytes m' key (toBytes n val)) (key + i) = BitVec.ofNat 8 (val / 2 ^ (8 * i)) := fun m' => by
    rw [rdByte_wrBytes_same m' _ hlen hr hri, getElem_toBytes hlen]
  unfold doStore
  dsimp only
  split
  · exact hb _
  · split
    · exact absurd ‹_› h1
    · exact absurd ‹_› h2
    · exact hb _

/-- Settles O22, store by store. -/
theorem storeFrame : Obligations.StoreFrame := by
  constructor
  · intro m w n val ls m' out own newest
    refine ⟨?_, ?_, ?_, ?_, ?_⟩
    · intro hown k hk hout
      have hstep : ∀ m, ∀ l ∈ ls, rdByte (doStore m w n (val l.1).toNat l.2) k = rdByte m k ∧
          Tbl.get none (doStore m w n (val l.1).toNat l.2).c1 k = Tbl.get none m.c1 k := by
        intro m l hl
        cases he : l.2 with
        | mem key leaf => exact doStore_other_own hk (hout l hl key leaf he) ⟨hown.1, hown.2 l hl key leaf he⟩
        | win g reg lane byte => exact ⟨rdByte_of_mem hk rfl, rfl⟩
        | spad t off => exact ⟨rdByte_of_mem hk rfl, rfl⟩
      exact ⟨foldl_same (rdByte · k) _ ls m fun m l hl => (hstep m l hl).1,
        foldl_same (fun m => Tbl.get none m.c1 k) _ ls m fun m l hl => (hstep m l hl).2⟩
    · intro hw k hk hout
      change newestByte m' k = newestByte m k
      have hstep : ∀ m, Tbl.wfFrom none 0 m.c1 = true → ∀ l ∈ ls, newestByte (doStore m w n (val l.1).toNat l.2) k = newestByte m k := by
        intro m hw l hl
        cases he : l.2 with
        | mem key leaf => exact newestByte_doStore hw hk (hout l hl key leaf he)
        | win g reg lane byte => exact newestByte_congr rfl (rdByte_of_mem hk rfl)
        | spad t off => exact newestByte_congr rfl (rdByte_of_mem hk rfl)
      refine (List.foldlRecOn (motive := fun m1 => Tbl.wfFrom none 0 m1.c1 = true ∧ newestByte m1 k = newestByte m k) ls _ ⟨hw, rfl⟩ ?_).2
      rintro m1 ⟨hw1, hn1⟩ l hl
      exact ⟨doStore_c1_wf hw1 w n _ _, (hstep m1 hw1 l hl).trans hn1⟩
    · intro k hout die core
      have hstep : ∀ m, ∀ l ∈ ls, coreHolds ((doStore m w n (val l.1).toNat l.2).core die core) k = coreHolds (m.core die core) k := by
        intro m l hl
        cases he : l.2 with
        | mem key leaf => exact doStore_core_other m w (hout l hl key leaf he) die core
        | win g reg lane byte => rfl
        | spad t off => rfl
      exact Prod.ext_iff.mp (foldl_same (fun m => coreHolds (m.core die core) k) _ ls m hstep)
    · intro tm k hout
      refine foldl_same (fun m => Tbl.get 0 (m.team tm).spad k) _ ls m fun m l hl => ?_
      cases he : l.2 with
      | mem key leaf =>
        have ht := (doStore_mem_teams m w n (val l.1).toNat key leaf).1
        simp only [Mach.team, ht]
      | win g reg lane byte => rfl
      | spad t off => exact spadPut_other m ((hout l hl t off he).imp_right fun h => by rwa [length_toBytes])
    · intro g r hout
      refine foldl_same (fun m => Tbl.get 0 (m.grp g).v r) _ ls m fun m l hl => ?_
      cases he : l.2 with
      | mem key leaf => exact congrArg (Tbl.get 0 · r) ((doStore_mem_teams m w n (val l.1).toNat key leaf).2 g)
      | win h reg lane byte => exact doStore_win_other m w (hout l hl h reg lane byte he)
      | spad t off => rfl
  · intro m w n val key leaf i hi h1 h2 hr hri
    exact rdByte_doStore_same hi h1 h2 hr hri

end Sys2Proof.Proofs
end

section
/-!
PROOFS. Memory keeps its canonical form: what the operations that stop groups, end teams and kill grids make of memory.
-/

namespace Sys2Proof.Proofs

open Sys2Proof.Machine Sys2Proof.Claims

/-! ## Operations that leave memory alone -/

theorem ite_mem_eq {p : Prop} [Decidable p] {m a b : Mach} (ha : a.mem = m.mem) (hb : b.mem = m.mem) : (if p then a else b).mem = m.mem := by
  split
  · exact ha
  · exact hb

theorem holdFor_mem (m : Mach) (w : Who) (gi who : Nat) (vas : List Nat) : (holdFor m w gi who vas).mem = m.mem :=
  ite_mem_eq rfl rfl

theorem dropHolds_mem (m : Mach) (gi : Nat) : (dropHolds m gi).mem = m.mem := ite_mem_eq rfl rfl

theorem endColl_mem (m : Mach) (k : Nat) : (endColl m k).mem = m.mem := by
  unfold endColl
  split
  · rfl
  · exact ite_mem_eq (m := m) rfl rfl

theorem dropColls_mem (m : Mach) (gi : Nat) : (dropColls m gi).mem = m.mem := by
  refine foldl_mem _ (fun m k => ?_) _ _
  split
  · exact ite_mem_eq (endColl_mem _ _) rfl
  · rfl

theorem disarm_mem (m : Mach) (gi : Nat) : (disarm m gi).mem = m.mem := by
  unfold disarm
  dsimp only
  rw [Mach.setGrp_mem]
  exact foldl_mem _ (by intros; rfl) _ _

theorem forgetGroup_mem (m : Mach) (gi : Nat) : (forgetGroup m gi).mem = m.mem := by
  unfold forgetGroup
  dsimp only
  rw [foldl_mem unstop fun _ _ => rfl, disarm_mem, dropColls_mem]
  exact foldl_mem _ (by intros; rfl) _ _

theorem dropPort_mem (m : Mach) (gi : Nat) : (dropPort m gi).mem = m.mem := by
  unfold dropPort
  dsimp only
  split
  · exact ite_mem_eq rfl rfl
  · rfl

theorem stopGroup_mem (m : Mach) (gi : Nat) (killed : Bool) : (stopGroup m gi killed).mem = m.mem := by
  unfold stopGroup
  dsimp only
  rw [dropPort_mem, dropHolds_mem]
  exact forgetGroup_mem m gi

theorem dropPages_mem (m : Mach) (p : Nat) (s : Shadow) : (dropPages m p s).mem = m.mem := rfl

theorem dropShadows_mem (m : Mach) (gr : Nat) : (dropShadows m gr).mem = m.mem := by
  unfold dropShadows
  exact foldl_mem _ (by intros; rfl) _ _

theorem dropTeamShadows_mem (m : Mach) (ti : Nat) : (dropTeamShadows m ti).mem = m.mem := by
  unfold dropTeamShadows
  refine ite_mem_eq rfl ?_
  exact foldl_mem _ (by intros; rfl) _ _

theorem poolGive_mem (m : Mach) (p : Nat) (r : Option (Nat × Nat)) : (poolGive m p r).mem = m.mem := by
  cases r <;> rfl

theorem dropGroup_mem (m : Mach) (gi : Nat) (keep : Bool) : (dropGroup m gi keep).mem = m.mem :=
  (dropPort_mem _ _).trans (poolGive_mem _ _ _)

theorem performed_mem (m : Mach) (gi id : Nat) (wr : List RegWr) : (performed m gi id wr).mem = m.mem := by
  unfold performed
  dsimp only
  split <;> rfl

theorem dropHalo_mem (m : Mach) (ti h : Nat) : (dropHalo m ti h).mem = m.mem := by
  unfold dropHalo
  split
  · rfl
  · dsimp only
    rw [foldl_mem]
    · split
      · rw [performed_mem]; rfl
      · rfl
    · intro m u
      split <;> rfl

theorem closeLinks_mem (m : Mach) (gi : Nat) : (closeLinks m gi).mem = m.mem := rfl

theorem closeItem_mem (m : Mach) (g : Sys2Proof.Machine.Group) (lane : Nat) : (closeItem m g lane).mem = m.mem := ite_mem_eq rfl rfl

theorem freeMonitors_mem (m : Mach) (gi : Nat) (ls : List Nat) : (freeMonitors m gi ls).mem = m.mem := by
  unfold freeMonitors
  refine foldl_mem _ (fun m d => ?_) _ _
  dsimp only
  split <;> rfl

theorem exitLanes_mem (m : Mach) (gi : Nat) (ls : List Nat) : (exitLanes m gi ls).mem = m.mem := by
  have hclose : (ls.foldl (fun m' l => closeItem m' (m.grp gi) l) m).mem = m.mem := foldl_mem _ (by intros; exact closeItem_mem _ _ _) _ _
  unfold exitLanes
  split
  · rfl
  · dsimp only
    split
    · rw [dropPort_mem, disarm_mem, closeLinks_mem]
      exact (freeMonitors_mem _ _ _).trans hclose
    · exact (freeMonitors_mem _ _ _).trans hclose

theorem retireCourse_mem (m : Mach) (gi vi : Nat) (ds : List (Nat × Option Nat)) : (retireCourse m gi vi ds).mem = m.mem :=
  exitLanes_mem _ _ _

theorem finishCourse_mem (m : Mach) (gi vi : Nat) (ds : List (Nat × Option Nat)) : (finishCourse m gi vi ds).mem = m.mem :=
  ite_mem_eq rfl (retireCourse_mem _ _ _ _)

theorem pushQ_mem {m m' : Mach} {gi n : Nat} {es : List (Word × Origin)} (h : pushQ m gi n es = some (some m')) : m'.mem = m.mem := by
  unfold pushQ at h
  dsimp only at h
  split at h
  · split at h
    · cases h
    · cases h; rfl
  · split at h
    · cases h
    · split at h
      · cases h
      · cases h; rfl
  · cases h

theorem completeWord_mem (m : Mach) (gi : Nat) (o : Outst) : (completeWord m gi o).mem = m.mem := by
  refine (foldl_mem _ (fun m e => ?_) _ _).trans rfl
  split
  · rename_i h
    exact pushQ_mem h
  · rfl

/-! ## Operations that write memory -/

theorem wf_of_mem_eq {m m' : Mach} (h : Memory.wf m.mem = true) (he : m'.mem = m.mem) : Memory.wf m'.mem = true := by rwa [he]

theorem ite_wf {p : Prop} [Decidable p] {a b : Mach} (ha : Memory.wf a.mem = true) (hb : Memory.wf b.mem = true) :
    Memory.wf (if p then a else b).mem = true := by
  split
  · exact ha
  · exact hb

theorem appendReport_wf {m : Mach} (p : Nat) (ws : List Word) (h : Memory.wf m.mem = true) : Memory.wf (appendReport m p ws).mem = true := by
  unfold appendReport
  refine ite_wf h ?_
  dsimp only
  rw [Mach.setPart_mem]
  split
  · exact wrBytes_wf _ _ h
  · exact h

theorem releaseGrid_wf {m : Mach} (gr : Nat) (h : Memory.wf m.mem = true) : Memory.wf (releaseGrid m gr).mem = true :=
  foldl_wf _ (fun _ _ => flushC1_wf _ _) _ _ h

theorem writeStatus_wf {m : Mach} (gr : Nat) (w : Word) (h : Memory.wf m.mem = true) : Memory.wf (writeStatus m gr w).mem = true := by
  have hr := releaseGrid_wf gr h
  unfold writeStatus
  dsimp only
  split
  · exact doStore_wf _ _ _ _ (pinLocs_wf _ hr)
  · exact hr
  · exact appendReport_wf _ _ hr

theorem dropHalos_wf {m : Mach} (ti : Nat) (h : Memory.wf m.mem = true) : Memory.wf (dropHalos m ti).mem = true := by
  refine ite_wf h (wf_of_mem_eq (flushC1_wf (m.team ti).die (m.team ti).core h) ?_)
  exact foldl_mem _ (fun _ _ => dropHalo_mem _ _ _) _ _

theorem endTeam_wf {m : Mach} (ti : Nat) (h : Memory.wf m.mem = true) : Memory.wf (endTeam m ti).mem = true := by
  unfold endTeam
  dsimp only
  rw [Mach.setTeam_mem, poolGive_mem, Mach.setCore_mem, foldl_mem _ fun _ _ => dropGroup_mem _ _ _]
  exact dropHalos_wf ti h

theorem clearGrid_wf {m : Mach} (gr : Nat) (h : Memory.wf m.mem = true) : Memory.wf (clearGrid m gr).mem = true := by
  unfold clearGrid
  dsimp only
  rw [Mach.setGrid_mem, poolGive_mem]
  exact foldl_wf _ (fun _ _ => endTeam_wf _) _ _ h

/-- The death of a grid. -/
theorem killGrid_wf {m : Mach} (gr cause : Nat) (r : Option (List Word)) (h : Memory.wf m.mem = true) :
    Memory.wf (killGrid m gr cause r).mem = true := by
  refine ite_wf h (writeStatus_wf _ _ ?_)
  have hstop : Memory.wf ((groupsOf (m.setGrid gr { m.grid gr with killed := true, cause := cause }) gr).foldl (fun m i => stopGroup m i true)
      (m.setGrid gr { m.grid gr with killed := true, cause := cause })).mem = true :=
    wf_of_mem_eq h (foldl_mem _ (fun _ _ => stopGroup_mem _ _ _) _ _)
  have hclear := clearGrid_wf gr hstop
  have hdrop := ite_wf (p := (m.grid gr).lr.spec = true) (wf_of_mem_eq hclear (dropShadows_mem _ gr)) hclear
  cases r with
  | none => exact hdrop
  | some ws => exact appendReport_wf _ _ hdrop

theorem relaunchTeam_wf {m : Mach} (ti : Nat) (h : Memory.wf m.mem = true) : Memory.wf (relaunchTeam m ti).mem = true := by
  unfold relaunchTeam
  dsimp only
  rw [Mach.setTeam_mem, poolGive_mem, Mach.setCore_mem, foldl_mem _ fun _ _ => (dropGroup_mem _ _ _).trans (stopGroup_mem _ _ _)]
  exact dropHalos_wf ti (wf_of_mem_eq h (dropTeamShadows_mem m ti))

theorem handleUE_wf {m : Mach} (ti : Nat) (h : Memory.wf m.mem = true) : Memory.wf (handleUE m ti).mem = true :=
  ite_wf (appendReport_wf _ _ (relaunchTeam_wf ti h)) (killGrid_wf _ _ _ h)

theorem pinVa_wf {m : Mach} (w : Who) (va : Nat) (h : Memory.wf m.mem = true) : Memory.wf (pinVa m w va).mem = true := by
  unfold pinVa
  split
  · exact pinAt_wf _ _ h
  · exact h

theorem pinRange_wf {m : Mach} (w : Who) (va n : Nat) (h : Memory.wf m.mem = true) : Memory.wf (pinRange m w va n).mem = true := by
  refine foldl_wf _ (fun m i hm => ?_) _ _ (foldl_wf _ (fun _ _ => pinVa_wf _ _) _ _ h)
  split
  · exact takeTurns_wf _ _ hm
  · exact hm

theorem writeFrame_wf (w : Who) (f : Nat) : ∀ (ws : List (Nat × Word)) {m m' : Mach}, Memory.wf m.mem = true →
    writeFrame w f ws m = .done m' → Memory.wf m'.mem = true
  | [], _, _, h, he => by cases he; exact h
  | (off, v) :: ws, m, m', h, he => by
    unfold writeFrame at he
    split at he
    · exact writeFrame_wf w f ws (putAt_wf _ _ _ _ h) he
    · cases he
    · cases he
    · cases he

theorem enterTrap_wf {m : Mach} (gi : Nat) (h : Memory.wf m.mem = true) : Memory.wf (enterTrap m gi).mem = true := by
  have hpin : Memory.wf (pinFrame m (whoGroup m gi) (wb (m.grp gi).tvec 8 40 * 256) 1).mem = true := ite_wf h (pinRange_wf _ _ _ h)
  have hkill : ∀ {m' : Mach} gr cause r, Memory.wf m'.mem = true → Memory.wf (killGrid m' gr cause r).mem = true := fun gr cause r =>
    killGrid_wf gr cause r
  unfold enterTrap
  dsimp only
  split
  · exact h
  · refine ite_wf (handleUE_wf _ h) (ite_wf (wf_of_mem_eq h (stopGroup_mem _ _ _)) (ite_wf (hkill _ _ _ h) (ite_wf h ?_)))
    split
    · exact wf_of_mem_eq h (holdFor_mem _ _ _ _ _)
    · exact hkill _ _ _ hpin
    · split
      · exact wf_of_mem_eq h (holdFor_mem _ _ _ _ _)
      · exact hkill _ _ _ hpin
      · rename_i hdone
        exact wf_of_mem_eq (writeFrame_wf _ _ _ hpin hdone) (dropHolds_mem _ _)

theorem raiseTrap_wf {m : Mach} (gi : Nat) (p : PendTrap) (h : Memory.wf m.mem = true) : Memory.wf (raiseTrap m gi p).mem = true :=
  enterTrap_wf gi h

/-! ## Host writes -/

theorem serveUntil_wf (die bank : Nat) (pick : SyeReq → Bool) : ∀ (n : Nat) {m : Mach}, Memory.wf m.mem = true →
    Memory.wf (serveUntil die bank pick n m).mem = true
  | 0, _, h => h
  | n + 1, m, h => by
    unfold serveUntil
    exact ite_wf (serveUntil_wf die bank pick n (serveBank_wf _ _ h)) h

theorem serveRoom_wf (die bank port : Nat) : ∀ (n : Nat) {m : Mach}, Memory.wf m.mem = true →
    Memory.wf (serveRoom die bank port n m).mem = true
  | 0, _, h => h
  | n + 1, m, h => by
    unfold serveRoom
    exact ite_wf (serveRoom_wf die bank port n (serveBank_wf _ _ h)) h

theorem enqueue_wf {m : Mach} (r : SyeReq) (h : Memory.wf m.mem = true) : Memory.wf (enqueue m r).mem = true :=
  serveRoom_wf _ _ _ _ h

theorem outsideWrite_wf {m : Mach} (port key : Nat) (bs : List Byte) (h : Memory.wf m.mem = true) :
    Memory.wf (outsideWrite m port key bs).mem = true := by
  refine ite_wf (foldl_wf _ (fun m e hm => ?_) _ _ h) (wrBytes_wf _ _ (recallC1_wf _ _ h))
  exact ite_wf (enqueue_wf _ hm) (wrBytes_wf _ _ (recallC1_wf _ _ hm))

theorem servePorts_wf {m : Mach} (die : Nat) (pick : SyeReq → Bool) (h : Memory.wf m.mem = true) :
    Memory.wf (servePorts m die pick).mem = true :=
  foldl_wf _ (fun _ _ => serveUntil_wf _ _ _ _) _ _ h

theorem drainHost_wf {m : Mach} (p : Nat) (h : Memory.wf m.mem = true) : Memory.wf (drainHost m p).mem = true :=
  foldl_wf _ (fun _ _ => servePorts_wf _ _) _ _ h

theorem hostPerform_wf {m : Mach} (p : Nat) (w : HostWrite) (h : Memory.wf m.mem = true) : Memory.wf (hostPerform m p w).mem = true := by
  have hd := drainHost_wf p h
  unfold hostPerform
  split
  · exact h
  · exact ite_wf (outsideWrite_wf _ _ _ hd) (ite_wf (enqueue_wf _ hd) hd)

theorem performPosted_wf {m : Mach} (p : Nat) (h : Memory.wf m.mem = true) : Memory.wf (performPosted m p).mem = true := by
  unfold performPosted
  dsimp only
  split
  · exact h
  · exact hostPerform_wf _ _ h

theorem hostWrite_wf {m : Mach} (p : Nat) (w : HostWrite) (h : Memory.wf m.mem = true) : Memory.wf (hostWrite m p w).mem = true :=
  ite_wf h (ite_wf (performPosted_wf p h) h)

/-! ## The table of dirty bytes -/

theorem flushAtoms_c1 (m : Mach) (die core : Nat) (pick : Nat → DirtyA → Bool) : (flushAtoms m die core pick).c1 = m.c1 :=
  (wrLines_caches _ _).c1

theorem flushC1_c1_wf {m : Mach} (h : Tbl.wfFrom none 0 m.c1 = true) (die core : Nat) : Tbl.wfFrom none 0 (flushC1 m die core).c1 = true := by
  refine List.foldlRecOn (motive := fun m1 : Mach => Tbl.wfFrom none 0 m1.c1 = true) _ _ (flushC1In_c1_wf h _ _ _) fun m1 h1 c _ => ?_
  rw [flushAtoms_c1]
  exact h1

/-- Settles O56. -/
theorem memoryForm : Obligations.MemoryForm := by
  intro m h
  refine ⟨fun key bs => wrBytes_wf key bs h, fun w n v l => doStore_wf w n v l h, fun p off v cov => wf_of_mem_eq h (devWrite_mem m p off v cov),
    fun die core => flushC1_wf die core h, fun die core lo n => flushC2_wf die core lo n _ h, fun gi p => raiseTrap_wf gi p h,
    fun gr k r => killGrid_wf gr k r h, fun gi vi ds => wf_of_mem_eq h (finishCourse_mem m gi vi ds),
    fun gi o => wf_of_mem_eq h (completeWord_mem m gi o), fun r => performReq_wf r h, fun p w => hostWrite_wf p w h, fun hc => ?_⟩
  refine ⟨fun w n v l => doStore_c1_wf hc w n v l, fun key bs => ?_, fun die core => flushC1_c1_wf hc die core, fun key n => recallC1_c1_wf hc key n⟩
  rw [(wrBytes_caches m key bs).c1]
  exact hc

end Sys2Proof.Proofs
end

section
/-!
PROOFS. What writing a destination and reading an operand change (01 R24, R30 to R34, 02 R54).
-/

namespace Sys2Proof.Proofs

open Sys2Proof.Machine Sys2Proof.Claims

/-! ## Lanes of a register -/

theorem nodup_lanesOf (m : Mask) : (lanesOf m).Nodup := List.nodup_range.sublist List.filter_sublist

theorem lt_of_mem_lanesOf {m : Mask} {l : Nat} (h : l ∈ lanesOf m) : l < 64 := List.mem_range.mp (List.mem_filter.mp h).1

theorem maskOf_eq_zero {ls : List Nat} (hl : ∀ l ∈ ls, l < 64) (h : maskOf ls = 0) : ls = [] := by
  refine List.eq_nil_iff_forall_not_mem.mpr fun l hm => ?_
  have hb : (maskOf ls).getLsbD l = true := by rw [getLsbD_maskOf]; simp [hm, hl l hm]
  rw [h] at hb
  simp at hb

/-- Lanes of a table row written: each holds its value, every other key what it held. -/
theorem get_foldl_set_lanes (reg : Nat) (vals : List (Nat × Word)) (t : Tbl Word) (hd : (vals.map Prod.fst).Nodup) :
    (∀ l w, (l, w) ∈ vals → Tbl.get 0 (vals.foldl (fun t lw => Tbl.set 0 t (64 * reg + lw.1) lw.2) t) (64 * reg + l) = w) ∧
      ∀ k, (∀ l ∈ vals.map Prod.fst, k ≠ 64 * reg + l) →
        Tbl.get 0 (vals.foldl (fun t lw => Tbl.set 0 t (64 * reg + lw.1) lw.2) t) k = Tbl.get 0 t k := by
  constructor
  · intro l w hm
    refine get_foldl_set_same (b := (l, w)) 0 (fun lw : Nat × Word => 64 * reg + lw.1) Prod.snd vals t ?_ hm
    have : vals.map (fun lw : Nat × Word => 64 * reg + lw.1) = (vals.map Prod.fst).map (64 * reg + ·) := by rw [List.map_map]; rfl
    rw [this]
    exact hd.map fun a b h => by simpa using h
  · intro k hk
    exact get_foldl_set_other 0 (fun lw : Nat × Word => 64 * reg + lw.1) Prod.snd vals t fun b hb =>
      (hk b.1 (List.mem_map.mpr ⟨b, hb, rfl⟩)).symm

/-! ## What outstanding words note of a write -/

/-- The outstanding words of a group without what they note of other writes. -/
def withoutNotes (os : List Outst) : List Outst := os.map fun o => { o with ovr := [] }

theorem over_notes (o : Outst) (ks : List Nat) (src : Option (Nat × Nat)) : ({ o.over ks src with ovr := [] } : Outst) = { o with ovr := [] } := by
  unfold Outst.over
  split
  · rfl
  · split
    · rfl
    · split <;> rfl

theorem noteOver_notes (os : List Outst) (key : Nat) (vi : Option Nat) (ks : List Nat) (src : Option (Nat × Nat)) :
    withoutNotes (noteOver os key vi ks src) = withoutNotes os := by
  unfold withoutNotes noteOver
  rw [List.map_map]
  refine List.map_congr_left fun o _ => ?_
  dsimp only [Function.comp]
  split
  · exact over_notes o ks src
  · rfl

/-- Two groups that differ in vector registers and in notes alone. -/
structure SameButVec (g h : Sys2Proof.Machine.Group) : Prop where
  rest : h = { g with v := h.v, outst := h.outst }
  outst : withoutNotes h.outst = withoutNotes g.outst

theorem writeVec_sameButVec (g : Sys2Proof.Machine.Group) (reg : Nat) (vals : List (Nat × Word)) (src : Option (Nat × Nat)) :
    SameButVec g (writeVec g reg vals src) := ⟨rfl, noteOver_notes _ _ _ _ _⟩

theorem foldl_writeVec_sameButVec (reg : Nat × Word → Nat) (vals : List (Nat × Word)) (g : Sys2Proof.Machine.Group) :
    SameButVec g (vals.foldl (fun g lw => writeVec g (reg lw) [lw]) g) := by
  induction vals generalizing g with
  | nil => exact ⟨rfl, rfl⟩
  | cons lw vals ih =>
    obtain ⟨hr, ho⟩ := ih (writeVec g (reg lw) [lw])
    rw [List.foldl_cons]
    exact ⟨hr, ho.trans (noteOver_notes _ _ _ _ _)⟩

theorem foldl_writeVec_v (reg : Nat × Word → Nat) (vals : List (Nat × Word)) (g : Sys2Proof.Machine.Group) :
    (vals.foldl (fun g lw => writeVec g (reg lw) [lw]) g).v = vals.foldl (fun t lw => Tbl.set 0 t (64 * reg lw + lw.1) lw.2) g.v := by
  induction vals generalizing g with
  | nil => rfl
  | cons lw vals ih => rw [List.foldl_cons, ih]; rfl

/-! ## Destinations -/

/-- Where no lane's index is out of range, each names a register (01 R34). -/
theorem indexReg_of_indexBad {c : Cx} {xn : Nat} {off : Int} (h : c.indexBad xn off = 0) {l : Nat} (hl : l ∈ c.lanes) :
    ∃ r, c.indexReg xn off l = some r := by
  have hnil := maskOf_eq_zero (ls := c.lanes.filter fun l => (c.indexReg xn off l).isNone)
    (fun l hm => lt_of_mem_lanesOf (List.mem_filter.mp hm).1) h
  have := List.filter_eq_nil_iff.mp hnil l hl
  exact Option.isSome_iff_exists.mp (by simpa [Option.isSome_iff_ne_none] using this)

/-- What stops a write of a destination is a cause or a stall. -/
theorem destStop_ne_ok (c : Cx) (code : Nat) (m : Mach) : c.destStop code ≠ some (.ok m) := by
  unfold Cx.destStop
  split
  · dsimp only
    split_ifs <;> simp [Cx.raise]
  · split_ifs <;> simp

/-- A destination that is written had nothing to stop it, and is written by its class. -/
theorem write_cases {c : Cx} {m m2 : Mach} {code : Nat} {vals : List (Nat × Word)} (h : c.write m code vals = .ok m2) :
    match c.pre.indexed 0 with
    | some (xn, off) => c.indexBad xn off = 0 ∧
        m2 = m.setGrp c.gi (vals.foldl (fun g lw => writeVec g ((c.indexReg xn off lw.1).getD 0) [lw]) (m.grp c.gi))
    | none => match opdOf c.pre 0 code with
      | .v r => m2 = m.setGrp c.gi (writeVec (m.grp c.gi) r vals)
      | .mo r => m2 = m.setGrp c.gi (writeMort (m.grp c.gi) c.vi r vals)
      | .s r => (vals = [] ∧ m2 = m) ∨ ∃ l w rest, vals = (l, w) :: rest ∧ m2 = m.setGrp c.gi (writeScal (m.grp c.gi) r w)
      | .q n => (vals = [] ∧ m2 = m) ∨ ∃ l w rest, vals = (l, w) :: rest ∧
          m2 = m.setGrp c.gi { m.grp c.gi with outq := (m.grp c.gi).outq ++ [(n, [(w, .data)])] } := by
  unfold Cx.write at h
  split at h
  · rename_i e he
    exact absurd (h ▸ he) (destStop_ne_ok c code m2)
  · rename_i hstop
    cases hx : c.pre.indexed 0 with
    | some xo =>
      obtain ⟨xn, off⟩ := xo
      simp only [Cx.destStop, hx] at h hstop ⊢
      refine ⟨?_, by cases h; rfl⟩
      by_contra hb
      rw [if_pos hb] at hstop
      cases hstop
    | none =>
      simp only [hx] at h ⊢
      cases ho : opdOf c.pre 0 code with
      | v r => simp only [ho] at h ⊢; cases h; rfl
      | mo r => simp only [ho] at h ⊢; cases h; rfl
      | s r =>
        simp only [ho] at h ⊢
        cases vals with
        | nil => cases h; exact .inl ⟨rfl, rfl⟩
        | cons lw rest => cases h; exact .inr ⟨_, _, _, rfl, rfl⟩
      | q n =>
        simp only [ho] at h ⊢
        cases vals with
        | nil => cases h; exact .inl ⟨rfl, rfl⟩
        | cons lw rest =>
          have h' : c.pushAll m n [(lw.2, .data)] = .ok m2 := h
          unfold Cx.pushAll at h'
          split at h'
          · cases h'
          · cases h'; exact .inr ⟨_, _, _, rfl, rfl⟩

/-- What a write of one group leaves of the device, given what it makes of the group. -/
theorem setGrp_frame {m : Mach} {i : Nat} (hi : i < m.groups.length) (h : Sys2Proof.Machine.Group) :
    ({ m.setGrp i h with groups := m.groups } = m) ∧ (∀ j, j ≠ i → (m.setGrp i h).grp j = m.grp j) ∧ (m.setGrp i h).grp i = h :=
  ⟨rfl, fun _ hj => Mach.grp_setGrp_other _ hj _, Mach.grp_setGrp_same _ hi _⟩

/-- What of a group no write of a destination changes. -/
structure SpecialSame (g h : Sys2Proof.Machine.Group) : Prop where
  fields : h.p = g.p ∧ h.x = g.x ∧ h.ly = g.ly ∧ h.f = g.f ∧ h.mode = g.mode ∧ h.fpflags = g.fpflags ∧ h.prog = g.prog ∧
    h.tvec = g.tvec ∧ h.tcause = g.tcause ∧ h.taddr = g.taddr ∧ h.tpc = g.tpc ∧ h.tmask = g.tmask ∧ h.live = g.live ∧
    withoutNotes h.outst = withoutNotes g.outst

theorem SameButVec.special {g h : Sys2Proof.Machine.Group} (a : SameButVec g h) : SpecialSame g h := by
  obtain ⟨hr, ho⟩ := a
  rw [hr]
  exact ⟨⟨rfl, rfl, rfl, rfl, rfl, rfl, rfl, rfl, rfl, rfl, rfl, rfl, rfl, ho⟩⟩

/-- Settles O58, class by class. -/
theorem destinationWrites : Obligations.DestinationWrites := by
  intro c m m2 code vals hgi hkeys hw g h core
  have hnd : (vals.map Prod.fst).Nodup := hkeys ▸ nodup_lanesOf c.act
  have hc := write_cases hw
  have hm2 : ∃ h', m2 = m.setGrp c.gi h' := by
    split at hc
    · exact ⟨_, hc.2⟩
    · split at hc
      · exact ⟨_, hc⟩
      · exact ⟨_, hc⟩
      · rcases hc with ⟨_, rfl⟩ | ⟨_, _, _, _, rfl⟩
        · exact ⟨m2.grp c.gi, (setGrp_grp _ _).symm⟩
        · exact ⟨_, rfl⟩
      · rcases hc with ⟨_, rfl⟩ | ⟨_, _, _, _, rfl⟩
        · exact ⟨m2.grp c.gi, (setGrp_grp _ _).symm⟩
        · exact ⟨_, rfl⟩
  obtain ⟨h', rfl⟩ := hm2
  obtain ⟨hframe, hother, hsame⟩ := setGrp_frame hgi h'
  have hh : h = h' := hsame
  have hgrp : ∀ {h''}, m.setGrp c.gi h' = m.setGrp c.gi h'' → h = h'' := fun he => by
    rw [hh, ← hsame, he, Mach.grp_setGrp_same _ hgi]
  have hself : m.setGrp c.gi h' = m → h = g := fun he => by rw [hh, ← hsame, he]
  refine ⟨hframe, hother, ?_, ?_⟩
  · suffices SpecialSame g h from this.fields
    split at hc
    · rw [hgrp hc.2]
      exact (foldl_writeVec_sameButVec _ _ _).special
    · split at hc
      · rw [hgrp hc]
        exact (writeVec_sameButVec _ _ _ _).special
      · rw [hgrp hc]
        exact ⟨rfl, rfl, rfl, rfl, rfl, rfl, rfl, rfl, rfl, rfl, rfl, rfl, rfl, noteOver_notes _ _ _ _ _⟩
      · rcases hc with ⟨_, hc⟩ | ⟨_, _, _, _, hc⟩
        · rw [hself hc]
          exact ⟨rfl, rfl, rfl, rfl, rfl, rfl, rfl, rfl, rfl, rfl, rfl, rfl, rfl, rfl⟩
        · rw [hgrp hc]
          exact ⟨rfl, rfl, rfl, rfl, rfl, rfl, rfl, rfl, rfl, rfl, rfl, rfl, rfl, noteOver_notes _ _ _ _ _⟩
      · rcases hc with ⟨_, hc⟩ | ⟨_, _, _, _, hc⟩
        · rw [hself hc]
          exact ⟨rfl, rfl, rfl, rfl, rfl, rfl, rfl, rfl, rfl, rfl, rfl, rfl, rfl, rfl⟩
        · rw [hgrp hc]
          exact ⟨rfl, rfl, rfl, rfl, rfl, rfl, rfl, rfl, rfl, rfl, rfl, rfl, rfl, rfl⟩
  · cases hx : c.pre.indexed 0 with
    | some xo =>
      obtain ⟨xn, off⟩ := xo
      simp only [hx] at hc ⊢
      obtain ⟨hbad, hc⟩ := hc
      have hh := hgrp hc
      have hrest := (foldl_writeVec_sameButVec (fun lw => (c.indexReg xn off lw.1).getD 0) vals (m.grp c.gi)).rest
      have hv := foldl_writeVec_v (fun lw => (c.indexReg xn off lw.1).getD 0) vals (m.grp c.gi)
      rw [← hh] at hrest hv
      refine ⟨by rw [hrest], by rw [hrest], by rw [hrest], by rw [hrest], ?_, ?_⟩
      · intro l w r hm hr
        have hkey : 64 * r + l = 64 * (c.indexReg xn off l).getD 0 + l := by rw [hr]; rfl
        rw [hkey, hv]
        refine get_foldl_set_same (b := (l, w)) 0 (fun lw : Nat × Word => 64 * (c.indexReg xn off lw.1).getD 0 + lw.1) Prod.snd vals _ ?_ hm
        have hmod : ((vals.map fun lw : Nat × Word => 64 * (c.indexReg xn off lw.1).getD 0 + lw.1).map (· % 64)) = vals.map Prod.fst := by
          rw [List.map_map]
          refine List.map_congr_left fun lw hlw => ?_
          have : lw.1 < 64 := lt_of_mem_lanesOf (m := c.act) (show lw.1 ∈ c.lanes from hkeys ▸ List.mem_map.mpr ⟨lw, hlw, rfl⟩)
          dsimp only [Function.comp]
          omega
        exact List.Nodup.of_map (· % 64) (hmod ▸ hnd)
      · intro k hk
        rw [hv]
        refine get_foldl_set_other 0 (fun lw : Nat × Word => 64 * (c.indexReg xn off lw.1).getD 0 + lw.1) Prod.snd vals _ fun lw hlw he => ?_
        have hl : lw.1 ∈ c.lanes := hkeys ▸ List.mem_map.mpr ⟨lw, hlw, rfl⟩
        obtain ⟨r, hr⟩ := indexReg_of_indexBad hbad hl
        exact hk lw.1 hl r hr (by rw [← he, hr]; rfl)
    | none =>
      simp only [hx] at hc ⊢
      cases ho : opdOf c.pre 0 code with
      | v r =>
        simp only [ho] at hc ⊢
        rw [hgrp hc]
        obtain ⟨h1, h2⟩ := get_foldl_set_lanes r vals (m.grp c.gi).v hnd
        exact ⟨rfl, rfl, rfl, rfl, h1, hkeys ▸ h2⟩
      | mo r =>
        simp only [ho] at hc ⊢
        rw [hgrp hc]
        obtain ⟨h1, h2⟩ := get_foldl_set_lanes r vals (Tbl.get default (m.grp c.gi).voices c.vi).mortar hnd
        refine ⟨rfl, rfl, rfl, rfl, ?_, ?_, fun n hn => Tbl.get_put_other _ hn _ _⟩
        · simp only [writeMort, Tbl.get_put_same]
          exact h1
        · simp only [writeMort, Tbl.get_put_same]
          exact hkeys ▸ h2
      | s r =>
        simp only [ho] at hc ⊢
        rcases hc with ⟨hv, hc⟩ | ⟨l, w, rest, hv, hc⟩
        · rw [hself hc]
          exact ⟨rfl, rfl, rfl, rfl, fun l w rest he => absurd (hv.symm.trans he) (by simp), fun _ => rfl, fun _ _ => rfl⟩
        · rw [hgrp hc]
          refine ⟨rfl, rfl, rfl, rfl, fun l' w' rest' he => ?_, fun he => absurd (hv.symm.trans he) (by simp), fun k hk => Tbl.get_set_other _ _ hk _⟩
          obtain ⟨⟨-, rfl⟩, -⟩ : (l = l' ∧ w = w') ∧ rest = rest' := by simpa using hv.symm.trans he
          exact Tbl.get_set_same _ _ _ _
      | q n =>
        simp only [ho] at hc ⊢
        rcases hc with ⟨hv, hc⟩ | ⟨l, w, rest, hv, hc⟩
        · rw [hself hc]
          exact ⟨rfl, rfl, rfl, rfl, fun _ => rfl, fun l w rest he => absurd (hv.symm.trans he) (by simp)⟩
        · rw [hgrp hc]
          refine ⟨rfl, rfl, rfl, rfl, fun he => absurd (hv.symm.trans he) (by simp), fun l' w' rest' he => ?_⟩
          obtain ⟨⟨-, rfl⟩, -⟩ : (l = l' ∧ w = w') ∧ rest = rest' := by simpa using hv.symm.trans he
          rfl

end Sys2Proof.Proofs
end

section
/-!
PROOFS. What a read of a queue that the SXB port feeds leaves (01 R30, 09 R212, 19 R410).
-/

namespace Sys2Proof.Proofs

open Sys2Proof.Machine Sys2Proof.Claims

/-- A group whose queue 0 is bound to the SXB port and full, the port holding one word more of its packet. -/
def fedGroup : Sys2Proof.Machine.Group :=
  { (default : Sys2Proof.Machine.Group) with q := [(0, { bind := .eng 5, elems := List.replicate 8 (1, .sxb) })], inWords := [7] }

/-- A device with that group alone. -/
def fedMach : Mach := { Mach.reset with groups := [fedGroup] }

/-- A word of that group that reads queue 0 in lane 0. -/
def fedCx : Cx :=
  { gi := 0, vi := 0, pre := .none, base := fedMach, act := 1, full := 1, vmask := 1, first := 0, word := 0, bword := 0, member := 0 }

/-- The pop makes room, which the port fills at once. -/
theorem fedRead : ∃ m1 val, fedCx.read fedMach 1 0x68 = .ok (m1, val) ∧
    (qGet (m1.grp 0) 0).elems = List.replicate 7 (1, .sxb) ++ [(7, .sxb)] := by
  refine ⟨_, _, rfl, ?_⟩
  decide

/-- Refutes O59: a queue bound to the SXB port that gives its oldest element takes the next word that the port holds (19 R410): it keeps
the rest and more. -/
theorem not_operandReads : ¬ Obligations.OperandReads := by
  intro h
  obtain ⟨_, _, _, hq, _⟩ := h fedCx fedMach 1 0x68 rfl rfl
  obtain ⟨m1, val, hread, _, hrest, _⟩ := hq 0 (1, .sxb) (List.replicate 7 (1, .sxb)) rfl (by decide) (by decide) (by decide) (by decide)
    (fun k => by constructor <;> intro he <;> cases he) rfl (by decide)
  obtain ⟨m2, val2, hread2, hmore⟩ := fedRead
  have hm : m1 = m2 := by
    have := hread.symm.trans hread2
    injection this with this
    exact congrArg Prod.fst this
  rw [show fedCx.gi = 0 from rfl, hm, hmore] at hrest
  exact absurd hrest (by decide)

end Sys2Proof.Proofs
end

section
/-!
PROOFS. The frame of a completed word (01 R11, R17, R19).
-/

namespace Sys2Proof.Proofs

open Sys2Proof.Machine Sys2Proof.Claims

/-! ## What the end of a course changes of its group -/

/-- A group beside another: voices, parked lanes, the count of courses and, where nothing keeps them, the counters may differ, and the
vector registers that some promotions name. -/
structure CourseFrame (ps : List (Nat × Nat)) (keep : Prop) (g h : Sys2Proof.Machine.Group) : Prop where
  rest : h = { g with v := h.v, outst := h.outst, voices := h.voices, park := h.park, prog := h.prog, f := h.f }
  notes : withoutNotes h.outst = withoutNotes g.outst
  regs : ∀ k, (∀ p ∈ ps, k / 64 ≠ p.2) → Tbl.get 0 h.v k = Tbl.get 0 g.v k
  counters : keep → h.f = g.f

theorem CourseFrame.refl (ps : List (Nat × Nat)) (keep : Prop) (g : Sys2Proof.Machine.Group) : CourseFrame ps keep g g :=
  ⟨rfl, rfl, fun _ _ => rfl, fun _ => rfl⟩

theorem CourseFrame.trans {ps : List (Nat × Nat)} {keep : Prop} {g h k : Sys2Proof.Machine.Group} (a : CourseFrame ps keep g h)
    (b : CourseFrame ps keep h k) : CourseFrame ps keep g k := by
  refine ⟨?_, b.notes.trans a.notes, fun n hn => (b.regs n hn).trans (a.regs n hn), fun hk => (b.counters hk).trans (a.counters hk)⟩
  exact b.rest.trans (congrArg (fun y : Sys2Proof.Machine.Group =>
    { y with v := k.v, outst := k.outst, voices := k.voices, park := k.park, prog := k.prog, f := k.f }) a.rest)

theorem CourseFrame.of_voices (ps : List (Nat × Nat)) (keep : Prop) (g : Sys2Proof.Machine.Group) (vs : Tbl Voice) (pk : Tbl Nat) :
    CourseFrame ps keep g { g with voices := vs, park := pk } := ⟨rfl, rfl, fun _ _ => rfl, fun _ => rfl⟩

theorem CourseFrame.of_prog (ps : List (Nat × Nat)) (keep : Prop) (g : Sys2Proof.Machine.Group) (n : Nat) :
    CourseFrame ps keep g { g with prog := n } := ⟨rfl, rfl, fun _ _ => rfl, fun _ => rfl⟩

/-- A group whose voices and counters alone may differ, in a ripple. -/
theorem CourseFrame.of_spans {ps : List (Nat × Nat)} {keep : Prop} {g h : Sys2Proof.Machine.Group} (hk : ¬ keep)
    (e : h = { g with f := h.f, voices := h.voices }) : CourseFrame ps keep g h := by
  rw [e]
  exact ⟨rfl, rfl, fun _ _ => rfl, fun h => absurd h hk⟩

theorem writeVec_other (g : Sys2Proof.Machine.Group) (reg : Nat) (ls : List Nat) (val : Nat → Word) (hl : ∀ l ∈ ls, l < 64) {k : Nat}
    (hk : k / 64 ≠ reg) : Tbl.get 0 (writeVec g reg (ls.map fun l => (l, val l))).v k = Tbl.get 0 g.v k := by
  refine get_foldl_set_other 0 (fun lw : Nat × Word => 64 * reg + lw.1) Prod.snd _ _ fun lw hlw he => hk ?_
  obtain ⟨l, hm, rfl⟩ := List.mem_map.mp hlw
  have := hl l hm
  dsimp only at he
  omega

theorem promote_frame (keep : Prop) (ps qs : List (Nat × Nat)) (hq : ∀ q ∈ qs, q ∈ ps) (mask : Mask) (val : Nat × Nat → Nat → Word) (g : Sys2Proof.Machine.Group) :
    CourseFrame ps keep g (qs.foldl (fun g p => writeVec g p.2 ((lanesOf mask).map fun l => (l, val p l))) g) := by
  induction qs generalizing g with
  | nil => exact .refl ps keep g
  | cons q qs ih =>
    rw [List.foldl_cons]
    refine CourseFrame.trans (h := writeVec g q.2 ((lanesOf mask).map fun l => (l, val q l)))
      ⟨rfl, noteOver_notes _ _ _ _ _, fun k hk => ?_, fun _ => rfl⟩ (ih (fun p hp => hq p (List.mem_cons_of_mem _ hp)) _)
    exact writeVec_other g q.2 (lanesOf mask) (val q) (fun l hl => lt_of_mem_lanesOf hl) (hk q (hq q (List.mem_cons_self ..)))

/-- Lanes that move change the voices and the parked lanes alone. -/
theorem moveLanes_frame (ps : List (Nat × Nat)) (keep : Prop) (g : Sys2Proof.Machine.Group) (vi : Nat) (sets : List (Nat × List Nat)) :
    CourseFrame ps keep g (moveLanes g vi sets) := by
  unfold moveLanes
  dsimp only
  refine CourseFrame.trans ?_ (.of_voices ps keep _ _ _)
  refine List.foldlRecOn (motive := fun acc : Sys2Proof.Machine.Group × Bool => CourseFrame ps keep g acc.1) _ _ (.of_voices ps keep g _ _)
    fun acc hacc s _ => hacc.trans ?_
  split
  · exact .of_voices ps keep _ _ _
  · exact .of_voices ps keep _ _ _

theorem courseEnded_frame (keep : Prop) (g : Sys2Proof.Machine.Group) (vi : Nat) (dests : List (Nat × Option Nat)) :
    CourseFrame (promotions (Tbl.get default g.voices vi).code) keep g (courseEnded g vi dests) := by
  have hp := promote_frame keep (promotions (Tbl.get default g.voices vi).code) _ (fun _ h => h) (Tbl.get default g.voices vi).mask
    (fun p l => Tbl.get 0 (Tbl.get default g.voices vi).mortar (64 * p.1 + l)) g
  exact (hp.trans (.of_prog _ keep _ _)).trans (moveLanes_frame _ keep _ vi _)

/-! ## What the end of a chain changes of the device -/

/-- A device in which one group alone differs, as the end of a course may change it. -/
def CourseStep (gi : Nat) (ps : List (Nat × Nat)) (keep : Prop) (m m' : Mach) : Prop :=
  ∃ h, m' = m.setGrp gi h ∧ CourseFrame ps keep (m.grp gi) h

theorem CourseStep.refl (gi : Nat) (ps : List (Nat × Nat)) (keep : Prop) (m : Mach) : CourseStep gi ps keep m m :=
  ⟨m.grp gi, (setGrp_grp _ _).symm, .refl _ _ _⟩

theorem CourseStep.trans {gi : Nat} {ps : List (Nat × Nat)} {keep : Prop} {a b c : Mach} (hg : gi < a.groups.length)
    (h : CourseStep gi ps keep a b) (h' : CourseStep gi ps keep b c) : CourseStep gi ps keep a c := by
  obtain ⟨x, rfl, hx⟩ := h
  obtain ⟨y, rfl, hy⟩ := h'
  rw [Mach.grp_setGrp_same _ hg] at hy
  exact ⟨y, setGrp_setGrp _ _ _ _, hx.trans hy⟩

theorem CourseStep.length {gi : Nat} {ps : List (Nat × Nat)} {keep : Prop} {a b : Mach} (h : CourseStep gi ps keep a b) :
    b.groups.length = a.groups.length := by
  obtain ⟨x, rfl, _⟩ := h
  exact Mach.length_setGrp _ _ _

theorem setVoice_step (gi vi : Nat) (ps : List (Nat × Nat)) (keep : Prop) (m : Mach) (v : Voice) : CourseStep gi ps keep m (setVoice m gi vi v) :=
  ⟨_, rfl, .of_voices ps keep _ _ _⟩

theorem finishCourse_step {m : Mach} {gi vi : Nat} {v : Voice} {dests : List (Nat × Option Nat)} (keep : Prop)
    (hv : voiceAt m gi vi = some v) (hd : ∀ e ∈ dests, e.2 ≠ none) : CourseStep gi (promotions v.code) keep m (finishCourse m gi vi dests) := by
  have hg := voiceAt_lt hv
  cases hb : courseBusy m gi vi with
  | true =>
    have e : finishCourse m gi vi dests = setVoice m gi vi { Tbl.get default (m.grp gi).voices vi with pend := some dests, stalled := true } := by
      unfold finishCourse
      rw [if_pos hb] <;> rfl
    rw [e]
    exact setVoice_step gi vi _ keep m _
  | false =>
    rw [finishCourse_moves hb hd hg]
    exact ⟨_, rfl, by rw [← voice_of_voiceAt hv]; exact courseEnded_frame keep _ vi dests⟩

theorem issuedMach_step {m : Mach} {gi vi next : Nat} {u : Voice} (hg : gi < m.groups.length) (ps : List (Nat × Nat)) :
    CourseStep gi ps (u.ripple = none) m (issuedMach m gi vi u next) := by
  by_cases hr : u.ripple = none
  · rw [issuedMach_plain hr]
    exact setVoice_step gi vi ps _ m _
  · have hsome : u.ripple.isSome = true := Option.isSome_iff_ne_none.mpr hr
    refine CourseStep.trans hg (setVoice_step gi vi ps _ m (issuedVoice u next)) ?_
    refine ⟨_, if_pos hsome, .of_spans hr ?_⟩
    exact (settleSpans_spans _ vi).1

theorem endRipple_spans (g : Sys2Proof.Machine.Group) (vi : Nat) :
    endRipple g vi = { g with f := (endRipple g vi).f, voices := (endRipple g vi).voices } := by
  unfold endRipple
  dsimp only
  split
  · rfl
  · rw [closeSpans_counters]

theorem voiceAt_endRipple {m : Mach} {gi vi : Nat} {w : Voice} (hw : voiceAt m gi vi = some w) :
    ∃ u, voiceAt (m.setGrp gi (endRipple (m.grp gi) vi)) gi vi = some u ∧ u.code = w.code := by
  rw [voiceAt_eq_lookup, Mach.grp_setGrp_same _ (voiceAt_lt hw)]
  unfold endRipple
  rw [voice_of_voiceAt hw]
  dsimp only
  split
  · exact ⟨w, hw, rfl⟩
  · rw [closeSpans_counters]
    exact ⟨{ w with ripple := none }, by rw [lookup_put, if_pos rfl], rfl⟩

theorem fallsOf_moves (u : Voice) : ∀ e ∈ fallsOf u, e.2 ≠ none := by
  intro e he
  obtain ⟨l, _, rfl⟩ := List.mem_map.mp he
  exact Option.some_ne_none _

/-- A chain that has issued, no trap behind it. -/
theorem commit_step {m : Mach} {gi vi first next : Nat} {u : Voice} (hu : voiceAt m gi vi = some u) :
    CourseStep gi (promotions u.code) (u.ripple = none) m (commit m gi vi first next none none) := by
  have hg := voiceAt_lt hu
  have hi := issuedMach_step (vi := vi) (next := next) (u := u) hg (promotions u.code)
  obtain ⟨w, hw, hf⟩ := voiceAt_issuedMach hg vi u next
  have hcode : w.code = u.code := (congrArg Voice.code hf :)
  rw [commit_eq hu]
  split
  · refine hi.trans hg ?_
    rcases hr : w.ripple with _ | r
    · rw [endOfWords_plain hw hr, ← hcode]
      exact finishCourse_step _ hw (fallsOf_moves w)
    · have hno : ¬ u.ripple = none := fun hn => by
        have e : w.ripple.map (fun r => { r with held := [] }) = u.ripple.map fun r => { r with held := [] } :=
          (congrArg Voice.ripple hf :)
        rw [hr, hn] at e
        cases e
      rcases hl : r.rest with _ | ⟨l, ls⟩
      · rw [endOfWords_last hw hr hl]
        obtain ⟨w', hw', hcode'⟩ := voiceAt_endRipple hw
        refine CourseStep.trans (voiceAt_lt hw) ⟨_, rfl, .of_spans hno (endRipple_spans _ vi)⟩ ?_
        rw [← hcode, ← hcode']
        exact finishCourse_step _ hw' (fallsOf_moves w)
      · rw [endOfWords_rest hw hr hl]
        exact setVoice_step gi vi _ _ _ _
  · exact hi

/-! ## Pushes of a chain -/

/-- A device beside another: groups and teams alone may differ, no other group, and no voice of this one. -/
structure PushFrame (gi : Nat) (m m' : Mach) : Prop where
  rest : m' = { m with groups := m'.groups, teams := m'.teams }
  other : ∀ j, j ≠ gi → m'.grp j = m.grp j
  voices : (m'.grp gi).voices = (m.grp gi).voices

theorem PushFrame.refl (gi : Nat) (m : Mach) : PushFrame gi m m := ⟨rfl, fun _ _ => rfl, rfl⟩

theorem PushFrame.trans {gi : Nat} {a b c : Mach} (h : PushFrame gi a b) (h' : PushFrame gi b c) : PushFrame gi a c :=
  ⟨h'.rest.trans (congrArg (fun y : Mach => { y with groups := c.groups, teams := c.teams }) h.rest),
    fun j hj => (h'.other j hj).trans (h.other j hj), h'.voices.trans h.voices⟩

theorem setGrp_push (m : Mach) (gi : Nat) {g : Sys2Proof.Machine.Group} (h : g.voices = (m.grp gi).voices) : PushFrame gi m (m.setGrp gi g) := by
  refine ⟨rfl, fun j hj => Mach.grp_setGrp_other _ hj _, ?_⟩
  by_cases hl : gi < m.groups.length
  · rw [Mach.grp_setGrp_same _ hl, h]
  · simp [Mach.grp, Mach.setGrp, hl]

theorem pushQ_push {m m' : Mach} {gi n : Nat} {es : List (Word × Origin)} (h : pushQ m gi n es = some (some m')) : PushFrame gi m m' := by
  unfold pushQ at h
  dsimp only at h
  split at h
  · split at h
    · cases h
    · cases h; exact setGrp_push m gi rfl
  · split at h
    · cases h
    · split at h
      · cases h
      · cases h; exact ⟨rfl, fun _ _ => rfl, rfl⟩
  · cases h

theorem pushOut_push {m m' : Mach} {gi : Nat} (h : pushOut m gi = some m') : PushFrame gi m m' := by
  unfold pushOut at h
  dsimp only at h
  split at h
  · cases h; exact .refl gi m
  · refine List.foldlRecOn (motive := fun o : Option Mach => ∀ m', o = some m' → PushFrame gi m m') _ _
      (fun m' he => by cases he; exact setGrp_push m gi rfl) (fun o ho e _ m' he => ?_) m' h
    cases o with
    | none => cases he
    | some m1 =>
      refine (ho m1 rfl).trans ?_
      change (if e.2.isEmpty then (if qCount m1 gi e.1 ≥ 8 then none else some m1) else (pushQ m1 gi e.1 e.2).getD (some m1)) = some m' at he
      split_ifs at he
      · cases he; exact .refl gi _
      · rcases hp : pushQ m1 gi e.1 e.2 with _ | o
        · rw [hp] at he; cases he; exact .refl gi _
        · rw [hp] at he
          exact pushQ_push (hp.trans (congrArg some he))

theorem settled_push (c : Cx) (m : Mach) : PushFrame c.gi m (c.settled m) := by
  unfold Cx.settled
  split
  · exact .refl _ m
  · exact setGrp_push m c.gi rfl

section
variable (m : Mach) (gs : List Sys2Proof.Machine.Group) (ts : List Team)

theorem ctlRead_groups (p off : Nat) : ctlRead { m with groups := gs, teams := ts } p off = ctlRead m p off := rfl
theorem syeRead_groups (p off : Nat) : syeRead { m with groups := gs, teams := ts } p off = syeRead m p off := rfl
theorem enumWord_groups (off : Nat) : enumWord { m with groups := gs, teams := ts } off = enumWord m off := rfl

theorem devRead_groups (p off : Nat) : devRead { m with groups := gs, teams := ts } p off = devRead m p off :=
  if_congr Iff.rfl (ctlRead_groups m gs ts p off) (if_congr Iff.rfl rfl (if_congr Iff.rfl
    (if_congr Iff.rfl (syeRead_groups m gs ts _ _) rfl) (if_congr Iff.rfl (enumWord_groups m gs ts _) rfl)))

/-- The registers and memory are the same whatever the groups and teams are. -/
theorem rdByte_groups (key : Nat) : rdByte { m with groups := gs, teams := ts } key = rdByte m key := by
  unfold rdByte
  refine if_congr Iff.rfl ?_ rfl
  rw [devRead_groups]

end

theorem PushFrame.rdByte {gi : Nat} {m m' : Mach} (h : PushFrame gi m m') (key : Nat) : rdByte m' key = rdByte m key := by
  exact (congrArg (Machine.rdByte · key) h.rest).trans (rdByte_groups m _ _ key)

/-! ## The frame of a completed word -/

/-- What the device of a completed word keeps, given what the end of its chain may change. -/
theorem doneFrame_of_step {gi : Nat} {w : Voice} {m m1 t : Mach} (hg : gi < m1.groups.length) (hp : PushFrame gi m m1)
    (h : CourseStep gi (promotions w.code) (w.ripple = none) m1 t) :
    ({ t with groups := m1.groups } = m1) ∧ (∀ key, rdByte t key = rdByte m key) ∧ (∀ j, j ≠ gi → t.grp j = m.grp j) ∧
      CourseFrame (promotions w.code) (w.ripple = none) (m1.grp gi) (t.grp gi) := by
  obtain ⟨g, rfl, hf⟩ := h
  rw [Mach.grp_setGrp_same _ hg]
  exact ⟨rfl, fun key => (rdByte_groups m1 _ m1.teams key).trans (hp.rdByte key),
    fun j hj => (Mach.grp_setGrp_other _ hj _).trans (hp.other j hj), hf⟩

/-- Settles O60. -/
theorem doneFrame : Obligations.DoneFrame := by
  intro s gi vi v w cls x ch m hlate hw t
  have hg := voiceAt_lt hw
  refine ⟨?_, ?_, ?_⟩
  · cases ch <;> simp [t, doneState, memberDone]
  · cases ch <;> rfl
  · intro settled
    refine ⟨fun hch hp => ?_, ?_⟩
    · subst hch
      have hp' : pushOut ((cxOf s gi vi v false x).settled m) (cxOf s gi vi v false x).gi = none := hp
      simp only [t, doneState, memberDone, hp']
      rfl
    · intro m1 h1 h0 g h core
      have hstep : gi < m1.groups.length ∧ PushFrame gi m m1 ∧ CourseStep gi (promotions w.code) (w.ripple = none) m1 t.m := by
        cases ch with
        | true =>
          obtain rfl := h1 rfl
          have hw' : voiceAt m1 (cxOf s gi vi v false x).gi (cxOf s gi vi v false x).vi = some w := hw
          refine ⟨hg, .refl gi m1, ?_⟩
          simp only [t, doneState, memberDone, hw']
          exact setVoice_step gi vi _ _ m1 _
        | false =>
          have hpush := h0 rfl
          have hp' : pushOut ((cxOf s gi vi v false x).settled m) (cxOf s gi vi v false x).gi = some m1 := hpush
          have hframe : PushFrame gi m m1 := (settled_push (cxOf s gi vi v false x) m).trans (pushOut_push hpush)
          have hw1 : voiceAt m1 gi vi = some w := by
            rw [voiceAt_eq_lookup, hframe.voices]
            exact hw
          refine ⟨voiceAt_lt hw1, hframe, ?_⟩
          simp only [t, doneState, memberDone, hp', hlate]
          exact commit_step (first := s.firstWord v) hw1
      obtain ⟨hg1, hpush, hcs⟩ := hstep
      obtain ⟨hrest, hmem, hother, hframe⟩ := doneFrame_of_step hg1 hpush hcs
      refine ⟨hrest, hmem, hother, ?_, hframe.regs⟩
      obtain ⟨hrest, hnotes, -, hcount⟩ := hframe
      have hh : h = { g with v := h.v, outst := h.outst, voices := h.voices, park := h.park, prog := h.prog, f := h.f } := hrest
      refine ⟨?_, ?_, ?_, ?_, ?_, ?_, hcount, ?_, ?_, ?_, ?_, ?_, ?_, ?_, ?_, hnotes⟩
      all_goals rw [hh]

end Sys2Proof.Proofs
end

section
/-!
PROOFS. Float results that no rounding decides (06 R161, R176, 07 R185, R186, R198, R201).
-/

namespace Sys2Proof.Proofs

open Sys2Proof.Machine Sys2Proof.Claims

/-- A fused sum with a NaN among its terms is the canonical NaN (06 R176). -/
theorem fusedTerms_nan (f : Fmt) (v : FEnv) {ts : List FVal} (h : ts.any FVal.isNan = true) : (fusedTerms f v ts).1 = f.nan := by
  unfold fusedTerms
  dsimp only
  rw [if_pos h]

theorem addF_nan {f : Fmt} {v : FEnv} {p q : FVal} (h : p.isNan = true ∨ q.isNan = true) : (addF f v p q).1 = f.nan := by
  have hz : ∀ {x : FVal}, x.isNan = true → x.isZero = false := fun {x} hx => by cases x <;> simp_all [FVal.isNan, FVal.isZero]
  have hzero : ¬ (p.isZero && q.isZero && p.neg == q.neg) = true := by
    rcases h with h | h <;> simp [hz h]
  unfold addF
  rw [if_neg hzero]
  exact fusedTerms_nan f v (by simpa using h)

/-- A product with a NaN is a NaN. -/
theorem mulF_nan {p q : FVal} (h : p.isNan = true ∨ q.isNan = true) : ∃ s, mulF p q = .nan s := by
  cases p with
  | nan s => exact ⟨_, rfl⟩
  | inf n =>
    cases q with
    | nan s => exact ⟨_, rfl⟩
    | _ => simp [FVal.isNan] at h
  | fin n m e =>
    cases q with
    | nan s => exact ⟨_, rfl⟩
    | _ => simp [FVal.isNan] at h

theorem divF_nan {f : Fmt} {v : FEnv} {p q : FVal} (h : p.isNan = true ∨ q.isNan = true) : (divF f v p q).1 = f.nan := by
  cases p with
  | nan s => rfl
  | inf n =>
    cases q with
    | nan s => rfl
    | _ => simp [FVal.isNan] at h
  | fin n m e =>
    cases q with
    | nan s => rfl
    | _ => simp [FVal.isNan] at h

theorem minMaxF_nan_left {f : Fmt} {k : Bool} {p q : FVal} (hp : p.isNan = true) (hq : q.isNan = false) :
    (minMaxF f k p q).1 = (writeF f .rne q).1 := by
  simp [minMaxF, hp, hq]

/-- Settles O30. -/
theorem floatSpecialResults : Obligations.FloatSpecialResults := by
  intro f v p q n k m e r1
  refine ⟨fun h => ⟨addF_nan h, ?_, divF_nan h⟩, fun hp => ⟨?_, minMaxF_nan_left hp⟩, ?_, ?_, ?_, rfl, fun hm => ⟨?_, ?_, ?_⟩, rfl, rfl, rfl, rfl,
    fun b hb => ?_, fun b hb => ?_⟩
  · obtain ⟨s, hs⟩ := mulF_nan h
    simp only [r1, hs, writeF]
  · cases p with
    | nan s => rfl
    | _ => simp [FVal.isNan] at hp
  · cases n <;> rfl
  · cases n <;> rfl
  · rfl
  · simp [mulF, FVal.isZero, FVal.neg, hm, writeF]
  · simp [divF, FVal.neg, hm]
  · simp [sqrtF, hm]
  · refine ⟨?_, ?_, ?_, ?_, ?_⟩
    · simp [frcpF, hb]
    · simp [frsqF, hb]
    all_goals simp [specialF, hb]
  · refine ⟨?_, ?_, ?_⟩
    · simp [frcpF, hb]
    all_goals simp [specialF, hb]

end Sys2Proof.Proofs
end

section
/-!
PROOFS. What words of format Q and long-latency words do, in the terms of the statements (11 R260, 01 R22).
-/

namespace Sys2Proof.Proofs

open Sys2Proof.Machine Sys2Proof.Claims

/-- A word of format Q completes where its own check passes and its body gives a device. -/
theorem qDone_of {i : Instr} {cls : Pipe} {x : Pre} {ch : Bool} {a b : Option Nat} {ok : Cx → Bool} {body : Cx → Mach → Word → Word → Eff}
    {when : Cx → Mach → Word → Word → Prop} {result : Cx → Mach → Word → Word → Mach} (hx : ∀ s, exec i s = qWord cls x ch a b ok body s)
    (h : ∀ c m va vb, when c m va vb → ok c = true ∧ body c m va vb = .ok (result c m va vb)) : QDone i cls x ch a b when result := by
  intro s gi vi v hr c hq hact va vb ha hb hw
  obtain ⟨hk, hm⟩ := h c s.m va vb hw
  rw [hx]
  exact qWord_body hr hq hk hact ha hb hm

/-- A word of format Q traps where its own check passes and its body raises a cause for the active lanes. -/
theorem qTraps_of {i : Instr} {cls : Pipe} {x : Pre} {ch : Bool} {a b : Option Nat} {ok : Cx → Bool} {body : Cx → Mach → Word → Word → Eff}
    {when : Cx → Mach → Word → Word → Prop} {k : Cause} {addr : Cx → Word → Word → Word} (hx : ∀ s, exec i s = qWord cls x ch a b ok body s)
    (h : ∀ c m va vb, when c m va vb → ok c = true ∧ body c m va vb = c.raise k (addr c va vb) c.act) : QTraps i cls x a b when k addr := by
  intro s gi vi v hr c hq hact va vb ha hb hw
  obtain ⟨hk, hm⟩ := h c s.m va vb hw
  rw [hx]
  exact qWord_cause hr hq hk hact ha hb hm

/-- A word of format Q whose own check fails is ILLEGAL_OP. -/
theorem qTraps_illegal {i : Instr} {cls : Pipe} {x : Pre} {ch : Bool} {a b : Option Nat} {ok : Cx → Bool}
    {body : Cx → Mach → Word → Word → Eff} {when : Cx → Mach → Word → Word → Prop} (hx : ∀ s, exec i s = qWord cls x ch a b ok body s)
    (h : ∀ c m va vb, when c m va vb → ok c = false) : QTraps i cls x a b when .illegalOp fun c _ _ => c.waddr := by
  intro s gi vi v hr c hq hact va vb ha hb hw
  rw [hx]
  exact qWord_illegal hr (by rw [h c s.m va vb hw, Bool.and_false])

section
variable {c : Cx} {m : Mach}

theorem long_out {flag : Option Nat} (h : room c m flag) (wr : List RegWr) (dsts : List Nat) (wait : Wait) :
    c.long m flag wr dsts wait = .ok (out c m flag wr dsts wait) := Cx.long_ok c m flag wr dsts wait 0 false h

theorem longWait_out {f : Bool} (h : room c m (c.flag f)) (w : Wait) (dst : Option Nat) :
    c.longWait m f w dst = .ok (out c m (c.flag f) [] (dst.toList.map fun d => 128 + d) w) := long_out h _ _ _

theorem longS_out {f : Bool} (h : room c m (c.flag f)) (pos code : Nat) (v : Word) :
    c.longS m f pos code v = .ok (out c m (c.flag f) [.scal (c.sNum pos code) v] [128 + c.sNum pos code] .ready) := long_out h _ _ _

end

theorem bool_eq_false_of_ne {b : Bool} (h : ¬ b = true) : b = false := Bool.eq_false_of_not_eq_true h

/-- An unchecked branch taken where a check passes. -/
theorem ite_false {α : Type} {b : Bool} (h : b = false) (x y : α) : (if b = true then x else y) = y := by rw [h]; rfl
theorem ite_true {α : Type} {b : Bool} (h : b = true) (x y : α) : (if b = true then x else y) = x := if_pos h

end Sys2Proof.Proofs
end

section
/-!
PROOFS. Graphics words and coverage (19 R403 to R412).
-/

namespace Sys2Proof.Proofs

open Sys2Proof.Machine Sys2Proof.Claims

/-! ## Coverage -/

theorem area2_rotate (u v w : Int × Int) : area2 v w u = area2 u v w := by
  simp only [area2]; ring

theorem area2_swap (u v w : Int × Int) : area2 u w v = -area2 u v w := by
  simp only [area2]; ring

/-- An edge walked the other way with the other sign is the same edge. -/
theorem edgeAt_swap (sg : Int) (j k p : Int × Int) : edgeAt (-sg) k j p = edgeAt sg j k p := by
  have he : -sg * area2 k j p = sg * area2 j k p := by simp only [area2]; ring
  have hx : -sg * (j.1 - k.1) = sg * (k.1 - j.1) := by ring
  have hy : -sg * (j.2 - k.2) = sg * (k.2 - j.2) := by ring
  simp only [edgeAt, he, hx, hy]

/-- The sign that a triangle's edges are taken with. -/
def sideOf (d : Int) : Int := if d < 0 then -1 else 1

/-- The centre of a pixel. -/
def centreOf (px py : Nat) : Int × Int := (256 * px + 128, 256 * py + 128)

theorem coverAt_fst (u v w : Int × Int) (px py : Nat) : (coverAt u v w px py).1 =
    (area2 u v w ≠ 0 && (edgeAt (sideOf (area2 u v w)) v w (centreOf px py)).2 && (edgeAt (sideOf (area2 u v w)) w u (centreOf px py)).2 &&
      (edgeAt (sideOf (area2 u v w)) u v (centreOf px py)).2) := rfl

theorem coverAt_flat {u v w : Int × Int} (px py : Nat) (h : area2 u v w = 0) : (coverAt u v w px py).1 = false := by
  rw [coverAt_fst, h]; rfl

theorem coverAt_rotate (u v w : Int × Int) (px py : Nat) : (coverAt u v w px py).1 = (coverAt v w u px py).1 := by
  rw [coverAt_fst, coverAt_fst, area2_rotate u v w]
  simp only [Bool.and_assoc, Bool.and_comm, Bool.and_left_comm]

theorem coverAt_swap (u v w : Int × Int) (px py : Nat) : (coverAt u v w px py).1 = (coverAt u w v px py).1 := by
  by_cases h : area2 u v w = 0
  · rw [coverAt_flat px py h, coverAt_flat px py (by rw [area2_swap, h]; rfl)]
  · have hs : sideOf (area2 u w v) = -sideOf (area2 u v w) := by
      rw [area2_swap]
      unfold sideOf
      split_ifs <;> omega
    have hne : area2 u w v ≠ 0 := by rw [area2_swap]; omega
    rw [coverAt_fst, coverAt_fst, hs, edgeAt_swap, edgeAt_swap, edgeAt_swap]
    simp only [h, hne, ne_eq, not_false_eq_true, decide_true, Bool.true_and]
    simp only [Bool.and_assoc, Bool.and_comm, Bool.and_left_comm]

/-- A point on an edge lies inside on one side of it alone. -/
theorem edgeAt_one_side {j k p : Int × Int} (h : area2 j k p = 0) : ¬((edgeAt 1 j k p).2 = true ∧ (edgeAt (-1) j k p).2 = true) := by
  simp only [edgeAt, h, mul_zero, Bool.or_eq_true, Bool.and_eq_true, decide_eq_true_eq, gt_iff_lt]
  omega

theorem coverAt_one_side {u v w z : Int × Int} {px py : Nat} (hp : area2 u v (centreOf px py) = 0) (hw : 0 < area2 u v w)
    (hz : area2 u v z < 0) : ¬((coverAt u v w px py).1 = true ∧ (coverAt u v z px py).1 = true) := by
  have h1 : sideOf (area2 u v w) = 1 := if_neg (by omega)
  have h2 : sideOf (area2 u v z) = -1 := if_pos hz
  rintro ⟨ha, hb⟩
  rw [coverAt_fst, h1, Bool.and_eq_true] at ha
  rw [coverAt_fst, h2, Bool.and_eq_true] at hb
  exact edgeAt_one_side hp ⟨ha.2, hb.2⟩

/-! ## Words -/

theorem gfxCore_of {c : Cx} (h : isGeo c.g.die = false ∧ compatG c.base c.g = false) : c.gfxCore = true := by
  unfold Cx.gfxCore
  rw [h.1, h.2]; rfl

theorem geoCore_of {c : Cx} (h : isGeo c.g.die = true ∧ compatG c.base c.g = false) : c.geoCore = true := by
  unfold Cx.geoCore
  rw [h.1, h.2]; rfl

theorem maskOf_ne_zero {ls : List Nat} {l : Nat} (hm : l ∈ ls) (hl : l < 64) : maskOf ls ≠ 0 := by
  intro h
  have hb : (maskOf ls).getLsbD l = true := by rw [getLsbD_maskOf]; simp [hm, hl]
  rw [h] at hb
  simp at hb

/-- Settles O38: the words by their bodies, coverage by the signs of the edges. -/
theorem graphicsWords : Obligations.GraphicsWords := by
  constructor
  · intro x ch f a b n op ob shading geometry answer cells
    refine ⟨?_, ?_, ?_, ?_, ?_, ⟨?_, ?_⟩, ?_, ?_⟩
    · intro s gi vi v hr c ws h1 h2 h3 hact hbusy
      have hok : (c.plainPre none none && c.runOk 1 a.toNat 8 && !compatG c.base c.g) = true := by rw [h1, h2, h3]; rfl
      have hbad : ((c.lanes.map fun l => (l, c.vecRun s.m a.toNat 8 l)).filter fun p => packetBad p.2).map Prod.fst =
          c.lanes.filter fun l => packetBad (ws l) := by
        rw [List.filter_map, List.map_map]
        exact List.map_id _
      constructor
      · intro hgood hroom
        have hnil : c.lanes.filter (fun l => packetBad (ws l)) = [] := List.filter_eq_nil_iff.mpr fun l hl => by simp [hgood l hl]
        refine issue_done hr ((ite_checked hok _ _).trans ((if_neg hact).trans ((ite_false hbusy _ _).trans ?_)))
        dsimp only
        rw [hbad, hnil]
        refine (if_neg (by decide)).trans ?_
        rw [long_out hroom]
        dsimp only
        rw [List.map_map]
        rfl
      · rintro ⟨l, hl, hb⟩
        refine issue_cause hr ((ite_checked hok _ _).trans ((if_neg hact).trans ((ite_false hbusy _ _).trans ?_)))
        dsimp only
        rw [hbad]
        exact if_pos (maskOf_ne_zero (List.mem_filter.mpr ⟨hl, hb⟩) (lt_of_mem_lanesOf hl))
    · refine qDone_of (fun _ => rfl) fun c m va vb hw => ⟨geoCore_of hw.1, ?_⟩
      exact (if_neg (not_not_intro hw.2.1)).trans (longWait_out hw.2.2 _ _)
    · refine qDone_of (fun _ => rfl) fun c m va vb hw => ⟨gfxCore_of hw.1, ?_⟩
      obtain ⟨hs, ps, hp, he⟩ := hw
      dsimp only
      rw [hp]
      exact if_neg (not_not_intro he)
    · refine qTraps_of (fun _ => rfl) fun c m va vb hw => ⟨gfxCore_of hw.1, ?_⟩
      obtain ⟨hs, hne⟩ := hw
      dsimp only
      cases hp : (m.part c.grid.part).pass with
      | none => rfl
      | some ps => exact if_pos (hne ps hp)
    · intro s gi vi v hr c done hq hs hpriv hact va vb ha hb hroom
      have hans : ∀ k, c.longS s.m f 2 b.toNat (BitVec.ofNat 64 k) = .ok (answer c s.m k) := fun k => longS_out hroom _ _ _
      refine ⟨fun h => ?_, fun h hd hh => ⟨fun hbad => ?_, fun hgood es hes => ⟨fun hbad => ?_, fun hgood' => ?_⟩⟩, fun h hn => ?_, fun h hd hh hgood hn => ?_⟩
      all_goals refine qWord_body hr hq (gfxCore_of hs) hact ha hb ((ite_checked hpriv _ _).trans ?_)
      · exact (if_pos h).trans (hans 2)
      · refine (if_neg (not_not_intro h)).trans ?_
        rw [show mapWords s.m (cxOf s gi vi v false x).who va.toNat 8 16 = .ok (some hd) from hh]
        exact (ite_true hbad _ _).trans (hans 1)
      · refine (if_neg (not_not_intro h)).trans ?_
        rw [show mapWords s.m (cxOf s gi vi v false x).who va.toNat 8 16 = .ok (some hd) from hh]
        refine (ite_false hgood _ _).trans ?_
        simp only [cells, c] at hes
        rw [hes]
        exact (ite_true hbad _ _).trans (hans 1)
      · refine (if_neg (not_not_intro h)).trans ?_
        rw [show mapWords s.m (cxOf s gi vi v false x).who va.toNat 8 16 = .ok (some hd) from hh]
        refine (ite_false hgood _ _).trans ?_
        simp only [cells, c] at hes
        rw [hes]
        exact (ite_false hgood' _ _).trans (longWait_out hroom _ _)
      · refine (if_neg (not_not_intro h)).trans ?_
        rw [show mapWords s.m (cxOf s gi vi v false x).who va.toNat 8 16 = .ok none from hn]
        exact hans 2
      · refine (if_neg (not_not_intro h)).trans ?_
        rw [show mapWords s.m (cxOf s gi vi v false x).who va.toNat 8 16 = .ok (some hd) from hh]
        refine (ite_false hgood _ _).trans ?_
        simp only [cells, c] at hn
        rw [hn]
        exact hans 2
    · refine qTraps_of (fun _ => rfl) fun c m va vb hw => ⟨gfxCore_of hw.1, ?_⟩
      exact if_pos (by rw [hw.2]; rfl)
    · refine qTraps_of (fun _ => rfl) fun c m va vb hw => ⟨gfxCore_of hw.1, ?_⟩
      exact if_pos (by rw [hw.2]; rfl)
    · intro able inside fit i
      have hinside : ∀ {ps : Pass} {r : Nat}, inside ps r ↔
          (decide (r % 256 > wb (ps.hdr.getD 0 0) 0 8) || decide (r / 256 > wb (ps.hdr.getD 0 0) 8 8)) = false := fun {ps r} => by
        simp [inside]
      have hfit : ∀ {c : Cx} {m : Mach} {e : Nat}, fit c m e ↔ (!bitAt e 31 || !(m.pk.has (bitsOf e 24 4) && isShading (bitsOf e 24 4) &&
          partOf m.pk (bitsOf e 24 4) 0 = c.grid.part)) = false := fun {c m e} => by
        simp [fit, and_assoc]
      refine ⟨?_, ?_, ?_, ?_⟩
      all_goals
        refine qDone_of (fun _ => rfl) fun c m va vb hw => ?_
        obtain ⟨⟨hs, hpriv, hroom⟩, hw⟩ := hw
        refine ⟨gfxCore_of hs, (ite_checked hpriv _ _).trans ?_⟩
      · dsimp only
        rw [hw]
        exact longS_out hroom _ _ _
      · obtain ⟨ps, hp, hn⟩ := hw
        dsimp only
        rw [hp]
        dsimp only
        exact (ite_true (Bool.eq_true_of_not_eq_false (mt hinside.mpr hn)) _ _).trans (longS_out hroom _ _ _)
      · obtain ⟨⟨ps, hp, hi⟩, hn⟩ := hw
        dsimp only
        rw [hp]
        dsimp only
        refine (ite_false (hinside.mp hi) _ _).trans ((ite_true ?_ _ _).trans (longS_out hroom _ _ _))
        exact Bool.eq_true_of_not_eq_false (mt hfit.mpr hn)
      · obtain ⟨⟨ps, hp, hi⟩, hn⟩ := hw
        dsimp only
        rw [hp]
        dsimp only
        refine (ite_false (hinside.mp hi) _ _).trans ((ite_false (hfit.mp hn) _ _).trans ?_)
        rw [longWait_out hroom]
        rfl
    · intro s gi vi v hr c bo h1 h2 h3 h4 h5 h6 hact h7 h8 m1 vb hb vs one g hit
      have hok : (c.thirdRunOk 1 && c.sOk 1 a.toNat && c.sNum 1 a.toNat + 2 < c.g.ns && (bo.isV || bo.isM) && bo.exists? c.g && c.gfxCore) = true := by
        have h4' : (bo.isV || bo.isM) = true := by simpa using h4
        rw [h1, h2, decide_eq_true h3, h4', h5, gfxCore_of h6]; rfl
      refine issue_done hr ((ite_checked hok _ _).trans ((if_neg hact).trans ((ite_false ?_ _ _).trans ?_)))
      · exact Bool.or_eq_false_iff.mpr ⟨h7, h8⟩
      · rw [show (cxOf s gi vi v false x).read s.m 2 b.toNat = .ok (m1, vb) from hb]
        have hn : n = 7 ↔ n.toNat = 7 := ⟨fun h => by rw [h]; rfl, fun h => BitVec.eq_of_toNat_eq h⟩
        dsimp only
        rw [if_congr hn rfl rfl]
        rfl
  · intro u v w z px py p
    exact ⟨coverAt_flat px py, coverAt_rotate u v w px py, coverAt_swap u v w px py, fun hp hw hz => coverAt_one_side hp hw hz⟩

end Sys2Proof.Proofs
end

section
/-!
PROOFS. Float words at issue, conversions and packed formats, and the long-latency float words (07 R185 to R201).
-/

namespace Sys2Proof.Proofs

open Sys2Proof.Machine Sys2Proof.Claims

/-- An instruction that writes some positions of d completes where its part fits, and is ILLEGAL_OP where it does not. -/
theorem partDone_of_exec {i : Instr} {p : Pipe} {x : Pre} {ch ok : Bool} {u : Use} {d a : Nat} {fits : Prop}
    {lane : Cx → Word → Word → Word × Exc} (hl : u.long = false) (hok : ok = true ↔ fits)
    (he : ∀ s, exec i s = issue (some (destClass x p d)) false x ch (partBody ok u d a lane) s) :
    PartDone i p x ch u d a fits lane := by
  intro s gi vi v hr c legal
  rw [he]
  constructor
  · intro hn
    refine issue_cause hr (partBody_illegal ?_)
    by_contra hc
    obtain ⟨hpart, hq⟩ := not_or.mp hc
    exact hn ⟨hok.mp (Bool.eq_true_of_not_eq_false hpart), Bool.eq_false_of_not_eq_true hq⟩
  · intro ⟨hfit, hq⟩ h1 h2 m1 va vb vc m2 hs rs hw
    exact issue_done hr (partBody_done (hok.mpr hfit) hq hl h1 h2 hs rfl hw)

/-- A long-latency instruction with register operands is outstanding with the results of its lanes. -/
theorem longDone_of_exec {i : Instr} {x : Pre} {ch : Bool} {u : Use} {d a b : Nat} {lane : LaneFn} (hl : u.long = true)
    (he : ∀ s, exec i s = aluWord .xfu x ch u d a b (fun c l y z w _ => lane c l y z w) s) :
    LongDone i x ch u d a b lane := by
  intro s gi vi v hr c h1 h2 h3 hne hq m1 va vb vc hs hsat rs wr
  rw [he]
  exact issue_done hr (aluBody_long hl h1 h2 h3 hne hq hs hsat rfl)

/-- fdot2's two forms: one sum of a lane, or one for each half. -/
theorem fdot2_one (x : Pre) (ch : Bool) (d a b : BitVec 7) (s : State) :
    exec (.fdot2 x ch .f32x2 d a b) s = aluWord .alu x ch (floatUse .f32x2 true true false) d.toNat a.toNat b.toNat
      (fun c _ p q r _ => (lane32 false (dotOf .f32x2 c.env p q r 0 [0, 1]).1, (dotOf .f32x2 c.env p q r 0 [0, 1]).2)) s := rfl

theorem fdot2_two (x : Pre) (ch : Bool) {t : FTy} (h1 : t ≠ .f32) (h2 : t ≠ .f32x2) (d a b : BitVec 7) (s : State) :
    exec (.fdot2 x ch t d a b) s = aluWord .alu x ch (floatUse t true true false) d.toNat a.toNat b.toNat
      (fun c _ p q r _ => (packElems 32 2 fun n => if n = 0 then (dotOf t c.env p q r 0 [0, 1]).1 else
        (dotOf t c.env p q r 1 [2, 3]).1, (dotOf t c.env p q r 0 [0, 1]).2 ||| (dotOf t c.env p q r 1 [2, 3]).2)) s := by
  cases t with
  | f32 => exact absurd rfl h1
  | f32x2 => exact absurd rfl h2
  | f16x4 => rfl
  | bf16x4 => rfl

theorem fdot4_one (x : Pre) (ch : Bool) (h : HTy) (d a b : BitVec 7) (s : State) (ft : FTy)
    (hft : ft = if h = .f16x4 then .f16x4 else .bf16x4) :
    exec (.fdot4 x ch h d a b) s = aluWord .alu x ch (floatUse ft true true false) d.toNat a.toNat b.toNat
      (fun c _ p q r _ => (lane32 false (dotOf ft c.env p q r 0 [0, 1, 2, 3]).1, (dotOf ft c.env p q r 0 [0, 1, 2, 3]).2)) s := by
  subst hft
  cases h <;> rfl

/-- Settles O27: each word is its format's function, position by position; fcmp is a comparison into a predicate. -/
theorem floatArithmetic : Obligations.FloatArithmetic := by
  refine ⟨?_, ?_⟩
  · intro x ch t h d a b run fh dot
    refine ⟨aluDone_of_exec rfl fun _ => rfl, aluDone_of_exec rfl fun _ => rfl, aluDone_of_exec rfl fun _ => rfl,
      aluDone_of_exec rfl fun _ => rfl, aluDone_of_exec rfl fun _ => rfl, aluDone_of_exec rfl fun _ => rfl,
      aluDone_of_exec rfl fun _ => rfl, aluDone_of_exec rfl fun _ => rfl, aluDone_of_exec rfl fun _ => rfl, ?_,
      fun h1 h2 => aluDone_of_exec rfl fun s => fdot2_two x ch h1 h2 d a b s,
      aluDone_of_exec rfl fun s => fdot4_one x ch h d a b s fh rfl⟩
    intro ht
    subst ht
    exact aluDone_of_exec rfl fun s => fdot2_one x ch d a b s
  · intro x ch n p a b
    refine ⟨fun hn => predDone_of_exec fun s => ?_, fun hn s gi vi v hr => issue_cause hr (if_pos hn)⟩
    have hbody : ∀ (c : Cx) (m : Mach) (e : Eff), (if n.toNat > 7 then c.illegal else e) = e :=
      fun _ _ _ => if_neg (Nat.not_lt.mpr hn)
    exact congrArg (fun body => issue (some .alu) false x ch body s) (funext fun c => funext fun m => hbody c m _)

/-- Settles O28: a conversion writes the positions of its part; a part beyond the lane, an unknown type or a queue for d stops it. -/
theorem floatConvert : Obligations.FloatConvert := by
  intro x ch t d a h k j st it fits u w n
  have hk : ∀ cd cs : Nat, (decide (k.toNat ≤ 9) && partOk cd cs h.toNat) = true ↔ k.toNat ≤ 9 ∧ fits cd cs := fun cd cs => by
    rw [Bool.and_eq_true, decide_eq_true_eq, partOk_iff]
  exact ⟨partDone_of_exec rfl (partOk_iff ..) fun _ => rfl, partDone_of_exec rfl (hk ..) fun _ => rfl,
    partDone_of_exec rfl (hk ..) fun _ => rfl, partDone_of_exec rfl decide_eq_true_iff fun _ => rfl,
    partDone_of_exec rfl decide_eq_true_iff fun _ => rfl, partDone_of_exec rfl decide_eq_true_iff fun _ => rfl,
    partDone_of_exec rfl decide_eq_true_iff fun _ => rfl⟩

/-- Settles O29: each word is outstanding with its function's result for every position. -/
theorem floatLongLatency : Obligations.FloatLongLatency := by
  intro x ch t d a b f one
  exact ⟨longDone_of_exec rfl fun _ => rfl, longDone_of_exec rfl fun _ => rfl, longDone_of_exec rfl fun _ => rfl,
    longDone_of_exec rfl fun _ => rfl, longDone_of_exec rfl fun _ => rfl, longDone_of_exec rfl fun _ => rfl,
    longDone_of_exec rfl fun _ => rfl, longDone_of_exec rfl fun _ => rfl, longDone_of_exec rfl fun _ => rfl⟩

end Sys2Proof.Proofs
end

section
/-!
PROOFS. The words that the spec writes out, what a step runs, and what reset leaves.
-/

namespace Sys2Proof.Proofs

open Sys2Proof.Machine Sys2Proof.Claims

/-- Settles O52: the decoder evaluated on each word. -/
theorem decodedWords : Obligations.DecodedWords := by
  unfold Obligations.DecodedWords
  decide +kernel

/-! ## What moves TIME -/

theorem takeTail_time (m : Mach) (gr : Nat) : (takeTail m gr).time = m.time := by
  unfold takeTail
  dsimp only
  split
  · rename_i n _ _
    cases h : poolTake m (m.grid gr).part n with
    | none => rfl
    | some r =>
      obtain ⟨f, _, rfl⟩ := Option.map_eq_some_iff.mp h
      rfl
  · rfl

theorem serveTails_time (m : Mach) : (serveTails m).time = m.time := foldl_same _ _ _ _ fun m g _ => takeTail_time m g

theorem noteFronts_time (m : Mach) : (noteFronts m).time = m.time := by
  refine (foldl_same Mach.time _ _ _ fun m p _ => ?_).trans (serveTails_time m)
  dsimp only
  split <;> rfl

theorem noteIdle_time (m : Mach) : (noteIdle m).time = m.time := by
  refine foldl_same Mach.time _ _ _ fun m ti _ => ?_
  exact (apply_ite Mach.time _ _ _).trans (ite_self _)

theorem passTime_time {m : Mach} (h : m.pk.on = true) (ns : Nat) : (passTime m ns).time = m.time + ns := by
  rw [passTime, if_pos h]

theorem advance_time {t : State} (h : t.m.pk.on = true) (old : Mach) : (advance old t).m.time = t.m.time + Config.tick old.fresh :=
  (noteIdle_time _).trans ((noteFronts_time _).trans (passTime_time h _))

/-! ## What a turn runs -/

/-- A word that does not decode raises ILLEGAL_OP. -/
theorem issue_illegal {s : State} {gi vi : Nat} {v : Voice} (h : Issues s gi vi v) (x : Pre) {ch : Bool} :
    issue none false x ch (fun c _ => c.illegal) s =
      .next (causeState s gi vi v false x .illegalOp (cxOf s gi vi v false x).waddr (cxOf s gi vi v false x).act) := by
  simp only [issue, h.cur, h.voice, h.inside, if_true, issueAt]
  rfl

section
variable {s : State} {gi vi : Nat} {v : Voice}

theorem runVoice_inside (hv : voiceAt s.m gi vi = some v) (hi : v.inside = true) :
    runVoice gi vi s = runInside gi vi v { s with cur := some (gi, vi) } := by
  simp only [runVoice, hv, hi, if_true]

theorem runVoice_head (hv : voiceAt s.m gi vi = some v) (hi : v.inside = false) :
    runVoice gi vi s = runHead gi vi v { s with cur := some (gi, vi) } := by
  simp only [runVoice, hv, hi, Bool.false_eq_true, if_false]

theorem runInside_word (hw : v.word ≤ lastWord v.code) (hc : (s.chain.isNone && waitsForClaim s.m gi v) = false) {i : Instr}
    {rest : List Nat} (hd : decodeWords (v.code.drop v.word) = .ok (i, rest)) : runInside gi vi v s = exec i s := by
  simp only [runInside, if_neg (Nat.not_lt.mpr hw), hc, hd, Bool.false_eq_true, if_false]

theorem runInside_error (hw : v.word ≤ lastWord v.code) (hc : (s.chain.isNone && waitsForClaim s.m gi v) = false)
    {e : Reject} (hd : decodeWords (v.code.drop v.word) = .error e) :
    runInside gi vi v s = issue none false (rawPre (v.code.getD v.word 0)) false (fun c _ => c.illegal) s := by
  simp only [runInside, if_neg (Nat.not_lt.mpr hw), hc, hd, Bool.false_eq_true, if_false]

theorem runHead_word {ws : List Nat} (hf : fetchCourse s.m gi v = .ok ws) {i : Instr} {rest : List Nat}
    (hd : decodeWords ws = .ok (i, rest)) : runHead gi vi v s = exec i s := by
  simp only [runHead, hf, hd]

end

/-- A voice that has passed its head joins the rest of its cycle. -/
theorem goOn_entered {gi vi : Nat} {old : Mach} {w : State} (hi : (voiceOf old (gi, vi)).inside = false)
    (ho : voiceAt old gi vi ≠ none) (hn : voiceAt w.m gi vi ≠ none) (hin : (voiceOf w.m (gi, vi)).inside = true)
    (hst : (voiceOf w.m (gi, vi)).stalled = false) :
    goOn gi vi old w = { w with cyc := w.cyc.map fun c => { c with co := (gi, vi) :: c.co } } := by
  obtain ⟨v, hv⟩ := Option.ne_none_iff_exists'.mp ho
  obtain ⟨u, hu⟩ := Option.ne_none_iff_exists'.mp hn
  have hvo : voiceOf old (gi, vi) = v := voice_of_voiceAt hv
  have huo : voiceOf w.m (gi, vi) = u := voice_of_voiceAt hu
  rw [hvo] at hi
  rw [huo] at hin hst
  have he : entered gi vi old w.m = true := by simp only [entered, hv, hu, hi, hin, hst]; rfl
  rw [goOn, if_pos he]

/-! ## What a step picks -/

theorem step_on {s : State} (h : s.m.pk.on = true) : step s = stepFrom (current s) := if_pos h

/-- A chain in progress is left as it stands. -/
theorem current_of_chain {s : State} (h : s.chain ≠ none) : current s = s := by
  obtain ⟨k, hk⟩ := Option.ne_none_iff_exists'.mp h
  rw [current, hk]
  rfl

theorem current_chain (s : State) : (current s).chain = s.chain := by unfold current; split <;> rfl
theorem current_inbox (s : State) : (current s).inbox = s.inbox := by unfold current; split <;> rfl

theorem pick_chain {s : State} {gi vi : Nat} (h : s.chain ≠ none) (hc : s.cur = some (gi, vi)) : pick s = .chain gi vi := by
  obtain ⟨k, hk⟩ := Option.ne_none_iff_exists'.mp h
  simp only [pick, hk, hc]

theorem pick_inbox {s : State} {e : Instr} {rest : List Instr} (h : s.chain = none) (ht : s.cyc.bind (nextTurn s) = none)
    (hu : urgentEvent s.m = none) (hi : s.inbox = e :: rest) : pick s = .inbox e rest := by
  simp only [pick, h, ht, hu, hi]

theorem stepFrom_chain {s : State} {gi vi : Nat} (h : pick s = .chain gi vi) :
    stepFrom s = mapNext (advance s.m) (runVoice gi vi s) := by rw [stepFrom, h]

theorem stepFrom_inbox {s : State} {e : Instr} {rest : List Instr} (h : pick s = .inbox e rest) :
    stepFrom s = mapNext (advance s.m) (exec e { s with inbox := rest }) := by rw [stepFrom, h]

theorem stepFrom_voice {s : State} {t : Turn} (h : pick s = .voice t) :
    stepFrom s = mapNext (fun r => advance s.m (goOn t.gi t.vi t.m r)) (runVoice t.gi t.vi (turnState s t)) := by rw [stepFrom, h]

theorem stepFrom_event {s : State} {e : Ev} (h : pick s = .event e) :
    stepFrom s = mapNext (advance s.m) (runEv e { s with cyc := none }) := by rw [stepFrom, h]

/-- Settles O53: by what the step picks. -/
theorem stepRunsDecoded : Obligations.StepRunsDecoded := by
  intro s hon s0
  refine ⟨?_, ?_, ?_, ?_, ?_, fun t => ⟨rfl, fun h => advance_time h _⟩⟩
  · intro gi vi v i rest hc hcur hv hi hw hd
    have hcs : s.chain.isNone = false := Option.isNone_eq_false_iff.mpr (Option.isSome_iff_ne_none.mpr hc)
    have hself : { s with cur := some (gi, vi) } = s := by rw [← hcur]
    rw [step_on hon, current_of_chain hc, stepFrom_chain (pick_chain hc hcur), runVoice_inside hv hi, hself,
      runInside_word hw (by rw [hcs]; rfl) hd]
  · intro t ht s1 after v hv
    have hs1 : step s = after (runVoice t.gi t.vi (turnState s0 t)) := (step_on hon).trans (stepFrom_voice ht)
    refine ⟨fun hi hw hwait => ?_, fun hi ws i rest hf hd => ?_⟩
    · have hc : (s1.chain.isNone && waitsForClaim s1.m t.gi v) = false := by rw [hwait, Bool.and_false]
      rw [hs1, runVoice_inside (s := turnState s0 t) hv hi]
      exact ⟨fun i rest hd => congrArg after (runInside_word hw hc hd),
        fun e hd => congrArg after ((runInside_error hw hc hd).trans (issue_illegal ⟨rfl, hv, hi⟩ _))⟩
    · rw [hs1, runVoice_head (s := turnState s0 t) hv hi]
      exact congrArg after (runHead_word hf hd)
  · exact fun gi vi w hi ho hn hin hst => congrArg State.cyc (goOn_entered hi ho hn hin hst)
  · intro e rest hc ht hu hi
    rw [step_on hon]
    exact stepFrom_inbox (pick_inbox ((current_chain s).trans hc) ht hu ((current_inbox s).trans hi))
  · intro e he
    obtain ⟨i, hi, hrun⟩ := runEv_exec e { s0 with cyc := none }
    exact ⟨i, hi, by rw [step_on hon, stepFrom_event he, hrun]⟩

/-- Local memory reads 0 after reset. -/
theorem rdByte_reset {key : Nat} (h : keyRegion key = 1) : rdByte State.reset.m key = 0 := by
  rw [rdByte, if_neg (by omega)]
  rfl

theorem ctlRead_reset_floglost (p : Nat) : ctlRead State.reset.m p 0x60 = 0 := by
  have hp : State.reset.m.part p = Part.reset := rfl
  simp [ctlRead, hp, Part.reset, boolNat]

/-- Settles O54: reset's fields as they are defined; a new group's first scalar register is its parameter. -/
theorem resetValues : Obligations.ResetValues := by
  refine ⟨fun p hp => ⟨fun _ => rfl, rfl, rfl, rfl, rfl, rfl, ctlRead_reset_floglost p⟩, fun die => ⟨rfl, rfl, rfl, rfl, rfl⟩, rfl, rfl, rfl, rfl,
    fun _ => rdByte_reset, ?_, State.reset_memory_wf, nofun, rfl⟩
  intro gr ti gid w die core pos n r h g
  exact ⟨rfl, rfl, rfl, rfl, rfl, rfl, rfl, rfl, rfl, Tbl.get_set_same _ _ _ _, rfl⟩

end Sys2Proof.Proofs
end

section
/-!
PROOFS. Queue words, barrier objects and circular buffers (11 R261 to R274, 09 R212).
-/

namespace Sys2Proof.Proofs

open Sys2Proof.Machine Sys2Proof.Claims

/-! ## Pushes -/

section
variable {c : Cx} {m : Mach} {n : Nat} {es : List (Word × Origin)}

theorem pushAll_ok (h : mayPush c.base c.gi n = true) :
    c.pushAll m n es = .ok (m.setGrp c.gi { m.grp c.gi with outq := (m.grp c.gi).outq ++ [(n, es)] }) := by
  rw [Cx.pushAll, h]
  rfl

theorem pushAll_refused (h : mayPush c.base c.gi n = false) :
    c.pushAll m n es = c.raise .queueState (BitVec.ofNat 64 n) c.act := by
  rw [Cx.pushAll, h]
  rfl

end

/-- The one push of a chain enters a command queue that has room, and else waits. -/
theorem pushOut_single {m : Mach} {gi n : Nat} {es : List (Word × Origin)} (hg : gi < m.groups.length)
    (ho : (m.grp gi).outq = [(n, es)]) (hb : (qGet (m.grp gi) n).bind = .cmd) :
    (es = [] → pushOut m gi = if 8 ≤ (qGet (m.grp gi) n).elems.length then none else some (m.setGrp gi { m.grp gi with outq := [] })) ∧
    (es ≠ [] → pushOut m gi = if (qGet (m.grp gi) n).elems.length + es.length > 8 then none else
      some (m.setGrp gi (qSet { m.grp gi with outq := [] } n
        { qGet (m.grp gi) n with elems := (qGet (m.grp gi) n).elems ++ es }))) := by
  have hm : (m.setGrp gi { m.grp gi with outq := [] }).grp gi = { m.grp gi with outq := [] } := Mach.grp_setGrp_same m hg _
  have hq : qGet { m.grp gi with outq := [] } n = qGet (m.grp gi) n := rfl
  constructor
  · rintro rfl
    simp only [pushOut, ho, List.isEmpty_cons, Bool.false_eq_true, if_false, List.foldl_cons, List.foldl_nil, Option.bind_some,
      List.isEmpty_nil, if_true, qCount, hm, hq, hb, ge_iff_le]
  · intro he
    have hne : es.isEmpty = false := List.isEmpty_eq_false_iff.mpr he
    simp only [pushOut, ho, List.isEmpty_cons, Bool.false_eq_true, if_false, List.foldl_cons, List.foldl_nil, Option.bind_some,
      hne, pushQ, hm, hq, hb, setGrp_setGrp]
    split <;> rfl

/-! ## Bindings -/

/-- A word that binds a queue to the endpoint that its operand gives, where that is legal. -/
theorem binds_of {i : Instr} {x : Pre} {ch : Bool} {op : Option Nat} {n : Nat} {legal : Cx → Nat → Prop} {e : Nat → Bind}
    {body : Cx → Mach → Word → Word → Eff} (hx : ∀ s, exec i s = qWord .mem x ch op none always body s)
    (hb : ∀ c m va vb, legal c va.toNat → body c m va vb = c.qbind m n (e va.toNat)) :
    QDone i .mem x ch op none (fun c m va _ => legal c va.toNat ∧ qCount m c.gi n = 0 ∧ bindFree m c.gi n (e va.toNat) = true)
      (fun c m va _ => let m1 := bindEnd (unbindQ m c.gi n) c.gi n (e va.toNat)
        m1.setGrp c.gi (qSet (m1.grp c.gi) n { qGet (m1.grp c.gi) n with bind := e va.toNat })) ∧
    QTraps i .mem x op none (fun c m va _ => legal c va.toNat ∧ (qCount m c.gi n ≠ 0 ∨ bindFree m c.gi n (e va.toNat) = false))
      .queueState (fun _ _ _ => BitVec.ofNat 64 n) := by
  refine ⟨qDone_of hx fun c m va vb ⟨hl, hc, hf⟩ => ⟨rfl, ?_⟩, qTraps_of hx fun c m va vb ⟨hl, hstop⟩ => ⟨rfl, ?_⟩⟩
  · have hno : ¬(decide (qCount m c.gi n ≠ 0) || !bindFree m c.gi n (e va.toNat)) = true := by simp [hc, hf]
    rw [hb c m va vb hl, Cx.qbind, if_neg hno]
  · have hyes : (decide (qCount m c.gi n ≠ 0) || !bindFree m c.gi n (e va.toNat)) = true := by
      rcases hstop with h | h <;> simp [h]
    rw [hb c m va vb hl, Cx.qbind, if_pos hyes]

/-! ## Barrier objects -/

/-- Where a barrier object may stand: a multiple of 16 in the group's own scratchpad (R269). -/
def ObjectAt (c : Cx) (m : Mach) (va : Word) : Prop :=
  va.toNat % 16 = 0 ∧ bitsOf va.toNat 28 4 = 15 ∧ va.toNat < 2 ^ 32 ∧ bitsOf va.toNat 20 8 = 0 ∧
    (m.team c.g.team).place ≠ .complete ∧ bitsOf va.toNat 0 20 + 16 ≤ spadSize m c.g.team

section
variable {c : Cx} {m : Mach} {va : Word}

theorem bobAt_ok (h : ObjectAt c m va) : bobAt m c.who va.toNat = .ok (bitsOf va.toNat 0 20) := by
  obtain ⟨hal, hrank, hlow, hmid, hplace, hend⟩ := h
  have h1 : ¬(va.toNat ≥ 2 ^ 32 ∨ bitsOf va.toNat 20 8 ≠ 0) := by rw [not_or, not_not]; exact ⟨by omega, hmid⟩
  have h2 : ¬((m.team c.who.team).place = .complete ∨ bitsOf va.toNat 0 20 + 16 > spadSize m c.who.team) := by
    rw [not_or]; exact ⟨hplace, Nat.not_lt.mpr hend⟩
  have hal' : ¬va.toNat % 16 ≠ 0 := not_not.mpr hal
  have hrank' : ¬bitsOf va.toNat 28 4 ≠ 15 := not_not.mpr hrank
  simp only [bobAt, checkSpad, if_neg hal', if_neg hrank', if_pos hrank, if_neg h1, if_neg h2]

theorem bobAt_misalign (h : va.toNat % 16 ≠ 0) : bobAt m c.who va.toNat = .error .misalign := by rw [bobAt, if_pos h]

/-- An aligned address outside the group's own scratchpad. -/
theorem bobAt_prot (h : va.toNat % 16 = 0) (hn : ¬ObjectAt c m va) : bobAt m c.who va.toNat = .error .prot := by
  rw [bobAt, if_neg (not_not.mpr h)]
  by_cases hrank : bitsOf va.toNat 28 4 = 15
  case neg => rw [if_pos hrank]
  rw [if_neg (not_not.mpr hrank)]
  simp only [checkSpad, if_neg (not_not.mpr h), if_pos hrank]
  by_cases h1 : va.toNat ≥ 2 ^ 32 ∨ bitsOf va.toNat 20 8 ≠ 0
  case pos => rw [if_pos h1]
  by_cases h2 : (m.team c.who.team).place = .complete ∨ bitsOf va.toNat 0 20 + 16 > spadSize m c.who.team
  case pos => rw [if_neg h1, if_pos h2]
  obtain ⟨hlow, hmid⟩ := not_or.mp h1
  obtain ⟨hplace, hend⟩ := not_or.mp h2
  exact absurd ⟨h, hrank, Nat.lt_of_not_le hlow, not_not.mp hmid, hplace, Nat.le_of_not_lt hend⟩ hn

variable {f : Cx → Mach → Nat → Word → Eff} {vb : Word}

/-- A word that changes an object does so at its offset. -/
theorem bobBody_change (hv : wb vb 40 24 = 0) (h : ObjectAt c m va) (hf : fenceHeld m c.gi = false) :
    bobBody true f c m va vb = f c m (bitsOf va.toNat 0 20) vb := by
  have hv' : ¬(true && decide (wb vb 40 24 ≠ 0)) = true := by simp [hv]
  simp only [bobBody, if_neg hv', bobAt_ok h, hf, Bool.and_false, Bool.false_eq_true, if_false]

/-- A word that reads one does so too. -/
theorem bobBody_look (h : ObjectAt c m va) : bobBody false f c m va vb = f c m (bitsOf va.toNat 0 20) vb := by
  simp only [bobBody, bobAt_ok h, Bool.false_and, Bool.false_eq_true, if_false]

theorem bobBody_stop (hv : wb vb 40 24 = 0) {k : Cause} (h : bobAt m c.who va.toNat = .error k) :
    bobBody true f c m va vb = c.raise k va c.act := by
  have hv' : ¬(true && decide (wb vb 40 24 ≠ 0)) = true := by simp [hv]
  simp only [bobBody, if_neg hv', h]

end

theorem bobDone_iff (w : Word) : bobDone w = true ↔ wb w 0 40 = 0 ∨ wb w 63 1 = 1 := by
  rw [bobDone, Bool.or_eq_true, decide_eq_true_eq, decide_eq_true_eq]

/-! ## Circular buffers -/

section
variable {c : Cx} {m : Mach}

/-- A record that no counter tracks always has room. -/
theorem room_none (c : Cx) (m : Mach) : room c m none := rfl

/-- A record of a word that follows the group's accesses stays with the group while some are to be performed. -/
theorem later_eq (act : HeldAct) : c.later m act =
    .ok (if accessesHeld m c.gi (m.grp c.gi).nextId true then out c m none [] [] (.held act) else m) := by
  unfold Cx.later
  split
  · exact long_out (room_none c m) _ _ _
  · rfl

end

/-- The fields that cbinit accepts for a buffer in the scratchpad, and for one of slots (R272). -/
theorem cbinit_fields_spad {va vb : Word} (h1 : 1 ≤ wb vb 0 8) (h2 : wb vb 0 8 ≤ 64) (h3 : wb vb 9 7 = 0) (h4 : wb vb 32 32 = 0)
    (hk : wb vb 8 1 = 0) (hs : 1 ≤ wb vb 16 16) (ha : va.toNat % 256 = 0) :
    (decide (1 ≤ wb vb 0 8) && decide (wb vb 0 8 ≤ 64) && decide (wb vb 9 7 = 0) && decide (wb vb 32 32 = 0) &&
      (if wb vb 8 1 = 1 then decide (wb vb 16 16 = 0) && decide (wb va 6 58 = 0) && decide (va.toNat + wb vb 0 8 ≤ 64)
        else decide (1 ≤ wb vb 16 16) && decide (va.toNat % 256 = 0))) = true := by
  simp [h1, h2, h3, h4, hk, hs, ha]

theorem cbinit_fields_slots {va vb : Word} (h1 : 1 ≤ wb vb 0 8) (h2 : wb vb 0 8 ≤ 64) (h3 : wb vb 9 7 = 0) (h4 : wb vb 32 32 = 0)
    (hk : wb vb 8 1 = 1) (hs : wb vb 16 16 = 0) (ha : va.toNat + wb vb 0 8 ≤ 64) :
    (decide (1 ≤ wb vb 0 8) && decide (wb vb 0 8 ≤ 64) && decide (wb vb 9 7 = 0) && decide (wb vb 32 32 = 0) &&
      (if wb vb 8 1 = 1 then decide (wb vb 16 16 = 0) && decide (wb va 6 58 = 0) && decide (va.toNat + wb vb 0 8 ≤ 64)
        else decide (1 ≤ wb vb 16 16) && decide (va.toNat % 256 = 0))) = true := by
  have hhigh : wb va 6 58 = 0 := by
    have : va.toNat / 2 ^ 6 = 0 := by omega
    rw [wb, bitsOf, this, Nat.zero_mod]
  simp [h1, h2, h3, h4, hk, hs, ha, hhigh]

/-! ## The obligation -/

/-- A buffer with no command in progress and no slot acquired may be made anew. -/
theorem cbinit_idle {o : Option Cbuf} : (∀ k, o = some k → k.busy = [] ∧ k.acq = 0) →
    (!true || (match o with | some k => !k.busy.isEmpty || decide (k.acq ≠ 0) | none => false)) = false := by
  intro h
  cases o with
  | none => rfl
  | some k =>
    obtain ⟨hb, ha⟩ := h k rfl
    simp [hb, ha]

/-- Settles O31: each word's body at the place where its checks pass, or where one fails. -/
theorem queuesAndBuffers : Obligations.QueuesAndBuffers := by
  refine ⟨?_, ?_, ?_⟩
  · intro x ch f q a b n y free push regs data binds any op obj at'
    have hbinds : ∀ i op legal e {body}, (∀ s, exec i s = qWord .mem x ch op none always body s) →
        (∀ c m va vb, legal c va.toNat → body c m va vb = c.qbind m n (e va.toNat)) → binds i op legal e :=
      fun _ _ _ _ _ hx hb => binds_of hx hb
    refine ⟨⟨?_, ?_⟩, ⟨?_, ?_, ?_⟩, ⟨?_, ?_, ?_, ?_, ?_, ?_⟩, ?_, ?_, ?_, ⟨?_, ?_⟩, ?_, ?_⟩
    · exact qDone_of (fun _ => rfl) fun c m _ _ ⟨⟨h4, hb⟩, hp⟩ => ⟨h4, (ite_false hb _ _).trans (pushAll_ok hp)⟩
    · exact qTraps_of (fun _ => rfl) fun c m _ _ ⟨⟨h4, hb⟩, hp⟩ => ⟨h4, (ite_false hb _ _).trans (pushAll_refused hp)⟩
    · refine qDone_of (fun _ => rfl) fun c m _ _ ⟨⟨⟨h4, hb⟩, hgeo, hcmd, hbind, hp⟩, hl⟩ => ⟨by rw [h4, hgeo]; rfl, ?_⟩
      exact (ite_false hb _ _).trans ((if_neg (not_not.mpr hcmd)).trans ((if_neg (not_not.mpr hbind)).trans
        ((if_pos hl).trans (pushAll_ok hp))))
    · refine qDone_of (fun _ => rfl) fun c m _ _ ⟨⟨⟨h4, hb⟩, hgeo, hcmd, hbind, hp⟩, hl, hf⟩ => ⟨by rw [h4, hgeo]; rfl, ?_⟩
      have hl' : wb ((regs c m).getD 0 0) 53 1 ≠ 1 := by rw [hl]; decide
      exact (ite_false hb _ _).trans ((if_neg (not_not.mpr hcmd)).trans ((if_neg (not_not.mpr hbind)).trans
        ((if_neg hl').trans ((ite_false (congrArg not hf) _ _).trans (pushAll_ok hp)))))
    · refine qTraps_of (fun _ => rfl) fun c m _ _ ⟨⟨⟨h4, hb⟩, hgeo, hcmd, hbind, hp⟩, hl, hf, hfresh⟩ =>
        ⟨by rw [h4, hgeo]; rfl, ?_⟩
      have hl' : wb ((regs c m).getD 0 0) 53 1 ≠ 1 := by rw [hl]; decide
      have hregs : regs c c.base = regs c m := by simp only [regs, hfresh]
      rw [hregs]
      exact (ite_false hb _ _).trans ((if_neg (not_not.mpr hcmd)).trans ((if_neg (not_not.mpr hbind)).trans
        ((if_neg hl').trans (ite_true (congrArg not hf) _ _))))
    · exact hbinds (.qbindNone x ch q) none any (fun _ => .unbound) (fun _ => rfl) fun _ _ _ _ _ => rfl
    · exact hbinds (.qbindCmd x ch q) none any (fun _ => .cmd) (fun _ => rfl) fun _ _ _ _ _ => rfl
    · exact hbinds (.qbindTok x ch q) none any (fun _ => .tok) (fun _ => rfl) fun _ _ _ _ _ => rfl
    · refine hbinds (.qbindEng x ch q a) op (fun c e => 1 ≤ e ∧ e ≤ 5 ∧ (isGeo c.g.die = true → e = 2)) (fun e => .eng e) (fun _ => rfl) fun c m va vb ⟨h1, h5, hgeo⟩ => if_neg ?_
      simp only [Bool.or_eq_true, Bool.and_eq_true, decide_eq_true_eq, not_or, not_and, not_not]
      exact ⟨⟨Nat.one_le_iff_ne_zero.mp h1, Nat.not_lt.mpr h5⟩, hgeo⟩
    · exact hbinds (.qbindLsend x ch q a) op (fun _ e => e ≤ 31) (fun e => .lsend e) (fun _ => rfl) fun c m va vb h => if_neg (Nat.not_lt.mpr h)
    · exact hbinds (.qbindLrecv x ch q a) op (fun _ e => e ≤ 31) (fun e => .lrecv e) (fun _ => rfl) fun c m va vb h => if_neg (Nat.not_lt.mpr h)
    · exact qDone_of (fun _ => rfl) fun c m _ _ _ => ⟨rfl, rfl⟩
    · exact qDone_of (fun _ => rfl) fun c m va vb ⟨ho, hv, hf⟩ => ⟨rfl, bobBody_change hv ho hf⟩
    · exact qDone_of (fun _ => rfl) fun c m va vb ⟨ho, hv, hf⟩ => ⟨rfl, bobBody_change hv ho hf⟩
    · refine qDone_of (fun _ => rfl) fun c m va vb ⟨⟨ho, hp, hr⟩, hmet⟩ => ⟨rfl, ?_⟩
      exact (bobBody_look ho).trans ((ite_false hp _ _).trans ((if_pos ((bobDone_iff _).mpr hmet)).trans (longS_out hr _ _ _)))
    · refine qDone_of (fun _ => rfl) fun c m va vb ⟨⟨ho, hp, hr⟩, hmet⟩ => ⟨rfl, ?_⟩
      exact (bobBody_look ho).trans ((ite_false hp _ _).trans
        ((if_neg fun h => hmet ((bobDone_iff _).mp h)).trans (longWait_out hr _ _)))
    · exact qTraps_of (fun _ => rfl) fun c m va vb ⟨hv, ha⟩ => ⟨rfl, bobBody_stop hv (bobAt_misalign ha)⟩
    · exact qTraps_of (fun _ => rfl) fun c m va vb ⟨hv, ha, hn⟩ => ⟨rfl, bobBody_stop hv (bobAt_prot ha hn)⟩
  · intro x ch f a b n hn op buf idle clean waiters made
    have hn' : decide (n.toNat < 4) = true := decide_eq_true hn
    refine ⟨?_, ?_, ?_, ?_, ?_, ?_, ?_⟩
    · refine qDone_of (fun _ => rfl) fun c m va vb ⟨hidle, ⟨h1, h2, h3, h4⟩, hk, hs, hal, hchk, hend⟩ => ⟨hn', ?_⟩
      have hfields := cbinit_fields_spad h1 h2 h3 h4 hk hs hal
      have hk' : wb vb 8 1 ≠ 1 := by rw [hk]; decide
      refine (ite_false (by rw [hfields]; exact cbinit_idle hidle) _ _).trans ((if_neg hk').trans ?_)
      dsimp only
      rw [hchk]
      refine (ite_true (by simpa using hend) _ _).trans ?_
      simp only [hk, decide_eq_false_iff_not] <;> rfl
    · refine qDone_of (fun _ => rfl) fun c m va vb ⟨hidle, ⟨h1, h2, h3, h4⟩, hk, hs, hend, hslots⟩ => ⟨hn', ?_⟩
      have hfields := cbinit_fields_slots h1 h2 h3 h4 hk hs hend
      refine (ite_false (by rw [hfields]; exact cbinit_idle hidle) _ _).trans ((if_pos hk).trans ?_)
      have hnone : ((List.range (wb vb 0 8)).find? fun i => !(decide ((slotOf m c.g (va.toNat + i)).team = c.g.team) &&
          decide ((slotOf m c.g (va.toNat + i)).state = 1))) = none := by
        rw [List.find?_eq_none]
        intro i hi
        obtain ⟨ht, hst⟩ := hslots i (List.mem_range.mp hi)
        simp [ht, hst]
      rw [hnone]
      simp only [hk, decide_true] <;> rfl
    · refine qDone_of (fun _ => rfl) fun c m _ _ ⟨hbuf, hr⟩ => ⟨hn', ?_⟩
      obtain ⟨k, hk⟩ := Option.isSome_iff_exists.mp hbuf
      dsimp only [buf] at hk ⊢
      simp only [hk, longWait_out hr] <;> rfl
    · refine qDone_of (fun _ => rfl) fun c m _ _ ⟨k, hk, hacq⟩ => ⟨hn', ?_⟩
      dsimp only [buf] at hk ⊢
      simp only [hk, if_neg hacq, later_eq, Bool.and_eq_true, decide_eq_true_eq, and_assoc] <;> rfl
    · refine qDone_of (fun _ => rfl) fun c m _ _ _ => ⟨hn', ?_⟩
      rfl
    · refine qTraps_of (fun _ => rfl) fun c m _ _ h => ⟨hn', ?_⟩
      dsimp only [buf] at h ⊢
      cases hk : cbOf (m.team c.g.team) n.toNat with
      | none => rfl
      | some k => exact if_pos (h k hk)
    · refine qTraps_of (fun _ => rfl) fun c m _ _ h => ⟨hn', ?_⟩
      dsimp only [buf] at h ⊢
      rw [h]
      rfl
  · intro m gi n es hg ho g y hb
    obtain ⟨hnil, hcons⟩ := pushOut_single hg ho hb
    exact ⟨hnil, fun he hle => (hcons he).trans (if_neg (Nat.not_lt.mpr hle)), fun he hlt => (hcons he).trans (if_pos hlt)⟩

end Sys2Proof.Proofs
end

section
/-!
PROOFS. What making accesses visible leaves as it was, and ring tags and barriers (14 R321, 11 R275, R281, R282).
-/

namespace Sys2Proof.Proofs

open Sys2Proof.Machine Sys2Proof.Claims

/-! ## What a release leaves -/

/-- Two devices with the same grids and teams, and groups that differ in what is outstanding alone. -/
structure SameTeams (m m' : Mach) : Prop where
  teams : m'.teams = m.teams
  grids : m'.grids = m.grids
  groups : ∀ i, SameButOutst (m.grp i) (m'.grp i)

theorem SameTeams.refl (m : Mach) : SameTeams m m := ⟨rfl, rfl, fun _ => .refl _⟩

theorem SameTeams.trans {a b c : Mach} (h : SameTeams a b) (h' : SameTeams b c) : SameTeams a c :=
  ⟨h'.teams.trans h.teams, h'.grids.trans h.grids, fun i => (h.groups i).trans (h'.groups i)⟩

theorem SameTeams.of {m m' : Mach} (ht : m'.teams = m.teams) (hd : m'.grids = m.grids) (hg : m'.groups = m.groups) : SameTeams m m' :=
  ⟨ht, hd, fun i => by simp only [Mach.grp, hg]; exact .refl _⟩

theorem SameTeams.before {a b c : Mach} (h : SameTeams b c) (ht : b.teams = a.teams) (hd : b.grids = a.grids)
    (hg : b.groups = a.groups) : SameTeams a c := (SameTeams.of ht hd hg).trans h

theorem SameCaches.same {m m' : Mach} (h : SameCaches m m') : SameTeams m m' := ⟨h.teams, h.grids, h.groups⟩

theorem foldl_sameTeams {α : Type} (f : Mach → α → Mach) (hf : ∀ m a, SameTeams m (f m a)) :
    ∀ (as : List α) (m : Mach), SameTeams m (as.foldl f m)
  | [], m => .refl m
  | a :: as, m => (hf m a).trans (foldl_sameTeams f hf as (f m a))

section
variable {m m' : Mach} (h : SameTeams m m')
include h

theorem SameTeams.team (t : Nat) : m'.team t = m.team t := by simp only [Mach.team, h.teams]
theorem SameTeams.grid (k : Nat) : m'.grid k = m.grid k := by simp only [Mach.grid, h.grids]
theorem SameTeams.grp_team (i : Nat) : (m'.grp i).team = (m.grp i).team := by rw [h.groups i]
theorem SameTeams.grp_grid (i : Nat) : (m'.grp i).grid = (m.grp i).grid := by rw [h.groups i]
theorem SameTeams.grp_nextId (i : Nat) : (m'.grp i).nextId = (m.grp i).nextId := by rw [h.groups i]

end

theorem wrLines_same (m : Mach) (cells : List (Nat × Byte)) : SameTeams m (wrLines m cells) := (wrLines_caches m cells).same

theorem flushAtoms_same (m : Mach) (die core : Nat) (pick : Nat → DirtyA → Bool) : SameTeams m (flushAtoms m die core pick) :=
  (wrLines_same _ _).before rfl rfl rfl

theorem flushC1In_same (m : Mach) (who : Dirty1 → Bool) (lo n : Nat) : SameTeams m (flushC1In m who lo n) :=
  (wrLines_same _ _).before rfl rfl rfl

theorem flushC1_same (m : Mach) (die core : Nat) : SameTeams m (flushC1 m die core) :=
  (flushC1In_same _ _ _ _).trans (foldl_sameTeams _ (fun _ _ => flushAtoms_same _ _ _ _) _ _)

theorem shareCluster_same (m : Mach) (w : Who) : SameTeams m (shareCluster m w) := by
  unfold shareCluster
  exact (flushAtoms_same _ _ _ _).before rfl rfl rfl

theorem releaseAt_same (m : Mach) (w : Who) (scope : Nat) : SameTeams m (releaseAt m w scope) := by
  unfold releaseAt
  split
  · exact flushC1_same m _ _
  · split
    · exact shareCluster_same m w
    · exact .refl m

/-! ## Barriers -/

section
variable {m : Mach} {gi ti n : Nat} {clu : Bool}

theorem SameTeams.bar {m' : Mach} (h : SameTeams m m') (ti : Nat) (clu : Bool) (n : Nat) : barOf m' ti clu n = barOf m ti clu n := by
  simp only [barOf, barTeam, h.team]

theorem SameTeams.barTarget {m' : Mach} (h : SameTeams m m') (gi c : Nat) (clu : Bool) : barTarget m' gi c clu = barTarget m gi c clu := by
  simp only [Machine.barTarget, h.grp_grid, h.grp_team, h.grid, h.team]

/-- What the release of an arrival leaves. -/
def arrivalRelease (m : Mach) (gi : Nat) (clu : Bool) : Mach := if clu then releaseAt m (whoGroup m gi) 2 else m

/-- An arrival noted with its group: the phase that a wait of the group waits for. -/
def noteArrival (m : Mach) (gi ti n : Nat) (clu : Bool) : Mach :=
  m.setGrp gi
    { m.grp gi with
      arrived := Tbl.put (m.grp gi).arrived (2 * n + boolNat clu) (barOf m ti clu n).phase
      outst := (m.grp gi).outst.map fun o => match o.wait with
        | .bar i cl _ => if i = n && cl = clu && (m.grp gi).nextId < o.id then { o with wait := .bar i cl (barOf m ti clu n).phase } else o
        | _ => o }

theorem arrivalRelease_same (m : Mach) (gi : Nat) (clu : Bool) : SameTeams m (arrivalRelease m gi clu) := by
  unfold arrivalRelease
  split
  · exact releaseAt_same _ _ _
  · exact .refl m

/-- An arrival of a group is noted; the last of its phase completes it. -/
theorem arriveBar_eq {code : Nat} (ht : (m.grp gi).team = ti)
    (hc : (barOf m ti clu n).c = none ∨ (barOf m ti clu n).c = some code) :
    arriveBar m gi n clu code (m.grp gi).nextId =
      if (barOf m ti clu n).count + 1 ≥ barTarget m gi code clu then
        clearProg (setBar (noteArrival (arrivalRelease m gi clu) gi ti n clu) ti clu n
          { c := none, count := 0, phase := (barOf m ti clu n).phase + 1 }) (if clu then (m.team ti).cluster else [ti])
      else setBar (noteArrival (arrivalRelease m gi clu) gi ti n clu) ti clu n
        { barOf m ti clu n with c := some code, count := (barOf m ti clu n).count + 1 } := by
  have hrel := arrivalRelease_same m gi clu
  have hcode : (barOf m ti clu n).c.getD code = code := by rcases hc with h | h <;> rw [h] <;> rfl
  have ht' : ((arrivalRelease m gi clu).grp gi).team = ti := (hrel.grp_team gi).trans ht
  have hnow : arriveBar m gi n clu code (m.grp gi).nextId =
      let rel := arrivalRelease m gi clu
      let bar := barOf rel ((rel.grp gi).team) clu n
      let noted := noteArrival rel gi ((rel.grp gi).team) n clu
      if bar.count + 1 ≥ barTarget rel gi (bar.c.getD code) clu then
        clearProg (setBar noted (rel.grp gi).team clu n { c := none, count := 0, phase := bar.phase + 1 })
          (if clu then (rel.team (rel.grp gi).team).cluster else [(rel.grp gi).team])
      else setBar noted (rel.grp gi).team clu n { bar with c := some (bar.c.getD code), count := bar.count + 1 } := by
    rw [← hrel.grp_nextId]
    rfl
  rw [hnow]
  simp only [ht', hrel.bar, hcode, hrel.barTarget, hrel.team]

end

/-- A barrier word's own check. -/
theorem barArr_legal {clu : Bool} {cnt code : Nat} {o : Option Nat} (h : (clu = true ∨ cnt ≤ 32) ∧ (o = none ∨ o = some code)) :
    ((!clu && decide (cnt > 32)) || (o.isSome && decide (o ≠ some code))) = false := by
  obtain ⟨hclu, ho⟩ := h
  rcases ho with rfl | rfl <;> rcases hclu with rfl | hcnt <;> simp [*]

theorem barArr_illegal {clu : Bool} {cnt code : Nat} {o : Option Nat} (h : (clu = false ∧ 32 < cnt) ∨ (o ≠ none ∧ o ≠ some code)) :
    ((!clu && decide (cnt > 32)) || (o.isSome && decide (o ≠ some code))) = true := by
  rcases h with ⟨rfl, hcnt⟩ | ⟨hn, hc⟩
  · simp [hcnt]
  · obtain ⟨y, rfl⟩ := Option.ne_none_iff_exists'.mp hn
    simp [hc]

/-- The arrivals that complete a phase of a group's team, by a barrier word's field. -/
theorem barTarget_eq {m : Mach} {gi ti code : Nat} {clu : Bool} (ht : (m.grp gi).team = ti) : barTarget m gi code clu =
    if bitsOf code 0 6 = 0 then (m.grid (m.grp gi).grid).lr.grps * (if clu then (m.team ti).cluster.length else 1) else bitsOf code 0 6 := by
  subst ht
  simp only [barTarget, bitsOf, Nat.pow_zero, Nat.div_one] <;> rfl

/-- Settles O32: an arrival by what its phase still lacks, a wait by the group's last arrival, a tag by its old value. -/
theorem tagsAndBarriers : Obligations.TagsAndBarriers := by
  intro x ch f k a b n clu cnt teams goal bar rel fits before legal noted
  refine ⟨?_, ?_, ?_, ?_, ?_, ⟨?_, ?_⟩, ?_⟩
  · refine qDone_of (fun _ => rfl) fun c m _ _ ⟨⟨hfits, hbefore, hteam⟩, hlt⟩ => ⟨rfl, ?_⟩
    refine (ite_false (barArr_legal hfits) _ _).trans ((ite_false hbefore _ _).trans (congrArg Eff.ok ?_))
    exact (arriveBar_eq hteam hfits.2).trans (if_neg (Nat.not_le.mpr ((barTarget_eq hteam).symm ▸ hlt)))
  · refine qDone_of (fun _ => rfl) fun c m _ _ ⟨⟨hfits, hbefore, hteam⟩, hle⟩ => ⟨rfl, ?_⟩
    refine (ite_false (barArr_legal hfits) _ _).trans ((ite_false hbefore _ _).trans (congrArg Eff.ok ?_))
    exact (arriveBar_eq hteam hfits.2).trans (if_pos ((barTarget_eq hteam).symm ▸ hle))
  · refine qDone_of (fun _ => rfl) fun c m _ _ ⟨hfits, hbefore⟩ => ⟨rfl, ?_⟩
    exact (ite_false (barArr_legal hfits) _ _).trans ((ite_true hbefore _ _).trans (long_out (room_none _ _) _ _ _))
  · exact qTraps_of (fun _ => rfl) fun c m _ _ h => ⟨rfl, ite_true (barArr_illegal h) _ _⟩
  · refine qDone_of (fun _ => rfl) fun c m _ _ ⟨he, hr⟩ => ⟨rfl, ?_⟩
    obtain ⟨e, he⟩ := Option.isSome_iff_exists.mp he
    simp only [he, longWait_out hr] <;> rfl
  · refine qDone_of (fun _ => rfl) fun c m _ _ ⟨hnone, hdue, hr⟩ => ⟨rfl, ?_⟩
    dsimp only
    rw [hnone]
    exact (ite_true hdue _ _).trans (longWait_out hr _ _)
  · refine qTraps_of (fun _ => rfl) fun c m _ _ ⟨hnone, hdue⟩ => ⟨rfl, ?_⟩
    dsimp only
    rw [hnone]
    exact ite_false hdue _ _
  · intro s gi vi v hr c hq hact va vb ha hb h16 h0 h8 hearlier l ls hlanes hpoison r w old m2 hroom
    have hlegal : (decide (wb vb 16 48 ≠ 0) || decide (wb vb 0 8 > 3) || decide (wb vb 8 8 > 3)) = false := by
      simp [h16, h0, h8]
    refine qWord_body hr hq rfl hact ha hb ((ite_false hlegal _ _).trans ((ite_false hearlier _ _).trans ?_))
    have hl : unlessHeld s.m (cxOf s gi vi v false x).gi 1 (checkLanes s.m (cxOf s gi vi v false x).who .atomic 1 false
      ((cxOf s gi vi v false x).lanes.map fun l => (l, va))) = .ok (l :: ls) := hlanes
    dsimp only
    rw [hl]
    refine (ite_false hpoison _ _).trans ?_
    exact longS_out hroom _ _ _

end Sys2Proof.Proofs
end

section
/-!
PROOFS. Halo words and collectives (14 R333 to R339, 15 R355 to R357).
-/

namespace Sys2Proof.Proofs

open Sys2Proof.Machine Sys2Proof.Claims

/-- A word whose effect follows its group's accesses, its counter with room. -/
theorem after_eq {c : Cx} {m : Mach} {flag : Option Nat} {now : Mach → Mach} (h : afterRoom c m flag (now m)) (act : HeldAct) :
    c.after m flag act now = .ok (afterAll c m flag act (now m)) := by
  obtain ⟨hbefore, hafter⟩ := h
  unfold Cx.after afterAll
  split
  · exact long_out hbefore _ _ _
  · exact long_out hafter _ _ _

/-- The handle that a word's operand names, of those that its team has declared. -/
theorem handle_eq (c : Cx) (m : Mach) (va : Word) :
    c.handle m va = if wb va 3 61 = 0 then haloOf m c.g.team (wb va 0 3) else none := by
  by_cases h : wb va 3 61 = 0 <;> simp [Cx.handle, h]

/-- Pages that can all be used stop a declaration for no reason. -/
theorem tilePages_fine {rs : List Chk} (h : ∀ r ∈ rs, ∃ key leaf, r = .ok (.mem key leaf)) (k : Cause) :
    (rs.any fun r => match r with | .bad e _ => decide (e = k) | _ => false) = false ∧ (rs.any fun r => decide (r = .ue)) = false := by
  constructor <;> rw [List.any_eq_false] <;> intro r hr <;> obtain ⟨key, leaf, rfl⟩ := h r hr <;> simp

theorem haloDecl_legal {d : List Word} {rank : Nat} {o : Option Halo} (hf : haloFields d rank = true) (ho : o = none) :
    (!haloFields d rank || o.isSome) = false := by rw [hf, ho]; rfl

/-- What follows a word that is outstanding. -/
theorem after_ok {e : Eff} {m : Mach} (k : Mach → Eff) : e = .ok m → (match e with | .ok m => k m | e => e) = k m := by
  rintro rfl
  rfl

/-- Pages that can all be used hold no declaration. -/
theorem no_page_held {c : Cx} {m : Mach} {d : List Word} {pages : List Chk}
    (hpages : pages = (tilePages d).map fun p => tilePage m c.who (max p (hBase d)))
    (hfine : ∀ r ∈ pages, ∃ key leaf, r = .ok (.mem key leaf)) :
    (((tilePages d).map fun p => max p (hBase d)).filter fun va => decide (tilePage m c.who va = .held)) = [] := by
  rw [List.filter_eq_nil_iff]
  intro va hva
  obtain ⟨p, hp, rfl⟩ := List.mem_map.mp hva
  obtain ⟨key, leaf, h⟩ := hfine _ (hpages ▸ List.mem_map.mpr ⟨p, hp, rfl⟩)
  simp [h]

/-- A descriptor whose neighbours exist and have room. -/
theorem neighbours_fine {m : Mach} {ti : Nat} {d : List Word} (hmate : ∀ k < 4, haloRank d k ≠ 15 → (haloMate m ti d k).isSome)
    (hfit : ∀ k ∈ haloDirs d, ∀ u, haloMate m ti d k = some u → replicaFits m u (linesTo m ti d u) = true) :
    (((List.range 4).filter fun k => haloRank d k ≠ 15).any fun k => (haloMate m ti d k).isNone) = false ∧
    ((haloDirs d).any fun k => match haloMate m ti d k with | some u => !replicaFits m u (linesTo m ti d u) | none => true) = false := by
  constructor <;> rw [List.any_eq_false] <;> intro k hk
  · obtain ⟨hk, hr⟩ := List.mem_filter.mp hk
    obtain ⟨u, hu⟩ := Option.isSome_iff_exists.mp (hmate k (List.mem_range.mp hk) (by simpa using hr))
    simp [hu]
  · obtain ⟨hlt, hr⟩ := List.mem_filter.mp hk
    obtain ⟨u, hu⟩ := Option.isSome_iff_exists.mp (hmate k (List.mem_range.mp hlt) (of_decide_eq_true (Bool.and_eq_true _ _ ▸ hr).1))
    simp [hu, hfit k hk u hu]

/-- Settles O33: the words at the place where their checks pass; a handle that is not declared stops them. -/
theorem haloAndCollective : Obligations.HaloAndCollective := by
  intro x ch f a b o op nth held regs pages placed tiles
  refine ⟨?_, ?_, ?_, ?_, ⟨?_, ?_, ?_⟩, ?_⟩
  · refine qDone_of (fun _ => rfl) fun c m _ _ ⟨h4, hb, hfields, hnone, hal, hpages, htiles, hmate, hfit, hroom⟩ => ⟨h4, ?_⟩
    refine (ite_false hb _ _).trans ?_
    dsimp only
    obtain ⟨hmates, hfits⟩ := neighbours_fine hmate hfit
    refine (ite_false (haloDecl_legal hfields hnone) _ _).trans ((if_neg (not_not.mpr hal)).trans
      ((if_neg (not_not.mpr (no_page_held rfl hpages))).trans ((ite_false (tilePages_fine hpages .xlate).1 _ _).trans
      ((ite_false (tilePages_fine hpages .prot).1 _ _).trans ((ite_false (tilePages_fine hpages .xlate).2 _ _).trans
      ((ite_false ?_ _ _).trans (after_eq hroom _)))))))
    rw [Bool.or_eq_false_iff, Bool.or_eq_false_iff]
    exact ⟨⟨hmates, htiles⟩, hfits⟩
  · refine qDone_of (fun _ => rfl) fun c m va _ ⟨⟨h, hh, hout⟩, hr⟩ => ⟨rfl, ?_⟩
    dsimp only
    rw [(handle_eq c m va).trans hh, hh]
    exact (ite_false (by rw [hout]; rfl) _ _).trans (after_ok _ (longWait_out hr _ _))
  · refine qDone_of (fun _ => rfl) fun c m va vb ⟨hh, hv, hr⟩ => ⟨rfl, ?_⟩
    obtain ⟨h, hh⟩ := Option.isSome_iff_exists.mp hh
    dsimp only
    rw [(handle_eq c m va).trans hh, hh]
    exact (if_neg (not_not.mpr hv)).trans
      (longWait_out (m := setHalo m c.g.team (nth va) { h with waited := max h.waited vb.toNat }) hr _ _)
  · refine qDone_of (fun _ => rfl) fun c m va _ ⟨hh, hr⟩ => ⟨rfl, ?_⟩
    obtain ⟨h, hh⟩ := Option.isSome_iff_exists.mp hh
    rw [(handle_eq c m va).trans hh]
    exact after_eq hr _
  · refine qTraps_of (fun _ => rfl) fun c m va _ hh => ⟨rfl, ?_⟩
    rw [(handle_eq c m va).trans hh]
    rfl
  · refine qTraps_of (fun _ => rfl) fun c m va _ hh => ⟨rfl, ?_⟩
    rw [(handle_eq c m va).trans hh]
    rfl
  · refine qTraps_of (fun _ => rfl) fun c m va vb hstop => ⟨rfl, ?_⟩
    dsimp only
    rw [handle_eq]
    change _ ∨ _ at hstop
    cases hh : held c m va with
    | none => rw [show (if wb va 3 61 = 0 then haloOf m c.g.team (wb va 0 3) else none) = none from hh]; rfl
    | some h =>
      rw [show (if wb va 3 61 = 0 then haloOf m c.g.team (wb va 0 3) else none) = some h from hh]
      exact if_pos (hstop.resolve_left fun hn => by rw [hn] at hh; cases hh)
  · intro ho s gi vi v hr c w hq hact va ha hearlier htable l key leaf ls hlanes we m0 hroom k m1 r m2
    refine qWord_body hr hq (decide_eq_true ho) hact ha rfl ?_
    have hl : unlessHeld s.m (cxOf s gi vi v false x).gi 64 (checkLanes s.m (whoEngine (cxOf s gi vi v false x).base (cxOf s gi vi v false x).gi
      (cxOf s gi vi v false x).g.die) .atomic 64 false ((cxOf s gi vi v false x).lanes.map fun l => (l, va))) =
        .ok ((l, .mem key leaf) :: ls) := hlanes
    have hheld : tableHeld s.m (whoEngine (cxOf s gi vi v false x).base (cxOf s gi vi v false x).gi (cxOf s gi vi v false x).g.die) va = [] := htable
    dsimp only
    rw [hl]
    dsimp only
    rw [hheld]
    refine (ite_false (by rw [show earlierHeld s.m (cxOf s gi vi v false x).gi = false from hearlier]; rfl) _ _).trans ?_
    have hnow : (cxOf s gi vi v false x).longWait m0 f (.coll k) none = .ok m1 := longWait_out hroom _ _
    exact after_ok _ hnow

end Sys2Proof.Proofs
end

section
/-!
PROOFS. Shadows opened, published, dropped and settled (11 R277 to R280).
-/

namespace Sys2Proof.Proofs

open Sys2Proof.Machine Sys2Proof.Claims

/-- Of entries that are all published under the same pages, the first is the one reopened (R277). -/
theorem find_reopened {near : List Shadow} {keys : List Nat} (h : ∀ sh ∈ near, sh.isOpen = false ∧ samePages sh.pages keys = true) :
    (near.find? fun sh => !sh.isOpen && samePages sh.pages keys) = near.head? := by
  cases near with
  | nil => rfl
  | cons sh rest =>
    obtain ⟨ho, hs⟩ := h sh (List.mem_cons_self ..)
    rw [List.find?_cons_of_pos (by rw [ho, hs]; rfl)]
    rfl

/-- The checks that refuse an opening, of a range that passes them. -/
theorem shopen_accepted {near : List Shadow} {keys wp : List Nat} {lo hi n len : Nat}
    (hnear : ∀ sh ∈ near, sh.isOpen = false ∧ samePages sh.pages keys = true) (hmeet : meets keys wp = false)
    (hapart : hi + n ≤ lo ∨ lo + n ≤ hi) (hlen : near = [] → len < 256) :
    ((near.any fun sh => sh.isOpen || !samePages sh.pages keys) || meets keys wp || (decide (lo < hi + n) && decide (hi < lo + n)) ||
      ((near.find? fun sh => !sh.isOpen && samePages sh.pages keys).isNone && decide (len ≥ 256))) = false := by
  have h1 : (near.any fun sh => sh.isOpen || !samePages sh.pages keys) = false := by
    rw [List.any_eq_false]
    intro sh hsh
    obtain ⟨ho, hs⟩ := hnear sh hsh
    simp [ho, hs]
  have h2 : (decide (lo < hi + n) && decide (hi < lo + n)) = false := by
    rw [Bool.and_eq_false_iff, decide_eq_false_iff_not, decide_eq_false_iff_not]
    omega
  have h3 : (near.head?.isNone && decide (len ≥ 256)) = false := by
    cases near with
    | nil => simpa using hlen rfl
    | cons sh rest => rfl
  rw [h1, hmeet, h2, find_reopened hnear, h3]
  rfl

/-- What commit and discard find, by the state of the grid that their operand names (R280). -/
theorem settleGrid_eq (m : Mach) (w : Who) (addr : Word) (act : Mach → Nat → Mach) : settleGrid m w addr act =
    match specGrid m w addr with
    | none => (m, 1)
    | some g =>
      if (m.grid g).settled = true ∨ (m.grid g).killed = true then (m, 3)
      else if (m.grid g).ended = false then (m, 2)
      else ((act m g).setGrid g { (act m g).grid g with settled := true }, 0) := by
  unfold settleGrid
  cases specGrid m w addr with
  | none => rfl
  | some g => simp only [Bool.or_eq_true, Bool.not_eq_true']

/-- Settles O34: each word at the place where its checks pass; commit and discard by what the grid allows. -/
theorem shadowWords : Obligations.ShadowWords := by
  intro x ch f i a b op entry change none' opened
  refine ⟨?_, ?_, ?_, ⟨?_, ?_⟩, ?_⟩
  · refine qDone_of (fun _ => rfl) fun c m va vb ⟨hz, hal, hw1, hw2, hstop, hmeet, hnear, hlen, hapart, hroom⟩ => ⟨rfl, ?_⟩
    refine (if_neg (not_not.mpr hz)).trans ((if_neg (not_not.mpr hal)).trans ?_)
    dsimp only
    rw [hw1, hw2]
    dsimp only [Option.orElse]
    rw [hstop]
    dsimp only
    refine (ite_false (shopen_accepted hnear hmeet hapart hlen) _ _).trans ?_
    rw [find_reopened hnear]
    simp only [List.isEmpty_iff]
    exact longWait_out hroom _ _
  · refine qDone_of (fun _ => rfl) fun c m va _ ⟨hearlier, sh, hsh, hopen, hroom⟩ => ⟨rfl, ?_⟩
    have he : c.entryAt m va = some sh := hsh
    rw [he, hsh]
    exact (ite_false (by rw [hopen]; rfl) _ _).trans ((ite_false hearlier _ _).trans (longWait_out hroom _ _))
  · refine qDone_of (fun _ => rfl) fun c m va _ ⟨hsome, hroom⟩ => ⟨rfl, ?_⟩
    obtain ⟨sh, hsh⟩ := Option.isSome_iff_exists.mp hsome
    have he : c.entryAt m va = some sh := hsh
    have hdrop : ∀ e : Shadow, dropOne e = if e.isOpen = true ∧ e.rp ≠ [] then some { e with isOpen := false, wp := [] } else none :=
      fun e => by simp [dropOne]
    rw [he, hsh]
    dsimp only [change]
    simp only [← hdrop]
    exact longWait_out (m := c.changeEntry m sh dropOne) hroom _ _
  · refine qTraps_of (fun _ => rfl) fun c m va _ hall => ⟨rfl, ?_⟩
    cases he : c.entryAt m va with
    | none => rfl
    | some sh => exact ite_true (by rw [hall sh he]; rfl) _ _
  · refine qTraps_of (fun _ => rfl) fun c m va _ hnone => ⟨rfl, ?_⟩
    have he : c.entryAt m va = none := hnone
    rw [he]
    rfl
  · intro settle
    refine ⟨?_, ?_⟩
    · intro s gi vi v hr c hq hact hrel va vb ha hb m r hroom
      refine qWord_body hr hq rfl hact ha hb ((ite_false (hrel rfl) _ _).trans ?_)
      have hsettle : settleGrid (releaseAt s.m (cxOf s gi vi v false x).who 4) (cxOf s gi vi v false x).who va publishShadows = r :=
        settleGrid_eq _ _ _ _
      dsimp only
      rw [hsettle]
      exact longS_out hroom _ _ _
    · intro s gi vi v hr c hq hact hrel va vb ha hb m r hroom
      refine qWord_body hr hq rfl hact ha hb ?_
      have hsettle : settleGrid s.m (cxOf s gi vi v false x).who va dropShadows = r := settleGrid_eq _ _ _ _
      dsimp only
      rw [hsettle]
      exact longS_out hroom _ _ _

end Sys2Proof.Proofs
end

section
/-!
PROOFS. Launches and tasks, chunks of an interval, registers claimed and given (04 R125 to R128, 09 R222 to R224).
-/

namespace Sys2Proof.Proofs

open Sys2Proof.Machine Sys2Proof.Claims

/-! ## Launches -/

section
variable {range f : Bool} {c : Cx} {m : Mach} {va : Word} {l : Loc}

theorem judge_one_ok (lane : Nat) (va : Word) (l : Loc) : judge [(lane, va, .ok l)] = .ok [(lane, l)] := by rfl

/-- A launching word whose record passes its checks judges the record once the group's stores are visible. -/
theorem launchBody_judge (hl : checkRecord m (whoEngine c.base c.gi c.g.die) va.toNat = .ok l) (he : earlierHeld m c.gi = false)
    (hr : room c (flushC1 m c.g.die c.g.core) (c.flag f)) : launchBody range f c m va =
      match acceptLaunch (out c (flushC1 m c.g.die c.g.core) (c.flag f) [] [] .ready)
        { who := whoEngine c.base c.gi c.g.die, task := range, rcp := false } va.toNat with
      | .ok r => .ok r.1
      | .error vas => .stall { held := vas } := by
  unfold launchBody
  dsimp only
  rw [hl, judge_one_ok]
  exact (ite_false he _ _).trans (after_ok _ (longWait_out hr _ _))

theorem launchBody_refused {k : Nat} (hl : checkRecord m (whoEngine c.base c.gi c.g.die) va.toNat = .ok l)
    (he : earlierHeld m c.gi = false) (hr : room c (flushC1 m c.g.die c.g.core) (c.flag f))
    (hj : judgeLaunch (out c (flushC1 m c.g.die c.g.core) (c.flag f) [] [] .ready)
      { who := whoEngine c.base c.gi c.g.die, task := range, rcp := false } va.toNat = .ok (.error k)) :
    launchBody range f c m va = .ok (putStatus (out c (flushC1 m c.g.die c.g.core) (c.flag f) [] [] .ready)
      (whoEngine c.base c.gi c.g.die) va.toNat (statusWord 2 k 0)) := by
  rw [launchBody_judge hl he hr, acceptLaunch, hj]

/-- A grid accepted by a launching word: its stream tail, its status, and its place in its partition's queue. -/
def acceptedGrid (m : Mach) (w : Who) (va : Word) (gd : Grid) : Mach :=
  let m2 := putStatus (takeTail { m with grids := m.grids ++ [gd] } m.grids.length) w va.toNat (statusWord 1 0 0)
  let n := 8 * gd.lr.cls + gd.lr.prio
  m2.setPart gd.part { m2.part gd.part with
    queues := Tbl.set [] (m2.part gd.part).queues n (Tbl.get [] (m2.part gd.part).queues n ++ [.grid m.grids.length]) }

theorem launchBody_accepted {gd : Grid} (hl : checkRecord m (whoEngine c.base c.gi c.g.die) va.toNat = .ok l)
    (he : earlierHeld m c.gi = false) (hr : room c (flushC1 m c.g.die c.g.core) (c.flag f))
    (hj : judgeLaunch (out c (flushC1 m c.g.die c.g.core) (c.flag f) [] [] .ready)
      { who := whoEngine c.base c.gi c.g.die, task := range, rcp := false } va.toNat = .ok (.ok gd)) :
    launchBody range f c m va =
      .ok (acceptedGrid (out c (flushC1 m c.g.die c.g.core) (c.flag f) [] [] .ready) (whoEngine c.base c.gi c.g.die) va gd) := by
  rw [launchBody_judge hl he hr, acceptLaunch, hj]
  rfl

end

/-! ## Registers claimed and given -/

theorem countOk_iff (n : Nat) : countOk n = true ↔ n % 8 = 0 ∧ 8 ≤ n := by simp [countOk]

/-- A count that claim and give refuse, or a claim that is outstanding already. -/
theorem countOk_bad {n : Nat} (h : n % 8 ≠ 0 ∨ n < 8) : countOk n = false := by
  rw [← Bool.not_eq_true, countOk_iff]
  omega

section
variable {α : Type} {o : Option α} {n nv : Nat}

/-- What a give drops: sympathetic sources, coping destinations and registers of its own chain. -/
theorem give_drops {coping chain beyond : Bool} {syms : List (Nat × Nat)} (hc : chain = false)
    (h : nv ≤ n ∨ (∀ y ∈ syms, y.1 < n) ∧ coping = false) (hb : beyond = chain) (ho : o = none) :
    (o.isSome || (decide (n < nv) && (syms.any (fun y => decide (y.1 ≥ n)) || coping) || beyond)) = false := by
  subst ho hb hc
  rcases h with h | ⟨hs, rfl⟩
  · simp [Nat.not_lt.mpr h]
  · have : (syms.any fun y => decide (y.1 ≥ n)) = false := by
      rw [List.any_eq_false]
      intro y hy
      simpa using hs y hy
    simp [this]

end

theorem give_legal {kind count : Bool} (hk : kind = true) (hc : count = true) : (!kind || !count) = false := by rw [hk, hc]; rfl

/-- A claim that is outstanding already. -/
theorem claim_refused {α : Type} {o : Option α} (h : o ≠ none) (b : Bool) : (o.isSome || b) = true := by
  rw [Option.isSome_iff_ne_none.mpr h, Bool.true_or]

/-- The next chunk of an interval: nothing of an empty one. -/
theorem nextChunk_eq (grain f h : Nat) : nextChunk grain f h =
    (if h ≤ f then h else f, if h ≤ f then 0 else min grain (h - f), f + if h ≤ f then 0 else min grain (h - f)) := by
  unfold nextChunk
  split <;> rfl

/-- Settles O35: a launching word by what the record's judgement gives; claim and give by their count. -/
theorem launchAndClaim : Obligations.LaunchAndClaim := by
  intro x ch f a b op starts
  have hstarts : ∀ (i : Instr) (range : Bool), (∀ s, exec i s =
      qWord .mem x ch op none always (fun c m va _ => launchBody range f c m va) s) → starts i range := by
    intro i range hx s gi vi v hr c w hq hact va ha he l hl hroom m1 done
    refine ⟨fun k hj => ?_, fun gd hj => ?_⟩
    · exact (hx s).trans (qWord_body hr hq rfl hact ha rfl (launchBody_refused hl he hroom hj))
    · exact (hx s).trans (qWord_body hr hq rfl hact ha rfl (launchBody_accepted hl he hroom hj))
  refine ⟨hstarts (.launch x ch f a) false fun _ => rfl, hstarts (.task x ch f a) true fun _ => rfl, ?_, ?_⟩
  · refine qDone_of (fun _ => rfl) fun c m _ _ ⟨hne, htask⟩ => ⟨by rw [htask, Bool.and_true]; exact decide_eq_true hne, ?_⟩
    have hchunk := nextChunk_eq c.grid.lr.grain (m.team c.g.team).f (m.team c.g.team).h
    dsimp only
    rw [hchunk]
  · intro s gi vi v hr c g n done stop hk hact
    have hk' : (!c.kind0 false) = false := by rw [hk]; rfl
    refine ⟨?_, ?_, ?_, ?_, ?_, ?_, ?_⟩
    · intro h96 hmod h8 hclaim hchain hsat
      have hstop : ((claimOf g).isSome || c.chainNames (max n g.nv)) = false := by rw [hclaim, hchain]; rfl
      have hcount : (!countOk n) = false := by rw [(countOk_iff n).mpr ⟨hmod, h8⟩]; rfl
      have hbody : ∀ e : Eff, (if !c.kind0 false then c.illegal else if n > 96 then (if c.act = 0 then .ok s.m else
          c.raise .claimLimit (BitVec.ofNat 64 n) c.act) else if !countOk n then c.illegal else if c.act = 0 then .ok s.m else
          if (claimOf g).isSome || c.chainNames (max n g.nv) then c.illegal else e) = e := fun e =>
        (ite_false hk' _ _).trans ((if_neg (Nat.not_lt.mpr h96)).trans ((ite_false hcount _ _).trans ((if_neg hact).trans
          (ite_false hstop _ _))))
      refine ⟨fun hle => ?_, ?_⟩
      · exact issue_done hr ((hbody _).trans ((if_pos hle).trans (longWait_out hsat _ _)))
      · intro hlt m1 k
        exact issue_done hr ((hbody _).trans ((if_neg (Nat.not_le.mpr hlt)).trans (after_ok _ (longWait_out hsat _ _))))
    · intro h96
      exact issue_cause hr ((ite_false hk' _ _).trans ((if_pos h96).trans (if_neg hact)))
    · intro h96 hbad
      refine issue_cause hr ((ite_false hk' _ _).trans ((if_neg (Nat.not_lt.mpr h96)).trans ?_))
      by_cases hcount : countOk n = true
      · have hclaim : claimOf g ≠ none := by
          obtain ⟨hmod, h8⟩ := (countOk_iff n).mp hcount
          exact (hbad.resolve_left (not_not.mpr hmod)).resolve_left (Nat.not_lt.mpr h8)
        exact (ite_false (congrArg not hcount) _ _).trans ((if_neg hact).trans (ite_true (claim_refused hclaim _) _ _))
      · exact ite_true (congrArg not (bool_eq_false_of_ne hcount)) _ _
    · intro hmod h8 hclaim hle hchain
      have hdrop := give_drops (coping := c.copingNames n) (syms := c.grid.hdr.syms) (chain := c.chainNames g.nv)
        (beyond := c.chainNames (min n g.nv)) hchain (.inl hle) (by rw [Nat.min_eq_right hle]) hclaim
      exact issue_done hr ((ite_false (give_legal hk ((countOk_iff n).mpr ⟨hmod, h8⟩)) _ _).trans ((if_neg hact).trans
        ((ite_false hdrop _ _).trans (if_pos hle))))
    · intro hmod h8 hclaim hchain
      have hstop : ∀ p q : Bool, (p || (q || c.chainNames (min n g.nv))) = true := fun p q => by rw [hchain, Bool.or_true, Bool.or_true]
      exact issue_cause hr ((ite_false (give_legal hk ((countOk_iff n).mpr ⟨hmod, h8⟩)) _ _).trans ((if_neg hact).trans
        (ite_true (hstop _ _) _ _)))
    · intro hmod h8 hclaim hlt hsyms hcoping hchain
      have hdrop := give_drops (nv := g.nv) (chain := c.chainNames n) (beyond := c.chainNames (min n g.nv)) hchain
        (.inr ⟨hsyms, hcoping⟩) (by rw [Nat.min_eq_left hlt.le]) hclaim
      exact issue_done hr ((ite_false (give_legal hk ((countOk_iff n).mpr ⟨hmod, h8⟩)) _ _).trans ((if_neg hact).trans
        ((ite_false hdrop _ _).trans (if_neg (Nat.not_le.mpr hlt)))))
    · intro hbad
      refine issue_cause hr ?_
      by_cases hcount : countOk n = true
      · have hclaim : claimOf g ≠ none := by
          obtain ⟨hmod, h8⟩ := (countOk_iff n).mp hcount
          exact (hbad.resolve_left (not_not.mpr hmod)).resolve_left (Nat.not_lt.mpr h8)
        exact (ite_false (give_legal hk hcount) _ _).trans ((if_neg hact).trans (ite_true (claim_refused hclaim _) _ _))
      · exact ite_true (by rw [bool_eq_false_of_ne hcount, Bool.not_false, Bool.or_true]) _ _

end Sys2Proof.Proofs
end

section
/-!
PROOFS. Matrix words (12 R288 to R307).
-/

namespace Sys2Proof.Proofs

open Sys2Proof.Machine Sys2Proof.Claims

/-! ## A matrix word with room in the engine, and without -/

/-- A core that takes a matrix word now (R288, R290). -/
def EngineRoom (c : Cx) (m : Mach) : Prop :=
  isGeo c.g.die = false ∧ compatG c.base c.g = false ∧ (m.core c.g.die c.g.core).mx.length < 32

theorem mxCore_of {c : Cx} (hgeo : isGeo c.g.die = false) (hcompat : compatG c.base c.g = false) : c.mxCore = true := by
  rw [Cx.mxCore, hgeo, hcompat]
  rfl

theorem mxFull_of_lt {c : Cx} {m : Mach} (h : (m.core c.g.die c.g.core).mx.length < 32) : c.mxFull m = false :=
  decide_eq_false (Nat.not_le.mpr h)

/-- A matrix word completes where the engine has room, its own check passes and its body gives a device. -/
theorem mxDone_of {i : Instr} {cls : Pipe} {x : Pre} {ch : Bool} {a b : Option Nat} {ok : Cx → Bool}
    {body : Cx → Mach → Word → Word → Eff} {when : Cx → Mach → Word → Word → Prop} {result : Cx → Mach → Word → Word → Mach}
    (hx : ∀ s, exec i s = issue (some cls) false x ch (mxBody a b ok body) s)
    (h : ∀ c m va vb, when c m va vb → EngineRoom c m ∧ ok c = true ∧ body c m va vb = .ok (result c m va vb)) :
    QDone i cls x ch a b when result := by
  intro s gi vi v hr c hq hact va vb ha hb hw
  obtain ⟨⟨hgeo, hcompat, hroom⟩, hok, hm⟩ := h c s.m va vb hw
  rw [hx]
  refine issue_done hr ((mxBody_room (.inr (mxFull_of_lt hroom))).trans ?_)
  have hlegal : (!(c.qOk a b && (c.mxCore && ok c))) = false := by rw [hq, mxCore_of hgeo hcompat, hok]; rfl
  refine (ite_false hlegal _ _).trans ((if_neg hact).trans ?_)
  rw [ha, hb]
  exact hm

/-- A matrix word that finds 32 words in the engine order waits (R288). -/
theorem mx_waits {i : Instr} {cls : Pipe} {x : Pre} {ch : Bool} {a b : Option Nat} {ok : Cx → Bool}
    {body : Cx → Mach → Word → Word → Eff} (hx : ∀ s, exec i s = issue (some cls) false x ch (mxBody a b ok body) s) {s : State}
    {gi vi : Nat} {v : Voice} (hr : Ready s gi vi v cls) (hact : (cxOf s gi vi v false x).act ≠ 0)
    (hfull : 32 ≤ (s.m.core (cxOf s gi vi v false x).g.die (cxOf s gi vi v false x).g.core).mx.length) :
    exec i s = .next (stallState s gi vi v false x) :=
  (hx s).trans (issue_stall hr (mxBody_full hact (decide_eq_true hfull)))

/-! ## Runs of slots and tiles -/

section
variable {c : Cx} {m : Mach} {va : Word}

/-- The members of a run operand. -/
def runOf (va : Word) : List Nat := (List.range (wb va 8 6 + 1)).map fun i => wb va 0 6 + i

theorem runBad_of (h1 : wb va 6 2 = 0) (h2 : wb va 14 50 = 0) (h3 : wb va 0 6 + (wb va 8 6 + 1) ≤ 64) : runBad va = false := by
  simp only [runBad, runFirst, runLength, h1, h2]
  simpa using h3

theorem find_none {α : Type} {p : α → Bool} {xs : List α} (h : ∀ x ∈ xs, p x = false) : xs.find? p = none :=
  List.find?_eq_none.mpr fun x hx => by rw [h x hx]; exact Bool.false_ne_true

/-- A run of tiles that the team holds stops no word. -/
theorem withTiles_held {first n : Nat} {k : Unit → Eff} (h : ∀ i < n, Tbl.get 0 (m.core c.g.die c.g.core).tiles (first + i) = c.g.team + 1) :
    c.withTiles m first n k = k () := by
  have hnone : missingTile m c.g first n = none := by
    refine find_none fun t ht => ?_
    obtain ⟨i, hi, rfl⟩ := List.mem_map.mp ht
    rw [holdsTile, decide_eq_true (h i (List.mem_range.mp hi))]
    rfl
  rw [Cx.withTiles, hnone]

/-- The same of one tile. -/
theorem withTiles_one {t : Nat} {k : Unit → Eff} (h : Tbl.get 0 (m.core c.g.die c.g.core).tiles t = c.g.team + 1) :
    c.withTiles m t 1 k = k () :=
  withTiles_held fun i hi => by rw [Nat.lt_one_iff.mp hi]; exact h

theorem holdsRun (h : ∀ i ∈ runOf va, Tbl.get 0 (m.core c.g.die c.g.core).tiles i = c.g.team + 1) :
    ∀ i < wb va 8 6 + 1, Tbl.get 0 (m.core c.g.die c.g.core).tiles (wb va 0 6 + i) = c.g.team + 1 :=
  fun i hi => h _ (List.mem_map.mpr ⟨i, List.mem_range.mpr hi, rfl⟩)

/-- A word that joins the engine order, its counter with room. -/
theorem mxLong_out {flag : Option Nat} (h : room c m flag) (dsts : List Nat) (work : MxWork) : c.mxLong m flag dsts work =
    .ok (pushMx (out c m flag [] dsts .mx) c.g
      { grp := c.gi, id := some (m.grp c.gi).nextId, seq := (m.grp c.gi).nextId, work := work }) :=
  after_ok _ (long_out h _ _ _)

/-- Slots that a release names are held by the team (R291). -/
theorem slotRun_held {f : Slot → Slot} {vb : Word} (hbad : runBad va = false)
    (h : ∀ i ∈ runOf va, (slotOf m c.g i).team = c.g.team ∧ (slotOf m c.g i).state ≠ 0) :
    slotRun f c m va vb = .ok ((runOf va).foldl (fun m i => setSlot m c.g i (f (slotOf m c.g i))) m) := by
  have hnone : (runOf va).find? (fun i => !(decide ((slotOf m c.g i).team = c.g.team) && decide ((slotOf m c.g i).state ≠ 0))) = none := by
    refine find_none fun i hi => ?_
    obtain ⟨ht, hs⟩ := h i hi
    simp [ht, hs]
  refine (ite_false hbad _ _).trans ?_
  dsimp only [runOf] at hnone
  dsimp only [runLength, runFirst]
  rw [hnone]
  rfl

theorem tileBad_of (h1 : wb va 6 2 = 0) (h2 : wb va 15 1 = 0) (h3 : wb va 23 41 = 0) (h4 : wb va 16 1 = 0) : tileBad va = false := by
  simp [tileBad, h1, h2, h3, h4]

end

/-! ## Tile stores -/

/-- Addresses that all pass their checks stop no word. -/
theorem judge_all_ok {rs : List (Nat × Word × Chk)} (h : ∀ r ∈ rs, ∃ l, r.2.2 = .ok l) : ∃ ls, judge rs = .ok ls := by
  have hheld : (rs.any fun r => decide (r.2.2 = .held)) = false := by
    rw [List.any_eq_false]
    intro r hr
    obtain ⟨l, hl⟩ := h r hr
    simp [hl]
  have hue : (rs.any fun r => decide (r.2.2 = .ue)) = false := by
    rw [List.any_eq_false]
    intro r hr
    obtain ⟨l, hl⟩ := h r hr
    simp [hl]
  have hbads : badLanes rs = [] := by
    refine List.filterMap_eq_nil_iff.mpr fun r hr => ?_
    obtain ⟨l, hl⟩ := h r hr
    rw [hl]
  unfold judge
  rw [if_neg (by rw [hheld]; exact Bool.false_ne_true)]
  change ∃ ls, (match firstBy (fun x y : Nat × Word × Cause × Nat => decide (x.2.2.2 < y.2.2.2)) (badLanes rs) with
    | some b => _
    | none => _) = Except.ok ls
  rw [hbads]
  exact ⟨_, if_neg (by rw [hue]; exact Bool.false_ne_true)⟩

theorem slclaim_legal {va : Word} (h1 : wb va 6 2 = 0) (h2 : wb va 14 2 = 0) (h3 : wb va 27 37 = 0)
    (h4 : wb va 0 6 + (wb va 8 6 + 1) ≤ 64) (h5 : 1 ≤ wb va 16 11) (h6 : wb va 16 11 ≤ 1024) :
    (decide (wb va 6 2 ≠ 0) || decide (wb va 14 2 ≠ 0) || decide (wb va 27 37 ≠ 0) || decide (runFirst va + runLength va > 64) ||
      decide (wb va 16 11 = 0) || decide (wb va 16 11 > 1024)) = false := by
  have h5' : wb va 16 11 ≠ 0 := Nat.one_le_iff_ne_zero.mp h5
  have h4' : wb va 0 6 + (wb va 8 6 + 1) > 64 ↔ False := iff_false_intro (Nat.not_lt.mpr h4)
  simp [runFirst, runLength, h1, h2, h3, h4', h5', h6]

theorem mxloop_legal {va : Word} {steps : Nat} {tok : Bool} {q : BitVec 3} (h1 : wb va 31 33 = 0) (h2 : wb va 12 4 = 0)
    (h3 : wb va 6 2 = 0) (h4 : 1 ≤ steps) (h5 : steps ≤ 1024) (h6 : tok = false → q = 0) :
    (decide (wb va 31 33 ≠ 0) || decide (wb va 12 4 ≠ 0) || decide (wb va 6 2 ≠ 0) || decide (steps = 0) || decide (steps > 1024) ||
      (!tok && decide (q ≠ 0))) = false := by
  have hq : (!tok && decide (q ≠ 0)) = false := by
    cases tok with
    | true => rfl
    | false => rw [h6 rfl]; rfl
  simp only [hq, Bool.or_eq_false_iff, decide_eq_false_iff_not, not_not, Nat.not_lt]
  exact ⟨⟨⟨⟨⟨h1, h2⟩, h3⟩, Nat.one_le_iff_ne_zero.mp h4⟩, h5⟩, trivial⟩

theorem mxloop_token {tok : Bool} {bind : Bind} (h : tok = true → bind = .eng 1) : (tok && decide (bind ≠ .eng 1)) = false := by
  cases tok with
  | false => rfl
  | true => rw [h rfl]; rfl

theorem slotList_zero : slotList 0 = [] := by decide

/-- Settles O36: each word where its checks pass; a full engine before any check. -/
theorem matrixWords : Obligations.MatrixWords := by
  intro x ch f a b n q e op ob able first len run legal owns asks joins now cell vec
  refine ⟨?_, ?_, ⟨?_, ?_⟩, ?_, ?_, ?_, ?_, ?_, ?_, ?_, ?_, ⟨?_, ?_⟩, ?_, ?_⟩
  · refine mxDone_of (fun _ => rfl) fun c m va vb ⟨hable, h1, h2, h3, h4, h5, h6, hslots, hroom⟩ => ⟨hable, rfl, ?_⟩
    refine (ite_false (slclaim_legal h1 h2 h3 h4 h5 h6) _ _).trans ?_
    have hnone : (runOf va).find? (fun i => decide ((slotOf m c.g i).team = c.g.team) && decide ((slotOf m c.g i).state ≠ 0)) = none :=
      find_none fun i hi => by
        have := hslots i hi
        simpa using this
    dsimp only [runOf] at hnone
    dsimp only [runLength, runFirst]
    rw [hnone]
    exact after_ok _ (longWait_out hroom _ _)
  · refine mxDone_of (fun _ => rfl) fun c m va vb ⟨hable, ⟨h1, h2, h3⟩, hfree, hroom⟩ => ⟨hable, rfl, ?_⟩
    refine (ite_false (runBad_of h1 h2 h3) _ _).trans ?_
    have hnone : (runOf va).find? (fun t => holdsTile m c.g t) = none := find_none fun t ht => decide_eq_false (hfree t ht)
    dsimp only [runOf] at hnone
    dsimp only [runLength, runFirst]
    rw [hnone]
    exact after_ok _ (longWait_out hroom _ _)
  · exact mxDone_of (fun _ => rfl) fun c m va vb ⟨hable, ⟨h1, h2, h3⟩, hslots⟩ => ⟨hable, rfl, slotRun_held (runBad_of h1 h2 h3) hslots⟩
  · exact mxDone_of (fun _ => rfl) fun c m va vb ⟨hable, ⟨h1, h2, h3⟩, hslots⟩ => ⟨hable, rfl, slotRun_held (runBad_of h1 h2 h3) hslots⟩
  · refine mxDone_of (fun _ => rfl) fun c m va vb ⟨hable, ⟨h1, h2, h3⟩, hheld⟩ => ⟨hable, rfl, ?_⟩
    exact (ite_false (runBad_of h1 h2 h3) _ _).trans (withTiles_held (holdsRun hheld))
  · refine mxDone_of (fun _ => rfl) fun c m va vb ⟨hable, hns, hb⟩ => ⟨hable, decide_eq_true hns, ?_⟩
    exact ite_false hb _ _
  · intro loop
    refine mxDone_of (fun _ => rfl) fun c m va vb
      ⟨hable, hfmt, h1, h2, h3, hmin, hmax, htok, hcombo, hbind, hslots, htile, hroom⟩ => ⟨hable, decide_eq_true hfmt, ?_⟩
    refine (ite_false (mxloop_legal h1 h2 h3 hmin hmax htok) _ _).trans ((ite_false hcombo _ _).trans ((ite_false (mxloop_token hbind) _ _).trans ?_))
    have hready : unreadySlot m (m.grp c.gi) (loopSlots (loop c m va vb).1 (loop c m va vb).2.1 (loop c m va vb).2.2.1
        (loop c m va vb).2.2.2) = none := find_none fun i hi => by
      obtain ⟨hlt, hbit⟩ := List.mem_filter.mp hi
      obtain ⟨ht, hs⟩ := hslots i (List.mem_range.mp hlt) hbit
      simp [ht, hs]
    dsimp only [loop] at hready htile hroom ⊢
    rw [hready]
    exact (ite_false (by rw [htile]; rfl) _ _).trans (after_ok _ (mxLong_out hroom _ _))
  · refine mxDone_of (fun _ => rfl) fun c m va vb ⟨hable, h1, h2, h3, h4, h5, h6, h7, h8, h9, h10, ht1, ht2, hroom⟩ => ⟨hable, rfl, ?_⟩
    refine (ite_false (by rw [h1, h2, h3]; rfl) _ _).trans ((ite_false (by simp [h4, h5]) _ _).trans ?_)
    have hat : scaleAt m c.g.team vb = .ok (wb vb 0 20) := (if_neg (not_not.mpr h6)).trans
      (ite_false (by simp [h7, h8, h9, h10]) _ _)
    have htiles : [wb va 0 6, wb va 8 6].find? (fun t => !holdsTile m c.g t) = none := find_none fun t ht => by
      have hheld : holdsTile m c.g t = true := by
        rcases List.mem_pair.mp ht with rfl | rfl
        · exact decide_eq_true ht1
        · exact decide_eq_true ht2
      rw [hheld]
      rfl
    rw [hat]
    dsimp only
    rw [htiles]
    exact mxLong_out hroom _ _
  · refine mxDone_of (fun _ => rfl) fun c m va vb ⟨hable, ⟨h1, h2, h3⟩, hheld, hroom⟩ => ⟨hable, rfl, ?_⟩
    exact (ite_false (runBad_of h1 h2 h3) _ _).trans ((withTiles_held (holdsRun hheld)).trans (mxLong_out hroom _ _))
  · refine mxDone_of (fun _ => rfl) fun c m va vb ⟨hable, ⟨hvec, hbusy⟩, ⟨h1, h2, h3, h4⟩, hheld, hroom⟩ => ⟨hable, hvec, ?_⟩
    exact (ite_false (tileBad_of h1 h2 h3 h4) _ _).trans ((withTiles_one hheld).trans ((ite_false hbusy _ _).trans
      (mxLong_out hroom _ _)))
  · refine mxDone_of (fun _ => rfl) fun c m va vb ⟨hable, ⟨hvec, hbusy⟩, ⟨h1, h2, h3, h4⟩, hheld⟩ => ⟨hable, hvec, ?_⟩
    exact (ite_false (tileBad_of h1 h2 h3 h4) _ _).trans ((withTiles_one hheld).trans (ite_false hbusy _ _))
  · refine mxDone_of (fun _ => rfl) fun c m va vb ⟨hable, h1, h2⟩ => ⟨hable, rfl, ?_⟩
    exact ite_false (by rw [h1, h2]; rfl) _ _
  · exact mxDone_of (fun _ => rfl) fun c m va vb hable => ⟨hable, rfl, rfl⟩
  · exact mxDone_of (fun _ => rfl) fun c m va vb hable => ⟨hable, rfl, rfl⟩
  · intro s gi vi v hr c hpre hsa hsb hrnd hable hact va vb ha hb t work h48 h16 h11 h6 hfmt hstride hshape hheld
    have hfull := mxFull_of_lt hable.2.2
    have hcore := mxCore_of hable.1 hable.2.1
    have hlegal : (!(c.stPre a.toNat b.toNat && c.sOk 1 a.toNat && c.sOk 2 b.toNat && c.mxCore && decide (c.pre.rnd ≤ 5))) = false := by
      rw [hpre, hsa, hsb, hcore, decide_eq_true hrnd]; rfl
    have hfields : (decide (wb va 48 16 ≠ 0) || decide (wb va 16 8 ≠ 0) || decide (wb va 11 1 ≠ 0) || decide (wb va 6 2 ≠ 0) ||
        decide (t.fmt > 4) || decide (t.stride % 16 ≠ 0)) = false := by
      simp [h48, h16, h11, h6, hfmt, hstride]
    have ha' : (cxOf s gi vi v false x).readS s.m 1 (some a.toNat) = .ok va := ha
    have hb' : (cxOf s gi vi v false x).readS s.m 2 (some b.toNat) = .ok vb := hb
    refine ⟨fun hto hal hunits hroom => ?_, fun hto hrows hloops hslots => ?_⟩
    · refine issue_done hr ((ite_false (by rw [hfull, Bool.and_false]) _ _).trans ((ite_false hlegal _ _).trans ((if_neg hact).trans ?_)))
      rw [ha', hb']
      dsimp only
      have hto' : (tileSt va).toStore = false := hto
      obtain ⟨ls, hls⟩ := judge_all_ok (rs := (stUnits (tileSt va) vb).map fun u =>
        (0, BitVec.ofNat 64 u.1, checkVa s.m (cxOf s gi vi v false x).who .store 1 false u.1)) fun r hr => by
          obtain ⟨u, hu, rfl⟩ := List.mem_map.mp hr
          exact hunits u hu
      rw [hto']
      refine (ite_false hfields _ _).trans ((ite_false ?_ _ _).trans ((ite_false ?_ _ _).trans ?_))
      · rw [decide_eq_false hshape]; rfl
      · rw [hal]; rfl
      simp only [Bool.false_eq_true, if_false, hls]
      rw [slotList_zero]
      exact (withTiles_one hheld).trans (mxLong_out hroom _ _)
    · intro m1 hroom
      refine issue_done hr ((ite_false (by rw [hfull, Bool.and_false]) _ _).trans ((ite_false hlegal _ _).trans ((if_neg hact).trans ?_)))
      rw [ha', hb']
      dsimp only
      have hto' : (tileSt va).toStore = true := hto
      rw [hto']
      simp only [if_true]
      refine (ite_false hfields _ _).trans ((ite_false ?_ _ _).trans ((ite_false rfl _ _).trans ?_))
      · rw [decide_eq_false hshape, Bool.false_or, Bool.true_and, Bool.or_eq_false_iff]
        constructor <;> rw [List.any_eq_false] <;> intro i hi
        · simpa using hrows i (List.mem_range.mp hi)
        · rw [Bool.not_eq_true, List.any_eq_false]
          intro o ho
          by_cases hteam : (s.m.grp o.grp).team = (cxOf s gi vi v false x).g.team
          · cases hw : o.work with
            | loop d1 d2 d3 d4 d5 d6 d7 d8 d9 k => simp [hloops o ho hteam d1 d2 d3 d4 d5 d6 d7 d8 d9 k hw i hi]
            | _ => simp
          · simp [hteam]
      have hfill : (slotList (stSlots (tileSt va) vb)).find? (fun i => !fillable (slotOf s.m (cxOf s gi vi v false x).g i)
          (cxOf s gi vi v false x).g.team) = none := find_none fun i hi => congrArg not (hslots i hi)
      rw [hfill]
      exact (withTiles_one hheld).trans (mxLong_out hroom _ _)
  · intro waits
    have hw : ∀ {i : Instr} {cls : Pipe} {a b : Option Nat} {ok : Cx → Bool} {body : Cx → Mach → Word → Word → Eff},
        (∀ s, exec i s = issue (some cls) false x ch (mxBody a b ok body) s) → waits i cls :=
      fun hx s gi vi v hr hact hfull => mx_waits hx hr hact hfull
    refine ⟨hw fun _ => rfl, hw fun _ => rfl, hw fun _ => rfl, hw fun _ => rfl, hw fun _ => rfl, hw fun _ => rfl, hw fun _ => rfl,
      hw fun _ => rfl, hw fun _ => rfl, ?_, hw fun _ => rfl⟩
    intro s gi vi v hr c hact hfull
    have hstop : (decide (c.act ≠ 0) && c.mxFull s.m) = true := by rw [decide_eq_true hact]; exact decide_eq_true hfull
    exact issue_stall hr (ite_true hstop _ _)

end Sys2Proof.Proofs
end

section
/-!
PROOFS. Tree words (16 R366 to R381).
-/

namespace Sys2Proof.Proofs

open Sys2Proof.Machine Sys2Proof.Claims

section
variable {c : Cx} {m : Mach} {va : Word} {l : Loc}

theorem tsCore_of (h : compatG c.base c.g = false) : c.tsCore = true := by rw [Cx.tsCore, h]; rfl

/-- A descriptor whose address passes its checks is the one that the word goes to. -/
theorem oneDesc_ok {perm : Bool} {k : Loc → Eff} (h : checkDesc m c.whoDesc perm va.toNat = .ok l) : c.oneDesc m perm va k = k l := by
  unfold Cx.oneDesc
  rw [h, judge_one_ok]

/-- The device whose stores of the group are visible to the engine, unless some are still to be performed (R377). -/
def treeSeen (c : Cx) (m : Mach) : Mach :=
  if accessesHeld m c.gi (m.grp c.gi).nextId true then m else flushC1 m c.g.die c.g.core

/-- A word's requests at the end of the engines' orders, each noting whether it waits for such accesses. -/
def treeSent (c : Cx) (m : Mach) (flag : Option Nat) (dsts : List Nat) (rs : List (Nat × TsReq)) : Mach :=
  submitTs (out c (treeSeen c m) flag [] dsts .ts)
    (rs.map fun r => (r.1, { r.2 with late := accessesHeld m c.gi (m.grp c.gi).nextId true }))

/-- No queue, or one that is bound to the tree engine. -/
theorem queue_bound (g : Sys2Proof.Machine.Group) (q : Option Nat) :
    (q.all fun n => decide ((qGet g n).bind = .eng 2)) = true →
      (match q with | some n => decide ((qGet g n).bind ≠ .eng 2) | none => false) = false := by
  cases q with
  | none => intro _; rfl
  | some n => intro h; simpa using h

/-- A word whose queue is an engine's, of a grid that is not speculative, issues with its requests. -/
theorem tsIssue_sent {flag q : Option Nat} {dsts : List Nat} {reqs : Nat → List (Nat × TsReq)} {isStat : Bool}
    (hq : (q.all fun n => decide ((qGet (m.grp c.gi) n).bind = .eng 2)) = true) (hs : (!isStat && c.grid.lr.spec) = false)
    (hr : room c (treeSeen c m) flag) :
    c.tsIssue m flag q dsts reqs isStat = .ok (treeSent c m flag dsts (reqs (m.grp c.gi).nextId)) := by
  exact (ite_false (queue_bound _ _ hq) _ _).trans ((ite_false hs _ _).trans (after_ok _ (long_out hr _ _ _)))

/-- A word of one request for each lane. -/
theorem tsLanes_sent {flag : Option Nat} {dsts : List Nat} {va : Nat → Word} {work : Nat → TsWork} {ls : List (Nat × Loc)}
    (hj : judge (c.lanes.map fun l => (l, va l, checkDesc m c.whoDesc true (va l).toNat)) = .ok ls) (hs : c.grid.lr.spec = false)
    (hr : room c (treeSeen c m) flag) :
    c.tsLanes m flag dsts va work = .ok (treeSent c m flag dsts (ls.map fun l => (locDie m l.2,
      { grp := c.gi, id := (m.grp c.gi).nextId, desc := va l.1, q := none, work := work l.1, walk := none, begun := false, late := false }))) := by
  unfold Cx.tsLanes
  rw [hj]
  exact tsIssue_sent rfl (by rw [hs]; rfl) hr

end

/-- Settles O37: each word goes to the engine of its descriptor's die once its checks pass. -/
theorem treeWords : Obligations.TreeWords := by
  intro x ch f k q w a b s gi vi v c op queue bound quiet who id late seen sent room' req tree whole each lanes
  refine ⟨?_, ?_, ?_⟩
  · intro hr ⟨hcompat, hact, hbound⟩ hk
    have hok : (c.tsCore && (k || decide (q = 0))) = true := by
      rw [tsCore_of hcompat]
      rcases hk with h | h <;> simp [h]
    have hwhole : ∀ (i : Instr) (ob : Option Nat) (limit : Nat) (work : Word → TsWork),
        (∀ s, exec i s = tsWord x ch f q a ob k limit work s) → whole i ob limit work := by
      intro i ob limit work hx hq va vb ha hb hlim l hl hspec hroom
      refine (hx s).trans (qWord_body hr hq hok hact ha hb ?_)
      refine (if_neg (Nat.not_le.mpr hlim)).trans ((oneDesc_ok hl).trans (tsIssue_sent hbound ?_ hroom))
      exact hspec
    refine ⟨hwhole (.tsinit x ch f q a k) none (2 ^ 64) (fun _ => .init) fun _ => rfl,
      hwhole (.tsroot x ch f q a b k) (some b.toNat) 64 .root fun _ => rfl,
      hwhole (.tsfree x ch f q a b k) (some b.toNat) (2 ^ 32) .free fun _ => rfl, ?_⟩
    intro hq va ha l ls hlanes hpoison d m1 hbound1 t ht hspec hroom
    refine qWord_body hr hq hok hact ha rfl ?_
    have hl : checkLanes s.m (cxOf s gi vi v false x).whoDesc .load 32 false [((lanesOf (cxOf s gi vi v false x).act).headD 0, va)] =
      .ok (l :: ls) := hlanes
    dsimp only
    rw [hl]
    exact (ite_false hpoison _ _).trans ((oneDesc_ok ht).trans (tsIssue_sent hbound1 hspec hroom))
  · intro hr hcompat hact hq va vb ha hb l hl hroom
    exact qWord_body hr hq (tsCore_of hcompat) hact ha hb ((oneDesc_ok hl).trans (tsIssue_sent rfl rfl hroom))
  · intro hr hcompat hact hspec hvs m1 va hread
    have hcore := tsCore_of hcompat
    have hread1 : (cxOf s gi vi v false x).read s.m 1 a.toNat = .ok (m1, va) := hread
    refine ⟨?_, ?_, ?_⟩
    · intro hpre hvec hbusy ls hj hroom
      have hlegal : (!(c.tsCore && c.tsPre false (some a.toNat) none && c.vsOk 1 a.toNat false && c.tsDst b.toNat)) = false := by
        rw [hcore, hpre, hvs, show c.tsDst b.toNat = true from hvec]; rfl
      refine issue_done hr ((ite_false hlegal _ _).trans ((if_neg hact).trans ?_))
      rw [hread1]
      exact (ite_false hbusy _ _).trans (tsLanes_sent hj hspec hroom)
    · intro hpre hvec hc hw hbusy m2 vc hreadC ls hj hroom
      have hlegal : (!(c.tsCore && c.tsPre true (some a.toNat) none && c.vsOk 1 a.toNat false && c.tsDst b.toNat && c.cOk &&
          decide (w.toNat ≤ 4))) = false := by
        rw [hcore, hpre, hvs, show c.tsDst b.toNat = true from hvec, hc, decide_eq_true hw]; rfl
      have hreadC' : (cxOf s gi vi v false x).readC m1 = .ok (m2, vc) := hreadC
      refine issue_done hr ((ite_false hlegal _ _).trans ((if_neg hact).trans ?_))
      rw [hread1]
      dsimp only
      rw [hreadC']
      exact (ite_false hbusy _ _).trans (tsLanes_sent hj hspec hroom)
    · intro hpre hvs2 hc m2 vb m3 vc hread2 hreadC ls hj hroom
      have hlegal : (!(c.tsCore && c.tsPre true (some a.toNat) (some b.toNat) && c.vsOk 1 a.toNat false && c.vsOk 2 b.toNat true &&
          c.cOk)) = false := by
        rw [hcore, hpre, hvs, hvs2, hc]; rfl
      have hread2' : (cxOf s gi vi v false x).read m1 2 b.toNat = .ok (m2, vb) := hread2
      have hreadC' : (cxOf s gi vi v false x).readC m2 = .ok (m3, vc) := hreadC
      refine issue_done hr ((ite_false hlegal _ _).trans ((if_neg hact).trans ?_))
      rw [hread1]
      dsimp only
      rw [hread2']
      dsimp only
      rw [hreadC']
      exact tsLanes_sent hj hspec hroom

end Sys2Proof.Proofs
end

section
/-!
PROOFS. Sampling, traversal and repack words (19 R413 to R424).
-/

namespace Sys2Proof.Proofs

open Sys2Proof.Machine Sys2Proof.Claims

section
variable {c : Cx} {m m1 : Mach}

/-- A scene record that passes its checks is given to the word, with the device that has read it. -/
theorem withScene_ok {q n : Nat} {va : Word} {o : Loc} {ls : List (Nat × Loc)} {sc : Nat × Nat × Nat} (k : Mach → Nat × Nat × Nat → Eff)
    (hl : checkLanes m c.who .load 32 false ((c.lanes.take 1).map fun n => (n, va)) = .ok ((n, o) :: ls))
    (hp : anyPoison m 32 ((n, o) :: ls) = false) (ht : m1 = touchLines (pinLocs m ((n, o) :: ls)) c.who false 32 ((n, o) :: ls))
    (hs : sceneOf (seeNum m1 c.who 32 o) = some sc) (hq : (qGet (m1.grp c.gi) q).bind = .eng 3) : c.withScene m q va k = k m1 sc := by
  subst ht
  unfold Cx.withScene
  rw [hl]
  refine (ite_false hp _ _).trans ?_
  dsimp only
  rw [hs]
  exact if_neg (not_not_intro hq)

/-- The device with a word's job at the traversal unit and a piece of work for each lane, what need not wait done. -/
def tvIssued (c : Cx) (m : Mach) (flag : Option Nat) (queue : Option Nat) (dsts : List Nat) (work : Nat → Nat → TvPend) : Mach :=
  let id := (m.grp c.gi).nextId
  let m1 := out c m flag [] dsts .tv
  let g := m1.grp c.gi
  let ws := c.lanes.map (work id)
  let job : TvJob := { id := id, q := queue, dst := dsts.headD 0, left := c.act, faults := [] }
  tvNow (m1.setGrp c.gi { g with tvJobs := g.tvJobs ++ [job], tvPend := g.tvPend ++ ws }) c.gi ws

/-- A word whose counter has room issues to the traversal unit. -/
theorem tvIssue_ok {flag : Option Nat} (h : room c m flag) (queue : Option Nat) (dsts : List Nat) (work : Nat → Nat → TvPend) :
    c.tvIssue m flag queue dsts work = .ok (tvIssued c m flag queue dsts work) := by
  unfold Cx.tvIssue
  rw [long_out h]
  rfl

/-- No lane of the group holds a traversal that a repack would lose. -/
theorem none_stopped {g : Sys2Proof.Machine.Group} {ls : List Nat} (h : ∀ n ∈ ls, (tvGet g n).status ≠ 2 ∧ (tvGet g n).status ≠ 3) :
    maskOf (ls.filter fun l => (tvGet g l).status = 2 || (tvGet g l).status = 3) = 0 := by
  have hnil : (ls.filter fun l => (tvGet g l).status = 2 || (tvGet g l).status = 3) = [] :=
    List.filter_eq_nil_iff.mpr fun n hn => by simp [h n hn]
  rw [hnil]; rfl

/-- The repack mask of a word that agrees with its team's is legal. -/
theorem rpack_legal {vb : Word} {nv : Nat} {o : Option Word} (hb : vb.toNat < 2 ^ min 64 nv) (ho : o = none ∨ o = some vb) :
    ((vb.toNat ≥ 2 ^ min 64 nv) || (o.isSome && o ≠ some vb) : Bool) = false := by
  rcases ho with rfl | rfl <;> simp [hb]

end

/-- A word that is no transfer word and sends its lanes on. -/
theorem issue_moves {s : State} {gi vi : Nat} {v : Voice} {cls : Pipe} (h : Ready s gi vi v cls) {x : Pre} {ch : Bool}
    {body : Cx → Mach → Eff} {ds : List (Nat × Option Nat)} {m : Mach} (hb : body (cxOf s gi vi v false x) s.m = .xfer ds m) :
    issue (some cls) false x ch body s = .next (memberDone (cxOf s gi vi v false x) v (some cls) ch s.late (some ds) m s) := by
  rw [issue_ready h, hb]

/-- Settles O39: each word hands its lanes' work to its unit once its checks pass. -/
theorem rayWords : Obligations.RayWords := by
  intro x ch f q l a b s gi vi v c bo ob shading pair scene issued resumes moves hr hshade hact
  have hcore : c.gfxCore = true := gfxCore_of hshade
  refine ⟨?_, ?_, ?_⟩
  · intro hrun hbusy
    refine ⟨?_, ?_, ?_⟩
    · have hres : ∀ (i : Instr) (kind : Nat), (∀ s, exec i s = tresWord kind x ch f q a b s) → resumes i kind := by
        intro i kind hx hvs hs vb m1 va hreadb hread sc m2 ⟨n, o, ls, hl, hp, ht, hsc, hq⟩ hroom
        have hlegal : (!(c.thirdRunOk 2 && c.vsOk 1 a.toNat true && c.sOk 2 b.toNat && c.gfxCore)) = false := by
          rw [hrun, hvs, hs, hcore]; rfl
        have hreadb' : (cxOf s gi vi v false x).readS s.m 2 (some b.toNat) = .ok vb := hreadb
        have hread' : (cxOf s gi vi v false x).read s.m 1 a.toNat = .ok (m1, va) := hread
        refine (hx s).trans (issue_done hr ((ite_false hlegal _ _).trans ((if_neg hact).trans ((ite_false hbusy _ _).trans ?_))))
        rw [hreadb', hread']
        exact (withScene_ok _ hl hp ht hsc hq).trans (tvIssue_ok hroom _ _ _)
      exact ⟨hres (.tresGo x ch f q a b) 0 fun _ => rfl, hres (.tresHit x ch f q a b) 1 fun _ => rfl,
        hres (.tresTmax x ch f q a b) 2 fun _ => rfl⟩
    · intro hrun4 hs hbusy4 vb hreadb sc m1 ⟨n, o, ls, hl, hp, ht, hsc, hq⟩ hroom
      have hlegal : (!(c.thirdRunOk 2 && c.runOk 1 a.toNat 4 && c.sOk 2 b.toNat && c.gfxCore)) = false := by
        rw [hrun, hrun4, hs, hcore]; rfl
      have hidle : (c.vecsBusy a.toNat 4 || c.vecsBusy c.third 2) = false := by rw [hbusy4, hbusy]; rfl
      have hreadb' : (cxOf s gi vi v false x).readS s.m 2 (some b.toNat) = .ok vb := hreadb
      refine issue_done hr ((ite_false hlegal _ _).trans ((if_neg hact).trans ((ite_false hidle _ _).trans ?_)))
      rw [hreadb']
      exact (withScene_ok _ hl hp ht hsc hq).trans (tvIssue_ok hroom _ _ _)
    · intro hs hvm hex va m1 vb hreada hread n o ds hdesc hpd d t size ts hbad ls hl hp m2 vals chan hroom
      have hlegal : (!(c.thirdRunOk 2 && c.sOk 1 a.toNat && (bo.isV || bo.isM) && bo.exists? c.g && c.gfxCore)) = false := by
        rw [hrun, hs, (Bool.or_eq_true _ _).mpr hvm, hex, hcore]; rfl
      have hreada' : (cxOf s gi vi v false x).readS s.m 1 (some a.toNat) = .ok va := hreada
      have hread' : (cxOf s gi vi v false x).read s.m 2 b.toNat = .ok (m1, vb) := hread
      have hdesc' : checkLanes m1 (cxOf s gi vi v false x).who .load 32 false
        (((cxOf s gi vi v false x).lanes.take 1).map fun k => (k, va)) = .ok ((n, o) :: ds) := hdesc
      refine issue_done hr ((ite_false hlegal _ _).trans ((if_neg hact).trans ((ite_false hbusy _ _).trans ?_)))
      rw [hreada', hread']
      dsimp only
      rw [hdesc']
      refine (ite_false hpd _ _).trans ((ite_false hbad _ _).trans ?_)
      have hl' : checkLanes m1 (cxOf s gi vi v false x).who .load 1 false (ts.map fun e => (e.1, BitVec.ofNat 64 e.2.2)) = .ok ls := hl
      change (match checkLanes m1 (cxOf s gi vi v false x).who .load 1 false (ts.map fun e => (e.1, BitVec.ofNat 64 e.2.2)) with
        | .error e => c.stopEff e
        | .ok ls => _) = _
      rw [hl']
      exact (ite_false hp _ _).trans (long_out hroom _ _ _)
  · intro hpre hvs
    have hmove : ∀ (i : Instr) (acc : Acc) (work : Nat → Word → Nat → TvPend), (∀ s, exec i s = tvMove acc work x ch f a s) →
        moves i acc work := by
      intro i acc work hx m1 va hread ls hl hp hroom
      have hlegal : (!(c.plainPre (some a.toNat) none && c.vsOk 1 a.toNat false && c.gfxCore)) = false := by
        rw [hpre, hvs, hcore]; rfl
      have hread' : (cxOf s gi vi v false x).read s.m 1 a.toNat = .ok (m1, va) := hread
      have hl' : unlessHeld m1 (cxOf s gi vi v false x).gi 64 (checkLanes m1 (cxOf s gi vi v false x).who acc 64 false
        ((cxOf s gi vi v false x).lanes.map fun n => (n, va n))) = .ok ls := hl
      have hclean : (decide (acc = .load) && anyPoison m1 64 ls) = false := by
        by_cases h : acc = .load
        · rw [hp h, Bool.and_false]
        · rw [decide_eq_false h, Bool.false_and]
      refine (hx s).trans (issue_done hr ((ite_false hlegal _ _).trans ((if_neg hact).trans ?_)))
      rw [hread']
      dsimp only
      rw [hl']
      exact (ite_false hclean _ _).trans (tvIssue_ok hroom _ _ _)
    exact ⟨hmove (.tvld x ch f a) .load .load fun _ => rfl, hmove (.tvst x ch f a) .store .store fun _ => rfl⟩
  · intro ao hpre hvm hex hext hs hplace m1 va vb hread hreadb t hb hmask hlanes hroom m2 m3
    have hlegal : (!(c.plainPre none (some b.toNat) && (ao.isV || ao.isM) && ao.exists? c.g && decide (c.pre.ext 1 = 0) && c.sOk 2 b.toNat &&
        c.gfxCore && c.rpackPlace)) = false := by
      rw [show c.plainPre none (some b.toNat) = true from hpre, (Bool.or_eq_true _ _).mpr hvm, hex, decide_eq_true hext, hs, hcore, hplace]; rfl
    have hread' : (cxOf s gi vi v false x).read s.m 1 a.toNat = .ok (m1, va) := hread
    have hreadb' : (cxOf s gi vi v false x).readS s.m 2 (some b.toNat) = .ok vb := hreadb
    refine issue_moves hr ((ite_false hlegal _ _).trans ((if_neg hact).trans ?_))
    rw [hread', hreadb']
    refine (ite_false (rpack_legal hb hmask) _ _).trans ((if_neg (not_not_intro (none_stopped hlanes))).trans ?_)
    have hlong : c.long s.m (c.flag f) [] [] (.rpack t.rpPhase) = .ok m2 := long_out hroom _ _ _
    change (match c.long s.m (c.flag f) [] [] (.rpack t.rpPhase) with
      | .ok _ => _
      | e => e) = _
    rw [hlong]
    rfl

end Sys2Proof.Proofs
end

section
/-!
PROOFS. Context words (05 R155 to R158).
-/

namespace Sys2Proof.Proofs

open Sys2Proof.Machine Sys2Proof.Claims

/-- The fields of a context word name scalars that exist. -/
def fieldsNamed (c : Cx) (fields : List Nat) : Prop := ∀ k ∈ fields, 0x70 ≤ k ∧ k - 0x70 < c.g.ns

section
variable {s : State} {gi vi : Nat} {v : Voice} {x : Pre} {ch ok : Bool} {fields : List Nat} {body : Cx → Mach → Eff}

/-- The checks of a context word's fields, in a lane that is active. -/
theorem ctxWord_legal {c : Cx} (hk : c.kind0 true = true) (hok : ok = true) (hn : fieldsNamed c fields) :
    (!(c.kind0 true && ok && fields.all fun k => decide (0x70 ≤ k) && decide (k - 0x70 < c.g.ns))) = false := by
  have hall : (fields.all fun k => decide (0x70 ≤ k) && decide (k - 0x70 < c.g.ns)) = true :=
    List.all_eq_true.mpr fun k hk => by simpa using hn k hk
  rw [hk, hok, hall]; rfl

/-- Out of privilege a context word raises PROT. -/
theorem ctxWord_prot (hr : Ready s gi vi v .mem) (hk : (cxOf s gi vi v false x).kind0 true = true) (hok : ok = true)
    (hn : fieldsNamed (cxOf s gi vi v false x) fields) (hact : (cxOf s gi vi v false x).act ≠ 0)
    (hpriv : (cxOf s gi vi v false x).grid.lr.priv = false) :
    ctxWord x ch fields ok body s = .next (causeState s gi vi v false x .prot 0 (cxOf s gi vi v false x).act) :=
  issue_cause hr ((ite_false (ctxWord_legal hk hok hn) _ _).trans ((if_neg hact).trans (ite_true (by rw [hpriv]; rfl) _ _)))

/-- A privileged context word whose fields are complete takes its effect. -/
theorem ctxWord_done {m : Mach} (hr : Ready s gi vi v .mem) (hk : (cxOf s gi vi v false x).kind0 true = true) (hok : ok = true)
    (hn : fieldsNamed (cxOf s gi vi v false x) fields) (hact : (cxOf s gi vi v false x).act ≠ 0)
    (hpriv : (cxOf s gi vi v false x).grid.lr.priv = true)
    (hb : ∀ k ∈ fields, busyReg (cxOf s gi vi v false x).base gi vi (128 + (k - 0x70)) = false)
    (he : body (cxOf s gi vi v false x) s.m = .ok m) : ctxWord x ch fields ok body s = .next (doneState s gi vi v .mem x ch m) := by
  have hidle : (fields.any fun k => busyReg (cxOf s gi vi v false x).base gi vi (128 + (k - 0x70))) = false :=
    List.any_eq_false.mpr fun k hk => by rw [hb k hk]; exact Bool.false_ne_true
  exact issue_done hr ((ite_false (ctxWord_legal hk hok hn) _ _).trans ((if_neg hact).trans ((ite_false (by rw [hpriv]; rfl) _ _).trans
    ((ite_false hidle _ _).trans he))))

end

/-- Where an area is misaligned or cannot be written, and where neither. -/
theorem area_refused {n : Nat} {b : Bool} (h : n % 4096 ≠ 0 ∨ b = false) (e e' : Eff) :
    (if (decide (n % 4096 ≠ 0) || !b) = true then e else e') = e := by
  rcases h with h | h
  · exact ite_true (by rw [decide_eq_true h, Bool.true_or]) _ _
  · exact ite_true (by rw [h]; exact Bool.or_true _) _ _
theorem area_fits {n : Nat} {b : Bool} (h : n % 4096 = 0) (hb : b = true) (e e' : Eff) :
    (if (decide (n % 4096 ≠ 0) || !b) = true then e else e') = e' :=
  ite_false (by rw [decide_eq_false (not_not_intro h), hb]; rfl) _ _

/-- Dropping every entry that an address falls in, or all of them, is a filter of the entries. -/
theorem dropTlb_all (m : Mach) (p : Nat) : dropTlb m p none = m.setPart p { m.part p with tlb := (m.part p).tlb.filter fun _ => false } := by
  rw [List.filter_eq_nil_iff.mpr fun _ _ => Bool.false_ne_true]; rfl

/-- tlbinv of one address, and of all. -/
theorem exec_tlbinv_one (x : Pre) (ch : Bool) (a : BitVec 7) (s : State) : exec (.tlbinv x ch a 0) s =
    ctxWord x ch [a.toNat] true (fun c m => c.after m (flagOf c.voice c.pre.flg) (.tlbinv (some (c.ctxScalar m a.toNat).toNat))
      fun m' => tlbinvAt m' (whoGroup c.base c.gi) (some (c.ctxScalar m a.toNat).toNat)) s := by
  change execTlbinv x ch a 0 s = _
  unfold execTlbinv
  simp only [if_true]
  rfl
theorem exec_tlbinv_all (x : Pre) (ch : Bool) (s : State) : exec (.tlbinv x ch 0 1) s =
    ctxWord x ch [] true (fun c m => c.after m (flagOf c.voice c.pre.flg) (.tlbinv none)
      fun m' => tlbinvAt m' (whoGroup c.base c.gi) none) s := by
  change execTlbinv x ch 0 1 s = _
  unfold execTlbinv
  simp only [show ((1 : BitVec 2) = 0) = False from eq_false (by decide), if_false]
  rfl

/-- Settles O40: out of privilege each word stops before its effect, and a privileged one does what its checks lead to. -/
theorem contextWords : Obligations.ContextWords := by
  intro x ch a b s gi vi v hr c w reg clear val flag done stop one dropped inv hk hact
  have named1 : ∀ {r : BitVec 7}, reg r → fieldsNamed c [r.toNat] := fun h k hk => List.mem_singleton.mp hk ▸ h
  have named2 : ∀ {r r' : BitVec 7}, reg r → reg r' → fieldsNamed c [r.toNat, r'.toNat] := fun h h' =>
    List.forall_mem_cons.mpr ⟨h, List.forall_mem_singleton.mpr h'⟩
  have idle1 : ∀ {r : BitVec 7}, clear r → ∀ k ∈ [r.toNat], busyReg c.base gi vi (128 + (k - 0x70)) = false := fun h =>
    List.forall_mem_singleton.mpr h
  refine ⟨?_, ?_, ?_⟩
  · intro hpriv
    exact ⟨fun ha hb => ctxWord_prot hr hk rfl (named2 ha hb) hact hpriv, fun ha => ctxWord_prot hr hk rfl (named1 ha) hact hpriv,
      fun ha => (exec_tlbinv_one x ch a s).trans (ctxWord_prot hr hk rfl (named1 ha) hact hpriv),
      (exec_tlbinv_all x ch s).trans (ctxWord_prot hr hk rfl (List.forall_mem_nil _) hact hpriv)⟩
  · intro hpriv hroom ha hclear
    constructor
    · intro hb hclearb hheld
      have hlong : ∀ wait, (cxOf s gi vi v false x).long s.m (flagOf (cxOf s gi vi v false x).voice (cxOf s gi vi v false x).pre.flg) [] []
        wait = .ok (out c s.m flag [] [] wait) := fun wait => long_out hroom _ _ wait
      have hidle : ∀ k ∈ [a.toNat, b.toNat], busyReg c.base gi vi (128 + (k - 0x70)) = false :=
        List.forall_mem_cons.mpr ⟨hclear, idle1 hclearb⟩
      refine ⟨fun hbad => ?_, fun halign hspan => ⟨fun hnone => ?_, fun gr hsome => ?_⟩⟩
      · refine ctxWord_done hr hk rfl (named2 ha hb) hact hpriv hidle ?_
        extract_lets w' rec' area' flag' done'
        rw [show spanHeld s.m w' .store area'.toNat 256 = [] from hheld]
        exact (area_refused hbad _ _).trans (after_ok _ (hlong _))
      · refine ctxWord_done hr hk rfl (named2 ha hb) hact hpriv hidle ?_
        extract_lets w' rec' area' flag' done'
        rw [show spanHeld s.m w' .store area'.toNat 256 = [] from hheld]
        refine (area_fits halign hspan _ _).trans ?_
        rw [show namedGrid s.m w' rec' = none from hnone]
        exact after_ok _ (hlong _)
      · refine ctxWord_done hr hk rfl (named2 ha hb) hact hpriv hidle ?_
        extract_lets w' rec' area' flag' done'
        rw [show spanHeld s.m w' .store area'.toNat 256 = [] from hheld]
        refine (area_fits halign hspan _ _).trans ?_
        rw [show namedGrid s.m w' rec' = some gr from hsome]
        exact after_ok _ (hlong _)
    · intro m1 r hrest
      refine ctxWord_done (fields := [a.toNat]) hr hk rfl (named1 ha) hact hpriv (idle1 hclear) ?_
      have hrest' : restoreImage (out c s.m flag [] [] .ready) (ctxWho (cxOf s gi vi v false x).base (cxOf s gi vi v false x).gi)
        ((cxOf s gi vi v false x).ctxScalar s.m a.toNat) = .ok (m1, r) := hrest
      have hlong : (cxOf s gi vi v false x).long s.m (flagOf (cxOf s gi vi v false x).voice (cxOf s gi vi v false x).pre.flg) [] []
        .ready = .ok (out c s.m flag [] [] .ready) := long_out hroom _ _ _
      refine (after_ok _ hlong).trans ?_
      rw [hrest']
      rfl
  · intro hpriv
    have hafter : ∀ (m : Mach) (va : Option Nat), tlbinvAt s.m (whoGroup c.base gi) va = m → afterRoom c s.m flag m →
        c.after s.m flag (.tlbinv va) (fun m => tlbinvAt m (whoGroup c.base gi) va) = .ok (afterAll c s.m flag (.tlbinv va) m) := by
      intro m va hm hroom
      subst hm
      exact after_eq (now := fun m => tlbinvAt m (whoGroup c.base gi) va) hroom _
    refine ⟨fun ha hclear hroom => ?_, fun hroom => ?_⟩
    · refine (exec_tlbinv_one x ch a s).trans (ctxWord_done hr hk rfl (named1 ha) hact hpriv (idle1 hclear) ?_)
      exact hafter _ _ rfl hroom
    · refine (exec_tlbinv_all x ch s).trans (ctxWord_done hr hk rfl (List.forall_mem_nil _) hact hpriv (List.forall_mem_nil _) ?_)
      refine hafter _ none ?_ hroom
      exact congrArg (freeHolds · _ _) (dropTlb_all _ _)

end Sys2Proof.Proofs
end

section
/-!
PROOFS. Loads and stores (02 R95 to R100).
-/

namespace Sys2Proof.Proofs

open Sys2Proof.Machine Sys2Proof.Claims

/-- A load whose addresses pass their checks is outstanding with the values read. -/
theorem loadBody_ok {c : Cx} {m m1 : Mach} {sp : Space} {sgn f : Bool} {n t b : Nat} {off : Int} {vb : Nat → Word} {ls : List (Nat × Loc)}
    (hok : c.loadOk sp t b = true) (hact : c.act ≠ 0) (hd : c.destStop t = none) (hread : c.read m 1 b = .ok (m1, vb))
    (hl : c.locate m1 sp .load n (c.addrs vb (off * n)) = .ok ls) (hp : anyPoison m1 n ls = false) {m2 : Mach}
    (hm2 : m2 = touchLines (c.recall (pinLocs m1 ls) n ls) c.who c.strong n ls) (hroom : room c m2 (c.regFlag f)) {wr : List RegWr × List Nat}
    (hwr : wr = c.wrOf t (ls.map fun l => (l.1, extendTo sgn n (seeNum m2 c.who n l.2)))) :
    loadBody sp sgn n f t b off c m = .ok (out c m2 (c.regFlag f) wr.1 wr.2 .ready) := by
  subst hm2 hwr
  unfold loadBody
  rw [if_neg (by rw [hok]; decide), if_neg hact, hread]
  dsimp only
  rw [hd]
  dsimp only
  rw [hl]
  exact (ite_false hp _ _).trans (long_out hroom _ _ _)

/-- A store whose addresses pass their checks is outstanding, its bytes stored. -/
theorem storeBody_ok {c : Cx} {m m1 m2 : Mach} {sp : Space} {f : Bool} {n t b : Nat} {off : Int} {vb vt : Nat → Word}
    {ls : List (Nat × Loc)} (hpre : c.memPre [0, 1, 3] sp.maxScope = true) (ht : c.srcOk 2 t = true) (hb : c.srcOk 1 b = true) (hact : c.act ≠ 0)
    (hord : 3 ≤ c.pre.ord → earlierHeld m c.gi = false) (hread : c.read m 1 b = .ok (m1, vb)) (hread2 : c.read m1 2 t = .ok (m2, vt))
    (hl : c.locate m2 sp .store n (c.addrs vb (off * n)) = .ok ls) {m3 : Mach}
    (hm3 : m3 = storeAll c.who n (c.recall (pinLocs (c.release m2) ls) n ls) ls vt) (hroom : room c m3 (c.flag f)) :
    storeBody sp n f t b off c m = .ok (out c m3 (c.flag f) [] [] .ready) := by
  subst hm3
  have hwait : (decide (c.pre.ord ≥ 3) && earlierHeld m c.gi) = false := by
    by_cases h : 3 ≤ c.pre.ord
    · rw [hord h, Bool.and_false]
    · rw [decide_eq_false h, Bool.false_and]
  unfold storeBody
  rw [if_neg (by rw [hpre, ht, hb]; decide), if_neg hact, if_neg (by rw [hwait]; decide), hread]
  dsimp only
  rw [hread2]
  dsimp only
  rw [hl]
  exact long_out hroom _ _ _

/-- Settles O21: a load and a store whose addresses pass every check issue with their access performed. -/
theorem loadsAndStores : Obligations.LoadsAndStores := by
  constructor
  · intro x ch z f t b o s gi vi v c n run
    have hrun : ∀ (i : Instr) (sp : Space) (sgn : Bool), (∀ s, exec i s = loadWord sp sgn x ch z f t b o s) → run i sp sgn := by
      intro i sp sgn hx hr hok hact hd m1 vb ls hread hl hp m2 hroom wr
      exact (hx s).trans (issue_done hr (loadBody_ok hok hact hd hread hl hp rfl hroom rfl))
    refine ⟨hrun (.ld x ch z f t b o) .global false fun _ => rfl, hrun (.lds x ch z f t b o) .spad false fun _ => rfl,
      hrun (.ldc x ch z f t b o) .const false fun _ => rfl,
      fun hz => ⟨hrun (.ldSext x ch z f t b o) .global true fun _ => if_neg hz,
        hrun (.ldsSext x ch z f t b o) .spad true fun _ => if_neg hz⟩, fun hz hi => ⟨?_, ?_⟩⟩
    · exact (if_pos hz).trans (issue_illegal hi x)
    · exact (if_pos hz).trans (issue_illegal hi x)
  · intro x ch z f t b o s gi vi v hr c n run
    have hrun : ∀ (i : Instr) (sp : Space), (∀ s, exec i s =
        issue (some .mem) false x ch (storeBody sp (szBytes z) f t.toNat b.toNat (offsetOf x o)) s) → run i sp := by
      intro i sp hx hpre hb ht hact hord m1 vb m2 vt ls hread hread2 hl m0 m3 hroom
      exact (hx s).trans (issue_done hr (storeBody_ok hpre ht hb hact hord hread hread2 hl rfl hroom))
    exact ⟨hrun (.st x ch z f t b o) .global fun _ => rfl, hrun (.sts x ch z f t b o) .spad fun _ => rfl⟩

end Sys2Proof.Proofs
end

section
/-!
PROOFS. Loads and stores of several registers (02 R101, R102).
-/

namespace Sys2Proof.Proofs

open Sys2Proof.Machine Sys2Proof.Claims

/-- The word goes on at element e0 with the bases given: at its start, or where it was restarted. -/
theorem resume_eq {c : Cx} {vb base : Nat → Word} {e0 : Nat} (h : (c.voice.restart = none ∧ e0 = 0 ∧ base = vb) ∨
    ∃ k bs, c.voice.restart = some (k, e0, bs) ∧ k = c.member ∧ base = fun l => Tbl.get (vb l) bs l) : c.resume vb = (e0, base) := by
  unfold Cx.resume
  rcases h with ⟨hnone, rfl, rfl⟩ | ⟨k, bs, hsome, hk, rfl⟩
  · rw [hnone]
  · rw [hsome]
    exact if_pos hk

/-- Elements done from one on stop at an element with the elements before it done. -/
theorem elems_stop {chk : Nat → Mach → Except Stop (List (Nat × Loc))} {act : Nat → Mach → List (Nat × Loc) → Except Stop Mach} {e : Nat}
    {k : Stop} {m : Mach} : ∀ (n e0 : Nat) (m0 : Mach), elems chk act n e0 m0 = .error (e, k, m) →
      e0 ≤ e ∧ e < e0 + n ∧ elems chk act (e - e0) e0 m0 = .ok m ∧
        (chk e m = .error k ∨ ∃ ls, chk e m = .ok ls ∧ act e m ls = .error k)
  | 0, _, _, h => by cases h
  | n + 1, e0, m0, h => by
    rw [elems] at h
    split at h
    next k' hc =>
      obtain ⟨rfl, rfl, rfl⟩ : e0 = e ∧ k' = k ∧ m0 = m := by simpa using h
      exact ⟨Nat.le_refl _, by omega, by rw [Nat.sub_self]; rfl, .inl hc⟩
    next ls hc =>
      split at h
      next k' ha =>
        obtain ⟨rfl, rfl, rfl⟩ : e0 = e ∧ k' = k ∧ m0 = m := by simpa using h
        exact ⟨Nat.le_refl _, by omega, by rw [Nat.sub_self]; rfl, .inr ⟨ls, hc, ha⟩⟩
      next m1 ha =>
        obtain ⟨hle, hlt, hdone, hstop⟩ := elems_stop n (e0 + 1) m1 h
        refine ⟨by omega, by omega, ?_, hstop⟩
        rw [show e - e0 = e - (e0 + 1) + 1 by omega, elems, hc]
        dsimp only
        rw [ha]
        exact hdone

/-- A transfer whose elements are all done goes on with the device they leave. -/
theorem elems_load {r : Except (Nat × Stop × Mach) Mach} {m : Mach} (stop : Nat × Stop × Mach → Eff) (go : Mach → Eff) :
    r = .ok m → (match r with | .error k => stop k | .ok m => go m) = go m := by
  rintro rfl; rfl
theorem elems_store {r : Except (Nat × Stop × Mach) Mach} {m : Mach} (stop : Nat × Stop × Mach → Eff) (go : Mach → Eff) :
    r = .ok m → (match r with | .ok m => go m | .error k => stop k) = go m := by
  rintro rfl; rfl

/-- Settles O24: a transfer whose elements all pass issues with its accesses performed, and one that stops keeps the elements done. -/
theorem loadStoreMultiple : Obligations.LoadStoreMultiple := by
  constructor
  · intro x ch f t b n s gi vi v hr c cnt r off hpre hb hr60 hnv hact hidle m1 vb hread e0 base hstart at' seen
    have hread' : (cxOf s gi vi v false x).read s.m 1 b.toNat = .ok (m1, vb) := hread
    have hres : (cxOf s gi vi v false x).resume vb = (e0, base) := resume_eq hstart
    constructor
    · intro hout done helems m2 hroom
      have hlegal : (!(c.memPre [0, 1] 4 && c.srcOk 1 b.toNat && decide (r < 0x60) && decide (r + cnt ≤ c.g.nv) &&
          !(decide (r ≤ b.toNat) && decide (b.toNat < r + cnt)))) = false := by
        have hapart : (decide (r ≤ b.toNat) && decide (b.toNat < r + cnt)) = false := by
          rcases hout with h | h <;> simp [h]
        rw [hpre, hb, decide_eq_true hr60, decide_eq_true hnv, hapart]; rfl
      refine issue_done hr ((ite_false hlegal _ _).trans ((if_neg hact).trans ?_))
      rw [hread']
      dsimp only
      refine (ite_false hidle _ _).trans ?_
      rw [hres]
      dsimp only
      have hroom' : room (cxOf s gi vi v false x) m2 ((cxOf s gi vi v false x).regFlag f) := hroom
      exact (elems_load _ _ helems).trans (long_out hroom' _ _ _)
    · intro m2 helems spans hroom
      have hlegal : (!(c.memPre [0, 1] 4 && c.srcOk 1 b.toNat && decide (r < 0x60) && decide (r + cnt ≤ c.g.nv))) = false := by
        rw [hpre, hb, decide_eq_true hr60, decide_eq_true hnv]; rfl
      refine issue_done hr ((ite_false hlegal _ _).trans ((if_neg hact).trans ?_))
      rw [hread']
      dsimp only
      refine (ite_false hidle _ _).trans ?_
      rw [hres]
      dsimp only
      have hroom' : room (cxOf s gi vi v false x) (clearCovered m2 spans) ((cxOf s gi vi v false x).flag f) := hroom
      exact (elems_store _ _ helems).trans (long_out hroom' _ _ _)
  · intro c base e t m
    refine ⟨rfl, fun chk act n m0 h => ?_⟩
    obtain ⟨-, hlt, hdone, hstop⟩ := elems_stop n 0 m0 h
    exact ⟨by omega, hdone, hstop⟩

end Sys2Proof.Proofs
end

section
/-!
PROOFS. Prefetch, cache maintenance and fences (11 R255 to R259).
-/

namespace Sys2Proof.Proofs

open Sys2Proof.Machine Sys2Proof.Claims

/-- What a maintenance word's fields and operands must meet: its base in vb, its length in vt. -/
structure MaintReads (c : Cx) (m m1 m2 : Mach) (t b : BitVec 7) (vb vt : Nat → Word) : Prop where
  pre : c.memPre [0] 4 = true
  base : c.srcOk 1 b.toNat = true
  len : c.srcOk 2 t.toNat = true
  baseS : (opdOf c.pre 1 b.toNat).isS = true
  lenS : (opdOf c.pre 2 t.toNat).isS = true
  act : c.act ≠ 0
  readBase : c.read m 1 b.toNat = .ok (m1, vb)
  readLen : c.read m1 2 t.toNat = .ok (m2, vt)
  small : (vt 0).toNat ≤ 2 ^ 30

section
variable {c : Cx} {m m1 m2 : Mach} {t b : BitVec 7} {vb vt : Nat → Word} (h : MaintReads c m m1 m2 t b vb vt)
include h

theorem MaintReads.legal : (!(c.memPre [0] 4 && c.srcOk 1 b.toNat && c.srcOk 2 t.toNat && (opdOf c.pre 1 b.toNat).isS &&
    (opdOf c.pre 2 t.toNat).isS)) = false := by rw [h.pre, h.base, h.len, h.baseS, h.lenS]; rfl

/-- Maintenance of no bytes completes as it is. -/
theorem maintBody_empty {inv f : Bool} {off : Int} (h0 : (vt 0).toNat = 0) (hroom : room c m2 (c.flag f)) :
    maintBody inv f t b off c m = .ok (out c m2 (c.flag f) [] [] .ready) := by
  unfold maintBody
  rw [if_neg (by rw [h.legal]; decide), if_neg h.act, h.readBase]
  dsimp only
  rw [h.readLen]
  dsimp only
  rw [if_neg (Nat.not_lt.mpr h.small), if_pos h0]
  exact long_out hroom _ _ _

/-- Maintenance of some bytes acts on the keys of their pages. -/
theorem maintBody_pages {inv f : Bool} {off : Int} {rs : List (Nat × Nat)} {ea lo hi : Nat}
    (hea : ea = (vb 0 + BitVec.ofInt 64 (128 * off)).toNat) (hlo : lo = ea / 128 * 128) (hhi : hi = (ea + (vt 0).toNat + 127) / 128 * 128)
    (h0 : (vt 0).toNat ≠ 0) (hrs : maintPages m2 c.who lo hi ((hi - 1) / 2 ^ 16 - lo / 2 ^ 16 + 1) (lo / 2 ^ 16) = .ok rs) :
    maintBody inv f t b off c m = c.after m2 (c.flag f) (.maint inv (decide (c.pre.scope?.getD 3 ≥ 3)) rs)
      fun m => maintain m c.who inv (decide (c.pre.scope?.getD 3 ≥ 3)) rs := by
  subst hea hlo hhi
  unfold maintBody
  rw [if_neg (by rw [h.legal]; decide), if_neg h.act, h.readBase]
  dsimp only
  rw [h.readLen]
  dsimp only
  rw [if_neg (Nat.not_lt.mpr h.small), if_neg h0, hrs]

end

/-- The order and scope of a fence that its checks accept. -/
theorem fence_legal {x : Pre} {ord : Nat} (hp : PreClass.mem.accepts x = true) (h2 : 2 ≤ ord) (h4 : ord ≤ 4) (hs : x.scope?.getD 3 ≤ 4)
    (ho : x.offh = 0) :
    (!(PreClass.mem.accepts x && decide (2 ≤ ord) && decide (ord ≤ 4) && decide (x.scope?.getD 3 ≤ 4) && decide (x.offh = 0))) = false := by
  rw [hp, decide_eq_true h2, decide_eq_true h4, decide_eq_true hs, decide_eq_true ho]; rfl

/-- Settles O25: each word issues, its effect performed or waiting for the accesses before it. -/
theorem cacheWords : Obligations.CacheWords := by
  intro x ch f t b o l s gi vi v hr c done
  refine ⟨?_, ?_, ?_⟩
  · intro hpre hl hb hvs m1 vb hread
    have hlegal : (!(c.memPre [0] 0 && decide (l.toNat ≤ 2) && c.srcOk 1 b.toNat && ((opdOf x 1 b.toNat).isV || (opdOf x 1 b.toNat).isS))) = false := by
      rw [hpre, decide_eq_true hl, hb, (Bool.or_eq_true _ _).mpr hvs]; rfl
    have hread' : (cxOf s gi vi v false x).read s.m 1 b.toNat = .ok (m1, vb) := hread
    refine issue_done hr ((ite_false hlegal _ _).trans ?_)
    rw [hread']
  · intro hpre hb ht hbs hts hact m1 vb m2 vt hread hread2 hsmall ea lo hi all
    have h : MaintReads c s.m m1 m2 t b vb vt := ⟨hpre, hb, ht, hbs, hts, hact, hread, hread2, hsmall⟩
    refine ⟨fun h0 hroom => ⟨issue_done hr (maintBody_empty h h0 hroom), issue_done hr (maintBody_empty h h0 hroom)⟩, ?_, ?_⟩
    · intro rs h0 hrs run
      have hrun : ∀ (i : Instr) (inv : Bool), (∀ s, exec i s = issue (some .mem) false x ch (maintBody inv f t b (offsetOf x o)) s) → run i inv := by
        intro i inv hx hroom
        refine (hx s).trans (issue_done hr ((maintBody_pages h rfl rfl rfl h0 hrs).trans ?_))
        exact after_eq (now := fun m => maintain m c.who inv all rs) hroom _
      exact ⟨hrun (.cwb x ch f t b o) false fun _ => rfl, hrun (.cinv x ch f t b o) true fun _ => rfl⟩
    · intro top m3 hscope hroom
      have hlegal : (!(c.memPre [0] 4 && decide (x.scope?.getD 3 = 3) && c.srcOk 1 b.toNat && c.srcOk 2 t.toNat &&
          (opdOf x 1 b.toNat).isS && (opdOf x 2 t.toNat).isS)) = false := by
        rw [hpre, decide_eq_true hscope, hb, ht, hbs, hts]; rfl
      have hread' : (cxOf s gi vi v false x).read s.m 1 b.toNat = .ok (m1, vb) := hread
      have hread2' : (cxOf s gi vi v false x).read m1 2 t.toNat = .ok (m2, vt) := hread2
      refine issue_done hr ((ite_false hlegal _ _).trans ((if_neg hact).trans ?_))
      rw [hread']
      dsimp only
      rw [hread2']
      dsimp only
      rw [if_neg (Nat.not_lt.mpr hsmall)]
      exact after_eq (now := fun m => icinvAt m c.who lo top) hroom _
  · intro ord sc scope m1 hp h2 h4 hs ho hact hroom
    refine issue_done hr ((ite_false (fence_legal hp h2 h4 hs ho) _ _).trans ((if_neg hact).trans ?_))
    exact after_eq (now := fun m => releaseAt m c.who scope) hroom _

end Sys2Proof.Proofs
end

section
/-!
PROOFS. Atomics, reductions and condition waits (15 R341 to R353).
-/

namespace Sys2Proof.Proofs

open Sys2Proof.Machine Sys2Proof.Claims

/-- What an atomic word's fields must meet, with d its destination where it returns. -/
structure AtomFields (c : Cx) (u : AtomUse) (d a b : Nat) : Prop where
  pre : c.atomPre u.ords = true
  opds : c.atomOperands (if u.returns then some d else none) a b = true
  dest : u.returns = true ∨ d = 0
  pair : u.op = .cas → c.pairOk b = true

theorem AtomFields.legal {c : Cx} {u : AtomUse} {d a b : Nat} (h : AtomFields c u d a b) :
    (!(c.atomPre u.ords && c.atomOperands (if u.returns then some d else none) a b && (u.returns || decide (d = 0)) &&
      (decide (u.op ≠ .cas) || c.pairOk b))) = false := by
  have hd : (u.returns || decide (d = 0)) = true := by rcases h.dest with h | h <;> simp [h]
  have hp : (decide (u.op ≠ .cas) || c.pairOk b) = true := by
    by_cases hc : u.op = .cas
    · rw [h.pair hc]; exact Bool.or_true _
    · rw [decide_eq_true hc, Bool.true_or]
  rw [h.pre, h.opds, hd, hp]; rfl

/-- A word of release order waits while an access of its group before it is held; the others do not. -/
theorem no_release_wait {ord : Nat} {held : Bool} (h : 3 ≤ ord → held = false) : (decide (ord ≥ 3) && held) = false := by
  by_cases h3 : 3 ≤ ord
  · rw [h h3, Bool.and_false]
  · rw [decide_eq_false h3, Bool.false_and]

/-- An atomic word whose lanes pass every check is outstanding, its read-modify-writes performed. -/
theorem atomBody_ok {c : Cx} {u : AtomUse} {d a b : Nat} {m m1 m2 m3 : Mach} {va vb vz : Nat → Word} {all ls : List (Nat × Loc)}
    (h : AtomFields c u d a b) (hact : c.act ≠ 0) (hord : 3 ≤ c.pre.ord → earlierHeld m c.gi = false)
    (hdst : u.returns = true → c.destStop d = none) (ha : c.read m 1 a = .ok (m1, va)) (hb : c.read m1 2 b = .ok (m2, vb))
    (hz : (if u.op = .cas then c.read m2 3 (b + 1) else .ok (m2, fun _ => 0)) = .ok (m3, vz))
    (hl : unlessHeld m3 c.gi u.n (judge (c.lanes.map fun l => (l, va l, checkAtomic m3 c.who u c.scope (va l).toNat))) = .ok all)
    (hls : ls = if u.returns && (opdOf c.pre 0 d).isS then all.take 1 else all) (hp : anyPoison m3 u.n ls = false)
    {r : Mach × List (Nat × Nat)} (hr : r = atomAll u c.who c.scope (fun l => (vb l).toNat % 2 ^ (8 * u.n))
      (fun l => (vz l).toNat % 2 ^ (8 * u.n)) ls (pinLocs (c.release m3) ls))
    {wr : List RegWr × List Nat} (hwr : wr = if u.returns then
      c.wrOf d (r.2.map fun p => (p.1, if u.n = 4 then lane32 u.sgn p.2 else BitVec.ofNat 64 p.2)) else ([], []))
    (hroom : room c r.1 c.atomFlag) : atomBody u d a b c m = .ok (out c r.1 c.atomFlag wr.1 wr.2 .ready) := by
  subst hls hr hwr
  have hstop : (if u.returns then c.destStop d else none) = none := by
    by_cases hu : u.returns = true
    · rw [if_pos hu, hdst hu]
    · rw [if_neg hu]
  unfold atomBody
  rw [if_neg (by rw [h.legal]; decide), if_neg hact, if_neg (by rw [no_release_wait hord]; decide), ha]
  dsimp only
  rw [hb]
  dsimp only
  rw [hz]
  dsimp only
  rw [hstop]
  dsimp only
  rw [hl]
  exact (ite_false hp _ _).trans (long_out hroom _ _ _)

/-- What an integer operation writes: the lesser, the greater, or the new value of a compare that holds. -/
theorem apply_min {sgn : Bool} {w p y z o : Nat} (h : AtomOp.apply .min sgn w p y z = some o) :
    (o = p ∨ o = y) ∧ readInt sgn w o ≤ readInt sgn w p ∧ readInt sgn w o ≤ readInt sgn w y := by
  by_cases hle : readInt sgn w p ≤ readInt sgn w y
  · obtain rfl : p = o := by simpa [AtomOp.apply, hle] using h
    exact ⟨.inl rfl, Int.le_refl _, hle⟩
  · obtain rfl : y = o := by simpa [AtomOp.apply, hle] using h
    exact ⟨.inr rfl, by omega, Int.le_refl _⟩
theorem apply_max {sgn : Bool} {w p y z o : Nat} (h : AtomOp.apply .max sgn w p y z = some o) :
    (o = p ∨ o = y) ∧ readInt sgn w p ≤ readInt sgn w o ∧ readInt sgn w y ≤ readInt sgn w o := by
  by_cases hle : readInt sgn w y ≤ readInt sgn w p
  · obtain rfl : p = o := by simpa [AtomOp.apply, hle] using h
    exact ⟨.inl rfl, Int.le_refl _, hle⟩
  · obtain rfl : y = o := by simpa [AtomOp.apply, hle] using h
    exact ⟨.inr rfl, by omega, Int.le_refl _⟩

/-- No lane's address lies outside on-package memory. -/
theorem none_outside {m : Mach} {w : Who} {va : Nat → Word} {lanes : List Nat}
    (h : ∀ l ∈ lanes, ∃ e pa, leafAt m w (va l).toNat = some (e, pa) ∧ bitsOf pa 44 2 = 0) :
    (lanes.filter fun l => match leafAt m w (va l).toNat with
      | some (_, pa) => bitsOf pa 44 2 ≠ 0
      | none => true) = [] := by
  refine List.filter_eq_nil_iff.mpr fun l hl => ?_
  obtain ⟨e, pa, hleaf, hregion⟩ := h l hl
  rw [hleaf]
  simp [hregion]

/-- The fields of a waitc. -/
theorem waitc_legal {c : Cx} {n a b : Nat} (hp : c.atomPre [0, 1, 2] = true) (ho : c.atomOperands none a b = true) (hs : 3 ≤ c.scope)
    (hn : n ≤ 5) : (!(c.atomPre [0, 1, 2] && c.atomOperands none a b && decide (c.scope ≥ 3) && decide (n ≤ 5))) = false := by
  rw [hp, ho, decide_eq_true hs, decide_eq_true hn]; rfl

/-- Settles O26: the word's lanes are performed in order, an operation writes what its law says, and a wait arms its monitors. -/
theorem atomics : Obligations.Atomics := by
  refine ⟨?_, ?_, ?_⟩
  · intro x ch t q d a b s gi vi v c run back quiet sum
    have hrun : ∀ (i : Instr) (u : AtomUse) (dd : Nat), (u.returns = true ∨ dd = 0) →
        (∀ s, exec i s = atomWord u x ch dd a.toNat b.toNat s) → run i u dd := by
      intro i u dd hd hx hr hpre hopd hpair hact hord hdst m1 va m2 vb m3 vz all ha hb hz hl ls hp low r wr hroom
      exact (hx s).trans (issue_done hr (atomBody_ok ⟨hpre, hopd, hd, hpair⟩ hact hord hdst ha hb hz hl rfl hp rfl rfl hroom))
    exact ⟨⟨hrun (.atomAdd x ch t d a b) _ _ (.inl rfl) fun _ => rfl, hrun (.atomMin x ch t d a b) _ _ (.inl rfl) fun _ => rfl,
        hrun (.atomMax x ch t d a b) _ _ (.inl rfl) fun _ => rfl, hrun (.atomAnd x ch t d a b) _ _ (.inl rfl) fun _ => rfl,
        hrun (.atomOr x ch t d a b) _ _ (.inl rfl) fun _ => rfl, hrun (.atomXor x ch t d a b) _ _ (.inl rfl) fun _ => rfl,
        hrun (.atomExch x ch t d a b) _ _ (.inl rfl) fun _ => rfl, hrun (.atomc x ch t d a b) _ _ (.inl rfl) fun _ => rfl⟩,
      ⟨hrun (.redAdd x ch t a b) _ _ (.inr rfl) fun _ => rfl, hrun (.redMin x ch t a b) _ _ (.inr rfl) fun _ => rfl,
        hrun (.redMax x ch t a b) _ _ (.inr rfl) fun _ => rfl, hrun (.redAnd x ch t a b) _ _ (.inr rfl) fun _ => rfl,
        hrun (.redOr x ch t a b) _ _ (.inr rfl) fun _ => rfl, hrun (.redXor x ch t a b) _ _ (.inr rfl) fun _ => rfl⟩,
      hrun (.atomFadd x ch q d a b) _ _ (.inl rfl) fun _ => rfl, hrun (.redFadd x ch q a b) _ _ (.inr rfl) fun _ => rfl⟩
  · intro sgn w p y z r
    exact ⟨rfl, fun o => apply_min, fun o => apply_max, rfl, rfl, rfl, rfl, fun h => if_pos h, fun h => if_neg h⟩
  · intro x ch t n a b s gi vi v hr c size hpre hopd hscope hn hact m1 va m2 vb ls ha hb hl hin hp keys m3 hroom
    have ha' : (cxOf s gi vi v false x).read s.m 1 a.toNat = .ok (m1, va) := ha
    have hb' : (cxOf s gi vi v false x).read m1 2 b.toNat = .ok (m2, vb) := hb
    have hl' : unlessHeld m2 (cxOf s gi vi v false x).gi (wtWidth t / 8) (checkLanes m2 (cxOf s gi vi v false x).who .load (wtWidth t / 8)
      false ((cxOf s gi vi v false x).lanes.map fun l => (l, va l))) = .ok ls := hl
    refine issue_done hr ((ite_false (waitc_legal hpre hopd hscope hn) _ _).trans ((if_neg hact).trans ?_))
    rw [ha']
    dsimp only
    rw [hb']
    dsimp only
    rw [hl']
    refine (if_neg (not_not_intro (none_outside hin))).trans ((ite_false hp _ _).trans ?_)
    exact (after_ok _ (long_out (c := cxOf s gi vi v false x) (m := m3) hroom _ _ _))

end Sys2Proof.Proofs
end

section
/-!
PROOFS. Events of voices: course ends, completions, the age override and held traps (01 R17, R22, 04 R113, 05 R139).
-/

namespace Sys2Proof.Proofs

open Sys2Proof.Machine Sys2Proof.Claims

section
variable {m : Mach} {g n : Nat} {o : Outst}

/-- A course whose waiting transfer's results are complete. -/
theorem courseReady_of {x : Voice} {ds : List (Nat × Option Nat)} (hv : voiceAt m g n = some x) (hr : running m g = true)
    (hb : courseBusy m g n = false) (hp : x.pend = some ds) : courseReady m g n = some ds := by
  simp only [courseReady, hv, hr, hb, Bool.not_false, Bool.and_self, if_true, hp]

/-- A word outstanding of a group on its core is the one that its event concerns. -/
theorem wordEvent_of (h : onItsCore m g) (ho : findOutst (m.grp g) n = some o) : wordEvent m g n = wordDone m g o := by
  obtain ⟨hlt, hfreed, hvictim, hplace⟩ := h
  simp only [wordEvent, hlt, hfreed, hvictim, hplace, ho, decide_true, Bool.not_false, Bool.and_self, if_true, Option.bind_some]

theorem ageDue_of {x : Voice} (hv : voiceAt m g n = some x) (hw : 2048 ≤ x.waited) (ha : x.aged = false) : ageDue m g n = true := by
  simp only [ageDue, hv, ha, Bool.not_false, Bool.and_true, decide_eq_true_eq]
  exact hw

/-- Where a word's completion leads, its device is the one after the event. -/
theorem wordComplete_does {s : State} {r : Option Mach} (h : onItsCore s.m g) (ho : findOutst (s.m.grp g) n = some o)
    (hd : wordDone s.m g o = r) : Does (.wordComplete g n) s (r.getD s.m) := by
  rw [← hd, ← wordEvent_of h ho]
  rfl

section
variable {p : PendTrap} (ht : (m.grp g).trap = some p) (hue : p.trap.cause ≠ .sramUe) (hsym : p.trap.cause ≠ .symFault)
  (hh : (m.grp g).inhandler = false) (hf : wb (m.grp g).tvec 8 40 * 256 ≠ 0)
include ht hue hsym hh hf

/-- An entry waits for mortar results and for its frame's pages. -/
theorem enterTrap_waits (hb : anyMortarBusy (m.grp g) = true ∨ isHeld m g 4 = true) : enterTrap m g = m := by
  have hwait : (anyMortarBusy (m.grp g) || isHeld m g 4) = true := (Bool.or_eq_true _ _).mpr hb
  simp only [enterTrap, ht, hue, hsym, hh, hf, hwait, if_false, if_true, decide_false, Bool.false_and, Bool.false_or, Bool.false_eq_true]

/-- An entry whose frame reads and writes starts the handler. -/
theorem enterTrap_enters {m2 : Mach} {hpc : Nat} (hb : anyMortarBusy (m.grp g) = false) (hheld : isHeld m g 4 = false)
    (hr : readFrame (pinFrame m (whoGroup m g) (wb (m.grp g).tvec 8 40 * 256) 1) (whoGroup m g) (wb (m.grp g).tvec 8 40 * 256) = .ok hpc)
    (hw : writeFrame (whoGroup m g) (wb (m.grp g).tvec 8 40 * 256) (frameWords m g p.voice)
      (pinFrame m (whoGroup m g) (wb (m.grp g).tvec 8 40 * 256) 1) = .done m2) :
    enterTrap m g = (dropHolds m2 g).setGrp g { m2.grp g with
      trap := none, inhandler := true, park := [], voices := [(0, standingVoice (m2.grp g).live (hpc % 2 ^ 48))]
      handler := some { voices := (m2.grp g).voices, park := (m2.grp g).park, tv := p.voice, first := p.first, after := p.after, bases := p.bases } } := by
  simp only [enterTrap, ht, hue, hsym, hh, hf, hb, hheld, if_false, decide_false, Bool.false_and, Bool.or_self, Bool.false_eq_true, hr, hw]

end
end

/-- Settles O41: each event does what its condition calls for. -/
theorem voiceEvents : Obligations.VoiceEvents := by
  intro s g n
  refine ⟨?_, ?_, ?_, ?_⟩
  · intro x ds hv hr hb hp
    have h := courseReady_of hv hr hb hp
    change execCourseEnd g n s = _
    rw [execCourseEnd, h]
  · intro o hcore ho t
    refine ⟨fun hw hp => ?_, fun hw hp => ?_, fun act hw hh => ?_, fun hw => ?_, fun b c ph hw hh hph => ?_, fun off dst hw hp hd => ?_,
      fun k hw => ?_⟩
    · exact wordComplete_does (r := some _) hcore ho (by rw [wordDone, hw]; exact if_pos hp)
    · exact wordComplete_does (r := none) hcore ho (by rw [wordDone, hw]; exact if_neg (by rw [hp]; decide))
    · exact wordComplete_does (r := some _) hcore ho (by rw [wordDone, hw]; exact if_neg (by rw [hh]; decide))
    · exact wordComplete_does (r := some _) hcore ho (by rw [wordDone, hw]; exact if_pos rfl)
    · refine wordComplete_does (r := some _) hcore ho ?_
      rw [wordDone, hw]
      exact if_pos (by rw [hh, decide_eq_true (show (barOf s.m t c b).phase > ph from hph)]; rfl)
    · refine wordComplete_does (r := some _) hcore ho ?_
      rw [wordDone, hw]
      exact (if_neg (by rw [show poisoned s.m (spadKey (s.m.grp g).team off) 8 = false from hp]; decide)).trans (if_pos hd)
    · exact wordComplete_does (r := none) hcore ho (by rw [wordDone, hw]; exact if_neg (Nat.succ_ne_zero k))
  · intro x hv hw ha
    have h := ageDue_of hv hw ha
    change execAgeOverride g n s = _
    rw [execAgeOverride, h, hv]
  · intro p hg y ht hue hsym hh f hf
    have hdoes : ∀ m, enterTrap s.m g = m → Does (.trapEntry g) s m := by
      intro m hm
      change execTrapEntry g s = _
      rw [execTrapEntry, if_pos hg, hm]
    exact ⟨fun hb => hdoes _ (enterTrap_waits ht hue hsym hh hf hb), fun hb hheld hpc m2 hr hw =>
      hdoes _ (enterTrap_enters ht hue hsym hh hf hb hheld hr hw)⟩

end Sys2Proof.Proofs
end

section
/-!
PROOFS. Groups and teams come, go and are pre-empted (04 R115 to R132, 05 R150 to R154, 18 R396).
-/

namespace Sys2Proof.Proofs

open Sys2Proof.Machine Sys2Proof.Claims

/-- An event answers the device that its function gives. -/
theorem does_of {i : Instr} {s : State} {m m' : Mach} (h : m' = m) (hx : exec i s = .next { s with m := m' }) : Does i s m := by
  subst h; exact hx

section
variable {m : Mach} {ti die core q p : Nat}

theorem freeGroup_of {g : Nat} (h : drained m g = true) : freeGroup m g =
    (let y := m.grp g
     let x := m.grid y.grid
     let m1 := dropGroup m g (x.lr.ordered && !x.hdr.syms.isEmpty)
     if (m1.team y.team).groups.all fun i => (m1.grp i).freed then finishGrid (endTeam m1 y.team) y.grid else m1) := by
  rw [freeGroup, if_neg (by rw [h]; decide)]

section
variable {pl : Plan} (h : nextAdmission m die = some (p, q, pl))
include h

/-- The device in which a plan is carried out: the choice counted, the room kept for its entry free again. -/
theorem admitNext_of : admitNext m die =
    (let m0 := chargeAdmission m p q die (planGroups m pl)
     let m1 := m0.setPart p { m0.part p with rooms := (m0.part p).rooms.filter fun r => r.2 ≠ pl.ent }
     popFront (match pl.ent with
      | .grid g => startCluster m1 g die pl.cores
      | .team t => if (m1.team t).place = .saved then resumeTeam m1 t die (pl.cores.getD 0 0) else startTeam m1 t die (pl.cores.getD 0 0))
      p q pl.ent) := by
  rw [admitNext, h] <;> rfl

end

theorem stopForRt_none (h : rtChoice m die = none) : stopForRt m die = m := by rw [stopForRt, h]

theorem stopForRt_some {e : QEnt} {c : Nat} {vs : List Nat} (h : rtChoice m die = some (p, e, c, vs)) : stopForRt m die =
    (let m1 := vs.foldl (stopTeam 0) m
     if vs.any (leaving m1) = true then m1.setPart p { m1.part p with rooms := Tbl.put (m1.part p).rooms (64 * die + c) e } else m1) := by
  rw [stopForRt, h]

/-- A team that is being stopped and is quiet, with an area for it. -/
theorem saveTeam_of {m1 : Mach} {run : Nat × Nat} (hs : (m.team ti).stopping = some 0 ∨ (m.team ti).stopping = some 1)
    (hp : (m.team ti).place = .resident) (hq : teamQuiet m ti = true) (ha : poolArea m ti = some (m1, run)) : saveTeam m ti =
    (let m2 := if (m.team ti).stopping = some 1 && waitsOnly m ti then leaveCore m1 ti (some run) .swapped
        else queueFront (leaveCore m1 ti (some run) .saved) ti
     let life := m1.pk.life
     { m2 with pk := { m2.pk with life := if (m.team ti).stopping = some 1 then { life with swaps := countUp life.swaps (m.team ti).die }
        else { life with preempts := countUp life.preempts (m.team ti).die } } }) := by
  unfold saveTeam
  rcases hs with h | h <;> simp only [h, hp, hq, ha, decide_true, Bool.and_self, Bool.not_true, Bool.false_eq_true, if_false]

theorem abandon_of {next : Option Nat} (h : overdue m ti = true) :
    (if (m.team ti).stopping = some 0 then (victims m (m.team ti).die (m.team ti).core).find? fun v => v ≠ ti else none) = next →
    abandon m ti =
    (let t := m.team ti
     let m1 := m.setTeam ti { t with stopping := none }
     match next with
     | some v => stopTeam 0 m1 v
     | none => if (residentTeams m1 t.die t.core).any (leaving m1) then m1
        else m1.setPart (m.grid t.grid).part { m1.part (m.grid t.grid).part with
          rooms := (m1.part (m.grid t.grid).part).rooms.filter fun r => r.1 ≠ 64 * t.die + t.core }) := by
  rintro rfl
  rw [abandon, if_neg (by rw [h]; decide)] <;> rfl

end

/-- Settles O42: each event does what its condition calls for. -/
theorem teamEvents : Obligations.TeamEvents := by
  constructor
  · intro s g die core q
    refine ⟨fun h => does_of (freeGroup_of h) rfl, fun p k pl h => ?_, fun p h => does_of (m' := _) ?_ rfl, fun ti h => ?_⟩
    · exact ⟨fun gr he => does_of ((admitNext_of h).trans (by rw [he])) rfl,
        fun t he hp => does_of ((admitNext_of h).trans (by rw [he]; exact congrArg (popFront · _ _ _) (if_pos hp))) rfl,
        fun t he hp => does_of ((admitNext_of h).trans (by rw [he]; exact congrArg (popFront · _ _ _) (if_neg hp))) rfl⟩
    · rw [h]
    · exact does_of (m' := splitTask s.m die core) (by rw [splitTask, h]) rfl
  · intro s die ti t
    refine ⟨fun h => does_of (stopForRt_none h) rfl, fun p e c vs h => does_of (stopForRt_some h) rfl, fun m1 run hp hq ha => ⟨?_, ?_⟩,
      fun h => ⟨?_, ?_⟩, fun h => does_of (if_pos h) rfl, fun h => does_of (if_pos h) rfl⟩
    · intro hs m2
      refine does_of ((saveTeam_of (.inl hs) hp hq ha).trans ?_) rfl
      rw [show (s.m.team ti).stopping = some 0 from hs]
      rfl
    · intro hs m2
      refine does_of ((saveTeam_of (.inr hs) hp hq ha).trans ?_) rfl
      rw [show (s.m.team ti).stopping = some 1 from hs]
      rfl
    · intro hs
      have hs0 : (s.m.team ti).stopping ≠ some 0 := by rw [show (s.m.team ti).stopping = some 1 from hs]; decide
      exact does_of (abandon_of h (if_neg hs0)) rfl
    · intro hs
      exact does_of (abandon_of h (if_pos hs)) rfl

end Sys2Proof.Proofs
end

section
/-!
PROOFS. Core resources, the memory system, and writes that no word performs (09 R223, R225, 10 R233 to R246, 12 R285 to R292,
14 R314, R329, 18 R388 to R395, 21 R436, R438).
-/

namespace Sys2Proof.Proofs

open Sys2Proof.Machine Sys2Proof.Claims

section
variable {m : Mach} {die core i n : Nat}

theorem serveClaim_of {o : Outst} {k : Nat} (h : claimReady m die core = some (i, n)) (hc : claimOf (m.grp i) = some (o, k)) :
    serveClaim m die core = performed ((m.setCore die core { m.core die core with claims := (m.core die core).claims.filter (· ≠ i) }).setGrp i
      { m.grp i with nv := n, v := (m.grp i).v.filter fun e => e.1 < 64 * (m.grp i).nv }) i o.id [] := by
  simp only [serveClaim, h, hc]

section
variable (h : claimVictim m die core = some i)
include h

theorem takeVictim_saved {m1 : Mach} {run : Nat × Nat}
    (hp : poolWrite m (m.grp i).grid (featuresOf m (m.grp i).grid [i] []) (victimSecs m i) = some (m1, run)) :
    takeVictim m die core = m1.setGrp i { m1.grp i with victim := true, vrun := some run } := by
  simp only [takeVictim, h, hp]

theorem takeVictim_killed (hp : poolWrite m (m.grp i).grid (featuresOf m (m.grp i).grid [i] []) (victimSecs m i) = none) :
    takeVictim m die core = killFor m i 0x15 (BitVec.ofNat 64 (((claimOf (m.grp i)).map Prod.snd).getD 0)) := by
  simp only [takeVictim, h, hp]

end

theorem restoreVictim_of (h : victimFits m die core = some i) : restoreVictim m die core =
    completeLatched ((poolGive m (m.grid (m.grp i).grid).part (m.grp i).vrun).setGrp i { m.grp i with victim := false, vrun := none }) i := by
  simp only [restoreVictim, h]

/-- Claims are served before a victim comes back. -/
theorem no_claim_of_victimFits (h : victimFits m die core = some i) : claimReady m die core = none := by
  cases hc : claimReady m die core with
  | none => rfl
  | some x => rw [victimFits, hc] at h; cases h

/-- A request whose run is free is served for its kind. -/
theorem serveSlots_of {r : SlotReq} {rest : List SlotReq} (hr : (m.core die core).reqs = r :: rest) (hs : canServe m die core r = true) :
    serveSlots m die core =
    (let team := (m.grp r.grp).team
     let run := (List.range r.n).map fun i => r.first + i
     let m1 := if r.acc then writeOut m die core none [] run else writeOut m die core none run []
     let c := m1.core die core
     performed (m1.setCore die core (if r.acc then
          { c with reqs := rest, tiles := run.foldl (fun t n => Tbl.put t n (team + 1)) c.tiles,
                   acc := c.acc.filter fun e => !run.contains (e.1 / 16384) }
        else { c with reqs := rest, slots := run.foldl (fun t n => Tbl.put t n { state := 1, team := team, e := r.e, f := 0 }) c.slots }))
      r.grp r.id []) := by
  simp only [serveSlots, hr, hs, Bool.not_true, Bool.false_eq_true, if_false]

end

/-- Settles O43: each event serves, saves or brings back what its condition names. -/
theorem coreResourceEvents : Obligations.CoreResourceEvents := by
  intro s die core c
  refine ⟨fun i n o k h hc => does_of (serveClaim_of h hc) rfl,
    fun i h => ⟨fun m1 run hp => does_of (takeVictim_saved h hp) rfl, fun hp => does_of (takeVictim_killed h hp) rfl⟩,
    fun i h => ⟨no_claim_of_victimFits h, does_of (restoreVictim_of h) rfl⟩, fun r rest hr hs => ⟨fun ha => ?_, fun ha => ?_⟩⟩
  · refine does_of ((serveSlots_of hr hs).trans ?_) rfl
    simp only [ha, if_true]
  · refine does_of ((serveSlots_of hr hs).trans ?_) rfl
    simp only [ha, Bool.false_eq_true, if_false]

section
variable {m : Mach}

theorem fillTlb_of {p c va lg : Nat} {e : Word} (hen : (m.ctx p c).enabled = true) (hw : isWindow va = false) (hva : va < 2 ^ 48)
    (hleaf : walk m p c va = .leaf e lg) (hm : pteMig e = false) : fillTlb m p c va = m.setPart p { m.part p with
      tlb := { ctx := c, va := va / 2 ^ lg * 2 ^ lg, lg := lg, leaf := e } ::
        (m.part p).tlb.filter fun t => !(t.ctx = c && va / 2 ^ t.lg = t.va / 2 ^ t.lg) } := by
  have hgo : (!(m.ctx p c).enabled || isWindow va || decide (va ≥ 2 ^ 48)) = false := by
    rw [hen, hw, decide_eq_false (Nat.not_le.mpr hva)]; rfl
  rw [fillTlb, if_neg (by rw [hgo]; decide), hleaf]
  exact if_neg (by rw [hm]; decide)

theorem poisonLine_new {line : Nat} (h : isLocalLine line = true) (hc : m.poison.contains line = false) :
    poisonLine m line = { m with poison := m.poison ++ [line] } := if_pos (by rw [h, hc]; rfl)

theorem poisonLine_old {line : Nat} (hc : m.poison.contains line = true) : poisonLine m line = m :=
  if_neg (by rw [hc, Bool.not_true, Bool.and_false]; decide)

/-- An error in what a saved team left on its core. -/
theorem ueAt_left {n : Nat} (hn : n < m.teams.length) (hp : (m.team n).place ≠ .resident) (ht : taggedLeft m n = true) :
    ueAt m (.team n) = loseLazy m n :=
  (if_neg fun h => hp h.2).trans (if_pos (by rw [decide_eq_true hn, ht]; rfl))

/-- Where no line can be chosen none is evicted. -/
theorem pick_none {ls : List Nat} {x : Nat} (h : ls = []) : ls[x % (ls.length + 1)]? = none := by
  subst h; rfl

end

/-- Settles O44: each event of the memory system does what its condition calls for. -/
theorem memorySystemEvents : Obligations.MemorySystemEvents := by
  intro s p c va die n line
  refine ⟨rfl, fun e lg hen hw hva hleaf hm => does_of (fillTlb_of hen hw hva hleaf hm) rfl, rfl, rfl, fun hl => ⟨rfl, ?_, ?_, ?_, ?_⟩,
    rfl, fun hn hp => ?_, fun hn hp ht => does_of (ueAt_left hn hp ht) rfl, rfl, fun k h1 h6 => ?_, rfl, ⟨fun h => ?_, fun l h => ?_⟩⟩
  · exact does_of (if_pos hl) rfl
  · exact does_of (if_pos hl) rfl
  · exact fun hc => ⟨does_of (poisonLine_new hl hc) rfl, does_of (poisonLine_new hl hc) rfl⟩
  · exact fun hc => does_of (poisonLine_old hc) rfl
  · exact does_of (if_pos ⟨hn, hp⟩) rfl
  · exact does_of (if_pos ⟨h1, h6⟩) rfl
  · change execHardwarePrefetch die n line s = _
    rw [execHardwarePrefetch]
    rw [pick_none h]
  · change execHardwarePrefetch die n line s = _
    rw [execHardwarePrefetch]
    rw [h]

section
variable {m : Mach} {p : Nat}

theorem mem_postedNow {ws : List HostWrite} {i : Nat} : i ∈ postedNow ws ↔ i < ws.length ∧ (i = 0 ∨ (ws.getD i noWrite).relaxed = true) := by
  simp [postedNow]

/-- Where no write but the first is relaxed, it alone may be performed. -/
theorem postedNow_first {w : HostWrite} {rest : List HostWrite} (h : ∀ r ∈ rest, r.relaxed = false) : postedNow (w :: rest) = [0] := by
  have hrest : ∀ i ∈ List.range rest.length, ¬(decide (i + 1 = 0) || ((w :: rest).getD (i + 1) noWrite).relaxed) = true := by
    intro i hi
    have hlt := List.mem_range.mp hi
    simp [hlt, h _ (List.getElem_mem hlt)]
  have hnil : (List.range rest.length).filter ((fun i => decide (i = 0) || ((w :: rest).getD i noWrite).relaxed) ∘ Nat.succ) = [] :=
    List.filter_eq_nil_iff.mpr hrest
  rw [postedNow, List.length_cons, List.range_succ_eq_map, List.filter_cons_of_pos (by rfl), List.filter_map, hnil]
  rfl

/-- The place of a write that may be performed, chosen freely. -/
theorem postedNow_pick {ws : List HostWrite} (h : ws ≠ []) (x : Nat) :
    (postedNow ws).getD (x % max 1 (postedNow ws).length) 0 ∈ postedNow ws := by
  have hpos : 0 < (postedNow ws).length := List.length_pos_of_mem (mem_postedNow.mpr ⟨List.length_pos_iff.mpr h, .inl rfl⟩)
  have hlt : x % max 1 (postedNow ws).length < (postedNow ws).length :=
    Nat.lt_of_lt_of_le (Nat.mod_lt _ (by omega)) (by omega)
  rw [List.getD_eq_getElem _ _ hlt]
  exact List.getElem_mem hlt

theorem hostWrite_received {w : HostWrite} (hf : functionsUp m = true) (hp : p < partCount m.pk.cur) (hw : w.atom ≠ 0 ∨ w.bytes ≠ []) :
    hostWrite m p w = m.setPart p { m.part p with posted := (m.part p).posted ++ [w] } := by
  have hsome : (decide (w.atom = 0) && w.bytes.isEmpty) = false := by
    rcases hw with h | h
    · rw [decide_eq_false h, Bool.false_and]
    · rw [List.isEmpty_eq_false_iff.mpr h, Bool.and_false]
  rw [hostWrite, if_neg (by rw [hf, decide_eq_false (Nat.not_le.mpr hp)]; decide), if_neg (by rw [hsome]; decide)]

theorem hostWrite_moment (hf : functionsUp m = true) (hp : p < partCount m.pk.cur) : hostWrite m p noWrite = performPosted m p := by
  rw [hostWrite, if_neg (by rw [hf, decide_eq_false (Nat.not_le.mpr hp)]; decide)]
  rfl

/-- The first write performed, no later one being relaxed. -/
theorem performPosted_first {w : HostWrite} {rest : List HostWrite} (hw : (m.part p).posted = w :: rest)
    (h : ∀ r ∈ rest, r.relaxed = false) :
    performPosted m p = hostPerform (m.setPart p { m.part p with posted := rest }) p w := by
  unfold performPosted
  rw [hw]
  dsimp only
  rw [postedNow_first h, show max 1 [0].length = 1 from rfl, Nat.mod_one]
  rfl

/-- Some write that may be performed is. -/
theorem performPosted_some (hw : (m.part p).posted ≠ []) : ∃ u i, (m.part p).posted[i]? = some u ∧ (i = 0 ∨ u.relaxed = true) ∧
    performPosted m p = hostPerform (m.setPart p { m.part p with posted := (m.part p).posted.eraseIdx i }) p u := by
  obtain ⟨hlt, hable⟩ := mem_postedNow.mp (postedNow_pick hw (Config.freeWord m.fresh 0).toNat)
  refine ⟨_, _, List.getElem?_eq_getElem hlt, ?_, ?_⟩
  · rwa [List.getD_eq_getElem _ _ hlt] at hable
  · unfold performPosted
    dsimp only
    rw [List.getElem?_eq_getElem hlt]

section
variable {w : HostWrite} {k : Nat} (hk : hostKey m p w.pa = some k)
include hk

theorem hostPerform_write (ha : w.atom = 0) : hostPerform m p w = outsideWrite (drainHost m p) 6 k w.bytes := by
  simp only [hostPerform, hk, ha, if_true]

theorem hostPerform_atomic (ha : w.atom ≠ 0) (hr : keyRegion k = 1) (hl : w.bytes.length = 4 ∨ w.bytes.length = 8)
    (hmod : k % w.bytes.length = 0) :
    hostPerform m p w = enqueue (drainHost m p) { port := 6, key := k, op := w.atom, val := w.bytes, cmp := w.cmp } := by
  have hok : (decide (keyRegion k = 1) && (decide (w.bytes.length = 4) || decide (w.bytes.length = 8)) &&
      decide (k % w.bytes.length = 0)) = true := by
    rw [decide_eq_true hr, decide_eq_true hmod]
    rcases hl with h | h <;> rw [h] <;> rfl
  simp only [hostPerform, hk, ha, if_false]
  exact ite_true hok _ _

end
end

/-- Settles O45: each write that no word performs, and each step of the synchronisation engines. -/
theorem outsideWrites : Obligations.OutsideWrites := by
  intro s p die bank key bs x
  refine ⟨fun r h => ?_, fun h1 h2 => ?_, fun k rest ha hm => ?_, fun h => ?_, fun hf hp => ⟨?_, ?_, ?_⟩, fun hp a ha => ⟨?_, ?_⟩⟩
  · exact does_of (m' := (serveBank s.m die bank).getD s.m) (by rw [serveBank, show nextReq (s.m.mc die) bank = some r from h]; rfl) rfl
  · exact does_of (if_pos (by rw [h1, h2]; rfl)) rfl
  · have hready : armReady (s.m.mc die) = true := by rw [armReady, show (s.m.mc die).arms = k :: rest from ha, decide_eq_true hm]; rfl
    change execMonitorArm die s = _
    rw [execMonitorArm]
    rw [hready, show (s.m.mc die).arms = k :: rest from ha]
  · exact does_of (m' := unpinAll s.m die) (if_neg (by rw [show (s.m.mc die).unpinning = true from h]; decide)) rfl
  · exact fun w hw => does_of (hostWrite_received hf hp hw) rfl
  · intro w rest hw hrest m1 k hk
    have hmoment : hostWrite s.m p noWrite = hostPerform m1 p w := (hostWrite_moment hf hp).trans (performPosted_first hw hrest)
    exact ⟨fun ha => does_of (hmoment.trans (hostPerform_write hk ha)) rfl,
      fun ha hr hl hmod => does_of (hmoment.trans (hostPerform_atomic hk ha hr hl hmod)) rfl⟩
  · intro hw
    obtain ⟨u, i, hu, hi, hd⟩ := performPosted_some hw
    exact ⟨u, i, hu, hi, does_of ((hostWrite_moment hf hp).trans hd) rfl⟩
  · exact fun hw => does_of (if_pos (by rw [hw, decide_eq_true hp, decide_eq_true ha]; rfl)) rfl
  · exact fun hw => does_of (if_neg (by rw [hw, Bool.false_and, Bool.false_and]; decide)) rfl

end Sys2Proof.Proofs
end

section
/-!
PROOFS. The copy engine, the matrix engine and the tree engine at work (10 R248 to R251, 11 R263 to R273, 12 R298, R303, R304, R308,
16 R370, R377, R381).
-/

namespace Sys2Proof.Proofs

open Sys2Proof.Machine Sys2Proof.Claims

/-! The copy engine. -/

section
variable {m : Mach} {g q : Nat} {ws : List Word}

/-- A fill command of no buffer and no ring whose fields are legal. -/
structure PlainFill (ws : List Word) : Prop where
  op : ceOp ws = 3
  cb : ceCb ws = false
  ring : ceRing ws = false
  len : ceLen ws % 8 = 0
  reserved : wb (ws.getD 0 0#64) 48 3 = 0
  word3 : ws.getD 3 0#64 = 0
  align : wb (ws.getD 2 0#64) 0 3 = 0
  bob : bobNamed ws = false

section
variable (h : PlainFill ws)
include h

theorem PlainFill.legal : ceBad m g ws = false := by
  simp [ceBad, h.op, h.cb, h.ring, h.len, h.reserved, h.word3, -List.getD_eq_getElem?_getD]

theorem PlainFill.aligned : ceMisaligned ws = [] := by
  have hmod : (ws.getD 2 0#64).toNat % 8 = 0 := by simpa [wb, bitsOf, -List.getD_eq_getElem?_getD] using h.align
  simp [ceMisaligned, h.op, h.cb, hmod, -List.getD_eq_getElem?_getD]

theorem PlainFill.faultless (counted : Bool) : ceFaults m g ws none counted = [] := by
  simp [ceFaults, h.legal, h.aligned, h.bob]

theorem PlainFill.buffer (team : Nat) : ceBuf m team ws = none := by
  rw [ceBuf, h.cb]; rfl

end

/-- A command of plain data, not a counted tile-load. -/
theorem not_counted {es : List (Word × Origin)} : (∀ e r, es = e :: r → e.2 ≠ .tile) →
    (match es with | (_, .tile) :: _ => true | _ => false) = false := by
  intro h
  rcases es with _ | ⟨⟨w, o⟩, r⟩
  · rfl
  · cases o with
    | tile => exact absurd rfl (h _ _ rfl)
    | _ => rfl

/-- Such a command leaves its queue for the engine. -/
theorem ceStart_fill (hr : ceReady m g q = true) (h : PlainFill (((qGet (m.grp g) q).elems.take 4).map Prod.fst))
    (hc : ∀ e es, (qGet (m.grp g) q).elems = e :: es → e.2 ≠ .tile) : ceStart m g q =
    (let y := m.grp g
     let x := qGet y q
     let ws := (x.elems.take 4).map Prod.fst
     let m1 := flushC1 (m.setGrp g (qSet y q { x with elems := x.elems.drop 4 })) y.die y.core
     let c := m1.core y.die y.core
     some (m1.setCore y.die y.core { c with ce := c.ce ++
      [{ grp := g, w := ws, dst := ws.getD 2 0, cb := none, slot := none, done := [], fail := [], token := none }] })) := by
  unfold ceStart
  extract_lets y x ws counted buf at' bad slot c faults dst m1 m2 takes m3 cmd c3 m1' c'
  have hcounted : counted = false := not_counted hc
  have hbuf : buf = none := h.buffer _
  have hslot : slot = none := if_pos (by rw [show ceOp ws = 3 from h.op]; exact Bool.or_true _)
  have hgo : (!ceReady m g q || buf.any (fun k => decide (k.free = 0) || relHeld m y.team (wb (ws.getD 2 0) 0 2)) ||
      slot.any fun n => loopReads c n) = false := by rw [hr, hbuf, hslot]; rfl
  refine (ite_false hgo _ _).trans ?_
  have hfaults : faults = [] := by simp only [faults, hslot, hcounted]; exact h.faultless false
  have hm3 : m3 = m1 := by simp only [m3, m2, hslot, hbuf]
  have htakes : takes = false := by simp only [takes, hslot, Option.isSome_none, Bool.false_and]
  have hcmd : cmd = { grp := g, w := ws, dst := ws.getD 2 0, cb := none, slot := none, done := [], fail := [], token := none } := by
    simp only [cmd, dst, htakes, hcounted, hbuf, hslot, hfaults, Option.map_none, Option.isSome_none, Bool.false_eq_true, if_false]
  simp only [c3, hm3, hcmd]
  rfl

end

section
variable {m : Mach} {die core k line : Nat} {c : CeCmd} (hk : (m.core die core).ce[k]? = some c)
include hk

/-- A line of a plain command whose units are found is stored and noted. -/
theorem ceLine_stored {us : List CeUnit} (hop : ceOp c.w ≠ 4) (hbob : bobNamed c.w = false) (hfail : c.fail = []) (htok : c.token = none)
    (hlt : line < ceLines c) (hnew : line ∉ c.done)
    (hus : ceUnits m c ((List.range ((ceSpan c line).2 / 8)).map fun i => (ceSpan c line).1 + 8 * i) = .ok us) :
    ceLine m die core k line = some (setCmd (cePut m (whoGroup m c.grp) us) die core k { c with done := c.done ++ [line] }) := by
  have hgo : (decide (line ≥ ceLines c) || c.done.contains line || c.token.isSome ||
      c.fail.any (fun f => f.1 = 0x01 || f.1 = 0x07 || f.1 = 0x0A)) = false := by
    rw [decide_eq_false (Nat.not_le.mpr hlt), htok, hfail, List.contains_eq_mem, decide_eq_false hnew]; rfl
  have hlast : ∀ b : Bool, (decide (ceOp c.w = 4) && b) = false := fun b => by rw [decide_eq_false hop, Bool.false_and]
  simp only [ceLine, hk, hgo, hbob, hop, hus, ceCount, hlast, Bool.false_and, Bool.false_eq_true, if_false]
  rfl

/-- A line already performed is left. -/
theorem ceLine_again (hnew : line ∈ c.done) : ceLine m die core k line = none := by
  have hstop : (decide (line ≥ ceLines c) || c.done.contains line || c.token.isSome ||
      c.fail.any (fun f => f.1 = 0x01 || f.1 = 0x07 || f.1 = 0x0A)) = true := by
    rw [List.contains_eq_mem, decide_eq_true hnew, Bool.or_true]; rfl
  simp only [ceLine, hk, hstop, if_true]

/-- A plain command whose lines are all performed leaves the engine. -/
theorem ceEnd_whole (hop : ceOp c.w ≠ 4) (hfail : c.fail = []) (htok : c.token = none) (hring : ceRing c.w = false)
    (htoken : ceTok c.w = false) (hcb : c.cb = none) (hslot : c.slot = none) (hall : ∀ n < ceLines c, n ∈ c.done) :
    ceEnd m die core k = (let m1 := setCmd m die core k c
      some (m1.setCore die core { m1.core die core with ce := (m1.core die core).ce.eraseIdx k })) := by
  have hw : ceWhole c = true := by
    rw [ceWhole, hfail, List.all_eq_true.mpr fun n hn => by simpa using hall n (List.mem_range.mp hn)]; rfl
  have hover : c.over = c := by rw [CeCmd.over, ← hslot]
  have hclose : ceClose m die core k c = setCmd m die core k c := by
    simp only [ceClose, hop, hfail, hslot, hcb, hover, decide_false, List.isEmpty_nil, Bool.not_true, Bool.false_and, Bool.false_eq_true, if_false]
  have hleave : ∀ m1, ceLeave m1 die core k c = m1.setCore die core { m1.core die core with ce := (m1.core die core).ce.eraseIdx k } := by
    intro m1
    have hst : ceStatus c = (0, 0) := by rw [ceStatus, hfail]; rfl
    simp only [ceLeave, htoken, hst, Bool.false_eq_true, if_false, ne_eq, not_true_eq_false, decide_false, Bool.false_and]
  simp only [ceEnd, hk, htok, hw, hring, hover, hclose, hleave, Option.isSome_none, Bool.false_eq_true, if_false, Bool.and_false, Bool.true_or,
    if_true]

/-- A command with lines left stays. -/
theorem ceEnd_left (hfail : c.fail = []) (htok : c.token = none) (hleft : ∃ n < ceLines c, n ∉ c.done) : ceEnd m die core k = none := by
  obtain ⟨n, hlt, hn⟩ := hleft
  have hw : ceWhole c = false := by
    rw [ceWhole, hfail, Bool.and_eq_false_iff]
    exact .inr (List.all_eq_false.mpr ⟨n, List.mem_range.mpr hlt, by simpa using hn⟩)
  simp only [ceEnd, hk, htok, hw, hfail, Option.isSome_none, Bool.false_eq_true, if_false, Bool.false_and, List.isEmpty_nil, Bool.not_true,
    Bool.or_self]

end

/-! The matrix engine. -/

section
variable {m : Mach} {die core : Nat} {o : MxOp} {os : List MxOp} (h : (m.core die core).mx = o :: os)
include h

theorem mxNext_runs (hl : loopHeld m o os = false) (hf : fenceBefore m o.grp o.seq = false) : mxNext m die core = runMx m die core o := by
  simp only [mxNext, h, hl, hf, Bool.and_false, Bool.or_self, Bool.false_eq_true, if_false]

theorem mxNext_held (hl : loopHeld m o os = true) : mxNext m die core = none := by
  simp only [mxNext, h, hl, Bool.true_or, if_true]

/-- A word that is neither a loop nor a store waits for nothing. -/
theorem mxNext_z {a : Word} (hw : o.work = .z a) : mxNext m die core = runMx m die core o := by
  simp only [mxNext, h, loopHeld, isLoop, hw, Bool.false_and, Bool.or_self, Bool.false_eq_true, if_false]
theorem mxNext_wr {a : Word} {vals : List (Nat × Word)} (hw : o.work = .wr a vals) : mxNext m die core = runMx m die core o := by
  simp only [mxNext, h, loopHeld, isLoop, hw, Bool.false_and, Bool.or_self, Bool.false_eq_true, if_false]

end

/-! The tree engine. -/

/-- A unit of the engine's work succeeds just when its actions do. -/
theorem tsRun_ok_iff {α : Type} {die : Nat} {act : Ts α} {m m1 : Mach} {v : α} :
    tsRun die act m = (.ok v, m1) ↔ (act.run).run m = (.ok v, m1) := by
  unfold tsRun
  split
  next v' m' h => rw [h]
  next e m' h => rw [h]; exact ⟨fun hv => (by cases hv), fun hv => (by cases hv)⟩

/-- An action after one that succeeds. -/
theorem ts_bind_ok {α β : Type} {act : Ts α} {f : α → Ts β} {m m1 : Mach} {v : α} (h : (act.run).run m = (.ok v, m1)) :
    ((act >>= f).run).run m = ((f v).run).run m1 := by
  simp only [ExceptT.run_bind, StateT.run_bind, h]
  rfl

section
variable {m m1 m2 : Mach} {die n : Nat} {r : TsReq} {rs : List TsReq} {y : Nat} {v : BitVec 32}
  (hts : (m.mc die).ts = r :: rs) (hw : r.walk = some (y, v, n))
include hts hw

theorem backStep_lanes (hl : lanesFirst rs = true) : backStep m die = none := by
  simp only [backStep, hts, hw, hl, if_true]

/-- A node updated leads to its parent, or ends the backup. -/
theorem backStep_node {t : Tree} {p : Nat} (hl : lanesFirst rs = false)
    (ht : tsRun die (tsTree die (whoTs m r.grp die) r.desc.toNat false) m = (.ok t, m1))
    (hn : tsRun die (backNode t y v.toNat) m1 = (.ok p, m2)) :
    backStep m die = if p = 0 || decide (n + 1 ≥ 65) then some (tsDone m2 die r [])
      else some (tsReplace m2 die r { r with walk := some (p, if t.negamax then v ^^^ 0x80000000#32 else v, n + 1) }) := by
  have hbody : tsRun die (do
      let t ← tsTree die (whoTs m r.grp die) r.desc.toNat false
      let p ← backNode t y v.toNat
      pure (p, t.negamax)) m = (.ok (p, t.negamax), m2) := by
    rw [tsRun_ok_iff] at *
    rw [ts_bind_ok ht, ts_bind_ok hn]
    rfl
  simp only [backStep, hts, hw, hl, hbody, Bool.false_eq_true, if_false]

end

/-- Settles O46: each engine does what the oldest of its work calls for. -/
theorem engineEvents : Obligations.EngineEvents := by
  refine ⟨fun s g q die core k line => ⟨fun m1 h => ?_, fun m1 h => ?_, fun m1 h => ?_, ?_, ?_⟩,
    fun s die core => ⟨?_, fun r m1 hn h => ?_, fun r rs k d hts hw hlate hwork => ?_, ?_, fun m1 h => ?_⟩⟩
  · exact does_of (congrArg (Option.getD · s.m) h) rfl
  · exact does_of (congrArg (Option.getD · s.m) h) rfl
  · exact does_of (congrArg (Option.getD · s.m) h) rfl
  · intro y x ws hr hop hcb hring hlen hres h3 halign hbob hc m1 c
    exact does_of (congrArg (Option.getD · s.m) (ceStart_fill hr ⟨hop, hcb, hring, hlen, hres, h3, halign, hbob⟩ hc)) rfl
  · intro c hk hop hbob hfail htok
    refine ⟨fun us hlt hnew hus => ?_, fun hdone => ?_, fun hring htoken hcb hslot hall => ?_, fun hleft => ?_⟩
    · exact does_of (congrArg (Option.getD · s.m) (ceLine_stored hk hop hbob hfail htok hlt hnew hus)) rfl
    · exact does_of (congrArg (Option.getD · s.m) (ceLine_again hk hdone)) rfl
    · exact does_of (congrArg (Option.getD · s.m) (ceEnd_whole hk hop hfail htok hring htoken hcb hslot hall)) rfl
    · exact does_of (congrArg (Option.getD · s.m) (ceEnd_left hk hfail htok hleft)) rfl
  · intro o os hmx
    refine ⟨fun m1 hl hf h => ?_, fun hl => ?_, fun a hw => ?_, fun a vals hw => ?_⟩
    · exact does_of (congrArg (Option.getD · s.m) ((mxNext_runs hmx hl hf).trans h)) rfl
    · exact does_of (congrArg (Option.getD · s.m) (mxNext_held hmx hl)) rfl
    · refine does_of (m' := (mxNext s.m die core).getD s.m) ?_ rfl
      rw [mxNext_z hmx hw, runMx, hw]
      simp only [Bool.decide_or]
      rfl
    · refine does_of (m' := (mxNext s.m die core).getD s.m) ?_ rfl
      rw [mxNext_wr hmx hw, runMx, hw]
      rfl
  · exact does_of (m' := (tsStep s.m die).getD s.m) (by rw [tsStep, hn, Option.bind_some, h]; rfl) rfl
  · refine does_of (m' := (tsStep s.m die).getD s.m) ?_ rfl
    have hnext : tsNext s.m die = some r := by simp only [tsNext, hts, hw]
    rw [tsStep, hnext, Option.bind_some, tsServe, hlate, hwork]
    rfl
  · intro r rs y v n hts hw
    refine ⟨fun hl => does_of (congrArg (Option.getD · s.m) (backStep_lanes hts hw hl)) rfl, fun hl t m1 p m2 ht hn => ⟨fun hend => ?_, fun hp hlt => ?_⟩⟩
    · refine does_of (congrArg (Option.getD · s.m) ((backStep_node hts hw hl ht hn).trans (if_pos ?_))) rfl
      rcases hend with rfl | h
      · rfl
      · rw [decide_eq_true (show n + 1 ≥ 65 by omega), Bool.or_true]
    · refine does_of (congrArg (Option.getD · s.m) ((backStep_node hts hw hl ht hn).trans (if_neg ?_))) rfl
      rw [decide_eq_false hp, decide_eq_false (show ¬n + 1 ≥ 65 by omega)]
      decide
  · exact does_of (congrArg (Option.getD · s.m) h) rfl

end Sys2Proof.Proofs
end

section
/-!
PROOFS. Halo snapshots (14 R336): a release acts at cluster scope before its strips are copied, and so writes back more than
what lies in them.
-/

namespace Sys2Proof.Proofs

open Sys2Proof.Machine Sys2Proof.Claims

/-- A release of one strip of no lines, by group 0, its snapshot to be taken. -/
def pendingHalo : Halo := { (default : Halo) with keys := [(0, [])], out := some (0, 0, false) }

/-- A byte that an atomic of group scope left dirty at key 5, outside every strip. -/
def strayByte : Tbl (Option DirtyA) := [(5, some { clu := none, tag := 0, val := 1 })]

/-- Team 0, a cluster of its own, has released; core 0 of die 0, on which it stands, holds the byte. -/
def releasing : State :=
  { State.reset with m := { State.reset.m with
      teams := [{ newTeam 0 0 0 0 [0] 0 0 0 with halos := [(0, pendingHalo)] }]
      cores := [(0, { (default : Core) with atoms := strayByte })] } }

/-- The bytes that narrow atomics left dirty in core 0 of die 0, after a step. -/
def atomsAfter (o : Host.Outcome State Fault Refusal) : Tbl (Option DirtyA) :=
  match o with
  | .next s => (s.m.core 0 0).atoms
  | _ => []

theorem releasing_ready : haloOf releasing.m 0 0 = some pendingHalo ∧ snapReady releasing.m pendingHalo = true := by decide

/-- The model writes the byte back: the release acts at cluster scope. -/
theorem snapshot_flushes : atomsAfter (exec (.haloSnapshot 0 0) releasing) = [] := by decide

/-- The device in which the bytes of the strips alone are written back. -/
def stripsBack : Mach :=
  (releasing.m.cores.map Prod.fst).foldl (fun m c => flushAtoms m (c / 64) (c % 64) fun k y =>
    (pendingHalo.keys.flatMap Prod.snd).contains (k / 128) && atomMine m (m.team 0).die (m.team 0).core c y) releasing.m

/-- In it the byte stays. -/
theorem strips_keep : linesPoisoned stripsBack pendingHalo.keys = false ∧ (stripsBack.core 0 0).atoms = strayByte := by decide

/-- Refutes O47: the snapshot of a release also writes back what its core left dirty outside the strips. -/
theorem not_exchangeEvents : ¬ Obligations.ExchangeEvents := by
  intro h
  obtain ⟨hhalo, hready⟩ := releasing_ready
  obtain ⟨hpoison, hkeep⟩ := strips_keep
  obtain ⟨hsnap, -⟩ := h releasing 0 0 0 0 0
  obtain ⟨-, htaken, -⟩ := hsnap pendingHalo 0 0 hhalo rfl hready
  have hatoms : atomsAfter (exec (.haloSnapshot 0 0) releasing) = strayByte :=
    (congrArg atomsAfter (htaken hpoison (by decide))).trans hkeep
  rw [snapshot_flushes] at hatoms
  cases hatoms

end Sys2Proof.Proofs
end

section
/-!
PROOFS. Graphics events (19 R403 to R424): a packet accepted, delivered or dropped, a step of the traversal unit, a repack token.
-/

namespace Sys2Proof.Proofs

open Sys2Proof.Machine Sys2Proof.Claims

section
variable {m : Mach} {p k g lane : Nat}

theorem acceptPacket_of {y : Packet} (hok : sxbAcceptable m p k = true) (hy : (m.part p).packets[k]? = some y) :
    acceptPacket m p k =
      let x := m.part p
      let ps := x.packets.eraseIdx k ++ [{ y with accepted := true }]
      let m1 := flushC1 (m.setPart p { x with packets := ps }) (m.grp y.src.1).die (m.grp y.src.1).core
      if (ps.any fun z => !z.accepted && z.src = y.src) then m1 else performed m1 y.src.1 y.src.2 [] := by
  simp only [acceptPacket, hok, hy, Bool.not_true, Bool.false_eq_true, if_false]

/-- A packet of a region that the map has no entry for is dropped and counted. -/
theorem deliverPacket_drop {ps : Pass} {y : Packet} (hpass : (m.part p).pass = some ps)
    (hy : smallestPacket (m.part p).packets k = some y) (hclose : closing m p = true) (hentry : entryOf ps k = none)
    (hmove : ∀ e ∈ movingNow m p, e.1 ≠ k) :
    deliverPacket m p k = some (m.setPart p { m.part p with
      packets := (m.part p).packets.erase y, pass := some { ps with dropped := ps.dropped + 1 } }) := by
  have hheld : ((movingNow m p).any fun e => e.1 = k) = false := by
    rw [List.any_eq_false]
    exact fun e he => by simpa using hmove e he
  simp only [deliverPacket, hpass, hy, hclose, hheld, hentry, Bool.true_or, Bool.not_true, Bool.or_false, Bool.false_eq_true, if_false]

/-- The device after a step of a traversal lane. -/
def traversed (g lane : Nat) : TvStep → Mach
  | .on m t => tvSet m g lane t
  | .stop m t c c1 => tvStop m g lane t c c1 none

/-- A running lane of a resident group that nothing stops takes the step that `tvAdvance` gives. -/
theorem tvNext_running (hfreed : (m.grp g).freed = false) (hstopped : (m.grp g).stopped = false)
    (hplace : (m.team (m.grp g).team).place = .resident) (hrun : (tvGet (m.grp g) lane).status = 5)
    (hstopping : (m.team (m.grp g).team).stopping = none) {t : TvStep}
    (hadv : tvAdvance m g (whoGroup m g) lane (tvGet (m.grp g) lane) = .ok t) : tvNext m g lane = some (traversed g lane t) := by
  simp only [tvNext, hfreed, hstopped, hplace, hrun, hstopping, hadv, Option.isSome_none, Bool.false_and, Bool.or_false,
    Bool.false_eq_true, ne_eq, not_true_eq_false, decide_false, if_false, if_true]
  cases t <;> rfl

/-- The queue with room for a repack token is bound to the RDU and holds fewer than eight elements. -/
theorem rduRoom_spec {y : Group} {q : Nat} (h : rduRoom y = some q) :
    (qGet y q).bind = .eng 4 ∧ (qGet y q).elems.length < 8 := by
  simpa using List.find?_some h

theorem pushToken_of {q : Nat} {b : Bind} (w : Word) (o : Origin) (hbind : (qGet (m.grp g) q).bind = b)
    (hlen : (qGet (m.grp g) q).elems.length < 8) :
    pushToken m g q b w o =
      some (m.setGrp g (qSet (m.grp g) q { qGet (m.grp g) q with elems := (qGet (m.grp g) q).elems ++ [(w, o)] })) := by
  simp only [pushToken, hbind, hlen, decide_true, Bool.and_self, if_true]

theorem pushRdu_of {w : Word} {rest : List Word} {q : Nat} (htok : (m.grp g).rdTok = w :: rest) (hroom : rduRoom (m.grp g) = some q)
    (hfreed : (m.grp g).freed = false) (hplace : (m.team (m.grp g).team).place = .resident) (hg : g < m.groups.length) :
    let y := { m.grp g with rdTok := rest }
    pushRdu m g = some (m.setGrp g (qSet y q { qGet y q with elems := (qGet y q).elems ++ [(w, .rd)] })) := by
  intro y
  obtain ⟨hbind, hlen⟩ := rduRoom_spec hroom
  have hself : (m.setGrp g y).grp g = y := Mach.grp_setGrp_same _ hg y
  have htaken : pushRdu m g = pushToken (m.setGrp g y) g q (.eng 4) w .rd := by
    simp only [pushRdu, htok, hroom, hfreed, hplace, y, Bool.false_or, Bool.false_eq_true, ne_eq, not_true_eq_false, decide_false,
      if_false]
  rw [htaken, pushToken_of w .rd (by rw [hself]; exact hbind) (by rw [hself]; exact hlen), hself, setGrp_setGrp]

end

/-- Settles O48, an equation per event of the graphics units. -/
theorem graphicsEvents : Obligations.GraphicsEvents := by
  unfold Obligations.GraphicsEvents
  intro s p k g lane
  refine ⟨?accept, ?deliver, ?drop, ?traverse, ?token⟩
  case accept => exact fun y hok hy => does_of (acceptPacket_of hok hy) rfl
  case deliver => exact fun m1 h => does_of (congrArg (Option.getD · s.m) h) rfl
  case drop =>
    intro x ps y hpass hy hclose hentry hmove
    exact does_of (congrArg (Option.getD · s.m) (deliverPacket_drop hpass hy hclose hentry hmove)) rfl
  case traverse =>
    intro y t hfreed hstopped hplace hrun hstopping
    have hdoes : ∀ r, tvAdvance s.m g (whoGroup s.m g) lane t = .ok r → Does (.tvuNodeStep g lane) s (traversed g lane r) :=
      fun r hr => does_of (congrArg (Option.getD · s.m) (tvNext_running hfreed hstopped hplace hrun hstopping hr)) rfl
    refine ⟨fun m1 t1 => hdoes (.on m1 t1), fun hdepth hfound => ?hit, fun hdepth hfound => ?miss⟩
    case hit =>
      exact hdoes (.stop s.m { t with status := 1 } (2 ^ 56 + t.at' 9) (t.at' 8)) (by
        simp only [tvAdvance, hdepth, hfound, if_true])
    case miss =>
      exact hdoes (.stop s.m { t with status := 0 } 0 (t.at' 8)) (by
        simp only [tvAdvance, hdepth, hfound, Bool.false_eq_true, if_true, if_false])
  case token =>
    intro w rest q htok hroom hfreed hplace y hg
    exact does_of (congrArg (Option.getD · s.m) (pushRdu_of htok hroom hfreed hplace hg)) rfl

end Sys2Proof.Proofs
end

section
/-!
PROOFS. Contexts, control registers and the reset of the package (21 R430 to R441).
-/

namespace Sys2Proof.Proofs

open Sys2Proof.Machine Sys2Proof.Claims

/-! Contexts (R433). -/

section
variable {m : Mach} {p c : Nat}

theorem enableCtx_noEntry (h : ctxEntry m p c = none) : enableCtx m p c = some (endCtxOp m p 2) := by
  simp only [enableCtx, h]

/-- An enable that is not one held at a migrating page judges the context's entry. -/
theorem enableCtx_entry {e : List Nat} (hop : ctxOp m p = some (1, c)) (h : ctxEntry m p c = some e) :
    enableCtx m p c =
      if c > (m.part p).ctxbase.toNat % 4096 || !entryOk e || (m.ctx p c).enabled then some (endCtxOp m p 2)
      else some (acceptRcp (loadCtx m p c e) p c (bitsOf (e.getD 1 0) 0 48)) := by
  have hfirst : (m.part p).ctxops.head? ≠ some (3, c) := by
    rw [show (m.part p).ctxops.head? = some (1, c) from hop]; simp
  simp only [enableCtx, h, if_neg hfirst]

theorem ctxEnable_does {s : State} {m1 : Mach} (hop : ctxOp s.m p = some (1, c)) (h : enableCtx s.m p c = some m1) :
    Does (.ctxEnable p c) s m1 :=
  does_of (m' := if ctxOp s.m p = some (1, c) || ctxOp s.m p = some (3, c) then (enableCtx s.m p c).getD s.m else s.m)
    (by simp only [hop, h, decide_true, Bool.true_or, if_true, Option.getD_some]) rfl

/-- What CTX_DISABLE does for the operation that waits first. -/
theorem ctxDisable_does {s : State} {op : Nat} {m1 : Mach} (hop : ctxOp s.m p = some (op, c))
    (h : (if op = 2 then disableCtx s.m p c else if op = 4 then endDisable s.m p c 4 2
      else if op = 5 then endDisable s.m p c 5 0 else s.m) = m1) : Does (.ctxDisable p c) s m1 := by
  show execCtxDisable p c s = _
  simp only [execCtxDisable, hop, ne_eq, not_true_eq_false, if_false, h]

theorem ctxDisable_begins {s : State} (hop : ctxOp s.m p = some (2, c)) : Does (.ctxDisable p c) s (disableCtx s.m p c) :=
  ctxDisable_does hop rfl

theorem ctxDisable_goesOn {s : State} (hop : ctxOp s.m p = some (5, c)) : Does (.ctxDisable p c) s (endDisable s.m p c 5 0) :=
  ctxDisable_does hop rfl

theorem disableCtx_enabled (h : (m.ctx p c).enabled = true) : disableCtx m p c = endDisable (stopCtx m p c) p c 5 0 := by
  simp only [disableCtx, h, if_true]

theorem disableCtx_disabled (h : (m.ctx p c).enabled = false) : disableCtx m p c = endCtxOp m p 2 := by
  simp only [disableCtx, h, Bool.false_eq_true, if_false]

theorem endDisable_quiet {op res : Nat} (h : ctxQuiet m p c = true) :
    endDisable m p c op res = endCtxOp (clearCtx m p c) p res := by
  simp only [endDisable, h, if_true]

theorem endDisable_busy {op res : Nat} (h : ctxQuiet m p c = false) : endDisable m p c op res = setCtxOp m p op c := by
  simp only [endDisable, h, Bool.false_eq_true, if_false]

end

/-! Registers (R431, R437, R439). -/

section
variable {m : Mach} {p : Nat} {v : Word}

theorem writeReg_down (off : Nat) (h : functionsUp m = false) : writeReg m p off v = m := by
  simp only [writeReg, h, Bool.false_and, Bool.false_eq_true, if_false]

theorem writeReg_up (off : Nat) (h : functionsUp m = true) (hp : p < partCount m.pk.cur) :
    writeReg m p off v = devWrite m p off v fun _ => true := by
  simp only [writeReg, h, hp, decide_true, Bool.and_self, if_true]

/-- A register below 0x100 that appears is a control register of its partition. -/
theorem writeReg_ctl {off : Nat} (h : functionsUp m = true) (hp : p < partCount m.pk.cur) (hoff : off < 0x100) :
    writeReg m p off v = ctlWrite m p off v fun _ => true := by
  rw [writeReg_up off h hp, devWrite, if_pos hoff]

theorem pmodeWrite_other {n : Nat} (hp : p ≠ 0) : pmodeWrite m p n = m := if_pos hp

/-- Whether each partition of a mode has a shading die and a memory-cache die (R439). -/
def modeStaffed (m : Mach) (mode : Nat) : Bool :=
  (List.range (partCount mode)).all fun q =>
    (List.range 12).any (fun d => m.pk.has d && isShading d && partIn m.pk mode d 0 = q) && !(memDiesIn m.pk mode q).isEmpty

theorem modeStaffed_of {mode : Nat} (h : ∀ q < partCount mode,
    (∃ d < 12, m.pk.has d = true ∧ isShading d = true ∧ partIn m.pk mode d 0 = q) ∧ memDiesIn m.pk mode q ≠ []) :
    modeStaffed m mode = true := by
  simpa [modeStaffed, and_assoc] using h

theorem pmodeWrite_refused {n : Nat} (h : n % 4 = 3 ∨ (n % 4 = 2 ∧ m.pk.beds = 1) ∨ ∃ q < 4, anyCtx m q = true) :
    let x1 := if bitAt n 7 then { m.part 0 with err := false } else m.part 0
    pmodeWrite m 0 n = m.setPart 0 { x1 with err := true } := by
  intro x1
  refine (if_neg (not_not.mpr rfl)).trans (if_pos ?_)
  have hany : (∃ q < 4, anyCtx m q = true) ↔ (List.range 4).any (anyCtx m) = true := by simp
  rw [hany] at h
  simp only [Bool.or_eq_true, Bool.and_eq_true, decide_eq_true_eq]
  tauto

theorem pmodeWrite_taken {n : Nat} (hctx : ∀ q < 4, anyCtx m q = false) (hmode : n % 4 ≠ 3) (hbeds : n % 4 = 2 → m.pk.beds ≠ 1)
    (hstaffed : modeStaffed m (n % 4) = true) :
    let x1 := if bitAt n 7 then { m.part 0 with err := false } else m.part 0
    pmodeWrite m 0 n = { m.setPart 0 x1 with pk := { m.pk with mode := n % 4, pend := true } } := by
  intro x1
  refine (if_neg (not_not.mpr rfl)).trans (if_neg ?_)
  have hnone : (List.range 4).any (anyCtx m) = false := by simpa using hctx
  have hok : (!modeStaffed m (n % 4)) = false := by rw [hstaffed]; rfl
  simp only [modeStaffed] at hok
  simp only [hnone, hok, Bool.or_eq_true, Bool.and_eq_true, decide_eq_true_eq, Bool.false_eq_true, or_false]
  tauto

theorem ctlWrite_pmode : ctlWrite m p 0x00 v (fun _ => true) = pmodeWrite m p v.toNat := rfl

theorem ctlWrite_quota {cov : Nat → Bool} : ctlWrite m p 0x20 v cov =
    if 16 < wb v 0 4 + wb v 4 4 + wb v 8 4 + wb v 12 4 then m
    else m.setPart p { m.part p with quota := BitVec.ofNat 64 (v.toNat % 2 ^ 16) } := rfl

theorem ctlWrite_weight {cov : Nat → Bool} : ctlWrite m p 0x28 v cov =
    m.setPart p { m.part p with weight := BitVec.ofNat 64 (max 1 (wb v 4 4) * 16 + max 1 (wb v 0 4)) } := rfl

theorem ctlWrite_flogtail {off : Nat} {cov : Nat → Bool} (hoff : off = 0x58) : ctlWrite m p off v cov =
    if 0 < (v.toNat + 2 ^ 32 - (m.part p).floghead) % 2 ^ 32 ∧ (v.toNat + 2 ^ 32 - (m.part p).floghead) % 2 ^ 32 < 2 ^ 31 then m
    else m.setPart p { m.part p with flogtail := v.toNat % 2 ^ 32 } := by
  unfold ctlWrite
  split
  case h_10 => rfl
  case h_12 => exact absurd hoff ‹off = 0x58 → False›
  all_goals omega

theorem ctlWrite_floglost : ctlWrite m p 0x60 v (fun _ => true) =
    if true = true ∧ wb v 32 1 = 1 then m.setPart p { m.part p with flogovf := false, floglost := 0 } else m := rfl

theorem wb_bit_eq_one (i : Nat) : wb v i 1 = 1 ↔ bitAt v.toNat i = true := by
  simp [wb, bitsOf, bitAt]

/-- FLOGTAIL at the head empties the log; one above it changes nothing (R437). -/
theorem ctlWrite_tailAtHead {cov : Nat → Bool} (h : v.toNat % 2 ^ 32 = (m.part p).floghead) :
    ctlWrite m p 0x58 v cov = m.setPart p { m.part p with flogtail := (m.part p).floghead } := by
  have hup : (v.toNat + 2 ^ 32 - (m.part p).floghead) % 2 ^ 32 = 0 := by omega
  rw [ctlWrite_flogtail rfl, hup, if_neg (by decide), h]

theorem ctlWrite_tailAbove {cov : Nat → Bool} (h : v.toNat % 2 ^ 32 = (m.part p).floghead + 1) : ctlWrite m p 0x58 v cov = m := by
  have hup : (v.toNat + 2 ^ 32 - (m.part p).floghead) % 2 ^ 32 = 1 := by omega
  rw [ctlWrite_flogtail rfl, hup, if_pos (by decide)]

/-- A base or a size stands while a context is enabled. -/
theorem ctlWrite_locked {off : Nat} {cov : Nat → Bool} (hoff : off ∈ [0x10, 0x30, 0x38, 0x40, 0x48]) (h : anyCtx m p = true) :
    ctlWrite m p off v cov = m := by
  simp only [List.mem_cons, List.not_mem_nil, or_false] at hoff
  obtain rfl | rfl | rfl | rfl | rfl := hoff <;> exact if_pos h

/-- PART, FLOGHEAD and LINKS are read-only. -/
theorem ctlWrite_readOnly {off : Nat} {cov : Nat → Bool} (hoff : off ∈ [0x08, 0x50, 0x68]) : ctlWrite m p off v cov = m := by
  simp only [List.mem_cons, List.not_mem_nil, or_false] at hoff
  obtain rfl | rfl | rfl := hoff <;> rfl

end

/-- A register write that has the effect of its control register. -/
theorem registerWrite_does {s : State} {p off : Nat} {v : Word} {m1 : Mach} (hup : functionsUp s.m = true)
    (hp : p < partCount s.m.pk.cur) (hoff : off / 8 * 8 < 0x100) (h : ctlWrite s.m p (off / 8 * 8) v (fun _ => true) = m1) :
    Does (.registerWrite p off v) s m1 :=
  does_of ((writeReg_ctl hup hp hoff).trans h) rfl

theorem mem_outsideMem {mem : List Host.Cell} {e : Host.Cell} (he : e ∈ mem) :
    e ∈ outsideMem mem ↔ keyRegion e.1 ≠ 1 ∧ keyRegion e.1 ≠ 3 := by
  simp [outsideMem, he]

theorem resetPackage_err (m : Mach) : ((resetPackage m).part 0).err = (m.part 0).err := by
  have hpart : (resetPackage m).part 0 = { Part.reset with err := (m.part 0).err } := Tbl.get_set_same ..
  rw [hpart]

/-- Settles O49: an equation per register and per operation at CTXCTL. -/
theorem partitionEvents : Obligations.PartitionEvents := by
  unfold Obligations.PartitionEvents
  intro s p c v x n
  refine ⟨?enable, ?noEntry, ?entry, ?disable, ?drained, ?down, ?up, ?reset⟩
  case enable => exact fun m1 => ctxEnable_does
  case noEntry => exact fun hop h => ctxEnable_does hop (enableCtx_noEntry h)
  case entry =>
    intro e hop he
    have hjudge := enableCtx_entry hop he
    refine ⟨fun hbad => ctxEnable_does hop (hjudge.trans (if_pos ?_)), fun hbase hok hoff => ctxEnable_does hop (hjudge.trans (if_neg ?_))⟩
    · obtain h | h | h := hbad <;> simp [x, h]
    · simp only [hok, hoff]; simpa using hbase
  case disable =>
    intro hop
    refine ⟨fun hon => ?_, fun hoff => disableCtx_disabled hoff ▸ ctxDisable_begins hop⟩
    have hstops := disableCtx_enabled hon ▸ ctxDisable_begins hop
    exact ⟨fun hq => endDisable_quiet hq ▸ hstops, fun hq => endDisable_busy hq ▸ hstops⟩
  case drained => exact fun hop hq => endDisable_quiet hq ▸ ctxDisable_goesOn hop
  case down =>
    exact fun h => ⟨does_of (writeReg_down _ h) rfl, does_of (writeReg_down _ h) rfl, fun off => does_of (writeReg_down _ h) rfl⟩
  case up =>
    intro hup hp
    have hreg : ∀ off m1, off / 8 * 8 < 0x100 → ctlWrite s.m p (off / 8 * 8) v (fun _ => true) = m1 → Does (.registerWrite p off v) s m1 :=
      fun off m1 => registerWrite_does hup hp
    have hctl : ∀ off {m1}, off < 0x100 → ctlWrite s.m p off v (fun _ => true) = m1 → writeReg s.m p off v = m1 :=
      fun off _ hoff h => (writeReg_ctl hup hp hoff).trans h
    refine ⟨?pmodeOther, ?pmode, ?quota, ?weight, ?tailAt, ?tailAbove, ?lost, ?lostNot, ?locked, ?readOnly, ?ctxbase, ?poolsize, ?any⟩
    case pmodeOther => exact fun h => does_of (hctl 0x00 (by decide) (ctlWrite_pmode.trans (pmodeWrite_other h))) rfl
    case pmode =>
      intro hp0
      subst hp0
      exact ⟨fun h => does_of (hctl 0x00 (by decide) (ctlWrite_pmode.trans (pmodeWrite_refused h))) rfl, fun hctx hmode hbeds hstaffed =>
        does_of (hctl 0x00 (by decide) (ctlWrite_pmode.trans (pmodeWrite_taken hctx hmode hbeds (modeStaffed_of hstaffed)))) rfl⟩
    case quota =>
      exact ⟨fun h => does_of (hctl 0x20 (by decide) (ctlWrite_quota.trans (if_neg (Nat.not_lt.mpr h)))) rfl,
        fun h => does_of (hctl 0x20 (by decide) (ctlWrite_quota.trans (if_pos h))) rfl⟩
    case weight => exact does_of (hctl 0x28 (by decide) ctlWrite_weight) rfl
    case tailAt => exact fun h => does_of (hctl 0x58 (by decide) (ctlWrite_tailAtHead h)) rfl
    case tailAbove => exact fun h => does_of (hctl 0x58 (by decide) (ctlWrite_tailAbove h)) rfl
    case lost =>
      exact fun h => does_of (hctl 0x60 (by decide) (ctlWrite_floglost.trans (if_pos ⟨rfl, (wb_bit_eq_one 32).mpr h⟩))) rfl
    case lostNot =>
      intro h
      refine does_of (hctl 0x60 (by decide) (ctlWrite_floglost.trans (if_neg fun hset => ?_))) rfl
      rw [(wb_bit_eq_one 32).mp hset.2] at h
      cases h
    case locked => exact fun off hoff h => hreg off _ (by simp only [List.mem_cons, List.not_mem_nil, or_false] at hoff; omega) (ctlWrite_locked hoff h)
    case readOnly => exact fun off hoff => hreg off _ (by simp only [List.mem_cons, List.not_mem_nil, or_false] at hoff; omega) (ctlWrite_readOnly hoff)
    case ctxbase => exact fun off hoff h => hreg off _ (by omega) (by rw [hoff]; exact if_neg (by simp [h]))
    case poolsize => exact fun off hoff h => hreg off _ (by omega) (by rw [hoff]; exact if_neg (by simp [h]))
    case any => exact fun off => does_of (writeReg_up _ hup hp) rfl
  case reset =>
    exact ⟨_, rfl, rfl, rfl, rfl, rfl, rfl, rfl, rfl, rfl, rfl, rfl, resetPackage_err s.m, fun e => mem_outsideMem⟩

end Sys2Proof.Proofs
end

section
/-!
PROOFS. Relmer links and the package: ports and routes, images, clocks, the lifetime records and power (21 R443 to R448).
-/

namespace Sys2Proof.Proofs

open Sys2Proof.Machine Sys2Proof.Claims

/-! Links and routes (R443, R444). -/

section
variable {m : Mach} {n : Nat}

theorem isPort_external (h : n < 8 * m.pk.beds) (hn : n < 16) : isPort m n = true := by
  simp only [isPort, hn, h, if_true, decide_true]

theorem isPort_die (hn : n < 12) : isPort m (16 + n) = m.pk.has n := by
  rw [isPort, if_neg (by omega), if_pos (by omega), Nat.add_sub_cancel_left]

theorem laneFails_first (h : isPort m n = true) (hlane : Tbl.get 0 m.pk.lanes n = 0) : laneFails m n =
    { m with pk := { m.pk with lanes := Tbl.set 0 m.pk.lanes n 1 } }.onLife fun l =>
      { l with lanesSpared := countUp l.lanesSpared n } := by
  rw [laneFails, if_neg (by rw [h]; decide), hlane]
  exact if_pos rfl

theorem laneFails_again (h : isPort m n = true) (hlane : 0 < Tbl.get 0 m.pk.lanes n) : laneFails m n =
    markDown { m with pk := { m.pk with lanes := Tbl.set 0 m.pk.lanes n (Tbl.get 0 m.pk.lanes n + 1) } } n := by
  rw [laneFails, if_neg (by rw [h]; decide)]
  exact if_neg (by omega)

theorem markDown_up (h : isPort m n = true) (hup : portDown m n = false) :
    markDown m n = freeRoutes { m with pk := failOver { m.pk with links := m.pk.links + 2 ^ n } n } :=
  if_neg (by rw [h, hup]; decide)

theorem retrain_ok (h : isPort m n = true) : retrain m n true =
    { m with pk := { m.pk with fails := Tbl.set 0 m.pk.fails n 0 } }.onLife fun l => { l with relRetrains := countUp l.relRetrains n } := by
  rw [retrain, if_neg (by rw [h]; decide)]
  exact if_neg (by simp)

theorem retrain_failed (h : isPort m n = true) : retrain m n false =
    (let f := Tbl.get 0 m.pk.fails n + 1
     let m1 := { m with pk := { m.pk with fails := Tbl.set 0 m.pk.fails n f } }.onLife fun l =>
       { l with relRetrains := countUp l.relRetrains n }
     if 3 ≤ f then markDown m1 n else m1) := by
  rw [retrain, if_neg (by rw [h]; decide)]
  rfl

theorem rewriteRoute_of {dst a b : Nat} (hbed : n < m.pk.beds) (hdst : dst < 65548) : rewriteRoute m n dst a b =
    (let at' := routeAt n dst
     let k := { m.pk with routes := Tbl.put m.pk.routes at' (a, b), alt := m.pk.alt.filter (· ≠ at') }
     freeRoutes { m with pk := if bitAt k.links a then { k with alt := k.alt ++ [at'] } else k }) := by
  rw [rewriteRoute, if_neg (by simp [hbed, hdst])]

end

/-! Images (R445) and clocks (R447). -/

section
variable {m : Mach} {im : Image}

theorem loadImage_accepted (hk : im.kind < 3) (h : imageOk m im = true) : loadImage m im =
    { m with pk := { m.pk with
      images := Tbl.set none m.pk.images im.kind (some im), recovery := if im.kind = 0 then false else m.pk.recovery } } := by
  rw [loadImage, if_neg (by omega), if_pos h]

theorem loadImage_rejected (hk : im.kind < 3) (h : imageOk m im = false) : loadImage m im =
    (let m1 := m.onLife fun l => { l with rejections := min (l.rejections + 1) (2 ^ 64 - 1) }
     if im.kind = 0 ∧ Tbl.get none m.pk.images 0 = none then { m1 with pk := { m1.pk with recovery := true } } else m1) := by
  rw [loadImage, if_neg (by omega), if_neg (by rw [h]; decide)]
  simp only [Option.isNone_iff_eq_none]

/-- A table after a write at one key. -/
theorem get_set_ite (t : Tbl Nat) (n x i : Nat) : Tbl.get 0 (Tbl.set 0 t n x) i = if i = n then x else Tbl.get 0 t i := by
  split
  case isTrue h => rw [h, Tbl.get_set_same]
  case isFalse h => exact Tbl.get_set_other 0 t h x

end

/-! Power (R447, R448). -/

/-- With the power off nothing runs. -/
theorem step_offState (s : State) (flash : Life) : step (offState s flash) = .fault .poweredOff := rfl

/-- What a loss of power leaves: the images, and the records that flash holds. -/
theorem offState_keeps (s : State) (flash : Life) :
    let t := offState s flash
    t.m.pk.on = false ∧ t.m.pk.life = flash ∧ t.m.pk.flash = flash ∧ t.m.pk.images = s.m.pk.images ∧ t.m.groups = [] ∧
      step t = .fault .poweredOff :=
  ⟨rfl, rfl, rfl, rfl, rfl, step_offState s flash⟩

/-- Settles O50, an equation per event of the links and of the package. -/
theorem linkAndPackageEvents : Obligations.LinkAndPackageEvents := by
  unfold Obligations.LinkAndPackageEvents
  refine ⟨fun s n => ⟨fun hport => ?port, ?route, ⟨fun h => isPort_external h.1 h.2, isPort_die⟩, ?noRoute⟩,
    fun s => ⟨?image, ?measure, ?cap, ?clock, ?island, ?flush, ?read, ?off⟩⟩
  case port =>
    refine ⟨does_of (if_pos hport) rfl, fun h => does_of (laneFails_first hport h) rfl, fun h => does_of (laneFails_again hport h) rfl,
      fun hlanes hup => ?down, does_of (retrain_ok hport) rfl, does_of (retrain_failed hport) rfl⟩
    refine does_of ((if_pos ?_).trans (markDown_up hport hup)) rfl
    rw [decide_eq_true hlanes, Bool.true_or]
  case route => exact fun dst a b hbed hdst => does_of (rewriteRoute_of hbed hdst) rfl
  case noRoute => exact fun a hn hfreed => does_of (if_pos ⟨hn, by rw [hfreed]; rfl⟩) rfl
  case image =>
    exact fun im hk => ⟨fun h => does_of (loadImage_accepted hk h) rfl, fun h => does_of (loadImage_rejected hk h) rfl⟩
  case measure => exact does_of rfl rfl
  case cap => exact fun w => does_of rfl rfl
  case clock =>
    intro isl mhz hisl hstep hpos hmax
    exact ⟨_, does_of (if_pos ⟨by simpa using hisl, hstep, hmax, hpos.ne'⟩) rfl, fun i => get_set_ite _ _ _ i, rfl⟩
  case island =>
    intro isl hisl
    have hin : (islands s.m.pk).contains isl = true := by simpa using hisl
    exact ⟨fun hcool => does_of (if_pos ⟨hin, by simpa using hcool⟩) rfl, does_of (if_pos hin) rfl⟩
  case flush => exact does_of rfl rfl
  case read => exact does_of rfl rfl
  case off =>
    intro i life hi
    have hexec : exec i s = .next (offState s life) := by
      simp only [List.mem_cons, List.not_mem_nil, or_false, Prod.mk.injEq] at hi
      obtain ⟨rfl, rfl⟩ | ⟨rfl, rfl⟩ | ⟨rfl, rfl⟩ := hi <;> rfl
    exact ⟨_, hexec, offState_keeps s life⟩

end Sys2Proof.Proofs
end
